-- ==== Sys2Proof/Word.lean ====
section
/-! DEFINITION. The word types of the BHN-9400 model and the generic sparse map every table of the
machine's state is held in. -/

namespace Sys2Proof

/-- A 32-bit element slot of a token payload (R26). -/
abbrev Slot := BitVec 32
/-- A 64-bit register or memory word (R3). -/
abbrev Word64 := BitVec 64
/-- One 128-bit instruction slot (R36). -/
abbrev Word128 := BitVec 128
/-- A colour number within a world (R30). -/
abbrev Colour := BitVec 8
/-- A context number within a world (R31). -/
abbrev Context := BitVec 8
/-- An iteration tag (R32). -/
abbrev IterTag := BitVec 16

/-- A finite map from numbers, as plain data: keys strictly rising, no entry equal to the default
that an unlisted key reads as.  `mget` and `mput` in `Machine/Maps.lean` are its operations. -/
abbrev FMap (α : Type) := List (Nat × α)

end Sys2Proof
end

