-- ==== Sys2Proof/Config.lean ====
section
/-! DEFINITION. What an implementation fixes and the manual does not: constants without a body, and the free
values of the results that the manual leaves open. -/

namespace Sys2Proof

/-- The k-th free value: the value of a result that the manual does not state (assumption 20). -/
opaque Config.freeWord : Nat → BitVec 64

/-- What Round writes for −2^(−B) under an NZ-extra entry with FRAC 0, by EXP and BIAS (R121, assumption 36). -/
opaque Config.nzCode : Nat → Int → Nat

/-- DEVID, the device's identity, fused at manufacture (R413, assumption 21). -/
opaque Config.devid : BitVec 384

/-- Whether a debug-unlock signature over the given words verifies under the fused key (R413, assumption 21). -/
opaque Config.sigOk : BitVec 32 → BitVec 384 → BitVec 256 → BitVec 768 → Bool

/-- The measurement of the firmware that the device is made with (R410, assumption 21). -/
opaque Config.firmware : BitVec 384

/-- The die whose command processors run a queue of a world (R15, R408, assumption 24). -/
opaque Config.queueDie : BitVec 4 → Nat → Fin 4

/-- What an interface report holds beside the fields that the manual gives (R358, assumption 22). -/
opaque Config.report : Nat → List Nat

/-- The thermal limit that the power controller sets when it lowers or raises it (R409, assumption 23). -/
opaque Config.thermalStep : Nat → Bool → Nat

/-- The highest junction temperature of a die, in °C (R409, assumption 23). -/
opaque Config.maxJunction : Nat → Nat

/-- The cipher bytes of a save image's body (R394, assumption 9). -/
opaque Config.cipherByte : Nat → Nat → BitVec 8

/-- The size, in units of 16 bytes, of the parts of a save image whose layout the manual does not give (assumption 9). -/
opaque Config.imageUnits : Nat → Nat

end Sys2Proof
end

