-- ==== Sys2Proof/Machine/Maps.lean ====
section
/-! DEFINITION. Sparse maps in one canonical form (keys strictly rising, no entry equal to what an
unlisted key reads as), and the small list operations the machine shares. -/

namespace Sys2Proof.Machine

/-- The entry of key `k`, if one is listed. -/
def mfind {α : Type} : FMap α → Nat → Option α
  | [], _ => none
  | (j, v) :: m, k => if j = k then some v else mfind m k

/-- What key `k` reads as: its entry, or the default `d`. -/
def mget {α : Type} (d : α) (m : FMap α) (k : Nat) : α := (mfind m k).getD d

/-- The map without key `k`. -/
def mdel {α : Type} : FMap α → Nat → FMap α
  | [], _ => []
  | (j, v) :: m, k => if j = k then mdel m k else (j, v) :: mdel m k

/-- The map with entry `(k, v)` in its place among strictly rising keys. -/
def mins {α : Type} : FMap α → Nat → α → FMap α
  | [], k, v => [(k, v)]
  | (j, u) :: m, k, v =>
    if k < j then (k, v) :: (j, u) :: m
    else if j = k then (k, v) :: m
    else (j, u) :: mins m k v

/-- Writing `v` at key `k`: writing the default removes the entry, so equal maps are equal data. -/
def mput {α : Type} [DecidableEq α] (d : α) (m : FMap α) (k : Nat) (v : α) : FMap α :=
  if v = d then mdel m k else mins m k v

/-- The canonical form: keys strictly rising above `lo`, no entry equal to the default. -/
def mwfFrom {α : Type} [DecidableEq α] (d : α) : Option Nat → FMap α → Bool
  | _, [] => true
  | lo, (k, v) :: m => (match lo with | none => true | some l => decide (l < k)) && decide (v ≠ d) && mwfFrom d (some k) m

/-- The canonical form of a map whose unlisted keys read as `d`. -/
def mwf {α : Type} [DecidableEq α] (d : α) (m : FMap α) : Bool := mwfFrom d none m

/-- Apply `f` to what key `k` reads as. -/
def mupd {α : Type} [DecidableEq α] (d : α) (m : FMap α) (k : Nat) (f : α → α) : FMap α :=
  mput d m k (f (mget d m k))

/-- The elements of a list with their positions. -/
def enumFrom {α : Type} : Nat → List α → List (Nat × α)
  | _, [] => []
  | n, a :: l => (n, a) :: enumFrom (n + 1) l

/-- Replace the first element that satisfies `p` by `f` of it. -/
def updFirst {α : Type} (p : α → Bool) (f : α → α) : List α → List α
  | [] => []
  | a :: l => if p a then f a :: l else a :: updFirst p f l

/-- Remove the first element that satisfies `p`. -/
def delFirst {α : Type} (p : α → Bool) : List α → List α
  | [] => []
  | a :: l => if p a then l else a :: delFirst p l

/-- The element of a nonempty list that `better` puts first; the earliest of equals. -/
def bestOf {α : Type} (better : α → α → Bool) : List α → Option α
  | [] => none
  | a :: l => match bestOf better l with
    | none => some a
    | some b => if better b a then some b else some a

/-- Insert before the first element that `a` precedes (stable insertion sort step). -/
def insSorted {α : Type} (lt : α → α → Bool) (a : α) : List α → List α
  | [] => [a]
  | b :: l => if lt a b then a :: b :: l else b :: insSorted lt a l

/-- Stable insertion sort. -/
def sortBy {α : Type} (lt : α → α → Bool) : List α → List α
  | [] => []
  | a :: l => insSorted (fun x y => !(lt y x)) a (sortBy lt l)

/-- `[0, 1, …, n-1]`. -/
def upto (n : Nat) : List Nat := List.range n

end Sys2Proof.Machine
end

