-- ==== Sys2Proof/Syntax.lean ====
section
/-! DEFINITION. The instructions and events of the BHN-9400: the one inductive `Instr` with a
constructor for every row of the opcode table, and the plain data its constructors carry. -/

namespace Sys2Proof

/-! ### The common header of a main instruction (R72–R77) -/

/-- Rounding selected by the rnd field (R76); 0b110 is reserved and no constructor. -/
inductive Rnd where
  | rne | rtz | rup | rdn | rna | sr | dflt
  deriving DecidableEq, Repr

/-- Guard mode of one predicate position (R73); 0b11 is reserved. -/
inductive GuardMode where
  | none | onTrue | onFalse
  deriving DecidableEq, Repr

/-- The gd field (R73): the modes of predicate positions 0 and 1 and the combine bit (OR when set). -/
structure Guard where
  m0 : GuardMode
  m1 : GuardMode
  orr : Bool
  deriving DecidableEq, Repr

/-- A target field (R37, R75). -/
inductive Target where
  | none
  | operand (slot : BitVec 7) (pos : BitVec 3)
  | pred (slot : BitVec 7) (pos : BitVec 3)
  | chan (port : BitVec 7)
  deriving DecidableEq, Repr

/-- Scopes (R80, R222). -/
inductive Scope where
  | cell | spire | die | dev | dom | sys
  deriving DecidableEq, Repr

/-- The ORD field (R80). -/
inductive Ord where
  | plain | acq | rel | acqrel
  deriving DecidableEq, Repr

/-- The common header of R72 less its op, which the constructor of `Instr` names. -/
structure Hdr where
  fmt : BitVec 4
  rnd : Rnd
  gd : Guard
  nopd : BitVec 3
  imask : BitVec 5
  t0 : Target
  t1 : Target
  hint : BitVec 3
  swz : BitVec 3
  sched : BitVec 4
  deriving DecidableEq, Repr

/-! ### Class payloads (R78), one structure per layout -/

/-- Layout A: K1 above K0, or one 64-bit constant K. -/
structure PayA where
  k : BitVec 64
  deriving DecidableEq, Repr

/-- Layout C. -/
structure PayC where
  blk : BitVec 6
  auxi : BitVec 12
  cctl : BitVec 14
  k0 : BitVec 32
  deriving DecidableEq, Repr

/-- Layout N (R82): both words of a loop nest; `strides` holds the fifteen signed bytes of slot j + 1. -/
structure PayN where
  sh2 : BitVec 4
  ext4 : BitVec 12
  ext3 : BitVec 12
  ext2 : BitVec 12
  ext1 : BitVec 12
  ext0 : BitVec 12
  sh0 : BitVec 4
  sh1 : BitVec 4
  strides : BitVec 120
  deriving DecidableEq, Repr

/-- Layout L. -/
structure PayL where
  lctl : BitVec 16
  k0 : BitVec 32
  deriving DecidableEq, Repr

/-- Layout V. -/
structure PayV where
  dfmt : BitVec 4
  vctl : BitVec 12
  k0 : BitVec 32
  deriving DecidableEq, Repr

/-- Layout X. -/
structure PayX where
  bfmt : BitVec 4
  ofmt : BitVec 4
  mctl : BitVec 16
  k0 : BitVec 32
  deriving DecidableEq, Repr

/-- Layout W. -/
structure PayW where
  wself : BitVec 7
  wpred : BitVec 7
  wsucc : BitVec 7
  scope : Scope
  ord : Ord
  mctl : BitVec 6
  ofs : BitVec 32
  deriving DecidableEq, Repr

/-- Layout E. -/
structure PayE where
  scope : Scope
  ectl : BitVec 13
  k0 : BitVec 32
  deriving DecidableEq, Repr

/-- Layout Q. -/
structure PayQ where
  qctl : BitVec 16
  k0 : BitVec 32
  deriving DecidableEq, Repr

/-- Layout S. -/
structure PayS where
  sreg : BitVec 12
  k0 : BitVec 32
  deriving DecidableEq, Repr

/-! ### Tokens (R25–R27) -/

/-- The tag of a token, which is its match key (R25). -/
structure Tag where
  colour : Colour
  context : Context
  iter : IterTag
  deriving DecidableEq, Repr

/-- Token kinds (R27). -/
inductive TokKind where
  | data | scale | marker | drain | exc | done
  deriving DecidableEq, Repr

/-- A value with its valid mask: sixteen 32-bit slots, slot i at bits [32·i+31 : 32·i] (R26). -/
structure Val where
  valid : BitVec 16
  slots : BitVec 512
  deriving DecidableEq, Repr

/-- A token: header fields and payload (R25, R26). -/
structure Token where
  tag : Tag
  kind : TokKind
  aux : BitVec 12
  val : Val
  deriving DecidableEq, Repr

/-! ### Names of things in the device -/

/-- A context of a world (R31). -/
structure CtxId where
  w : BitVec 4
  x : Context
  deriving DecidableEq, Repr

/-- A node of a context, by its number in source order (R298). -/
structure NodeId where
  w : BitVec 4
  x : Context
  n : Nat
  deriving DecidableEq, Repr

/-- A channel of a context, by its number (R397: `.chan` lines, then external input ports). -/
structure ChanId where
  w : BitVec 4
  x : Context
  n : Nat
  deriving DecidableEq, Repr

/-! ### Configuration images, decoded (R315)

The payload layouts of ROUTE, ROLE, CONST and END packets are not in the manual, so a launch carries
the image as its decoded contents (assumption 5). -/

/-- What runs a node (R23, R342). -/
inductive NodeKind where
  | compute | agen | memory | lantern
  deriving DecidableEq, Repr

/-- Memory-cell roles (R205). -/
inductive Role where
  | scratch | fifo | cache
  deriving DecidableEq, Repr

/-- One end of a channel: a node's port, or outside the graph (R60). -/
structure ChanEnd where
  node : Nat
  port : BitVec 4
  deriving DecidableEq, Repr

/-- A channel: its number, the output port that feeds it (none: external input) and the input port it
feeds (none: external output). -/
structure ChanCfg where
  n : Nat
  src : Option ChanEnd
  dst : Option ChanEnd
  deriving DecidableEq, Repr

/-- A quota line: input port, colour, matching entries and buffer slots (R285). -/
structure QuotaCfg where
  port : BitVec 4
  colour : Colour
  m : Nat
  s : Nat
  deriving DecidableEq, Repr

/-- Modes of a persistent register (R49). -/
inductive HMode where
  | unused
  | const
  | colour (c : Colour)
  deriving DecidableEq, Repr

/-- The ROUTE contents of one node: channels, control successors, quotas, links and owned resources (R22, R61,
R104, R241, R285, R315).  `link` is the linked memory cell, as 256 times its section plus 16 times its row plus its
column, or for a lantern node the module spire that it names (R342); `counters` gives the owned counters their LIMITs. -/
structure NodeRoute where
  num : Nat
  kind : NodeKind
  chans : List ChanCfg
  succs : List (Nat × Nat)
  quotas : List QuotaCfg
  link : Option Nat
  counters : List (Nat × Nat)
  hregs : List (Nat × HMode)
  lanternRole : Bool
  markerSource : Bool
  deriving DecidableEq, Repr

/-- What a configuration-image packet says, by KIND (R315). -/
inductive CfgBody where
  | blockHdr (hdr : Word128)
  | blockSlots (a b c : Word128)
  | route (r : NodeRoute)
  | role (num : Nat) (r : Role) (masks : List (Nat × BitVec 16))
  | const (reg : Nat) (v : Word64)
  | fin (count : Nat) (starts : List Nat) (drain : Option (Nat × Nat))
  | bad
  deriving DecidableEq, Repr

/-- What a configuration-image packet carries (R315): bits, or what a payload says whose layout the manual leaves open
(assumption 5). -/
inductive CfgData where
  | bits (v : BitVec 448)
  | route (r : NodeRoute)
  | role (num : Nat) (r : Role) (masks : List (Nat × BitVec 16))
  | const (reg : Nat) (v : Word64)
  | fin (count : Nat) (starts : List Nat) (drain : Option (Nat × Nat))
  deriving DecidableEq, Repr

/-- A configuration-image packet: its header, bits [511:448], and its payload (R315). -/
structure CfgPacket where
  header : BitVec 64
  data : CfgData
  deriving DecidableEq, Repr

/-- A configuration image: the context it launches, the values that `.fmt` gives to entries (R60, R119), whether
any `at` placement fixes its spires, the spires it names (module numbers when `at`-placed, logical numbers
otherwise) and one section each. -/
structure Image where
  context : Context
  fmts : List (Nat × Word64)
  atPlaced : Bool
  spires : List Nat
  sections : List (List CfgPacket)
  deriving DecidableEq, Repr

/-! ### Requests from outside -/

/-- Who makes a security-processor request (R357). -/
inductive Requester where
  | operator
  | tenant (w : BitVec 4)
  deriving DecidableEq, Repr

/-- The three keys of a slot: XTS data key, XTS tweak key, MAC key (R350). -/
structure KeySet where
  k1 : BitVec 256
  k2 : BitVec 256
  km : BitVec 256
  deriving DecidableEq, Repr

/-- A debug-unlock token (R413). -/
structure DebugToken where
  version : BitVec 32
  rsv : BitVec 32
  devid : BitVec 384
  nonce : BitVec 256
  sig : BitVec 768
  deriving DecidableEq, Repr

/-- PCIe generations of the host link (R404). -/
inductive PcieGen where
  | g5 | g6 | g7
  deriving DecidableEq, Repr

/-- Widths of the host link (R404). -/
inductive LinkWidth where
  | x4 | x8 | x16
  deriving DecidableEq, Repr

/-- CXL levels of the host link; `noCache` is a link without CXL.cache (R404). -/
inductive CxlLevel where
  | none | noCache | cxl2 | cxl3
  deriving DecidableEq, Repr

/-- Frauth lane rates in Gb/s (R405). -/
inductive LaneRate where
  | r112 | r224 | r448
  deriving DecidableEq, Repr

/-- Atomic operations (R249). -/
inductive AtOp where
  | add | and | or | xor | minS | minU | maxS | maxU | xch | cas
  deriving DecidableEq, Repr

/-- A request of another device of the load-store domain (R348, R406). -/
inductive RemoteReq where
  | read (n : Nat)
  | write (bytes : List (BitVec 8))
  | atomic (op : AtOp) (w64 : Bool) (b c : Word64)
  deriving DecidableEq, Repr

/-! ### The instructions and events -/

/-- One constructor per row of the opcode table: the main instruction set (128-bit words of R86, two
for a loop nest), the logit instruction set (R195), the policy bytecodes (R328), and the device's
events, which have no encoding. -/
inductive Instr where
  /-- END (R91): Exit that ends the firing, and with it the tile invocation of a node without a loop nest -/
  | exitEnd (h : Hdr) (p : PayC)
  /-- BR (R92): Exit that chains to block BLK and carries up to five values to it -/
  | br (h : Hdr) (p : PayC)
  /-- BRX (R92): Indexed exit that chains to block BLK plus a clamped index and carries values to it -/
  | brx (h : Hdr) (p : PayC)
  /-- EMIT (R95): Delivers operand 0 or a constant unchanged to both targets, with AUX taken from AUXI -/
  | emit (h : Hdr) (p : PayC)
  /-- STEER (R96): Delivers operand 0 to one of two targets by the selector, for the whole token or slot by slot -/
  | steer (h : Hdr) (p : PayC)
  /-- MERGE (R97): Delivers, in each slot, the value of the lowest operand that is valid there -/
  | merge (h : Hdr) (p : PayC)
  /-- GATE (R98): Delivers operand 0 once every other operand is present -/
  | gate (h : Hdr) (p : PayC)
  /-- DROP (R99): Consumes its operands and delivers nothing -/
  | drop (h : Hdr) (p : PayC)
  /-- ITER (R100): Delivers the loop-nest indices and the outer-point number of the firing -/
  | iter (h : Hdr) (p : PayC)
  /-- CNTLD (R103): Loads the LIMIT, VALUE and chain fields of a counter at commit -/
  | cntld (h : Hdr) (p : PayC)
  /-- CNTRD (R103): Delivers a counter word -/
  | cntrd (h : Hdr) (p : PayC)
  /-- CNTSTEP (R103): Steps a counter at commit, together with the counters its wraps chain to, and delivers the old word and the wrap mask -/
  | cntstep (h : Hdr) (p : PayC)
  /-- GOTX (R104): Sends GO control tokens for the firing's tag to the control successors in the mask, at commit -/
  | gotx (h : Hdr) (p : PayC)
  /-- HALTX (R104): Sends HALT control tokens for the firing's tag to the control successors in the mask, at commit -/
  | haltx (h : Hdr) (p : PayC)
  /-- LNCPY (R108): Loop nest that copies element bit patterns in the scratchpad -/
  | lncpy (h : Hdr) (p : PayN)
  /-- LNADD (R108): Loop nest that adds elements element-wise, with one rounding each -/
  | lnadd (h : Hdr) (p : PayN)
  /-- LNSUB (R108): Loop nest that subtracts elements element-wise -/
  | lnsub (h : Hdr) (p : PayN)
  /-- LNMUL (R108): Loop nest that multiplies elements element-wise -/
  | lnmul (h : Hdr) (p : PayN)
  /-- LNFMA (R108): Loop nest that performs a fused multiply-add into the destination element-wise -/
  | lnfma (h : Hdr) (p : PayN)
  /-- LNMAX (R108): Loop nest that takes the element-wise maximum, as FMAX -/
  | lnmax (h : Hdr) (p : PayN)
  /-- LNMIN (R108): Loop nest that takes the element-wise minimum, as FMIN -/
  | lnmin (h : Hdr) (p : PayN)
  /-- LNDIF (R108): Loop nest that takes the rounded absolute difference element-wise -/
  | lndif (h : Hdr) (p : PayN)
  /-- LNSUM (R108): Loop-nest reduction that adds the exact sum of a run to the destination, with one rounding -/
  | lnsum (h : Hdr) (p : PayN)
  /-- LNRMX (R108): Loop-nest reduction to the maximum -/
  | lnrmx (h : Hdr) (p : PayN)
  /-- LNRMN (R108): Loop-nest reduction to the minimum -/
  | lnrmn (h : Hdr) (p : PayN)
  /-- LNDOT (R108): Loop-nest exact dot product of a run, added to the destination with one rounding -/
  | lndot (h : Hdr) (p : PayN)
  /-- IADD (R139): Integer add that wraps -/
  | iadd (h : Hdr) (p : PayA)
  /-- IADDS (R139): Integer add that saturates -/
  | iadds (h : Hdr) (p : PayA)
  /-- ISUB (R139): Integer subtract that wraps -/
  | isub (h : Hdr) (p : PayA)
  /-- ISUBS (R139): Integer subtract that saturates -/
  | isubs (h : Hdr) (p : PayA)
  /-- IMUL (R139): Integer multiply that wraps -/
  | imul (h : Hdr) (p : PayA)
  /-- IMULH (R139): High half of the exact integer product -/
  | imulh (h : Hdr) (p : PayA)
  /-- IDIV (R139): Integer divide that truncates toward zero, with defined results for a zero divisor and for overflow -/
  | idiv (h : Hdr) (p : PayA)
  /-- IREM (R139): Integer remainder whose sign follows the dividend -/
  | irem (h : Hdr) (p : PayA)
  /-- INEG (R139): Integer negate that wraps -/
  | ineg (h : Hdr) (p : PayA)
  /-- IABS (R139): Integer absolute value that wraps -/
  | iabs (h : Hdr) (p : PayA)
  /-- IMIN (R139): Integer minimum, read by type -/
  | imin (h : Hdr) (p : PayA)
  /-- IMAX (R139): Integer maximum, read by type -/
  | imax (h : Hdr) (p : PayA)
  /-- IMAD (R139): Integer multiply-add that wraps -/
  | imad (h : Hdr) (p : PayA)
  /-- ICLAMP (R139): Clamps an integer between two bounds -/
  | iclamp (h : Hdr) (p : PayA)
  /-- AND (R139): Bitwise AND -/
  | andBits (h : Hdr) (p : PayA)
  /-- OR (R139): Bitwise OR -/
  | orBits (h : Hdr) (p : PayA)
  /-- XOR (R139): Bitwise XOR -/
  | xorBits (h : Hdr) (p : PayA)
  /-- NOT (R139): Bitwise NOT -/
  | notBits (h : Hdr) (p : PayA)
  /-- ANDN (R139): Bitwise a AND NOT b -/
  | andn (h : Hdr) (p : PayA)
  /-- SHL (R139): Shift left by the low bits of b -/
  | shl (h : Hdr) (p : PayA)
  /-- SHR (R139): Logical shift right -/
  | shr (h : Hdr) (p : PayA)
  /-- SHRA (R139): Arithmetic shift right -/
  | shra (h : Hdr) (p : PayA)
  /-- ROTL (R139): Rotate left -/
  | rotl (h : Hdr) (p : PayA)
  /-- POPC (R139): Counts the 1 bits -/
  | popc (h : Hdr) (p : PayA)
  /-- CLZ (R139): Counts the leading zero bits -/
  | clz (h : Hdr) (p : PayA)
  /-- CTZ (R139): Counts the trailing zero bits -/
  | ctz (h : Hdr) (p : PayA)
  /-- BREV (R139): Reverses the bit order -/
  | brev (h : Hdr) (p : PayA)
  /-- BFX (R140): Extracts a bit field -/
  | bfx (h : Hdr) (p : PayA)
  /-- BFI (R140): Inserts a bit field -/
  | bfi (h : Hdr) (p : PayA)
  /-- ICMPEQ (R141): Integer compare for equality -/
  | icmpeq (h : Hdr) (p : PayA)
  /-- ICMPNE (R141): Integer compare for inequality -/
  | icmpne (h : Hdr) (p : PayA)
  /-- ICMPLT (R141): Integer compare for less than -/
  | icmplt (h : Hdr) (p : PayA)
  /-- ICMPLE (R141): Integer compare for less than or equal -/
  | icmple (h : Hdr) (p : PayA)
  /-- ICMPGT (R141): Integer compare for greater than -/
  | icmpgt (h : Hdr) (p : PayA)
  /-- ICMPGE (R141): Integer compare for greater than or equal -/
  | icmpge (h : Hdr) (p : PayA)
  /-- SEL (R141): Selects a where c is nonzero, and b elsewhere -/
  | sel (h : Hdr) (p : PayA)
  /-- MOV (R141): Delivers its operand or constant unchanged -/
  | mov (h : Hdr) (p : PayA)
  /-- AADD (R142): Checked 64-bit address add, which raises ADDR_OVERFLOW outside 0 to 2^57 -/
  | aadd (h : Hdr) (p : PayA)
  /-- AMAD (R142): Checked 64-bit address multiply-add -/
  | amad (h : Hdr) (p : PayA)
  /-- ASUB (R142): Checked 64-bit address subtract -/
  | asub (h : Hdr) (p : PayA)
  /-- ACHK (R142): Tests an address against a range, and never faults -/
  | achk (h : Hdr) (p : PayA)
  /-- FADD (R144): Float add, with one rounding -/
  | fadd (h : Hdr) (p : PayA)
  /-- FSUB (R144): Float subtract, with one rounding -/
  | fsub (h : Hdr) (p : PayA)
  /-- FMUL (R144): Float multiply, with one rounding -/
  | fmul (h : Hdr) (p : PayA)
  /-- FMA (R144): Fused float multiply-add, with one rounding -/
  | fma (h : Hdr) (p : PayA)
  /-- FMS (R144): Fused float multiply-subtract -/
  | fms (h : Hdr) (p : PayA)
  /-- FNMA (R144): Fused negated float multiply-add -/
  | fnma (h : Hdr) (p : PayA)
  /-- FDIV (R144): Correctly rounded float divide -/
  | fdiv (h : Hdr) (p : PayA)
  /-- FSQRT (R144): Correctly rounded float square root -/
  | fsqrt (h : Hdr) (p : PayA)
  /-- FMIN (R146): Float minimum, with −0 below +0 and NaN handling -/
  | fmin (h : Hdr) (p : PayA)
  /-- FMAX (R146): Float maximum -/
  | fmax (h : Hdr) (p : PayA)
  /-- FNEG (R146): Inverts the sign bit -/
  | fneg (h : Hdr) (p : PayA)
  /-- FABS (R146): Clears the sign bit -/
  | fabs (h : Hdr) (p : PayA)
  /-- FCPYS (R146): Copies the sign of b onto a -/
  | fcpys (h : Hdr) (p : PayA)
  /-- FCMPEQ (R147): Float compare for equality -/
  | fcmpeq (h : Hdr) (p : PayA)
  /-- FCMPNE (R147): Float compare for inequality -/
  | fcmpne (h : Hdr) (p : PayA)
  /-- FCMPLT (R147): Float compare for less than -/
  | fcmplt (h : Hdr) (p : PayA)
  /-- FCMPLE (R147): Float compare for less than or equal -/
  | fcmple (h : Hdr) (p : PayA)
  /-- FCMPUN (R147): Float test for an unordered pair -/
  | fcmpun (h : Hdr) (p : PayA)
  /-- FCLASS (R147): Classifies a float value as a one-hot mask -/
  | fclass (h : Hdr) (p : PayA)
  /-- FRINT (R148): Rounds a float to an integral value in the same entry -/
  | frint (h : Hdr) (p : PayA)
  /-- EXP2 (R149): Correctly rounded 2^a -/
  | exp2 (h : Hdr) (p : PayA)
  /-- LOG2 (R149): Correctly rounded log2 a -/
  | log2 (h : Hdr) (p : PayA)
  /-- RCP (R149): Correctly rounded reciprocal -/
  | rcp (h : Hdr) (p : PayA)
  /-- RSQ (R149): Correctly rounded reciprocal square root -/
  | rsq (h : Hdr) (p : PayA)
  /-- TANH (R149): Correctly rounded tanh -/
  | tanh (h : Hdr) (p : PayA)
  /-- SIN (R149): Correctly rounded sine, with exact argument reduction -/
  | sin (h : Hdr) (p : PayA)
  /-- LBCAST (R151): Broadcasts slot K to every slot -/
  | lbcast (h : Hdr) (p : PayL)
  /-- LSHUF (R151): Permutes slots by an index token -/
  | lshuf (h : Hdr) (p : PayL)
  /-- LROT (R151): Rotates slots by K -/
  | lrot (h : Hdr) (p : PayL)
  /-- LSEL (R151): Selects slots from two tokens by a constant mask -/
  | lsel (h : Hdr) (p : PayL)
  /-- VMASK (R151): ANDs the valid mask with a constant or operand mask -/
  | vmask (h : Hdr) (p : PayL)
  /-- VGET (R151): Delivers the valid mask of its operand as a value -/
  | vget (h : Hdr) (p : PayL)
  /-- LIOTA (R152): Delivers base plus the element index in every element -/
  | liota (h : Hdr) (p : PayL)
  /-- LSCAN (R152): Prefix sum of the valid elements, each rounded once -/
  | lscan (h : Hdr) (p : PayL)
  /-- RSUM (R153): Exact float sum of the valid elements, rounded once -/
  | rsum (h : Hdr) (p : PayL)
  /-- RMAX (R153): Float maximum of the valid elements -/
  | rmax (h : Hdr) (p : PayL)
  /-- RMIN (R153): Float minimum of the valid elements -/
  | rmin (h : Hdr) (p : PayL)
  /-- RISUM (R153): Integer sum of the valid elements -/
  | risum (h : Hdr) (p : PayL)
  /-- RIMAX (R153): Integer maximum of the valid elements -/
  | rimax (h : Hdr) (p : PayL)
  /-- RIMIN (R153): Integer minimum of the valid elements -/
  | rimin (h : Hdr) (p : PayL)
  /-- RAND (R153): Bitwise AND of the valid elements -/
  | rand (h : Hdr) (p : PayL)
  /-- ROR (R153): Bitwise OR of the valid elements -/
  | ror (h : Hdr) (p : PayL)
  /-- CVT (R155): Converts each element from one format entry to another -/
  | cvt (h : Hdr) (p : PayV)
  /-- CVTI (R155): Converts float elements to integers, saturating -/
  | cvti (h : Hdr) (p : PayV)
  /-- CVTF (R155): Converts integer elements to a format entry -/
  | cvtf (h : Hdr) (p : PayV)
  /-- CVPK2 (R156): Converts and packs two 32-bit sources into 16-bit elements -/
  | cvpk2 (h : Hdr) (p : PayV)
  /-- CVPK4 (R156): Converts and packs four sources into 8-bit or 4-bit elements -/
  | cvpk4 (h : Hdr) (p : PayV)
  /-- UNPK2 (R156): Unpacks one 16-bit element per slot to 32 bits -/
  | unpk2 (h : Hdr) (p : PayV)
  /-- UNPK4 (R156): Unpacks one 8-bit or 4-bit element per slot to 32 bits -/
  | unpk4 (h : Hdr) (p : PayV)
  /-- QBLK (R158): Appends a token to its key's group, and at the G-th token quantises the group to blocked SCALE and DATA tokens -/
  | qblk (h : Hdr) (p : PayV)
  /-- QAPPLY (R159): Decodes 16 elements of a blocked DATA token with its SCALE token -/
  | qapply (h : Hdr) (p : PayV)
  /-- MSET (R171): Opens a plane-array run for the firing's key -/
  | mset (h : Hdr) (p : PayX)
  /-- MLDB (R172): Loads a k-major panel from the scratchpad -/
  | mldb (h : Hdr) (p : PayX)
  /-- MLDT (R172): Loads an n-major panel from the scratchpad -/
  | mldt (h : Hdr) (p : PayX)
  /-- MROW (R173): Fires one A row from tokens against the panel and adds the chunk value into the accumulator row -/
  | mrow (h : Hdr) (p : PayX)
  /-- MROWS (R173): Fires one A row read from the scratchpad -/
  | mrows (h : Hdr) (p : PayX)
  /-- MDRAIN (R175): Drains one accumulator row as converted tokens -/
  | mdrain (h : Hdr) (p : PayX)
  /-- MOUT (R176): Writes the whole output tile to the scratchpad and closes the run -/
  | mout (h : Hdr) (p : PayX)
  /-- MCLR (R177): Closes the key's open run and discards it -/
  | mclr (h : Hdr) (p : PayX)
  /-- MSTAT (R177): Delivers the run status, the run word and the pointers -/
  | mstat (h : Hdr) (p : PayX)
  /-- MKIN (R174): Loads a partial-sum row as contribution 0 -/
  | mkin (h : Hdr) (p : PayX)
  /-- MKOUT (R175): Passes one FP32 accumulator row on along a K chain -/
  | mkout (h : Hdr) (p : PayX)
  /-- LD (R243): Loads one element from scratch or virtual memory -/
  | ld (h : Hdr) (p : PayW)
  /-- LDT (R243): Loads a 64-byte token payload -/
  | ldt (h : Hdr) (p : PayW)
  /-- ST (R243): Stores one element, held until release -/
  | st (h : Hdr) (p : PayW)
  /-- STT (R243): Stores the valid slots of a token payload, held -/
  | stt (h : Hdr) (p : PayW)
  /-- LDG (R244): Gathers one element per slot -/
  | ldg (h : Hdr) (p : PayW)
  /-- STSC (R244): Scatters one element per slot -/
  | stsc (h : Hdr) (p : PayW)
  /-- LDACQ (R245): Loads 4 or 8 bytes, then acquires at its scope -/
  | ldacq (h : Hdr) (p : PayW)
  /-- STREL (R245): Releases as PHASE at commit, then performs its own store unheld -/
  | strel (h : Hdr) (p : PayW)
  /-- PREF (R248): Prefetches lines into the Dome at the hint's retention -/
  | pref (h : Hdr) (p : PayW)
  /-- RESID (R248): Fills lines at the highest retention -/
  | resid (h : Hdr) (p : PayW)
  /-- EVICT (R248): Writes back and drops lines from the Dome -/
  | evict (h : Hdr) (p : PayW)
  /-- PHASE (R247): Releases the agent's preceding held stores at its scope -/
  | phase (h : Hdr) (p : PayW)
  /-- FENCE (R247): Acquires, releases, or both, at its scope -/
  | fence (h : Hdr) (p : PayW)
  /-- ATADD (R249): Atomic add at the home -/
  | atadd (h : Hdr) (p : PayW)
  /-- ATAND (R249): Atomic AND -/
  | atand (h : Hdr) (p : PayW)
  /-- ATOR (R249): Atomic OR; the only atomic allowed on a live bitmap word -/
  | ator (h : Hdr) (p : PayW)
  /-- ATXOR (R249): Atomic XOR -/
  | atxor (h : Hdr) (p : PayW)
  /-- ATMIN (R249): Atomic minimum, by type -/
  | atmin (h : Hdr) (p : PayW)
  /-- ATMAX (R249): Atomic maximum, by type -/
  | atmax (h : Hdr) (p : PayW)
  /-- ATXCH (R249): Atomic exchange -/
  | atxch (h : Hdr) (p : PayW)
  /-- ATCAS (R249): Atomic compare-and-swap -/
  | atcas (h : Hdr) (p : PayW)
  /-- ATFADD (R250): Atomic float add; order-dependent and refused in replay mode -/
  | atfadd (h : Hdr) (p : PayW)
  /-- BINIT (R252): Writes a word and sets its type to plain, barrier or bitmap in one atomic step -/
  | binit (h : Hdr) (p : PayW)
  /-- BARR (R253): Releases, then arrives at a barrier word and advances GEN on the last arrival -/
  | barr (h : Hdr) (p : PayW)
  /-- BWAIT (R256): Waits until a barrier word's GEN differs, then acquires -/
  | bwait (h : Hdr) (p : PayW)
  /-- WAITB (R256): Waits until a bitmap word holds the mask, then acquires -/
  | waitb (h : Hdr) (p : PayW)
  /-- WAITA (R257): Waits for a write to a granule, a loss, a timeout or a spurious wake, without ordering -/
  | waita (h : Hdr) (p : PayW)
  /-- CPY (R266): Starts a bulk copy of a box between two views -/
  | cpy (h : Hdr) (p : PayE)
  /-- CPYS (R269): Starts a stream copy into a ring of scratch slots -/
  | cpys (h : Hdr) (p : PayE)
  /-- SLOTF (R271): Releases, then sends a freed-slot notice to a stream -/
  | slotf (h : Hdr) (p : PayE)
  /-- SHDW (R272): Opens a shadow buffer of a tensor at the entry's home -/
  | shdw (h : Hdr) (p : PayE)
  /-- SHDW_QRY (R272): Resolves a tensor's mapping word as an acquire, without opening a shadow -/
  | shdwQry (h : Hdr) (p : PayE)
  /-- PUBL (R273): Releases, then swaps the tensor to its shadow and advances VERSION atomically -/
  | publ (h : Hdr) (p : PayE)
  /-- EVQ (R275): Releases, then posts a record to the spire event queue at commit -/
  | evq (h : Hdr) (p : PayE)
  /-- COLL (R279): Starts a collective of a group under a descriptor -/
  | coll (h : Hdr) (p : PayE)
  /-- DRAFT (R199): Starts the draft walker over a suffix automaton at commit -/
  | draft (h : Hdr) (p : PayE)
  /-- QUOTA (R299): Changes a colour's quota at an input port, if the cell's totals allow -/
  | quota (h : Hdr) (p : PayQ)
  /-- QUOTA_TAG (R299): Changes a colour's tag cap -/
  | quotaTag (h : Hdr) (p : PayQ)
  /-- SPAWN (R300): Takes a free iteration tag and emits the token with that tag -/
  | spawn (h : Hdr) (p : PayQ)
  /-- TAGFREE (R300): Returns a held tag to the pool at commit -/
  | tagfree (h : Hdr) (p : PayQ)
  /-- PURGE (R302): Freezes and drops every trace of a colour in the context, and commits after the reset -/
  | purge (h : Hdr) (p : PayQ)
  /-- STALLT (R299): Sets a colour's stall limit across the context -/
  | stallt (h : Hdr) (p : PayQ)
  /-- RECOL (R301): Emits a token with a new ITER, and with COL a new colour -/
  | recol (h : Hdr) (p : PayQ)
  /-- TRAP (R384): Raises BREAK with a trap code and discards the invocation -/
  | trap (h : Hdr) (p : PayS)
  /-- BRK (R385): Withdraws the instance and logs a BREAK while debug-break is set -/
  | brk (h : Hdr) (p : PayS)
  /-- RDSR (R382): Reads a special register -/
  | rdsr (h : Hdr) (p : PayS)
  /-- WRSR (R382): Writes a special register at commit, and commits once the write has reached its scope -/
  | wrsr (h : Hdr) (p : PayS)
  /-- YIELD (R386): Asks for a PREEMPT decision of its task -/
  | yield (h : Hdr) (p : PayS)
  /-- HALT (R387): Ends the task: releases held stores, drops its tokens and completes the task DONE -/
  | halt (h : Hdr) (p : PayS)
  /-- HRD (R383): Reads a persistent register under its mode check -/
  | hrd (h : Hdr) (p : PayS)
  /-- HWR (R383): Writes a persistent register at commit -/
  | hwr (h : Hdr) (p : PayS)
  /-- FMTLD (R132): Loads a format-table entry at commit and advances the generation -/
  | fmtld (h : Hdr) (p : PayS)
  /-- FMTRD (R132): Delivers an entry at the instance's captured generation -/
  | fmtrd (h : Hdr) (p : PayS)
  /-- FMTSYNC (R132): Waits until the table changes have reached every cell and older generations have drained -/
  | fmtsync (h : Hdr) (p : PayS)
  /-- LGBIND (R189): Binds or unbinds a sequence at a lantern to a descriptor -/
  | lgbind (h : Hdr) (p : PayS)
  /-- LG_END (R195): Ends the logit program -/
  | lgEnd
  /-- LG_ADD (R195): FP32 add -/
  | lgAdd (d a b : BitVec 3)
  /-- LG_SUB (R195): FP32 subtract -/
  | lgSub (d a b : BitVec 3)
  /-- LG_MUL (R195): FP32 multiply -/
  | lgMul (d a b : BitVec 3)
  /-- LG_FMA (R195): FP32 fused multiply-add -/
  | lgFma (d a b c : BitVec 3)
  /-- LG_ADDI (R195): FP32 add of an immediate -/
  | lgAddi (d a : BitVec 3) (imm : Slot)
  /-- LG_MULI (R195): FP32 multiply by an immediate -/
  | lgMuli (d a : BitVec 3) (imm : Slot)
  /-- LG_MOVI (R195): Loads an immediate -/
  | lgMovi (d : BitVec 3) (imm : Slot)
  /-- LG_MOV (R195): Copies a register -/
  | lgMov (d a : BitVec 3)
  /-- LG_MAX (R195): FMAX of two registers -/
  | lgMax (d a b : BitVec 3)
  /-- LG_MIN (R195): FMIN of two registers -/
  | lgMin (d a b : BitVec 3)
  /-- LG_NEG (R195): Inverts the sign bit -/
  | lgNeg (d a : BitVec 3)
  /-- LG_ABS (R195): Clears the sign bit -/
  | lgAbs (d a : BitVec 3)
  /-- LG_RCP (R195): Reciprocal under R149 -/
  | lgRcp (d a : BitVec 3)
  /-- LG_EXP2 (R195): 2^a under R149 -/
  | lgExp2 (d a : BitVec 3)
  /-- LG_LOG2 (R195): log2 a under R149 -/
  | lgLog2 (d a : BitVec 3)
  /-- LG_CMPLT (R195): Delivers 1.0 if a < b, else +0 -/
  | lgCmplt (d a b : BitVec 3)
  /-- LG_CMPLE (R195): Delivers 1.0 if a <= b, else +0 -/
  | lgCmple (d a b : BitVec 3)
  /-- LG_CMPEQ (R195): Delivers 1.0 if a = b, else +0 -/
  | lgCmpeq (d a b : BitVec 3)
  /-- LG_SEL (R195): Selects a when c is not zero, else b -/
  | lgSel (d a b c : BitVec 3)
  /-- LG_MASK (R195): Sets the mask flag when a is nonzero -/
  | lgMask (a : BitVec 3)
  /-- POL_ADD (R328): Adds modulo 2^64 -/
  | polAdd (d a b : BitVec 4)
  /-- POL_SUB (R328): Subtracts modulo 2^64 -/
  | polSub (d a b : BitVec 4)
  /-- POL_MUL (R328): Multiplies modulo 2^64 -/
  | polMul (d a b : BitVec 4)
  /-- POL_AND (R328): Bitwise AND -/
  | polAnd (d a b : BitVec 4)
  /-- POL_OR (R328): Bitwise OR -/
  | polOr (d a b : BitVec 4)
  /-- POL_XOR (R328): Bitwise XOR -/
  | polXor (d a b : BitVec 4)
  /-- POL_SHL (R328): Shifts left by b[5:0] -/
  | polShl (d a b : BitVec 4)
  /-- POL_SHR (R328): Shifts right logically by b[5:0] -/
  | polShr (d a b : BitVec 4)
  /-- POL_MIN (R328): Unsigned minimum -/
  | polMin (d a b : BitVec 4)
  /-- POL_MAX (R328): Unsigned maximum -/
  | polMax (d a b : BitVec 4)
  /-- POL_SLTU (R328): Sets the destination to 1 if a < b, unsigned -/
  | polSltu (d a b : BitVec 4)
  /-- POL_SEQ (R328): Sets the destination to 1 if a == b -/
  | polSeq (d a b : BitVec 4)
  /-- POL_CSEL (R328): Selects a when d is nonzero, else b -/
  | polCsel (d a b : BitVec 4)
  /-- POL_LDI (R328): Loads a 16-bit immediate -/
  | polLdi (d : BitVec 4) (imm : BitVec 16)
  /-- POL_LDIS (R328): Shifts the destination left by 16 and ORs in an immediate -/
  | polLdis (d : BitVec 4) (imm : BitVec 16)
  /-- POL_ADDI (R328): Adds an immediate -/
  | polAddi (d a : BitVec 4) (imm : BitVec 16)
  /-- POL_ANDI (R328): ANDs with an immediate -/
  | polAndi (d a : BitVec 4) (imm : BitVec 16)
  /-- POL_SHLI (R328): Shifts left by an immediate of 0 to 63 -/
  | polShli (d a : BitVec 4) (imm : BitVec 16)
  /-- POL_SHRI (R328): Shifts right logically by an immediate of 0 to 63 -/
  | polShri (d a : BitVec 4) (imm : BitVec 16)
  /-- POL_RDC (R330): Reads a field of a candidate or of the subject -/
  | polRdc (d a : BitVec 4) (imm : BitVec 16)
  /-- POL_RDQ (R330): Reads a field of a queue -/
  | polRdq (d a : BitVec 4) (imm : BitVec 16)
  /-- POL_RDR (R330): Reads a field of a region -/
  | polRdr (d a : BitVec 4) (imm : BitVec 16)
  /-- POL_RDW (R330): Reads a field of the world -/
  | polRdw (d : BitVec 4) (imm : BitVec 16)
  /-- POL_RDD (R330): Reads a field of the decision -/
  | polRdd (d : BitVec 4) (imm : BitVec 16)
  /-- POL_BRZ (R331): Branches forward if the register is zero -/
  | polBrz (a : BitVec 4) (imm : BitVec 16)
  /-- POL_BRNZ (R331): Branches forward if the register is nonzero -/
  | polBrnz (a : BitVec 4) (imm : BitVec 16)
  /-- POL_JMP (R331): Jumps forward -/
  | polJmp (imm : BitVec 16)
  /-- POL_FOREACH (R332): Starts a loop over the candidates -/
  | polForeach (d : BitVec 4) (imm : BitVec 16)
  /-- POL_NEXT (R332): Advances the loop register and repeats the body or leaves the loop -/
  | polNext
  /-- POL_PICK (R333): Outcome that dispatches a candidate -/
  | polPick (a : BitVec 4)
  /-- POL_PREEMPT (R333): Outcome that cuts the subject in favour of a candidate -/
  | polPreempt (a : BitVec 4)
  /-- POL_DEFER (R333): Outcome that does nothing until the next trigger -/
  | polDefer
  /-- POL_KILL (R333): Outcome that kills a candidate or the subject -/
  | polKill (a : BitVec 4)
  /-- TOKEN_ACCEPT (R285): A token arriving at an input port enters a matching entry or a buffer slot under its colour's quota; a DONE token is consumed there -/
  | tokenAccept (c : ChanId) (colour : Colour)
  /-- TOKEN_SEND (R286): A channel sends one token from a colour with credit, by the age rule, and lowers that colour's credit -/
  | tokenSend (c : ChanId) (colour : Colour)
  /-- CREDIT_RETURN (R286): A returned credit reaches the sender and raises the colour's credit on the channel -/
  | creditReturn (c : ChanId) (colour : Colour)
  /-- FIRING_CHOICE (R321): The cell chooses one ready firing, by age, colour rotation and arrival sequence, and its first block fires -/
  | firingChoice (cell : Nat)
  /-- BLOCK_FETCH (R317): A missing block is fetched from the spire configuration cache into a store slot and checked again -/
  | blockFetch (cell : Nat) (node : NodeId) (blk : BitVec 6)
  /-- MEMORY_RESPONSE (R243): Load, atomic or metadata data returns from a memory level to the waiting instance -/
  | memoryResponse (cell : Nat) (seq : Nat)
  /-- TRANSLATION_WALK (R216): A spire walker completes a page-table walk for a translation miss -/
  | translationWalk (cell : Nat) (colour : Colour) (va : Word64)
  /-- INSTANCE_COMMIT (R41): An instance commits atomically: it emits tokens, passes stores, writes persistent registers and frees its operands -/
  | instanceCommit (cell : Nat)
  /-- RELEASE_PERFORMED (R225): Every write of a release has reached its home, so the waiting commit may proceed -/
  | releasePerformed (cell : Nat) (seq : Nat)
  /-- GO_TOKEN (R47): A GO control token starts a loop-nest invocation for its tag, or waits -/
  | goToken (n : NodeId) (tag : Tag)
  /-- HALT_TOKEN (R47): A HALT control token ends a running invocation early, is held with a waiting GO, or is discarded -/
  | haltToken (n : NodeId) (tag : Tag)
  /-- LOOP_NEST_OUTER_POINT (R106): The cell fires block 0 for the next outer point of a running nest -/
  | loopNestOuterPoint (cell : Nat)
  /-- FORMAT_CHANGE_REACH (R130): A committed format-table change reaches a cell and advances its sr.fmtgen -/
  | formatChangeReach (x : CtxId) (cell : Nat)
  /-- MONITOR_EVENT (R258): A write, loss or spurious event at a monitor re-enables a withdrawn wait firing -/
  | monitorEvent (cell : Nat) (seq : Nat)
  /-- WAIT_TIMEOUT (R258): A wait's timeout expires and its firing is enabled to complete with TIMEOUT -/
  | waitTimeout (cell : Nat) (seq : Nat)
  /-- STALL_TIMER (R290): A colour's stall timer at a port fires, sending a STALL EXC token and logging the record -/
  | stallTimer (n : NodeId) (port : BitVec 4) (colour : Colour)
  /-- EXC_DELIVERY (R291): An EXC token reaching port 15 of the supervisor becomes a DATA token, or is dropped and counted -/
  | excDelivery (x : CtxId)
  /-- WATCHDOG_EXPIRY (R373): A firing's watchdog count reaches its limit and the invocation faults with WATCHDOG -/
  | watchdogExpiry (cell : Nat) (seq : Nat)
  /-- PARITY_ERROR (R374): A token with a parity error is discarded and resent, and the receiving invocation's instances are replayed -/
  | parityError (c : ChanId) (colour : Colour)
  /-- PARTIAL_TOKEN_ABORT (R297): After 16 cycles without a flit, the router appends ABORT and the receiver discards the partial token -/
  | partialTokenAbort (c : ChanId) (colour : Colour)
  /-- PURGE_RESET (R292): Once no token of the colour remains, its credits are reset, its timers stopped and the freeze lifted -/
  | purgeReset (x : CtxId)
  /-- DRAIN_RECEIVE (R181): The belfry takes a DRAIN token and begins a swap, or holds the token behind a waiting swap -/
  | drainReceive (w : BitVec 4)
  /-- BELFRY_SWAP (R181): Once the outgoing context is quiescent, CUR advances and GO start tokens go to the new context -/
  | belfrySwap (w : BitVec 4)
  /-- BELFRY_ENABLE (R179): A write that sets EN of sr.belfry activates CTX0 and gates the other contexts -/
  | belfryEnable (w : BitVec 4) (v : Word64)
  /-- BELFRY_DISABLE (R179): A write that clears EN stops all gating once no swap waits -/
  | belfryDisable (w : BitVec 4)
  /-- TINVAL (R217): A write to sr.tinval drops a colour's translation entries and commits once none remain -/
  | tinval (w : BitVec 4) (v : Word64)
  /-- CHUNK_COMPLETE (R267): Once a chunk's writes have reached home, the copy releases them and sets the chunk bit atomically -/
  | chunkComplete (op : Nat) (chunk : Nat)
  /-- COPY_COMPLETE (R268): A bulk copy ends and emits its completion token or posts its event record -/
  | copyComplete (op : Nat)
  /-- ENGINE_FAULT (R268): A translation, permission or type fault stops an engine operation and is reported -/
  | engineFault (op : Nat)
  /-- STREAM_TILE (R270): A stream copies its next tile into a ring slot, releases it and emits a ready token -/
  | streamTile (op : Nat)
  /-- NOTICE_ACCEPT (R271): The copy engine accepts or discards a freed-slot notice -/
  | noticeAccept (cell : Nat)
  /-- COLL_COMPLETE (R280): A collective participant writes DST, releases and emits its completion -/
  | collComplete (op : Nat)
  /-- COLL_TIMEOUT (R280): A participant reaches TMO before all have started, and the collective aborts -/
  | collTimeout (op : Nat)
  /-- EVENT_RECORD (R319): The spire's scalar control core acts on the next event record under the event table -/
  | eventRecord (spire : Nat)
  /-- STREAM_HEADER (R184): The lantern takes a header token, reads the descriptor, program and table, and opens a stream -/
  | streamHeader (n : NodeId) (colour : Colour)
  /-- LOGIT_TOKEN (R190): The lantern reads one logit token, runs the program per id and updates the running candidates -/
  | logitToken (n : NodeId) (colour : Colour)
  /-- STREAM_DRAW (R190): A stream completes, and the lantern applies min-p, top-p and Gumbel selection and emits the result -/
  | streamDraw (n : NodeId) (colour : Colour) (iter : IterTag)
  /-- LANTERN_COMMIT_TOKEN (R193): A commit token updates the sequence table, writes it back and emits an acknowledgement -/
  | lanternCommitToken (n : NodeId) (colour : Colour)
  /-- DRAFT_WALK_DONE (R199): The walker finishes, writes the trie record, releases it and emits the completion token -/
  | draftWalkDone (op : Nat)
  /-- LAUNCH (R307): A LAUNCH packet starts and queues its task for dispatch -/
  | launch (w : BitVec 4) (q : BitVec 6) (img : Image)
  /-- WAIT (R307): A WAIT packet tests its word or task and is satisfied, acquiring at its scope -/
  | wait (w : BitVec 4) (q : BitVec 6)
  /-- WAIT_PACKET_TIMEOUT (R307): A WAIT packet's TMO runs out, and it completes TIMEOUT -/
  | waitPacketTimeout (w : BitVec 4) (q : BitVec 6)
  /-- SIGNAL (R307): A SIGNAL packet releases the earlier tasks' writes, then stores, arrives or sets bits, and optionally interrupts -/
  | signal (w : BitVec 4) (q : BitVec 6)
  /-- POLICY_SWAP (R307): A POLICY-SWAP checks and loads a policy image into a slot -/
  | policySwap (w : BitVec 4) (q : BitVec 6)
  /-- ABORT_CANCEL (R314): Cancels a queued task, or reports it dispatched -/
  | abortCancel (w : BitVec 4) (q : BitVec 6)
  /-- ABORT_KILL (R314): Kills a running task, or cancels a queued one -/
  | abortKill (w : BitVec 4) (q : BitVec 6)
  /-- ABORT_PURGE (R314): Purges a colour in a context -/
  | abortPurge (w : BitVec 4) (q : BitVec 6)
  /-- QUEUE_START (R305): System software moves a queue from STOPPED to RUN -/
  | queueStart (w : BitVec 4) (q : BitVec 6)
  /-- QUEUE_STOP (R305): System software stops a queue; no new packet starts -/
  | queueStop (w : BitVec 4) (q : BitVec 6)
  /-- QUEUE_RESUME (R305): System software moves a queue out of ERROR to QUAR or STOPPED -/
  | queueResume (w : BitVec 4) (q : BitVec 6) (quar : Bool)
  /-- QUEUE_CLEAR_QUAR (R305): System software moves a queue from QUAR to RUN -/
  | queueClearQuar (w : BitVec 4) (q : BitVec 6)
  /-- RIDX_WRITE (R305): System software rewrites RIDX while the queue is in ERROR -/
  | ridxWrite (w : BitVec 4) (q : BitVec 6) (v : BitVec 32)
  /-- DISPATCH_DECISION (R333): A DISPATCH decision snapshots the candidates and runs the slot's policy -/
  | dispatchDecision (w : BitVec 4) (slot : BitVec 6)
  /-- PREEMPT_DECISION (R333): A PREEMPT decision runs when a subject's slice has elapsed and a candidate waits -/
  | preemptDecision (w : BitVec 4) (task : BitVec 32)
  /-- FAULT_DECISION (R333): A FAULT decision runs for a task that reported a discarding fault -/
  | faultDecision (w : BitVec 4) (task : BitVec 32)
  /-- POLICY_BUDGET_EXPIRY (R334): A decision reaches 512 bytecodes and the fallback decides -/
  | policyBudgetExpiry (w : BitVec 4)
  /-- DECISION_COMMIT (R335): A decision's outcome is checked against current state and applied, or turned into DEFER -/
  | decisionCommit (w : BitVec 4)
  /-- SLICE_EXPIRY (R313): A running task's time slice elapses, triggering a PREEMPT decision -/
  | sliceExpiry (w : BitVec 4) (task : BitVec 32)
  /-- QUARANTINE_SLICE_EXPIRY (R310): A quarantine task's slice ends and the task is killed -/
  | quarantineSliceExpiry (w : BitVec 4) (task : BitVec 32)
  /-- CONFIG_PACKET (R316): A configuration-image packet travels east and is consumed by its cell -/
  | configPacket (w : BitVec 4) (task : BitVec 32) (sec : Nat)
  /-- LAUNCH_COMPLETE (R316): Every cell has seen END; the launch fails its checks or sends start tokens and GOs -/
  | launchComplete (w : BitVec 4) (task : BitVec 32)
  /-- RECQ_TILE_SEND (R340): The scheduler sends the next tile start token of a device-built launch once its tag is reserved and credit allows -/
  | recqTileSend (w : BitVec 4) (task : BitVec 32)
  /-- TASK_COMPLETE (R313): The command processor detects a quiescent task and writes its completion record -/
  | taskComplete (w : BitVec 4) (task : BitVec 32)
  /-- CUT_BEGIN (R388): At the pre-emption point, the epoch advances and MARKERs go to the sources -/
  | cutBegin (x : CtxId)
  /-- MARKER_ARRIVE (R391): A MARKER cuts a node: its instances settle, it records its state and it forwards MARKERs -/
  | markerArrive (n : NodeId)
  /-- CUT_COMPLETE (R393): All nodes, channels and engines are settled, and the encrypted image is written -/
  | cutComplete (x : CtxId)
  /-- SAVE_DEADLINE_EXPIRY (R399): A save overruns its deadline: the image goes INVALID, the spires are quarantined and the task fails -/
  | saveDeadlineExpiry (x : CtxId)
  /-- RESTORE (R401): A dispatched cut task's image is checked and its state is restored before any firing -/
  | restore (w : BitVec 4) (task : BitVec 32)
  /-- POWER_PERIOD (R323): Each 1,024-cycle period refills the ingress bucket and applies changed settings -/
  | powerPeriod
  /-- THERMAL_LIMIT (R409): The power controller lowers or raises the thermal limit by junction margin each period -/
  | thermalLimit (die : BitVec 2)
  /-- HOST_WRITE_LIVE_WORD (R254): A host or CXL peer write to a live word is performed and makes the word plain -/
  | hostWriteLiveWord (pa : BitVec 52) (v : Word64)
  /-- CXL_SNOOP (R237): A CXL.cache snoop invalidates a Dome copy of a host line -/
  | cxlSnoop (pa : BitVec 52)
  /-- BKPT_STEP (R379): A write of STEP releases the oldest held token of a comparator -/
  | bkptStep (k : BitVec 4)
  /-- BKPT_DISARM (R379): A write of V = 0 releases every held token -/
  | bkptDisarm (k : BitVec 4)
  /-- DEBUG_BREAK_WRITE (R385): Setting or clearing debug-break in DBGW; clearing lets withdrawn BRK firings fire -/
  | debugBreakWrite (w : BitVec 4) (on : Bool)
  /-- BADC_CLEAR (R376): The operator clears V of a bad-cell register and returns the spire to dispatch -/
  | badcClear (spire : BitVec 5)
  /-- QSPIRE_CLEAR (R399): The operator clears a quarantine bit in QSPIRE -/
  | qspireClear (mask : Word64)
  /-- REGISTER_WRITE (R4): A write to a register that has no behaviour of its own sets its RW fields -/
  | registerWrite (offset : BitVec 16) (v : Word64)
  /-- CREATE (R357): Creates a world with its cells, granules, PROT and SYS -/
  | create (w : BitVec 4) (prot sys : Bool) (cells granules : List Nat)
  /-- GRANT (R357): Adds cells or granules to a world, setting granules FRESH -/
  | grant (w : BitVec 4) (cells granules : List Nat)
  /-- RECLAIM (R357): Removes cells or granules from a world -/
  | reclaim (w : BitVec 4) (cells granules : List Nat)
  /-- DESTROY (R357): Destroys a world: retires its keys, clears its cells and frees its granules -/
  | destroy (w : BitVec 4)
  /-- KEY_INSTALL (R357): Installs a key set in a slot -/
  | keyInstall (by_ : Requester) (w : BitVec 4) (slot : BitVec 8) (keys : KeySet)
  /-- KEY_RETIRE (R356): Drops the lines filled under a slot, then empties the slot -/
  | keyRetire (by_ : Requester) (w : BitVec 4) (slot : BitVec 8)
  /-- KEK_INSTALL (R357): Stores the tenant's key-encryption key -/
  | kekInstall (w : BitVec 4) (kek : BitVec 256)
  /-- KEY_IMPORT (R357): Unwraps the world's saved key set -/
  | keyImport (w : BitVec 4) (kek : BitVec 256) (blob : List (Nat × KeySet)) (nctrs : List (Nat × Nat))
  /-- UNLOCK (R413): Verifies a debug-unlock token and puts unlock in force -/
  | unlock (token : DebugToken)
  /-- UNLOCK_CHALLENGE (R357): Issues a fresh nonce for the next UNLOCK -/
  | unlockChallenge (nonce : BitVec 256)
  /-- GET_TDISP_VERSION (R358): TDISP request for the version -/
  | getTdispVersion (w : BitVec 4)
  /-- GET_TDISP_CAPABILITIES (R358): TDISP request for the capabilities -/
  | getTdispCapabilities (w : BitVec 4)
  /-- LOCK_INTERFACE_REQUEST (R358): Locks a TDI, fixing the world's cells and granules -/
  | lockInterfaceRequest (w : BitVec 4)
  /-- GET_DEVICE_INTERFACE_REPORT (R358): Returns the interface report -/
  | getDeviceInterfaceReport (w : BitVec 4)
  /-- GET_DEVICE_INTERFACE_STATE (R358): Returns the TDI state -/
  | getDeviceInterfaceState (w : BitVec 4)
  /-- START_INTERFACE_REQUEST (R358): Moves a TDI to RUN -/
  | startInterfaceRequest (w : BitVec 4)
  /-- STOP_INTERFACE_REQUEST (R358): Stops a TDI -/
  | stopInterfaceRequest (w : BitVec 4)
  /-- GET_MEASUREMENTS (R358): SPDM request that returns the firmware measurement and the debug state -/
  | getMeasurements (w : BitVec 4)
  /-- IDE_KM (R359): Sets IDE keys in the world's SPDM session -/
  | ideKm (w : BitVec 4)
  /-- LINK_DOWN (R360): A hot reset or link-down destroys sessions and keys, puts TDIs in ERROR and pre-empts protected worlds -/
  | linkDown
  /-- KEY_WRAP (R360): Once no save is pending, the world's key set is wrapped under the KEK and the plaintext erased -/
  | keyWrap (w : BitVec 4)
  /-- COLD_RESET (R5): Cold reset returns every field to its reset value -/
  | coldReset
  /-- HOST_LINK_TRAIN (R404): The host link trains to the highest common generation and width -/
  | hostLinkTrain (gen : PcieGen) (width : LinkWidth) (cxl : CxlLevel)
  /-- FRAUTH_PORT_TRAIN (R405): A Frauth port trains with a partner and its FRAUTH bit sets -/
  | frauthPortTrain (port : Fin 18) (rate : LaneRate)
  /-- FRAUTH_PORT_DOWN (R406): A Frauth port goes down; its outstanding requests replay on another port or fault -/
  | frauthPortDown (port : Fin 18)
  /-- FUNCTION_READY (R407): A function finishes self-test or training and sets its READY or FAIL bit -/
  | functionReady (fn : Fin 40) (ok : Bool)
  /-- PLDM_MONITOR (R410): A PLDM type 2 request reads THERM, READY and power draw -/
  | pldmMonitor
  /-- PLDM_FIRMWARE_UPDATE (R410): A PLDM type 5 request stages firmware that takes effect at the next cold reset -/
  | pldmFirmwareUpdate (image : BitVec 384)
  /-- FRAUTH_REQUEST (R348): A load, store or atomic from another device of the load-store domain arrives over Frauth at this device's home Dome, is checked against the world's granules and is performed -/
  | frauthRequest (w : BitVec 4) (pa : BitVec 52) (r : RemoteReq)
  /-- FLIT_REPLAY (R405): A flit that a Frauth hop fails to acknowledge is replayed from the sender's buffer, so that it is neither lost nor duplicated -/
  | flitReplay (port : Fin 18)
  /-- SPDM_SESSION_ESTABLISH (R361): The tenant establishes an SPDM session with the device, in which key, IDE_KM and KEY-IMPORT requests are then accepted -/
  | spdmSessionEstablish (w : BitVec 4)
  /-- TEMPERATURE_CHANGE (R409): A junction or DRAM-layer temperature changes, updating THERM and switching DRAM refresh to four times the base rate at 85 °C and back below it -/
  | temperatureChange (die : BitVec 2) (tj dram : BitVec 8)
  /-- HARD_FAULT (R297): A hard fault stops a source cell in mid-token, and its tile invocation faults -/
  | hardFault (c : ChanId) (colour : Colour)
  deriving DecidableEq, Repr

end Sys2Proof
end

