-- ==== Sys2Proof/WellFormed.lean ====
section
/-! DEFINITION. Which terms of `Instr` are well formed: the load checks of R73–R83, R87, R89 and of the
encoding tables that concern one instruction alone.  Decode refuses a word whose term is not. -/

namespace Sys2Proof

/-! ### The pieces of the common header -/

/-- The combine bit is 0 unless both modes are other than NONE (R73). -/
def Guard.ok (g : Guard) : Bool := !g.orr || (g.m0 != .none && g.m1 != .none)

/-- The guard of an instruction that takes none (R73). -/
def Guard.off : Guard := { m0 := .none, m1 := .none, orr := false }

/-- A target within the limits of R37. -/
def Target.ok : Target → Bool
  | .none => true
  | .operand _ p => decide (p.toNat ≤ 4)
  | .pred _ p => decide (p.toNat ≤ 1)
  | .chan p => decide (p.toNat ≤ 15)

def Target.isNone : Target → Bool
  | .none => true
  | _ => false

def Target.isChan : Target → Bool
  | .chan _ => true
  | _ => false

/-- How many constants the imask names. -/
def Hdr.constants (h : Hdr) : Nat :=
  (if h.imask.getLsbD 0 then 1 else 0) + (if h.imask.getLsbD 1 then 1 else 0) + (if h.imask.getLsbD 2 then 1 else 0)
    + (if h.imask.getLsbD 3 then 1 else 0) + (if h.imask.getLsbD 4 then 1 else 0)

/-- What the fmt field may hold (R76, R239). -/
inductive FmtRule where
  | zero | code | z64 | entry | narrow | atomic
  deriving DecidableEq, Repr

/-- The value fmt of a rule: width codes are 0b0000–0b0111 (R68). -/
def FmtRule.ok : FmtRule → BitVec 4 → Bool
  | .zero, f => f == 0
  | .code, f => decide (f.toNat < 8)
  | .z64, f => f == 7
  | .entry, _ => true
  | .narrow, f => decide (f.toNat < 8) && decide (f.toNat % 4 < 3)
  | .atomic, f => decide (f.toNat < 8) && decide (2 ≤ f.toNat % 4)

/-- Which targets an instruction allows. -/
inductive TgtRule where
  | none        -- no target
  | any         -- t0 and t1, or none
  | chanFirst   -- t0 a channel, t1 any or none
  | chanOnly    -- t0 a channel, t1 none
  deriving DecidableEq, Repr

def TgtRule.ok : TgtRule → Target → Target → Bool
  | .none, a, b => a.isNone && b.isNone
  | .any, a, b => a.ok && b.ok && (!a.isNone || b.isNone)
  | .chanFirst, a, b => a.isChan && a.ok && b.ok
  | .chanOnly, a, b => a.isChan && a.ok && b.isNone

/-- The common-header limits of one instruction: nopd range, most constants, targets, fmt, whether it
rounds, whether it may carry a hint and a swizzle. -/
structure HSpec where
  lo : Nat
  hi : Nat
  consts : Nat
  tgt : TgtRule
  fmt : FmtRule
  rounds : Bool := false
  hint : Bool := false
  swz : Bool := false

/-- The common-header checks of R73–R77. -/
def Hdr.ok (h : Hdr) (s : HSpec) : Bool :=
  h.gd.ok && decide (s.lo ≤ h.nopd.toNat) && decide (h.nopd.toNat ≤ s.hi) && decide (h.imask.toNat < 2 ^ h.nopd.toNat)
    && decide (h.constants ≤ s.consts) && s.tgt.ok h.t0 h.t1 && s.fmt.ok h.fmt && (s.rounds || h.rnd == .dflt)
    && (if s.hint then decide (h.hint.toNat < 4) else h.hint == 0) && (s.swz || h.swz == 0)
    && decide (h.sched.toNat < 4)

/-- K0 is zero when imask is zero (R78). -/
def k0Ok (h : Hdr) (k0 : BitVec 32) : Bool := h.imask != 0 || k0 == 0

/-! ### Layouts -/

/-- Layout A: two constants, or one under a 64-bit width code (R78). -/
def wfA (h : Hdr) (p : PayA) (n : Nat) (f : FmtRule) (rounds : Bool) : Bool :=
  let w64 := (f == .code || f == .z64) && h.fmt.toNat % 4 == 3
  h.ok { lo := n, hi := n, consts := if w64 then 1 else 2, tgt := .any, fmt := f, rounds := rounds }
    && k0Ok h (p.k.setWidth 32)

/-- Layout C with the given limits; `blk` and `aux` say whether the fields are used (R89). -/
def wfC (h : Hdr) (p : PayC) (lo hi : Nat) (t : TgtRule) (blk aux : Bool) (ctl : BitVec 14 → Bool) : Bool :=
  h.ok { lo := lo, hi := hi, consts := 1, tgt := t, fmt := .zero } && k0Ok h p.k0
    && (blk || p.blk == 0) && (aux || p.auxi == 0) && ctl p.cctl

/-- CHAIN of CNTLD is above its counter when CHEN is set; with CHEN clear it has no effect (R89, R101, R103). -/
def cntldOk (c : BitVec 14) : Bool :=
  decide (c.toNat < 128) && (!c.getLsbD 6 || decide ((c.extractLsb' 0 3).toNat < (c.extractLsb' 3 3).toNat))

/-- Layout L. -/
def wfL (h : Hdr) (p : PayL) (lo hi : Nat) (f : FmtRule) (rounds : Bool) (ctl : BitVec 16 → Bool) : Bool :=
  h.ok { lo := lo, hi := hi, consts := 1, tgt := .any, fmt := f, rounds := rounds } && k0Ok h p.k0 && ctl p.lctl

/-- Layout V (R154): `top` bounds the control field. -/
def wfV (h : Hdr) (p : PayV) (n : Nat) (f : FmtRule) (t : TgtRule) (top : Nat) (dcode : Bool) : Bool :=
  h.ok { lo := n, hi := n, consts := 1, tgt := t, fmt := f, rounds := true } && k0Ok h p.k0
    && decide (p.vctl.toNat < top) && (!dcode || decide (p.dfmt.toNat < 8))

/-- Layout X (R170): which of fmt, BFMT, OFMT, PSEL and SWZ the instruction uses. -/
def wfX (h : Hdr) (p : PayX) (lo hi consts : Nat) (t : TgtRule) (a b o psel swz : Bool) (rounds : Bool) : Bool :=
  h.ok { lo := lo, hi := hi, consts := consts, tgt := t, fmt := if a then .entry else .zero, rounds := rounds }
    && k0Ok h p.k0 && (b || p.bfmt == 0) && (o || p.ofmt == 0) && decide (p.mctl.toNat < 16)
    && (psel || !p.mctl.getLsbD 0) && (swz || p.mctl.extractLsb' 1 3 == 0)

/-- Layout W (R79, R80, R239): `anyScope` says whether a scope may stand, `ords` which ORD values, `top`
bounds MCTL. -/
def wfW (h : Hdr) (p : PayW) (lo hi : Nat) (t : TgtRule) (f : FmtRule) (top : Nat) (anyScope : Bool) (ords : List Ord)
    (hint swz rounds : Bool) : Bool :=
  h.ok { lo := lo, hi := hi, consts := 0, tgt := t, fmt := f, rounds := rounds, hint := hint, swz := swz }
    && decide (1 ≤ p.wself.toNat) && decide (p.wself.toNat ≤ 126) && decide (p.mctl.toNat < top)
    && (anyScope || p.scope == .cell) && ords.contains p.ord && (h.swz == 0 || p.mctl.getLsbD 0)

/-- Layout E (R261): no constants, K0 zero, ECTL below `top`. -/
def wfE (h : Hdr) (p : PayE) (lo hi : Nat) (t : TgtRule) (f : FmtRule) (rounds : Bool) (top : Nat) : Bool :=
  h.ok { lo := lo, hi := hi, consts := 0, tgt := t, fmt := f, rounds := rounds } && p.k0 == 0 && decide (p.ectl.toNat < top)

/-- Layout Q (R298): `mask` is the one nonzero imask allowed. -/
def wfQ (h : Hdr) (p : PayQ) (n : Nat) (mask : BitVec 5) (t : TgtRule) (ctl : BitVec 16 → Bool) : Bool :=
  h.ok { lo := n, hi := n, consts := 1, tgt := t, fmt := .zero } && k0Ok h p.k0 && (h.imask == 0 || h.imask == mask) && ctl p.qctl

/-- Layout S (R131, R188, R380): `mask` is the one nonzero imask allowed. -/
def wfS (h : Hdr) (p : PayS) (lo hi : Nat) (mask : BitVec 5) (t : TgtRule) (sreg : BitVec 12 → Bool) : Bool :=
  h.ok { lo := lo, hi := hi, consts := 1, tgt := t, fmt := .zero } && k0Ok h p.k0 && (h.imask == 0 || h.imask == mask) && sreg p.sreg

/-- Registers that RDSR reads (R381). -/
def rdsrOk (r : BitVec 12) : Bool :=
  [0x001, 0x002, 0x003, 0x004, 0x010, 0x011, 0x012, 0x013, 0x014, 0x015, 0x016, 0x020, 0x022, 0x023, 0x024, 0x025,
    0x026, 0x027, 0x028, 0x029].contains r.toNat

/-- Registers that WRSR writes (R381). -/
def wrsrOk (r : BitVec 12) : Bool :=
  [0x012, 0x013, 0x015, 0x020, 0x021, 0x022, 0x023, 0x024, 0x025, 0x026, 0x027, 0x028, 0x029].contains r.toNat

/-! ### Loop nests -/

/-- Extent of a level (R82). -/
def PayN.ext (p : PayN) : Nat → Nat
  | 0 => p.ext0.toNat
  | 1 => p.ext1.toNat
  | 2 => p.ext2.toNat
  | 3 => p.ext3.toNat
  | _ => p.ext4.toNat

/-- Stride-scale shift of an operand (R82). -/
def PayN.sh (p : PayN) : Nat → Nat
  | 0 => p.sh0.toNat
  | 1 => p.sh1.toNat
  | _ => p.sh2.toNat

/-- Element stride of operand `o` at level `l`, a signed byte (R82). -/
def PayN.stride (p : PayN) (o l : Nat) : Int := (p.strides.extractLsb' (8 * (5 * o + l)) 8).toInt

/-- The strides and shifts of absent levels and operands are zero (R83). -/
def PayN.stridesOk (p : PayN) (nopd : Nat) : Bool :=
  (List.range 3).all (fun o =>
    (decide (o < nopd) || p.sh o == 0) &&
    (List.range 5).all (fun l => p.stride o l == 0 || (decide (o < nopd) && p.ext l != 0)))

/-- The load checks of R83, R106 and R108 on a loop nest: `red` for a reduction, `rounds` for a
form that rounds. -/
def wfN (h : Hdr) (p : PayN) (n : Nat) (red rounds : Bool) : Bool :=
  h.ok { lo := n, hi := n, consts := 0, tgt := if red then .any else .none, fmt := .entry, rounds := rounds }
    && p.ext 0 != 0 && (p.ext 1 != 0 || p.ext 2 == 0) && (p.ext 2 != 0 || p.ext 3 == 0) && (p.ext 3 != 0 || p.ext 4 == 0)
    && p.stridesOk n && (!red || p.stride 0 0 == 0)

/-- Module cells (R11). -/
def cellCount : Nat := 12288

/-- Every cell number of a list names a cell and every granule number a 2 MiB granule of 52 bits. -/
def ownersOk (cells granules : List Nat) : Bool :=
  cells.all (fun c => decide (c < cellCount)) && granules.all (fun g => decide (g < 2 ^ 31))

/-- Well-formedness of every instruction and event.  The table of R131 gives FMTRD the targets t0 and t1, without the words
'or none' that it has for FMTSYNC: an FMTRD without a target is taken for well formed all the same (assumption 54). -/
def Instr.wf (i : Instr) : Bool :=
  match i with
  | .exitEnd h p => wfC h p 0 0 .none false false (fun c => c == 0)
  | .br h p => wfC h p 0 5 .none true false (fun c => c == 0)
  | .brx h p => wfC h p 1 5 .none true false (fun c => decide (c.toNat < 64))
  | .emit h p => wfC h p 1 1 .any false true (fun c => c == 0)
  | .steer h p => wfC h p 2 2 .any false true (fun c => decide (c.toNat < 4))
  | .merge h p => wfC h p 2 5 .any false true (fun c => c == 0)
  | .gate h p => wfC h p 2 5 .any false true (fun c => c == 0)
  | .drop h p => wfC h p 1 5 .none false false (fun c => c == 0)
  | .iter h p => wfC h p 0 0 .any false true (fun c => c == 0)
  | .cntld h p => wfC h p 1 1 .none false false cntldOk
  | .cntrd h p => wfC h p 0 0 .any false true (fun c => decide (c.toNat < 8))
  | .cntstep h p => wfC h p 0 0 .any false true (fun c => decide (c.toNat < 8))
  | .gotx h p => wfC h p 0 0 .none false false (fun c => c != 0 && decide (c.toNat < 16))
  | .haltx h p => wfC h p 0 0 .none false false (fun c => c != 0 && decide (c.toNat < 16))
  | .lncpy h p => wfN h p 2 false false
  | .lnadd h p => wfN h p 3 false true
  | .lnsub h p => wfN h p 3 false true
  | .lnmul h p => wfN h p 3 false true
  | .lnfma h p => wfN h p 3 false true
  | .lnmax h p => wfN h p 3 false false
  | .lnmin h p => wfN h p 3 false false
  | .lndif h p => wfN h p 3 false true
  | .lnsum h p => wfN h p 2 true true
  | .lnrmx h p => wfN h p 2 true false
  | .lnrmn h p => wfN h p 2 true false
  | .lndot h p => wfN h p 3 true true
  | .iadd h p => wfA h p 2 .code false
  | .iadds h p => wfA h p 2 .code false
  | .isub h p => wfA h p 2 .code false
  | .isubs h p => wfA h p 2 .code false
  | .imul h p => wfA h p 2 .code false
  | .imulh h p => wfA h p 2 .code false
  | .idiv h p => wfA h p 2 .code false
  | .irem h p => wfA h p 2 .code false
  | .ineg h p => wfA h p 1 .code false
  | .iabs h p => wfA h p 1 .code false
  | .imin h p => wfA h p 2 .code false
  | .imax h p => wfA h p 2 .code false
  | .imad h p => wfA h p 3 .code false
  | .iclamp h p => wfA h p 3 .code false
  | .andBits h p => wfA h p 2 .code false
  | .orBits h p => wfA h p 2 .code false
  | .xorBits h p => wfA h p 2 .code false
  | .notBits h p => wfA h p 1 .code false
  | .andn h p => wfA h p 2 .code false
  | .shl h p => wfA h p 2 .code false
  | .shr h p => wfA h p 2 .code false
  | .shra h p => wfA h p 2 .code false
  | .rotl h p => wfA h p 2 .code false
  | .popc h p => wfA h p 1 .code false
  | .clz h p => wfA h p 1 .code false
  | .ctz h p => wfA h p 1 .code false
  | .brev h p => wfA h p 1 .code false
  | .bfx h p => wfA h p 3 .code false
  | .bfi h p => wfA h p 4 .code false
  | .icmpeq h p => wfA h p 2 .code false
  | .icmpne h p => wfA h p 2 .code false
  | .icmplt h p => wfA h p 2 .code false
  | .icmple h p => wfA h p 2 .code false
  | .icmpgt h p => wfA h p 2 .code false
  | .icmpge h p => wfA h p 2 .code false
  | .sel h p => wfA h p 3 .code false
  | .mov h p => wfA h p 1 .code false
  | .aadd h p => wfA h p 2 .z64 false
  | .amad h p => wfA h p 3 .z64 false
  | .asub h p => wfA h p 2 .z64 false
  | .achk h p => wfA h p 3 .z64 false
  | .fadd h p => wfA h p 2 .entry true
  | .fsub h p => wfA h p 2 .entry true
  | .fmul h p => wfA h p 2 .entry true
  | .fma h p => wfA h p 3 .entry true
  | .fms h p => wfA h p 3 .entry true
  | .fnma h p => wfA h p 3 .entry true
  | .fdiv h p => wfA h p 2 .entry true
  | .fsqrt h p => wfA h p 1 .entry true
  | .fmin h p => wfA h p 2 .entry false
  | .fmax h p => wfA h p 2 .entry false
  | .fneg h p => wfA h p 1 .entry false
  | .fabs h p => wfA h p 1 .entry false
  | .fcpys h p => wfA h p 2 .entry false
  | .fcmpeq h p => wfA h p 2 .entry false
  | .fcmpne h p => wfA h p 2 .entry false
  | .fcmplt h p => wfA h p 2 .entry false
  | .fcmple h p => wfA h p 2 .entry false
  | .fcmpun h p => wfA h p 2 .entry false
  | .fclass h p => wfA h p 1 .entry false
  | .frint h p => wfA h p 1 .entry true
  | .exp2 h p => wfA h p 1 .entry true
  | .log2 h p => wfA h p 1 .entry true
  | .rcp h p => wfA h p 1 .entry true
  | .rsq h p => wfA h p 1 .entry true
  | .tanh h p => wfA h p 1 .entry true
  | .sin h p => wfA h p 1 .entry true
  | .lbcast h p => wfL h p 1 1 .zero false (fun c => decide (c.toNat < 16))
  | .lshuf h p => wfL h p 2 2 .zero false (fun c => c == 0)
  | .lrot h p => wfL h p 1 1 .zero false (fun c => decide (c.toNat < 16))
  | .lsel h p => wfL h p 2 2 .zero false (fun _ => true)
  | .vmask h p => wfL h p 1 2 .zero false (fun c => h.nopd == 1 || c == 0)
  | .vget h p => wfL h p 1 1 .zero false (fun c => c == 0)
  | .liota h p => wfL h p 0 1 .code false (fun c => c == 0)
  | .lscan h p => wfL h p 1 1 .entry true (fun c => c == 0)
  | .rsum h p => wfL h p 1 1 .entry true (fun c => c == 0)
  | .rmax h p => wfL h p 1 1 .entry false (fun c => c == 0)
  | .rmin h p => wfL h p 1 1 .entry false (fun c => c == 0)
  | .risum h p => wfL h p 1 1 .code false (fun c => c == 0)
  | .rimax h p => wfL h p 1 1 .code false (fun c => c == 0)
  | .rimin h p => wfL h p 1 1 .code false (fun c => c == 0)
  | .rand h p => wfL h p 1 1 .code false (fun c => c == 0)
  | .ror h p => wfL h p 1 1 .code false (fun c => c == 0)
  | .cvt h p => wfV h p 1 .entry .any 1 false
  | .cvti h p => wfV h p 1 .entry .any 1 true
  | .cvtf h p => wfV h p 1 .code .any 1 false
  | .cvpk2 h p => wfV h p 2 .entry .any 1 false
  | .cvpk4 h p => wfV h p 4 .entry .any 2 false
  | .unpk2 h p => wfV h p 1 .entry .any 2 false
  | .unpk4 h p => wfV h p 1 .entry .any 8 false
  | .qblk h p => wfV h p 1 .entry .chanOnly 32 false
  | .qapply h p => wfV h p 2 .entry .any 256 false
  | .mset h p => wfX h p 1 1 1 .none false false false false false false
  | .mldb h p => wfX h p 1 1 0 .none false true false true true false
  | .mldt h p => wfX h p 1 1 0 .none false true false true true false
  | .mrow h p => wfX h p 1 5 0 .none true false false true false false
  | .mrows h p => wfX h p 1 1 0 .none true false false true true false
  | .mdrain h p => wfX h p 0 1 0 .chanFirst false false true false false true
  | .mout h p => wfX h p 1 1 0 .any false false true false true true
  | .mclr h p => wfX h p 0 1 0 .none false false false false false false
  | .mstat h p => wfX h p 0 1 0 .any false false false false false false
  | .mkin h p => wfX h p 1 4 0 .none false false false false false false
  | .mkout h p => wfX h p 0 1 0 .chanFirst false false false false false false
  | .ld h p => wfW h p 1 1 .any .code 2 false [.plain] true true false
  | .ldt h p => wfW h p 1 1 .any .zero 2 false [.plain] true true false
  | .st h p => wfW h p 2 2 .none .code 2 false [.plain] true true false
  | .stt h p => wfW h p 2 2 .none .zero 2 false [.plain] true true false
  | .ldg h p => wfW h p 2 2 .any .narrow 2 false [.plain] true true false
  | .stsc h p => wfW h p 3 3 .none .narrow 2 false [.plain] true true false
  | .ldacq h p => wfW h p 1 1 .any .zero 4 true [.acq] true false false
  | .strel h p => wfW h p 2 2 .none .zero 4 true [.rel] true false false
  | .pref h p => wfW h p 1 1 .none .zero 64 false [.plain] true false false
  | .resid h p => wfW h p 1 1 .none .zero 64 false [.plain] false false false
  | .evict h p => wfW h p 1 1 .none .zero 64 false [.plain] false false false
  | .phase h p => wfW h p 0 1 .any .zero 1 true [.rel] false false false
  | .fence h p => wfW h p 0 1 .any .zero 1 true [.acq, .rel, .acqrel] false false false
  | .atadd h p => wfW h p 2 2 .any .atomic 2 true [.plain, .acq, .rel, .acqrel] false false false
  | .atand h p => wfW h p 2 2 .any .atomic 2 true [.plain, .acq, .rel, .acqrel] false false false
  | .ator h p => wfW h p 2 2 .any .atomic 2 true [.plain, .acq, .rel, .acqrel] false false false
  | .atxor h p => wfW h p 2 2 .any .atomic 2 true [.plain, .acq, .rel, .acqrel] false false false
  | .atmin h p => wfW h p 2 2 .any .atomic 2 true [.plain, .acq, .rel, .acqrel] false false false
  | .atmax h p => wfW h p 2 2 .any .atomic 2 true [.plain, .acq, .rel, .acqrel] false false false
  | .atxch h p => wfW h p 2 2 .any .atomic 2 true [.plain, .acq, .rel, .acqrel] false false false
  | .atcas h p => wfW h p 3 3 .any .atomic 2 true [.plain, .acq, .rel, .acqrel] false false false
  | .atfadd h p => wfW h p 2 2 .any .entry 2 true [.plain, .acq, .rel, .acqrel] false false true
  | .binit h p => wfW h p 2 2 .none .zero 3 true [.plain, .rel] false false false
  | .barr h p => wfW h p 1 1 .any .zero 1 true [.rel] false false false
  | .bwait h p => wfW h p 2 3 .any .zero 1 true [.acq] false false false
  | .waitb h p => wfW h p 2 3 .any .zero 1 true [.acq] false false false
  | .waita h p => wfW h p 2 3 .any .zero 1 true [.plain] false false false
  | .cpy h p => wfE h p 1 2 (if p.ectl == 1 then .none else .chanOnly) .zero false 2
  | .cpys h p => wfE h p 1 2 .chanOnly .zero false 16
  | .slotf h p => wfE h p 1 1 .none .zero false 1
  | .shdw h p => wfE h p 2 2 .any .zero false 1
  | .shdwQry h p => wfE h p 1 1 .any .zero false 2 && p.ectl == 1
  | .publ h p => wfE h p 1 1 .any .zero false 1
  | .evq h p => wfE h p 1 1 .none .zero false 8192
  | .coll h p => wfE h p 1 2 (if p.ectl == 1 then .none else .chanOnly) .entry true 2
  | .draft h p => wfE h p 2 2 .chanOnly .zero false 64
  | .quota h p => wfQ h p 2 2 .any (fun c => c.extractLsb' 4 12 != 0xFFF)
  | .quotaTag h p => wfQ h p 2 2 .any (fun c => c == 0xFFF0)
  | .spawn h p => wfQ h p 1 0 .chanFirst (fun c => c == 0)
  | .tagfree h p => wfQ h p 1 1 .any (fun c => c == 0)
  | .purge h p => wfQ h p 1 1 .any (fun c => c == 0)
  | .stallt h p => wfQ h p 2 2 .any (fun c => c == 0)
  | .recol h p => wfQ h p 2 2 .chanFirst (fun c => decide (c.toNat < 2))
  | .trap h p => wfS h p 0 1 0 .none (fun _ => true)
  | .brk h p => wfS h p 0 0 0 .none (fun c => c == 0) && h.gd == Guard.off
  | .rdsr h p => wfS h p 0 0 0 .any rdsrOk
  | .wrsr h p => wfS h p 1 1 1 .none wrsrOk
  | .yield h p => wfS h p 0 1 0 .any (fun c => c == 0)
  | .halt h p => wfS h p 0 1 0 .none (fun c => c == 0)
  | .hrd h p => wfS h p 0 0 0 .any (fun r => decide (r.toNat < 32))
  | .hwr h p => wfS h p 1 1 1 .none (fun r => decide (r.toNat < 32))
  | .fmtld h p => wfS h p 1 1 1 .none (fun r => decide (r.toNat < 16))
  | .fmtrd h p => wfS h p 0 0 0 .any (fun r => decide (r.toNat < 16))
  | .fmtsync h p => wfS h p 0 1 0 .any (fun c => c == 0)
  | .lgbind h p => wfS h p 1 1 0 .none (fun _ => true)
  | .lgEnd => true
  | .lgAdd _ _ _ => true
  | .lgSub _ _ _ => true
  | .lgMul _ _ _ => true
  | .lgFma _ _ _ _ => true
  | .lgAddi _ _ _ => true
  | .lgMuli _ _ _ => true
  | .lgMovi _ _ => true
  | .lgMov _ _ => true
  | .lgMax _ _ _ => true
  | .lgMin _ _ _ => true
  | .lgNeg _ _ => true
  | .lgAbs _ _ => true
  | .lgRcp _ _ => true
  | .lgExp2 _ _ => true
  | .lgLog2 _ _ => true
  | .lgCmplt _ _ _ => true
  | .lgCmple _ _ _ => true
  | .lgCmpeq _ _ _ => true
  | .lgSel _ _ _ _ => true
  | .lgMask _ => true
  | .polAdd _ _ _ => true
  | .polSub _ _ _ => true
  | .polMul _ _ _ => true
  | .polAnd _ _ _ => true
  | .polOr _ _ _ => true
  | .polXor _ _ _ => true
  | .polShl _ _ _ => true
  | .polShr _ _ _ => true
  | .polMin _ _ _ => true
  | .polMax _ _ _ => true
  | .polSltu _ _ _ => true
  | .polSeq _ _ _ => true
  | .polCsel _ _ _ => true
  | .polLdi _ _ => true
  | .polLdis _ _ => true
  | .polAddi _ _ _ => true
  | .polAndi _ _ _ => true
  | .polShli _ _ imm => decide (imm.toNat < 64)
  | .polShri _ _ imm => decide (imm.toNat < 64)
  | .polRdc _ _ imm => decide (imm.toNat ≤ 10)
  | .polRdq _ _ imm => decide (imm.toNat ≤ 3)
  | .polRdr _ _ imm => decide (imm.toNat ≤ 7)
  | .polRdw _ imm => decide (imm.toNat ≤ 3)
  | .polRdd _ imm => decide (imm.toNat ≤ 4)
  | .polBrz _ _ => true
  | .polBrnz _ _ => true
  | .polJmp _ => true
  | .polForeach _ _ => true
  | .polNext => true
  | .polPick _ => true
  | .polPreempt _ => true
  | .polDefer => true
  | .polKill _ => true
  | .tokenAccept _ _ => true
  | .tokenSend _ _ => true
  | .creditReturn _ _ => true
  | .firingChoice cell => decide (cell < cellCount)
  | .blockFetch cell _ _ => decide (cell < cellCount)
  | .memoryResponse cell _ => decide (cell < cellCount)
  | .translationWalk cell _ _ => decide (cell < cellCount)
  | .instanceCommit cell => decide (cell < cellCount)
  | .releasePerformed cell _ => decide (cell < cellCount)
  | .goToken _ _ => true
  | .haltToken _ _ => true
  | .loopNestOuterPoint cell => decide (cell < cellCount)
  | .formatChangeReach _ cell => decide (cell < cellCount)
  | .monitorEvent cell _ => decide (cell < cellCount)
  | .waitTimeout cell _ => decide (cell < cellCount)
  | .stallTimer _ _ _ => true
  | .excDelivery _ => true
  | .watchdogExpiry cell _ => decide (cell < cellCount)
  | .parityError _ _ => true
  | .partialTokenAbort _ _ => true
  | .purgeReset _ => true
  | .drainReceive _ => true
  | .belfrySwap _ => true
  | .belfryEnable _ _ => true
  | .belfryDisable _ => true
  | .tinval _ _ => true
  | .chunkComplete _ _ => true
  | .copyComplete _ => true
  | .engineFault _ => true
  | .streamTile _ => true
  | .noticeAccept cell => decide (cell < cellCount)
  | .collComplete _ => true
  | .collTimeout _ => true
  | .eventRecord spire => decide (spire < 48)
  | .streamHeader _ _ => true
  | .logitToken _ _ => true
  | .streamDraw _ _ _ => true
  | .lanternCommitToken _ _ => true
  | .draftWalkDone _ => true
  | .launch _ _ _ => true
  | .wait _ _ => true
  | .waitPacketTimeout _ _ => true
  | .signal _ _ => true
  | .policySwap _ _ => true
  | .abortCancel _ _ => true
  | .abortKill _ _ => true
  | .abortPurge _ _ => true
  | .queueStart _ _ => true
  | .queueStop _ _ => true
  | .queueResume _ _ _ => true
  | .queueClearQuar _ _ => true
  | .ridxWrite _ _ _ => true
  | .dispatchDecision _ _ => true
  | .preemptDecision _ _ => true
  | .faultDecision _ _ => true
  | .policyBudgetExpiry _ => true
  | .decisionCommit _ => true
  | .sliceExpiry _ _ => true
  | .quarantineSliceExpiry _ _ => true
  | .configPacket _ _ _ => true
  | .launchComplete _ _ => true
  | .recqTileSend _ _ => true
  | .taskComplete _ _ => true
  | .cutBegin _ => true
  | .markerArrive _ => true
  | .cutComplete _ => true
  | .saveDeadlineExpiry _ => true
  | .restore _ _ => true
  | .powerPeriod => true
  | .thermalLimit _ => true
  | .hostWriteLiveWord _ _ => true
  | .cxlSnoop _ => true
  | .bkptStep _ => true
  | .bkptDisarm _ => true
  | .debugBreakWrite _ _ => true
  | .badcClear _ => true
  | .qspireClear _ => true
  | .registerWrite _ _ => true
  | .create _ _ _ cells granules => ownersOk cells granules
  | .grant _ cells granules => ownersOk cells granules
  | .reclaim _ cells granules => ownersOk cells granules
  | .destroy _ => true
  | .keyInstall _ _ _ _ => true
  | .keyRetire _ _ _ => true
  | .kekInstall _ _ => true
  | .keyImport _ _ _ _ => true
  | .unlock _ => true
  | .unlockChallenge _ => true
  | .getTdispVersion _ => true
  | .getTdispCapabilities _ => true
  | .lockInterfaceRequest _ => true
  | .getDeviceInterfaceReport _ => true
  | .getDeviceInterfaceState _ => true
  | .startInterfaceRequest _ => true
  | .stopInterfaceRequest _ => true
  | .getMeasurements _ => true
  | .ideKm _ => true
  | .linkDown => true
  | .keyWrap _ => true
  | .coldReset => true
  | .hostLinkTrain _ _ _ => true
  | .frauthPortTrain _ _ => true
  | .frauthPortDown _ => true
  | .functionReady _ _ => true
  | .pldmMonitor => true
  | .pldmFirmwareUpdate _ => true
  | .frauthRequest _ _ _ => true
  | .flitReplay _ => true
  | .spdmSessionEstablish _ => true
  | .temperatureChange _ _ _ => true
  | .hardFault _ _ => true

end Sys2Proof
end

