-- ==== Sys2Proof/Machine/Operands.lean ====
section
/-! DEFINITION. Operand forms: the values that instructions read and deliver, their elements in slots
(R26, R135), constants (R74, R136), and width codes (R68). -/

namespace Sys2Proof.Machine

/-! ### Slots of a value -/

/-- The value with no valid slot. -/
def noVal : Val := { valid := 0, slots := 0 }

/-- Slot s, as the 32 bits it carries. -/
def slotBits (v : Val) (s : Nat) : Slot := v.slots.extractLsb' (32 * s) 32

/-- Slot s when its valid bit is set. -/
def slotOf (v : Val) (s : Nat) : Option Slot := if v.valid.getLsbD s then some (slotBits v s) else none

/-- The valid mask and payload of a list of slots, as numbers: an invalid slot carries 0 (R45). -/
def packSlots : List (Option Slot) → Nat × Nat
  | [] => (0, 0)
  | none :: l => let p := packSlots l; (2 * p.1, 2 ^ 32 * p.2)
  | some x :: l => let p := packSlots l; (1 + 2 * p.1, x.toNat + 2 ^ 32 * p.2)

/-- A value from its sixteen slots. -/
def ofSlots (l : List (Option Slot)) : Val :=
  let p := packSlots l
  { valid := BitVec.ofNat 16 p.1, slots := BitVec.ofNat 512 p.2 }

/-- A value whose slot s is `f s`. -/
def valOf (f : Nat → Option Slot) : Val := ofSlots ((List.range 16).map f)

/-- A value with its first slots given and the others invalid. -/
def firstSlots (l : List Slot) : Val := ofSlots (l.map some ++ List.replicate (16 - l.length) none)

/-- A 32-bit result in slot 0. -/
def word32 (x : Nat) : Val := firstSlots [BitVec.ofNat 32 x]

/-- A 64-bit result in slots 0 and 1. -/
def word64 (x : Word64) : Val := firstSlots [x.extractLsb' 0 32, x.extractLsb' 32 32]

/-- Slots 1 and 0 as a 64-bit word; an invalid slot 1 reads as 0 (R382). -/
def pairOf (v : Val) : Word64 := (slotOf v 1).getD 0 ++ slotBits v 0

/-- The value as stored invalid slots read 0 already (R45). -/
def cleanVal (v : Val) : Val := valOf (slotOf v)

/-! ### Elements (R135) -/

/-- The valid bits of the slots that element n of width w lies in. -/
def elemValid (w : Nat) (v : Val) (n : Nat) : Bool :=
  if w = 64 then v.valid.getLsbD (2 * n) && v.valid.getLsbD (2 * n + 1) else v.valid.getLsbD (n * w / 32)

/-- The bits of element n, whatever its slot's valid bit. -/
def elemBits (w : Nat) (v : Val) (n : Nat) : Nat := v.slots.toNat / 2 ^ (n * w) % 2 ^ w

/-- Element n of width w, when its slot is valid. -/
def elemOf (w : Nat) (v : Val) (n : Nat) : Option Nat := if elemValid w v n then some (elemBits w v n) else none

/-- Elements per token. -/
def elemCount (w : Nat) : Nat := 512 / w

/-- The elements of a value, in order. -/
def elems (w : Nat) (v : Val) : List (Option Nat) := (List.range (elemCount w)).map (elemOf w v)

/-- The payload of elements of width w, in order from element 0; an absent one is 0. -/
def packElems (w : Nat) : List (Option Nat) → Nat
  | [] => 0
  | x :: l => x.getD 0 % 2 ^ w + 2 ^ w * packElems w l

/-- Whether the elements lying in slot s are all present. -/
def slotFull (w : Nat) (l : List (Option Nat)) (s : Nat) : Bool :=
  if w = 64 then (l.getD (s / 2) none).isSome
  else ((l.drop (s * (32 / w))).take (32 / w)).all Option.isSome && decide (s * (32 / w) < l.length)

def packBits : List Bool → Nat
  | [] => 0
  | b :: l => (if b then 1 else 0) + 2 * packBits l

/-- A value from its elements: a slot is valid when every element in it is present (R45). -/
def ofElems (w : Nat) (l : List (Option Nat)) : Val :=
  cleanVal { valid := BitVec.ofNat 16 (packBits ((List.range 16).map (slotFull w l))), slots := BitVec.ofNat 512 (packElems w l) }

/-- Element n of every operand, when all are valid. -/
def elemsAt (w : Nat) (ops : List Val) (n : Nat) : Option (List Nat) := ops.mapM (fun v => elemOf w v n)

/-- An element-wise result: element n is `f n` of the operands' elements n where all are valid (R45). -/
def mapElems (w : Nat) (ops : List Val) (f : Nat → List Nat → Nat) : Val :=
  ofElems w ((List.range (elemCount w)).map (fun n => (elemsAt w ops n).map (f n)))

/-! ### Width codes (R68) -/

/-- Width of a code: 8, 16, 32 or 64. -/
def codeWidth (c : BitVec 4) : Nat := 8 * 2 ^ (c.toNat % 4)

/-- Whether a code is signed: 0b0000–0b0011. -/
def codeSigned (c : BitVec 4) : Bool := !c.getLsbD 2

/-- x, w bits, read by type. -/
def readInt (signed : Bool) (w x : Nat) : Int :=
  if signed && decide (2 ^ (w - 1) ≤ x) then (x : Int) - (2 ^ w : Nat) else x

/-- Wrap(z): z modulo 2^w (R139). -/
def wrapInt (w : Nat) (z : Int) : Nat := (z % (2 ^ w : Nat)).toNat

/-- The least and the greatest value of an integer type. -/
def intMin (signed : Bool) (w : Nat) : Int := if signed then -(2 ^ (w - 1) : Nat) else 0
def intMax (signed : Bool) (w : Nat) : Int := if signed then (2 ^ (w - 1) : Nat) - 1 else (2 ^ w : Nat) - 1

/-- Sat(z): z clamped to the type's range (R139). -/
def satInt (signed : Bool) (w : Nat) (z : Int) : Nat := wrapInt w (max (intMin signed w) (min (intMax signed w) z))

/-! ### Constants (R74, R136) -/

/-- A 32-bit pattern in every slot. -/
def constVal32 (k : BitVec 32) : Val := valOf (fun _ => some k)

/-- A 64-bit constant as every element. -/
def constVal64 (k : BitVec 64) : Val := valOf (fun s => some (if s % 2 = 0 then k.extractLsb' 0 32 else k.extractLsb' 32 32))

/-- Which constant an operand position takes: the number of constants at lower positions, if the imask
names it (R74). -/
def constIndex (imask : BitVec 5) (pos : Nat) : Option Nat :=
  if imask.getLsbD pos then some ((List.range pos).filter (fun j => imask.getLsbD j)).length else none

end Sys2Proof.Machine
end

