-- ==== Sys2Proof/Machine/Flags.lean ====
section
/-! DEFINITION. Flags: the guard of an instruction (R43) and the predicate bits that results give (R137,
R411). -/

namespace Sys2Proof.Machine

/-- What one guard mode makes of its predicate: none is NEUTRAL (R43). -/
def guardTerm : GuardMode → Bool → Option Bool
  | .none, _ => none
  | .onTrue, p => some p
  | .onFalse, p => some !p

/-- The guard of R43 from the two predicate operands. -/
def guardVal (g : Guard) (p0 p1 : Bool) : Bool :=
  match guardTerm g.m0 p0, guardTerm g.m1 p1 with
  | none, none => true
  | none, some b => b
  | some a, none => a
  | some a, some b => if g.orr then a || b else a && b

/-- The general rule for a predicate target: slot 0 is valid and nonzero (R411, R93). -/
def predGeneral (v : Val) : Bool := v.valid.getLsbD 0 && slotBits v 0 != 0

/-- The rule of R137: element 0 of width w is valid and not zero. -/
def predElem (w : Nat) (v : Val) : Bool := elemValid w v 0 && elemBits w v 0 != 0

/-- The rule of R298: slot 0 of the result is 0. -/
def predZero (v : Val) : Bool := v.valid.getLsbD 0 && slotBits v 0 == 0

/-- Any slot is valid (R96, R151). -/
def predAny (v : Val) : Bool := v.valid != 0

end Sys2Proof.Machine
end

