-- ==== Sys2Proof/Decode.lean ====
section
/-! DEFINITION. Decoding and encoding of the three instruction sets: main instruction words (R72–R86),
logit instructions (R194, R195) and policy bytecodes (R328).  A word is cut into bit fields once, by
`unpack`; the machine never sees raw encodings.  The device's events have no encoding. -/

namespace Sys2Proof

/-! ### Bit fields -/

/-- Fields of a word, least significant first, from their widths. -/
def unpack : List Nat → Nat → List Nat
  | [], _ => []
  | k :: ks, w => w % 2 ^ k :: unpack ks (w / 2 ^ k)

/-- The word of fields (width, value), least significant first. -/
def pack : List (Nat × Nat) → Nat
  | [] => 0
  | (k, v) :: l => v + 2 ^ k * pack l

/-- Why a word is no instruction. -/
inductive Reject where
  | unassigned    -- its opcode is not in the opcode map (R86, R195, R328)
  | reserved      -- a field holds a reserved code (R73, R75, R76, R80)
  | malformed     -- a load check of WellFormed fails, or a field that must be zero is not
  | short         -- fewer bytes than the instruction has
  deriving DecidableEq, Repr

/-! ### The pieces of the common header -/

def Rnd.code : Rnd → Nat
  | .rne => 0 | .rtz => 1 | .rup => 2 | .rdn => 3 | .rna => 4 | .sr => 5 | .dflt => 7

def Rnd.read : Nat → Option Rnd
  | 0 => some .rne | 1 => some .rtz | 2 => some .rup | 3 => some .rdn | 4 => some .rna | 5 => some .sr
  | 7 => some .dflt | _ => none

def GuardMode.code : GuardMode → Nat
  | .none => 0 | .onTrue => 1 | .onFalse => 2

def GuardMode.read : Nat → Option GuardMode
  | 0 => some .none | 1 => some .onTrue | 2 => some .onFalse | _ => Option.none

/-- gd as [4:3] M0, [2:1] M1, [0] C (R73). -/
def Guard.code (g : Guard) : Nat := pack [(1, if g.orr then 1 else 0), (2, g.m1.code), (2, g.m0.code)]

def Guard.read (v : Nat) : Option Guard :=
  match unpack [1, 2, 2] v with
  | [c, m1, m0] => do some { m0 := ← GuardMode.read m0, m1 := ← GuardMode.read m1, orr := c == 1 }
  | _ => none

/-- A target as [2:0] POS, [9:3] INDEX, [11:10] KIND (R75). -/
def Target.code : Target → Nat
  | .none => 0
  | .operand s p => pack [(3, p.toNat), (7, s.toNat), (2, 1)]
  | .pred s p => pack [(3, p.toNat), (7, s.toNat), (2, 2)]
  | .chan q => pack [(3, 0), (7, q.toNat), (2, 3)]

def Target.read (v : Nat) : Option Target :=
  match unpack [3, 7, 2] v with
  | [p, s, k] =>
    match k with
    | 0 => if p = 0 ∧ s = 0 then some .none else Option.none
    | 1 => some (.operand (BitVec.ofNat 7 s) (BitVec.ofNat 3 p))
    | 2 => some (.pred (BitVec.ofNat 7 s) (BitVec.ofNat 3 p))
    | _ => if p = 0 then some (.chan (BitVec.ofNat 7 s)) else Option.none
  | _ => Option.none

def Scope.code : Scope → Nat
  | .cell => 0 | .spire => 1 | .die => 2 | .dev => 3 | .dom => 4 | .sys => 5

def Scope.read : Nat → Option Scope
  | 0 => some .cell | 1 => some .spire | 2 => some .die | 3 => some .dev | 4 => some .dom | 5 => some .sys
  | _ => none

def Ord.code : Ord → Nat
  | .plain => 0 | .acq => 1 | .rel => 2 | .acqrel => 3

def Ord.read : Nat → Option Ord
  | 0 => some .plain | 1 => some .acq | 2 => some .rel | 3 => some .acqrel | _ => none

/-! ### The common header (R72) -/

/-- Widths of the header fields from bit 64 up: sched, swz, hint, t1, t0, imask, nopd, gd, rnd, fmt, op. -/
def hdrWidths : List Nat := [4, 3, 3, 12, 12, 5, 3, 5, 3, 4, 10]

/-- The header fields of an instruction, with their widths. -/
def Hdr.fields (h : Hdr) (op : Nat) : List (Nat × Nat) :=
  [(4, h.sched.toNat), (3, h.swz.toNat), (3, h.hint.toNat), (12, h.t1.code), (12, h.t0.code), (5, h.imask.toNat),
    (3, h.nopd.toNat), (5, h.gd.code), (3, h.rnd.code), (4, h.fmt.toNat), (10, op)]

/-- A header and its op from the upper half of a word. -/
def Hdr.read (v : Nat) : Option (Nat × Hdr) :=
  match unpack hdrWidths v with
  | [sched, swz, hint, t1, t0, imask, nopd, gd, rnd, fmt, op] => do
    let rnd ← Rnd.read rnd
    let gd ← Guard.read gd
    let t0 ← Target.read t0
    let t1 ← Target.read t1
    return (op, { fmt := BitVec.ofNat 4 fmt, rnd := rnd, gd := gd, nopd := BitVec.ofNat 3 nopd, imask := BitVec.ofNat 5 imask, t0 := t0, t1 := t1, hint := BitVec.ofNat 3 hint, swz := BitVec.ofNat 3 swz, sched := BitVec.ofNat 4 sched })
  | _ => none

/-! ### Class payloads (R78): fields from bit 0 up, and back -/

def PayA.fields (p : PayA) : List (Nat × Nat) := [(64, p.k.toNat)]
def PayA.read (v : Nat) : Option PayA := some { k := BitVec.ofNat 64 v }

def PayC.fields (p : PayC) : List (Nat × Nat) :=
  [(32, p.k0.toNat), (14, p.cctl.toNat), (12, p.auxi.toNat), (6, p.blk.toNat)]
def PayC.read (v : Nat) : Option PayC :=
  match unpack [32, 14, 12, 6] v with
  | [k0, cctl, auxi, blk] =>
    some { blk := BitVec.ofNat 6 blk, auxi := BitVec.ofNat 12 auxi, cctl := BitVec.ofNat 14 cctl, k0 := BitVec.ofNat 32 k0 }
  | _ => none

def PayL.fields (p : PayL) : List (Nat × Nat) := [(32, p.k0.toNat), (16, 0), (16, p.lctl.toNat)]
def PayL.read (v : Nat) : Option PayL :=
  match unpack [32, 16, 16] v with
  | [k0, r, lctl] => if r = 0 then some { lctl := BitVec.ofNat 16 lctl, k0 := BitVec.ofNat 32 k0 } else none
  | _ => none

def PayV.fields (p : PayV) : List (Nat × Nat) := [(32, p.k0.toNat), (16, 0), (12, p.vctl.toNat), (4, p.dfmt.toNat)]
def PayV.read (v : Nat) : Option PayV :=
  match unpack [32, 16, 12, 4] v with
  | [k0, r, vctl, dfmt] =>
    if r = 0 then some { dfmt := BitVec.ofNat 4 dfmt, vctl := BitVec.ofNat 12 vctl, k0 := BitVec.ofNat 32 k0 } else none
  | _ => none

def PayX.fields (p : PayX) : List (Nat × Nat) :=
  [(32, p.k0.toNat), (8, 0), (16, p.mctl.toNat), (4, p.ofmt.toNat), (4, p.bfmt.toNat)]
def PayX.read (v : Nat) : Option PayX :=
  match unpack [32, 8, 16, 4, 4] v with
  | [k0, r, mctl, ofmt, bfmt] =>
    if r = 0 then
      some { bfmt := BitVec.ofNat 4 bfmt, ofmt := BitVec.ofNat 4 ofmt, mctl := BitVec.ofNat 16 mctl, k0 := BitVec.ofNat 32 k0 }
    else none
  | _ => none

def PayW.fields (p : PayW) : List (Nat × Nat) :=
  [(32, p.ofs.toNat), (6, p.mctl.toNat), (2, p.ord.code), (3, p.scope.code), (7, p.wsucc.toNat), (7, p.wpred.toNat),
    (7, p.wself.toNat)]
def PayW.read (v : Nat) : Option PayW :=
  match unpack [32, 6, 2, 3, 7, 7, 7] v with
  | [ofs, mctl, ord, scope, wsucc, wpred, wself] => do
    let ord ← Ord.read ord
    let scope ← Scope.read scope
    return { wself := BitVec.ofNat 7 wself, wpred := BitVec.ofNat 7 wpred, wsucc := BitVec.ofNat 7 wsucc, scope := scope, ord := ord, mctl := BitVec.ofNat 6 mctl, ofs := BitVec.ofNat 32 ofs }
  | _ => none

def PayE.fields (p : PayE) : List (Nat × Nat) := [(32, p.k0.toNat), (16, 0), (13, p.ectl.toNat), (3, p.scope.code)]
def PayE.read (v : Nat) : Option PayE :=
  match unpack [32, 16, 13, 3] v with
  | [k0, r, ectl, scope] => do
    let scope ← Scope.read scope
    if r = 0 then some { scope := scope, ectl := BitVec.ofNat 13 ectl, k0 := BitVec.ofNat 32 k0 } else none
  | _ => none

def PayQ.fields (p : PayQ) : List (Nat × Nat) := [(32, p.k0.toNat), (16, 0), (16, p.qctl.toNat)]
def PayQ.read (v : Nat) : Option PayQ :=
  match unpack [32, 16, 16] v with
  | [k0, r, qctl] => if r = 0 then some { qctl := BitVec.ofNat 16 qctl, k0 := BitVec.ofNat 32 k0 } else none
  | _ => none

def PayS.fields (p : PayS) : List (Nat × Nat) := [(32, p.k0.toNat), (20, 0), (12, p.sreg.toNat)]
def PayS.read (v : Nat) : Option PayS :=
  match unpack [32, 20, 12] v with
  | [k0, r, sreg] => if r = 0 then some { sreg := BitVec.ofNat 12 sreg, k0 := BitVec.ofNat 32 k0 } else none
  | _ => none

/-- Slot j's payload of a loop nest, and slot j + 1 (R82). -/
def PayN.fields (p : PayN) : List (Nat × Nat) :=
  [(12, p.ext0.toNat), (12, p.ext1.toNat), (12, p.ext2.toNat), (12, p.ext3.toNat), (12, p.ext4.toNat), (4, p.sh2.toNat)]
def PayN.fields1 (p : PayN) : List (Nat × Nat) := [(120, p.strides.toNat), (4, p.sh1.toNat), (4, p.sh0.toNat)]
def PayN.read (v w1 : Nat) : Option PayN :=
  match unpack [12, 12, 12, 12, 12, 4] v, unpack [120, 4, 4] w1 with
  | [e0, e1, e2, e3, e4, sh2], [st, sh1, sh0] =>
    some { sh2 := BitVec.ofNat 4 sh2, ext4 := BitVec.ofNat 12 e4, ext3 := BitVec.ofNat 12 e3, ext2 := BitVec.ofNat 12 e2, ext1 := BitVec.ofNat 12 e1, ext0 := BitVec.ofNat 12 e0, sh0 := BitVec.ofNat 4 sh0, sh1 := BitVec.ofNat 4 sh1, strides := BitVec.ofNat 120 st }
  | _, _ => none

/-! ### Main instruction words -/

/-- The instruction of an op with a given header and payload halves; the inner option is none where a
payload field holds a reserved value. -/
def opTable (op : Nat) (h : Hdr) (v w1 : Nat) : Option (Option Instr) :=
  match op with
  | 0x001 => some ((PayC.read v).map (.exitEnd h))
  | 0x002 => some ((PayC.read v).map (.br h))
  | 0x003 => some ((PayC.read v).map (.brx h))
  | 0x008 => some ((PayC.read v).map (.emit h))
  | 0x009 => some ((PayC.read v).map (.steer h))
  | 0x00A => some ((PayC.read v).map (.merge h))
  | 0x00B => some ((PayC.read v).map (.gate h))
  | 0x00C => some ((PayC.read v).map (.drop h))
  | 0x00D => some ((PayC.read v).map (.iter h))
  | 0x010 => some ((PayC.read v).map (.cntld h))
  | 0x011 => some ((PayC.read v).map (.cntrd h))
  | 0x012 => some ((PayC.read v).map (.cntstep h))
  | 0x013 => some ((PayC.read v).map (.gotx h))
  | 0x014 => some ((PayC.read v).map (.haltx h))
  | 0x020 => some ((PayN.read v w1).map (.lncpy h))
  | 0x021 => some ((PayN.read v w1).map (.lnadd h))
  | 0x022 => some ((PayN.read v w1).map (.lnsub h))
  | 0x023 => some ((PayN.read v w1).map (.lnmul h))
  | 0x024 => some ((PayN.read v w1).map (.lnfma h))
  | 0x025 => some ((PayN.read v w1).map (.lnmax h))
  | 0x026 => some ((PayN.read v w1).map (.lnmin h))
  | 0x027 => some ((PayN.read v w1).map (.lndif h))
  | 0x028 => some ((PayN.read v w1).map (.lnsum h))
  | 0x029 => some ((PayN.read v w1).map (.lnrmx h))
  | 0x02A => some ((PayN.read v w1).map (.lnrmn h))
  | 0x02B => some ((PayN.read v w1).map (.lndot h))
  | 0x080 => some ((PayA.read v).map (.iadd h))
  | 0x081 => some ((PayA.read v).map (.iadds h))
  | 0x082 => some ((PayA.read v).map (.isub h))
  | 0x083 => some ((PayA.read v).map (.isubs h))
  | 0x084 => some ((PayA.read v).map (.imul h))
  | 0x085 => some ((PayA.read v).map (.imulh h))
  | 0x086 => some ((PayA.read v).map (.idiv h))
  | 0x087 => some ((PayA.read v).map (.irem h))
  | 0x088 => some ((PayA.read v).map (.ineg h))
  | 0x089 => some ((PayA.read v).map (.iabs h))
  | 0x08A => some ((PayA.read v).map (.imin h))
  | 0x08B => some ((PayA.read v).map (.imax h))
  | 0x08C => some ((PayA.read v).map (.imad h))
  | 0x08D => some ((PayA.read v).map (.iclamp h))
  | 0x090 => some ((PayA.read v).map (.andBits h))
  | 0x091 => some ((PayA.read v).map (.orBits h))
  | 0x092 => some ((PayA.read v).map (.xorBits h))
  | 0x093 => some ((PayA.read v).map (.notBits h))
  | 0x094 => some ((PayA.read v).map (.andn h))
  | 0x095 => some ((PayA.read v).map (.shl h))
  | 0x096 => some ((PayA.read v).map (.shr h))
  | 0x097 => some ((PayA.read v).map (.shra h))
  | 0x098 => some ((PayA.read v).map (.rotl h))
  | 0x099 => some ((PayA.read v).map (.popc h))
  | 0x09A => some ((PayA.read v).map (.clz h))
  | 0x09B => some ((PayA.read v).map (.ctz h))
  | 0x09C => some ((PayA.read v).map (.brev h))
  | 0x09D => some ((PayA.read v).map (.bfx h))
  | 0x09E => some ((PayA.read v).map (.bfi h))
  | 0x0A0 => some ((PayA.read v).map (.icmpeq h))
  | 0x0A1 => some ((PayA.read v).map (.icmpne h))
  | 0x0A2 => some ((PayA.read v).map (.icmplt h))
  | 0x0A3 => some ((PayA.read v).map (.icmple h))
  | 0x0A4 => some ((PayA.read v).map (.icmpgt h))
  | 0x0A5 => some ((PayA.read v).map (.icmpge h))
  | 0x0A8 => some ((PayA.read v).map (.sel h))
  | 0x0B0 => some ((PayA.read v).map (.aadd h))
  | 0x0B1 => some ((PayA.read v).map (.amad h))
  | 0x0B2 => some ((PayA.read v).map (.asub h))
  | 0x0B3 => some ((PayA.read v).map (.achk h))
  | 0x0B8 => some ((PayA.read v).map (.mov h))
  | 0x100 => some ((PayA.read v).map (.fadd h))
  | 0x101 => some ((PayA.read v).map (.fsub h))
  | 0x102 => some ((PayA.read v).map (.fmul h))
  | 0x103 => some ((PayA.read v).map (.fma h))
  | 0x104 => some ((PayA.read v).map (.fms h))
  | 0x105 => some ((PayA.read v).map (.fnma h))
  | 0x106 => some ((PayA.read v).map (.fdiv h))
  | 0x107 => some ((PayA.read v).map (.fsqrt h))
  | 0x108 => some ((PayA.read v).map (.fmin h))
  | 0x109 => some ((PayA.read v).map (.fmax h))
  | 0x10A => some ((PayA.read v).map (.fneg h))
  | 0x10B => some ((PayA.read v).map (.fabs h))
  | 0x10C => some ((PayA.read v).map (.fcpys h))
  | 0x110 => some ((PayA.read v).map (.fcmpeq h))
  | 0x111 => some ((PayA.read v).map (.fcmpne h))
  | 0x112 => some ((PayA.read v).map (.fcmplt h))
  | 0x113 => some ((PayA.read v).map (.fcmple h))
  | 0x114 => some ((PayA.read v).map (.fcmpun h))
  | 0x115 => some ((PayA.read v).map (.fclass h))
  | 0x118 => some ((PayA.read v).map (.frint h))
  | 0x120 => some ((PayA.read v).map (.exp2 h))
  | 0x121 => some ((PayA.read v).map (.log2 h))
  | 0x122 => some ((PayA.read v).map (.rcp h))
  | 0x123 => some ((PayA.read v).map (.rsq h))
  | 0x124 => some ((PayA.read v).map (.tanh h))
  | 0x125 => some ((PayA.read v).map (.sin h))
  | 0x180 => some ((PayL.read v).map (.lbcast h))
  | 0x181 => some ((PayL.read v).map (.lshuf h))
  | 0x182 => some ((PayL.read v).map (.lrot h))
  | 0x183 => some ((PayL.read v).map (.lsel h))
  | 0x184 => some ((PayL.read v).map (.vmask h))
  | 0x185 => some ((PayL.read v).map (.vget h))
  | 0x186 => some ((PayL.read v).map (.liota h))
  | 0x187 => some ((PayL.read v).map (.lscan h))
  | 0x188 => some ((PayL.read v).map (.rsum h))
  | 0x189 => some ((PayL.read v).map (.rmax h))
  | 0x18A => some ((PayL.read v).map (.rmin h))
  | 0x18B => some ((PayL.read v).map (.risum h))
  | 0x18C => some ((PayL.read v).map (.rimax h))
  | 0x18D => some ((PayL.read v).map (.rimin h))
  | 0x18E => some ((PayL.read v).map (.rand h))
  | 0x18F => some ((PayL.read v).map (.ror h))
  | 0x1C0 => some ((PayV.read v).map (.cvt h))
  | 0x1C1 => some ((PayV.read v).map (.cvti h))
  | 0x1C2 => some ((PayV.read v).map (.cvtf h))
  | 0x1C3 => some ((PayV.read v).map (.cvpk2 h))
  | 0x1C4 => some ((PayV.read v).map (.cvpk4 h))
  | 0x1C5 => some ((PayV.read v).map (.unpk2 h))
  | 0x1C6 => some ((PayV.read v).map (.unpk4 h))
  | 0x1C7 => some ((PayV.read v).map (.qblk h))
  | 0x1C8 => some ((PayV.read v).map (.qapply h))
  | 0x200 => some ((PayX.read v).map (.mset h))
  | 0x201 => some ((PayX.read v).map (.mldb h))
  | 0x202 => some ((PayX.read v).map (.mldt h))
  | 0x203 => some ((PayX.read v).map (.mrow h))
  | 0x204 => some ((PayX.read v).map (.mrows h))
  | 0x205 => some ((PayX.read v).map (.mdrain h))
  | 0x206 => some ((PayX.read v).map (.mout h))
  | 0x207 => some ((PayX.read v).map (.mclr h))
  | 0x208 => some ((PayX.read v).map (.mstat h))
  | 0x209 => some ((PayX.read v).map (.mkin h))
  | 0x20A => some ((PayX.read v).map (.mkout h))
  | 0x240 => some ((PayW.read v).map (.ld h))
  | 0x241 => some ((PayW.read v).map (.ldt h))
  | 0x242 => some ((PayW.read v).map (.st h))
  | 0x243 => some ((PayW.read v).map (.stt h))
  | 0x244 => some ((PayW.read v).map (.ldg h))
  | 0x245 => some ((PayW.read v).map (.stsc h))
  | 0x246 => some ((PayW.read v).map (.ldacq h))
  | 0x247 => some ((PayW.read v).map (.strel h))
  | 0x248 => some ((PayW.read v).map (.pref h))
  | 0x249 => some ((PayW.read v).map (.resid h))
  | 0x24A => some ((PayW.read v).map (.evict h))
  | 0x2C0 => some ((PayW.read v).map (.phase h))
  | 0x2C1 => some ((PayW.read v).map (.fence h))
  | 0x2C8 => some ((PayW.read v).map (.atadd h))
  | 0x2C9 => some ((PayW.read v).map (.atand h))
  | 0x2CA => some ((PayW.read v).map (.ator h))
  | 0x2CB => some ((PayW.read v).map (.atxor h))
  | 0x2CC => some ((PayW.read v).map (.atmin h))
  | 0x2CD => some ((PayW.read v).map (.atmax h))
  | 0x2CE => some ((PayW.read v).map (.atxch h))
  | 0x2CF => some ((PayW.read v).map (.atcas h))
  | 0x2D0 => some ((PayW.read v).map (.atfadd h))
  | 0x2D8 => some ((PayW.read v).map (.binit h))
  | 0x2D9 => some ((PayW.read v).map (.barr h))
  | 0x2DA => some ((PayW.read v).map (.bwait h))
  | 0x2DB => some ((PayW.read v).map (.waitb h))
  | 0x2DC => some ((PayW.read v).map (.waita h))
  | 0x300 => some ((PayE.read v).map (.cpy h))
  | 0x301 => some ((PayE.read v).map (.cpys h))
  | 0x302 => some ((PayE.read v).map (.slotf h))
  | 0x303 => some ((PayE.read v).map (fun p => if p.ectl.getLsbD 0 then .shdwQry h p else .shdw h p))
  | 0x304 => some ((PayE.read v).map (.publ h))
  | 0x305 => some ((PayE.read v).map (.evq h))
  | 0x306 => some ((PayE.read v).map (.coll h))
  | 0x307 => some ((PayE.read v).map (.draft h))
  | 0x340 => some ((PayQ.read v).map (fun p => if p.qctl.extractLsb' 4 12 == 0xFFF then .quotaTag h p else .quota h p))
  | 0x341 => some ((PayQ.read v).map (.spawn h))
  | 0x342 => some ((PayQ.read v).map (.tagfree h))
  | 0x343 => some ((PayQ.read v).map (.purge h))
  | 0x344 => some ((PayQ.read v).map (.stallt h))
  | 0x345 => some ((PayQ.read v).map (.recol h))
  | 0x380 => some ((PayS.read v).map (.trap h))
  | 0x381 => some ((PayS.read v).map (.brk h))
  | 0x382 => some ((PayS.read v).map (.rdsr h))
  | 0x383 => some ((PayS.read v).map (.wrsr h))
  | 0x384 => some ((PayS.read v).map (.yield h))
  | 0x385 => some ((PayS.read v).map (.halt h))
  | 0x386 => some ((PayS.read v).map (.hrd h))
  | 0x387 => some ((PayS.read v).map (.hwr h))
  | 0x388 => some ((PayS.read v).map (.fmtld h))
  | 0x389 => some ((PayS.read v).map (.fmtrd h))
  | 0x38A => some ((PayS.read v).map (.fmtsync h))
  | 0x38C => some ((PayS.read v).map (.lgbind h))
  | _ => none

/-- A header with every field zero, to ask only whether an op is assigned. -/
def hdrNone : Hdr :=
  { fmt := 0, rnd := .dflt, gd := Guard.off, nopd := 0, imask := 0, t0 := .none, t1 := .none, hint := 0, swz := 0, sched := 0 }

/-- A main instruction from slot j and, for a loop nest, slot j + 1 (the second word is ignored by every
other instruction). -/
def decodeMain (w0 w1 : Nat) : Except Reject Instr :=
  match Hdr.read (w0 / 2 ^ 64 % 2 ^ 64) with
  | none => if (opTable (w0 / 2 ^ 118 % 2 ^ 10) hdrNone 0 0).isNone then .error .unassigned else .error .reserved
  | some (op, h) =>
    match opTable op h (w0 % 2 ^ 64) w1 with
    | none => .error .unassigned
    | some none => .error .reserved
    | some (some i) => if i.wf then .ok i else .error .malformed

/-- Whether a word is the first slot of a loop nest (R82). -/
def isNestWord (w : Word128) : Bool :=
  let op := w.toNat / 2 ^ 118 % 2 ^ 10
  decide (0x020 ≤ op) && decide (op ≤ 0x02B)

/-! ### Logit instructions (R194, R195) -/

/-- A logit instruction from its 64-bit word. -/
def decodeLogit (w : Nat) : Except Reject Instr :=
  match unpack [32, 15, 3, 3, 3, 3, 5] w with
  | [imm, rsv, c, b, a, d, op] =>
    let z (uc ub ua ud ui : Bool) (i : Instr) : Except Reject Instr :=
      if rsv = 0 ∧ (uc ∨ c = 0) ∧ (ub ∨ b = 0) ∧ (ua ∨ a = 0) ∧ (ud ∨ d = 0) ∧ (ui ∨ imm = 0) then .ok i else .error .malformed
    let rd := BitVec.ofNat 3 d
    let ra := BitVec.ofNat 3 a
    let rb := BitVec.ofNat 3 b
    let rc := BitVec.ofNat 3 c
    let im := BitVec.ofNat 32 imm
    match op with
    | 0x00 => z false false false false false .lgEnd
    | 0x01 => z false true true true false (.lgAdd rd ra rb)
    | 0x02 => z false true true true false (.lgSub rd ra rb)
    | 0x03 => z false true true true false (.lgMul rd ra rb)
    | 0x04 => z true true true true false (.lgFma rd ra rb rc)
    | 0x05 => z false false true true true (.lgAddi rd ra im)
    | 0x06 => z false false true true true (.lgMuli rd ra im)
    | 0x07 => z false false false true true (.lgMovi rd im)
    | 0x08 => z false false true true false (.lgMov rd ra)
    | 0x09 => z false true true true false (.lgMax rd ra rb)
    | 0x0A => z false true true true false (.lgMin rd ra rb)
    | 0x0B => z false false true true false (.lgNeg rd ra)
    | 0x0C => z false false true true false (.lgAbs rd ra)
    | 0x0D => z false false true true false (.lgRcp rd ra)
    | 0x0E => z false false true true false (.lgExp2 rd ra)
    | 0x0F => z false false true true false (.lgLog2 rd ra)
    | 0x10 => z false true true true false (.lgCmplt rd ra rb)
    | 0x11 => z false true true true false (.lgCmple rd ra rb)
    | 0x12 => z false true true true false (.lgCmpeq rd ra rb)
    | 0x13 => z true true true true false (.lgSel rd ra rb rc)
    | 0x14 => z false false true false false (.lgMask ra)
    | _ => .error .unassigned
  | _ => .error .malformed

/-! ### Policy bytecodes (R328) -/

/-- A policy bytecode from its 32-bit word. -/
def decodePolicy (w : Nat) : Except Reject Instr :=
  match unpack [14, 4, 4, 4, 6] w, unpack [16, 2] w with
  | [low, b, a, d, op], [imm, zz] =>
    let z (c : Bool) (i : Instr) : Except Reject Instr := if c && i.wf then .ok i else .error .malformed
    let rd := BitVec.ofNat 4 d
    let ra := BitVec.ofNat 4 a
    let rb := BitVec.ofNat 4 b
    let im := BitVec.ofNat 16 imm
    match op with
    | 0x01 => z (low == 0) (.polAdd rd ra rb)
    | 0x02 => z (low == 0) (.polSub rd ra rb)
    | 0x03 => z (low == 0) (.polMul rd ra rb)
    | 0x04 => z (low == 0) (.polAnd rd ra rb)
    | 0x05 => z (low == 0) (.polOr rd ra rb)
    | 0x06 => z (low == 0) (.polXor rd ra rb)
    | 0x07 => z (low == 0) (.polShl rd ra rb)
    | 0x08 => z (low == 0) (.polShr rd ra rb)
    | 0x09 => z (low == 0) (.polMin rd ra rb)
    | 0x0A => z (low == 0) (.polMax rd ra rb)
    | 0x0B => z (low == 0) (.polSltu rd ra rb)
    | 0x0C => z (low == 0) (.polSeq rd ra rb)
    | 0x0D => z (low == 0) (.polCsel rd ra rb)
    | 0x10 => z (zz == 0 && a == 0) (.polLdi rd im)
    | 0x11 => z (zz == 0 && a == 0) (.polLdis rd im)
    | 0x12 => z (zz == 0) (.polAddi rd ra im)
    | 0x13 => z (zz == 0) (.polAndi rd ra im)
    | 0x14 => z (zz == 0) (.polShli rd ra im)
    | 0x15 => z (zz == 0) (.polShri rd ra im)
    | 0x18 => z (zz == 0) (.polRdc rd ra im)
    | 0x19 => z (zz == 0) (.polRdq rd ra im)
    | 0x1A => z (zz == 0) (.polRdr rd ra im)
    | 0x1B => z (zz == 0 && a == 0) (.polRdw rd im)
    | 0x1C => z (zz == 0 && a == 0) (.polRdd rd im)
    | 0x20 => z (zz == 0 && d == 0) (.polBrz ra im)
    | 0x21 => z (zz == 0 && d == 0) (.polBrnz ra im)
    | 0x22 => z (zz == 0 && d == 0 && a == 0) (.polJmp im)
    | 0x23 => z (zz == 0 && a == 0) (.polForeach rd im)
    | 0x24 => z (zz == 0 && d == 0 && a == 0 && imm == 0) .polNext
    | 0x30 => z (zz == 0 && d == 0 && imm == 0) (.polPick ra)
    | 0x31 => z (zz == 0 && d == 0 && imm == 0) (.polPreempt ra)
    | 0x32 => z (zz == 0 && d == 0 && a == 0 && imm == 0) .polDefer
    | 0x33 => z (zz == 0 && d == 0 && imm == 0) (.polKill ra)
    | _ => .error .unassigned
  | _, _ => .error .malformed

/-! ### Bytes and table words -/

/-- The three instruction sets, by the width of their words. -/
inductive InstrSet where
  | main | logit | policy
  deriving DecidableEq, Repr

/-- A little-endian number (R3). -/
def leNat : List (BitVec 8) → Nat
  | [] => 0
  | b :: l => b.toNat + 256 * leNat l

/-- The `n` little-endian bytes of a number. -/
def leBytes : Nat → Nat → List (BitVec 8)
  | 0, _ => []
  | n + 1, v => BitVec.ofNat 8 v :: leBytes n (v / 256)

/-- Decode one instruction from the front of a byte string, with the bytes that are left. -/
def decodeBytes (set : InstrSet) (bytes : List (BitVec 8)) : Except Reject (Instr × List (BitVec 8)) :=
  match set with
  | .policy => if bytes.length < 4 then .error .short else (decodePolicy (leNat (bytes.take 4))).map (·, bytes.drop 4)
  | .logit => if bytes.length < 8 then .error .short else (decodeLogit (leNat (bytes.take 8))).map (·, bytes.drop 8)
  | .main =>
    if bytes.length < 16 then .error .short
    else if isNestWord (BitVec.ofNat 128 (leNat (bytes.take 16))) then
      if bytes.length < 32 then .error .short
      else (decodeMain (leNat (bytes.take 16)) (leNat ((bytes.drop 16).take 16))).map (·, bytes.drop 32)
    else (decodeMain (leNat (bytes.take 16)) 0).map (·, bytes.drop 16)

/-- The instruction that `nbits` bits `w` are, numbered as the opcode table numbers them: policy
bytecodes have 32 bits, logit instructions 64, main instructions 128 and loop nests 256. -/
def decodeTableWord (nbits w : Nat) : Option Instr :=
  if nbits ≤ 32 then (decodePolicy (w % 2 ^ 32)).toOption
  else if nbits ≤ 64 then (decodeLogit (w % 2 ^ 64)).toOption
  else (decodeMain (w % 2 ^ 128) (w / 2 ^ 128 % 2 ^ 128)).toOption

/-! ### Encoding -/

/-- The word of a main instruction. -/
def mainWord (h : Hdr) (op : Nat) (payload : List (Nat × Nat)) : Nat := pack (payload ++ h.fields op)

/-- Both words of a loop nest, the second above the first. -/
def nestWord (h : Hdr) (op : Nat) (p : PayN) : Nat := mainWord h op p.fields + 2 ^ 128 * pack p.fields1

/-- A logit word from C, B, A, D, OP and IMM. -/
def logitWord (op d a b c imm : Nat) : Nat := pack [(32, imm), (15, 0), (3, c), (3, b), (3, a), (3, d), (5, op)]

/-- A policy word in register form, and in immediate form. -/
def polReg (op d a b : Nat) : Nat := pack [(14, 0), (4, b), (4, a), (4, d), (6, op)]
def polImm (op d a imm : Nat) : Nat := pack [(16, imm), (2, 0), (4, a), (4, d), (6, op)]

/-- The number of bits and the word of a well-formed instruction; events have none. -/
def encode (i : Instr) : Option (Nat × Nat) :=
  match i with
  | .exitEnd h p => some (128, mainWord h 0x001 p.fields)
  | .br h p => some (128, mainWord h 0x002 p.fields)
  | .brx h p => some (128, mainWord h 0x003 p.fields)
  | .emit h p => some (128, mainWord h 0x008 p.fields)
  | .steer h p => some (128, mainWord h 0x009 p.fields)
  | .merge h p => some (128, mainWord h 0x00A p.fields)
  | .gate h p => some (128, mainWord h 0x00B p.fields)
  | .drop h p => some (128, mainWord h 0x00C p.fields)
  | .iter h p => some (128, mainWord h 0x00D p.fields)
  | .cntld h p => some (128, mainWord h 0x010 p.fields)
  | .cntrd h p => some (128, mainWord h 0x011 p.fields)
  | .cntstep h p => some (128, mainWord h 0x012 p.fields)
  | .gotx h p => some (128, mainWord h 0x013 p.fields)
  | .haltx h p => some (128, mainWord h 0x014 p.fields)
  | .lncpy h p => some (256, nestWord h 0x020 p)
  | .lnadd h p => some (256, nestWord h 0x021 p)
  | .lnsub h p => some (256, nestWord h 0x022 p)
  | .lnmul h p => some (256, nestWord h 0x023 p)
  | .lnfma h p => some (256, nestWord h 0x024 p)
  | .lnmax h p => some (256, nestWord h 0x025 p)
  | .lnmin h p => some (256, nestWord h 0x026 p)
  | .lndif h p => some (256, nestWord h 0x027 p)
  | .lnsum h p => some (256, nestWord h 0x028 p)
  | .lnrmx h p => some (256, nestWord h 0x029 p)
  | .lnrmn h p => some (256, nestWord h 0x02A p)
  | .lndot h p => some (256, nestWord h 0x02B p)
  | .iadd h p => some (128, mainWord h 0x080 p.fields)
  | .iadds h p => some (128, mainWord h 0x081 p.fields)
  | .isub h p => some (128, mainWord h 0x082 p.fields)
  | .isubs h p => some (128, mainWord h 0x083 p.fields)
  | .imul h p => some (128, mainWord h 0x084 p.fields)
  | .imulh h p => some (128, mainWord h 0x085 p.fields)
  | .idiv h p => some (128, mainWord h 0x086 p.fields)
  | .irem h p => some (128, mainWord h 0x087 p.fields)
  | .ineg h p => some (128, mainWord h 0x088 p.fields)
  | .iabs h p => some (128, mainWord h 0x089 p.fields)
  | .imin h p => some (128, mainWord h 0x08A p.fields)
  | .imax h p => some (128, mainWord h 0x08B p.fields)
  | .imad h p => some (128, mainWord h 0x08C p.fields)
  | .iclamp h p => some (128, mainWord h 0x08D p.fields)
  | .andBits h p => some (128, mainWord h 0x090 p.fields)
  | .orBits h p => some (128, mainWord h 0x091 p.fields)
  | .xorBits h p => some (128, mainWord h 0x092 p.fields)
  | .notBits h p => some (128, mainWord h 0x093 p.fields)
  | .andn h p => some (128, mainWord h 0x094 p.fields)
  | .shl h p => some (128, mainWord h 0x095 p.fields)
  | .shr h p => some (128, mainWord h 0x096 p.fields)
  | .shra h p => some (128, mainWord h 0x097 p.fields)
  | .rotl h p => some (128, mainWord h 0x098 p.fields)
  | .popc h p => some (128, mainWord h 0x099 p.fields)
  | .clz h p => some (128, mainWord h 0x09A p.fields)
  | .ctz h p => some (128, mainWord h 0x09B p.fields)
  | .brev h p => some (128, mainWord h 0x09C p.fields)
  | .bfx h p => some (128, mainWord h 0x09D p.fields)
  | .bfi h p => some (128, mainWord h 0x09E p.fields)
  | .icmpeq h p => some (128, mainWord h 0x0A0 p.fields)
  | .icmpne h p => some (128, mainWord h 0x0A1 p.fields)
  | .icmplt h p => some (128, mainWord h 0x0A2 p.fields)
  | .icmple h p => some (128, mainWord h 0x0A3 p.fields)
  | .icmpgt h p => some (128, mainWord h 0x0A4 p.fields)
  | .icmpge h p => some (128, mainWord h 0x0A5 p.fields)
  | .sel h p => some (128, mainWord h 0x0A8 p.fields)
  | .mov h p => some (128, mainWord h 0x0B8 p.fields)
  | .aadd h p => some (128, mainWord h 0x0B0 p.fields)
  | .amad h p => some (128, mainWord h 0x0B1 p.fields)
  | .asub h p => some (128, mainWord h 0x0B2 p.fields)
  | .achk h p => some (128, mainWord h 0x0B3 p.fields)
  | .fadd h p => some (128, mainWord h 0x100 p.fields)
  | .fsub h p => some (128, mainWord h 0x101 p.fields)
  | .fmul h p => some (128, mainWord h 0x102 p.fields)
  | .fma h p => some (128, mainWord h 0x103 p.fields)
  | .fms h p => some (128, mainWord h 0x104 p.fields)
  | .fnma h p => some (128, mainWord h 0x105 p.fields)
  | .fdiv h p => some (128, mainWord h 0x106 p.fields)
  | .fsqrt h p => some (128, mainWord h 0x107 p.fields)
  | .fmin h p => some (128, mainWord h 0x108 p.fields)
  | .fmax h p => some (128, mainWord h 0x109 p.fields)
  | .fneg h p => some (128, mainWord h 0x10A p.fields)
  | .fabs h p => some (128, mainWord h 0x10B p.fields)
  | .fcpys h p => some (128, mainWord h 0x10C p.fields)
  | .fcmpeq h p => some (128, mainWord h 0x110 p.fields)
  | .fcmpne h p => some (128, mainWord h 0x111 p.fields)
  | .fcmplt h p => some (128, mainWord h 0x112 p.fields)
  | .fcmple h p => some (128, mainWord h 0x113 p.fields)
  | .fcmpun h p => some (128, mainWord h 0x114 p.fields)
  | .fclass h p => some (128, mainWord h 0x115 p.fields)
  | .frint h p => some (128, mainWord h 0x118 p.fields)
  | .exp2 h p => some (128, mainWord h 0x120 p.fields)
  | .log2 h p => some (128, mainWord h 0x121 p.fields)
  | .rcp h p => some (128, mainWord h 0x122 p.fields)
  | .rsq h p => some (128, mainWord h 0x123 p.fields)
  | .tanh h p => some (128, mainWord h 0x124 p.fields)
  | .sin h p => some (128, mainWord h 0x125 p.fields)
  | .lbcast h p => some (128, mainWord h 0x180 p.fields)
  | .lshuf h p => some (128, mainWord h 0x181 p.fields)
  | .lrot h p => some (128, mainWord h 0x182 p.fields)
  | .lsel h p => some (128, mainWord h 0x183 p.fields)
  | .vmask h p => some (128, mainWord h 0x184 p.fields)
  | .vget h p => some (128, mainWord h 0x185 p.fields)
  | .liota h p => some (128, mainWord h 0x186 p.fields)
  | .lscan h p => some (128, mainWord h 0x187 p.fields)
  | .rsum h p => some (128, mainWord h 0x188 p.fields)
  | .rmax h p => some (128, mainWord h 0x189 p.fields)
  | .rmin h p => some (128, mainWord h 0x18A p.fields)
  | .risum h p => some (128, mainWord h 0x18B p.fields)
  | .rimax h p => some (128, mainWord h 0x18C p.fields)
  | .rimin h p => some (128, mainWord h 0x18D p.fields)
  | .rand h p => some (128, mainWord h 0x18E p.fields)
  | .ror h p => some (128, mainWord h 0x18F p.fields)
  | .cvt h p => some (128, mainWord h 0x1C0 p.fields)
  | .cvti h p => some (128, mainWord h 0x1C1 p.fields)
  | .cvtf h p => some (128, mainWord h 0x1C2 p.fields)
  | .cvpk2 h p => some (128, mainWord h 0x1C3 p.fields)
  | .cvpk4 h p => some (128, mainWord h 0x1C4 p.fields)
  | .unpk2 h p => some (128, mainWord h 0x1C5 p.fields)
  | .unpk4 h p => some (128, mainWord h 0x1C6 p.fields)
  | .qblk h p => some (128, mainWord h 0x1C7 p.fields)
  | .qapply h p => some (128, mainWord h 0x1C8 p.fields)
  | .mset h p => some (128, mainWord h 0x200 p.fields)
  | .mldb h p => some (128, mainWord h 0x201 p.fields)
  | .mldt h p => some (128, mainWord h 0x202 p.fields)
  | .mrow h p => some (128, mainWord h 0x203 p.fields)
  | .mrows h p => some (128, mainWord h 0x204 p.fields)
  | .mdrain h p => some (128, mainWord h 0x205 p.fields)
  | .mout h p => some (128, mainWord h 0x206 p.fields)
  | .mclr h p => some (128, mainWord h 0x207 p.fields)
  | .mstat h p => some (128, mainWord h 0x208 p.fields)
  | .mkin h p => some (128, mainWord h 0x209 p.fields)
  | .mkout h p => some (128, mainWord h 0x20A p.fields)
  | .ld h p => some (128, mainWord h 0x240 p.fields)
  | .ldt h p => some (128, mainWord h 0x241 p.fields)
  | .st h p => some (128, mainWord h 0x242 p.fields)
  | .stt h p => some (128, mainWord h 0x243 p.fields)
  | .ldg h p => some (128, mainWord h 0x244 p.fields)
  | .stsc h p => some (128, mainWord h 0x245 p.fields)
  | .ldacq h p => some (128, mainWord h 0x246 p.fields)
  | .strel h p => some (128, mainWord h 0x247 p.fields)
  | .pref h p => some (128, mainWord h 0x248 p.fields)
  | .resid h p => some (128, mainWord h 0x249 p.fields)
  | .evict h p => some (128, mainWord h 0x24A p.fields)
  | .phase h p => some (128, mainWord h 0x2C0 p.fields)
  | .fence h p => some (128, mainWord h 0x2C1 p.fields)
  | .atadd h p => some (128, mainWord h 0x2C8 p.fields)
  | .atand h p => some (128, mainWord h 0x2C9 p.fields)
  | .ator h p => some (128, mainWord h 0x2CA p.fields)
  | .atxor h p => some (128, mainWord h 0x2CB p.fields)
  | .atmin h p => some (128, mainWord h 0x2CC p.fields)
  | .atmax h p => some (128, mainWord h 0x2CD p.fields)
  | .atxch h p => some (128, mainWord h 0x2CE p.fields)
  | .atcas h p => some (128, mainWord h 0x2CF p.fields)
  | .atfadd h p => some (128, mainWord h 0x2D0 p.fields)
  | .binit h p => some (128, mainWord h 0x2D8 p.fields)
  | .barr h p => some (128, mainWord h 0x2D9 p.fields)
  | .bwait h p => some (128, mainWord h 0x2DA p.fields)
  | .waitb h p => some (128, mainWord h 0x2DB p.fields)
  | .waita h p => some (128, mainWord h 0x2DC p.fields)
  | .cpy h p => some (128, mainWord h 0x300 p.fields)
  | .cpys h p => some (128, mainWord h 0x301 p.fields)
  | .slotf h p => some (128, mainWord h 0x302 p.fields)
  | .shdw h p => some (128, mainWord h 0x303 p.fields)
  | .shdwQry h p => some (128, mainWord h 0x303 p.fields)
  | .publ h p => some (128, mainWord h 0x304 p.fields)
  | .evq h p => some (128, mainWord h 0x305 p.fields)
  | .coll h p => some (128, mainWord h 0x306 p.fields)
  | .draft h p => some (128, mainWord h 0x307 p.fields)
  | .quota h p => some (128, mainWord h 0x340 p.fields)
  | .quotaTag h p => some (128, mainWord h 0x340 p.fields)
  | .spawn h p => some (128, mainWord h 0x341 p.fields)
  | .tagfree h p => some (128, mainWord h 0x342 p.fields)
  | .purge h p => some (128, mainWord h 0x343 p.fields)
  | .stallt h p => some (128, mainWord h 0x344 p.fields)
  | .recol h p => some (128, mainWord h 0x345 p.fields)
  | .trap h p => some (128, mainWord h 0x380 p.fields)
  | .brk h p => some (128, mainWord h 0x381 p.fields)
  | .rdsr h p => some (128, mainWord h 0x382 p.fields)
  | .wrsr h p => some (128, mainWord h 0x383 p.fields)
  | .yield h p => some (128, mainWord h 0x384 p.fields)
  | .halt h p => some (128, mainWord h 0x385 p.fields)
  | .hrd h p => some (128, mainWord h 0x386 p.fields)
  | .hwr h p => some (128, mainWord h 0x387 p.fields)
  | .fmtld h p => some (128, mainWord h 0x388 p.fields)
  | .fmtrd h p => some (128, mainWord h 0x389 p.fields)
  | .fmtsync h p => some (128, mainWord h 0x38A p.fields)
  | .lgbind h p => some (128, mainWord h 0x38C p.fields)
  | .lgEnd => some (64, logitWord 0x00 0 0 0 0 0)
  | .lgAdd d a b => some (64, logitWord 0x01 d.toNat a.toNat b.toNat 0 0)
  | .lgSub d a b => some (64, logitWord 0x02 d.toNat a.toNat b.toNat 0 0)
  | .lgMul d a b => some (64, logitWord 0x03 d.toNat a.toNat b.toNat 0 0)
  | .lgFma d a b c => some (64, logitWord 0x04 d.toNat a.toNat b.toNat c.toNat 0)
  | .lgAddi d a imm => some (64, logitWord 0x05 d.toNat a.toNat 0 0 imm.toNat)
  | .lgMuli d a imm => some (64, logitWord 0x06 d.toNat a.toNat 0 0 imm.toNat)
  | .lgMovi d imm => some (64, logitWord 0x07 d.toNat 0 0 0 imm.toNat)
  | .lgMov d a => some (64, logitWord 0x08 d.toNat a.toNat 0 0 0)
  | .lgMax d a b => some (64, logitWord 0x09 d.toNat a.toNat b.toNat 0 0)
  | .lgMin d a b => some (64, logitWord 0x0A d.toNat a.toNat b.toNat 0 0)
  | .lgNeg d a => some (64, logitWord 0x0B d.toNat a.toNat 0 0 0)
  | .lgAbs d a => some (64, logitWord 0x0C d.toNat a.toNat 0 0 0)
  | .lgRcp d a => some (64, logitWord 0x0D d.toNat a.toNat 0 0 0)
  | .lgExp2 d a => some (64, logitWord 0x0E d.toNat a.toNat 0 0 0)
  | .lgLog2 d a => some (64, logitWord 0x0F d.toNat a.toNat 0 0 0)
  | .lgCmplt d a b => some (64, logitWord 0x10 d.toNat a.toNat b.toNat 0 0)
  | .lgCmple d a b => some (64, logitWord 0x11 d.toNat a.toNat b.toNat 0 0)
  | .lgCmpeq d a b => some (64, logitWord 0x12 d.toNat a.toNat b.toNat 0 0)
  | .lgSel d a b c => some (64, logitWord 0x13 d.toNat a.toNat b.toNat c.toNat 0)
  | .lgMask a => some (64, logitWord 0x14 0 a.toNat 0 0 0)
  | .polAdd d a b => some (32, polReg 0x01 d.toNat a.toNat b.toNat)
  | .polSub d a b => some (32, polReg 0x02 d.toNat a.toNat b.toNat)
  | .polMul d a b => some (32, polReg 0x03 d.toNat a.toNat b.toNat)
  | .polAnd d a b => some (32, polReg 0x04 d.toNat a.toNat b.toNat)
  | .polOr d a b => some (32, polReg 0x05 d.toNat a.toNat b.toNat)
  | .polXor d a b => some (32, polReg 0x06 d.toNat a.toNat b.toNat)
  | .polShl d a b => some (32, polReg 0x07 d.toNat a.toNat b.toNat)
  | .polShr d a b => some (32, polReg 0x08 d.toNat a.toNat b.toNat)
  | .polMin d a b => some (32, polReg 0x09 d.toNat a.toNat b.toNat)
  | .polMax d a b => some (32, polReg 0x0A d.toNat a.toNat b.toNat)
  | .polSltu d a b => some (32, polReg 0x0B d.toNat a.toNat b.toNat)
  | .polSeq d a b => some (32, polReg 0x0C d.toNat a.toNat b.toNat)
  | .polCsel d a b => some (32, polReg 0x0D d.toNat a.toNat b.toNat)
  | .polLdi d imm => some (32, polImm 0x10 d.toNat 0 imm.toNat)
  | .polLdis d imm => some (32, polImm 0x11 d.toNat 0 imm.toNat)
  | .polAddi d a imm => some (32, polImm 0x12 d.toNat a.toNat imm.toNat)
  | .polAndi d a imm => some (32, polImm 0x13 d.toNat a.toNat imm.toNat)
  | .polShli d a imm => some (32, polImm 0x14 d.toNat a.toNat imm.toNat)
  | .polShri d a imm => some (32, polImm 0x15 d.toNat a.toNat imm.toNat)
  | .polRdc d a imm => some (32, polImm 0x18 d.toNat a.toNat imm.toNat)
  | .polRdq d a imm => some (32, polImm 0x19 d.toNat a.toNat imm.toNat)
  | .polRdr d a imm => some (32, polImm 0x1A d.toNat a.toNat imm.toNat)
  | .polRdw d imm => some (32, polImm 0x1B d.toNat 0 imm.toNat)
  | .polRdd d imm => some (32, polImm 0x1C d.toNat 0 imm.toNat)
  | .polBrz a imm => some (32, polImm 0x20 0 a.toNat imm.toNat)
  | .polBrnz a imm => some (32, polImm 0x21 0 a.toNat imm.toNat)
  | .polJmp imm => some (32, polImm 0x22 0 0 imm.toNat)
  | .polForeach d imm => some (32, polImm 0x23 d.toNat 0 imm.toNat)
  | .polNext => some (32, polImm 0x24 0 0 0)
  | .polPick a => some (32, polImm 0x30 0 a.toNat 0)
  | .polPreempt a => some (32, polImm 0x31 0 a.toNat 0)
  | .polDefer => some (32, polImm 0x32 0 0 0)
  | .polKill a => some (32, polImm 0x33 0 a.toNat 0)
  | .tokenAccept _ _ => none
  | .tokenSend _ _ => none
  | .creditReturn _ _ => none
  | .firingChoice _ => none
  | .blockFetch _ _ _ => none
  | .memoryResponse _ _ => none
  | .translationWalk _ _ _ => none
  | .instanceCommit _ => none
  | .releasePerformed _ _ => none
  | .goToken _ _ => none
  | .haltToken _ _ => none
  | .loopNestOuterPoint _ => none
  | .formatChangeReach _ _ => none
  | .monitorEvent _ _ => none
  | .waitTimeout _ _ => none
  | .stallTimer _ _ _ => none
  | .excDelivery _ => none
  | .watchdogExpiry _ _ => none
  | .parityError _ _ => none
  | .partialTokenAbort _ _ => none
  | .purgeReset _ => none
  | .drainReceive _ => none
  | .belfrySwap _ => none
  | .belfryEnable _ _ => none
  | .belfryDisable _ => none
  | .tinval _ _ => none
  | .chunkComplete _ _ => none
  | .copyComplete _ => none
  | .engineFault _ => none
  | .streamTile _ => none
  | .noticeAccept _ => none
  | .collComplete _ => none
  | .collTimeout _ => none
  | .eventRecord _ => none
  | .streamHeader _ _ => none
  | .logitToken _ _ => none
  | .streamDraw _ _ _ => none
  | .lanternCommitToken _ _ => none
  | .draftWalkDone _ => none
  | .launch _ _ _ => none
  | .wait _ _ => none
  | .waitPacketTimeout _ _ => none
  | .signal _ _ => none
  | .policySwap _ _ => none
  | .abortCancel _ _ => none
  | .abortKill _ _ => none
  | .abortPurge _ _ => none
  | .queueStart _ _ => none
  | .queueStop _ _ => none
  | .queueResume _ _ _ => none
  | .queueClearQuar _ _ => none
  | .ridxWrite _ _ _ => none
  | .dispatchDecision _ _ => none
  | .preemptDecision _ _ => none
  | .faultDecision _ _ => none
  | .policyBudgetExpiry _ => none
  | .decisionCommit _ => none
  | .sliceExpiry _ _ => none
  | .quarantineSliceExpiry _ _ => none
  | .configPacket _ _ _ => none
  | .launchComplete _ _ => none
  | .recqTileSend _ _ => none
  | .taskComplete _ _ => none
  | .cutBegin _ => none
  | .markerArrive _ => none
  | .cutComplete _ => none
  | .saveDeadlineExpiry _ => none
  | .restore _ _ => none
  | .powerPeriod => none
  | .thermalLimit _ => none
  | .hostWriteLiveWord _ _ => none
  | .cxlSnoop _ => none
  | .bkptStep _ => none
  | .bkptDisarm _ => none
  | .debugBreakWrite _ _ => none
  | .badcClear _ => none
  | .qspireClear _ => none
  | .registerWrite _ _ => none
  | .create _ _ _ _ _ => none
  | .grant _ _ _ => none
  | .reclaim _ _ _ => none
  | .destroy _ => none
  | .keyInstall _ _ _ _ => none
  | .keyRetire _ _ _ => none
  | .kekInstall _ _ => none
  | .keyImport _ _ _ _ => none
  | .unlock _ => none
  | .unlockChallenge _ => none
  | .getTdispVersion _ => none
  | .getTdispCapabilities _ => none
  | .lockInterfaceRequest _ => none
  | .getDeviceInterfaceReport _ => none
  | .getDeviceInterfaceState _ => none
  | .startInterfaceRequest _ => none
  | .stopInterfaceRequest _ => none
  | .getMeasurements _ => none
  | .ideKm _ => none
  | .linkDown => none
  | .keyWrap _ => none
  | .coldReset => none
  | .hostLinkTrain _ _ _ => none
  | .frauthPortTrain _ _ => none
  | .frauthPortDown _ => none
  | .functionReady _ _ => none
  | .pldmMonitor => none
  | .pldmFirmwareUpdate _ => none
  | .frauthRequest _ _ _ => none
  | .flitReplay _ => none
  | .spdmSessionEstablish _ => none
  | .temperatureChange _ _ _ => none
  | .hardFault _ _ => none

end Sys2Proof
end

