-- ==== Sys2Proof/Machine/State.lean ====
section
/-! DEFINITION. The state of a BHN-9400 as plain data: every register, table, memory, queue and token the
manual gives the device, and the agenda that resolves every order and delay it leaves open. -/

namespace Sys2Proof.Machine

/-- Why the machine stops with a fault. -/
inductive Fault where
  /-- The word at the focused slot is no instruction and belongs to no loaded block, logit program or
  policy, all of which are checked before they run (R88, R194, R324); raised by `step` alone; safe. -/
  | badWord
  deriving DecidableEq, Repr

/-- Why the machine has no meaning for an instruction. -/
inductive Refusal where
  /-- An instruction whose meaning has not been written; answered by an arm of `exec` alone; safe. -/
  | notModelled (mnemonic : String)
  deriving DecidableEq, Repr

/-! ### Causes and records (R368–R370) -/

/-- The shared list of causes (R368). -/
inductive Cause where
  | illegalEncoding | formatEntry | addrOverflow | translation | permission | barrierStore | replayNondet
  | holdOverflow | capability | parity | stall | watchdog | queueError | preempted | brk
  deriving DecidableEq, Repr

/-- What a raise reports: cause, detail text, level, element, address, entry, trap code and iteration
vector (R369, R370). -/
structure Report where
  cause : Cause
  detail : Nat := 0
  level : Nat := 0
  n : Nat := 0
  addr : Nat := 0
  entry : Nat := 0
  trap : Nat := 0
  hard : Bool := false
  iters : List Nat := []
  deriving DecidableEq, Repr

/-! ### Ports, channels and tokens -/

/-- A port of a node. -/
structure PortId where
  node : NodeId
  port : Nat
  deriving DecidableEq, Repr

/-- A token held at an input port: in a matching entry or a buffer slot (R285); `use` names the arrival
sequence of the firing that holds it; `bkpt` the comparator that holds it, and since when (R378). -/
structure PTok where
  at_ : PortId
  chan : Option ChanId
  tok : Token
  entry : Bool
  use : Option Nat
  bkpt : Option (Nat × Nat)
  deriving DecidableEq, Repr

/-- A token on its way on a channel; `errs` counts its parity errors (R374, R375). -/
structure Flight where
  chan : ChanId
  tok : Token
  errs : Nat
  partialTok : Bool
  deriving DecidableEq, Repr

/-- An emitted token in its cell's output queue, with the channels it has still to be sent on (R286), those
whose ports have still to accept it (R374), the cycle in which it was emitted, and the colour whose output
place it holds; an engine's token holds none (R288, R301). -/
structure OutTok where
  at_ : PortId
  tok : Token
  todo : List Nat
  sent : List Nat
  since : Nat
  owner : Option Colour
  deriving DecidableEq, Repr

/-- A control token in flight (R47); `src` is the invocation that sent it, if one did (R224), and `here` says that it has
arrived in this cycle, at whose end the node takes it. -/
structure CtlTok where
  go : Bool
  node : NodeId
  tag : Tag
  src : Option Nat
  here : Bool := false
  deriving DecidableEq, Repr

/-- A GO waiting at a loop-nest node, with a HALT held with it (R47, R105); `acq` says that an invocation sent
it, so that its start acquires (R224). -/
structure GoWait where
  node : NodeId
  tag : Tag
  halted : Bool
  acq : Bool
  deriving DecidableEq, Repr

/-! ### Instances, firings and invocations -/

/-- Whose access a virtual store is: its world, colour and virtual address (R351). -/
structure Via where
  w : BitVec 4
  colour : Colour
  va : Nat
  deriving DecidableEq, Repr

/-- A store as its bytes at machine addresses (physical, or scratch when `via` is none). -/
structure HStore where
  bytes : List Host.Cell
  via : Option Via
  deriving DecidableEq, Repr

/-- A tile invocation, the agent of the ordering model (R46, R219): its held stores in program order and
the DATA tokens it emitted per output port (R27).  `dead` says that a fault has ended it while an instance of it still
completes a commit that had begun (R53, R225). -/
structure Inv where
  id : Nat
  cell : Nat
  node : NodeId
  tag : Tag
  held : List HStore
  emitted : FMap Nat
  nest : Bool
  dead : Bool := false
  deriving DecidableEq, Repr

/-- A running invocation of a loop nest (R106): next outer point, number of points, whether a HALT came, and whether
the next outer point is to fire once its operand set is complete. -/
structure NestRun where
  node : NodeId
  tag : Tag
  inv : Nat
  next : Nat
  points : Nat
  exts : List Nat
  halted : Bool
  due : Bool := false
  deriving DecidableEq, Repr

/-- How an instance ends (R90–R92). -/
inductive Exit where
  | fin
  | chain (blk : Nat) (carried : List Val)
  deriving DecidableEq, Repr

/-- Releases that take place at commit (R224), in slot order. -/
inductive Rel where
  | phase (scope : Scope)
  | strel (scope : Scope) (st : Option HStore)
  deriving DecidableEq, Repr

/-- A loaded panel (R160): its entry and generation, KB, KIDX, CH, RP, and per k the (block header, code) of
every column. -/
structure Panel where
  entry : Word64
  gen : Nat
  kb : Nat
  kidx : Nat
  ch : Nat
  rp : Nat
  elems : List (List (Nat × Nat))
  deriving DecidableEq, Repr

/-- The open run of a plane array (R160, R169): accumulators as FP32 codes keyed 64·r + n, contribution
counts, pointers, panels, the RP that a free panel keeps (R167, R177), and the flags of the run status word. -/
structure Run where
  tag : Tag
  word : Nat
  m : Nat
  n : Nat
  kin : Bool
  nch : Nat
  acc : FMap Nat
  cnt : FMap Nat
  kinp : Nat
  outp : Nat
  p0 : Option Panel
  p1 : Option Panel
  rp0 : Nat
  rp1 : Nat
  offender : Option (Nat × Nat)
  nan : Bool
  inf : Bool
  ovf : Bool
  sat : Bool
  deriving DecidableEq, Repr

/-- What a matrix instruction does to the plane array at its commit (R161): open a run, load a panel, add a row
under an A entry, take a partial sum, drain a row (which, from which slot, under which output entry), close. -/
inductive PlaneOp where
  | set (r : Run)
  | load (sel : Bool) (q : Panel)
  | row (sel : Bool) (entry : Word64) (a : List (Option (Nat × Nat)))
  | kin (xs : List Val)
  | drain (row slot : Nat) (h : Hdr) (ofmt : Option (BitVec 4)) (sat : Bool)
  | close
  deriving DecidableEq, Repr

/-! ### Engine operations (R260–R280) -/

/-- A view of a copy descriptor (R264) with its resolved origin and buffer size (R265, R274). -/
structure View where
  tid : Nat
  esz : Nat
  shd : Bool
  sp : Bool
  base : Int
  ext : List Nat
  pad : Nat
  start : List Int
  stride : List Int
  org : Nat
  size : Nat
  deriving DecidableEq, Repr

/-- A copy descriptor (R264). -/
structure CopyDesc where
  rank : Nat
  box : List Nat
  nbw : Nat
  bmap : Nat
  src : View
  dst : View
  deriving DecidableEq, Repr

/-- A stream (R269, R270): slots, slot size, place and epoch, next tile, the newest tile of each slot, and
the tiles whose notices were accepted. -/
structure StreamSt where
  ns : Nat
  slotb : Nat
  place : Nat
  epoch : Nat
  next : Nat
  newest : FMap (Option Nat)
  accepted : List Nat
  deriving DecidableEq, Repr

/-- A collective (R277, R278), with its group's size and this device's rank, and both entries as held. -/
structure CollDesc where
  op : Nat
  red : Nat
  group : Nat
  seq : Nat
  count : Nat
  root : Nat
  src : Nat
  dst : Nat
  tmo : Nat
  cseed : Nat
  p : Nat
  rank : Nat
  ein : Word64
  eout : Word64
  mode : Rnd
  deriving DecidableEq, Repr

/-- What another device's participant of a collective gave: an input from outside (R278–R280). -/
structure Peer where
  rank : Nat
  desc : CollDesc
  src : List Nat
  failed : Bool
  deriving DecidableEq, Repr

/-- A draft walk (R198): BASE, DEST, VLIM, MINL, NC, D and the context ids, oldest first. -/
structure WalkDesc where
  base : Nat
  dest : Nat
  vlim : Nat
  minl : Nat
  nc : Nat
  depth : Nat
  ids : List Nat
  deriving DecidableEq, Repr

/-- What an engine operation does. -/
inductive OpKind where
  | copy (d : CopyDesc)
  | stream (d : CopyDesc) (st : StreamSt)
  | coll (c : CollDesc)
  | walk (d : WalkDesc)
  deriving DecidableEq, Repr

/-- An engine operation (R260): the engine, by the number of its cell, die or spire, the issuing cell and
instruction, the channel target (none: an event record), the points and chunks done, where it is stuck, and the
cell that the stream's handles name (assumption 33). -/
structure EngOp where
  id : Nat
  engine : Nat
  cell : Nat
  node : NodeId
  tag : Tag
  blk : Nat
  slot : Nat
  gen : Nat
  port : Option Nat
  scope : Scope
  mem : Option Nat
  kind : OpKind
  start : Nat
  done : List Nat
  chunks : List Nat
  stuck : Option (Nat × Report)
  home : Nat
  deriving DecidableEq, Repr

/-- A freed-slot notice on its way to an engine cell (R271). -/
structure Notice where
  cell : Nat
  w : BitVec 4
  tag : Tag
  place : Nat
  epoch : Nat
  tile : Nat
  slot : Nat
  deriving DecidableEq, Repr

/-- A record of a spire's event queue (R275). -/
structure EvRec where
  spire : Nat
  w : BitVec 4
  src : Nat
  tag : Tag
  code : Nat
  val : Val
  deriving DecidableEq, Repr

/-- A data write that an instance makes at commit, in slot order. -/
inductive Eff where
  | hreg (n : Nat) (v : Word64)
  | counterLoad (k : Nat) (word : BitVec 32) (chain : Option Nat)
  | counterStep (k : Nat)
  | ctl (go : Bool) (succ : Nat)
  | store (st : HStore)
  | rel (r : Rel)
  | acquire (scope : Scope)
  | fmt (entry : Nat) (w : Word64)
  | sreg (reg : Nat) (w : Word64)
  | tagFree (tag : IterTag)
  | lgbind (node : Nat) (va : Word64)
  | yieldTask
  | haltTask
  | engine (op : EngOp)
  | evq (code : Nat) (x : Val)
  | notice (n : Notice)
  | plane (op : PlaneOp)
  | qblk (port g : Nat) (src dst : Word64) (mode : Rnd) (sr : Word64 × Nat × Nat) (x : Val)
  deriving DecidableEq, Repr

/-- What an instruction changes at the commit of its instance, as a release (R294, R299, R300, R302): a quota, a tag cap,
a stall limit, a tag that returns, or a purge, which `asked` says has its place among those of the context. -/
inductive LateAct where
  | quota (node : NodeId) (port : Nat) (c : Colour) (m sl : Nat)
  | cap (c : Colour) (n : Nat)
  | limit (c : Colour) (l : Nat)
  | tagFree (g : Nat)
  | purge (c : Colour) (asked : Bool)
  deriving DecidableEq, Repr

/-- Such a change with the instruction to whose targets its outcome goes. -/
structure Late where
  slot : Nat
  h : Hdr
  act : LateAct
  deriving DecidableEq, Repr

/-- A token queued for an output port, with the slot and target that emits it (R41). -/
structure Emit where
  slot : Nat
  port : Nat
  tok : Token
  deriving DecidableEq, Repr

/-- A delivery that waits for a memory response (R243): its targets, value and predicate bit. -/
structure Pend where
  slot : Nat
  h : Hdr
  aux : BitVec 12
  v0 : Val
  v1 : Val
  b : Bool
  deriving DecidableEq, Repr

/-- How far an instance has come: a chained instance that waits in its place (R42, R317), one that executes,
one whose commit has begun, and one whose releases are performed (R41, R225). -/
inductive Stage where
  | waiting
  | open_
  | releasing
  | released
  deriving DecidableEq, Repr

/-- The reason that re-enabled a withdrawn wait (R257). -/
inductive Wake where
  | write | lost | timeout | spurious
  deriving DecidableEq, Repr

/-- Why a ready firing is where it is: a fresh set of operands, a withdrawn firing with its monitor's
event (R255), a chained instance held pending by a matrix instruction or an older instance (R42), or a BRK
(R385). -/
inductive FireKind where
  | fresh
  | withdrawn (wake : Option Wake) (from_ : Nat)
  | chained (blk : Nat) (carried : List Val) (inv : Nat) (point : Option (List Nat × Nat))
  | brk
  deriving DecidableEq, Repr

/-- A block instance in flight (R40–R42); `durable` says that it has performed a step at a home or begun a
plane-array row, so that a cut lets it run to commit (R391), `purged` holds the counts of a purge that it
asked for (R302), `kind` is the firing that it came from, `age` the cycle in which its set completed (R321), and
`born` the cycle from which its watchdog counts (R373).  `hregs0` and `counters0` are the registers as it fired (R50),
`fetched` the cycle in which it was fetched, `sync` the newest generation of its wait set (R132), and `later` what it
changes as its commit begins. -/
structure BInst where
  cell : Nat
  seq : Nat
  inv : Nat
  node : NodeId
  tag : Tag
  blk : Nat
  hreg : Bool
  code : List Word128
  gen : Nat
  pc : Nat
  opds : FMap Val
  preds : FMap Bool
  emits : List Emit
  effs : List Eff
  exit : Option Exit
  pend : List Pend
  raised : Option (Nat × Report)
  stage : Stage
  point : Option (List Nat × Nat)
  nestDone : Bool
  wake : Option Wake
  waitFrom : Option Nat
  brkOff : Bool
  spawned : Option IterTag
  age : Nat
  born : Nat
  durable : Bool
  purged : Option (Nat × Nat × Nat)
  kind : FireKind
  hregs0 : FMap Word64 := []
  counters0 : FMap Word64 := []
  fetched : Option Nat := none
  sync : Nat := 0
  later : List Late := []
  deriving DecidableEq, Repr

/-- A firing whose operand set is complete (R35, R321).  Its watchdog count is `watch`, and what has passed since the cycle
`counting`, if it runs (R373); `await` names the channel whose token, found with a parity error, has still to arrive intact
(R374). -/
structure Firing where
  cell : Nat
  seq : Nat
  node : NodeId
  tag : Tag
  age : Nat
  kind : FireKind
  point : Option (List Nat × Nat)
  inv : Option Nat
  brkOff : Bool
  watch : Nat
  counting : Option Nat := none
  await : Option ChanId := none
  deriving DecidableEq, Repr

/-- A monitor of a withdrawn wait (R255, R258): its granule, the number of its home's table, its waiting firing,
deadline, and event with the cycle in which it fell. -/
structure Monitor where
  granule : Nat
  die : Nat
  cell : Nat
  seq : Nat
  deadline : Option Nat
  event : Option (Wake × Nat)
  deriving DecidableEq, Repr

/-- A block in a cell's configuration store (R36, R317). -/
structure BlockSlot where
  cell : Nat
  node : NodeId
  blk : Nat
  hdr : Word128
  code : List Word128
  used : Nat
  deriving DecidableEq, Repr

/-- A group of a block-quantise node (R158). -/
structure Group where
  cell : Nat
  node : NodeId
  tag : Tag
  toks : List Val
  deriving DecidableEq, Repr

/-- A running stall timer (R290). -/
structure StallTimer where
  at_ : PortId
  colour : Colour
  start : Nat
  fired : Bool
  deriving DecidableEq, Repr

/-! ### Memory -/

/-- What a line's MAC binds it to beside its word types (R352): the world, key slot, keys, TID, VERSION and LOC of
the access that wrote it, or a write of the device itself (assumption 14).  A line with no metadata is FRESH (R356).
Memory holds the plain text: ciphertext, tweak and MAC have no other effect on a program (assumption 38). -/
inductive LineMeta where
  | keyed (w slot : Nat) (k : KeySet) (tid version loc : Nat)
  | device
  deriving DecidableEq, Repr

/-- A non-leaf entry in the walk cache of a spire (R216): the table that the entry of level `lev` leads to. -/
structure WalkEntry where
  spire : Nat
  w : BitVec 4
  colour : Colour
  lev : Nat
  vpage : Nat
  table : Nat
  deriving DecidableEq, Repr

/-- A translation entry of a compute cell or an agen stream (R216), by the number of its holder. -/
structure TlbEntry where
  cell : Nat
  w : BitVec 4
  colour : Colour
  vbase : Nat
  size : Nat
  pbase : Nat
  rd : Bool
  wr : Bool
  deriving DecidableEq, Repr

/-- A line of a cache bank (R210, R211), tagged with the key slot, TID and VERSION of its fill (R354); a line of host
or remote memory has no such tag. -/
structure BankLine where
  cell : Nat
  set : Nat
  way : Nat
  line : Nat
  colour : Colour
  tag : Option (Nat × Nat × Nat)
  deriving DecidableEq, Repr

/-- Retention of a Dome line (R212, R248). -/
inductive Retention where
  | low | normal | high
  deriving DecidableEq, Repr

/-! ### Contexts -/

/-- One generation of a format table: its number and entries (R127, R129). -/
structure FmtGen where
  gen : Nat
  entries : List Word64
  deriving DecidableEq, Repr

/-- A tag of the pool held by a colour or reserved by a launch (R294, R318). -/
inductive TagHolder where
  | colour (c : Colour)
  | launch (task : BitVec 32)
  deriving DecidableEq, Repr

/-- Who asked for a purge: a PURGE of an instance, or an ABORT packet of a queue (R293). -/
inductive PurgeBy where
  | inst (cell seq : Nat)
  | packet (queue idx : Nat) (task : BitVec 32)
  deriving DecidableEq, Repr

/-- A placed node: its cell and its ROUTE contents.  `altered` holds blocks whose image in memory has changed since they
were loaded, and `rejected` those that failed a check at a fetch (R88). -/
structure Placed where
  cell : Nat
  node : Nat
  route : NodeRoute
  blocks : List (Nat × Word128 × List Word128)
  altered : List (Nat × Word128 × List Word128) := []
  rejected : List Nat := []
  deriving DecidableEq, Repr

/-- A cut in progress (R388–R393): its epoch, pre-emption point, the sources with a MARKER delivered, the
nodes cut and recorded, the channels whose MARKER has arrived, and those on which it has been sent. -/
structure CutSt where
  epoch : Nat
  at_ : Nat
  marks : List Nat
  cutNodes : List Nat
  recorded : List Nat
  chans : List Nat
  sent : List Nat
  deriving DecidableEq, Repr

/-- A resident context (R31). -/
structure Ctx where
  resident : Bool := false
  task : BitVec 32 := 0
  colour : Colour := 0
  launched : Bool := false
  spires : List Nat := []
  starts : List Nat := []
  drain : Option (Nat × Nat) := none
  ended : Nat := 0
  memNodes : List (Nat × Nat) := []
  changed : List (Nat × Nat × Colour × Nat × Nat) := []
  cut : Option CutSt := none
  queue : Option Nat := none
  quar : Bool := false
  nodes : List Placed := []
  roles : List (Nat × Role × List (Nat × BitVec 16)) := []
  gens : List FmtGen := []
  gen : Nat := 0
  srseed : Word64 := 0
  replay : Bool := false
  hintdrop : Nat := 0
  wdog : Nat := 4096
  sysAttr : Bool := false
  carve : List (Nat × Nat) := []
  tags : FMap (Option TagHolder) := []
  caps : FMap Nat := []
  quotas : List (Nat × Nat × Colour × Nat × Nat) := []
  limits : FMap Nat := []
  excDrops : Nat := 0
  purging : Option (Colour × PurgeBy × Nat × Nat × Nat) := none
  purgeq : List (Colour × PurgeBy) := []
  halted : Bool := false
  epoch : Nat := 0
  deriving DecidableEq, Repr

/-! ### Outputs -/

/-- What the device sends to the outside: MSI-X vectors, replies to requests, what a read of a register returns (R4), and
Unsupported Request (R360); oldest first. -/
inductive Output where
  | msix (w : BitVec 4) (vec : Nat)
  | reply (code : Nat) (words : List Nat)
  | mmio (v : Word64)
  | unsupported
  deriving DecidableEq, Repr

/-! ### Tasks, queues and decisions (R303–R338) -/

/-- Where a task is (R313): queued; picked in place of a task that is being cut; being placed; running; being
cut. -/
inductive TaskSt where
  | queued
  | awaiting (subject : BitVec 32)
  | launching
  | running
  | cutting
  deriving DecidableEq, Repr

/-- A tile of a device-built launch (R318). -/
structure Tile where
  u : Nat
  slots : List Nat
  deriving DecidableEq, Repr

/-- The work of one LAUNCH (R313); `pos` counts the packets of each section that have been consumed, `saved` says that it
has been cut and has an image, `carve` holds the carve-outs that its cut context keeps (R213, R320), `read` says that its
record area has been read (R340), `part` counts the start nodes that the next tile has gone to, and `toCut` says that it is
to be cut once it is placed. -/
structure Task where
  id : BitVec 32
  queue : Nat
  idx : Nat
  region : Nat
  colour : Colour
  img : Image
  recq : Bool
  argv : Nat
  args : List Nat
  rva : Nat
  maxrec : Nat
  cmpla : Option Nat
  quar : Bool
  st : TaskSt
  since : Nat
  heldAt : Nat
  sliceAt : Nat
  cuts : Nat
  spires : List Nat
  pos : List Nat
  tiles : List Tile
  sent : Nat
  saved : Bool
  carve : List (Nat × Nat) := []
  read : Bool := false
  part : Nat := 0
  toCut : Bool := false
  deriving DecidableEq, Repr

/-- A started packet of a queue (R306). -/
structure Pkt where
  idx : Nat
  ty : Nat
  task : BitVec 32
  cmpla : Option Nat
  done : Bool
  consumed : Bool
  since : Nat
  deriving DecidableEq, Repr

/-- Device state of a queue (R304–R306): STATE, RIDX, packets started, those not yet consumed and completed; `quar` is the
quarantine class, which lasts until RUN is written (R310). -/
structure QueueSt where
  st : Nat := 0
  ridx : Nat := 0
  started : Nat := 0
  pkts : List Pkt := []
  everq : Bool := false
  quar : Bool := false
  errs : Nat := 0
  deriving DecidableEq, Repr

/-- A trigger of a decision (R313, R333, R336), with the cycle in which it arose. -/
inductive Trigger where
  | dispatch (slot : Nat)
  | preempt (task : BitVec 32) (byYield : Bool)
  | fault (task : BitVec 32) (cause : Cause)
  deriving DecidableEq, Repr

/-- A candidate, or the subject, as a decision's snapshot shows it (R329, R330). -/
structure Cand where
  task : BitVec 32
  fields : List Nat
  deriving DecidableEq, Repr

/-- What a decision has chosen (R333). -/
inductive Choice where
  | pick (task : BitVec 32)
  | preempt (task : BitVec 32)
  | defer
  | kill (task : BitVec 32)
  | killSubject
  deriving DecidableEq, Repr

/-- A running decision (R327–R336): its snapshot, program, registers and progress. -/
structure Decision where
  kind : Nat
  slot : Nat
  subject : Option Cand
  cands : List Cand
  queues : List (List Nat)
  regions : List (List Nat)
  wviews : List Nat
  free : Nat
  start : Nat
  prog : List (BitVec 32)
  pc : Nat
  count : Nat
  regs : FMap Word64
  invalid : Bool
  outcome : Option Choice
  cause : Nat
  deriving DecidableEq, Repr

/-- A loaded policy slot and its counters (R324, R338); its program runs from cycle `from_`, and the one before it until
then (R337). -/
structure PolSlot where
  prog : List (BitVec 32) := []
  old : List (BitVec 32) := []
  from_ : Nat := 0
  runs : Nat := 0
  inval : Nat := 0
  budg : Nat := 0
  deriving DecidableEq, Repr

/-! ### Worlds -/

/-- TDI states (R358). -/
inductive Tdi where
  | unlocked | locked | run | error
  deriving DecidableEq, Repr

/-- What a link event wraps under the tenant's key-encryption key (R360): the live slots and the nonce
counters. -/
structure WrapSet where
  kek : BitVec 256
  keys : FMap (Option KeySet)
  nctr : FMap Nat
  save : Option Nat := none
  deriving DecidableEq, Repr

/-- A world's registers, tables and security record (R33, R357–R361, R381); `saveKey` names its save key, which the security
processor holds (R396), and `goDue` the GOs of swaps for contexts that are cut (R344). -/
structure World where
  live : Bool := false
  prot : Bool := false
  sys : Bool := false
  belfry : Word64 := 0
  drainFlight : List Token := []
  drains : List Token := []
  swaps : Nat := 0
  disable : Bool := false
  goDue : List (Context × Token) := []
  ttab : Word64 := 0
  schedbase : Word64 := 0
  polslot : Nat := 0
  ctab : Word64 := 0
  fltlog : Word64 := 0
  evtab : Word64 := 0
  catab : Word64 := 0
  fltSeq : Nat := 0
  keys : FMap (Option KeySet) := []
  nctr : FMap Nat := []
  kek : Option (BitVec 256) := none
  saveKey : Option Nat := none
  wrapped : Option WrapSet := none
  wrapPending : Bool := false
  tdi : Tdi := .unlocked
  spdm : Bool := false
  ide : Bool := false
  policies : FMap PolSlot := []
  queues : FMap QueueSt := []
  tasks : List Task := []
  triggers : List (Trigger × Nat) := []
  decision : Option Decision := none
  deriving DecidableEq, Repr

/-! ### Lanterns (R182–R200) -/

/-- A stream in progress (R184, R190). -/
structure LStream where
  spire : Nat
  colour : Colour
  iter : IterTag
  path : List Nat
  pos : Nat
  node : Nat
  total : Nat
  next : Nat
  bad : Bool
  faulted : Bool
  drop : Bool
  order : Bool
  trunc : Bool
  vlim : Nat
  k : Nat
  greedy : Bool
  minp : Nat
  topp : Nat
  seed : Word64
  table : List (Nat × Nat × Nat)
  prog : List Word64
  m : Nat
  sum : Nat
  cands : List (Nat × Nat)
  ended : Bool
  deriving DecidableEq, Repr

/-- The logit unit at work on one logit token (R190, R194): the stream, the ids still to run, the id at
work, and the registers, flag and pc of its program. -/
structure LogitRun where
  spire : Nat
  colour : Colour
  iter : IterTag
  ids : List (Nat × Nat)
  cur : Nat
  prog : List Word64
  pc : Nat
  regs : FMap Slot
  mask : Bool
  deriving DecidableEq, Repr

/-- A lantern: its bindings, and the tokens that wait in its own storage until credit allows (R287). -/
structure LanternSt where
  binds : List (Colour × IterTag × Nat) := []
  deriving DecidableEq, Repr

/-! ### Device registers and functions (R376–R410) -/

/-- A breakpoint comparator (R378). -/
structure Bkpt where
  v : Bool := false
  hit : Bool := false
  tagm : Bool := false
  valm : Bool := false
  w : Nat := 0
  port : Nat := 0
  node : Nat := 0
  y : Nat := 0
  x : Nat := 0
  w1 : Word64 := 0
  w2 : Word64 := 0
  vslot : Nat := 0
  deriving DecidableEq, Repr

/-- An injection bucket of a die (R323, R409). -/
structure Bucket where
  depth : Nat := 65535
  rate : Nat := 0
  level : Nat := 65535
  newDepth : Nat := 65535
  newRate : Nat := 0
  limit : Option Nat := none
  deriving DecidableEq, Repr

/-- A request to the security processor, as it waits in the mailbox (R357, R358, R408). -/
inductive Request where
  | create (w : BitVec 4) (prot sys : Bool) (cells granules : List Nat)
  | grant (w : BitVec 4) (cells granules : List Nat)
  | reclaim (w : BitVec 4) (cells granules : List Nat)
  | destroy (w : BitVec 4)
  | keyInstall (by_ : Requester) (w : BitVec 4) (slot : BitVec 8) (keys : KeySet)
  | keyRetire (by_ : Requester) (w : BitVec 4) (slot : BitVec 8)
  | kekInstall (w : BitVec 4) (kek : BitVec 256)
  | keyImport (w : BitVec 4) (kek : BitVec 256) (blob : List (Nat × KeySet)) (nctrs : List (Nat × Nat))
  | unlock (token : DebugToken)
  | unlockChallenge (nonce : BitVec 256)
  | tdispVersion (w : BitVec 4)
  | tdispCapabilities (w : BitVec 4)
  | lock (w : BitVec 4)
  | report (w : BitVec 4)
  | tdiState (w : BitVec 4)
  | start (w : BitVec 4)
  | stop (w : BitVec 4)
  | measurements (w : BitVec 4)
  | session (w : BitVec 4)
  | ideKm (w : BitVec 4)
  deriving DecidableEq, Repr

/-- Registers of physical function 0's BAR 0 and the state of the device's functions.  `firmware` is the
measurement of an updated firmware, `unlocked` the cycle from which debug unlock is in force (R362), `mailbox` the
requests that wait for the security processor with their arrival cycles (R357, R408), `period` the last 1,024-cycle
period in which the buckets were filled (R323). -/
structure Dev where
  ready : Word64 := 0
  fail : Word64 := 0
  domid : Nat := 0
  routes : FMap Word64 := []
  wqos : FMap Nat := []
  badc : FMap Word64 := []
  dbgw : FMap Bool := []
  bkpts : FMap Bkpt := []
  saves : FMap (Word64 × Word64) := []
  qspire : Word64 := 0
  buckets : FMap Bucket := []
  period : Nat := 0
  tj : FMap Nat := []
  dram : FMap Nat := []
  link : Option (PcieGen × LinkWidth × CxlLevel) := none
  lost : Bool := false
  ports : FMap (Option LaneRate) := []
  firmware : Option (BitVec 384) := none
  staged : Option (BitVec 384) := none
  unlocked : Option Nat := none
  nonce : Option (BitVec 256) := none
  mailbox : List (Nat × Request) := []
  deriving DecidableEq, Repr

/-! ### Arbiters (R322) -/

/-- What is served one request at a time, where requests wait in the state: a die's ingress (R323) and the room of a copy or
collective engine (R260). -/
inductive Arbiter where
  | ingress (die : Nat)
  | engine (coll : Bool) (engine : Nat)
  deriving DecidableEq, Repr

/-- Who waits: the next token of a colour on a channel, or an instance. -/
inductive Requestor where
  | chan (ch : ChanId) (c : Colour)
  | inst (cell seq : Nat)
  deriving DecidableEq, Repr

/-- A request that waits, since a cycle, at a port of its arbiter. -/
structure Waiter where
  at_ : Arbiter
  who : Requestor
  w : BitVec 4
  port : Nat
  since : Nat
  deriving DecidableEq, Repr

/-! ### Saved images (R394–R398) -/

/-- A save image's contents: what its records hold, in the model's own terms (assumption 9).  `key` names its
ciphertext; cells are those of the placement that was cut. -/
structure Saved where
  skey : Option Nat := none
  pa : Nat
  header : List Nat
  key : Nat
  at_ : Nat
  pswap : Bool
  ctx : Ctx
  ptoks : List PTok
  outq : List OutTok
  srcq : List (ChanId × Token)
  firings : List Firing
  invs : List Inv
  nests : List NestRun
  goWaits : List GoWait
  groups : List Group
  hregs : FMap Word64
  counters : FMap Word64
  planes : FMap (Option Run)
  streams : List EngOp
  scratch : List Host.Cell
  drains : List Token
  binds : List (Nat × Colour × IterTag × Nat)
  deriving DecidableEq, Repr

/-! ### Agenda -/

/-- What happens next: a choice that the manual leaves to time or to the outside.  `engine` moves one point
of a copy ahead of its completion; `peer` brings another device's part of a collective; `sreg` is a write of
a special register by system software through its function's window (R381); `poke` is a write of host or
remote memory by its owner; `alter` changes a block of a resident image in memory (R88, assumption 5); `storeError` and
`dataError` are uncorrectable errors (R374, R375); `evict` drops a Dome line (R212, R257); `request` takes a request that waited; `readBar` and
`readSreg` read a register of BAR 0 or of a function's window (R4, R381). -/
inductive Move where
  | run (cell seq : Nat)
  | policy (w : BitVec 4)
  | logit
  | event (i : Instr)
  | pass (cycles : Nat)
  | engine (op point : Nat)
  | peer (p : Peer)
  | sreg (w : BitVec 4) (x : Context) (reg : Nat) (v : Word64)
  | poke (cells : List Host.Cell)
  | evict (pa : Nat)
  | alter (n : NodeId) (blk : Nat) (hdr : Word128) (code : List Word128)
  | storeError (cell : Nat) (n : NodeId) (blk : Nat)
  | dataError (cell seq : Nat) (held : Option Nat)
  | request (r : Request)
  | readBar (offset : Nat)
  | readSreg (w : BitVec 4) (x : Context) (reg : Nat)
  deriving DecidableEq, Repr

/-- Which instruction stream `step` continues. -/
inductive Focus where
  | idle
  | inst (cell seq : Nat)
  | policy (w : BitVec 4)
  | logit
  deriving DecidableEq, Repr

/-! ### The state -/

/-- The machine.  `fmtTravel` holds the table changes on their way to other cells with the cycles of their commits, and
`fmtOwn` those that reach their own cell at the end of this cycle (R130).  `turns` holds, for each kind of act that R130,
R289, R294 and R371 order within one cycle and each context, one more than the cycle of the last one and its place in that
order, and `freed` the tags returned in this cycle (R294). -/
structure State where
  now : Nat := 0
  agenda : List Move := []
  focus : Focus := .idle
  free : Nat := 0
  -- instances, invocations, firings
  insts : List BInst := []
  invs : List Inv := []
  nextInv : Nat := 0
  seqs : FMap Nat := []
  firings : List Firing := []
  nests : List NestRun := []
  goWaits : List GoWait := []
  ctls : List CtlTok := []
  monitors : List Monitor := []
  lastColour : FMap Colour := []
  blocks : List BlockSlot := []
  -- tokens
  ptoks : List PTok := []
  flights : List Flight := []
  outq : List OutTok := []
  srcq : List (ChanId × Token) := []
  credRet : List (ChanId × Colour) := []
  excFlight : List (CtxId × Token) := []
  timers : List StallTimer := []
  -- registers of cells
  hregs : FMap Word64 := []
  counters : FMap Word64 := []
  groups : List Group := []
  planes : FMap (Option Run) := []
  fmtReach : FMap Nat := []
  fmtTravel : List (CtxId × Nat × Nat × Nat) := []
  fmtOwn : List (CtxId × Nat × Nat) := []
  turns : FMap (Nat × Nat) := []
  freed : List Nat := []
  -- memory
  mem : List Host.Cell := []
  wtype : FMap Nat := []
  lines : FMap (Option LineMeta) := []
  tlb : List TlbEntry := []
  walks : List WalkEntry := []
  bank : List BankLine := []
  dome : FMap (Option Retention) := []
  -- engines
  ops : List EngOp := []
  nextOp : Nat := 0
  epochs : FMap Nat := []
  notices : List Notice := []
  evqs : List EvRec := []
  waiters : List Waiter := []
  peers : List Peer := []
  cgtab : Word64 := 0
  -- contexts and worlds
  ctxs : FMap Ctx := []
  worlds : FMap World := []
  cellOwner : FMap (Option Nat) := []
  granuleOwner : FMap (Option Nat) := []
  outputs : List Output := []
  -- lanterns
  lanterns : FMap LanternSt := []
  lstreams : List LStream := []
  logit : Option LogitRun := none
  -- device registers and saved images
  dev : Dev := {}
  images : FMap (Option Saved) := []
  deriving DecidableEq, Repr

/-- The machine right after a cold reset (R5). -/
def State.reset : State := {}

end Sys2Proof.Machine
end

