-- ==== Sys2Proof/Machine/Mem.lean ====
section
/-! DEFINITION. Memory: bytes at machine addresses, the physical map (R214), translation (R215, R216),
ownership and keys (R348–R350), encryption contexts and line integrity (R351–R356), word types (R251). -/

namespace Sys2Proof.Machine

/-! ### Bytes -/

/-- Every unlisted byte reads as zero: a FRESH line (R356), a cleared cell (R205) and a new carve-out
(R213) do; other memory at power-on is a choice (assumption 8). -/
def unlistedByte : BitVec 8 := 0

/-- The byte at a machine address. -/
def byteAt (m : List Host.Cell) (a : Nat) : BitVec 8 := mget unlistedByte m a

/-- Write one byte. -/
def putByte (m : List Host.Cell) (a : Nat) (b : BitVec 8) : List Host.Cell := mput unlistedByte m a b

/-- Write bytes in order, later ones over earlier ones. -/
def putBytes : List Host.Cell → List Host.Cell → List Host.Cell
  | m, [] => m
  | m, (a, b) :: l => putBytes (putByte m a b) l

/-- `n` bytes from an address, little-endian (R3). -/
def readLE (m : List Host.Cell) (a : Nat) : Nat → Nat
  | 0 => 0
  | n + 1 => (byteAt m a).toNat + 256 * readLE m (a + 1) n

/-- The cells of `n` little-endian bytes of a number at an address. -/
def cellsOf (a : Nat) : Nat → Nat → List Host.Cell
  | 0, _ => []
  | n + 1, v => (a, BitVec.ofNat 8 v) :: cellsOf (a + 1) n (v / 256)

/-- Memory.wf: the memory list is in its canonical form. -/
abbrev memWf (m : List Host.Cell) : Bool := mwf unlistedByte m

/-- Scratch bytes lie above the 52-bit physical space, 128 KiB a cell (R207). -/
def scratchBase : Nat := 2 ^ 52
def scratchSize : Nat := 131072
def scratchAddr (cell off : Nat) : Nat := scratchBase + cell * scratchSize + off

/-- Word `i` of 8 bytes from an address. -/
def word8 (m : List Host.Cell) (a i : Nat) : Nat := readLE m (a + 8 * i) 8

/-- Bits [hi:lo] of a number, as `x[hi:lo]` (R8). -/
def bits (x hi lo : Nat) : Nat := x / 2 ^ lo % 2 ^ (hi + 1 - lo)

/-! ### Places (R11–R14) -/

def cellX (c : Nat) : Nat := c % 128
def cellY (c : Nat) : Nat := c / 128
def cellDie (c : Nat) : Nat := 2 * (cellY c / 48) + cellX c / 64
def cellSpire (c : Nat) : Nat := 12 * cellDie c + 4 * (cellY c % 48 / 16) + cellX c % 64 / 16

/-- Cell kinds by coordinate parity (R12). -/
inductive CellKind where
  | compute | memory | agen
  deriving DecidableEq, Repr

def cellKind (c : Nat) : CellKind :=
  if cellX c % 2 = cellY c % 2 then .compute else if cellX c % 2 = 1 then .memory else .agen

/-- The cell at column DX and row DY of a module spire (R13). -/
def spireCell (sp dx dy : Nat) : Nat :=
  let d := sp / 12
  let i := sp % 12
  (64 * (d % 2) + 16 * (i % 4) + dx) + 128 * (48 * (d / 2) + 16 * (i / 4) + dy)

/-- The turret spire of a die is its spire 11 (R14). -/
def isTurret (sp : Nat) : Bool := sp % 12 == 11

/-! ### The physical map (R214) -/

inductive Region where
  | dram (die : Nat)
  | lpddr (die : Nat)
  | carve (die : Nat)
  | host
  | remote (dev : Nat)
  deriving DecidableEq, Repr

def region (pa : Nat) : Option Region :=
  if pa / 2 ^ 51 % 2 = 1 then
    (let d := pa / 2 ^ 42 % 512; if d < 384 ∧ pa < 2 ^ 52 then some (.remote d) else none)
  else if pa / 2 ^ 50 = 1 then some .host
  else if pa < 4 * 0x1000000000 then
    (let d := pa / 0x1000000000; if pa % 0x1000000000 < 48 * 2 ^ 30 then some (.dram d) else none)
  else if 0x10000000000 ≤ pa ∧ pa < 0x10000000000 + 4 * 0x4000000000 then
    some (.lpddr ((pa - 0x10000000000) / 0x4000000000))
  else if 0x30000000000 ≤ pa ∧ pa < 0x30000000000 + 4 * 0x10000000 then
    (let d := (pa - 0x30000000000) / 0x10000000
     if (pa - 0x30000000000) % 0x10000000 < 64 * 2 ^ 20 then some (.carve d) else none)
  else none

/-- The number of a line's home Dome (R212, R214, R221): a die of this device, 0 for host lines; a remote line's home
is its own device's, numbered from 4. -/
def homeDie (pa : Nat) : Nat :=
  match region pa with
  | some (.dram d) => d
  | some (.lpddr d) => d
  | some (.carve d) => d
  | some (.remote d) => 4 + d
  | _ => 0

/-- Device memory: what R348 owns in granules. -/
def isDevice (pa : Nat) : Bool :=
  match region pa with
  | some (.dram _) => true
  | some (.lpddr _) => true
  | some (.carve _) => true
  | _ => false

def granuleSize : Nat := 2 ^ 21

/-- Whether an access of world w passes the ownership check of R348. -/
def ownsPa (s : State) (w : BitVec 4) (pa : Nat) : Bool :=
  !isDevice pa || mget none s.granuleOwner (pa / granuleSize) == some w.toNat

/-- Whether a physical range lies inside a world's capability (R309): owned granules or host memory. -/
def inCapability (s : State) (w : BitVec 4) (pa n : Nat) : Bool :=
  let ok (a : Nat) : Bool := match region a with
    | some .host => true
    | some (.remote _) => false
    | some _ => mget none s.granuleOwner (a / granuleSize) == some w.toNat
    | none => false
  ok pa && ok (pa + n - 1) && (List.range ((pa + n - 1) / granuleSize - pa / granuleSize)).all (fun k => ok ((pa / granuleSize + k + 1) * granuleSize))

/-! ### World, context and colour tables -/

def worldOf (s : State) (w : BitVec 4) : World := mget {} s.worlds w.toNat
def setWorld (s : State) (w : BitVec 4) (x : World) : State := { s with worlds := mput {} s.worlds w.toNat x }

def ctxKey (w : BitVec 4) (x : Context) : Nat := w.toNat * 256 + x.toNat
def ctxOf (s : State) (w : BitVec 4) (x : Context) : Ctx := mget {} s.ctxs (ctxKey w x)
def setCtx (s : State) (w : BitVec 4) (x : Context) (c : Ctx) : State := { s with ctxs := mput {} s.ctxs (ctxKey w x) c }
def nodeCtx (s : State) (n : NodeId) : Ctx := ctxOf s n.w n.x

/-- BASE of a register that places a table at physical bits [51:12], or [51:16]. -/
def base12 (r : Word64) : Nat := bits r.toNat 51 12 * 2 ^ 12
def base16 (r : Word64) : Nat := bits r.toNat 51 16 * 2 ^ 16

def fail (c : Cause) : Report := { cause := c }
def failAt (c : Cause) (addr : Nat) : Report := { cause := c, addr := addr }

/-! ### Levels, links and routes (R404–R408) -/

/-- A remote address that names the device's own number is an alias of a local one (R406). -/
def canonPa (s : State) (pa : Nat) : Nat := if region pa = some (.remote s.dev.domid) then pa % 2 ^ 42 else pa

/-- READY and FAIL bits of the levels that a physical access needs (R407, R408). -/
def levelBits (pa : Nat) : List Nat :=
  match region pa with
  | some (.dram d) => [10 + d, 14 + d]
  | some (.lpddr d) => [10 + d, 18 + d]
  | some (.carve d) => [10 + d]
  | some .host => [1]
  | _ => []

/-- The report of an access that waits for a memory level (R408): it raises nothing, and the instruction is
tried again. -/
def waitReport : Report := { cause := .stall }

/-- Whether the security processor is ready: until then BAR 0 takes no write (R408). -/
def spReady (s : State) : Bool := s.dev.ready.getLsbD 0

/-- Whether a line lies in host memory while the link runs without CXL.cache (R404). -/
def hostUncached (s : State) (pa : Nat) : Bool :=
  region pa == some .host && (match s.dev.link with
    | some (_, _, c) => c == .none || c == .noCache
    | none => false)

/-- Whether device `i` can be reached: its route entry is valid and a port of its mask has trained (R406). -/
def reachable (s : State) (i : Nat) : Bool :=
  let r := mget 0 s.dev.routes i
  r.getLsbD 63 && (List.range 18).any (fun p => r.getLsbD p && s.dev.ready.getLsbD (22 + p))

/-- What the levels, the link and the fabric say to an access: none lets it pass (R359, R360, R406, R408). -/
def levelCheck (s : State) (w : BitVec 4) (pa va : Nat) : Option Report :=
  if (levelBits pa).any (fun b => s.dev.fail.getLsbD b) then some (failAt .permission va)
  else match region pa with
    | some (.remote d) => if reachable s d then none else some (failAt .permission va)
    | some .host =>
      if s.dev.lost || ((worldOf s w).prot && !(worldOf s w).ide) then some (failAt .permission va)
      else if s.dev.ready.getLsbD 1 then none else some waitReport
    | _ => if (levelBits pa).any (fun b => !s.dev.ready.getLsbD b) then some waitReport else none

/-- Whether the device reaches a table, ring, log or record of a world at a physical address: in a row of R214, owned
if it is device memory (R10, R348), and over an established stream if a protected world's host memory (R359). -/
def reaches (s : State) (w : BitVec 4) (pa : Nat) : Bool :=
  (match region pa with
    | none => false
    | some .host => !s.dev.lost && (!(worldOf s w).prot || (worldOf s w).ide)
    | some _ => true) && ownsPa s w pa

/-- The root and key slot of a colour; none where R349 refuses the access. -/
def colourEntry (s : State) (w : BitVec 4) (c : Colour) : Option (Nat × Nat) :=
  let a := base12 (worldOf s w).ctab + 32 * c.toNat
  let w0 := word8 s.mem a 0
  let w1 := word8 s.mem a 1
  if !reaches s w a then none
  else if bits w0 0 0 = 0 ∨ bits w0 63 52 ≠ 0 ∨ bits w0 11 1 ≠ 0 ∨ bits w1 63 8 ≠ 0 ∨ word8 s.mem a 2 ≠ 0 ∨ word8 s.mem a 3 ≠ 0 then none
  else some (bits w0 51 12 * 4096, bits w1 7 0)

/-! ### Translation (R215, R216) -/

/-- Bytes of a page size code, and the level of its leaf. -/
def pageBytes (size : Nat) : Nat := 4096 * 4 ^ size
def leafLevel (size : Nat) : Nat := if size ≤ 4 then 0 else if size ≤ 9 then 1 else 2

/-- The outcome of a walk: the leaf's size code, frame and rights, or the cause and level. -/
inductive Walk where
  | leaf (lev size pbase : Nat) (rd wr : Bool)
  | bad (c : Cause) (lev : Nat)
  deriving DecidableEq, Repr

/-- The walk from a table at level `lev - 1` (R215). -/
def walkFrom (s : State) (w : BitVec 4) (va : Nat) : Nat → Nat → Walk
  | 0, _ => .bad .translation 0
  | lev + 1, t =>
    let a := t + 8 * bits va (12 + 9 * lev + 8) (12 + 9 * lev)
    let e := word8 s.mem a 0
    if !reaches s w a then .bad .permission lev
    else if bits e 0 0 = 0 ∨ bits e 63 52 ≠ 0 ∨ bits e 11 8 ≠ 0 then .bad .translation lev
    else if bits e 1 1 = 0 then
      (if lev = 0 ∨ bits e 7 2 ≠ 0 then .bad .translation lev else walkFrom s w va lev (bits e 51 12 * 4096))
    else
      let size := bits e 7 4
      if 11 < size ∨ leafLevel size ≠ lev then .bad .translation lev
      else
        let z := pageBytes size
        .leaf lev size (bits e 51 12 * 4096 / z * z) (bits e 2 2 == 1) (bits e 3 3 == 1)

/-- Who holds translation entries (R216): a compute cell, by its own number; a stream of an address generator's copy
engine; and an access that holds none, which still walks for the spire of its cell. -/
def streamHolder (cell place : Nat) : Nat := cell + 2 ^ 15 * (place + 1)
def noHolder (cell : Nat) : Nat := cell + 2 ^ 15 * 9
def holderCell (h : Nat) : Nat := h % 2 ^ 15

/-- A translation entry of the holder that serves the address (R216). -/
def tlbHit (s : State) (holder : Option Nat) (w : BitVec 4) (c : Colour) (va : Nat) : Option TlbEntry :=
  match holder with
  | none => none
  | some cl => s.tlb.find? (fun t => t.cell == cl && t.w == w && t.colour == c && t.vbase == va / pageBytes t.size * pageBytes t.size)

/-- Where a walk for a spire starts: at the deepest non-leaf entry that its walk cache holds for the address, else at the
root (R216). -/
def walkStart (s : State) (spire : Nat) (w : BitVec 4) (c : Colour) (va root : Nat) : Nat × Nat :=
  let hit (lev : Nat) : Option WalkEntry := s.walks.find? (fun e => e.spire == spire && e.w == w && e.colour == c && e.lev == lev && e.vpage == va / 2 ^ (12 + 9 * lev))
  match [1, 2, 3, 4].findSome? hit with
  | some e => (e.lev, e.table)
  | none => (5, root)

def walkCached (s : State) (spire : Nat) (w : BitVec 4) (c : Colour) (va root : Nat) : Walk :=
  let p := walkStart s spire w c va root
  walkFrom s w va p.1 p.2

/-- The leaf that an access translates under, or the cause of its walk. -/
def leafFor (s : State) (holder : Option Nat) (w : BitVec 4) (c : Colour) (va root : Nat) : Walk :=
  match tlbHit s holder w c va, holder with
  | some t, _ => .leaf (leafLevel t.size) t.size t.pbase t.rd t.wr
  | none, some h => walkCached s (cellSpire (holderCell h)) w c va root
  | none, none => walkFrom s w va 5 root

/-- `Translate(colour, va)` (R215); an entry that a miss has filled serves its page until it is dropped
(R216, R217). -/
def translate (s : State) (holder : Option Nat) (w : BitVec 4) (c : Colour) (va : Nat) (rd wr : Bool) : Except Report Nat :=
  if 2 ^ 57 ≤ va then .error { cause := .translation, level := 5, addr := va }
  else match colourEntry s w c with
    | none => .error (failAt .permission va)
    | some (root, _) =>
      match leafFor s holder w c va root with
      | .bad cause lev => .error { cause := cause, level := lev, addr := va }
      | .leaf lev size pbase r wt =>
        let pa := canonPa s (pbase + va % pageBytes size)
        if (rd && !r) || (wr && !wt) || region pa == none || !ownsPa s w pa then
          .error { cause := .permission, level := lev, addr := va }
        else .ok pa

/-! ### Tensor table (R262, R263) -/

/-- Entries of a world's tensor table. -/
def ttabSize (r : Word64) : Nat := 2 ^ min 24 (bits r.toNat 4 0)

/-- The physical address of entry `tid`, if a colour may name it (R262). -/
def tensorAddr (s : State) (w : BitVec 4) (c : Colour) (tid : Nat) : Option Nat :=
  let r := (worldOf s w).ttab
  let a := base12 r + 64 * tid
  if tid = 0 ∨ ttabSize r ≤ tid ∨ !reaches s w a then none
  else if bits (word8 s.mem a 0) 31 24 ≠ c.toNat then none
  else some a

/-- A tensor entry, read. -/
structure Tensor where
  addr : Nat
  shopen : Bool
  mode : Nat
  key : Nat
  colour : Nat
  tid : Nat
  version : Nat
  sel : Nat
  buf0 : Nat
  buf1 : Nat
  size : Nat
  deriving DecidableEq, Repr

def readTensor (m : List Host.Cell) (a : Nat) : Tensor :=
  let w0 := word8 m a 0
  let w1 := word8 m a 1
  { addr := a, shopen := bits w0 42 42 == 1, mode := bits w0 41 40, key := bits w0 39 32, colour := bits w0 31 24, tid := bits w0 23 0, version := bits w1 63 32, sel := bits w1 0 0, buf0 := word8 m a 2, buf1 := word8 m a 3, size := word8 m a 4 }

/-- The buffer address of an xts tensor (R351). -/
def xtsBase (tid : Nat) : Nat := 2 ^ 56 + tid * 2 ^ 32

/-- The checks of R263 and R351 on an entry at its index. -/
def tensorOk (m : List Host.Cell) (t : Tensor) (tid : Nat) : Bool :=
  let w0 := word8 m t.addr 0
  let w1 := word8 m t.addr 1
  bits w0 63 43 == 0 && decide (t.mode < 2) && bits w1 31 1 == 0 && word8 m t.addr 5 == 0 && word8 m t.addr 6 == 0
    && word8 m t.addr 7 == 0 && t.tid == tid && t.buf0 % 64 == 0 && t.buf1 % 64 == 0 && decide (t.buf0 < 2 ^ 57)
    && decide (t.buf1 < 2 ^ 57) && decide (64 ≤ t.size) && decide (t.size ≤ 2 ^ 57) && t.size % 64 == 0
    && (t.mode == 0 || (t.buf0 == xtsBase tid && (t.buf1 == 0 || t.buf1 == xtsBase tid + 2 ^ 31) && decide (t.size ≤ 2 ^ 31)))

/-- A tensor that an instruction or descriptor names (R262, R263, R350). -/
def namedTensor (s : State) (w : BitVec 4) (c : Colour) (tid : Nat) : Except Report Tensor :=
  match tensorAddr s w c tid with
  | none => .error (fail .permission)
  | some a =>
    let t := readTensor s.mem a
    if !tensorOk s.mem t tid then .error { cause := .illegalEncoding, detail := 8 }
    else match colourEntry s w c with
      | some (_, k) => if k = t.key then .ok t else .error (fail .permission)
      | none => .error (fail .permission)

/-! ### Encryption contexts and integrity (R350–R353) -/

/-- TID, VERSION and LOC of an access, as its tensor entry stands now (R351). -/
def encContext (s : State) (w : BitVec 4) (c : Colour) (va pa : Nat) : Except Report (Nat × Nat × Nat) :=
  if bits va 56 56 = 0 then .ok (0, 0, pa)
  else
    match namedTensor s w c (bits va 55 32) with
    | .error r => .error { r with addr := va }
    | .ok t =>
      if t.mode ≠ 1 then .error (failAt .permission va)
      else
        let b := bits va 31 31
        let v := if b = t.sel then t.version else if t.shopen then (t.version + 1) % 2 ^ 32 else (t.version + 2 ^ 32 - 1) % 2 ^ 32
        .ok (t.tid, v, bits va 30 0)

/-- The key slot and key set that a colour's accesses use, if the slot is LIVE (R350). -/
def colourKeys (s : State) (w : BitVec 4) (c : Colour) : Option (Nat × KeySet) :=
  match colourEntry s w c with
  | some (_, k) => (mget none (worldOf s w).keys k).map (fun x => (k, x))
  | none => none

/-- Whether a line's metadata passes under a context (R353, R356). -/
def lineOk (s : State) (w : BitVec 4) (k : Nat × KeySet) (tid version loc pa : Nat) : Bool :=
  match mget none s.lines (pa / 64) with
  | none => true
  | some .device => true
  | some (.keyed w' sl k' t v l) => w' == w.toNat && sl == k.1 && k' == k.2 && t == tid && v == version && l == loc / 64

/-- Whether a line's metadata passes a request of another device, whose world reaches it outside tensor space and which
carries no key slot: its own context, under whatever LIVE slot it was written (R351, R353, R406, assumption 59). -/
def remoteLineOk (s : State) (w : BitVec 4) (pa : Nat) : Bool :=
  match mget none s.lines (pa / 64) with
  | some (.keyed w' sl k t v l) => w' == w.toNat && mget none (worldOf s w).keys sl == some k && t == 0 && v == 0 && l == pa / 64
  | _ => true

/-- What the Dome says to an access of a colour: the keys and the MAC of the line, which a read and a write of less
than a line check (R350, R351, R353). -/
def homeCheck (s : State) (w : BitVec 4) (c : Colour) (va pa : Nat) (check : Bool) : Option Report :=
  match encContext s w c va pa with
  | .error r => some r
  | .ok (tid, v, loc) =>
    if !isDevice pa then none
    else match colourKeys s w c with
      | none => some (failAt .permission va)
      | some k => if check && !lineOk s w k tid v loc pa then some { cause := .permission, detail := 13, addr := va } else none

/-- One access of `n` bytes that does not cross a line, with what it needs: its physical address, or the
cause it raises (R215, R348–R353, R408). -/
def access (s : State) (holder : Option Nat) (w : BitVec 4) (c : Colour) (va n : Nat) (rd wr : Bool) : Except Report Nat :=
  match translate s holder w c va rd wr with
  | .error r => .error r
  | .ok pa =>
    match levelCheck s w pa va with
    | some r => .error r
    | none =>
      match homeCheck s w c va pa (rd || decide (n < 64)) with
      | some r => .error r
      | none => .ok pa

/-- The key slot, TID and VERSION of an access to device memory (R354). -/
def bankTag (s : State) (w : BitVec 4) (c : Colour) (va pa : Nat) : Option (Nat × Nat × Nat) :=
  match colourKeys s w c, encContext s w c va pa with
  | some k, .ok (tid, v, _) => if isDevice pa then some (k.1, tid, v) else none
  | _, _ => none

/-- The metadata that a write by a colour leaves on its line (R352). -/
def writeMeta (s : State) (v : Via) (pa : Nat) : Option LineMeta :=
  match colourKeys s v.w v.colour, encContext s v.w v.colour v.va pa with
  | some k, .ok (tid, ver, loc) => some (.keyed v.w.toNat k.1 k.2 tid ver (loc / 64))
  | _, _ => mget none s.lines (pa / 64)

/-- What the home says to a store that a release brings there: its granule's owner, the keys and the MAC as they stand
now (R348, R350, R353). -/
def homeRefuses (s : State) (v : Via) (pa n : Nat) : Option Report :=
  if !ownsPa s v.w pa then some (failAt .permission v.va) else homeCheck s v.w v.colour v.va pa (decide (n < 64))

/-- The type of the 8-byte word at a physical address: 0 plain, 1 barrier, 2 bitmap (R251). -/
def typeAt (s : State) (pa : Nat) : Nat := mget 0 s.wtype (pa / 8)

/-- The address and line metadata of one store. -/
def storeBytes (a n v : Nat) : List Host.Cell := cellsOf a n v

/-! ### Swizzles (R208) -/

/-- Bits [6:lo] of the offset XORed with the bits from `from_` up. -/
def xorBank (a lo from_ : Nat) : Nat :=
  let x := bits a 6 lo
  let y := bits a (from_ + (6 - lo)) from_
  a - x * 2 ^ lo + (x ^^^ y) * 2 ^ lo

/-- `Swizzle(k, a)`. -/
def swizzle (k a : Nat) : Nat :=
  match k with
  | 1 => xorBank a 2 7
  | 2 => xorBank a 2 8
  | 3 => xorBank a 2 9
  | 4 => xorBank a 3 7
  | 5 => xorBank a 4 7
  | 6 => xorBank a 5 7
  | 7 => xorBank a 2 12
  | _ => a

end Sys2Proof.Machine
end

