-- ==== Sys2Proof/Machine/Num.lean ====
section
/-! DEFINITION. Exact numbers, format-table entries, and the one rounding step (chapter "Promise of
arithmetic", R111–R126).  Arithmetic is exact over integers and dyadic or plain rationals; every
narrowing is a call of `round`. -/

namespace Sys2Proof.Machine

/-! ### Exact values -/

/-- What an element decodes to: a NaN, an infinity, or the dyadic value ±n · 2^e (R116, R118). -/
inductive Num where
  | nan
  | inf (neg : Bool)
  | fin (neg : Bool) (n : Nat) (e : Int)
  deriving DecidableEq, Repr

/-- An exact result before rounding: a NaN, an infinity, or ±n / d with d positive (R122). -/
inductive Exact where
  | nan
  | inf (neg : Bool)
  | rat (neg : Bool) (n d : Nat)
  deriving DecidableEq, Repr

/-- 2^e as a fraction. -/
def twoPow (e : Int) : Nat × Nat := if 0 ≤ e then (2 ^ e.toNat, 1) else (1, 2 ^ (-e).toNat)

def Num.toExact : Num → Exact
  | .nan => .nan
  | .inf s => .inf s
  | .fin s n e => let p := twoPow e; .rat s (n * p.1) p.2

def Num.isNan : Num → Bool
  | .nan => true
  | _ => false

def Num.isZero : Num → Bool
  | .fin _ 0 _ => true
  | _ => false

def Num.neg : Num → Num
  | .nan => .nan
  | .inf s => .inf !s
  | .fin s n e => .fin (!s) n e

def Num.abs : Num → Num
  | .nan => .nan
  | .inf _ => .inf false
  | .fin _ n e => .fin false n e

def Num.sign : Num → Bool
  | .nan => false
  | .inf s => s
  | .fin s _ _ => s

/-- The integer of a dyadic value scaled by 2^(-base), for base at most its exponent. -/
def Num.scaled (base : Int) : Num → Int
  | .fin s n e => let m : Int := (n * 2 ^ (e - base).toNat : Nat); if s then -m else m
  | _ => 0

def Num.expo : Num → Int
  | .fin _ _ e => e
  | _ => 0

/-- The integer `z` as an exact value. -/
def Num.ofInt (z : Int) : Num := .fin (decide (z < 0)) z.natAbs 0

/-- The exact product, with the special cases of R145. -/
def Num.mul (a b : Num) : Num :=
  match a, b with
  | .nan, _ => .nan
  | _, .nan => .nan
  | .inf s, .inf t => .inf (s != t)
  | .inf s, .fin t n _ => if n = 0 then .nan else .inf (s != t)
  | .fin t n _, .inf s => if n = 0 then .nan else .inf (s != t)
  | .fin s n e, .fin t m f => .fin (s != t) (n * m) (e + f)

/-- The exact sum of finite terms, as an integer times 2^base. -/
def sumScaled (base : Int) : List Num → Int
  | [] => 0
  | a :: l => a.scaled base + sumScaled base l

def minExpo : List Num → Int
  | [] => 0
  | [a] => a.expo
  | a :: l => min a.expo (minExpo l)

/-- The exact sum of the terms, with the special values and zero signs of R145; `down` says the mode is RDN. -/
def sumNums (down : Bool) (l : List Num) : Num :=
  if l.any Num.isNan then .nan
  else
    let pos := l.contains (.inf false)
    let neg := l.contains (.inf true)
    if pos && neg then .nan
    else if pos then .inf false
    else if neg then .inf true
    else
      let base := minExpo l
      let m := sumScaled base l
      if m = 0 then
        if l.all (fun a => a.isZero && !a.sign) then .fin false 0 0
        else if l.all (fun a => a.isZero && a.sign) && !l.isEmpty then .fin true 0 0
        else .fin down 0 0
      else .fin (decide (m < 0)) m.natAbs base

/-- Compare by value, −0 equal to +0: `none` when either is NaN. -/
def Num.cmp (a b : Num) : Option Ordering :=
  match a, b with
  | .nan, _ => none
  | _, .nan => none
  | .inf s, .inf t => some (if s == t then .eq else if s then .lt else .gt)
  | .inf s, _ => some (if s then .lt else .gt)
  | _, .inf t => some (if t then .gt else .lt)
  | a, b => let base := min a.expo b.expo; some (compare (a.scaled base) (b.scaled base))

/-- `a` is before `b` in the order of R146, with −0 below +0. -/
def Num.before (a b : Num) : Bool :=
  match a.cmp b with
  | some .lt => true
  | some .eq => a.isZero && a.sign && !b.sign
  | _ => false

/-- The exact quotient, with the special cases of R145. -/
def divNum (a b : Num) : Exact :=
  match a, b with
  | .nan, _ => .nan
  | _, .nan => .nan
  | .inf _, .inf _ => .nan
  | .inf s, .fin t _ _ => .inf (s != t)
  | .fin s _ _, .inf t => .rat (s != t) 0 1
  | .fin s n e, .fin t m f =>
    if m = 0 then (if n = 0 then .nan else .inf (s != t))
    else let p := twoPow (e - f); .rat (s != t) (n * p.1) (m * p.2)

/-- The Newton step toward an integer square root, with fuel. -/
def isqrtFrom (n : Nat) : Nat → Nat → Nat
  | 0, x => x
  | k + 1, x => let y := (x + n / x) / 2; if y < x then isqrtFrom n k y else x

/-- The integer square root. -/
def isqrt (n : Nat) : Nat := if n = 0 then 0 else isqrtFrom n (n.log2 + 2) (2 ^ (n.log2 / 2 + 1))

/-- √(n/d), exact where it is rational with a dyadic value, else a point strictly between two neighbours
of a grid finer than any that `round` compares with. -/
def sqrtRat (n d : Nat) : Nat × Nat :=
  let sc := 2 ^ 1200
  let t := n * sc * sc / d
  let r := isqrt t
  if r * r * d = n * sc * sc then (r, sc) else (2 * r + 1, 2 * sc)

/-- The exact square root (R145). -/
def sqrtNum : Num → Exact
  | .nan => .nan
  | .inf s => if s then .nan else .inf false
  | .fin s n e =>
    if n = 0 then .rat s 0 1
    else if s then .nan
    else let p := twoPow e; let q := sqrtRat (n * p.1) p.2; .rat false q.1 q.2

/-! ### Format-table entries (R113–R118) -/

/-- Special-value policies (R118). -/
inductive Policy where
  | ieee | nanOnly | sat | nz
  deriving DecidableEq, Repr

/-- A format-table entry, its fields read (R113). -/
structure Fmt where
  sgn : Nat
  exp : Nat
  frac : Nat
  bias : Int
  policy : Policy
  block : Nat
  ue4m3 : Bool
  round : Nat
  enc : Bool
  deriving DecidableEq, Repr

def Policy.ofCode : Nat → Policy
  | 0 => .ieee
  | 1 => .nanOnly
  | 2 => .sat
  | _ => .nz

/-- The fields of an entry word; `block` is the block size in elements, 0 for none (R113). -/
def Fmt.ofWord (x : Word64) : Fmt :=
  { sgn := (x.extractLsb' 0 1).toNat
    exp := (x.extractLsb' 1 4).toNat
    frac := (x.extractLsb' 5 5).toNat
    bias := (x.extractLsb' 10 10).toInt
    policy := Policy.ofCode (x.extractLsb' 20 2).toNat
    block := match (x.extractLsb' 22 2).toNat with
      | 1 => 16
      | 2 => 32
      | _ => 0
    ue4m3 := x.getLsbD 24
    round := (x.extractLsb' 25 3).toNat
    enc := x.getLsbD 28 }

/-- The total width W. -/
def Fmt.width (e : Fmt) : Nat := e.sgn + e.exp + e.frac

/-- The container C (R115). -/
def Fmt.cont (e : Fmt) : Nat :=
  if e.width ≤ 4 then 4 else if e.width ≤ 8 then 8 else if e.width ≤ 16 then 16 else 32

/-- Whether an entry word is legal (R114). -/
def legalEntry (x : Word64) : Bool :=
  let e := Fmt.ofWord x
  x.extractLsb' 29 35 == 0 && decide (2 ≤ e.width) && decide (e.width ≤ 32) && decide (e.exp ≤ 8)
    && decide (e.frac ≤ 23) && x.extractLsb' 22 2 != 3 && decide (e.round ≤ 5)
    && (match e.policy with
      | .ieee => decide (2 ≤ e.exp) && decide (1 ≤ e.frac) && !e.enc
      | .nanOnly => decide (1 ≤ e.exp) && !e.enc
      | .nz => e.sgn == 1 && decide (1 ≤ e.exp) && !e.enc && e.block != 0 && !e.ue4m3
      | .sat => true)
    && (!(e.enc || e.exp == 0) || e.policy == .sat) && (!e.enc || e.exp == 0) && (e.block != 0 || !e.ue4m3)

/-- The FP32 entry, the reset value of f0 (R119). -/
def fp32Word : Word64 := 0x1FEF1
def fp32 : Fmt := Fmt.ofWord fp32Word

/-- The reset entries f0–f15 (R119). -/
def resetEntries : List Word64 :=
  [0x1FEF1, 0x1FCF1, 0x3D4B, 0x101C69, 0x3C4B, 0xB00425, 0, 0, 0, 0, 0, 0, 0, 0, 0, 0]

/-- The scale format UE4M3 of R120. -/
def ue4m3 : Fmt :=
  { sgn := 0, exp := 4, frac := 3, bias := 7, policy := .nanOnly, block := 0, ue4m3 := false, round := 0, enc := false }

/-- `Value(x, e)` with the special codes of R118; x is the low W bits of its container (R116). -/
def decodeElem (e : Fmt) (code : Nat) : Num :=
  let x := code % 2 ^ e.width
  if e.enc then
    let m : Int := if e.sgn = 1 ∧ x ≥ 2 ^ (e.width - 1) then (x : Int) - (2 ^ e.width : Nat) else x
    .fin (decide (m < 0)) m.natAbs (-e.bias)
  else
    let s := e.sgn = 1 ∧ x / 2 ^ (e.width - 1) = 1
    let ex := x / 2 ^ e.frac % 2 ^ e.exp
    let f := x % 2 ^ e.frac
    if e.exp = 0 then .fin s f (-e.bias)
    else if e.policy = .ieee ∧ ex = 2 ^ e.exp - 1 then (if f = 0 then .inf s else .nan)
    else if e.policy = .nanOnly ∧ ex = 2 ^ e.exp - 1 ∧ f = 2 ^ e.frac - 1 then .nan
    else if e.frac = 0 then .fin s 1 (ex - e.bias)
    else if ex = 0 then .fin s f (1 - e.bias - e.frac)
    else .fin s (2 ^ e.frac + f) (ex - e.bias - e.frac)

/-- MaxFinite(e) as n · 2^k (R117, R118). -/
def maxFinite (e : Fmt) : Nat × Int :=
  if e.exp = 0 then (2 ^ e.frac - 1, -e.bias)
  else match e.policy with
    | .ieee => (2 ^ (e.frac + 1) - 1, (2 ^ e.exp : Nat) - 2 - e.bias - e.frac)
    | .nanOnly =>
      if e.frac = 0 then (1, (2 ^ e.exp : Nat) - 2 - e.bias)
      else (2 ^ (e.frac + 1) - 2, (2 ^ e.exp : Nat) - 1 - e.bias - e.frac)
    | _ => (2 ^ (e.frac + 1) - 1, (2 ^ e.exp : Nat) - 1 - e.bias - e.frac)

/-- floor(log2 (n/d)) for n and d positive. -/
def log2Rat (n d : Nat) : Int :=
  let k : Int := (n.log2 : Int) - d.log2
  let p := twoPow k
  if n * p.2 < d * p.1 then k - 1 else k

/-- Emax(e) = floor(log2 MaxFinite(e)) (R117). -/
def emax (e : Fmt) : Int := let m := maxFinite e; (m.1.log2 : Int) + m.2

/-- Whether ±n/d with the sign `neg` lies in the range of e (R117). -/
def inRange (e : Fmt) (neg : Bool) (n d : Nat) : Bool :=
  if neg ∧ n ≠ 0 ∧ e.sgn = 0 then false
  else
    let m : Nat × Int := if e.enc && e.sgn == 1 && neg then (2 ^ e.frac, -e.bias) else maxFinite e
    let p := twoPow m.2
    decide (n * p.2 ≤ m.1 * p.1 * d)

/-- The extra code of an NZ-extra entry. -/
def extraCode (e : Fmt) : Nat := 2 ^ (e.width - 1)

/-- The code of −2^(−B) under NZ-extra with FRAC 0, which would be the extra code: Round never produces that (R121), and
the manual states no other, so it is a free value (assumption 36). -/
def noCode (e : Fmt) : Nat :=
  let c := Config.nzCode e.exp e.bias % 2 ^ e.width
  if c = extraCode e then 0 else c

/-- The code of a finite value ±a · 2^k of the grid of e, in its range. -/
def codeOf (e : Fmt) (neg : Bool) (a : Nat) (k : Int) : Nat :=
  if e.enc then
    let m := (let p := twoPow (k + e.bias); a * p.1 / p.2)
    if neg then (2 ^ e.width - m) % 2 ^ e.width else m
  else
    let sb := if e.sgn = 1 ∧ neg then 2 ^ (e.exp + e.frac) else 0
    if a = 0 then (if e.policy = .nz then 0 else sb)
    else if e.exp = 0 then sb + (let p := twoPow (k + e.bias); a * p.1 / p.2)
    else
      let l : Int := (a.log2 : Int) + k
      if e.frac = 0 then (if e.policy = .nz ∧ sb + (l + e.bias).toNat = extraCode e then noCode e else sb + (l + e.bias).toNat)
      else if l < 1 - e.bias then
        sb + (let p := twoPow (k - (1 - e.bias - e.frac)); a * p.1 / p.2)
      else
        let m := (let p := twoPow (k - (l - e.frac)); a * p.1 / p.2)
        sb + (l + e.bias).toNat * 2 ^ e.frac + (m - 2 ^ e.frac)

/-- The end of the range of e on one side. -/
def rangeEnd (e : Fmt) (neg : Bool) : Nat :=
  if neg && e.sgn == 0 then 0
  else if neg && e.enc then codeOf e true (2 ^ e.frac) (-e.bias)
  else let m := maxFinite e; codeOf e neg m.1 m.2

/-- Kinds of `Special`. -/
inductive SpecialKind where
  | nan | inf | ovf
  deriving DecidableEq, Repr

/-- `Special(e, kind, sign, mode)` (R123). -/
def special (e : Fmt) (kind : SpecialKind) (neg : Bool) (mode : Rnd) : Nat :=
  match e.policy with
  | .ieee =>
    let allOnes := (2 ^ e.exp - 1) * 2 ^ e.frac
    let inf := if neg then (if e.sgn = 1 then 2 ^ (e.exp + e.frac) + allOnes else 0) else allOnes
    match kind with
    | .nan => allOnes + 2 ^ (e.frac - 1)
    | .inf => inf
    | .ovf =>
      if neg && e.sgn == 0 then 0
      else match mode with
        | .rtz => rangeEnd e neg
        | .rup => if neg then rangeEnd e true else inf
        | .rdn => if neg then inf else rangeEnd e false
        | _ => inf
  | .nanOnly =>
    match kind with
    | .nan => 2 ^ (e.exp + e.frac) - 1
    | _ => rangeEnd e neg
  | _ =>
    match kind with
    | .nan => 0
    | _ => rangeEnd e neg

/-- Exponent of `Quantum(e, n/d)` (R122). -/
def quantumExp (e : Fmt) (n d : Nat) : Int :=
  if e.enc ∨ e.exp = 0 then -e.bias
  else if e.frac = 0 then (if n = 0 then -e.bias else log2Rat n d)
  else if n = 0 then 1 - e.bias - e.frac
  else max (log2Rat n d) (1 - e.bias) - e.frac

/-- Whether the magnitude rounds away from zero: the value is a + rem/d' grid units, rem not zero (R122). -/
def roundsAway (mode : Rnd) (neg : Bool) (evenBelow : Bool) (rem d noise : Nat) : Bool :=
  match mode with
  | .rne => decide (d < 2 * rem) || (2 * rem == d && !evenBelow)
  | .rna => decide (d ≤ 2 * rem)
  | .rtz => false
  | .rup => !neg
  | .rdn => neg
  | .sr =>
    if neg then !decide (65536 ≤ (d - rem) * 65536 / d + noise)
    else decide (65536 ≤ rem * 65536 / d + noise)
  | .dflt => false

/-- The mode of code 0–5 (R76, R113). -/
def rndOfCode : Nat → Rnd
  | 0 => .rne
  | 1 => .rtz
  | 2 => .rup
  | 3 => .rdn
  | 4 => .rna
  | _ => .sr

/-- rnd 0b111 selects the ROUND field of the entry rounded to (R122). -/
def resolveRnd (m : Rnd) (e : Fmt) : Rnd := if m = .dflt then rndOfCode e.round else m

/-- `Round(v, e, mode)` (R122); `noise` is the SR noise word of its coordinates. -/
def round (v : Exact) (e : Fmt) (m : Rnd) (noise : Nat) : Nat :=
  let mode := resolveRnd m e
  match v with
  | .nan => special e .nan false mode
  | .inf s => special e .inf s mode
  | .rat neg0 n0 d =>
    let clamp := e.sgn = 0 ∧ neg0 ∧ n0 ≠ 0
    let neg := if clamp then false else neg0
    let n := if clamp then 0 else n0
    let k := quantumExp e n d
    let p := twoPow k
    let num := n * p.2
    let den := d * p.1
    let a := num / den
    let rem := num % den
    let evenBelow := if ¬ e.enc ∧ 0 < e.exp ∧ e.frac = 0 then (k + e.bias) % 2 == 0 else a % 2 == 0
    let r := if rem = 0 then a else if roundsAway mode neg evenBelow rem den noise then a + 1 else a
    if !inRange e neg (r * p.1) p.2 then special e .ovf neg mode
    else if 0 < e.exp ∧ e.frac = 0 ∧ (r = 0 ∨ (r.log2 : Int) + k < -e.bias) then codeOf e neg 1 (-e.bias)
    else codeOf e neg r k

/-- Round an exact value that is a NaN, an infinity or dyadic. -/
def roundNum (v : Num) (e : Fmt) (m : Rnd) (noise : Nat) : Nat := round v.toExact e m noise

/-- `Convert(x, a, b, mode)` between unblocked entries (R125). -/
def convert (x : Nat) (a b : Fmt) (m : Rnd) (noise : Nat) : Nat := roundNum (decodeElem a x) b m noise

/-! ### Deterministic stochastic rounding (R124) -/

def mix (z0 : Word64) : Word64 :=
  let z1 := (z0 ^^^ (z0 >>> 30)) * 0xBF58476D1CE4E5B9
  let z2 := (z1 ^^^ (z1 >>> 27)) * 0x94D049BB133111EB
  z2 ^^^ (z2 >>> 31)

/-- `SrNoise(seed, c, s)`. -/
def srNoise (seed c : Word64) (s : BitVec 13) : Nat :=
  ((mix (mix (seed ^^^ c) ^^^ s.setWidth 64 ^^^ 0x9E3779B97F4A7C15)).extractLsb' 0 16).toNat

/-- The coordinate word Concat(tag, ord, elem), each truncated to its width. -/
def srCoord (t : Tag) (ord elem : Nat) : Word64 :=
  BitVec.ofNat 64
    ((t.colour.toNat * 2 ^ 24 + t.context.toNat * 2 ^ 16 + t.iter.toNat) * 2 ^ 32 + ord % 2 ^ 24 * 2 ^ 8 + elem % 2 ^ 8)

/-- Where a rounding stands: the seed, the firing's tag, its ord and its slot word (R124). -/
structure SrCtx where
  seed : Word64
  tag : Tag
  ord : Nat
  blk : Nat
  slot : Nat
  deriving DecidableEq, Repr

/-- The noise of element `elem` under a coordinate context. -/
def SrCtx.noise (c : SrCtx) (elem : Nat) : Nat :=
  srNoise c.seed (srCoord c.tag c.ord elem) (BitVec.ofNat 13 (c.blk % 64 * 128 + c.slot % 128))

/-! ### Rounding to an integer (R148, R155) -/

/-- The magnitude of the integer that ±n/d rounds to, and whether it keeps its sign (always). -/
def roundInt (mode : Rnd) (neg : Bool) (n d noise : Nat) : Nat :=
  let a := n / d
  let rem := n % d
  if rem = 0 then a
  else match mode with
    | .sr => if 65536 ≤ rem * 65536 / d + noise then a + 1 else a
    | m => if roundsAway m neg (a % 2 == 0) rem d 0 then a + 1 else a

/-! ### Blocked formats (R120, R121, R126) -/

/-- `Scale(hdr)` under the scale format of the entry. -/
def scaleOf (e : Fmt) (hdr : Nat) : Num :=
  let c := hdr / 256 % 256
  if e.ue4m3 then decodeElem ue4m3 (c % 128)
  else if c = 255 then .nan
  else .fin false 1 ((c : Int) - 127)

/-- `Extra(hdr)`, the scale included (R121). -/
def extraOf (e : Fmt) (hdr : Nat) : Num :=
  let o : Int := let v := hdr / 8 % 16; if 8 ≤ v then (v : Int) - 16 else v
  (Num.fin (hdr / 128 % 2 == 1) (2 + hdr / 4 % 2) (o - 1)).mul (scaleOf e hdr)

/-- The value of an element of a block with its header; an unblocked entry has no header (R120). -/
def blockElem (e : Fmt) (hdr code : Nat) : Num :=
  if e.block = 0 then decodeElem e code
  else match scaleOf e hdr with
    | .nan => .nan
    | sc =>
      if e.policy = .nz ∧ code % 2 ^ e.width = extraCode e then extraOf e hdr
      else (decodeElem e code).mul sc

/-- |a| is larger than |b|, infinity exceeding every finite value. -/
def Num.largerMag (a b : Num) : Bool := a.abs.cmp b.abs == some .gt

/-- Index and value of the element of largest magnitude, the lowest index of equals. -/
def largestMag : List (Nat × Num) → Option (Nat × Num)
  | [] => none
  | p :: l => match largestMag l with
    | none => some p
    | some q => if q.2.largerMag p.2 then some q else some p

/-- v / s for a dyadic scale s = m · 2^f, m positive. -/
def Num.dividedBy (v : Num) (m : Nat) (f : Int) : Exact :=
  match v with
  | .nan => .nan
  | .inf s => .inf s
  | .fin s n e => let p := twoPow (e - f); .rat s (n * p.1) (m * p.2)

/-- A quantised block: its header and the codes of its elements. -/
structure QBlock where
  hdr : Nat
  codes : List Nat
  deriving DecidableEq, Repr

/-- Scale of a block of largest magnitude a: the code, and its value m · 2^f (R126). -/
def chooseScale (e : Fmt) (a : Num) : Nat × Nat × Int :=
  let ofCode (c : Nat) : Nat × Nat × Int := match decodeElem ue4m3 c with
    | .fin _ m f => (c, m, f)
    | _ => (c, 1, 0)
  match a with
  | .inf _ => if e.ue4m3 then ofCode (rangeEnd ue4m3 false) else (254, 1, 127)
  | .fin _ n x =>
    if n = 0 then (if e.ue4m3 then (0x38, 1, 0) else (127, 1, 0))
    else if e.ue4m3 then
      let m := maxFinite e
      let p := twoPow (x - m.2)
      ofCode (round (.rat false (n * p.1) (m.1 * p.2)) ue4m3 .rup 0)
    else
      let k := max (-127) (min 127 ((n.log2 : Int) + x - emax e))
      ((k + 127).toNat, 1, k)
  | .nan => (0, 1, 0)

/-- The EXTRA byte of y = ±n/d: m = |y| / 2^o, which is positive, is rounded to one fraction bit (R126). -/
def extraByte (neg : Bool) (n d : Nat) (mode : Rnd) (noise : Nat) : Nat :=
  let o0 := log2Rat n d
  let p := twoPow o0
  -- m = n / (d · 2^o0) lies in [1, 2); in halves it lies in [2, 4)
  let num := 2 * n * p.2
  let den := d * p.1
  let a := num / den
  let rem := num % den
  let r := if rem = 0 then a else if roundsAway mode false (a % 2 == 0) rem den noise then a + 1 else a
  let om : Int × Nat := if r = 4 then (o0 + 1, 2) else (o0, r)
  let om : Int × Nat := if 7 < om.1 then (7, 3) else if om.1 < -8 then (-8, 2) else om
  (if neg then 128 else 0) + ((om.1 + 16) % 16).toNat * 8 + (if om.2 = 3 then 4 else 0)

/-- `QuantBlock(v, e, mode)`; an absent element is left out and written 0, `noise j` is the SR noise of
element j (R126).  A division by a scale of 0 is a division of the exact values (R145). -/
def quantBlock (v : List (Option Num)) (e : Fmt) (m : Rnd) (noise : List Nat) : QBlock :=
  let mode := resolveRnd m e
  let vs : List (Nat × Num) := ((List.range v.length).zip v).filterMap (fun p => p.2.map (p.1, ·))
  if vs.any (fun p => p.2.isNan) then
    { hdr := (if e.ue4m3 then 0x7F else 0xFF) * 256, codes := v.map (fun _ => 0) }
  else
    let a : Num := (match largestMag vs with | some p => p.2.abs | none => .fin false 0 0)
    let s := chooseScale e a
    let y (x : Num) : Exact := if s.2.1 = 0 then divNum x (.fin false 0 0) else x.dividedBy s.2.1 s.2.2
    let code (p : Nat × Option Num) : Nat := match p.2 with
      | none => 0
      | some x => round (y x) e mode (noise.getD p.1 0)
    let codes := ((List.range v.length).zip v).map code
    match largestMag vs with
    | none => { hdr := s.1 * 256, codes := codes }
    | some (k, x) =>
      if e.policy = .nz then
        match y x with
        | .rat neg n d =>
          if inRange e false n d then { hdr := s.1 * 256, codes := codes }
          else { hdr := s.1 * 256 + extraByte neg n d mode (noise.getD k 0), codes := codes.set k (extraCode e) }
        | .inf neg => { hdr := s.1 * 256 + (if neg then 128 else 0) + 7 * 8 + 4, codes := codes.set k (extraCode e) }
        | .nan => { hdr := s.1 * 256, codes := codes }
      else { hdr := s.1 * 256, codes := codes }

end Sys2Proof.Machine
end

