-- ==== Sys2Proof/Machine/Ops.lean ====
section
/-! DEFINITION. The machine's shared operations: instances and deliveries, operands and guards, raising
and taking a fault (R365, R371), releases and writes at their homes (R224, R225), captured formats. -/

namespace Sys2Proof.Machine

abbrev Result := Host.Outcome State Fault Refusal

/-! ### Instances -/

def BInst.isAt (b : BInst) (cell seq : Nat) : Bool := b.cell == cell && b.seq == seq

def findInst (s : State) (cell seq : Nat) : Option BInst := s.insts.find? (fun b => b.isAt cell seq)

/-- The instance in focus. -/
def focusInst (s : State) : Option BInst :=
  match s.focus with
  | .inst cell seq => findInst s cell seq
  | _ => none

/-- Whether an instance's commit has begun (R53, R225). -/
def BInst.begun (b : BInst) : Bool := b.stage == .releasing || b.stage == .released

/-- The cycle up to which the watchdogs of a node's firings count: that of the cut of its context, or now (R373). -/
def watchClock (s : State) (n : NodeId) : Nat := ((ctxOf s n.w n.x).cut.map (fun k => k.at_)).getD s.now

/-- The firing that an instance goes back to, with its arrival sequence, age and watchdog count (R255, R373, R385). -/
def firingOf (s : State) (b : BInst) (k : FireKind) : Firing :=
  { cell := b.cell, seq := b.seq, node := b.node, tag := b.tag, age := b.age, kind := k, point := b.point, inv := some b.inv, brkOff := b.brkOff, watch := watchClock s b.node - b.born }

/-! ### Acts that have an order within one cycle -/

/-- The kinds of such acts: taking a fault (R371), committing a table change (R130), taking a tag (R294) and changing a
quota (R289). -/
inductive Turn where
  | fault | format | tag | quota
  deriving DecidableEq, Repr

def Turn.code : Turn → Nat
  | .fault => 0
  | .format => 1
  | .tag => 2
  | .quota => 3

def turnKey (k : Turn) (n : NodeId) : Nat := 4 * ctxKey n.w n.x + k.code

/-- A cell's place: ascending Y, then X. -/
def cellPlace (cell : Nat) : Nat := 128 * cellY cell + cellX cell

/-- Whether no such act of the context with a later place has been done in this cycle; an act out of turn waits for
another cycle. -/
def inTurn (s : State) (k : Turn) (n : NodeId) (place : Nat) : Bool :=
  let t := mget (0, 0) s.turns (turnKey k n)
  t.1 != s.now + 1 || decide (t.2 ≤ place)

/-- Such an act is done in this cycle. -/
def takeTurn (s : State) (k : Turn) (n : NodeId) (place : Nat) : State := { s with turns := mput (0, 0) s.turns (turnKey k n) (s.now + 1, place) }

/-- Replace an instance. -/
def putInst (s : State) (b : BInst) : State :=
  { s with insts := updFirst (fun x => x.isAt b.cell b.seq) (fun _ => b) s.insts }

def placedOf (s : State) (n : NodeId) : Option Placed := (nodeCtx s n).nodes.find? (fun p => p.route.num == n.n)

def findInv (s : State) (id : Nat) : Option Inv := s.invs.find? (fun v => v.id == id)
def putInv (s : State) (v : Inv) : State := { s with invs := updFirst (fun x => x.id == v.id) (fun _ => v) s.invs }

/-- The memory cell that a node's configuration links to it (R241). -/
def linkOf (s : State) (n : NodeId) : Option Nat := (placedOf s n).bind (fun p => p.route.link)

/-- The role of a memory cell in a context (R205). -/
def roleOf (c : Ctx) (cell : Nat) : Option Role := (c.roles.find? (fun r => r.1 == cell)).map (fun r => r.2.1)

/-- Take the next free value (assumption 20). -/
def takeFree (s : State) : State × Word64 := ({ s with free := s.free + 1 }, Config.freeWord s.free)

/-! ### Deliveries (R37, R41, R44, R81) -/

/-- A DATA token with the firing's tag (R28). -/
def dataTok (t : Tag) (aux : BitVec 12) (v : Val) : Token := { tag := t, kind := .data, aux := aux, val := v }

/-- Deliver a value and a predicate bit from the instruction in a slot to one target. -/
def deliver1 (slot : Nat) (t : Target) (aux : BitVec 12) (v : Val) (p : Bool) (b : BInst) : BInst :=
  match t with
  | .none => b
  | .operand s q => { b with opds := mins b.opds (8 * s.toNat + q.toNat) v }
  | .pred s q => { b with preds := mins b.preds (2 * s.toNat + q.toNat) p }
  | .chan q => { b with emits := b.emits ++ [{ slot := slot, port := q.toNat, tok := dataTok b.tag aux v }] }

/-- The result of an instruction: what each target gets. -/
structure Deliv where
  v0 : Val
  p0 : Bool
  v1 : Val
  p1 : Bool

/-- One value for both targets. -/
def same (v : Val) (p : Bool) : Deliv := { v0 := v, p0 := p, v1 := v, p1 := p }

/-- Nothing for any target to read: every valid bit clear and predicate 0 (R44). -/
def offDeliv : Deliv := same noVal false

/-- Deliver to t0 and then t1, from the instruction in a slot. -/
def deliverAt (slot : Nat) (h : Hdr) (aux : BitVec 12) (d : Deliv) (b : BInst) : BInst :=
  deliver1 slot h.t1 aux d.v1 d.p1 (deliver1 slot h.t0 aux d.v0 d.p0 b)

/-- Deliver from the instruction at the pc. -/
def deliver (h : Hdr) (aux : BitVec 12) (d : Deliv) (b : BInst) : BInst := deliverAt b.pc h aux d b

/-- The instruction at the pc is done: go on `len` slots later. -/
def advance (len : Nat) (b : BInst) : BInst := { b with pc := b.pc + len }

/-- The instance has performed a step that a cut must let it complete (R391). -/
def markDurable (b : BInst) : BInst := { b with durable := true }

/-- Add effects to the commit of an instance, in slot order (R41). -/
def addEff (e : Eff) (b : BInst) : BInst := { b with effs := b.effs ++ [e] }

/-! ### Operands (R38, R39, R74) -/

/-- Operand `pos` of the instruction at the pc: a constant, or what was delivered. -/
def operandAt (h : Hdr) (consts : Nat → Val) (b : BInst) (pos : Nat) : Option Val :=
  match constIndex h.imask pos with
  | some i => some (consts i)
  | none => mfind b.opds (8 * b.pc + pos)

/-- All data operands, once all are present. -/
def operands (h : Hdr) (consts : Nat → Val) (b : BInst) : Option (List Val) :=
  (List.range h.nopd.toNat).mapM (operandAt h consts b)

/-- A predicate operand that the guard reads; a mode of NONE reads none. -/
def predAt (m : GuardMode) (b : BInst) (pos : Nat) : Option Bool :=
  match m with
  | .none => some false
  | _ => mfind b.preds (2 * b.pc + pos)

/-- The guard, once its predicates are present. -/
def guardOf (h : Hdr) (b : BInst) : Option Bool :=
  match predAt h.gd.m0 b 0, predAt h.gd.m1 b 1 with
  | some p0, some p1 => some (guardVal h.gd p0 p1)
  | _, _ => none

/-- The one constant of layouts C, L, V, X, E, Q and S (R78). -/
def k0Const (k : BitVec 32) (_ : Nat) : Val := constVal32 k

/-- The constants of layout A: one of 64 bits under a 64-bit width code, else K0 and K1 (R78, R136). -/
def kConsts (wide : Bool) (k : BitVec 64) (i : Nat) : Val :=
  if wide then constVal64 k else constVal32 (if i = 0 then k.extractLsb' 0 32 else k.extractLsb' 32 32)

/-- Run one instruction of the instance in focus: nothing happens while it has no open instance or waits
for an operand or predicate (R39); `off` is its guarded-off effect (R44) and `body` its own. -/
def withOps (h : Hdr) (consts : Nat → Val) (s : State) (off : BInst → BInst)
    (body : BInst → List Val → State) : Result :=
  match focusInst s with
  | none => .next s
  | some b =>
    if b.stage ≠ .open_ ∨ b.raised.isSome then .next s
    else match guardOf h b, operands h consts b with
      | some g, some xs => .next (if g then body b xs else putInst s (off b))
      | _, _ => .next s

/-- The common guarded-off effect: deliver nothing valid and go on (R44). -/
def skipInst (h : Hdr) (b : BInst) : BInst := advance 1 (deliver h 0 offDeliv b)

/-- A pure instruction: it delivers what `f` computes and goes on. -/
def pureOp (h : Hdr) (consts : Nat → Val) (aux : BitVec 12) (s : State) (f : BInst → List Val → Deliv) : Result :=
  withOps h consts s (fun b => advance 1 (deliver h aux offDeliv b))
    (fun b xs => putInst s (advance 1 (deliver h aux (f b xs) b)))

/-! ### Writes at their homes (R221, R246, R254, R258) -/

/-- The order in which events of one cycle are reported (R258). -/
def wakeRank : Wake → Nat
  | .write => 0
  | .lost => 1
  | .timeout => 2
  | .spurious => 3

/-- A monitor after an event in cycle `now`: the first one stays, but one of the same cycle that R258 reports before it
takes its place. -/
def Monitor.sees (m : Monitor) (now : Nat) (k : Wake) : Monitor :=
  match m.event with
  | none => { m with event := some (k, now) }
  | some (j, t) => if t = now ∧ wakeRank k < wakeRank j then { m with event := some (k, now) } else m

/-- The monitors of a granule see an event. -/
def wakeGranule (ms : List Monitor) (now granule : Nat) (k : Wake) : List Monitor :=
  ms.map (fun m => if m.granule = granule then m.sees now k else m)

/-- A write to a granule wakes its monitors (R257, R258). -/
def wakeAll (now : Nat) : List Monitor → List Host.Cell → List Monitor
  | ms, [] => ms
  | ms, (a, _) :: l => wakeAll now (wakeGranule ms now (a / 64) .write) l

/-- A write by the device itself at physical addresses: a FRESH line becomes a device line (assumption 14). -/
def deviceMeta : FMap (Option LineMeta) → List Host.Cell → FMap (Option LineMeta)
  | m, [] => m
  | m, (a, _) :: l => deviceMeta (if mget none m (a / 64) = none then mput none m (a / 64) (some .device) else m) l

def devWrite (s : State) (cells : List Host.Cell) : State :=
  { s with mem := putBytes s.mem cells, lines := deviceMeta s.lines cells, monitors := wakeAll s.now s.monitors cells }

/-- A number of `n` bytes written by the device. -/
def devPut (s : State) (a n v : Nat) : State := devWrite s (cellsOf a n v)

/-! ### Records (R368–R372) -/

def Cause.code : Cause → Nat
  | .illegalEncoding => 1 | .formatEntry => 2 | .addrOverflow => 3 | .translation => 4 | .permission => 5
  | .barrierStore => 6 | .replayNondet => 7 | .holdOverflow => 8 | .capability => 9 | .parity => 10 | .stall => 11
  | .watchdog => 12 | .queueError => 13 | .preempted => 14 | .brk => 15

/-- Where a record comes from (R369): SOURCE is 0 instance, 1 engine, lantern or walker, 2 memory home, 3 device. -/
structure Origin where
  ctx : CtxId
  colour : Colour
  iter : IterTag
  cell : Nat
  node : Nat
  blk : Nat
  slot : Nat
  nest : Bool
  source : Nat
  gen : Nat
  deriving DecidableEq, Repr

/-- The sixteen slots of a fault record (R369). -/
def recordSlots (o : Origin) (r : Report) (now seq : Nat) : List Nat :=
  [ r.cause.code + (if r.hard then 2 ^ 8 else 0) + (if o.nest then 2 ^ 9 else 0) + o.source * 2 ^ 10 + o.blk % 64 * 2 ^ 16 + o.slot % 128 * 2 ^ 22,
    cellX o.cell + cellY o.cell * 2 ^ 7 + o.node % 16 * 2 ^ 14 + o.colour.toNat * 2 ^ 18,
    o.ctx.x.toNat + o.iter.toNat * 2 ^ 16,
    r.iters.getD 0 0 % 2 ^ 32, r.iters.getD 1 0 % 2 ^ 32, r.iters.getD 2 0 % 2 ^ 32, r.iters.getD 3 0 % 2 ^ 32, r.iters.getD 4 0 % 2 ^ 32,
    r.n % 2 ^ 32, r.addr % 2 ^ 32, r.addr / 2 ^ 32 % 2 ^ 32, r.detail + r.level * 2 ^ 8,
    r.entry % 16 + r.trap % 4096 * 2 ^ 4 + o.gen % 65536 * 2 ^ 16,
    now % 2 ^ 32, now % 2 ^ 48 / 2 ^ 32, seq % 2 ^ 32 ]

/-- The node of a context that declares input port 15 first in the graph's source (R291). -/
def supervisorOf (c : Ctx) : Option Nat :=
  (bestOf (fun a b => decide (a < b))
    ((c.nodes.filter (fun p => p.route.quotas.any (fun q => q.port == 15) || p.route.chans.any (fun ch => ch.dst == some { node := p.route.num, port := 15 }))).map (fun p => p.route.num)))

/-- A word of a table that the device reads for a world; one that it does not reach reads as zero (R10, R348). -/
def ownWord (s : State) (w : BitVec 4) (a : Nat) : Nat := if reaches s w a then readLE s.mem a 8 else 0

/-- A write of the device for a world; one that does not reach its place is dropped (R10, R348). -/
def ownWrite (s : State) (w : BitVec 4) (a : Nat) (cells : List Host.Cell) : State := if reaches s w a then devWrite s cells else s

/-- VEC of a queue of a world, as its descriptor stands (R304). -/
def queueVec (s : State) (w : BitVec 4) (q : Nat) : Nat := bits (ownWord s w (base16 (worldOf s w).schedbase + 64 * q + 24)) 47 32

/-- Send a vector unless it is zero. -/
def sendVec (s : State) (w : BitVec 4) (vec : Nat) : State :=
  if vec = 0 then s else { s with outputs := s.outputs ++ [.msix w vec] }

/-- Little-endian bytes of 32-bit slots. -/
def slotCells : Nat → List Nat → List Host.Cell
  | _, [] => []
  | a, v :: l => cellsOf a 4 v ++ slotCells (a + 4) l

/-- Write a record to the world's fault log and notify the queue of the task (R372). -/
def logRecord (s : State) (x : CtxId) (slots : List Nat) : State :=
  let w := worldOf s x.w
  let s1 := setWorld s x.w { w with fltSeq := (w.fltSeq + 1) % 2 ^ 32 }
  let base := base12 w.fltlog
  let lg := max 4 (bits w.fltlog.toNat 11 8)
  let at_ := base + 64 * (w.fltSeq % 2 ^ lg)
  let s2 := if base = 0 then s1 else ownWrite s1 x.w at_ (slotCells at_ slots)
  match (ctxOf s x.w x.x).queue with
  | none => s2
  | some q => sendVec s2 x.w (queueVec s x.w q)

/-- The EXC token of a record (R369). -/
def excTok (x : Context) (c : Cause) (slots : List Nat) (valid : BitVec 16) : Token :=
  { tag := { colour := 0, context := x, iter := 0 }, kind := .exc, aux := BitVec.ofNat 12 c.code, val := { valid := valid, slots := (firstSlots (slots.map (BitVec.ofNat 32))).slots } }

/-- Send a record to the supervisor of its context, if it has one (R291, R371). -/
def sendExc (s : State) (x : CtxId) (c : Cause) (slots : List Nat) (valid : BitVec 16) : State :=
  if (supervisorOf (ctxOf s x.w x.x)).isNone then s
  else { s with excFlight := s.excFlight ++ [(x, excTok x.x c slots valid)] }

/-! ### Arbitration (R322) -/

/-- A world's weight; every request of the fabric is one of a world. -/
def weightOf (s : State) (w : BitVec 4) : Nat := mget 16 s.dev.wqos w.toNat

/-- The age of a waiting request. -/
def ageOf (s : State) (x : Waiter) : Nat := min (weightOf s x.w * (s.now - x.since)) (2 ^ 48 - 1)

/-- The larger age wins, then the lower port, then the lower world. -/
def servedBefore (s : State) (a b : Waiter) : Bool :=
  decide (ageOf s b < ageOf s a) || (ageOf s a == ageOf s b && (decide (a.port < b.port) || (a.port == b.port && decide (a.w.toNat < b.w.toNat))))

/-- A request as it stands at its arbiter: since the cycle in which it began to wait, or from now. -/
def waiterOf (s : State) (a : Arbiter) (who : Requestor) (w : BitVec 4) (port : Nat) : Waiter :=
  (s.waiters.find? (fun x => x.at_ == a && x.who == who)).getD { at_ := a, who := who, w := w, port := port, since := s.now }

/-- Whether a request is the one that its arbiter serves now, among those that still wait. -/
def servedNext (s : State) (x : Waiter) (alive : Requestor → Bool) : Bool :=
  !s.waiters.any (fun y => y.at_ == x.at_ && y.who != x.who && alive y.who && servedBefore s y x)

/-- A request waits. -/
def joinWait (s : State) (x : Waiter) : State := if s.waiters.any (fun y => y.at_ == x.at_ && y.who == x.who) then s else { s with waiters := s.waiters ++ [x] }

/-- A request waits no more. -/
def leaveWait (s : State) (who : Requestor) : State := { s with waiters := s.waiters.filter (fun y => y.who != who) }

/-- Start a decision of a world (R313, R336). -/
def addTrigger (s : State) (w : BitVec 4) (t : Trigger) : State :=
  let ww := worldOf s w
  setWorld s w { ww with triggers := ww.triggers ++ [(t, s.now)] }

/-- Deliver a record in its three ways (R371): to the supervisor and the log, and as a FAULT decision when
it discards. -/
def deliverRecord (s : State) (o : Origin) (r : Report) (discards : Bool) : State :=
  let slots := recordSlots o r s.now (worldOf s o.ctx.w).fltSeq
  let s1 := sendExc s o.ctx r.cause slots 0xFFFF
  let s2 := logRecord s1 o.ctx slots
  let c := ctxOf s o.ctx.w o.ctx.x
  if discards && c.resident then addTrigger s2 o.ctx.w (.fault c.task r.cause) else s2

/-- A record that goes to the fault log only (R374, R378). -/
def logOnly (s : State) (o : Origin) (r : Report) : State :=
  logRecord s o.ctx (recordSlots o r s.now (worldOf s o.ctx.w).fltSeq)

/-- The origin of a record about an instance. -/
def originOf (s : State) (b : BInst) (slot source : Nat) : Origin :=
  { ctx := { w := b.node.w, x := b.node.x }, colour := b.tag.colour, iter := b.tag.iter, cell := b.cell, node := ((placedOf s b.node).map (fun p => p.node)).getD 0, blk := b.blk, slot := slot, nest := ((findInv s b.inv).map (fun v => v.nest)).getD false, source := source, gen := b.gen }

/-! ### Stores and releases -/

/-- The bytes of a store that meet no live word, and whether one was met (R254). -/
def plainBytes (s : State) (st : HStore) : List Host.Cell × Bool :=
  let ok := st.bytes.filter (fun p => st.via.isNone || typeAt s p.1 == 0)
  (ok, ok.length != st.bytes.length)

/-- Metadata after a store: the line is bound to the store's context (R352). -/
def storeMeta (s : State) (st : HStore) : FMap (Option LineMeta) :=
  match st.via, st.bytes with
  | some v, (a, _) :: _ => if isDevice a then mput none s.lines (a / 64) (writeMeta s v a) else s.lines
  | _, _ => s.lines

/-- Perform one store at its home (R221).  A store that its home refuses is discarded there (R348, R350, R353), and so are
bytes that meet a live word (R254); either is reported on the exception channel of the writer's graph. -/
def homeWrite (s : State) (o : Origin) (st : HStore) : State :=
  let a := (st.bytes.headD (0, 0)).1
  match st.via.bind (fun v => homeRefuses s v a st.bytes.length) with
  | some r => deliverRecord s { o with source := 2 } r false
  | none =>
    let p := plainBytes s st
    let s1 := { s with mem := putBytes s.mem p.1, lines := if p.1 = [] then s.lines else storeMeta s st, monitors := wakeAll s.now s.monitors p.1 }
    if p.2 then deliverRecord s1 { o with source := 2 } { cause := .barrierStore, addr := a } false else s1

def homeWrites (o : Origin) : State → List HStore → State
  | s, [] => s
  | s, st :: l => homeWrites o (homeWrite s o st) l

/-- Add the 4-byte word of each byte to a list of words. -/
def addWords : List Nat → List Host.Cell → List Nat
  | ws, [] => ws
  | ws, (a, _) :: l => addWords (if ws.contains (a / 4) then ws else a / 4 :: ws) l

def touchedWords : List Nat → List HStore → List Nat
  | ws, [] => ws
  | ws, st :: l => touchedWords (addWords ws st.bytes) l

/-- The 4-byte words that stores take in the hold buffer (R206): each word that they touch counts once (assumption 39). -/
def holdWords (l : List HStore) : Nat := (touchedWords [] l).length

/-- The stores that an instance will make at commit, in order. -/
def effStores : List Eff → List HStore
  | [] => []
  | .store st :: l => st :: effStores l
  | _ :: l => effStores l

/-- The stores of an instance so far in program order, a STREL's own among them (R220, R245). -/
def ownStores : List Eff → List HStore
  | [] => []
  | .store st :: l => st :: ownStores l
  | .rel (.strel _ (some st)) :: l => st :: ownStores l
  | _ :: l => ownStores l

/-- 16 KiB in words. -/
def holdLimit : Nat := 4096

/-- Whether more stores of an instance would exceed the hold buffer with its invocation's own (R206). -/
def holdOverflows (s : State) (b : BInst) (more : List HStore) : Bool :=
  decide (holdLimit < holdWords (((findInv s b.inv).map (fun v => v.held)).getD [] ++ effStores b.effs ++ more))

/-- The latest of an agent's own stores to a byte, in program order. -/
def lastStore (a : Nat) : List HStore → Option (BitVec 8)
  | [] => none
  | st :: l => match lastStore a l with
    | some x => some x
    | none => ((st.bytes.filter (fun p => p.1 == a)).getLast?).map (fun p => p.2)

/-- The byte that a read of the instance's agent returns: its own latest write, held or not, else the byte at
its home (R220, R243). -/
def agentByte (s : State) (b : BInst) (a : Nat) : BitVec 8 :=
  let own := ((findInv s b.inv).map (fun v => v.held)).getD [] ++ ownStores b.effs
  (lastStore a own).getD (byteAt s.mem a)

/-- `n` bytes as the agent reads them. -/
def agentRead (s : State) (b : BInst) (a : Nat) : Nat → Nat
  | 0 => 0
  | n + 1 => (agentByte s b a).toNat + 256 * agentRead s b (a + 1) n

/-- Release every held store of an invocation (R224): its writes reach their homes in program order. -/
def releaseInv (s : State) (o : Origin) (id : Nat) : State :=
  match findInv s id with
  | none => s
  | some v => homeWrites o (putInv s { v with held := [] }) v.held

/-! ### Emitting (R22, R27, R286, R288) -/

/-- The channels of a node's output port that end at an input port; an external output discards (R316). -/
def chansFrom (s : State) (n : NodeId) (port : Nat) : List Nat :=
  match placedOf s n with
  | none => []
  | some p => (p.route.chans.filter (fun c => c.src == some { node := n.n, port := BitVec.ofNat 4 port } && c.dst.isSome)).map (fun c => c.n)

/-- A token enters the output queue of its node's port. -/
def emitTok (s : State) (n : NodeId) (port : Nat) (t : Token) (owner : Option Colour) : State :=
  let cs := chansFrom s n port
  if cs = [] then s else { s with outq := s.outq ++ [{ at_ := { node := n, port := port }, tok := t, todo := cs, sent := [], since := s.now, owner := owner }] }

/-- Whether a purge has frozen a colour of a context (R292). -/
def frozen (s : State) (w : BitVec 4) (x : Context) (c : Colour) : Bool :=
  match (ctxOf s w x).purging with
  | some p => p.1 == c
  | none => false

/-! ### The end of an invocation (R46, R180) -/

/-- The output ports of a node. -/
def outPorts (p : Placed) : List Nat :=
  (((p.route.chans.filterMap (fun c => c.src)).filter (fun e => e.node == p.route.num)).map (fun e => e.port.toNat)).eraseDups

/-- The control successors of a node, in order (R104). -/
def succsOf (p : Placed) : List Nat := (sortBy (fun a b => decide (a.1 < b.1)) p.route.succs).map (fun e => e.2)

/-- DONE on every output port, with the count of the DATA tokens emitted there (R27). -/
def emitDones (v : Inv) : State → List Nat → State
  | s, [] => s
  | s, q :: l =>
    emitDones v (emitTok s v.node q { tag := v.tag, kind := .done, aux := BitVec.ofNat 12 (mget 0 v.emitted q), val := { valid := 0, slots := 0 } } none) l

/-- GO to every control successor. -/
def sendGos (v : Inv) (s : State) (l : List Nat) : State :=
  { s with ctls := s.ctls ++ l.map (fun n => { go := true, node := { v.node with n := n }, tag := v.tag, src := some v.id }) }

/-- Fields of sr.belfry (R179): EN, CUR, NSEQ and the context of a sequence place. -/
def belEn (b : Word64) : Bool := b.getLsbD 0
def belCur (b : Word64) : Nat := bits b.toNat 5 4
def belSeq (b : Word64) : Nat := bits b.toNat 9 8
def belCtx (b : Word64) (i : Nat) : Context := b.extractLsb' (16 + 8 * i) 8

/-- The contexts of a world's sequence. -/
def belfrySeq (w : World) : List Context := (List.range (belSeq w.belfry + 1)).map (belCtx w.belfry)

/-- The drain node of the active context counts an ended invocation; the Q-th emits DRAIN (R180). -/
def countDrain (s : State) (n : NodeId) (t : Tag) : State :=
  let c := nodeCtx s n
  match c.drain with
  | none => s
  | some (d, q) =>
    if d ≠ n.n then s
    else
      let s1 := setCtx s n.w n.x { c with ended := c.ended + 1 }
      let w := worldOf s n.w
      if c.ended + 1 = q && belEn w.belfry && belCtx w.belfry (belCur w.belfry) == n.x then
        setWorld s1 n.w { w with drainFlight := w.drainFlight ++ [{ tag := t, kind := .drain, aux := BitVec.ofNat 12 w.swaps, val := { valid := 0, slots := 0 } }] }
      else s1

/-- An invocation whose releases are performed ends: DONE and GO tokens leave, and its run is over. -/
def endInv (s : State) (id : Nat) : State :=
  match findInv s id with
  | none => s
  | some v =>
    let s1 := { s with invs := s.invs.filter (fun x => x.id != id), nests := s.nests.filter (fun r => r.inv != id) }
    match placedOf s v.node with
    | none => s1
    | some p => countDrain (sendGos v (emitDones v s1 (outPorts p)) (succsOf p)) v.node v.tag

/-! ### Control tokens and loop-nest runs (R47, R105, R106) -/

/-- The start of an invocation by a GO that another one sent acquires at `.dev` (R224, R231). -/
def acquireNode (s : State) (n : NodeId) : State :=
  match linkOf s n with
  | some m => { s with bank := s.bank.filter (fun l => l.cell != m) }
  | none => s

/-- Start a loop-nest invocation; one with a HALT held fires no block and ends at once (R47). -/
def beginNest (s : State) (p : Placed) (exts : List Nat) (g : GoWait) : State :=
  let id := s.nextInv
  let s1 := if g.acq then acquireNode s g.node else s
  let s2 := { s1 with
    nextInv := id + 1
    invs := s1.invs ++ [{ id := id, cell := p.cell, node := g.node, tag := g.tag, held := [], emitted := [], nest := true }]
    nests := s1.nests ++ [{ node := g.node, tag := g.tag, inv := id, next := 0, points := (exts.filter (· ≠ 0)).foldl (· * ·) 1, exts := exts, halted := g.halted }] }
  if g.halted then endInv s2 id else s2

/-- The outer extents of the nest in a block's code, if it holds one (R82, R106). -/
def nestExts : List Word128 → Option (List Nat)
  | [] => none
  | w :: l =>
    if isNestWord w then some [bits w.toNat 23 12, bits w.toNat 35 24, bits w.toNat 47 36, bits w.toNat 59 48]
    else nestExts l

/-- The code of a block of a node, as its configuration gives it. -/
def blockCode (p : Placed) (blk : Nat) : Option (Word128 × List Word128) :=
  (p.blocks.find? (fun b => b.1 == blk)).map (fun b => b.2)

/-- The outer extents of the node's loop nest, which stands in block 0 (R105). -/
def nodeNest (p : Placed) : Option (List Nat) := (blockCode p 0).bind (fun b => nestExts b.2)

/-- Waiting GOs of a node start, oldest first, while no run of the node is left (R105). -/
def startGos (n : NodeId) (p : Placed) : Nat → State → State
  | 0, s => s
  | k + 1, s =>
    if s.nests.any (fun r => r.node == n) then s
    else match s.goWaits.find? (fun g => g.node == n) with
      | none => s
      | some g => startGos n p k (beginNest { s with goWaits := delFirst (fun x => x.node == n) s.goWaits } p ((nodeNest p).getD []) g)

/-- Whether a cut has reached a node: it chooses no firing and starts nothing (R391). -/
def nodeCut (s : State) (n : NodeId) : Bool :=
  match (nodeCtx s n).cut with
  | some c => c.cutNodes.contains n.n
  | none => false

/-- The waiting GOs of a node that is not cut and whose context has not halted. -/
def startWaiting (s : State) (n : NodeId) : State :=
  match placedOf s n with
  | some p => if nodeCut s n || (nodeCtx s n).halted then s else startGos n p s.goWaits.length s
  | none => s

/-! ### Tokens leaving a port (R286, R290) -/

/-- The credits of tokens that leave a port. -/
def creditsOf (l : List PTok) : List (ChanId × Colour) := l.filterMap (fun t => t.chan.map (fun c => (c, t.tok.tag.colour)))

/-- Whether a held token is used by a firing of a cell. -/
def PTok.usedBy (s : State) (cell seq : Nat) (t : PTok) : Bool :=
  t.use == some seq && (placedOf s t.at_.node).any (fun p => p.cell == cell)

/-- Whether a token lies at a timer's port in its colour. -/
def StallTimer.covers (x : StallTimer) (t : PTok) : Bool := x.at_ == t.at_ && x.colour == t.tok.tag.colour

/-- Stall timers after tokens left: one restarts while others of its colour remain, and otherwise stops (R290). -/
def timersAfter (now : Nat) (gone left : List PTok) (ts : List StallTimer) : List StallTimer :=
  (ts.filter (fun x => left.any x.covers)).map (fun x => if gone.any x.covers then { x with start := now, fired := false } else x)

/-- Tokens leave their ports: their credits return and their timers restart or stop. -/
def leavePorts (s : State) (gone : PTok → Bool) : State :=
  let out := s.ptoks.filter gone
  let left := s.ptoks.filter (fun t => !gone t)
  { s with ptoks := left, credRet := s.credRet ++ creditsOf out, timers := timersAfter s.now out left s.timers }

/-- One token leaves its port. -/
def leaveOne (s : State) (t : PTok) : State :=
  let left := delFirst (fun x => x == t) s.ptoks
  { s with ptoks := left, credRet := s.credRet ++ creditsOf [t], timers := timersAfter s.now [t] left s.timers }

/-- The tokens of some firings leave their ports and their credits return. -/
def dropUsed (s : State) (cell : Nat) (seqs : List Nat) : State := leavePorts s (fun t => seqs.any (fun q => t.usedBy s cell q))

/-- The tokens of a firing stay at their ports and wait again. -/
def unuse (s : State) (cell seq : Nat) : State :=
  { s with ptoks := s.ptoks.map (fun t => if t.usedBy s cell seq then { t with use := none } else t) }

/-! ### Lanterns of a world (R183, R342, R343) -/

/-- The spire whose lantern a node names. -/
def lanternOf (s : State) (n : NodeId) : Option Nat :=
  match placedOf s n with
  | some p => if p.route.kind = .lantern then some (cellSpire p.cell) else none
  | none => none

/-- The resident contexts of a world, with their numbers. -/
def contextsOf (s : State) (w : BitVec 4) : List (Context × Ctx) :=
  (s.ctxs.filter (fun e => e.1 / 256 == w.toNat && e.2.resident)).map (fun e => (BitVec.ofNat 8 e.1, e.2))

/-- The lantern nodes of a world that name a spire, in every resident context. -/
def lanternNodes (s : State) (w : BitVec 4) (spire : Nat) : List (NodeId × Placed) :=
  ((contextsOf s w).map (fun e =>
    (e.2.nodes.filter (fun p => p.route.kind == .lantern && cellSpire p.cell == spire)).map (fun p => ({ w := w, x := e.1, n := p.route.num }, p)))).flatten

/-- The lantern node of the graph that gives a spire the lantern role. -/
def roleHolder (s : State) (w : BitVec 4) (spire : Nat) : Option NodeId :=
  ((lanternNodes s w spire).find? (fun e => e.2.route.lanternRole)).map (fun e => e.1)

/-- Where a port's tokens are held: a lantern's at the node of the graph that holds its role. -/
def homePort (s : State) (p : PortId) : Option PortId :=
  match lanternOf s p.node with
  | none => some p
  | some sp => (roleHolder s p.node.w sp).map (fun n => { p with node := n })

/-- The input port that a channel ends at. -/
def chanEnd (s : State) (c : ChanId) : Option PortId :=
  ((ctxOf s c.w c.x).nodes.findSome? (fun p => (p.route.chans.find? (fun ch => ch.n == c.n && ch.dst.isSome)).bind (fun ch => ch.dst))).map
    (fun e => { node := { w := c.w, x := c.x, n := e.node }, port := e.port.toNat })

/-- Whether a channel ends at the lantern of one of some spires. -/
def endsAtLantern (s : State) (spires : List Nat) (c : ChanId) : Bool :=
  match (chanEnd s c).bind (fun p => lanternOf s p.node) with
  | some sp => spires.contains sp
  | none => false

/-! ### Tags (R294) -/

/-- The key of a tag of a context. -/
def tagKey (n : NodeId) (g : IterTag) : Nat := 65536 * ctxKey n.w n.x + g.toNat

/-- A tag returns to its pool; it can be taken from the next cycle on (R294). -/
def returnTag (s : State) (n : NodeId) (t : Option IterTag) : State :=
  match t with
  | none => s
  | some g =>
    let c := nodeCtx s n
    { setCtx s n.w n.x { c with tags := mput none c.tags g.toNat none } with freed := tagKey n g :: s.freed }

/-- The spawned tags of discarded instances return to their pools. -/
def returnTags : State → List BInst → State
  | s, [] => s
  | s, b :: l => returnTags (returnTag s b.node b.spawned) l

/-! ### Taking a fault (R365) -/

/-- Whether a block holds a matrix instruction, opcodes 0x200–0x20A. -/
def holdsMatrix (code : List Word128) : Bool := code.any (fun w => bits w.toNat 127 118 / 0x10 == 0x20)

/-- The run of a key on a cell closes (R178). -/
def closeRun (m : FMap (Option Run)) (cell : Nat) (t : Tag) : FMap (Option Run) :=
  match mget none m cell with
  | some r => if r.tag = t then mput none m cell none else m
  | none => m

/-- Runs of the keys of discarded instances that hold a matrix instruction close (R178). -/
def closeRuns : FMap (Option Run) → List BInst → FMap (Option Run)
  | m, [] => m
  | m, b :: l => closeRuns (if holdsMatrix b.code then closeRun m b.cell b.tag else m) l

/-- Discard the uncommitted instances of an invocation: their operand tokens leave, their credits return
and their places free (R53).  So do its withdrawn and pending instances; a loop nest's outer point that has not fired keeps
its tokens. -/
def discardInv (s : State) (cell id : Nat) : State :=
  let gone (b : BInst) : Bool := b.inv == id && !b.begun
  let dead := s.insts.filter gone
  let point (f : Firing) : Bool := f.inv == some id && f.kind == .fresh && f.point.isSome && !f.brkOff
  let back (f : Firing) : Bool := f.inv == some id && !point f
  let s0 := (s.firings.filter point).foldl (fun st f => unuse st f.cell f.seq) s
  let s1 := dropUsed s0 cell (dead.map (fun b => b.seq) ++ (s.firings.filter back).map (fun f => f.seq))
  returnTags { s1 with
    insts := s1.insts.filter (fun b => !gone b)
    firings := s1.firings.filter (fun f => f.inv != some id)
    monitors := s1.monitors.filter (fun m => !s1.firings.any (fun f => back f && f.cell == m.cell && f.seq == m.seq))
    planes := closeRuns s1.planes dead
    groups := s1.groups.filter (fun g => !dead.any (fun b => b.cell == g.cell && b.node == g.node && b.tag == g.tag)) } dead

/-- The invocation ends without DONE and GO tokens, and the node's waiting GO starts (R365).  An instance whose commit
has begun completes it first, with the stores that its releases cover (R53, R225). -/
def endFaulted (s : State) (id : Nat) : State :=
  match findInv s id with
  | none => s
  | some v =>
    let begun := s.insts.any (fun b => b.inv == id && b.begun)
    let keep := s.firings.any (fun f => f.inv == some id)
    let s1 := { s with
      invs := if begun then updFirst (fun x => x.id == id) (fun x => { x with dead := true }) s.invs
        else if keep then updFirst (fun x => x.id == id) (fun x => { x with held := [] }) s.invs else s.invs.filter (fun x => x.id != id)
      nests := s.nests.filter (fun r => r.inv != id) }
    if v.nest then startWaiting s1 v.node else s1

/-- A report with the outer point of its instance, where it names no coordinates of its own (R369). -/
def atPoint (b : BInst) (r : Report) : Report :=
  match b.point with
  | some (is, _) => if r.iters = [] then { r with iters := 0 :: is } else r
  | none => r

/-- The place of a fault among those of one cycle: ascending Y, X and slot (R371). -/
def faultPlace (cell slot : Nat) : Nat := 128 * cellPlace cell + slot % 128

/-- TAKE A FAULT of an instance (R365): discard the invocation, end it, and deliver one record. -/
def takeFault (s : State) (b : BInst) (slot : Nat) (r : Report) : State :=
  let o := originOf s b slot 0
  deliverRecord (takeTurn (endFaulted (discardInv s b.cell b.inv) b.inv) .fault b.node (faultPlace b.cell slot)) o (atPoint b r) true

/-- Whether an older instance of the same invocation is in flight. -/
def olderOfInv (s : State) (b : BInst) : Bool := s.insts.any (fun x => x.cell == b.cell && x.inv == b.inv && decide (x.seq < b.seq))

/-- `Raise(cause, info)` (R9, R366): the fault is taken at once when no older instance of the invocation
is left to decide, and otherwise when the instance's turn to commit comes; so is one that a later place of this cycle has
gone before (R371).  The report of a wait raises nothing. -/
def raise (s : State) (b : BInst) (r : Report) : State :=
  if r.cause = .stall then s
  else if olderOfInv s b || !inTurn s .fault b.node (faultPlace b.cell b.pc) then putInst s { b with raised := some (b.pc, r) } else takeFault s b b.pc r

/-! ### Captured formats (R127) -/

/-- The entries of the generation that an instance captured. -/
def entriesOf (s : State) (b : BInst) : List Word64 :=
  match (nodeCtx s b.node).gens.find? (fun g => g.gen == b.gen) with
  | some g => g.entries
  | none => resetEntries

/-- `Entry(i)`. -/
def entryWord (s : State) (b : BInst) (i : Nat) : Word64 := (entriesOf s b).getD i 0
def entryOf (s : State) (b : BInst) (i : Nat) : Fmt := Fmt.ofWord (entryWord s b i)

/-- The rounding coordinates of an instance's instruction at its pc (R124). -/
def srOf (s : State) (b : BInst) : SrCtx :=
  { seed := (nodeCtx s b.node).srseed, tag := b.tag, ord := (b.point.map (fun p => p.2)).getD 0, blk := b.blk, slot := b.pc }

/-- Raise FORMAT_ENTRY for entry `i` (R76). -/
def raiseFormat (s : State) (b : BInst) (i : Nat) : State := raise s b { cause := .formatEntry, entry := i }

/-- A pure instruction that names entries: the first that fails its check raises FORMAT_ENTRY. -/
def fmtOp (h : Hdr) (consts : Nat → Val) (s : State) (check : BInst → Option Nat) (f : BInst → List Val → Deliv) : Result :=
  withOps h consts s (skipInst h) (fun b xs =>
    match check b with
    | some i => raiseFormat s b i
    | none => putInst s (advance 1 (deliver h 0 (f b xs) b)))

end Sys2Proof.Machine
end

