-- ==== Sys2Proof/Machine/Transc.lean ====
section
/-! DEFINITION. The transcendental functions of R149 and R192, as exact results to be rounded once.
A value that is not rational is given as a point of a grid so fine, and off every coarser grid, that
`round` cuts it as it cuts the real value (DEDUCED, assumption 6: no operand's true result lies within
2^-200 of a point that rounding compares with unless it is that point). -/

namespace Sys2Proof.Machine

/-- Fraction bits of the fixed-point work below. -/
def fxBits : Nat := 1024
def fxOne : Int := (2 ^ fxBits : Nat)

def fxMul (a b : Int) : Int := a * b / fxOne
def fxDiv (a b : Int) : Int := if b = 0 then 0 else a * fxOne / b

/-- ±n/d in fixed point. -/
def fxOf (n d : Nat) : Int := ((n * 2 ^ fxBits / d : Nat) : Int)

/-- Σ term_k with term_{k+1} = term_k · x / (k+1), the exponential series. -/
def expSeries (x : Int) : Nat → Nat → Int → Int
  | 0, _, _ => 0
  | fuel + 1, k, t => if t = 0 then 0 else t + expSeries x fuel (k + 1) (fxMul t x / (k + 1 : Nat))

/-- Σ t_k / (2k+1) with t_{k+1} = t_k · z2, the series of atanh, and of atan for z2 negative. -/
def oddSeries (z2 : Int) : Nat → Nat → Int → Int
  | 0, _, _ => 0
  | fuel + 1, k, t => if t = 0 then 0 else t / (2 * k + 1 : Nat) + oddSeries z2 fuel (k + 1) (fxMul t z2)

/-- Σ t_j with t_{j+1} = −t_j · x2 / ((m+1)(m+2)), the series of sine (m = 1) and cosine (m = 0). -/
def trigSeries (x2 : Int) : Nat → Nat → Int → Int
  | 0, _, _ => 0
  | fuel + 1, m, t => if t = 0 then 0 else t + trigSeries x2 fuel (m + 2) (-(fxMul t x2) / ((m + 1) * (m + 2) : Nat))

/-- ln 2 = 2 atanh(1/3). -/
def fxLn2 : Int := 2 * oddSeries (fxOne / 9) 700 0 (fxOne / 3)

/-- π = 16 atan(1/5) − 4 atan(1/239). -/
def fxPi : Int := 16 * oddSeries (-(fxOne / 25)) 500 0 (fxOne / 5) - 4 * oddSeries (-(fxOne / 57121)) 100 0 (fxOne / 239)

/-- e^x in fixed point times 2^k, for x = k ln 2 + r with 0 ≤ r < ln 2. -/
def fxExp (x : Int) : Int × Int :=
  let k := x / fxLn2
  (expSeries (x - k * fxLn2) 400 0 fxOne, k)

/-- ln of n/d for n and d positive, in fixed point. -/
def fxLn (n d : Nat) : Int :=
  let k := log2Rat n d
  let p := twoPow (-k)
  let m := fxOf (n * p.1) (d * p.2)
  let z := fxDiv (m - fxOne) (m + fxOne)
  2 * oddSeries (fxMul z z) 700 0 z + k * fxLn2

/-- ±(2x + 1) / (2 · 2^fxBits) · 2^k: a point between two neighbours of the fixed-point grid. -/
def sticky (neg : Bool) (x : Nat) (k : Int) : Exact :=
  let p := twoPow (k - fxBits - 1)
  .rat neg ((2 * x + 1) * p.1) p.2

/-- A result just below ±n/d in magnitude. -/
def justBelow (neg : Bool) (n d : Nat) : Exact := .rat neg (n * (2 ^ 60 - 1)) (d * 2 ^ 60)

/-- 2^a (R149). -/
def exp2Num : Num → Exact
  | .nan => .nan
  | .inf s => if s then .rat false 0 1 else .inf false
  | .fin s n e =>
    if n = 0 then .rat false 1 1
    else
      let p := twoPow e
      if 1024 * p.2 ≤ n * p.1 then (if s then .rat false 1 (2 ^ 1024) else .rat false (2 ^ 1024) 1)
      else
        let num : Int := if s then -((n * p.1 : Nat) : Int) else (n * p.1 : Nat)
        let k := num / (p.2 : Int)
        let f := (num % (p.2 : Int)).toNat
        if f = 0 then let q := twoPow k; .rat false q.1 q.2
        else sticky false (expSeries (fxMul (fxOf f p.2) fxLn2) 400 0 fxOne).toNat k

/-- log2 a (R149). -/
def log2Num : Num → Exact
  | .nan => .nan
  | .inf s => if s then .nan else .inf false
  | .fin s n e =>
    if n = 0 then .inf true
    else if s then .nan
    else
      let p := twoPow e
      let k := log2Rat (n * p.1) p.2
      let q := twoPow k
      if n * p.1 * q.2 = p.2 * q.1 then .rat (decide (k < 0)) k.natAbs 1
      else
        let x := fxDiv (fxLn (n * p.1) p.2) fxLn2
        sticky (decide (x < 0)) x.natAbs 0

/-- 1/a (R149). -/
def rcpNum (a : Num) : Exact := divNum (.fin false 1 0) a

/-- 1/√a (R149). -/
def rsqNum : Num → Exact
  | .nan => .nan
  | .inf s => if s then .nan else .rat false 0 1
  | .fin s n e =>
    if n = 0 then .inf s
    else if s then .nan
    else let p := twoPow e; let q := sqrtRat p.2 (n * p.1); .rat false q.1 q.2

/-- tanh a (R149). -/
def tanhNum : Num → Exact
  | .nan => .nan
  | .inf s => .rat s 1 1
  | .fin s n e =>
    let p := twoPow e
    if n = 0 then .rat s 0 1
    else if n * p.1 * 2 ^ 40 < p.2 then justBelow s (n * p.1) p.2
    else if 64 * p.2 ≤ n * p.1 then .rat s (2 ^ 180 - 1) (2 ^ 180)
    else
      let x := fxExp (2 * fxOf (n * p.1) p.2)
      let q := twoPow x.2
      let big := x.1 * q.1 / q.2
      sticky s (fxDiv (big - fxOne) (big + fxOne)).toNat 0

/-- sin a, the operand reduced exactly (R149). -/
def sinNum : Num → Exact
  | .nan => .nan
  | .inf _ => .nan
  | .fin s n e =>
    let p := twoPow e
    if n = 0 then .rat s 0 1
    else if n * p.1 * 2 ^ 40 < p.2 then justBelow s (n * p.1) p.2
    else
      let x := fxOf (n * p.1) p.2
      let half := fxPi / 2
      let k := (x + half / 2) / half
      let r := x - k * half
      let r2 := fxMul r r
      let y := if k % 2 = 0 then trigSeries r2 200 1 r else trigSeries r2 200 0 fxOne
      let y := if k % 4 = 2 ∨ k % 4 = 3 then -y else y
      let neg := s != decide (y < 0)
      sticky neg y.natAbs 0

/-- e^a, for the lantern's weights (R191): a finite or −∞. -/
def expNum : Num → Exact
  | .nan => .nan
  | .inf s => if s then .rat false 0 1 else .inf false
  | .fin s n e =>
    if n = 0 then .rat false 1 1
    else
      let p := twoPow e
      if 1024 * p.2 ≤ n * p.1 then (if s then .rat false 1 (2 ^ 1400) else .rat false (2 ^ 1400) 1)
      else
        let x := fxOf (n * p.1) p.2
        let v := fxExp (if s then -x else x)
        sticky false v.1.toNat v.2

/-- ln (n/d) (R192), for n and d positive. -/
def lnRat (n d : Nat) : Exact :=
  if n = d then .rat false 0 1
  else let x := fxLn n d; sticky (decide (x < 0)) x.natAbs 0

end Sys2Proof.Machine
end

