-- ==== Sys2Proof/Machine/Float.lean ====
section
/-! DEFINITION. Float vector instructions and transcendentals, opcodes 0x100–0x125 (R143–R149). -/

namespace Sys2Proof.Machine

/-! ### Formats and coordinates -/

/-- The entry check of the float vector class and the float lane forms: legal, total width 16 or 32, no
blocks (R76, R143). -/
def vectorEntry (x : Word64) : Bool :=
  legalEntry x && ((Fmt.ofWord x).width == 16 || (Fmt.ofWord x).width == 32) && (Fmt.ofWord x).block == 0

/-- The number of the instruction's entry when it fails the vector check. -/
def vectorCheck (s : State) (h : Hdr) (b : BInst) : Option Nat :=
  if vectorEntry (entryWord s b h.fmt.toNat) then none else some h.fmt.toNat

/-- The number of the instruction's entry when it is not FP32 as at reset (R76, R149). -/
def fp32Check (s : State) (h : Hdr) (b : BInst) : Option Nat :=
  if entryWord s b h.fmt.toNat = fp32Word then none else some h.fmt.toNat

/-- The decoded elements of one position. -/
def nums (e : Fmt) (l : List Nat) : List Num := l.map (decodeElem e)

/-- The value of operand k at one position. -/
def valueOf (e : Fmt) (l : List Nat) (k : Nat) : Num := decodeElem e (l.getD k 0)

/-! ### Exact results (R144, R145); `down` says the mode is RDN -/

def exAdd (down : Bool) (x : Nat → Num) : Exact := (sumNums down [x 0, x 1]).toExact
def exSub (down : Bool) (x : Nat → Num) : Exact := (sumNums down [x 0, (x 1).neg]).toExact
def exMul (_ : Bool) (x : Nat → Num) : Exact := ((x 0).mul (x 1)).toExact
def exFma (down : Bool) (x : Nat → Num) : Exact := (sumNums down [(x 0).mul (x 1), x 2]).toExact
def exFms (down : Bool) (x : Nat → Num) : Exact := (sumNums down [(x 0).mul (x 1), (x 2).neg]).toExact
def exFnma (down : Bool) (x : Nat → Num) : Exact := (sumNums down [((x 0).mul (x 1)).neg, x 2]).toExact
def exDiv (_ : Bool) (x : Nat → Num) : Exact := divNum (x 0) (x 1)
def exSqrt (_ : Bool) (x : Nat → Num) : Exact := sqrtNum (x 0)

/-! ### Results that do not round (R146, R147) -/

/-- FMIN, or FMAX for `big`, on codes (R146). -/
def pickCode (e : Fmt) (big : Bool) (a b : Nat) : Nat :=
  let x := decodeElem e a
  let y := decodeElem e b
  if x.isNan && y.isNan then special e .nan false .rne
  else if x.isNan then b
  else if y.isNan then a
  else if (if big then x.before y else y.before x) then b else a

/-- The sign bit of an entry. -/
def signBit (e : Fmt) : Nat := 2 ^ (e.width - 1)

def fnegCode (e : Fmt) (a : Nat) : Nat := if e.sgn = 0 then a else (a % 2 ^ e.width) ^^^ signBit e
def fabsCode (e : Fmt) (a : Nat) : Nat := if e.sgn = 0 then a else a % signBit e
def fcpysCode (e : Fmt) (a b : Nat) : Nat := if e.sgn = 0 then a else a % signBit e + (b / signBit e % 2) * signBit e

/-- A relation on values; false with a NaN (R147). -/
def relCode (e : Fmt) (l : List Nat) (f : Option Ordering → Bool) : Nat :=
  if f ((decodeElem e (l.getD 0 0)).cmp (decodeElem e (l.getD 1 0))) then 1 else 0

/-- FCLASS (R147). -/
def classCode (e : Fmt) (a : Nat) : Nat :=
  match decodeElem e a with
  | .nan => 2 ^ 8
  | .inf s => if s then 2 ^ 0 else 2 ^ 7
  | .fin s n _ =>
    if n = 0 then (if s && !e.enc then 2 ^ 3 else 2 ^ 4)
    else
      let sub := !e.enc && decide (0 < e.exp) && decide (0 < e.frac) && a / 2 ^ e.frac % 2 ^ e.exp == 0
      if sub then (if s then 2 ^ 2 else 2 ^ 5) else (if s then 2 ^ 1 else 2 ^ 6)

/-- FRINT (R148): the integer is written in the same entry, exactly where the entry can represent it (assumption 35); a
zero keeps the sign of a. -/
def rintCode (e : Fmt) (m : Rnd) (noise a : Nat) : Nat :=
  match (decodeElem e a).toExact with
  | .rat neg n d => round (.rat neg (roundInt (resolveRnd m e) neg n d noise) 1) e m noise
  | v => round v e m noise

/-! ### Shared forms -/

/-- Element-wise float result with its predicate bit. -/
def floatDeliv (e : Fmt) (xs : List Val) (f : Nat → List Nat → Nat) : Deliv :=
  let v := mapElems e.cont xs f
  same v (predElem e.cont v)

/-- A float instruction that does not round. -/
def floatOp (h : Hdr) (p : PayA) (s : State) (f : Fmt → List Nat → Nat) : Result :=
  fmtOp h (kConsts false p.k) s (vectorCheck s h) (fun b xs =>
    let e := entryOf s b h.fmt.toNat
    floatDeliv e xs (fun _ l => f e l))

/-- A float instruction that rounds an exact result once (R144). -/
def roundOp (h : Hdr) (p : PayA) (s : State) (f : Bool → (Nat → Num) → Exact) : Result :=
  fmtOp h (kConsts false p.k) s (vectorCheck s h) (fun b xs =>
    let e := entryOf s b h.fmt.toNat
    let down := resolveRnd h.rnd e == .rdn
    floatDeliv e xs (fun n l => round (f down (valueOf e l)) e h.rnd ((srOf s b).noise n)))

/-- A transcendental (R149). -/
def transOp (h : Hdr) (p : PayA) (s : State) (f : Num → Exact) : Result :=
  fmtOp h (kConsts false p.k) s (fp32Check s h) (fun b xs =>
    floatDeliv fp32 xs (fun n l => round (f (decodeElem fp32 (l.getD 0 0))) fp32 h.rnd ((srOf s b).noise n)))

/-- FADD (R144, R145). -/
def execFadd (h : Hdr) (p : PayA) (s : State) : Result := roundOp h p s exAdd

/-- FSUB (R144, R145). -/
def execFsub (h : Hdr) (p : PayA) (s : State) : Result := roundOp h p s exSub

/-- FMUL (R144, R145). -/
def execFmul (h : Hdr) (p : PayA) (s : State) : Result := roundOp h p s exMul

/-- FMA (R144, R145). -/
def execFma (h : Hdr) (p : PayA) (s : State) : Result := roundOp h p s exFma

/-- FMS (R144, R145). -/
def execFms (h : Hdr) (p : PayA) (s : State) : Result := roundOp h p s exFms

/-- FNMA (R144, R145). -/
def execFnma (h : Hdr) (p : PayA) (s : State) : Result := roundOp h p s exFnma

/-- FDIV (R144, R145). -/
def execFdiv (h : Hdr) (p : PayA) (s : State) : Result := roundOp h p s exDiv

/-- FSQRT (R144, R145). -/
def execFsqrt (h : Hdr) (p : PayA) (s : State) : Result := roundOp h p s exSqrt

/-- FMIN (R146). -/
def execFmin (h : Hdr) (p : PayA) (s : State) : Result := floatOp h p s (fun e l => pickCode e false (l.getD 0 0) (l.getD 1 0))

/-- FMAX (R146). -/
def execFmax (h : Hdr) (p : PayA) (s : State) : Result := floatOp h p s (fun e l => pickCode e true (l.getD 0 0) (l.getD 1 0))

/-- FNEG (R146). -/
def execFneg (h : Hdr) (p : PayA) (s : State) : Result := floatOp h p s (fun e l => fnegCode e (l.getD 0 0))

/-- FABS (R146). -/
def execFabs (h : Hdr) (p : PayA) (s : State) : Result := floatOp h p s (fun e l => fabsCode e (l.getD 0 0))

/-- FCPYS (R146). -/
def execFcpys (h : Hdr) (p : PayA) (s : State) : Result := floatOp h p s (fun e l => fcpysCode e (l.getD 0 0) (l.getD 1 0))

/-- FCMPEQ (R147). -/
def execFcmpeq (h : Hdr) (p : PayA) (s : State) : Result := floatOp h p s (fun e l => relCode e l (fun o => o == some .eq))

/-- FCMPNE (R147). -/
def execFcmpne (h : Hdr) (p : PayA) (s : State) : Result := floatOp h p s (fun e l => relCode e l (fun o => o != some .eq))

/-- FCMPLT (R147). -/
def execFcmplt (h : Hdr) (p : PayA) (s : State) : Result := floatOp h p s (fun e l => relCode e l (fun o => o == some .lt))

/-- FCMPLE (R147). -/
def execFcmple (h : Hdr) (p : PayA) (s : State) : Result := floatOp h p s (fun e l => relCode e l (fun o => o == some .lt || o == some .eq))

/-- FCMPUN (R147). -/
def execFcmpun (h : Hdr) (p : PayA) (s : State) : Result := floatOp h p s (fun e l => relCode e l (fun o => o == none))

/-- FCLASS (R147). -/
def execFclass (h : Hdr) (p : PayA) (s : State) : Result := floatOp h p s (fun e l => classCode e (l.getD 0 0))

/-- FRINT (R148). -/
def execFrint (h : Hdr) (p : PayA) (s : State) : Result :=
  fmtOp h (kConsts false p.k) s (vectorCheck s h) (fun b xs =>
    let e := entryOf s b h.fmt.toNat
    floatDeliv e xs (fun n l => rintCode e h.rnd ((srOf s b).noise n) (l.getD 0 0)))

/-- EXP2 (R149). -/
def execExp2 (h : Hdr) (p : PayA) (s : State) : Result := transOp h p s exp2Num

/-- LOG2 (R149). -/
def execLog2 (h : Hdr) (p : PayA) (s : State) : Result := transOp h p s log2Num

/-- RCP (R149). -/
def execRcp (h : Hdr) (p : PayA) (s : State) : Result := transOp h p s rcpNum

/-- RSQ (R149). -/
def execRsq (h : Hdr) (p : PayA) (s : State) : Result := transOp h p s rsqNum

/-- TANH (R149). -/
def execTanh (h : Hdr) (p : PayA) (s : State) : Result := transOp h p s tanhNum

/-- SIN (R149). -/
def execSin (h : Hdr) (p : PayA) (s : State) : Result := transOp h p s sinNum

end Sys2Proof.Machine
end

