-- ==== Sys2Proof/Machine/Integer.lean ====
section
/-! DEFINITION. Integer, bit and address instructions, opcodes 0x080–0x0B8 (R138–R142). -/

namespace Sys2Proof.Machine

/-! ### Results per element (R139–R141): `sg` the type's sign, `w` its width, operands as bit patterns -/

def aluAdd (_ : Bool) (w a b : Nat) : Nat := (a + b) % 2 ^ w
def aluAdds (sg : Bool) (w a b : Nat) : Nat := satInt sg w (readInt sg w a + readInt sg w b)
def aluSub (_ : Bool) (w a b : Nat) : Nat := wrapInt w ((a : Int) - b)
def aluSubs (sg : Bool) (w a b : Nat) : Nat := satInt sg w (readInt sg w a - readInt sg w b)
def aluMul (_ : Bool) (w a b : Nat) : Nat := a * b % 2 ^ w

/-- Bits [2w−1:w] of the exact product in 2w-bit two's complement. -/
def aluMulh (sg : Bool) (w a b : Nat) : Nat := wrapInt (2 * w) (readInt sg w a * readInt sg w b) / 2 ^ w

/-- Truncating division; every bit 1 when b = 0; −2^(w−1) / −1 wraps to −2^(w−1). -/
def aluDiv (sg : Bool) (w a b : Nat) : Nat :=
  if b = 0 then 2 ^ w - 1 else wrapInt w ((readInt sg w a).tdiv (readInt sg w b))

/-- The remainder with the dividend's sign; a when b = 0. -/
def aluRem (sg : Bool) (w a b : Nat) : Nat :=
  if b = 0 then a else wrapInt w ((readInt sg w a).tmod (readInt sg w b))

def aluNeg (_ : Bool) (w a : Nat) : Nat := wrapInt w (-(a : Int))
def aluAbs (sg : Bool) (w a : Nat) : Nat := wrapInt w ((readInt sg w a).natAbs : Int)
def aluMin (sg : Bool) (w a b : Nat) : Nat := if readInt sg w b < readInt sg w a then b else a
def aluMax (sg : Bool) (w a b : Nat) : Nat := if readInt sg w a < readInt sg w b then b else a
def aluMad (_ : Bool) (w a b c : Nat) : Nat := (a * b + c) % 2 ^ w

/-- min(max(a, b), c). -/
def aluClamp (sg : Bool) (w a b c : Nat) : Nat := aluMin sg w (aluMax sg w a b) c

def aluAnd (_ : Bool) (_ a b : Nat) : Nat := a &&& b
def aluOr (_ : Bool) (_ a b : Nat) : Nat := a ||| b
def aluXor (_ : Bool) (_ a b : Nat) : Nat := a ^^^ b
def aluNot (_ : Bool) (w a : Nat) : Nat := 2 ^ w - 1 - a
def aluAndn (_ : Bool) (w a b : Nat) : Nat := a &&& (2 ^ w - 1 - b)

/-- The low log2 w bits of b, w a power of two (R139). -/
def shiftAmt (w b : Nat) : Nat := b % w

def aluShl (_ : Bool) (w a b : Nat) : Nat := a * 2 ^ shiftAmt w b % 2 ^ w
def aluShr (_ : Bool) (w a b : Nat) : Nat := a / 2 ^ shiftAmt w b
def aluShra (_ : Bool) (w a b : Nat) : Nat := wrapInt w (readInt true w a / (2 ^ shiftAmt w b : Nat))
def aluRotl (_ : Bool) (w a b : Nat) : Nat :=
  let k := shiftAmt w b
  a * 2 ^ k % 2 ^ w + a / 2 ^ (w - k)

def popCount : Nat → Nat → Nat
  | 0, _ => 0
  | n + 1, a => a % 2 + popCount n (a / 2)

def trailZeros : Nat → Nat → Nat
  | 0, _ => 0
  | n + 1, a => if a % 2 = 1 then 0 else 1 + trailZeros n (a / 2)

def bitReverse : Nat → Nat → Nat
  | 0, _ => 0
  | n + 1, a => a % 2 * 2 ^ n + bitReverse n (a / 2)

def aluPopc (_ : Bool) (w a : Nat) : Nat := popCount w a
def aluCtz (_ : Bool) (w a : Nat) : Nat := trailZeros w a
def aluBrev (_ : Bool) (w a : Nat) : Nat := bitReverse w a
def aluClz (_ : Bool) (w a : Nat) : Nat := trailZeros w (bitReverse w a)

/-- Position and length of a field (R140). -/
def fieldOf (w pos len : Nat) : Nat × Nat := let p := pos % w; (p, min len (w - p))

def aluBfx (sg : Bool) (w a pos len : Nat) : Nat :=
  let f := fieldOf w pos len
  if f.2 = 0 then 0
  else
    let r := a / 2 ^ f.1 % 2 ^ f.2
    if sg then wrapInt w (readInt true f.2 r) else r

def aluBfi (_ : Bool) (w a b pos len : Nat) : Nat :=
  let f := fieldOf w pos len
  if f.2 = 0 then a else a - a / 2 ^ f.1 % 2 ^ f.2 * 2 ^ f.1 + b % 2 ^ f.2 * 2 ^ f.1

def aluEq (_ : Bool) (_ a b : Nat) : Nat := if a = b then 1 else 0
def aluNe (_ : Bool) (_ a b : Nat) : Nat := if a = b then 0 else 1
def aluLt (sg : Bool) (w a b : Nat) : Nat := if readInt sg w a < readInt sg w b then 1 else 0
def aluLe (sg : Bool) (w a b : Nat) : Nat := if readInt sg w a ≤ readInt sg w b then 1 else 0
def aluGt (sg : Bool) (w a b : Nat) : Nat := if readInt sg w b < readInt sg w a then 1 else 0
def aluGe (sg : Bool) (w a b : Nat) : Nat := if readInt sg w b ≤ readInt sg w a then 1 else 0
def aluSel (_ : Bool) (_ c a b : Nat) : Nat := if c ≠ 0 then a else b
def aluMov (_ : Bool) (_ a : Nat) : Nat := a

/-! ### Instructions of one, two, three and four operands -/

/-- The element-wise result of an integer instruction and its predicate bit (R45, R137). -/
def intDeliv (h : Hdr) (xs : List Val) (f : Bool → Nat → List Nat → Nat) : Deliv :=
  let w := codeWidth h.fmt
  let v := mapElems w xs (fun _ l => f (codeSigned h.fmt) w l)
  same v (predElem w v)

/-- An integer instruction: layout A under a width code (R138). -/
def intOp (h : Hdr) (p : PayA) (s : State) (f : Bool → Nat → List Nat → Nat) : Result :=
  pureOp h (kConsts (codeWidth h.fmt == 64) p.k) 0 s (fun _ xs => intDeliv h xs f)

def un (f : Bool → Nat → Nat → Nat) (sg : Bool) (w : Nat) (l : List Nat) : Nat := f sg w (l.getD 0 0)
def bin (f : Bool → Nat → Nat → Nat → Nat) (sg : Bool) (w : Nat) (l : List Nat) : Nat := f sg w (l.getD 0 0) (l.getD 1 0)
def tern (f : Bool → Nat → Nat → Nat → Nat → Nat) (sg : Bool) (w : Nat) (l : List Nat) : Nat :=
  f sg w (l.getD 0 0) (l.getD 1 0) (l.getD 2 0)
def quad (f : Bool → Nat → Nat → Nat → Nat → Nat → Nat) (sg : Bool) (w : Nat) (l : List Nat) : Nat :=
  f sg w (l.getD 0 0) (l.getD 1 0) (l.getD 2 0) (l.getD 3 0)

/-- IADD (R139). -/
def execIadd (h : Hdr) (p : PayA) (s : State) : Result := intOp h p s (bin aluAdd)

/-- IADDS (R139). -/
def execIadds (h : Hdr) (p : PayA) (s : State) : Result := intOp h p s (bin aluAdds)

/-- ISUB (R139). -/
def execIsub (h : Hdr) (p : PayA) (s : State) : Result := intOp h p s (bin aluSub)

/-- ISUBS (R139). -/
def execIsubs (h : Hdr) (p : PayA) (s : State) : Result := intOp h p s (bin aluSubs)

/-- IMUL (R139). -/
def execImul (h : Hdr) (p : PayA) (s : State) : Result := intOp h p s (bin aluMul)

/-- IMULH (R139). -/
def execImulh (h : Hdr) (p : PayA) (s : State) : Result := intOp h p s (bin aluMulh)

/-- IDIV (R139). -/
def execIdiv (h : Hdr) (p : PayA) (s : State) : Result := intOp h p s (bin aluDiv)

/-- IREM (R139). -/
def execIrem (h : Hdr) (p : PayA) (s : State) : Result := intOp h p s (bin aluRem)

/-- INEG (R139). -/
def execIneg (h : Hdr) (p : PayA) (s : State) : Result := intOp h p s (un aluNeg)

/-- IABS (R139). -/
def execIabs (h : Hdr) (p : PayA) (s : State) : Result := intOp h p s (un aluAbs)

/-- IMIN (R139). -/
def execImin (h : Hdr) (p : PayA) (s : State) : Result := intOp h p s (bin aluMin)

/-- IMAX (R139). -/
def execImax (h : Hdr) (p : PayA) (s : State) : Result := intOp h p s (bin aluMax)

/-- IMAD (R139). -/
def execImad (h : Hdr) (p : PayA) (s : State) : Result := intOp h p s (tern aluMad)

/-- ICLAMP (R139). -/
def execIclamp (h : Hdr) (p : PayA) (s : State) : Result := intOp h p s (tern aluClamp)

/-- AND (R139). -/
def execAndBits (h : Hdr) (p : PayA) (s : State) : Result := intOp h p s (bin aluAnd)

/-- OR (R139). -/
def execOrBits (h : Hdr) (p : PayA) (s : State) : Result := intOp h p s (bin aluOr)

/-- XOR (R139). -/
def execXorBits (h : Hdr) (p : PayA) (s : State) : Result := intOp h p s (bin aluXor)

/-- NOT (R139). -/
def execNotBits (h : Hdr) (p : PayA) (s : State) : Result := intOp h p s (un aluNot)

/-- ANDN (R139). -/
def execAndn (h : Hdr) (p : PayA) (s : State) : Result := intOp h p s (bin aluAndn)

/-- SHL (R139). -/
def execShl (h : Hdr) (p : PayA) (s : State) : Result := intOp h p s (bin aluShl)

/-- SHR (R139). -/
def execShr (h : Hdr) (p : PayA) (s : State) : Result := intOp h p s (bin aluShr)

/-- SHRA (R139). -/
def execShra (h : Hdr) (p : PayA) (s : State) : Result := intOp h p s (bin aluShra)

/-- ROTL (R139). -/
def execRotl (h : Hdr) (p : PayA) (s : State) : Result := intOp h p s (bin aluRotl)

/-- POPC (R139). -/
def execPopc (h : Hdr) (p : PayA) (s : State) : Result := intOp h p s (un aluPopc)

/-- CLZ (R139). -/
def execClz (h : Hdr) (p : PayA) (s : State) : Result := intOp h p s (un aluClz)

/-- CTZ (R139). -/
def execCtz (h : Hdr) (p : PayA) (s : State) : Result := intOp h p s (un aluCtz)

/-- BREV (R139). -/
def execBrev (h : Hdr) (p : PayA) (s : State) : Result := intOp h p s (un aluBrev)

/-- BFX (R140). -/
def execBfx (h : Hdr) (p : PayA) (s : State) : Result := intOp h p s (tern aluBfx)

/-- BFI (R140). -/
def execBfi (h : Hdr) (p : PayA) (s : State) : Result := intOp h p s (quad aluBfi)

/-- ICMPEQ (R141). -/
def execIcmpeq (h : Hdr) (p : PayA) (s : State) : Result := intOp h p s (bin aluEq)

/-- ICMPNE (R141). -/
def execIcmpne (h : Hdr) (p : PayA) (s : State) : Result := intOp h p s (bin aluNe)

/-- ICMPLT (R141). -/
def execIcmplt (h : Hdr) (p : PayA) (s : State) : Result := intOp h p s (bin aluLt)

/-- ICMPLE (R141). -/
def execIcmple (h : Hdr) (p : PayA) (s : State) : Result := intOp h p s (bin aluLe)

/-- ICMPGT (R141). -/
def execIcmpgt (h : Hdr) (p : PayA) (s : State) : Result := intOp h p s (bin aluGt)

/-- ICMPGE (R141). -/
def execIcmpge (h : Hdr) (p : PayA) (s : State) : Result := intOp h p s (bin aluGe)

/-- SEL (R141). -/
def execSel (h : Hdr) (p : PayA) (s : State) : Result := intOp h p s (tern aluSel)

/-- MOV (R141). -/
def execMov (h : Hdr) (p : PayA) (s : State) : Result := intOp h p s (un aluMov)

/-! ### Checked address forms (R142) -/

/-- The exact results of an address form, per element; none where an element's slots are invalid. -/
def addrExact (xs : List Val) (f : List Int → Int) : List (Option Int) :=
  (List.range 8).map (fun n => (elemsAt 64 xs n).map (fun l => f (readInt false 64 (l.getD 0 0) :: (l.drop 1).map (readInt true 64))))

/-- The first element whose result lies outside 0 to 2^57. -/
def addrBad : Nat → List (Option Int) → Option (Nat × Int)
  | _, [] => none
  | n, none :: l => addrBad (n + 1) l
  | n, some x :: l => if x < 0 ∨ (2 ^ 57 : Nat) ≤ x then some (n, x) else addrBad (n + 1) l

/-- AADD, AMAD and ASUB: raise ADDR_OVERFLOW for the first bad element, else deliver (R142). -/
def addrOp (h : Hdr) (p : PayA) (s : State) (f : List Int → Int) : Result :=
  withOps h (kConsts true p.k) s (skipInst h) (fun b xs =>
    let r := addrExact xs f
    match addrBad 0 r with
    | some (n, x) => raise s b { cause := .addrOverflow, n := n, addr := wrapInt 64 x }
    | none =>
      let v := ofElems 64 (r.map (fun o => o.map (wrapInt 64)))
      putInst s (advance 1 (deliver h 0 (same v (predElem 64 v)) b)))

/-- AADD (R142). -/
def execAadd (h : Hdr) (p : PayA) (s : State) : Result := addrOp h p s (fun l => l.getD 0 0 + l.getD 1 0)

/-- AMAD (R142). -/
def execAmad (h : Hdr) (p : PayA) (s : State) : Result := addrOp h p s (fun l => l.getD 0 0 + l.getD 1 0 * l.getD 2 0)

/-- ASUB (R142). -/
def execAsub (h : Hdr) (p : PayA) (s : State) : Result := addrOp h p s (fun l => l.getD 0 0 - l.getD 1 0)

/-- ACHK (R142): 1 when lo ≤ a < lo + n and lo + n ≤ 2^57. -/
def execAchk (h : Hdr) (p : PayA) (s : State) : Result :=
  pureOp h (kConsts true p.k) 0 s (fun _ xs =>
    let v := mapElems 64 xs (fun _ l =>
      if l.getD 1 0 ≤ l.getD 0 0 ∧ l.getD 0 0 < l.getD 1 0 + l.getD 2 0 ∧ l.getD 1 0 + l.getD 2 0 ≤ 2 ^ 57 then 1 else 0)
    same v (predElem 64 v))

end Sys2Proof.Machine
end

