-- ==== Sys2Proof/Machine/Memory.lean ====
section
/-! DEFINITION. Loads, stores, hints and ordering, opcodes 0x240–0x24A, 0x2C0 and 0x2C1 (R239–R248). -/

namespace Sys2Proof.Machine

/-! ### Addresses (R241, R242) -/

/-- Where an access lies: the machine address of each byte, the virtual address or scratch offset, and whose
virtual access it is. -/
structure Place where
  addrs : List Nat
  ea : Nat
  via : Option Via
  deriving DecidableEq, Repr

/-- The base that an address operand gives; none when its slots are not all valid. -/
def baseOf (sp : Bool) (a : Val) : Option Nat :=
  match slotOf a 0, slotOf a 1 with
  | some lo, some hi => some (if sp then lo.toNat else lo.toNat + 2 ^ 32 * hi.toNat)
  | some lo, none => if sp then some lo.toNat else none
  | none, _ => none

/-- The memory cell of an access to scratch space: the linked cell, which must hold the scratch role. -/
def scratchCell (s : State) (b : BInst) : Option Nat :=
  match linkOf s b.node with
  | some m => if roleOf (nodeCtx s b.node) m = some .scratch then some m else none
  | none => none

/-- The cache-role memory cell that serves a node's virtual accesses (R241). -/
def bankOf (s : State) (n : NodeId) : Option Nat :=
  match linkOf s n with
  | some m => if roleOf (nodeCtx s n) m = some .cache then some m else none
  | none => none

/-- Whether the linked bank holds the line under another context than the access's (R354); an atomic drops the line
instead (R249). -/
def bankRefuses (s : State) (b : BInst) (va pa : Nat) : Bool :=
  match bankOf s b.node with
  | some m => s.bank.any (fun l => l.cell == m && l.line == pa / 64 && l.tag != bankTag s b.node.w b.tag.colour va pa)
  | none => false

/-- EffAddr of R242: range and alignment, then the swizzle or the translation; element `n`. -/
def effAddr (s : State) (b : BInst) (sp : Bool) (swz : Nat) (ea : Int) (size n : Nat) (rd wr : Bool) : Except Report Place :=
  if sp then
    if ea < 0 ∨ (scratchSize : Int) < ea + size ∨ ea % (size : Int) ≠ 0 then .error { cause := .addrOverflow, n := n, addr := wrapInt64 ea }
    else match scratchCell s b with
      | none => .error { cause := .permission, n := n, addr := ea.toNat }
      | some m => .ok { addrs := (List.range size).map (fun i => scratchAddr m (swizzle swz (ea.toNat + i))), ea := ea.toNat, via := none }
  else if ea < 0 ∨ (2 ^ 57 : Nat) < ea + size ∨ ea % (size : Int) ≠ 0 then .error { cause := .addrOverflow, n := n, addr := wrapInt64 ea }
  else match access s (some b.cell) b.node.w b.tag.colour ea.toNat size rd wr with
    | .error r => .error { r with n := n }
    | .ok pa =>
      if !(rd && wr) && bankRefuses s b ea.toNat pa then .error { cause := .permission, detail := 13, n := n, addr := ea.toNat }
      else .ok { addrs := (List.range size).map (fun i => pa + i), ea := ea.toNat, via := some { w := b.node.w, colour := b.tag.colour, va := ea.toNat } }
where
  wrapInt64 (z : Int) : Nat := (z % (2 ^ 64 : Nat)).toNat

/-- The number that an agent reads at the bytes of a place, little-endian. -/
def readPlace (s : State) (b : BInst) : List Nat → Nat
  | [] => 0
  | a :: l => (agentByte s b a).toNat + 256 * readPlace s b l

/-- The store of `v` at the bytes of a place. -/
def storeAt (pl : Place) (v : Nat) : HStore := { bytes := (pl.addrs.zip (leBytes pl.addrs.length v)), via := pl.via }

/-- Whether a virtual place touches a live word (R246). -/
def touchesLive (s : State) (pl : Place) : Bool := pl.via.isSome && pl.addrs.any (fun a => typeAt s a != 0)

/-! ### Caches: they change no value (R204, R210–R212, R231) -/

/-- Retention of a hint; `.hn` allocates nothing (R77). -/
def hintRetention (hint : Nat) : Option Retention :=
  match hint with
  | 0 => some .normal
  | 1 => some .low
  | 2 => some .high
  | _ => none

/-- Monitors on a dropped line are lost (R257). -/
def wakeLost (s : State) (granule : Nat) : List Monitor := wakeGranule s.monitors s.now granule .lost

/-- The Dome drops a line; a carve-out line stays (R213, R248). -/
def dropLine (s : State) (pa : Nat) : State :=
  match region pa with
  | some (.carve _) => s
  | _ => { s with dome := mput none s.dome (pa / 64) none, monitors := wakeLost s (pa / 64) }

/-- The carve-outs of a world's contexts: those of the resident ones, and those that the contexts of cut tasks keep until
they unload (R213, R320). -/
def worldCarves (s : State) (w : BitVec 4) : List (Context × List (Nat × Nat)) :=
  ((s.ctxs.filter (fun e => e.1 / 256 == w.toNat && e.2.resident)).map (fun e => (BitVec.ofNat 8 e.1, e.2.carve)))
    ++ ((worldOf s w).tasks.filter (fun t => t.saved && !(ctxOf s w t.img.context).resident)).map (fun t => (t.img.context, t.carve))

/-- Lines that a die's Dome holds: 256 MiB less its carve-outs (R16, R213). -/
def domeLimit (s : State) (die : Nat) : Nat :=
  2 ^ 22 - 2 ^ 14 * ((((List.range 16).map (fun w => worldCarves s (BitVec.ofNat 4 w))).flatten).map (fun e => (e.2.getD die (0, 0)).1)).foldl (· + ·) 0

def Retention.rank : Retention → Nat
  | .low => 0
  | .normal => 1
  | .high => 2

/-- The line that a full Dome drops for another: one of the lowest retention; a streaming allocation drops no line of the
highest (R248). -/
def domeVictim (s : State) (die : Nat) (r : Retention) : Option Nat :=
  (bestOf (fun a b => decide (a.2.rank < b.2.rank)) ((s.dome.filterMap (fun e => e.2.map (fun x => (e.1, x)))).filter (fun e =>
    homeDie (64 * e.1) == die && (r != .low || e.2 != .high)))).map (fun e => e.1)

/-- The home Dome holds a line at a retention (R212, R248); neither a carve-out line, which is storage of its own, nor a
line that it cannot cache: a remote one (R214), or a host one without CXL.cache (R404). -/
def domeKeep (s : State) (pa : Nat) (r : Retention) : State :=
  let die := homeDie pa
  let put (st : State) : State := { st with dome := mput none st.dome (pa / 64) (some r) }
  match region pa with
  | some (.carve _) => s
  | _ =>
    if 4 ≤ die ∨ hostUncached s pa then s
    else if (mget none s.dome (pa / 64)).isSome ∨ (s.dome.filter (fun e => homeDie (64 * e.1) == die)).length < domeLimit s die then put s
    else match domeVictim s die r with
      | some l => put (dropLine s (64 * l))
      | none => s

/-- The Dome after an access: a held line keeps its retention unless the access streams, a missed one is allocated by the
hint (R212, R248). -/
def domeAccess (s : State) (pa hint : Nat) : State :=
  match mget none s.dome (pa / 64), hintRetention hint with
  | some _, _ => if hint = 1 then domeKeep s pa .low else s
  | none, some r => domeKeep s pa r
  | none, none => s

/-- The way mask of a colour in a cache bank (R211). -/
def wayMask (c : Ctx) (cell : Nat) (colour : Colour) : BitVec 16 :=
  match c.roles.find? (fun r => r.1 == cell && r.2.1 == .cache) with
  | some r => ((r.2.2.find? (fun m => m.1 == colour.toNat)).map (fun m => m.2)).getD 0
  | none => 0

/-- A cache bank after an access: a hit is made the most recently used, a miss fills the lowest invalid way
of the mask or else its least recently used one (R210).  The list holds the lines from the least recently
used. -/
def bankAccess (bank : List BankLine) (cell : Nat) (mask : BitVec 16) (colour : Colour) (tag : Option (Nat × Nat × Nat)) (pa : Nat) : List BankLine :=
  let line := pa / 64
  let set := bits pa 12 6
  match bank.find? (fun l => l.cell == cell && l.line == line) with
  | some l => bank.filter (fun x => x != l) ++ [l]
  | none =>
    let ways := (List.range 16).filter (fun w => mask.getLsbD w)
    let used (w : Nat) : Bool := bank.any (fun l => l.cell == cell && l.set == set && l.way == w)
    match ways.find? (fun w => !used w) with
    | some w => bank ++ [{ cell := cell, set := set, way := w, line := line, colour := colour, tag := tag }]
    | none =>
      match bank.find? (fun l => l.cell == cell && l.set == set && ways.contains l.way) with
      | some v => bank.filter (fun x => x != v) ++ [{ cell := cell, set := set, way := v.way, line := line, colour := colour, tag := tag }]
      | none => bank

/-- The lines of a place pass through the linked bank and their home Dome. -/
def touchLine (s : State) (b : BInst) (hint : Nat) (pl : Place) : State :=
  match pl.via with
  | none => s
  | some v =>
    let pa := pl.addrs.headD 0
    let s1 := domeAccess s pa hint
    match bankOf s b.node with
    | some m => { s1 with bank := bankAccess s.bank m (wayMask (nodeCtx s b.node) m b.tag.colour) b.tag.colour (bankTag s v.w v.colour v.va pa) pa }
    | none => s1

def touchLines (s : State) (b : BInst) (hint : Nat) : List Place → State
  | [] => s
  | pl :: l => touchLines (touchLine s b hint pl) b hint l

/-- An acquire wider than `.cell`, by an agent at a node's cell, invalidates the linked bank (R231); values are read at
their homes, so it changes nothing else. -/
def acquireAt (s : State) (n : NodeId) (sc : Scope) : State :=
  match bankOf s n with
  | some m => if sc = .cell then s else { s with bank := s.bank.filter (fun l => l.cell != m) }
  | none => s

def acquire (s : State) (b : BInst) (sc : Scope) : State := acquireAt s b.node sc

/-! ### Shared forms -/

/-- A memory instruction waits for the older instances of its agent, whose operations precede its own in
program order (R219), and takes no constants.  R39 leaves open in which order the memory instructions of one instance to
locations that do not overlap take effect: here they do so in slot order (assumption 52). -/
def memOp (h : Hdr) (s : State) (body : BInst → List Val → State) : Result :=
  match focusInst s with
  | none => .next s
  | some b => if olderOfInv s b then .next s else withOps h (k0Const 0) s (skipInst h) body

/-- The delivery waits for the memory level's response (R243). -/
def pendDeliv (h : Hdr) (d : Deliv) (b : BInst) : BInst :=
  { b with pend := b.pend ++ [{ slot := b.pc, h := h, aux := 0, v0 := d.v0, v1 := d.v1, b := d.p0 }] }

/-- Finish a load: the instance is replaced by one that waits for the response. -/
def finishLoad (s : State) (h : Hdr) (b : BInst) (v : Val) (p : Bool) : State :=
  putInst s (advance 1 (pendDeliv h (same v p) b))

/-- An access with invalid address slots delivers invalid and raises nothing (R242). -/
def deliverOff (s : State) (h : Hdr) (b : BInst) : State := putInst s (skipInst h b)

def spOf (p : PayW) : Bool := p.mctl.getLsbD 0

/-- Element of width w extended to 32 bits by type, or the two words of 64 bits (R243). -/
def loadVal (c : BitVec 4) (x : Nat) : Val :=
  let w := codeWidth c
  if w = 64 then word64 (BitVec.ofNat 64 x) else word32 (wrapInt 32 (readInt (codeSigned c) w x))

/-- The low w bits of a data operand's element 0, when its slots are valid. -/
def dataOf (w : Nat) (d : Val) : Option Nat :=
  if w = 64 then elemOf 64 d 0 else (slotOf d 0).map (fun x => x.toNat % 2 ^ w)

/-- Hold some stores of the instance, or raise HOLD_OVERFLOW (R206). -/
def holdStores (s : State) (h : Hdr) (b : BInst) (sts : List HStore) (ea : Nat) : State :=
  if holdOverflows s b sts then raise s b { cause := .holdOverflow, addr := ea }
  else putInst s (advance 1 (deliver h 0 offDeliv { b with effs := b.effs ++ sts.map .store }))

/-- The report of a store to a live word (R246). -/
def liveReport (n ea : Nat) : Report := { cause := .barrierStore, n := n, addr := ea }

/-! ### Loads and stores (R243) -/

/-- A load of one element of `size` bytes. -/
def loadOp (h : Hdr) (p : PayW) (s : State) (size : Nat) (acq : Option Scope) (f : Nat → Val) : Result :=
  memOp h s (fun b xs =>
    match baseOf (spOf p) (xs.getD 0 noVal) with
    | none => deliverOff s h b
    | some base =>
      match effAddr s b (spOf p) h.swz.toNat (base + p.ofs.toInt) size 0 true false with
      | .error r => raise s b r
      | .ok pl =>
        let v := f (readPlace s b pl.addrs)
        let s1 := touchLine s b h.hint.toNat pl
        finishLoad (match acq with | some sc => acquire s1 b sc | none => s1) h b v (predGeneral v))

/-- LD (R243). -/
def execLd (h : Hdr) (p : PayW) (s : State) : Result := loadOp h p s (codeWidth h.fmt / 8) none (loadVal h.fmt)

/-- The sixteen slots of 64 bytes. -/
def tokenVal (x : Nat) : Val := { valid := 0xFFFF, slots := BitVec.ofNat 512 x }

/-- LDT (R243). -/
def execLdt (h : Hdr) (p : PayW) (s : State) : Result := loadOp h p s 64 none tokenVal

/-- LDACQ (R245): loads as LD.z32 or LD.z64, then acquires at its SCOPE. -/
def execLdacq (h : Hdr) (p : PayW) (s : State) : Result :=
  let w8 := p.mctl.getLsbD 1
  loadOp h p s (if w8 then 8 else 4) (some p.scope) (loadVal (if w8 then 7 else 6))

/-- ST (R243): nothing is stored when the data slots are not all valid. -/
def execSt (h : Hdr) (p : PayW) (s : State) : Result :=
  let w := codeWidth h.fmt
  memOp h s (fun b xs =>
    match baseOf (spOf p) (xs.getD 0 noVal), dataOf w (xs.getD 1 noVal) with
    | some base, some d =>
      match effAddr s b (spOf p) h.swz.toNat (base + p.ofs.toInt) (w / 8) 0 false true with
      | .error r => raise s b r
      | .ok pl =>
        if touchesLive s pl then raise s b (liveReport 0 pl.ea)
        else holdStores (touchLine s b h.hint.toNat pl) h b [storeAt pl d] pl.ea
    | _, _ => deliverOff s h b)

/-- The part of a place that holds slot k of a token. -/
def slotPlace (pl : Place) (k : Nat) : Place := { pl with addrs := (pl.addrs.drop (4 * k)).take 4, ea := pl.ea + 4 * k }

/-- The valid slots of a token as stores, in ascending order. -/
def slotStores (pl : Place) (d : Val) : List HStore :=
  (List.range 16).filterMap (fun k => (slotOf d k).map (fun x =>
    let q := slotPlace pl k
    storeAt { q with via := pl.via.map (fun v => { v with va := v.va + 4 * k }) } x.toNat))

/-- The 64 bytes of an STT; one with an invalid slot writes less than its line, whose MAC it checks (R353). -/
def sttAddr (s : State) (b : BInst) (h : Hdr) (p : PayW) (base : Nat) (d : Val) : Except Report Place :=
  match effAddr s b (spOf p) h.swz.toNat (base + p.ofs.toInt) 64 0 false true with
  | .error r => .error r
  | .ok pl =>
    match if d.valid = 0xFFFF then none else pl.via.bind (fun v => homeCheck s v.w v.colour v.va (pl.addrs.headD 0) true) with
    | some r => .error r
    | none => .ok pl

/-- STT (R243): no byte is written for an invalid slot. -/
def execStt (h : Hdr) (p : PayW) (s : State) : Result :=
  memOp h s (fun b xs =>
    let d := xs.getD 1 noVal
    match baseOf (spOf p) (xs.getD 0 noVal) with
    | none => deliverOff s h b
    | some base =>
      match sttAddr s b h p base d with
      | .error r => raise s b r
      | .ok pl =>
        match (List.range 16).find? (fun k => d.valid.getLsbD k && touchesLive s (slotPlace pl k)) with
        | some k => raise s b (liveReport k (pl.ea + 4 * k))
        | none => holdStores (touchLine s b h.hint.toNat pl) h b (slotStores pl d) pl.ea)

/-! ### Gather and scatter (R244) -/

/-- The places of the slots that are addressed, in ascending order, or the first report. -/
def slotPlaces (s : State) (b : BInst) (h : Hdr) (p : PayW) (base : Nat) (idx : Val) (use : Nat → Bool) (rd wr : Bool) :
    List Nat → Except Report (List (Nat × Place))
  | [] => .ok []
  | k :: l =>
    if use k then
      let size := codeWidth h.fmt / 8
      match effAddr s b (spOf p) h.swz.toNat (base + p.ofs.toInt + (slotBits idx k).toInt * size) size k rd wr with
      | .error r => .error r
      | .ok pl =>
        if wr && touchesLive s pl then .error (liveReport k pl.ea)
        else match slotPlaces s b h p base idx use rd wr l with
          | .error r => .error r
          | .ok ps => .ok ((k, pl) :: ps)
    else slotPlaces s b h p base idx use rd wr l

/-- LDG (R244). -/
def execLdg (h : Hdr) (p : PayW) (s : State) : Result :=
  memOp h s (fun b xs =>
    let idx := xs.getD 1 noVal
    match baseOf (spOf p) (xs.getD 0 noVal) with
    | none => deliverOff s h b
    | some base =>
      match slotPlaces s b h p base idx (fun k => idx.valid.getLsbD k) true false (List.range 16) with
      | .error r => raise s b r
      | .ok ps =>
        let w := codeWidth h.fmt
        let v := valOf (fun k => (ps.find? (fun q => q.1 == k)).map (fun q => BitVec.ofNat 32 (wrapInt 32 (readInt (codeSigned h.fmt) w (readPlace s b q.2.addrs)))))
        finishLoad (touchLines s b h.hint.toNat (ps.map (fun q => q.2))) h b v (predGeneral v))

/-- STSC (R244): written in ascending slots. -/
def execStsc (h : Hdr) (p : PayW) (s : State) : Result :=
  memOp h s (fun b xs =>
    let idx := xs.getD 1 noVal
    let d := xs.getD 2 noVal
    match baseOf (spOf p) (xs.getD 0 noVal) with
    | none => deliverOff s h b
    | some base =>
      match slotPlaces s b h p base idx (fun k => idx.valid.getLsbD k && d.valid.getLsbD k) false true (List.range 16) with
      | .error r => raise s b r
      | .ok ps =>
        let w := codeWidth h.fmt
        let sts := ps.map (fun q => storeAt q.2 ((slotBits d q.1).toNat % 2 ^ w))
        holdStores (touchLines s b h.hint.toNat (ps.map (fun q => q.2))) h b sts ((ps.map (fun q => q.2.ea)).headD 0))

/-! ### Ordering (R245, R247) -/

/-- STREL (R245): checked when it executes; its release and then its store are performed at commit, the
store unheld.  Data slots that are not all valid still release. -/
def execStrel (h : Hdr) (p : PayW) (s : State) : Result :=
  let w8 := p.mctl.getLsbD 1
  memOp h s (fun b xs =>
    match baseOf (spOf p) (xs.getD 0 noVal) with
    | none => deliverOff s h b
    | some base =>
      match effAddr s b (spOf p) 0 (base + p.ofs.toInt) (if w8 then 8 else 4) 0 false true with
      | .error r => raise s b r
      | .ok pl =>
        match dataOf (if w8 then 64 else 32) (xs.getD 1 noVal) with
        | none => putInst s (advance 1 (addEff (.rel (.strel p.scope none)) b))
        | some d =>
          if touchesLive s pl then raise s b (liveReport 0 pl.ea)
          else putInst (touchLine s b h.hint.toNat pl) (advance 1 (addEff (.rel (.strel p.scope (some (storeAt pl d)))) b)))

/-- PHASE (R247). -/
def execPhase (h : Hdr) (p : PayW) (s : State) : Result :=
  memOp h s (fun b _ => putInst s (advance 1 (addEff (.rel (.phase p.scope)) (deliver h 0 (same (word32 1) true) b))))

/-- Perform the releases of some effects in program order: `pre` are the instance's stores before them.  What is
left are the stores after the last release, and the other effects. -/
def performRels (o : Origin) (id : Nat) : State → List HStore → List Eff → State × List HStore × List Eff
  | s, pre, [] => (s, pre, [])
  | s, pre, .store st :: l => performRels o id s (pre ++ [st]) l
  | s, pre, .rel (.phase _) :: l => performRels o id (homeWrites o (releaseInv s o id) pre) [] l
  | s, pre, .rel (.strel _ st) :: l =>
    performRels o id (homeWrites o (homeWrites o (releaseInv s o id) pre) st.toList) [] l
  | s, pre, e :: l => (let r := performRels o id s pre l; (r.1, r.2.1, e :: r.2.2))

/-- Release now: the held stores of the agent, and the instance's own and its releases before this instruction
(R225, R229). -/
def releaseNow (s : State) (b : BInst) : State × BInst :=
  let o := originOf s b b.pc 2
  let r := performRels o b.inv s [] b.effs
  (homeWrites o (releaseInv r.1 o b.inv) r.2.1, { b with effs := r.2.2 })

def Eff.isRel (e : Eff) : Bool := match e with
  | .rel _ => true
  | _ => false

/-- A step at a home behind a release of its own instance: the release is performed ahead of it, so that R219 and R227
hold for a step that R229 has performed when it executes (assumption 40). -/
def settle (s : State) (b : BInst) : State × BInst :=
  if b.effs.any Eff.isRel then
    let r := performRels (originOf s b b.pc 2) b.inv s [] b.effs
    (r.1, { b with effs := r.2.2 ++ r.2.1.map .store })
  else (s, b)

/-- FENCE (R247): ORD 0b10 as PHASE at commit; 0b01 acquires; 0b11 releases and acquires in one step when it
executes (R230). -/
def execFence (h : Hdr) (p : PayW) (s : State) : Result :=
  memOp h s (fun b _ =>
    let fin (b : BInst) : BInst := advance 1 (deliver h 0 (same (word32 1) true) b)
    match p.ord with
    | .rel => putInst s (fin (addEff (.rel (.phase p.scope)) b))
    | .acqrel => let r := releaseNow s b; putInst (acquire r.1 b p.scope) (fin (markDurable r.2))
    | _ => putInst (acquire s b p.scope) (fin b))

/-! ### Hints (R248) -/

/-- One more hint dropped, saturating (R218). -/
def countDrop (s : State) (n : NodeId) : State :=
  let c := nodeCtx s n
  setCtx s n.w n.x { c with hintdrop := min (c.hintdrop + 1) (2 ^ 32 - 1) }

/-- A hint acts on each line in turn; a line whose translation would raise is skipped and counted. -/
def hintLines (b : BInst) (f : State → Nat → State) : State → List Int → State
  | s, [] => s
  | s, va :: l =>
    if va < 0 ∨ (2 ^ 57 : Nat) ≤ va then hintLines b f (countDrop s b.node) l
    else match translate s (some b.cell) b.node.w b.tag.colour va.toNat true false with
      | .error _ => hintLines b f (countDrop s b.node) l
      | .ok pa => hintLines b f (f s pa) l

def hintOp (h : Hdr) (p : PayW) (s : State) (active : Bool) (f : State → Nat → State) : Result :=
  memOp h s (fun b xs =>
    match baseOf false (xs.getD 0 noVal) with
    | none => deliverOff s h b
    | some base =>
      let first := (base + p.ofs.toInt) / 64 * 64
      let s1 := if active then hintLines b f s ((List.range (p.mctl.toNat + 1)).map (fun (i : Nat) => first + 64 * (i : Int))) else s
      putInst s1 (skipInst h b))

/-- The Dome holds a line at a retention; none allocates nothing. -/
def keepLine (r : Option Retention) (s : State) (pa : Nat) : State :=
  match r with
  | some k => domeKeep s pa k
  | none => s

/-- PREF (R248). -/
def execPref (h : Hdr) (p : PayW) (s : State) : Result :=
  hintOp h p s (h.hint != 3) (keepLine (hintRetention h.hint.toNat))

/-- RESID (R248). -/
def execResid (h : Hdr) (p : PayW) (s : State) : Result :=
  hintOp h p s true (keepLine (some .high))

/-- EVICT (R248). -/
def execEvict (h : Hdr) (p : PayW) (s : State) : Result := hintOp h p s true dropLine

end Sys2Proof.Machine
end

