-- ==== Sys2Proof/Machine/Atomic.lean ====
section
/-! DEFINITION. Atomics and barrier words, opcodes 0x2C8–0x2D9 (R229, R249–R253).  They are performed at
their homes when they execute. -/

namespace Sys2Proof.Machine

/-! ### Releases that an atomic makes (R229) -/

/-- From the latest store back: the stores that overlap the bytes, or a later overlapping store, and the
rest. -/
def overlapSplit : List Nat → List HStore → List HStore × List HStore
  | _, [] => ([], [])
  | addrs, st :: l =>
    if st.bytes.any (fun p => addrs.contains p.1) then
      let r := overlapSplit (addrs ++ st.bytes.map (fun p => p.1)) l
      (st :: r.1, r.2)
    else
      let r := overlapSplit addrs l
      (r.1, st :: r.2)

/-- Remove from commit effects the stores that have been released. -/
def keepStores (out : List HStore) : List Eff → List Eff
  | [] => []
  | .store st :: l => if out.contains st then keepStores out l else .store st :: keepStores out l
  | e :: l => e :: keepStores out l

/-- Held stores of the agent that overlap the bytes are released ahead of the atomic (R229), behind the releases of its
own instance. -/
def releaseOverlap (s0 : State) (b0 : BInst) (addrs : List Nat) : State × BInst :=
  let (s, b) := settle s0 b0
  let o := originOf s b b.pc 2
  match findInv s b.inv with
  | none =>
    let r := overlapSplit addrs (effStores b.effs).reverse
    (homeWrites o s r.1.reverse, { b with effs := keepStores r.1 b.effs })
  | some v =>
    let own := overlapSplit addrs (effStores b.effs).reverse
    let old := overlapSplit (addrs ++ (own.1.map (fun st => st.bytes.map (fun p => p.1))).flatten) v.held.reverse
    (homeWrites o (putInv s { v with held := old.2.reverse }) (old.1.reverse ++ own.1.reverse), { b with effs := keepStores own.1 b.effs })

/-- What ORD and overlap release ahead of an atomic. -/
def atomicRelease (s : State) (b : BInst) (ord : Ord) (addrs : List Nat) : State × BInst :=
  match ord with
  | .rel => releaseNow s b
  | .acqrel => releaseNow s b
  | _ => releaseOverlap s b addrs

/-- What ORD acquires after it. -/
def atomicAcquire (s : State) (b : BInst) (ord : Ord) (sc : Scope) : State :=
  match ord with
  | .acq => acquire s b sc
  | .acqrel => acquire s b sc
  | _ => s

/-- The linked cache bank writes back and drops its copy of the line (R249). -/
def bankDrop (s : State) (b : BInst) (pa : Nat) : State :=
  match bankOf s b.node with
  | some m => { s with bank := s.bank.filter (fun l => !(l.cell == m && l.line == pa / 64)) }
  | none => s

/-- A step on a virtual line is performed at its Dome (R212). -/
def domeTouch (s : State) (pl : Place) : State := if pl.via.isSome then domeAccess s (pl.addrs.headD 0) 0 else s

/-- The number at some bytes of memory. -/
def readAddrs (s : State) : List Nat → Nat
  | [] => 0
  | a :: l => (byteAt s.mem a).toNat + 256 * readAddrs s l

/-- A write performed at the home, with its metadata and wakes, whatever the word's type. -/
def performWrite (s : State) (st : HStore) : State :=
  { s with mem := putBytes s.mem st.bytes, lines := storeMeta s st, monitors := wakeAll s.now s.monitors st.bytes }

/-! ### Atomics (R249, R250) -/

/-- The result of each atomic on old and its operands, w bits each. -/
def atResult (op : AtOp) (w old b c : Nat) : Nat :=
  match op with
  | .add => (old + b) % 2 ^ w
  | .and => old &&& b
  | .or => old ||| b
  | .xor => old ^^^ b
  | .minS => aluMin true w old b
  | .minU => aluMin false w old b
  | .maxS => aluMax true w old b
  | .maxU => aluMax false w old b
  | .xch => b
  | .cas => if old = b then c else old

/-- An atomic of width w: `f` gives the new value from the old one and the operands; one that is no PCIe AtomicOp does
not reach host memory without CXL.cache (R404). -/
def atomicOp (h : Hdr) (p : PayW) (s : State) (w : Nat) (isOr isCas pcie : Bool) (pre : BInst → Option Report)
    (f : BInst → Nat → Nat → Nat → Nat) : Result :=
  memOp h s (fun b xs =>
    match pre b with
    | some r => raise s b r
    | none =>
      match baseOf (spOf p) (xs.getD 0 noVal), (xs.drop 1).mapM (dataOf w) with
      | some base, some ds =>
        match effAddr s b (spOf p) 0 (base + p.ofs.toInt) (w / 8) 0 true true with
        | .error r => raise s b r
        | .ok pl =>
          let t := if pl.via.isSome then typeAt s (pl.addrs.headD 0) else 0
          if hostUncached s (pl.addrs.headD 0) && pl.via.isSome && !pcie then raise s b (failAt .permission pl.ea)
          else if t = 1 ∨ (t = 2 ∧ isOr = false) then raise s b (liveReport 0 (pl.addrs.headD 0))
          else
            let r := atomicRelease s b p.ord pl.addrs
            let s1 := domeTouch (bankDrop r.1 b (pl.addrs.headD 0)) pl
            let old := readAddrs s1 pl.addrs
            let new := f b old (ds.getD 0 0) (ds.getD 1 0)
            let s2 := performWrite s1 (storeAt pl new)
            let s3 := atomicAcquire s2 b p.ord p.scope
            let v := if w = 64 then word64 (BitVec.ofNat 64 old) else word32 old
            finishLoad s3 h (markDurable r.2) v (if isCas then old == ds.getD 0 0 else old != 0)
      | _, _ => deliverOff s h b)

/-- An integer atomic. -/
def intAtomic (h : Hdr) (p : PayW) (s : State) (op : AtOp) : Result :=
  let w := codeWidth h.fmt
  atomicOp h p s w (op == .or) (op == .cas) (op == .add || op == .xch || op == .cas) (fun _ => none) (fun _ old x y => atResult op w old x y)

/-- ATADD (R249). -/
def execAtadd (h : Hdr) (p : PayW) (s : State) : Result := intAtomic h p s .add

/-- ATAND (R249). -/
def execAtand (h : Hdr) (p : PayW) (s : State) : Result := intAtomic h p s .and

/-- ATOR (R249): allowed on a live bitmap word, which stays live. -/
def execAtor (h : Hdr) (p : PayW) (s : State) : Result := intAtomic h p s .or

/-- ATXOR (R249). -/
def execAtxor (h : Hdr) (p : PayW) (s : State) : Result := intAtomic h p s .xor

/-- ATMIN (R249). -/
def execAtmin (h : Hdr) (p : PayW) (s : State) : Result := intAtomic h p s (if codeSigned h.fmt then .minS else .minU)

/-- ATMAX (R249). -/
def execAtmax (h : Hdr) (p : PayW) (s : State) : Result := intAtomic h p s (if codeSigned h.fmt then .maxS else .maxU)

/-- ATXCH (R249). -/
def execAtxch (h : Hdr) (p : PayW) (s : State) : Result := intAtomic h p s .xch

/-- ATCAS (R249). -/
def execAtcas (h : Hdr) (p : PayW) (s : State) : Result := intAtomic h p s .cas

/-- The entry that ATFADD cannot use. -/
def atfaddBad (s : State) (b : BInst) (h : Hdr) : Option Nat :=
  let x := entryWord s b h.fmt.toNat
  if legalEntry x && (Fmt.ofWord x).block == 0 && (Fmt.ofWord x).cont == 32 then none else some h.fmt.toNat

/-- ATFADD (R250): refused in replay mode; its entry is legal and unblocked with a 32-bit container. -/
def execAtfadd (h : Hdr) (p : PayW) (s : State) : Result :=
  let i := h.fmt.toNat
  atomicOp h p s 32 false false false
    (fun b =>
      if (atfaddBad s b h).isSome then some { cause := .formatEntry, entry := i }
      else if (nodeCtx s b.node).replay then some (fail .replayNondet)
      else none)
    (fun b old x _ =>
      let e := entryOf s b i
      roundNum (sumNums (resolveRnd h.rnd e == .rdn) [decodeElem e old, decodeElem e x]) e h.rnd ((srOf s b).noise 0))

/-! ### Barrier words (R251–R253) -/

/-- Fields of a barrier word. -/
def barGen (w : Nat) : Nat := bits w 63 32
def barExpect (w : Nat) : Nat := bits w 31 16
def barArrived (w : Nat) : Nat := bits w 15 0

/-- Set the type of the word at a physical address. -/
def setType (s : State) (pa t : Nat) : State := { s with wtype := mput 0 s.wtype (pa / 8) t }

/-- BINIT (R252): one atomic step at the home, which writes the word and sets its type. -/
def execBinit (h : Hdr) (p : PayW) (s : State) : Result :=
  memOp h s (fun b xs =>
    match baseOf false (xs.getD 0 noVal) with
    | none => deliverOff s h b
    | some base =>
      match effAddr s b false 0 (base + p.ofs.toInt) 8 0 false true with
      | .error r => raise s b r
      | .ok pl =>
        match elemOf 64 (xs.getD 1 noVal) 0 with
        | none => let r := atomicRelease s b p.ord []; putInst r.1 (skipInst h (markDurable r.2))
        | some w =>
          if p.mctl.toNat % 4 = 1 ∧ (barExpect w = 0 ∨ barExpect w ≤ barArrived w) then
            raise s b { cause := .illegalEncoding, detail := 5, addr := pl.ea }
          else if hostUncached s (pl.addrs.headD 0) then raise s b (failAt .permission pl.ea)
          else
            let r := atomicRelease s b p.ord pl.addrs
            let s1 := performWrite (domeTouch (bankDrop r.1 b (pl.addrs.headD 0)) pl) (storeAt pl w)
            putInst (setType s1 (pl.addrs.headD 0) (p.mctl.toNat % 4)) (skipInst h (markDurable r.2)))

/-- One arrival: the new word, the generation arrived in, and whether it was the last (R253). -/
def arriveWord (w : Nat) : Nat × Nat × Bool :=
  let a := barArrived w + 1
  if a = barExpect w then ((barGen w + 1) % 2 ^ 32 * 2 ^ 32 + barExpect w * 2 ^ 16, barGen w, true)
  else (barGen w * 2 ^ 32 + barExpect w * 2 ^ 16 + a % 2 ^ 16, barGen w, false)

/-- BARR (R253). -/
def execBarr (h : Hdr) (p : PayW) (s : State) : Result :=
  memOp h s (fun b xs =>
    match baseOf false (xs.getD 0 noVal) with
    | none => deliverOff s h b
    | some base =>
      match effAddr s b false 0 (base + p.ofs.toInt) 8 0 true true with
      | .error r => raise s b r
      | .ok pl =>
        if hostUncached s (pl.addrs.headD 0) then raise s b (failAt .permission pl.ea)
        else
        let r := releaseNow s b
        if typeAt r.1 (pl.addrs.headD 0) ≠ 1 then raise r.1 r.2 { cause := .permission, detail := 6, addr := pl.addrs.headD 0 }
        else
          let s1 := domeTouch (bankDrop r.1 b (pl.addrs.headD 0)) pl
          let a := arriveWord (readAddrs s1 pl.addrs)
          finishLoad (performWrite s1 (storeAt pl a.1)) h (markDurable r.2) (firstSlots [BitVec.ofNat 32 a.2.1, if a.2.2 then 1 else 0]) a.2.2)

end Sys2Proof.Machine
end

