-- ==== Sys2Proof/Machine/Lane.lean ====
section
/-! DEFINITION. Lane and token instructions, opcodes 0x180–0x18F (R150–R153). -/

namespace Sys2Proof.Machine

/-! ### Slot moves (R151): a slot takes its value and its valid bit from its source -/

/-- A slot-move instruction: 32-bit slots are its elements. -/
def slotOp (h : Hdr) (p : PayL) (s : State) (f : List Val → Val) : Result :=
  pureOp h (k0Const p.k0) 0 s (fun _ xs => let v := f xs; same v (predElem 32 v))

def arg (xs : List Val) (i : Nat) : Val := xs.getD i noVal

/-- LBCAST (R151). -/
def execLbcast (h : Hdr) (p : PayL) (s : State) : Result :=
  slotOp h p s (fun xs => valOf (fun _ => slotOf (arg xs 0) (p.lctl.toNat % 16)))

/-- LSHUF (R151): slot i of x, with i from the low four bits of the index slot. -/
def execLshuf (h : Hdr) (p : PayL) (s : State) : Result :=
  slotOp h p s (fun xs => valOf (fun k => (slotOf (arg xs 1) k).bind (fun i => slotOf (arg xs 0) (i.toNat % 16))))

/-- LROT (R151). -/
def execLrot (h : Hdr) (p : PayL) (s : State) : Result :=
  slotOp h p s (fun xs => valOf (fun k => slotOf (arg xs 0) ((k + 16 - p.lctl.toNat % 16) % 16)))

/-- LSEL (R151). -/
def execLsel (h : Hdr) (p : PayL) (s : State) : Result :=
  slotOp h p s (fun xs => valOf (fun k => if p.lctl.getLsbD k then slotOf (arg xs 1) k else slotOf (arg xs 0) k))

/-- VMASK (R151). -/
def execVmask (h : Hdr) (p : PayL) (s : State) : Result :=
  slotOp h p s (fun xs =>
    let mask : BitVec 16 := if h.nopd = 1 then p.lctl else ((slotOf (arg xs 1) 0).getD 0).setWidth 16
    valOf (fun k => if mask.getLsbD k then slotOf (arg xs 0) k else none))

/-- VGET (R151). -/
def execVget (h : Hdr) (p : PayL) (s : State) : Result := slotOp h p s (fun xs => word32 (arg xs 0).valid.toNat)

/-! ### One result per element (R152) -/

/-- LIOTA (R152). -/
def execLiota (h : Hdr) (p : PayL) (s : State) : Result :=
  pureOp h (k0Const p.k0) 0 s (fun _ xs =>
    let w := codeWidth h.fmt
    let base : Option Nat := match xs with
      | [] => some 0
      | x :: _ => elemOf w x 0
    let v := match base with
      | none => noVal
      | some b => ofElems w ((List.range (elemCount w)).map (fun n => some ((b + n) % 2 ^ w)))
    same v (predElem w v))

/-- The terms of the running sums: the valid elements up to each element, in order. -/
def prefixes (e : Fmt) : List Num → List (Option Nat) → List (Option (List Num))
  | _, [] => []
  | acc, none :: l => none :: prefixes e acc l
  | acc, some x :: l => let a := acc ++ [decodeElem e x]; some a :: prefixes e a l

/-- LSCAN (R152): the prefix sums, each rounded once. -/
def execLscan (h : Hdr) (p : PayL) (s : State) : Result :=
  fmtOp h (k0Const p.k0) s (vectorCheck s h) (fun b xs =>
    let e := entryOf s b h.fmt.toNat
    let down := resolveRnd h.rnd e == .rdn
    let sums := prefixes e [] (elems e.cont (arg xs 0))
    let v := ofElems e.cont ((enumFrom 0 sums).map (fun q => q.2.map (fun l => roundNum (sumNums down l) e h.rnd ((srOf s b).noise q.1))))
    same v (predElem e.cont v))

/-! ### Reductions (R153) -/

/-- A float reduction: nothing valid when no element is. -/
def floatReduce (h : Hdr) (p : PayL) (s : State) (f : Fmt → (Nat → Nat) → List Nat → Nat) : Result :=
  fmtOp h (k0Const p.k0) s (vectorCheck s h) (fun b xs =>
    let e := entryOf s b h.fmt.toNat
    let l := (elems e.cont (arg xs 0)).filterMap id
    let v := if l = [] then noVal else word32 (f e (srOf s b).noise l)
    same v (predElem e.cont v))

/-- RSUM (R153): the exact sum, rounded once; elem is 0. -/
def execRsum (h : Hdr) (p : PayL) (s : State) : Result :=
  floatReduce h p s (fun e noise l => roundNum (sumNums (resolveRnd h.rnd e == .rdn) (nums e l)) e h.rnd (noise 0))

/-- The code that FMAX, or FMIN, leaves of a list (R146).  R146 speaks of two elements: of one valid element alone the code
stands as it is, a NaN's too (assumption 53). -/
def foldCode (e : Fmt) (big : Bool) : List Nat → Nat
  | [] => 0
  | a :: l => l.foldl (pickCode e big) a

/-- RMAX (R153). -/
def execRmax (h : Hdr) (p : PayL) (s : State) : Result := floatReduce h p s (fun e _ l => foldCode e true l)

/-- RMIN (R153). -/
def execRmin (h : Hdr) (p : PayL) (s : State) : Result := floatReduce h p s (fun e _ l => foldCode e false l)

/-- An integer reduction of the elements read by type, placed in slot 0, or slots 0 and 1 for 64 bits; its
predicate bit reads the whole result. -/
def intReduce (h : Hdr) (p : PayL) (s : State) (f : Bool → Nat → List Nat → Int) : Result :=
  pureOp h (k0Const p.k0) 0 s (fun _ xs =>
    let w := codeWidth h.fmt
    let l := (elems w (arg xs 0)).filterMap id
    let r := f (codeSigned h.fmt) w l
    let v := if l = [] then noVal else if w = 64 then word64 (BitVec.ofInt 64 r) else word32 (wrapInt 32 r)
    same v (predElem (if w = 64 then 64 else 32) v))

/-- RISUM (R153). -/
def execRisum (h : Hdr) (p : PayL) (s : State) : Result :=
  intReduce h p s (fun sg w l => (l.map (readInt sg w)).foldl (· + ·) 0)

/-- RIMAX (R153). -/
def execRimax (h : Hdr) (p : PayL) (s : State) : Result :=
  intReduce h p s (fun sg w l => (l.map (readInt sg w)).foldl max (intMin sg w))

/-- RIMIN (R153). -/
def execRimin (h : Hdr) (p : PayL) (s : State) : Result :=
  intReduce h p s (fun sg w l => (l.map (readInt sg w)).foldl min (intMax sg w))

/-- RAND (R153). -/
def execRand (h : Hdr) (p : PayL) (s : State) : Result :=
  intReduce h p s (fun _ w l => ((l.foldl (fun a b => a &&& b) (2 ^ w - 1) : Nat) : Int))

/-- ROR (R153). -/
def execRor (h : Hdr) (p : PayL) (s : State) : Result :=
  intReduce h p s (fun _ _ l => ((l.foldl (fun a b => a ||| b) 0 : Nat) : Int))

end Sys2Proof.Machine
end

