-- ==== Sys2Proof/Machine/Convert.lean ====
section
/-! DEFINITION. Convert and quantise instructions, opcodes 0x1C0–0x1C8 (R154–R159). -/

namespace Sys2Proof.Machine

/-! ### Entry checks at fetch (R154) -/

def plainEntry (x : Word64) : Bool := legalEntry x && (Fmt.ofWord x).block == 0
def blockedEntry (x : Word64) : Bool := legalEntry x && (Fmt.ofWord x).block != 0
def contOf (x : Word64) : Nat := (Fmt.ofWord x).cont

/-- The first entry that fails: the source by `src`, then the destination by `dst` given the source. -/
def cvtCheck (s : State) (h : Hdr) (p : PayV) (src : Word64 → Bool) (dst : Word64 → Word64 → Bool) (b : BInst) : Option Nat :=
  let x := entryWord s b h.fmt.toNat
  let y := entryWord s b p.dfmt.toNat
  if !src x then some h.fmt.toNat else if !dst x y then some p.dfmt.toNat else none

/-- Source and destination containers, both unblocked. -/
def contPair (cs cd : Nat → Bool) : (Word64 → Bool) × (Word64 → Word64 → Bool) :=
  (fun x => plainEntry x && cs (contOf x), fun _ y => plainEntry y && cd (contOf y))

/-- The entry checks of each instruction (R154). -/
def cvtBad (s : State) (h : Hdr) (p : PayV) : BInst → Option Nat := cvtCheck s h p plainEntry (fun x y => plainEntry y && contOf x == contOf y)

def cvtiBad (s : State) (h : Hdr) (p : PayV) (b : BInst) : Option Nat :=
  let x := entryWord s b h.fmt.toNat
  if plainEntry x && contOf x == codeWidth p.dfmt then none else some h.fmt.toNat

def cvtfBad (s : State) (h : Hdr) (p : PayV) (b : BInst) : Option Nat :=
  let y := entryWord s b p.dfmt.toNat
  if plainEntry y && contOf y == codeWidth h.fmt then none else some p.dfmt.toNat

def pairBad (s : State) (h : Hdr) (p : PayV) (cs cd : Nat → Bool) : BInst → Option Nat := cvtCheck s h p (contPair cs cd).1 (contPair cs cd).2

def cvpk2Bad (s : State) (h : Hdr) (p : PayV) : BInst → Option Nat := pairBad s h p (· == 32) (· == 16)

def cvpk4Bad (s : State) (h : Hdr) (p : PayV) : BInst → Option Nat := pairBad s h p (· == 32) (fun n => (n == 8 && !p.vctl.getLsbD 0) || n == 4)

def unpk2Bad (s : State) (h : Hdr) (p : PayV) : BInst → Option Nat := pairBad s h p (· == 16) (· == 32)

def unpk4Bad (s : State) (h : Hdr) (p : PayV) : BInst → Option Nat := pairBad s h p (fun n => (n == 8 && decide (p.vctl.toNat < 4)) || n == 4) (· == 32)

/-- G of QBLK is a multiple of max(32 / C, b / 16) (R154). -/
def qblkGroupOk (g : Nat) (d : Fmt) : Bool := g % max (32 / d.cont) (d.block / 16) == 0

def qblkBad (s : State) (h : Hdr) (p : PayV) : BInst → Option Nat :=
  cvtCheck s h p (fun x => plainEntry x && contOf x == 32) (fun _ y => blockedEntry y && qblkGroupOk (p.vctl.toNat + 1) (Fmt.ofWord y))

def qapplyBad (s : State) (h : Hdr) (p : PayV) : BInst → Option Nat := cvtCheck s h p blockedEntry (fun _ y => plainEntry y && contOf y == 32)

/-- A conversion: its check, and its result under both entries and the noise of its coordinates. -/
def cvtOp (h : Hdr) (p : PayV) (s : State) (check : BInst → Option Nat) (f : Fmt → Fmt → (Nat → Nat) → List Val → Val)
    (w : Fmt → Nat) : Result :=
  fmtOp h (k0Const p.k0) s check (fun b xs =>
    let d := entryOf s b p.dfmt.toNat
    let v := f (entryOf s b h.fmt.toNat) d (srOf s b).noise xs
    same v (predElem (w d) v))

/-! ### Element-wise conversions (R155) -/

/-- CVT (R155). -/
def execCvt (h : Hdr) (p : PayV) (s : State) : Result :=
  cvtOp h p s (cvtBad s h p)
    (fun a d noise xs => mapElems d.cont xs (fun n l => convert (l.getD 0 0) a d h.rnd (noise n))) Fmt.cont

/-- A float value to an integer of a type: rounded, then saturated; rnd 0b111 selects RNE. -/
def toIntCode (e : Fmt) (m : Rnd) (sg : Bool) (w noise x : Nat) : Nat :=
  let mode := if m = .dflt then .rne else m
  match (decodeElem e x).toExact with
  | .nan => 0
  | .inf neg => wrapInt w (if neg then intMin sg w else intMax sg w)
  | .rat neg n d => let r : Int := roundInt mode neg n d noise; satInt sg w (if neg then -r else r)

/-- CVTI (R155): DFMT is an integer code. -/
def execCvti (h : Hdr) (p : PayV) (s : State) : Result :=
  let w := codeWidth p.dfmt
  fmtOp h (k0Const p.k0) s (cvtiBad s h p)
    (fun b xs =>
      let v := mapElems w xs (fun n l => toIntCode (entryOf s b h.fmt.toNat) h.rnd (codeSigned p.dfmt) w ((srOf s b).noise n) (l.getD 0 0))
      same v (predElem w v))

/-- CVTF (R155): fmt is an integer code. -/
def execCvtf (h : Hdr) (p : PayV) (s : State) : Result :=
  let w := codeWidth h.fmt
  fmtOp h (k0Const p.k0) s (cvtfBad s h p)
    (fun b xs =>
      let v := mapElems w xs (fun n l => roundNum (.ofInt (readInt (codeSigned h.fmt) w (l.getD 0 0))) (entryOf s b p.dfmt.toNat) h.rnd ((srOf s b).noise n))
      same v (predElem w v))

/-! ### Packing and unpacking (R156) -/

/-- A slot packed from the converted 32-bit sources, element `off + j` from source j. -/
def packSlot (a d : Fmt) (m : Rnd) (noise : Nat → Nat) (off : Nat) (k : Nat) (l : List Slot) : Slot :=
  let per := 32 / d.cont
  let code (q : Nat × Slot) : Option Nat := some (convert q.2.toNat a d m (noise (k * per + off + q.1)))
  BitVec.ofNat 32 (packElems d.cont (List.replicate off none ++ (enumFrom 0 l).map code))

def packVal (a d : Fmt) (m : Rnd) (noise : Nat → Nat) (off : Nat) (xs : List Val) : Val :=
  valOf (fun k => (xs.mapM (fun v => slotOf v k)).map (packSlot a d m noise off k))

/-- CVPK2 (R156). -/
def execCvpk2 (h : Hdr) (p : PayV) (s : State) : Result :=
  cvtOp h p s (cvpk2Bad s h p) (fun a d noise xs => packVal a d h.rnd noise 0 xs) Fmt.cont

/-- CVPK4 (R156): HI places 4-bit elements in the upper half. -/
def execCvpk4 (h : Hdr) (p : PayV) (s : State) : Result :=
  let hi := p.vctl.getLsbD 0
  cvtOp h p s (cvpk4Bad s h p) (fun a d noise xs => packVal a d h.rnd noise (if hi then 4 else 0) xs) Fmt.cont

/-- Element j of every slot, converted to 32 bits. -/
def unpackVal (a d : Fmt) (m : Rnd) (noise : Nat → Nat) (j : Nat) (x : Val) : Val :=
  valOf (fun k => (slotOf x k).map (fun w => BitVec.ofNat 32 (convert (w.toNat / 2 ^ (a.cont * j) % 2 ^ a.cont) a d m (noise k))))

/-- UNPK2 (R156). -/
def execUnpk2 (h : Hdr) (p : PayV) (s : State) : Result :=
  cvtOp h p s (unpk2Bad s h p) (fun a d noise xs => unpackVal a d h.rnd noise p.vctl.toNat (arg xs 0)) Fmt.cont

/-- UNPK4 (R156): 8-bit sources allow J 0–3, 4-bit ones 0–7. -/
def execUnpk4 (h : Hdr) (p : PayV) (s : State) : Result :=
  cvtOp h p s (unpk4Bad s h p) (fun a d noise xs => unpackVal a d h.rnd noise p.vctl.toNat (arg xs 0)) Fmt.cont

/-! ### Blocked formats (R157–R159) -/

/-- The output of a full group: one SCALE token, then the DATA tokens (R158). -/
def groupOutput (src dst : Word64) (m : Rnd) (sr : SrCtx) (t : Tag) (toks : List Val) : List Token :=
  let a := Fmt.ofWord src
  let e := Fmt.ofWord dst
  let vals : List (Option Num) := (toks.map (fun x => (elems 32 x).map (fun o => o.map (decodeElem a)))).flatten
  let nb := vals.length / e.block
  let blk (i : Nat) : QBlock :=
    quantBlock ((vals.drop (i * e.block)).take e.block) e m ((List.range e.block).map (fun j => { sr with ord := i * e.block + j }.noise 0))
  let bs := (List.range nb).map blk
  let hdrs := bs.map (fun q => some q.hdr)
  let hvalid := (List.range 16).map (fun k => decide (k < (nb + 1) / 2))
  let scale : Val := { valid := BitVec.ofNat 16 (packBits hvalid), slots := BitVec.ofNat 512 (packElems 16 hdrs) }
  let codes := (bs.map (fun q => q.codes)).flatten
  let per := 512 / e.cont
  let d := (toks.length * e.cont + 31) / 32
  let dataVal (i : Nat) : Val :=
    let cs := ((codes.zip vals).drop (i * per)).take per
    let bits := (List.range 16).map (fun k => ((cs.drop (k * (32 / e.cont))).take (32 / e.cont)).any (fun q => q.2.isSome))
    cleanVal { valid := BitVec.ofNat 16 (packBits bits), slots := BitVec.ofNat 512 (packElems e.cont (cs.map (fun q => some q.1))) }
  { tag := t, kind := .scale, aux := BitVec.ofNat 12 d, val := scale } ::
    (List.range d).map (fun i => dataTok t 0 (dataVal i))

/-- QBLK (R158): the token joins its key's group at commit. -/
def execQblk (h : Hdr) (p : PayV) (s : State) : Result :=
  let g := p.vctl.toNat + 1
  withOps h (k0Const p.k0) s
    (skipInst h)
    (fun b xs =>
      match qblkBad s h p b with
      | some i => raiseFormat s b i
      | none =>
        let port := match h.t0 with
          | .chan q => q.toNat
          | _ => 0
        putInst s (advance 1 (addEff (.qblk port g (entryWord s b h.fmt.toNat) (entryWord s b p.dfmt.toNat) h.rnd ((srOf s b).seed, b.blk, b.pc) (arg xs 0)) b)))

/-- One 32-bit slot of QAPPLY (R159). -/
def qapplySlot (a d : Fmt) (m : Rnd) (noise : Nat → Nat) (j kk : Nat) (x sc : Val) (k : Nat) : Option Slot :=
  let per := 512 / a.cont
  let n := 16 * j + k
  let hh := (kk * per + n) / a.block
  if per ≤ n ∨ 32 ≤ hh then none
  else match elemOf a.cont x n, elemOf 16 sc hh with
    | some code, some hdr => some (BitVec.ofNat 32 (roundNum (blockElem a hdr code) d m (noise k)))
    | _, _ => none

/-- QAPPLY (R159). -/
def execQapply (h : Hdr) (p : PayV) (s : State) : Result :=
  cvtOp h p s (qapplyBad s h p)
    (fun a d noise xs => valOf (qapplySlot a d h.rnd noise (p.vctl.toNat % 8) (p.vctl.toNat / 8) (arg xs 0) (arg xs 1))) Fmt.cont

end Sys2Proof.Machine
end

