-- ==== Sys2Proof/Machine/Block.lean ====
section
/-! DEFINITION. Blocks: the block header (R84) and the load checks of whole blocks and nodes (R38, R79, R85,
R87, R90–R93, R105, R157, R162, R188, R255, R288, R298, R380, R385). -/

namespace Sys2Proof.Machine

/-! ### The block header (R84) -/

/-- NSLOT + 1, the number of slots. -/
def hdrSlots (h : Word128) : Nat := bits h.toNat 127 121 + 1
def hdrHreg (h : Word128) : Bool := h.getLsbD 120
def hdrNest (h : Word128) : Bool := h.getLsbD 119
def hdrNmem (h : Word128) : Nat := bits h.toNat 118 112

/-- An input mapping. -/
structure InMap where
  port : Nat
  pk : Bool
  slot : Nat
  pos : Nat
  deriving DecidableEq, Repr

/-- The 16 bits of MAP i. -/
def mapBits (h : Word128) (i : Nat) : Nat := bits h.toNat (16 * i + 15) (16 * i)

def readMap (e : Nat) : InMap := { port := bits e 14 11, pk := bits e 10 10 == 1, slot := bits e 9 3, pos := bits e 2 0 }

/-- The used input mappings, in order. -/
def mapsOf (h : Word128) : List InMap := (((List.range 7).map (mapBits h)).filter (fun e => bits e 15 15 == 1)).map readMap

/-- The ports that a block reads (R34). -/
def portsOf (h : Word128) : List Nat := ((mapsOf h).map (fun m => m.port)).eraseDups

/-- The checks of R85 and R93 on the mappings themselves. -/
def mapsOk (h : Word128) (blk : Nat) : Bool :=
  let l := (List.range 7).map (mapBits h)
  let used := l.takeWhile (fun e => bits e 15 15 == 1)
  let ms := mapsOf h
  (l.drop used.length).all (· == 0)
    && ms.all (fun m => (if m.pk then decide (m.pos ≤ 1) else decide (m.pos ≤ 4)) && (blk == 0 || decide (m.port ≤ 4)))
    && ms.all (fun m => decide ((ms.filter (fun x => x.port == m.port)).length ≤ 2))

/-! ### The instructions of a block -/

/-- An instruction in its slot, with its op and common header. -/
structure BSlot where
  slot : Nat
  op : Nat
  h : Hdr
  i : Instr

/-- One instruction from slot words. -/
def readSlot (n : Nat) (w w1 : Word128) : Option BSlot :=
  match decodeMain w.toNat w1.toNat, Hdr.read (w.toNat / 2 ^ 64 % 2 ^ 64) with
  | .ok i, some (op, h) => some { slot := n, op := op, h := h, i := i }
  | _, _ => none

/-- The instructions of the slots from `n` on; none where a word is no well-formed instruction. -/
def readSlots : Nat → List Word128 → Option (List BSlot)
  | _, [] => some []
  | n, [w] => if isNestWord w then none else (readSlot n w 0).map (fun x => [x])
  | n, w :: w1 :: l =>
    if isNestWord w then
      match readSlot n w w1, readSlots (n + 2) l with
      | some x, some r => some (x :: r)
      | _, _ => none
    else
      match readSlot n w 0, readSlots (n + 1) (w1 :: l) with
      | some x, some r => some (x :: r)
      | _, _ => none

def inOps (lo hi op : Nat) : Bool := decide (lo ≤ op) && decide (op ≤ hi)

/-- Instructions of opcodes 0x240–0x2FF. -/
def isMemOp (op : Nat) : Bool := inOps 0x240 0x2FF op
/-- Matrix instructions. -/
def isMatOp (op : Nat) : Bool := inOps 0x200 0x20A op
def isExitOp (op : Nat) : Bool := inOps 0x001 0x003 op
def isNestOp (op : Nat) : Bool := inOps 0x020 0x02B op
def isWaitOp (op : Nat) : Bool := inOps 0x2DA 0x2DC op
/-- Accesses that set HREG: counters, matrix instructions, HRD and HWR (R50, R102, R161). -/
def isHregOp (op : Nat) : Bool := inOps 0x010 0x012 op || isMatOp op || inOps 0x386 0x387 op

/-- What an address-generator cell runs (R23, R105, R261). -/
def agenOp (op : Nat) : Bool := inOps 0x001 0x014 op || op == 0x020 || inOps 0x080 0x0BF op || inOps 0x300 0x33F op

/-- The wave numbering of R79. -/
def waves : List BSlot → Nat → Bool
  | [], _ => true
  | x :: l, k =>
    let last := l.isEmpty
    let w := ((encode x.i).map (fun e => e.2)).getD 0
    bits w 63 57 == k && bits w 56 50 == k - 1 && bits w 49 43 == (if last then 127 else k + 1) && waves l (k + 1)

/-! ### Positions and what fills them (R38) -/

/-- The key of a data position, or of a predicate position. -/
def posKey (pk : Bool) (slot pos : Nat) : Nat := 16 * slot + (if pk then 8 else 0) + pos

def targetKey : Target → List Nat
  | .operand s p => [posKey false s.toNat p.toNat]
  | .pred s p => [posKey true s.toNat p.toNat]
  | _ => []

def forwardTarget (slot : Nat) : Target → Bool
  | .operand s _ => decide (slot < s.toNat)
  | .pred s _ => decide (slot < s.toNat)
  | _ => true

/-- The positions that an instruction reads. -/
def readsOf (x : BSlot) : List Nat :=
  (List.range x.h.nopd.toNat).map (posKey false x.slot)
    ++ (if x.h.gd.m0 = .none then [] else [posKey true x.slot 0]) ++ (if x.h.gd.m1 = .none then [] else [posKey true x.slot 1])

/-- The positions that it fills, by its targets and constants. -/
def fillsOf (x : BSlot) : List Nat :=
  targetKey x.h.t0 ++ targetKey x.h.t1 ++ ((List.range 5).filter (fun p => x.h.imask.getLsbD p)).map (posKey false x.slot)

/-- Every position read is filled once, and nothing else is filled. -/
def filledOnce (h : Word128) (l : List BSlot) : Bool :=
  let reads := (l.map readsOf).flatten
  let fills := (l.map fillsOf).flatten ++ (mapsOf h).map (fun m => posKey m.pk m.slot m.pos)
  reads.all (fun k => fills.count k == 1) && fills.all reads.contains

/-- The channel targets of a block (R288). -/
def chanTargets (l : List BSlot) : Nat := (l.map (fun x => (if x.h.t0.isChan then 1 else 0) + (if x.h.t1.isChan then 1 else 0))).foldl (· + ·) 0

/-- The destinations of an exit, and how many values it carries. -/
def exitDests (x : BSlot) : List Nat × Nat :=
  match x.i with
  | .br h p => ([p.blk.toNat], h.nopd.toNat)
  | .brx h p => ((List.range (p.cctl.toNat % 64 + 1)).map (fun k => p.blk.toNat + k), h.nopd.toNat - 1)
  | _ => ([], 0)

/-- The rules on what may stand together in one block. -/
def blockMix (blk : Nat) (l : List BSlot) : Bool :=
  let ops := l.map (fun x => x.op)
  let n (f : Nat → Bool) : Nat := (ops.filter f).length
  let waits := l.filter (fun x => isWaitOp x.op)
  decide (1 ≤ n isExitOp)
    && decide (n isNestOp ≤ 1) && (n isNestOp == 0 || (blk == 0 && n isMemOp == 0))
    && decide (n (fun o => isMatOp o && o != 0x208) ≤ 1)
    && (!ops.any (fun o => o == 0x201 || o == 0x202 || o == 0x204 || o == 0x206) || n isMemOp == 0)
    && decide (waits.length ≤ 1)
    && waits.all (fun x => blk == 0 && (ops.filter isMemOp).head? == some x.op)
    && decide (n (· == 0x341) ≤ 1) && decide (n (· == 0x381) ≤ 1) && decide (n (· == 0x385) ≤ 1)
    && (!ops.contains 0x381 || blk == 0)
    && (!ops.contains 0x1C7 || (blk == 0 && n (fun o => o != 0x1C7 && o != 0x001) == 0 && l.length == 2))
    && decide (chanTargets l ≤ 8)
    && l.all (fun x => (exitDests x).1.all (fun d => d != 0 && decide (d ≤ 63)))

/-- The checks of R87 on one block of a node on a compute (`true`) or address-generator cell. -/
def blockOk (compute : Bool) (blk : Nat) (hdr : Word128) (code : List Word128) : Bool :=
  match readSlots 0 code with
  | none => false
  | some l =>
    let mems := l.filter (fun x => isMemOp x.op)
    decide (1 ≤ code.length) && decide (code.length ≤ 128) && hdrSlots hdr == code.length
      && (compute || l.all (fun x => agenOp x.op))
      && mapsOk hdr blk && hdrNmem hdr == mems.length && waves mems 1
      && hdrNest hdr == l.any (fun x => isNestOp x.op)
      && (hdrHreg hdr || !l.any (fun x => isHregOp x.op))
      && l.all (fun x => forwardTarget x.slot x.h.t0 && forwardTarget x.slot x.h.t1)
      && filledOnce hdr l && blockMix blk l

/-! ### Nodes (R92, R93, R104, R162, R188) -/

/-- One past the highest PORT that a block maps. -/
def portNeed (h : Word128) : Nat := (mapsOf h).foldl (fun a m => max a (m.port + 1)) 0

/-- An exit reaches blocks of the node that it carries enough values to. -/
def exitOk (blocks : List (Nat × Word128 × List Word128)) (x : BSlot) : Bool :=
  (exitDests x).1.all (fun d => (match blocks.find? (fun b => b.1 == d) with
    | some b => decide (portNeed b.2.1 ≤ (exitDests x).2)
    | none => false))

/-- What an instruction needs of its node: defined successors, a lantern node, a linked scratchpad. -/
def nodeOk (succs : List Nat) (lanterns : List Nat) (scratch : Bool) (x : BSlot) : Bool :=
  (match x.i with
    | .gotx _ p => (List.range 4).all (fun i => !p.cctl.getLsbD i || succs.contains i)
    | .haltx _ p => (List.range 4).all (fun i => !p.cctl.getLsbD i || succs.contains i)
    | .lgbind _ p => lanterns.contains p.sreg.toNat
    | _ => true)
    && (scratch || !(x.op == 0x201 || x.op == 0x202 || x.op == 0x204 || x.op == 0x206))

/-! ### What a cell asks of a block before it fires -/

def slotsOf (code : List Word128) : List BSlot := (readSlots 0 code).getD []

/-- E of R288: the channel targets of a block. -/
def blockChans (code : List Word128) : Nat := chanTargets (slotsOf code)

/-- Whether a block holds SPAWN (R294). -/
def blockSpawns (code : List Word128) : Bool := (slotsOf code).any (fun x => x.op == 0x341)

/-- The slot of a block's BRK, where its instance starts (R385). -/
def brkSlot (code : List Word128) : Option Nat := ((slotsOf code).find? (fun x => x.op == 0x381)).map (fun x => x.slot)

/-- The matrix instruction of a block other than MSTAT (R162). -/
def blockMatrix (code : List Word128) : Option BSlot := (slotsOf code).find? (fun x => isMatOp x.op && x.op != 0x208)

end Sys2Proof.Machine
end

