-- ==== Sys2Proof/Machine/Matrix.lean ====
section
/-! DEFINITION. The plane array and the matrix instructions, opcodes 0x200–0x20A (R160–R178).  An instruction
checks and reads the plane array as it executes; its commit applies a `PlaneOp` to the run as it then stands (R161). -/

namespace Sys2Proof.Machine

/-! ### Runs, panels and enabling (R160, R161, R170–R177) -/

/-- The open run of a cell. -/
def runOf (s : State) (b : BInst) : Option Run := mget none s.planes b.cell

/-- The key's own open run. -/
def ownRun (s : State) (b : BInst) : Option Run :=
  match runOf s b with
  | some r => if r.tag = b.tag then some r else none
  | none => none

def Run.panel (r : Run) (sel : Bool) : Option Panel := if sel then r.p1 else r.p0
def Run.setPanel (r : Run) (sel : Bool) (p : Option Panel) : Run := if sel then { r with p1 := p } else { r with p0 := p }

/-- RP of a panel: its next row, or the row count that it kept when it became free (R167, R177). -/
def Run.rp (r : Run) (sel : Bool) : Nat := ((r.panel sel).map (fun q => q.rp)).getD (if sel then r.rp1 else r.rp0)
def Run.keepRp (r : Run) (sel : Bool) (n : Nat) : Run := if sel then { r with rp1 := n } else { r with rp0 := n }

def Run.count (r : Run) (row : Nat) : Nat := mget 0 r.cnt row
def Run.accAt (r : Run) (row col : Nat) : Nat := mget 0 r.acc (64 * row + col)

/-- Rows whose count equals NCH. -/
def Run.done (r : Run) : Nat := ((List.range r.m).filter (fun i => r.count i == r.nch)).length

def pselOf (p : PayX) : Bool := p.mctl.getLsbD 0
def swzOf (p : PayX) : Nat := bits p.mctl.toNat 3 1

/-- The run status word (R169). -/
def Run.status (r : Run) : Word64 :=
  let bit (b : Bool) (n : Nat) : Nat := if b then 2 ^ n else 0
  BitVec.ofNat 64 (bit r.offender.isSome 47 + bit r.nan 46 + bit r.inf 45 + bit r.ovf 44 + bit r.sat 43
    + ((r.offender.map (fun o => o.1 * 2 ^ 32 + o.2 * 2 ^ 16)).getD 0) + r.outp * 2 ^ 8 + r.done)

/-- A matrix instruction waits until `enabled` finds its run; its new run state is installed at commit. -/
def matrixOp (h : Hdr) (p : PayX) (s : State) (enabled : BInst → Bool) (body : BInst → List Val → State) : Result :=
  match focusInst s with
  | none => .next s
  | some b => if olderOfInv s b then .next s else withOps h (k0Const p.k0) s (skipInst h) (fun b xs => if enabled b then body b xs else s)

/-- Change the plane array at commit and go on. -/
def commitRun (s : State) (b : BInst) (op : PlaneOp) : State := putInst s (advance 1 (addEff (.plane op) b))

/-! ### MSET (R171) -/

/-- The limits of a run word. -/
def runWordOk (w : Nat) : Bool :=
  bits w 31 24 == 0 && bits w 15 15 == 0 && decide (bits w 7 0 ≤ 191) && (bits w 14 14 == 0 || decide (1 ≤ bits w 23 16))

/-- The run that MSET opens. -/
def openRun (t : Tag) (w : Nat) : Run :=
  { tag := t, word := w, m := bits w 7 0 + 1, n := bits w 13 8 + 1, kin := bits w 14 14 == 1, nch := bits w 23 16 + 1, acc := [], cnt := [], kinp := 0, outp := 0, p0 := none, p1 := none, rp0 := 0, rp1 := 0, offender := none, nan := false, inf := false, ovf := false, sat := false }

/-- MSET (R171). -/
def execMset (h : Hdr) (p : PayX) (s : State) : Result :=
  matrixOp h p s (fun b => (runOf s b).isNone) (fun b xs =>
    match slotOf (xs.getD 0 noVal) 0 with
    | none => putInst s (skipInst h b)
    | some w =>
      if runWordOk w.toNat then commitRun s b (.set (openRun b.tag w.toNat))
      else raise s b { cause := .illegalEncoding, detail := 2 })

/-! ### Scratchpad elements (R164, R165) -/

/-- A byte of the linked scratchpad as the agent reads it, swizzled. -/
def padByte (s : State) (b : BInst) (m swz a : Nat) : Nat := (agentByte s b (scratchAddr m (swizzle swz a))).toNat

/-- The element of container C at a byte address, the low nibble first for odd positions of 4 bits. -/
def padElem (s : State) (b : BInst) (m swz a c : Nat) (high : Bool) : Nat :=
  if c = 4 then (padByte s b m swz a / (if high then 16 else 1)) % 16
  else (List.range (c / 8)).foldl (fun acc i => acc + padByte s b m swz (a + i) * 256 ^ i) 0

/-- Where an element lies: its byte address and nibble, and the address of its block header. -/
structure Spot where
  addr : Nat
  high : Bool
  hdr : Option Nat
  deriving DecidableEq, Repr

/-- Element k of a contiguous row at an address (R164, R120). -/
def rowSpot (e : Fmt) (a k : Nat) : Spot :=
  if e.block = 0 then { addr := a + k * e.cont / 8, high := k % 2 == 1, hdr := none }
  else
    let blkBytes := 2 + e.block * e.cont / 8
    let h := a + k / e.block * blkBytes
    let j := k % e.block
    { addr := h + 2 + j * e.cont / 8, high := j % 2 == 1, hdr := some h }

/-- Bytes that a spot touches, as the address just past the last one. -/
def Spot.top (sp : Spot) (c : Nat) : Nat := sp.addr + max 1 (c / 8)

def readSpot (s : State) (b : BInst) (m swz c : Nat) (sp : Spot) : Nat × Nat :=
  (match sp.hdr with
    | some h => padByte s b m swz h + 256 * padByte s b m swz (h + 1)
    | none => 0,
   padElem s b m swz sp.addr c sp.high)

/-- The alignment that ADDR and PITCH must keep. -/
def padAlign (e : Fmt) : Nat := if e.block = 0 then max 1 (e.cont / 8) else 2

/-- ADDR_OVERFLOW with the coordinates of an element. -/
def padReport (r k n addr : Nat) : Report := { cause := .addrOverflow, iters := [r, k, n], n := n, addr := addr }

/-! ### Panel loads (R172) -/

/-- Address of element (k, n) of a panel: k-major, or n-major for `nMajor`. -/
def panelSpot (e : Fmt) (nMajor : Bool) (a pitch k n : Nat) : Spot :=
  if nMajor then rowSpot e (a + n * pitch) k
  else { addr := a + k * pitch + n * e.cont / 8, high := n % 2 == 1, hdr := none }

/-- The first element of a panel in ascending (k, n) whose bytes fall outside the scratchpad; an n-major
blocked panel reads every byte of a row's last block. -/
def panelBad (e : Fmt) (nMajor : Bool) (a pitch kb n : Nat) : Option (Nat × Nat) :=
  let last := if nMajor ∧ e.block ≠ 0 then (kb + e.block - 1) / e.block * e.block else kb
  (List.range last).findSome? (fun k => ((List.range n).find? (fun c => decide (scratchSize < (panelSpot e nMajor a pitch k c).top e.cont))).map (fun c => (k, c)))

/-- A panel load is enabled while its panel is free (R172). -/
def panelFree (s : State) (b : BInst) (p : PayX) : Bool := (ownRun s b).any (fun r => (r.panel (pselOf p)).isNone)

/-- The B entry that a panel load cannot use. -/
def panelEntryBad (s : State) (b : BInst) (p : PayX) (nMajor : Bool) : Option Nat :=
  let word := entryWord s b p.bfmt.toNat
  if legalEntry word && (nMajor || (Fmt.ofWord word).block == 0) then none else some p.bfmt.toNat

/-- MLDB and MLDT. -/
def panelOp (h : Hdr) (p : PayX) (s : State) (nMajor : Bool) : Result :=
  matrixOp h p s (fun b => panelFree s b p) (fun b xs =>
    let e := entryOf s b p.bfmt.toNat
    let x := xs.getD 0 noVal
    match panelEntryBad s b p nMajor with
    | some i => raiseFormat s b i
    | none =>
      match slotOf x 0, slotOf x 1, slotOf x 2, ownRun s b with
      | some a, some pitch, some w, some r =>
        let kb := bits w.toNat 7 0 + 1
        let ch := bits w.toNat 23 16
        if 128 < kb ∨ r.nch ≤ ch ∨ (ch = 0 ∧ r.kin = true) ∨ bits w.toNat 31 24 ≠ 0 then
          raise s b { cause := .illegalEncoding, detail := 3 }
        else match scratchCell s b with
          | none => raise s b (fail .permission)
          | some m =>
            if a.toNat % padAlign e ≠ 0 ∨ pitch.toNat % padAlign e ≠ 0 then raise s b (padReport 0 0 0 a.toNat)
            else match panelBad e nMajor a.toNat pitch.toNat kb r.n with
              | some (k, n) => raise s b (padReport 0 k n (panelSpot e nMajor a.toNat pitch.toNat k n).addr)
              | none =>
                let elems := (List.range kb).map (fun k => (List.range r.n).map (fun n => readSpot s b m (swzOf p) e.cont (panelSpot e nMajor a.toNat pitch.toNat k n)))
                commitRun s b (.load (pselOf p) { entry := entryWord s b p.bfmt.toNat, gen := b.gen, kb := kb, kidx := bits w.toNat 15 8, ch := ch, rp := 0, elems := elems })
      | _, _, _, _ => putInst s (skipInst h b))

/-- MLDB (R172). -/
def execMldb (h : Hdr) (p : PayX) (s : State) : Result := panelOp h p s false

/-- MLDT (R172). -/
def execMldt (h : Hdr) (p : PayX) (s : State) : Result := panelOp h p s true

/-! ### Row firings (R166, R167, R173) -/

/-- floor(t / 2^x) of a dyadic term. -/
def floorTerm (x : Int) : Num → Int
  | .fin s n e =>
    let p := twoPow (e - x)
    let z : Int := if s then -((n * p.1 : Nat) : Int) else (n * p.1 : Nat)
    z / (p.2 : Int)
  | _ => 0

/-- floor(log2 |t|) of a nonzero dyadic term. -/
def termExpo : Num → Int
  | .fin _ n e => (n.log2 : Int) + e
  | _ => 0

/-- ChunkValue from the products of the present k (R166). -/
def chunkSum (ts : List Num) : Num :=
  if ts.any Num.isNan then .nan
  else if ts.contains (.inf false) && ts.contains (.inf true) then .nan
  else if ts.contains (.inf false) then .inf false
  else if ts.contains (.inf true) then .inf true
  else
    let z := ts.filter (fun t => !t.isZero)
    match z with
    | [] => .fin (ts != [] && ts.all Num.sign) 0 0
    | t :: l =>
      let anchor := l.foldl (fun a u => max a (termExpo u)) (termExpo t)
      let sum := z.foldl (fun a u => a + floorTerm (anchor - 95) u) (0 : Int)
      .fin (decide (sum < 0)) sum.natAbs (anchor - 95)

/-- ChunkValue (R166), rounded to the reset value of f0. -/
def chunkValue (ts : List Num) : Nat := roundNum (chunkSum ts) fp32 .rne 0

def isInfNum : Num → Bool
  | .inf _ => true
  | _ => false

/-- The products of one column: per present k, its index and the exact product. -/
def products (ea eb : Fmt) (a : List (Option (Nat × Nat))) (panel : Panel) (n : Nat) : List (Nat × Num) :=
  (enumFrom 0 (a.zip panel.elems)).filterMap (fun q =>
    q.2.1.map (fun x =>
      let y := q.2.2.getD n (0, 0)
      (q.1, (blockElem ea x.1 x.2).mul (blockElem eb y.1 y.2))))

/-- The least offender, in the order of (ROW, K). -/
def minOffender (a : Option (Nat × Nat)) (b : Nat × Nat) : Option (Nat × Nat) :=
  match a with
  | none => some b
  | some x => if b.1 < x.1 ∨ (b.1 = x.1 ∧ b.2 < x.2) then some b else some x

/-- Accumulate one column of a row firing and update the status flags (R167, R169). -/
def rowColumn (ea eb : Fmt) (a : List (Option (Nat × Nat))) (panel : Panel) (row : Nat) (r : Run) (n : Nat) : Run :=
  let ps := products ea eb a panel n
  let v := chunkValue (ps.map (fun q => q.2))
  let old := r.accAt row n
  let x := decodeElem fp32 old
  let y := decodeElem fp32 v
  let first := r.count row = 0
  let new := if first then v else roundNum (sumNums false [x, y]) fp32 .rne 0
  let bad := ps.filter (fun q => q.2.isNan || isInfNum q.2)
  let overflows (ins : List Num) (code : Nat) : Bool := isInfNum (decodeElem fp32 code) && !ins.any (fun t => t.isNan || isInfNum t)
  { r with
    acc := mput 0 r.acc (64 * row + n) new
    offender := match bad with
      | [] => r.offender
      | q :: _ => minOffender r.offender (row, 128 * panel.kidx + q.1)
    nan := r.nan || ps.any (fun q => q.2.isNan)
    inf := r.inf || ps.any (fun q => isInfNum q.2)
    ovf := r.ovf || overflows (ps.map (fun q => q.2)) v || (!first && overflows [x, y] new) }

/-- The run after a row firing on a panel (R167). -/
def fireRow (ea : Fmt) (a : List (Option (Nat × Nat))) (sel : Bool) (panel : Panel) (r : Run) : Run :=
  let row := panel.rp
  let r1 := (List.range r.n).foldl (rowColumn ea (Fmt.ofWord panel.entry) a panel row) r
  let r2 := { r1 with cnt := mput 0 r1.cnt row (r1.count row + 1) }
  (r2.setPanel sel (if row + 1 = r.m then none else some { panel with rp := row + 1 })).keepRp sel (row + 1)

/-- The panel of a row firing, when it is enabled (R173). -/
def rowPanel (s : State) (b : BInst) (p : PayX) : Option (Run × Panel) :=
  match ownRun s b with
  | none => none
  | some r =>
    match r.panel (pselOf p) with
    | some q => if r.count q.rp = q.ch then some (r, q) else none
    | none => none

/-- Entry i at the generation of a panel (R128, R173). -/
def panelEntry (s : State) (b : BInst) (q : Panel) (i : Nat) : Word64 :=
  match (nodeCtx s b.node).gens.find? (fun g => g.gen == q.gen) with
  | some g => g.entries.getD i 0
  | none => entryWord s b i

/-- The A row from tokens: element k, with the header that its SCALE token gives (R164, R166). -/
def tokenRow (e : Fmt) (xs : List Val) : List (Option (Nat × Nat)) :=
  let per := 512 / e.cont
  let data := 128 / per
  (List.range 128).map (fun k =>
    match elemOf e.cont (xs.getD (k / per) noVal) (k % per) with
    | none => none
    | some c => if e.block = 0 then some (0, c) else (elemOf 16 (xs.getD data noVal) (k / e.block)).map (fun hd => (hd, c)))

/-- The A entry of a row firing that MROW cannot use (R170, R173). -/
def mrowBad (s : State) (b : BInst) (h : Hdr) (p : PayX) : Option Nat :=
  match rowPanel s b p with
  | none => none
  | some (_, q) =>
    let word := panelEntry s b q h.fmt.toNat
    let e := Fmt.ofWord word
    if legalEntry word && decide (e.cont ≤ 16) && h.nopd.toNat == e.cont / 4 + (if e.block = 0 then 0 else 1) then none else some h.fmt.toNat

/-- The A entry of a row firing that MROWS cannot use. -/
def mrowsBad (s : State) (b : BInst) (h : Hdr) (p : PayX) : Option Nat :=
  match rowPanel s b p with
  | none => none
  | some (_, q) => if legalEntry (panelEntry s b q h.fmt.toNat) then none else some h.fmt.toNat

/-- MROW (R173). -/
def execMrow (h : Hdr) (p : PayX) (s : State) : Result :=
  matrixOp h p s (fun b => (rowPanel s b p).isSome) (fun b xs =>
    match mrowBad s b h p, rowPanel s b p with
    | some i, _ => raiseFormat s b i
    | none, none => s
    | none, some (_, q) =>
      let word := panelEntry s b q h.fmt.toNat
      commitRun s (markDurable b) (.row (pselOf p) word (tokenRow (Fmt.ofWord word) xs)))

/-- MROWS (R173): an invalid address makes every element absent. -/
def execMrows (h : Hdr) (p : PayX) (s : State) : Result :=
  matrixOp h p s (fun b => (rowPanel s b p).isSome) (fun b xs =>
    match mrowsBad s b h p, rowPanel s b p with
    | some i, _ => raiseFormat s b i
    | none, none => s
    | none, some (_, q) =>
      let word := panelEntry s b q h.fmt.toNat
      let e := Fmt.ofWord word
      match slotOf (xs.getD 0 noVal) 0 with
        | none => commitRun s (markDurable b) (.row (pselOf p) word (List.replicate 128 none))
        | some a =>
          match scratchCell s b with
          | none => raise s b (fail .permission)
          | some m =>
            if a.toNat % padAlign e ≠ 0 then raise s b (padReport q.rp 0 0 a.toNat)
            else
              match (List.range q.kb).find? (fun k => decide (scratchSize < (rowSpot e a.toNat k).top e.cont)) with
              | some k => raise s b (padReport q.rp k 0 (rowSpot e a.toNat k).addr)
              | none =>
                let row := (List.range q.kb).map (fun k => some (readSpot s b m (swzOf p) e.cont (rowSpot e a.toNat k)))
                commitRun s (markDurable b) (.row (pselOf p) word row))

/-! ### MKIN (R174) -/

/-- The run after a partial-sum row. -/
def kinRow (r : Run) (xs : List Val) : Run :=
  let set (r : Run) (n : Nat) : Run :=
    { r with acc := mput 0 r.acc (64 * r.kinp + n) ((slotOf (xs.getD (n / 16) noVal) (n % 16)).getD 0).toNat }
  let r1 := (List.range r.n).foldl set r
  { r1 with cnt := mput 0 r1.cnt r.kinp 1, kinp := r.kinp + 1 }

/-- MKIN (R174). -/
def execMkin (h : Hdr) (p : PayX) (s : State) : Result :=
  matrixOp h p s (fun b => (ownRun s b).isSome) (fun b xs =>
    match ownRun s b with
    | none => s
    | some r =>
      if h.nopd.toNat ≠ (r.n + 15) / 16 ∨ r.kin = false ∨ r.kinp = r.m then raise s b { cause := .illegalEncoding, detail := 4 }
      else commitRun s b (.kin xs))

/-! ### Drains (R175, R176) -/

/-- The run after a drained row; it closes after the last. -/
def drained (r : Run) : Run := { r with outp := r.outp + 1 }
def closeAfter (r : Run) : Option Run := if r.outp = r.m then none else some r

/-- The status word for a target, and its predicate bit. -/
def statusDeliv (r : Run) : Val × Bool := (word64 r.status, bits r.status.toNat 47 43 != 0)

/-- Emit some values as consecutive DATA tokens on the channel t0. -/
def emitAll (h : Hdr) (b : BInst) : List Val → BInst
  | [] => b
  | v :: l => emitAll h (deliver1 b.pc h.t0 0 v false b) l

/-- A drain is enabled once the row at OUTP is done (R175). -/
def rowDone (s : State) (b : BInst) : Bool := (ownRun s b).any (fun r => r.count r.outp == r.nch && decide (r.outp < r.m))

/-- The row's FP32 codes in slots. -/
def codeTokens (r : Run) : List Val :=
  (List.range ((r.n + 15) / 16)).map (fun t => valOf (fun k => if 16 * t + k < r.n then some (BitVec.ofNat 32 (r.accAt r.outp (16 * t + k))) else none))

/-- MDRAIN and MKOUT: the row's tokens, then the status on t1. -/
def drainOp (h : Hdr) (p : PayX) (s : State) (ofmt : Option (BitVec 4)) (row : BInst → Run → List Val × Bool) (check : BInst → Option Nat) : Result :=
  matrixOp h p s (rowDone s) (fun b _ =>
    match check b, ownRun s b with
    | some i, _ => raiseFormat s b i
    | none, none => s
    | none, some r =>
      let t := row b r
      let st := statusDeliv (drained { r with sat := r.sat || t.2 })
      commitRun s (deliver1 b.pc h.t1 0 st.1 st.2 (emitAll h b t.1)) (.drain r.outp b.pc h ofmt t.2))

/-- MKOUT (R175). -/
def execMkout (h : Hdr) (p : PayX) (s : State) : Result := drainOp h p s none (fun _ r => (codeTokens r, false)) (fun _ => none)

/-- Whether a conversion of an accumulator answered with a Special result: its value is a NaN, an infinity,
or its rounding without the range is out of range (R123). -/
def outSat (e : Fmt) (m : Rnd) (noise code : Nat) : Bool :=
  match decodeElem fp32 code with
  | .fin s n x =>
    roundOverflows (.rat s (n * (twoPow x).1) (twoPow x).2) e m noise
  | _ => true
where
  /-- The range test of `round` on its own. -/
  roundOverflows (v : Exact) (e : Fmt) (m : Rnd) (noise : Nat) : Bool :=
    match v with
    | .rat neg0 n0 d =>
      let clamp := e.sgn = 0 ∧ neg0 ∧ n0 ≠ 0
      let neg := if clamp then false else neg0
      let n := if clamp then 0 else n0
      let p := twoPow (quantumExp e n d)
      let a := n * p.2 / (d * p.1)
      let rem := n * p.2 % (d * p.1)
      let even := if ¬ e.enc ∧ 0 < e.exp ∧ e.frac = 0 then (quantumExp e n d + e.bias) % 2 == 0 else a % 2 == 0
      let r := if rem = 0 then a else if roundsAway (resolveRnd m e) neg even rem (d * p.1) noise then a + 1 else a
      !inRange e neg (r * p.1) p.2
    | _ => true

/-- out[n] of a row (R175). -/
def outCode (e : Fmt) (m : Rnd) (sr : SrCtx) (r : Run) (row n : Nat) : Nat :=
  roundNum (decodeElem fp32 (r.accAt row n)) e m ({ sr with ord := row }.noise n)

/-- The converted row in packed tokens: a slot with no column below N is invalid (R175). -/
def outTokens (e : Fmt) (m : Rnd) (sr : SrCtx) (r : Run) : List Val :=
  let per := 512 / e.cont
  let es := 32 / e.cont
  (List.range ((r.n * e.cont + 511) / 512)).map (fun t =>
    valOf (fun k =>
      let lo := t * per + k * es
      if lo < r.n then
        some (BitVec.ofNat 32 (packElems e.cont ((List.range es).map (fun j => if lo + j < r.n then some (outCode e m sr r r.outp (lo + j)) else none))))
      else none))

/-- The check of an output entry. -/
def outCheck (s : State) (p : PayX) (b : BInst) : Option Nat :=
  let x := entryWord s b p.ofmt.toNat
  if legalEntry x && (Fmt.ofWord x).block == 0 then none else some p.ofmt.toNat

/-- Whether some column of a row saturates. -/
def rowSat (e : Fmt) (m : Rnd) (sr : SrCtx) (r : Run) (row : Nat) : Bool :=
  (List.range r.n).any (fun n => outSat e m ({ sr with ord := row }.noise n) (r.accAt row n))

/-- The converted tokens of the row at OUTP, and whether it saturates. -/
def convRow (e : Fmt) (m : Rnd) (sr : SrCtx) (r : Run) : List Val × Bool := (outTokens e m sr r, rowSat e m sr r r.outp)

/-- MDRAIN (R175). -/
def execMdrain (h : Hdr) (p : PayX) (s : State) : Result :=
  drainOp h p s (some p.ofmt) (fun b r => convRow (entryOf s b p.ofmt.toNat) h.rnd (srOf s b) r) (outCheck s p)

/-- The store of one output byte or element. -/
def outStores (e : Fmt) (m : Rnd) (sr : SrCtx) (r : Run) (mcell swz a pitch row : Nat) : List HStore :=
  let st (addr bytes v : Nat) : HStore :=
    { bytes := ((List.range bytes).map (fun i => scratchAddr mcell (swizzle swz (addr + i)))).zip (leBytes bytes v), via := none }
  if e.cont = 4 then
    (List.range ((r.n + 1) / 2)).map (fun i =>
      st (a + row * pitch + i) 1 (outCode e m sr r row (2 * i) + (if 2 * i + 1 < r.n then 16 * outCode e m sr r row (2 * i + 1) else 0)))
  else (List.range r.n).map (fun n => st (a + row * pitch + n * e.cont / 8) (e.cont / 8) (outCode e m sr r row n))

/-- The first element (r, n) of a tile outside the scratchpad. -/
def tileBad (e : Fmt) (a pitch m n : Nat) : Option (Nat × Nat) :=
  (List.range m).findSome? (fun i => ((List.range n).find? (fun c => decide (scratchSize < a + i * pitch + c * e.cont / 8 + max 1 (e.cont / 8)))).map (fun c => (i, c)))

/-- MOUT is enabled once every row is done and none is drained (R176). -/
def tileDone (s : State) (b : BInst) : Bool := (ownRun s b).any (fun r => r.outp == 0 && r.done == r.m)

/-- MOUT (R176): writes the tile as held stores and closes the run. -/
def execMout (h : Hdr) (p : PayX) (s : State) : Result :=
  matrixOp h p s (tileDone s) (fun b xs =>
    match outCheck s p b, ownRun s b with
    | some i, _ => raiseFormat s b i
    | none, none => s
    | none, some r =>
      let e := entryOf s b p.ofmt.toNat
      let x := xs.getD 0 noVal
      let fin (b : BInst) (r : Run) : State :=
        let st := statusDeliv { r with outp := r.m }
        commitRun s (deliver h 0 (same st.1 st.2) b) .close
      match slotOf x 0, slotOf x 1 with
      | some a, some pitch =>
        match scratchCell s b with
        | none => raise s b (fail .permission)
        | some m =>
          if a.toNat % padAlign e ≠ 0 ∨ pitch.toNat % padAlign e ≠ 0 then raise s b (padReport 0 0 0 a.toNat)
          else match tileBad e a.toNat pitch.toNat r.m r.n with
            | some (i, n) => raise s b (padReport i 0 n (a.toNat + i * pitch.toNat + n * e.cont / 8))
            | none =>
              let sts := ((List.range r.m).map (outStores e h.rnd (srOf s b) r m (swzOf p) a.toNat pitch.toNat)).flatten
              if holdOverflows s b sts then raise s b { cause := .holdOverflow, addr := a.toNat }
              else fin { b with effs := b.effs ++ sts.map .store } { r with sat := r.sat || (List.range r.m).any (rowSat e h.rnd (srOf s b) r) }
      | _, _ => fin b r)

/-! ### MCLR and MSTAT (R177) -/

/-- MCLR (R177).  DEDUCED (assumption 37): R177's "never waits" holds over R161's list of what is passed over while
another key's run is open, so an MCLR of such a key fires and does nothing; safe. -/
def execMclr (h : Hdr) (p : PayX) (s : State) : Result :=
  matrixOp h p s (fun _ => true) (fun b _ => if (ownRun s b).isSome then commitRun s b .close else putInst s (advance 1 b))

/-- The four words of MSTAT. -/
def mstatVal (r : Run) : Val :=
  firstSlots [r.status.extractLsb' 0 32, r.status.extractLsb' 32 32, BitVec.ofNat 32 r.word,
    BitVec.ofNat 32 (r.rp true * 2 ^ 24 + r.rp false * 2 ^ 16 + r.kinp * 2 ^ 8 + r.outp)]

/-- MSTAT (R177). -/
def execMstat (h : Hdr) (p : PayX) (s : State) : Result :=
  matrixOp h p s (fun _ => true) (fun b _ =>
    let v := match ownRun s b with
      | some r => mstatVal r
      | none => noVal
    putInst s (advance 1 (deliver h 0 (same v (predGeneral v)) b)))

/-! ### The plane array at a commit (R161) -/

/-- The plane array after an operation of a key: only MSET acts without the key's open run. -/
def planeAfter (t : Tag) (op : PlaneOp) (o : Option Run) : Option Run :=
  match op, o with
  | .set r, none => some r
  | _, none => none
  | op, some r =>
    if r.tag ≠ t then some r
    else match op with
      | .set _ => some r
      | .load sel q => some (r.setPanel sel (some q))
      | .row sel entry a =>
        (match r.panel sel with
          | some q => some (fireRow (Fmt.ofWord entry) a sel q r)
          | none => some r)
      | .kin xs => some (kinRow r xs)
      | .drain _ _ _ _ sat => closeAfter (drained { r with sat := r.sat || sat })
      | .close => none

/-- A drain whose row another instance has drained since it executed emits the row that is next at its commit
(R175). -/
def redrain (s : State) (b : BInst) (e : Eff) (c : BInst) : BInst :=
  match e, ownRun s b with
  | .plane (.drain row slot h ofmt sat), some r =>
    if r.outp = row then c
    else
      let out := match ofmt with
        | none => (codeTokens r, false)
        | some i => convRow (entryOf s b i.toNat) h.rnd { srOf s b with slot := slot } r
      let st := statusDeliv (drained { r with sat := r.sat || out.2 })
      let fresh := (deliver1 slot h.t1 0 st.1 st.2 (emitAll h { b with pc := slot, emits := [] } out.1)).emits
      { c with
        emits := c.emits.filter (fun x => x.slot != slot) ++ fresh
        effs := c.effs.map (fun y => if y = .plane (.drain row slot h ofmt sat) then .plane (.drain r.outp slot h ofmt out.2) else y) }
  | _, _ => c

/-- An instance's drains as they stand at its commit. -/
def redrained (s : State) (b : BInst) : BInst := b.effs.foldl (fun c e => redrain s b e c) b

/-! ### What a cell asks before it fires (R161) -/

/-- Whether the plane array's state enables an instance's matrix instruction. -/
def matrixReady (s : State) (b : BInst) : Instr → Bool
  | .mset _ _ => (runOf s b).isNone
  | .mldb _ p => panelFree s b p
  | .mldt _ p => panelFree s b p
  | .mrow _ p => (rowPanel s b p).isSome
  | .mrows _ p => (rowPanel s b p).isSome
  | .mkin _ _ => (ownRun s b).isSome
  | .mkout _ _ => rowDone s b
  | .mdrain _ _ => rowDone s b
  | .mout _ _ => tileDone s b
  | _ => true

end Sys2Proof.Machine
end

