-- ==== Sys2Proof/Machine/Wait.lean ====
section
/-! DEFINITION. The wait instructions, opcodes 0x2DA–0x2DC (R255–R258). -/

namespace Sys2Proof.Machine

/-- Entries of a die's monitor table (R258). -/
def monitorLimit : Nat := 4096

/-- The oldest monitor of a full table without an event is dropped and reported as LOST (R258). -/
def makeRoom (s : State) (die : Nat) : List Monitor :=
  if monitorLimit ≤ (s.monitors.filter (fun m => m.die == die && m.event.isNone)).length then
    updFirst (fun m => m.die == die && m.event.isNone) (fun m => m.sees s.now .lost) s.monitors
  else s.monitors

/-- The deadline of a wait: its timeout t from the first arming; 0, invalid or absent means none (R258). -/
def waitDeadline (xs : List Val) (from_ : Nat) : Option Nat :=
  match xs with
  | _ :: _ :: t :: _ => match slotOf t 0 with
    | some x => if x = 0 then none else some (from_ + x.toNat)
    | none => none
  | _ => none

/-- Withdraw the instance and arm its monitor in the step of its test (R255): nothing it computed takes
effect, its tokens stay with the firing, and it keeps its arrival sequence. -/
def withdraw (s : State) (b : BInst) (pa : Nat) (xs : List Val) : State :=
  let from_ := b.waitFrom.getD s.now
  let s1 := returnTag s b.node b.spawned
  { s1 with
    insts := s1.insts.filter (fun x => !x.isAt b.cell b.seq)
    firings := s1.firings ++ [firingOf s b (.withdrawn none from_)]
    monitors := makeRoom s1 (homeDie pa) ++ [{ granule := pa / 64, die := homeDie pa, cell := b.cell, seq := b.seq, deadline := waitDeadline xs from_, event := none }] }

/-- The result of a wait: a code and the word read. -/
def waitVal (code word : Nat) : Val :=
  firstSlots [BitVec.ofNat 32 code, BitVec.ofNat 32 (word % 2 ^ 32), BitVec.ofNat 32 (word / 2 ^ 32)]

/-- BWAIT and WAITB (R256): the word must have type `ty`; `test` is the condition on the word and the
compared operand, none where its slots are not all valid. -/
def waitOp (h : Hdr) (p : PayW) (s : State) (ty : Nat) (test : Val → Option (Nat → Bool)) : Result :=
  memOp h s (fun b xs =>
    match baseOf false (xs.getD 0 noVal), test (xs.getD 1 noVal) with
    | some base, some cond =>
      match effAddr s b false 0 (base + p.ofs.toInt) 8 0 true false with
      | .error r => raise s b r
      | .ok pl =>
        let pa := pl.addrs.headD 0
        let w := readPlace s b pl.addrs
        if typeAt s pa ≠ ty then raise s b { cause := .permission, detail := 6, addr := pl.ea }
        else if cond w then finishLoad (acquire s b p.scope) h b (waitVal 0 w) true
        else match b.wake with
          | some .timeout => finishLoad s h b (waitVal 2 w) false
          | _ => withdraw s b pa xs
    | _, _ => deliverOff s h b)

/-- BWAIT (R256): succeeds when GEN differs from slot 0 of g. -/
def execBwait (h : Hdr) (p : PayW) (s : State) : Result :=
  waitOp h p s 1 (fun g => (slotOf g 0).map (fun x => fun w => barGen w != x.toNat))

/-- WAITB (R256): succeeds when the word holds every bit of m. -/
def execWaitb (h : Hdr) (p : PayW) (s : State) : Result :=
  waitOp h p s 2 (fun m => (elemOf 64 m 0).map (fun x => fun w => w &&& x == x))

def wakeCode : Wake → Nat
  | .write => 0
  | .lost => 1
  | .timeout => 2
  | .spurious => 3

/-- WAITA (R257): no ordering; the first execution completes only when the word differs from e. -/
def execWaita (h : Hdr) (p : PayW) (s : State) : Result :=
  memOp h s (fun b xs =>
    match baseOf false (xs.getD 0 noVal), elemOf 64 (xs.getD 1 noVal) 0 with
    | some base, some e =>
      match effAddr s b false 0 (base + p.ofs.toInt) 8 0 true false with
      | .error r => raise s b r
      | .ok pl =>
        let w := readPlace s b pl.addrs
        match b.wake with
        | some k => finishLoad s h b (waitVal (wakeCode k) w) (k == .write)
        | none =>
          if w = e then withdraw s b (pl.addrs.headD 0) xs
          else finishLoad s h b (waitVal 0 w) true
    | _, _ => deliverOff s h b)

end Sys2Proof.Machine
end

