-- ==== Sys2Proof/Machine/Engine.lean ====
section
/-! DEFINITION. Copy, publish and collective engines, opcodes 0x300–0x306, and their events (R260–R281). -/

namespace Sys2Proof.Machine

/-! ### Descriptors (R260, R264) -/

/-- The words of `n` lines of 64 bytes, read before the instance's own stores (R260). -/
def descLines (s : State) (b : BInst) (ea : Nat) : Nat → Except Report (List Nat)
  | 0 => .ok []
  | n + 1 =>
    match effAddr s b false 0 ea 64 0 true false with
    | .error r => .error r
    | .ok pl =>
      match descLines s b (ea + 64) n with
      | .error r => .error r
      | .ok l => .ok ((List.range 8).map (fun i => agentRead s { b with effs := [] } (pl.addrs.headD 0 + 8 * i) 8) ++ l)

/-- A descriptor of `64·n` bytes at an address aligned to its size. -/
def descWords (s : State) (b : BInst) (ea n : Nat) : Except Report (List Nat) :=
  if ea % (64 * n) ≠ 0 ∨ 2 ^ 57 < ea + 64 * n then .error (failAt .addrOverflow ea) else descLines s b ea n

def sgn64 (x : Nat) : Int := readInt true 64 x
def sgn32 (x : Nat) : Int := readInt true 32 x

/-- 32-bit half `i` of a list of words. -/
def half (ws : List Nat) (i : Nat) : Nat := ws.getD (i / 2) 0 / 2 ^ (32 * (i % 2)) % 2 ^ 32

def badDesc : Report := { cause := .illegalEncoding, detail := 7 }

/-- A view from its fourteen words, unresolved. -/
def readView (ws : List Nat) : View :=
  let w0 := ws.getD 0 0
  { tid := bits w0 23 0, esz := bits w0 25 24, shd := bits w0 26 26 == 1, sp := bits w0 27 27 == 1, base := sgn64 (ws.getD 1 0), ext := (List.range 5).map (fun d => half ws (4 + d)), pad := half ws 9, start := (List.range 5).map (fun d => sgn32 (half ws (10 + d))), stride := (List.range 5).map (fun d => sgn64 (ws.getD (8 + d) 0)), org := 0, size := 0 }

/-- The limits of R264 on one view of a given rank. -/
def viewOk (ws : List Nat) (v : View) (rank : Nat) (isDst : Bool) : Bool :=
  bits (ws.getD 0 0) 63 28 == 0 && ws.getD 7 0 / 2 ^ 32 == 0 && ws.getD 13 0 == 0 && decide (v.base.natAbs < 2 ^ 57)
    && v.stride.all (fun x => decide (x.natAbs < 2 ^ 57)) && (!v.shd || v.tid != 0) && (!v.sp || v.tid == 0)
    && (!isDst || v.pad == 0)
    && (v.ext.drop rank).all (· == 0) && (v.start.drop rank).all (· == 0) && (v.stride.drop rank).all (· == 0)

/-- A copy descriptor from its words, when it keeps the limits of R264 that no tensor entry decides. -/
def readDesc (ws : List Nat) : Option CopyDesc :=
  let w2 := ws.getD 2 0
  let rank := bits w2 34 32 + 1
  let box := (List.range 5).map (half ws)
  let nbw := bits w2 55 40
  let bmap := ws.getD 3 0
  let sw := (ws.drop 4).take 14
  let dw := (ws.drop 18).take 14
  let src := readView sw
  let dst := readView dw
  if decide (rank ≤ 5) && bits w2 39 35 == 0 && bits w2 63 56 == 0 && bmap % 8 == 0 && (nbw != 0 || bmap == 0)
      && (box.take rank).all (fun x => decide (1 ≤ x) && decide (x < 2 ^ 31)) && (box.drop rank).all (· == 0)
      && viewOk sw src rank false && viewOk dw dst rank true && src.esz == dst.esz && (nbw == 0 || !dst.sp)
  then some { rank := rank, box := box, nbw := nbw, bmap := bmap, src := src, dst := dst }
  else none

/-- Resolve a view's origin by one read of its mapping word (R265, R274). -/
def resolveView (s : State) (b : BInst) (v : View) : Except Report View :=
  if v.tid = 0 then .ok v
  else match namedTensor s b.node.w b.tag.colour v.tid with
    | .error r => .error r
    | .ok t =>
      if v.shd && !t.shopen then .error badDesc
      else
        let first := if v.shd then t.sel == 1 else t.sel == 0
        .ok { v with org := if first then t.buf0 else t.buf1, size := t.size }

/-! ### Points and addresses (R265) -/

/-- The coordinates of point `k`, i0 fastest. -/
def pointAt : List Nat → Nat → List Nat
  | [], _ => []
  | b :: l, k => if b = 0 then 0 :: pointAt l k else k % b :: pointAt l (k / b)

/-- The number of points of a box. -/
def boxSize (d : CopyDesc) : Nat := (d.box.take d.rank).foldl (· * ·) 1

/-- c_d; a stream's destination keeps START in its last dimension (R269). -/
def coordOf (v : View) (fixed : Option Nat) (pt : List Nat) (d : Nat) : Int :=
  v.start.getD d 0 + (if fixed = some d then 0 else (pt.getD d 0 : Nat))

def inView (v : View) (rank : Nat) (fixed : Option Nat) (pt : List Nat) : Bool :=
  (List.range rank).all (fun d => decide (0 ≤ coordOf v fixed pt d) && decide (coordOf v fixed pt d < (v.ext.getD d 0 : Nat)))

def viewAddr (v : View) (rank : Nat) (fixed : Option Nat) (pt : List Nat) : Int :=
  (List.range rank).foldl (fun a d => a + coordOf v fixed pt d * v.stride.getD d 0) ((v.org : Int) + v.base)

/-- Lim(v). -/
def viewLim (v : View) : Nat × Nat :=
  if v.sp then (0, scratchSize) else if v.tid = 0 then (0, 2 ^ 57) else (v.org, v.org + v.size)

/-- DORG of R267. -/
def dorg (d : CopyDesc) : Int := (d.dst.org : Int) + d.dst.base

/-- The report of a point whose view breaks a bound. -/
def pointReport (pt : List Nat) (view : Nat) (a : Int) : Report :=
  { cause := .addrOverflow, iters := pt, n := view, addr := (a % (2 ^ 64 : Nat)).toNat }

/-- The check of one view at one point; `more` adds the rules of chunks or ring slots for a destination. -/
def checkView (v : View) (rank view : Nat) (fixed : Option Nat) (more : Int → Bool) (pt : List Nat) : Option Report :=
  if inView v rank fixed pt then
    let a := viewAddr v rank fixed pt
    let n : Nat := 2 ^ v.esz
    let l := viewLim v
    if a < l.1 ∨ (l.2 : Int) < a + n ∨ a % (n : Int) ≠ 0 ∨ more a = false then some (pointReport pt view a) else none
  else none

/-- The first failing point from point `k` on, source before destination. -/
def checkPoints (d : CopyDesc) (fixed : Option Nat) (more : Int → Bool) : Nat → Nat → Option Report
  | 0, _ => none
  | n + 1, k =>
    let pt := pointAt d.box k
    match checkView d.src d.rank 0 none (fun _ => true) pt with
    | some r => some r
    | none => match checkView d.dst d.rank 1 fixed more pt with
      | some r => some r
      | none => checkPoints d fixed more n (k + 1)

/-- The chunk of a destination address (R267). -/
def chunkOf (d : CopyDesc) (a : Int) : Int := (a - dorg d) / 512

/-- Least and greatest in-range address of a view, over its points. -/
def viewSpan (d : CopyDesc) (v : View) : Option (Int × Int) :=
  (List.range (boxSize d)).foldl (fun (acc : Option (Int × Int)) k =>
    let pt := pointAt d.box k
    if inView v d.rank none pt then
      let a := viewAddr v d.rank none pt
      match acc with
      | none => some (a, a)
      | some (lo, hi) => some (min lo a, max hi a)
    else acc) none

/-- The overlapping case of R266. -/
def spansMeet (d : CopyDesc) : Bool :=
  d.src.sp == d.dst.sp && (match viewSpan d d.src, viewSpan d d.dst with
    | some (a, b), some (c, e) => decide (a ≤ e) && decide (c ≤ b)
    | _, _ => false)

/-! ### Starting an operation (R260) -/

/-- The engine that serves a cell's copies, and its memory cell. -/
def copyEngine (s : State) (b : BInst) : Option (Nat × Option Nat) :=
  match cellKind b.cell with
  | .compute => (linkOf s b.node).map (fun m => (m, some m))
  | _ => some (b.cell, linkOf s b.node)

/-- A view in scratch space needs an engine's memory cell that holds the scratch role (R241). -/
def viewRole (s : State) (b : BInst) (m : Option Nat) (v : View) : Bool :=
  !v.sp || (match m with
    | some c => roleOf (nodeCtx s b.node) c == some .scratch
    | none => false)

/-- The checks that CPY and CPYS share, up to the points. -/
def openDesc (s : State) (b : BInst) (ea : Nat) (m : Option Nat) : Except Report CopyDesc :=
  match descWords s b ea 4 with
  | .error r => .error r
  | .ok ws =>
    match readDesc ws with
    | none => .error badDesc
    | some d =>
      match resolveView s b d.src, resolveView s b d.dst with
      | .error r, _ => .error r
      | _, .error r => .error r
      | .ok vs, .ok vd =>
        if viewRole s b m vs && viewRole s b m vd then .ok { d with src := vs, dst := vd } else .error (failAt .permission ea)

/-- CPY's checks at execution (R264–R267). -/
def openCopy (s : State) (b : BInst) (ea : Nat) (m : Option Nat) : Except Report CopyDesc :=
  match openDesc s b ea m with
  | .error r => .error r
  | .ok d =>
    if d.nbw ≠ 0 ∧ dorg d % (2 ^ d.dst.esz : Nat) ≠ 0 then .error badDesc
    else
      let more (a : Int) : Bool := d.nbw == 0 || (decide (0 ≤ chunkOf d a) && decide (chunkOf d a < 64 * d.nbw))
      match checkPoints d none more (boxSize d) 0 with
      | some r => .error r
      | none => if (nodeCtx s b.node).replay && spansMeet d then .error (fail .replayNondet) else .ok d

/-- The dimension of a stream's tiles. -/
def tileDim (d : CopyDesc) : Nat := d.rank - 1

/-- CPYS's checks at execution (R269). -/
def openStream (s : State) (b : BInst) (ea slotb ns : Nat) (m : Option Nat) : Except Report CopyDesc :=
  match openDesc s b ea m with
  | .error r => .error r
  | .ok d =>
    if d.rank < 2 ∨ d.nbw ≠ 0 ∨ d.dst.sp = false ∨ slotb < 64 ∨ scratchSize < slotb ∨ slotb % 64 ≠ 0 then .error badDesc
    else if (scratchSize : Int) < d.dst.base + (ns * slotb : Nat) then .error (pointReport [0, 0, 0, 0, 0] 1 d.dst.base)
    else
      let more (a : Int) : Bool := decide (0 ≤ a - d.dst.base) && decide (a - d.dst.base + (2 ^ d.dst.esz : Nat) ≤ slotb)
      match checkPoints d (some (tileDim d)) more (boxSize d) 0 with
      | some r => .error r
      | none => .ok d

/-- The channel port of a target. -/
def portOf : Target → Option Nat
  | .chan q => some q.toNat
  | _ => none

/-- An operation that an instance starts; its number and start time are given at commit. -/
def newOp (b : BInst) (h : Hdr) (sc : Scope) (engine : Nat) (m : Option Nat) (k : OpKind) : EngOp :=
  { id := 0, engine := engine, cell := b.cell, node := b.node, tag := b.tag, blk := b.blk, slot := b.pc, gen := b.gen, port := portOf h.t0, scope := sc, mem := m, kind := k, start := 0, done := [], chunks := [], stuck := none, home := engine }

/-- The operation starts at commit, after the releases (R260). -/
def startAtCommit (s : State) (b : BInst) (o : EngOp) : State := putInst s (advance 1 (addEff (.engine o) b))

/-- A copy's shared form: the descriptor address, then the checks, with the mapping words read as an acquire at SCOPE
(R274), then the start. -/
def copyOp (h : Hdr) (p : PayE) (s : State) (f : BInst → Nat → List Val → Option Nat → Except Report OpKind) : Result :=
  memOp h s (fun b xs =>
    match baseOf false (xs.getD 0 noVal) with
    | none => putInst s (skipInst h b)
    | some ea =>
      match copyEngine s b with
      | none => raise s b (failAt .permission ea)
      | some (e, m) =>
        match f b ea xs m with
        | .error r => raise s b r
        | .ok k => startAtCommit (acquire s b p.scope) b (newOp b h p.scope e m k))

/-- CPY (R266). -/
def execCpy (h : Hdr) (p : PayE) (s : State) : Result :=
  copyOp h p s (fun b ea _ m => (openCopy s b ea m).map .copy)

/-- CPYS (R269): slot 2 of d, the slot size, must be valid too (R261). -/
def execCpys (h : Hdr) (p : PayE) (s : State) : Result :=
  memOp h s (fun b xs =>
    match slotOf (xs.getD 0 noVal) 2, baseOf false (xs.getD 0 noVal) with
    | some slotb, some ea =>
      let ns := p.ectl.toNat % 16 + 1
      match copyEngine s b with
      | none => raise s b (failAt .permission ea)
      | some (e, m) =>
        match openStream s b ea slotb.toNat ns m with
        | .error r => raise s b r
        | .ok d => startAtCommit (acquire s b p.scope) b (newOp b h p.scope e m (.stream d { ns := ns, slotb := slotb.toNat, place := 0, epoch := 0, next := 0, newest := [], accepted := [] }))
    | _, _ => putInst s (skipInst h b))

/-- SLOTF (R271): at commit it releases as PHASE and then sends its notice. -/
def execSlotf (h : Hdr) (p : PayE) (s : State) : Result :=
  memOp h s (fun b xs =>
    let r := xs.getD 0 noVal
    let b1 := addEff (.rel (.phase p.scope)) b
    match slotOf r 0, slotOf r 1, slotOf r 2 with
    | some hd, some t, some k =>
      let x := hd.toNat
      let n : Notice := { cell := bits x 6 0 + 128 * bits x 13 7, w := b.node.w, tag := b.tag, place := bits x 16 14, epoch := bits x 31 17, tile := t.toNat, slot := k.toNat }
      putInst s (advance 1 (addEff (.notice n) b1))
    | _, _, _ => putInst s (advance 1 b1))

/-! ### Shadow and publish (R272, R273) -/

/-- What SHDW and PUBL deliver after the step, from the entry. -/
def mapVal (status : Nat) (t : Tensor) : Val :=
  let buf := if t.sel = 0 then t.buf0 else t.buf1
  firstSlots [BitVec.ofNat 32 status, BitVec.ofNat 32 buf, BitVec.ofNat 32 (buf / 2 ^ 32), BitVec.ofNat 32 t.version, BitVec.ofNat 32 t.sel, if t.shopen then 1 else 0]

/-- Write one 8-byte word of a tensor entry at its home. -/
def putWord (s : State) (a v : Nat) : State := devPut s a 8 v

/-- SHOPEN of word 0, set or cleared. -/
def withShopen (w0 : Nat) (on : Bool) : Nat := w0 - bits w0 42 42 * 2 ^ 42 + (if on then 2 ^ 42 else 0)

/-- SHDW's step at the home: the status and the state after it. -/
def shadowStep (s : State) (t : Tensor) (buf : Nat) : State × Nat :=
  if t.shopen then (s, 1)
  else
    let s1 := putWord s (t.addr + 16 + 8 * (1 - t.sel)) buf
    (putWord s1 t.addr (withShopen (word8 s.mem t.addr 0) true), 0)

/-- PUBL's step at the home: word 1 and word 0 change together. -/
def publishStep (s : State) (t : Tensor) : State × Nat :=
  if !t.shopen then (s, 1)
  else if t.version = 0xFFFFFFFF then (s, 2)
  else
    let s1 := putWord s (t.addr + 8) ((t.version + 1) * 2 ^ 32 + (1 - t.sel))
    (putWord s1 t.addr (withShopen (word8 s.mem t.addr 0) false), 0)

/-- The bytes of a tensor entry. -/
def entryBytes (t : Tensor) : List Nat := (List.range 64).map (fun i => t.addr + i)

/-- SHDW (R272); an xts tensor's shadow is the base of its other buffer (R351). -/
def execShdw (h : Hdr) (_ : PayE) (s : State) : Result :=
  memOp h s (fun b xs =>
    match slotOf (xs.getD 0 noVal) 0, baseOf false (xs.getD 1 noVal) with
    | some tid, some buf =>
      match namedTensor s b.node.w b.tag.colour tid.toNat with
      | .error r => raise s b r
      | .ok t =>
        if buf % 64 ≠ 0 ∨ 2 ^ 57 < buf + t.size then raise s b (failAt .addrOverflow buf)
        else if t.mode = 1 ∧ buf ≠ xtsBase tid.toNat + (1 - t.sel) * 2 ^ 31 then raise s b (failAt .permission buf)
        else
          let r := releaseOverlap s b (entryBytes t)
          let st := shadowStep r.1 (readTensor r.1.mem t.addr) buf
          finishLoad st.1 h (markDurable r.2) (mapVal st.2 (readTensor st.1.mem t.addr)) (st.2 == 0)
    | _, _ => putInst s (skipInst h b))

/-- SHDW.qry (R272): it reads the mapping word as an acquire and opens nothing. -/
def execShdwQry (h : Hdr) (p : PayE) (s : State) : Result :=
  memOp h s (fun b xs =>
    match slotOf (xs.getD 0 noVal) 0 with
    | some tid =>
      match namedTensor s b.node.w b.tag.colour tid.toNat with
      | .error r => raise s b r
      | .ok t => finishLoad (acquire s b p.scope) h b (mapVal 0 t) true
    | none => putInst s (skipInst h b))

/-- PUBL (R273): it releases as PHASE, then swaps at the home. -/
def execPubl (h : Hdr) (_ : PayE) (s : State) : Result :=
  memOp h s (fun b xs =>
    match slotOf (xs.getD 0 noVal) 0 with
    | some tid =>
      match namedTensor s b.node.w b.tag.colour tid.toNat with
      | .error r => raise s b r
      | .ok t =>
        let r := releaseNow s b
        let st := publishStep r.1 (readTensor r.1.mem t.addr)
        finishLoad st.1 h (markDurable r.2) (mapVal st.2 (readTensor st.1.mem t.addr)) (st.2 == 0)
    | none => putInst s (skipInst h b))

/-- Whether the instance's block holds a wait that it has not reached (R255). -/
def waitAhead (b : BInst) : Bool := (slotsOf b.code).any (fun x => isWaitOp x.op && decide (b.pc < x.slot))

/-- EVQ (R275): it releases when it executes and posts its record at commit.  In a block whose wait stands above it, it
executes after the wait, so that a withdrawal leaves nothing of it (R255): its release is then that of the commit. -/
def execEvq (h : Hdr) (p : PayE) (s : State) : Result :=
  memOp h s (fun b xs =>
    let post : Eff := .evq p.ectl.toNat (xs.getD 0 noVal)
    if waitAhead b then putInst s (advance 1 (addEff post (addEff (.rel (.phase p.scope)) b)))
    else
      let r := releaseNow s b
      putInst r.1 (advance 1 (addEff post (markDurable r.2))))

/-! ### Collectives (R276–R279) -/

/-- Elements of SRC and DST (R278). -/
def collLens (c : CollDesc) : Nat × Nat :=
  if c.op = 3 then (c.count, c.p * c.count)
  else if c.op = 4 then (c.p * c.count, c.count)
  else (c.count, c.count)

/-- Elements that a participant writes: REDUCE writes at ROOT only (R278). -/
def collWrites (c : CollDesc) : Nat := if c.op = 1 ∧ c.rank ≠ c.root then 0 else (collLens c).2

def bytesOf (e : Word64) : Nat := (Fmt.ofWord e).cont / 8

def badColl : Report := { cause := .illegalEncoding, detail := 9 }

/-- Whether an operation is a collective of a (GROUP, SEQ). -/
def EngOp.isCollOf (g q : Nat) (o : EngOp) : Bool :=
  match o.kind with
  | .coll c => c.group == g && c.seq == q
  | _ => false

/-- Whether an operation of a (GROUP, SEQ) is in flight on the device: started, or to start at the commit of an instance
that has executed its COLL. -/
def collBusy (s : State) (g q : Nat) : Bool :=
  s.ops.any (EngOp.isCollOf g q) || s.insts.any (fun b => b.effs.any (fun e => match e with | .engine o => o.isCollOf g q | _ => false))

/-- An entry that a collective accepts. -/
def collEntry (x : Word64) : Bool :=
  legalEntry x && (Fmt.ofWord x).block == 0 && ((Fmt.ofWord x).cont == 8 || (Fmt.ofWord x).cont == 16 || (Fmt.ofWord x).cont == 32)

/-- COLL's checks at execution (R277, R278).  DEDUCED (assumption 41): the entries are checked here, as R278 says, and not
at the block's fetch. -/
def openColl (s : State) (b : BInst) (h : Hdr) (ea : Nat) : Except Report CollDesc :=
  match descWords s b ea 1 with
  | .error r => .error r
  | .ok ws =>
    let w0 := ws.getD 0 0
    let w1 := ws.getD 1 0
    let op := bits w0 2 0
    let red := bits w0 5 3
    let oent := bits w0 9 6
    let g := bits w0 23 16
    let q := bits w0 63 32
    let count := bits w1 27 0
    let root := bits w1 40 32
    let a := base12 s.cgtab + 1024 * g
    let e := word8 s.mem a 0
    let p := bits e 8 0
    if 4 < op ∨ 2 < red ∨ (red ≠ 0 ∧ (op = 2 ∨ op = 3)) ∨ bits w0 15 10 ≠ 0 ∨ bits w0 31 24 ≠ 0 ∨ count = 0 ∨ bits w1 31 28 ≠ 0
        ∨ bits w1 63 41 ≠ 0 ∨ (root ≠ 0 ∧ op ≠ 1 ∧ op ≠ 2) ∨ ws.getD 5 0 ≠ 0 ∨ ws.getD 6 0 ≠ 0 ∨ ws.getD 7 0 ≠ 0 then .error badColl
    else if bits e 22 22 = 0 ∨ bits e 21 18 ≠ b.node.w.toNat then .error (failAt .permission ea)
    else if p ≤ root ∧ root ≠ 0 then .error badColl
    else
      let ein := entryWord s b h.fmt.toNat
      let eout := entryWord s b oent
      if !collEntry ein then .error { cause := .formatEntry, entry := h.fmt.toNat }
      else if !collEntry eout then .error { cause := .formatEntry, entry := oent }
      else
        let c : CollDesc := { op := op, red := red, group := g, seq := q, count := count, root := root, src := ws.getD 2 0, dst := ws.getD 3 0, tmo := half ws 8, cseed := half ws 9, p := p, rank := bits e 17 9, ein := ein, eout := eout, mode := resolveRnd h.rnd (Fmt.ofWord eout) }
        let ls := collLens c
        if c.src % bytesOf ein ≠ 0 ∨ c.dst % bytesOf eout ≠ 0 then .error badColl
        else if 2 ^ 57 < c.src + ls.1 * bytesOf ein then .error (failAt .addrOverflow c.src)
        else if 2 ^ 57 < c.dst + ls.2 * bytesOf eout then .error (failAt .addrOverflow c.dst)
        else if collBusy s g q then .error { cause := .illegalEncoding, detail := 10 }
        else .ok c

/-- COLL (R278): the engine is that of the issuing cell's die. -/
def execColl (h : Hdr) (p : PayE) (s : State) : Result :=
  memOp h s (fun b xs =>
    match baseOf false (xs.getD 0 noVal) with
    | none => putInst s (skipInst h b)
    | some ea =>
      match openColl s b h ea with
      | .error r => raise s b r
      | .ok c => startAtCommit (acquire s b p.scope) b (newOp b h p.scope (cellDie b.cell) none (.coll c)))

/-! ### Room and starts at commit (R260, R275) -/

def EngOp.isStream (o : EngOp) : Bool := match o.kind with
  | .stream _ _ => true
  | _ => false

def EngOp.isCopy (o : EngOp) : Bool := match o.kind with
  | .copy _ => true
  | .stream _ _ => true
  | _ => false

def EngOp.isColl (o : EngOp) : Bool := match o.kind with
  | .coll _ => true
  | _ => false

/-- Whether an engine has room for an operation; the walker's room is judged with the lantern (R199). -/
def opRoom (s : State) (o : EngOp) : Bool :=
  match o.kind with
  | .coll _ => decide ((s.ops.filter (fun x => x.isColl && x.engine == o.engine)).length < 64)
  | .walk _ => true
  | _ =>
    let here := s.ops.filter (fun x => x.isCopy && x.engine == o.engine)
    decide (here.length < 16) && (!o.isStream || decide ((here.filter EngOp.isStream).length < 8))

/-- The lowest free stream place of an engine. -/
def freePlace (s : State) (engine : Nat) : Nat :=
  ((List.range 8).find? (fun k => !s.ops.any (fun o => o.engine == engine && (match o.kind with
    | .stream _ st => st.place == k
    | _ => false)))).getD 0

/-- Start an operation in its room; its reads acquire at SCOPE before its first access (R231, R260), but for a walk's. -/
def startOp (s0 : State) (o : EngOp) : State :=
  let s := match o.kind with
    | .walk _ => s0
    | _ => acquireAt s0 o.node o.scope
  let o1 := { o with id := s.nextOp, start := s.now }
  let s1 := { s with nextOp := s.nextOp + 1 }
  match o.kind with
  | .stream d st =>
    let k := freePlace s o.engine
    let n := mget 0 s.epochs (8 * o.engine + k)
    { s1 with epochs := mput 0 s1.epochs (8 * o.engine + k) (n + 1), ops := s1.ops ++ [{ o1 with kind := .stream d { st with place := k, epoch := n % 2 ^ 15 } }] }
  | _ => { s1 with ops := s1.ops ++ [o1] }

/-- Whether a spire's event queue takes one more record of a world (R275). -/
def evRoom (s : State) (spire : Nat) (w : BitVec 4) : Bool :=
  let q := s.evqs.filter (fun e => e.spire == spire)
  decide (q.length < 1024) && decide ((q.filter (fun e => e.w == w)).length < 256)

def postEv (s : State) (e : EvRec) : State := { s with evqs := s.evqs ++ [e] }

/-- Where an engine's record comes from (R369). -/
def opOrigin (s : State) (o : EngOp) : Origin :=
  { ctx := { w := o.node.w, x := o.node.x }, colour := o.tag.colour, iter := o.tag.iter, cell := o.cell, node := ((placedOf s o.node).map (fun p => p.node)).getD 0, blk := o.blk, slot := o.slot, nest := false, source := 1, gen := o.gen }

/-- A notice leaves at commit; one to a cell of another world is discarded and reported (R271). -/
def sendNotice (s : State) (o : Origin) (n : Notice) : State :=
  if mget none s.cellOwner n.cell = some n.w.toNat then { s with notices := s.notices ++ [n] }
  else deliverRecord s { o with source := 1 } (fail .permission) false

/-! ### Moving a point (R266, R268) -/

/-- Who holds the translation entry of an operation's accesses (R216): a stream of an address generator has one. -/
def opHolder (o : EngOp) : Nat :=
  match o.kind with
  | .stream _ st => if cellKind o.engine = .agen then streamHolder o.engine st.place else noHolder o.cell
  | _ => noHolder o.cell

/-- The machine address of `n` bytes that an engine operation accesses. -/
def engAddr (s : State) (o : EngOp) (sp : Bool) (a : Int) (n : Nat) (rd wr : Bool) : Except Report Nat :=
  if sp then .ok (scratchAddr (o.mem.getD 0) a.toNat) else access s (some (opHolder o)) o.node.w o.tag.colour a.toNat n rd wr

/-- An engine's virtual access passes through its line's Dome (R212). -/
def engTouch (s : State) (sp : Bool) (pa : Nat) : State := if sp then s else domeAccess s pa 0

/-- An engine's store of `n` bytes of `v`; a live word stops it (R268). -/
def engStore (s : State) (o : EngOp) (sp : Bool) (a : Int) (n v : Nat) : Except Report State :=
  match engAddr s o sp a n false true with
  | .error r => .error r
  | .ok pa =>
    if sp then .ok { s with mem := putBytes s.mem (cellsOf pa n v) }
    else if (cellsOf pa n v).any (fun c => typeAt s c.1 != 0) then .error (failAt .barrierStore a.toNat)
    else .ok (performWrite (engTouch s sp pa) { bytes := cellsOf pa n v, via := some { w := o.node.w, colour := o.tag.colour, va := a.toNat } })

/-- Whether a later point that has been copied wrote the same address (R266). -/
def laterWrote (d : CopyDesc) (fixed : Option Nat) (k : Nat) (a : Int) (done : List Nat) : Bool :=
  done.any (fun j => decide (k < j) && (let pt := pointAt d.box j; inView d.dst d.rank fixed pt && viewAddr d.dst d.rank fixed pt == a))

/-- Copy one point; `off` is the ring slot's offset. -/
def copyPoint (s : State) (o : EngOp) (d : CopyDesc) (fixed : Option Nat) (off k : Nat) : Except Report State :=
  let pt := pointAt d.box k
  let n := 2 ^ d.src.esz
  let at_ (r : Report) : Report := { r with iters := pt }
  if inView d.dst d.rank fixed pt = false then .ok s
  else
    let a := viewAddr d.dst d.rank fixed pt
    let v : Except Report (State × Nat) :=
      if inView d.src d.rank none pt then
        (engAddr s o d.src.sp (viewAddr d.src d.rank none pt) n true false).map (fun pa => (engTouch s d.src.sp pa, readLE s.mem pa n))
      else .ok (s, (d.src.pad + 2 ^ 32 * d.src.pad) % 2 ^ (8 * n))
    match v with
    | .error r => .error (at_ r)
    | .ok (s, x) => if laterWrote d fixed k a o.done then .ok s else (engStore s o d.dst.sp (a + off) n x).mapError at_

/-- Copy every point of a list that is not done, in order. -/
def copyPoints (o : EngOp) (d : CopyDesc) (fixed : Option Nat) (off : Nat) : State → List Nat → Except (Nat × Report) State
  | s, [] => .ok s
  | s, k :: l =>
    if o.done.contains k then copyPoints o d fixed off s l
    else match copyPoint s o d fixed off k with
      | .error r => .error (k, r)
      | .ok s1 => copyPoints o d fixed off s1 l

def findOp (s : State) (id : Nat) : Option EngOp := s.ops.find? (fun o => o.id == id)
/-- An operation stops at a point; one that waits for a memory level does not stop (R408). -/
def stickOp (o : EngOp) (e : Nat × Report) : EngOp := if e.2.cause = .stall then o else { o with stuck := some e }

def putOp (s : State) (o : EngOp) : State := { s with ops := updFirst (fun x => x.id == o.id) (fun _ => o) s.ops }
def endOp (s : State) (o : EngOp) : State := { s with ops := s.ops.filter (fun x => x.id != o.id) }

/-- The points of a copy, or of a stream's current tile. -/
def opPoints (o : EngOp) : List Nat :=
  match o.kind with
  | .copy d => List.range (boxSize d)
  | .stream d st =>
    let per := ((d.box.take (tileDim d)).foldl (· * ·) 1)
    (List.range per).map (fun k => st.next * per + k)
  | _ => []

/-- The ring offset of a stream's current tile, and its fixed dimension. -/
def opTile (o : EngOp) : Nat × Option Nat :=
  match o.kind with
  | .stream d st => (st.next % st.ns * st.slotb, some (tileDim d))
  | _ => (0, none)

def opDesc (o : EngOp) : Option CopyDesc :=
  match o.kind with
  | .copy d => some d
  | .stream d _ => some d
  | _ => none

/-- Whether a stream may start its next tile (R270). -/
def tileReady (o : EngOp) : Bool :=
  match o.kind with
  | .stream _ st => decide (st.next < st.ns) || st.accepted.contains (st.next - st.ns)
  | _ => true

/-- The engine moves one point ahead of the others: an agenda move that no table row needs. -/
def enginePoint (s : State) (id k : Nat) : State :=
  match findOp s id with
  | none => s
  | some o =>
    match opDesc o with
    | none => s
    | some d =>
      if o.stuck.isSome || o.done.contains k || !(opPoints o).contains k || !tileReady o then s
      else match copyPoint s o d (opTile o).2 (opTile o).1 k with
        | .error r => putOp s (stickOp o (k, r))
        | .ok s1 => putOp s1 { o with done := o.done ++ [k] }

/-! ### Completion (R268) -/

/-- The completion token's payload. -/
def completionVal (status : Nat) (r : Option Report) (pts : List (Option Nat)) : Val :=
  valOf (fun k =>
    if k = 0 then some (BitVec.ofNat 32 status)
    else if 4 ≤ k ∧ k ≤ 8 then (pts.getD (k - 4) none).map (BitVec.ofNat 32)
    else match r with
      | none => none
      | some f =>
        if k = 1 then some (BitVec.ofNat 32 f.cause.code)
        else if k = 2 then some (BitVec.ofNat 32 f.addr)
        else if k = 3 then some (BitVec.ofNat 32 (f.addr / 2 ^ 32))
        else none)

/-- Whether a finished operation can report now: its colour is not frozen (R292) and its record has room. -/
def canReport (s : State) (o : EngOp) : Bool :=
  !frozen s o.node.w o.node.x o.tag.colour && (o.port.isSome || evRoom s (cellSpire o.cell) o.node.w)

/-- Report by token or by event record. -/
def reportOp (s : State) (o : EngOp) (v : Val) : State :=
  match o.port with
  | some q => emitTok s o.node q (dataTok o.tag 0 v) none
  | none => postEv s { spire := cellSpire o.cell, w := o.node.w, src := if o.isColl then 2 else 1, tag := o.tag, code := 0, val := v }

/-- Slots 4 and 5 of a collective's token. -/
def collSlots (c : CollDesc) : List (Option Nat) := [some c.rank, some c.p]

/-- The chunks that a copy writes. -/
def copyChunks (d : CopyDesc) : List Nat :=
  ((List.range (boxSize d)).filterMap (fun k =>
    let pt := pointAt d.box k
    if inView d.dst d.rank none pt then some (chunkOf d (viewAddr d.dst d.rank none pt)).toNat else none)).eraseDups

/-- The points of one chunk. -/
def chunkPoints (d : CopyDesc) (j : Nat) : List Nat :=
  (List.range (boxSize d)).filter (fun k =>
    let pt := pointAt d.box k
    inView d.dst d.rank none pt && chunkOf d (viewAddr d.dst d.rank none pt) == j)

/-- Set bit `j` by an atomic OR at the home of its word, whose type must be bitmap (R267). -/
def setChunkBit (s : State) (o : EngOp) (d : CopyDesc) (j : Nat) : Except Report State :=
  let a := d.bmap + 8 * (j / 64)
  match access s (some (opHolder o)) o.node.w o.tag.colour a 8 true true with
  | .error r => .error r
  | .ok pa =>
    if typeAt s pa ≠ 2 then .error (failAt .permission a)
    else .ok (performWrite s { bytes := cellsOf pa 8 (readLE s.mem pa 8 ||| 2 ^ (j % 64)), via := some { w := o.node.w, colour := o.tag.colour, va := a } })

/-- CHUNK_COMPLETE (R267). -/
def execChunkComplete (op chunk : Nat) (s : State) : Result :=
  match findOp s op with
  | none => .next s
  | some o =>
    match o.kind with
    | .copy d =>
      if o.stuck.isSome || d.nbw == 0 || o.chunks.contains chunk || (chunkPoints d chunk).isEmpty then .next s
      else match copyPoints o d none 0 s (chunkPoints d chunk) with
        | .error e => .next (putOp s (stickOp o e))
        | .ok s1 =>
          let o1 := { o with done := o.done ++ (chunkPoints d chunk).filter (fun k => !o.done.contains k) }
          match setChunkBit s1 o d chunk with
          | .error r => .next (putOp s1 (stickOp o1 ((chunkPoints d chunk).headD 0, r)))
          | .ok s2 => .next (putOp s2 { o1 with chunks := chunk :: o.chunks })
    | _ => .next s

/-- COPY_COMPLETE (R267, R268). -/
def execCopyComplete (op : Nat) (s : State) : Result :=
  match findOp s op with
  | none => .next s
  | some o =>
    match o.kind with
    | .copy d =>
      if o.stuck.isSome || !canReport s o || (d.nbw != 0 && (copyChunks d).any (fun j => !o.chunks.contains j)) then .next s
      else match copyPoints o d none 0 s (opPoints o) with
        | .error e => .next (putOp s (stickOp o e))
        | .ok s1 => .next (reportOp (endOp s1 o) o (completionVal 0 none []))
    | _ => .next s

/-! ### Streams (R270, R271) -/

/-- Tiles of a stream. -/
def tileCount (d : CopyDesc) : Nat := d.box.getD (tileDim d) 0

/-- A ready token. -/
def readyVal (o : EngOp) (d : CopyDesc) (st : StreamSt) (f : Option Report) : Val :=
  let handle := cellX o.home + cellY o.home * 2 ^ 7 + st.place * 2 ^ 14 + st.epoch * 2 ^ 17
  let k := st.next % st.ns
  let last := f.isSome || st.next + 1 == tileCount d
  let base := firstSlots [BitVec.ofNat 32 handle, BitVec.ofNat 32 st.next, BitVec.ofNat 32 k, BitVec.ofInt 32 (d.dst.base + (k * st.slotb : Nat)), BitVec.ofNat 32 ((if last then 1 else 0) + (if f.isSome then 2 else 0))]
  match f with
  | none => base
  | some r => valOf (fun i =>
      if i = 5 then some (BitVec.ofNat 32 r.cause.code)
      else if i = 6 then some (BitVec.ofNat 32 r.addr)
      else if i = 7 then some (BitVec.ofNat 32 (r.addr / 2 ^ 32))
      else slotOf base i)

/-- A stream after it has emitted its tile; it ends after its LAST token. -/
def afterTile (s : State) (o : EngOp) (d : CopyDesc) (st : StreamSt) (ended : Bool) : State :=
  if ended || st.next + 1 == tileCount d then endOp s o
  else putOp s { o with done := [], kind := .stream d { st with next := st.next + 1, newest := mput none st.newest (st.next % st.ns) (some st.next) } }

/-- STREAM_TILE (R270); a cut stops streams at once (R389). -/
def execStreamTile (op : Nat) (s : State) : Result :=
  match findOp s op with
  | none => .next s
  | some o =>
    match o.kind with
    | .stream d st =>
      if o.stuck.isSome || !tileReady o || !canReport s o || (nodeCtx s o.node).cut.isSome then .next s
      else match copyPoints o d (opTile o).2 (opTile o).1 s (opPoints o) with
        | .error e => .next (putOp s (stickOp o e))
        | .ok s1 => .next (reportOp (afterTile s1 o d st false) o (readyVal o d st none))
    | _ => .next s

/-- Whether a stream accepts a notice (R271). -/
def accepts (o : EngOp) (n : Notice) : Bool :=
  match o.kind with
  | .stream _ st =>
    o.home == n.cell && o.node.w == n.w && o.tag == n.tag && st.place == n.place && st.epoch == n.epoch
      && mget none st.newest n.slot == some n.tile && !st.accepted.contains n.tile
  | _ => false

def acceptTile (t : Nat) (o : EngOp) : EngOp :=
  match o.kind with
  | .stream d st => { o with kind := .stream d { st with accepted := t :: st.accepted } }
  | _ => o

/-- NOTICE_ACCEPT (R271): any other notice is discarded. -/
def execNoticeAccept (cell : Nat) (s : State) : Result :=
  match s.notices.find? (fun n => n.cell == cell) with
  | none => .next s
  | some n => .next { s with notices := delFirst (fun x => x.cell == cell) s.notices, ops := updFirst (fun o => accepts o n) (acceptTile n.tile) s.ops }

/-! ### Collectives (R279, R280) -/

/-- The codes of this participant's SRC. -/
def collSrc (s : State) (o : EngOp) (c : CollDesc) : Nat → Nat → Except Report (List Nat)
  | 0, _ => .ok []
  | n + 1, i =>
    let w := bytesOf c.ein
    match access s (some (opHolder o)) o.node.w o.tag.colour (c.src + i * w) w true false with
    | .error r => .error r
    | .ok pa => (collSrc s o c n (i + 1)).map (fun l => readLE s.mem pa w :: l)

/-- SRC's lines pass through their Domes as it is read (R212). -/
def collTouch (o : EngOp) (c : CollDesc) : Nat → Nat → State → State
  | 0, _, s => s
  | n + 1, i, s =>
    match access s (some (opHolder o)) o.node.w o.tag.colour (c.src + i * bytesOf c.ein) (bytesOf c.ein) true false with
    | .error _ => s
    | .ok pa => collTouch o c n (i + 1) (engTouch s false pa)

/-- The greater, or with `big` false the smaller, of two values; NaN is ignored and −0 lies below +0. -/
def pickNum (big : Bool) (a b : Num) : Num :=
  if a.isNan then b
  else if b.isNan then a
  else if a.before b then (if big then b else a) else (if big then a else b)

/-- Reduce (R279), before its rounding. -/
def reduceNum (red : Nat) (l : List Num) : Num :=
  if red = 0 then chunkSum l
  else match l with
    | [] => .nan
    | a :: l => l.foldl (pickNum (red == 1)) a

/-- Element `n` of rank `q`'s DST, from every rank's SRC. -/
def collElem (c : CollDesc) (q n : Nat) (srcs : Nat → Nat → Nat) : Nat :=
  let ein := Fmt.ofWord c.ein
  let eout := Fmt.ofWord c.eout
  let noise := srNoise (BitVec.ofNat 64 c.cseed) (BitVec.ofNat 64 (c.seq * 2 ^ 32 + n % 2 ^ 32)) 0
  let reduced (i : Nat) : Nat := roundNum (reduceNum c.red ((List.range c.p).map (fun r => decodeElem ein (srcs r i)))) eout c.mode noise
  if c.op = 2 then convert (srcs c.root n) ein eout c.mode noise
  else if c.op = 3 then convert (srcs (n / c.count) (n % c.count)) ein eout c.mode noise
  else if c.op = 4 then reduced (q * c.count + n)
  else reduced n

/-- Write DST until an element fails. -/
def collWrite (o : EngOp) (c : CollDesc) (f : Nat → Nat) : Nat → Nat → State → State × Option Report
  | 0, _, s => (s, none)
  | n + 1, i, s =>
    let w := bytesOf c.eout
    match engStore s o false ((c.dst + i * w : Nat) : Int) w (f i) with
    | .error r => (s, some r)
    | .ok s1 => collWrite o c f n (i + 1) s1

/-- The parameters that every participant must give alike (R278). -/
def sameColl (a b : CollDesc) : Bool :=
  a.op == b.op && a.red == b.red && a.count == b.count && a.root == b.root && a.cseed == b.cseed && a.mode == b.mode
    && a.ein == b.ein && a.eout == b.eout

/-- The other participants of a collective that have started. -/
def peersOf (s : State) (c : CollDesc) : List Peer := s.peers.filter (fun p => p.desc.group == c.group && p.desc.seq == c.seq)

def allStarted (s : State) (c : CollDesc) : Bool :=
  (List.range c.p).all (fun r => r == c.rank || (peersOf s c).any (fun p => p.rank == r))

/-- End a collective with a status and, with a fault, its report. -/
def endColl (s : State) (o : EngOp) (c : CollDesc) (status : Nat) (f : Option Report) : State :=
  let s1 := { endOp s o with peers := s.peers.filter (fun p => !(p.desc.group == c.group && p.desc.seq == c.seq)) }
  let s2 := match f with
    | some r => deliverRecord s1 (opOrigin s o) r false
    | none => s1
  reportOp s2 o (completionVal status f (collSlots c))

/-- COLL_COMPLETE (R279, R280): status 8 is PEER, 4 MISMATCH and 1 FAULT. -/
def execCollComplete (op : Nat) (s : State) : Result :=
  match findOp s op with
  | none => .next s
  | some o =>
    match o.kind with
    | .coll c =>
      let ps := peersOf s c
      if !canReport s o then .next s
      else if ps.any (fun p => p.failed) then .next (endColl s o c 8 none)
      else if !allStarted s c then .next s
      else if ps.any (fun p => !sameColl c p.desc) then .next (endColl s o c 4 none)
      else match collSrc s o c (collLens c).1 0 with
        | .error _ => .next s
        | .ok own =>
          let srcs (r i : Nat) : Nat := if r = c.rank then own.getD i 0 else ((ps.find? (fun p => p.rank == r)).map (fun p => p.src.getD i 0)).getD 0
          let wr := collWrite o c (fun n => collElem c c.rank n srcs) (collWrites c) 0 (collTouch o c (collLens c).1 0 s)
          match wr.2 with
          | none => .next (endColl wr.1 o c 0 none)
          | some r => if r.cause = .stall then .next s else .next (endColl wr.1 o c 1 (some r))
    | _ => .next s

/-- COLL_TIMEOUT (R280): after another participant's abort it ends with PEER, not TIMEOUT. -/
def execCollTimeout (op : Nat) (s : State) : Result :=
  match findOp s op with
  | none => .next s
  | some o =>
    match o.kind with
    | .coll c =>
      if !canReport s o || c.tmo == 0 || decide (s.now < o.start + c.tmo) || allStarted s c then .next s
      else .next (endColl s o c (if (peersOf s c).any (fun p => p.failed) then 8 else 2) none)
    | _ => .next s

/-! ### Faults (R268) -/

/-- Where an operation is stuck, or would be if it went on. -/
def opStuck (s : State) (o : EngOp) : Option (Nat × Report) :=
  match o.stuck with
  | some e => some e
  | none =>
    match o.kind with
    | .copy d => (match copyPoints o d none 0 s (opPoints o) with | .error e => some e | .ok _ => none)
    | .stream d _ => if tileReady o then (match copyPoints o d (opTile o).2 (opTile o).1 s (opPoints o) with | .error e => some e | .ok _ => none) else none
    | .coll c => (match collSrc s o c (collLens c).1 0 with | .error r => some (0, r) | .ok _ => none)
    | .walk _ => none

/-- ENGINE_FAULT (R268, R270, R280): the operation stops; what has reached its home remains. -/
def execEngineFault (op : Nat) (s : State) : Result :=
  match findOp s op with
  | none => .next s
  | some o =>
    match opStuck s o with
    | none => .next s
    | some (_, r) =>
      if !canReport s o || r.cause == .stall then .next s
      else match o.kind with
        | .copy _ => .next (reportOp (deliverRecord (endOp s o) (opOrigin s o) r false) o (completionVal 1 (some r) ((List.range 5).map (fun d => some (r.iters.getD d 0)))))
        | .stream d st => .next (reportOp (deliverRecord (afterTile s o d st true) (opOrigin s o) r false) o (readyVal o d st (some r)))
        | .coll c => .next (if (peersOf s c).any (fun p => p.failed) then endColl s o c 8 none else endColl s o c 1 (some r))
        | .walk _ => .next s

end Sys2Proof.Machine
end

