-- ==== Sys2Proof/Machine/Format.lean ====
section
/-! DEFINITION. The format table's instructions, opcodes 0x388–0x38A, and the reach of a change (R127–R132). -/

namespace Sys2Proof.Machine

/-- The key of a context's cell. -/
def reachKey (w : BitVec 4) (x : Context) (cell : Nat) : Nat := ctxKey w x * 16384 + cell

/-- The newest generation whose change has reached a cell (R127). -/
def reachOf (s : State) (w : BitVec 4) (x : Context) (cell : Nat) : Nat := mget 0 s.fmtReach (reachKey w x cell)

def setReach (s : State) (w : BitVec 4) (x : Context) (cell g : Nat) : State := { s with fmtReach := mput 0 s.fmtReach (reachKey w x cell) g }

/-- The cells of a context's nodes. -/
def ctxCells (c : Ctx) : List Nat := (c.nodes.map (fun p => p.cell)).eraseDups

/-- The word that an operand gives a 64-bit register, or none when slot 0 is invalid; a constant gives its 32
bits (R132, R382, R383). -/
def regWord (h : Hdr) (k0 : BitVec 32) (v : Val) : Option Word64 :=
  if h.imask.getLsbD 0 then some (k0.zeroExtend 64) else if v.valid.getLsbD 0 then some (pairOf v) else none

/-- FMTLD (R132): applied at commit, with no check of legality. -/
def execFmtld (h : Hdr) (p : PayS) (s : State) : Result :=
  withOps h (k0Const p.k0) s (skipInst h) (fun b xs =>
    match regWord h p.k0 (xs.getD 0 noVal) with
    | none => putInst s (advance 1 b)
    | some w => putInst s (advance 1 (addEff (.fmt p.sreg.toNat w) b)))

/-- FMTRD (R132): the entry and the generation that the instance captured. -/
def execFmtrd (h : Hdr) (p : PayS) (s : State) : Result :=
  withOps h (k0Const p.k0) s (skipInst h) (fun b _ =>
    let x := entryWord s b p.sreg.toNat
    let v := firstSlots [x.extractLsb' 0 32, x.extractLsb' 32 32, BitVec.ofNat 32 (b.gen % 65536)]
    putInst s (advance 1 (deliver h 0 (same v (predGeneral v)) b)))

/-- The entry at generation `g`. -/
def entriesAt (c : Ctx) (g : Nat) : List Word64 := ((c.gens.find? (fun x => x.gen == g)).map (fun x => x.entries)).getD resetEntries

/-- The generations that work of a context holds, other than the instances that `but` excepts (R128, R129); a chained
instance that waits in its place has captured none. -/
def heldGens (s : State) (w : BitVec 4) (x : Context) (but : BInst → Bool) : List Nat :=
  ((s.insts.filter (fun b => b.node.w == w && b.node.x == x && b.stage != .waiting && !but b)).map (fun b => b.gen))
    ++ ((s.ops.filter (fun o => o.node.w == w && o.node.x == x && (match o.kind with | .coll _ => true | _ => false))).map (fun o => o.gen))
    ++ ((s.planes.filter (fun e => mget none s.cellOwner e.1 == some w.toNat)).map (fun e =>
      match e.2 with
      | some r => if r.tag.context = x then ([r.p0, r.p1].filterMap (fun q => q.map (fun p => p.gen))) else []
      | none => [])).flatten

/-- FMTSYNC (R132): G is the newest generation that had reached its cell, or that an FMTLD committed there, by the end of
the cycle of its fetch; it waits until every cell has it and no work holds an older one. -/
def execFmtsync (h : Hdr) (p : PayS) (s : State) : Result :=
  withOps h (k0Const p.k0) s (skipInst h) (fun b _ =>
    let c := nodeCtx s b.node
    let others (y : BInst) : Bool := y.cell == b.cell && decide (b.seq ≤ y.seq)
    if b.fetched == some s.now || (ctxCells c).any (fun cl => decide (reachOf s b.node.w b.node.x cl < b.sync))
        || (heldGens s b.node.w b.node.x others).any (fun g => decide (g < b.sync)) then s
    else
      let v := word32 (b.sync % 65536)
      putInst s (advance 1 (deliver h 0 (same v (predGeneral v)) b)))

/-- Whether the commit of an instance's table changes keeps at most 8 live generations (R129).  R129 speaks of one new
generation; each of several FMTLDs of an instance counts as one more (assumption 46). -/
def fmtRoom (s : State) (b : BInst) (n : Nat) : Bool :=
  let c := nodeCtx s b.node
  let new := (List.range n).map (fun i => c.gen + 1 + i)
  decide ((heldGens s b.node.w b.node.x (fun y => y.isAt b.cell b.seq) ++ new).eraseDups.length ≤ 8)

/-- Apply one change (R130): GEN advances; the issuing cell has it in the next cycle, and every other cell of the context
later, in order. -/
def applyFmt (s : State) (b : BInst) (entry : Nat) (w : Word64) : State :=
  let c := nodeCtx s b.node
  let g := c.gen + 1
  let s1 := setCtx s b.node.w b.node.x { c with gen := g, gens := c.gens ++ [{ gen := g, entries := (entriesAt c c.gen).set entry w }] }
  let x : CtxId := { w := b.node.w, x := b.node.x }
  { s1 with
    fmtOwn := s1.fmtOwn ++ [(x, b.cell, g)]
    fmtTravel := s1.fmtTravel ++ (((ctxCells c).filter (fun cl => cl != b.cell)).map (fun cl => (x, cl, g, s.now))) }

/-- Generations that nothing holds and every cell has passed need not be kept. -/
def pruneGens (s : State) (w : BitVec 4) (x : Context) : State :=
  let c := ctxOf s w x
  let held := heldGens s w x (fun _ => false)
  let low := (ctxCells c).foldl (fun a cl => min a (reachOf s w x cl)) c.gen
  setCtx s w x { c with gens := c.gens.filter (fun g => decide (low ≤ g.gen) || held.contains g.gen) }

/-- A generation reaches a cell; one that is older than what has reached it changes nothing. -/
def reachCell (s : State) (x : CtxId) (cell g : Nat) : State :=
  pruneGens (setReach s x.w x.x cell (max (reachOf s x.w x.x cell) g)) x.w x.x

/-- The oldest change on its way to a cell reaches it; changes reach each cell in order (R130). -/
def travelOne (s : State) (x : CtxId) (cell : Nat) : State :=
  match s.fmtTravel.find? (fun t => t.1 == x && t.2.1 == cell) with
  | none => s
  | some t => reachCell { s with fmtTravel := delFirst (fun u => u.1 == x && u.2.1 == cell) s.fmtTravel } x cell t.2.2.1

/-- FORMAT_CHANGE_REACH (R130): the oldest change on its way to a cell reaches it, in a cycle after that of its commit. -/
def execFormatChangeReach (x : CtxId) (cell : Nat) (s : State) : Result :=
  match s.fmtTravel.find? (fun t => t.1 == x && t.2.1 == cell) with
  | none => .next s
  | some t => .next (if t.2.2.2 < s.now then travelOne s x cell else s)

/-- A change that an issuing cell committed in this cycle reaches it, behind those that were applied before it, and is in the
wait set of what was fetched there in this cycle (R130, R132). -/
def reachOwn (s : State) (t : CtxId × Nat × Nat) : State :=
  let before := (s.fmtTravel.filter (fun u => u.1 == t.1 && u.2.1 == t.2.1 && decide (u.2.2.1 < t.2.2))).length
  let s1 := (List.range before).foldl (fun st _ => travelOne st t.1 t.2.1) s
  let mine (b : BInst) : Bool := b.cell == t.2.1 && b.node.w == t.1.w && b.node.x == t.1.x && b.fetched == some s.now
  let s2 := reachCell s1 t.1 t.2.1 t.2.2
  { s2 with insts := s2.insts.map (fun b => if mine b then { b with sync := max b.sync t.2.2 } else b) }

/-- The end of a cycle: the changes of its commits reach their own cells. -/
def reachOwns (s : State) : State := s.fmtOwn.foldl reachOwn { s with fmtOwn := [] }

/-- By a cycle, every change has reached every cell that it was committed 4,096 cycles before (R130). -/
def reachLate (s : State) (now : Nat) : State :=
  (s.fmtTravel.filter (fun t => decide (t.2.2.2 + 4096 ≤ now))).foldl (fun st t => travelOne st t.1 t.2.1) s

end Sys2Proof.Machine
end

