-- ==== Sys2Proof/Machine/Quota.lean ====
section
/-! DEFINITION. Quotas, tags, spawn and purge, opcodes 0x340–0x345, and the end of a purge (R284–R302). -/

namespace Sys2Proof.Machine

/-! ### Quotas (R285, R287) -/

/-- (m, s) of a colour at an input port of a context. -/
def quotaIn (c : Ctx) (node port : Nat) (col : Colour) : Nat × Nat :=
  match c.quotas.find? (fun q => q.1 == node && q.2.1 == port && q.2.2.1 == col) with
  | some q => (q.2.2.2.1, q.2.2.2.2)
  | none => (0, 0)

/-- Set a quota line. -/
def putQuota (l : List (Nat × Nat × Colour × Nat × Nat)) (node port : Nat) (col : Colour) (m sl : Nat) : List (Nat × Nat × Colour × Nat × Nat) :=
  l.filter (fun q => !(q.1 == node && q.2.1 == port && q.2.2.1 == col)) ++ [(node, port, col, m, sl)]

/-- The quota lines at one cell, or at a lantern of the graph that gives its role, over every context of a world; colour
0 at a supervisor's exception port is not counted (R287, R342). -/
def quotasAt (s : State) (w : BitVec 4) (cell : Nat) (lantern : Bool) : List (Colour × Nat × Nat) :=
  let here (p : Placed) : Bool := p.cell == cell && (if lantern then p.route.kind == .lantern && p.route.lanternRole else p.route.kind != .lantern)
  ((s.ctxs.filter (fun e => e.1 / 256 == w.toNat && e.2.resident)).map (fun e =>
    (e.2.quotas.filter (fun q => e.2.nodes.any (fun p => p.route.num == q.1 && here p) && !(q.2.2.1 == 0 && q.2.1 == 15 && supervisorOf e.2 == some q.1))).map
      (fun q => (q.2.2.1, q.2.2.2.1, q.2.2.2.2)))).flatten

/-- What limits the tokens stored at a node's cell (R287). -/
inductive Store where
  | compute | agen | fifo | lantern
  deriving DecidableEq, Repr

def storeOf (p : Placed) : Store :=
  match p.route.kind with
  | .compute => .compute
  | .agen => .agen
  | .memory => .fifo
  | .lantern => .lantern

/-- Limits on Σ m, Σ s and the admitted colours; a fifo or a lantern takes m of 0 or 1 and does not count it. -/
def storeLimits : Store → Nat × Nat × Nat
  | .compute => (64, 256, 32)
  | .agen => (32, 128, 32)
  | .fifo => (0, 1638, 256)
  | .lantern => (0, 4096, 256)

/-- Whether quota lines keep the limits of a store. -/
def totalsOk (st : Store) (l : List (Colour × Nat × Nat)) : Bool :=
  let lim := storeLimits st
  let sumM := l.foldl (fun a q => a + q.2.1) 0
  let sumS := l.foldl (fun a q => a + q.2.2) 0
  let cols := ((l.filter (fun q => q.2.1 != 0)).map (fun q => q.1)).eraseDups.length
  (if st = .fifo ∨ st = .lantern then l.all (fun q => decide (q.2.1 ≤ 1)) else decide (sumM ≤ lim.1))
    && decide (sumS ≤ lim.2.1) && decide (cols ≤ lim.2.2)

/-- Whether the port of a node is an input port of the graph. -/
def isInput (p : Placed) (port : Nat) : Bool :=
  p.route.chans.any (fun ch => ch.dst == some { node := p.route.num, port := BitVec.ofNat 4 port }) || p.route.quotas.any (fun q => q.port.toNat == port)

def badQuota : Report := { cause := .illegalEncoding, detail := 11 }

/-- A colour operand: slot 0, bits [31:8] zero. -/
def colourArg (x : Slot) : Option Colour := if x.toNat < 256 then some (BitVec.ofNat 8 x.toNat) else none

/-- Whether the instance runs in its context's supervisor node (R298). -/
def inSupervisor (s : State) (b : BInst) : Bool := supervisorOf (nodeCtx s b.node) == some b.node.n

/-- A quota instruction: supervisor only where `sup`; an invalid slot that it reads makes it act as guarded off. -/
def quotaOp (h : Hdr) (p : PayQ) (s : State) (sup : Bool) (body : BInst → List Slot → State) : Result :=
  withOps h (k0Const p.k0) s (skipInst h) (fun b xs =>
    match xs.mapM (fun v => slotOf v 0) with
    | none => putInst s (skipInst h b)
    | some l => if sup && !inSupervisor s b then raise s b (fail .permission) else body b l)

/-- The instruction at the pc is done but for a change that its instance makes as its commit begins. -/
def defer (s : State) (h : Hdr) (b : BInst) (a : LateAct) : State :=
  putInst s (advance 1 { b with later := b.later ++ [{ slot := b.pc, h := h, act := a }] })

/-- Deliver the outcome of a change: words in the low slots, and 1 to a predicate where slot 0 is 0 (R298). -/
def lateDeliv (l : Late) (b : BInst) (ws : List Nat) : BInst :=
  let v := firstSlots (ws.map (BitVec.ofNat 32))
  deliverAt l.slot l.h 0 (same v (predZero v)) b

/-- Apply a quota at a port's cell, or refuse it (R289, R299). -/
def applyQuota (s : State) (n : NodeId) (p : Placed) (port : Nat) (c : Colour) (m sl : Nat) : State × Bool :=
  let x := nodeCtx s n
  let s1 := setCtx s n.w n.x { x with quotas := putQuota x.quotas p.route.num port c m sl, changed := putQuota x.changed p.route.num port c m sl }
  if totalsOk (storeOf p) (quotasAt s1 n.w p.cell (p.route.kind == .lantern)) then (s1, true) else (s, false)

/-- QUOTA (R299): its words are checked here, and its change made as its commit begins. -/
def execQuota (h : Hdr) (p : PayQ) (s : State) : Result :=
  quotaOp h p s true (fun b l =>
    let w := (l.getD 1 0).toNat
    let m := bits w 6 0
    let sl := bits w 15 8
    let port := p.qctl.toNat % 16
    let n : NodeId := { b.node with n := p.qctl.toNat / 16 }
    match colourArg (l.getD 0 0), placedOf s n with
    | some c, some pl =>
      if bits w 7 7 ≠ 0 ∨ bits w 31 16 ≠ 0 ∨ 64 < m ∨ (m = 0 ∧ sl ≠ 0) ∨ isInput pl port = false then raise s b badQuota
      else defer s h b (.quota n port c m sl)
    | _, _ => raise s b badQuota)

/-- A word of QUOTA.tag or STALLT: 16 bits, under a zero upper half. -/
def halfOp (h : Hdr) (p : PayQ) (s : State) (act : Colour → Nat → LateAct) : Result :=
  quotaOp h p s true (fun b l =>
    let w := (l.getD 1 0).toNat
    match colourArg (l.getD 0 0) with
    | none => raise s b badQuota
    | some c => if 2 ^ 16 ≤ w then raise s b badQuota else defer s h b (act c w))

/-- QUOTA.tag (R295, R299). -/
def execQuotaTag (h : Hdr) (p : PayQ) (s : State) : Result := halfOp h p s .cap

/-- The stall limit of a colour: 1,024 at launch (R290). -/
def limitOf (c : Ctx) (col : Colour) : Nat := mget 1024 c.limits col.toNat

/-- STALLT (R299). -/
def execStallt (h : Hdr) (p : PayQ) (s : State) : Result := halfOp h p s .limit

/-! ### Tags (R294, R300, R301) -/

/-- Deliver to a channel target a token with a tag of its own. -/
def emitTagged (t : Target) (tag : Tag) (v : Val) (b : BInst) : BInst :=
  match t with
  | .chan q => { b with emits := b.emits ++ [{ slot := b.pc, port := q.toNat, tok := dataTok tag 0 v }] }
  | _ => b

/-- SPAWN (R300): it holds the tag that its firing took when it was chosen; guarded off, it returns it at commit. -/
def execSpawn (h : Hdr) (p : PayQ) (s : State) : Result :=
  withOps h (k0Const p.k0) s
    (fun b => skipInst h (match b.spawned with | some g => addEff (.tagFree g) b | none => b))
    (fun b xs =>
      match b.spawned with
      | none => s
      | some g =>
        if (nodeCtx s b.node).replay then raise s b (fail .replayNondet)
        else
          let v := word32 g.toNat
          putInst s (advance 1 (deliver1 b.pc h.t1 0 v (predZero v) (emitTagged h.t0 { b.tag with iter := g } (xs.getD 0 noVal) b))))

/-- TAGFREE (R300): the tag is judged and returns at commit. -/
def execTagfree (h : Hdr) (p : PayQ) (s : State) : Result :=
  quotaOp h p s false (fun b l => if 2 ^ 16 ≤ (l.getD 0 0).toNat then raise s b badQuota else defer s h b (.tagFree (l.getD 0 0).toNat))

/-- RECOL (R301). -/
def execRecol (h : Hdr) (p : PayQ) (s : State) : Result :=
  withOps h (k0Const p.k0) s (skipInst h) (fun b xs =>
    let col := p.qctl.getLsbD 0
    let x := xs.getD 0 noVal
    match slotOf (xs.getD 1 noVal) 0 with
    | none => putInst s (skipInst h b)
    | some g =>
      if col && !inSupervisor s b then raise s b (fail .permission)
      else if g.toNat / (if col then 2 ^ 24 else 2 ^ 16) ≠ 0 then raise s b badQuota
      else
        let tag : Tag := { b.tag with colour := if col then g.extractLsb' 16 8 else b.tag.colour, iter := g.extractLsb' 0 16 }
        putInst s (advance 1 (deliver1 b.pc h.t1 0 x (predZero x) (emitTagged h.t0 tag x b))))

/-! ### Purge (R292, R302) -/

/-- Whether a node and a tag are a colour's in a context. -/
def ofColour (w : BitVec 4) (x : Context) (c : Colour) (n : NodeId) (t : Tag) : Bool := n.w == w && n.x == x && t.colour == c

def isPayload (t : Token) : Bool := t.kind == .data || t.kind == .scale

/-- The spires of the lanterns that a graph declares. -/
def lanternSpires (c : Ctx) : List Nat := (c.nodes.filter (fun p => p.route.kind == .lantern)).map (fun p => cellSpire p.cell)

/-- An emitted token without the channels that some test names; none once no channel is left. -/
def OutTok.without (gone : Nat → Bool) (o : OutTok) : Option OutTok :=
  let o1 := { o with todo := o.todo.filter (fun k => !gone k), sent := o.sent.filter (fun k => !gone k) }
  if o1.todo = [] ∧ o1.sent = [] then none else some o1

/-- Whether an instance waits for a purge that has not begun: its turn comes after that of the purge in progress. -/
def queuedPurge (c : Ctx) (b : BInst) : Bool := c.purgeq.any (fun e => e.2 == .inst b.cell b.seq)

/-- Remove every trace of a colour's work in a context, and its tokens at and before the lanterns that the
context's graph declares (R292); count the tokens, instances and tags.  What engines and external ports have still to send
waits at its source. -/
def dropColour (s : State) (w : BitVec 4) (x : Context) (c : Colour) : State × Nat × Nat × Nat :=
  let cx := ctxOf s w x
  let mine := ofColour w x c
  let spires := lanternSpires cx
  let chan (ch : ChanId) (t : Token) : Bool := t.tag.colour == c && ch.w == w && (ch.x == x || endsAtLantern s spires ch)
  let held (n : NodeId) (t : Tag) : Bool := mine n t || (n.w == w && t.colour == c && ((lanternOf s n).map spires.contains).getD false)
  let outs (o : OutTok) : Option OutTok :=
    if o.tok.kind = .marker ∨ o.tok.tag.colour ≠ c ∨ o.at_.node.w ≠ w then some o
    else if mine o.at_.node o.tok.tag && isPayload o.tok && o.owner.isNone && (lanternOf s o.at_.node).isNone then (if o.todo = [] then none else some { o with sent := [] })
    else if held o.at_.node o.tok.tag then none
    else o.without (fun k => endsAtLantern s spires { w := w, x := o.at_.node.x, n := k })
  let gone (b : BInst) : Bool := mine b.node b.tag && (!b.begun || queuedPurge cx b)
  let dead := s.insts.filter gone
  let deadInvs := (s.invs.filter (fun v => mine v.node v.tag && !s.insts.any (fun b => b.inv == v.id && !gone b))).map (fun v => v.id)
  let toks := (s.flights.filter (fun f => chan f.chan f.tok && isPayload f.tok)).length
    + (s.ptoks.filter (fun t => held t.at_.node t.tok.tag)).length
    + (s.outq.filter (fun o => isPayload o.tok && o.todo != [] && ((outs o).map (fun r => r.todo != o.todo)).getD true)).length

  let tags := (cx.tags.filter (fun e => e.2 == some (.colour c))).length
  let nodes := ((s.nests.filter (fun r => mine r.node r.tag)).map (fun r => r.node)).eraseDups
  let s1 := { s with
    flights := s.flights.filter (fun f => !(chan f.chan f.tok && f.tok.kind != .marker))
    ptoks := s.ptoks.filter (fun t => !held t.at_.node t.tok.tag)
    outq := s.outq.filterMap outs
    credRet := s.credRet.filter (fun e => !(e.1.w == w && e.2 == c && (e.1.x == x || endsAtLantern s spires e.1)))
    timers := s.timers.filter (fun t => !(t.colour == c && held t.at_.node { colour := c, context := x, iter := 0 }))
    insts := s.insts.filter (fun b => !gone b)
    invs := s.invs.filter (fun v => !deadInvs.contains v.id)
    firings := s.firings.filter (fun f => !mine f.node f.tag)
    monitors := s.monitors.filter (fun m => !s.firings.any (fun f => f.cell == m.cell && f.seq == m.seq && mine f.node f.tag))
    nests := s.nests.filter (fun r => !mine r.node r.tag)
    goWaits := s.goWaits.filter (fun g => !mine g.node g.tag)
    ctls := s.ctls.filter (fun t => !mine t.node t.tag)
    groups := s.groups.filter (fun g => !mine g.node g.tag)
    planes := s.planes.filter (fun e => !(mget none s.cellOwner e.1 == some w.toNat && (e.2.map (fun r => r.tag.context == x && r.tag.colour == c)).getD false))
    ops := s.ops.filter (fun o => !(mine o.node o.tag && (match o.kind with | .stream _ _ => true | _ => false)))
    notices := s.notices.filter (fun n => !(n.w == w && n.tag.context == x && n.tag.colour == c))
    lstreams := s.lstreams.filter (fun l => !(spires.contains l.spire && l.colour == c))
    logit := s.logit.filter (fun r => !(spires.contains r.spire && r.colour == c)) }
  let back := (cx.tags.filter (fun e => e.2 == some (.colour c))).map (fun e => 65536 * ctxKey w x + e.1)
  let s2 := { setCtx s1 w x { ctxOf s1 w x with
      tags := cx.tags.filter (fun e => e.2 != some (.colour c))
      purgeq := cx.purgeq.filter (fun e => !dead.any (fun b => e.2 == .inst b.cell b.seq)) } with freed := back ++ s1.freed }
  (nodes.foldl startWaiting s2, toks, dead.length, tags)

/-- Begin a purge: the colour is frozen and its work dropped. -/
def beginPurge (s : State) (w : BitVec 4) (x : Context) (c : Colour) (by_ : PurgeBy) : State :=
  let r := dropColour s w x c
  setCtx r.1 w x { ctxOf r.1 w x with purging := some (c, by_, r.2.1, r.2.2.1, r.2.2.2) }

/-- The next purge that waits in a context begins (R293). -/
def nextPurge (s : State) (w : BitVec 4) (x : Context) : State :=
  let c := ctxOf s w x
  match c.purging, c.purgeq with
  | none, (d, by_) :: l => beginPurge (setCtx s w x { c with purgeq := l }) w x d by_
  | _, _ => s

/-- A purge takes its place among those of its context, in the order of arrival (R293). -/
def askPurge (s : State) (w : BitVec 4) (x : Context) (c : Colour) (by_ : PurgeBy) : State :=
  nextPurge (setCtx s w x { ctxOf s w x with purgeq := (ctxOf s w x).purgeq ++ [(c, by_)] }) w x

/-- PURGE (R302): its own colour is refused; the purge of another begins as the instance is otherwise ready to commit. -/
def execPurge (h : Hdr) (p : PayQ) (s : State) : Result :=
  quotaOp h p s true (fun b l =>
    match colourArg (l.getD 0 0) with
    | none => raise s b badQuota
    | some c =>
      if c = b.tag.colour then (let v := firstSlots [2]; putInst s (advance 1 (deliver h 0 (same v (predZero v)) b)))
      else defer s h b (.purge c false))

/-! ### Changes as a commit begins (R289, R294, R299, R300, R302) -/

/-- The node whose context orders quota changes of one cycle: a cell's totals count every context of the world. -/
def quotaTurn (n : NodeId) : NodeId := { n with x := 0 }

/-- One change of an instance whose commit begins, with its outcome; none where it waits. -/
def lateStep (s : State) (b : BInst) (a : LateAct) : State × Option (List Nat) :=
  let x := nodeCtx s b.node
  let place := cellPlace b.cell
  let turn (st : State) : State := takeTurn st .quota (quotaTurn b.node) place
  match a with
  | .quota n port c m sl =>
    if !inTurn s .quota (quotaTurn b.node) place then (s, none)
    else match placedOf s n with
      | none => (s, some [1, 0])
      | some pl =>
        let old := quotaIn (nodeCtx s n) n.n port c
        let r := applyQuota s n pl port c m sl
        (turn r.1, some [if r.2 then 0 else 1, old.1 + old.2 * 256])
  | .cap c n =>
    if !inTurn s .quota (quotaTurn b.node) place then (s, none)
    else
      let caps := mput 0 x.caps c.toNat n
      let old := mget 0 x.caps c.toNat
      if 65535 < caps.foldl (fun a e => a + e.2) 0 then (turn s, some [1, old])
      else (turn (setCtx s b.node.w b.node.x { x with caps := caps }), some [0, old])
  | .limit c l => (setCtx s b.node.w b.node.x { x with limits := mput 1024 x.limits c.toNat l }, some [0, limitOf x c])
  | .tagFree g =>
    if g ≠ 0 ∧ mget none x.tags g = some (.colour b.tag.colour) then (returnTag s b.node (some (BitVec.ofNat 16 g)), some [0])
    else (s, some [1])
  | .purge c asked =>
    match b.purged with
    | some r => (s, some [0, min r.1 (2 ^ 32 - 1), r.2.1, r.2.2])
    | none => (if asked then s else askPurge s b.node.w b.node.x c (.inst b.cell b.seq), none)

/-- The changes of an instance's commit, one at a time in slot order: each that is made delivers its outcome. -/
def lateAct (s : State) (b : BInst) : State :=
  match b.later with
  | [] => s
  | l :: ls =>
    let r := lateStep s b l.act
    match r.2 with
    | some ws => putInst r.1 (lateDeliv l { b with later := ls, purged := none, durable := true } ws)
    | none =>
      match l.act with
      | .purge c false => putInst r.1 { b with later := { l with act := .purge c true } :: ls }
      | _ => r.1

end Sys2Proof.Machine
end

