-- ==== Sys2Proof/Machine/Sched.lean ====
section
/-! DEFINITION. What the scheduler reads: queue descriptors (R304), regions (R311, R312), free spires (R310,
R315, R376, R399, R408), tasks and the candidates of a decision (R330, R333). -/

namespace Sys2Proof.Machine

/-! ### Queues (R303–R305) -/

def queueOf (s : State) (w : BitVec 4) (q : Nat) : QueueSt := mget {} (worldOf s w).queues q
def setQueue (s : State) (w : BitVec 4) (q : Nat) (x : QueueSt) : State :=
  let ww := worldOf s w
  setWorld s w { ww with queues := mput {} ww.queues q x }

/-- The physical address of a queue descriptor. -/
def qdescAddr (s : State) (w : BitVec 4) (q : Nat) : Nat := base16 (worldOf s w).schedbase + 64 * q
def qdescWord (s : State) (w : BitVec 4) (q i : Nat) : Nat := ownWord s w (qdescAddr s w q + 8 * i)

def qRing (s : State) (w : BitVec 4) (q : Nat) : Nat := bits (qdescWord s w q 0) 51 12 * 2 ^ 12
def qLog (s : State) (w : BitVec 4) (q : Nat) : Nat := bits (qdescWord s w q 0) 3 0
def qWidx (s : State) (w : BitVec 4) (q : Nat) : Nat := bits (qdescWord s w q 1) 31 0
def qRegion (s : State) (w : BitVec 4) (q : Nat) : Nat := bits (qdescWord s w q 3) 25 16
def qErrrec (s : State) (w : BitVec 4) (q : Nat) : Nat := bits (qdescWord s w q 4) 51 6 * 64

/-- LOG2N and the reserved fields keep R304. -/
def qdescOk (s : State) (w : BitVec 4) (q : Nat) : Bool :=
  let d := qdescWord s w q
  decide (4 ≤ qLog s w q) && bits (d 0) 63 52 == 0 && bits (d 0) 11 4 == 0 && bits (d 1) 63 32 == 0 && bits (d 2) 63 32 == 0
    && bits (d 3) 15 2 == 0 && bits (d 3) 31 26 == 0 && bits (d 3) 63 48 == 0 && bits (d 4) 63 52 == 0 && bits (d 4) 5 0 == 0
    && d 5 == 0 && d 6 == 0 && d 7 == 0

/-- An integer that the device writes for a world, where it reaches the place (R10, R348, R359). -/
def ownPut (s : State) (w : BitVec 4) (a n v : Nat) : State := ownWrite s w a (cellsOf a n v)

/-- The device writes STATE or RIDX of a descriptor. -/
def mirrorQueue (s : State) (w : BitVec 4) (q : Nat) : State :=
  let x := queueOf s w q
  let d3 := qdescWord s w q 3
  ownPut (ownPut s w (qdescAddr s w q + 16) 4 (x.ridx % 2 ^ 32)) w (qdescAddr s w q + 24) 4 (d3 % 2 ^ 32 / 4 * 4 + x.st)

/-- Change a queue and show STATE and RIDX in its descriptor. -/
def updQueue (s : State) (w : BitVec 4) (q : Nat) (f : QueueSt → QueueSt) : State :=
  mirrorQueue (setQueue s w q (f (queueOf s w q))) w q

/-! ### Regions (R311, R312) -/

def rcbWord (s : State) (w : BitVec 4) (r i : Nat) : Nat := ownWord s w (base16 (worldOf s w).schedbase + 4096 + 64 * r + 8 * i)
def rParent (s : State) (w : BitVec 4) (r : Nat) : Nat := bits (rcbWord s w r 0) 19 10
def rOvr (s : State) (w : BitVec 4) (r j : Nat) : Bool := bits (rcbWord s w r 0) (24 + j) (24 + j) == 1

/-- Field j of a block: CELLS, MEMCELLS, SLICE, PRIORITY, DOMAIN, POLICY. -/
def rField (s : State) (w : BitVec 4) (r j : Nat) : Nat :=
  match j with
  | 0 => bits (rcbWord s w r 1) 15 0
  | 1 => bits (rcbWord s w r 1) 31 16
  | 2 => bits (rcbWord s w r 1) 63 32
  | 3 => bits (rcbWord s w r 2) 7 0
  | 4 => bits (rcbWord s w r 2) 15 8
  | _ => bits (rcbWord s w r 2) 21 16

/-- A block on its own: V, ID, ranges and reserved bits. -/
def rcbOk (s : State) (w : BitVec 4) (r : Nat) : Bool :=
  let d := rcbWord s w r
  decide (r < 960) && bits (d 2) 22 22 == 1 && bits (d 0) 9 0 == r && decide (rField s w r 0 ≤ 6144) && decide (rField s w r 1 ≤ 3072)
    && bits (d 0) 23 20 == 0 && bits (d 0) 63 30 == 0 && bits (d 2) 63 23 == 0
    && d 3 == 0 && d 4 == 0 && d 5 == 0 && d 6 == 0 && d 7 == 0

/-- The path from a region to its root; none where it is not valid. -/
def rPath (s : State) (w : BitVec 4) : Nat → Nat → Option (List Nat)
  | 0, _ => none
  | n + 1, r =>
    if !rcbOk s w r then none
    else if rParent s w r = 0x3FF then (if (List.range 6).all (rOvr s w r) then some [r] else none)
    else (rPath s w n (rParent s w r)).map (fun l => r :: l)

def regionPath (s : State) (w : BitVec 4) (r : Nat) : Option (List Nat) := rPath s w 960 r
def regionValid (s : State) (w : BitVec 4) (r : Nat) : Bool := (regionPath s w r).isSome

/-- The effective value of field j: that of the nearest block of the path that sets it. -/
def regionEff (s : State) (w : BitVec 4) (r j : Nat) : Nat :=
  match regionPath s w r with
  | none => 0
  | some l => match l.find? (fun a => rOvr s w a j) with
    | some a => rField s w a j
    | none => 0

/-- Compute and memory cells of a spire (R12, R13). -/
def cellsPerSpire : Nat := 128
def memCellsPerSpire : Nat := 64

/-! ### Tasks (R313) -/

def findTask (s : State) (w : BitVec 4) (id : BitVec 32) : Option Task := (worldOf s w).tasks.find? (fun t => t.id == id)
def putTask (s : State) (w : BitVec 4) (t : Task) : State :=
  let ww := worldOf s w
  setWorld s w { ww with tasks := updFirst (fun x => x.id == t.id) (fun _ => t) ww.tasks }
def dropTask (s : State) (w : BitVec 4) (id : BitVec 32) : State :=
  let ww := worldOf s w
  setWorld s w { ww with tasks := ww.tasks.filter (fun t => t.id != id) }

def Task.need (t : Task) : Nat := t.img.spires.length

/-- Spires that a region's tasks and those of its descendants hold, without those of one task; contexts of a belfry sequence
may hold one spire together. -/
def spiresUnder (s : State) (w : BitVec 4) (r : Nat) (gone : Option (BitVec 32)) : List Nat :=
  (((worldOf s w).tasks.filter (fun t => some t.id != gone && ((regionPath s w t.region).getD []).contains r)).map (fun t => t.spires)).flatten

/-- Whether no other dispatched task has a task's context, but for one that gives it up (assumption 31). -/
def contextFree (s : State) (w : BitVec 4) (t : Task) (less : Option (BitVec 32)) : Bool :=
  (worldOf s w).tasks.all (fun u => u.id == t.id || u.st == .queued || u.img.context != t.img.context || some u.id == less)

/-- Whether some spires more keep every budget on a task's region path, with one task's spires given up (R312); no budget
includes a turret spire (R14). -/
def budgetFits (s : State) (w : BitVec 4) (t : Task) (gone : Option (BitVec 32)) (more : List Nat) : Bool :=
  match regionPath s w t.region with
  | none => false
  | some l => l.all (fun r =>
      let n := ((spiresUnder s w r gone ++ more).filter (fun sp => !isTurret sp)).eraseDups.length
      decide (n * cellsPerSpire ≤ regionEff s w r 0) && decide (n * memCellsPerSpire ≤ regionEff s w r 1))

/-! ### Spires -/

def worldIds : List (BitVec 4) := (List.range 16).map (BitVec.ofNat 4)

/-- Whether two contexts of a world belong to its enabled belfry sequence, whose contexts stand on the same cells (R179). -/
def seqMates (s : State) (w : BitVec 4) (x y : Context) : Bool :=
  let ww := worldOf s w
  belEn ww.belfry && (belfrySeq ww).contains x && (belfrySeq ww).contains y

/-- Whether a spire is held against a world's context; none stands for a context in no sequence. -/
def spireHeld (s : State) (w : BitVec 4) (x : Option Context) (sp : Nat) : Bool :=
  worldIds.any (fun v => (worldOf s v).tasks.any (fun t => t.spires.contains sp && !(v == w && x.any (fun y => seqMates s w y t.img.context))))

/-- The cells of a module spire. -/
def cellsOfSpire (sp : Nat) : List Nat := ((List.range 16).map (fun dy => (List.range 16).map (fun dx => spireCell sp dx dy))).flatten

def spireOwned (s : State) (w : BitVec 4) (sp : Nat) : Bool := (cellsOfSpire sp).all (fun c => mget none s.cellOwner c == some w.toNat)

/-- A spire with a cell in the bad-cell list (R376). -/
def spireBad (s : State) (sp : Nat) : Bool :=
  s.dev.badc.any (fun e => e.2.getLsbD 31 && cellSpire (bits e.2.toNat 6 0 + 128 * bits e.2.toNat 13 7) == sp)

/-- A spire that is quarantined after a failed save (R399), or of a die that is not up (R408). -/
def spireBlocked (s : State) (sp : Nat) : Bool := s.dev.qspire.getLsbD sp || !s.dev.ready.getLsbD (6 + sp / 12)

/-- A spire onto which dispatch maps no logical spire (R376). -/
def spireShut (s : State) (sp : Nat) : Bool := spireBad s sp || spireBlocked s sp

/-- Whether a world's packets and tasks may start: a protected one runs only while its TDI is RUN (R358, R360). -/
def attached (s : State) (w : BitVec 4) : Bool := !(worldOf s w).prot || (worldOf s w).tdi == .run

/-- Free for a world's dispatch; quarantine tasks take turret spires only, other tasks none (R310). -/
def spireFree (s : State) (w : BitVec 4) (quar : Bool) (x : Option Context) (sp : Nat) : Bool :=
  attached s w && isTurret sp == quar && spireOwned s w sp && !spireHeld s w x sp && !spireShut s sp

def freeSpires (s : State) (w : BitVec 4) (quar : Bool) (x : Option Context) : List Nat := (List.range 48).filter (spireFree s w quar x)

/-- The spires that stand free for a task. -/
def freeFor (s : State) (w : BitVec 4) (t : Task) (quar : Bool) : List Nat :=
  (freeSpires s w quar (some t.img.context)).filter (fun sp => !t.spires.contains sp)

/-- The spires that a dispatch gives a task: its own where it is `at`-placed, else the lowest free ones. -/
def chooseSpires (s : State) (w : BitVec 4) (t : Task) (quar : Bool) : List Nat :=
  if t.img.atPlaced then t.img.spires else t.spires ++ (freeFor s w t quar).take (t.need - t.spires.length)

/-- Whether an `at`-placed image's own spires stand free; one that names a cell of another world is dispatched
and then fails (R315, R346), as one with a listed cell does (R376). -/
def atFree (s : State) (w : BitVec 4) (t : Task) (quar : Bool) (extra : List Nat) : Bool :=
  !t.img.atPlaced || t.img.spires.all (fun sp => isTurret sp == quar && !spireBlocked s sp && (extra.contains sp || !spireHeld s w (some t.img.context) sp))

/-! ### Candidates (R330, R333) -/

/-- WAIT of a queued task (R330). -/
def waitOf (s : State) (t : Task) : Nat := min (s.now - t.since) (2 ^ 48 - 1)

/-- The fields of the candidate view, as RDC reads them. -/
def candFields (s : State) (w : BitVec 4) (t : Task) (cause : Nat) : List Nat :=
  let waits := t.st = .queued
  [t.id.toNat, t.queue, t.region, regionEff s w t.region 3, if waits then waitOf s t else 0, t.need, t.colour.toNat, if waits then 0 else s.now - t.heldAt, min t.cuts 255, cause, regionEff s w t.region 4]

def candOf (s : State) (w : BitVec 4) (t : Task) (cause : Nat) : Cand := { task := t.id, fields := candFields s w t cause }

/-- Descending WAIT, then ascending queue, then ring position. -/
def waitsLonger (s : State) (a b : Task) : Bool :=
  decide (waitOf s b < waitOf s a) || (waitOf s a == waitOf s b && (decide (a.queue < b.queue) || (a.queue == b.queue && decide (a.idx < b.idx))))

/-- At most 32 candidates, in their order. -/
def orderCands (s : State) (l : List Task) : List Task := (sortBy (waitsLonger s) l).take 32

/-- Whether a queued task stands in the quarantine class, as its queue does from QUAR until RUN is written (R310). -/
def inQuar (s : State) (w : BitVec 4) (t : Task) : Bool := (queueOf s w t.queue).quar

/-- Whether a task can never be dispatched: more than one spire in quarantine, or more cells than its budget (R310, R312). -/
def overNeed (s : State) (w : BitVec 4) (t : Task) : Bool :=
  if inQuar s w t then decide (1 < t.need)
  else decide (regionEff s w t.region 0 < t.need * cellsPerSpire) || decide (regionEff s w t.region 1 < t.need * memCellsPerSpire)

/-- The queued tasks of a slot that can never be dispatched. -/
def overDue (s : State) (w : BitVec 4) (slot : Nat) : List Task :=
  (worldOf s w).tasks.filter (fun t => t.st == .queued && regionEff s w t.region 5 == slot && regionValid s w t.region && overNeed s w t)

/-- The candidates of a DISPATCH decision of a slot, or those of the quarantine class, which no slot divides.  A task whose
context another dispatched task has, or whose own `at` spires are not free, fits no dispatch (assumption 58). -/
def dispatchCands (s : State) (w : BitVec 4) (slot : Nat) (quar : Bool) : List Task :=
  orderCands s ((worldOf s w).tasks.filter (fun t =>
    t.st == .queued && inQuar s w t == quar && (quar || regionEff s w t.region 5 == slot) && regionValid s w t.region
      && decide (t.need ≤ (freeFor s w t quar).length) && atFree s w t quar [] && contextFree s w t none && (quar || budgetFits s w t none (chooseSpires s w t false))))

/-- The spires that a candidate takes in place of a task: its own, or that task's and free ones. -/
def spiresAfter (s : State) (w : BitVec 4) (subj t : Task) : List Nat :=
  if t.img.atPlaced then t.img.spires else ((subj.spires ++ freeFor s w t false).eraseDups).take t.need

/-- The candidates of a PREEMPT decision about a running task; a quarantine task is never pre-empted (R310). -/
def preemptCands (s : State) (w : BitVec 4) (subj : Task) : List Task :=
  let slot := regionEff s w subj.region 5
  if subj.quar then []
  else orderCands s ((worldOf s w).tasks.filter (fun t =>
    t.st == .queued && !inQuar s w t && regionEff s w t.region 5 == slot && regionValid s w t.region
      && decide (regionEff s w subj.region 3 ≤ regionEff s w t.region 3) && decide (t.need ≤ subj.spires.length + (freeFor s w t false).length)
      && atFree s w t false subj.spires && contextFree s w t (some subj.id) && budgetFits s w t (some subj.id) (spiresAfter s w subj t)))

/-- A task that has been dispatched and holds its cells: it is being placed, or runs. -/
def holdsCells (t : Task) : Bool := (t.st == .launching || t.st == .running) && !t.toCut

/-- Whether a task's PREEMPT trigger finds a candidate. -/
def hasPreempt (s : State) (w : BitVec 4) (id : BitVec 32) : Bool :=
  match findTask s w id with
  | some t => holdsCells t && !(preemptCands s w t).isEmpty
  | none => false

end Sys2Proof.Machine
end

