-- ==== Sys2Proof/Machine/System.lean ====
section
/-! DEFINITION. System instructions, opcodes 0x380–0x387, and the special registers (R378–R387). -/

namespace Sys2Proof.Machine

/-! ### Reading special registers (R51, R381) -/

/-- sr.cellid of a cell (R51). -/
def cellIdWord (cell : Nat) : Nat :=
  let kind := match cellKind cell with
    | .compute => 0
    | .memory => 1
    | .agen => 2
  kind * 2 ^ 16 + cellDie cell * 2 ^ 14 + cellY cell * 2 ^ 7 + cellX cell

/-- sr.cocc of an instance: 0 without a linked cache bank (R211). -/
def coccWord (s : State) (b : BInst) : Nat :=
  match bankOf s b.node with
  | none => 0
  | some m => (wayMask (nodeCtx s b.node) m b.tag.colour).toNat * 2 ^ 16 + (s.bank.filter (fun l => l.cell == m && l.colour == b.tag.colour)).length

/-- sr.polstat of a world (R338). -/
def polstatWord (w : World) : Nat :=
  let p := mget {} w.policies w.polslot
  p.budg * 2 ^ 48 + p.inval * 2 ^ 32 + p.runs * 2 ^ 16 + (if p.prog = [] then 0 else 2 ^ 6) + w.polslot

/-- A special register of a context or of its world (R381). -/
def contextReg (s : State) (wn : BitVec 4) (x : Context) (reg : Nat) : Word64 :=
  let c := ctxOf s wn x
  let w := worldOf s wn
  let n (k : Nat) : Word64 := BitVec.ofNat 64 k
  match reg with
  | 0x010 => n (if c.replay then 1 else 0)
  | 0x012 => c.srseed
  | 0x013 => n c.hintdrop
  | 0x015 => n c.wdog
  | 0x016 => n (if c.sysAttr then 1 else 0)
  | 0x020 => w.belfry
  | 0x022 => w.ttab
  | 0x023 => s.cgtab
  | 0x024 => w.schedbase
  | 0x025 => n (polstatWord w)
  | 0x026 => w.ctab
  | 0x027 => w.fltlog
  | 0x028 => w.evtab
  | 0x029 => w.catab
  | _ => 0

/-- A special register as it stands at the instance's cell (R382). -/
def readSreg (s : State) (b : BInst) (reg : Nat) : Word64 :=
  let n (x : Nat) : Word64 := BitVec.ofNat 64 x
  match reg with
  | 0x001 => n b.tag.colour.toNat
  | 0x002 => n b.tag.context.toNat
  | 0x003 => n b.tag.iter.toNat
  | 0x004 => n (cellIdWord b.cell)
  | 0x011 => n (reachOf s b.node.w b.node.x b.cell % 65536)
  | 0x014 => n (coccWord s b)
  | _ => contextReg s b.node.w b.node.x reg

/-! ### Writing special registers (R4, R179, R217, R381) -/

/-- Bits [hi:lo] of a word, in place. -/
def keepBits (v : Word64) (hi lo : Nat) : Nat := bits v.toNat hi lo * 2 ^ lo

/-- A context that becomes active counts the drain node's invocations from 0 (R180). -/
def activate (s : State) (w : BitVec 4) (x : Context) : State := setCtx s w x { ctxOf s w x with ended := 0 }

/-- Clear EN: no context is gated, CUR stays, and held DRAINs are discarded (R179). -/
def belfryOff (w : World) : World := { w with belfry := BitVec.ofNat 64 (w.belfry.toNat - w.belfry.toNat % 2), drains := [], goDue := [], disable := false }

/-- A write of sr.belfry (R179). -/
def writeBelfry (s : State) (w : BitVec 4) (v : Word64) : State :=
  let ww := worldOf s w
  if belEn ww.belfry then
    if belEn v then s
    else if ww.drains = [] then setWorld s w (belfryOff ww)
    else setWorld s w { ww with disable := true }
  else
    let fields := keepBits v 47 16 + keepBits v 9 8
    if belEn v then
      let b : Word64 := BitVec.ofNat 64 (fields + 1)
      activate (setWorld s w { ww with belfry := b, swaps := 0, drains := [], goDue := [], disable := false }) w (belCtx b 0)
    else setWorld s w { ww with belfry := BitVec.ofNat 64 (fields + keepBits ww.belfry 5 4) }

/-- A write of sr.tinval: a colour's translation entries go, and the cache-bank lines that it filled (R217,
R349). -/
def writeTinval (s : State) (w : BitVec 4) (v : Word64) : State :=
  let hits (c : Colour) : Bool := v.getLsbD 8 || c == v.extractLsb' 0 8
  { s with
    tlb := s.tlb.filter (fun t => !(t.w == w && hits t.colour))
    walks := s.walks.filter (fun t => !(t.w == w && hits t.colour))
    bank := s.bank.filter (fun l => !(mget none s.cellOwner l.cell == some w.toNat && hits l.colour)) }

/-- A write of a special register: reserved and RO bits are ignored (R4). -/
def writeSreg (s : State) (w : BitVec 4) (x : Context) (reg : Nat) (v : Word64) : State :=
  let c := ctxOf s w x
  let ww := worldOf s w
  let base : Word64 := BitVec.ofNat 64 (keepBits v 51 12)
  match reg with
  | 0x012 => setCtx s w x { c with srseed := v }
  | 0x013 => setCtx s w x { c with hintdrop := bits v.toNat 31 0 }
  | 0x015 => setCtx s w x { c with wdog := bits v.toNat 15 0 }
  | 0x020 => writeBelfry s w v
  | 0x021 => writeTinval s w v
  | 0x022 => setWorld s w { ww with ttab := BitVec.ofNat 64 (keepBits v 51 12 + keepBits v 4 0) }
  | 0x023 => { s with cgtab := base }
  | 0x024 => setWorld s w { ww with schedbase := BitVec.ofNat 64 (keepBits v 51 16) }
  | 0x025 => setWorld s w { ww with polslot := bits v.toNat 5 0 }
  | 0x026 => setWorld s w { ww with ctab := base }
  | 0x027 => setWorld s w { ww with fltlog := BitVec.ofNat 64 (keepBits v 51 12 + keepBits v 11 8) }
  | 0x028 => setWorld s w { ww with evtab := base }
  | 0x029 => setWorld s w { ww with catab := base }
  | _ => s

/-- Registers that only a SYS context writes (R381). -/
def sysReg (reg : Nat) : Bool := reg == 0x015 || decide (0x020 ≤ reg)

/-! ### Instructions (R382–R387) -/

/-- A 64-bit value in slots 0 and 1, with the predicate of R382 and R383. -/
def wordDeliv (h : Hdr) (v : Word64) (b : BInst) : BInst := advance 1 (deliver h 0 (same (word64 v) (v != 0)) b)

/-- RDSR (R382). -/
def execRdsr (h : Hdr) (p : PayS) (s : State) : Result :=
  withOps h (k0Const p.k0) s (skipInst h) (fun b _ => putInst s (wordDeliv h (readSreg s b p.sreg.toNat) b))

/-- WRSR (R382). -/
def execWrsr (h : Hdr) (p : PayS) (s : State) : Result :=
  withOps h (k0Const p.k0) s (skipInst h) (fun b xs =>
    let r := p.sreg.toNat
    if sysReg r && !(nodeCtx s b.node).sysAttr then raise s b (fail .permission)
    else if r = 0x023 ∧ (worldOf s b.node.w).sys = false then raise s b (fail .permission)
    else match regWord h p.k0 (xs.getD 0 noVal) with
      | none => putInst s (advance 1 b)
      | some v => putInst s (advance 1 (addEff (.sreg r v) b)))

/-- The mode of a persistent register for an instance (R49). -/
def hmodeOf (s : State) (b : BInst) (n : Nat) : HMode :=
  match placedOf s b.node with
  | none => .unused
  | some p => ((p.route.hregs.find? (fun r => r.1 == n)).map (fun r => r.2)).getD .unused

def hregKey (cell n : Nat) : Nat := cell * 32 + n

/-- HRD (R383): the value as the instance fired (R50). -/
def execHrd (h : Hdr) (p : PayS) (s : State) : Result :=
  withOps h (k0Const p.k0) s (skipInst h) (fun b _ =>
    let n := p.sreg.toNat
    let v := mget 0 b.hregs0 (hregKey b.cell n)
    match hmodeOf s b n with
    | .unused => raise s b (fail .permission)
    | .const => putInst s (wordDeliv h v b)
    | .colour c => if c = b.tag.colour then putInst s (wordDeliv h v b) else raise s b (fail .permission))

/-- HWR (R383). -/
def execHwr (h : Hdr) (p : PayS) (s : State) : Result :=
  withOps h (k0Const p.k0) s (skipInst h) (fun b xs =>
    let n := p.sreg.toNat
    match hmodeOf s b n with
    | .colour c =>
      if c ≠ b.tag.colour then raise s b (fail .permission)
      else match regWord h p.k0 (xs.getD 0 noVal) with
        | none => putInst s (advance 1 b)
        | some v => putInst s (advance 1 (addEff (.hreg n v) b))
    | _ => raise s b (fail .permission))

/-- TRAP (R384). -/
def execTrap (h : Hdr) (p : PayS) (s : State) : Result :=
  withOps h (k0Const p.k0) s (skipInst h) (fun b xs =>
    raise s b { cause := .brk, detail := 14, trap := p.sreg.toNat, addr := (elemOf 64 (xs.getD 0 noVal) 0).getD 0 })

/-- Whether debug-break is set for a world; DBGW is ignored for a protected one (R385). -/
def breakSet (s : State) (w : BitVec 4) : Bool := mget false s.dev.dbgw w.toNat && !(worldOf s w).prot

/-- Withdraw a firing at its BRK, and log a BREAK record (R385). -/
def withdrawBrk (s : State) (b : BInst) : State :=
  let s1 := returnTag s b.node b.spawned
  let s2 := logOnly s1 (originOf s b b.pc 0) (fail .brk)
  { s2 with
    insts := s2.insts.filter (fun x => !x.isAt b.cell b.seq)
    firings := s2.firings ++ [firingOf s b .brk] }

/-- BRK (R385): an instance starts at its BRK; with debug-break clear, or at its second run, it does nothing
and the block's other instructions follow. -/
def execBrk (h : Hdr) (p : PayS) (s : State) : Result :=
  withOps h (k0Const p.k0) s (skipInst h) (fun b _ =>
    if b.brkOff then putInst s (advance 1 b)
    else if breakSet s b.node.w then withdrawBrk s b
    else putInst s { b with brkOff := true, pc := 0 })

/-- YIELD (R386): a decision starts only if a candidate exists. -/
def execYield (h : Hdr) (p : PayS) (s : State) : Result :=
  withOps h (k0Const p.k0) s (skipInst h) (fun b _ =>
    let v := word32 (if hasPreempt s b.node.w (nodeCtx s b.node).task then 1 else 0)
    putInst s (advance 1 (addEff .yieldTask (deliver h 0 (same v (predGeneral v)) b))))

/-- HALT (R387): its effect comes at commit. -/
def execHalt (h : Hdr) (p : PayS) (s : State) : Result :=
  withOps h (k0Const p.k0) s (skipInst h) (fun b _ => putInst s (advance 1 (addEff .haltTask b)))

/-! ### Writes of system software -/

/-- Whether a world's register window answers: a TDI in ERROR answers with Unsupported Request (R360). -/
def windowOpen (s : State) (w : BitVec 4) : Bool := !((worldOf s w).prot && (worldOf s w).tdi == .error)

/-- A write through a world's register window; a closed one answers Unsupported Request (R360). -/
def windowWrite (s : State) (w : BitVec 4) (t : State) : State := if windowOpen s w then t else { s with outputs := s.outputs ++ [.unsupported] }

/-- A read through a world's register window (R360, R381). -/
def windowRead (s : State) (w : BitVec 4) (x : Context) (reg : Nat) : State :=
  { s with outputs := s.outputs ++ [if windowOpen s w then .mmio (contextReg s w x reg) else .unsupported] }

/-- BELFRY_ENABLE (R179): a write that sets EN. -/
def execBelfryEnable (w : BitVec 4) (v : Word64) (s : State) : Result := if belEn v then .next (windowWrite s w (writeBelfry s w v)) else .next s

/-- BELFRY_DISABLE (R179): a write that clears EN; it takes effect once no swap waits. -/
def execBelfryDisable (w : BitVec 4) (s : State) : Result := .next (windowWrite s w (writeBelfry s w 0))

/-- TINVAL (R217). -/
def execTinval (w : BitVec 4) (v : Word64) (s : State) : Result := .next (windowWrite s w (writeTinval s w v))

end Sys2Proof.Machine
end

