-- ==== Sys2Proof/Machine/Fabric.lean ====
section
/-! DEFINITION. Tokens on their way: credits (R286), arrival and matching (R34, R35, R285), the belfry's gate
(R179), ingress buckets (R323), stall timers and the exception channel (R290, R291), parity (R374, R375),
partial tokens (R297) and edge breakpoints (R378, R379). -/

namespace Sys2Proof.Machine

/-! ### Credits (R286, R287) -/

/-- (m, s) at a port; a lantern's port has the quotas of the graph that holds its role. -/
def portQuota (s : State) (p : PortId) (c : Colour) : Nat × Nat := quotaIn (nodeCtx s p.node) p.node.n p.port c

/-- Whether a channel ends at a port. -/
def feeds (s : State) (p : PortId) (c : ChanId) : Bool := (chanEnd s c).bind (homePort s) == some p

/-- Tokens of a colour sent to a port and not yet returned. -/
def creditUsed (s : State) (p : PortId) (c : Colour) : Nat :=
  (s.flights.filter (fun f => isPayload f.tok && f.tok.tag.colour == c && feeds s p f.chan)).length
    + (s.ptoks.filter (fun t => t.chan.isSome && t.at_ == p && t.tok.tag.colour == c)).length
    + (s.credRet.filter (fun e => e.2 == c && feeds s p e.1)).length

/-- A channel's credit for a colour. -/
def credit (s : State) (ch : ChanId) (c : Colour) : Nat :=
  match (chanEnd s ch).bind (homePort s) with
  | none => 0
  | some p => let q := portQuota s p c; q.1 + q.2 - creditUsed s p c

/-- Whether a purge holds a colour's tokens on a channel (R292). -/
def chanFrozen (s : State) (ch : ChanId) (c : Colour) : Bool :=
  frozen s ch.w ch.x c || (contextsOf s ch.w).any (fun e => frozen s ch.w e.1 c && endsAtLantern s (lanternSpires e.2) ch)

/-! ### The belfry's gate (R179) -/

/-- The active context. -/
def belfryActive (w : World) : Context := belCtx w.belfry (belCur w.belfry)

/-- Whether the belfry holds back a context's firings. -/
def gated (s : State) (w : BitVec 4) (x : Context) : Bool :=
  let ww := worldOf s w
  belEn ww.belfry && (belfrySeq ww).contains x && belfryActive ww != x

/-- Whether the belfry holds back a node's firings: its context is an inactive one of the sequence, or its cell is one
that a context of the sequence occupies, where only the active context's blocks fire. -/
def heldBack (s : State) (n : NodeId) : Bool :=
  let ww := worldOf s n.w
  let cell := (placedOf s n).map (fun p => p.cell)
  gated s n.w n.x
    || (belEn ww.belfry && belfryActive ww != n.x
      && (belfrySeq ww).any (fun y => (ctxOf s n.w y).resident && (ctxOf s n.w y).nodes.any (fun p => p.route.kind != .lantern && some p.cell == cell)))

/-! ### Ingress buckets (R323, R409) -/

def bucketOf (s : State) (die : Nat) : Bucket := mget {} s.dev.buckets die

/-- The effective rate: the lower of RATE and the thermal limit; 0 is no limit. -/
def bucketRate (b : Bucket) : Nat :=
  match b.limit with
  | none => b.rate
  | some l => if b.rate = 0 then l else min b.rate l

/-- Whether a token may enter at a die's ingress. -/
def ingressOpen (s : State) (die : Nat) : Bool := let b := bucketOf s die; bucketRate b == 0 || decide (0 < b.level)

/-- A token that enters takes one unit. -/
def takeUnit (s : State) (die : Nat) : State :=
  let b := bucketOf s die
  if bucketRate b = 0 then s else { s with dev := { s.dev with buckets := mput {} s.dev.buckets die { b with level := b.level - 1 } } }

/-! ### Sending (R286) -/

/-- The oldest emitted token of a colour that has still to go on a channel. -/
def nextOut (s : State) (ch : ChanId) (c : Colour) : Option OutTok :=
  s.outq.find? (fun o => o.at_.node.w == ch.w && o.at_.node.x == ch.x && o.tok.tag.colour == c && o.todo.contains ch.n)

/-- A channel takes the token that has waited longest among the colours with credit (R286, R322). -/
def outranked (s : State) (ch : ChanId) (o : OutTok) : Bool :=
  s.outq.any (fun p => p.at_.node.w == ch.w && p.at_.node.x == ch.x && p.todo.contains ch.n && isPayload p.tok && decide (p.since < o.since)
    && !chanFrozen s ch p.tok.tag.colour && decide (0 < credit s ch p.tok.tag.colour))

/-- The die at which an engine's, a lantern's or an external port's token enters. -/
def entryDie (s : State) (n : NodeId) : Nat := cellDie (((placedOf s n).map (fun p => p.cell)).getD 0)

/-- Whether a token of a colour waits at an ingress for a channel that has credit: an engine's or a lantern's, a start token,
or a tile of a device-built launch. -/
def chanWaits (s : State) (ch : ChanId) (c : Colour) : Bool :=
  decide (0 < credit s ch c) && !chanFrozen s ch c
    && ((nextOut s ch c).any (fun o => o.owner.isNone && isPayload o.tok) || s.srcq.any (fun e => e.1 == ch && e.2.tag.colour == c)
      || (worldOf s ch.w).tasks.any (fun t => t.st == .running && t.recq && t.img.context == ch.x && t.colour == c && decide (t.sent < t.tiles.length)))

/-- The request of a channel's next token at a die's ingress; its port is the channel's number (assumption 57). -/
def ingressReq (s : State) (die : Nat) (ch : ChanId) (c : Colour) : Waiter := waiterOf s (.ingress die) (.chan ch c) ch.w ch.n

/-- Whether an ingress takes a token now (R322, R323). -/
def ingressTurn (s : State) (die : Nat) (ch : ChanId) (c : Colour) : Bool :=
  ingressOpen s die && (bucketRate (bucketOf s die) == 0 || servedNext s (ingressReq s die ch c) (fun y => match y with
    | .chan k d => chanWaits s k d
    | .inst _ _ => false))

/-- A token enters at an ingress, or waits there for its turn. -/
def enter (s : State) (die : Nat) (ch : ChanId) (c : Colour) (go : State → State) : State :=
  if ingressTurn s die ch c then takeUnit (leaveWait (go s) (.chan ch c)) die else joinWait s (ingressReq s die ch c)

/-- Send an emitted token on a channel. -/
def sendOut (s : State) (ch : ChanId) (o : OutTok) : State :=
  let one (x : OutTok) : Bool := x == o
  { s with
    outq := updFirst one (fun x => { x with todo := x.todo.filter (· != ch.n), sent := x.sent ++ [ch.n] }) s.outq
    flights := s.flights ++ [{ chan := ch, tok := o.tok, errs := 0, partialTok := false }] }

/-- Whether a cut has sent its MARKER on a channel: nothing follows it (R390, R391). -/
def markerSent (s : State) (ch : ChanId) : Bool := ((ctxOf s ch.w ch.x).cut.map (fun k => k.sent.contains ch.n)).getD false

/-- Whether a node's own token stays unsent because a cut has reached the node (R391); the tokens of engines and
lanterns go on until their MARKER (R389). -/
def heldByCut (s : State) (o : OutTok) : Bool := nodeCut s o.at_.node && (o.owner.isSome || o.tok.kind == .done)

/-- TOKEN_SEND (R286): a token leaves under its colour's credit; a DONE takes no credit (R288). -/
def execTokenSend (ch : ChanId) (c : Colour) (s : State) : Result :=
  if chanFrozen s ch c || markerSent s ch then .next s
  else match nextOut s ch c with
    | some o =>
      let die := entryDie s o.at_.node
      if heldByCut s o then .next s
      else if !isPayload o.tok then .next (sendOut s ch o)
      else if credit s ch c = 0 || outranked s ch o then .next s
      else if o.owner.isSome then .next (sendOut s ch o)
      else .next (enter s die ch c (fun st => sendOut st ch o))
    | none =>
      match s.srcq.find? (fun e => e.1 == ch && e.2.tag.colour == c), chanEnd s ch with
      | some e, some p =>
        let die := entryDie s p.node
        if credit s ch c = 0 then .next s
        else .next (enter s die ch c (fun st => { st with srcq := delFirst (fun x => x == e) st.srcq, flights := st.flights ++ [{ chan := ch, tok := e.2, errs := 0, partialTok := false }] }))
      | _, _ => .next s

/-! ### Arrival (R28, R285, R378) -/

/-- Forget a flight's emitted token once every port of its channels has accepted it (R288, R374). -/
def arrived (s : State) (ch : ChanId) (c : Colour) : State :=
  let here (o : OutTok) : Bool := o.at_.node.w == ch.w && o.at_.node.x == ch.x && o.tok.tag.colour == c && o.sent.contains ch.n
  let upd := updFirst here (fun o => { o with sent := o.sent.filter (· != ch.n) }) s.outq
  { s with outq := upd.filter (fun o => !(o.todo == [] && o.sent == [])) }

/-- The first token of a colour on a channel. -/
def headFlight (s : State) (ch : ChanId) (c : Colour) : Option Flight := s.flights.find? (fun f => f.chan == ch && f.tok.tag.colour == c)

def dropFlight (s : State) (f : Flight) : State :=
  arrived { s with flights := delFirst (fun x => x == f) s.flights } f.chan f.tok.tag.colour

/-- Whether a comparator matches a token that a port of a placed node accepts (R378). -/
def bkptMatches (b : Bkpt) (w : BitVec 4) (p : Placed) (port : Nat) (t : Token) : Bool :=
  let tag := t.tag.colour.toNat * 2 ^ 24 + t.tag.context.toNat * 2 ^ 16 + t.tag.iter.toNat
  let mask (m x y : Nat) : Bool := x &&& m == y &&& m
  b.v && b.w == w.toNat && b.port == port && b.node == p.node && b.x == cellX p.cell && b.y == cellY p.cell
    && (!b.tagm || mask (b.w1.toNat % 2 ^ 32) tag (b.w1.toNat / 2 ^ 32))
    && (!b.valm || (match slotOf t.val b.vslot with
      | some v => mask (b.w2.toNat % 2 ^ 32) v.toNat (b.w2.toNat / 2 ^ 32)
      | none => false))

/-- The comparator that holds a token; none for a protected world (R362). -/
def holdingBkpt (s : State) (w : BitVec 4) (p : Placed) (port : Nat) (t : Token) : Option Nat :=
  if (worldOf s w).prot then none else (List.range 16).find? (fun k => bkptMatches (mget {} s.dev.bkpts k) w p port t)

/-- Where a record of the device about a port comes from. -/
def portOrigin (p : Placed) (n : NodeId) (t : Tag) : Origin :=
  { ctx := { w := n.w, x := n.x }, colour := t.colour, iter := t.iter, cell := p.cell, node := p.node, blk := 0, slot := 0, nest := (nodeNest p).isSome, source := 3, gen := 0 }

/-- A port takes a token: it waits in a buffer slot, and its colour's timer runs (R290). -/
def putAtPort (s : State) (p : PortId) (ch : Option ChanId) (t : Token) (hold : Option (Nat × Nat)) : State :=
  let x : PTok := { at_ := p, chan := ch, tok := t, entry := false, use := none, bkpt := hold }
  let ts := if s.timers.any (fun y => y.covers x) then s.timers else s.timers ++ [{ at_ := p, colour := t.tag.colour, start := s.now, fired := false }]
  { s with ptoks := s.ptoks ++ [x], timers := ts }

/-- Whether a port takes a token: the configuration store of its cell holds a block of the context (R31), the colour has a
matching entry there (R285), and a fifo holds fewer than 1,638 tokens (R209).  Else the token waits in its channel. -/
def portTakes (s : State) (p : PortId) (pl : Placed) (c : Colour) : Bool :=
  let runs := pl.route.kind == .compute || pl.route.kind == .agen
  (!runs || s.blocks.any (fun b => b.cell == pl.cell && b.node.w == p.node.w && b.node.x == p.node.x))
    && (portQuota s p c).1 != 0
    && (pl.route.kind != .memory || decide ((s.ptoks.filter (fun t => t.at_ == p)).length < 1638))

/-- Firings that a parity error withdrew may fire again once the token of their key on a channel has arrived, or is gone
(R374). -/
def endAwait (s : State) (ch : ChanId) (n : NodeId) (t : Tag) : State :=
  { s with firings := s.firings.map (fun f => if f.await = some ch ∧ f.node = n ∧ f.tag = t then { f with await := none, counting := some s.now } else f) }

/-- TOKEN_ACCEPT (R285): a DONE is consumed on arrival (R28); a DATA or SCALE token takes its place at the
port, where a matching comparator holds it. -/
def execTokenAccept (ch : ChanId) (c : Colour) (s : State) : Result :=
  match headFlight s ch c, (chanEnd s ch).bind (homePort s) with
  | some f, some p =>
    if f.partialTok || chanFrozen s ch c || f.tok.kind = .marker then .next s
    else if !isPayload f.tok then .next (dropFlight s f)
    else match placedOf s p.node with
      | none => .next s
      | some pl =>
       if !portTakes s p pl c then .next s
       else
        let s1 := endAwait (dropFlight s f) ch p.node f.tok.tag
        match holdingBkpt s ch.w pl p.port f.tok with
        | none => .next (putAtPort s1 p (some ch) f.tok none)
        | some k =>
          let s2 := { s1 with dev := { s1.dev with bkpts := mupd {} s1.dev.bkpts k (fun b => { b with hit := true }) } }
          .next (logOnly (putAtPort s2 p (some ch) f.tok (some (k, s.now))) (portOrigin pl p.node f.tok.tag) { cause := .brk, detail := 15 })
  | _, _ => .next s

/-- CREDIT_RETURN (R286). -/
def execCreditReturn (ch : ChanId) (c : Colour) (s : State) : Result := .next { s with credRet := delFirst (fun e => e.1 == ch && e.2 == c) s.credRet }

/-! ### The end of a cycle: matching (R34, R35, R285) and the fifo role (R209) -/

/-- Whether a token waits in an entry at a port under a key. -/
def keyWaits (l : List PTok) (p : PortId) (t : Tag) : Bool := l.any (fun x => x.entry && x.at_ == p && x.tok.tag == t)

/-- Entries that a colour holds at a port. -/
def entriesHeld (l : List PTok) (p : PortId) (c : Colour) : Nat := (l.filter (fun x => x.entry && x.chan.isSome && x.at_ == p && x.tok.tag.colour == c)).length

/-- Buffered tokens move to entries, the oldest first; `done` holds the tokens before those of the list. -/
def promote (s : State) : List PTok → List PTok → List PTok
  | done, [] => done
  | done, t :: l =>
    let all := done ++ t :: l
    let room := t.chan.isNone || decide (entriesHeld all t.at_ t.tok.tag.colour < (portQuota s t.at_ t.tok.tag.colour).1)
    let t1 := if !t.entry && room && !keyWaits all t.at_ t.tok.tag then { t with entry := true } else t
    promote s (done ++ [t1]) l

/-- The ports that block 0 of a node reads. -/
def entryPorts (p : Placed) : List Nat := ((blockCode p 0).map (fun b => portsOf b.1)).getD []

/-- A token that a firing may still take. -/
def PTok.ready (t : PTok) : Bool := t.entry && t.use.isNone && t.bkpt.isNone

/-- Whether every port of a node holds a ready token with a key. -/
def setComplete (s : State) (n : NodeId) (ports : List Nat) (t : Tag) : Bool :=
  ports.all (fun q => s.ptoks.any (fun x => x.ready && x.at_ == { node := n, port := q } && x.tok.tag == t))

/-- Give the tokens of a key at a node to a firing. -/
def useSet (s : State) (n : NodeId) (ports : List Nat) (t : Tag) (seq : Nat) : State :=
  { s with ptoks := s.ptoks.map (fun x => if x.ready && x.at_.node == n && ports.contains x.at_.port && x.tok.tag == t then { x with use := some seq } else x) }

/-- Take the next arrival sequence number of a cell (R35). -/
def takeSeq (s : State) (cell : Nat) : State × Nat :=
  let n := mget 0 s.seqs cell + 1
  ({ s with seqs := mput 0 s.seqs cell n }, n)

/-- Make a firing of a complete set. -/
def makeFiring (s : State) (n : NodeId) (p : Placed) (t : Tag) (point : Option (List Nat × Nat)) (inv : Option Nat) : State :=
  let r := takeSeq s p.cell
  let s1 := useSet r.1 n (entryPorts p) t r.2
  { s1 with firings := s1.firings ++ [{ cell := p.cell, seq := r.2, node := n, tag := t, age := s.now, kind := .fresh, point := point, inv := inv, brkOff := false, watch := 0, counting := some s.now }] }

/-- i1 to i4 of outer point q: the present levels, level 1 fastest (R106). -/
def outerPoint : List Nat → Nat → List Nat
  | [], _ => []
  | e :: l, q => if e = 0 then 0 :: outerPoint l q else q % e :: outerPoint l (q / e)

/-- The outer point that a nest's run is to fire becomes a firing once its operand set is complete (R35, R106). -/
def completePoint (s : State) (n : NodeId) (p : Placed) (r : NestRun) : State :=
  if !r.due || r.halted || nodeCut s n || frozen s n.w n.x r.tag.colour || (nodeCtx s n).halted || !setComplete s n (entryPorts p) r.tag then s
  else
    let s1 := { s with nests := s.nests.map (fun x => if x.inv = r.inv then { x with next := x.next + 1, due := false } else x) }
    makeFiring s1 n p r.tag (some (outerPoint r.exts r.next, r.next)) (some r.inv)

/-- The complete sets of one node become firings.  R35 gives no order between two keys of one node, which have the same
lowest port: they follow the order of their tokens at the first port that block 0 maps (assumption 47). -/
def completeNode (s : State) (e : NodeId × Placed) : State :=
  if (nodeNest e.2).isSome then
    (match s.nests.find? (fun r => r.node == e.1) with
      | some r => completePoint s e.1 e.2 r
      | none => s)
  else match entryPorts e.2 with
  | [] => s
  | q :: l =>
    let tags := ((s.ptoks.filter (fun x => x.ready && x.at_ == { node := e.1, port := q })).map (fun x => x.tok.tag)).eraseDups
    tags.foldl (fun st t => if setComplete st e.1 (q :: l) t then makeFiring st e.1 e.2 t none none else st) s

/-- Every placed node of the resident contexts, in ascending node number on its cell (R35). -/
def allNodes (s : State) : List (NodeId × Placed) :=
  let l := (s.ctxs.map (fun e =>
    if e.2.resident then e.2.nodes.map (fun p => (({ w := BitVec.ofNat 4 (e.1 / 256), x := BitVec.ofNat 8 e.1, n := p.route.num } : NodeId), p)) else [])).flatten
  sortBy (fun a b => decide (a.2.node < b.2.node)) l

/-- Output places of a colour in use at a cell (R288). -/
def placesUsed (s : State) (cell : Nat) (c : Colour) : Nat :=
  (s.outq.filter (fun o => o.owner == some c && (placedOf s o.at_.node).any (fun p => p.cell == cell))).length

/-- A fifo node passes the oldest token of each colour that has an output place (R209). -/
def fifoNode (s : State) (e : NodeId × Placed) : State :=
  if e.2.route.kind ≠ .memory || roleOf (nodeCtx s e.1) e.2.cell != some .fifo then s
  else
    let port : PortId := { node := e.1, port := 0 }
    let cols := ((s.ptoks.filter (fun t => t.at_ == port)).map (fun t => t.tok.tag.colour)).eraseDups
    cols.foldl (fun st c =>
      match st.ptoks.find? (fun t => t.at_ == port && t.tok.tag.colour == c) with
      | none => st
      | some t =>
        if t.bkpt.isSome || nodeCut st e.1 || frozen st e.1.w e.1.x c || decide (1 ≤ placesUsed st e.2.cell c) then st
        else emitTok (leaveOne st t) e.1 0 t.tok (some c)) s

/-- A run fires nothing new; with nothing in flight it ends (R47, R106). -/
def haltRun (s : State) (r : NestRun) : State :=
  let loose (f : Firing) : Bool := f.inv == some r.inv && (match f.kind with | .chained _ _ _ _ => false | _ => true)
  let s0 := (s.firings.filter loose).foldl (fun st f => unuse st f.cell f.seq) s
  let s1 := { s0 with firings := s0.firings.filter (fun f => !loose f), nests := s0.nests.map (fun x => if x.inv = r.inv then { x with halted := true } else x) }
  if s1.insts.any (fun b => b.inv == r.inv) || s1.firings.any (fun f => f.inv == some r.inv) then s1
  else match findInv s1 r.inv, placedOf s1 r.node with
    | some v, some p => startWaiting (endInv (releaseInv s1 { portOrigin p r.node r.tag with source := 2 } v.id) v.id) r.node
    | _, _ => s1

/-- A node takes a GO (R47, R105): it starts an invocation of the node's nest, or waits while one runs; a HALT of its tag
that arrived in the same cycle is taken with it. -/
def takeGo (s : State) (c : CtlTok) : State :=
  let mine (t : CtlTok) : Bool := t.here && !t.go && t.node == c.node && t.tag == c.tag
  let ctls := delFirst (fun t => t == c) s.ctls
  startWaiting { s with
    ctls := delFirst mine ctls
    goWaits := s.goWaits ++ [{ node := c.node, tag := c.tag, halted := ctls.any mine, acq := c.src.isSome }] } c.node

/-- A node takes a HALT (R47): it halts the tag's run, else it is held with the tag's waiting GO, else it is discarded. -/
def takeHalt (s : State) (c : CtlTok) : State :=
  if !s.ctls.contains c then s
  else
    let s1 := { s with ctls := delFirst (fun t => t == c) s.ctls }
    match s1.nests.find? (fun r => r.node == c.node && r.tag == c.tag) with
    | some r => haltRun s1 r
    | none => { s1 with goWaits := updFirst (fun g => g.node == c.node && g.tag == c.tag) (fun g => { g with halted := true }) s1.goWaits }

/-- The control tokens that arrived in a cycle are taken at its end: GOs in ascending ITER, then HALTs (R47, R105). -/
def takeControl (s : State) : State :=
  let here := s.ctls.filter (fun c => c.here)
  let gos := sortBy (fun a b => decide (a.tag.iter.toNat < b.tag.iter.toNat)) (here.filter (fun c => c.go))
  (here.filter (fun c => !c.go)).foldl takeHalt (gos.foldl takeGo s)

/-- What the end of a cycle does: fifos pass tokens, buffered tokens move to entries, arrived control tokens are taken,
complete sets take their arrival sequences in node order, and committed table changes reach their own cells. -/
def endCycle (s : State) : State :=
  let s1 := (allNodes s).foldl fifoNode s
  let s2 := takeControl { s1 with ptoks := promote s1 [] s1.ptoks }
  { reachOwns ((allNodes s2).foldl completeNode s2) with freed := [] }

/-- Time passes. -/
def passTime (s : State) (n : Nat) : State := if n = 0 then s else reachLate { endCycle s with now := s.now + n } (s.now + n)

/-! ### Stall timers and the exception channel (R290, R291) -/

/-- The colour that holds the unit that a port's tokens wait for: the plane array, for which a firing waits whose set is
complete, or the context that a swap waits for. -/
def stallHolder (s : State) (n : NodeId) (p : Placed) (t : Tag) : Option Colour :=
  let mat := ((blockCode p 0).bind (fun b => blockMatrix b.2)).isSome && s.firings.any (fun f => f.node == n && f.tag == t)
  match mget none s.planes p.cell with
  | some r => if mat && r.tag != t then some r.tag.colour else swapHolder
  | none => swapHolder
where
  swapHolder : Option Colour :=
    let ww := worldOf s n.w
    if gated s n.w n.x && ww.drains != [] then
      let out := belfryActive ww
      let cols := (s.flights.filterMap (fun f => if f.chan.w == n.w && f.chan.x == out && isPayload f.tok && !endsAtLantern s (List.range 48) f.chan then some f.tok.tag.colour else none))
        ++ (s.ptoks.filterMap (fun x => if x.at_.node.w == n.w && x.at_.node.x == out && (lanternOf s x.at_.node).isNone then some x.tok.tag.colour else none))
        ++ (s.outq.filterMap (fun o => if o.at_.node.w == n.w && o.at_.node.x == out && isPayload o.tok then some o.tok.tag.colour else none))
      bestOf (fun a b => decide (a.toNat < b.toNat)) cols
    else none

/-- The slots of a STALL record, with slot 4 as a delivery fills it. -/
def stallSlots (s : State) (n : NodeId) (p : Placed) (port : Nat) (c : Colour) (l seq : Nat) : List Nat :=
  let held := s.ptoks.filter (fun t => t.at_ == { node := n, port := port } && t.tok.tag.colour == c)
  let old := (held.head?.map (fun t => t.tok.tag)).getD { colour := c, context := n.x, iter := 0 }
  let holder := stallHolder s n p old
  [ cellX p.cell + cellY p.cell * 2 ^ 7 + p.node % 16 * 2 ^ 14 + port * 2 ^ 18,
    c.toNat + n.x.toNat * 2 ^ 8 + held.length * 2 ^ 16,
    old.iter.toNat + (match holder with | some d => d.toNat * 2 ^ 16 + 2 ^ 24 | none => 0),
    l, 0, 0, 0, 0, 0, 0, 0, 0, 0, 0, 0, seq % 2 ^ 32 ]

/-- STALL_TIMER (R290): it fires once, no sooner than 1,024·L cycles after its start, and not while a
breakpoint holds a token of the colour there (R378). -/
def execStallTimer (n : NodeId) (port : BitVec 4) (c : Colour) (s : State) : Result :=
  let at_ : PortId := { node := n, port := port.toNat }
  match s.timers.find? (fun t => t.at_ == at_ && t.colour == c), placedOf s n with
  | some t, some p =>
    let l := limitOf (nodeCtx s n) c
    let paused := s.ptoks.any (fun x => t.covers x && x.bkpt.isSome)
    if t.fired || l == 0 || paused || decide (s.now < t.start + 1024 * l) then .next s
    else
      let x : CtxId := { w := n.w, x := n.x }
      let slots := stallSlots s n p port.toNat c l (worldOf s n.w).fltSeq
      let s1 := { s with timers := updFirst (fun y => y.at_ == at_ && y.colour == c) (fun y => { y with fired := true }) s.timers }
      .next (logRecord (sendExc s1 x .stall slots 0x801F) x slots)
  | _, _ => .next s

/-- EXC_DELIVERY (R291): the port holds up to 32; one more is dropped and counted, and a STALL record carries
the count. -/
def execExcDelivery (x : CtxId) (s : State) : Result :=
  let c := ctxOf s x.w x.x
  match s.excFlight.find? (fun e => e.1 == x), supervisorOf c with
  | some e, some n =>
    let s1 := { s with excFlight := delFirst (fun y => y.1 == x) s.excFlight }
    let at_ : PortId := { node := { w := x.w, x := x.x, n := n }, port := 15 }
    if 32 ≤ (s.ptoks.filter (fun t => t.at_ == at_ && t.chan.isNone)).length then
      .next (setCtx s1 x.w x.x { c with excDrops := min (c.excDrops + 1) (2 ^ 32 - 1) })
    else
      let stall := e.2.aux == 11
      let v := if stall then valOf (fun k => if k = 4 then some (BitVec.ofNat 32 c.excDrops) else slotOf e.2.val k) else e.2.val
      let s2 := if stall then setCtx s1 x.w x.x { c with excDrops := 0 } else s1
      .next (putAtPort s2 at_ none { tag := { colour := 0, context := x.x, iter := 0 }, kind := .data, aux := e.2.aux, val := v } none)
  | _, _ => .next { s with excFlight := delFirst (fun y => y.1 == x && (supervisorOf c).isNone) s.excFlight }

/-! ### Parity and hard errors (R374–R376, R297) -/

/-- Enter a hard error of a cell in the bad-cell list. -/
def listBad (s : State) (cell : Nat) : State :=
  let at_ (v : Word64) : Bool := v.getLsbD 31 && bits v.toNat 13 7 == cellY cell && bits v.toNat 6 0 == cellX cell
  let errs (v : Word64) : Nat := bits v.toNat 23 16
  let word (e : Nat) : Word64 := BitVec.ofNat 64 (2 ^ 31 + min e 255 * 2 ^ 16 + cellY cell * 2 ^ 7 + cellX cell)
  let reg (i : Nat) : Word64 := mget 0 s.dev.badc i
  let put (i : Nat) (v : Word64) : State := { s with dev := { s.dev with badc := mput 0 s.dev.badc i v } }
  match (List.range 32).find? (fun i => at_ (reg i)) with
  | some i => put i (word (errs (reg i) + 1))
  | none => match (List.range 32).find? (fun i => !(reg i).getLsbD 31) with
    | some i => put i (word 1)
    | none => s

/-- Running tasks on a spire with a listed cell are cut (R376). -/
def cutBad (s : State) : State :=
  worldIds.foldl (fun st w =>
    let ww := worldOf st w
    setWorld st w { ww with tasks := ww.tasks.map (fun t => if t.st == .running && t.spires.any (spireBad st) then { t with st := .cutting, cuts := t.cuts + 1 } else t) }) s

/-- The outer point at which a nest's invocation stands, for a record that no instance raised (R369). -/
def pointOf (s : State) (inv : Nat) : Option (List Nat × Nat) :=
  match s.insts.find? (fun b => b.inv == inv && b.point.isSome) with
  | some b => b.point
  | none => (s.firings.find? (fun f => f.inv == some inv)).bind (fun f => f.point)

/-- A fault of the invocation of a key at a node that no instance raised: it is discarded with the group of its key, ended
and reported (R158, R365). -/
def faultKey (s0 : State) (n : NodeId) (t : Tag) (r : Report) (source : Nat) : State :=
  match placedOf s0 n with
  | none => s0
  | some p =>
    let o := { portOrigin p n t with source := source }
    let s := takeTurn { s0 with groups := s0.groups.filter (fun g => !(g.node == n && g.tag == t)) } .fault n (faultPlace p.cell 0)
    match s.invs.find? (fun v => v.node == n && v.tag == t) with
    | some v =>
      let r1 := match pointOf s v.id with
        | some (is, _) => { r with iters := 0 :: is }
        | none => r
      deliverRecord (endFaulted (discardInv s v.cell v.id) v.id) o r1 true
    | none =>
      let dead := (s.firings.filter (fun f => f.node == n && f.tag == t)).map (fun f => f.seq)
      let s1 := dropUsed s p.cell dead
      deliverRecord { s1 with firings := s1.firings.filter (fun f => !(f.node == n && f.tag == t)) } o r true

/-- An uncommitted instance goes back to being the firing that it came from, with its tokens and its arrival
sequence (R255, R374); nothing that it computed takes effect. -/
def returnInst (s : State) (b : BInst) : State :=
  let s1 := returnTag s b.node b.spawned
  { s1 with
    insts := s1.insts.filter (fun x => !x.isAt b.cell b.seq)
    firings := s1.firings ++ [firingOf s b b.kind] }

/-- Such an instance, which fires again once a channel's token has arrived. -/
def replayInst (ch : Option ChanId) (s : State) (b : BInst) : State :=
  let s1 := returnInst s b
  { s1 with firings := s1.firings.map (fun f => if f.cell = b.cell ∧ f.seq = b.seq then { f with await := ch, counting := (if ch = none then some s.now else none) } else f) }

/-- The instances of a key at a node that an error replays.  One that has performed a step at a home runs on: to perform the
step again would not end as if no error had occurred (R374, assumption 45). -/
def replayed (s : State) (n : NodeId) (t : Tag) : List BInst := s.insts.filter (fun b => b.node == n && b.tag == t && !b.begun && !b.durable)

/-- The cell whose output place holds the token of a flight, if one does (R374). -/
def sourceOf (s : State) (ch : ChanId) (t : Token) : Option NodeId :=
  (s.outq.find? (fun o => o.at_.node.w == ch.w && o.at_.node.x == ch.x && o.tok == t && o.sent.contains ch.n)).map (fun o => o.at_.node)

/-- A hard error in what a cell held, if a cell of the module held it: the cell is listed (R375, R376). -/
def listHard (s : State) (cell : Option Nat) : State := match cell with
  | some c => cutBad (listBad s c)
  | none => s

/-- PARITY_ERROR (R374): the token is sent again from its output place, and the instances of the invocation
that would receive it are replayed; the fourth error on one token is hard, and lists the cell that held the token (R375). -/
def execParityError (ch : ChanId) (c : Colour) (s : State) : Result :=
  match headFlight s ch c, (chanEnd s ch).bind (homePort s) with
  | some f, some p =>
    match placedOf s p.node with
    | none => .next s
    | some pl =>
      if f.partialTok then .next s
      else if 3 ≤ f.errs then
        (if !inTurn s .fault p.node (faultPlace pl.cell 0) then .next s
         else
          let held := (sourceOf s ch f.tok).bind (fun n => (placedOf s n).map (fun q => q.cell))
          let s1 := endAwait (dropFlight s f) ch p.node f.tok.tag
          let s2 := if isPayload f.tok then { s1 with credRet := s1.credRet ++ [(ch, c)] } else s1
          .next (listHard (faultKey s2 p.node f.tok.tag { cause := .parity, hard := true } 3) held))
      else
        let s1 := { s with flights := updFirst (fun x => x == f) (fun x => { x with errs := x.errs + 1 }) s.flights }
        let s2 := (replayed s1 p.node f.tok.tag).foldl (replayInst (some ch)) s1
        .next (logOnly s2 (portOrigin pl p.node f.tok.tag) (fail .parity))
  | _, _ => .next s

/-- An uncorrectable error in a configuration store: the block is fetched again, and its instances are replayed (R374). -/
def storeError (s : State) (cell : Nat) (n : NodeId) (blk : Nat) : State :=
  let mine (b : BInst) : Bool := b.cell == cell && b.node == n && b.blk == blk && !b.begun && !b.durable && b.stage != .waiting
  let s1 := { s with blocks := s.blocks.filter (fun x => !(x.cell == cell && x.node == n && x.blk == blk)) }
  (s1.insts.filter mine).foldl (replayInst none) s1

/-- An uncorrectable error in data that an instance reads: its invocation faults, and a cell that held the data is listed
(R375). -/
def dataError (s : State) (cell seq : Nat) (held : Option Nat) : State :=
  match findInst s cell seq with
  | none => s
  | some b =>
    match b.pend with
    | [] => s
    | p :: _ => if b.begun || !inTurn s .fault b.node (faultPlace b.cell p.slot) then s
      else listHard (takeFault s b p.slot { cause := .parity, hard := true }) held

/-- HARD_FAULT (R297): the source of a token that is being sent stops in mid-token; its invocation faults and
its cell is listed. -/
def execHardFault (ch : ChanId) (c : Colour) (s : State) : Result :=
  match (s.flights.filter (fun f => f.chan == ch && f.tok.tag.colour == c)).getLast? with
  | none => .next s
  | some f =>
    let s1 := { s with flights := updFirst (fun x => x == f) (fun x => { x with partialTok := true }) s.flights }
    match (sourceOf s ch f.tok).bind (fun n => (placedOf s n).map (fun p => (n, p))) with
    | none => .next s1
    | some (n, p) =>
      if !inTurn s .fault n (faultPlace p.cell 0) then .next s
      else .next (listHard (faultKey s1 n f.tok.tag { cause := .parity, hard := true } 3) (some p.cell))

/-- PARTIAL_TOKEN_ABORT (R297): the receiver discards the partial token and returns its credit. -/
def execPartialTokenAbort (ch : ChanId) (c : Colour) (s : State) : Result :=
  match s.flights.find? (fun f => f.chan == ch && f.tok.tag.colour == c && f.partialTok) with
  | none => .next s
  | some f =>
    let s1 := match (chanEnd s ch).bind (homePort s) with
      | some p => endAwait (dropFlight s f) ch p.node f.tok.tag
      | none => dropFlight s f
    .next (if isPayload f.tok then { s1 with credRet := s1.credRet ++ [(ch, c)] } else s1)

/-! ### Stepping (R379, R385) -/

/-- A held token is released; its colour's timer goes on from where it paused. -/
def releaseHeld (s : State) (t : PTok) (since : Nat) : State :=
  let others := s.ptoks.filter (fun x => x.at_ == t.at_ && x.tok.tag.colour == t.tok.tag.colour && x.bkpt.isSome && x != t)
  let early (x : PTok) : PTok :=
    if x.at_ = t.at_ ∧ x.tok.tag.colour = t.tok.tag.colour then { x with bkpt := x.bkpt.map (fun b => (b.1, min b.2 since)) } else x
  { s with
    ptoks := (updFirst (fun x => x == t) (fun x => { x with bkpt := none }) s.ptoks).map early
    timers := if others = [] then s.timers.map (fun y => if y.covers t then { y with start := y.start + (s.now - since) } else y) else s.timers }

/-- BRK firings of the node that a comparator names fire afresh with BRK off (R385). -/
def stepBrk (s : State) (b : Bkpt) : State :=
  let names (f : Firing) : Bool :=
    f.kind == .brk && f.node.w.toNat == b.w && (placedOf s f.node).any (fun p => p.node == b.node && cellX p.cell == b.x && cellY p.cell == b.y)
  { s with firings := s.firings.map (fun f => if names f then { f with kind := .fresh, brkOff := true, counting := some s.now } else f) }

/-- Release the oldest token that a comparator holds, and the BRK firings of its node (R379, R385). -/
def stepBkpt (k : Nat) (s : State) : State :=
  let s1 := stepBrk s (mget {} s.dev.bkpts k)
  match s1.ptoks.find? (fun t => (t.bkpt.map (fun b => b.1)) == some k) with
  | none => s1
  | some t => releaseHeld s1 t ((t.bkpt.map (fun b => b.2)).getD s.now)

/-- Whether a comparator names a protected world's cell (R362, R378). -/
def guarded (s : State) (b : Bkpt) : Bool :=
  (worldOf s (BitVec.ofNat 4 b.w)).prot || (match mget none s.cellOwner (b.x + 128 * b.y) with
    | some w => (worldOf s (BitVec.ofNat 4 w)).prot
    | none => false)

/-- Debugging of a protected world's cell is refused with PERMISSION (R362, assumption 60). -/
def refuseDebug (s : State) : State := { s with outputs := s.outputs ++ [.reply (Cause.code .permission) []] }

/-- BKPT_STEP (R379). -/
def execBkptStep (k : BitVec 4) (s : State) : Result :=
  .next (if !spReady s then s else if guarded s (mget {} s.dev.bkpts k.toNat) then refuseDebug s else stepBkpt k.toNat s)

/-- Release every token that a comparator holds. -/
def releaseAll (k : Nat) (s : State) : State :=
  (s.ptoks.filter (fun t => (t.bkpt.map (fun b => b.1)) == some k)).foldl (fun st t =>
    match st.ptoks.find? (fun x => x.at_ == t.at_ && x.tok == t.tok && (x.bkpt.map (fun b => b.1)) == some k) with
    | some x => releaseHeld st x ((x.bkpt.map (fun b => b.2)).getD st.now)
    | none => st) s

/-- BKPT_DISARM (R379). -/
def execBkptDisarm (k : BitVec 4) (s : State) : Result :=
  .next (if !spReady s then s else releaseAll k.toNat { s with dev := { s.dev with bkpts := mupd {} s.dev.bkpts k.toNat (fun b => { b with v := false }) } })

/-- Set or clear debug-break, which is ignored for a protected world; clearing it lets withdrawn BRK firings of the world fire
(R385). -/
def putBreak (w : BitVec 4) (on : Bool) (s : State) : State :=
  if (worldOf s w).prot then s
  else
    let s1 := { s with dev := { s.dev with dbgw := mput false s.dev.dbgw w.toNat on } }
    if on then s1 else { s1 with firings := s1.firings.map (fun f => if f.kind = .brk ∧ f.node.w = w then { f with kind := .fresh, brkOff := true, counting := some s.now } else f) }

/-- DEBUG_BREAK_WRITE (R385). -/
def execDebugBreakWrite (w : BitVec 4) (on : Bool) (s : State) : Result := .next (if spReady s then putBreak w on s else s)

end Sys2Proof.Machine
end

