-- ==== Sys2Proof/Machine/Lantern.lean ====
section
/-! DEFINITION. The belfry's swaps (R180–R182, R344), sequence descriptors and LGBIND (R186–R189), the
lantern's streams, draws and commits (R183–R193), and the draft walker (R197–R200). -/

namespace Sys2Proof.Machine

/-! ### Start tokens (R316, R344) -/

/-- The external channel into port 0 of a node. -/
def startChan (c : Ctx) (n : Nat) : Option Nat :=
  (c.nodes.findSome? (fun p => p.route.chans.find? (fun ch => ch.src.isNone && ch.dst == some { node := n, port := 0 }))).map (fun ch => ch.n)

/-- The loop-nest nodes that no node names as a control successor (R47). -/
def rootNests (c : Ctx) : List Nat :=
  (c.nodes.filter (fun p => (nodeNest p).isSome && !c.nodes.any (fun q => q.route.succs.any (fun e => e.2 == p.route.num)))).map (fun p => p.route.num)

/-- A DATA token waits at the external input of each start node, and each root nest gets a GO for tag 0. -/
def sendStarts (s : State) (w : BitVec 4) (x : Context) (v : Val) : State :=
  let c := ctxOf s w x
  let t : Token := { tag := { colour := c.colour, context := x, iter := 0 }, kind := .data, aux := 0, val := v }
  { s with
    ctls := s.ctls ++ (rootNests c).map (fun n => { go := true, node := { w := w, x := x, n := n }, tag := t.tag, src := none })
    srcq := s.srcq ++ c.starts.filterMap (fun n => (startChan c n).map (fun k => (({ w := w, x := x, n := k } : ChanId), t))) }

/-! ### Quiescence and swaps (R181, R343, R344) -/

def inCtx (w : BitVec 4) (x : Context) (n : NodeId) : Bool := n.w == w && n.x == x

/-- Whether a context is quiescent: no instance or firing, no token (a control token is one), no open run, no
held store, no release under way and no engine operation, whose release is performed at its end (R344). -/
def ctxQuiet (s : State) (w : BitVec 4) (x : Context) : Bool :=
  let lan (k : Nat) : Bool := endsAtLantern s (List.range 48) { w := w, x := x, n := k }
  !s.insts.any (fun b => inCtx w x b.node)
    && !s.firings.any (fun f => inCtx w x f.node)
    && !s.flights.any (fun f => f.chan.w == w && f.chan.x == x && !lan f.chan.n)
    && !s.ptoks.any (fun t => inCtx w x t.at_.node && (lanternOf s t.at_.node).isNone)
    && !s.outq.any (fun o => inCtx w x o.at_.node && (o.todo ++ o.sent).any (fun k => !lan k))
    && !s.srcq.any (fun e => e.1.w == w && e.1.x == x)
    && !s.excFlight.any (fun e => e.1.w == w && e.1.x == x)
    && !s.ctls.any (fun t => inCtx w x t.node)
    && !s.goWaits.any (fun g => inCtx w x g.node)
    && !s.planes.any (fun e => mget none s.cellOwner e.1 == some w.toNat && (e.2.map (fun r => r.tag.context == x)).getD false)
    && !s.invs.any (fun v => inCtx w x v.node && v.held != [])
    && !s.ops.any (fun o => inCtx w x o.node && !o.isStream)

/-- DRAIN_RECEIVE (R179, R181): the belfry takes a DRAIN, or discards it while EN is 0. -/
def execDrainReceive (w : BitVec 4) (s : State) : Result :=
  let ww := worldOf s w
  match ww.drainFlight with
  | [] => .next s
  | t :: l => .next (setWorld s w { ww with drainFlight := l, drains := if belEn ww.belfry then ww.drains ++ [t] else ww.drains })

/-- sr.belfry with another CUR. -/
def withCur (b : Word64) (cur : Nat) : Word64 := BitVec.ofNat 64 (b.toNat - belCur b * 2 ^ 4 + cur % 4 * 2 ^ 4)

/-- The GO of a swap as the start token of R344. -/
def sendGo (s : State) (w : BitVec 4) (x : Context) (t : Token) : State := sendStarts s w x (firstSlots [t.aux.zeroExtend 32])

/-- Complete the waiting swap: the next context is active and receives its start tokens, at its restore where it is cut
(assumption 56). -/
def swapNow (s : State) (w : BitVec 4) (t : Token) (rest : List Token) : State :=
  let ww := worldOf s w
  let cur := (belCur ww.belfry + 1) % (belSeq ww.belfry + 1)
  let b := withCur ww.belfry cur
  let x := belCtx b cur
  let here := (ctxOf s w x).launched
  let w1 := { ww with belfry := b, swaps := ww.swaps + 1, drains := if belEn b then rest else [], goDue := if here then ww.goDue else ww.goDue ++ [(x, t)] }
  let s1 := activate (setWorld s w (if ww.disable then { belfryOff w1 with goDue := w1.goDue } else w1)) w x
  if here then sendGo s1 w x t else s1

/-- The start tokens of swaps that came while a context was cut. -/
def sendDue (s : State) (w : BitVec 4) (x : Context) : State :=
  let ww := worldOf s w
  (ww.goDue.filter (fun e => e.1 == x)).foldl (fun st e => sendGo st w x e.2)
    (setWorld s w { ww with goDue := ww.goDue.filter (fun e => e.1 != x) })

/-- BELFRY_SWAP (R181); a cut of the outgoing context takes a waiting swap with it (R182). -/
def execBelfrySwap (w : BitVec 4) (s : State) : Result :=
  let ww := worldOf s w
  match ww.drains with
  | [] => .next s
  | t :: l => .next (if belEn ww.belfry && (ctxOf s w (belfryActive ww)).cut.isNone && ctxQuiet s w (belfryActive ww) then swapNow s w t l else s)

/-! ### Reading descriptors, programs and tables (R186–R189) -/

/-- `n` little-endian bytes of virtual memory, through a reader of one byte. -/
def readVia (rd : Nat → Except Report Nat) (va : Nat) : Nat → Except Report Nat
  | 0 => .ok 0
  | n + 1 =>
    match rd va, readVia rd (va + 1) n with
    | .ok b, .ok r => .ok (b + 256 * r)
    | .error e, _ => .error e
    | _, .error e => .error e

/-- A byte as a device agent of a colour reads it. -/
def devByte (s : State) (w : BitVec 4) (c : Colour) (va : Nat) : Except Report Nat :=
  (access s none w c va 1 true false).map (fun pa => (byteAt s.mem pa).toNat)

/-- A byte as an instance reads it, with the held stores of its invocation. -/
def instByte (s : State) (b : BInst) (va : Nat) : Except Report Nat :=
  (access s (some b.cell) b.node.w b.tag.colour va 1 true false).map (fun pa => (agentByte s { b with effs := [] } pa).toNat)

/-- A sequence descriptor (R186). -/
structure SeqDesc where
  prog : Nat
  table : Nat
  greedy : Bool
  k : Nat
  ntab : Nat
  vlim : Nat
  minp : Nat
  topp : Nat
  seed : Nat
  deriving DecidableEq, Repr

/-- A descriptor's words, and whether they keep R186. -/
def readSeq (rd : Nat → Except Report Nat) (va : Nat) : Except Report (SeqDesc × Bool) :=
  match (List.range 8).mapM (fun i => readVia rd (va + 8 * i) 8) with
  | .error e => .error e
  | .ok ws =>
    let w2 := ws.getD 2 0
    let w3 := ws.getD 3 0
    let d : SeqDesc := { prog := ws.getD 0 0, table := ws.getD 1 0, greedy := bits w2 56 56 == 1, k := bits w2 55 48, ntab := bits w2 47 32, vlim := bits w2 31 0, minp := bits w3 63 32, topp := bits w3 31 0, seed := ws.getD 4 0 }
    .ok (d, bits w2 63 57 == 0 && (ws.drop 5).all (· == 0) && decide (1 ≤ d.k) && decide (d.k ≤ 64) && decide (d.ntab ≤ 4096)
      && decide (1 ≤ d.vlim) && decide (d.vlim ≤ 2 ^ 24))

/-- The instructions of a logit program, up to its END and at most 32 (R189, R196). -/
def readProg (rd : Nat → Except Report Nat) : Nat → Nat → Except Report (List Nat)
  | 0, _ => .ok []
  | n + 1, va =>
    match readVia rd va 8 with
    | .error e => .error e
    | .ok w =>
      match decodeLogit w with
      | .ok .lgEnd => .ok [w]
      | _ => (readProg rd n (va + 8)).map (fun l => w :: l)

/-- Whether a program is well formed: every instruction is, and the last is END (R196). -/
def progOk (l : List Nat) : Bool :=
  l.all (fun w => (decodeLogit w).isOk) && (l.getLast?.map (fun w => match decodeLogit w with
    | .ok .lgEnd => true
    | _ => false)).getD false

/-- A descriptor and its program: both are read, and then checked (R189). -/
def loadSeq (rd : Nat → Except Report Nat) (va : Nat) : Except Report (SeqDesc × List Word64) :=
  match readSeq rd va with
  | .error e => .error e
  | .ok (d, ok) =>
    match readProg rd 32 d.prog with
    | .error e => .error e
    | .ok l => if ok && progOk l then .ok (d, l.map (BitVec.ofNat 64)) else .error (failAt .illegalEncoding va)

/-- The entries of a sequence table: id, count and bias. -/
def readTable (rd : Nat → Except Report Nat) (va n : Nat) : Except Report (List (Nat × Nat × Nat)) :=
  (List.range n).mapM (fun i => (readVia rd (va + 8 * i) 8).map (fun e => (bits e 23 0, bits e 39 24, bits e 55 40)))

/-- The kept entries, in strictly ascending id, and whether any was skipped (R187). -/
def joinTable : Option Nat → List (Nat × Nat × Nat) → List (Nat × Nat × Nat) × Bool
  | _, [] => ([], false)
  | prev, e :: l =>
    if (match prev with | some p => decide (p < e.1) | none => true) then (let r := joinTable (some e.1) l; (e :: r.1, r.2))
    else ((joinTable prev l).1, true)

/-! ### Bindings (R188, R189) -/

def bindsOf (s : State) (spire : Nat) : List (Colour × IterTag × Nat) := (mget {} s.lanterns spire).binds

def bindOf (s : State) (spire : Nat) (c : Colour) (i : IterTag) : Option Nat :=
  ((bindsOf s spire).find? (fun b => b.1 == c && b.2.1 == i)).map (fun b => b.2.2)

/-- Bind a sequence to a descriptor, or with 0 remove its binding. -/
def setBind (s : State) (spire : Nat) (c : Colour) (i : IterTag) (va : Nat) : State :=
  let rest := (bindsOf s spire).filter (fun b => !(b.1 == c && b.2.1 == i))
  { s with lanterns := mput {} s.lanterns spire { binds := if va = 0 then rest else rest ++ [(c, i, va)] } }

/-- Whether a binding finds its place: one of 256, or the one that the key holds (R189). -/
def bindRoom (s : State) (spire : Nat) (c : Colour) (i : IterTag) (va : Nat) : Bool :=
  va == 0 || (bindOf s spire c i).isSome || decide ((bindsOf s spire).length < 256)

/-- LGBIND (R189): the reads are made at execution and the binding at commit. -/
def execLgbind (h : Hdr) (p : PayS) (s : State) : Result :=
  memOp h s (fun b xs =>
    match baseOf false (xs.getD 0 noVal) with
    | none => putInst s (advance 1 b)
    | some va =>
      let fin (st : State) : State := putInst st (advance 1 (addEff (.lgbind p.sreg.toNat (BitVec.ofNat 64 va)) b))
      if va = 0 then fin s
      else if va % 64 ≠ 0 then raise s b (failAt .addrOverflow va)
      else match loadSeq (instByte s b) va with
        | .error r => raise s b r
        | .ok _ => fin (acquire s b .dev))

/-! ### Arithmetic of the draw (R190, R191) -/

def f32 (c : Nat) : Num := decodeElem fp32 c
def round32 (v : Exact) : Nat := round v fp32 .rne 0
def add32 (a b : Num) : Nat := round32 (sumNums false [a, b]).toExact

def numGt (a b : Num) : Bool := a.cmp b == some .gt
def numGe (a b : Num) : Bool := a.cmp b == some .gt || a.cmp b == some .eq

/-- Exp(a − b) as a code. -/
def expDiff (a b : Nat) : Nat := round32 (expNum (sumNums false [f32 a, (f32 b).neg]))

/-- Ln of a positive code. -/
def ln32 (c : Nat) : Nat :=
  match f32 c with
  | .fin false n e => let p := twoPow e; round32 (lnRat (n * p.1) p.2)
  | _ => round32 .nan

def negInf32 : Nat := 0xFF800000
def one32 : Nat := 0x3F800000

/-- Rank order: y descending, then id ascending. -/
def ranksBefore (a b : Nat × Nat) : Bool :=
  numGt (f32 a.1) (f32 b.1) || ((f32 a.1).cmp (f32 b.1) == some .eq && decide (a.2 < b.2))

/-- One id's transformed logit joins the stream's running values. -/
def takeY (l : LStream) (y id : Nat) (masked : Bool) : LStream :=
  let v := f32 y
  if masked || v == .inf true then l
  else if v.isNan || v == .inf false then { l with bad := true }
  else
    let l1 := if numGt v (f32 l.m) then { l with sum := add32 (f32 (round32 ((f32 l.sum).mul (f32 (expDiff l.m y))).toExact)) (f32 one32), m := y }
      else { l with sum := add32 (f32 l.sum) (f32 (expDiff y l.m)) }
    { l1 with cands := (insSorted ranksBefore (y, id) l1.cands).take l.k }

/-- The shortest rank-order prefix whose exact sum of Exp(y − L) reaches TOPP. -/
def toppPrefix (lse : Nat) (topp : Num) : List Num → List (Nat × Nat) → List (Nat × Nat)
  | _, [] => []
  | acc, c :: l =>
    let acc1 := acc ++ [f32 (expDiff c.1 lse)]
    if numGe (sumNums false acc1) topp then [c] else c :: toppPrefix lse topp acc1 l

/-- Min-p and top-p. -/
def keepCands (l : LStream) (lse : Nat) : List (Nat × Nat) :=
  let minp := f32 l.minp
  let topp := f32 l.topp
  let zero : Num := .fin false 0 0
  let c1 := if numGt minp zero then
      (let t := f32 (add32 (f32 l.m) (f32 (ln32 (if numGt minp (f32 one32) then one32 else l.minp))))
       l.cands.filter (fun c => numGe (f32 c.1) t))
    else l.cands
  if numGe topp (f32 one32) then c1
  else if numGt topp zero then toppPrefix lse topp [] c1
  else c1.take 1

/-- `GumbelIndex(seed, pos, id)` (R191). -/
def gumbelIndex (seed : Word64) (pos id : Nat) : Nat :=
  let h := mix (seed ^^^ BitVec.ofNat 64 (pos % 2 ^ 32 * 2 ^ 32 + id % 2 ^ 24))
  (mix (h ^^^ 0xD6E8FEB86659FD93)).toNat % 2 ^ 16

/-- G[j] = Round(−ln(−ln((j + 0.5) / 65,536))). -/
def gumbelAt (j : Nat) : Nat :=
  let a := (-(fxLn (2 * j + 1) 131072)).toNat
  let x := fxLn a (2 ^ fxBits)
  round32 (sticky (decide (0 < x)) x.natAbs 0)

/-- The member with the largest z; on equal z the lowest id. -/
def gumbelPick (l : LStream) (cs : List (Nat × Nat)) : Option (Nat × Nat) :=
  let zs := cs.map (fun c => (add32 (f32 c.1) (f32 (gumbelAt (gumbelIndex l.seed l.pos c.2))), c))
  (bestOf (fun a b => numGt (f32 a.1) (f32 b.1) || ((f32 a.1).cmp (f32 b.1) == some .eq && decide (a.2.2 < b.2.2))) zs).map (fun z => z.2)

/-- The result token's payload (R192). -/
def resultVal (l : LStream) : Val :=
  let w (b : Bool) (k : Nat) : Nat := if b then 2 ^ k else 0
  let flags := w l.trunc 1 + w l.order 2 + w l.bad 3
  let tail (k : Nat) : Option Slot := if k = 5 then some (BitVec.ofNat 32 l.node) else if k = 6 then some (BitVec.ofNat 32 l.pos) else none
  if l.faulted then valOf (fun k => if k = 4 then some (BitVec.ofNat 32 (w l.trunc 1 + 16)) else tail k)
  else match l.cands with
    | [] => valOf (fun k => if k = 3 then some 0 else if k = 4 then some (BitVec.ofNat 32 (flags + 1)) else tail k)
    | _ :: _ =>
      let lse := add32 (f32 l.m) (f32 (ln32 l.sum))
      let cs := keepCands l lse
      match (if l.greedy then cs.head? else gumbelPick l cs) with
      | none => noVal
      | some c => valOf (fun k =>
          if k = 0 then some (BitVec.ofNat 32 c.2) else if k = 1 then some (BitVec.ofNat 32 c.1) else if k = 2 then some (BitVec.ofNat 32 lse)
          else if k = 3 then some (BitVec.ofNat 32 cs.length) else if k = 4 then some (BitVec.ofNat 32 flags) else tail k)

/-! ### Streams (R183–R185, R189, R192) -/

/-- A token of a lantern goes to each graph that a channel of its port enters, in that graph's context (R343). -/
def emitLantern (s : State) (w : BitVec 4) (spire port : Nat) (c : Colour) (i : IterTag) (v : Val) : State :=
  (lanternNodes s w spire).foldl (fun st e => emitTok st e.1 port (dataTok { colour := c, context := e.1.x, iter := i } 0 v) none) s

/-- A report of a lantern, to the context whose graph holds its role (R184). -/
def lanternReport (s : State) (n : NodeId) (t : Tag) (r : Report) : State :=
  match placedOf s n with
  | none => s
  | some p => deliverRecord s { portOrigin p n t with source := 1, nest := false } r false

def isSeq (spire : Nat) (c : Colour) (i : IterTag) (l : LStream) : Bool := l.spire == spire && l.colour == c && l.iter == i
def findStream (s : State) (spire : Nat) (c : Colour) (i : IterTag) : Option LStream := s.lstreams.find? (isSeq spire c i)
def putStream (s : State) (l : LStream) : State := { s with lstreams := updFirst (isSeq l.spire l.colour l.iter) (fun _ => l) s.lstreams }

/-- Logit tokens of a stream. -/
def streamToks (l : LStream) : Nat := (l.total + 15) / 16

/-- A stream ends: its result leaves, unless it is only discarded. -/
def finishStream (s : State) (w : BitVec 4) (l : LStream) : State :=
  let s1 := { s with lstreams := delFirst (isSeq l.spire l.colour l.iter) s.lstreams }
  if l.drop then s1 else emitLantern s1 w l.spire 0 l.colour l.iter (resultVal l)

/-- The fields of a header token: POS, NODE, V and PATH; none where it is malformed (R184). -/
def readHeader (t : Token) : Option (Nat × Nat × Nat × List Nat) :=
  let v := t.val
  let path := ((List.range 12).map (fun k => slotOf v (4 + k))).takeWhile (fun x => x.isSome)
  match slotOf v 0, slotOf v 1, slotOf v 2 with
  | some pos, some node, some n =>
    let ids := path.filterMap (fun x => x.map (fun y => y.toNat))
    if t.kind = .data ∧ t.aux = 1 ∧ 1 ≤ n.toNat ∧ n.toNat ≤ 2 ^ 24 ∧ slotBits v 3 = 0 ∧ ids.all (fun i => decide (i < 2 ^ 24)) ∧ (List.range 12).all (fun k => decide (k < ids.length) || !v.valid.getLsbD (4 + k))
    then some (pos.toNat, node.toNat, n.toNat, ids) else none
  | _, _, _ => none

/-- The tokens at a lantern's port that are the first of their sequence, in a colour. -/
def seqHeads (s : State) (p : PortId) (c : Colour) : List PTok :=
  let here := s.ptoks.filter (fun t => t.at_ == p && t.tok.tag.colour == c)
  (here.map (fun t => t.tok.tag.iter)).eraseDups.filterMap (fun i => here.find? (fun t => t.tok.tag.iter == i && t.bkpt.isNone))

/-- A lantern's port that may act now: it has a role holder that the belfry does not gate and that no purge of
the colour freezes. -/
def lanternPort (s : State) (n : NodeId) (port : Nat) (c : Colour) (streams : Bool) : Option (PortId × Nat) :=
  match lanternOf s n with
  | none => none
  | some sp =>
    match homePort s { node := n, port := port } with
    | none => none
    | some p =>
      if (streams && gated s p.node.w p.node.x) || (contextsOf s n.w).any (fun e => frozen s n.w e.1 c && (lanternSpires e.2).contains sp) then none
      else some (p, sp)

/-- A stream as its header opens it. -/
def openStreamOf (s : State) (w : BitVec 4) (spire : Nat) (t : Tag) (hd : Nat × Nat × Nat × List Nat) (va : Nat) : LStream × Option Report :=
  let rd := devByte s w t.colour
  let base : LStream := { spire := spire, colour := t.colour, iter := t.iter, path := hd.2.2.2, pos := hd.1, node := hd.2.1, total := hd.2.2.1, next := 0, bad := false, faulted := false, drop := false, order := false, trunc := false, vlim := 0, k := 0, greedy := false, minp := 0, topp := 0, seed := 0, table := [], prog := [], m := negInf32, sum := 0, cands := [], ended := false }
  match loadSeq rd va with
  | .error r => ({ base with faulted := true }, some r)
  | .ok (d, prog) =>
    match readTable rd d.table d.ntab with
    | .error r => ({ base with faulted := true }, some r)
    | .ok tab =>
      let j := joinTable none tab
      ({ base with order := j.2, vlim := d.vlim, k := d.k, greedy := d.greedy, minp := d.minp, topp := d.topp, seed := BitVec.ofNat 64 d.seed, table := j.1, prog := prog }, none)

/-- Whether a commit token of a header's sequence waits that came before the header: the stream sees the table as that token
leaves it (R193). -/
def commitAhead (s : State) (sp : Nat) (t : PTok) : Bool :=
  (s.ptoks.takeWhile (fun y => y != t)).any (fun y =>
    y.at_.port == 1 && y.tok.tag.colour == t.tok.tag.colour && y.tok.tag.iter == t.tok.tag.iter && lanternOf s y.at_.node == some sp)

/-- STREAM_HEADER (R184, R189). -/
def execStreamHeader (n : NodeId) (c : Colour) (s : State) : Result :=
  match lanternPort s n 0 c true with
  | none => .next s
  | some (p, sp) =>
    let known (t : PTok) : Bool := (findStream s sp c t.tok.tag.iter).isSome
    let full := decide (16 ≤ (s.lstreams.filter (fun l => l.spire == sp)).length)
    match (seqHeads s p c).find? (fun t => !(t.tok.kind == .data && t.tok.aux == 0) && (known t || !full || (readHeader t.tok).isNone)) with
    | none => .next s
    | some t =>
      let tag := t.tok.tag
      match readHeader t.tok with
      | none => .next (lanternReport (leaveOne s t) p.node tag (fail .illegalEncoding))
      | some hd =>
        if s.logit.any (fun r => r.spire == sp && r.colour == c && r.iter == tag.iter) || commitAhead s sp t then .next s
        else
          let s1 := match findStream s sp c tag.iter with
            | some l => finishStream s n.w (if l.ended then l else { l with trunc := true })
            | none => s
          let r := match bindOf s1 sp c tag.iter with
            | some va => openStreamOf s1 n.w sp tag hd va
            | none => ({ (openStreamOf s1 n.w sp tag hd 0).1 with drop := true, faulted := true }, some (fail .permission))
          if r.2.any (fun e => e.cause == .stall) then .next s
          else
            let s2 := leaveOne { s1 with lstreams := s1.lstreams ++ [r.1] } t
            .next (match r.2 with | some e => lanternReport s2 p.node tag e | none => s2)

/-- The registers of a logit program at its entry (R194). -/
def entryRegs (l : LStream) (id logit : Nat) : FMap Slot :=
  let e := l.table.find? (fun x => x.1 == id)
  let cnt := (e.map (fun x => x.2.1)).getD 0 + (l.path.filter (fun x => x == id)).length
  let bias := (e.map (fun x => x.2.2)).getD 0
  let put (m : FMap Slot) (k v : Nat) : FMap Slot := mput 0 m k (BitVec.ofNat 32 v)
  put (put (put (put [] 0 logit) 1 (round32 (.rat false cnt 1))) 2 (bias * 2 ^ 16)) 3 (round32 (.rat false id 1))

/-- The unit loads the next id of a token, or is free; the last token's last id ends the stream. -/
def nextId (s : State) (l : LStream) (ids : List (Nat × Nat)) : State :=
  match ids with
  | [] => putStream { s with logit := none } (if l.next = streamToks l then { l with ended := true } else l)
  | (id, logit) :: rest =>
    putStream { s with logit := some { spire := l.spire, colour := l.colour, iter := l.iter, ids := rest, cur := id, prog := l.prog, pc := 0, regs := entryRegs l id logit, mask := false } } l

/-- LOGIT_TOKEN (R190): the unit runs the program for each present id below VLIM, in ascending id; a token
without an open stream is malformed. -/
def execLogitToken (n : NodeId) (c : Colour) (s : State) : Result :=
  match lanternPort s n 0 c true with
  | none => .next s
  | some (p, sp) =>
    match (seqHeads s p c).find? (fun t => t.tok.kind == .data && t.tok.aux == 0) with
    | none => .next s
    | some t =>
      let tag := t.tok.tag
      match findStream s sp c tag.iter with
      | none => .next (lanternReport (leaveOne s t) p.node tag (fail .illegalEncoding))
      | some l =>
        if l.ended then .next (lanternReport (leaveOne s t) p.node tag (fail .illegalEncoding))
        else
          let l1 := { l with next := l.next + 1 }
          if l.drop ∧ l1.next = streamToks l then .next (leaveOne { s with lstreams := delFirst (isSeq sp c tag.iter) s.lstreams } t)
          else if l.drop ∨ l.faulted then .next (leaveOne (putStream s (if l1.next = streamToks l then { l1 with ended := true } else l1)) t)
          else if s.logit.isSome then .next s
          else
            let ids := (List.range 16).filterMap (fun k =>
              let i := 16 * l.next + k
              if i < l.total ∧ i < l.vlim then (slotOf t.tok.val k).map (fun v => (i, v.toNat)) else none)
            .next (nextId (leaveOne s t) l1 ids)

/-- STREAM_DRAW (R190). -/
def execStreamDraw (n : NodeId) (c : Colour) (i : IterTag) (s : State) : Result :=
  match lanternPort s n 0 c false with
  | none => .next s
  | some (_, sp) =>
    match findStream s sp c i with
    | none => .next s
    | some l => .next (if l.ended then finishStream s n.w l else s)

/-! ### Commit tokens (R193) -/

/-- Count one id in a table. -/
def countId (id : Nat) : List (Nat × Nat × Nat) → List (Nat × Nat × Nat)
  | [] => [(id, 1, 0)]
  | e :: l => if id < e.1 then (id, 1, 0) :: e :: l else if id = e.1 then (id, min (e.2.1 + 1) 65535, e.2.2) :: l else e :: countId id l

/-- Take the ids of a commit token in order: the table, FULL and RANGE. -/
def countIds (vlim : Nat) : List (Nat × Nat × Nat) → Bool → Bool → List Nat → List (Nat × Nat × Nat) × Bool × Bool
  | t, full, range, [] => (t, full, range)
  | t, full, range, id :: l =>
    if vlim ≤ id then countIds vlim t full true l
    else if t.any (fun e => e.1 == id) || decide (t.length < 4096) then countIds vlim (countId id t) full range l
    else countIds vlim t true range l

/-- Bytes that a device agent writes at consecutive virtual addresses; nothing is written when one faults or
meets a live word. -/
def devStore (s : State) (w : BitVec 4) (c : Colour) : Nat → List (BitVec 8) → Except Report State
  | _, [] => .ok s
  | va, b :: l =>
    match access s none w c va 1 false true with
    | .error r => .error r
    | .ok pa =>
      if typeAt s pa ≠ 0 then .error (failAt .barrierStore va)
      else devStore (performWrite s { bytes := [(pa, b)], via := some { w := w, colour := c, va := va } }) w c (va + 1) l

/-- The bytes of a table. -/
def tableBytes (t : List (Nat × Nat × Nat)) : List (BitVec 8) := (t.map (fun e => leBytes 8 (e.1 + e.2.1 * 2 ^ 24 + e.2.2 * 2 ^ 40))).flatten

/-- Update a sequence's table: the state, NTAB and the status bits. -/
def commitTable (s : State) (w : BitVec 4) (c : Colour) (va : Nat) (ids : List Nat) : Except Report (State × Nat × Nat) :=
  match readSeq (devByte s w c) va with
  | .error r => .error r
  | .ok (d, _) =>
    match readTable (devByte s w c) d.table d.ntab with
    | .error r => .error r
    | .ok tab =>
      let j := joinTable none tab
      let r := countIds d.vlim j.1 false false ids
      match devStore s w c d.table (tableBytes r.1) with
      | .error e => .error e
      | .ok s1 =>
        match devStore s1 w c (va + 20) (leBytes 2 r.1.length) with
        | .error e => .error e
        | .ok s2 => .ok (s2, r.1.length, (if r.2.1 then 1 else 0) + (if j.2 then 2 else 0) + (if r.2.2 then 4 else 0))

/-- LANTERN_COMMIT_TOKEN (R193): it is taken whether or not the role's context is active (R343). -/
def execLanternCommitToken (n : NodeId) (c : Colour) (s : State) : Result :=
  match lanternPort s n 1 c false with
  | none => .next s
  | some (p, sp) =>
    match s.ptoks.find? (fun t => t.at_ == p && t.tok.tag.colour == c && t.bkpt.isNone) with
    | none => .next s
    | some t =>
      let tag := t.tok.tag
      if t.tok.kind ≠ .data ∨ t.tok.aux ≠ 2 then .next (lanternReport (leaveOne s t) p.node tag (fail .illegalEncoding))
      else match bindOf s sp c tag.iter with
        | none => .next (lanternReport (leaveOne s t) p.node tag (fail .permission))
        | some va =>
          let ids := (List.range 16).filterMap (fun k => (slotOf t.tok.val k).map (fun v => v.toNat))
          match commitTable s n.w c va ids with
          | .error r => .next (if r.cause = .stall then s else lanternReport (leaveOne s t) p.node tag r)
          | .ok (s1, ntab, st) => .next (emitLantern (leaveOne s1 t) n.w sp 1 c tag.iter (firstSlots [BitVec.ofNat 32 ntab, BitVec.ofNat 32 st]))

/-! ### The draft walker (R197–R200) -/

/-- DRAFT (R198): slots 0–5 of d must be valid; the walk starts at commit. -/
def execDraft (h : Hdr) (p : PayE) (s : State) : Result :=
  memOp h s (fun b xs =>
    let d := xs.getD 0 noVal
    match baseOf false d, slotOf d 2, slotOf d 3, slotOf d 4, slotOf d 5 with
    | some base, some lo, some hi, some vlim, some minl =>
      let ids := (List.range 16).filterMap (fun k => (slotOf (xs.getD 1 noVal) k).map (fun v => v.toNat))
      let k : WalkDesc := { base := base, dest := lo.toNat + 2 ^ 32 * hi.toNat, vlim := vlim.toNat, minl := minl.toNat, nc := bits p.ectl.toNat 2 0 + 1, depth := bits p.ectl.toNat 5 3 + 1, ids := ids }
      startAtCommit (acquire s b p.scope) b (newOp b h p.scope (cellSpire b.cell) none (.walk k))
    | _, _, _, _, _ => putInst s (skipInst h b))

/-- Why a walk stops early. -/
inductive WStop where
  | bound | malformed
  | fault (r : Report)

/-- A walk's progress: node reads, transition reads, filtered transitions, and the trie's nodes with their
parents. -/
structure Walker where
  nodes : Nat := 0
  trans : Nat := 0
  filt : List (Nat × Nat) := []
  trie : List (Nat × Option Nat) := []

abbrev WalkM := ExceptT WStop (StateM Walker)

/-- A node's header. -/
structure ANode where
  count : Nat
  link : Nat
  ntr : Nat
  len : Nat

/-- One 8-byte word of the automaton. -/
def walkWord (rd : Nat → Except Report Nat) (va : Nat) : WalkM Nat :=
  match readVia rd va 8 with
  | .ok w => pure w
  | .error r => throw (.fault r)

/-- Read a node's header; every read counts. -/
def walkNode (rd : Nat → Except Report Nat) (base x : Nat) : WalkM ANode := do
  let w ← get
  set { w with nodes := w.nodes + 1 }
  if 4096 ≤ w.nodes then throw .bound
  let a ← walkWord rd (base + 16 * x)
  let b ← walkWord rd (base + 16 * x + 8)
  if bits b 63 48 ≠ 0 then throw .malformed
  return { count := bits a 63 32, link := bits a 31 0, ntr := bits b 47 32, len := bits b 31 0 }

/-- Read transitions t, t + 1, … of a node: those below VLIM, with their targets. -/
def walkTrans (rd : Nat → Except Report Nat) (d : WalkDesc) (x : Nat) : Nat → Nat → Option Nat → WalkM (List (Nat × Nat))
  | 0, _, _ => pure []
  | n + 1, t, prev => do
    let w ← get
    set { w with trans := w.trans + 1 }
    if 262144 ≤ w.trans then throw .bound
    let e ← walkWord rd (d.base + 16 * x + 16 + 8 * t)
    let id := bits e 23 0
    if bits e 31 24 ≠ 0 ∨ (prev.any (fun p => decide (id ≤ p))) then throw .malformed
    if d.vlim ≤ id then
      modify (fun v => if v.filt.contains (x, t) then v else { v with filt := (x, t) :: v.filt })
      walkTrans rd d x n (t + 1) (some id)
    else
      let l ← walkTrans rd d x n (t + 1) (some id)
      return (id, bits e 63 32) :: l

/-- The transitions of a node that are not filtered. -/
def nodeTrans (rd : Nat → Except Report Nat) (d : WalkDesc) (x : Nat) : WalkM (List (Nat × Nat)) := do
  let h ← walkNode rd d.base x
  walkTrans rd d x h.ntr 0 none

/-- Match one context id: suffix links until the node has the transition, or the root. -/
def matchId (rd : Nat → Except Report Nat) (d : WalkDesc) (c : Nat) : Nat → Nat → WalkM Nat
  | 0, _ => throw .bound
  | fuel + 1, st => do
    let l ← nodeTrans rd d st
    match l.find? (fun e => e.1 == c) with
    | some e => return e.2
    | none =>
      if st = 0 then return 0
      else
        let h ← walkNode rd d.base st
        matchId rd d c fuel h.link

/-- Match the whole context. -/
def matchIds (rd : Nat → Except Report Nat) (d : WalkDesc) : Nat → List Nat → WalkM Nat
  | st, [] => pure st
  | st, c :: l => do
    let st1 ← matchId rd d c 4097 st
    matchIds rd d st1 l

/-- The counts of transitions' targets. -/
def countsOf (rd : Nat → Except Report Nat) (d : WalkDesc) : List (Nat × Nat) → WalkM (List (Nat × Nat × Nat))
  | [] => pure []
  | e :: l => do
    let h ← walkNode rd d.base e.2
    let r ← countsOf rd d l
    return (h.count, e.1, e.2) :: r

/-- The transitions of a node in rank order: (id, target). -/
def rankedTrans (rd : Nat → Except Report Nat) (d : WalkDesc) (x : Nat) : WalkM (List (Nat × Nat)) := do
  let l ← nodeTrans rd d x
  let cs ← countsOf rd d l
  return (sortBy (fun a b => decide (b.1 < a.1) || (a.1 == b.1 && decide (a.2.1 < b.2.1))) cs).map (fun e => e.2)

/-- One continuation: nodes from (id, target) down. -/
def continuation (rd : Nat → Except Report Nat) (d : WalkDesc) : Nat → Nat × Nat → Option Nat → WalkM Unit
  | 0, _, _ => pure ()
  | n + 1, e, parent => do
    let w ← get
    set { w with trie := w.trie ++ [(e.1, parent)] }
    if n = 0 then return ()
    let l ← rankedTrans rd d e.2
    match l with
    | [] => return ()
    | y :: _ => continuation rd d n y (some w.trie.length)

/-- Every continuation. -/
def continuations (rd : Nat → Except Report Nat) (d : WalkDesc) : List (Nat × Nat) → WalkM Unit
  | [] => pure ()
  | e :: l => do
    continuation rd d d.depth e none
    continuations rd d l

/-- A whole walk: LEN of the matched node and SHORT. -/
def walkAll (rd : Nat → Except Report Nat) (d : WalkDesc) : WalkM (Nat × Bool) := do
  let st ← matchIds rd d 0 d.ids
  let h ← walkNode rd d.base st
  if h.len < d.minl then return (h.len, true)
  let r ← rankedTrans rd d st
  continuations rd d (r.take d.nc)
  return (h.len, false)

/-- LEN once the context is matched, for a walk that stops after it. -/
def walkLen (rd : Nat → Except Report Nat) (d : WalkDesc) : WalkM Nat := do
  let st ← matchIds rd d 0 d.ids
  let h ← walkNode rd d.base st
  return h.len

/-- The bytes of a trie record (R200). -/
def trieBytes (w : Walker) (status len : Nat) : List (BitVec 8) :=
  let node (n : Nat) : Nat := match w.trie[n]? with
    | none => 0
    | some (id, none) => 2 ^ 30 + id
    | some (id, some p) => p % 64 * 2 ^ 24 + id
  (([w.trie.length, w.filt.length, status, len] ++ (List.range 64).map node).map (leBytes 4)).flatten

/-- DRAFT_WALK_DONE (R199): the walk's reads, its record and its completion token. -/
def execDraftWalkDone (op : Nat) (s : State) : Result :=
  match findOp s op with
  | none => .next s
  | some o =>
    match o.kind with
    | .walk d =>
      if !canReport s o then .next s
      else
        let rd := devByte s o.node.w o.tag.colour
        let r := walkAll rd d {}
        let w := r.2
        let stop : Nat × Option Report := match r.1 with
          | .ok (_, short) => (if short then 8 else 0, none)
          | .error .bound => (4, none)
          | .error .malformed => (2, none)
          | .error (.fault e) => (1, some e)
        let len : State × Nat := match r.1, (walkLen rd d {}).1 with
          | .ok (n, _), _ => (s, n)
          | _, .ok n => (s, n)
          | _, _ => (let f := takeFree s; (f.1, f.2.toNat % 2 ^ 32))
        let bytes := trieBytes w stop.1 len.2
        let wr : Except Report State := if d.dest % 64 = 0 then devStore len.1 o.node.w o.tag.colour d.dest bytes else .error (failAt .addrOverflow d.dest)
        let out : State × Nat × Option Report := match wr with
          | .ok s1 => (s1, stop.1, none)
          | .error e => (len.1, stop.1 ||| 1, if d.dest % 64 = 0 then some e else none)
        if stop.2.any (fun e => e.cause == .stall) || out.2.2.any (fun e => e.cause == .stall) then .next s
        else
          let tell (st : State) (e : Option Report) : State := match e with
            | some x => deliverRecord st (opOrigin st o) x false
            | none => st
          let s2 := tell (tell (endOp out.1 o) stop.2) out.2.2
          .next (reportOp s2 o (firstSlots [BitVec.ofNat 32 w.trie.length, BitVec.ofNat 32 w.filt.length, BitVec.ofNat 32 out.2.1, BitVec.ofNat 32 len.2]))
    | _ => .next s

end Sys2Proof.Machine
end

