-- ==== Sys2Proof/Machine/Control.lean ====
section
/-! DEFINITION. Control and graph instructions, opcodes 0x001–0x014 (R89–R104). -/

namespace Sys2Proof.Machine

/-! ### Exits (R90–R92) -/

/-- An exit that is taken; the lowest taken exit is the instance's (R90). -/
def takeExit (e : Exit) (b : BInst) : BInst := { b with exit := some (b.exit.getD e) }

/-- An exit instruction: a guarded-off one is not taken (R44). -/
def exitOp (h : Hdr) (p : PayC) (s : State) (f : List Val → Exit) : Result :=
  withOps h (k0Const p.k0) s (skipInst h) (fun b xs => putInst s (advance 1 (takeExit (f xs) b)))

/-- END (R91). -/
def execExitEnd (h : Hdr) (p : PayC) (s : State) : Result := exitOp h p s (fun _ => .fin)

/-- BR (R92). -/
def execBr (h : Hdr) (p : PayC) (s : State) : Result := exitOp h p s (fun xs => .chain p.blk.toNat xs)

/-- The clamped index of BRX: 0 when slot 0 is invalid (R92). -/
def brxIndex (x : Val) (n : Nat) : Nat := min ((slotOf x 0).getD 0).toNat (n - 1)

/-- BRX (R92). -/
def execBrx (h : Hdr) (p : PayC) (s : State) : Result :=
  exitOp h p s (fun xs => .chain (p.blk.toNat + brxIndex (xs.getD 0 noVal) (p.cctl.toNat % 64 + 1)) (xs.drop 1))

/-! ### Routing values (R95–R100) -/

/-- An instruction of layout C that delivers one value with its AUXI (R81, R411). -/
def routeOp (h : Hdr) (p : PayC) (s : State) (f : BInst → List Val → Val) : Result :=
  pureOp h (k0Const p.k0) p.auxi s (fun b xs => let v := f b xs; same v (predGeneral v))

/-- EMIT (R95). -/
def execEmit (h : Hdr) (p : PayC) (s : State) : Result := routeOp h p s (fun _ xs => xs.getD 0 noVal)

/-- The index of the lowest valid slot. -/
def lowestValid (v : Val) : Option Nat := (List.range 16).find? (fun k => v.valid.getLsbD k)

/-- The two masks of STEER (R96). -/
def steerMasks (slotw : Bool) (x sel : Val) : BitVec 16 × BitVec 16 :=
  if slotw then
    let m (f : Slot → Bool) : BitVec 16 :=
      BitVec.ofNat 16 (packBits ((List.range 16).map (fun k => x.valid.getLsbD k && sel.valid.getLsbD k && f (slotBits sel k))))
    (m (· != 0), m (· == 0))
  else match lowestValid sel with
    | none => (0, 0)
    | some k => if slotBits sel k = 0 then (0, x.valid) else (x.valid, 0)

/-- x under a mask: a slot whose bit is clear carries 0. -/
def maskVal (x : Val) (m : BitVec 16) : Val := valOf (fun k => if m.getLsbD k then some (slotBits x k) else none)

/-- With DROPC a channel target whose mask is zero receives no token (R96). -/
def steerTarget (dropc : Bool) (t : Target) (m : BitVec 16) : Target := if dropc && t.isChan && m == 0 then .none else t

/-- STEER (R96).  Guarded off, it computes no mask, so that each channel target gets the token of R44 with DROPC too
(assumption 44). -/
def execSteer (h : Hdr) (p : PayC) (s : State) : Result :=
  withOps h (k0Const p.k0) s (fun b => advance 1 (deliver h p.auxi offDeliv b))
    (fun b xs =>
      let x := xs.getD 0 noVal
      let m := steerMasks (p.cctl.getLsbD 0) x (xs.getD 1 noVal)
      let dropc := p.cctl.getLsbD 1
      let h' := { h with t0 := steerTarget dropc h.t0 m.1, t1 := steerTarget dropc h.t1 m.2 }
      putInst s (advance 1 (deliver h' p.auxi { v0 := maskVal x m.1, p0 := m.1 != 0, v1 := maskVal x m.2, p1 := m.2 != 0 } b)))

/-- The lowest operand valid in a slot. -/
def mergeSlot (k : Nat) : List Val → Option Slot
  | [] => none
  | v :: l => match slotOf v k with
    | some x => some x
    | none => mergeSlot k l

/-- MERGE (R97). -/
def execMerge (h : Hdr) (p : PayC) (s : State) : Result := routeOp h p s (fun _ xs => valOf (fun k => mergeSlot k xs))

/-- GATE (R98). -/
def execGate (h : Hdr) (p : PayC) (s : State) : Result := routeOp h p s (fun _ xs => xs.getD 0 noVal)

/-- DROP (R99). -/
def execDrop (h : Hdr) (p : PayC) (s : State) : Result :=
  withOps h (k0Const p.k0) s (skipInst h) (fun b _ => putInst s (advance 1 b))

/-- The slots of ITER: i1 to i4 where their levels are present, then the outer point's number (R100). -/
def iterVal (b : BInst) (exts : List Nat) : Val :=
  match b.point with
  | none => noVal
  | some (is, q) =>
    valOf (fun k =>
      if k = 5 then some (BitVec.ofNat 32 q)
      else if 1 ≤ k ∧ k ≤ 4 ∧ exts.getD (k - 1) 0 ≠ 0 then some (BitVec.ofNat 32 (is.getD (k - 1) 0))
      else none)

/-- ITER (R100). -/
def execIter (h : Hdr) (p : PayC) (s : State) : Result :=
  routeOp h p s (fun b _ => iterVal b (((s.nests.find? (fun r => r.inv == b.inv)).map (fun r => r.exts)).getD
    (((placedOf s b.node).bind nodeNest).getD [])))

/-! ### Counters (R101–R103) -/

/-- Lim(x). -/
def counterLim (x : Nat) : Nat := if x = 0 then 65536 else x

def counterKey (cell k : Nat) : Nat := cell * 8 + k

/-- The fields of a counter. -/
def cntValue (w : Word64) : Nat := bits w.toNat 15 0
def cntLimit (w : Word64) : Nat := bits w.toNat 31 16
def cntWord (w : Word64) : Nat := bits w.toNat 31 0

/-- Step(j), with the mask of counters that wrapped; CHAIN is above j, so the chain ends (R103). -/
def stepCounter (cell : Nat) : Nat → FMap Word64 → Nat → FMap Word64 × Nat
  | 0, m, _ => (m, 0)
  | fuel + 1, m, j =>
    let w := mget 0 m (counterKey cell j)
    let v := cntValue w + 1
    if v = counterLim (cntLimit w) then
      let m1 := mput 0 m (counterKey cell j) (BitVec.ofNat 64 (w.toNat - cntValue w))
      if w.getLsbD 39 then (let r := stepCounter cell fuel m1 (bits w.toNat 38 36); (r.1, r.2 + 2 ^ j)) else (m1, 2 ^ j)
    else (mput 0 m (counterKey cell j) (BitVec.ofNat 64 (w.toNat - cntValue w + v)), 0)

/-- CNTLD's write of a counter. -/
def loadCounter (cell : Nat) (m : FMap Word64) (k : Nat) (word : BitVec 32) (chain : Option Nat) : FMap Word64 :=
  let lim := bits word.toNat 31 16
  let v := bits word.toNat 15 0 % counterLim lim
  let ch := match chain with
    | some c => 2 ^ 39 + c * 2 ^ 36
    | none => 0
  mput 0 m (counterKey cell k) (BitVec.ofNat 64 (ch + lim * 2 ^ 16 + v))

/-- The counters after an instance's own counter effects, in slot order (R103). -/
def applyCounters (cell : Nat) : FMap Word64 → List Eff → FMap Word64
  | m, [] => m
  | m, .counterLoad k w c :: l => applyCounters cell (loadCounter cell m k w c) l
  | m, .counterStep k :: l => applyCounters cell (stepCounter cell 8 m k).1 l
  | m, _ :: l => applyCounters cell m l

/-- A counter as an instruction of the instance finds it: as its firing found it, with the instance's own effects in
lower slots (R50, R103). -/
def counterNow (b : BInst) (k : Nat) : Word64 :=
  mget 0 (applyCounters b.cell b.counters0 b.effs) (counterKey b.cell k)

/-- Levels of a nest with the given outer extents. -/
def nestLevels (exts : List Nat) : Nat := 1 + (exts.filter (· ≠ 0)).length

/-- Whether the instance's node owns counter k, by configuration or by its loop nest (R102). -/
def ownsCounter (s : State) (b : BInst) (k : Nat) : Bool :=
  match placedOf s b.node with
  | none => false
  | some p => p.route.counters.any (fun e => e.1 == k) || (match nodeNest p with | some e => decide (k < nestLevels e) | none => false)

/-- Whether a loop nest holds counter k of the instance's node. -/
def nestHolds (s : State) (b : BInst) (k : Nat) : Bool :=
  match (placedOf s b.node).bind nodeNest with
  | some e => decide (k < nestLevels e)
  | none => false

/-- A counter instruction: PERMISSION unless its node owns the counter and, for a writer, no nest holds it
(R102). -/
def counterOp (h : Hdr) (p : PayC) (s : State) (writes : Bool) (body : BInst → List Val → BInst) : Result :=
  let k := p.cctl.toNat % 8
  withOps h (k0Const p.k0) s (fun b => advance 1 (deliver h p.auxi offDeliv b)) (fun b xs =>
    if !ownsCounter s b k || (writes && nestHolds s b k) then raise s b (fail .permission)
    else putInst s (advance 1 (body b xs)))

/-- CNTLD (R103): nothing changes when slot 0 of w is invalid. -/
def execCntld (h : Hdr) (p : PayC) (s : State) : Result :=
  counterOp h p s true (fun b xs =>
    match slotOf (xs.getD 0 noVal) 0 with
    | none => b
    | some w => addEff (.counterLoad (p.cctl.toNat % 8) w (if p.cctl.getLsbD 6 then some (bits p.cctl.toNat 5 3) else none)) b)

/-- CNTRD (R103). -/
def execCntrd (h : Hdr) (p : PayC) (s : State) : Result :=
  counterOp h p s false (fun b _ =>
    let v := word32 (cntWord (counterNow b (p.cctl.toNat % 8)))
    deliver h p.auxi (same v (predGeneral v)) b)

/-- CNTSTEP (R103). -/
def execCntstep (h : Hdr) (p : PayC) (s : State) : Result :=
  counterOp h p s true (fun b _ =>
    let k := p.cctl.toNat % 8
    let r := stepCounter b.cell 8 (applyCounters b.cell b.counters0 b.effs) k
    let v := firstSlots [BitVec.ofNat 32 (cntWord (counterNow b k)), BitVec.ofNat 32 r.2]
    addEff (.counterStep k) (deliver h p.auxi (same v (r.2 / 2 ^ k % 2 == 1)) b))

/-! ### Control tokens (R104) -/

/-- The control tokens of a mask, in ascending successor order. -/
def ctlEffs (go : Bool) (mask : Nat) : List Eff :=
  ((List.range 4).filter (fun i => mask / 2 ^ i % 2 == 1)).map (fun i => .ctl go i)

def ctlOp (h : Hdr) (p : PayC) (s : State) (go : Bool) : Result :=
  withOps h (k0Const p.k0) s (skipInst h) (fun b _ =>
    putInst s (advance 1 { b with effs := b.effs ++ ctlEffs go p.cctl.toNat }))

/-- GOTX (R104). -/
def execGotx (h : Hdr) (p : PayC) (s : State) : Result := ctlOp h p s true

/-- HALTX (R104). -/
def execHaltx (h : Hdr) (p : PayC) (s : State) : Result := ctlOp h p s false

end Sys2Proof.Machine
end

