-- ==== Sys2Proof/Machine/LoopNest.lean ====
section
/-! DEFINITION. Loop nests, opcodes 0x020–0x02B (R105–R109). -/

namespace Sys2Proof.Machine

/-- The entry check of a loop nest: legal, unblocked, total width 8, 16 or 32 (R107). -/
def nestEntry (x : Word64) : Bool :=
  legalEntry x && (Fmt.ofWord x).block == 0
    && ((Fmt.ofWord x).width == 8 || (Fmt.ofWord x).width == 16 || (Fmt.ofWord x).width == 32)

/-- The scratchpad of the instance's node: the linked memory cell, when it holds the scratch role (R107, R241). -/
def scratchOf (s : State) (b : BInst) : Option Nat :=
  match linkOf s b.node with
  | some m => if roleOf (nodeCtx s b.node) m = some .scratch then some m else none
  | none => none

/-- addr(o) for indices i0 and i1–i4 (R107). -/
def nestAddr (p : PayN) (base w : Nat) (o : Nat) (i : List Nat) : Int :=
  let lin := (List.range 5).foldl (fun a l => a + p.stride o l * (i.getD l 0 : Nat)) (0 : Int)
  (base : Int) + lin * (2 ^ p.sh o : Nat) * (w : Nat)

/-- The element addresses of every operand at one i0, or the first operand that breaks the range or
alignment (R107). -/
def nestAddrs (p : PayN) (w : Nat) (i : List Nat) : Nat → List Nat → Except (Nat × Int) (List Nat)
  | _, [] => .ok []
  | o, base :: l =>
    let a := nestAddr p base w o i
    if a < 0 ∨ (scratchSize : Int) < a + (w : Nat) ∨ a % (w : Nat) ≠ 0 then .error (o, a)
    else match nestAddrs p w i (o + 1) l with
      | .ok as => .ok (a.toNat :: as)
      | .error e => .error e

/-- What one run of level 0 does: the stores it makes, the terms it gathered and its last code; or the
report it raises. -/
structure NestAcc where
  b : BInst
  terms : List Num
  code : Nat
  err : Option Report

/-- How a nest combines its elements: element-wise from (d, a, b) codes and i0, or a reduction. -/
inductive NestKind where
  | elem (f : Fmt → Nat → List Nat → Nat)
  | sum (f : Fmt → List Nat → Num)
  | best (big : Bool)

/-- A store of one element to the scratchpad. -/
def nestStore (m addr w code : Nat) : HStore := { bytes := cellsOf (scratchAddr m addr) w code, via := none }

/-- Point i0 of a run (R108, R109). -/
def nestPoint (s : State) (p : PayN) (e : Fmt) (kind : NestKind) (m w : Nat) (bases outer : List Nat) (i0 : Nat) (acc : NestAcc) : NestAcc :=
  if acc.err.isSome then acc
  else match nestAddrs p w (i0 :: outer) 0 bases with
    | .error (o, a) => { acc with err := some { cause := .addrOverflow, n := o, addr := wrapInt 64 a, iters := i0 :: outer } }
    | .ok as =>
      let codes := as.map (fun a => agentRead s acc.b (scratchAddr m a) w)
      match kind with
      | .elem f =>
        let st := nestStore m (as.getD 0 0) w (f e i0 codes)
        if holdOverflows s acc.b [st] then { acc with err := some { cause := .holdOverflow, addr := as.getD 0 0, iters := i0 :: outer } }
        else { acc with b := addEff (.store st) acc.b }
      | .sum f => { acc with terms := acc.terms ++ [f e codes] }
      | .best big => { acc with code := pickCode e big acc.code (codes.getD 1 0) }

/-- The whole level-0 run. -/
def nestRun (s : State) (p : PayN) (e : Fmt) (kind : NestKind) (m w : Nat) (bases outer : List Nat) : List Nat → NestAcc → NestAcc
  | [], acc => acc
  | i0 :: l, acc => nestRun s p e kind m w bases outer l (nestPoint s p e kind m w bases outer i0 acc)

/-- After a reduction's run: one rounding, one write, and the written value delivered (R108). -/
def nestFinish (s : State) (h : Hdr) (e : Fmt) (m w d0 : Nat) (kind : NestKind) (q : Nat) (acc : NestAcc) : NestAcc × Val :=
  let store (code : Nat) : NestAcc × Val :=
    let st := nestStore m d0 w code
    if holdOverflows s acc.b [st] then ({ acc with err := some { cause := .holdOverflow, addr := d0 } }, noVal)
    else ({ acc with b := addEff (.store st) acc.b }, word32 code)
  match kind with
  | .elem _ => (acc, noVal)
  | .sum _ =>
    let noise := { srOf s acc.b with ord := q % 4096 * 4096 }.noise 0
    let down := resolveRnd h.rnd e == .rdn
    store (roundNum (sumNums down [decodeElem e acc.code, sumNums down acc.terms]) e h.rnd noise)
  | .best _ => store acc.code

/-- A loop nest of one outer point (R106–R109).  It waits while an older instance of its invocation is in
flight; a base whose slot 0 is invalid makes it perform no element operation.  R107 asks for a linked cell in the scratch
role and names no outcome where there is none: the nest then raises PERMISSION as it executes (assumption 55). -/
def nestOp (h : Hdr) (p : PayN) (s : State) (kind : SrCtx → Rnd → Nat → NestKind) : Result :=
  match focusInst s with
  | none => .next s
  | some b0 =>
    if olderOfInv s b0 then .next s
    else
      withOps h (k0Const 0) s (fun b => advance 2 (deliver h 0 offDeliv b)) (fun b xs =>
        let word := entryWord s b h.fmt.toNat
        let e := Fmt.ofWord word
        if !nestEntry word then raiseFormat s b h.fmt.toNat
        else match xs.mapM (fun v => slotOf v 0) with
          | none => putInst s (advance 2 (deliver h 0 offDeliv b))
          | some bs =>
            match scratchOf s b with
            | none => raise s b (fail .permission)
            | some m =>
              let w := e.width / 8
              let outer := ((b.point.map (fun q => q.1)).getD [0, 0, 0, 0])
              let q := (b.point.map (fun x => x.2)).getD 0
              let k := kind (srOf s b) h.rnd q
              let bases := bs.map BitVec.toNat
              match nestAddrs p w (0 :: outer) 0 bases with
              | .error (o, a) => raise s b { cause := .addrOverflow, n := o, addr := wrapInt 64 a, iters := 0 :: outer }
              | .ok as =>
                let d0 := as.getD 0 0
                let acc := nestRun s p e k m w bases outer (List.range (p.ext 0)) { b := b, terms := [], code := agentRead s b (scratchAddr m d0) w, err := none }
                match acc.err with
                | some r => raise s b r
                | none =>
                  let f := nestFinish s h e m w d0 k q acc
                  match f.1.err with
                  | some r => raise s b r
                  | none => putInst s (advance 2 (deliver h 0 (same f.2 (predGeneral f.2)) f.1.b)))

/-- An element-wise nest that rounds an exact result of (d, a, b), with ord = Concat(q, i0) (R108). -/
def nestRound (f : Bool → Num → Num → Num → Exact) (sr : SrCtx) (m : Rnd) (q : Nat) : NestKind :=
  .elem (fun e i0 l =>
    round (f (resolveRnd m e == .rdn) (decodeElem e (l.getD 0 0)) (decodeElem e (l.getD 1 0)) (decodeElem e (l.getD 2 0))) e m
      ({ sr with ord := q % 4096 * 4096 + i0 % 4096 }.noise 0))

/-- LNCPY (R108). -/
def execLncpy (h : Hdr) (p : PayN) (s : State) : Result := nestOp h p s (fun _ _ _ => .elem (fun _ _ l => l.getD 1 0))

/-- LNADD (R108). -/
def execLnadd (h : Hdr) (p : PayN) (s : State) : Result :=
  nestOp h p s (nestRound (fun down _ a b => (sumNums down [a, b]).toExact))

/-- LNSUB (R108). -/
def execLnsub (h : Hdr) (p : PayN) (s : State) : Result :=
  nestOp h p s (nestRound (fun down _ a b => (sumNums down [a, b.neg]).toExact))

/-- LNMUL (R108). -/
def execLnmul (h : Hdr) (p : PayN) (s : State) : Result := nestOp h p s (nestRound (fun _ _ a b => (a.mul b).toExact))

/-- LNFMA (R108): one rounding. -/
def execLnfma (h : Hdr) (p : PayN) (s : State) : Result :=
  nestOp h p s (nestRound (fun down d a b => (sumNums down [a.mul b, d]).toExact))

/-- LNMAX (R108). -/
def execLnmax (h : Hdr) (p : PayN) (s : State) : Result :=
  nestOp h p s (fun _ _ _ => .elem (fun e _ l => pickCode e true (l.getD 1 0) (l.getD 2 0)))

/-- LNMIN (R108). -/
def execLnmin (h : Hdr) (p : PayN) (s : State) : Result :=
  nestOp h p s (fun _ _ _ => .elem (fun e _ l => pickCode e false (l.getD 1 0) (l.getD 2 0)))

/-- LNDIF (R108). -/
def execLndif (h : Hdr) (p : PayN) (s : State) : Result :=
  nestOp h p s (nestRound (fun down _ a b => (sumNums down [a, b.neg]).abs.toExact))

/-- LNSUM (R108). -/
def execLnsum (h : Hdr) (p : PayN) (s : State) : Result :=
  nestOp h p s (fun _ _ _ => .sum (fun e l => decodeElem e (l.getD 1 0)))

/-- LNRMX (R108). -/
def execLnrmx (h : Hdr) (p : PayN) (s : State) : Result := nestOp h p s (fun _ _ _ => .best true)

/-- LNRMN (R108). -/
def execLnrmn (h : Hdr) (p : PayN) (s : State) : Result := nestOp h p s (fun _ _ _ => .best false)

/-- LNDOT (R108): the products and the sum exact. -/
def execLndot (h : Hdr) (p : PayN) (s : State) : Result :=
  nestOp h p s (fun _ _ _ => .sum (fun e l => (decodeElem e (l.getD 1 0)).mul (decodeElem e (l.getD 2 0))))

end Sys2Proof.Machine
end

