-- ==== Sys2Proof/Machine/Cell.lean ====
section
/-! DEFINITION. A cell at work: fetching blocks (R317), choosing and starting firings (R35, R40, R42, R321),
chained instances, memory responses and translation (R216, R243), commit and release (R41, R225), the end
of invocations, control tokens and outer points (R46, R47, R105, R106), waits (R255–R258), the watchdog
(R373). -/

namespace Sys2Proof.Machine

/-! ### What a fetch checks (R76, R88) -/

/-- The entry that an instruction cannot use at the generation that its instance captured. -/
def entryBad (s : State) (b : BInst) (x : BSlot) : Option Nat :=
  if inOps 0x100 0x118 x.op then vectorCheck s x.h b
  else if inOps 0x120 0x125 x.op then fp32Check s x.h b
  else if inOps 0x020 0x02B x.op then (if nestEntry (entryWord s b x.h.fmt.toNat) then none else some x.h.fmt.toNat)
  else match x.i with
    | .lscan h _ => vectorCheck s h b
    | .rsum h _ => vectorCheck s h b
    | .rmax h _ => vectorCheck s h b
    | .rmin h _ => vectorCheck s h b
    | .cvt h p => cvtBad s h p b
    | .cvti h p => cvtiBad s h p b
    | .cvtf h p => cvtfBad s h p b
    | .cvpk2 h p => cvpk2Bad s h p b
    | .cvpk4 h p => cvpk4Bad s h p b
    | .unpk2 h p => unpk2Bad s h p b
    | .unpk4 h p => unpk4Bad s h p b
    | .qblk h p => qblkBad s h p b
    | .qapply h p => qapplyBad s h p b
    | .mldb _ p => panelEntryBad s b p false
    | .mldt _ p => panelEntryBad s b p true
    | .mrow h p => mrowBad s b h p
    | .mrows h p => mrowsBad s b h p
    | .mdrain _ p => outCheck s p b
    | .mout _ p => outCheck s p b
    | .atfadd h _ => atfaddBad s b h
    | _ => none

/-- The lowest slot whose entry check fails, with the entry. -/
def fetchBad (s : State) (b : BInst) : Option (Nat × Nat) := (slotsOf b.code).findSome? (fun x => (entryBad s b x).map (fun i => (x.slot, i)))

/-- What a fetch raises: a rejected block, whose code is empty, ILLEGAL_ENCODING; a failed entry check,
FORMAT_ENTRY at its slot. -/
def fetchCheck (s : State) (b : BInst) : State :=
  if b.code = [] then raise s { b with pc := 0 } (fail .illegalEncoding)
  else match fetchBad s b with
    | some (slot, i) => raise s { b with pc := slot } { cause := .formatEntry, entry := i }
    | none => s

/-! ### The configuration store (R36, R317) -/

def findBlock (s : State) (cell : Nat) (n : NodeId) (blk : Nat) : Option BlockSlot :=
  s.blocks.find? (fun x => x.cell == cell && x.node == n && x.blk == blk)

/-- Block slots of a cell's store. -/
def storeSlots (cell : Nat) : Nat := if cellKind cell = .compute then 8 else 2

/-- The least recently used block of a full store that no instance in flight uses. -/
def blockVictim (s : State) (cell : Nat) : Option BlockSlot :=
  bestOf (fun a b => decide (a.used < b.used)) (s.blocks.filter (fun x => x.cell == cell && !s.insts.any (fun b => b.cell == cell && b.node == x.node && b.blk == x.blk)))

/-- A block of a node as its image in memory holds it now. -/
def imageBlock (p : Placed) (blk : Nat) : Option (Word128 × List Word128) :=
  match p.altered.find? (fun b => b.1 == blk) with
  | some b => some b.2
  | none => blockCode p blk

/-- The checks of R87 on a block of a placed node, among the blocks of its image. -/
def fetchOk (s : State) (n : NodeId) (p : Placed) (blk : Nat) (hdr : Word128) (code : List Word128) : Bool :=
  let c := nodeCtx s n
  let blocks := (p.blocks.filter (fun b => b.1 != blk)) ++ [(blk, hdr, code)]
  let lanterns := (c.nodes.filter (fun q => q.route.kind == .lantern)).map (fun q => q.route.num)
  let scratch := p.route.link.any (fun m => roleOf c m == some .scratch)
  blockOk (cellKind p.cell == .compute) blk hdr code
    && (slotsOf code).all (fun x => exitOk blocks x && nodeOk (p.route.succs.map (fun e => e.1)) lanterns scratch x && (!isMemOp x.op || p.route.link.isSome))

/-- Change a placed node of a context. -/
def updPlaced (s : State) (n : NodeId) (f : Placed → Placed) : State :=
  let c := nodeCtx s n
  setCtx s n.w n.x { c with nodes := updFirst (fun p => p.route.num == n.n) f c.nodes }

/-- A block of a resident image changes in memory (R88). -/
def alterBlock (s : State) (n : NodeId) (blk : Nat) (hdr : Word128) (code : List Word128) : State :=
  updPlaced s n (fun p => { p with altered := p.altered.filter (fun b => b.1 != blk) ++ [(blk, hdr, code)] })

/-- A fetched block as the store keeps it, without code where it is rejected, and what its node remembers: a block once
rejected stays so until the configuration is loaded again (R88). -/
def fetchBlock (s : State) (n : NodeId) (p : Placed) (blk : Nat) (hdr : Word128) (code : List Word128) : State × List Word128 :=
  if p.rejected.contains blk then (s, [])
  else if !fetchOk s n p blk hdr code then (updPlaced s n (fun q => { q with rejected := q.rejected ++ [blk] }), [])
  else (updPlaced s n (fun q => { q with blocks := updFirst (fun b => b.1 == blk) (fun _ => (blk, hdr, code)) q.blocks }), code)

/-- BLOCK_FETCH (R317): the checks of R87 run again on what the image in memory holds (R88). -/
def execBlockFetch (cell : Nat) (n : NodeId) (blk : BitVec 6) (s : State) : Result :=
  match placedOf s n with
  | none => .next s
  | some p =>
    match imageBlock p blk.toNat with
    | none => .next s
    | some (hdr, code) =>
      if p.cell ≠ cell ∨ (findBlock s cell n blk.toNat).isSome then .next s
      else
        let r := fetchBlock s n p blk.toNat hdr code
        let x : BlockSlot := { cell := cell, node := n, blk := blk.toNat, hdr := hdr, code := r.2, used := s.now }
        if (s.blocks.filter (fun y => y.cell == cell)).length < storeSlots cell then .next { r.1 with blocks := s.blocks ++ [x] }
        else match blockVictim s cell with
          | none => .next s
          | some v => .next { r.1 with blocks := delFirst (fun y => y == v) s.blocks ++ [x] }

/-! ### Tags for SPAWN (R294, R318) -/

/-- The highest tag that a device-built launch of a context reserves or waits for. -/
def launchTags (s : State) (w : BitVec 4) (x : Context) : Nat :=
  ((worldOf s w).tasks.filter (fun t => t.img.context == x && t.recq)).foldl (fun a t => max a t.tiles.length) 0

/-- The lowest free tag from `k` on, where `used` says which are not free. -/
def freeTag (used : Nat → Bool) : Nat → Nat → Option Nat
  | 0, _ => none
  | n + 1, k => if used k then freeTag used n (k + 1) else some k

/-- The tag that a SPAWN of a colour at a cell would take: none at its cap, while the pool has none, or where a cell later in
the order of one cycle has taken one.  A tag returned in this cycle is not free yet. -/
def spawnTag (s : State) (n : NodeId) (cell : Nat) (c : Colour) : Option IterTag :=
  let x := nodeCtx s n
  let held := (x.tags.filter (fun e => e.2 == some (.colour c))).length
  let lo := launchTags s n.w n.x + 1
  let used (k : Nat) : Bool := mget none x.tags k != none || s.freed.contains (tagKey n (BitVec.ofNat 16 k))
  if mget 0 x.caps c.toNat ≤ held ∨ inTurn s .tag n (cellPlace cell) = false then none else (freeTag used (65536 - lo) lo).map (BitVec.ofNat 16)

def takeTag (s : State) (n : NodeId) (cell : Nat) (c : Colour) (g : IterTag) : State :=
  let x := nodeCtx s n
  takeTurn (setCtx s n.w n.x { x with tags := mput none x.tags g.toNat (some (.colour c)) }) .tag n (cellPlace cell)

/-! ### Instances from firings (R84, R93, R127) -/

/-- The block that a firing runs. -/
def Firing.block (f : Firing) : Nat :=
  match f.kind with
  | .chained blk _ _ _ => blk
  | _ => 0

/-- The value of an input mapping: the port's token, or a carried value (R93). -/
def inputVal (s : State) (f : Firing) (m : InMap) : Val :=
  match f.kind with
  | .chained _ carried _ _ => carried.getD m.port noVal
  | _ => ((s.ptoks.find? (fun t => t.usedBy s f.cell f.seq && t.at_ == { node := f.node, port := m.port })).map (fun t => t.tok.val)).getD noVal

/-- Deliver an input mapping. -/
def applyMap (s : State) (f : Firing) (b : BInst) (m : InMap) : BInst :=
  let v := inputVal s f m
  if m.pk then { b with preds := mins b.preds (2 * m.slot + m.pos) (predGeneral v) } else { b with opds := mins b.opds (8 * m.slot + m.pos) v }

/-- A firing's watchdog count (R373). -/
def Firing.count (f : Firing) (now : Nat) : Nat := f.watch + (f.counting.map (fun t => now - t)).getD 0

/-- The instance of a firing and its block. -/
def instOf (s : State) (f : Firing) (blk : BlockSlot) (inv : Nat) : BInst :=
  let wk : Option Wake × Option Nat := match f.kind with
    | .withdrawn k from_ => (k, some from_)
    | _ => (none, none)
  let b : BInst := { cell := f.cell, seq := f.seq, inv := inv, node := f.node, tag := f.tag, blk := f.block, hreg := hdrHreg blk.hdr, code := blk.code, gen := reachOf s f.node.w f.node.x f.cell, pc := if f.brkOff then 0 else (brkSlot blk.code).getD 0, opds := [], preds := [], emits := [], effs := [], exit := none, pend := [], raised := none, stage := .open_, point := f.point, nestDone := false, wake := wk.1, waitFrom := wk.2, brkOff := f.brkOff, spawned := none, age := f.age, born := s.now - f.count s.now, durable := false, purged := none, kind := f.kind, hregs0 := s.hregs, counters0 := s.counters, fetched := some s.now, sync := reachOf s f.node.w f.node.x f.cell }
  (mapsOf blk.hdr).foldl (applyMap s f) b

/-! ### Firing choice (R40, R50, R161, R288, R294, R321) -/

/-- Whether an instance's matrix instruction is enabled. -/
def matrixEnabled (s : State) (b : BInst) : Bool :=
  match blockMatrix b.code with
  | some x => matrixReady s b x.i
  | none => true

/-- Whether a block-quantise firing finds a group of its key or one of four places for it (R158); firings in
flight count. -/
def groupRoom (s : State) (b : BInst) : Bool :=
  if !(slotsOf b.code).any (fun x => x.op == 0x1C7) then true
  else
    let open_ := (s.groups.filter (fun g => g.cell == b.cell)).map (fun g => g.tag)
    let coming := (s.insts.filter (fun x => x.cell == b.cell && x.node == b.node)).map (fun x => x.tag)
    let keys := (open_ ++ coming).eraseDups
    keys.contains b.tag || decide (keys.length < 4)

/-- Whether a context's node may fire at all: its launch is complete, its task has not halted, the belfry does not
gate it, no cut has reached it and no purge has frozen the colour. -/
def nodeFires (s : State) (n : NodeId) (c : Colour) : Bool :=
  let x := nodeCtx s n
  x.resident && x.launched && !x.halted && !nodeCut s n && !heldBack s n && !frozen s n.w n.x c

/-- Instance places of a cell.  R40 gives eight to a compute cell; the manual gives an address-generator cell no number, and
the model gives it eight too (assumption 48). -/
def instPlaces : Nat := 8

/-- Output places of a colour at a cell (R287). -/
def outPlaces : Nat := 8

/-- The instance that a ready firing would start, if no rule passes the firing over. -/
def startable (s : State) (f : Firing) : Option BInst :=
  match findBlock s f.cell f.node f.block with
  | none => none
  | some blk =>
    let b := instOf s f blk (f.inv.getD s.nextInv)
    let stays := match f.kind with
      | .withdrawn none _ => true
      | .brk => true
      | _ => false
    if stays || f.await.isSome || !nodeFires s f.node f.tag.colour
        || decide (instPlaces ≤ (s.insts.filter (fun x => x.cell == f.cell)).length)
        || (b.hreg && s.insts.any (fun x => x.cell == f.cell && decide (x.seq < f.seq)))
        || !matrixEnabled s b || !groupRoom s b
        || decide (outPlaces < placesUsed s f.cell f.tag.colour + blockChans blk.code)
        || (blockSpawns blk.code && (spawnTag s f.node f.cell f.tag.colour).isNone) then none
    else some b

/-- Steps from the colour of a cell's last choice (R321). -/
def turn (s : State) (cell : Nat) (c : Colour) : Nat := (c - mget 0 s.lastColour cell - 1).toNat

/-- The order of R321: age, then the colour's turn, then arrival sequence. -/
def chosenBefore (s : State) (cell : Nat) (a b : Firing) : Bool :=
  let k (f : Firing) : Nat × Nat × Nat := (f.age, turn s cell f.tag.colour, f.seq)
  let x := k a
  let y := k b
  decide (x.1 < y.1) || (x.1 == y.1 && (decide (x.2.1 < y.2.1) || (x.2.1 == y.2.1 && decide (x.2.2 < y.2.2))))

/-- Whether the block of a cell's store is in use now. -/
def touchBlock (s : State) (b : BInst) : State :=
  { s with blocks := updFirst (fun x => x.cell == b.cell && x.node == b.node && x.blk == b.blk) (fun x => { x with used := s.now }) s.blocks }

/-- An instance starts: it takes the tag of its SPAWN (R294), and its fetch is checked. -/
def startInst (s : State) (b : BInst) : State :=
  let s1 := touchBlock s b
  match (if blockSpawns b.code then spawnTag s1 b.node b.cell b.tag.colour else none) with
  | some g =>
    let b1 := { b with spawned := some g }
    let s2 := takeTag s1 b.node b.cell b.tag.colour g
    fetchCheck { s2 with insts := s2.insts.filter (fun x => !x.isAt b.cell b.seq) ++ [b1] } b1
  | none => fetchCheck { s1 with insts := s1.insts.filter (fun x => !x.isAt b.cell b.seq) ++ [b] } b

/-- A firing of a node without a nest begins its invocation (R46). -/
def beginInv (s : State) (f : Firing) : State :=
  if f.inv.isSome then s
  else { s with nextInv := s.nextInv + 1, invs := s.invs ++ [{ id := s.nextInv, cell := f.cell, node := f.node, tag := f.tag, held := [], emitted := [], nest := false }] }

/-- A counter with another VALUE (R101). -/
def withValue (w : Word64) (v : Nat) : Word64 := BitVec.ofNat 64 (w.toNat - cntValue w + v % 65536)

/-- VALUE of the counters of a nest's present levels, from level k on: their indices at an outer point (R102). -/
def nestCounters (cell : Nat) : Nat → List (Nat × Nat) → FMap Word64 → FMap Word64
  | _, [], m => m
  | k, (ext, i) :: l, m =>
    if ext = 0 then nestCounters cell k l m
    else nestCounters cell (k + 1) l (mput 0 m (counterKey cell k) (withValue (mget 0 m (counterKey cell k)) i))

/-- A nest holds its level indices in its counters: at the firing of an outer point, 0 in n0 and the indices of the present
outer levels in the next ones (R102, assumption 42). -/
def holdIndices (s : State) (f : Firing) : State :=
  match f.point, s.nests.find? (fun r => some r.inv == f.inv) with
  | some (is, _), some r => { s with counters := nestCounters f.cell 0 ((1, 0) :: r.exts.zip is) s.counters }
  | _, _ => s

/-- Fire the chosen firing. -/
def fireInst (s : State) (f : Firing) (b : BInst) : State :=
  let s1 := beginInv { s with firings := s.firings.filter (fun x => !(x.cell == f.cell && x.seq == f.seq)), lastColour := mput 0 s.lastColour f.cell f.tag.colour } f
  let s2 := holdIndices s1 f
  startInst s2 { b with counters0 := s2.counters }

/-! ### Chained instances (R42, R93) -/

/-- A waiting chained instance starts once its block is there and, for an HREG block, no older instance is in
flight; one whose matrix instruction is not enabled is held pending, and so is one whose SPAWN finds no tag, which would
else keep other colours from their commits (R284, assumption 49). -/
def startChained (s : State) (b : BInst) : State :=
  match findBlock s b.cell b.node b.blk with
  | none => s
  | some blk =>
    let f := firingOf s b b.kind
    let b1 : BInst := { instOf s f blk b.inv with born := b.born }
    if b.stage ≠ .waiting ∨ (b1.hreg = true ∧ s.insts.any (fun x => x.cell == b.cell && decide (x.seq < b.seq)) = true) then s
    else if !matrixEnabled s b1 || (blockSpawns blk.code && (spawnTag s b.node b.cell b.tag.colour).isNone) then
      { s with insts := s.insts.filter (fun x => !x.isAt b.cell b.seq), firings := s.firings ++ [f] }
    else startInst s b1

/-- The block named by an exit arrives with the same tag and the carried values, in the place that its
predecessor frees; in a cut or halted context it stays pending (R391), and so it does while a purge has frozen its colour
(R292).  It takes its arrival number at the commit, before the sets that complete in the same cycle, whose numbers are taken
at the cycle's end: R42 gives no order between them (assumption 47). -/
def chainTo (s : State) (b : BInst) (blk : Nat) (carried : List Val) : State :=
  let q := takeSeq s b.cell
  let kind : FireKind := .chained blk carried b.inv b.point
  let f : Firing := { cell := b.cell, seq := q.2, node := b.node, tag := b.tag, age := s.now, kind := kind, point := b.point, inv := some b.inv, brkOff := true, watch := watchClock s b.node - b.born }
  if nodeCut s b.node || (nodeCtx s b.node).halted || frozen s b.node.w b.node.x b.tag.colour then { q.1 with firings := q.1.firings ++ [f] }
  else
    let w := { instOf q.1 f { cell := b.cell, node := b.node, blk := blk, hdr := 0, code := [], used := 0 } b.inv with stage := .waiting }
    startChained { q.1 with insts := q.1.insts ++ [w] } w

/-- FIRING_CHOICE (R321): waiting chained instances that may start do so; then the cell starts at most one ready
firing. -/
def execFiringChoice (cell : Nat) (s : State) : Result :=
  let s1 := (s.insts.filter (fun b => b.cell == cell && b.stage == .waiting)).foldl startChained s
  let l := (s1.firings.filter (fun f => f.cell == cell)).filterMap (fun f => (startable s1 f).map (fun b => (f, b)))
  match bestOf (fun a b => chosenBefore s1 cell a.1 b.1) l with
  | none => .next s1
  | some (f, b) => .next (fireInst s1 f b)

/-! ### Memory responses and translation (R216, R243) -/

/-- MEMORY_RESPONSE (R243): the oldest access of the instance that is still out delivers. -/
def execMemoryResponse (cell seq : Nat) (s : State) : Result :=
  match findInst s cell seq with
  | none => .next s
  | some b =>
    match b.pend with
    | [] => .next s
    | p :: l => .next (putInst s (deliverAt p.slot p.h p.aux { v0 := p.v0, p0 := p.b, v1 := p.v1, p1 := p.b } { b with pend := l }))

/-- Translation entries of a holder: four of a compute cell, one of an address generator's stream (R216). -/
def tlbSize (cell : Nat) : Nat := if cellKind cell = .compute then 4 else 1

/-- The holder whose miss a walk serves: the compute cell, or the first stream of the colour at the address generator
that holds no entry for the address. -/
def missHolder (s : State) (cell : Nat) (w : BitVec 4) (c : Colour) (va : Nat) : Option Nat :=
  if cellKind cell = .compute then (if (tlbHit s (some cell) w c va).isSome then none else some cell)
  else (s.ops.filter (fun o => o.engine == cell && o.node.w == w && o.tag.colour == c)).findSome? (fun o =>
    match o.kind with
    | .stream _ st => if (tlbHit s (some (streamHolder cell st.place)) w c va).isSome then none else some (streamHolder cell st.place)
    | _ => none)

/-- The non-leaf entries that a walk passes, as the walk cache of a spire holds them (R216). -/
def walkSteps (s : State) (spire : Nat) (w : BitVec 4) (c : Colour) (va : Nat) : Nat → Nat → List WalkEntry
  | 0, _ => []
  | lev + 1, t =>
    let e := word8 s.mem (t + 8 * bits va (12 + 9 * lev + 8) (12 + 9 * lev)) 0
    if bits e 1 1 = 1 then []
    else { spire := spire, w := w, colour := c, lev := lev, vpage := va / 2 ^ (12 + 9 * lev), table := bits e 51 12 * 4096 } :: walkSteps s spire w c va lev (bits e 51 12 * 4096)

/-- The walk cache takes entries in place of its oldest: 256 for a spire. -/
def cacheWalks (l : List WalkEntry) : List WalkEntry → List WalkEntry
  | [] => l
  | e :: es =>
    if l.contains e then cacheWalks l es
    else cacheWalks ((if (l.filter (fun x => x.spire == e.spire)).length < 256 then l else delFirst (fun x => x.spire == e.spire) l) ++ [e]) es

/-- TRANSLATION_WALK (R216): a walk that finds a leaf which some access may use fills an entry in place of its holder's
oldest, and its spire's walk cache; one that faults fills none. -/
def execTranslationWalk (cell : Nat) (c : Colour) (va : Word64) (s : State) : Result :=
  match mget none s.cellOwner cell with
  | none => .next s
  | some wn =>
    let w : BitVec 4 := BitVec.ofNat 4 wn
    match if 2 ^ 57 ≤ va.toNat then none else missHolder s cell w c va.toNat with
    | none => .next s
    | some holder =>
      match colourEntry s w c with
      | none => .next s
      | some (root, _) =>
        match walkCached s (cellSpire cell) w c va.toNat root with
        | .bad _ _ => .next s
        | .leaf _ size pbase rd wr =>
          let pa := canonPa s (pbase + va.toNat % pageBytes size)
          if !(rd || wr) || region pa == none || !ownsPa s w pa then .next s
          else
            let p := walkStart s (cellSpire cell) w c va.toNat root
            let e : TlbEntry := { cell := holder, w := w, colour := c, vbase := va.toNat / pageBytes size * pageBytes size, size := size, pbase := pbase, rd := rd, wr := wr }
            let l := if (s.tlb.filter (fun t => t.cell == holder)).length < tlbSize cell then s.tlb else delFirst (fun t => t.cell == holder) s.tlb
            .next { s with tlb := l ++ [e], walks := cacheWalks s.walks (walkSteps s (cellSpire cell) w c va.toNat p.1 p.2) }

/-! ### Commit and release (R41, R42, R46, R224, R225) -/

/-- The exit that ends an instance's part of its invocation here: END outside a nest, END of the last chain of a
nest, and any exit of a halting task (R46, R106, R387). -/
def endsHere (s : State) (b : BInst) (e : Exit) : Bool :=
  if (nodeCtx s b.node).halted || b.effs.contains .haltTask then true
  else if (findInv s b.inv).any (fun v => v.dead && v.nest) then false
  else if e ≠ .fin then false
  else if !(findInv s b.inv).any (fun v => v.nest) then true
  else
    (match s.nests.find? (fun r => r.inv == b.inv) with
      | some r => r.halted || decide (r.points ≤ r.next)
      | none => true)
      && !s.insts.any (fun x => x.inv == b.inv && !x.isAt b.cell b.seq) && !s.firings.any (fun f => f.inv == some b.inv)

/-- Whether an effect releases when it takes place; a draft walk starts without a release (R199, R260). -/
def Eff.releases : Eff → Bool
  | .rel _ => true
  | .engine o => !(match o.kind with | .walk _ => true | _ => false)
  | _ => false

def Eff.isEngine (e : Eff) : Bool := match e with
  | .engine _ => e.releases
  | _ => false

/-- Whether a commit still waits for a release. -/
def needsRelease (s : State) (b : BInst) (e : Exit) : Bool :=
  (b.stage == .open_ && b.effs.any Eff.releases)
    || (endsHere s b e && ((findInv s b.inv).any (fun v => v.held != []) || effStores b.effs != []))

/-- RELEASE_PERFORMED (R225): the writes of a begun commit's releases reach their homes in program order; an
engine start and the end of an invocation release every store of the instance (R224, R260). -/
def execReleasePerformed (cell seq : Nat) (s : State) : Result :=
  match findInst s cell seq with
  | none => .next s
  | some b =>
    if b.stage ≠ .releasing then .next s
    else
      let o := originOf s b 0 2
      let r := performRels o b.inv s [] b.effs
      let all := b.effs.any Eff.isEngine || (b.exit.map (endsHere s b)).getD false
      let s1 := if all then homeWrites o (releaseInv r.1 o b.inv) r.2.1 else r.1
      .next (putInst s1 { b with stage := .released, effs := r.2.2 ++ (if all then [] else r.2.1.map .store) })

/-- Words that the hold buffer of a memory cell holds, with some stores more of one invocation (R206). -/
def heldWith (s : State) (m id : Nat) (more : List HStore) : Nat :=
  ((s.invs.filter (fun v => linkOf s v.node == some m)).map (fun v => holdWords (v.held ++ (if v.id = id then more else [])))).foldl (· + ·) 0

/-- Whether an instance's stores fit the hold buffer. -/
def holdRoom (s : State) (b : BInst) : Bool :=
  match linkOf s b.node with
  | none => true
  | some m => effStores b.effs == [] || decide (heldWith s m b.inv (effStores b.effs) ≤ holdLimit)

/-- The spire of a lantern node of the instance's graph (R188). -/
def lanternSpire (s : State) (b : BInst) (node : Nat) : Option Nat := lanternOf s { b.node with n := node }

/-- The changes of an instance's format table. -/
def fmtCount : List Eff → Nat
  | [] => 0
  | .fmt _ _ :: l => fmtCount l + 1
  | _ :: l => fmtCount l

/-- Whether every effect finds its room: engines, event queues and binding tables in order (R189, R260, R275). -/
def effRoom (b : BInst) : State → List Eff → Bool
  | _, [] => true
  | s, .engine o :: l => opRoom s o && effRoom b (startOp s o) l
  | s, .evq code x :: l =>
    evRoom s (cellSpire b.cell) b.node.w && effRoom b (postEv s { spire := cellSpire b.cell, w := b.node.w, src := 0, tag := b.tag, code := code, val := x }) l
  | s, .lgbind node va :: l =>
    (match lanternSpire s b node with
      | some sp => bindRoom s sp b.tag.colour b.tag.iter va.toNat && effRoom b (setBind s sp b.tag.colour b.tag.iter va.toNat) l
      | none => effRoom b s l)
  | s, _ :: l => effRoom b s l

/-- Whether a commit waits for nothing (R129, R206). -/
def commitRoom (s : State) (b : BInst) : Bool :=
  holdRoom s b && effRoom b s b.effs && (fmtCount b.effs == 0 || fmtRoom s b (fmtCount b.effs))

/-- The engines whose room an instance's operations take, as arbiters of R322. -/
def roomOf (b : BInst) : List Arbiter := b.effs.filterMap (fun e => match e with
  | .engine o => (match o.kind with
    | .walk _ => none
    | _ => some (.engine o.isColl o.engine))
  | _ => none)

/-- An instance's request for room in an engine; its port is the place of its cell (assumption 57). -/
def roomReq (s : State) (b : BInst) (a : Arbiter) : Waiter := waiterOf s a (.inst b.cell b.seq) b.node.w (cellPlace b.cell)

/-- Whether it is an instance's turn for the room that it takes (R260, R322). -/
def roomTurn (s : State) (b : BInst) : Bool :=
  (roomOf b).all (fun a => servedNext s (roomReq s b a) (fun y => match y with
    | .inst cell seq => s.insts.any (fun x => x.isAt cell seq && (roomOf x).contains a)
    | .chan _ _ => false))

/-- An instance waits at its commit: for its turn, or for room, in whose arbiters it joins. -/
def waitRoom (s : State) (b : BInst) : State :=
  if effRoom b s b.effs && roomTurn s b then s else (roomOf b).foldl (fun st a => joinWait st (roomReq st b a)) s

/-! ### The effects of a commit -/

/-- Tokens of a block-quantise group leave on a port (R158). -/
def emitGroup (s : State) (b : BInst) (port : Nat) : List Token → State
  | [] => s
  | t :: l => emitGroup (emitTok s b.node port t (some b.tag.colour)) b port l

/-- DATA tokens emitted by an invocation on a port. -/
def countEmitted (s : State) (id port n : Nat) : State :=
  { s with invs := updFirst (fun v => v.id == id) (fun v => { v with emitted := mput 0 v.emitted port (mget 0 v.emitted port + n) }) s.invs }

/-- A firing of a block-quantise node appends its token to the group of its key; the one that completes the group
emits (R158). -/
def joinGroup (s : State) (b : BInst) (port g : Nat) (src dst : Word64) (m : Rnd) (sr : Word64 × Nat × Nat) (x : Val) : State :=
  let mine (y : Group) : Bool := y.cell == b.cell && y.node == b.node && y.tag == b.tag
  let toks := ((s.groups.find? mine).map (fun y => y.toks)).getD [] ++ [x]
  let rest := s.groups.filter (fun y => !mine y)
  if toks.length < g then { s with groups := rest ++ [{ cell := b.cell, node := b.node, tag := b.tag, toks := toks }] }
  else
    let out := groupOutput src dst m { seed := sr.1, tag := b.tag, ord := 0, blk := sr.2.1, slot := sr.2.2 } b.tag toks
    emitGroup (countEmitted { s with groups := rest } b.inv port (out.length - 1)) b port out

/-- One effect of a commit (R41); stores pass to the hold buffer. -/
def applyEff (b : BInst) (s : State) : Eff → State
  | .hreg n v => { s with hregs := mput 0 s.hregs (hregKey b.cell n) v }
  | .counterLoad k w c => { s with counters := loadCounter b.cell s.counters k w c }
  | .counterStep k => { s with counters := (stepCounter b.cell 8 s.counters k).1 }
  | .store st => { s with invs := updFirst (fun v => v.id == b.inv) (fun v => { v with held := v.held ++ [st] }) s.invs }
  | .acquire sc => acquire s b sc
  | .fmt i w => applyFmt s b i w
  | .sreg r w => writeSreg s b.node.w b.node.x r w
  | .tagFree g => returnTag s b.node (some g)
  | .lgbind node va =>
    (match lanternSpire s b node with
      | some sp => setBind s sp b.tag.colour b.tag.iter va.toNat
      | none => s)
  | .yieldTask =>
    (let id := (nodeCtx s b.node).task
     if hasPreempt s b.node.w id then addTrigger s b.node.w (.preempt id true) else s)
  | .haltTask => setCtx s b.node.w b.node.x { nodeCtx s b.node with halted := true }
  | .engine o => startOp s o
  | .evq code x => postEv s { spire := cellSpire b.cell, w := b.node.w, src := 0, tag := b.tag, code := code, val := x }
  | .notice n => sendNotice s (originOf s b 0 0) n
  | .plane op => { s with planes := mput none s.planes b.cell (planeAfter b.tag op (mget none s.planes b.cell)) }
  | .qblk port g src dst m sr x => joinGroup s b port g src dst m sr x
  | .ctl _ _ => s
  | .rel _ => s

/-- The control tokens of a commit leave after its channel tokens, in slot order (R104). -/
def ctlToks (s : State) (b : BInst) : List Eff → List CtlTok
  | [] => []
  | .ctl go i :: l =>
    (match (placedOf s b.node).bind (fun p => (p.route.succs.find? (fun e => e.1 == i)).map (fun e => e.2)) with
      | some n => { go := go, node := { b.node with n := n }, tag := b.tag, src := some b.inv } :: ctlToks s b l
      | none => ctlToks s b l)
  | _ :: l => ctlToks s b l

/-- Emit an instance's tokens: ascending slot, and t0 before t1 within a slot (R41). -/
def emitInst (b : BInst) : State → List Emit → State
  | s, [] => s
  | s, e :: l =>
    let s1 := emitTok s b.node e.port e.tok (some b.tag.colour)
    emitInst b (if e.tok.kind = .data then countEmitted s1 b.inv e.port 1 else s1) l

/-- Every invocation of a halted context that has nothing in flight ends: its held stores are released, and its
DONE and GO are discarded (R387). -/
def endHalted (s : State) (w : BitVec 4) (x : Context) : State :=
  let idle := s.invs.filter (fun v => inCtx w x v.node && !s.insts.any (fun b => b.inv == v.id))
  idle.foldl (fun st v =>
    let o : Origin := { ctx := { w := w, x := x }, colour := v.tag.colour, iter := v.tag.iter, cell := v.cell, node := ((placedOf st v.node).map (fun p => p.node)).getD 0, blk := 0, slot := 0, nest := v.nest, source := 2, gen := 0 }
    let s1 := releaseInv st o v.id
    { s1 with
      invs := s1.invs.filter (fun y => y.id != v.id)
      nests := s1.nests.filter (fun r => r.inv != v.id)
      firings := s1.firings.filter (fun f => f.inv != some v.id) }) s

/-- The instance leaves, its operand tokens with it, and its chain goes on or its invocation ends. -/
def finishInst (s : State) (b : BInst) (e : Exit) : State :=
  let b := redrained s b
  let ends := endsHere s b e
  let s1 := dropUsed { s with insts := s.insts.filter (fun x => !x.isAt b.cell b.seq) } b.cell [b.seq]
  let s2 := emitInst b s1 (sortBy (fun x y => decide (x.slot < y.slot)) b.emits)
  let s3 := b.effs.foldl (applyEff b) s2
  let s4 := { s3 with ctls := s3.ctls ++ ctlToks s b b.effs }
  if (nodeCtx s4 b.node).halted then endHalted s4 b.node.w b.node.x
  else if (findInv s b.inv).any (fun v => v.dead) then
    { s4 with invs := if s4.insts.any (fun x => x.inv == b.inv) then s4.invs else s4.invs.filter (fun v => v.id != b.inv) }
  else if ends then (let s5 := endInv s4 b.inv; if (findInv s b.inv).any (fun v => v.nest) then startWaiting s5 b.node else s5)
  else match e with
    | .chain blk carried => chainTo s4 b blk carried
    | .fin => s4

/-- The oldest instance in flight on a cell. -/
def oldestInst (s : State) (cell : Nat) : Option BInst :=
  bestOf (fun a b => decide (a.seq < b.seq)) (s.insts.filter (fun b => b.cell == cell))

/-- Whether the instruction at the pc waits for what a change of the instance delivers: every other one has executed (R299,
R302, assumption 50). -/
def awaitsLate (b : BInst) : Bool :=
  !b.later.isEmpty && (slotsOf b.code).any (fun x => x.slot == b.pc && ((operands x.h (fun _ => noVal) b).isNone || (guardOf x.h b).isNone))

/-- Whether a commit is in turn among those of its cycle that change a format table (R130). -/
def commitTurn (s : State) (b : BInst) : Bool := fmtCount b.effs == 0 || inTurn s .format b.node (cellPlace b.cell)

/-- A commit that changes a format table takes its turn. -/
def markCommit (s : State) (b : BInst) : State := if fmtCount b.effs = 0 then s else takeTurn s .format b.node (cellPlace b.cell)

/-- The commit of an instance begins with the changes that it makes as a release (R225, R299). -/
def beginLate (s : State) (b : BInst) (e : Exit) : State :=
  let b1 := { b with stage := if b.stage = .open_ then (if needsRelease s b e then .releasing else .released) else b.stage }
  lateAct (putInst s b1) b1

/-- INSTANCE_COMMIT (R41): the oldest instance commits once every instruction has executed, its exit is resolved, its changes
of quotas and tags are made and its releases are performed; one that raised takes its fault, and one without a taken exit
faults (R90). -/
def execInstanceCommit (cell : Nat) (s : State) : Result :=
  match oldestInst s cell with
  | none => .next s
  | some b =>
    match b.raised with
    | some (slot, r) => .next (if inTurn s .fault b.node (faultPlace b.cell slot) then takeFault s b slot r else s)
    | none =>
      if b.stage = .waiting ∨ b.pend ≠ [] then .next s
      else if b.pc < b.code.length then .next (if awaitsLate b then lateAct s b else s)
      else match b.exit with
        | none => .next (if inTurn s .fault b.node (faultPlace b.cell 0) then takeFault s b 0 { cause := .illegalEncoding, detail := 1 } else s)
        | some e =>
          if b.later ≠ [] then .next (beginLate s b e)
          else if b.stage = .releasing then .next s
          else if needsRelease s b e then .next (putInst s { b with stage := .releasing })
          else if !commitRoom s b || !roomTurn s b || !commitTurn s b then .next (waitRoom s b)
          else .next (finishInst (markCommit (leaveWait s (.inst b.cell b.seq)) b) b e)

/-! ### Control tokens (R47, R105) -/

/-- A control token arrives at its node, which takes it at the end of the cycle; one of a frozen colour waits (R292). -/
def arriveControl (s : State) (go : Bool) (n : NodeId) (t : Tag) : State :=
  if frozen s n.w n.x t.colour then s
  else { s with ctls := updFirst (fun c => !c.here && c.go == go && c.node == n && c.tag == t) (fun c => { c with here := true }) s.ctls }

/-- GO_TOKEN (R47). -/
def execGoToken (n : NodeId) (t : Tag) (s : State) : Result := .next (arriveControl s true n t)

/-- HALT_TOKEN (R47). -/
def execHaltToken (n : NodeId) (t : Tag) (s : State) : Result := .next (arriveControl s false n t)

/-! ### Outer points (R106) -/

/-- LOOP_NEST_OUTER_POINT (R106): the next outer point of the cell's run is to fire, once every port of block 0 holds a token
of the tag.  The model fires a point only once the whole chain of the one before it has ended: the manual does not say
whether it may fire sooner (assumption 51). -/
def execLoopNestOuterPoint (cell : Nat) (s : State) : Result :=
  match s.nests.find? (fun r => (placedOf s r.node).any (fun p => p.cell == cell)) with
  | none => .next s
  | some r =>
    if r.halted || r.due || decide (r.points ≤ r.next) || nodeCut s r.node || frozen s r.node.w r.node.x r.tag.colour
        || (nodeCtx s r.node).halted || s.insts.any (fun b => b.inv == r.inv) || s.firings.any (fun f => f.inv == some r.inv) then .next s
    else .next { s with nests := s.nests.map (fun x => if x.inv = r.inv then { x with due := true } else x) }

/-! ### Waits (R255–R258) -/

/-- A withdrawn firing becomes ready with the reason that enabled it; its monitor is gone. -/
def wakeFiring (s : State) (cell seq : Nat) (k : Wake) : State :=
  { s with
    monitors := s.monitors.filter (fun m => !(m.cell == cell && m.seq == seq))
    firings := s.firings.map (fun f => match f.kind with
      | .withdrawn none from_ => if f.cell = cell ∧ f.seq = seq then { f with kind := .withdrawn (some k) from_, counting := some s.now } else f
      | _ => f) }

/-- MONITOR_EVENT (R257, R258): an event enables the firing in a cycle after the one in which it fell, so that what falls
in one cycle is reported in R258's order; a monitor without an event sees SPURIOUS. -/
def execMonitorEvent (cell seq : Nat) (s : State) : Result :=
  let mine (m : Monitor) : Bool := m.cell == cell && m.seq == seq
  match s.monitors.find? mine with
  | none => .next s
  | some m =>
    match m.event with
    | some (k, t) => .next (if t < s.now then wakeFiring s cell seq k else s)
    | none => .next { s with monitors := updFirst mine (fun x => x.sees s.now .spurious) s.monitors }

/-- WAIT_TIMEOUT (R258): the timeout falls no sooner than the deadline, and not after another event. -/
def execWaitTimeout (cell seq : Nat) (s : State) : Result :=
  let mine (m : Monitor) : Bool := m.cell == cell && m.seq == seq
  match s.monitors.find? mine with
  | none => .next s
  | some m =>
    match m.deadline with
    | none => .next s
    | some d => .next (if d ≤ s.now then { s with monitors := updFirst mine (fun x => x.sees s.now .timeout) s.monitors } else s)

/-! ### The watchdog (R310, R373) -/

/-- The watchdog limit of a context in cycles; 0 disables it. -/
def watchLimit (c : Ctx) : Nat :=
  if c.quar then (if c.wdog = 0 then 1024 * 512 else 1024 * max 1 (c.wdog / 8)) else 1024 * c.wdog

/-- The fault of a firing that no instance of has started: its invocation, if it has begun one, is discarded with it. -/
def expireFiring (s : State) (f : Firing) : State :=
  match placedOf s f.node with
  | none => s
  | some p =>
    let o := { portOrigin p f.node f.tag with source := 0 }
    let r : Report := { cause := .watchdog, iters := (f.point.map (fun q => 0 :: q.1)).getD [] }
    let s1 := takeTurn s .fault f.node (faultPlace f.cell 0)
    let s2 := match f.inv with
      | some id => endFaulted (discardInv s1 f.cell id) id
      | none =>
        let s3 := dropUsed s1 f.cell [f.seq]
        { s3 with firings := s3.firings.filter (fun x => !(x.cell == f.cell && x.seq == f.seq)) }
    deliverRecord s2 o r true

/-- WATCHDOG_EXPIRY (R373): a firing that has counted to its limit faults, in flight or still to start; an instance whose
commit has begun completes. -/
def execWatchdogExpiry (cell seq : Nat) (s : State) : Result :=
  match findInst s cell seq with
  | some b =>
    let l := watchLimit (nodeCtx s b.node)
    if b.begun || b.raised.isSome || l == 0 || (nodeCtx s b.node).cut.isSome || decide (s.now < b.born + l)
        || !inTurn s .fault b.node (faultPlace b.cell b.pc) then .next s
    else .next (takeFault s b b.pc (fail .watchdog))
  | none =>
    match s.firings.find? (fun f => f.cell == cell && f.seq == seq) with
    | none => .next s
    | some f =>
      let l := watchLimit (nodeCtx s f.node)
      if f.counting.isNone || l == 0 || (nodeCtx s f.node).cut.isSome || decide (f.count s.now < l)
          || !inTurn s .fault f.node (faultPlace f.cell 0) then .next s
      else .next (expireFiring s f)

end Sys2Proof.Machine
end

