-- ==== Sys2Proof/Machine/Tasks.lean ====
section
/-! DEFINITION. The life of a task: packets consumed and completed (R306, R308), dispatch onto spires (R313,
R315, R318), unloading a context (R205, R313, R314), completion, failure and kill (R312–R314), and TASK_COMPLETE. -/

namespace Sys2Proof.Machine

/-! ### Packets (R306, R308) -/

/-- The 16-byte completion record, where the world still reaches its place. -/
def writeRecord (s : State) (w : BitVec 4) (cmpla : Option Nat) (status cause : Nat) (task : BitVec 32) (tiles : Nat) : State :=
  match cmpla with
  | none => s
  | some a => ownWrite s w a (cellsOf a 8 (status + cause * 2 ^ 8 + task.toNat * 2 ^ 32) ++ cellsOf (a + 8) 8 tiles)

/-- RIDX stands at the lowest packet not yet consumed; a packet consumed and completed is forgotten. -/
def settleQueue (x : QueueSt) : QueueSt :=
  let l := x.pkts.filter (fun p => !(p.done && p.consumed))
  { x with pkts := l, ridx := ((l.find? (fun p => !p.consumed)).map (fun p => p.idx)).getD x.started }

/-- Change a started packet of a queue. -/
def updPkt (s : State) (w : BitVec 4) (q idx : Nat) (f : Pkt → Pkt) : State :=
  updQueue s w q (fun x => settleQueue { x with pkts := updFirst (fun p => p.idx == idx) f x.pkts })

/-- A packet is consumed. -/
def consumePkt (s : State) (w : BitVec 4) (q idx : Nat) : State := updPkt s w q idx (fun p => { p with consumed := true })

/-- A packet completes: its record is written and it is consumed. -/
def completePkt (s : State) (w : BitVec 4) (q idx status cause : Nat) (task : BitVec 32) (tiles : Nat) : State :=
  let cm := ((queueOf s w q).pkts.find? (fun p => p.idx == idx)).bind (fun p => p.cmpla)
  updPkt (writeRecord s w cm status cause task tiles) w q idx (fun p => { p with consumed := true, done := true })

/-! ### Triggers of DISPATCH decisions (R313, R336) -/

/-- A DISPATCH trigger of a slot that arises in a cycle; where one waits, the two are one. -/
def dispatchAt (s : State) (w : BitVec 4) (slot at_ : Nat) : State :=
  let ww := worldOf s w
  let mine (t : Trigger × Nat) : Bool := t.1 == .dispatch slot
  setWorld s w { ww with triggers := if ww.triggers.any mine then updFirst mine (fun t => (t.1, min t.2 at_)) ww.triggers else ww.triggers ++ [(.dispatch slot, at_)] }

/-- A DISPATCH trigger of a slot. -/
def addDispatch (s : State) (w : BitVec 4) (slot : Nat) : State := dispatchAt s w slot s.now

/-- The slots of a world's queued tasks. -/
def queuedSlots (s : State) (w : BitVec 4) : List Nat :=
  (((worldOf s w).tasks.filter (fun t => t.st == .queued)).map (fun t => regionEff s w t.region 5)).eraseDups

/-- Cells of a world have become free. -/
def cellsFree (s : State) (w : BitVec 4) : State := (queuedSlots s w).foldl (fun st k => addDispatch st w k) s

/-- Cells may have become free in every world. -/
def allCellsFree (s : State) : State := worldIds.foldl cellsFree s

/-! ### Unloading a context (R205, R313, R314) -/

/-- Clear the SRAM of a memory cell. -/
def clearScratch (m : List Host.Cell) (cell : Nat) : List Host.Cell :=
  m.filter (fun c => !(decide (scratchAddr cell 0 ≤ c.1) && decide (c.1 < scratchAddr cell 0 + scratchSize)))

/-- Instances of a context whose commit has begun complete it (R225, R314). -/
def settleBegun (s : State) (w : BitVec 4) (x : Context) : State :=
  (s.insts.filter (fun b => inCtx w x b.node && b.begun)).foldl (fun st b =>
    let s1 := match execReleasePerformed b.cell b.seq st with
      | .next t => t
      | _ => st
    match findInst s1 b.cell b.seq with
    | none => s1
    | some b1 => match b1.exit with
      | some e => finishInst s1 b1 e
      | none => s1) s

/-- The spires to whose lanterns a context gives the role. -/
def roleSpires (c : Ctx) : List Nat := (c.nodes.filter (fun p => p.route.kind == .lantern && p.route.lanternRole)).map (fun p => cellSpire p.cell)

/-- Nothing of a context's work is left in the fabric. -/
def dropWork (s : State) (w : BitVec 4) (x : Context) : State :=
  let c := ctxOf s w x
  let mine := inCtx w x
  let spires := roleSpires c
  { s with
    insts := s.insts.filter (fun b => !mine b.node)
    invs := s.invs.filter (fun v => !mine v.node)
    firings := s.firings.filter (fun f => !mine f.node)
    nests := s.nests.filter (fun r => !mine r.node)
    goWaits := s.goWaits.filter (fun g => !mine g.node)
    ctls := s.ctls.filter (fun t => !mine t.node)
    monitors := s.monitors.filter (fun m => !s.firings.any (fun f => f.cell == m.cell && f.seq == m.seq && mine f.node))
    ptoks := s.ptoks.filter (fun t => !mine t.at_.node)
    flights := s.flights.filter (fun f => !(f.chan.w == w && f.chan.x == x))
    outq := s.outq.filter (fun o => !mine o.at_.node)
    srcq := s.srcq.filter (fun e => !(e.1.w == w && e.1.x == x))
    credRet := s.credRet.filter (fun e => !(e.1.w == w && e.1.x == x))
    excFlight := s.excFlight.filter (fun e => !(e.1.w == w && e.1.x == x))
    timers := s.timers.filter (fun t => !mine t.at_.node)
    waiters := s.waiters.filter (fun y => match y.who with
      | .chan ch _ => !(ch.w == w && ch.x == x)
      | .inst cell seq => !s.insts.any (fun b => b.isAt cell seq && mine b.node))
    groups := s.groups.filter (fun g => !mine g.node)
    planes := s.planes.filter (fun e => !(mget none s.cellOwner e.1 == some w.toNat && (e.2.map (fun r => r.tag.context == x)).getD false))
    ops := s.ops.filter (fun o => !(mine o.node && o.isStream))
    notices := s.notices.filter (fun n => !(n.w == w && n.tag.context == x))
    fmtTravel := s.fmtTravel.filter (fun t => !(t.1.w == w && t.1.x == x))
    fmtOwn := s.fmtOwn.filter (fun t => !(t.1.w == w && t.1.x == x))
    fmtReach := s.fmtReach.filter (fun e => e.1 / 16384 != ctxKey w x)
    lstreams := s.lstreams.filter (fun l => !spires.contains l.spire)
    logit := s.logit.filter (fun r => !spires.contains r.spire)
    lanterns := spires.foldl (fun m sp => mput {} m sp {}) s.lanterns }

/-- The context's roles end, and its configuration leaves its cells (R205). -/
def dropConfig (s : State) (w : BitVec 4) (x : Context) : State :=
  let cells := (ctxOf s w x).roles.map (fun r => r.1)
  let s1 := { s with
    blocks := s.blocks.filter (fun b => !inCtx w x b.node)
    mem := cells.foldl clearScratch s.mem
    bank := s.bank.filter (fun l => !cells.contains l.cell) }
  setCtx s1 w x {}

/-- ABORT packets whose purges are in progress or wait: nothing of the colour is left once the context is gone. -/
def purgePackets (c : Ctx) : List (Nat × Nat × BitVec 32) :=
  ((c.purging.map (fun p => [p.2.1])).getD [] ++ c.purgeq.map (fun e => e.2)).filterMap (fun y => match y with
    | .packet q i t => some (q, i, t)
    | .inst _ _ => none)

/-- Unload a context. -/
def unloadCtx (s : State) (w : BitVec 4) (x : Context) : State :=
  (purgePackets (ctxOf s w x)).foldl (fun st e => completePkt st w e.1 e.2.1 0 0 e.2.2 0) (dropConfig (dropWork s w x) w x)

/-! ### Device-built launches (R318) -/

/-- The tiles of a record with `n` rows, from tile `u` on. -/
def recordTiles (j n arg u : Nat) : List Tile :=
  (List.range ((n + 31) / 32)).map (fun t =>
    let r := min 32 (n - 32 * t)
    { u := u + t, slots := [j, t, 32 * t, r, 2 ^ r - 1, arg] })

/-- The records of an area from record `j` on; none once the tiles number more than 65,535. -/
def readRecords (rd : Nat → Except Report Nat) (va : Nat) : Nat → Nat → List Tile → Except Report (Option (List Tile))
  | 0, _, acc => .ok (some acc)
  | k + 1, j, acc =>
    match readVia rd (va + 8 + 8 * j) 8 with
    | .error r => .error r
    | .ok x =>
      if 65535 < acc.length + (bits x 31 0 + 31) / 32 then .ok none
      else readRecords rd va k (j + 1) (acc ++ recordTiles j (bits x 31 0) (bits x 63 32) (acc.length + 1))

/-- The tiles of a RECQ launch; none where NREC or the tile count is too large. -/
def readTiles (s : State) (w : BitVec 4) (t : Task) : Except Report (Option (List Tile)) :=
  let rd := devByte s w t.colour
  match readVia rd t.rva 4 with
  | .error r => .error r
  | .ok n => if t.maxrec < n then .ok none else readRecords rd t.rva n 0 []

/-! ### Dispatch (R313, R315) -/

/-- A task takes its spires, in its dispatch or when the task in whose place it was dispatched is cut; its LAUNCH is consumed. -/
def placeTask (s : State) (w : BitVec 4) (t : Task) (quar : Bool) : State :=
  let t1 := { t with st := .launching, spires := chooseSpires s w t quar, heldAt := if t.st = .queued then s.now else t.heldAt, sliceAt := s.now, quar := quar, pos := t.img.sections.map (fun _ => 0) }
  consumePkt (putTask s w t1) w t.queue t.idx

/-! ### Completion (R308, R312–R314) -/

/-- A task that waited for another's spires takes them now that they are free; where one of them no longer is, it is
queued again. -/
def afterSubject (s : State) (w : BitVec 4) (id : BitVec 32) : State :=
  match (worldOf s w).tasks.find? (fun t => t.st == .awaiting id) with
  | some t =>
    if attached s w && t.need ≤ (chooseSpires s w t false).length && atFree s w t false t.spires then placeTask s w t false
    else putTask s w { t with st := .queued, spires := [], since := s.now }
  | none => s

/-- A task completes: its context is unloaded, its record written and its spires free. -/
def finishTask (s : State) (w : BitVec 4) (t : Task) (status cause : Nat) : State :=
  let x := t.img.context
  let c := ctxOf s w x
  let s1 := if c.resident && c.task == t.id then unloadCtx s w x else s
  let s2 := completePkt (dropTask s1 w t.id) w t.queue t.idx status cause t.id t.sent
  cellsFree (afterSubject s2 w t.id) w

/-- A task is killed (R314): instances whose commit has begun complete, its copies and collectives end, and its
work is dropped. -/
def stopTask (s : State) (w : BitVec 4) (t : Task) (status cause : Nat) : State :=
  let x := t.img.context
  let c := ctxOf s w x
  let s1 := if c.resident && c.task == t.id then
      (let s0 := settleBegun s w x
       { s0 with ops := s0.ops.filter (fun o => !inCtx w x o.node) })
    else s
  finishTask s1 w t status cause

/-- Kill a task: KILLED. -/
def killTask (s : State) (w : BitVec 4) (t : Task) : State := stopTask s w t 5 0

/-- A task completes FAILED with a cause code, and the others of its nonzero fault domain are killed (R312). -/
def failCode (s : State) (w : BitVec 4) (t : Task) (code : Nat) : State :=
  let d := regionEff s w t.region 4
  let s1 := stopTask s w t 1 code
  if d = 0 then s1
  else
    let others := (worldOf s w).tasks.filter (fun u => u.id != t.id && regionEff s w u.region 4 == d)
    others.foldl (fun st u => match findTask st w u.id with
      | some v => killTask st w v
      | none => st) s1

def failTask (s : State) (w : BitVec 4) (t : Task) (c : Cause) : State := failCode s w t c.code

/-! ### TASK_COMPLETE (R313) -/

/-- Whether a context belongs to its world's enabled belfry sequence, whose swaps send it more start tokens
(R344, assumption 32). -/
def inSequence (s : State) (w : BitVec 4) (x : Context) : Bool :=
  let ww := worldOf s w
  belEn ww.belfry && (belfrySeq ww).contains x

/-- Whether a running task is complete: its start tokens are accepted and its context is quiescent; a halted one once
nothing of it is in flight (R387). -/
def taskDone (s : State) (w : BitVec 4) (t : Task) : Bool :=
  let x := t.img.context
  let c := ctxOf s w x
  c.resident && c.launched && c.task == t.id
    && (if c.halted then !s.insts.any (fun b => inCtx w x b.node)
        else t.st == .running && t.sent == t.tiles.length && ctxQuiet s w x && !inSequence s w x)

/-- TASK_COMPLETE (R313). -/
def execTaskComplete (w : BitVec 4) (task : BitVec 32) (s : State) : Result :=
  match findTask s w task with
  | none => .next s
  | some t => .next (if taskDone s w t then finishTask s w t 0 0 else s)

end Sys2Proof.Machine
end

