-- ==== Sys2Proof/Machine/Launch.lean ====
section
/-! DEFINITION. Launches: configuration packets (R315, R316), the checks of a launch (R22, R23, R87, R105, R157,
R162, R205, R241, R287, R320, R346), placing the image (R49, R119, R213, R295), start tokens (R316, R344) and the
tiles of a device-built launch (R318, R340). -/

namespace Sys2Proof.Machine

/-! ### Packets (R315, R316) -/

/-- CONFIG_PACKET (R316): the next packet of a section is streamed to its cell. -/
def execConfigPacket (w : BitVec 4) (task : BitVec 32) (sec : Nat) (s : State) : Result :=
  match findTask s w task with
  | none => .next s
  | some t =>
    if t.st = .launching ∧ t.pos.getD sec 0 < (t.img.sections.getD sec []).length
    then .next (putTask s w { t with pos := t.pos.set sec (t.pos.getD sec 0 + 1) }) else .next s

/-- Fields of a packet's header, bits [511:448] (R315). -/
def cfgKind (p : CfgPacket) : Nat := bits p.header.toNat 63 60
def cfgDx (p : CfgPacket) : Nat := bits p.header.toNat 59 56
def cfgDy (p : CfgPacket) : Nat := bits p.header.toNat 55 52
def cfgNode (p : CfgPacket) : Nat := bits p.header.toNat 51 48
def cfgBlk (p : CfgPacket) : Nat := bits p.header.toNat 47 42
def cfgPart (p : CfgPacket) : Nat := bits p.header.toNat 41 34

/-- What a packet says: a BLOCK's header or its three instruction slots, or what another KIND carries. -/
def cfgBody (p : CfgPacket) : CfgBody :=
  match cfgKind p, p.data with
  | 0, .bits v => if cfgPart p = 0 then .blockHdr (v.extractLsb' 0 128) else .blockSlots (v.extractLsb' 0 128) (v.extractLsb' 128 128) (v.extractLsb' 256 128)
  | 1, .route r => .route r
  | 2, .role n r m => .role n r m
  | 3, .const r v => .const r v
  | 4, .fin n st d => .fin n st d
  | _, _ => .bad

/-- The limits of a packet by its KIND: 5 to 15 are reserved, as bits [481:448] are, and BLK is a BLOCK's. -/
def packetOk (p : CfgPacket) : Bool :=
  bits p.header.toNat 33 0 == 0
    && (match cfgBody p with
      | .blockHdr _ => true
      | .blockSlots _ _ _ => decide (cfgPart p ≤ 43)
      | .route _ => cfgBlk p == 0
      | .role _ _ _ => cfgBlk p == 0
      | .const r _ => cfgBlk p == 0 && decide (r < 32)
      | .fin _ _ d => cfgBlk p == 0 && (match d with
        | some e => decide (1 ≤ e.2) && decide (e.2 ≤ 4095)
        | none => true)
      | .bad => false)

def isEnd (p : CfgPacket) : Bool := match cfgBody p with
  | .fin _ _ _ => true
  | _ => false

/-- A section ends with its one END, which counts its packets. -/
def sectionOk (l : List CfgPacket) : Bool :=
  l.all packetOk && (l.filter isEnd).length == 1
    && (match l.getLast? with
      | some p => (match cfgBody p with
        | .fin n _ _ => n == l.length
        | _ => false)
      | none => false)

/-! ### Items -/

/-- A packet with the cell that it goes to. -/
structure Item where
  cell : Nat
  pkt : CfgPacket
  deriving DecidableEq, Repr

/-- The items of an image on its spires. -/
def itemsOf (img : Image) (spires : List Nat) : List Item :=
  ((enumFrom 0 img.sections).map (fun e => e.2.map (fun p => ({ cell := spireCell (spires.getD e.1 0) (cfgDx p) (cfgDy p), pkt := p } : Item)))).flatten

/-- The slots of part k of a block. -/
def partSlots (l : List Item) (k : Nat) : Option (List Word128) :=
  match l.filter (fun i => cfgPart i.pkt == k) with
  | [i] => (match cfgBody i.pkt with
    | .blockSlots a b c => some [a, b, c]
    | _ => none)
  | _ => none

/-- A block from its parts: none where a part is missing, repeated or outside the block. -/
def assemble (l : List Item) : Option (Word128 × List Word128) :=
  match l.filter (fun i => cfgPart i.pkt == 0) with
  | [i] => (match cfgBody i.pkt with
    | .blockHdr h =>
      let n := (hdrSlots h + 2) / 3
      if l.length ≠ n + 1 then none
      else ((List.range n).mapM (fun k => partSlots l (k + 1))).map (fun ws => (h, ws.flatten.take (hdrSlots h)))
    | _ => none)
  | _ => none

def isBlock (i : Item) : Bool := match cfgBody i.pkt with
  | .blockHdr _ => true
  | .blockSlots _ _ _ => true
  | _ => false

/-- The blocks of the node at a cell and index. -/
def blocksAt (l : List Item) (cell node : Nat) : Option (List (Nat × Word128 × List Word128)) :=
  let mine := l.filter (fun i => i.cell == cell && cfgNode i.pkt == node && isBlock i)
  ((mine.map (fun i => cfgBlk i.pkt)).eraseDups).mapM (fun b => (assemble (mine.filter (fun i => cfgBlk i.pkt == b))).map (fun x => (b, x.1, x.2)))

/-- A ROUTE item as a placed node, its link made absolute. -/
def placedAt (l : List Item) (spires : List Nat) (i : Item) (r : NodeRoute) : Option Placed :=
  let link : Option Nat := match r.kind with
    | .lantern => none
    | _ => r.link.map (fun k => spireCell (spires.getD (k / 256) 0) (k % 16) (k / 16 % 16))
  let cell := match r.kind with
    | .lantern => spireCell (r.link.getD 0) 0 0
    | _ => i.cell
  (blocksAt l i.cell (cfgNode i.pkt)).map (fun bs => { cell := cell, node := cfgNode i.pkt, route := { r with link := link }, blocks := bs })

/-- The placed nodes of an image; none where a block's parts break their limits. -/
def placedNodes (l : List Item) (spires : List Nat) : Option (List Placed) :=
  (l.filterMap (fun i => match cfgBody i.pkt with
    | .route r => some (i, r)
    | _ => none)).mapM (fun e => placedAt l spires e.1 e.2)

/-- The memory cells with their roles: cell, node number, role and way masks. -/
def rolesOf (l : List Item) : List (Nat × Nat × Role × List (Nat × BitVec 16)) :=
  l.filterMap (fun i => match cfgBody i.pkt with
    | .role n r m => some (i.cell, n, r, m)
    | _ => none)

/-- The values of CONST registers: cell, node, register and value. -/
def constsOf (l : List Item) : List (Nat × Nat × Nat × Word64) :=
  l.filterMap (fun i => match cfgBody i.pkt with
    | .const r v => some (i.cell, cfgNode i.pkt, r, v)
    | _ => none)

/-- The start nodes and the drain node of the ENDs. -/
def startsOf (l : List Item) : List Nat := (l.map (fun i => match cfgBody i.pkt with
    | .fin _ st _ => st
    | _ => [])).flatten

def drainOf (l : List Item) : Option (Nat × Nat) := l.findSome? (fun i => match cfgBody i.pkt with
    | .fin _ _ d => d
    | _ => none)

/-! ### Checks -/

/-- Distance in hops between two cells. -/
def hops (a b : Nat) : Nat := (max (cellX a) (cellX b) - min (cellX a) (cellX b)) + (max (cellY a) (cellY b) - min (cellY a) (cellY b))

/-- A node on a cell of its kind. -/
def kindOk (p : Placed) : Bool :=
  match p.route.kind with
  | .compute => cellKind p.cell == .compute
  | .agen => cellKind p.cell == .agen
  | .memory => cellKind p.cell == .memory && p.blocks == []
  | .lantern => p.blocks == []

/-- Every slot of a node's blocks. -/
def nodeSlots (p : Placed) : List BSlot := (p.blocks.map (fun b => slotsOf b.2.2)).flatten

/-- A node's own checks, among the nodes and roles of its image. -/
def placedOk (nodes : List Placed) (roles : List (Nat × Nat × Role × List (Nat × BitVec 16))) (p : Placed) : Bool :=
  let runs := p.route.kind == .compute || p.route.kind == .agen
  let compute := p.route.kind == .compute
  let slots := nodeSlots p
  let scratch := (p.route.link.bind (fun m => roles.find? (fun r => r.1 == m))).any (fun r => r.2.2.1 == .scratch)
  let succs := p.route.succs.map (fun e => e.1)
  let lanterns := (nodes.filter (fun q => q.route.kind == .lantern)).map (fun q => q.route.num)
  kindOk p
    && (!runs || (blockCode p 0).isSome)
    && p.blocks.all (fun b => blockOk compute b.1 b.2.1 b.2.2)
    && slots.all (fun x => exitOk p.blocks x && nodeOk succs lanterns scratch x)
    && succs.all (fun i => decide (i < 4)) && succs.eraseDups.length == succs.length
    && p.route.succs.all (fun e => nodes.any (fun q => q.route.num == e.2 && (nodeNest q).isSome))
    && (!slots.any (fun x => isMemOp x.op) || p.route.link.isSome)
    && (match p.route.link with
      | some m => p.route.kind == .lantern || (runs && cellKind m == .memory && decide (hops p.cell m ≤ 2))
      | none => true)
    && p.route.counters.all (fun k => decide (k.1 < 8) && decide (k.2 < 65536) && runs)
    && p.route.hregs.all (fun r => decide (r.1 < 32) && compute)
    && p.route.quotas.all (fun q => decide (q.m ≤ 64) && decide (q.s ≤ 255) && (q.m != 0 || q.s == 0))

/-- The channels of an image: an output port feeds at most four, an input port is fed by one, and a memory node has port 0
alone (R209). -/
def chansOk (nodes : List Placed) : Bool :=
  let cs := (nodes.map (fun p => p.route.chans)).flatten
  let known (e : ChanEnd) : Bool := nodes.any (fun p => p.route.num == e.node && (p.route.kind != .memory || e.port == 0))
  (cs.map (fun c => c.n)).eraseDups.length == cs.length
    && cs.all (fun c => (c.src.map known).getD true && (c.dst.map known).getD true
      && (c.src.isNone || decide ((cs.filter (fun d => d.src == c.src)).length ≤ 4)) && (c.dst.isNone || (cs.filter (fun d => d.dst == c.dst)).length == 1))

/-- The nodes of a world's resident contexts and of an image on one cell. -/
def nodesOn (s : State) (w : BitVec 4) (nodes : List Placed) (cell : Nat) : List Placed :=
  ((contextsOf s w).map (fun e => e.2.nodes)).flatten.filter (fun p => p.cell == cell && p.route.kind != .lantern) ++ nodes.filter (fun p => p.cell == cell && p.route.kind != .lantern)

/-- What one cell hosts: its nodes' number and indices, one loop nest and one block-quantise node, and each counter and
persistent register in one node. -/
def cellOk (l : List Placed) (cell : Nat) : Bool :=
  let idx := l.map (fun p => p.node)
  let cnts := (l.map (fun p => p.route.counters.map (fun k => k.1) ++ (match nodeNest p with
    | some e => List.range (nestLevels e)
    | none => []))).flatten
  let regs := (l.map (fun p => p.route.hregs.map (fun r => r.1))).flatten
  decide (l.length ≤ (if cellKind cell = .compute then 16 else if cellKind cell = .agen then 8 else 1)) && idx.eraseDups.length == idx.length
    && decide ((l.filter (fun p => (nodeNest p).isSome)).length ≤ 1)
    && decide ((l.filter (fun p => (nodeSlots p).any (fun x => x.op == 0x1C7))).length ≤ 1)
    && cnts.eraseDups.length == cnts.length && regs.eraseDups.length == regs.length

/-- The lantern role of a spire goes to one graph of a world (R342). -/
def lanternsOk (s : State) (w : BitVec 4) (nodes : List Placed) : Bool :=
  (nodes.filter (fun p => p.route.kind == .lantern)).all (fun p =>
    decide (cellSpire p.cell < 48) && (!p.route.lanternRole
      || ((roleHolder s w (cellSpire p.cell)).isNone && (nodes.filter (fun q => q.route.kind == .lantern && q.route.lanternRole && q.cell == p.cell)).length == 1)))

/-- Roles go to memory cells that no resident context of the world gives one (R205). -/
def rolesOk (s : State) (w : BitVec 4) (roles : List (Nat × Nat × Role × List (Nat × BitVec 16))) : Bool :=
  (roles.map (fun r => r.1)).eraseDups.length == roles.length
    && roles.all (fun r => cellKind r.1 == .memory && !(contextsOf s w).any (fun e => (roleOf e.2 r.1).isSome))

/-- CONST packets name registers in the CONST mode of their nodes, once each. -/
def constsOk (nodes : List Placed) (cs : List (Nat × Nat × Nat × Word64)) : Bool :=
  (cs.map (fun c => (c.1, c.2.2.1))).eraseDups.length == cs.length
    && cs.all (fun c => nodes.any (fun p => p.cell == c.1 && p.node == c.2.1 && p.route.hregs.contains (c.2.2.1, .const)))

/-- Every block and constant stands in a placed node. -/
def orphansOk (l : List Item) : Bool :=
  l.all (fun i => match cfgBody i.pkt with
    | .blockHdr _ => routed i
    | .blockSlots _ _ _ => routed i
    | .const _ _ => routed i
    | _ => true)
where
  routed (i : Item) : Bool := l.any (fun j => j.cell == i.cell && cfgNode j.pkt == cfgNode i.pkt && (match cfgBody j.pkt with
    | .route _ => true
    | _ => false))

/-- The quota lines of an image. -/
def imageQuotas (nodes : List Placed) : List (Nat × Nat × Colour × Nat × Nat) :=
  (nodes.map (fun p => p.route.quotas.map (fun q => (p.route.num, q.port.toNat, q.colour, q.m, q.s)))).flatten

/-! ### Context attributes (R213, R320) -/

/-- Word i of a context's attribute entry; 0 without a table, and where the world does not reach it. -/
def attrWord (s : State) (w : BitVec 4) (x : Context) (i : Nat) : Nat :=
  let b := base12 (worldOf s w).catab
  if b = 0 then 0 else ownWord s w (b + 64 * x.toNat + 8 * i)

/-- The carve-outs of an entry: size and offset in MiB for each die. -/
def carveOf (a : Nat) : List (Nat × Nat) := (List.range 4).map (fun d => (bits a (16 * d + 6) (16 * d), bits a (16 * d + 13) (16 * d + 8)))

def mib : Nat := 2 ^ 20

/-- The physical address of an offset in a die's carve-out window. -/
def carveBase (d ofs : Nat) : Nat := 0x30000000000 + d * 0x10000000 + ofs * mib

/-- Whether two lists of carve-outs meet on some die. -/
def carvesMeet (a b : List (Nat × Nat)) : Bool :=
  (List.range 4).any (fun d =>
    let x := a.getD d (0, 0)
    let y := b.getD d (0, 0)
    x.1 != 0 && y.1 != 0 && decide (x.2 < y.2 + y.1) && decide (y.2 < x.2 + x.1))

/-- The granules of carve-outs. -/
def carveGranules (l : List (Nat × Nat)) : List Nat :=
  ((enumFrom 0 l).map (fun e => (List.range e.2.1).map (fun k => carveBase e.1 (e.2.2 + k) / granuleSize))).flatten.eraseDups

/-- What fails a launch by its attributes. -/
def attrFault (s : State) (w : BitVec 4) (x : Context) : Option Cause :=
  let a0 := attrWord s w x 0
  let a1 := attrWord s w x 1
  let cs := carveOf a1
  if bits a0 63 2 ≠ 0 ∨ (List.range 6).any (fun i => attrWord s w x (i + 2) != 0) = true
      ∨ (List.range 4).any (fun d => bits a1 (16 * d + 7) (16 * d + 7) != 0 || bits a1 (16 * d + 15) (16 * d + 14) != 0) = true
      ∨ cs.any (fun c => decide (64 < c.1 + c.2)) = true then some .illegalEncoding
  else if worldIds.any (fun v => (worldCarves s v).any (fun e => carvesMeet cs e.2)) then some .illegalEncoding
  else if (carveGranules cs).any (fun g => mget none s.granuleOwner g != some w.toNat) then some .permission
  else if bits a0 1 1 = 1 ∧ (worldOf s w).sys = false then some .permission
  else if base12 (worldOf s w).catab ≠ 0 ∧ ownsPa s w (base12 (worldOf s w).catab) = false then some .permission
  else none

/-- Clear new carve-outs to zero. -/
def clearCarves (s : State) (l : List (Nat × Nat)) : State :=
  let within (a : Nat) : Bool := (enumFrom 0 l).any (fun e => decide (carveBase e.1 e.2.2 ≤ a) && decide (a < carveBase e.1 (e.2.2 + e.2.1)))
  { s with
    mem := s.mem.filter (fun c => !within c.1)
    wtype := s.wtype.filter (fun e => !within (8 * e.1))
    lines := s.lines.filter (fun e => !within (64 * e.1)) }

/-! ### Placing an image (R49, R101, R119, R295) -/

/-- The first generation of a context's format table. -/
def launchFormats (img : Image) : List Word64 := img.fmts.foldl (fun l e => l.set e.1 e.2) resetEntries

/-- The tag caps: an equal share for each admitted colour (R295). -/
def launchCaps (qs : List (Nat × Nat × Colour × Nat × Nat)) : FMap Nat :=
  let cols := ((qs.filter (fun q => q.2.2.2.1 != 0)).map (fun q => q.2.2.1)).eraseDups
  cols.foldl (fun m c => mput 0 m c.toNat (65535 / cols.length)) []

/-- The registers of a placed node: its counters with their LIMITs (R61, R101) and its persistent registers. -/
def placeRegs (cs : List (Nat × Nat × Nat × Word64)) (s : State) (p : Placed) : State :=
  let value (r : Nat) : Word64 := ((cs.find? (fun c => c.1 == p.cell && c.2.1 == p.node && c.2.2.1 == r)).map (fun c => c.2.2.2)).getD 0
  let cnts := p.route.counters ++ (match nodeNest p with
    | some e => (List.range (nestLevels e)).map (fun k => (k, 0))
    | none => [])
  { s with
    hregs := p.route.hregs.foldl (fun m r => mput 0 m (hregKey p.cell r.1) (if r.2 = .const then value r.1 else 0)) s.hregs
    counters := cnts.foldl (fun m k => mput 0 m (counterKey p.cell k.1) (BitVec.ofNat 64 (k.2 * 2 ^ 16))) s.counters }

/-- What a launch places, or why it fails. -/
def checkImage (s : State) (w : BitVec 4) (t : Task) : Except Cause (List Item × List Placed) :=
  let l := itemsOf t.img t.spires
  let roles := rolesOf l
  let owned (c : Nat) : Bool := mget none s.cellOwner c == some w.toNat
  if t.img.atPlaced && t.img.spires.any (spireBad s) then .error .parity
  else if t.img.sections.length ≠ t.need ∨ t.img.sections.all sectionOk = false then .error .illegalEncoding
  else match placedNodes l t.spires with
    | none => .error .illegalEncoding
    | some nodes =>
      let cells := (nodes.map (fun p => p.cell)).eraseDups
      if nodes.any (fun p => !owned p.cell) || roles.any (fun r => !owned r.1)
          || nodes.any (fun p => (p.route.link.map (fun m => !owned m)).getD false) then .error .permission
      else if (nodes.map (fun p => p.route.num)).eraseDups.length == nodes.length && orphansOk l && nodes.all (placedOk nodes roles) && chansOk nodes
          && cells.all (fun c => cellOk (nodesOn s w nodes c) c) && lanternsOk s w nodes && rolesOk s w roles && constsOk nodes (constsOf l)
          && t.img.fmts.all (fun e => decide (e.1 < 16))
        then .ok (l, nodes) else .error .illegalEncoding

/-- Place a checked image: the context is resident; a restored one keeps what its carve-outs hold (R402). -/
def placeImage (s : State) (w : BitVec 4) (t : Task) (l : List Item) (nodes : List Placed) : State :=
  let x := t.img.context
  let a0 := attrWord s w x 0
  let cs := if t.saved then t.carve else carveOf (attrWord s w x 1)
  let qs := imageQuotas nodes
  let tags : FMap (Option TagHolder) := t.tiles.foldl (fun m y => mput none m y.u (some (.launch t.id))) []
  let c : Ctx := { resident := true, task := t.id, colour := t.colour, spires := t.spires, starts := startsOf l, drain := drainOf l, memNodes := (rolesOf l).map (fun r => (r.2.1, r.1)), queue := some t.queue, quar := t.quar, nodes := nodes, roles := (rolesOf l).map (fun r => (r.1, r.2.2.1, r.2.2.2)), gens := [{ gen := 0, entries := launchFormats t.img }], replay := bits a0 0 0 == 1, sysAttr := bits a0 1 1 == 1, carve := cs, tags := tags, caps := launchCaps qs, quotas := qs }
  nodes.foldl (placeRegs (constsOf l)) (if t.saved then setCtx s w x c else clearCarves (setCtx s w x c) cs)

/-- Whether the cells of an image keep the quota totals of R287 once it is placed. -/
def quotaFits (s : State) (w : BitVec 4) (nodes : List Placed) : Bool :=
  nodes.all (fun p => totalsOk (storeOf p) (quotasAt s w p.cell (p.route.kind == .lantern)))

/-! ### Start tokens (R316, R344) -/

/-- The payload of a launch's start token: VALID is ARGV. -/
def startVal (t : Task) : Val := valOf (fun k => if k < 8 ∧ t.argv.testBit k then some (BitVec.ofNat 32 (t.args.getD k 0)) else none)

/-- Start tokens and root GOs; a device-built launch sends its tiles instead of start tokens.  A context of a belfry sequence
gets them only where it is the active one, and no GO of an earlier swap is left to it (R344). -/
def sendLaunch (s0 : State) (w : BitVec 4) (t : Task) : State :=
  let x := t.img.context
  let ww := worldOf s0 w
  let s := setWorld s0 w { ww with goDue := ww.goDue.filter (fun e => e.1 != x) }
  if inSequence s w x && belfryActive ww != x then putTask s w { t with tiles := [] }
  else if t.recq then
    (let c := ctxOf s w x
     { s with ctls := s.ctls ++ (rootNests c).map (fun n => { go := true, node := { w := w, x := x, n := n }, tag := { colour := c.colour, context := x, iter := 0 }, src := none }) })
  else sendStarts s w x (startVal t)

/-- LAUNCH_COMPLETE (R316): once every cell of every section has seen END, the launch fails its checks, or places
its image and sends its start tokens; a cut task then waits for RESTORE (R400). -/
def execLaunchComplete (w : BitVec 4) (task : BitVec 32) (s : State) : Result :=
  match findTask s w task with
  | none => .next s
  | some t =>
    if t.st ≠ .launching ∨ t.pos ≠ t.img.sections.map (fun l => l.length) ∨ (ctxOf s w t.img.context).resident = true ∨ attached s w = false then .next s
    else match checkImage s w t with
      | .error c => .next (failTask s w t c)
      | .ok (l, nodes) =>
        match (if t.saved then none else attrFault s w t.img.context) with
        | some c => .next (failTask s w t c)
        | none =>
          let s1 := placeImage s w t l nodes
          if !quotaFits s1 w nodes then .next (failTask s w t .illegalEncoding)
          else if t.saved then .next s1
          else
            let s2 := setCtx s1 w t.img.context { ctxOf s1 w t.img.context with launched := true }
            let t1 := { t with st := if t.toCut then .cutting else .running }
            .next (cutBad (sendLaunch (putTask s2 w t1) w t1))

/-! ### Tiles (R318, R340) -/

/-- The start token of a tile. -/
def tileTok (t : Task) (y : Tile) : Token :=
  dataTok { colour := t.colour, context := t.img.context, iter := BitVec.ofNat 16 y.u } 0 (firstSlots (y.slots.map (BitVec.ofNat 32)))

/-- RECQ_TILE_SEND (R340): the next tile leaves for a start node, in their order, once its tag is reserved and the colour has
credit there, in its turn at the ingress (R323); a context of a belfry sequence gets it only while it is active (R344). -/
def execRecqTileSend (w : BitVec 4) (task : BitVec 32) (s : State) : Result :=
  match findTask s w task with
  | none => .next s
  | some t =>
    let x := t.img.context
    let c := ctxOf s w x
    let chans : List ChanId := c.starts.filterMap (fun n => (startChan c n).map (fun k => { w := w, x := x, n := k }))
    match t.tiles[t.sent]?, chans[t.part]? with
    | some y, some ch =>
      let free := mget none c.tags y.u
      if t.st ≠ .running ∨ c.launched = false ∨ c.halted = true ∨ gated s w x = true ∨ c.cut.isSome = true ∨ (free ≠ none ∧ free ≠ some (.launch t.id))
          ∨ credit s ch t.colour = 0 ∨ chanFrozen s ch t.colour = true then .next s
      else
        let die := entryDie s (((chanEnd s ch).map (fun p => p.node)).getD { w := w, x := x, n := 0 })
        let go (st : State) : State :=
          let s1 := setCtx st w x { ctxOf st w x with tags := mput none (ctxOf st w x).tags y.u (some (.launch t.id)) }
          let s2 := putTask s1 w (if t.part + 1 < chans.length then { t with part := t.part + 1 } else { t with sent := t.sent + 1, part := 0 })
          { s2 with flights := s2.flights ++ [{ chan := ch, tok := tileTok t y, errs := 0, partialTok := false }] }
        .next (enter s die ch t.colour go)
    | _, _ => .next s

end Sys2Proof.Machine
end

