-- ==== Sys2Proof/Machine/Security.lean ====
section
/-! DEFINITION. The security processor: worlds and their owners (R346–R348, R357), keys and left-over data (R350,
R356), confidential attachment and link events (R358–R361), and debug unlock (R362, R413). -/

namespace Sys2Proof.Machine

/-! ### Requests and replies (R357, R408) -/

/-- Answer a request: status 0 OK, 1 BUSY, 2 DEBUG, 3 REFUSED. -/
def reply (s : State) (code : Nat) (l : List Nat) : State := { s with outputs := s.outputs ++ [.reply code l] }

/-- A request that changes nothing. -/
def refuse (s : State) : State := reply s 3 []

/-- The order of the requests that arrive in one cycle: CREATE first, then the table's order. -/
def requestRank : Request → Nat
  | .create _ _ _ _ _ => 0
  | .grant _ _ _ => 1
  | .reclaim _ _ _ => 2
  | .destroy _ => 3
  | .keyInstall _ _ _ _ => 4
  | .keyRetire _ _ _ => 5
  | .kekInstall _ _ => 6
  | .keyImport _ _ _ _ => 7
  | .unlock _ => 8
  | .unlockChallenge _ => 9
  | _ => 10

/-- The security processor's own key among the turns of one cycle. -/
def requestKey : Nat := 2 ^ 16

/-- Whether no request that R357 orders after this one has changed anything in this cycle; UNLOCK goes by its own rule
(R362). -/
def requestTurn (s : State) (r : Request) : Bool :=
  let t := mget (0, 0) s.turns requestKey
  decide (7 < requestRank r) || t.1 != s.now + 1 || decide (t.2 ≤ requestRank r)

/-- A request that has changed something has its turn of the cycle. -/
def tookTurn (r : Request) (s : State) : State :=
  let ok : Bool := match s.outputs.getLast? with
    | some (.reply 0 _) => true
    | _ => false
  if decide (7 < requestRank r) || !ok then s else { s with turns := mput (0, 0) s.turns requestKey (s.now + 1, requestRank r) }

/-- A move once a cycle has passed. -/
def afterPass (m : Move) : List Move → List Move
  | [] => [.pass 1, m]
  | .pass n :: l => .pass n :: m :: l
  | x :: l => x :: afterPass m l

/-- A request to the security processor: its effect; before SP is set a place in the mailbox; and out of turn, a later
cycle. -/
def request (i : Request) (s : State) (body : State → State) : Result :=
  if !spReady s then .next { s with dev := { s.dev with mailbox := s.dev.mailbox ++ [(s.now, i)] } }
  else if requestTurn s i then .next (tookTurn i (body s))
  else .next { s with agenda := afterPass (.request i) s.agenda }

/-- Waiting requests in the order in which they are taken; those of different cycles are taken in different cycles. -/
def takenMoves : Option Nat → List (Nat × Request) → List Move
  | _, [] => []
  | c, (k, i) :: l => (if c.any (· != k) then [.pass 1] else []) ++ .request i :: takenMoves (some k) l

/-- SP is set: the mailbox is taken. -/
def takeMailbox (s : State) : State :=
  let l := sortBy (fun a b => decide (a.1 < b.1) || (a.1 == b.1 && decide (requestRank a.2 < requestRank b.2))) s.dev.mailbox
  { s with agenda := takenMoves none l ++ s.agenda, dev := { s.dev with mailbox := [] } }

/-! ### Owners (R346–R348) -/

/-- Cells of the module. -/
def cellCount : Nat := 12288

/-- Whether an owner table gives an entry to another world. -/
def foreign (m : FMap (Option Nat)) (w : BitVec 4) (k : Nat) : Bool := (mget none m k).any (· != w.toNat)

/-- Write entries of an owner table. -/
def setOwner (v : Option Nat) (m : FMap (Option Nat)) (l : List Nat) : FMap (Option Nat) := l.foldl (fun m k => mput none m k v) m

/-- The entries of an owner table that a world holds. -/
def ownedBy (m : FMap (Option Nat)) (w : BitVec 4) : List Nat := (m.filter (fun e => e.2 == some w.toNat)).map (fun e => e.1)

/-- Clear cells (R347); their matching stores, hold buffers and instances are empty once no context is there. -/
def clearCells (s : State) (cells : List Nat) : State :=
  let off (c : Nat) : Bool := !cells.contains c
  { s with
    blocks := s.blocks.filter (fun b => off b.cell)
    hregs := s.hregs.filter (fun e => off (e.1 / 32))
    counters := s.counters.filter (fun e => off (e.1 / 8))
    groups := s.groups.filter (fun g => off g.cell)
    planes := s.planes.filter (fun e => off e.1)
    tlb := s.tlb.filter (fun t => off t.cell)
    bank := s.bank.filter (fun l => off l.cell)
    mem := cells.foldl clearScratch s.mem }

/-- No shared structure keeps an entry of granules that change owner: their Dome lines are dropped, and monitors on them
are lost (R346, R257). -/
def dropGranules (s : State) (gs : List Nat) : State :=
  let within (line : Nat) : Bool := gs.contains (64 * line / granuleSize)
  { s with
    dome := s.dome.filter (fun e => !within e.1)
    bank := s.bank.filter (fun l => !within l.line)
    monitors := s.monitors.map (fun m => if within m.granule then m.sees s.now .lost else m) }

/-- Set every line of granules FRESH (R356). -/
def freshGranules (s0 : State) (gs : List Nat) : State :=
  let s := dropGranules s0 gs
  let out (pa : Nat) : Bool := !gs.contains (pa / granuleSize)
  { s with
    mem := s.mem.filter (fun c => out c.1)
    wtype := s.wtype.filter (fun e => out (8 * e.1))
    lines := s.lines.filter (fun e => out (64 * e.1)) }

/-- Give a world the cells and granules that it does not own yet. -/
def giveAll (s : State) (w : BitVec 4) (cells granules : List Nat) : State :=
  let cs := cells.filter (fun c => decide (c < cellCount) && mget none s.cellOwner c != some w.toNat)
  let gs := granules.filter (fun g => isDevice (g * granuleSize) && mget none s.granuleOwner g != some w.toNat)
  let s1 := freshGranules (clearCells s cs) gs
  { s1 with cellOwner := setOwner (some w.toNat) s1.cellOwner cs, granuleOwner := setOwner (some w.toNat) s1.granuleOwner gs }

/-- Whether a request names what another world owns. -/
def namesForeign (s : State) (w : BitVec 4) (cells granules : List Nat) : Bool :=
  cells.any (foreign s.cellOwner w) || granules.any (foreign s.granuleOwner w)

/-- Whether debug unlock was put in force before this cycle (R362). -/
def unlockBefore (s : State) : Bool := s.dev.unlocked.any (fun t => decide (t < s.now))

/-- CREATE (R357); the world gets a save key of its own (R396). -/
def doCreate (w : BitVec 4) (prot sys : Bool) (cells granules : List Nat) (s : State) : State :=
  if (worldOf s w).live then reply s 1 []
  else if prot && unlockBefore s then reply s 2 []
  else if namesForeign s w cells granules then refuse s
  else reply (giveAll (setWorld { s with free := s.free + 1 } w { live := true, prot := prot, sys := sys, saveKey := some s.free }) w cells granules) 0 []

def execCreate (w : BitVec 4) (prot sys : Bool) (cells granules : List Nat) (s : State) : Result := request (.create w prot sys cells granules) s (doCreate w prot sys cells granules)

/-- Whether a world's cells and granules are fixed by its TDI. -/
def worldFixed (x : World) : Bool := x.prot && (x.tdi == .locked || x.tdi == .run)

/-- GRANT (R357). -/
def doGrant (w : BitVec 4) (cells granules : List Nat) (s : State) : State :=
  let x := worldOf s w
  if !x.live || worldFixed x || namesForeign s w cells granules then refuse s
  else reply (cellsFree (giveAll s w cells granules) w) 0 []

def execGrant (w : BitVec 4) (cells granules : List Nat) (s : State) : Result := request (.grant w cells granules) s (doGrant w cells granules)

/-- The cells of a world's resident contexts: their nodes, roles and links. -/
def residentCells (s : State) (w : BitVec 4) : List Nat :=
  ((contextsOf s w).map (fun e =>
    (e.2.nodes.filter (fun p => p.route.kind != .lantern)).map (fun p => p.cell) ++ e.2.roles.map (fun r => r.1) ++ e.2.nodes.filterMap (fun p => p.route.link))).flatten

/-- RECLAIM (R357): cells return to no owner cleared. -/
def doReclaim (w : BitVec 4) (cells granules : List Nat) (s : State) : State :=
  let x := worldOf s w
  let held := ((worldCarves s w).map (fun e => carveGranules e.2)).flatten
  if !x.live || worldFixed x then refuse s
  else if cells.any (residentCells s w).contains || granules.any held.contains then reply s 1 []
  else
    let cs := cells.filter (fun c => mget none s.cellOwner c == some w.toNat)
    let gs := granules.filter (fun g => mget none s.granuleOwner g == some w.toNat)
    let s1 := dropGranules (clearCells s cs) gs
    reply { s1 with cellOwner := setOwner none s1.cellOwner cs, granuleOwner := setOwner none s1.granuleOwner gs } 0 []

def execReclaim (w : BitVec 4) (cells granules : List Nat) (s : State) : Result := request (.reclaim w cells granules) s (doReclaim w cells granules)

/-! ### Keys (R350, R356) -/

/-- Lines filled under a key slot of a world that the Dome holds. -/
def slotLines (s : State) (w : BitVec 4) (slot : Nat) : List Nat :=
  (s.dome.map (fun e => e.1)).filter (fun line => match mget none s.lines line with
    | some (.keyed v k _ _ _ _) => v == w.toNat && k == slot
    | _ => false)

/-- What the Dome holds of a line is lost: its bytes are what the level below it holds, which are free values
(assumption 43). -/
def loseLine (s : State) (line : Nat) : State :=
  { s with free := s.free + 8, mem := putBytes s.mem (((List.range 8).map (fun i => cellsOf (64 * line + 8 * i) 8 (Config.freeWord (s.free + i)).toNat)).flatten) }

/-- Retire a slot (R356): every Dome and cache-bank line filled under it is dropped without writeback, so that data not
yet written is lost, and the slot is empty. -/
def retireSlot (w : BitVec 4) (s : State) (slot : Nat) : State :=
  let ww := worldOf s w
  match mget none ww.keys slot with
  | none => s
  | some _ =>
    let ls := slotLines s w slot
    let s1 := ls.foldl loseLine s
    let s2 := { s1 with
      dome := s1.dome.filter (fun e => !ls.contains e.1)
      bank := s1.bank.filter (fun l => !(mget none s1.cellOwner l.cell == some w.toNat && l.tag.any (fun t => t.1 == slot)))
      monitors := s1.monitors.map (fun m => if ls.contains m.granule then m.sees s1.now .lost else m) }
    setWorld s2 w { ww with keys := mput none ww.keys slot none }

/-- Whether a requester may change a world's slots: its tenant in its session, or the operator of an unprotected
world. -/
def mayKey (s : State) (b : Requester) (w : BitVec 4) : Bool :=
  let x := worldOf s w
  x.live && (match b with
    | .operator => !x.prot
    | .tenant v => v == w && x.spdm)

/-- KEY_INSTALL (R357). -/
def doKeyInstall (b : Requester) (w : BitVec 4) (slot : BitVec 8) (keys : KeySet) (s : State) : State :=
  if !mayKey s b w then refuse s
  else (let x := worldOf s w; reply (setWorld s w { x with keys := mput none x.keys slot.toNat (some keys) }) 0 [])

def execKeyInstall (b : Requester) (w : BitVec 4) (slot : BitVec 8) (keys : KeySet) (s : State) : Result := request (.keyInstall b w slot keys) s (doKeyInstall b w slot keys)

/-- KEY_RETIRE (R356). -/
def doKeyRetire (b : Requester) (w : BitVec 4) (slot : BitVec 8) (s : State) : State :=
  if !mayKey s b w then refuse s else reply (retireSlot w s slot.toNat) 0 []

def execKeyRetire (b : Requester) (w : BitVec 4) (slot : BitVec 8) (s : State) : Result := request (.keyRetire b w slot) s (doKeyRetire b w slot)

/-- KEK_INSTALL (R357). -/
def doKekInstall (w : BitVec 4) (kek : BitVec 256) (s : State) : State :=
  let x := worldOf s w
  if !x.spdm then refuse s else reply (setWorld s w { x with kek := some kek }) 0 []

def execKekInstall (w : BitVec 4) (kek : BitVec 256) (s : State) : Result := request (.kekInstall w kek) s (doKekInstall w kek)

/-- KEY_IMPORT (R357, R361): the blob unwraps under the key-encryption key that the world holds,
and its save key is that of the wrapped set of this device (assumption 61). -/
def doKeyImport (w : BitVec 4) (kek : BitVec 256) (blob : List (Nat × KeySet)) (nctrs : List (Nat × Nat)) (s : State) : State :=
  let x := worldOf s w
  if !x.spdm || x.tdi != .locked || x.kek != some kek then refuse s
  else
    let keys : FMap (Option KeySet) := blob.foldl (fun m e => mput none m (e.1 % 256) (some e.2)) []
    let nctr : FMap Nat := nctrs.foldl (fun m e => mput 0 m (e.1 % 256) e.2) []
    reply (setWorld s w { x with keys := keys, nctr := nctr, saveKey := x.wrapped.bind (fun v => v.save), wrapped := none }) 0 []

def execKeyImport (w : BitVec 4) (kek : BitVec 256) (blob : List (Nat × KeySet)) (nctrs : List (Nat × Nat)) (s : State) : Result := request (.keyImport w kek blob nctrs) s (doKeyImport w kek blob nctrs)

/-- DESTROY (R356, R357): its tasks and contexts go, its slots are retired, its cells cleared and its granules free. -/
def destroyWorld (s : State) (w : BitVec 4) : State :=
  let s1 := (contextsOf s w).foldl (fun st e => dropConfig (dropWork st w e.1) w e.1) s
  let s2 := ((worldOf s1 w).keys.map (fun e => e.1)).foldl (retireSlot w) s1
  let cs := ownedBy s2.cellOwner w
  let s3 := clearCells s2 cs
  setWorld { s3 with
    cellOwner := setOwner none s3.cellOwner cs
    granuleOwner := setOwner none s3.granuleOwner (ownedBy s3.granuleOwner w)
    ops := s3.ops.filter (fun o => o.node.w != w)
    evqs := s3.evqs.filter (fun e => e.w != w)
    images := s3.images.filter (fun e => (e.2.map (fun v => v.header.getD 0 0 % 16 != w.toNat)).getD true) } w {}

/-- DESTROY (R357). -/
def doDestroy (w : BitVec 4) (s : State) : State :=
  reply (destroyWorld s w) 0 []

def execDestroy (w : BitVec 4) (s : State) : Result := request (.destroy w) s (doDestroy w)

/-! ### Debug unlock (R362, R413) -/

/-- Whether a token verifies. -/
def tokenOk (s : State) (t : DebugToken) : Bool :=
  t.version == 1 && t.rsv == 0 && t.devid == Config.devid && s.dev.nonce == some t.nonce && Config.sigOk t.version t.devid t.nonce t.sig

/-- UNLOCK (R413): the nonce is consumed whether or not the token verifies. -/
def doUnlock (t : DebugToken) (s : State) : State :=
  let used (u : Option Nat) : State := { s with dev := { s.dev with nonce := none, unlocked := u } }
  if tokenOk s t then reply (used (some (s.dev.unlocked.getD s.now))) 0 [] else refuse (used s.dev.unlocked)

def execUnlock (t : DebugToken) (s : State) : Result := request (.unlock t) s (doUnlock t)

/-- UNLOCK_CHALLENGE (R357). -/
def doUnlockChallenge (nonce : BitVec 256) (s : State) : State :=
  reply { s with dev := { s.dev with nonce := some nonce } } 0 [nonce.toNat]

def execUnlockChallenge (nonce : BitVec 256) (s : State) : Result := request (.unlockChallenge nonce) s (doUnlockChallenge nonce)

/-! ### Confidential attachment (R358, R359) -/

/-- The measurement of the firmware running (R410). -/
def measurement (s : State) : Nat := (s.dev.firmware.getD Config.firmware).toNat

/-- The debug state: 0 LOCKED or 1 UNLOCKED. -/
def debugState (s : State) : Nat := if s.dev.unlocked.isSome then 1 else 0

def Tdi.code : Tdi → Nat
  | .unlocked => 0 | .locked => 1 | .run => 2 | .error => 3

/-- A TDISP request to a world's function; one that is no TDI refuses it. -/
def tdi (s : State) (w : BitVec 4) (body : State → World → State) : State :=
  let x := worldOf s w
  if x.live && x.prot then body s x else refuse s

/-- GET_TDISP_VERSION: 1.0 (R404). -/
def doGetTdispVersion (w : BitVec 4) (s : State) : State :=
  tdi s w (fun s _ => reply s 0 [0x10])

def execGetTdispVersion (w : BitVec 4) (s : State) : Result := request (.tdispVersion w) s (doGetTdispVersion w)

/-- GET_TDISP_CAPABILITIES (assumption 22). -/
def doGetTdispCapabilities (w : BitVec 4) (s : State) : State :=
  tdi s w (fun s _ => reply s 0 (Config.report 16))

def execGetTdispCapabilities (w : BitVec 4) (s : State) : Result := request (.tdispCapabilities w) s (doGetTdispCapabilities w)

/-- LOCK_INTERFACE_REQUEST: from CONFIG_UNLOCKED, and from the ERROR of a link event (R361). -/
def doLockInterfaceRequest (w : BitVec 4) (s : State) : State :=
  tdi s w (fun s x => if x.tdi = .unlocked ∨ x.tdi = .error then reply (setWorld s w { x with tdi := .locked }) 0 [] else refuse s)

def execLockInterfaceRequest (w : BitVec 4) (s : State) : Result := request (.lock w) s (doLockInterfaceRequest w)

/-- START_INTERFACE_REQUEST: from CONFIG_LOCKED; queued tasks may now be dispatched. -/
def doStartInterfaceRequest (w : BitVec 4) (s : State) : State :=
  tdi s w (fun s x => if x.tdi = .locked then reply (cellsFree (setWorld s w { x with tdi := .run }) w) 0 [] else refuse s)

def execStartInterfaceRequest (w : BitVec 4) (s : State) : Result := request (.start w) s (doStartInterfaceRequest w)

/-- STOP_INTERFACE_REQUEST. -/
def doStopInterfaceRequest (w : BitVec 4) (s : State) : State :=
  tdi s w (fun s x => reply (setWorld s w { x with tdi := .unlocked }) 0 [])

def execStopInterfaceRequest (w : BitVec 4) (s : State) : Result := request (.stop w) s (doStopInterfaceRequest w)

/-- GET_DEVICE_INTERFACE_STATE. -/
def doGetDeviceInterfaceState (w : BitVec 4) (s : State) : State :=
  tdi s w (fun s x => reply s 0 [x.tdi.code])

def execGetDeviceInterfaceState (w : BitVec 4) (s : State) : Result := request (.tdiState w) s (doGetDeviceInterfaceState w)

/-- GET_DEVICE_INTERFACE_REPORT: the world number, the owned cells and granules, the debug state, the measurement and
the weight (R358, R362, R363), then what the manual leaves open (assumption 22). -/
def doGetDeviceInterfaceReport (w : BitVec 4) (s : State) : State :=
  tdi s w (fun s _ =>
    let cs := ownedBy s.cellOwner w
    let gs := ownedBy s.granuleOwner w
    reply s 0 ([w.toNat, cs.length] ++ cs ++ [gs.length] ++ gs ++ [debugState s, measurement s, weightOf s w] ++ Config.report w.toNat))

def execGetDeviceInterfaceReport (w : BitVec 4) (s : State) : Result := request (.report w) s (doGetDeviceInterfaceReport w)

/-- GET_MEASUREMENTS (R358, R362). -/
def doGetMeasurements (_ : BitVec 4) (s : State) : State :=
  reply s 0 [measurement s, debugState s]

def execGetMeasurements (w : BitVec 4) (s : State) : Result := request (.measurements w) s (doGetMeasurements w)

/-- SPDM_SESSION_ESTABLISH (R361): over the host link. -/
def doSpdmSessionEstablish (w : BitVec 4) (s : State) : State :=
  let x := worldOf s w
  if x.live && s.dev.link.isSome then reply (setWorld s w { x with spdm := true }) 0 [] else refuse s

def execSpdmSessionEstablish (w : BitVec 4) (s : State) : Result := request (.session w) s (doSpdmSessionEstablish w)

/-- IDE_KM (R359): keys are set in the world's session. -/
def doIdeKm (w : BitVec 4) (s : State) : State :=
  let x := worldOf s w; if x.spdm then reply (setWorld s w { x with ide := true }) 0 [] else refuse s

def execIdeKm (w : BitVec 4) (s : State) : Result := request (.ideKm w) s (doIdeKm w)

/-- What a request does once it is taken. -/
def doRequest (r : Request) (s : State) : State :=
  match r with
  | .create w prot sys cells granules => doCreate w prot sys cells granules s
  | .grant w cells granules => doGrant w cells granules s
  | .reclaim w cells granules => doReclaim w cells granules s
  | .keyInstall b w slot keys => doKeyInstall b w slot keys s
  | .keyRetire b w slot => doKeyRetire b w slot s
  | .kekInstall w kek => doKekInstall w kek s
  | .keyImport w kek blob nctrs => doKeyImport w kek blob nctrs s
  | .destroy w => doDestroy w s
  | .unlock t => doUnlock t s
  | .unlockChallenge nonce => doUnlockChallenge nonce s
  | .tdispVersion w => doGetTdispVersion w s
  | .tdispCapabilities w => doGetTdispCapabilities w s
  | .lock w => doLockInterfaceRequest w s
  | .start w => doStartInterfaceRequest w s
  | .stop w => doStopInterfaceRequest w s
  | .tdiState w => doGetDeviceInterfaceState w s
  | .report w => doGetDeviceInterfaceReport w s
  | .measurements w => doGetMeasurements w s
  | .session w => doSpdmSessionEstablish w s
  | .ideKm w => doIdeKm w s

/-! ### Link events (R360) -/

/-- What a link event does to a world: sessions and IDE keys go, its TDI enters ERROR, and its running contexts are
to be cut. -/
def linkLost (x : World) : World :=
  if x.prot then
    { x with
      spdm := false, ide := false, tdi := .error, wrapPending := true
      tasks := x.tasks.map (fun t => if t.st = .running then { t with st := .cutting, cuts := t.cuts + 1 } else t) }
  else { x with spdm := false, ide := false }

/-- LINK_DOWN (R360). -/
def execLinkDown (s : State) : Result :=
  let s1 := worldIds.foldl (fun st w => setWorld st w (linkLost (worldOf st w))) s
  .next { s1 with dev := { s1.dev with link := none, lost := true, ready := BitVec.ofNat 64 (s1.dev.ready.toNat - bits s1.dev.ready.toNat 1 1 * 2) } }

/-- KEY_WRAP (R360): once no context of the world has a save pending, its key set, the save key among it, is wrapped under
the tenant's key-encryption key, and the plaintext erased. -/
def execKeyWrap (w : BitVec 4) (s : State) : Result :=
  let x := worldOf s w
  if !x.wrapPending || x.tasks.any (fun t => t.st == .cutting) || (contextsOf s w).any (fun e => e.2.cut.isSome) then .next s
  else
    let keep := x.wrapped.isSome && x.keys == []
    .next (setWorld s w { x with keys := [], nctr := [], saveKey := none, wrapped := (if keep then x.wrapped else x.kek.map (fun k => { kek := k, keys := x.keys, nctr := x.nctr, save := x.saveKey })), wrapPending := false })

end Sys2Proof.Machine
end

