-- ==== Sys2Proof/Machine/Cut.lean ====
section
/-! DEFINITION. Pre-emption: the cut (R388–R393), the save and its image (R394–R399), and the restore (R400–R403). -/

namespace Sys2Proof.Machine

/-! ### Markers (R388–R391) -/

/-- The channels of a context. -/
def ctxChans (c : Ctx) : List ChanCfg := (c.nodes.map (fun p => p.route.chans)).flatten

/-- Channels that leave a node and end at an input port. -/
def outChans (c : Ctx) (n : Nat) : List ChanCfg := (ctxChans c).filter (fun ch => ch.dst.isSome && ch.src.any (fun e => e.node == n))

/-- Channels that end at a node. -/
def inChans (c : Ctx) (n : Nat) : List Nat := ((ctxChans c).filter (fun ch => ch.dst.any (fun e => e.node == n))).map (fun ch => ch.n)

/-- External input channels. -/
def extChans (c : Ctx) : List Nat := ((ctxChans c).filter (fun ch => ch.src.isNone && ch.dst.isSome)).map (fun ch => ch.n)

/-- MARKERs on channels; they take no credit (R390). -/
def sendMarkers (s : State) (x : CtxId) (epoch : Nat) (chans : List Nat) : State :=
  { s with flights := s.flights ++ chans.map (fun n =>
      { chan := { w := x.w, x := x.x, n := n }, tok := { tag := { colour := 0, context := x.x, iter := 0 }, kind := .marker, aux := BitVec.ofNat 12 epoch, val := noVal }, errs := 0, partialTok := false }) }

/-- Whether a context's task is to be cut, with no purge in progress (R388). -/
def cutDue (s : State) (x : CtxId) : Bool :=
  let c := ctxOf s x.w x.x
  c.resident && c.launched && c.cut.isNone && c.purging.isNone && !c.halted && (findTask s x.w c.task).any (fun t => t.st == .cutting)

/-- CUT_BEGIN (R388, R389): the epoch advances, the sources are to be cut, and MARKERs go to the ends of the external
input channels. -/
def execCutBegin (x : CtxId) (s : State) : Result :=
  let c := ctxOf s x.w x.x
  if !cutDue s x then .next s
  else
    let e := c.epoch + 1
    let k : CutSt := { epoch := e, at_ := s.now, marks := (c.nodes.filter (fun p => p.route.markerSource)).map (fun p => p.route.num), cutNodes := [], recorded := [], chans := [], sent := extChans c }
    .next (sendMarkers (setCtx s x.w x.x { c with epoch := e, cut := some k }) x e (extChans c))

/-- Whether a MARKER is the next token of a channel. -/
def markerNext (s : State) (ch : ChanId) : Bool := (s.flights.find? (fun f => f.chan == ch)).any (fun f => f.tok.kind == .marker)

/-- Change the cut of a context. -/
def updCut (s : State) (n : NodeId) (f : CutSt → CutSt) : State := setCtx s n.w n.x { nodeCtx s n with cut := (nodeCtx s n).cut.map f }

/-- MARKERs that wait at a node's input ports arrive. -/
def takeMarkers (s : State) (n : NodeId) (chans : List Nat) : State :=
  let s1 := { s with flights := s.flights.filter (fun f => !(f.tok.kind == .marker && f.chan.w == n.w && f.chan.x == n.x && chans.contains f.chan.n)) }
  updCut s1 n (fun k => { k with chans := k.chans ++ chans })

/-- A node is cut: instances that need not run to commit are withdrawn, and monitors of withdrawn waits dropped
(R259, R391). -/
def cutNode (s : State) (n : NodeId) : State :=
  let s0 := { s with monitors := s.monitors.filter (fun m => !s.firings.any (fun f => f.cell == m.cell && f.seq == m.seq && f.node == n)) }
  let s1 := updCut s0 n (fun k => { k with cutNodes := k.cutNodes ++ [n.n] })
  (s1.insts.filter (fun b => b.node == n && !b.begun && !b.durable)).foldl returnInst s1

/-- Whether an engine operation still has tokens for a port of a node; a stream has stopped (R389). -/
def portBusy (s : State) (n : NodeId) (port : Nat) : Bool := s.ops.any (fun o => o.node == n && o.port == some port && !o.isStream)

/-- Whether a cut node has settled: no instance in flight, and at a lantern no stream in progress. -/
def nodeSettled (s : State) (n : NodeId) : Bool :=
  !s.insts.any (fun b => b.node == n)
    && (match lanternOf s n with
      | some sp => !s.lstreams.any (fun l => l.spire == sp) && !s.logit.any (fun r => r.spire == sp)
      | none => true)

/-- A settled node records its state and sends MARKERs on its output channels, each once no engine operation has tokens
for it. -/
def recordNode (s : State) (n : NodeId) : State :=
  if !nodeSettled s n then s
  else
    let c := nodeCtx s n
    let due := ((outChans c n.n).filter (fun ch => !(c.cut.any (fun k => k.sent.contains ch.n)) && !portBusy s n ((ch.src.map (fun e => e.port.toNat)).getD 0))).map (fun ch => ch.n)
    let s1 := updCut s n (fun k => { k with recorded := (if k.recorded.contains n.n then k.recorded else k.recorded ++ [n.n]), sent := k.sent ++ due })
    sendMarkers s1 { w := n.w, x := n.x } ((c.cut.map (fun k => k.epoch)).getD 0) due

/-- MARKER_ARRIVE (R391): it waits while a purge of the context runs (R293). -/
def execMarkerArrive (n : NodeId) (s : State) : Result :=
  let c := nodeCtx s n
  match c.cut with
  | none => .next s
  | some k =>
    let here := (inChans c n.n).filter (fun ch => markerNext s { w := n.w, x := n.x, n := ch })
    if c.purging.isSome || (here == [] && !k.marks.contains n.n && !k.cutNodes.contains n.n) then .next s
    else
      let s1 := takeMarkers s n here
      .next (recordNode (if k.cutNodes.contains n.n then s1 else cutNode s1 n) n)

/-! ### The save arena (R394) -/

/-- The place of a context's image and SLOG. -/
def arenaOf (s : State) (x : CtxId) : Nat × Nat :=
  let r := (mget (0, 0) s.dev.saves x.w.toNat).1
  let slog := bits r.toNat 5 0
  (bits r.toNat 51 12 * 2 ^ 12 + x.x.toNat * 2 ^ slog, slog)

/-- The save deadline in cycles. -/
def saveLimit (s : State) (w : BitVec 4) : Nat :=
  let d := bits (mget (0, 0) s.dev.saves w.toNat).2.toNat 15 0
  1024 * (if d = 0 then 4096 else d)

/-- Whether an arena's bytes belong to the world and can be reached now. -/
def arenaReach (s : State) (w : BitVec 4) (pa n : Nat) : Bool :=
  inCapability s w pa n && (levelCheck s w pa 0).isNone && (levelCheck s w (pa + n - 1) 0).isNone

/-! ### The image (R395–R398) -/

/-- The owned counters of a node. -/
def ownCounters (p : Placed) : List Nat := p.route.counters.map (fun k => k.1) ++ (match nodeNest p with
  | some e => List.range (nestLevels e)
  | none => [])

/-- The tokens that an image's CHANNEL records hold: at the ports, and unsent. -/
def savedToks (s : State) (x : CtxId) : List PTok :=
  (s.ptoks.filter (fun t => inCtx x.w x.x t.at_.node || t.chan.any (fun c => c.w == x.w && c.x == x.x))).map (fun t => { t with bkpt := none })

/-- Records of the body. -/
def recordCount (s : State) (x : CtxId) : Nat :=
  let c := ctxOf s x.w x.x
  let held := (((s.invs.filter (fun v => inCtx x.w x.x v.node && v.held != [])).map (fun v => v.node.n)).eraseDups).length
  2 + c.nodes.length + (ctxChans c).length + (c.roles.filter (fun r => r.2.1 == .scratch)).length + held + (s.ops.filter (fun o => inCtx x.w x.x o.node)).length

/-- The units of 16 bytes of the record contents whose size the manual gives. -/
def statedUnits (s : State) (x : CtxId) : Nat :=
  let c := ctxOf s x.w x.x
  let toks := (savedToks s x).length + ((s.outq.filter (fun o => inCtx x.w x.x o.at_.node)).map (fun o => o.todo.length)).foldl (· + ·) 0
    + (s.srcq.filter (fun e => e.1.w == x.w && e.1.x == x.x)).length
  let held := (((s.invs.filter (fun v => inCtx x.w x.x v.node)).map (fun v => v.held)).flatten.map (fun st => 1 + (st.bytes.length + 15) / 16)).foldl (· + ·) 0
  let regs := (c.nodes.map (fun p => p.route.hregs.length)).foldl (· + ·) 0
  recordCount s x + 2 + 512 + 4096 + 64 + (c.changed.length + 1) / 2 + 4 * c.nodes.length + regs + 5 * toks
    + 8192 * (c.roles.filter (fun r => r.2.1 == .scratch)).length + held

/-- The units of 16 bytes of the record contents whose size the manual leaves open (assumption 9); the LEN of each record, a multiple
of 16 in 32 bits, bounds them (R397). -/
def openUnits (s : State) (x : CtxId) : Nat := Config.imageUnits s.free % (2 ^ 28 * recordCount s x)

/-- Words 0 to 5 of a header (R395). -/
def headerWords (s : State) (x : CtxId) (state pswap cur epoch nonce body nrec : Nat) : List Nat :=
  [x.w.toNat + x.x.toNat * 2 ^ 4 + state * 2 ^ 12 + pswap * 2 ^ 14 + cur * 2 ^ 15 + epoch % 4096 * 2 ^ 17, nonce % 2 ^ 64, body, nrec, (ctxOf s x.w x.x).spires.length, 0]

/-- Byte i of the tag and of the ciphertext of a save (R396, assumption 9). -/
def tagByte (key i : Nat) : BitVec 8 := Config.cipherByte key i
def bodyByte (key i : Nat) : BitVec 8 := Config.cipherByte key (16 + i)

/-- The cells of little-endian words. -/
def wordCells : Nat → List Nat → List Host.Cell
  | _, [] => []
  | a, v :: l => cellsOf a 8 v ++ wordCells (a + 8) l

/-- An image's bytes: the body, then the header. -/
def imageCells (pa key : Nat) (hdr : List Nat) (body : Nat) : List Host.Cell :=
  (List.range body).map (fun i => (pa + 64 + i, bodyByte key i)) ++ (List.range 16).map (fun i => (pa + 48 + i, tagByte key i)) ++ wordCells pa hdr

/-- The pending belfry swap that a cut takes: the DRAINs that wait while the context is active (R182). -/
def pendingDrains (s : State) (x : CtxId) : List Token :=
  let w := worldOf s x.w
  if belEn w.belfry && belfryActive w == x.x then w.drains else []

/-- Whether a swap waits that a context's image names (R182, R395). -/
def swapWaits (s : State) (x : CtxId) : Bool :=
  let w := worldOf s x.w
  belEn w.belfry && (belfrySeq w).contains x.x && w.drains != []

/-- What an image holds. -/
def savedOf (s : State) (x : CtxId) (pa key : Nat) (hdr : List Nat) (at_ : Nat) : Saved :=
  let c := ctxOf s x.w x.x
  let mine := inCtx x.w x.x
  let regs (e : Nat) : Bool := c.nodes.any (fun p => p.cell == e / 32 && p.route.hregs.any (fun r => r.1 == e % 32))
  let cnts (e : Nat) : Bool := c.nodes.any (fun p => p.cell == e / 8 && (ownCounters p).contains (e % 8))
  let scratch (a : Nat) : Bool := decide (scratchBase ≤ a) && c.roles.any (fun r => r.1 == (a - scratchBase) / scratchSize && r.2.1 == .scratch)
  { skey := (worldOf s x.w).saveKey, pa := pa, header := hdr, key := key, at_ := at_, pswap := swapWaits s x, ctx := c
    ptoks := savedToks s x
    outq := s.outq.filter (fun o => mine o.at_.node)
    srcq := s.srcq.filter (fun e => e.1.w == x.w && e.1.x == x.x)
    firings := s.firings.filter (fun f => mine f.node)
    invs := s.invs.filter (fun v => mine v.node)
    nests := s.nests.filter (fun r => mine r.node)
    goWaits := s.goWaits.filter (fun g => mine g.node)
    groups := s.groups.filter (fun g => mine g.node)
    hregs := s.hregs.filter (fun e => regs e.1)
    counters := s.counters.filter (fun e => cnts e.1)
    planes := s.planes.filter (fun e => c.nodes.any (fun p => p.cell == e.1) && (e.2.map (fun r => r.tag.context == x.x)).getD false)
    streams := s.ops.filter (fun o => mine o.node)
    scratch := s.mem.filter (fun b => scratch b.1)
    drains := pendingDrains s x
    binds := ((roleSpires c).map (fun sp => (bindsOf s sp).map (fun b => (sp, b)))).flatten }

/-! ### The end of a cut (R393, R396) -/

/-- Whether a cut is complete: every node is recorded, every channel's MARKER has arrived, and nothing that started is
left but streams. -/
def cutDone (s : State) (x : CtxId) (k : CutSt) : Bool :=
  let c := ctxOf s x.w x.x
  let mine := inCtx x.w x.x
  !c.halted && c.purging.isNone && c.purgeq == []
    && c.nodes.all (fun p => k.recorded.contains p.route.num && (inChans c p.route.num).all k.chans.contains)
    && !s.fmtOwn.any (fun t => t.1 == x) && !s.insts.any (fun b => mine b.node) && !s.ops.any (fun o => mine o.node && !o.isStream) && !s.ctls.any (fun t => mine t.node)
    && !(belEn (worldOf s x.w).belfry && belfryActive (worldOf s x.w) == x.x && (worldOf s x.w).drainFlight != [])
    && !s.notices.any (fun n => n.w == x.w && n.tag.context == x.x) && !s.excFlight.any (fun e => e.1 == x)

/-- A cut task leaves its spires and is queued again. -/
def requeue (s : State) (w : BitVec 4) (t : Task) : State :=
  let s1 := putTask s w { t with st := .queued, saved := true, since := s.now, spires := [], toCut := false }
  cellsFree (afterSubject s1 w t.id) w

/-- Comparators that held tokens of the context show no HIT (R378). -/
def clearHits (s : State) (x : CtxId) : State :=
  let ks := s.ptoks.filterMap (fun t => if inCtx x.w x.x t.at_.node then t.bkpt.map (fun b => b.1) else none)
  { s with dev := { s.dev with bkpts := ks.foldl (fun m k => mupd {} m k (fun b => { b with hit := false })) s.dev.bkpts } }

/-- The image is written, the nonce counter advances, and the context leaves its spires. -/
def writeImage (s : State) (x : CtxId) (k : CutSt) (t : Task) (pa body : Nat) : State :=
  let w := worldOf s x.w
  let nonce := mget 0 w.nctr x.x.toNat + 1
  let v := savedOf s x pa s.free (headerWords s x 1 (if swapWaits s x then 1 else 0) (belCur w.belfry) k.epoch nonce body (recordCount s x)) k.at_
  let s1 := clearHits s x
  let s2 := setWorld s1 x.w { w with nctr := mput 0 w.nctr x.x.toNat nonce, drains := if v.drains != [] then [] else w.drains }
  let s3 := { s2 with free := s2.free + 1, images := mput none s2.images pa (some v), ptoks := s2.ptoks.filter (fun p => !p.chan.any (fun c => c.w == x.w && c.x == x.x)) }
  requeue (devWrite (unloadCtx s3 x.w x.x) (imageCells pa v.key v.header body)) x.w { t with carve := v.ctx.carve }

/-! ### A failed save (R399) -/

/-- The header of a failed save; what its words hold beside the context, its spires and STATE 2 is not stated. -/
def badHeader (s : State) (x : CtxId) (k : CutSt) : State :=
  let pa := (arenaOf s x).1
  if !arenaReach s x.w pa 64 then s
  else
    let w := worldOf s x.w
    let f (i : Nat) : Nat := (Config.freeWord (s.free + i)).toNat
    let l := headerWords s x 2 (if swapWaits s x then 1 else 0) (belCur w.belfry) k.epoch (f 0) (f 1) (f 2 % 2 ^ 32) ++ [f 3, f 4]
    devWrite { s with free := s.free + 5, images := mput none s.images pa none } (wordCells pa l)

/-- A save fails: its spires are quarantined, its cells cleared, and its task completes FAILED. -/
def failSave (s : State) (x : CtxId) (k : CutSt) : State :=
  let c := ctxOf s x.w x.x
  let o : Origin := { ctx := x, colour := c.colour, iter := 0, cell := 0, node := 0, blk := 0, slot := 0, nest := false, source := 3, gen := 0 }
  let cells := (c.nodes.filter (fun p => p.route.kind != .lantern)).map (fun p => p.cell) ++ c.roles.map (fun r => r.1)
  let s1 := badHeader s x k
  let s2 := { s1 with dev := { s1.dev with qspire := c.spires.foldl (fun q sp => q ||| BitVec.ofNat 64 (2 ^ sp)) s1.dev.qspire } }
  let s3 := logOnly s2 o { cause := .preempted, trap := k.epoch % 4096 }
  match findTask s3 x.w c.task with
  | some t => clearCells (failTask { s3 with invs := s3.invs.map (fun v => if inCtx x.w x.x v.node then { v with held := [] } else v) } x.w t .preempted) cells
  | none => s3

/-- CUT_COMPLETE (R393, R396): an arena that is not reachable, or an image larger than its slot, fails the save. -/
def execCutComplete (x : CtxId) (s : State) : Result :=
  let c := ctxOf s x.w x.x
  match c.cut, findTask s x.w c.task with
  | some k, some t =>
    if !cutDone s x k then .next s
    else
      let a := arenaOf s x
      let body := 16 * (statedUnits s x + openUnits s x)
      if a.2 < 16 ∨ 40 < a.2 ∨ 2 ^ a.2 < 64 + body ∨ inCapability s x.w a.1 (64 + body) = false then .next (failSave s x k)
      else match levelCheck s x.w a.1 0, levelCheck s x.w (a.1 + 63 + body) 0 with
        | none, none => .next (writeImage s x k t a.1 body)
        | some r, _ => .next (if r.cause = .stall then s else failSave s x k)
        | none, some r => .next (if r.cause = .stall then s else failSave s x k)
  | _, _ => .next s

/-- SAVE_DEADLINE_EXPIRY (R399). -/
def execSaveDeadlineExpiry (x : CtxId) (s : State) : Result :=
  match (ctxOf s x.w x.x).cut with
  | some k => .next (if k.at_ + saveLimit s x.w ≤ s.now then failSave s x k else s)
  | none => .next s

/-! ### Restore (R400, R401) -/

/-- The saved image that passes R400's checks: STATE, WORLD and CONTEXT, then NONCE, then the tag, which verifies under the world's
save key where no byte of the image has changed since its save. -/
def imageOk (s : State) (x : CtxId) : Option Saved :=
  let pa := (arenaOf s x).1
  let h := (List.range 8).map (word8 s.mem pa)
  let w0 := h.getD 0 0
  if !arenaReach s x.w pa 64 || bits w0 13 12 != 1 || bits w0 3 0 != x.w.toNat || bits w0 11 4 != x.x.toNat
      || h.getD 1 0 != mget 0 (worldOf s x.w).nctr x.x.toNat then none
  else (mget none s.images pa).filter (fun v =>
    v.skey == (worldOf s x.w).saveKey && v.pa == pa && h.take 6 == v.header && (List.range 16).all (fun i => byteAt s.mem (pa + 48 + i) == tagByte v.key i)
      && (List.range (h.getD 2 0)).all (fun i => byteAt s.mem (pa + 64 + i) == bodyByte v.key i))

/-- The cell of the new placement for one of the old: the same place in the spire of the same index. -/
def movedCell (old new : List Nat) (cell : Nat) : Nat :=
  match old.findIdx? (fun sp => sp == cellSpire cell) with
  | some i => spireCell (new.getD i 0) (cellX cell % 16) (cellY cell % 16)
  | none => cell

/-- A machine address in the new placement: scratch bytes move with their cells. -/
def movedAddr (mv : Nat → Nat) (a : Nat) : Nat :=
  if a < scratchBase then a else scratchAddr (mv ((a - scratchBase) / scratchSize)) ((a - scratchBase) % scratchSize)

/-- A firing as it is restored: a withdrawn wait re-fires with LOST and the time that remained, and a firing that a BRK
held fires afresh (R259, R401). -/
def restoredKind (away : Nat) : FireKind → FireKind
  | .withdrawn _ from_ => .withdrawn (some .lost) (from_ + away)
  | .brk => .fresh
  | k => k

def isChained (f : Firing) : Bool := match f.kind with
  | .chained _ _ _ _ => true
  | _ => false

/-- Restored firings arrive: pending chained instances first, then the others in order; each with its old and new
arrival sequence. -/
def restoreFirings (mv : Nat → Nat) (away : Nat) : State → List Firing → State × List (NodeId × Nat × Nat)
  | s, [] => (s, [])
  | s, f :: l =>
    let q := takeSeq s (mv f.cell)
    let f1 : Firing := { f with cell := mv f.cell, seq := q.2, age := s.now, kind := restoredKind away f.kind, counting := (if isChained f then none else some s.now), await := none }
    let r := restoreFirings mv away { q.1 with firings := q.1.firings ++ [f1] } l
    (r.1, (f.node, f.seq, q.2) :: r.2)

/-- A token at its port, with the new number of its firing. -/
def restoredTok (seqs : List (NodeId × Nat × Nat)) (t : PTok) : PTok :=
  { t with use := t.use.bind (fun u => (seqs.find? (fun e => e.1 == t.at_.node && e.2.1 == u)).map (fun e => e.2.2)) }

/-- Stall timers start for the restored tokens. -/
def startTimers (s : State) (l : List PTok) : State :=
  l.foldl (fun st t => if st.timers.any (fun y => y.covers t) then st else { st with timers := st.timers ++ [{ at_ := t.at_, colour := t.tok.tag.colour, start := st.now, fired := false }] }) s

/-- The context of a restored image on its new placement: what the configuration gives, and what was saved. -/
def mergeCtx (new old : Ctx) : Ctx :=
  { new with
    launched := true, ended := old.ended, changed := old.changed, gens := old.gens, gen := old.gen, srseed := old.srseed, replay := old.replay
    hintdrop := old.hintdrop, wdog := old.wdog, sysAttr := old.sysAttr, carve := old.carve, tags := old.tags, caps := old.caps
    quotas := old.quotas, limits := old.limits, excDrops := old.excDrops, epoch := old.epoch }

/-- The records of an image take their places (R401). -/
def placeSaved (s : State) (x : CtxId) (v : Saved) : State :=
  let new := ctxOf s x.w x.x
  let mv := movedCell v.ctx.spires new.spires
  let ma := movedAddr mv
  let order := (v.firings.filter isChained) ++ sortBy (fun a b => decide (a.seq < b.seq)) (v.firings.filter (fun f => !isChained f))
  let s0 := setCtx s x.w x.x (mergeCtx new v.ctx)
  let s1 := { s0 with
    mem := putBytes (((v.ctx.roles.filter (fun r => r.2.1 == .scratch)).map (fun r => mv r.1)).foldl clearScratch s0.mem) (v.scratch.map (fun b => (ma b.1, b.2)))
    invs := s0.invs ++ v.invs.map (fun i => { i with cell := mv i.cell, held := i.held.map (fun st => { st with bytes := st.bytes.map (fun b => (ma b.1, b.2)) }) })
    nests := s0.nests ++ v.nests
    goWaits := s0.goWaits ++ v.goWaits
    groups := s0.groups ++ v.groups.map (fun g => { g with cell := mv g.cell })
    hregs := v.hregs.foldl (fun m e => mput 0 m (32 * mv (e.1 / 32) + e.1 % 32) e.2) s0.hregs
    counters := v.counters.foldl (fun m e => mput 0 m (8 * mv (e.1 / 8) + e.1 % 8) e.2) s0.counters
    planes := v.planes.foldl (fun m e => mput none m (mv e.1) e.2) s0.planes
    ops := s0.ops ++ v.streams.map (fun o => { o with engine := mv o.engine, cell := mv o.cell, mem := o.mem.map mv })
    outq := s0.outq ++ v.outq.map (fun o => { o with since := s0.now })
    srcq := s0.srcq ++ v.srcq
    fmtReach := (ctxCells new).foldl (fun m c => mput 0 m (reachKey x.w x.x c) v.ctx.gen) s0.fmtReach }
  let r := restoreFirings mv (s1.now - v.at_) s1 order
  let toks := v.ptoks.map (restoredTok r.2)
  let s2 := startTimers { r.1 with ptoks := r.1.ptoks ++ toks } toks
  v.binds.foldl (fun st b => setBind st b.1 b.2.1 b.2.2.1 b.2.2.2) s2

/-- CUR of sr.belfry comes back with the world's contexts (R179, R182): with the context that was active at its cut, and
with any context of the sequence while no other one of it runs (assumption 56). -/
def restoreCur (s : State) (x : CtxId) (v : Saved) : State :=
  let ww := worldOf s x.w
  let cur := bits (v.header.getD 0 0) 16 15
  let runs := (belfrySeq ww).any (fun y => y != x.x && (ctxOf s x.w y).resident && (ctxOf s x.w y).launched)
  if (belfrySeq ww).contains x.x && decide (cur ≤ belSeq ww.belfry) && (belCtx ww.belfry cur == x.x || !runs) then
    setWorld s x.w { ww with belfry := withCur ww.belfry cur }
  else s

/-- The pending swap is completed before any firing (R182, R401). -/
def finishSwap (s : State) (x : CtxId) (v : Saved) : State :=
  let w := worldOf s x.w
  match v.drains with
  | t :: l => if (belfrySeq w).contains x.x then swapNow s x.w t (l ++ w.drains) else s
  | [] => s

/-- RESTORE (R400, R401): a cut task whose image stands placed is checked and goes on. -/
def execRestore (w : BitVec 4) (task : BitVec 32) (s : State) : Result :=
  match findTask s w task with
  | none => .next s
  | some t =>
    let x : CtxId := { w := w, x := t.img.context }
    let c := ctxOf s w x.x
    let pa := (arenaOf s x).1
    let o : Origin := { ctx := x, colour := t.colour, iter := 0, cell := 0, node := 0, blk := 0, slot := 0, nest := false, source := 3, gen := 0 }
    if t.st ≠ .launching ∨ t.saved = false ∨ c.resident = false ∨ c.launched = true ∨ c.task ≠ t.id ∨ attached s w = false then .next s
    else if (levelCheck s w pa 0).any (fun r => r.cause == .stall) then .next s
    else match imageOk s x with
      | none => .next (failTask (logOnly s o { cause := .permission, detail := 13 }) w t .permission)
      | some v =>
        let s1 := finishSwap (sendDue (restoreCur (placeSaved s x v) x v) w x.x) x v
        let s2 := deliverRecord s1 o { cause := .preempted, trap := v.ctx.epoch % 4096 } false
        .next (cutBad (putTask s2 w { t with st := if t.toCut then .cutting else .running }))

end Sys2Proof.Machine
end

