-- ==== Sys2Proof/Machine/Policy.lean ====
section
/-! DEFINITION. The policy machine: the bytecodes of R328 on the running decision of the world in focus, their
views (R330), control flow (R331, R332), outcomes (R333), and the budget (R334). -/

namespace Sys2Proof.Machine

/-! ### The running decision -/

/-- Bytecodes that a decision may execute (R334). -/
def policyBudget : Nat := 512

/-- Whether a decision still executes bytecodes. -/
def Decision.live (d : Decision) : Bool := d.outcome.isNone && decide (d.count < policyBudget)

/-- One bytecode of the decision in focus costs one cycle of its budget; nothing happens without a live one. -/
def polStep (s : State) (f : Decision → Decision) : Result :=
  match s.focus with
  | .policy w =>
    let ww := worldOf s w
    match ww.decision with
    | none => .next s
    | some d => if d.live then .next (setWorld s w { ww with decision := some (f { d with count := d.count + 1 }) }) else .next s
  | _ => .next s

def qreg (d : Decision) (k : BitVec 4) : Word64 := mget 0 d.regs k.toNat
def qput (d : Decision) (k : BitVec 4) (v : Word64) : Decision := { d with regs := mput 0 d.regs k.toNat v }

/-- Go on at a bytecode. -/
def goto (d : Decision) (pc : Nat) : Decision := { d with pc := pc }

/-- A bytecode that writes its destination and goes on. -/
def polSet (s : State) (k : BitVec 4) (f : Decision → Word64) : Result := polStep s (fun d => goto (qput d k (f d)) (d.pc + 1))

/-- A bytecode of two source registers. -/
def polBin (s : State) (k a b : BitVec 4) (f : Word64 → Word64 → Word64) : Result := polSet s k (fun d => f (qreg d a) (qreg d b))

/-- Zero-extend an immediate. -/
def immWord (imm : BitVec 16) : Word64 := imm.zeroExtend 64

/-! ### Arithmetic (R328) -/

/-- ADD. -/
def execPolAdd (d a b : BitVec 4) (s : State) : Result := polBin s d a b (fun x y => x + y)

/-- SUB. -/
def execPolSub (d a b : BitVec 4) (s : State) : Result := polBin s d a b (fun x y => x - y)

/-- MUL. -/
def execPolMul (d a b : BitVec 4) (s : State) : Result := polBin s d a b (fun x y => x * y)

/-- AND. -/
def execPolAnd (d a b : BitVec 4) (s : State) : Result := polBin s d a b (fun x y => x &&& y)

/-- OR. -/
def execPolOr (d a b : BitVec 4) (s : State) : Result := polBin s d a b (fun x y => x ||| y)

/-- XOR. -/
def execPolXor (d a b : BitVec 4) (s : State) : Result := polBin s d a b (fun x y => x ^^^ y)

/-- SHL. -/
def execPolShl (d a b : BitVec 4) (s : State) : Result := polBin s d a b (fun x y => x <<< (y.toNat % 64))

/-- SHR. -/
def execPolShr (d a b : BitVec 4) (s : State) : Result := polBin s d a b (fun x y => x >>> (y.toNat % 64))

/-- MIN, unsigned. -/
def execPolMin (d a b : BitVec 4) (s : State) : Result := polBin s d a b (fun x y => if x.toNat ≤ y.toNat then x else y)

/-- MAX, unsigned. -/
def execPolMax (d a b : BitVec 4) (s : State) : Result := polBin s d a b (fun x y => if x.toNat ≤ y.toNat then y else x)

/-- SLTU. -/
def execPolSltu (d a b : BitVec 4) (s : State) : Result := polBin s d a b (fun x y => if x.toNat < y.toNat then 1 else 0)

/-- SEQ. -/
def execPolSeq (d a b : BitVec 4) (s : State) : Result := polBin s d a b (fun x y => if x = y then 1 else 0)

/-- CSEL: it reads its destination. -/
def execPolCsel (d a b : BitVec 4) (s : State) : Result := polSet s d (fun x => if qreg x d ≠ 0 then qreg x a else qreg x b)

/-- LDI. -/
def execPolLdi (d : BitVec 4) (imm : BitVec 16) (s : State) : Result := polSet s d (fun _ => immWord imm)

/-- LDIS. -/
def execPolLdis (d : BitVec 4) (imm : BitVec 16) (s : State) : Result := polSet s d (fun x => (qreg x d <<< 16) ||| immWord imm)

/-- ADDI. -/
def execPolAddi (d a : BitVec 4) (imm : BitVec 16) (s : State) : Result := polSet s d (fun x => qreg x a + immWord imm)

/-- ANDI. -/
def execPolAndi (d a : BitVec 4) (imm : BitVec 16) (s : State) : Result := polSet s d (fun x => qreg x a &&& immWord imm)

/-- SHLI. -/
def execPolShli (d a : BitVec 4) (imm : BitVec 16) (s : State) : Result := polSet s d (fun x => qreg x a <<< (imm.toNat % 64))

/-- SHRI. -/
def execPolShri (d a : BitVec 4) (imm : BitVec 16) (s : State) : Result := polSet s d (fun x => qreg x a >>> (imm.toNat % 64))

/-! ### Views (R329, R330) -/

/-- Field f of a candidate, or of the subject at index 63. -/
def viewCand (d : Decision) (i f : Nat) : Nat :=
  if i < d.cands.length then ((d.cands[i]?).map (fun c => c.fields.getD f 0)).getD 0
  else if i = 63 then (d.subject.map (fun c => c.fields.getD f 0)).getD 0
  else 0

def viewList (l : List (List Nat)) (i f : Nat) : Nat := (l.getD i []).getD f 0

/-- Field f of the decision. -/
def viewDecision (d : Decision) (f : Nat) : Nat := [d.kind, d.cands.length, d.start % 2 ^ 48, d.free, d.slot].getD f 0

/-- RDC. -/
def execPolRdc (d a : BitVec 4) (imm : BitVec 16) (s : State) : Result :=
  polSet s d (fun x => BitVec.ofNat 64 (viewCand x (qreg x a).toNat imm.toNat))

/-- RDQ. -/
def execPolRdq (d a : BitVec 4) (imm : BitVec 16) (s : State) : Result :=
  polSet s d (fun x => BitVec.ofNat 64 (viewList x.queues (qreg x a).toNat imm.toNat))

/-- RDR. -/
def execPolRdr (d a : BitVec 4) (imm : BitVec 16) (s : State) : Result :=
  polSet s d (fun x => BitVec.ofNat 64 (viewList x.regions (qreg x a).toNat imm.toNat))

/-- RDW. -/
def execPolRdw (d : BitVec 4) (imm : BitVec 16) (s : State) : Result := polSet s d (fun x => BitVec.ofNat 64 (x.wviews.getD imm.toNat 0))

/-- RDD. -/
def execPolRdd (d : BitVec 4) (imm : BitVec 16) (s : State) : Result := polSet s d (fun x => BitVec.ofNat 64 (viewDecision x imm.toNat))

/-! ### Control flow (R331, R332) -/

/-- BRZ. -/
def execPolBrz (a : BitVec 4) (imm : BitVec 16) (s : State) : Result := polStep s (fun d => goto d (if qreg d a = 0 then imm.toNat else d.pc + 1))

/-- BRNZ. -/
def execPolBrnz (a : BitVec 4) (imm : BitVec 16) (s : State) : Result := polStep s (fun d => goto d (if qreg d a ≠ 0 then imm.toNat else d.pc + 1))

/-- JMP. -/
def execPolJmp (imm : BitVec 16) (s : State) : Result := polStep s (fun d => goto d imm.toNat)

/-- FOREACH: with no candidate it goes past its NEXT. -/
def execPolForeach (d : BitVec 4) (imm : BitVec 16) (s : State) : Result :=
  polStep s (fun x => if x.cands = [] then goto x (imm.toNat + 1) else goto (qput x d 0) (x.pc + 1))

/-- The FOREACH whose NEXT stands at an index: its own index and its register. -/
def foreachOf : Nat → List (BitVec 32) → Nat → Option (Nat × BitVec 4)
  | _, [], _ => none
  | i, w :: l, pc =>
    match decodePolicy w.toNat with
    | .ok (.polForeach d imm) => if imm.toNat = pc then some (i, d) else foreachOf (i + 1) l pc
    | _ => foreachOf (i + 1) l pc

/-- NEXT. -/
def execPolNext (s : State) : Result :=
  polStep s (fun x =>
    match foreachOf 0 x.prog x.pc with
    | none => goto x (x.pc + 1)
    | some (i, d) =>
      let x1 := qput x d (qreg x d + 1)
      goto x1 (if (qreg x1 d).toNat < x.cands.length then i + 1 else x.pc + 1))

/-! ### Outcomes and the fallback (R333, R334) -/

/-- The candidate of highest PRIORITY, and of those the lowest index. -/
def bestCand (l : List Cand) : Option Cand := bestOf (fun a b => decide (b.fields.getD 3 0 < a.fields.getD 3 0)) l

/-- What the fallback decides. -/
def fallbackOf (d : Decision) : Choice :=
  match d.kind, bestCand d.cands with
  | 0, some c => .pick c.task
  | 1, some c => .preempt c.task
  | _, _ => .defer

/-- An invalid outcome: the fallback decides, and the slot counts it. -/
def decideBy (d : Decision) (o : Option Choice) : Decision :=
  match o with
  | some c => { d with outcome := some c }
  | none => { d with outcome := some (fallbackOf d), invalid := true }

/-- The slot's INVAL count after a decision turned out invalid. -/
def countInval (w : World) (d : Decision) : World :=
  if d.invalid then { w with policies := mupd {} w.policies d.slot (fun p => { p with inval := min (p.inval + 1) 0xFFFF }) } else w

/-- An outcome bytecode. -/
def polOutcome (s : State) (f : Decision → Option Choice) : Result :=
  match s.focus with
  | .policy w =>
    let ww := worldOf s w
    match ww.decision with
    | none => .next s
    | some d =>
      if d.live then
        let d1 := decideBy { d with count := d.count + 1 } (f d)
        .next (setWorld s w { countInval ww d1 with decision := some d1 })
      else .next s
  | _ => .next s

/-- Candidate `a`, if there is one. -/
def candAt (d : Decision) (a : BitVec 4) : Option (BitVec 32) := (d.cands[(qreg d a).toNat]?).map (fun c => c.task)

/-- PICK: a DISPATCH decision's candidate. -/
def execPolPick (a : BitVec 4) (s : State) : Result := polOutcome s (fun d => if d.kind = 0 then (candAt d a).map .pick else none)

/-- PREEMPT: a PREEMPT decision's candidate. -/
def execPolPreempt (a : BitVec 4) (s : State) : Result := polOutcome s (fun d => if d.kind = 1 then (candAt d a).map .preempt else none)

/-- DEFER. -/
def execPolDefer (s : State) : Result := polOutcome s (fun _ => some .defer)

/-- KILL: a candidate of a DISPATCH or PREEMPT decision, or the subject of a PREEMPT or FAULT decision. -/
def execPolKill (a : BitVec 4) (s : State) : Result :=
  polOutcome s (fun d =>
    if (qreg d a).toNat = 63 then (if d.kind = 0 then none else some .killSubject)
    else if d.kind = 2 then none
    else (candAt d a).map .kill)

/-- POLICY_BUDGET_EXPIRY (R334). -/
def execPolicyBudgetExpiry (w : BitVec 4) (s : State) : Result :=
  let ww := worldOf s w
  match ww.decision with
  | none => .next s
  | some d =>
    if d.outcome.isSome || decide (d.count < policyBudget) then .next s
    else .next (setWorld s w { ww with
      decision := some { d with outcome := some (fallbackOf d) }
      policies := mupd {} ww.policies d.slot (fun p => { p with budg := min (p.budg + 1) 0xFFFF }) })

/-! ### Images (R325, R326) -/

/-- The decoded bytecodes of a program; none where one is no bytecode. -/
def polDecode (l : List (BitVec 32)) : Option (List Instr) := l.mapM (fun w => (decodePolicy w.toNat).toOption)

/-- The target of a branch. -/
def branchTarget : Instr → Option Nat
  | .polBrz _ i => some i.toNat
  | .polBrnz _ i => some i.toNat
  | .polJmp i => some i.toNat
  | _ => none

/-- The target of a FOREACH. -/
def foreachTarget : Instr → Option Nat
  | .polForeach _ i => some i.toNat
  | _ => none

def isOutcome : Instr → Bool
  | .polPick _ => true
  | .polPreempt _ => true
  | .polDefer => true
  | .polKill _ => true
  | _ => false

/-- The control-flow checks of R326 on a decoded program. -/
def polFlowOk (l : List Instr) : Bool :=
  let il := enumFrom 0 l
  let loops := il.filterMap (fun e => (foreachTarget e.2).map (fun t => (e.1, t)))
  let inBody (k : Nat) : Bool := loops.any (fun p => decide (p.1 < k) && decide (k ≤ p.2))
  il.all (fun e =>
      (match branchTarget e.2 with
        | some t => decide (e.1 < t) && decide (t < l.length) && loops.all (fun p =>
            !(decide (p.1 < t) && decide (t ≤ p.2)) || (decide (p.1 < e.1) && decide (e.1 ≤ p.2)))
        | none => true)
      && (match foreachTarget e.2 with
        | some t => decide (e.1 < t) && decide (t < l.length) && l[t]? == some .polNext && !inBody e.1
        | none => true)
      && (e.2 != .polNext || (loops.filter (fun p => p.2 == e.1)).length == 1))
    && (l.getLast?.map isOutcome).getD false

/-- The program of a policy image at a physical address; none where it fails R326. -/
def readPolicy (s : State) (w : BitVec 4) (pa : Nat) : Option (List (BitVec 32)) :=
  let h := word8 s.mem pa 0
  let n := bits h 8 0
  if !inCapability s w pa 64 ∨ bits h 63 9 ≠ 0 ∨ n = 0 ∨ 256 < n ∨ (List.range 7).any (fun i => word8 s.mem pa (i + 1) != 0)
      ∨ !inCapability s w pa (64 + 4 * n) then none
  else
    let l := (List.range n).map (fun i => BitVec.ofNat 32 (readLE s.mem (pa + 64 + 4 * i) 4))
    match polDecode l with
    | some d => if polFlowOk d then some l else none
    | none => none

end Sys2Proof.Machine
end

