-- ==== Sys2Proof/Machine/Decision.lean ====
section
/-! DEFINITION. Decisions: triggers and their order (R313, R333, R336), snapshots (R329, R330), commit (R335), and
what each outcome does (R310, R312, R314, R318, R333). -/

namespace Sys2Proof.Machine

/-! ### Triggers (R336) -/

/-- Kind, cycle, and TASKID or SLOT of a trigger. -/
def triggerKey (t : Trigger × Nat) : Nat × Nat × Nat :=
  match t.1 with
  | .fault id _ => (0, t.2, id.toNat)
  | .preempt id _ => (1, t.2, id.toNat)
  | .dispatch slot => (2, t.2, slot)

/-- FAULT before PREEMPT before DISPATCH, then the earlier, then the lower. -/
def triggerBefore (a b : Trigger × Nat) : Bool :=
  let x := triggerKey a
  let y := triggerKey b
  decide (x.1 < y.1) || (x.1 == y.1 && (decide (x.2.1 < y.2.1) || (x.2.1 == y.2.1 && decide (x.2.2 < y.2.2))))

/-- A running task of a world: one that has been dispatched and has not completed (R313). -/
def runningTask (s : State) (w : BitVec 4) (id : BitVec 32) : Option Task := (findTask s w id).filter (fun t => t.st != .queued)

/-- Whether a running task has held its cells for its SLICE (R313, R333). -/
def sliceSpent (s : State) (w : BitVec 4) (id : BitVec 32) : Bool :=
  match findTask s w id with
  | some t => let sl := regionEff s w t.region 2; sl != 0 && decide (t.sliceAt + 1024 * sl ≤ s.now)
  | none => false

/-- Whether a trigger starts a decision, or what goes before one: it finds a candidate (R313, R334); a YIELD stands for the end
of the slice (R386). -/
def triggerLive (s : State) (w : BitVec 4) (t : Trigger) : Bool :=
  match t with
  | .fault id _ => (runningTask s w id).isSome
  | .preempt id byYield => (byYield || sliceSpent s w id) && hasPreempt s w id
  | .dispatch slot => !(dispatchCands s w slot false).isEmpty || !(dispatchCands s w slot true).isEmpty || !(overDue s w slot).isEmpty

/-- Whether a trigger has arisen by now. -/
def risen (s : State) (t : Trigger × Nat) : Bool := decide (t.2 ≤ s.now)

/-- The waiting triggers in order, without the first ones that start nothing. -/
def dueTriggers (s : State) (w : BitVec 4) : List (Trigger × Nat) :=
  (sortBy triggerBefore ((worldOf s w).triggers.filter (risen s))).dropWhile (fun t => !triggerLive s w t.1)

/-- The triggers that arise later. -/
def laterTriggers (s : State) (w : BitVec 4) : List (Trigger × Nat) := (worldOf s w).triggers.filter (fun t => !risen s t)

/-- Take the first due trigger if no decision runs and it is the wanted one. -/
def takeTrigger (s : State) (w : BitVec 4) (want : Trigger → Bool) : Option (State × Trigger) :=
  let ww := worldOf s w
  match ww.decision, dueTriggers s w with
  | none, t :: l => if want t.1 then some (setWorld s w { ww with triggers := l ++ laterTriggers s w }, t.1) else none
  | _, _ => none

/-- A trigger whose turn has come and that finds no candidate starts nothing and is gone (R313, R334). -/
def dropIdle (s : State) (w : BitVec 4) : State :=
  let ww := worldOf s w
  if ww.decision.isSome || ww.triggers == [] then s else setWorld s w { ww with triggers := dueTriggers s w ++ laterTriggers s w }

/-! ### Snapshots (R329, R330) -/

/-- The queue view. -/
def queueView (s : State) (w : BitVec 4) (q : Nat) : List Nat :=
  let x := queueOf s w q
  [x.st, if x.everq then 1 else 0, (qWidx s w q + 2 ^ 32 - x.ridx) % 2 ^ 32, x.errs]

/-- The region view; empty for a region that is not valid. -/
def regionView (s : State) (w : BitVec 4) (r : Nat) : List Nat :=
  if regionValid s w r then (List.range 6).map (regionEff s w r) ++ [rParent s w r, (spiresUnder s w r none).eraseDups.length * cellsPerSpire] else []

/-- The world view. -/
def worldView (s : State) (w : BitVec 4) : List Nat :=
  let l := (worldOf s w).tasks
  [weightOf s w, (freeSpires s w false none).length, (l.filter (fun t => t.st != .queued)).length, (l.filter (fun t => t.st == .queued)).length]

/-- A decision starts: its program is that of its slot, from the cycle after its swap (R337); an empty slot is decided by the fallback at once. -/
def startDecision (s : State) (w : BitVec 4) (kind slot cause : Nat) (subject : Option Cand) (cands : List Cand) : State :=
  let ww := worldOf s w
  let p := mget {} ww.policies slot
  let prog := if p.from_ ≤ s.now then p.prog else p.old
  let d : Decision := { kind := kind, slot := slot, subject := subject, cands := cands, queues := (List.range 64).map (queueView s w), regions := (List.range 960).map (regionView s w), wviews := worldView s w, free := (freeSpires s w false none).length, start := s.now, prog := prog, pc := 0, count := 0, regs := [], invalid := false, outcome := none, cause := cause }
  if prog = [] then setWorld s w { ww with decision := some { d with outcome := some (fallbackOf d) } }
  else setWorld s w { ww with decision := some d, policies := mput {} ww.policies slot { p with runs := (p.runs + 1) % 65536 } }

/-! ### Dispatching a task (R313, R318) -/

/-- A task is dispatched: a device-built launch reads its record area first, once (R340), and fails where that is bad; none while
it waits for a memory level. -/
def dispatchTask (s : State) (w : BitVec 4) (t : Task) (place : State → Task → State) : Option State :=
  if t.recq && !t.saved && !t.read then
    match readTiles s w t with
    | .error r => if r.cause = .stall then none else some (failTask s w t r.cause)
    | .ok none => some (failTask s w t .illegalEncoding)
    | .ok (some l) => some (place s { t with tiles := l, read := true })
  else some (place s t)

/-- The quarantine task that a trigger dispatches: highest priority, then oldest (R310). -/
def quarPick (s : State) (w : BitVec 4) (slot : Nat) : Option Task :=
  bestOf (fun a b => decide (regionEff s w b.region 3 < regionEff s w a.region 3)) (dispatchCands s w slot true)

/-- Dispatch it, without a policy. -/
def dispatchQuar (s : State) (w : BitVec 4) (slot : Nat) : Option State :=
  match quarPick s w slot with
  | none => some s
  | some t => (dispatchTask s w t (fun st u => placeTask st w u true)).map (fun st => addDispatch st w slot)

/-! ### Starting decisions (R333) -/

/-- The queued tasks of a slot that can never be dispatched complete FAILED (R310, R312). -/
def failOver (s : State) (w : BitVec 4) (slot : Nat) : State :=
  (overDue s w slot).foldl (fun st t => match findTask st w t.id with
    | some u => if u.st == .queued then failTask st w u .illegalEncoding else st
    | none => st) s

/-- DISPATCH_DECISION. -/
def execDispatchDecision (w : BitVec 4) (slot : BitVec 6) (s : State) : Result :=
  match takeTrigger s w (fun t => t == .dispatch slot.toNat) with
  | none => .next s
  | some (s1, _) =>
    match dispatchQuar (failOver s1 w slot.toNat) w slot.toNat with
    | none => .next s
    | some s2 =>
      match dispatchCands s2 w slot.toNat false with
      | [] => .next s2
      | l => .next (startDecision s2 w 0 slot.toNat 0 none (l.map (fun t => candOf s2 w t 0)))

/-- PREEMPT_DECISION. -/
def execPreemptDecision (w : BitVec 4) (task : BitVec 32) (s : State) : Result :=
  match takeTrigger s w (fun t => t == .preempt task true || t == .preempt task false), findTask s w task with
  | some (s1, _), some t => .next (startDecision s1 w 1 (regionEff s1 w t.region 5) 0 (some (candOf s1 w t 0)) ((preemptCands s1 w t).map (fun u => candOf s1 w u 0)))
  | _, _ => .next s

/-- FAULT_DECISION. -/
def execFaultDecision (w : BitVec 4) (task : BitVec 32) (s : State) : Result :=
  match takeTrigger s w (fun t => match t with
      | .fault id _ => id == task
      | _ => false), findTask s w task with
  | some (s1, .fault _ c), some t => .next (startDecision s1 w 2 (regionEff s1 w t.region 5) c.code (some (candOf s1 w t c.code)) [])
  | _, _ => .next s

/-! ### Commit (R335) -/

/-- Whether a picked task is still a queued task that fits. -/
def stillFits (s : State) (w : BitVec 4) (t : Task) : Bool :=
  t.st == .queued && !inQuar s w t && decide (t.need ≤ (freeFor s w t false).length) && atFree s w t false [] && contextFree s w t none
    && budgetFits s w t none (chooseSpires s w t false)

/-- Another decision of a DISPATCH slot starts in the next cycle if candidates remain. -/
def followOn (s : State) (w : BitVec 4) (slot : Nat) : State :=
  if (dispatchCands s w slot false).isEmpty && (dispatchCands s w slot true).isEmpty then s else dispatchAt s w slot (s.now + 1)

/-- Another PREEMPT decision about a task starts in the next cycle if a candidate remains. -/
def preemptAgain (s : State) (w : BitVec 4) (t : Task) : State :=
  let ww := worldOf s w
  if hasPreempt s w t.id then setWorld s w { ww with triggers := ww.triggers ++ [(.preempt t.id true, s.now + 1)] } else s

/-- Another decision of the same kind starts in the next cycle where its trigger still holds (R335). -/
def again (s : State) (w : BitVec 4) (d : Decision) (subj : Option Task) : State :=
  match d.kind, subj with
  | 0, _ => followOn s w d.slot
  | 1, some t => preemptAgain s w t
  | _, _ => s

/-- The next PREEMPT decision about a task comes no sooner than another SLICE (R333). -/
def deferSlice (s : State) (w : BitVec 4) (t : Task) : State :=
  let s1 := putTask s w { t with sliceAt := s.now }
  let ww := worldOf s1 w
  setWorld s1 w { ww with triggers := ww.triggers.filter (fun y => y.1 != .preempt t.id true && y.1 != .preempt t.id false) }

/-- A candidate is dispatched onto the spires of a task that is to be cut: it holds the further spires that it needs and
waits for the cut. -/
def awaitCut (w : BitVec 4) (subj : Task) (s : State) (t : Task) : State :=
  let more := (spiresAfter s w subj t).filter (fun sp => !subj.spires.contains sp)
  consumePkt (putTask s w { t with st := .awaiting subj.id, spires := more, heldAt := s.now }) w t.queue t.idx

/-- A task is to be cut: at once where it runs, else once it is placed. -/
def markCut (t : Task) : Task := if t.st = .running then { t with st := .cutting, cuts := t.cuts + 1 } else { t with toCut := true, cuts := t.cuts + 1 }

/-- What a PREEMPT outcome does. -/
def commitPreempt (s : State) (w : BitVec 4) (d : Decision) (subj : Option Task) (c : Option Task) : Option State :=
  match subj, c with
  | some u, some t =>
    if holdsCells u && (preemptCands s w u).any (fun x => x.id == t.id) then
      (dispatchTask s w t (awaitCut w u)).map (fun st => match findTask st w t.id, findTask st w u.id with
        | some _, some v => putTask st w (markCut v)
        | _, _ => st)
    else some (again s w d subj)
  | _, _ => some (again s w d subj)

/-- What an outcome does to the current state; none while a dispatch waits for a memory level. -/
def commitOutcome (s : State) (w : BitVec 4) (d : Decision) (o : Choice) : Option State :=
  let subj := d.subject.bind (fun c => findTask s w c.task)
  match o with
  | .pick id =>
    (match findTask s w id with
      | some t => if stillFits s w t then (dispatchTask s w t (fun st u => placeTask st w u false)).map (fun st => followOn st w d.slot) else some (again s w d subj)
      | none => some (again s w d subj))
  | .preempt id => commitPreempt s w d subj (findTask s w id)
  | .defer =>
    (match d.kind, subj with
      | 1, some t => some (deferSlice s w t)
      | _, _ => some s)
  | .kill id =>
    (match findTask s w id with
      | some t => if t.st == .queued then some (let s1 := killTask s w t; if d.kind = 0 then followOn s1 w d.slot else s1) else some (again s w d subj)
      | none => some (again s w d subj))
  | .killSubject =>
    (match subj with
      | some t => if t.st == .queued then some s else if d.kind = 2 then some (failCode s w t d.cause) else some (killTask s w t)
      | none => some s)

/-- The cycle in which a decision commits: that of its start plus the bytecodes it executes (R335). -/
def Decision.due (d : Decision) : Nat := d.start + d.count

/-- DECISION_COMMIT (R335): in the cycle of its start plus the bytecodes it executed, as time does not pass that cycle before
(see `forced`). -/
def execDecisionCommit (w : BitVec 4) (s : State) : Result :=
  let ww := worldOf s w
  match ww.decision with
  | none => .next s
  | some d =>
    match d.outcome with
    | none => .next s
    | some o =>
      if s.now < d.due then .next s
      else match commitOutcome (setWorld s w { ww with decision := none }) w d o with
        | some s1 => .next s1
        | none => .next s

/-- Whether a decision that dispatches a task commits in this cycle: the dispatch goes before an ABORT (R314, R335). -/
def dispatchDue (s : State) (w : BitVec 4) (id : BitVec 32) : Bool :=
  match (worldOf s w).decision with
  | some d =>
    (match d.outcome with
      | some o => decide (d.due ≤ s.now) && (o == .pick id || o == .preempt id) && (commitOutcome (setWorld s w { worldOf s w with decision := none }) w d o).isSome
      | none => false)
  | none => false

/-! ### Time and decisions (R334–R336) -/

/-- The event that starts a world's first due decision. -/
def startDue (s : State) (w : BitVec 4) : Result :=
  match dueTriggers s w with
  | (.dispatch slot, _) :: _ => execDispatchDecision w (BitVec.ofNat 6 slot) s
  | (.preempt id _, _) :: _ => execPreemptDecision w id s
  | (.fault id _, _) :: _ => execFaultDecision w id s
  | [] => .next s

/-- What a world's scheduler does before another cycle passes: a due decision starts, one that runs executes the bytecode of
this cycle, ends at its budget, or commits.  None where there is nothing to do, or where it waits for a memory level. -/
def forced (s : State) (w : BitVec 4) : Option State :=
  let changed (r : Result) : Option State := match r with
    | .next t => if t = s then none else some t
    | _ => none
  match (worldOf s w).decision with
  | none => changed (startDue s w)
  | some d =>
    if s.now < d.due then none
    else match d.outcome with
      | some _ => changed (execDecisionCommit w s)
      | none =>
        if policyBudget ≤ d.count then changed (execPolicyBudgetExpiry w s)
        else if d.prog[d.pc]?.isSome then changed (.next { s with focus := .policy w }) else none

/-- Cycles that may pass before some decision executes or commits. -/
def slack (s : State) : Option Nat :=
  bestOf (fun a b => decide (a < b)) (worldIds.filterMap (fun w => (worldOf s w).decision.bind (fun d => if s.now < d.due then some (d.due - s.now) else none)))

/-- Some cycles pass, up to the next act of a decision; before them comes what decisions still do in this one. -/
def tick (s : State) (n : Nat) : State :=
  match worldIds.findSome? (forced s) with
  | some t => t
  | none => passTime (worldIds.foldl dropIdle s) (min n ((slack s).getD n))

end Sys2Proof.Machine
end

