-- ==== Sys2Proof/Machine/Links.lean ====
section
/-! DEFINITION. Bring-up and links (R404–R408), BAR 0's registers (R4, R363, R376, R378, R379, R394, R399, R406,
R409), power and cooling (R323, R409), management (R410), what other devices and the host do to memory (R237, R254,
R348), and cold reset (R5). -/

namespace Sys2Proof.Machine

/-! ### READY and FAIL (R407) -/

/-- A word with bit i set or clear. -/
def withBit (v : Word64) (i : Nat) (on : Bool) : Word64 :=
  BitVec.ofNat 64 (v.toNat - bits v.toNat i i * 2 ^ i + (if on then 2 ^ i else 0))

/-- Functions whose READY bit follows a link's state: HOST and FRAUTH. -/
def isLink (fn : Nat) : Bool := fn == 1 || decide (22 ≤ fn)

/-- The state of the link behind a bit. -/
def linkUp (s : State) (fn : Nat) : Bool := if fn = 1 then s.dev.link.isSome else (mget none s.dev.ports (fn - 22)).isSome

/-- HOST and FRAUTH show the links' state once SP is set. -/
def showLinks (s : State) : State :=
  let r := (1 :: (List.range 18).map (· + 22)).foldl (fun v fn => withBit v fn (linkUp s fn)) s.dev.ready
  if spReady s then { s with dev := { s.dev with ready := r } } else s

/-- A function's READY bit sets: waiting requests are taken, or spires may have become free. -/
def setReady (s : State) (fn : Nat) : State :=
  let s1 := { s with dev := { s.dev with ready := withBit s.dev.ready fn true } }
  if fn = 0 then takeMailbox (showLinks s1) else allCellsFree s1

/-- FUNCTION_READY (R407): SP comes first; a bit once set stays; the bits of links are set by their training. -/
def execFunctionReady (fn : Fin 40) (ok : Bool) (s : State) : Result :=
  let k := fn.val
  if s.dev.ready.getLsbD k || s.dev.fail.getLsbD k || (k != 0 && !spReady s) then .next s
  else if ok then .next (if isLink k then s else setReady s k)
  else .next { s with dev := { s.dev with fail := withBit s.dev.fail k true } }

/-- Host lines leave the Dome. -/
def dropHostLines (s : State) : State :=
  let host (line : Nat) : Bool := region (64 * line) == some .host
  { s with
    dome := s.dome.filter (fun e => !host e.1)
    monitors := s.monitors.map (fun m => if host m.granule then m.sees s.now .lost else m) }

/-- HOST_LINK_TRAIN (R404, R407): the HOST bit of FAIL clears. -/
def execHostLinkTrain (gen : PcieGen) (width : LinkWidth) (cxl : CxlLevel) (s : State) : Result :=
  let s1 := { s with dev := { s.dev with link := some (gen, width, cxl), lost := false, fail := withBit s.dev.fail 1 false } }
  .next (showLinks (if cxl = .none ∨ cxl = .noCache then dropHostLines s1 else s1))

/-- FRAUTH_PORT_TRAIN (R405, R407). -/
def execFrauthPortTrain (port : Fin 18) (rate : LaneRate) (s : State) : Result :=
  .next (showLinks { s with dev := { s.dev with ports := mput none s.dev.ports port.val (some rate), fail := withBit s.dev.fail (22 + port.val) false } })

/-- FRAUTH_PORT_DOWN (R406): accesses are performed in one step here, so no request is outstanding. -/
def execFrauthPortDown (port : Fin 18) (s : State) : Result :=
  .next (showLinks { s with dev := { s.dev with ports := mput none s.dev.ports port.val none } })

/-- FLIT_REPLAY (R405): the flit is sent again; nothing is lost or duplicated. -/
def execFlitReplay (_ : Fin 18) (s : State) : Result := .next s

/-! ### Registers of BAR 0 -/

/-- BADC i (R376): V, Y and X are written and ERRS stays. -/
def writeBadc (s : State) (i : Nat) (v : Word64) : State :=
  let old := mget 0 s.dev.badc i
  let new : Word64 := BitVec.ofNat 64 (bits v.toNat 31 31 * 2 ^ 31 + bits old.toNat 23 16 * 2 ^ 16 + bits v.toNat 13 0)
  let s1 := { s with dev := { s.dev with badc := mput 0 s.dev.badc i new } }
  cutBad (if old.getLsbD 31 && !new.getLsbD 31 then allCellsFree s1 else s1)

/-- A comparator's word 0 (R378). -/
def readBkpt (b : Bkpt) (v : Word64) : Bkpt :=
  let x := v.toNat
  { b with v := bits x 63 63 == 1, hit := b.hit && bits x 62 62 == 0, tagm := bits x 60 60 == 1, valm := bits x 59 59 == 1, w := bits x 55 52, port := bits x 51 48, node := bits x 47 44, y := bits x 43 37, x := bits x 36 30 }

/-- Word j of BKPT k (R378, R379). -/
def writeBkpt (s : State) (k j : Nat) (v : Word64) : State :=
  let b := mget {} s.dev.bkpts k
  let put (x : Bkpt) : State := { s with dev := { s.dev with bkpts := mput {} s.dev.bkpts k x } }
  match j with
  | 0 =>
    (let n := readBkpt b v
     if (n.v || v.getLsbD 61) && guarded s n then refuseDebug s
     else
       let s1 := if v.getLsbD 61 then stepBkpt k (put n) else put n
       if n.v then s1 else releaseAll k s1)
  | 1 => put { b with w1 := v }
  | 2 => put { b with w2 := v }
  | _ => put { b with vslot := bits v.toNat 3 0 }

/-- QSPIRE (R399): each 1 clears its bit. -/
def writeQspire (s : State) (v : Word64) : State := allCellsFree { s with dev := { s.dev with qspire := s.dev.qspire &&& ~~~v } }

/-- A bucket after some periods: it has filled at the effective rate, and changed settings apply from the start of the
second. -/
def refill (n : Nat) (b : Bucket) : Bucket :=
  if n = 0 then b
  else
    let b1 := { b with depth := b.newDepth, rate := b.newRate, level := min b.newDepth (min b.depth (b.level + bucketRate b)) }
    { b1 with level := min b1.depth (b1.level + (n - 1) * bucketRate b1) }

/-- The buckets as the periods that have passed leave them (R323). -/
def fillBuckets (s : State) : State :=
  let p := s.now / 1024
  { s with dev := { s.dev with period := p, buckets := (List.range 4).foldl (fun m d => mupd {} m d (refill (p - s.dev.period))) s.dev.buckets } }

/-- PWR d (R409): the settings of the next period; a DEPTH of 0 is ignored. -/
def writePwr (s0 : State) (d : Nat) (v : Word64) : State :=
  let s := fillBuckets s0
  let b := bucketOf s d
  let dep := bits v.toNat 47 32
  { s with dev := { s.dev with buckets := mput {} s.dev.buckets d { b with newDepth := (if dep = 0 then b.newDepth else dep), newRate := bits v.toNat 15 0 } } }

/-- DOMID (R406). -/
def writeDomid (s : State) (v : Word64) : State :=
  let n := bits v.toNat 8 0
  if bits s.dev.ready.toNat 39 22 ≠ 0 ∨ 383 < n then s else { s with dev := { s.dev with domid := n } }

/-- WQOS w (R363). -/
def writeWqos (s : State) (w : Nat) (v : Word64) : State :=
  let n := bits v.toNat 7 0
  if n = 0 then s else { s with dev := { s.dev with wqos := mput 16 s.dev.wqos w n } }

/-- SAVE w (R394). -/
def writeSave (s : State) (w j : Nat) (v : Word64) : State :=
  let r := mget (0, 0) s.dev.saves w
  let n : Word64 × Word64 := if j = 0 then (BitVec.ofNat 64 (keepBits v 51 12 + keepBits v 5 0), r.2) else (r.1, BitVec.ofNat 64 (bits v.toNat 15 0))
  { s with dev := { s.dev with saves := mput (0, 0) s.dev.saves w n } }

/-- ROUTE i (R406). -/
def writeRoute (s : State) (i : Nat) (v : Word64) : State :=
  { s with dev := { s.dev with routes := mput 0 s.dev.routes i (BitVec.ofNat 64 (keepBits v 63 63 + keepBits v 17 0)) } }

/-- A write of 8 bytes at an offset of BAR 0; READY, FAIL and THERM are RO. -/
def writeBar (s : State) (a : Nat) (v : Word64) : State :=
  let at_ (base n : Nat) : Bool := decide (base ≤ a) && decide (a < base + 8 * n)
  let i (base : Nat) : Nat := (a - base) / 8
  if a % 8 ≠ 0 then s
  else if a = 0x0008 then writeDomid s v
  else if at_ 0x0100 16 then writeWqos s (i 0x0100) v
  else if at_ 0x0200 32 then writeBadc s (i 0x0200) v
  else if at_ 0x0300 16 then putBreak (BitVec.ofNat 4 (i 0x0300)) (v.getLsbD 0) s
  else if at_ 0x0400 64 then writeBkpt s (i 0x0400 / 4) (i 0x0400 % 4) v
  else if at_ 0x0600 32 then writeSave s (i 0x0600 / 2) (i 0x0600 % 2) v
  else if a = 0x0700 then writeQspire s v
  else if at_ 0x0800 4 then writePwr s (i 0x0800) v
  else if at_ 0x1000 384 then writeRoute s (i 0x1000) v
  else s

/-- THERM (R409). -/
def thermWord (s : State) : Nat :=
  let dies := List.range 4
  (if dies.any (fun d => (bucketOf s d).limit.isSome) then 2 ^ 40 else 0)
    + (dies.foldl (fun a d => max a (mget 0 s.dev.dram d)) 0) * 2 ^ 32 + (dies.map (fun d => mget 0 s.dev.tj d * 2 ^ (8 * d))).foldl (· + ·) 0

/-- A comparator's word j as a read returns it: STEP reads as zero (R4, R378). -/
def bkptWord (b : Bkpt) (j : Nat) : Word64 :=
  let f (x : Bool) (k : Nat) : Nat := if x then 2 ^ k else 0
  match j with
  | 0 => BitVec.ofNat 64 (f b.v 63 + f b.hit 62 + f b.tagm 60 + f b.valm 59 + b.w % 16 * 2 ^ 52 + b.port % 16 * 2 ^ 48 + b.node % 16 * 2 ^ 44 + b.y % 128 * 2 ^ 37 + b.x % 128 * 2 ^ 30)
  | 1 => b.w1
  | 2 => b.w2
  | _ => BitVec.ofNat 64 (b.vslot % 16)

/-- A register of BAR 0 as a read returns it (R4). -/
def readBar (s : State) (a : Nat) : Word64 :=
  let i (base : Nat) : Nat := (a - base) / 8
  let at_ (base n : Nat) : Bool := decide (base ≤ a) && decide (a < base + 8 * n)
  let n (x : Nat) : Word64 := BitVec.ofNat 64 x
  if a % 8 ≠ 0 then 0
  else if a = 0x0000 then s.dev.ready
  else if a = 0x0008 then n s.dev.domid
  else if a = 0x0010 then s.dev.fail
  else if at_ 0x0100 16 then n (mget 16 s.dev.wqos (i 0x0100))
  else if at_ 0x0200 32 then mget 0 s.dev.badc (i 0x0200)
  else if at_ 0x0300 16 then n (if mget false s.dev.dbgw (i 0x0300) then 1 else 0)
  else if at_ 0x0400 64 then bkptWord (mget {} s.dev.bkpts (i 0x0400 / 4)) (i 0x0400 % 4)
  else if at_ 0x0600 32 then (let v := mget (0, 0) s.dev.saves (i 0x0600 / 2); if i 0x0600 % 2 = 0 then v.1 else v.2)
  else if a = 0x0700 then s.dev.qspire
  else if at_ 0x0800 4 then (let b := bucketOf s (i 0x0800); n (b.newDepth * 2 ^ 32 + b.newRate))
  else if a = 0x0840 then n (thermWord s)
  else if at_ 0x1000 384 then mget 0 s.dev.routes (i 0x1000)
  else 0

/-- REGISTER_WRITE (R4, R408): ignored before SP is set. -/
def execRegisterWrite (offset : BitVec 16) (v : Word64) (s : State) : Result := .next (if spReady s then writeBar s offset.toNat v else s)

/-- BADC_CLEAR (R376). -/
def execBadcClear (i : BitVec 5) (s : State) : Result :=
  .next (if spReady s then writeBadc s i.toNat (withBit (mget 0 s.dev.badc i.toNat) 31 false) else s)

/-- QSPIRE_CLEAR (R399). -/
def execQspireClear (mask : Word64) (s : State) : Result := .next (if spReady s then writeQspire s mask else s)

/-! ### Power, cooling and management (R323, R409, R410) -/

/-- POWER_PERIOD (R323): once in each period of 1,024 cycles. -/
def execPowerPeriod (s : State) : Result := .next (fillBuckets s)

/-- Whether a junction is within 5 °C of its maximum; that of the DRAM layers is their rating of 105 °C (R16). -/
def hot (s : State) : Bool :=
  (List.range 4).any (fun d => decide (Config.maxJunction d ≤ mget 0 s.dev.tj d + 5) || decide (105 ≤ mget 0 s.dev.dram d + 5))

/-- The thermal limit after a period: lower while a junction is hot, else higher until it is no limit (assumption 23). -/
def nextLimit (isHot : Bool) : Option Nat → Option Nat
  | none => if isHot then some (Config.thermalStep 65535 true) else none
  | some l =>
    if isHot then some (min (l - 1) (Config.thermalStep l true))
    else (let n := max (l + 1) (Config.thermalStep l false); if 65535 < n then none else some n)

/-- THERMAL_LIMIT (R409). -/
def execThermalLimit (die : BitVec 2) (s : State) : Result :=
  .next { s with dev := { s.dev with buckets := mupd {} s.dev.buckets die.toNat (fun b => { b with limit := nextLimit (hot s) b.limit }) } }

/-- TEMPERATURE_CHANGE (R409); the refresh rate is timing. -/
def execTemperatureChange (die : BitVec 2) (tj dram : BitVec 8) (s : State) : Result :=
  .next { s with dev := { s.dev with tj := mput 0 s.dev.tj die.toNat tj.toNat, dram := mput 0 s.dev.dram die.toNat dram.toNat } }

/-- PLDM_MONITOR (R410): THERM, READY and the power draw, which is a free value. -/
def execPldmMonitor (s : State) : Result :=
  let r := takeFree s
  .next (reply r.1 0 [thermWord s, s.dev.ready.toNat, r.2.toNat])

/-- PLDM_FIRMWARE_UPDATE (R410): it takes effect at the next cold reset. -/
def execPldmFirmwareUpdate (image : BitVec 384) (s : State) : Result := .next { s with dev := { s.dev with staged := some image } }

/-! ### Memory from outside (R237, R254, R348) -/

/-- HOST_WRITE_LIVE_WORD (R254): the write is performed, and the word is plain.  The host and its CXL peers write host
memory; no rule lets them write device memory, whose every access is checked against a world (R348). -/
def execHostWriteLiveWord (pa : BitVec 52) (v : Word64) (s : State) : Result :=
  let a := pa.toNat / 8 * 8
  .next (if typeAt s a = 0 ∨ region a ≠ some .host then s else setType (devPut s a 8 v.toNat) a 0)

/-- The Dome drops a line that a CXL snoop invalidates: its monitors see WRITE (R237, R257). -/
def snoopLine (s : State) (pa : Nat) : State :=
  { s with dome := mput none s.dome (pa / 64) none, monitors := wakeGranule s.monitors s.now (pa / 64) .write }

/-- CXL_SNOOP (R237). -/
def execCxlSnoop (pa : BitVec 52) (s : State) : Result := .next (if region pa.toNat = some .host then snoopLine s pa.toNat else s)

/-- The bytes that a remote request covers. -/
def remoteBytes (pa : Nat) : RemoteReq → List Nat
  | .read n => (List.range n).map (pa + ·)
  | .write l => (List.range l.length).map (pa + ·)
  | .atomic _ w64 _ _ => (List.range (if w64 then 8 else 4)).map (pa + ·)

/-- A remote request at its home: a store meets live words and an atomic a live word as one of this device's does
(R249, R254). -/
def performRemote (s : State) (pa : Nat) : RemoteReq → State
  | .read n => reply s 0 ((List.range n).map (fun i => (byteAt s.mem (pa + i)).toNat))
  | .write l =>
    (let cells := (enumFrom pa l).filter (fun c => typeAt s c.1 == 0)
     reply (devWrite s cells) (if cells.length = l.length then 0 else Cause.code .barrierStore) [])
  | .atomic op w64 b c =>
    (let n := if w64 then 8 else 4
     let t := typeAt s pa
     let old := readLE s.mem pa n
     if t = 1 ∨ (t = 2 ∧ op ≠ .or) then reply s (Cause.code .barrierStore) []
     else reply (devPut s pa n (atResult op (8 * n) old (b.toNat % 2 ^ (8 * n)) (c.toNat % 2 ^ (8 * n)))) 0 [old])

/-- Whether a request writes whole lines, whose MACs are not checked (R353). -/
def wholeLine (pa : Nat) : RemoteReq → Bool
  | .write l => pa % 64 == 0 && l.length % 64 == 0
  | _ => false

/-- FRAUTH_REQUEST (R348, R353, R406): checked against the granules of its world and the MACs of their lines; it waits for a level that is not up. -/
def execFrauthRequest (w : BitVec 4) (pa : BitVec 52) (r : RemoteReq) (s : State) : Result :=
  let a := canonPa s pa.toNat
  let l := remoteBytes a r
  if l.any (fun x => !isDevice x || !ownsPa s w x || !(wholeLine a r || remoteLineOk s w x)) then .next (reply s (Cause.code .permission) [])
  else match levelCheck s w a a with
    | some e => .next (if e.cause = .stall then s else reply s (Cause.code .permission) [])
    | none => .next (performRemote s a r)

/-! ### Cold reset (R5) -/

/-- COLD_RESET: every field takes its reset value, and staged firmware runs (R410); memory of the host and of other
devices, what has been sent, and what is still to come stay. -/
def execColdReset (s : State) : Result :=
  let outside (a : Nat) : Bool := match region a with
    | some .host => true
    | some (.remote _) => true
    | _ => false
  .next { State.reset with
    agenda := s.agenda, free := s.free, outputs := s.outputs, mem := s.mem.filter (fun c => outside c.1)
    dev := { State.reset.dev with firmware := s.dev.staged.or s.dev.firmware } }

end Sys2Proof.Machine
end

