-- ==== Sys2Proof/Machine/Logit.lean ====
section
/-! DEFINITION. The logit instruction set (R194, R195): each instruction acts on the registers, the mask flag
and the pc of the logit unit's program. -/

namespace Sys2Proof.Machine

/-- Register k of the logit unit. -/
def lreg (r : LogitRun) (k : BitVec 3) : Slot := mget 0 r.regs k.toNat

/-- Write a register and go on to the next instruction. -/
def lput (r : LogitRun) (d : BitVec 3) (v : Slot) : LogitRun := { r with regs := mput 0 r.regs d.toNat v, pc := r.pc + 1 }

/-- An instruction of the running program; nothing happens while the unit is free. -/
def logitOp (s : State) (f : LogitRun → LogitRun) : Result :=
  match s.logit with
  | none => .next s
  | some r => .next { s with logit := some (f r) }

/-- A register as a number, and a number as a register. -/
def lnum (x : Slot) : Num := f32 x.toNat
def lcode (c : Nat) : Slot := BitVec.ofNat 32 c

/-- D := Round of an exact result. -/
def logitRound (s : State) (d : BitVec 3) (f : LogitRun → Exact) : Result := logitOp s (fun r => lput r d (lcode (round32 (f r))))

def exactSum (l : List Num) : Exact := (sumNums false l).toExact

/-- Whether a register is neither +0 nor −0. -/
def lnonzero (x : Slot) : Bool := x.toNat % 2 ^ 31 != 0

/-- A comparison delivers 1.0 or +0. -/
def logitCmp (s : State) (d a b : BitVec 3) (f : Option Ordering → Bool) : Result :=
  logitOp s (fun r => lput r d (if f ((lnum (lreg r a)).cmp (lnum (lreg r b))) then 0x3F800000 else 0))

/-- END (R190, R195): the result joins the stream, and the unit takes the next id. -/
def execLgEnd (s : State) : Result :=
  match s.logit with
  | none => .next s
  | some r =>
    match findStream s r.spire r.colour r.iter with
    | none => .next { s with logit := none }
    | some l => .next (nextId s (takeY l (lreg r 0).toNat r.cur r.mask) r.ids)

/-- ADD. -/
def execLgAdd (d a b : BitVec 3) (s : State) : Result := logitRound s d (fun r => exactSum [lnum (lreg r a), lnum (lreg r b)])

/-- SUB. -/
def execLgSub (d a b : BitVec 3) (s : State) : Result := logitRound s d (fun r => exactSum [lnum (lreg r a), (lnum (lreg r b)).neg])

/-- MUL. -/
def execLgMul (d a b : BitVec 3) (s : State) : Result := logitRound s d (fun r => ((lnum (lreg r a)).mul (lnum (lreg r b))).toExact)

/-- FMA. -/
def execLgFma (d a b c : BitVec 3) (s : State) : Result :=
  logitRound s d (fun r => exactSum [(lnum (lreg r a)).mul (lnum (lreg r b)), lnum (lreg r c)])

/-- ADDI. -/
def execLgAddi (d a : BitVec 3) (imm : Slot) (s : State) : Result := logitRound s d (fun r => exactSum [lnum (lreg r a), lnum imm])

/-- MULI. -/
def execLgMuli (d a : BitVec 3) (imm : Slot) (s : State) : Result := logitRound s d (fun r => ((lnum (lreg r a)).mul (lnum imm)).toExact)

/-- MOVI. -/
def execLgMovi (d : BitVec 3) (imm : Slot) (s : State) : Result := logitOp s (fun r => lput r d imm)

/-- MOV. -/
def execLgMov (d a : BitVec 3) (s : State) : Result := logitOp s (fun r => lput r d (lreg r a))

/-- MAX (R146). -/
def execLgMax (d a b : BitVec 3) (s : State) : Result :=
  logitOp s (fun r => lput r d (lcode (pickCode fp32 true (lreg r a).toNat (lreg r b).toNat)))

/-- MIN (R146). -/
def execLgMin (d a b : BitVec 3) (s : State) : Result :=
  logitOp s (fun r => lput r d (lcode (pickCode fp32 false (lreg r a).toNat (lreg r b).toNat)))

/-- NEG. -/
def execLgNeg (d a : BitVec 3) (s : State) : Result := logitOp s (fun r => lput r d (lcode (fnegCode fp32 (lreg r a).toNat)))

/-- ABS. -/
def execLgAbs (d a : BitVec 3) (s : State) : Result := logitOp s (fun r => lput r d (lcode (fabsCode fp32 (lreg r a).toNat)))

/-- RCP (R149). -/
def execLgRcp (d a : BitVec 3) (s : State) : Result := logitRound s d (fun r => rcpNum (lnum (lreg r a)))

/-- EXP2 (R149). -/
def execLgExp2 (d a : BitVec 3) (s : State) : Result := logitRound s d (fun r => exp2Num (lnum (lreg r a)))

/-- LOG2 (R149). -/
def execLgLog2 (d a : BitVec 3) (s : State) : Result := logitRound s d (fun r => log2Num (lnum (lreg r a)))

/-- CMPLT. -/
def execLgCmplt (d a b : BitVec 3) (s : State) : Result := logitCmp s d a b (fun o => o == some .lt)

/-- CMPLE. -/
def execLgCmple (d a b : BitVec 3) (s : State) : Result := logitCmp s d a b (fun o => o == some .lt || o == some .eq)

/-- CMPEQ. -/
def execLgCmpeq (d a b : BitVec 3) (s : State) : Result := logitCmp s d a b (fun o => o == some .eq)

/-- SEL: a when c is neither zero, NaN included. -/
def execLgSel (d a b c : BitVec 3) (s : State) : Result :=
  logitOp s (fun r => lput r d (if lnonzero (lreg r c) then lreg r a else lreg r b))

/-- MASK: several combine as an OR. -/
def execLgMask (a : BitVec 3) (s : State) : Result :=
  logitOp s (fun r => { r with mask := r.mask || lnonzero (lreg r a), pc := r.pc + 1 })

end Sys2Proof.Machine
end

