-- ==== Sys2Proof/Machine/Scheduler.lean ====
section
/-! DEFINITION. Command queues: starting packets (R304–R309), LAUNCH, WAIT, SIGNAL, POLICY-SWAP and ABORT (R307,
R314), the queue states (R305), slices (R310, R313), and the spire event queue (R319). -/

namespace Sys2Proof.Machine

/-! ### The next packet (R304, R306, R358) -/

/-- Word i of packet `idx` of a queue's ring. -/
def pktWord (s : State) (w : BitVec 4) (q idx i : Nat) : Nat := ownWord s w (qRing s w q + 64 * (idx % 2 ^ qLog s w q) + 8 * i)

/-- Fields of word 0. -/
def pktType (d : Nat → Nat) : Nat := bits (d 0) 7 0
def pktBar (d : Nat → Nat) : Bool := bits (d 0) 8 8 == 1
def pktCmpl (d : Nat → Nat) : Bool := bits (d 0) 9 9 == 1
def pktTask (d : Nat → Nat) : BitVec 32 := BitVec.ofNat 32 (bits (d 0) 63 32)

/-- CMPLA, where a completion record is wanted. -/
def pktCmpla (d : Nat → Nat) : Option Nat := if pktCmpl d then some (bits (d 7) 51 4 * 16) else none

/-- Whether a queue may start packets: RUN or QUAR, and the TDI of a protected world in RUN. -/
def queueRuns (s : State) (w : BitVec 4) (q : Nat) : Bool :=
  let st := (queueOf s w q).st
  (st == 1 || st == 3) && attached s w

/-- The packet that a queue would start next, once the order of R306 allows. -/
def nextPkt (s : State) (w : BitVec 4) (q : Nat) : Option (Nat × (Nat → Nat)) :=
  let x := queueOf s w q
  let d := pktWord s w q x.started
  if !queueRuns s w q || x.started == qWidx s w q || x.pkts.any (fun p => p.ty == 2 && !p.done) then none
  else if (pktBar d || pktType d == 3) && x.pkts.any (fun p => !p.done) then none
  else some (x.started, d)

/-! ### What a packet must satisfy (R306, R307, R309) -/

/-- Reserved fields of words 1–6, and values that a field leaves unassigned. -/
def fieldsOk (d : Nat → Nat) : Bool :=
  let z (l : List Nat) : Bool := l.all (fun i => d i == 0)
  match pktType d with
  | 1 =>
    bits (d 1) 63 52 == 0 && bits (d 1) 5 0 == 0 && bits (d 2) 15 10 == 0 && bits (d 2) 31 25 == 0 && bits (d 2) 63 40 == 0
      && (bits (d 2) 24 24 == 0 || (bits (d 2) 39 32 == 0 && bits (d 4) 63 16 == 0 && bits (d 4) 15 0 != 0 && z [5, 6]))
  | 2 =>
    d 1 % 8 == 0 && decide (bits (d 2) 1 0 < 3) && bits (d 2) 7 2 == 0 && bits (d 2) 15 11 == 0 && decide (bits (d 2) 10 8 < 6)
      && bits (d 2) 63 24 == 0 && (bits (d 2) 1 0 != 0 || bits (d 3) 63 32 == 0) && bits (d 4) 63 32 == 0 && z [5, 6]
  | 3 =>
    d 1 % 8 == 0 && decide (bits (d 2) 1 0 < 3) && bits (d 2) 7 2 == 0 && bits (d 2) 15 11 == 0 && decide (bits (d 2) 10 8 < 6)
      && bits (d 2) 63 25 == 0 && z [4, 5, 6]
  | 4 => bits (d 1) 63 52 == 0 && bits (d 1) 5 0 == 0 && bits (d 2) 63 6 == 0 && z [3, 4, 5, 6]
  | 5 => decide (bits (d 1) 1 0 < 3) && bits (d 1) 31 2 == 0 && bits (d 2) 15 0 == 0 && bits (d 2) 63 32 == 0 && z [3, 4, 5, 6]
  | _ => false

/-- The region that a LAUNCH names. -/
def launchRegion (s : State) (w : BitVec 4) (q : Nat) (d : Nat → Nat) : Nat :=
  let r := bits (d 2) 9 0
  if r = 0x3FF then qRegion s w q else r

/-- Bytes of a configuration image. -/
def imageBytes (i : Image) : Nat := 64 * (i.sections.map (fun l => l.length)).foldl (· + ·) 0

/-- The fault that keeps a packet from starting: QUEUE_ERROR before CAPABILITY. -/
def pktFault (s : State) (w : BitVec 4) (q : Nat) (d : Nat → Nat) (img : Option Image) : Option Cause :=
  let ty := pktType d
  let cm := bits (d 7) 51 4 * 16
  if bits (d 0) 31 10 ≠ 0 ∨ bits (d 7) 63 52 ≠ 0 ∨ bits (d 7) 3 0 ≠ 0 ∨ fieldsOk d = false ∨ (pktCmpl d = true ∧ cm = 0) then some .queueError
  else if ty = 1 ∧ (pktTask d = 0 ∨ (findTask s w (pktTask d)).isSome = true ∨ regionValid s w (launchRegion s w q d) = false) then some .queueError
  else if (pktCmpl d && !inCapability s w cm 16) || !inCapability s w (qErrrec s w q) 64 then some .capability
  else if ty = 1 && !inCapability s w (bits (d 1) 51 6 * 64) (max 64 ((img.map imageBytes).getD 64)) then some .capability
  else if ty = 4 && bits (d 1) 51 6 != 0 && !inCapability s w (bits (d 1) 51 6 * 64) 64 then some .capability
  else none

/-- A queue enters ERROR at the packet that it was about to start (R309). -/
def queueFail (s : State) (w : BitVec 4) (q : Nat) (c : Cause) (d : Nat → Nat) : State :=
  let s1 := updQueue s w q (fun x => { x with st := 2, errs := min (x.errs + 1) 255 })
  let a := qErrrec s1 w q
  let head := c.code + q * 2 ^ 8 + (queueOf s1 w q).started % 2 ^ 32 * 2 ^ 32
  let s2 := if inCapability s1 w a 64 then (enumFrom 0 ([head, d 0, d 1, d 2, d 3, 0, 0, 0])).foldl (fun st e => ownPut st w (a + 8 * e.1) 8 e.2) s1 else s1
  sendVec s2 w (queueVec s2 w q)

/-- A packet starts. -/
def startPkt (s : State) (w : BitVec 4) (q : Nat) (d : Nat → Nat) : State :=
  updQueue s w q (fun x => settleQueue { x with started := (x.started + 1) % 2 ^ 32, pkts := x.pkts ++ [{ idx := x.started, ty := pktType d, task := pktTask d, cmpla := pktCmpla d, done := false, consumed := false, since := s.now }] })

/-- Start the next packet if it has the wanted type: `take` says which packets an event takes. -/
def runPkt (s : State) (w : BitVec 4) (q : Nat) (img : Option Image) (take : (Nat → Nat) → Bool) (body : State → Nat → (Nat → Nat) → State) : Result :=
  match nextPkt s w q with
  | none => .next s
  | some (idx, d) =>
    if !take d then .next s
    else match pktFault s w q d img with
      | some c => .next (queueFail s w q c d)
      | none => .next (body (startPkt s w q d) idx d)

/-! ### LAUNCH (R307, R310, R312, R313) -/

/-- The ARG slots of a LAUNCH. -/
def launchArgs (d : Nat → Nat) : List Nat := (List.range 8).map (fun k => d (3 + k / 2) / 2 ^ (32 * (k % 2)) % 2 ^ 32)

/-- The task of a LAUNCH packet. -/
def taskOf (s : State) (w : BitVec 4) (q idx : Nat) (d : Nat → Nat) (img : Image) : Task :=
  let recq := bits (d 2) 24 24 == 1
  { id := pktTask d, queue := q, idx := idx, region := launchRegion s w q d, colour := BitVec.ofNat 8 (bits (d 2) 23 16), img := img, recq := recq, argv := bits (d 2) 39 32, args := if recq then [] else launchArgs d, rva := d 3, maxrec := bits (d 4) 15 0, cmpla := pktCmpla d, quar := false, st := .queued, since := s.now, heldAt := s.now, sliceAt := s.now, cuts := 0, spires := [], pos := [], tiles := [], sent := 0, saved := false }

/-- LAUNCH (R307, R313); it also takes a packet of an unassigned TYPE, which faults. -/
def execLaunch (w : BitVec 4) (q : BitVec 6) (img : Image) (s : State) : Result :=
  runPkt s w q.toNat (some img) (fun d => pktType d == 1 || !(decide (1 ≤ pktType d) && decide (pktType d ≤ 5))) (fun s1 idx d =>
    let t := taskOf s1 w q.toNat idx d img
    let ww := worldOf s1 w
    let s2 := setWorld s1 w { ww with tasks := ww.tasks ++ [t] }
    if overNeed s2 w t then failTask s2 w t .illegalEncoding
    else addDispatch s2 w (regionEff s2 w t.region 5))

/-! ### Words of WAIT and SIGNAL -/

/-- The physical address and the value of the word at a virtual address for a device agent of a colour. -/
def devWord (s : State) (w : BitVec 4) (c : Colour) (va : Nat) (rd wr : Bool) : Except Report (Nat × Nat) :=
  match access s none w c va 8 rd wr with
  | .error r => .error r
  | .ok pa => .ok (pa, readLE s.mem pa 8)

/-- The operation of a SIGNAL: a 64-bit STREL of a plain word, BARR of a barrier word, ATOR of a bitmap word. -/
def signalOp (s : State) (w : BitVec 4) (c : Colour) (va op value : Nat) : Except Report State :=
  match devWord s w c va true true with
  | .error r => .error r
  | .ok (pa, old) =>
    if typeAt s pa ≠ op then .error { cause := .permission, detail := 6, addr := va }
    else
      let new := if op = 0 then value else if op = 1 then (arriveWord old).1 else old ||| value
      .ok (performWrite s { bytes := cellsOf pa 8 new, via := some { w := w, colour := c, va := va } })

/-! ### WAIT (R307) -/

/-- Whether a WAIT's test succeeds now. -/
def waitTest (s : State) (w : BitVec 4) (d : Nat → Nat) : Except Report Bool :=
  let cond := bits (d 2) 1 0
  if cond = 2 then .ok (!((worldOf s w).tasks.any (fun t => t.id.toNat == d 3)))
  else match devWord s w (BitVec.ofNat 8 (bits (d 2) 23 16)) (d 1) true false with
    | .error r => .error r
    | .ok (pa, v) =>
      if typeAt s pa ≠ cond + 1 then .error { cause := .permission, detail := 6, addr := d 1 }
      else .ok (if cond = 0 then barGen v != d 3 else v &&& d 3 == d 3)

/-- The WAIT packet of a queue that has started and waits. -/
def openWait (s : State) (w : BitVec 4) (q : Nat) : Option Pkt := (queueOf s w q).pkts.find? (fun p => p.ty == 2 && !p.done)

/-- The test of a started WAIT: satisfied, it is consumed and completes; a word that faults stops the queue there. -/
def testWait (s : State) (w : BitVec 4) (q : Nat) : State :=
  match openWait s w q with
  | none => s
  | some p =>
    let d := pktWord s w q p.idx
    match waitTest s w d with
    | .ok true => completePkt s w q p.idx 0 0 p.task 0
    | .ok false => s
    | .error r =>
      if r.cause = .stall then s
      else queueFail (updQueue s w q (fun x => settleQueue { x with started := p.idx, pkts := x.pkts.filter (fun y => y.idx != p.idx) })) w q r.cause d

/-- WAIT (R307): the packet starts if it has not, and tests its word or task. -/
def execWait (w : BitVec 4) (q : BitVec 6) (s : State) : Result :=
  match openWait s w q.toNat with
  | some _ => .next (testWait s w q.toNat)
  | none => runPkt s w q.toNat none (fun d => pktType d == 2) (fun s1 _ _ => testWait s1 w q.toNat)

/-- WAIT_PACKET_TIMEOUT (R307, R308): no sooner than TMO after the packet started. -/
def execWaitPacketTimeout (w : BitVec 4) (q : BitVec 6) (s : State) : Result :=
  match openWait s w q.toNat with
  | none => .next s
  | some p =>
    let tmo := bits (pktWord s w q.toNat p.idx 4) 31 0
    if tmo = 0 ∨ s.now < p.since + 1024 * tmo then .next s
    else .next (completePkt s w q.toNat p.idx 6 0 p.task 0)

/-! ### SIGNAL (R307) -/

/-- SIGNAL (R307): every earlier task of its queue has completed, so its writes are performed already; it waits for a
memory level that is not ready. -/
def execSignal (w : BitVec 4) (q : BitVec 6) (s : State) : Result :=
  match nextPkt s w q.toNat with
  | none => .next s
  | some (_, d0) =>
    let run (st : State) : Except Report State := signalOp st w (BitVec.ofNat 8 (bits (d0 2) 23 16)) (d0 1) (bits (d0 2) 1 0) (d0 3)
    match pktFault s w q.toNat d0 none, run s with
    | none, .error r =>
      if pktType d0 ≠ 3 ∨ r.cause = .stall then .next s else .next (queueFail s w q.toNat r.cause d0)
    | _, _ =>
      runPkt s w q.toNat none (fun d => pktType d == 3) (fun s1 idx d =>
        match run s1 with
        | .ok s2 =>
          let s3 := completePkt s2 w q.toNat idx 0 0 (pktTask d) 0
          if bits (d 2) 24 24 = 1 then sendVec s3 w (queueVec s3 w q.toNat) else s3
        | .error _ => s1)

/-! ### POLICY-SWAP (R307, R324, R326, R337) -/

/-- POLICY_SWAP: the slot takes the program of a checked image, or none where POLICY is 0, from the next cycle (R337); its counters clear. -/
def execPolicySwap (w : BitVec 4) (q : BitVec 6) (s : State) : Result :=
  match nextPkt s w q.toNat with
  | none => .next s
  | some (_, d0) =>
    if pktType d0 ≠ 4 then .next s
    else
      let pa := bits (d0 1) 51 6 * 64
      let prog := if pa = 0 then some [] else if reaches s w pa then readPolicy s w pa else none
      match pktFault s w q.toNat d0 none, prog with
      | some c, _ => .next (queueFail s w q.toNat c d0)
      | none, none => .next (queueFail s w q.toNat (if inCapability s w pa (64 + 4 * min 256 (bits (word8 s.mem pa 0) 8 0)) then .illegalEncoding else .capability) d0)
      | none, some l =>
        runPkt s w q.toNat none (fun _ => true) (fun s1 idx d =>
          let ww := worldOf s1 w
          let p := mget {} ww.policies (bits (d 2) 5 0)
          let x : PolSlot := { prog := l, old := if p.from_ ≤ s1.now then p.prog else p.old, from_ := s1.now + 1 }
          completePkt (setWorld s1 w { ww with policies := mput {} ww.policies (bits (d 2) 5 0) x }) w q.toNat idx 0 0 (pktTask d) 0)

/-! ### ABORT (R314) -/

/-- The MODE of an ABORT, and its TARGET. -/
def abortMode (d : Nat → Nat) : Nat := bits (d 1) 1 0
def abortTarget (d : Nat → Nat) : BitVec 32 := BitVec.ofNat 32 (bits (d 1) 63 32)

/-- An ABORT of a task: its own status, and what becomes of the task. -/
def abortTask (s : State) (w : BitVec 4) (q idx : Nat) (d : Nat → Nat) (kill : Bool) : State :=
  match findTask s w (abortTarget d) with
  | none => completePkt s w q idx 4 0 (pktTask d) 0
  | some t =>
    if t.st = .queued then completePkt (stopTask s w t 2 0) w q idx 2 0 (pktTask d) 0
    else if kill then completePkt (killTask s w t) w q idx 5 0 (pktTask d) 0
    else completePkt s w q idx 3 0 (pktTask d) 0

/-- Whether an ABORT lets a dispatch of its target go first, which commits in this cycle. -/
def abortWaits (s : State) (w : BitVec 4) (q : Nat) : Bool :=
  match nextPkt s w q with
  | some (_, d) => pktType d == 5 && dispatchDue s w (abortTarget d)
  | none => false

/-- ABORT CANCEL (R314); it also takes an ABORT of an unassigned MODE, which faults. -/
def execAbortCancel (w : BitVec 4) (q : BitVec 6) (s : State) : Result :=
  if abortWaits s w q.toNat then .next s
  else runPkt s w q.toNat none (fun d => pktType d == 5 && (abortMode d == 0 || abortMode d == 3)) (fun s1 idx d => abortTask s1 w q.toNat idx d false)

/-- ABORT KILL (R314). -/
def execAbortKill (w : BitVec 4) (q : BitVec 6) (s : State) : Result :=
  if abortWaits s w q.toNat then .next s
  else runPkt s w q.toNat none (fun d => pktType d == 5 && abortMode d == 1) (fun s1 idx d => abortTask s1 w q.toNat idx d true)

/-- PURGE_RESET (R292): once no instance of the colour completes a commit, what it left is dropped too, the
credits are full, the timers stopped, and the freeze lifts; a PURGE gets its counts, and an ABORT completes DONE (R314). -/
def execPurgeReset (x : CtxId) (s : State) : Result :=
  match (ctxOf s x.w x.x).purging with
  | none => .next s
  | some (c, by_, toks, ins, tags) =>
    if s.insts.any (fun b => ofColour x.w x.x c b.node b.tag) then .next s
    else
      let r := dropColour s x.w x.x c
      let total := (toks + r.2.1, ins + r.2.2.1, tags + r.2.2.2)
      let s1 := setCtx r.1 x.w x.x { ctxOf r.1 x.w x.x with purging := none }
      let s2 := match by_ with
        | .inst cell seq => { s1 with insts := updFirst (fun b => b.isAt cell seq) (fun b => { b with purged := some total }) s1.insts }
        | .packet q idx task => completePkt s1 x.w q idx 0 0 task 0
      .next (nextPurge s2 x.w x.x)

/-- ABORT PURGE (R293, R314): the purge takes its turn among those of the context; a context that is not resident holds
nothing. -/
def execAbortPurge (w : BitVec 4) (q : BitVec 6) (s : State) : Result :=
  runPkt s w q.toNat none (fun d => pktType d == 5 && abortMode d == 2) (fun s1 idx d =>
    let x : Context := BitVec.ofNat 8 (bits (d 2) 31 24)
    if (ctxOf s1 w x).resident then askPurge s1 w x (BitVec.ofNat 8 (bits (d 2) 23 16)) (.packet q.toNat idx (pktTask d))
    else completePkt s1 w q.toNat idx 0 0 (pktTask d) 0)

/-! ### Queue states (R305, R408) -/

/-- QUEUE_START: STOPPED to RUN, or to ERROR where the descriptor breaks R304; ignored until the command processors
of its die run (R408). -/
def execQueueStart (w : BitVec 4) (q : BitVec 6) (s : State) : Result :=
  if (queueOf s w q.toNat).st ≠ 0 ∨ s.dev.ready.getLsbD (2 + (Config.queueDie w q.toNat).val) = false then .next s
  else
    let s1 := setQueue s w q.toNat { queueOf s w q.toNat with everq := false, errs := 0 }
    if qdescOk s w q.toNat then .next (cellsFree (updQueue s1 w q.toNat (fun x => { x with st := 1, quar := false })) w)
    else .next (queueFail s1 w q.toNat .queueError (fun _ => 0))

/-- QUEUE_STOP: RUN or QUAR to STOPPED. -/
def execQueueStop (w : BitVec 4) (q : BitVec 6) (s : State) : Result :=
  let st := (queueOf s w q.toNat).st
  if st = 1 ∨ st = 3 then .next (updQueue s w q.toNat (fun x => { x with st := 0 })) else .next s

/-- Queued tasks of a queue that enters quarantine and need more than one spire complete FAILED (R310). -/
def failWide (s : State) (w : BitVec 4) (q : Nat) : State :=
  ((worldOf s w).tasks.filter (fun t => t.queue == q && t.st == .queued && decide (1 < t.need))).foldl (fun st t =>
    match findTask st w t.id with
    | some u => failTask st w u .illegalEncoding
    | none => st) s

/-- QUEUE_RESUME: ERROR to QUAR or STOPPED. -/
def execQueueResume (w : BitVec 4) (q : BitVec 6) (quar : Bool) (s : State) : Result :=
  if (queueOf s w q.toNat).st ≠ 2 then .next s
  else if quar then .next (cellsFree (failWide (updQueue s w q.toNat (fun x => { x with st := 3, everq := true, quar := true })) w q.toNat) w)
  else .next (updQueue s w q.toNat (fun x => { x with st := 0 }))

/-- QUEUE_CLEAR_QUAR: QUAR to RUN. -/
def execQueueClearQuar (w : BitVec 4) (q : BitVec 6) (s : State) : Result :=
  if (queueOf s w q.toNat).st ≠ 3 then .next s
  else .next (cellsFree (updQueue s w q.toNat (fun x => { x with st := 1, quar := false })) w)

/-- RIDX_WRITE: taken only in ERROR; packets before the written index are skipped. -/
def execRidxWrite (w : BitVec 4) (q : BitVec 6) (v : BitVec 32) (s : State) : Result :=
  if (queueOf s w q.toNat).st ≠ 2 then .next s
  else .next (updQueue s w q.toNat (fun x => { x with ridx := v.toNat, started := v.toNat, pkts := (x.pkts.map (fun p => { p with consumed := true })).filter (fun p => !p.done) }))

/-! ### Slices (R310, R313) -/

/-- SLICE_EXPIRY (R313): a dispatched task has held its cells for its SLICE while a candidate waits. -/
def execSliceExpiry (w : BitVec 4) (task : BitVec 32) (s : State) : Result :=
  match findTask s w task with
  | none => .next s
  | some t =>
    let sl := regionEff s w t.region 2
    if holdsCells t = false ∨ t.quar = true ∨ sl = 0 ∨ s.now < t.sliceAt + 1024 * sl ∨ hasPreempt s w task = false
        ∨ (worldOf s w).triggers.any (fun x => x.1 == .preempt task false) = true then .next s
    else .next (addTrigger s w (.preempt task false))

/-- The slice of a quarantine task in cycles (R310). -/
def quarSlice (sl : Nat) : Nat := 1024 * (if sl = 0 then 256 else min sl 256)

/-- QUARANTINE_SLICE_EXPIRY (R310): the task is killed. -/
def execQuarantineSliceExpiry (w : BitVec 4) (task : BitVec 32) (s : State) : Result :=
  match findTask s w task with
  | none => .next s
  | some t =>
    if t.quar = false ∨ holdsCells t = false ∨ s.now < t.heldAt + quarSlice (regionEff s w t.region 2) then .next s
    else .next (killTask s w t)

/-! ### The spire event queue (R275, R319) -/

/-- The eight words of an event record. -/
def evWords (e : EvRec) : List Nat :=
  let slot (k : Nat) : Nat := ((slotOf e.val k).map (fun v => v.toNat)).getD 0
  [e.w.toNat + e.src * 2 ^ 4 + e.tag.colour.toNat * 2 ^ 8 + e.tag.context.toNat * 2 ^ 16 + e.tag.iter.toNat * 2 ^ 24 + e.code % 8192 * 2 ^ 40, e.val.valid.toNat % 4096]
    ++ (List.range 6).map (fun i => slot (2 * i) + slot (2 * i + 1) * 2 ^ 32)

/-- Word i of entry k of a world's event table. -/
def evEntry (s : State) (w : BitVec 4) (k i : Nat) : Nat := ownWord s w (base12 (worldOf s w).evtab + 32 * k + 8 * i)

/-- The reserved fields of an event table entry, by its action. -/
def evReserved (d : Nat → Nat) : Bool :=
  bits (d 0) 63 43 == 0
    && (match bits (d 0) 2 1 with
      | 1 => bits (d 1) 63 52 == 0 && bits (d 1) 11 4 == 0 && decide (1 ≤ bits (d 1) 3 0) && bits (d 2) 63 16 == 0
      | 2 => d 1 % 8 == 0 && decide (bits (d 2) 1 0 < 3) && bits (d 2) 7 2 == 0 && bits (d 2) 63 11 == 0 && decide (bits (d 2) 10 8 < 6)
      | 3 => false
      | _ => true)

/-- Whether a record matches an entry. -/
def evMatches (d : Nat → Nat) (e : EvRec) : Bool :=
  bits (d 0) 0 0 == 1 && evReserved d && (bits (d 0) 3 3 == 1 || bits (d 0) 7 4 == e.src)
    && decide (bits (d 0) 20 8 ≤ e.code) && decide (e.code ≤ bits (d 0) 33 21) && (bits (d 0) 34 34 == 1 || bits (d 0) 42 35 == e.tag.colour.toNat)

/-- The entry that takes a record. -/
def evAction (s : State) (e : EvRec) : Option (Nat → Nat) :=
  let ww := worldOf s e.w
  if base12 ww.evtab = 0 ∨ reaches s e.w (base12 ww.evtab) = false then none
  else ((List.range 64).find? (fun k => evMatches (evEntry s e.w k) e)).map (fun k => evEntry s e.w k)

/-- The fault of an event action: one record in the fault log. -/
def evFault (s : State) (e : EvRec) (r : Report) : State :=
  logOnly s { ctx := { w := e.w, x := e.tag.context }, colour := e.tag.colour, iter := e.tag.iter, cell := spireCell e.spire 0 0, node := 0, blk := 0, slot := 0, nest := false, source := 3, gen := 0 } r

/-- RING: none while the ring is full. -/
def ringEvent (s : State) (e : EvRec) (d : Nat → Nat) : Option State :=
  let base := bits (d 1) 51 12 * 2 ^ 12
  let n := 2 ^ bits (d 1) 3 0
  if !inCapability s e.w base (64 + 64 * n) || !isDevice base then some (evFault s e (failAt .permission base))
  else
    let widx := word8 s.mem base 0
    if (widx + 2 ^ 64 - word8 s.mem base 1) % 2 ^ 64 = n then none
    else
      let s1 := (enumFrom 0 (evWords e)).foldl (fun st x => devPut st (base + 64 + 64 * (widx % n) + 8 * x.1) 8 x.2) s
      some (sendVec (devPut s1 base 8 ((widx + 1) % 2 ^ 64)) e.w (bits (d 2) 15 0))

/-- EVENT_RECORD (R319): the core acts on the oldest record of its spire and frees it. -/
def execEventRecord (spire : Nat) (s : State) : Result :=
  match s.evqs.find? (fun e => e.spire == spire) with
  | none => .next s
  | some e =>
    let freed : State := { s with evqs := delFirst (fun x => x.spire == spire) s.evqs }
    match evAction s e with
    | none => .next freed
    | some d =>
      match bits (d 0) 2 1 with
      | 1 => (match ringEvent freed e d with
        | some s1 => .next s1
        | none => .next s)
      | 2 => (match signalOp freed e.w e.tag.colour (d 1) (bits (d 2) 1 0) (d 3) with
        | .ok s1 => .next s1
        | .error r => .next (if r.cause = .stall then s else evFault freed e r))
      | _ => .next freed

end Sys2Proof.Machine
end

