-- ==== Sys2Proof/Machine/Dispatch.lean ====
section
/-! DEFINITION. The dispatcher: one arm per constructor of `Instr`, each one call of its meaning. -/

namespace Sys2Proof.Machine

def exec (i : Instr) (s : State) : Host.Outcome State Fault Refusal :=
  match i with
  | .exitEnd h p => Sys2Proof.Machine.execExitEnd h p s
  | .br h p => Sys2Proof.Machine.execBr h p s
  | .brx h p => Sys2Proof.Machine.execBrx h p s
  | .emit h p => Sys2Proof.Machine.execEmit h p s
  | .steer h p => Sys2Proof.Machine.execSteer h p s
  | .merge h p => Sys2Proof.Machine.execMerge h p s
  | .gate h p => Sys2Proof.Machine.execGate h p s
  | .drop h p => Sys2Proof.Machine.execDrop h p s
  | .iter h p => Sys2Proof.Machine.execIter h p s
  | .cntld h p => Sys2Proof.Machine.execCntld h p s
  | .cntrd h p => Sys2Proof.Machine.execCntrd h p s
  | .cntstep h p => Sys2Proof.Machine.execCntstep h p s
  | .gotx h p => Sys2Proof.Machine.execGotx h p s
  | .haltx h p => Sys2Proof.Machine.execHaltx h p s
  | .lncpy h p => Sys2Proof.Machine.execLncpy h p s
  | .lnadd h p => Sys2Proof.Machine.execLnadd h p s
  | .lnsub h p => Sys2Proof.Machine.execLnsub h p s
  | .lnmul h p => Sys2Proof.Machine.execLnmul h p s
  | .lnfma h p => Sys2Proof.Machine.execLnfma h p s
  | .lnmax h p => Sys2Proof.Machine.execLnmax h p s
  | .lnmin h p => Sys2Proof.Machine.execLnmin h p s
  | .lndif h p => Sys2Proof.Machine.execLndif h p s
  | .lnsum h p => Sys2Proof.Machine.execLnsum h p s
  | .lnrmx h p => Sys2Proof.Machine.execLnrmx h p s
  | .lnrmn h p => Sys2Proof.Machine.execLnrmn h p s
  | .lndot h p => Sys2Proof.Machine.execLndot h p s
  | .iadd h p => Sys2Proof.Machine.execIadd h p s
  | .iadds h p => Sys2Proof.Machine.execIadds h p s
  | .isub h p => Sys2Proof.Machine.execIsub h p s
  | .isubs h p => Sys2Proof.Machine.execIsubs h p s
  | .imul h p => Sys2Proof.Machine.execImul h p s
  | .imulh h p => Sys2Proof.Machine.execImulh h p s
  | .idiv h p => Sys2Proof.Machine.execIdiv h p s
  | .irem h p => Sys2Proof.Machine.execIrem h p s
  | .ineg h p => Sys2Proof.Machine.execIneg h p s
  | .iabs h p => Sys2Proof.Machine.execIabs h p s
  | .imin h p => Sys2Proof.Machine.execImin h p s
  | .imax h p => Sys2Proof.Machine.execImax h p s
  | .imad h p => Sys2Proof.Machine.execImad h p s
  | .iclamp h p => Sys2Proof.Machine.execIclamp h p s
  | .andBits h p => Sys2Proof.Machine.execAndBits h p s
  | .orBits h p => Sys2Proof.Machine.execOrBits h p s
  | .xorBits h p => Sys2Proof.Machine.execXorBits h p s
  | .notBits h p => Sys2Proof.Machine.execNotBits h p s
  | .andn h p => Sys2Proof.Machine.execAndn h p s
  | .shl h p => Sys2Proof.Machine.execShl h p s
  | .shr h p => Sys2Proof.Machine.execShr h p s
  | .shra h p => Sys2Proof.Machine.execShra h p s
  | .rotl h p => Sys2Proof.Machine.execRotl h p s
  | .popc h p => Sys2Proof.Machine.execPopc h p s
  | .clz h p => Sys2Proof.Machine.execClz h p s
  | .ctz h p => Sys2Proof.Machine.execCtz h p s
  | .brev h p => Sys2Proof.Machine.execBrev h p s
  | .bfx h p => Sys2Proof.Machine.execBfx h p s
  | .bfi h p => Sys2Proof.Machine.execBfi h p s
  | .icmpeq h p => Sys2Proof.Machine.execIcmpeq h p s
  | .icmpne h p => Sys2Proof.Machine.execIcmpne h p s
  | .icmplt h p => Sys2Proof.Machine.execIcmplt h p s
  | .icmple h p => Sys2Proof.Machine.execIcmple h p s
  | .icmpgt h p => Sys2Proof.Machine.execIcmpgt h p s
  | .icmpge h p => Sys2Proof.Machine.execIcmpge h p s
  | .sel h p => Sys2Proof.Machine.execSel h p s
  | .mov h p => Sys2Proof.Machine.execMov h p s
  | .aadd h p => Sys2Proof.Machine.execAadd h p s
  | .amad h p => Sys2Proof.Machine.execAmad h p s
  | .asub h p => Sys2Proof.Machine.execAsub h p s
  | .achk h p => Sys2Proof.Machine.execAchk h p s
  | .fadd h p => Sys2Proof.Machine.execFadd h p s
  | .fsub h p => Sys2Proof.Machine.execFsub h p s
  | .fmul h p => Sys2Proof.Machine.execFmul h p s
  | .fma h p => Sys2Proof.Machine.execFma h p s
  | .fms h p => Sys2Proof.Machine.execFms h p s
  | .fnma h p => Sys2Proof.Machine.execFnma h p s
  | .fdiv h p => Sys2Proof.Machine.execFdiv h p s
  | .fsqrt h p => Sys2Proof.Machine.execFsqrt h p s
  | .fmin h p => Sys2Proof.Machine.execFmin h p s
  | .fmax h p => Sys2Proof.Machine.execFmax h p s
  | .fneg h p => Sys2Proof.Machine.execFneg h p s
  | .fabs h p => Sys2Proof.Machine.execFabs h p s
  | .fcpys h p => Sys2Proof.Machine.execFcpys h p s
  | .fcmpeq h p => Sys2Proof.Machine.execFcmpeq h p s
  | .fcmpne h p => Sys2Proof.Machine.execFcmpne h p s
  | .fcmplt h p => Sys2Proof.Machine.execFcmplt h p s
  | .fcmple h p => Sys2Proof.Machine.execFcmple h p s
  | .fcmpun h p => Sys2Proof.Machine.execFcmpun h p s
  | .fclass h p => Sys2Proof.Machine.execFclass h p s
  | .frint h p => Sys2Proof.Machine.execFrint h p s
  | .exp2 h p => Sys2Proof.Machine.execExp2 h p s
  | .log2 h p => Sys2Proof.Machine.execLog2 h p s
  | .rcp h p => Sys2Proof.Machine.execRcp h p s
  | .rsq h p => Sys2Proof.Machine.execRsq h p s
  | .tanh h p => Sys2Proof.Machine.execTanh h p s
  | .sin h p => Sys2Proof.Machine.execSin h p s
  | .lbcast h p => Sys2Proof.Machine.execLbcast h p s
  | .lshuf h p => Sys2Proof.Machine.execLshuf h p s
  | .lrot h p => Sys2Proof.Machine.execLrot h p s
  | .lsel h p => Sys2Proof.Machine.execLsel h p s
  | .vmask h p => Sys2Proof.Machine.execVmask h p s
  | .vget h p => Sys2Proof.Machine.execVget h p s
  | .liota h p => Sys2Proof.Machine.execLiota h p s
  | .lscan h p => Sys2Proof.Machine.execLscan h p s
  | .rsum h p => Sys2Proof.Machine.execRsum h p s
  | .rmax h p => Sys2Proof.Machine.execRmax h p s
  | .rmin h p => Sys2Proof.Machine.execRmin h p s
  | .risum h p => Sys2Proof.Machine.execRisum h p s
  | .rimax h p => Sys2Proof.Machine.execRimax h p s
  | .rimin h p => Sys2Proof.Machine.execRimin h p s
  | .rand h p => Sys2Proof.Machine.execRand h p s
  | .ror h p => Sys2Proof.Machine.execRor h p s
  | .cvt h p => Sys2Proof.Machine.execCvt h p s
  | .cvti h p => Sys2Proof.Machine.execCvti h p s
  | .cvtf h p => Sys2Proof.Machine.execCvtf h p s
  | .cvpk2 h p => Sys2Proof.Machine.execCvpk2 h p s
  | .cvpk4 h p => Sys2Proof.Machine.execCvpk4 h p s
  | .unpk2 h p => Sys2Proof.Machine.execUnpk2 h p s
  | .unpk4 h p => Sys2Proof.Machine.execUnpk4 h p s
  | .qblk h p => Sys2Proof.Machine.execQblk h p s
  | .qapply h p => Sys2Proof.Machine.execQapply h p s
  | .mset h p => Sys2Proof.Machine.execMset h p s
  | .mldb h p => Sys2Proof.Machine.execMldb h p s
  | .mldt h p => Sys2Proof.Machine.execMldt h p s
  | .mrow h p => Sys2Proof.Machine.execMrow h p s
  | .mrows h p => Sys2Proof.Machine.execMrows h p s
  | .mdrain h p => Sys2Proof.Machine.execMdrain h p s
  | .mout h p => Sys2Proof.Machine.execMout h p s
  | .mclr h p => Sys2Proof.Machine.execMclr h p s
  | .mstat h p => Sys2Proof.Machine.execMstat h p s
  | .mkin h p => Sys2Proof.Machine.execMkin h p s
  | .mkout h p => Sys2Proof.Machine.execMkout h p s
  | .ld h p => Sys2Proof.Machine.execLd h p s
  | .ldt h p => Sys2Proof.Machine.execLdt h p s
  | .st h p => Sys2Proof.Machine.execSt h p s
  | .stt h p => Sys2Proof.Machine.execStt h p s
  | .ldg h p => Sys2Proof.Machine.execLdg h p s
  | .stsc h p => Sys2Proof.Machine.execStsc h p s
  | .ldacq h p => Sys2Proof.Machine.execLdacq h p s
  | .strel h p => Sys2Proof.Machine.execStrel h p s
  | .pref h p => Sys2Proof.Machine.execPref h p s
  | .resid h p => Sys2Proof.Machine.execResid h p s
  | .evict h p => Sys2Proof.Machine.execEvict h p s
  | .phase h p => Sys2Proof.Machine.execPhase h p s
  | .fence h p => Sys2Proof.Machine.execFence h p s
  | .atadd h p => Sys2Proof.Machine.execAtadd h p s
  | .atand h p => Sys2Proof.Machine.execAtand h p s
  | .ator h p => Sys2Proof.Machine.execAtor h p s
  | .atxor h p => Sys2Proof.Machine.execAtxor h p s
  | .atmin h p => Sys2Proof.Machine.execAtmin h p s
  | .atmax h p => Sys2Proof.Machine.execAtmax h p s
  | .atxch h p => Sys2Proof.Machine.execAtxch h p s
  | .atcas h p => Sys2Proof.Machine.execAtcas h p s
  | .atfadd h p => Sys2Proof.Machine.execAtfadd h p s
  | .binit h p => Sys2Proof.Machine.execBinit h p s
  | .barr h p => Sys2Proof.Machine.execBarr h p s
  | .bwait h p => Sys2Proof.Machine.execBwait h p s
  | .waitb h p => Sys2Proof.Machine.execWaitb h p s
  | .waita h p => Sys2Proof.Machine.execWaita h p s
  | .cpy h p => Sys2Proof.Machine.execCpy h p s
  | .cpys h p => Sys2Proof.Machine.execCpys h p s
  | .slotf h p => Sys2Proof.Machine.execSlotf h p s
  | .shdw h p => Sys2Proof.Machine.execShdw h p s
  | .shdwQry h p => Sys2Proof.Machine.execShdwQry h p s
  | .publ h p => Sys2Proof.Machine.execPubl h p s
  | .evq h p => Sys2Proof.Machine.execEvq h p s
  | .coll h p => Sys2Proof.Machine.execColl h p s
  | .draft h p => Sys2Proof.Machine.execDraft h p s
  | .quota h p => Sys2Proof.Machine.execQuota h p s
  | .quotaTag h p => Sys2Proof.Machine.execQuotaTag h p s
  | .spawn h p => Sys2Proof.Machine.execSpawn h p s
  | .tagfree h p => Sys2Proof.Machine.execTagfree h p s
  | .purge h p => Sys2Proof.Machine.execPurge h p s
  | .stallt h p => Sys2Proof.Machine.execStallt h p s
  | .recol h p => Sys2Proof.Machine.execRecol h p s
  | .trap h p => Sys2Proof.Machine.execTrap h p s
  | .brk h p => Sys2Proof.Machine.execBrk h p s
  | .rdsr h p => Sys2Proof.Machine.execRdsr h p s
  | .wrsr h p => Sys2Proof.Machine.execWrsr h p s
  | .yield h p => Sys2Proof.Machine.execYield h p s
  | .halt h p => Sys2Proof.Machine.execHalt h p s
  | .hrd h p => Sys2Proof.Machine.execHrd h p s
  | .hwr h p => Sys2Proof.Machine.execHwr h p s
  | .fmtld h p => Sys2Proof.Machine.execFmtld h p s
  | .fmtrd h p => Sys2Proof.Machine.execFmtrd h p s
  | .fmtsync h p => Sys2Proof.Machine.execFmtsync h p s
  | .lgbind h p => Sys2Proof.Machine.execLgbind h p s
  | .lgEnd => Sys2Proof.Machine.execLgEnd s
  | .lgAdd d a b => Sys2Proof.Machine.execLgAdd d a b s
  | .lgSub d a b => Sys2Proof.Machine.execLgSub d a b s
  | .lgMul d a b => Sys2Proof.Machine.execLgMul d a b s
  | .lgFma d a b c => Sys2Proof.Machine.execLgFma d a b c s
  | .lgAddi d a imm => Sys2Proof.Machine.execLgAddi d a imm s
  | .lgMuli d a imm => Sys2Proof.Machine.execLgMuli d a imm s
  | .lgMovi d imm => Sys2Proof.Machine.execLgMovi d imm s
  | .lgMov d a => Sys2Proof.Machine.execLgMov d a s
  | .lgMax d a b => Sys2Proof.Machine.execLgMax d a b s
  | .lgMin d a b => Sys2Proof.Machine.execLgMin d a b s
  | .lgNeg d a => Sys2Proof.Machine.execLgNeg d a s
  | .lgAbs d a => Sys2Proof.Machine.execLgAbs d a s
  | .lgRcp d a => Sys2Proof.Machine.execLgRcp d a s
  | .lgExp2 d a => Sys2Proof.Machine.execLgExp2 d a s
  | .lgLog2 d a => Sys2Proof.Machine.execLgLog2 d a s
  | .lgCmplt d a b => Sys2Proof.Machine.execLgCmplt d a b s
  | .lgCmple d a b => Sys2Proof.Machine.execLgCmple d a b s
  | .lgCmpeq d a b => Sys2Proof.Machine.execLgCmpeq d a b s
  | .lgSel d a b c => Sys2Proof.Machine.execLgSel d a b c s
  | .lgMask a => Sys2Proof.Machine.execLgMask a s
  | .polAdd d a b => Sys2Proof.Machine.execPolAdd d a b s
  | .polSub d a b => Sys2Proof.Machine.execPolSub d a b s
  | .polMul d a b => Sys2Proof.Machine.execPolMul d a b s
  | .polAnd d a b => Sys2Proof.Machine.execPolAnd d a b s
  | .polOr d a b => Sys2Proof.Machine.execPolOr d a b s
  | .polXor d a b => Sys2Proof.Machine.execPolXor d a b s
  | .polShl d a b => Sys2Proof.Machine.execPolShl d a b s
  | .polShr d a b => Sys2Proof.Machine.execPolShr d a b s
  | .polMin d a b => Sys2Proof.Machine.execPolMin d a b s
  | .polMax d a b => Sys2Proof.Machine.execPolMax d a b s
  | .polSltu d a b => Sys2Proof.Machine.execPolSltu d a b s
  | .polSeq d a b => Sys2Proof.Machine.execPolSeq d a b s
  | .polCsel d a b => Sys2Proof.Machine.execPolCsel d a b s
  | .polLdi d imm => Sys2Proof.Machine.execPolLdi d imm s
  | .polLdis d imm => Sys2Proof.Machine.execPolLdis d imm s
  | .polAddi d a imm => Sys2Proof.Machine.execPolAddi d a imm s
  | .polAndi d a imm => Sys2Proof.Machine.execPolAndi d a imm s
  | .polShli d a imm => Sys2Proof.Machine.execPolShli d a imm s
  | .polShri d a imm => Sys2Proof.Machine.execPolShri d a imm s
  | .polRdc d a imm => Sys2Proof.Machine.execPolRdc d a imm s
  | .polRdq d a imm => Sys2Proof.Machine.execPolRdq d a imm s
  | .polRdr d a imm => Sys2Proof.Machine.execPolRdr d a imm s
  | .polRdw d imm => Sys2Proof.Machine.execPolRdw d imm s
  | .polRdd d imm => Sys2Proof.Machine.execPolRdd d imm s
  | .polBrz a imm => Sys2Proof.Machine.execPolBrz a imm s
  | .polBrnz a imm => Sys2Proof.Machine.execPolBrnz a imm s
  | .polJmp imm => Sys2Proof.Machine.execPolJmp imm s
  | .polForeach d imm => Sys2Proof.Machine.execPolForeach d imm s
  | .polNext => Sys2Proof.Machine.execPolNext s
  | .polPick a => Sys2Proof.Machine.execPolPick a s
  | .polPreempt a => Sys2Proof.Machine.execPolPreempt a s
  | .polDefer => Sys2Proof.Machine.execPolDefer s
  | .polKill a => Sys2Proof.Machine.execPolKill a s
  | .tokenAccept c colour => Sys2Proof.Machine.execTokenAccept c colour s
  | .tokenSend c colour => Sys2Proof.Machine.execTokenSend c colour s
  | .creditReturn c colour => Sys2Proof.Machine.execCreditReturn c colour s
  | .firingChoice cell => Sys2Proof.Machine.execFiringChoice cell s
  | .blockFetch cell node blk => Sys2Proof.Machine.execBlockFetch cell node blk s
  | .memoryResponse cell seq => Sys2Proof.Machine.execMemoryResponse cell seq s
  | .translationWalk cell colour va => Sys2Proof.Machine.execTranslationWalk cell colour va s
  | .instanceCommit cell => Sys2Proof.Machine.execInstanceCommit cell s
  | .releasePerformed cell seq => Sys2Proof.Machine.execReleasePerformed cell seq s
  | .goToken n tag => Sys2Proof.Machine.execGoToken n tag s
  | .haltToken n tag => Sys2Proof.Machine.execHaltToken n tag s
  | .loopNestOuterPoint cell => Sys2Proof.Machine.execLoopNestOuterPoint cell s
  | .formatChangeReach x cell => Sys2Proof.Machine.execFormatChangeReach x cell s
  | .monitorEvent cell seq => Sys2Proof.Machine.execMonitorEvent cell seq s
  | .waitTimeout cell seq => Sys2Proof.Machine.execWaitTimeout cell seq s
  | .stallTimer n port colour => Sys2Proof.Machine.execStallTimer n port colour s
  | .excDelivery x => Sys2Proof.Machine.execExcDelivery x s
  | .watchdogExpiry cell seq => Sys2Proof.Machine.execWatchdogExpiry cell seq s
  | .parityError c colour => Sys2Proof.Machine.execParityError c colour s
  | .partialTokenAbort c colour => Sys2Proof.Machine.execPartialTokenAbort c colour s
  | .purgeReset x => Sys2Proof.Machine.execPurgeReset x s
  | .drainReceive w => Sys2Proof.Machine.execDrainReceive w s
  | .belfrySwap w => Sys2Proof.Machine.execBelfrySwap w s
  | .belfryEnable w v => Sys2Proof.Machine.execBelfryEnable w v s
  | .belfryDisable w => Sys2Proof.Machine.execBelfryDisable w s
  | .tinval w v => Sys2Proof.Machine.execTinval w v s
  | .chunkComplete op chunk => Sys2Proof.Machine.execChunkComplete op chunk s
  | .copyComplete op => Sys2Proof.Machine.execCopyComplete op s
  | .engineFault op => Sys2Proof.Machine.execEngineFault op s
  | .streamTile op => Sys2Proof.Machine.execStreamTile op s
  | .noticeAccept cell => Sys2Proof.Machine.execNoticeAccept cell s
  | .collComplete op => Sys2Proof.Machine.execCollComplete op s
  | .collTimeout op => Sys2Proof.Machine.execCollTimeout op s
  | .eventRecord spire => Sys2Proof.Machine.execEventRecord spire s
  | .streamHeader n colour => Sys2Proof.Machine.execStreamHeader n colour s
  | .logitToken n colour => Sys2Proof.Machine.execLogitToken n colour s
  | .streamDraw n colour iter => Sys2Proof.Machine.execStreamDraw n colour iter s
  | .lanternCommitToken n colour => Sys2Proof.Machine.execLanternCommitToken n colour s
  | .draftWalkDone op => Sys2Proof.Machine.execDraftWalkDone op s
  | .launch w q img => Sys2Proof.Machine.execLaunch w q img s
  | .wait w q => Sys2Proof.Machine.execWait w q s
  | .waitPacketTimeout w q => Sys2Proof.Machine.execWaitPacketTimeout w q s
  | .signal w q => Sys2Proof.Machine.execSignal w q s
  | .policySwap w q => Sys2Proof.Machine.execPolicySwap w q s
  | .abortCancel w q => Sys2Proof.Machine.execAbortCancel w q s
  | .abortKill w q => Sys2Proof.Machine.execAbortKill w q s
  | .abortPurge w q => Sys2Proof.Machine.execAbortPurge w q s
  | .queueStart w q => Sys2Proof.Machine.execQueueStart w q s
  | .queueStop w q => Sys2Proof.Machine.execQueueStop w q s
  | .queueResume w q quar => Sys2Proof.Machine.execQueueResume w q quar s
  | .queueClearQuar w q => Sys2Proof.Machine.execQueueClearQuar w q s
  | .ridxWrite w q v => Sys2Proof.Machine.execRidxWrite w q v s
  | .dispatchDecision w slot => Sys2Proof.Machine.execDispatchDecision w slot s
  | .preemptDecision w task => Sys2Proof.Machine.execPreemptDecision w task s
  | .faultDecision w task => Sys2Proof.Machine.execFaultDecision w task s
  | .policyBudgetExpiry w => Sys2Proof.Machine.execPolicyBudgetExpiry w s
  | .decisionCommit w => Sys2Proof.Machine.execDecisionCommit w s
  | .sliceExpiry w task => Sys2Proof.Machine.execSliceExpiry w task s
  | .quarantineSliceExpiry w task => Sys2Proof.Machine.execQuarantineSliceExpiry w task s
  | .configPacket w task sec => Sys2Proof.Machine.execConfigPacket w task sec s
  | .launchComplete w task => Sys2Proof.Machine.execLaunchComplete w task s
  | .recqTileSend w task => Sys2Proof.Machine.execRecqTileSend w task s
  | .taskComplete w task => Sys2Proof.Machine.execTaskComplete w task s
  | .cutBegin x => Sys2Proof.Machine.execCutBegin x s
  | .markerArrive n => Sys2Proof.Machine.execMarkerArrive n s
  | .cutComplete x => Sys2Proof.Machine.execCutComplete x s
  | .saveDeadlineExpiry x => Sys2Proof.Machine.execSaveDeadlineExpiry x s
  | .restore w task => Sys2Proof.Machine.execRestore w task s
  | .powerPeriod => Sys2Proof.Machine.execPowerPeriod s
  | .thermalLimit die => Sys2Proof.Machine.execThermalLimit die s
  | .hostWriteLiveWord pa v => Sys2Proof.Machine.execHostWriteLiveWord pa v s
  | .cxlSnoop pa => Sys2Proof.Machine.execCxlSnoop pa s
  | .bkptStep k => Sys2Proof.Machine.execBkptStep k s
  | .bkptDisarm k => Sys2Proof.Machine.execBkptDisarm k s
  | .debugBreakWrite w on => Sys2Proof.Machine.execDebugBreakWrite w on s
  | .badcClear spire => Sys2Proof.Machine.execBadcClear spire s
  | .qspireClear mask => Sys2Proof.Machine.execQspireClear mask s
  | .registerWrite offset v => Sys2Proof.Machine.execRegisterWrite offset v s
  | .create w prot sys cells granules => Sys2Proof.Machine.execCreate w prot sys cells granules s
  | .grant w cells granules => Sys2Proof.Machine.execGrant w cells granules s
  | .reclaim w cells granules => Sys2Proof.Machine.execReclaim w cells granules s
  | .destroy w => Sys2Proof.Machine.execDestroy w s
  | .keyInstall by_ w slot keys => Sys2Proof.Machine.execKeyInstall by_ w slot keys s
  | .keyRetire by_ w slot => Sys2Proof.Machine.execKeyRetire by_ w slot s
  | .kekInstall w kek => Sys2Proof.Machine.execKekInstall w kek s
  | .keyImport w kek blob nctrs => Sys2Proof.Machine.execKeyImport w kek blob nctrs s
  | .unlock token => Sys2Proof.Machine.execUnlock token s
  | .unlockChallenge nonce => Sys2Proof.Machine.execUnlockChallenge nonce s
  | .getTdispVersion w => Sys2Proof.Machine.execGetTdispVersion w s
  | .getTdispCapabilities w => Sys2Proof.Machine.execGetTdispCapabilities w s
  | .lockInterfaceRequest w => Sys2Proof.Machine.execLockInterfaceRequest w s
  | .getDeviceInterfaceReport w => Sys2Proof.Machine.execGetDeviceInterfaceReport w s
  | .getDeviceInterfaceState w => Sys2Proof.Machine.execGetDeviceInterfaceState w s
  | .startInterfaceRequest w => Sys2Proof.Machine.execStartInterfaceRequest w s
  | .stopInterfaceRequest w => Sys2Proof.Machine.execStopInterfaceRequest w s
  | .getMeasurements w => Sys2Proof.Machine.execGetMeasurements w s
  | .ideKm w => Sys2Proof.Machine.execIdeKm w s
  | .linkDown => Sys2Proof.Machine.execLinkDown s
  | .keyWrap w => Sys2Proof.Machine.execKeyWrap w s
  | .coldReset => Sys2Proof.Machine.execColdReset s
  | .hostLinkTrain gen width cxl => Sys2Proof.Machine.execHostLinkTrain gen width cxl s
  | .frauthPortTrain port rate => Sys2Proof.Machine.execFrauthPortTrain port rate s
  | .frauthPortDown port => Sys2Proof.Machine.execFrauthPortDown port s
  | .functionReady fn ok => Sys2Proof.Machine.execFunctionReady fn ok s
  | .pldmMonitor => Sys2Proof.Machine.execPldmMonitor s
  | .pldmFirmwareUpdate image => Sys2Proof.Machine.execPldmFirmwareUpdate image s
  | .frauthRequest w pa r => Sys2Proof.Machine.execFrauthRequest w pa r s
  | .flitReplay port => Sys2Proof.Machine.execFlitReplay port s
  | .spdmSessionEstablish w => Sys2Proof.Machine.execSpdmSessionEstablish w s
  | .temperatureChange die tj dram => Sys2Proof.Machine.execTemperatureChange die tj dram s
  | .hardFault c colour => Sys2Proof.Machine.execHardFault c colour s

end Sys2Proof.Machine
end

