-- ==== Sys2Proof/Machine/Fetch.lean ====
section
/-! DEFINITION. Fetching the next instruction of what is in focus, and the moves of the agenda other than
instructions: time, points of a copy, other devices, and what software outside the device writes. -/

namespace Sys2Proof.Machine

/-! ### Fetching -/

/-- The instruction of a block's code at a slot; a loop nest takes the next word too (R82). -/
def fetchCode (code : List Word128) (pc : Nat) : Option (Except Reject Instr) :=
  (code[pc]?).map (fun w => decodeMain w.toNat (if isNestWord w then (code.getD (pc + 1) 0).toNat else 0))

/-- What the focus runs next: none where its stream has nothing to run now. -/
def fetched (s : State) : Option (Except Reject Instr) :=
  match s.focus with
  | .idle => none
  | .inst _ _ =>
    (match focusInst s with
      | some b => if b.stage == .open_ && b.raised.isNone then fetchCode b.code b.pc else none
      | none => none)
  | .policy w =>
    (match (worldOf s w).decision with
      | some d => if d.live then (d.prog[d.pc]?).map (fun x => decodePolicy x.toNat) else none
      | none => none)
  | .logit => s.logit.bind (fun r => (r.prog[r.pc]?).map (fun x => decodeLogit x.toNat))

/-- Whether an `Instr` is an event of the device, which has no word. -/
def isEvent (i : Instr) : Bool := (encode i).isNone

/-! ### Moves -/

/-- Bytes that their owner outside the device writes: those of host memory and of other devices (R214). -/
def outsideCells (l : List Host.Cell) : List Host.Cell :=
  l.filter (fun c => match region c.1 with
    | some .host => true
    | some (.remote _) => true
    | _ => false)

/-- Memory written by its owner outside the device: a live word of host memory becomes plain (R254). -/
def poke (s : State) (l : List Host.Cell) : State :=
  let cells := outsideCells l
  let s1 := devWrite s cells
  { s1 with wtype := cells.foldl (fun m c => if region c.1 = some .host then mput 0 m (c.1 / 8) 0 else m) s1.wtype }

/-- What a move that is no instruction does. -/
def moveOnly (s : State) : Move → State
  | .pass n => tick s n
  | .engine op k => enginePoint s op k
  | .peer p => { s with peers := s.peers ++ [p] }
  | .sreg w x reg v => windowWrite s w (writeSreg s w x reg v)
  | .request r => tookTurn r (doRequest r s)
  | .readBar a => if spReady s then { s with outputs := s.outputs ++ [.mmio (readBar s a)] } else s
  | .readSreg w x reg => windowRead s w x reg
  | .poke l => poke s l
  | .alter n blk hdr code => alterBlock s n blk hdr code
  | .storeError cell n blk => storeError s cell n blk
  | .dataError cell seq held => dataError s cell seq held
  | .evict pa => if (mget none s.dome (pa / 64)).isSome then dropLine s pa else s
  | .run cell seq => { s with focus := .inst cell seq }
  | .policy w => { s with focus := .policy w }
  | .logit => { s with focus := .logit }
  | .event _ => s

/-! ### Placing one instruction where the next fetch finds it -/

/-- An operand whose slots are all valid zeros. -/
def zeroVal : Val := { valid := 0xFFFF, slots := 0 }

/-- An instance on compute cell (0, 0) whose code is some words and whose operands and predicates have arrived. -/
def probeInst (s : State) (code : List Word128) : BInst :=
  { cell := 0, seq := mget 0 s.seqs 0 + 1, inv := s.nextInv, node := { w := 0, x := 0, n := 0 }, tag := { colour := 0, context := 0, iter := 0 }, blk := 0, hreg := true, code := code, gen := 0, pc := 0, opds := (List.range 8).map (fun k => (k, zeroVal)), preds := [(0, false), (1, false)], emits := [], effs := [], exit := none, pend := [], raised := none, stage := .open_, point := none, nestDone := false, wake := none, waitFrom := none, brkOff := false, spawned := none, age := s.now, born := s.now, durable := false, purged := none, kind := .fresh }

/-- Place main words. -/
def withMain (s : State) (code : List Word128) : State :=
  let b := probeInst s code
  { s with
    agenda := [], focus := .inst b.cell b.seq, seqs := mput 0 s.seqs b.cell b.seq, nextInv := b.inv + 1
    insts := s.insts ++ [b], invs := s.invs ++ [{ id := b.inv, cell := b.cell, node := b.node, tag := b.tag, held := [], emitted := [], nest := false }] }

/-- Place a policy bytecode: world 0 runs a decision about nothing. -/
def withPolicy (s : State) (w : Nat) : State :=
  let d : Decision := { kind := 0, slot := 0, subject := none, cands := [], queues := [], regions := [], wviews := [], free := 0, start := s.now, prog := [BitVec.ofNat 32 w], pc := 0, count := 0, regs := [], invalid := false, outcome := none, cause := 0 }
  { setWorld s 0 { worldOf s 0 with decision := some d } with agenda := [], focus := .policy 0 }

/-- Place a logit instruction. -/
def withLogit (s : State) (w : Nat) : State :=
  { s with agenda := [], focus := .logit, logit := some { spire := 0, colour := 0, iter := 0, ids := [], cur := 0, prog := [BitVec.ofNat 64 w], pc := 0, regs := [], mask := false } }

end Sys2Proof.Machine
end

