-- ==== Sys2Proof/Machine/Step.lean ====
section
/-! DEFINITION. One step: the first move of the agenda, or with an empty agenda the next instruction of what
is in focus, or one idle cycle. -/

namespace Sys2Proof.Machine

/-- Run what the focus fetches; a cycle passes where it fetches nothing. -/
def runFocus (s : State) : Result :=
  match fetched s with
  | none => .next (tick s 1)
  | some (.ok i) => exec i s
  | some (.error _) => .fault .badWord

/-- Make one move; only events of the device come from the agenda, instructions from their streams. -/
def moveStep (s : State) (m : Move) : Result :=
  match m with
  | .event i => if isEvent i then exec i s else .next s
  | .run _ _ => runFocus (moveOnly s m)
  | .policy _ => runFocus (moveOnly s m)
  | .logit => runFocus (moveOnly s m)
  | _ => .next (moveOnly s m)

/-- One step. -/
def step (s : State) : Result :=
  match s.agenda with
  | m :: l => moveStep { s with agenda := l } m
  | [] => runFocus s

/-- The state whose next fetch finds the instruction whose bits are `w` (assumption 30). -/
def State.withFetchWord (s : State) (nbits w : Nat) : State :=
  if nbits ≤ 32 then withPolicy s w
  else if nbits ≤ 64 then withLogit s w
  else if nbits ≤ 128 then withMain s [BitVec.ofNat 128 w]
  else withMain s [BitVec.ofNat 128 w, BitVec.ofNat 128 (w / 2 ^ 128)]

end Sys2Proof.Machine
end

