-- ==== Sys2Proof/Safety.lean ====
section
/-! DEFINITION. What statements mean by a good state, a safe run and an instruction whose operands are there. -/

namespace Sys2Proof

open Sys2Proof.Machine

/-- Memory.wf: the memory list is in its canonical form. -/
abbrev Memory.wf (m : List Host.Cell) : Bool := memWf m

/-- A step that stops the machine. -/
def Stops (s : State) : Prop := ∀ t, step s ≠ .next t

/-- A state from which no number of steps stops. -/
def SafeRun (s : State) : Prop := ∀ k, ∃ t, core.run k s = .next t

/-- The instance in focus is `b`, and it executes: it is open and has raised nothing (R39, R366). -/
structure Executes (s : State) (b : BInst) : Prop where
  focus : focusInst s = some b
  stage : b.stage = .open_
  quiet : b.raised = none

/-- Every operand and predicate of the instruction at the pc is there, with values `xs`, and its guard has value
`g` (R39, R43, R74). -/
structure Ready (h : Hdr) (consts : Nat → Val) (b : BInst) (g : Bool) (xs : List Val) : Prop where
  guard : guardOf h b = some g
  ops : operands h consts b = some xs

/-- The instruction fires: its instance executes, its operands are there and its guard is true. -/
structure Fires (h : Hdr) (consts : Nat → Val) (s : State) (b : BInst) (xs : List Val) : Prop where
  exec : Executes s b
  ready : Ready h consts b true xs

/-- No older instance of the invocation is in flight: memory, matrix and nest instructions wait for that (R109, R219). -/
def Alone (s : State) (b : BInst) : Prop := olderOfInv s b = false

end Sys2Proof
end

