-- ==== Sys2Proof/Claims.lean ====
section
/-! DEFINITION. The words of the statements: what an instruction delivers, element by element, and operands read
by type. -/

namespace Sys2Proof.Claims

open Sys2Proof Sys2Proof.Machine

/-- The state after the instance `b` delivered a value and a predicate bit on both targets and went on `len` slots
later; nothing else changes. -/
def delivered (h : Hdr) (aux : BitVec 12) (s : State) (b : BInst) (len : Nat) (v : Val) (p : Bool) : State :=
  putInst s (advance len (deliver h aux (same v p) b))

/-- The predicate bit of R137: element 0 is valid and any of its bits is 1. -/
def FirstNonzero (w : Nat) (v : Val) (p : Bool) : Prop := p = true ↔ ∃ c, elemOf w v 0 = some c ∧ c ≠ 0

/-- Element n of `v` is valid where it is valid in every operand, and then its bits `c` meet `f n l c` for the operands'
bits `l` (R45, R135). -/
def ElementsAre (w : Nat) (xs : List Val) (v : Val) (f : Nat → List Nat → Nat → Prop) : Prop :=
  ∀ n, n < elemCount w →
    match elemsAt w xs n with
    | none => elemOf w v n = none
    | some l => ∃ c, elemOf w v n = some c ∧ f n l c

/-- The answer `r` is a next state in which an element-wise result of width `w` was delivered. -/
def ElementWise (r : Result) (h : Hdr) (s : State) (b : BInst) (w : Nat) (xs : List Val) (f : Nat → List Nat → Nat → Prop) : Prop :=
  ∃ v p, r = .next (delivered h 0 s b 1 v p) ∧ FirstNonzero w v p ∧ ElementsAre w xs v f

/-- The bits of operand k. -/
def bitsAt (l : List Nat) (k : Nat) : Nat := l.getD k 0

/-- The value that `x`, of `w` bits, has under a signed or an unsigned type. -/
def typed (sg : Bool) (w x : Nat) : Int := if sg then (BitVec.ofNat w x).toInt else x

/-- Operand k read by type. -/
def typedAt (sg : Bool) (w : Nat) (l : List Nat) (k : Nat) : Int := typed sg w (bitsAt l k)

/-- The least and the greatest value of a type. -/
def leastOf (sg : Bool) (w : Nat) : Int := if sg then -2 ^ (w - 1) else 0
def greatestOf (sg : Bool) (w : Nat) : Int := if sg then 2 ^ (w - 1) - 1 else 2 ^ w - 1

/-- Bit j of an operand's bits. -/
def bitAt (l : List Nat) (k j : Nat) : Bool := (bitsAt l k).testBit j

/-- An integer instruction that fires delivers, in every element, bits `c` with `f signed w l c`. -/
def IntResult (i : Hdr → PayA → Instr) (f : Bool → Nat → List Nat → Nat → Prop) : Prop :=
  ∀ h p s b xs, Fires h (kConsts (codeWidth h.fmt == 64) p.k) s b xs →
    ElementWise (exec (i h p) s) h s b (codeWidth h.fmt) xs (fun _ l c => f (codeSigned h.fmt) (codeWidth h.fmt) l c)

/-- A checked address form: `ex` gives the exact result from the first operand, unsigned, and the others, signed. -/
def AddressResult (i : Hdr → PayA → Instr) (ex : Int → List Int → Int) : Prop :=
  ∀ h p s b xs, Fires h (kConsts true p.k) s b xs →
    let x (n : Nat) : Option Int := (elemsAt 64 xs n).map (fun l => ex (bitsAt l 0 : Nat) ((l.drop 1).map (typed true 64)))
    let good (y : Int) : Prop := 0 ≤ y ∧ y < 2 ^ 57
    ((∀ n y, n < 8 → x n = some y → good y) →
      ∃ v q, exec (i h p) s = .next (delivered h 0 s b 1 v q) ∧ FirstNonzero 64 v q ∧ ∀ n, n < 8 → elemOf 64 v n = (x n).map Int.toNat)
    ∧ (∀ n y, n < 8 → x n = some y → ¬ good y → (∀ m z, m < n → x m = some z → good z) →
      exec (i h p) s = .next (raise s b { cause := .addrOverflow, n := n, addr := (y % 2 ^ 64).toNat }))

/-- A float vector instruction that fires: it raises FORMAT_ENTRY under an entry that the vector class refuses (R143), and
otherwise delivers bits `c` with `f e noise l c` in every element, under the noise of its coordinates. -/
def FloatResult (i : Hdr → PayA → Instr) (f : Fmt → Rnd → Nat → List Nat → Nat → Prop) : Prop :=
  ∀ h p s b xs, Fires h (kConsts false p.k) s b xs →
    let e := entryOf s b h.fmt.toNat
    (vectorEntry (entryWord s b h.fmt.toNat) = false → exec (i h p) s = .next (raiseFormat s b h.fmt.toNat))
    ∧ (vectorEntry (entryWord s b h.fmt.toNat) = true →
      ElementWise (exec (i h p) s) h s b e.cont xs (fun n l c => f e h.rnd ((srOf s b).noise n) l c))

/-- The value that an operand's bits have under an entry (R116, R118). -/
def valueAt (e : Fmt) (l : List Nat) (k : Nat) : Machine.Num := decodeElem e (bitsAt l k)

/-- Whether a rounding mode under an entry is RDN. -/
def isDown (m : Rnd) (e : Fmt) : Bool := resolveRnd m e == .rdn

/-- A rounding float instruction rounds the exact result once (R144); its code fills the container. -/
def RoundedResult (i : Hdr → PayA → Instr) (f : Bool → Fmt → List Nat → Exact) : Prop :=
  FloatResult i (fun e m noise l c => c = round (f (isDown m e) e l) e m noise % 2 ^ e.cont)

/-- A transcendental that fires: it raises FORMAT_ENTRY unless its entry is FP32 as at reset, and otherwise rounds once in
every element (R149). -/
def TransResult (i : Hdr → PayA → Instr) (f : Machine.Num → Exact) : Prop :=
  ∀ h p s b xs, Fires h (kConsts false p.k) s b xs →
    (entryWord s b h.fmt.toNat ≠ fp32Word → exec (i h p) s = .next (raiseFormat s b h.fmt.toNat))
    ∧ (entryWord s b h.fmt.toNat = fp32Word →
      ElementWise (exec (i h p) s) h s b 32 xs (fun n l c => c = round (f (valueAt fp32 l 0)) fp32 h.rnd ((srOf s b).noise n) % 2 ^ 32))

/-- A slot move: slot k of the result takes its value and its valid bit as `f` says. -/
def SlotResult (i : Hdr → PayL → Instr) (f : Hdr → PayL → List Val → Nat → Option Slot) : Prop :=
  ∀ h p s b xs, Fires h (k0Const p.k0) s b xs →
    ∃ v q, exec (i h p) s = .next (delivered h 0 s b 1 v q) ∧ FirstNonzero 32 v q ∧ ∀ k, k < 16 → slotOf v k = f h p xs k

/-- The valid elements of an operand, in order. -/
def validElems (w : Nat) (x : Val) : List Nat := (elems w x).filterMap id

/-- An integer reduction: nothing valid without a valid element, else `m` with `f signed w l m` in slot 0, or in slots 0 and
1 for elements of 64 bits (R153). -/
def ReduceResult (i : Hdr → PayL → Instr) (f : Bool → Nat → List Nat → Int → Prop) : Prop :=
  ∀ h p s b xs, Fires h (k0Const p.k0) s b xs →
    let w := codeWidth h.fmt
    let l := validElems w (xs.getD 0 noVal)
    ∃ v q, exec (i h p) s = .next (delivered h 0 s b 1 v q)
      ∧ (l = [] → q = false ∧ ∀ k, k < 16 → slotOf v k = none)
      ∧ (l ≠ [] → ∃ m, f (codeSigned h.fmt) w l m ∧ (q = true ↔ m % 2 ^ (max w 32) ≠ 0)
        ∧ slotOf v 0 = some (BitVec.ofInt 32 m) ∧ slotOf v 1 = (if w = 64 then some (BitVec.ofInt 32 (m / 2 ^ 32)) else none)
        ∧ ∀ k, 2 ≤ k → k < 16 → slotOf v k = none)

/-- A float reduction: FORMAT_ENTRY under a refused entry, nothing valid without a valid element, else the code `f` gives in
slot 0 (R153). -/
def FloatReduceResult (i : Hdr → PayL → Instr) (f : Fmt → Rnd → Nat → List Nat → Nat) : Prop :=
  ∀ h p s b xs, Fires h (k0Const p.k0) s b xs →
    let e := entryOf s b h.fmt.toNat
    let l := validElems e.cont (xs.getD 0 noVal)
    (vectorEntry (entryWord s b h.fmt.toNat) = false → exec (i h p) s = .next (raiseFormat s b h.fmt.toNat))
    ∧ (vectorEntry (entryWord s b h.fmt.toNat) = true →
      ∃ v q, exec (i h p) s = .next (delivered h 0 s b 1 v q) ∧ FirstNonzero e.cont v q
        ∧ ∀ k, k < 16 → slotOf v k = if k = 0 ∧ l ≠ [] then some (BitVec.ofNat 32 (f e h.rnd ((srOf s b).noise 0) l)) else none)

/-! ### Conversions -/

/-- The two entries of a conversion and what it answers: FORMAT_ENTRY for the source, then for the destination, that fails
its check, and `P` when both pass (R76, R154). -/
def EntriesThen (r : Result) (s : State) (b : BInst) (src dst : BitVec 4) (okS okD : Word64 → Prop) (P : Prop) : Prop :=
  (¬ okS (entryWord s b src.toNat) → r = .next (raiseFormat s b src.toNat))
  ∧ (okS (entryWord s b src.toNat) → ¬ okD (entryWord s b dst.toNat) → r = .next (raiseFormat s b dst.toNat))
  ∧ (okS (entryWord s b src.toNat) → okD (entryWord s b dst.toNat) → P)

/-- A legal entry without blocks. -/
def Plain (x : Word64) : Prop := legalEntry x = true ∧ (Fmt.ofWord x).block = 0

/-- The container of an entry word. -/
def contW (x : Word64) : Nat := (Fmt.ofWord x).cont

/-- A delivery whose slots and predicate bit are given. -/
def Slots (r : Result) (h : Hdr) (s : State) (b : BInst) (w : Nat) (f : Nat → Option Slot) : Prop :=
  ∃ v q, r = .next (delivered h 0 s b 1 v q) ∧ FirstNonzero w v q ∧ ∀ k, k < 16 → slotOf v k = f k

/-! ### Loop nests -/

/-- The address of operand o at the indices `i`, formed exactly (R107). -/
def nestAt (p : PayN) (base w o : Nat) (i : List Nat) : Int :=
  base + (p.stride o 0 * (i.getD 0 0 : Nat) + p.stride o 1 * (i.getD 1 0 : Nat) + p.stride o 2 * (i.getD 2 0 : Nat)
    + p.stride o 3 * (i.getD 3 0 : Nat) + p.stride o 4 * (i.getD 4 0 : Nat)) * 2 ^ p.sh o * w

/-- What a loop nest needs to run a level-0 run whole: it fires, no older instance of its invocation is in flight, its entry
passes, its bases are valid, it has a scratchpad `m`, every element lies in it, and its stores have room in the hold buffer. -/
structure NestReady (h : Hdr) (p : PayN) (s : State) (b : BInst) (bases : List Nat) (m w : Nat) (outer : List Nat) (stores : Nat) : Prop where
  fires : ∃ xs, Fires h (k0Const 0) s b xs ∧ xs.map (fun v => slotOf v 0) = bases.map (fun a => some (BitVec.ofNat 32 a))
  small : bases ≠ [] ∧ ∀ a, a ∈ bases → a < 2 ^ 32
  alone : Alone s b
  entry : nestEntry (entryWord s b h.fmt.toNat) = true
  width : w = (entryOf s b h.fmt.toNat).width / 8
  point : outer = (b.point.map (fun q => q.1)).getD [0, 0, 0, 0]
  scratch : scratchOf s b = some m
  inside : ∀ i0 o a, i0 < max 1 (p.ext 0) → bases[o]? = some a →
    0 ≤ nestAt p a w o (i0 :: outer) ∧ nestAt p a w o (i0 :: outer) + w ≤ 131072 ∧ nestAt p a w o (i0 :: outer) % w = 0
  room : holdWords (((findInv s b.inv).map (fun v => v.held)).getD []) + holdWords (effStores b.effs) + stores * ((w + 3) / 4) ≤ 4096

/-- The instance with more stores to make at its commit. -/
def withStores (b : BInst) (l : List HStore) : BInst := { b with effs := b.effs ++ l.map .store }

/-- The codes that the operands of a nest have at i0, as the agent reads them. -/
def nestCodes (p : PayN) (s : State) (b : BInst) (bases : List Nat) (m w : Nat) (outer : List Nat) (i0 : Nat) : List Nat :=
  (List.range bases.length).map (fun o => agentRead s b (scratchAddr m (nestAt p (bases.getD o 0) w o (i0 :: outer)).toNat) w)

/-- The SR noise of a nest: ord is Concat(q, i0) and elem is 0 (R108, R124). -/
def nestNoise (s : State) (b : BInst) (i0 : Nat) : Nat :=
  { srOf s b with ord := ((b.point.map (fun (x : List Nat × Nat) => x.2)).getD 0) % 4096 * 4096 + i0 % 4096 }.noise 0

/-- An element-wise nest makes one store per i0, each reading the scratchpad with the stores before it (R108, R109). -/
def NestElements (i : Hdr → PayN → Instr) (f : Fmt → Rnd → Nat → List Nat → Nat) : Prop :=
  ∀ h p s b bases m w outer, NestReady h p s b bases m w outer (p.ext 0) →
    let e := entryOf s b h.fmt.toNat
    ∃ sts : List HStore, sts.length = p.ext 0
      ∧ (∀ i0, i0 < p.ext 0 →
        sts[i0]? = some (nestStore m (nestAt p (bases.getD 0 0) w 0 (i0 :: outer)).toNat w
          (f e h.rnd (nestNoise s b i0) (nestCodes p s (withStores b (sts.take i0)) bases m w outer i0))))
      ∧ exec (i h p) s = .next (delivered h 0 s (withStores b sts) 2 noVal false)

/-- A reduction reads d once, then its elements in ascending i0, writes one code and delivers it in slot 0 (R108). -/
def NestReduces (i : Hdr → PayN → Instr) (f : Fmt → Rnd → Nat → Nat → List (List Nat) → Nat) : Prop :=
  ∀ h p s b bases m w outer, NestReady h p s b bases m w outer 1 →
    let e := entryOf s b h.fmt.toNat
    let d := (nestAt p (bases.getD 0 0) w 0 (0 :: outer)).toNat
    let c := f e h.rnd (nestNoise s b 0) (agentRead s b (scratchAddr m d) w) ((List.range (p.ext 0)).map (nestCodes p s b bases m w outer))
    exec (i h p) s = .next (delivered h 0 s (withStores b [nestStore m d w c]) 2 (word32 c) (predGeneral (word32 c)))

/-! ### Memory -/

/-- The same monitors on the same granules, whatever they have seen. -/
def SameArms (s t : State) : Prop := t.monitors.map (fun m => { m with event := none }) = s.monitors.map (fun m => { m with event := none })

/-- Only instances and caches may differ, and what the monitors see of a line that a full Dome drops: no byte, register,
type, line or other state changes. -/
def CachesOnly (s t : State) : Prop :=
  t = { s with insts := t.insts, dome := t.dome, bank := t.bank, monitors := t.monitors } ∧ SameArms s t

/-- The answer is a next state that differs from `s` by the instance `b` and by caches alone. -/
def Replaces (r : Result) (s : State) (b : BInst) : Prop := ∃ t, r = .next t ∧ CachesOnly s t ∧ t.insts = (putInst s b).insts

/-- The instance with a value and a predicate bit that wait for the memory level's response (R243). -/
def awaits (h : Hdr) (b : BInst) (v : Val) (q : Bool) : BInst := advance 1 (pendDeliv h (same v q) b)

/-- The general rule of a predicate target (R411). -/
def SlotNonzero (v : Val) (q : Bool) : Prop := q = true ↔ ∃ w, slotOf v 0 = some w ∧ w ≠ 0

/-- A number of w bits in a token, extended by type to 32 bits, or in slots 0 and 1 for 64 bits. -/
def Holds (sg : Bool) (w x : Nat) (v : Val) : Prop :=
  slotOf v 0 = some (BitVec.ofInt 32 (typed sg w x))
  ∧ slotOf v 1 = (if w = 64 then some (BitVec.ofNat 32 (x / 2 ^ 32)) else none) ∧ ∀ k, 2 ≤ k → k < 16 → slotOf v k = none

/-- A memory instruction that fires and has no older instance of its invocation in flight. -/
structure MemFires (h : Hdr) (s : State) (b : BInst) (xs : List Val) : Prop where
  fires : Fires h (k0Const 0) s b xs
  alone : Alone s b

/-- The place that an access of `size` bytes reaches from its address operand (R242). -/
def placeOf (p : PayW) (s : State) (b : BInst) (base size : Nat) (swz : Nat) (rd wr : Bool) : Except Report Place :=
  effAddr s b (spOf p) swz ((base : Int) + p.ofs.toInt) size 0 rd wr

/-- A load of `size` bytes: nothing for an address that is not valid, the report of a refused access, else the value that
`f` gives of the bytes as its agent reads them. -/
def LoadResult (i : Hdr → PayW → Instr) (size : Hdr → PayW → Nat) (f : Hdr → PayW → Nat → Val → Prop) : Prop :=
  ∀ h p s b a, MemFires h s b [a] →
    (baseOf (spOf p) a = none → exec (i h p) s = .next (delivered h 0 s b 1 noVal false))
    ∧ (∀ base r, baseOf (spOf p) a = some base → placeOf p s b base (size h p) h.swz.toNat true false = .error r →
      exec (i h p) s = .next (raise s b r))
    ∧ (∀ base pl, baseOf (spOf p) a = some base → placeOf p s b base (size h p) h.swz.toNat true false = .ok pl →
      ∃ v q, f h p (readPlace s b pl.addrs) v ∧ SlotNonzero v q ∧ Replaces (exec (i h p) s) s (awaits h b v q))

/-- The stores of an instance that fit the hold buffer are held by it until its commit (R206, R243). -/
def HoldsStores (r : Result) (h : Hdr) (s : State) (b : BInst) (sts : List HStore) : Prop :=
  holdOverflows s b sts = false → Replaces r s (advance 1 (deliver h 0 offDeliv (withStores b sts)))

/-- The agent of an instance holds no store, and the instance waits to make no release. -/
def NothingHeld (s : State) (b : BInst) : Prop :=
  effStores b.effs = [] ∧ b.effs.any Eff.isRel = false ∧ ∀ v, findInv s b.inv = some v → v.held = []

/-- The state after a store that its home performs whole. -/
def stored (s : State) (st : HStore) : State :=
  { s with mem := putBytes s.mem st.bytes, lines := if st.bytes = [] then s.lines else storeMeta s st, monitors := wakeAll s.now s.monitors st.bytes }

/-- Stores that their homes perform whole, one after another: none is refused there (R348, R350, R353) and none meets a live
word (R254). -/
def Lands : State → List HStore → Prop
  | _, [] => True
  | s, st :: l =>
    (st.via = none ∨ ((∀ v, st.via = some v → homeRefuses s v (st.bytes.headD (0, 0)).1 st.bytes.length = none) ∧ ∀ c, c ∈ st.bytes → typeAt s c.1 = 0))
    ∧ Lands (stored s st) l

/-- The number of `n` bytes at a place, as memory holds them. -/
def numberAt (s : State) (addrs : List Nat) : Nat := addrs.foldr (fun a x => (byteAt s.mem a).toNat + 256 * x) 0

/-- Memory after a number was written at a place: its bytes there, and every other byte as before. -/
def Written (s t : State) (addrs : List Nat) (x : Nat) : Prop :=
  (∀ k a, addrs[k]? = some a → byteAt t.mem a = BitVec.ofNat 8 (x / 256 ^ k)) ∧ ∀ a, a ∉ addrs → byteAt t.mem a = byteAt s.mem a

/-- An atomic of a width: a place that it reaches with nothing held, no live word and a link that carries it (R249, R404)
gets the new number, and the old one is delivered with the predicate bit `q`. -/
def AtomicResult (i : Hdr → PayW → Instr) (w : Hdr → Nat) (ready : Hdr → State → BInst → Prop)
    (f : Hdr → State → BInst → Nat → List Nat → Nat → Prop) (q : Nat → List Nat → Bool) : Prop :=
  ∀ h p s b a ds xs base pl, MemFires h s b (a :: xs) → ready h s b → NothingHeld s b →
    baseOf (spOf p) a = some base → xs.mapM (dataOf (w h)) = some ds → placeOf p s b base (w h / 8) 0 true true = .ok pl →
    (pl.via = none ∨ (hostUncached s (pl.addrs.headD 0) = false ∧ typeAt s (pl.addrs.headD 0) = 0)) →
    let old := numberAt s pl.addrs
    ∃ t v new, exec (i h p) s = .next t ∧ Holds false (w h) old v ∧ f h s b old ds new ∧ Written s t pl.addrs new
      ∧ t.insts = (putInst s (awaits h (markDurable b) v (q old ds))).insts
      ∧ t.worlds = s.worlds ∧ t.ctxs = s.ctxs ∧ t.counters = s.counters ∧ t.wtype = s.wtype ∧ t.dev = s.dev

/-! ### Matrix instructions -/

/-- A matrix instruction whose operands are there, with no older instance of its invocation in flight. -/
structure MatFires (h : Hdr) (p : PayX) (s : State) (b : BInst) (xs : List Val) : Prop where
  fires : Fires h (k0Const p.k0) s b xs
  alone : Alone s b

/-- The instance that has gone on and changes the plane array at its commit. -/
def plans (b : BInst) (op : PlaneOp) : BInst := advance 1 (addEff (.plane op) b)

/-- The instance changes its key's run `r` to `r'` at its commit (R161). -/
def Makes (b : BInst) (r : Run) (op : PlaneOp) (r' : Option Run) : Prop := planeAfter b.tag op (some r) = r'

/-- A run's control part: all but its accumulators, counts, panels and status. -/
def SameRun (r q : Run) : Prop := q.tag = r.tag ∧ q.word = r.word ∧ q.m = r.m ∧ q.n = r.n ∧ q.kin = r.kin ∧ q.nch = r.nch

/-- A byte of a scratchpad as an instance's agent reads it, under a swizzle (R165). -/
def scratchByte (s : State) (b : BInst) (m swz a : Nat) : Nat := (agentByte s b (scratchAddr m (swizzle swz a))).toNat

/-- A code of container `c` at a byte address, in the high nibble of its byte or not (R115, R164). -/
def scratchCode (s : State) (b : BInst) (m swz a c : Nat) (high : Bool) : Nat :=
  if c = 4 then scratchByte s b m swz a / (if high then 16 else 1) % 16
  else ((List.range (c / 8)).map (fun i => scratchByte s b m swz (a + i) * 256 ^ i)).sum

/-- Element k of a contiguous row at `a`: its header, or 0 under an unblocked entry, and its code (R115, R120, R164). -/
def rowElement (s : State) (b : BInst) (m swz : Nat) (e : Fmt) (a k : Nat) : Nat × Nat :=
  if e.block = 0 then (0, scratchCode s b m swz (a + k * e.cont / 8) e.cont (k % 2 == 1))
  else
    let blk := a + k / e.block * (2 + e.block * e.cont / 8)
    (scratchByte s b m swz blk + 256 * scratchByte s b m swz (blk + 1), scratchCode s b m swz (blk + 2 + k % e.block * e.cont / 8) e.cont (k % e.block % 2 == 1))

/-- The first byte of element k of a contiguous row at `a`, the elements that a row of `n` reads, and whether an element there would
lie beyond the scratchpad (R120, R164, R165). -/
def rowStart (e : Fmt) (a k : Nat) : Nat :=
  if e.block = 0 then a + k * e.cont / 8 else a + k / e.block * (2 + e.block * e.cont / 8) + 2 + k % e.block * e.cont / 8
def rowSpan (e : Fmt) (n : Nat) : Nat := if e.block = 0 then n else (n + e.block - 1) / e.block * e.block
def Beyond (e : Fmt) (x : Nat) : Prop := 131072 < x + max 1 (e.cont / 8)

/-- The products of a row and a column, over the elements that are present (R166). -/
def rowTerms (ea : Fmt) (q : Panel) (a : Nat → Option (Nat × Nat)) (n : Nat) : List Machine.Num :=
  (List.range q.elems.length).filterMap (fun k => (a k).map (fun x =>
    let y := (q.elems.getD k []).getD n (0, 0)
    (blockElem ea x.1 x.2).mul (blockElem (Fmt.ofWord q.entry) y.1 y.2)))

/-- The run after a row firing on panel `sel`: every column takes its contribution, the row counts it, and the panel goes on
to its next row or becomes free (R167). -/
def RowFired (ea : Fmt) (a : Nat → Option (Nat × Nat)) (sel : Bool) (q : Panel) (r r' : Run) : Prop :=
  (∀ n, n < r.n →
    let v := chunkValue (rowTerms ea q a n)
    r'.accAt q.rp n = if r.count q.rp = 0 then v else roundNum (sumNums false [decodeElem fp32 (r.accAt q.rp n), decodeElem fp32 v]) fp32 .rne 0)
  ∧ (∀ i n, i ≠ q.rp → n < 64 → r'.accAt i n = r.accAt i n)
  ∧ r'.count q.rp = r.count q.rp + 1 ∧ (∀ i, i ≠ q.rp → r'.count i = r.count i)
  ∧ r'.panel sel = (if q.rp + 1 = r.m then none else some { q with rp := q.rp + 1 }) ∧ r'.rp sel = q.rp + 1 ∧ r'.panel (!sel) = r.panel (!sel)
  ∧ SameRun r r' ∧ r'.kinp = r.kinp ∧ r'.outp = r.outp ∧ r'.sat = r.sat
  ∧ (r'.nan = true ↔ r.nan = true ∨ ∃ n, n < r.n ∧ Machine.Num.nan ∈ rowTerms ea q a n)

/-- A drain: the row's tokens go out on t0 in order, the run goes on or closes, and t1 receives its status (R175). -/
def Drains (res : Result) (h : Hdr) (s : State) (b : BInst) (r : Run) (port : Nat) (toks : List Val) (sat : Bool) : Prop :=
  let r' : Run := { r with outp := r.outp + 1, sat := r.sat || sat }
  ∃ op, Makes b r op (if r.outp + 1 = r.m then none else some r')
    ∧ res = .next (putInst s (plans (deliver1 b.pc h.t1 0 (word64 r'.status) (decide (r'.status.toNat / 2 ^ 43 % 32 ≠ 0))
      { b with emits := b.emits ++ toks.map (fun v => { slot := b.pc, port := port, tok := dataTok b.tag 0 v }) }) op))

/-! ### Engine, quota and system instructions -/

/-- The instance that has gone on and adds some effects to its commit. -/
def adds (b : BInst) (l : List Eff) : BInst := { b with pc := b.pc + 1, effs := b.effs ++ l }

/-- The operation that an instance gives an engine (R260). -/
def opOf (h : Hdr) (p : PayE) (b : BInst) (engine : Nat) (mem : Option Nat) (k : OpKind) : EngOp :=
  { id := 0, engine := engine, cell := b.cell, node := b.node, tag := b.tag, blk := b.blk, slot := b.pc, gen := b.gen
    port := (match h.t0 with | .chan q => some q.toNat | _ => none), scope := p.scope, mem := mem, kind := k, start := 0, done := [], chunks := []
    stuck := none, home := engine }

/-- A bit field of a word. -/
def field (x lo n : Nat) : Nat := x / 2 ^ lo % 2 ^ n

/-- A word as a signed number of w bits. -/
def signedOf (w x : Nat) : Int := typed true w x

/-- A view of a copy descriptor as its fourteen words give it (R264). -/
def ViewFields (ws : List Nat) (v : View) : Prop :=
  let w (i : Nat) : Nat := ws.getD i 0
  v.tid = field (w 0) 0 24 ∧ v.esz = field (w 0) 24 2 ∧ (v.shd = true ↔ field (w 0) 26 1 = 1) ∧ (v.sp = true ↔ field (w 0) 27 1 = 1) ∧ field (w 0) 28 36 = 0
  ∧ (w 1 < 2 ^ 64 → v.base = signedOf 64 (w 1)) ∧ v.pad = field (w 4) 32 32
  ∧ ∀ k, k < 5 → v.ext[k]? = some (field (w (2 + k / 2)) (32 * (k % 2)) 32) ∧ v.start[k]? = some (signedOf 32 (field (w (5 + k / 2)) (32 * (k % 2)) 32))
    ∧ (w (8 + k) < 2 ^ 64 → v.stride[k]? = some (signedOf 64 (w (8 + k))))

/-- A quota instruction with its operands there, each with a valid slot 0. -/
structure QuotaFires (h : Hdr) (p : PayQ) (s : State) (b : BInst) (xs : List Val) (l : List Slot) : Prop where
  fires : Fires h (k0Const p.k0) s b xs
  slots : xs.map (fun v => slotOf v 0) = l.map some

/-- A value with words in its low slots and no other valid slot. -/
def Words (v : Val) (ws : List Nat) : Prop := ∀ k, k < 16 → slotOf v k = (ws.map (BitVec.ofNat 32))[k]?

/-- The instance that has gone on and makes a change as its commit begins (R225, R299). -/
def defers (h : Hdr) (b : BInst) (a : LateAct) : BInst := advance 1 { b with later := b.later ++ [{ slot := b.pc, h := h, act := a }] }

/-- The oldest instance of its cell has executed every instruction, waits for nothing and has its exit: its commit begins (R41). -/
structure BeginsCommit (s : State) (b : BInst) (e : Exit) : Prop where
  oldest : oldestInst s b.cell = some b
  quiet : b.raised = none
  started : b.stage ≠ .waiting
  answered : b.pend = []
  done : b.code.length ≤ b.pc
  exit : b.exit = some e

/-- The instance once its commit has begun: its releases are on their way, or it has none. -/
def begunAs (s : State) (b : BInst) (e : Exit) : BInst :=
  { b with stage := if b.stage = .open_ then (if needsRelease s b e then .releasing else .released) else b.stage }

/-- The answer makes the first of the changes that an instance has left, over a state `t`, and delivers its outcome, the predicate
bit telling a status of 0 (R298, R299). -/
def Changes (r : Result) (l : Late) (b : BInst) (ls : List Late) (t : State) (ws : List Nat) : Prop :=
  ∃ v, Words v ws ∧ r = .next (putInst t (deliverAt l.slot l.h 0 (same v (decide (slotOf v 0 = some 0))) { b with later := ls, purged := none, durable := true }))

/-- The state with a context's record changed. -/
def withCtx (s : State) (b : BInst) (f : Ctx → Ctx) : State := setCtx s b.node.w b.node.x (f (nodeCtx s b.node))

/-- A 64-bit value in slots 0 and 1, the other slots invalid. -/
def InPair (v : Val) (x : Word64) : Prop :=
  ∀ k, k < 16 → slotOf v k = if k = 0 then some (BitVec.ofNat 32 x.toNat) else if k = 1 then some (BitVec.ofNat 32 (x.toNat / 2 ^ 32)) else none

/-- The word that an operand gives a register: K0 alone, or slots 1 and 0 with an invalid slot 1 read as 0; none without slot 0
(R132, R382, R383). -/
def givenWord (h : Hdr) (k0 : BitVec 32) (x : Val) : Option Word64 :=
  if h.imask.getLsbD 0 then some (BitVec.ofNat 64 k0.toNat)
  else (slotOf x 0).map (fun lo => BitVec.ofNat 64 (lo.toNat + 2 ^ 32 * ((slotOf x 1).getD 0).toNat))

/-- The special registers that RDSR reads (R381). -/
def registerOf (s : State) (b : BInst) (reg : Nat) : Option Word64 :=
  let c := nodeCtx s b.node
  let w := worldOf s b.node.w
  (([ (0x001, BitVec.ofNat 64 b.tag.colour.toNat), (0x002, BitVec.ofNat 64 b.tag.context.toNat), (0x003, BitVec.ofNat 64 b.tag.iter.toNat), (0x004, BitVec.ofNat 64 (cellIdWord b.cell))
    , (0x010, if c.replay then 1 else 0), (0x011, BitVec.ofNat 64 (reachOf s b.node.w b.node.x b.cell % 65536)), (0x012, c.srseed), (0x013, BitVec.ofNat 64 c.hintdrop)
    , (0x014, BitVec.ofNat 64 (coccWord s b)), (0x015, BitVec.ofNat 64 c.wdog), (0x016, if c.sysAttr then 1 else 0), (0x020, w.belfry), (0x022, w.ttab), (0x023, s.cgtab)
    , (0x024, w.schedbase), (0x025, BitVec.ofNat 64 (polstatWord w)), (0x026, w.ctab), (0x027, w.fltlog), (0x028, w.evtab), (0x029, w.catab) ] : List (Nat × Word64)).find? (fun e => e.1 == reg)).map (fun e => e.2)

/-- A word with only bits hi to lo kept. -/
def onlyBits (v : Word64) (hi lo : Nat) : Word64 := BitVec.ofNat 64 (field v.toNat lo (hi + 1 - lo) * 2 ^ lo)

/-! ### The logit unit and the policy machine -/

/-- The FP32 value of a logit register, and the code of an exact result (R194, R195). -/
def regNum (r : LogitRun) (k : BitVec 3) : Machine.Num := decodeElem fp32 (mget (0 : Slot) r.regs k.toNat).toNat
def codeOf (v : Exact) : Slot := BitVec.ofNat 32 (round v fp32 .rne 0)

/-- A logit instruction that writes `v` to its destination and goes on. -/
def LogitPuts (i : Instr) (d : BitVec 3) (v : LogitRun → Slot) : Prop :=
  ∀ s r, s.logit = some r → exec i s = .next { s with logit := some { r with regs := mput 0 r.regs d.toNat (v r), pc := r.pc + 1 } }

/-- A decision that the policy machine runs: in focus, undecided and within its budget (R334). -/
structure Decides (s : State) (w : BitVec 4) (d : Decision) : Prop where
  focus : s.focus = .policy w
  here : (worldOf s w).decision = some d
  open_ : d.outcome = none
  budget : d.count < 512

/-- The state with a world's decision changed. -/
def withDecision (s : State) (w : BitVec 4) (d : Decision) : State := setWorld s w { worldOf s w with decision := some d }

/-- A bytecode that writes `v` to its destination and goes on. -/
def PolicyPuts (i : Instr) (k : BitVec 4) (v : Decision → Word64) : Prop :=
  ∀ s w d, Decides s w d → exec i s = .next (withDecision s w { d with regs := mput 0 d.regs k.toNat (v d), pc := d.pc + 1, count := d.count + 1 })

/-- A bytecode that only goes on, at the index `pc`. -/
def PolicyGoes (i : Instr) (pc : Decision → Nat) : Prop :=
  ∀ s w d, Decides s w d → exec i s = .next (withDecision s w { d with pc := pc d, count := d.count + 1 })

/-- What the fallback decides: the candidate of highest priority, and of those the one of lowest index (R334). -/
def Fallback (d : Decision) (o : Choice) : Prop :=
  (∀ (i : Nat) c, d.cands[i]? = some c → (∀ (j : Nat) y, d.cands[j]? = some y → y.fields.getD 3 0 ≤ c.fields.getD 3 0 ∧ (y.fields.getD 3 0 = c.fields.getD 3 0 → i ≤ j)) →
    (d.kind = 0 → o = .pick c.task) ∧ (d.kind = 1 → o = .preempt c.task))
  ∧ (2 ≤ d.kind ∨ d.cands = [] → o = .defer)

/-- An outcome bytecode: a valid outcome is the decision's, and after an invalid one the fallback decides and the slot counts it
(R333, R334, R338). -/
def PolicyEnds (i : Instr) (f : Decision → Option Choice) : Prop :=
  ∀ s w d, Decides s w d → ∃ t, exec i s = .next t ∧ t = { s with worlds := t.worlds }
    ∧ (∀ o, f d = some o → (worldOf t w).decision = some { d with count := d.count + 1, outcome := some o })
    ∧ (f d = none → (∃ o, Fallback d o ∧ (worldOf t w).decision = some { d with count := d.count + 1, outcome := some o, invalid := true })
      ∧ (mget {} (worldOf t w).policies d.slot).inval = min ((mget {} (worldOf s w).policies d.slot).inval + 1) 0xFFFF)

/-! ### Events -/

/-- A token that came to a port and waits there in a buffer slot (R285). -/
def waits (p : PortId) (ch : Option ChanId) (t : Token) (hold : Option (Nat × Nat)) : PTok := { at_ := p, chan := ch, tok := t, entry := false, use := none, bkpt := hold }

/-- A token that has just been sent on a channel (R286). -/
def departs (ch : ChanId) (t : Token) : Flight := { chan := ch, tok := t, errs := 0, partialTok := false }

/-- The first token of a colour on a channel, and the port where it arrives. -/
structure Arrives (s : State) (ch : ChanId) (c : Colour) (f : Flight) (p : PortId) (pl : Placed) : Prop where
  head : s.flights.find? (fun f => f.chan == ch && f.tok.tag.colour == c) = some f
  port : (chanEnd s ch).bind (homePort s) = some p
  placed : placedOf s p.node = some pl
  whole : f.partialTok = false

/-- Only memory, the metadata of its lines, the lines of the Domes and what the monitors see may differ: accesses performed at their
homes. -/
def WritesOnly (s t : State) : Prop := t = { s with mem := t.mem, lines := t.lines, monitors := t.monitors, dome := t.dome }

/-- The addresses of `n` bytes from `a`. -/
def bytesAt (a n : Nat) : List Nat := (List.range n).map (fun i => a + i)

/-- An integer in two's complement of 32 bits. -/
def wrap32 (x : Int) : Nat := (x % 2 ^ 32).toNat

/-- The slots of a token: those of `l`, the others not valid. -/
def Shows (v : Val) (l : List (Option Nat)) : Prop := ∀ k, k < 16 → slotOf v k = (l.getD k none).map (BitVec.ofNat 32)

/-- A record was made: the world's record number went on (R372). -/
def Recorded (s t : State) (w : BitVec 4) : Prop := (worldOf t w).fltSeq = ((worldOf s w).fltSeq + 1) % 2 ^ 32

/-- A token of a port in its cell's output queue, for the channels it is to be sent on. -/
def queues (s : State) (n : NodeId) (port : Nat) (t : Token) : List OutTok :=
  if chansFrom s n port = [] then [] else [{ at_ := { node := n, port := port }, tok := t, todo := chansFrom s n port, sent := [], since := s.now, owner := none }]

/-- An operation reports: a DATA token from its channel target, or a record in the event queue of its spire (R268, R275). -/
structure Reported (s t : State) (o : EngOp) (v : Val) : Prop where
  toks : t.outq = s.outq ++ (match o.port with | some q => queues s o.node q { tag := o.tag, kind := .data, aux := 0, val := v } | none => [])
  evs : t.evqs = s.evqs ++ (match o.port with | some _ => [] | none => [{ spire := cellSpire o.cell, w := o.node.w, src := if o.isColl then 2 else 1, tag := o.tag, code := 0, val := v }])

/-! ### Queues -/

/-- Packet `idx` of a queue completes and is consumed, and its 16-byte record stands where it wanted one, if its world reaches
that place and it is clear of what the device writes into the queue's descriptor (R10, R306, R308). -/
structure Completes (s t : State) (w : BitVec 4) (q idx status cause : Nat) (task : BitVec 32) (tiles : Nat) : Prop where
  queue : queueOf t w q = settleQueue { queueOf s w q with
    pkts := updFirst (fun p => p.idx == idx) (fun p => { p with consumed := true, done := true }) (queueOf s w q).pkts }
  record : ∀ p a, (queueOf s w q).pkts.find? (fun p => p.idx == idx) = some p → p.cmpla = some a → reaches s w a = true → (a ≤ qdescAddr s w q ∨ qdescAddr s w q + 28 ≤ a) →
    word8 t.mem a 0 = (status + cause * 2 ^ 8 + task.toNat * 2 ^ 32) % 2 ^ 64 ∧ word8 t.mem a 1 = tiles % 2 ^ 64

/-- An instruction of a queue starts nothing while no packet may start or the next one is not its own, and a packet that breaks its rules puts the queue
in ERROR (R305, R306, R309). -/
def StartsOwn (i : Instr) (w : BitVec 4) (q : Nat) (img : Option Image) (mine : (Nat → Nat) → Prop) (s : State) : Prop :=
  (nextPkt s w q = none → exec i s = .next s)
  ∧ ∀ idx d, nextPkt s w q = some (idx, d) →
    (¬ mine d → exec i s = .next s)
    ∧ ∀ c, mine d → pktFault s w q d img = some c → ∃ t, exec i s = .next t ∧ (queueOf t w q).st = 2 ∧ (queueOf t w q).errs = min ((queueOf s w q).errs + 1) 255
      ∧ (queueOf t w q).started = (queueOf s w q).started ∧ (worldOf t w).tasks = (worldOf s w).tasks

/-- The program of a policy slot for a decision that starts now: that of a swap counts from the cycle after it (R337). -/
def programOf (s : State) (w : BitVec 4) (slot : Nat) : List (BitVec 32) :=
  if (mget {} (worldOf s w).policies slot).from_ ≤ s.now then (mget {} (worldOf s w).policies slot).prog else (mget {} (worldOf s w).policies slot).old

/-- The answer is a next state in which a decision of a world has begun over `s1`, with its snapshot of the subject and the candidates, its slot's
program at the first bytecode, or the fallback's outcome where the slot is empty (R327, R333, R334). -/
def Begins (r : Result) (s1 : State) (w : BitVec 4) (kind slot cause : Nat) (sub : Option Task) (l : List Task) : Prop :=
  ∃ t d, r = .next t ∧ t = { s1 with worlds := t.worlds } ∧ (worldOf t w).decision = some d ∧ (worldOf t w).tasks = (worldOf s1 w).tasks
    ∧ (worldOf t w).triggers = (worldOf s1 w).triggers ∧ d.kind = kind ∧ d.slot = slot ∧ d.cause = cause ∧ d.subject = sub.map (fun x => candOf s1 w x cause)
    ∧ d.cands = l.map (fun x => candOf s1 w x 0) ∧ d.start = s1.now ∧ d.pc = 0 ∧ d.count = 0 ∧ d.prog = programOf s1 w slot
    ∧ (d.prog ≠ [] → d.outcome = none) ∧ (d.prog = [] → ∃ o, Fallback d o ∧ d.outcome = some o)

/-- A task is no longer among a world's tasks. -/
def TaskGone (t : State) (w : BitVec 4) (id : BitVec 32) : Prop := ∀ y, y ∈ (worldOf t w).tasks → y.id ≠ id

/-! ### The whole machine -/

/-- The op and the header of a main instruction, as its encoding has them (R72). -/
def Coded (i : Instr) (op : Nat) (h : Hdr) : Prop := ∃ n w, encode i = some (n, w) ∧ 128 ≤ n ∧ Hdr.read (w / 2 ^ 64 % 2 ^ 64) = some (op, h)

/-- Nothing can run the instruction at the pc: no instance in focus executes, or a predicate that its guard reads or an operand is not there
(R39). -/
def Waits (h : Hdr) (s : State) : Prop :=
  ∀ b, focusInst s = some b → b.stage ≠ .open_ ∨ b.raised ≠ none ∨ guardOf h b = none ∨ operands h (fun _ => noVal) b = none

/-- Where the record numbered `seq` of a world's fault log lies (R372). -/
def logPlace (x : World) (seq : Nat) : Nat := field x.fltlog.toNat 12 40 * 2 ^ 12 + 64 * (seq % 2 ^ max 4 (field x.fltlog.toNat 8 4))

/-- The sixteen slots of the record of an instance's fault in `slot`, number `seq` of its world (R369); `node` is the node's number on its cell. -/
def faultRecord (b : BInst) (r : Report) (slot node : Nat) (nest : Bool) (now seq : Nat) : List Nat :=
  [ r.cause.code + (if r.hard then 2 ^ 8 else 0) + (if nest then 2 ^ 9 else 0) + b.blk % 2 ^ 6 * 2 ^ 16 + slot % 2 ^ 7 * 2 ^ 22,
    b.cell % 128 + b.cell / 128 * 2 ^ 7 + node % 2 ^ 4 * 2 ^ 14 + b.tag.colour.toNat * 2 ^ 18,
    b.node.x.toNat + b.tag.iter.toNat * 2 ^ 16,
    r.iters.getD 0 0 % 2 ^ 32, r.iters.getD 1 0 % 2 ^ 32, r.iters.getD 2 0 % 2 ^ 32, r.iters.getD 3 0 % 2 ^ 32, r.iters.getD 4 0 % 2 ^ 32,
    r.n % 2 ^ 32, r.addr % 2 ^ 32, r.addr / 2 ^ 32 % 2 ^ 32, r.detail + r.level * 2 ^ 8, r.entry % 2 ^ 4 + r.trap % 2 ^ 12 * 2 ^ 4 + b.gen % 2 ^ 16 * 2 ^ 16,
    now % 2 ^ 32, now / 2 ^ 32 % 2 ^ 16, seq % 2 ^ 32 ]

end Sys2Proof.Claims
end

