-- ==== Sys2Proof/Certificates/Slice0/Obligations.lean ====
section
/-! DEFINITION. The statements for the provers. -/

open Sys2Proof Sys2Proof.Machine Sys2Proof.Claims

/-! ### Integer, bit and address instructions -/

/-- R139: sums, differences, products, negation and absolute value of integers, per element. R139: division truncates toward zero and gives every bit 1 for a divisor of 0; the remainder follows the dividend;
minimum, maximum and clamp are by type. -/
def Obligations.IntegerArithmeticResults : Prop :=
  (
  IntResult .iadd (fun sg w l c => (c : Int) = (typedAt sg w l 0 + typedAt sg w l 1) % 2 ^ w)
  ∧ IntResult .isub (fun sg w l c => (c : Int) = (typedAt sg w l 0 - typedAt sg w l 1) % 2 ^ w)
  ∧ IntResult .iadds (fun sg w l c => typed sg w c = max (leastOf sg w) (min (greatestOf sg w) (typedAt sg w l 0 + typedAt sg w l 1)))
  ∧ IntResult .isubs (fun sg w l c => typed sg w c = max (leastOf sg w) (min (greatestOf sg w) (typedAt sg w l 0 - typedAt sg w l 1)))
  ∧ IntResult .imul (fun sg w l c => (c : Int) = typedAt sg w l 0 * typedAt sg w l 1 % 2 ^ w)
  ∧ IntResult .imulh (fun sg w l c => (c : Int) = typedAt sg w l 0 * typedAt sg w l 1 / 2 ^ w % 2 ^ w)
  ∧ IntResult .imad (fun sg w l c => (c : Int) = (typedAt sg w l 0 * typedAt sg w l 1 + typedAt sg w l 2) % 2 ^ w)
  ∧ IntResult .ineg (fun sg w l c => (c : Int) = -typedAt sg w l 0 % 2 ^ w)
  ∧ IntResult .iabs (fun sg w l c => c = (typedAt sg w l 0).natAbs % 2 ^ w))
  ∧ (
  IntResult .idiv (fun sg w l c =>
    (c : Int) = if bitsAt l 1 = 0 then 2 ^ w - 1 else (typedAt sg w l 0).tdiv (typedAt sg w l 1) % 2 ^ w)
  ∧ IntResult .irem (fun sg w l c =>
    (c : Int) = if bitsAt l 1 = 0 then (bitsAt l 0 : Int)
      else (typedAt sg w l 0 - typedAt sg w l 1 * (typedAt sg w l 0).tdiv (typedAt sg w l 1)) % 2 ^ w)
  ∧ IntResult .imin (fun sg w l c => typed sg w c = min (typedAt sg w l 0) (typedAt sg w l 1))
  ∧ IntResult .imax (fun sg w l c => typed sg w c = max (typedAt sg w l 0) (typedAt sg w l 1))
  ∧ IntResult .iclamp (fun sg w l c => typed sg w c = min (max (typedAt sg w l 0) (typedAt sg w l 1)) (typedAt sg w l 2)))

/-- R139: the bitwise operations, shifts and the rotation, bit by bit; a shift takes the low log2 w bits of its amount. R139, R140: bit counts, reversal, field extraction and insertion. -/
def Obligations.BitwiseResults : Prop :=
  (
  IntResult .andBits (fun _ w l c => ∀ j, j < w → c.testBit j = (bitAt l 0 j && bitAt l 1 j))
  ∧ IntResult .orBits (fun _ w l c => ∀ j, j < w → c.testBit j = (bitAt l 0 j || bitAt l 1 j))
  ∧ IntResult .xorBits (fun _ w l c => ∀ j, j < w → c.testBit j = (bitAt l 0 j ^^ bitAt l 1 j))
  ∧ IntResult .notBits (fun _ w l c => ∀ j, j < w → c.testBit j = !bitAt l 0 j)
  ∧ IntResult .andn (fun _ w l c => ∀ j, j < w → c.testBit j = (bitAt l 0 j && !bitAt l 1 j))
  ∧ IntResult .shl (fun _ w l c => let k := bitsAt l 1 % w; ∀ j, j < w → c.testBit j = (decide (k ≤ j) && bitAt l 0 (j - k)))
  ∧ IntResult .shr (fun _ w l c => let k := bitsAt l 1 % w; ∀ j, j < w → c.testBit j = (decide (j + k < w) && bitAt l 0 (j + k)))
  ∧ IntResult .shra (fun _ w l c => let k := bitsAt l 1 % w; ∀ j, j < w → c.testBit j = bitAt l 0 (min (j + k) (w - 1)))
  ∧ IntResult .rotl (fun _ w l c => let k := bitsAt l 1 % w; ∀ j, j < w → c.testBit ((j + k) % w) = bitAt l 0 j))
  ∧ (
  IntResult .popc (fun _ w l c => c = ((List.range w).filter (bitAt l 0)).length)
  ∧ IntResult .clz (fun _ w l c =>
    c ≤ w ∧ (∀ j, j < c → bitAt l 0 (w - 1 - j) = false) ∧ (c < w → bitAt l 0 (w - 1 - c) = true))
  ∧ IntResult .ctz (fun _ w l c => c ≤ w ∧ (∀ j, j < c → bitAt l 0 j = false) ∧ (c < w → bitAt l 0 c = true))
  ∧ IntResult .brev (fun _ w l c => ∀ j, j < w → c.testBit j = bitAt l 0 (w - 1 - j))
  ∧ IntResult .bfx (fun sg w l c =>
    let pos := bitsAt l 1 % w
    let len := min (bitsAt l 2) (w - pos)
    ∀ j, j < w → c.testBit j = if j < len then bitAt l 0 (pos + j) else sg && decide (0 < len) && bitAt l 0 (pos + len - 1))
  ∧ IntResult .bfi (fun _ w l c =>
    let pos := bitsAt l 2 % w
    let len := min (bitsAt l 3) (w - pos)
    ∀ j, j < w → c.testBit j = if pos ≤ j ∧ j < pos + len then bitAt l 1 (j - pos) else bitAt l 0 j))

/-- R141: comparisons by type deliver 1 or 0, SEL chooses by its first operand, and MOV delivers its operand. -/
def Obligations.CompareSelectMoveResults : Prop :=
  IntResult .icmpeq (fun sg w l c => c = if typedAt sg w l 0 = typedAt sg w l 1 then 1 else 0)
  ∧ IntResult .icmpne (fun sg w l c => c = if typedAt sg w l 0 ≠ typedAt sg w l 1 then 1 else 0)
  ∧ IntResult .icmplt (fun sg w l c => c = if typedAt sg w l 0 < typedAt sg w l 1 then 1 else 0)
  ∧ IntResult .icmple (fun sg w l c => c = if typedAt sg w l 0 ≤ typedAt sg w l 1 then 1 else 0)
  ∧ IntResult .icmpgt (fun sg w l c => c = if typedAt sg w l 1 < typedAt sg w l 0 then 1 else 0)
  ∧ IntResult .icmpge (fun sg w l c => c = if typedAt sg w l 1 ≤ typedAt sg w l 0 then 1 else 0)
  ∧ IntResult .sel (fun _ _ l c => c = if bitsAt l 0 = 0 then bitsAt l 2 else bitsAt l 1)
  ∧ IntResult .mov (fun _ _ l c => c = bitsAt l 0)

/-- R142: AADD, AMAD and ASUB deliver the exact result where every one lies from 0 to below 2^57, and raise ADDR_OVERFLOW
naming the first element that does not; ACHK never raises. -/
def Obligations.AddressFormResults : Prop :=
  AddressResult .aadd (fun a l => a + l.getD 0 0)
  ∧ AddressResult .amad (fun a l => a + l.getD 0 0 * l.getD 1 0)
  ∧ AddressResult .asub (fun a l => a - l.getD 0 0)
  ∧ ∀ h p s b xs, Fires h (kConsts true p.k) s b xs →
    ElementWise (exec (.achk h p) s) h s b 64 xs (fun _ l c =>
      c = if bitsAt l 1 ≤ bitsAt l 0 ∧ bitsAt l 0 < bitsAt l 1 + bitsAt l 2 ∧ bitsAt l 1 + bitsAt l 2 ≤ 2 ^ 57 then 1 else 0)

/-! ### Float vector instructions and transcendentals -/

/-- R144, R145: each forms the exact result of its decoded operands and rounds it once; one that names a refused entry raises
FORMAT_ENTRY. What an entry without a zero gets there is a free value (assumption 36). -/
def Obligations.FloatRoundsOnce : Prop :=
  RoundedResult .fadd (fun down e l => (sumNums down [valueAt e l 0, valueAt e l 1]).toExact)
  ∧ RoundedResult .fsub (fun down e l => (sumNums down [valueAt e l 0, (valueAt e l 1).neg]).toExact)
  ∧ RoundedResult .fmul (fun _ e l => ((valueAt e l 0).mul (valueAt e l 1)).toExact)
  ∧ RoundedResult .fma (fun down e l => (sumNums down [(valueAt e l 0).mul (valueAt e l 1), valueAt e l 2]).toExact)
  ∧ RoundedResult .fms (fun down e l => (sumNums down [(valueAt e l 0).mul (valueAt e l 1), (valueAt e l 2).neg]).toExact)
  ∧ RoundedResult .fnma (fun down e l => (sumNums down [((valueAt e l 0).mul (valueAt e l 1)).neg, valueAt e l 2]).toExact)
  ∧ RoundedResult .fdiv (fun _ e l => divNum (valueAt e l 0) (valueAt e l 1))
  ∧ RoundedResult .fsqrt (fun _ e l => sqrtNum (valueAt e l 0))

/-- R146, R147: the float instructions that do not round, on codes and by value. R148, R149: FRINT rounds to an integer value and writes it in the same entry; a transcendental rounds the value of its
function once, and the special inputs are those of R149's table. The exactness of FRINT in its entry and the precision
that is carried are the model's (assumptions 6, 35, 36). -/
def Obligations.FloatSelectionsAndTranscendentals : Prop :=
  (
  let pick (big : Bool) (e : Fmt) (l : List Nat) (c : Nat) : Prop :=
    let x := valueAt e l 0
    let y := valueAt e l 1
    if x = .nan ∧ y = .nan then c = special e .nan false .rne % 2 ^ e.cont
    else if x = .nan then c = bitsAt l 1
    else if y = .nan then c = bitsAt l 0
    else (c = bitsAt l 0 ∧ (if big then x.before y else y.before x) = false) ∨ (c = bitsAt l 1 ∧ (if big then y.before x else x.before y) = false)
  let compared (f : Option Ordering → Prop) (e : Fmt) (l : List Nat) (c : Nat) : Prop :=
    (c = 1 ∧ f ((valueAt e l 0).cmp (valueAt e l 1))) ∨ (c = 0 ∧ ¬ f ((valueAt e l 0).cmp (valueAt e l 1)))
  let signed (f : Bool → Bool → Bool) (e : Fmt) (l : List Nat) (c : Nat) : Prop :=
    if e.sgn = 0 then c = bitsAt l 0
    else ∀ j, j < e.cont → c.testBit j = if j = e.width - 1 then f (bitAt l 0 j) (bitAt l 1 j) else bitAt l 0 j
  FloatResult .fmin (fun e _ _ l c => pick false e l c)
  ∧ FloatResult .fmax (fun e _ _ l c => pick true e l c)
  ∧ FloatResult .fneg (fun e _ _ l c => signed (fun a _ => !a) e l c)
  ∧ FloatResult .fabs (fun e _ _ l c => signed (fun _ _ => false) e l c)
  ∧ FloatResult .fcpys (fun e _ _ l c => signed (fun _ b => b) e l c)
  ∧ FloatResult .fcmpeq (fun e _ _ l c => compared (· = some .eq) e l c)
  ∧ FloatResult .fcmpne (fun e _ _ l c => compared (· ≠ some .eq) e l c)
  ∧ FloatResult .fcmplt (fun e _ _ l c => compared (· = some .lt) e l c)
  ∧ FloatResult .fcmple (fun e _ _ l c => compared (fun o => o = some .lt ∨ o = some .eq) e l c)
  ∧ FloatResult .fcmpun (fun e _ _ l c => c = if valueAt e l 0 = .nan ∨ valueAt e l 1 = .nan then 1 else 0)
  ∧ FloatResult .fclass (fun e _ _ l c =>
    let sub := e.enc = false ∧ 0 < e.exp ∧ 0 < e.frac ∧ bitsAt l 0 / 2 ^ e.frac % 2 ^ e.exp = 0
    match valueAt e l 0 with
    | .nan => c = 2 ^ 8
    | .inf neg => c = if neg then 2 ^ 0 else 2 ^ 7
    | .fin neg n _ =>
      if n = 0 then c = if neg ∧ e.enc = false then 2 ^ 3 else 2 ^ 4
      else (sub → c = if neg then 2 ^ 2 else 2 ^ 5) ∧ (¬ sub → c = if neg then 2 ^ 1 else 2 ^ 6)))
  ∧ (
  FloatResult .frint (fun e m noise l c =>
    match (valueAt e l 0).toExact with
    | .rat neg n d => c = round (.rat neg (roundInt (resolveRnd m e) neg n d noise) 1) e m noise % 2 ^ e.cont
    | v => c = round v e m noise % 2 ^ e.cont)
  ∧ TransResult .exp2 exp2Num ∧ TransResult .log2 log2Num ∧ TransResult .rcp rcpNum ∧ TransResult .rsq rsqNum
  ∧ TransResult .tanh tanhNum ∧ TransResult .sin sinNum
  ∧ (∀ f, f ∈ [exp2Num, log2Num, rcpNum, rsqNum, tanhNum, sinNum] → f .nan = .nan)
  ∧ [exp2Num, log2Num, rcpNum, rsqNum, tanhNum, sinNum].map (fun f => f (.inf false))
    = [.inf false, .inf false, .rat false 0 1, .rat false 0 1, .rat false 1 1, .nan]
  ∧ [exp2Num, log2Num, rcpNum, rsqNum, tanhNum, sinNum].map (fun f => f (.inf true))
    = [.rat false 0 1, .nan, .rat true 0 1, .nan, .rat true 1 1, .nan]
  ∧ (∀ e, [exp2Num, log2Num, rcpNum, rsqNum, tanhNum, sinNum].map (fun f => f (.fin false 0 e))
    = [.rat false 1 1, .inf true, .inf false, .inf false, .rat false 0 1, .rat false 0 1])
  ∧ (∀ e, [exp2Num, log2Num, rcpNum, rsqNum, tanhNum, sinNum].map (fun f => f (.fin true 0 e))
    = [.rat false 1 1, .inf true, .inf true, .inf true, .rat true 0 1, .rat true 0 1])
  ∧ (∀ n e, n ≠ 0 → log2Num (.fin true n e) = .nan ∧ rsqNum (.fin true n e) = .nan))

/-! ### Lane and token instructions -/

/-- R151: the slot moves. -/
def Obligations.SlotMoveResults : Prop :=
  SlotResult .lbcast (fun _ p xs _ => slotOf (xs.getD 0 noVal) (p.lctl.toNat % 16))
  ∧ SlotResult .lshuf (fun _ _ xs k =>
    match slotOf (xs.getD 1 noVal) k with
    | none => none
    | some i => slotOf (xs.getD 0 noVal) (i.toNat % 16))
  ∧ SlotResult .lrot (fun _ p xs k => slotOf (xs.getD 0 noVal) (((k : Int) - (p.lctl.toNat % 16 : Nat)) % 16).toNat)
  ∧ SlotResult .lsel (fun _ p xs k => if p.lctl.getLsbD k then slotOf (xs.getD 1 noVal) k else slotOf (xs.getD 0 noVal) k)
  ∧ SlotResult .vmask (fun h p xs k =>
    let bit := if h.nopd = 1 then p.lctl.getLsbD k else (slotOf (xs.getD 1 noVal) 0).any (fun m => m.getLsbD k)
    if bit then slotOf (xs.getD 0 noVal) k else none)
  ∧ SlotResult .vget (fun _ _ xs k => if k = 0 then some ((xs.getD 0 noVal).valid.setWidth 32) else none)

/-- R152: LIOTA counts up from element 0 of its base, or from 0; LSCAN rounds the exact sum of the valid elements up to each. R153: the reductions read only valid elements.
RMIN and RMAX of one valid NaN deliver it as it is, and RISUM's predicate is of its whole result (the model's,
assumptions 53, 62). -/
def Obligations.ScanAndReductionResults : Prop :=
  (
  (∀ h p s b xs, Fires h (k0Const p.k0) s b xs →
    let w := codeWidth h.fmt
    let base : Option Nat := if xs = [] then some 0 else elemOf w (xs.getD 0 noVal) 0
    ∃ v q, exec (.liota h p) s = .next (delivered h 0 s b 1 v q) ∧ FirstNonzero w v q
      ∧ (base = none → ∀ k, k < 16 → slotOf v k = none)
      ∧ ∀ a n, base = some a → n < elemCount w → elemOf w v n = some ((a + n) % 2 ^ w))
  ∧ ∀ h p s b xs, Fires h (k0Const p.k0) s b xs →
    let e := entryOf s b h.fmt.toNat
    let x := xs.getD 0 noVal
    (vectorEntry (entryWord s b h.fmt.toNat) = false → exec (.lscan h p) s = .next (raiseFormat s b h.fmt.toNat))
    ∧ (vectorEntry (entryWord s b h.fmt.toNat) = true →
      ∃ v q, exec (.lscan h p) s = .next (delivered h 0 s b 1 v q) ∧ FirstNonzero e.cont v q
        ∧ ∀ n, n < elemCount e.cont → elemOf e.cont v n = (elemOf e.cont x n).map (fun _ =>
          roundNum (sumNums (isDown h.rnd e) ((((elems e.cont x).take (n + 1)).filterMap id).map (decodeElem e))) e h.rnd ((srOf s b).noise n) % 2 ^ e.cont)))
  ∧ (
  FloatReduceResult .rsum (fun e m noise l => roundNum (sumNums (isDown m e) (l.map (decodeElem e))) e m noise)
  ∧ FloatReduceResult .rmax (fun e _ _ l => l.tail.foldl (pickCode e true) (l.headD 0))
  ∧ FloatReduceResult .rmin (fun e _ _ l => l.tail.foldl (pickCode e false) (l.headD 0))
  ∧ ReduceResult .risum (fun sg w l m => m = (l.map (typed sg w)).sum)
  ∧ ReduceResult .rimax (fun sg w l m => m ∈ l.map (typed sg w) ∧ ∀ x, x ∈ l.map (typed sg w) → x ≤ m)
  ∧ ReduceResult .rimin (fun sg w l m => m ∈ l.map (typed sg w) ∧ ∀ x, x ∈ l.map (typed sg w) → m ≤ x)
  ∧ ReduceResult .rand (fun _ w l m => 0 ≤ m ∧ m < 2 ^ w ∧ ∀ j, j < w → m.toNat.testBit j = l.all (fun x => x.testBit j))
  ∧ ReduceResult .ror (fun _ w l m => 0 ≤ m ∧ m < 2 ^ w ∧ ∀ j, j < w → m.toNat.testBit j = l.any (fun x => x.testBit j)))

/-! ### Convert and quantise instructions -/

/-- R125, R155: CVT, CVTF and CVTI convert each element through its exact value; CVTI saturates, with NaN giving 0. R156, R159: CVPK2 and CVPK4 pack the converted sources of a slot, UNPK2 and UNPK4 convert element J of a slot, and QAPPLY
decodes sixteen elements of a blocked format with their headers. -/
def Obligations.ConversionResults : Prop :=
  (
  (∀ h p s b xs, Fires h (k0Const p.k0) s b xs →
    let a := entryOf s b h.fmt.toNat
    let d := entryOf s b p.dfmt.toNat
    EntriesThen (exec (.cvt h p) s) s b h.fmt p.dfmt Plain (fun y => Plain y ∧ contW y = a.cont)
      (ElementWise (exec (.cvt h p) s) h s b d.cont xs (fun n l c =>
        c = roundNum (valueAt a l 0) d h.rnd ((srOf s b).noise n) % 2 ^ d.cont)))
  ∧ (∀ h p s b xs, Fires h (k0Const p.k0) s b xs →
    let w := codeWidth h.fmt
    let d := entryOf s b p.dfmt.toNat
    EntriesThen (exec (.cvtf h p) s) s b h.fmt p.dfmt (fun _ => True) (fun y => Plain y ∧ contW y = w)
      (ElementWise (exec (.cvtf h p) s) h s b w xs (fun n l c =>
        c = roundNum (.ofInt (typedAt (codeSigned h.fmt) w l 0)) d h.rnd ((srOf s b).noise n) % 2 ^ w)))
  ∧ (∀ h p s b xs, Fires h (k0Const p.k0) s b xs →
    let w := codeWidth p.dfmt
    let sg := codeSigned p.dfmt
    let a := entryOf s b h.fmt.toNat
    EntriesThen (exec (.cvti h p) s) s b h.fmt p.dfmt (fun x => Plain x ∧ contW x = w) (fun _ => True)
      (ElementWise (exec (.cvti h p) s) h s b w xs (fun n l c =>
        match (valueAt a l 0).toExact with
        | .nan => c = 0
        | .inf neg => typed sg w c = if neg then leastOf sg w else greatestOf sg w
        | .rat neg k dn =>
          let z : Int := roundInt (if h.rnd = .dflt then .rne else h.rnd) neg k dn ((srOf s b).noise n)
          typed sg w c = max (leastOf sg w) (min (greatestOf sg w) (if neg then -z else z))))))
  ∧ (
  let cv (s : State) (b : BInst) (h : Hdr) (p : PayV) (x : Nat) (n : Nat) : Nat :=
    roundNum (decodeElem (entryOf s b h.fmt.toNat) x) (entryOf s b p.dfmt.toNat) h.rnd ((srOf s b).noise n) % 2 ^ (entryOf s b p.dfmt.toNat).cont
  (∀ h p s b x y, Fires h (k0Const p.k0) s b [x, y] →
    EntriesThen (exec (.cvpk2 h p) s) s b h.fmt p.dfmt (fun e => Plain e ∧ contW e = 32) (fun e => Plain e ∧ contW e = 16)
      (Slots (exec (.cvpk2 h p) s) h s b 16 (fun k =>
        match slotOf x k, slotOf y k with
        | some u, some v => some (BitVec.ofNat 32 (cv s b h p u.toNat (2 * k) + 2 ^ 16 * cv s b h p v.toNat (2 * k + 1)))
        | _, _ => none)))
  ∧ (∀ h p s b x0 x1 x2 x3, Fires h (k0Const p.k0) s b [x0, x1, x2, x3] →
    let c := (entryOf s b p.dfmt.toNat).cont
    let off := if p.vctl.getLsbD 0 then 4 else 0
    EntriesThen (exec (.cvpk4 h p) s) s b h.fmt p.dfmt (fun e => Plain e ∧ contW e = 32)
      (fun e => Plain e ∧ ((contW e = 8 ∧ p.vctl.getLsbD 0 = false) ∨ contW e = 4))
      (Slots (exec (.cvpk4 h p) s) h s b c (fun k =>
        match slotOf x0 k, slotOf x1 k, slotOf x2 k, slotOf x3 k with
        | some u0, some u1, some u2, some u3 =>
          let n := k * (32 / c) + off
          some (BitVec.ofNat 32 (2 ^ (c * off) * (cv s b h p u0.toNat n + 2 ^ c * (cv s b h p u1.toNat (n + 1)
            + 2 ^ c * (cv s b h p u2.toNat (n + 2) + 2 ^ c * cv s b h p u3.toNat (n + 3))))))
        | _, _, _, _ => none)))
  ∧ (∀ h p s b x, Fires h (k0Const p.k0) s b [x] →
    let u (c : Nat) (k : Nat) : Option Slot := (slotOf x k).map (fun y => BitVec.ofNat 32 (cv s b h p (y.toNat / 2 ^ (c * p.vctl.toNat) % 2 ^ c) k))
    EntriesThen (exec (.unpk2 h p) s) s b h.fmt p.dfmt (fun e => Plain e ∧ contW e = 16) (fun e => Plain e ∧ contW e = 32)
      (Slots (exec (.unpk2 h p) s) h s b 32 (u 16))
    ∧ EntriesThen (exec (.unpk4 h p) s) s b h.fmt p.dfmt (fun e => Plain e ∧ ((contW e = 8 ∧ p.vctl.toNat < 4) ∨ contW e = 4))
      (fun e => Plain e ∧ contW e = 32) (Slots (exec (.unpk4 h p) s) h s b 32 (u (entryOf s b h.fmt.toNat).cont)))
  ∧ (∀ h p s b x sc, Fires h (k0Const p.k0) s b [x, sc] →
    let a := entryOf s b h.fmt.toNat
    let d := entryOf s b p.dfmt.toNat
    let n (k : Nat) : Nat := 16 * (p.vctl.toNat % 8) + k
    let blk (k : Nat) : Nat := (p.vctl.toNat / 8 * (512 / a.cont) + n k) / a.block
    EntriesThen (exec (.qapply h p) s) s b h.fmt p.dfmt (fun e => legalEntry e = true ∧ (Fmt.ofWord e).block ≠ 0) (fun e => Plain e ∧ contW e = 32)
      (Slots (exec (.qapply h p) s) h s b 32 (fun k =>
        if 512 / a.cont ≤ n k ∨ 32 ≤ blk k then none
        else match elemOf a.cont x (n k), elemOf 16 sc (blk k) with
          | some code, some hdr => some (BitVec.ofNat 32 (roundNum (blockElem a hdr code) d h.rnd ((srOf s b).noise k)))
          | _, _ => none))))

/-- R158: a QBLK that fires hands its token to the group of its key at commit, with both entries of its generation. -/
def Obligations.BlockQuantiseAppends : Prop :=
  ∀ h p s b x q, Fires h (k0Const p.k0) s b [x] → h.t0 = .chan q →
    let g := p.vctl.toNat + 1
    EntriesThen (exec (.qblk h p) s) s b h.fmt p.dfmt (fun e => Plain e ∧ contW e = 32)
      (fun e => legalEntry e = true ∧ (Fmt.ofWord e).block ≠ 0 ∧ g % max (32 / contW e) ((Fmt.ofWord e).block / 16) = 0)
      (exec (.qblk h p) s = .next (putInst s { b with
        pc := b.pc + 1
        effs := b.effs ++ [.qblk q.toNat g (entryWord s b h.fmt.toNat) (entryWord s b p.dfmt.toNat) h.rnd ((srOf s b).seed, b.blk, b.pc) x] }))

/-! ### Control and graph instructions -/

/-- R90–R92: END, BR and BRX take an exit, and the lowest taken exit is the instance's; BRX clamps its index. -/
def Obligations.ExitsTaken : Prop :=
  let took (r : Result) (s : State) (b : BInst) (e : Exit) : Prop :=
    (b.exit = none → r = .next (putInst s { b with pc := b.pc + 1, exit := some e })) ∧ (b.exit ≠ none → r = .next (putInst s { b with pc := b.pc + 1 }))
  (∀ h p s b xs, Fires h (k0Const p.k0) s b xs → took (exec (.exitEnd h p) s) s b .fin)
  ∧ (∀ h p s b xs, Fires h (k0Const p.k0) s b xs → took (exec (.br h p) s) s b (.chain p.blk.toNat xs))
  ∧ (∀ h p s b x xs, Fires h (k0Const p.k0) s b (x :: xs) →
    let i := match slotOf x 0 with
      | some w => w.toNat
      | none => 0
    took (exec (.brx h p) s) s b (.chain (p.blk.toNat + min i (p.cctl.toNat % 64)) xs))

/-- R95: EMIT delivers its operand unchanged, with the AUX that its AUXI names. -/
def Obligations.EmitDeliversOperand : Prop :=
  ∀ h p s b x, Fires h (k0Const p.k0) s b [x] →
    ∃ q, exec (.emit h p) s = .next (delivered h p.auxi s b 1 x q) ∧ (q = true ↔ ∃ w, slotOf x 0 = some w ∧ w ≠ 0)

/-- R97: MERGE delivers in each slot the value of the lowest operand that is valid in it. -/
def Obligations.MergeTakesLowestValid : Prop :=
  ∀ h p s b xs, Fires h (k0Const p.k0) s b xs →
    ∃ v q, exec (.merge h p) s = .next (delivered h p.auxi s b 1 v q) ∧ (q = true ↔ ∃ w, slotOf v 0 = some w ∧ w ≠ 0)
      ∧ ∀ k, k < 16 → slotOf v k = (xs.filterMap (fun x => slotOf x k)).head?

/-- R98: GATE delivers operand 0 once every operand is there, whatever the others hold, and waits until then. -/
def Obligations.GateHoldsOperandZero : Prop :=
  (∀ h p s b x xs, Fires h (k0Const p.k0) s b (x :: xs) →
    ∃ q, exec (.gate h p) s = .next (delivered h p.auxi s b 1 x q) ∧ (q = true ↔ ∃ w, slotOf x 0 = some w ∧ w ≠ 0))
  ∧ ∀ h p s b, Executes s b → operands h (k0Const p.k0) b = none → exec (.gate h p) s = .next s

/-- R99: DROP consumes its operands and delivers nothing. -/
def Obligations.DropDeliversNothing : Prop :=
  ∀ h p s b xs, Fires h (k0Const p.k0) s b xs → exec (.drop h p) s = .next (putInst s { b with pc := b.pc + 1 })

/-- R96, R100: STEER splits its operand by its selector, and ITER delivers the indices of the firing. -/
def Obligations.SteerAndIterResults : Prop :=
  (∀ h p s b x sel, Fires h (k0Const p.k0) s b [x, sel] →
    let slotw := p.cctl.getLsbD 0
    let dropc := p.cctl.getLsbD 1
    let first := ((List.range 16).filterMap (slotOf sel)).head?
    let goes (side : Bool) (k : Nat) : Prop :=
      if slotw then ∃ y, slotOf sel k = some y ∧ (if side then y = 0 else y ≠ 0) else ∃ y, first = some y ∧ (if side then y = 0 else y ≠ 0)
    let target (t : Target) (v : Val) : Target := if dropc ∧ t.isChan ∧ v.valid = 0 then .none else t
    ∃ v0 v1, exec (.steer h p) s = .next (putInst s (advance 1 (deliver { h with t0 := target h.t0 v0, t1 := target h.t1 v1 } p.auxi
        { v0 := v0, p0 := v0.valid != 0, v1 := v1, p1 := v1.valid != 0 } b)))
      ∧ (∀ k, k < 16 → (goes false k → slotOf v0 k = slotOf x k) ∧ (¬ goes false k → slotOf v0 k = none))
      ∧ (∀ k, k < 16 → (goes true k → slotOf v1 k = slotOf x k) ∧ (¬ goes true k → slotOf v1 k = none)))
  ∧ (∀ h p s b xs, Fires h (k0Const p.k0) s b xs →
    let exts := ((s.nests.find? (fun r => r.inv == b.inv)).map (fun r => r.exts)).getD (((placedOf s b.node).bind nodeNest).getD [])
    ∃ v q, exec (.iter h p) s = .next (delivered h p.auxi s b 1 v q) ∧ q = false
      ∧ ∀ k, k < 16 → slotOf v k = match b.point with
        | none => none
        | some (is, n) =>
          if k = 5 then some (BitVec.ofNat 32 n)
          else if 1 ≤ k ∧ k ≤ 4 ∧ exts.getD (k - 1) 0 ≠ 0 then some (BitVec.ofNat 32 (is.getD (k - 1) 0)) else none)

/-- R102, R103: a counter instruction of a node that does not own the counter, or a writer of one that a nest holds, faults with
PERMISSION; otherwise CNTLD and CNTSTEP change the counter at commit and CNTRD and CNTSTEP deliver its word. R104: GOTX and HALTX send a control token to each successor whose bit is set in the mask, in ascending order, at commit.
What a nest-held counter holds is the model's reading (assumption 42). -/
def Obligations.CountersAndControlTokens : Prop :=
  (
  (∀ h p s b xs, Fires h (k0Const p.k0) s b xs →
    let k := p.cctl.toNat % 8
    let word := BitVec.ofNat 32 (cntWord (counterNow b k))
    (ownsCounter s b k = false → ∀ i, i ∈ [Instr.cntld h p, Instr.cntrd h p, Instr.cntstep h p] → exec i s = .next (raise s b (fail .permission)))
    ∧ (nestHolds s b k = true → ∀ i, i ∈ [Instr.cntld h p, Instr.cntstep h p] → exec i s = .next (raise s b (fail .permission)))
    ∧ (ownsCounter s b k = true → ∃ v q, exec (.cntrd h p) s = .next (delivered h p.auxi s b 1 v q)
      ∧ ∀ j, j < 16 → slotOf v j = if j = 0 then some word else none)
    ∧ (ownsCounter s b k = true → nestHolds s b k = false →
      (∀ x, xs = [x] → exec (.cntld h p) s = .next (putInst s { b with
        pc := b.pc + 1
        effs := b.effs ++ (match slotOf x 0 with
          | none => []
          | some w => [.counterLoad k w (if p.cctl.getLsbD 6 then some (p.cctl.toNat / 8 % 8) else none)]) }))
      ∧ ∃ v q t, exec (.cntstep h p) s = .next t ∧ t = putInst s (advance 1 (addEff (.counterStep k) (deliver h p.auxi (same v q) b)))
        ∧ ∀ j, j < 16 → slotOf v j = if j = 0 then some word
          else if j = 1 then some (BitVec.ofNat 32 (stepCounter b.cell 8 (applyCounters b.cell b.counters0 b.effs) k).2) else none))
  ∧ (∀ cell m k w c, (∀ x, c = some x → x < 8) →
    let x := mget 0 (loadCounter cell m k w c) (counterKey cell k)
    let lim := w.toNat / 65536
    cntLimit x = lim ∧ cntValue x = w.toNat % 65536 % (if lim = 0 then 65536 else lim) ∧ x.getLsbD 39 = c.isSome ∧ x.toNat / 2 ^ 36 % 8 = c.getD 0)
  ∧ (∀ cell m k,
    let w := mget 0 m (counterKey cell k)
    let lim := if cntLimit w = 0 then 65536 else cntLimit w
    let x := mget 0 (stepCounter cell 8 m k).1 (counterKey cell k)
    (cntValue w + 1 ≠ lim → cntValue w < lim → cntValue x = cntValue w + 1 ∧ (stepCounter cell 8 m k).2 = 0)
    ∧ (cntValue w + 1 = lim → w.getLsbD 39 = false → cntValue x = 0 ∧ (stepCounter cell 8 m k).2 = 2 ^ k)))
  ∧ (
  ∀ h p s b xs, Fires h (k0Const p.k0) s b xs →
    let succ := (List.range 4).filter (fun i => p.cctl.getLsbD i)
    exec (.gotx h p) s = .next (putInst s { b with pc := b.pc + 1, effs := b.effs ++ succ.map (.ctl true) })
    ∧ exec (.haltx h p) s = .next (putInst s { b with pc := b.pc + 1, effs := b.effs ++ succ.map (.ctl false) }))

/-! ### Loop nests -/

/-- R107–R109: an element-wise loop nest performs its whole run, each element reading what the elements before it wrote. R108: a loop-nest reduction folds its run into d, rounding once.
The order of its outer points, and the fault of a nest with no scratchpad, are the model's (assumptions 51, 52, 55). -/
def Obligations.LoopNestResults : Prop :=
  (
  let value (e : Fmt) (l : List Nat) (o : Nat) : Machine.Num := decodeElem e (l.getD o 0)
  NestElements .lncpy (fun _ _ _ l => l.getD 1 0)
  ∧ NestElements .lnadd (fun e m noise l => roundNum (sumNums (isDown m e) [value e l 1, value e l 2]) e m noise)
  ∧ NestElements .lnsub (fun e m noise l => roundNum (sumNums (isDown m e) [value e l 1, (value e l 2).neg]) e m noise)
  ∧ NestElements .lnmul (fun e m noise l => roundNum ((value e l 1).mul (value e l 2)) e m noise)
  ∧ NestElements .lnfma (fun e m noise l => roundNum (sumNums (isDown m e) [(value e l 1).mul (value e l 2), value e l 0]) e m noise)
  ∧ NestElements .lnmax (fun e _ _ l => pickCode e true (l.getD 1 0) (l.getD 2 0))
  ∧ NestElements .lnmin (fun e _ _ l => pickCode e false (l.getD 1 0) (l.getD 2 0))
  ∧ NestElements .lndif (fun e m noise l => roundNum (sumNums (isDown m e) [value e l 1, (value e l 2).neg]).abs e m noise))
  ∧ (
  let value (e : Fmt) (l : List Nat) (o : Nat) : Machine.Num := decodeElem e (l.getD o 0)
  NestReduces .lnsum (fun e m noise d run =>
    roundNum (sumNums (isDown m e) [decodeElem e d, sumNums (isDown m e) (run.map (fun l => value e l 1))]) e m noise)
  ∧ NestReduces .lndot (fun e m noise d run =>
    roundNum (sumNums (isDown m e) [decodeElem e d, sumNums (isDown m e) (run.map (fun l => (value e l 1).mul (value e l 2)))]) e m noise)
  ∧ NestReduces .lnrmx (fun e _ _ d run => run.foldl (fun c l => pickCode e true c (l.getD 1 0)) d)
  ∧ NestReduces .lnrmn (fun e _ _ d run => run.foldl (fun c l => pickCode e false c (l.getD 1 0)) d))

/-! ### Memory instructions -/

/-- R242, R243: LD delivers the element extended by its type, LDT sixteen slots, and LDACQ a 4-byte or 8-byte word; no byte of
memory changes, and an acquire wider than the cell leaves no line of the linked bank (R231, R245). -/
def Obligations.LoadResults : Prop :=
  LoadResult .ld (fun h _ => codeWidth h.fmt / 8) (fun h _ x v => Holds (codeSigned h.fmt) (codeWidth h.fmt) x v)
  ∧ LoadResult .ldt (fun _ _ => 64) (fun _ _ x v => ∀ k, k < 16 → slotOf v k = some (BitVec.ofNat 32 (x / 2 ^ (32 * k))))
  ∧ LoadResult .ldacq (fun _ p => if p.mctl.getLsbD 1 then 8 else 4) (fun _ p x v => Holds false (if p.mctl.getLsbD 1 then 64 else 32) x v)
  ∧ ∀ h p s b a base pl m t, MemFires h s b [a] → baseOf (spOf p) a = some base →
    placeOf p s b base (if p.mctl.getLsbD 1 then 8 else 4) h.swz.toNat true false = .ok pl → bankOf s b.node = some m → p.scope ≠ .cell →
    exec (.ldacq h p) s = .next t → ∀ l, l ∈ t.bank → l.cell ≠ m

/-- R206, R243, R246: ST and STT store nothing for invalid data, raise BARRIER_STORE for a live word, and otherwise hold their
stores until the commit; no byte of memory changes before. The words that a store takes in the hold buffer are the
model's count (assumption 39). -/
def Obligations.StoresAreHeld : Prop :=
  (∀ h p s b a d, MemFires h s b [a, d] →
    let w := codeWidth h.fmt
    let x : Option Nat := if w = 64 then elemOf 64 d 0 else (slotOf d 0).map (fun y => y.toNat % 2 ^ w)
    (baseOf (spOf p) a = none ∨ x = none → exec (.st h p) s = .next (delivered h 0 s b 1 noVal false))
    ∧ ∀ base y, baseOf (spOf p) a = some base → x = some y →
      (∀ r, placeOf p s b base (w / 8) h.swz.toNat false true = .error r → exec (.st h p) s = .next (raise s b r))
      ∧ ∀ pl, placeOf p s b base (w / 8) h.swz.toNat false true = .ok pl →
        let st : HStore := { bytes := pl.addrs.zip (leBytes (w / 8) y), via := pl.via }
        (touchesLive s pl = true → exec (.st h p) s = .next (raise s b { cause := .barrierStore, n := 0, addr := pl.ea }))
        ∧ (touchesLive s pl = false → HoldsStores (exec (.st h p) s) h s b [st]))
  ∧ (∀ h p s b a d, MemFires h s b [a, d] → (baseOf (spOf p) a = none → exec (.stt h p) s = .next (delivered h 0 s b 1 noVal false))
    ∧ ∀ base, baseOf (spOf p) a = some base → (∀ r, sttAddr s b h p base d = .error r → exec (.stt h p) s = .next (raise s b r))
    ∧ ∀ pl, sttAddr s b h p base d = .ok pl →
    let part (k : Nat) : List Nat := (pl.addrs.drop (4 * k)).take 4
    let live (k : Nat) : Prop := (slotOf d k).isSome = true ∧ pl.via.isSome = true ∧ ∃ c, c ∈ part k ∧ typeAt s c ≠ 0
    let sts := (List.range 16).filterMap (fun k => (slotOf d k).map (fun x =>
      ({ bytes := (part k).zip (leBytes 4 x.toNat), via := pl.via.map (fun v => { v with va := v.va + 4 * k }) } : HStore)))
    (∀ k, k < 16 → live k → (∀ j, j < k → ¬ live j) → exec (.stt h p) s = .next (raise s b { cause := .barrierStore, n := k, addr := pl.ea + 4 * k }))
    ∧ ((∀ k, k < 16 → ¬ live k) → HoldsStores (exec (.stt h p) s) h s b sts))

/-- R244: LDG delivers the element that each valid index addresses, and STSC holds one store per slot valid in both, ascending.
Stores that do not overlap are held in slot order (the model's, assumptions 39, 52). -/
def Obligations.GatherAndScatter : Prop :=
  let at_ (h : Hdr) (p : PayW) (s : State) (b : BInst) (base : Nat) (i : Slot) (k : Nat) (rd wr : Bool) : Except Report Place :=
    effAddr s b (spOf p) h.swz.toNat ((base : Int) + p.ofs.toInt + i.toInt * (codeWidth h.fmt / 8 : Nat)) (codeWidth h.fmt / 8) k rd wr
  (∀ h p s b a idx base (pl : Nat → Place), MemFires h s b [a, idx] → baseOf (spOf p) a = some base →
    (∀ k i, k < 16 → slotOf idx k = some i → at_ h p s b base i k true false = .ok (pl k)) →
    ∃ v q, SlotNonzero v q ∧ Replaces (exec (.ldg h p) s) s (awaits h b v q)
      ∧ ∀ k, k < 16 → slotOf v k = (slotOf idx k).map (fun _ => BitVec.ofInt 32 (typed (codeSigned h.fmt) (codeWidth h.fmt) (readPlace s b (pl k).addrs))))
  ∧ (∀ h p s b a idx d base (pl : Nat → Place), MemFires h s b [a, idx, d] → baseOf (spOf p) a = some base →
    (∀ k i, k < 16 → slotOf idx k = some i → (slotOf d k).isSome = true →
      at_ h p s b base i k false true = .ok (pl k) ∧ touchesLive s (pl k) = false) →
    HoldsStores (exec (.stsc h p) s) h s b ((List.range 16).filterMap (fun k =>
      match slotOf idx k, slotOf d k with
      | some _, some x => some { bytes := (pl k).addrs.zip (leBytes (pl k).addrs.length (x.toNat % 2 ^ codeWidth h.fmt)), via := (pl k).via }
      | _, _ => none)))

/-- R225, R245, R247: STREL, PHASE and a releasing FENCE leave their release to the commit, and an acquiring FENCE empties the
linked bank; each changes its own instance and caches alone. R230, R247: a FENCE that releases and acquires at once leaves in memory what its agent reads, and holds nothing.
That an acquiring and releasing FENCE acts when it executes is the model's (assumptions 40, 52). -/
def Obligations.OrderingInstructions : Prop :=
  (
  (∀ h p s b a d, MemFires h s b [a, d] →
    let w8 := p.mctl.getLsbD 1
    let data : Option Nat := if w8 then elemOf 64 d 0 else (slotOf d 0).map BitVec.toNat
    let rel (st : Option HStore) : BInst := { b with pc := b.pc + 1, effs := b.effs ++ [.rel (.strel p.scope st)] }
    (baseOf (spOf p) a = none → exec (.strel h p) s = .next (putInst s (advance 1 (deliver h 0 offDeliv b))))
    ∧ ∀ base, baseOf (spOf p) a = some base →
      (∀ r, placeOf p s b base (if w8 then 8 else 4) 0 false true = .error r → exec (.strel h p) s = .next (raise s b r))
      ∧ ∀ pl, placeOf p s b base (if w8 then 8 else 4) 0 false true = .ok pl →
        (data = none → exec (.strel h p) s = .next (putInst s (rel none)))
        ∧ ∀ y, data = some y →
          (touchesLive s pl = true → exec (.strel h p) s = .next (raise s b { cause := .barrierStore, n := 0, addr := pl.ea }))
          ∧ (touchesLive s pl = false → Replaces (exec (.strel h p) s) s (rel (some { bytes := pl.addrs.zip (leBytes pl.addrs.length y), via := pl.via }))))
  ∧ (∀ h p s b xs, MemFires h s b xs →
    let done := advance 1 (deliver h 0 (same (word32 1) true) b)
    let rel : Result := .next (putInst s { done with effs := b.effs ++ [.rel (.phase p.scope)] })
    exec (.phase h p) s = rel
    ∧ (p.ord = .rel → exec (.fence h p) s = rel)
    ∧ (p.ord = .acq → Replaces (exec (.fence h p) s) s done
      ∧ ∀ t m, exec (.fence h p) s = .next t → bankOf s b.node = some m → p.scope ≠ .cell → ∀ l, l ∈ t.bank → l.cell ≠ m)))
  ∧ (
  ∀ h p s b xs v, MemFires h s b xs → p.ord = .acqrel → findInv s b.inv = some v →
    Lands s (v.held ++ ownStores b.effs) →
    ∃ t, exec (.fence h p) s = .next t ∧ (∀ a, byteAt t.mem a = agentByte s b a)
      ∧ (findInv t b.inv).map (fun x => x.held) = some []
      ∧ ∃ b', findInst t b.cell b.seq = some b' ∧ ownStores b'.effs = [] ∧ (∀ e, e ∈ b'.effs → e.isRel = false) ∧ b'.pc = b.pc + 1)

/-- R248: PREF, RESID and EVICT complete and change no byte; of one line, they fill or drop it in its home Dome, where that has room and caches it, or count it
when its translation would raise. -/
def Obligations.HintsChangeNoValue : Prop :=
  ∀ h p s b a, MemFires h s b [a] →
    let done := advance 1 (deliver h 0 offDeliv b)
    let ea (base : Nat) : Int := ((base : Int) + p.ofs.toInt) / 64 * 64
    (∀ i, i ∈ [Instr.pref h p, Instr.resid h p, Instr.evict h p] →
      (baseOf false a = none → exec i s = .next (putInst s done))
      ∧ ∃ t, exec i s = .next t ∧ t.insts = (putInst s done).insts ∧ t = { s with insts := t.insts, dome := t.dome, monitors := t.monitors, ctxs := t.ctxs })
    ∧ ∀ base, baseOf false a = some base → p.mctl = 0 → 0 ≤ ea base → ea base < 2 ^ 57 →
      (∀ r, translate s (some b.cell) b.node.w b.tag.colour (ea base).toNat true false = .error r →
        exec (.resid h p) s = .next (putInst (setCtx s b.node.w b.node.x
          { nodeCtx s b.node with hintdrop := min ((nodeCtx s b.node).hintdrop + 1) (2 ^ 32 - 1) }) done))
      ∧ (∀ pa, translate s (some b.cell) b.node.w b.tag.colour (ea base).toNat true false = .ok pa → (∀ d, region pa ≠ some (.carve d)) →
        let room := (mget none s.dome (pa / 64)).isSome = true ∨ (s.dome.filter (fun e => homeDie (64 * e.1) == homeDie pa)).length < domeLimit s (homeDie pa)
        (homeDie pa < 4 → hostUncached s pa = false → room →
          exec (.resid h p) s = .next (putInst { s with dome := mput none s.dome (pa / 64) (some .high) } done)
          ∧ (h.hint = 0 → exec (.pref h p) s = .next (putInst { s with dome := mput none s.dome (pa / 64) (some .normal) } done)))
        ∧ exec (.evict h p) s = .next (putInst { s with
            dome := mput none s.dome (pa / 64) none
            monitors := wakeGranule s.monitors s.now (pa / 64) .lost } done))

/-! ### Atomics, barrier words and waits -/

/-- R249, R250: each atomic writes its new number at its home in one step and delivers the old one. What an atomic
releases of its own instance is the model's reading (assumptions 40, 52). -/
def Obligations.AtomicResults : Prop :=
  let wide (h : Hdr) : Nat := codeWidth h.fmt
  let always (_ : Hdr) (_ : State) (_ : BInst) : Prop := True
  let bitwise (op : Bool → Bool → Bool) (h : Hdr) (_ : State) (_ : BInst) (old : Nat) (l : List Nat) (new : Nat) : Prop :=
    ∀ j, j < wide h → new.testBit j = op (old.testBit j) (bitAt l 0 j)
  let ordered (op : Int → Int → Int) (h : Hdr) (_ : State) (_ : BInst) (old : Nat) (l : List Nat) (new : Nat) : Prop :=
    typed (codeSigned h.fmt) (wide h) new = op (typed (codeSigned h.fmt) (wide h) old) (typedAt (codeSigned h.fmt) (wide h) l 0)
  let nonzero (old : Nat) (_ : List Nat) : Bool := old != 0
  AtomicResult .atadd wide always (fun h _ _ old l new => new = (old + bitsAt l 0) % 2 ^ wide h) nonzero
  ∧ AtomicResult .atand wide always (bitwise (fun x y => x && y)) nonzero
  ∧ AtomicResult .ator wide always (bitwise (fun x y => x || y)) nonzero
  ∧ AtomicResult .atxor wide always (bitwise (fun x y => x ^^ y)) nonzero
  ∧ AtomicResult .atmin wide always (ordered min) nonzero
  ∧ AtomicResult .atmax wide always (ordered max) nonzero
  ∧ AtomicResult .atxch wide always (fun _ _ _ _ l new => new = bitsAt l 0) nonzero
  ∧ AtomicResult .atcas wide always (fun _ _ _ old l new => new = if old = bitsAt l 0 then bitsAt l 1 else old) (fun old l => old == bitsAt l 0)
  ∧ AtomicResult .atfadd (fun _ => 32) (fun h s b => Plain (entryWord s b h.fmt.toNat) ∧ contW (entryWord s b h.fmt.toNat) = 32 ∧ (nodeCtx s b.node).replay = false)
    (fun h s b old l new =>
      let e := entryOf s b h.fmt.toNat
      new = roundNum (sumNums (isDown h.rnd e) [decodeElem e old, valueAt e l 0]) e h.rnd ((srOf s b).noise 0)) nonzero

/-- R251–R253: BINIT writes its word and sets its type; an arrival by BARR adds 1, and the last one steps the generation, starts
the count again and says so; BARR on a word that is no barrier raises PERMISSION. What an arrival releases of its own
instance is the model's reading (assumption 40). -/
def Obligations.BarrierWords : Prop :=
  (∀ h p s b a d base pl x, MemFires h s b [a, d] → NothingHeld s b →
    baseOf false a = some base → effAddr s b false 0 ((base : Int) + p.ofs.toInt) 8 0 false true = .ok pl → elemOf 64 d 0 = some x →
    hostUncached s (pl.addrs.headD 0) = false →
    let kind := p.mctl.toNat % 4
    let bad := kind = 1 ∧ ¬ (0 < x / 2 ^ 16 % 2 ^ 16 ∧ x % 2 ^ 16 < x / 2 ^ 16 % 2 ^ 16)
    (bad → exec (.binit h p) s = .next (raise s b { cause := .illegalEncoding, detail := 5, addr := pl.ea }))
    ∧ (¬ bad → ∃ t, exec (.binit h p) s = .next t ∧ Written s t pl.addrs x ∧ typeAt t (pl.addrs.headD 0) = kind
      ∧ t.insts = (putInst s (advance 1 (deliver h 0 offDeliv (markDurable b)))).insts))
  ∧ (∀ h p s b a base pl, MemFires h s b [a] → NothingHeld s b →
    baseOf false a = some base → effAddr s b false 0 ((base : Int) + p.ofs.toInt) 8 0 true true = .ok pl → hostUncached s (pl.addrs.headD 0) = false →
    let x := numberAt s pl.addrs
    let gen := x / 2 ^ 32
    let expect := x / 2 ^ 16 % 2 ^ 16
    let count := x % 2 ^ 16 + 1
    (typeAt s (pl.addrs.headD 0) = 1 →
      ∃ t v, exec (.barr h p) s = .next t
        ∧ Written s t pl.addrs (if count = expect then (gen + 1) % 2 ^ 32 * 2 ^ 32 + expect * 2 ^ 16 else gen * 2 ^ 32 + expect * 2 ^ 16 + count % 2 ^ 16)
        ∧ (∀ k, k < 16 → slotOf v k = if k = 0 then some (BitVec.ofNat 32 gen) else if k = 1 then some (if count = expect then 1 else 0) else none)
        ∧ t.insts = (putInst s (awaits h (markDurable b) v (decide (count = expect)))).insts)
    ∧ (typeAt s (pl.addrs.headD 0) ≠ 1 → exec (.barr h p) s = .next (raise s b { cause := .permission, detail := 6, addr := pl.addrs.headD 0 })))

/-- R255–R258: a wait whose test holds delivers code 0 and the word, acquiring where it orders; one woken by its timeout
delivers code 2; else it withdraws, with its tokens, and a monitor is armed on its granule. -/
def Obligations.WaitInstructions : Prop :=
  let result (code x : Nat) (v : Val) : Prop := ∀ k, k < 16 →
    slotOf v k = if k = 0 then some (BitVec.ofNat 32 code) else if k = 1 then some (BitVec.ofNat 32 x) else if k = 2 then some (BitVec.ofNat 32 (x / 2 ^ 32)) else none
  let goesBack (r : Result) (s : State) (b : BInst) (pa : Nat) : Prop := ∃ t, r = .next t ∧ t.mem = s.mem ∧ t.insts = s.insts.filter (fun x => !x.isAt b.cell b.seq)
    ∧ (∃ f, f ∈ t.firings ∧ f.cell = b.cell ∧ f.seq = b.seq) ∧ ∃ m, m ∈ t.monitors ∧ m.granule = pa / 64 ∧ m.cell = b.cell ∧ m.seq = b.seq ∧ m.event = none
  let word (i : Hdr → PayW → Instr) (ty : Nat) (needs : Val → Option Nat) (ok : Nat → Nat → Prop) : Prop :=
    ∀ h p s b a g xs base pl y, MemFires h s b (a :: g :: xs) → baseOf false a = some base → needs g = some y →
      effAddr s b false 0 ((base : Int) + p.ofs.toInt) 8 0 true false = .ok pl →
      let x := readPlace s b pl.addrs
      (typeAt s (pl.addrs.headD 0) ≠ ty → exec (i h p) s = .next (raise s b { cause := .permission, detail := 6, addr := pl.ea }))
      ∧ (typeAt s (pl.addrs.headD 0) = ty →
        (ok x y → ∃ v, result 0 x v ∧ Replaces (exec (i h p) s) s (awaits h b v true))
        ∧ (¬ ok x y → b.wake = some .timeout → ∃ v, result 2 x v ∧ Replaces (exec (i h p) s) s (awaits h b v false))
        ∧ (¬ ok x y → b.wake ≠ some .timeout → goesBack (exec (i h p) s) s b (pl.addrs.headD 0)))
  word .bwait 1 (fun g => (slotOf g 0).map BitVec.toNat) (fun x y => x / 2 ^ 32 ≠ y)
  ∧ word .waitb 2 (fun g => elemOf 64 g 0) (fun x y => ∀ j, y.testBit j = true → x.testBit j = true)
  ∧ ∀ h p s b a e xs base pl y, MemFires h s b (a :: e :: xs) → baseOf false a = some base → elemOf 64 e 0 = some y →
    effAddr s b false 0 ((base : Int) + p.ofs.toInt) 8 0 true false = .ok pl →
    let x := readPlace s b pl.addrs
    (b.wake = none → x ≠ y → ∃ v, result 0 x v ∧ Replaces (exec (.waita h p) s) s (awaits h b v true))
    ∧ (b.wake = none → x = y → goesBack (exec (.waita h p) s) s b (pl.addrs.headD 0))
    ∧ (∀ k, b.wake = some k → ∃ v, result (match k with | .write => 0 | .lost => 1 | .timeout => 2 | .spurious => 3) x v
      ∧ Replaces (exec (.waita h p) s) s (awaits h b v (k == .write)))


/-! ### Matrix instructions -/

/-- R171, R174, R177: MSET opens a run when none is open, MKIN loads row KINP, MCLR closes the key's run, and MSTAT delivers its
state; a disabled instruction waits. When MCLR waits is the model's reading (assumption 37). -/
def Obligations.MatrixRunControl : Prop :=
  (∀ h p s b xs, MatFires h p s b xs →
    (∀ r, runOf s b = some r → exec (.mset h p) s = .next s)
    ∧ (runOf s b = none →
      (slotOf (xs.getD 0 noVal) 0 = none → exec (.mset h p) s = .next (delivered h 0 s b 1 noVal false))
      ∧ ∀ w, slotOf (xs.getD 0 noVal) 0 = some w →
        let x := w.toNat
        let ok := x / 2 ^ 24 = 0 ∧ x / 2 ^ 15 % 2 = 0 ∧ x % 256 ≤ 191 ∧ (x / 2 ^ 14 % 2 = 1 → 1 ≤ x / 2 ^ 16 % 256)
        (¬ ok → exec (.mset h p) s = .next (raise s b { cause := .illegalEncoding, detail := 2 }))
        ∧ (ok → ∃ r, exec (.mset h p) s = .next (putInst s (plans b (.set r))) ∧ planeAfter b.tag (.set r) none = some r ∧ r.tag = b.tag ∧ r.word = x ∧ r.m = x % 256 + 1
          ∧ r.n = x / 2 ^ 8 % 64 + 1 ∧ (r.kin = true ↔ x / 2 ^ 14 % 2 = 1) ∧ r.nch = x / 2 ^ 16 % 256 + 1 ∧ (∀ i n, r.accAt i n = 0 ∧ r.count i = 0)
          ∧ r.kinp = 0 ∧ r.outp = 0 ∧ r.p0 = none ∧ r.p1 = none ∧ r.status = 0)))
  ∧ (∀ h p s b xs, MatFires h p s b xs →
    (ownRun s b = none → exec (.mclr h p) s = .next (putInst s (advance 1 b)) ∧ exec (.mkin h p) s = .next s ∧ exec (.mldb h p) s = .next s
      ∧ exec (.mldt h p) s = .next s ∧ exec (.mrow h p) s = .next s ∧ exec (.mrows h p) s = .next s ∧ exec (.mdrain h p) s = .next s
      ∧ exec (.mkout h p) s = .next s ∧ exec (.mout h p) s = .next s ∧ exec (.mstat h p) s = .next (delivered h 0 s b 1 noVal false))
    ∧ ∀ r, ownRun s b = some r →
      (∃ op, Makes b r op none ∧ exec (.mclr h p) s = .next (putInst s (plans b op)))
      ∧ (∃ v q, exec (.mstat h p) s = .next (delivered h 0 s b 1 v q) ∧ SlotNonzero v q ∧ ∀ k, k < 16 → slotOf v k =
        if k = 0 then some (r.status.extractLsb' 0 32) else if k = 1 then some (r.status.extractLsb' 32 32) else if k = 2 then some (BitVec.ofNat 32 r.word)
        else if k = 3 then some (BitVec.ofNat 32 (r.rp true * 2 ^ 24 + r.rp false * 2 ^ 16 + r.kinp * 2 ^ 8 + r.outp)) else none)
      ∧ (h.nopd.toNat ≠ (r.n + 15) / 16 ∨ r.kin = false ∨ r.kinp = r.m → exec (.mkin h p) s = .next (raise s b { cause := .illegalEncoding, detail := 4 }))
      ∧ (h.nopd.toNat = (r.n + 15) / 16 → r.kin = true → r.kinp ≠ r.m → ∃ op r', exec (.mkin h p) s = .next (putInst s (plans b op)) ∧ Makes b r op (some r')
        ∧ (∀ n, n < r.n → r'.accAt r.kinp n = ((slotOf (xs.getD (n / 16) noVal) (n % 16)).getD 0).toNat)
        ∧ (∀ i n, i ≠ r.kinp → n < 64 → r.n ≤ 64 → r'.accAt i n = r.accAt i n) ∧ r'.count r.kinp = 1 ∧ (∀ i, i ≠ r.kinp → r'.count i = r.count i)
        ∧ r' = { r with acc := r'.acc, cnt := r'.cnt, kinp := r.kinp + 1 }))

/-- R164, R165, R172: MLDB and MLDT load the free panel from the linked scratchpad, refuse a bad panel word, and do nothing
without their three slots. -/
def Obligations.PanelLoads : Prop :=
  let load (i : Hdr → PayX → Instr) (nMajor : Bool) : Prop := ∀ h p s b x r m, MatFires h p s b [x] → ownRun s b = some r → r.panel (p.mctl.getLsbD 0) = none →
    scratchCell s b = some m →
    let word := entryWord s b p.bfmt.toNat
    let e := Fmt.ofWord word
    let legal := legalEntry word = true ∧ (nMajor = false → e.block = 0)
    (¬ legal → exec (i h p) s = .next (raiseFormat s b p.bfmt.toNat))
    ∧ (legal → (slotOf x 0 = none ∨ slotOf x 1 = none ∨ slotOf x 2 = none) → exec (i h p) s = .next (delivered h 0 s b 1 noVal false))
    ∧ ∀ a0 p0 w0, legal → slotOf x 0 = some a0 → slotOf x 1 = some p0 → slotOf x 2 = some w0 →
      let a := a0.toNat
      let pitch := p0.toNat
      let w := w0.toNat
      let kb := w % 256 + 1
      let ch := w / 2 ^ 16 % 256
      let align := if e.block = 0 then max 1 (e.cont / 8) else 2
      let rows := if nMajor then rowSpan e kb else kb
      let start (k n : Nat) : Nat := if nMajor then rowStart e (a + n * pitch) k else a + k * pitch + n * e.cont / 8
      let bad := 128 < kb ∨ r.nch ≤ ch ∨ (ch = 0 ∧ r.kin = true) ∨ w / 2 ^ 24 ≠ 0
      (bad → exec (i h p) s = .next (raise s b { cause := .illegalEncoding, detail := 3 }))
      ∧ (¬ bad → (a % align ≠ 0 ∨ pitch % align ≠ 0) → exec (i h p) s = .next (raise s b { cause := .addrOverflow, iters := [0, 0, 0], addr := a }))
      ∧ (¬ bad → a % align = 0 → pitch % align = 0 → ∀ k n, k < rows → n < r.n → Beyond e (start k n) →
        (∀ k' n', n' < r.n → k' < k ∨ (k' = k ∧ n' < n) → ¬ Beyond e (start k' n')) →
        exec (i h p) s = .next (raise s b { cause := .addrOverflow, iters := [0, k, n], n := n, addr := start k n }))
      ∧ (¬ bad → a % align = 0 → pitch % align = 0 → (∀ k n, k < rows → n < r.n → ¬ Beyond e (start k n)) →
        ∃ op q, exec (i h p) s = .next (putInst s (plans b op)) ∧ Makes b r op (some (r.setPanel (p.mctl.getLsbD 0) (some q)))
          ∧ q.entry = word ∧ q.gen = b.gen ∧ q.kb = kb ∧ q.kidx = w / 2 ^ 8 % 256 ∧ q.ch = ch ∧ q.rp = 0 ∧ q.elems.length = kb
          ∧ ∀ k n, k < kb → n < r.n → ((q.elems.getD k []).getD n (0, 0)) =
            if nMajor then rowElement s b m (p.mctl.toNat / 2 % 8) e (a + n * pitch) k
            else (0, scratchCode s b m (p.mctl.toNat / 2 % 8) (a + k * pitch + n * e.cont / 8) e.cont (n % 2 == 1)))
  load .mldb false ∧ load .mldt true

/-- R164, R167, R173: MROW and MROWS add their row's contribution to every column when the row's turn is the panel's, wait when it
is not, and refuse an entry that the class does not take. -/
def Obligations.MatrixRows : Prop :=
  (∀ h p s b xs r q, MatFires h p s b xs → ownRun s b = some r → r.panel (p.mctl.getLsbD 0) = some q →
    let word := panelEntry s b q h.fmt.toNat
    let e := Fmt.ofWord word
    let legal := legalEntry word = true ∧ e.cont ≤ 16 ∧ h.nopd.toNat = e.cont / 4 + (if e.block = 0 then 0 else 1)
    let a (k : Nat) : Option (Nat × Nat) := if 128 ≤ k then none else
      match elemOf e.cont (xs.getD (k * e.cont / 512) noVal) (k % (512 / e.cont)) with
      | none => none
      | some c => if e.block = 0 then some (0, c) else (elemOf 16 (xs.getD (e.cont / 4) noVal) (k / e.block)).map (fun x => (x, c))
    (r.count q.rp ≠ q.ch → exec (.mrow h p) s = .next s)
    ∧ (r.count q.rp = q.ch → ¬ legal → exec (.mrow h p) s = .next (raiseFormat s b h.fmt.toNat))
    ∧ (r.count q.rp = q.ch → legal → r.n ≤ 64 → ∃ op r', RowFired e a (p.mctl.getLsbD 0) q r r' ∧ Makes b r op (some r')
      ∧ exec (.mrow h p) s = .next (putInst s (plans (markDurable b) op))))
  ∧ ∀ h p s b x r q, MatFires h p s b [x] → ownRun s b = some r → r.panel (p.mctl.getLsbD 0) = some q →
    let word := panelEntry s b q h.fmt.toNat
    let e := Fmt.ofWord word
    (r.count q.rp ≠ q.ch → exec (.mrows h p) s = .next s)
    ∧ (r.count q.rp = q.ch → legalEntry word = false → exec (.mrows h p) s = .next (raiseFormat s b h.fmt.toNat))
    ∧ (r.count q.rp = q.ch → legalEntry word = true → r.n ≤ 64 →
      (slotOf x 0 = none → ∃ op r', RowFired e (fun _ => none) (p.mctl.getLsbD 0) q r r' ∧ Makes b r op (some r') ∧ exec (.mrows h p) s = .next (putInst s (plans (markDurable b) op)))
      ∧ ∀ a m, slotOf x 0 = some a → scratchCell s b = some m →
        let align := if e.block = 0 then max 1 (e.cont / 8) else 2
        (a.toNat % align ≠ 0 → exec (.mrows h p) s = .next (raise s b { cause := .addrOverflow, iters := [q.rp, 0, 0], addr := a.toNat }))
        ∧ (a.toNat % align = 0 → ∀ k, k < q.kb → Beyond e (rowStart e a.toNat k) → (∀ j, j < k → ¬ Beyond e (rowStart e a.toNat j)) →
          exec (.mrows h p) s = .next (raise s b { cause := .addrOverflow, iters := [q.rp, k, 0], addr := rowStart e a.toNat k }))
        ∧ (a.toNat % align = 0 → (∀ k, k < q.kb → ¬ Beyond e (rowStart e a.toNat k)) →
          ∃ op r', RowFired e (fun k => if k < q.kb then some (rowElement s b m (p.mctl.toNat / 2 % 8) e a.toNat k) else none) (p.mctl.getLsbD 0) q r r'
            ∧ Makes b r op (some r') ∧ exec (.mrows h p) s = .next (putInst s (plans (markDurable b) op))))

/-- R175, R176: MKOUT and MDRAIN drain a done row as tokens and tell the status; MOUT writes a done tile as held stores and closes the
run; a row or tile that is not done waits. -/
def Obligations.MatrixDrains : Prop :=
  (∀ h p s b xs r port, MatFires h p s b xs → ownRun s b = some r → h.t0 = .chan port →
    let done := r.count r.outp = r.nch ∧ r.outp < r.m
    let word := entryWord s b p.ofmt.toNat
    let e := Fmt.ofWord word
    let out (n : Nat) : Nat := roundNum (decodeElem fp32 (r.accAt r.outp n)) e h.rnd ({ srOf s b with ord := r.outp }.noise n)
    (¬ done → exec (.mkout h p) s = .next s ∧ exec (.mdrain h p) s = .next s)
    ∧ (done → ∃ toks : List Val, Drains (exec (.mkout h p) s) h s b r port.toNat toks false ∧ toks.length = (r.n + 15) / 16
      ∧ ∀ j v k, toks[j]? = some v → k < 16 → slotOf v k = if 16 * j + k < r.n then some (BitVec.ofNat 32 (r.accAt r.outp (16 * j + k))) else none)
    ∧ (done → ¬ Plain word → exec (.mdrain h p) s = .next (raiseFormat s b p.ofmt.toNat))
    ∧ (done → Plain word → ∃ (toks : List Val) (sat : Bool), Drains (exec (.mdrain h p) s) h s b r port.toNat toks sat
      ∧ (sat = true ↔ ∃ n, n < r.n ∧ outSat e h.rnd ({ srOf s b with ord := r.outp }.noise n) (r.accAt r.outp n) = true)
      ∧ toks.length = (r.n * e.cont + 511) / 512
      ∧ ∀ j v i, toks[j]? = some v → i < elemCount e.cont → j * (512 / e.cont) + i < r.n → elemOf e.cont v i = some (out (j * (512 / e.cont) + i) % 2 ^ e.cont)))
  ∧ ∀ h p s b x r, MatFires h p s b [x] → ownRun s b = some r →
    let done := r.outp = 0 ∧ ∀ i, i < r.m → r.count i = r.nch
    let word := entryWord s b p.ofmt.toNat
    let e := Fmt.ofWord word
    let out (i n : Nat) : Nat := roundNum (decodeElem fp32 (r.accAt i n)) e h.rnd ({ srOf s b with ord := i }.noise n)
    let close (b' : BInst) (sat : Bool) : State :=
      let st := ({ r with outp := r.m, sat := sat } : Run).status
      putInst s (plans (deliver h 0 (same (word64 st) (decide (st.toNat / 2 ^ 43 % 32 ≠ 0))) b') .close)
    (¬ done → exec (.mout h p) s = .next s)
    ∧ (done → ¬ Plain word → exec (.mout h p) s = .next (raiseFormat s b p.ofmt.toNat))
    ∧ (done → Plain word → (slotOf x 0 = none ∨ slotOf x 1 = none) → exec (.mout h p) s = .next (close b r.sat))
    ∧ ∀ a pitch m, done → Plain word → slotOf x 0 = some a → slotOf x 1 = some pitch → scratchCell s b = some m →
      let align := max 1 (e.cont / 8)
      let at_ (i n : Nat) : Nat := a.toNat + i * pitch.toNat + n * e.cont / 8
      (a.toNat % align ≠ 0 ∨ pitch.toNat % align ≠ 0 → exec (.mout h p) s = .next (raise s b { cause := .addrOverflow, iters := [0, 0, 0], addr := a.toNat }))
      ∧ (a.toNat % align = 0 → pitch.toNat % align = 0 → (∀ i n, i < r.m → n < r.n → ¬ Beyond e (at_ i n)) → ∃ (sts : List HStore) (sat : Bool),
        (sat = true ↔ ∃ i n, i < r.m ∧ n < r.n ∧ outSat e h.rnd ({ srOf s b with ord := i }.noise n) (r.accAt i n) = true)
        ∧ (holdOverflows s b sts = false → exec (.mout h p) s = .next (close (withStores b sts) (r.sat || sat)))
        ∧ (e.cont ≠ 4 → sts.length = r.m * r.n ∧ ∀ i n, i < r.m → n < r.n → sts[i * r.n + n]? = some
          { bytes := ((List.range (e.cont / 8)).map (fun y => scratchAddr m (swizzle (p.mctl.toNat / 2 % 8) (at_ i n + y)))).zip (leBytes (e.cont / 8) (out i n)), via := none })
        ∧ (e.cont = 4 → sts.length = r.m * ((r.n + 1) / 2) ∧ ∀ i k, i < r.m → k < (r.n + 1) / 2 → sts[i * ((r.n + 1) / 2) + k]? = some
          { bytes := [(scratchAddr m (swizzle (p.mctl.toNat / 2 % 8) (at_ i (2 * k))), BitVec.ofNat 8 (out i (2 * k) + if 2 * k + 1 < r.n then 16 * out i (2 * k + 1) else 0))], via := none }))

/-! ### Engine instructions -/

/-- R198, R260, R266, R269, R278: CPY, CPYS, COLL and DRAFT give an engine an operation at their commit, or raise what their checks
find, or do nothing without their slots; an operation holds what its descriptor says (R264). COLL's checks are at
execution, and an operation's handles name its home (the model's, assumptions 33, 41). -/
def Obligations.EngineStarts : Prop :=
  (∀ h p s b x, MemFires h s b [x] → baseOf false x = none →
    ∀ i, i ∈ [Instr.cpy h p, Instr.cpys h p, Instr.coll h p] → exec i s = .next (delivered h 0 s b 1 noVal false))
  ∧ (∀ h p s b x ea, MemFires h s b [x] → baseOf false x = some ea →
    (copyEngine s b = none → exec (.cpy h p) s = .next (raise s b { cause := .permission, addr := ea }))
    ∧ (∀ e m, copyEngine s b = some (e, m) →
      (ea % 256 ≠ 0 → exec (.cpy h p) s = .next (raise s b { cause := .addrOverflow, addr := ea }))
      ∧ (∀ d, openCopy s b ea m = .ok d → Replaces (exec (.cpy h p) s) s (adds b [.engine (opOf h p b e m (.copy d))]))
      ∧ (∀ r, openCopy s b ea m = .error r → exec (.cpy h p) s = .next (raise s b r))
      ∧ ∀ sl, slotOf x 2 = some sl →
        let ns := p.ectl.toNat % 16 + 1
        (∀ d, openStream s b ea sl.toNat ns m = .ok d → Replaces (exec (.cpys h p) s) s (adds b [.engine (opOf h p b e m (.stream d
          { ns := ns, slotb := sl.toNat, place := 0, epoch := 0, next := 0, newest := [], accepted := [] }))]))
        ∧ ∀ r, openStream s b ea sl.toNat ns m = .error r → exec (.cpys h p) s = .next (raise s b r))
    ∧ (slotOf x 2 = none → exec (.cpys h p) s = .next (delivered h 0 s b 1 noVal false))
    ∧ (∀ c, openColl s b h ea = .ok c → Replaces (exec (.coll h p) s) s (adds b [.engine (opOf h p b (cellDie b.cell) none (.coll c))]))
    ∧ ∀ r, openColl s b h ea = .error r → exec (.coll h p) s = .next (raise s b r))
  ∧ (∀ ws d, readDesc ws = some d →
    let w (i : Nat) : Nat := ws.getD i 0
    d.rank = field (w 2) 32 3 + 1 ∧ d.rank ≤ 5 ∧ d.nbw = field (w 2) 40 16 ∧ d.bmap = w 3 ∧ w 3 % 8 = 0 ∧ (∀ k, k < 5 → d.box[k]? = some (field (w (k / 2)) (32 * (k % 2)) 32))
    ∧ (∀ k x, d.box[k]? = some x → if k < d.rank then 1 ≤ x ∧ x < 2 ^ 31 else x = 0)
    ∧ ViewFields ((ws.drop 4).take 14) d.src ∧ ViewFields ((ws.drop 18).take 14) d.dst ∧ d.src.esz = d.dst.esz)
  ∧ ∀ h p s b x c, MemFires h s b [x, c] →
    ((baseOf false x = none ∨ slotOf x 2 = none ∨ slotOf x 3 = none ∨ slotOf x 4 = none ∨ slotOf x 5 = none) → exec (.draft h p) s = .next (delivered h 0 s b 1 noVal false))
    ∧ ∀ base lo hi vlim minl, baseOf false x = some base → slotOf x 2 = some lo → slotOf x 3 = some hi → slotOf x 4 = some vlim → slotOf x 5 = some minl →
      Replaces (exec (.draft h p) s) s (adds b [.engine (opOf h p b (cellSpire b.cell) none (.walk
        { base := base, dest := lo.toNat + 2 ^ 32 * hi.toNat, vlim := vlim.toNat, minl := minl.toNat, nc := field p.ectl.toNat 0 3 + 1, depth := field p.ectl.toNat 3 3 + 1
          ids := (List.range 16).filterMap (fun k => (slotOf c k).map BitVec.toNat) }))])

/-- R271–R273, R275: SHDW opens a shadow of a tensor that has none, PUBL publishes one that is open, each in one step at the home and
with a status; SHDW.qry only reads; SLOTF and EVQ leave their notice and record to the commit. SHDW and PUBL act as they
execute and are not undone by a wait above them (the model's, assumption 50). -/
def Obligations.MappingInstructions : Prop :=
  let told (status : Nat) (t : Tensor) (v : Val) : Prop :=
    let buf := if t.sel = 0 then t.buf0 else t.buf1
    ∀ k, k < 16 → slotOf v k = ([status, buf, buf / 2 ^ 32, t.version, t.sel, if t.shopen then 1 else 0].map (BitVec.ofNat 32))[k]?
  (∀ h p s b x y tid buf t, MemFires h s b [x, y] → slotOf x 0 = some tid → baseOf false y = some buf → namedTensor s b.node.w b.tag.colour tid.toNat = .ok t →
    (buf % 64 ≠ 0 ∨ 2 ^ 57 < buf + t.size → exec (.shdw h p) s = .next (raise s b { cause := .addrOverflow, addr := buf }))
    ∧ (buf % 64 = 0 → buf + t.size ≤ 2 ^ 57 → t.mode = 1 → buf ≠ 2 ^ 56 + tid.toNat * 2 ^ 32 + (1 - t.sel) * 2 ^ 31 →
      exec (.shdw h p) s = .next (raise s b { cause := .permission, addr := buf }))
    ∧ (buf % 64 = 0 → buf + t.size ≤ 2 ^ 57 → (t.mode = 1 → buf = 2 ^ 56 + tid.toNat * 2 ^ 32 + (1 - t.sel) * 2 ^ 31) → NothingHeld s b → ∃ u v, exec (.shdw h p) s = .next u
      ∧ u.insts = (putInst s (awaits h (markDurable b) v (!t.shopen))).insts
      ∧ (t.shopen = true → u.mem = s.mem ∧ told 1 t v)
      ∧ (t.shopen = false → told 0 (readTensor u.mem t.addr) v
        ∧ word8 u.mem t.addr (if t.sel = 0 then 3 else 2) = buf ∧ word8 u.mem t.addr 0 = word8 s.mem t.addr 0 + 2 ^ 42 ∧ word8 u.mem t.addr 1 = word8 s.mem t.addr 1
        ∧ (readTensor u.mem t.addr).shopen = true ∧ ∀ a, a < t.addr ∨ t.addr + 64 ≤ a → byteAt u.mem a = byteAt s.mem a)))
  ∧ (∀ h p s b x tid t, MemFires h s b [x] → slotOf x 0 = some tid → namedTensor s b.node.w b.tag.colour tid.toNat = .ok t →
    (∃ v, told 0 t v ∧ Replaces (exec (.shdwQry h p) s) s (awaits h b v true))
    ∧ (NothingHeld s b → ∃ u v, exec (.publ h p) s = .next u
      ∧ u.insts = (putInst s (awaits h (markDurable b) v (decide (t.shopen = true ∧ t.version ≠ 2 ^ 32 - 1)))).insts
      ∧ (t.shopen = false → u.mem = s.mem ∧ told 1 t v)
      ∧ (t.shopen = true → t.version = 2 ^ 32 - 1 → u.mem = s.mem ∧ told 2 t v)
      ∧ (t.shopen = true → t.version ≠ 2 ^ 32 - 1 → told 0 (readTensor u.mem t.addr) v
        ∧ word8 u.mem t.addr 0 = word8 s.mem t.addr 0 - 2 ^ 42 ∧ word8 u.mem t.addr 1 = (t.version + 1) * 2 ^ 32 + (1 - t.sel)
        ∧ (readTensor u.mem t.addr).version = t.version + 1 ∧ (readTensor u.mem t.addr).sel = 1 - t.sel ∧ (readTensor u.mem t.addr).shopen = false
        ∧ ∀ a, a < t.addr ∨ t.addr + 64 ≤ a → byteAt u.mem a = byteAt s.mem a)))
  ∧ (∀ h p s b x tid r, MemFires h s b [x] → slotOf x 0 = some tid → namedTensor s b.node.w b.tag.colour tid.toNat = .error r →
    exec (.shdwQry h p) s = .next (raise s b r) ∧ exec (.publ h p) s = .next (raise s b r))
  ∧ (∀ h p s b x, MemFires h s b [x] →
    (∀ hd t k, slotOf x 0 = some hd → slotOf x 1 = some t → slotOf x 2 = some k →
      exec (.slotf h p) s = .next (putInst s (adds b [.rel (.phase p.scope), .notice
        { cell := field hd.toNat 0 7 + 128 * field hd.toNat 7 7, w := b.node.w, tag := b.tag, place := field hd.toNat 14 3, epoch := field hd.toNat 17 15, tile := t.toNat, slot := k.toNat }])))
    ∧ (slotOf x 0 = none ∨ slotOf x 1 = none ∨ slotOf x 2 = none → exec (.slotf h p) s = .next (putInst s (adds b [.rel (.phase p.scope)])))
    ∧ (waitAhead b = true → exec (.evq h p) s = .next (putInst s (adds b [.rel (.phase p.scope), .evq p.ectl.toNat x])))
    ∧ (waitAhead b = false → NothingHeld s b → exec (.evq h p) s = .next (putInst s (adds (markDurable b) [.evq p.ectl.toNat x]))))

/-! ### Quota and system instructions -/

/-- R294, R298–R302: the quota instructions, which only the supervisor may use where the manual says so. Each checks its words and goes on; as its
instance's commit begins, the changes are made in slot order, those of one cycle in the order of their cells (R289), and each delivers its status and
the word it replaced. A tag returns only from the colour that holds it. That such changes come as the commit begins, and
that dependents wait for their answers, is the model's reading (assumption 50). -/
def Obligations.QuotaInstructions : Prop :=
  let commits (a : LateAct) (P : State → BInst → Result → (State → List Nat → Prop) → Prop) : Prop :=
    ∀ s b e l ls, BeginsCommit s b e → b.later = l :: ls → l.act = a →
      let b1 := begunAs s b e
      let r := exec (.instanceCommit b.cell) s
      P (putInst s b1) b1 r (Changes r l b1 ls)
  let mayTurn (s : State) (b : BInst) : Bool := inTurn s .quota (quotaTurn b.node) (cellPlace b.cell)
  let took (s : State) (b : BInst) : State := takeTurn s .quota (quotaTurn b.node) (cellPlace b.cell)
  (∀ h p s b xs l, QuotaFires h p s b xs l → supervisorOf (nodeCtx s b.node) ≠ some b.node.n →
    ∀ i, i ∈ [Instr.quota h p, Instr.quotaTag h p, Instr.stallt h p] → exec i s = .next (raise s b { cause := .permission }))
  ∧ (∀ h p s b xs, Fires h (k0Const p.k0) s b xs → (∃ x, x ∈ xs ∧ slotOf x 0 = none) →
    ∀ i, i ∈ [Instr.quota h p, Instr.quotaTag h p, Instr.stallt h p, Instr.tagfree h p] → exec i s = .next (delivered h 0 s b 1 noVal false))
  ∧ (∀ h p s b xs c w, QuotaFires h p s b xs [c, w] → supervisorOf (nodeCtx s b.node) = some b.node.n →
    let word := w.toNat
    let col : Colour := BitVec.ofNat 8 c.toNat
    let bad : Result := .next (raise s b { cause := .illegalEncoding, detail := 11 })
    (2 ^ 8 ≤ c.toNat ∨ 2 ^ 16 ≤ word → exec (.quotaTag h p) s = bad ∧ exec (.stallt h p) s = bad)
    ∧ (c.toNat < 2 ^ 8 → word < 2 ^ 16 → exec (.stallt h p) s = .next (putInst s (defers h b (.limit col word)))
      ∧ exec (.quotaTag h p) s = .next (putInst s (defers h b (.cap col word))))
    ∧ (placedOf s { b.node with n := p.qctl.toNat / 16 } = none → exec (.quota h p) s = bad)
    ∧ ∀ pl, placedOf s { b.node with n := p.qctl.toNat / 16 } = some pl →
      let n : NodeId := { b.node with n := p.qctl.toNat / 16 }
      let port := p.qctl.toNat % 16
      let m := field word 0 7
      let sl := field word 8 8
      let good := c.toNat < 2 ^ 8 ∧ field word 7 1 = 0 ∧ word < 2 ^ 16 ∧ m ≤ 64 ∧ (m = 0 → sl = 0) ∧ isInput pl port = true
      (¬ good → exec (.quota h p) s = bad) ∧ (good → exec (.quota h p) s = .next (putInst s (defers h b (.quota n port col m sl)))))
  ∧ (∀ h p s b xs t, QuotaFires h p s b xs [t] →
    (2 ^ 16 ≤ t.toNat → exec (.tagfree h p) s = .next (raise s b { cause := .illegalEncoding, detail := 11 }))
    ∧ (t.toNat < 2 ^ 16 → exec (.tagfree h p) s = .next (putInst s (defers h b (.tagFree t.toNat)))))
  ∧ (∀ c l, commits (.limit c l) (fun s b _ made =>
    made (withCtx s b (fun x => { x with limits := mput 1024 x.limits c.toNat l })) [0, mget 1024 (nodeCtx s b.node).limits c.toNat]))
  ∧ (∀ c n, commits (.cap c n) (fun s b r made =>
    let old := mget 0 (nodeCtx s b.node).caps c.toNat
    let caps := mput 0 (nodeCtx s b.node).caps c.toNat n
    let fits := (caps.map (fun e => e.2)).sum ≤ 65535
    (mayTurn s b = false → r = .next s)
    ∧ (mayTurn s b = true → (fits → made (took (withCtx s b (fun x => { x with caps := caps })) b) [0, old]) ∧ (¬ fits → made (took s b) [1, old]))))
  ∧ (∀ n port c m sl, commits (.quota n port c m sl) (fun s b r made =>
    (mayTurn s b = false → r = .next s)
    ∧ ∀ pl, mayTurn s b = true → placedOf s n = some pl →
      let old := quotaIn (nodeCtx s n) n.n port c
      let fits := (applyQuota s n pl port c m sl).2 = true
      (¬ fits → made (took s b) [1, old.1 + old.2 * 256])
      ∧ (fits → ∃ t, made (took t b) [0, old.1 + old.2 * 256] ∧ t = { s with ctxs := t.ctxs } ∧ quotaIn (nodeCtx t n) n.n port c = (m, sl)
        ∧ ∀ n' q' c', ¬ (n' = n.n ∧ q' = port ∧ c' = c) → quotaIn (nodeCtx t n) n' q' c' = quotaIn (nodeCtx s n) n' q' c')))
  ∧ ∀ g, g < 2 ^ 16 → commits (.tagFree g) (fun s b _ made =>
    let held := g ≠ 0 ∧ mget none (nodeCtx s b.node).tags g = some (.colour b.tag.colour)
    (¬ held → made s [1])
    ∧ (held → ∃ t, made t [0] ∧ mget none (nodeCtx t b.node).tags g = none ∧ t = { s with ctxs := t.ctxs, freed := t.freed }
      ∧ ∀ j, j ≠ g → mget none (nodeCtx t b.node).tags j = mget none (nodeCtx s b.node).tags j))

/-- R292, R293, R300–R302: SPAWN and RECOL deliver a token under another tag. PURGE of its own colour is refused; of another, it begins as its instance is
otherwise ready to commit, after the purges before it: it freezes the colour, drops its work, waits for the reset, and tells what it dropped.
Where a chained SPAWN waits, and what waits for a purge, are the model's (assumptions 49, 50). -/
def Obligations.SpawnRecolPurge : Prop :=
  let sent (b : BInst) (port : BitVec 7) (tag : Tag) (v : Val) : BInst :=
    { b with emits := b.emits ++ [{ slot := b.pc, port := port.toNat, tok := { tag := tag, kind := .data, aux := 0, val := v } }] }
  let isZero (v : Val) : Bool := decide (slotOf v 0 = some 0)
  let slots (v : Val) (l : List Nat) : Prop := ∀ k, k < 16 → slotOf v k = (l.map (BitVec.ofNat 32))[k]?
  (∀ h p s b xs g port, Fires h (k0Const p.k0) s b xs → b.spawned = some g → h.t0 = .chan port →
    ((nodeCtx s b.node).replay = true → exec (.spawn h p) s = .next (raise s b { cause := .replayNondet }))
    ∧ ((nodeCtx s b.node).replay = false → ∃ v, slots v [g.toNat] ∧ exec (.spawn h p) s = .next (putInst s (advance 1
      (deliver1 b.pc h.t1 0 v (isZero v) (sent b port { b.tag with iter := g } (xs.getD 0 noVal)))))))
  ∧ (∀ h p s b x y xs g port, Fires h (k0Const p.k0) s b (x :: y :: xs) → slotOf y 0 = some g → h.t0 = .chan port →
    let col := p.qctl.getLsbD 0
    (col = true → supervisorOf (nodeCtx s b.node) ≠ some b.node.n → exec (.recol h p) s = .next (raise s b { cause := .permission }))
    ∧ ((col = true → supervisorOf (nodeCtx s b.node) = some b.node.n) →
      (2 ^ (if col then 24 else 16) ≤ g.toNat → exec (.recol h p) s = .next (raise s b { cause := .illegalEncoding, detail := 11 }))
      ∧ (g.toNat < 2 ^ (if col then 24 else 16) → exec (.recol h p) s = .next (putInst s (advance 1 (deliver1 b.pc h.t1 0 x (isZero x)
        (sent b port { b.tag with colour := if col then BitVec.ofNat 8 (g.toNat / 2 ^ 16) else b.tag.colour, iter := BitVec.ofNat 16 g.toNat } x)))))))
  ∧ (∀ h p s b x c, Fires h (k0Const p.k0) s b [x] → slotOf x 0 = some c →
    let col : Colour := BitVec.ofNat 8 c.toNat
    (supervisorOf (nodeCtx s b.node) ≠ some b.node.n → exec (.purge h p) s = .next (raise s b { cause := .permission }))
    ∧ (supervisorOf (nodeCtx s b.node) = some b.node.n → 2 ^ 8 ≤ c.toNat → exec (.purge h p) s = .next (raise s b { cause := .illegalEncoding, detail := 11 }))
    ∧ (supervisorOf (nodeCtx s b.node) = some b.node.n → c.toNat < 2 ^ 8 →
      (col = b.tag.colour → ∃ v, slots v [2] ∧ exec (.purge h p) s = .next (putInst s (advance 1 (deliver h 0 (same v false) b))))
      ∧ (col ≠ b.tag.colour → exec (.purge h p) s = .next (putInst s (defers h b (.purge col false))))))
  ∧ (∀ s b e l ls c asked, BeginsCommit s b e → b.later = l :: ls → l.act = .purge c asked →
    let b1 := begunAs s b e
    let s1 := putInst s b1
    let r := exec (.instanceCommit b.cell) s
    let x := nodeCtx s b.node
    (∀ n i g, b.purged = some (n, i, g) → Changes r l b1 ls s1 [0, min n (2 ^ 32 - 1), i, g])
    ∧ (b.purged = none → asked = true → r = .next s1)
    ∧ (b.purged = none → asked = false →
      let b2 := { b1 with later := { l with act := .purge c true } :: ls }
      (x.purging ≠ none → r = .next (putInst (withCtx s1 b (fun x => { x with purgeq := x.purgeq ++ [(c, .inst b.cell b.seq)] })) b2))
      ∧ (x.purging = none → x.purgeq = [] → ∃ u, r = .next (putInst u b2) ∧ frozen u b.node.w b.node.x c = true ∧ u.mem = s.mem
        ∧ (∀ q, q ∈ u.ptoks → ¬ (q.at_.node.w = b.node.w ∧ q.at_.node.x = b.node.x ∧ q.tok.tag.colour = c))
        ∧ (∀ y, y ∈ u.insts → y.node.w = b.node.w → y.node.x = b.node.x → y.tag.colour = c → y.begun = true))))
  ∧ ∀ x s c by_ toks ins tags, (ctxOf s x.w x.x).purging = some (c, by_, toks, ins, tags) → (ctxOf s x.w x.x).purgeq = [] →
    ((∃ b, b ∈ s.insts ∧ b.node.w = x.w ∧ b.node.x = x.x ∧ b.tag.colour = c) → exec (.purgeReset x) s = .next s)
    ∧ ((∀ b, b ∈ s.insts → ¬ (b.node.w = x.w ∧ b.node.x = x.x ∧ b.tag.colour = c)) → ∃ t, exec (.purgeReset x) s = .next t ∧ frozen t x.w x.x c = false
      ∧ ∀ cell seq, by_ = .inst cell seq → t.mem = s.mem
        ∧ ∀ y, findInst s cell seq = some y → ∃ n i g, findInst t cell seq = some { y with purged := some (toks + n, ins + i, tags + g) })

/-- R381–R383, R132: RDSR and WRSR on every special register, HRD and HWR on the persistent registers, and FMTLD, FMTRD and FMTSYNC on
the format table; a write waits for the commit, and reserved bits stay 0 (R4). R384–R387, R189: TRAP raises BREAK with its code and address; BRK does nothing, or is withdrawn and logged while debug-break is set; YIELD
tells whether a decision starts; HALT leaves its effect to its commit; LGBIND checks its descriptor and binds at its commit.
An FMTRD without a target is well formed, and YIELD is judged as it executes (the model's, assumptions 46, 54, 74). -/
def Obligations.SystemInstructions : Prop :=
  (
  (∀ h p s b xs x, Fires h (k0Const p.k0) s b xs → registerOf s b p.sreg.toNat = some x →
    ∃ v, InPair v x ∧ exec (.rdsr h p) s = .next (delivered h 0 s b 1 v (decide (x ≠ 0))))
  ∧ (∀ h p s b x, Fires h (k0Const p.k0) s b [x] →
    let r := p.sreg.toNat
    let c := nodeCtx s b.node
    let denied := ((r = 0x015 ∨ 0x020 ≤ r) ∧ c.sysAttr = false) ∨ (r = 0x023 ∧ (worldOf s b.node.w).sys = false)
    (denied → exec (.wrsr h p) s = .next (raise s b { cause := .permission }))
    ∧ (¬ denied → exec (.wrsr h p) s = .next (putInst s (adds b ((givenWord h p.k0 x).toList.map (fun w => .sreg r w)))))
    ∧ exec (.fmtld h p) s = .next (putInst s (adds b ((givenWord h p.k0 x).toList.map (fun w => .fmt r w))))
    ∧ (hmodeOf s b r = .colour b.tag.colour → exec (.hwr h p) s = .next (putInst s (adds b ((givenWord h p.k0 x).toList.map (fun w => .hreg r w)))))
    ∧ (hmodeOf s b r ≠ .colour b.tag.colour → exec (.hwr h p) s = .next (raise s b { cause := .permission })))
  ∧ (∀ h p s b xs, Fires h (k0Const p.k0) s b xs →
    let r := p.sreg.toNat
    let x := mget 0 b.hregs0 (b.cell * 32 + r)
    let may := hmodeOf s b r = .const ∨ hmodeOf s b r = .colour b.tag.colour
    (may → ∃ v, InPair v x ∧ exec (.hrd h p) s = .next (delivered h 0 s b 1 v (decide (x ≠ 0))))
    ∧ (¬ may → exec (.hrd h p) s = .next (raise s b { cause := .permission }))
    ∧ (∃ v q, SlotNonzero v q ∧ exec (.fmtrd h p) s = .next (delivered h 0 s b 1 v q) ∧ ∀ k, k < 16 →
      slotOf v k = ([entryWord s b r |>.toNat, (entryWord s b r).toNat / 2 ^ 32, b.gen % 2 ^ 16].map (BitVec.ofNat 32))[k]?)
    ∧ (let reached := ∀ cl, cl ∈ ctxCells (nodeCtx s b.node) → b.sync ≤ reachOf s b.node.w b.node.x cl
      let passed := ∀ g, g ∈ heldGens s b.node.w b.node.x (fun y => y.cell == b.cell && decide (b.seq ≤ y.seq)) → b.sync ≤ g
      let settled := b.fetched ≠ some s.now
      (settled → reached → passed → ∃ v q, SlotNonzero v q ∧ exec (.fmtsync h p) s = .next (delivered h 0 s b 1 v q)
        ∧ ∀ k, k < 16 → slotOf v k = if k = 0 then some (BitVec.ofNat 32 (b.sync % 2 ^ 16)) else none)
      ∧ (¬ (settled ∧ reached ∧ passed) → exec (.fmtsync h p) s = .next s)))
  ∧ ∀ s w x v,
    let ctx (r : Nat) : Ctx := ctxOf (writeSreg s w x r v) w x
    let world (r : Nat) : World := worldOf (writeSreg s w x r v) w
    (ctx 0x012).srseed = v ∧ (ctx 0x013).hintdrop = v.toNat % 2 ^ 32 ∧ (ctx 0x015).wdog = v.toNat % 2 ^ 16
    ∧ (world 0x022).ttab = onlyBits v 51 12 + onlyBits v 4 0 ∧ (writeSreg s w x 0x023 v).cgtab = onlyBits v 51 12 ∧ (world 0x024).schedbase = onlyBits v 51 16
    ∧ (world 0x025).polslot = v.toNat % 2 ^ 6 ∧ (world 0x026).ctab = onlyBits v 51 12 ∧ (world 0x027).fltlog = onlyBits v 51 12 + onlyBits v 11 8
    ∧ (world 0x028).evtab = onlyBits v 51 12 ∧ (world 0x029).catab = onlyBits v 51 12
    ∧ (∀ r, r ∈ [0x001, 0x002, 0x003, 0x004, 0x010, 0x011, 0x014, 0x016] → writeSreg s w x r v = s)
    ∧ ∀ r, (writeSreg s w x r v).mem = s.mem ∧ (writeSreg s w x r v).insts = s.insts)
  ∧ (
  (∀ h p s b xs, Fires h (k0Const p.k0) s b xs → exec (.trap h p) s = .next (raise s b
    { cause := .brk, detail := 14, trap := p.sreg.toNat, addr := (elemOf 64 (xs.getD 0 noVal) 0).getD 0 }))
  ∧ (∀ h p s b xs, Fires h (k0Const p.k0) s b xs →
    let set := mget false s.dev.dbgw b.node.w.toNat = true ∧ (worldOf s b.node.w).prot = false
    (b.brkOff = true → exec (.brk h p) s = .next (putInst s (adds b [])))
    ∧ (b.brkOff = false → ¬ set → exec (.brk h p) s = .next (putInst s { b with brkOff := true, pc := 0 }))
    ∧ (b.brkOff = false → set → ∃ t, exec (.brk h p) s = .next t ∧ t.insts = s.insts.filter (fun y => !y.isAt b.cell b.seq)
      ∧ t.firings = s.firings ++ [firingOf s b .brk] ∧ (worldOf t b.node.w).fltSeq = ((worldOf s b.node.w).fltSeq + 1) % 2 ^ 32)
    ∧ (let some_ := ∃ t, findTask s b.node.w (nodeCtx s b.node).task = some t ∧ holdsCells t = true ∧ preemptCands s b.node.w t ≠ []
      ∃ v q n, (some_ → n = 1 ∧ q = true) ∧ (¬ some_ → n = 0 ∧ q = false) ∧ (∀ k, k < 16 → slotOf v k = if k = 0 then some (BitVec.ofNat 32 n) else none)
        ∧ exec (.yield h p) s = .next (putInst s (advance 1 (addEff .yieldTask (deliver h 0 (same v q) b)))))
    ∧ exec (.halt h p) s = .next (putInst s (adds b [.haltTask])))
  ∧ ∀ h p s b x, MemFires h s b [x] →
    (baseOf false x = none → exec (.lgbind h p) s = .next (putInst s (adds b [])))
    ∧ ∀ va, baseOf false x = some va →
      let done := Replaces (exec (.lgbind h p) s) s (adds b [.lgbind p.sreg.toNat (BitVec.ofNat 64 va)])
      (va = 0 → done)
      ∧ (va ≠ 0 → va % 64 ≠ 0 → exec (.lgbind h p) s = .next (raise s b { cause := .addrOverflow, addr := va }))
      ∧ (∀ r, va ≠ 0 → va % 64 = 0 → loadSeq (instByte s b) va = .error r → exec (.lgbind h p) s = .next (raise s b r))
      ∧ (∀ q, va ≠ 0 → va % 64 = 0 → loadSeq (instByte s b) va = .ok q → done))

/-! ### Logit programs and policies -/

/-- R194, R195, R190: the logit instructions on the eight FP32 registers; END gives the id's result to the stream and loads the next id. -/
def Obligations.LogitInstructions : Prop :=
  (∀ d a b, LogitPuts (.lgAdd d a b) d (fun r => codeOf (sumNums false [regNum r a, regNum r b]).toExact)
    ∧ LogitPuts (.lgSub d a b) d (fun r => codeOf (sumNums false [regNum r a, (regNum r b).neg]).toExact)
    ∧ LogitPuts (.lgMul d a b) d (fun r => codeOf ((regNum r a).mul (regNum r b)).toExact)
    ∧ (∀ c, LogitPuts (.lgFma d a b c) d (fun r => codeOf (sumNums false [(regNum r a).mul (regNum r b), regNum r c]).toExact)
      ∧ LogitPuts (.lgSel d a b c) d (fun r => if field (mget (0 : Slot) r.regs c.toNat).toNat 0 31 ≠ 0 then mget 0 r.regs a.toNat else mget 0 r.regs b.toNat))
    ∧ (∀ imm : Slot, LogitPuts (.lgAddi d a imm) d (fun r => codeOf (sumNums false [regNum r a, decodeElem fp32 imm.toNat]).toExact)
      ∧ LogitPuts (.lgMuli d a imm) d (fun r => codeOf ((regNum r a).mul (decodeElem fp32 imm.toNat)).toExact) ∧ LogitPuts (.lgMovi d imm) d (fun _ => imm))
    ∧ LogitPuts (.lgMov d a) d (fun r => mget 0 r.regs a.toNat)
    ∧ LogitPuts (.lgMax d a b) d (fun r => BitVec.ofNat 32 (pickCode fp32 true (mget (0 : Slot) r.regs a.toNat).toNat (mget (0 : Slot) r.regs b.toNat).toNat))
    ∧ LogitPuts (.lgMin d a b) d (fun r => BitVec.ofNat 32 (pickCode fp32 false (mget (0 : Slot) r.regs a.toNat).toNat (mget (0 : Slot) r.regs b.toNat).toNat))
    ∧ LogitPuts (.lgNeg d a) d (fun r => mget 0 r.regs a.toNat ^^^ 0x80000000) ∧ LogitPuts (.lgAbs d a) d (fun r => mget 0 r.regs a.toNat &&& 0x7FFFFFFF)
    ∧ LogitPuts (.lgRcp d a) d (fun r => codeOf (rcpNum (regNum r a))) ∧ LogitPuts (.lgExp2 d a) d (fun r => codeOf (exp2Num (regNum r a)))
    ∧ LogitPuts (.lgLog2 d a) d (fun r => codeOf (log2Num (regNum r a)))
    ∧ LogitPuts (.lgCmplt d a b) d (fun r => if (regNum r a).cmp (regNum r b) = some .lt then 0x3F800000 else 0)
    ∧ LogitPuts (.lgCmple d a b) d (fun r => if (regNum r a).cmp (regNum r b) = some .lt ∨ (regNum r a).cmp (regNum r b) = some .eq then 0x3F800000 else 0)
    ∧ LogitPuts (.lgCmpeq d a b) d (fun r => if (regNum r a).cmp (regNum r b) = some .eq then 0x3F800000 else 0))
  ∧ (∀ a s r, s.logit = some r → ∃ m, (m = true ↔ r.mask = true ∨ field (mget (0 : Slot) r.regs a.toNat).toNat 0 31 ≠ 0)
    ∧ exec (.lgMask a) s = .next { s with logit := some { r with mask := m, pc := r.pc + 1 } })
  ∧ (∀ s r l, s.logit = some r → findStream s r.spire r.colour r.iter = some l →
    let y := takeY l (mget (0 : Slot) r.regs 0).toNat r.cur r.mask
    (r.ids = [] → exec .lgEnd s = .next (putStream { s with logit := none } { y with ended := y.ended || decide (l.next = (l.total + 15) / 16) }))
    ∧ (∀ id g rest, r.ids = (id, g) :: rest →
      let n : LogitRun := { spire := l.spire, colour := l.colour, iter := l.iter, ids := rest, cur := id, prog := l.prog, pc := 0, regs := entryRegs l id g, mask := false }
      exec .lgEnd s = .next (putStream { s with logit := some n } y)))
  ∧ (∀ s r, s.logit = some r → findStream s r.spire r.colour r.iter = none → exec .lgEnd s = .next { s with logit := none })
  ∧ (∀ l y id, let v := decodeElem fp32 y
    takeY l y id true = l ∧ (v = .inf true → takeY l y id false = l) ∧ (v = .nan ∨ v = .inf false → takeY l y id false = { l with bad := true })
    ∧ ∀ sg n e, v = .fin sg n e → (takeY l y id false).cands = (insSorted ranksBefore (y, id) l.cands).take l.k
      ∧ (v.cmp (decodeElem fp32 l.m) = some .gt → (takeY l y id false).m = y) ∧ (v.cmp (decodeElem fp32 l.m) ≠ some .gt → (takeY l y id false).m = l.m))
  ∧ ∀ (l : LStream) id g k, mget (0 : Slot) (entryRegs l id g) k =
    let e := l.table.find? (fun x => x.1 == id)
    if k = 0 then BitVec.ofNat 32 g
    else if k = 1 then codeOf (.rat false ((e.map (fun x => x.2.1)).getD 0 + (l.path.filter (fun x => x == id)).length) 1)
    else if k = 2 then BitVec.ofNat 32 ((e.map (fun x => x.2.2)).getD 0 * 2 ^ 16)
    else if k = 3 then codeOf (.rat false id 1) else 0

/-- R328–R332: the arithmetic, view and control-flow bytecodes of the policy machine, each at one cycle of the budget. -/
def Obligations.PolicyBytecodes : Prop :=
  let q (d : Decision) (k : BitVec 4) : Nat := (mget (0 : Word64) d.regs k.toNat).toNat
  let w (x : Nat) : Word64 := BitVec.ofNat 64 x
  (∀ k a b, PolicyPuts (.polAdd k a b) k (fun d => w (q d a + q d b)) ∧ PolicyPuts (.polSub k a b) k (fun d => w (q d a + 2 ^ 64 - q d b))
    ∧ PolicyPuts (.polMul k a b) k (fun d => w (q d a * q d b)) ∧ PolicyPuts (.polAnd k a b) k (fun d => w (q d a &&& q d b))
    ∧ PolicyPuts (.polOr k a b) k (fun d => w (q d a ||| q d b)) ∧ PolicyPuts (.polXor k a b) k (fun d => w (q d a ^^^ q d b))
    ∧ PolicyPuts (.polShl k a b) k (fun d => w (q d a * 2 ^ (q d b % 64))) ∧ PolicyPuts (.polShr k a b) k (fun d => w (q d a / 2 ^ (q d b % 64)))
    ∧ PolicyPuts (.polMin k a b) k (fun d => w (min (q d a) (q d b))) ∧ PolicyPuts (.polMax k a b) k (fun d => w (max (q d a) (q d b)))
    ∧ PolicyPuts (.polSltu k a b) k (fun d => w (if q d a < q d b then 1 else 0)) ∧ PolicyPuts (.polSeq k a b) k (fun d => w (if q d a = q d b then 1 else 0))
    ∧ PolicyPuts (.polCsel k a b) k (fun d => w (if q d k ≠ 0 then q d a else q d b)))
  ∧ (∀ k a (imm : BitVec 16), let n := imm.toNat
    PolicyPuts (.polLdi k imm) k (fun _ => w n) ∧ PolicyPuts (.polLdis k imm) k (fun d => w (q d k * 2 ^ 16 + n))
    ∧ PolicyPuts (.polAddi k a imm) k (fun d => w (q d a + n)) ∧ PolicyPuts (.polAndi k a imm) k (fun d => w (q d a &&& n))
    ∧ PolicyPuts (.polShli k a imm) k (fun d => w (q d a * 2 ^ (n % 64))) ∧ PolicyPuts (.polShri k a imm) k (fun d => w (q d a / 2 ^ (n % 64)))
    ∧ PolicyPuts (.polRdc k a imm) k (fun d => w (match d.cands[q d a]?, d.subject with
      | some c, _ => c.fields.getD n 0
      | none, some c => if q d a = 63 then c.fields.getD n 0 else 0
      | none, none => 0))
    ∧ PolicyPuts (.polRdq k a imm) k (fun d => w ((d.queues.getD (q d a) []).getD n 0)) ∧ PolicyPuts (.polRdr k a imm) k (fun d => w ((d.regions.getD (q d a) []).getD n 0))
    ∧ PolicyPuts (.polRdw k imm) k (fun d => w (d.wviews.getD n 0))
    ∧ PolicyPuts (.polRdd k imm) k (fun d => w ([d.kind, d.cands.length, d.start % 2 ^ 48, d.free, d.slot].getD n 0))
    ∧ PolicyGoes (.polBrz a imm) (fun d => if q d a = 0 then n else d.pc + 1) ∧ PolicyGoes (.polBrnz a imm) (fun d => if q d a ≠ 0 then n else d.pc + 1)
    ∧ PolicyGoes (.polJmp imm) (fun _ => n)
    ∧ ∀ s x d, Decides s x d → exec (.polForeach k imm) s = .next (withDecision s x (if d.cands = [] then { d with pc := n + 1, count := d.count + 1 }
      else { d with regs := mput 0 d.regs k.toNat 0, pc := d.pc + 1, count := d.count + 1 })))
  ∧ ∀ s x d i k, Decides s x d → foreachOf 0 d.prog d.pc = some (i, k) →
    let y := w (q d k + 1)
    exec .polNext s = .next (withDecision s x { d with regs := mput 0 d.regs k.toNat y, pc := if y.toNat < d.cands.length then i + 1 else d.pc + 1, count := d.count + 1 })

/-- R333, R334, R338: the outcome bytecodes, whose invalid outcomes leave the decision to the fallback, and the end of the budget. -/
def Obligations.PolicyOutcomes : Prop :=
  let at_ (d : Decision) (a : BitVec 4) : Option (BitVec 32) := (d.cands[(mget (0 : Word64) d.regs a.toNat).toNat]?).map (fun c => c.task)
  (∀ a, PolicyEnds (.polPick a) (fun d => if d.kind = 0 then (at_ d a).map .pick else none)
    ∧ PolicyEnds (.polPreempt a) (fun d => if d.kind = 1 then (at_ d a).map .preempt else none)
    ∧ PolicyEnds (.polKill a) (fun d => if (mget (0 : Word64) d.regs a.toNat).toNat = 63 then (if d.kind = 0 then none else some .killSubject)
      else if d.kind = 2 then none else (at_ d a).map .kill))
  ∧ PolicyEnds .polDefer (fun _ => some .defer)
  ∧ ∀ s w d, (worldOf s w).decision = some d → d.outcome = none →
    (d.count < 512 → exec (.policyBudgetExpiry w) s = .next s)
    ∧ (512 ≤ d.count → ∃ t, exec (.policyBudgetExpiry w) s = .next t ∧ t = { s with worlds := t.worlds }
      ∧ (∃ o, Fallback d o ∧ (worldOf t w).decision = some { d with outcome := some o })
      ∧ (mget {} (worldOf t w).policies d.slot).budg = min ((mget {} (worldOf s w).policies d.slot).budg + 1) 0xFFFF)

/-! ### Events -/

/-- R285, R286, R288, R290, R291, R297, R374, R375, R405: how a token leaves, arrives, fails its parity, is cut off or is thrown away, the return
of a credit, and the records that a stall and the exception channel deliver. The ports of the arbiter of an ingress, and
what a durable instance does after a parity error, are the model's (assumptions 45, 57). -/
def Obligations.TokenEvents : Prop :=
  (∀ s ch c f p pl, Arrives s ch c f p pl → chanFrozen s ch c = false →
    (f.tok.kind = .done → ∃ t, exec (.tokenAccept ch c) s = .next t ∧ t.flights = delFirst (fun y => y == f) s.flights ∧ t.ptoks = s.ptoks)
    ∧ (f.tok.kind = .data ∨ f.tok.kind = .scale → (portTakes s p pl c = false → exec (.tokenAccept ch c) s = .next s)
      ∧ (portTakes s p pl c = true → ∃ t, exec (.tokenAccept ch c) s = .next t ∧ t.flights = delFirst (fun y => y == f) s.flights
        ∧ t.ptoks = s.ptoks ++ [waits p (some ch) f.tok ((holdingBkpt s ch.w pl p.port f.tok).map (fun k => (k, s.now)))]
        ∧ ∃ y, y ∈ t.timers ∧ y.at_ = p ∧ y.colour = f.tok.tag.colour)))
  ∧ (∀ s ch c o, chanFrozen s ch c = false → markerSent s ch = false → nextOut s ch c = some o → heldByCut s o = false →
    let goes : Prop := ∃ t, exec (.tokenSend ch c) s = .next t ∧ t.flights = s.flights ++ [departs ch o.tok]
      ∧ t.outq = updFirst (fun y => y == o) (fun y => { y with todo := y.todo.filter (· != ch.n), sent := y.sent ++ [ch.n] }) s.outq
    (isPayload o.tok = false → goes)
    ∧ (isPayload o.tok = true → credit s ch c = 0 → exec (.tokenSend ch c) s = .next s)
    ∧ (isPayload o.tok = true → credit s ch c ≠ 0 → outranked s ch o = false → (o.owner.isSome = true ∨ ingressTurn s (entryDie s o.at_.node) ch c = true → goes)
      ∧ (o.owner = none → ingressTurn s (entryDie s o.at_.node) ch c = false → ∃ l, exec (.tokenSend ch c) s = .next { s with waiters := l })))
  ∧ (∀ s ch c, exec (.creditReturn ch c) s = .next { s with credRet := delFirst (fun e => e.1 == ch && e.2 == c) s.credRet })
  ∧ (∀ s port, exec (.flitReplay port) s = .next s)
  ∧ (∀ s ch c f p pl, Arrives s ch c f p pl →
    (f.errs < 3 → ∃ t, exec (.parityError ch c) s = .next t ∧ t.flights = updFirst (fun y => y == f) (fun y => { y with errs := y.errs + 1 }) s.flights ∧ t.ptoks = s.ptoks
      ∧ ∀ b, b ∈ s.insts → b.node = p.node → b.tag = f.tok.tag → b.begun = false → b.durable = false → b ∉ t.insts
        ∧ ∃ g, g ∈ t.firings ∧ g.cell = b.cell ∧ g.seq = b.seq ∧ g.node = b.node ∧ g.tag = b.tag ∧ g.await = some ch)
    ∧ (3 ≤ f.errs → (inTurn s .fault p.node (faultPlace pl.cell 0) = false → exec (.parityError ch c) s = .next s)
      ∧ (inTurn s .fault p.node (faultPlace pl.cell 0) = true → ∃ t, exec (.parityError ch c) s = .next t ∧ t.flights = delFirst (fun y => y == f) s.flights)))
  ∧ (∀ s ch c f, s.flights.find? (fun f => f.chan == ch && f.tok.tag.colour == c && f.partialTok) = some f → ∃ t, exec (.partialTokenAbort ch c) s = .next t
    ∧ t.flights = delFirst (fun y => y == f) s.flights ∧ t.credRet = (if isPayload f.tok then s.credRet ++ [(ch, c)] else s.credRet) ∧ t.ptoks = s.ptoks)
  ∧ (∀ s ch c f, (s.flights.filter (fun f => f.chan == ch && f.tok.tag.colour == c)).getLast? = some f →
    let source := (sourceOf s ch f.tok).bind (fun n => (placedOf s n).map (fun p => (n, p)))
    let waits := ∃ n p, source = some (n, p) ∧ inTurn s .fault n (faultPlace p.cell 0) = false
    (waits → exec (.hardFault ch c) s = .next s)
    ∧ (¬ waits → ∃ t, exec (.hardFault ch c) s = .next t ∧ t.flights = updFirst (fun y => y == f) (fun y => { y with partialTok := true }) s.flights))
  ∧ (∀ s x e n, s.excFlight.find? (fun e => e.1 == x) = some e → supervisorOf (ctxOf s x.w x.x) = some n →
    let at_ : PortId := { node := { w := x.w, x := x.x, n := n }, port := 15 }
    let full := 32 ≤ (s.ptoks.filter (fun t => t.at_ == at_ && t.chan.isNone)).length
    let drops := (ctxOf s x.w x.x).excDrops
    (full → ∃ t, exec (.excDelivery x) s = .next t ∧ t.ptoks = s.ptoks ∧ (ctxOf t x.w x.x).excDrops = min (drops + 1) (2 ^ 32 - 1))
    ∧ (¬ full → ∃ t v, exec (.excDelivery x) s = .next t
      ∧ t.ptoks = s.ptoks ++ [waits at_ none { tag := { colour := 0, context := x.x, iter := 0 }, kind := .data, aux := e.2.aux, val := v } none]
      ∧ (∀ k, k < 16 → slotOf v k = if k = 4 ∧ e.2.aux = 11 then some (BitVec.ofNat 32 drops) else slotOf e.2.val k)
      ∧ (ctxOf t x.w x.x).excDrops = if e.2.aux = 11 then 0 else drops))
  ∧ ∀ s n (port : BitVec 4) c y p, s.timers.find? (fun t => t.at_ == ({ node := n, port := port.toNat } : PortId) && t.colour == c) = some y → placedOf s n = some p →
    let l := limitOf (nodeCtx s n) c
    let due := y.fired = false ∧ l ≠ 0 ∧ (∀ q, q ∈ s.ptoks → q.at_ = y.at_ → q.tok.tag.colour = y.colour → q.bkpt = none) ∧ y.start + 1024 * l ≤ s.now
    (¬ due → exec (.stallTimer n port c) s = .next s)
    ∧ (due → ∃ t, exec (.stallTimer n port c) s = .next t ∧ (worldOf t n.w).fltSeq = ((worldOf s n.w).fltSeq + 1) % 2 ^ 32
      ∧ t.timers = updFirst (fun z => z.at_ == ({ node := n, port := port.toNat } : PortId) && z.colour == c) (fun z => { z with fired := true }) s.timers
      ∧ (supervisorOf (nodeCtx s n) ≠ none → ∃ e, t.excFlight = s.excFlight ++ [(({ w := n.w, x := n.x } : CtxId), e)] ∧ e.kind = .exc ∧ e.aux = 11))

/-- R31, R35, R41, R46, R47, R50, R88, R105, R106, R127, R130, R216, R225, R243, R256–R258, R317, R321, R371, R373: a cell fetches a block, starts
the firing that comes first, delivers a response, fills a translation entry, commits and releases, and starts, halts, wakes and times out its work.
The order of keys that complete at once, the places of an address-generator cell and of chained instances, and late
changes are the model's (assumptions 47, 48, 49, 50, 51). -/
def Obligations.CellEvents : Prop :=
  (∀ s cell n (blk : BitVec 6) p hdr code, placedOf s n = some p → p.cell = cell → imageBlock p blk.toNat = some (hdr, code) → findBlock s cell n blk.toNat = none →
    (s.blocks.filter (fun y => y.cell == cell)).length < (if cellKind cell = .compute then 8 else 2) →
    let good := blk.toNat ∉ p.rejected ∧ fetchOk s n p blk.toNat hdr code = true
    ∃ t x, exec (.blockFetch cell n blk) s = .next t ∧ t.blocks = s.blocks ++ [x] ∧ t.mem = s.mem ∧ t.insts = s.insts ∧ t.firings = s.firings
      ∧ x.cell = cell ∧ x.node = n ∧ x.blk = blk.toNat ∧ x.hdr = hdr ∧ x.used = s.now
      ∧ (good → x.code = code) ∧ (¬ good → x.code = [] ∧ ∀ q, placedOf t n = some q → blk.toNat ∈ q.rejected))
  ∧ (∀ s f b, startable s f = some b → f.await = none ∧ (s.insts.filter (fun x => x.cell == f.cell)).length < 8 ∧ nodeFires s f.node f.tag.colour = true
    ∧ (∃ blk, findBlock s f.cell f.node f.block = some blk ∧ b.code = blk.code) ∧ b.cell = f.cell ∧ b.seq = f.seq ∧ b.node = f.node ∧ b.tag = f.tag ∧ b.point = f.point
    ∧ b.gen = reachOf s f.node.w f.node.x f.cell ∧ b.hregs0 = s.hregs ∧ b.stage = .open_ ∧ b.effs = [] ∧ b.exit = none
    ∧ (b.hreg = true → ∀ x, x ∈ s.insts → x.cell = f.cell → f.seq ≤ x.seq))
  ∧ (∀ s cell, (∀ b, b ∈ s.insts → b.cell = cell → b.stage ≠ .waiting) →
    ((∀ f, f ∈ s.firings → f.cell = cell → startable s f = none) → exec (.firingChoice cell) s = .next s)
    ∧ ∀ f b, f ∈ s.firings → f.cell = cell → startable s f = some b →
      (∀ g, g ∈ s.firings → g.cell = cell → startable s g ≠ none → g ≠ f → chosenBefore s cell f g = true ∧ chosenBefore s cell g f = false) →
      ∃ t, exec (.firingChoice cell) s = .next t ∧ mget 0 t.lastColour cell = f.tag.colour
        ∧ (b.code ≠ [] → (∀ x, x ∈ slotsOf b.code → ∀ u, entryBad u b x = none) → blockSpawns b.code = false →
          t.firings = s.firings.filter (fun x => !(x.cell == f.cell && x.seq == f.seq))
          ∧ t.insts = s.insts.filter (fun x => !x.isAt b.cell b.seq) ++ [{ b with counters0 := t.counters }] ∧ (f.point = none → t.counters = s.counters)))
  ∧ (∀ s cell seq b p l, findInst s cell seq = some b → b.pend = p :: l →
    exec (.memoryResponse cell seq) s = .next (putInst s (deliverAt p.slot p.h p.aux { v0 := p.v0, p0 := p.b, v1 := p.v1, p1 := p.b } { b with pend := l })))
  ∧ (∀ s cell c (va : Word64) wn holder root k, mget none s.cellOwner cell = some wn → va.toNat < 2 ^ 57 → missHolder s cell (BitVec.ofNat 4 wn) c va.toNat = some holder →
    colourEntry s (BitVec.ofNat 4 wn) c = some (root, k) →
    (∀ d r, walkCached s (cellSpire cell) (BitVec.ofNat 4 wn) c va.toNat root = .bad d r → exec (.translationWalk cell c va) s = .next s)
    ∧ ∀ lv size pb rd wr, walkCached s (cellSpire cell) (BitVec.ofNat 4 wn) c va.toNat root = .leaf lv size pb rd wr →
      let pa := canonPa s (pb + va.toNat % pageBytes size)
      let fills := (rd = true ∨ wr = true) ∧ region pa ≠ none ∧ ownsPa s (BitVec.ofNat 4 wn) pa = true
      (¬ fills → exec (.translationWalk cell c va) s = .next s)
      ∧ (fills → ∃ l ws, exec (.translationWalk cell c va) s = .next { s with walks := ws, tlb :=
          l ++ [{ cell := holder, w := BitVec.ofNat 4 wn, colour := c, vbase := va.toNat / pageBytes size * pageBytes size, size := size, pbase := pb, rd := rd, wr := wr }] }
        ∧ ((s.tlb.filter (fun t => t.cell == holder)).length < (if cellKind cell = .compute then 4 else 1) → l = s.tlb)))
  ∧ (∀ s cell b, oldestInst s cell = some b →
    let faults (slot : Nat) (r : Report) : Prop := (inTurn s .fault b.node (faultPlace b.cell slot) = true → exec (.instanceCommit cell) s = .next (takeFault s b slot r))
      ∧ (inTurn s .fault b.node (faultPlace b.cell slot) = false → exec (.instanceCommit cell) s = .next s)
    (∀ k r, b.raised = some (k, r) → faults k r)
    ∧ (b.raised = none → (b.stage = .waiting ∨ b.pend ≠ [] ∨ (b.pc < b.code.length ∧ b.later = [])) → exec (.instanceCommit cell) s = .next s)
    ∧ (b.raised = none → b.stage ≠ .waiting → b.code.length ≤ b.pc → b.pend = [] → b.exit = none → faults 0 { cause := .illegalEncoding, detail := 1 })
    ∧ ∀ e, BeginsCommit s b e → b.later = [] →
      (b.stage = .releasing → exec (.instanceCommit cell) s = .next s)
      ∧ (b.stage ≠ .releasing → needsRelease s b e = true → exec (.instanceCommit cell) s = .next (putInst s { b with stage := .releasing }))
      ∧ (b.stage ≠ .releasing → needsRelease s b e = false →
        let goes := commitRoom s b = true ∧ roomTurn s b = true ∧ commitTurn s b = true
        (¬ goes → ∃ l, exec (.instanceCommit cell) s = .next { s with waiters := l })
        ∧ (goes → e = .fin → b.effs = [] → (nodeCtx s b.node).halted = false → ∃ t, exec (.instanceCommit cell) s = .next t
          ∧ t.insts = s.insts.filter (fun x => !x.isAt b.cell b.seq) ∧ t.mem = s.mem ∧ t.ptoks = s.ptoks.filter (fun x => !x.usedBy { s with insts := t.insts } b.cell b.seq))))
  ∧ (∀ b s, (∀ n v, mget 0 (applyEff b s (.hreg n v)).hregs (b.cell * 32 + n) = v) ∧ (∀ r v, applyEff b s (.sreg r v) = writeSreg s b.node.w b.node.x r v)
    ∧ (∀ op, mget none (applyEff b s (.plane op)).planes b.cell = planeAfter b.tag op (mget none s.planes b.cell)) ∧ (nodeCtx (applyEff b s .haltTask) b.node).halted = true
    ∧ (∀ st v, findInv s b.inv = some v → findInv (applyEff b s (.store st)) b.inv = some { v with held := v.held ++ [st] })
    ∧ ∀ i v, let t := applyEff b s (.fmt i v)
      (nodeCtx t b.node).gen = (nodeCtx s b.node).gen + 1 ∧ t.fmtReach = s.fmtReach ∧ t.fmtOwn = s.fmtOwn ++ [(({ w := b.node.w, x := b.node.x } : CtxId), b.cell, (nodeCtx s b.node).gen + 1)])
  ∧ (∀ s cell seq b v sts, findInst s cell seq = some b → b.stage = .releasing → b.exit = some .fin → endsHere s b .fin = true → findInv s b.inv = some v →
    b.effs = sts.map .store → Lands s (v.held ++ sts) → ∃ t, exec (.releasePerformed cell seq) s = .next t
      ∧ t.mem = (v.held ++ sts).foldl (fun m st => putBytes m st.bytes) s.mem ∧ t.insts = (putInst s { b with stage := .released, effs := [] }).insts)
  ∧ (∀ s n tag,
    let moves (go : Bool) : State := { s with ctls := updFirst (fun c => !c.here && c.go == go && c.node == n && c.tag == tag) (fun c => { c with here := true }) s.ctls }
    (frozen s n.w n.x tag.colour = true → exec (.goToken n tag) s = .next s ∧ exec (.haltToken n tag) s = .next s)
    ∧ (frozen s n.w n.x tag.colour = false → exec (.goToken n tag) s = .next (moves true) ∧ exec (.haltToken n tag) s = .next (moves false)))
  ∧ (∀ s c p, s.nests = [] → s.goWaits = [] → placedOf s c.node = some p → nodeCut s c.node = false → (nodeCtx s c.node).halted = false →
    (∀ y, y ∈ s.ctls → ¬ (y.here = true ∧ y.go = false ∧ y.node = c.node ∧ y.tag = c.tag)) →
    ∃ r v, (takeGo s c).nests = [r] ∧ (takeGo s c).goWaits = [] ∧ r.node = c.node ∧ r.tag = c.tag ∧ r.inv = s.nextInv ∧ r.next = 0 ∧ r.halted = false
      ∧ (takeGo s c).invs = s.invs ++ [v] ∧ v.id = s.nextInv ∧ v.tag = c.tag ∧ v.nest = true ∧ v.held = [])
  ∧ (∀ s c r, r ∈ s.nests → r.node = c.node → (∀ y, y ∈ s.ctls → ¬ (y.here = true ∧ y.go = false ∧ y.node = c.node ∧ y.tag = c.tag)) → (takeGo s c).nests = s.nests
    ∧ (takeGo s c).goWaits = s.goWaits ++ [{ node := c.node, tag := c.tag, halted := false, acq := c.src.isSome }])
  ∧ (∀ s c, c ∈ s.ctls →
    ((∀ r, r ∈ s.nests → ¬ (r.node = c.node ∧ r.tag = c.tag)) → takeHalt s c = { s with
      ctls := delFirst (fun y => y == c) s.ctls, goWaits := updFirst (fun g => g.node == c.node && g.tag == c.tag) (fun g => { g with halted := true }) s.goWaits })
    ∧ ∀ r, s.nests.find? (fun r => r.node == c.node && r.tag == c.tag) = some r → (∃ b, b ∈ s.insts ∧ b.inv = r.inv) →
      (takeHalt s c).nests = s.nests.map (fun x => if x.inv = r.inv then { x with halted := true } else x) ∧ (takeHalt s c).insts = s.insts)
  ∧ (∀ s cell r, s.nests.find? (fun r => (placedOf s r.node).any (fun p => p.cell == cell)) = some r →
    let ready := r.halted = false ∧ r.due = false ∧ r.next < r.points ∧ nodeCut s r.node = false ∧ frozen s r.node.w r.node.x r.tag.colour = false ∧ (nodeCtx s r.node).halted = false
      ∧ (∀ b, b ∈ s.insts → b.inv ≠ r.inv) ∧ (∀ f, f ∈ s.firings → f.inv ≠ some r.inv)
    (¬ ready → exec (.loopNestOuterPoint cell) s = .next s)
    ∧ (ready → exec (.loopNestOuterPoint cell) s = .next { s with nests := s.nests.map (fun x => if x.inv = r.inv then { x with due := true } else x) }))
  ∧ (∀ s n p r,
    let fires := r.due = true ∧ r.halted = false ∧ nodeCut s n = false ∧ frozen s n.w n.x r.tag.colour = false ∧ (nodeCtx s n).halted = false ∧ setComplete s n (entryPorts p) r.tag = true
    (¬ fires → completePoint s n p r = s)
    ∧ (fires → ∃ f, (completePoint s n p r).firings = s.firings ++ [f] ∧ f.node = n ∧ f.tag = r.tag ∧ f.inv = some r.inv ∧ f.point = some (outerPoint r.exts r.next, r.next)
      ∧ f.seq = mget 0 s.seqs p.cell + 1 ∧ f.age = s.now ∧ (completePoint s n p r).nests = s.nests.map (fun x => if x.inv = r.inv then { x with next := x.next + 1, due := false } else x)))
  ∧ (∀ s x cell e, s.fmtTravel.find? (fun t => t.1 == x && t.2.1 == cell) = some e →
    (s.now ≤ e.2.2.2 → exec (.formatChangeReach x cell) s = .next s)
    ∧ (e.2.2.2 < s.now → ∃ t, exec (.formatChangeReach x cell) s = .next t ∧ reachOf t x.w x.x cell = max (reachOf s x.w x.x cell) e.2.2.1
      ∧ t.fmtTravel = delFirst (fun u => u.1 == x && u.2.1 == cell) s.fmtTravel ∧ t.mem = s.mem))
  ∧ (∀ s cell seq m, s.monitors.find? (fun m => m.cell == cell && m.seq == seq) = some m →
    let sees (k : Wake) : State := { s with monitors := updFirst (fun m => m.cell == cell && m.seq == seq) (fun m => m.sees s.now k) s.monitors }
    (∀ k t, m.event = some (k, t) → (s.now ≤ t → exec (.monitorEvent cell seq) s = .next s)
      ∧ (t < s.now → exec (.monitorEvent cell seq) s = .next { s with
        monitors := s.monitors.filter (fun m => !(m.cell == cell && m.seq == seq))
        firings := s.firings.map (fun f => match f.kind with
          | .withdrawn none from_ => if f.cell = cell ∧ f.seq = seq then { f with kind := .withdrawn (some k) from_, counting := some s.now } else f
          | _ => f) }))
    ∧ (m.event = none → exec (.monitorEvent cell seq) s = .next (sees .spurious))
    ∧ (∀ d, m.deadline = some d → d ≤ s.now → exec (.waitTimeout cell seq) s = .next (sees .timeout))
    ∧ ((∀ d, m.deadline = some d → s.now < d) → exec (.waitTimeout cell seq) s = .next s))
  ∧ (∀ (m : Monitor) now k, (m.event = none → m.sees now k = { m with event := some (k, now) }) ∧ (∀ j t, m.event = some (j, t) → t ≠ now → m.sees now k = m)
    ∧ (m.event = some (.timeout, now) ∨ m.event = some (.lost, now) → m.sees now .write = { m with event := some (.write, now) }))
  ∧ (∀ s cell seq b, findInst s cell seq = some b →
    let l := watchLimit (nodeCtx s b.node)
    let due := b.begun = false ∧ b.raised = none ∧ l ≠ 0 ∧ (nodeCtx s b.node).cut = none ∧ b.born + l ≤ s.now ∧ inTurn s .fault b.node (faultPlace b.cell b.pc) = true
    (due → exec (.watchdogExpiry cell seq) s = .next (takeFault s b b.pc { cause := .watchdog })) ∧ (¬ due → exec (.watchdogExpiry cell seq) s = .next s))
  ∧ ∀ s cell seq f p, findInst s cell seq = none → s.firings.find? (fun f => f.cell == cell && f.seq == seq) = some f → placedOf s f.node = some p →
    let l := watchLimit (nodeCtx s f.node)
    let counted := f.watch + (f.counting.map (fun t => s.now - t)).getD 0
    let due := f.counting ≠ none ∧ l ≠ 0 ∧ (nodeCtx s f.node).cut = none ∧ l ≤ counted ∧ inTurn s .fault f.node (faultPlace f.cell 0) = true
    (¬ due → exec (.watchdogExpiry cell seq) s = .next s)
    ∧ (due → ∃ t, exec (.watchdogExpiry cell seq) s = .next t ∧ (worldOf t f.node.w).fltSeq = ((worldOf s f.node.w).fltSeq + 1) % 2 ^ 32 ∧ f ∉ t.firings
      ∧ (f.inv = none → t.firings = s.firings.filter (fun x => !(x.cell == f.cell && x.seq == f.seq))))

/-- R266–R271, R275, R278–R280, R319: a copy moves a point, a chunk and a whole box, a stream its tile, a notice frees a slot, a collective ends,
an operation that is stuck ends with a fault, and the spire core acts on an event record. The port of a request for an
engine's room is the model's (assumption 57). -/
def Obligations.EngineEvents : Prop :=
  let gone (s : State) (id : Nat) : List EngOp := s.ops.filter (fun x => x.id != id)
  let faulted (r : Report) : List (Option Nat) := [some r.cause.code, some r.addr, some (r.addr / 2 ^ 32)]
  (∀ s o d fixed off k, let pt := pointAt d.box k
    let n := 2 ^ d.src.esz
    (inView d.dst d.rank fixed pt = false → copyPoint s o d fixed off k = .ok s)
    ∧ ∀ pa, inView d.dst d.rank fixed pt = true → laterWrote d fixed k (viewAddr d.dst d.rank fixed pt) o.done = false →
      engAddr s o d.dst.sp (viewAddr d.dst d.rank fixed pt + (off : Nat)) n false true = .ok pa → (d.dst.sp = true ∨ ∀ i, i < n → typeAt s (pa + i) = 0) →
      (inView d.src d.rank none pt = false → ∃ t, copyPoint s o d fixed off k = .ok t ∧ WritesOnly s t ∧ Written s t (bytesAt pa n) ((d.src.pad + 2 ^ 32 * d.src.pad) % 2 ^ (8 * n)))
      ∧ ∀ x, inView d.src d.rank none pt = true → engAddr s o d.src.sp (viewAddr d.src d.rank none pt) n true false = .ok x →
        ∃ t, copyPoint s o d fixed off k = .ok t ∧ WritesOnly s t ∧ Written s t (bytesAt pa n) (numberAt s (bytesAt x n)))
  ∧ (∀ s id o d j, findOp s id = some o → o.kind = .copy d →
    let open_ := o.stuck = none ∧ d.nbw ≠ 0 ∧ j ∉ o.chunks ∧ chunkPoints d j ≠ []
    (¬ open_ → exec (.chunkComplete id j) s = .next s)
    ∧ ∀ s1 pa, open_ → copyPoints o d none 0 s (chunkPoints d j) = .ok s1 → access s1 (some (opHolder o)) o.node.w o.tag.colour (d.bmap + 8 * (j / 64)) 8 true true = .ok pa → typeAt s1 pa = 2 →
      ∃ t, exec (.chunkComplete id j) s = .next t ∧ Written s1 t (bytesAt pa 8) (numberAt s1 (bytesAt pa 8) ||| 2 ^ (j % 64))
        ∧ ∃ o1, t.ops = updFirst (fun x => x.id == id) (fun _ => o1) s.ops ∧ o1.chunks = j :: o.chunks ∧ (∀ k, k ∈ o1.done ↔ k ∈ o.done ∨ k ∈ chunkPoints d j))
  ∧ (∀ s id o d, findOp s id = some o → o.kind = .copy d →
    let ready := o.stuck = none ∧ canReport s o = true ∧ (d.nbw = 0 ∨ ∀ j, j ∈ copyChunks d → j ∈ o.chunks)
    (¬ ready → exec (.copyComplete id) s = .next s)
    ∧ ∀ s1, ready → copyPoints o d none 0 s (List.range (boxSize d)) = .ok s1 → ∃ t v, exec (.copyComplete id) s = .next t ∧ Reported s t o v ∧ Shows v [some 0]
      ∧ t.mem = s1.mem ∧ t.ops = gone s id)
  ∧ (∀ s id o d st, findOp s id = some o → o.kind = .stream d st →
    let ready := o.stuck = none ∧ (st.next < st.ns ∨ st.next - st.ns ∈ st.accepted) ∧ canReport s o = true ∧ (nodeCtx s o.node).cut = none
    let k := st.next % st.ns
    let last := st.next + 1 = d.box.getD (tileDim d) 0
    (¬ ready → exec (.streamTile id) s = .next s)
    ∧ ∀ s1, ready → copyPoints o d (some (tileDim d)) (k * st.slotb) s (opPoints o) = .ok s1 → ∃ t v, exec (.streamTile id) s = .next t ∧ Reported s t o v ∧ t.mem = s1.mem
      ∧ Shows v [some (cellX o.home + cellY o.home * 2 ^ 7 + st.place * 2 ^ 14 + st.epoch * 2 ^ 17), some st.next, some k, some (wrap32 (d.dst.base + (k * st.slotb : Nat))), some (if last then 1 else 0)]
      ∧ (last → t.ops = gone s id)
      ∧ (¬ last → t.ops = updFirst (fun x => x.id == id) (fun _ => { o with done := [], kind := .stream d { st with next := st.next + 1, newest := mput none st.newest k (some st.next) } }) s.ops))
  ∧ (∀ s cell n, s.notices.find? (fun n => n.cell == cell) = some n → ∃ t, exec (.noticeAccept cell) s = .next t ∧ t.notices = delFirst (fun x => x.cell == cell) s.notices
    ∧ ((∀ o, o ∈ s.ops → accepts o n = false) → t.ops = s.ops)
    ∧ ∀ o d st, s.ops.find? (fun o => accepts o n) = some o → o.kind = .stream d st →
      t.ops = updFirst (fun o => accepts o n) (fun o => { o with kind := .stream d { st with accepted := n.tile :: st.accepted } }) s.ops)
  ∧ (∀ s id o c, findOp s id = some o → o.kind = .coll c →
    let ps := peersOf s c
    let ends (i : Instr) (status : Nat) (m : List Host.Cell) : Prop := ∃ t v, exec i s = .next t ∧ Reported s t o v ∧ t.mem = m ∧ t.ops = gone s id
      ∧ t.peers = s.peers.filter (fun p => !(p.desc.group == c.group && p.desc.seq == c.seq)) ∧ Shows v [some status, none, none, none, some c.rank, some c.p]
    (canReport s o = false → exec (.collComplete id) s = .next s ∧ exec (.collTimeout id) s = .next s)
    ∧ (canReport s o = true →
      ((∃ p, p ∈ ps ∧ p.failed = true) → ends (.collComplete id) 8 s.mem)
      ∧ ((∀ p, p ∈ ps → p.failed = false) →
        (allStarted s c = false → exec (.collComplete id) s = .next s)
        ∧ (allStarted s c = true → (∃ p, p ∈ ps ∧ sameColl c p.desc = false) → ends (.collComplete id) 4 s.mem)
        ∧ (allStarted s c = true → (∀ p, p ∈ ps → sameColl c p.desc = true) → ∀ own s1, collSrc s o c (collLens c).1 0 = .ok own →
          collWrite o c (fun n => collElem c c.rank n (fun r i => if r = c.rank then own.getD i 0 else ((ps.find? (fun p => p.rank == r)).map (fun p => p.src.getD i 0)).getD 0)) (collWrites c) 0 (collTouch o c (collLens c).1 0 s) = (s1, none) →
          ends (.collComplete id) 0 s1.mem))
      ∧ (c.tmo ≠ 0 ∧ o.start + c.tmo ≤ s.now ∧ allStarted s c = false → ((∀ p, p ∈ ps → p.failed = false) → ends (.collTimeout id) 2 s.mem)
        ∧ ((∃ p, p ∈ ps ∧ p.failed = true) → ends (.collTimeout id) 8 s.mem))
      ∧ (¬ (c.tmo ≠ 0 ∧ o.start + c.tmo ≤ s.now ∧ allStarted s c = false) → exec (.collTimeout id) s = .next s)))
  ∧ (∀ c q n srcs, let value (r i : Nat) : Machine.Num := decodeElem (Fmt.ofWord c.ein) (srcs r i)
    let noise := srNoise (BitVec.ofNat 64 c.cseed) (BitVec.ofNat 64 (c.seq * 2 ^ 32 + n % 2 ^ 32)) 0
    let sum (i : Nat) : Nat := roundNum (chunkSum ((List.range c.p).map (fun r => value r i))) (Fmt.ofWord c.eout) c.mode noise
    (c.op ≤ 1 → c.red = 0 → collElem c q n srcs = sum n) ∧ (c.op = 4 → c.red = 0 → collElem c q n srcs = sum (q * c.count + n))
    ∧ (c.op = 2 → collElem c q n srcs = convert (srcs c.root n) (Fmt.ofWord c.ein) (Fmt.ofWord c.eout) c.mode noise)
    ∧ (c.op = 3 → collElem c q n srcs = convert (srcs (n / c.count) (n % c.count)) (Fmt.ofWord c.ein) (Fmt.ofWord c.eout) c.mode noise))
  ∧ (∀ s id o, findOp s id = some o →
    ((opStuck s o = none ∨ canReport s o = false) → exec (.engineFault id) s = .next s)
    ∧ ∀ k r, opStuck s o = some (k, r) → canReport s o = true → r.cause ≠ .stall →
      let ends (l : List (Option Nat)) : Prop := ∃ t v, exec (.engineFault id) s = .next t ∧ Reported s t o v ∧ Recorded s t o.node.w ∧ t.ops = gone s id ∧ Shows v l
      (∀ d, o.kind = .copy d → ends (some 1 :: faulted r ++ (List.range 5).map (fun i => some (r.iters.getD i 0))))
      ∧ (∀ d st, o.kind = .stream d st → ends ([some (cellX o.home + cellY o.home * 2 ^ 7 + st.place * 2 ^ 14 + st.epoch * 2 ^ 17), some st.next, some (st.next % st.ns),
        some (wrap32 (d.dst.base + (st.next % st.ns * st.slotb : Nat))), some 3] ++ faulted r))
      ∧ ∀ c, o.kind = .coll c → ((∀ p, p ∈ peersOf s c → p.failed = false) → ends (some 1 :: faulted r ++ [some c.rank, some c.p]))
        ∧ ((∃ p, p ∈ peersOf s c ∧ p.failed = true) → ∃ t v, exec (.engineFault id) s = .next t ∧ Reported s t o v ∧ t.worlds = s.worlds ∧ t.ops = gone s id
          ∧ Shows v [some 8, none, none, none, some c.rank, some c.p]))
  ∧ (∀ s sp, s.evqs.find? (fun e => e.spire == sp) = none → exec (.eventRecord sp) s = .next s)
  ∧ ∀ s sp e, s.evqs.find? (fun e => e.spire == sp) = some e →
    let freed : State := { s with evqs := delFirst (fun x => x.spire == sp) s.evqs }
    (evAction s e = none → exec (.eventRecord sp) s = .next freed)
    ∧ ∀ d, evAction s e = some d →
      (field (d 0) 1 2 = 0 → exec (.eventRecord sp) s = .next freed)
      ∧ (field (d 0) 1 2 = 1 → let base := field (d 1) 12 40 * 2 ^ 12
        let n := 2 ^ field (d 1) 0 4
        inCapability s e.w base (64 + 64 * n) = true → isDevice base = true →
        ((word8 s.mem base 0 + 2 ^ 64 - word8 s.mem base 1) % 2 ^ 64 = n → exec (.eventRecord sp) s = .next s)
        ∧ ((word8 s.mem base 0 + 2 ^ 64 - word8 s.mem base 1) % 2 ^ 64 ≠ n → ∃ t, exec (.eventRecord sp) s = .next t ∧ t.evqs = freed.evqs
          ∧ word8 t.mem base 0 = (word8 s.mem base 0 + 1) % 2 ^ 64 ∧ (∀ i x, (evWords e)[i]? = some x → word8 t.mem (base + 64 + 64 * (word8 s.mem base 0 % n)) i = x % 2 ^ 64)
          ∧ t.outputs = s.outputs ++ (if field (d 2) 0 16 = 0 then [] else [.msix e.w (field (d 2) 0 16)])))
      ∧ (field (d 0) 1 2 = 2 → ∀ pa old, devWord s e.w e.tag.colour (d 1) true true = .ok (pa, old) → typeAt s pa = field (d 2) 0 2 → ∃ t, exec (.eventRecord sp) s = .next t ∧ t.evqs = freed.evqs
        ∧ Written s t (bytesAt pa 8) (if field (d 2) 0 2 = 0 then d 3 else if field (d 2) 0 2 = 1 then (arriveWord old).1 else old ||| d 3))

/-- R179–R181, R217: the belfry takes a DRAIN, swaps at quiescence and is enabled and disabled; a write of sr.tinval drops translation entries.
A saved CUR is put back while no other context of the sequence runs (the model's, assumptions 32, 56). -/
def Obligations.BelfryEvents : Prop :=
  let on (s : State) (w : BitVec 4) : Prop := (worldOf s w).belfry.getLsbD 0 = true
  let cur (b : Word64) : Nat := field b.toNat 4 2
  let context (b : Word64) (i : Nat) : Context := BitVec.ofNat 8 (field b.toNat (16 + 8 * i) 8)
  let taken (s : State) (w : BitVec 4) : Prop := ¬ ((worldOf s w).prot = true ∧ (worldOf s w).tdi = .error)
  (∀ s w, (worldOf s w).drainFlight = [] → exec (.drainReceive w) s = .next s)
  ∧ (∀ s w t l, (worldOf s w).drainFlight = t :: l → ∃ u, exec (.drainReceive w) s = .next u ∧ u = { s with worlds := u.worlds } ∧ (worldOf u w).drainFlight = l
    ∧ (on s w → (worldOf u w).drains = (worldOf s w).drains ++ [t]) ∧ (¬ on s w → (worldOf u w).drains = (worldOf s w).drains))
  ∧ (∀ s w x, ctxQuiet s w x = true → (∀ b, b ∈ s.insts → ¬ (b.node.w = w ∧ b.node.x = x)) ∧ (∀ f, f ∈ s.firings → ¬ (f.node.w = w ∧ f.node.x = x))
    ∧ (∀ v, v ∈ s.invs → v.node.w = w → v.node.x = x → v.held = []) ∧ (∀ o, o ∈ s.ops → o.node.w = w → o.node.x = x → o.isStream = true))
  ∧ (∀ s w, (worldOf s w).drains = [] → exec (.belfrySwap w) s = .next s)
  ∧ (∀ s w t l, (worldOf s w).drains = t :: l →
    let b := (worldOf s w).belfry
    let out := context b (cur b)
    let next := (cur b + 1) % (field b.toNat 8 2 + 1)
    let x := context b next
    let ready := on s w ∧ (ctxOf s w out).cut = none ∧ ctxQuiet s w out = true
    (¬ ready → exec (.belfrySwap w) s = .next s)
    ∧ (ready → ∃ u, exec (.belfrySwap w) s = .next u ∧ cur (worldOf u w).belfry = next ∧ (∀ i, i < 4 → context (worldOf u w).belfry i = context b i)
      ∧ field (worldOf u w).belfry.toNat 8 2 = field b.toNat 8 2 ∧ (worldOf u w).swaps = (worldOf s w).swaps + 1 ∧ (ctxOf u w x).ended = 0 ∧ u.mem = s.mem ∧ u.insts = s.insts
      ∧ ((worldOf s w).disable = false → on u w ∧ (worldOf u w).drains = l) ∧ ((worldOf s w).disable = true → ¬ on u w ∧ (worldOf u w).drains = [])
      ∧ ((ctxOf s w x).launched = true → (∃ v, Shows v [some t.aux.toNat] ∧ u.srcq = s.srcq ++ (ctxOf s w x).starts.filterMap (fun n => (startChan (ctxOf s w x) n).map (fun k =>
          (({ w := w, x := x, n := k } : ChanId), ({ tag := { colour := (ctxOf s w x).colour, context := x, iter := 0 }, kind := .data, aux := 0, val := v } : Token)))))
        ∧ ∀ n, n ∈ rootNests (ctxOf s w x) → ∃ c, c ∈ u.ctls ∧ c.go = true ∧ c.node = { w := w, x := x, n := n } ∧ c.tag.iter = 0)
      ∧ ((ctxOf s w x).launched = false → u.srcq = s.srcq ∧ u.ctls = s.ctls ∧ (worldOf u w).goDue = (worldOf s w).goDue ++ [(x, t)])))
  ∧ (∀ s w v,
    let closed : State := { s with outputs := s.outputs ++ [.unsupported] }
    ((¬ v.getLsbD 0 = true ∨ (taken s w ∧ on s w)) → exec (.belfryEnable w v) s = .next s)
    ∧ (¬ taken s w → (v.getLsbD 0 = true → exec (.belfryEnable w v) s = .next closed) ∧ exec (.belfryDisable w) s = .next closed ∧ exec (.tinval w v) s = .next closed)
    ∧ (v.getLsbD 0 = true → taken s w → ¬ on s w → ∃ u, exec (.belfryEnable w v) s = .next u ∧ on u w ∧ cur (worldOf u w).belfry = 0
      ∧ field (worldOf u w).belfry.toNat 8 2 = field v.toNat 8 2 ∧ (∀ i, i < 4 → context (worldOf u w).belfry i = context v i) ∧ (worldOf u w).swaps = 0 ∧ (worldOf u w).drains = []
      ∧ (ctxOf u w (context v 0)).ended = 0 ∧ u.mem = s.mem)
    ∧ (taken s w → on s w → (worldOf s w).drains = [] → ∃ u, exec (.belfryDisable w) s = .next u ∧ u = { s with worlds := u.worlds } ∧ (worldOf u w).belfry.toNat + 1 = (worldOf s w).belfry.toNat)
    ∧ (taken s w → on s w → (worldOf s w).drains ≠ [] → ∃ u, exec (.belfryDisable w) s = .next u ∧ u = { s with worlds := u.worlds } ∧ on u w ∧ (worldOf u w).disable = true
      ∧ (worldOf u w).drains = (worldOf s w).drains)
    ∧ (taken s w → ∃ u, exec (.tinval w v) s = .next u ∧ u = { s with tlb := u.tlb, walks := u.walks, bank := u.bank }
      ∧ (∀ e, e ∈ u.walks ↔ e ∈ s.walks ∧ ¬ (e.w = w ∧ (v.getLsbD 8 = true ∨ e.colour = BitVec.ofNat 8 v.toNat)))
      ∧ ∀ e, e ∈ u.tlb ↔ e ∈ s.tlb ∧ ¬ (e.w = w ∧ (v.getLsbD 8 = true ∨ e.colour = BitVec.ofNat 8 v.toNat))))

/-- R184, R189, R190, R192, R193, R197–R199: a lantern opens a stream at its header, reads logit tokens, draws, counts committed ids, and the walker ends
a walk. The bytes of a lost Dome line are free values (assumption 43). -/
def Obligations.LanternEvents : Prop :=
  let left (s u : State) (t : PTok) : Prop := u.ptoks = delFirst (fun y => y == t) s.ptoks
  let same (s u : State) : Prop := u.lstreams = s.lstreams ∧ u.lanterns = s.lanterns
  (∀ s n c p sp t, lanternPort s n 0 c true = some (p, sp) → (placedOf s p.node).isSome = true →
    (s.lstreams.filter (fun l => l.spire == sp)).length < 16 → (seqHeads s p c).find? (fun t => !(t.tok.kind == .data && t.tok.aux == 0)) = some t →
    (readHeader t.tok = none → ∃ u, exec (.streamHeader n c) s = .next u ∧ left s u t ∧ same s u ∧ Recorded s u p.node.w)
    ∧ ∀ hd, readHeader t.tok = some hd → s.logit = none → findStream s sp c t.tok.tag.iter = none →
      let waits := ∃ y, y ∈ s.ptoks.takeWhile (fun y => y != t) ∧ y.at_.port = 1 ∧ y.tok.tag.colour = t.tok.tag.colour ∧ y.tok.tag.iter = t.tok.tag.iter ∧ lanternOf s y.at_.node = some sp
      (waits → exec (.streamHeader n c) s = .next s)
      ∧ (¬ waits → bindOf s sp c t.tok.tag.iter = none → ∃ u l, exec (.streamHeader n c) s = .next u ∧ left s u t ∧ u.lstreams = s.lstreams ++ [l] ∧ l.drop = true ∧ l.total = hd.2.2.1
        ∧ Recorded s u p.node.w)
      ∧ ∀ va d prog tab, ¬ waits → bindOf s sp c t.tok.tag.iter = some va → loadSeq (devByte s n.w t.tok.tag.colour) va = .ok (d, prog) →
        readTable (devByte s n.w t.tok.tag.colour) d.table d.ntab = .ok tab → ∃ u l, exec (.streamHeader n c) s = .next u ∧ left s u t ∧ u.lstreams = s.lstreams ++ [l]
          ∧ u.mem = s.mem ∧ l.spire = sp ∧ l.colour = t.tok.tag.colour ∧ l.iter = t.tok.tag.iter ∧ (l.pos, l.node, l.total, l.path) = hd ∧ l.next = 0 ∧ l.prog = prog ∧ l.vlim = d.vlim ∧ l.k = d.k
          ∧ l.table = (joinTable none tab).1 ∧ l.order = (joinTable none tab).2 ∧ l.m = 0xFF800000 ∧ l.sum = 0 ∧ l.cands = [] ∧ l.drop = false ∧ l.faulted = false)
  ∧ (∀ s n c p sp t, lanternPort s n 0 c true = some (p, sp) → (placedOf s p.node).isSome = true → (seqHeads s p c).find? (fun t => t.tok.kind == .data && t.tok.aux == 0) = some t →
    (findStream s sp c t.tok.tag.iter = none → ∃ u, exec (.logitToken n c) s = .next u ∧ left s u t ∧ same s u ∧ Recorded s u p.node.w)
    ∧ ∀ l, findStream s sp c t.tok.tag.iter = some l → l.ended = false → l.drop = false → l.faulted = false →
      (s.logit.isSome = true → exec (.logitToken n c) s = .next s)
      ∧ (s.logit = none → ∃ u ids, exec (.logitToken n c) s = .next u ∧ left s u t ∧ (∀ i v, (i, v) ∈ ids ↔ ∃ k x, k < 16 ∧ i = 16 * l.next + k ∧ i < l.total ∧ i < l.vlim ∧ slotOf t.tok.val k = some x ∧ v = x.toNat)
        ∧ (∀ id g rest, ids = (id, g) :: rest → u.logit = some { spire := l.spire, colour := l.colour, iter := l.iter, ids := rest, cur := id, prog := l.prog, pc := 0, regs := entryRegs l id g, mask := false })
        ∧ (ids = [] → u.logit = none)))
  ∧ (∀ s n c i p sp l, lanternPort s n 0 c false = some (p, sp) → findStream s sp c i = some l →
    (l.ended = false → exec (.streamDraw n c i) s = .next s)
    ∧ (l.ended = true → ∃ u, exec (.streamDraw n c i) s = .next u ∧ u.lstreams = delFirst (isSeq l.spire l.colour l.iter) s.lstreams ∧ u.ptoks = s.ptoks
      ∧ (l.drop = false → u = emitLantern { s with lstreams := u.lstreams } n.w l.spire 0 l.colour l.iter (resultVal l))))
  ∧ (∀ l, let flags := (if l.trunc = true then 2 else 0) + (if l.order = true then 4 else 0) + (if l.bad = true then 8 else 0)
    (l.faulted = true → Shows (resultVal l) [none, none, none, none, some ((if l.trunc = true then 2 else 0) + 16), some l.node, some l.pos])
    ∧ (l.faulted = false → l.cands = [] → Shows (resultVal l) [none, none, none, some 0, some (flags + 1), some l.node, some l.pos])
    ∧ (l.faulted = false → l.cands ≠ [] →
      let lse := round (sumNums false [decodeElem fp32 l.m, decodeElem fp32 (ln32 l.sum)]).toExact fp32 .rne 0
      let kept := keepCands l lse
      ∀ y id, (if l.greedy then kept.head? else gumbelPick l kept) = some (y, id) → Shows (resultVal l) [some id, some y, some lse, some kept.length, some flags, some l.node, some l.pos]))
  ∧ (∀ s n c p sp t, lanternPort s n 1 c false = some (p, sp) → (placedOf s p.node).isSome = true → s.ptoks.find? (fun t => t.at_ == p && t.tok.tag.colour == c && t.bkpt.isNone) = some t →
    ((t.tok.kind ≠ .data ∨ t.tok.aux ≠ 2) → ∃ u, exec (.lanternCommitToken n c) s = .next u ∧ left s u t ∧ same s u ∧ Recorded s u p.node.w)
    ∧ (t.tok.kind = .data → t.tok.aux = 2 →
      (bindOf s sp c t.tok.tag.iter = none → ∃ u, exec (.lanternCommitToken n c) s = .next u ∧ left s u t ∧ same s u ∧ Recorded s u p.node.w)
      ∧ ∀ va s1 ntab st, bindOf s sp c t.tok.tag.iter = some va →
        commitTable s n.w c va ((List.range 16).filterMap (fun k => (slotOf t.tok.val k).map (fun v => v.toNat))) = .ok (s1, ntab, st) →
        ∃ u v, exec (.lanternCommitToken n c) s = .next u ∧ Shows v [some ntab, some st] ∧ u = emitLantern (leaveOne s1 t) n.w sp 1 c t.tok.tag.iter v ∧ u.mem = s1.mem ∧ WritesOnly s s1))
  ∧ (∀ vlim tab full range id l, countIds vlim tab full range [] = (tab, full, range)
    ∧ (vlim ≤ id → countIds vlim tab full range (id :: l) = countIds vlim tab full true l)
    ∧ (id < vlim → (∀ e, e ∈ tab → e.1 ≠ id) → 4096 ≤ tab.length → countIds vlim tab full range (id :: l) = countIds vlim tab true range l)
    ∧ (id < vlim → ((∃ e, e ∈ tab ∧ e.1 = id) ∨ tab.length < 4096) → ∃ tab', countIds vlim tab full range (id :: l) = countIds vlim tab' full range l
      ∧ ((tab.map (fun e => e.1)).Pairwise (· < ·) → (tab'.map (fun e => e.1)).Pairwise (· < ·)
        ∧ ∀ j n b, (j, n, b) ∈ tab' ↔ (j ≠ id ∧ (j, n, b) ∈ tab) ∨ (j = id ∧ ((∃ m, (id, m, b) ∈ tab ∧ n = min (m + 1) 65535) ∨ ((∀ e, e ∈ tab → e.1 ≠ id) ∧ n = 1 ∧ b = 0))))))
  ∧ ∀ s id o d, findOp s id = some o → o.kind = .walk d →
    (canReport s o = false → exec (.draftWalkDone id) s = .next s)
    ∧ ∀ len short w s1, canReport s o = true → walkAll (devByte s o.node.w o.tag.colour) d {} = (.ok (len, short), w) → d.dest % 64 = 0 →
      devStore s o.node.w o.tag.colour d.dest (trieBytes w (if short then 8 else 0) len) = .ok s1 → ∃ t v, exec (.draftWalkDone id) s = .next t ∧ Reported s t o v ∧ t.mem = s1.mem
        ∧ t.ops = s.ops.filter (fun x => x.id != id) ∧ Shows v [some w.trie.length, some w.filt.length, some (if short then 8 else 0), some len]

/-- R304–R310, R313, R314, R324: which packet of a queue starts, what LAUNCH, WAIT, SIGNAL, POLICY-SWAP and ABORT do, how a queue's state changes, and
what the end of a slice does. -/
def Obligations.QueueEvents : Prop :=
  let abort (m : Nat) (d : Nat → Nat) : Prop := field (d 0) 0 8 = 5 ∧ field (d 1) 0 2 = m
  (∀ s w q idx d, nextPkt s w q = some (idx, d) → idx = (queueOf s w q).started
    ∧ (∀ i, let a := qRing s w q + 64 * (idx % 2 ^ qLog s w q); d i = if reaches s w (a + 8 * i) = true then word8 s.mem a i else 0) ∧ idx ≠ qWidx s w q
    ∧ ((queueOf s w q).st = 1 ∨ (queueOf s w q).st = 3) ∧ (∀ p, p ∈ (queueOf s w q).pkts → p.ty = 2 → p.done = true)
    ∧ ((field (d 0) 8 1 = 1 ∨ field (d 0) 0 8 = 3) → ∀ p, p ∈ (queueOf s w q).pkts → p.done = true))
  ∧ (∀ x : QueueSt, (settleQueue x).pkts = x.pkts.filter (fun p => !(p.done && p.consumed)) ∧ (settleQueue x).st = x.st ∧ (settleQueue x).started = x.started
    ∧ ((∀ p, p ∈ (settleQueue x).pkts → p.consumed = true) → (settleQueue x).ridx = x.started)
    ∧ ∀ p, (settleQueue x).pkts.find? (fun p => !p.consumed) = some p → (settleQueue x).ridx = p.idx)
  ∧ (∀ s w q d, queueOf (startPkt s w q d) w q = settleQueue { queueOf s w q with started := ((queueOf s w q).started + 1) % 2 ^ 32, pkts := (queueOf s w q).pkts ++
      [{ idx := (queueOf s w q).started, ty := field (d 0) 0 8, task := BitVec.ofNat 32 (field (d 0) 32 32), cmpla := if field (d 0) 9 1 = 1 then some (field (d 7) 4 48 * 16) else none, done := false, consumed := false, since := s.now }] }
    ∧ (worldOf (startPkt s w q d) w).tasks = (worldOf s w).tasks)
  ∧ (∀ s w (q : BitVec 6) img, StartsOwn (.launch w q img) w q.toNat (some img) (fun d => field (d 0) 0 8 ∉ [2, 3, 4, 5]) s
    ∧ (openWait s w q.toNat = none → StartsOwn (.wait w q) w q.toNat none (fun d => field (d 0) 0 8 = 2) s) ∧ StartsOwn (.policySwap w q) w q.toNat none (fun d => field (d 0) 0 8 = 4) s
    ∧ StartsOwn (.signal w q) w q.toNat none (fun d => field (d 0) 0 8 = 3) s ∧ StartsOwn (.abortPurge w q) w q.toNat none (abort 2) s
    ∧ (abortWaits s w q.toNat = false → StartsOwn (.abortCancel w q) w q.toNat none (fun d => abort 0 d ∨ abort 3 d) s ∧ StartsOwn (.abortKill w q) w q.toNat none (abort 1) s)
    ∧ (abortWaits s w q.toNat = true → exec (.abortCancel w q) s = .next s ∧ exec (.abortKill w q) s = .next s))
  ∧ (∀ s w q, abortWaits s w q = true ↔ ∃ idx d x o, nextPkt s w q = some (idx, d) ∧ field (d 0) 0 8 = 5 ∧ (worldOf s w).decision = some x ∧ x.outcome = some o ∧ x.due ≤ s.now
    ∧ (o = .pick (BitVec.ofNat 32 (field (d 1) 32 32)) ∨ o = .preempt (BitVec.ofNat 32 (field (d 1) 32 32)))
    ∧ (commitOutcome (setWorld s w { worldOf s w with decision := none }) w x o).isSome = true)
  ∧ (∀ s w (q : BitVec 6) img idx d, nextPkt s w q.toNat = some (idx, d) → field (d 0) 0 8 = 1 → pktFault s w q.toNat d (some img) = none →
    let s1 := startPkt s w q.toNat d
    let x := taskOf s1 w q.toNat idx d img
    overNeed (setWorld s1 w { worldOf s1 w with tasks := (worldOf s1 w).tasks ++ [x] }) w x = false → ∃ t, exec (.launch w q img) s = .next t ∧ queueOf t w q.toNat = queueOf s1 w q.toNat
      ∧ (worldOf t w).tasks = (worldOf s w).tasks ++ [x] ∧ x.id = BitVec.ofNat 32 (field (d 0) 32 32) ∧ x.st = .queued ∧ x.queue = q.toNat ∧ x.idx = idx ∧ x.img = img ∧ x.since = s.now
      ∧ x.colour = BitVec.ofNat 8 (field (d 2) 16 8) ∧ ∃ y, y ∈ (worldOf t w).triggers ∧ ∃ k, y.1 = .dispatch k)
  ∧ (∀ s w (q : BitVec 6) idx d, openWait s w q.toNat = none → nextPkt s w q.toNat = some (idx, d) → field (d 0) 0 8 = 2 → pktFault s w q.toNat d none = none →
    exec (.wait w q) s = exec (.wait w q) (startPkt s w q.toNat d))
  ∧ (∀ s w (q : BitVec 6) p, openWait s w q.toNat = some p →
    let d := pktWord s w q.toNat p.idx
    let late := field (d 4) 0 32 ≠ 0 ∧ p.since + 1024 * field (d 4) 0 32 ≤ s.now
    (waitTest s w d = .ok true → ∃ t, exec (.wait w q) s = .next t ∧ Completes s t w q.toNat p.idx 0 0 p.task 0)
    ∧ (waitTest s w d = .ok false → exec (.wait w q) s = .next s)
    ∧ (∀ r, waitTest s w d = .error r → r.cause ≠ .stall → ∃ t, exec (.wait w q) s = .next t ∧ (queueOf t w q.toNat).st = 2 ∧ (queueOf t w q.toNat).started = p.idx)
    ∧ (late → ∃ t, exec (.waitPacketTimeout w q) s = .next t ∧ Completes s t w q.toNat p.idx 6 0 p.task 0) ∧ (¬ late → exec (.waitPacketTimeout w q) s = .next s))
  ∧ (∀ s w (q : BitVec 6), openWait s w q.toNat = none → exec (.waitPacketTimeout w q) s = .next s)
  ∧ (∀ s w d, let c : Colour := BitVec.ofNat 8 (field (d 2) 16 8)
    (field (d 2) 0 2 = 2 → (waitTest s w d = .ok true ↔ ∀ x, x ∈ (worldOf s w).tasks → x.id.toNat ≠ d 3))
    ∧ ∀ pa v, devWord s w c (d 1) true false = .ok (pa, v) →
      (field (d 2) 0 2 = 0 → typeAt s pa = 1 → (waitTest s w d = .ok true ↔ barGen v ≠ d 3)) ∧ (field (d 2) 0 2 = 1 → typeAt s pa = 2 → (waitTest s w d = .ok true ↔ v &&& d 3 = d 3)))
  ∧ (∀ s w c va op v pa old, devWord s w c va true true = .ok (pa, old) → typeAt s pa = op → ∃ u, signalOp s w c va op v = .ok u ∧ WritesOnly s u
    ∧ Written s u (bytesAt pa 8) (if op = 0 then v else if op = 1 then (arriveWord old).1 else old ||| v))
  ∧ (∀ s w (q : BitVec 6) idx d u0 u, nextPkt s w q.toNat = some (idx, d) → field (d 0) 0 8 = 3 → pktFault s w q.toNat d none = none →
    let op (y : State) : Except Report State := signalOp y w (BitVec.ofNat 8 (field (d 2) 16 8)) (d 1) (field (d 2) 0 2) (d 3)
    op s = .ok u0 → op (startPkt s w q.toNat d) = .ok u → ∃ t, exec (.signal w q) s = .next t ∧ Completes u t w q.toNat idx 0 0 (BitVec.ofNat 32 (field (d 0) 32 32)) 0)
  ∧ (∀ s w (q : BitVec 6) idx d l, nextPkt s w q.toNat = some (idx, d) → field (d 0) 0 8 = 4 → pktFault s w q.toNat d none = none →
    ((field (d 1) 6 46 = 0 ∧ l = []) ∨ (field (d 1) 6 46 ≠ 0 ∧ reaches s w (field (d 1) 6 46 * 64) = true ∧ readPolicy s w (field (d 1) 6 46 * 64) = some l)) →
    let p := mget {} (worldOf s w).policies (field (d 2) 0 6)
    ∃ t, exec (.policySwap w q) s = .next t ∧ mget {} (worldOf t w).policies (field (d 2) 0 6) = { prog := l, old := if p.from_ ≤ s.now then p.prog else p.old, from_ := s.now + 1 }
      ∧ Completes (startPkt s w q.toNat d) t w q.toNat idx 0 0 (BitVec.ofNat 32 (field (d 0) 32 32)) 0)
  ∧ (∀ s w (q : BitVec 6) idx d, nextPkt s w q.toNat = some (idx, d) → pktFault s w q.toNat d none = none → abortWaits s w q.toNat = false →
    let s1 := startPkt s w q.toNat d
    let target : BitVec 32 := BitVec.ofNat 32 (field (d 1) 32 32)
    let own : BitVec 32 := BitVec.ofNat 32 (field (d 0) 32 32)
    let ends (i : Instr) (y : State) (status : Nat) : Prop := ∃ t, exec i s = .next t ∧ Completes y t w q.toNat idx status 0 own 0
    (findTask s w target = none → (abort 0 d → ends (.abortCancel w q) s1 4) ∧ (abort 1 d → ends (.abortKill w q) s1 4))
    ∧ ∀ x, findTask s w target = some x →
      (x.st = .queued → ∃ y, (∀ z, z ∈ (worldOf y w).tasks → z.id ≠ target) ∧ (abort 0 d → ends (.abortCancel w q) y 2) ∧ (abort 1 d → ends (.abortKill w q) y 2))
      ∧ (x.st ≠ .queued → (abort 0 d → ends (.abortCancel w q) s1 3) ∧ (abort 1 d → ∃ y, (∀ z, z ∈ (worldOf y w).tasks → z.id ≠ target) ∧ ends (.abortKill w q) y 5)))
  ∧ (∀ s w (q : BitVec 6) idx d, nextPkt s w q.toNat = some (idx, d) → abort 2 d → pktFault s w q.toNat d none = none →
    let s1 := startPkt s w q.toNat d
    let x : Context := BitVec.ofNat 8 (field (d 2) 24 8)
    let c : Colour := BitVec.ofNat 8 (field (d 2) 16 8)
    let own : BitVec 32 := BitVec.ofNat 32 (field (d 0) 32 32)
    ((ctxOf s1 w x).resident = false → ∃ t, exec (.abortPurge w q) s = .next t ∧ Completes s1 t w q.toNat idx 0 0 own 0 ∧ t.ctxs = s1.ctxs)
    ∧ ((ctxOf s1 w x).resident = true → (ctxOf s1 w x).purging ≠ none →
      exec (.abortPurge w q) s = .next (setCtx s1 w x { ctxOf s1 w x with purgeq := (ctxOf s1 w x).purgeq ++ [(c, .packet q.toNat idx own)] }))
    ∧ ((ctxOf s1 w x).resident = true → (ctxOf s1 w x).purging = none → (ctxOf s1 w x).purgeq = [] → ∃ t, exec (.abortPurge w q) s = .next t ∧ frozen t w x c = true
      ∧ queueOf t w q.toNat = queueOf s1 w q.toNat ∧ (∃ a b e, (ctxOf t w x).purging = some (c, .packet q.toNat idx own, a, b, e))
      ∧ (∀ y, y ∈ t.ptoks → ¬ (y.at_.node.w = w ∧ y.at_.node.x = x ∧ y.tok.tag.colour = c))))
  ∧ (∀ s x c q idx own toks ins tags, (ctxOf s x.w x.x).purging = some (c, .packet q idx own, toks, ins, tags) → (ctxOf s x.w x.x).purgeq = [] →
    (∀ b, b ∈ s.insts → ¬ (b.node.w = x.w ∧ b.node.x = x.x ∧ b.tag.colour = c)) →
    ∃ t, exec (.purgeReset x) s = .next t ∧ Completes s t x.w q idx 0 0 own 0 ∧ (ctxOf t x.w x.x).purging = none)
  ∧ (∀ s w (q : BitVec 6), let st := (queueOf s w q.toNat).st
    let up := s.dev.ready.getLsbD (2 + (Config.queueDie w q.toNat).val) = true
    let goes (i : Instr) (n : Nat) : Prop := ∃ t, exec i s = .next t ∧ (queueOf t w q.toNat).st = n ∧ (worldOf t w).tasks = (worldOf s w).tasks
    (st = 0 → up → qdescOk s w q.toNat = true → goes (.queueStart w q) 1) ∧ (st = 0 → up → qdescOk s w q.toNat = false → goes (.queueStart w q) 2) ∧ (st ≠ 0 ∨ ¬ up → exec (.queueStart w q) s = .next s)
    ∧ (st = 1 ∨ st = 3 → goes (.queueStop w q) 0) ∧ (¬ (st = 1 ∨ st = 3) → exec (.queueStop w q) s = .next s)
    ∧ (st = 2 → goes (.queueResume w q false) 0) ∧ (st = 2 → (∀ x, x ∈ (worldOf s w).tasks → x.queue = q.toNat → x.st = .queued → x.img.spires.length ≤ 1) → goes (.queueResume w q true) 3)
    ∧ (st ≠ 2 → ∀ b v, exec (.queueResume w q b) s = .next s ∧ exec (.ridxWrite w q v) s = .next s)
    ∧ (st = 3 → ∃ t, exec (.queueClearQuar w q) s = .next t ∧ (queueOf t w q.toNat).st = 1 ∧ (queueOf t w q.toNat).quar = false ∧ (worldOf t w).tasks = (worldOf s w).tasks) ∧ (st ≠ 3 → exec (.queueClearQuar w q) s = .next s)
    ∧ (st = 2 → ∀ v, ∃ t, exec (.ridxWrite w q v) s = .next t ∧ (queueOf t w q.toNat).ridx = v.toNat ∧ (queueOf t w q.toNat).started = v.toNat ∧ (queueOf t w q.toNat).st = 2))
  ∧ ∀ s w id,
    (findTask s w id = none → exec (.sliceExpiry w id) s = .next s ∧ exec (.quarantineSliceExpiry w id) s = .next s)
    ∧ ∀ x, findTask s w id = some x →
      let sl := regionEff s w x.region 2
      let spent := holdsCells x = true ∧ x.quar = false ∧ sl ≠ 0 ∧ x.sliceAt + 1024 * sl ≤ s.now ∧ preemptCands s w x ≠ [] ∧ ∀ y, y ∈ (worldOf s w).triggers → y.1 ≠ .preempt id false
      let gone := x.quar = true ∧ holdsCells x = true ∧ x.heldAt + 1024 * (if sl = 0 then 256 else min sl 256) ≤ s.now
      (spent → ∃ t, exec (.sliceExpiry w id) s = .next t ∧ t = { s with worlds := t.worlds } ∧ (worldOf t w).triggers = (worldOf s w).triggers ++ [(.preempt id false, s.now)])
      ∧ (¬ spent → exec (.sliceExpiry w id) s = .next s)
      ∧ (gone → ∃ t, exec (.quarantineSliceExpiry w id) s = .next t ∧ ∀ y, y ∈ (worldOf t w).tasks → y.id ≠ id) ∧ (¬ gone → exec (.quarantineSliceExpiry w id) s = .next s)

/-- R310, R312, R313, R316, R318, R333–R336, R340: which trigger starts a decision, what its outcome does to tasks, how a task is launched, sends its tiles and
completes. Which tasks are candidates besides what R333 says is the model's reading (assumptions 31, 58). -/
def Obligations.TaskEvents : Prop :=
  let rest (s : State) (w : BitVec 4) (l : List (Trigger × Nat)) : State := setWorld s w { worldOf s w with triggers := l }
  (∀ s w y l, dueTriggers s w = y :: l → y ∈ (worldOf s w).triggers ∧ y.2 ≤ s.now ∧ triggerLive s w y.1 = true
    ∧ (∀ u, u ∈ (worldOf s w).triggers → u.2 ≤ s.now → triggerLive s w u.1 = true → triggerBefore u y = false) ∧ ∀ u, u ∈ l → u ∈ (worldOf s w).triggers)
  ∧ (∀ s w u, (worldOf s w).decision = none → u ∈ (worldOf (dropIdle s w) w).triggers → dueTriggers s w = [] → s.now < u.2)
  ∧ (∀ s w (slot : BitVec 6) id, ((worldOf s w).decision ≠ none ∨ dueTriggers s w = []) →
    exec (.dispatchDecision w slot) s = .next s ∧ exec (.preemptDecision w id) s = .next s ∧ exec (.faultDecision w id) s = .next s)
  ∧ (∀ s w (slot : BitVec 6) y l, (worldOf s w).decision = none → dueTriggers s w = y :: l →
    let s1 := rest s w (l ++ (worldOf s w).triggers.filter (fun u => decide (s.now < u.2)))
    let s2 := failOver s1 w slot.toNat
    (overDue s1 w slot.toNat = [] → s2 = s1)
    ∧ (∀ x, overDue s1 w slot.toNat = [x] → findTask s w x.id = some x → regionEff s1 w x.region 4 = 0 → TaskGone s2 w x.id)
    ∧ (y.1 ≠ .dispatch slot.toNat → exec (.dispatchDecision w slot) s = .next s)
    ∧ (y.1 = .dispatch slot.toNat →
      (∀ q, quarPick s2 w slot.toNat = some q → q.recq = false → findTask s2 w q.id = some q → ∃ t x, exec (.dispatchDecision w slot) s = .next t ∧ findTask t w q.id = some x ∧ x.st = .launching ∧ x.quar = true)
      ∧ (dispatchCands s2 w slot.toNat true = [] →
        (dispatchCands s2 w slot.toNat false = [] → exec (.dispatchDecision w slot) s = .next s2)
        ∧ (dispatchCands s2 w slot.toNat false ≠ [] → Begins (exec (.dispatchDecision w slot) s) s2 w 0 slot.toNat 0 none (dispatchCands s2 w slot.toNat false)))))
  ∧ (∀ s w id x y l, (worldOf s w).decision = none → dueTriggers s w = y :: l → findTask s w id = some x →
    let s1 := rest s w (l ++ (worldOf s w).triggers.filter (fun u => decide (s.now < u.2)))
    ((∃ b, y.1 = .preempt id b) → Begins (exec (.preemptDecision w id) s) s1 w 1 (regionEff s1 w x.region 5) 0 (some x) (preemptCands s1 w x))
    ∧ ((∀ b, y.1 ≠ .preempt id b) → exec (.preemptDecision w id) s = .next s)
    ∧ (∀ c, y.1 = .fault id c → Begins (exec (.faultDecision w id) s) s1 w 2 (regionEff s1 w x.region 5) c.code (some x) [])
    ∧ ((∀ c, y.1 ≠ .fault id c) → exec (.faultDecision w id) s = .next s))
  ∧ (∀ s w, (worldOf s w).decision = none → exec (.decisionCommit w) s = .next s)
  ∧ (∀ s w d, (worldOf s w).decision = some d →
    ((d.outcome = none ∨ s.now < d.start + d.count) → exec (.decisionCommit w) s = .next s)
    ∧ (∀ o, d.outcome = some o → d.start + d.count ≤ s.now →
      let s0 := setWorld s w { worldOf s w with decision := none }
      let ends (P : State → Prop) : Prop := ∃ t, exec (.decisionCommit w) s = .next t ∧ P t
      let subject := d.subject.bind (fun c => findTask s w c.task)
      (o = .defer → d.kind ≠ 1 → exec (.decisionCommit w) s = .next s0)
      ∧ (∀ x, o = .defer → d.kind = 1 → subject = some x → ends (fun t => (worldOf t w).decision = none ∧ findTask t w x.id = some { x with sliceAt := s.now }
        ∧ ∀ u, u ∈ (worldOf t w).triggers → ∀ b, u.1 ≠ .preempt x.id b))
      ∧ (∀ id x, o = .pick id → findTask s w id = some x →
        (stillFits s0 w x = true → x.recq = false → ends (fun t => (worldOf t w).decision = none ∧ ∃ y, findTask t w id = some y ∧ y.st = .launching ∧ y.quar = false ∧ y.spires = chooseSpires s0 w x false
          ∧ y.heldAt = s.now ∧ y.img = x.img))
        ∧ (stillFits s0 w x = false → ends (fun t => (worldOf t w).decision = none ∧ (worldOf t w).tasks = (worldOf s w).tasks)))
      ∧ (∀ id u x, o = .preempt id → subject = some u → findTask s w id = some x → u.id ≠ id → holdsCells u = true → (∃ z, z ∈ preemptCands s0 w u ∧ z.id = id) → x.recq = false →
        ends (fun t => (worldOf t w).decision = none ∧ (∃ y, findTask t w u.id = some y ∧ y.cuts = u.cuts + 1 ∧ (u.st = .running → y.st = .cutting) ∧ (u.st ≠ .running → y.st = u.st ∧ y.toCut = true))
          ∧ ∃ z, findTask t w id = some z ∧ z.st = .awaiting u.id ∧ z.heldAt = s.now))
      ∧ (∀ id x, o = .kill id → findTask s w id = some x →
        (x.st = .queued → ends (fun t => TaskGone t w id)) ∧ (x.st ≠ .queued → ends (fun t => (worldOf t w).tasks = (worldOf s w).tasks)))
      ∧ (∀ x, o = .killSubject → subject = some x → x.st ≠ .queued → (d.kind ≠ 2 ∨ regionEff s0 w x.region 4 = 0) → ends (fun t => TaskGone t w x.id))))
  ∧ (∀ s w id x sec, findTask s w id = some x →
    let more := x.st = .launching ∧ x.pos.getD sec 0 < (x.img.sections.getD sec []).length
    (more → ∃ t, exec (.configPacket w id sec) s = .next t ∧ t = { s with worlds := t.worlds } ∧ findTask t w id = some { x with pos := x.pos.set sec (x.pos.getD sec 0 + 1) })
    ∧ (¬ more → exec (.configPacket w id sec) s = .next s))
  ∧ (∀ s w id x, findTask s w id = some x →
    let y := x.img.context
    let ready := x.st = .launching ∧ x.pos = x.img.sections.map (fun l => l.length) ∧ (ctxOf s w y).resident = false ∧ attached s w = true
    (¬ ready → exec (.launchComplete w id) s = .next s)
    ∧ (∀ c, ready → regionEff s w x.region 4 = 0 → (checkImage s w x = .error c ∨ (∃ a, checkImage s w x = .ok a) ∧ x.saved = false ∧ attrFault s w y = some c) → ∃ t, exec (.launchComplete w id) s = .next t ∧ TaskGone t w id)
    ∧ (∀ l nodes, ready → checkImage s w x = .ok (l, nodes) → (x.saved = true ∨ attrFault s w y = none) → quotaFits (placeImage s w x l nodes) w nodes = false → regionEff s w x.region 4 = 0 →
      ∃ t, exec (.launchComplete w id) s = .next t ∧ TaskGone t w id)
    ∧ (∀ l nodes, ready → checkImage s w x = .ok (l, nodes) → x.saved = true → quotaFits (placeImage s w x l nodes) w nodes = true → exec (.launchComplete w id) s = .next (placeImage s w x l nodes))
    ∧ ∀ l nodes, ready → checkImage s w x = .ok (l, nodes) → attrFault s w y = none → quotaFits (placeImage s w x l nodes) w nodes = true → x.saved = false → s.dev.badc = [] →
      ∃ t, exec (.launchComplete w id) s = .next t
        ∧ findTask t w id = some { x with st := if x.toCut then .cutting else .running, tiles := if inSequence s w y = true ∧ belfryActive (worldOf s w) ≠ y then [] else x.tiles }
        ∧ (∀ e, e ∈ (worldOf t w).goDue → e.1 ≠ y)
        ∧ (let c := ctxOf t w y
          c.resident = true ∧ c.launched = true ∧ c.task = x.id ∧ c.colour = x.colour ∧ c.spires = x.spires ∧ c.nodes = nodes ∧ c.starts = startsOf l ∧ c.gen = 0 ∧ c.caps = launchCaps (imageQuotas nodes)
          ∧ c.quotas = imageQuotas nodes ∧ c.queue = some x.queue ∧ c.purging = none ∧ c.halted = false)
        ∧ (x.recq = false → (inSequence s w y = false ∨ belfryActive (worldOf s w) = y) → ∃ v, (∀ k, k < 16 → slotOf v k = if k < 8 ∧ x.argv.testBit k = true then some (BitVec.ofNat 32 (x.args.getD k 0)) else none)
          ∧ t.srcq = s.srcq ++ (startsOf l).filterMap (fun n => (startChan (ctxOf t w y) n).map (fun k => (({ w := w, x := y, n := k } : ChanId),
            ({ tag := { colour := x.colour, context := y, iter := 0 }, kind := .data, aux := 0, val := v } : Token))))))
  ∧ (∀ s w id x, findTask s w id = some x →
    let c := ctxOf s w x.img.context
    let chans : List ChanId := c.starts.filterMap (fun n => (startChan c n).map (fun k => { w := w, x := x.img.context, n := k }))
    ((x.tiles[x.sent]? = none ∨ chans[x.part]? = none) → exec (.recqTileSend w id) s = .next s)
    ∧ ∀ y ch, x.tiles[x.sent]? = some y → chans[x.part]? = some ch →
      let die := entryDie s (((chanEnd s ch).map (fun p => p.node)).getD { w := w, x := x.img.context, n := 0 })
      let ready := x.st = .running ∧ c.launched = true ∧ c.halted = false ∧ gated s w x.img.context = false ∧ c.cut = none ∧ (mget none c.tags y.u = none ∨ mget none c.tags y.u = some (.launch x.id))
        ∧ credit s ch x.colour ≠ 0 ∧ chanFrozen s ch x.colour = false
      (¬ ready → exec (.recqTileSend w id) s = .next s)
      ∧ (ready → ingressTurn s die ch x.colour = false → exec (.recqTileSend w id) s = .next (joinWait s (ingressReq s die ch x.colour)))
      ∧ (ready → ingressTurn s die ch x.colour = true → ∃ t v, exec (.recqTileSend w id) s = .next t ∧ (∀ k, k < 16 → slotOf v k = (y.slots.map (BitVec.ofNat 32))[k]?)
        ∧ findTask t w id = some (if x.part + 1 < chans.length then { x with part := x.part + 1 } else { x with sent := x.sent + 1, part := 0 })
        ∧ t.flights = s.flights ++ [departs ch { tag := { colour := x.colour, context := x.img.context, iter := BitVec.ofNat 16 y.u }, kind := .data, aux := 0, val := v }]
        ∧ mget none (ctxOf t w x.img.context).tags y.u = some (.launch x.id)))
  ∧ ∀ s w id,
    (findTask s w id = none → exec (.configPacket w id 0) s = .next s ∧ exec (.launchComplete w id) s = .next s ∧ exec (.recqTileSend w id) s = .next s ∧ exec (.taskComplete w id) s = .next s)
    ∧ ∀ x, findTask s w id = some x →
      let c := ctxOf s w x.img.context
      let done := c.resident = true ∧ c.launched = true ∧ c.task = id
        ∧ ((c.halted = true ∧ ∀ b, b ∈ s.insts → ¬ (b.node.w = w ∧ b.node.x = x.img.context))
          ∨ (c.halted = false ∧ x.st = .running ∧ x.sent = x.tiles.length ∧ ctxQuiet s w x.img.context = true ∧ inSequence s w x.img.context = false))
      (done → ∃ t, exec (.taskComplete w id) s = .next t ∧ TaskGone t w id) ∧ (¬ done → exec (.taskComplete w id) s = .next s)

/-- A cut (R388 to R401). CUT_BEGIN advances the epoch of a running context whose task is to be cut and sends MARKERs, which take no credit, to the ends of the external
input channels. MARKER_ARRIVE takes the MARKERs that wait at a node, or cuts a marked source: instances that need not run to commit are withdrawn at its first, and
once nothing of the node is in flight it is recorded and MARKERs leave on each of its output channels that no engine operation still feeds. CUT_COMPLETE writes the image
of a complete cut into the context's slot of the arena: the header with STATE 1 and the next nonce, the tokens and other state of the context, which leaves its spires while
its task is queued again; an arena that is not the world's, or an image larger than its slot, fails the save. SAVE_DEADLINE_EXPIRY fails it at the limit. A failed save
makes a record, quarantines the spires and fails the task. RESTORE places a valid image for its task and the task runs; an image that is not valid fails it.
The layout of the image beside its header is the model's own (assumptions 9, 56). -/
def Obligations.CutEvents : Prop :=
  let marker (x : CtxId) (e n : Nat) : Flight := departs { w := x.w, x := x.x, n := n } { tag := { colour := 0, context := x.x, iter := 0 }, kind := .marker, aux := BitVec.ofNat 12 e, val := noVal }
  let ended (s t : State) (w : BitVec 4) (id : BitVec 32) : Prop := (∀ y, y ∈ (worldOf s w).tasks → y.id = id) → TaskGone t w id ∧ ((∀ b, b ∈ s.insts → b.begun = false) → Recorded s t w)
  let fails (s : State) (x : CtxId) (u : Task) (r : Result) : Prop := ∃ t, r = .next t ∧ ended s t x.w u.id
    ∧ ((∀ y, y ∈ (worldOf s x.w).tasks → y.id = u.id) → (∀ b, b ∈ s.insts → b.begun = false) → ∀ sp, sp ∈ (ctxOf s x.w x.x).spires → sp < 64 → t.dev.qspire.getLsbD sp = true)
  (∀ s x,
    let c := ctxOf s x.w x.x
    let due := c.resident = true ∧ c.launched = true ∧ c.cut = none ∧ c.purging = none ∧ c.halted = false ∧ ∃ u, findTask s x.w c.task = some u ∧ u.st = .cutting
    (¬ due → exec (.cutBegin x) s = .next s)
    ∧ (due → ∃ t k, exec (.cutBegin x) s = .next t ∧ t = { s with ctxs := t.ctxs, flights := t.flights } ∧ ctxOf t x.w x.x = { c with epoch := c.epoch + 1, cut := some k }
      ∧ k.epoch = c.epoch + 1 ∧ k.at_ = s.now ∧ k.cutNodes = [] ∧ k.recorded = [] ∧ k.chans = [] ∧ (∀ n, n ∈ k.marks ↔ ∃ p, p ∈ c.nodes ∧ p.route.markerSource = true ∧ p.route.num = n)
      ∧ (∀ n, n ∈ k.sent ↔ ∃ p ch, p ∈ c.nodes ∧ ch ∈ p.route.chans ∧ ch.src = none ∧ ch.dst ≠ none ∧ ch.n = n)
      ∧ t.flights = s.flights ++ k.sent.map (marker x k.epoch) ∧ ∀ n, isPayload (marker x k.epoch n).tok = false))
  ∧ (∀ s n,
    let c := nodeCtx s n
    let here := (inChans c n.n).filter (fun ch => markerNext s { w := n.w, x := n.x, n := ch })
    (c.cut = none → exec (.markerArrive n) s = .next s)
    ∧ ∀ k, c.cut = some k →
      let acts := c.purging = none ∧ (here ≠ [] ∨ n.n ∈ k.marks ∨ n.n ∈ k.cutNodes)
      (¬ acts → exec (.markerArrive n) s = .next s)
      ∧ (acts → ∃ t j, exec (.markerArrive n) s = .next t ∧ (nodeCtx t n).cut = some j ∧ j.epoch = k.epoch ∧ j.marks = k.marks ∧ j.chans = k.chans ++ here
        ∧ j.cutNodes = (if n.n ∈ k.cutNodes then k.cutNodes else k.cutNodes ++ [n.n])
        ∧ (n.n ∉ k.cutNodes → ∀ b, b ∈ t.insts → b.node = n → b.begun = true ∨ b.durable = true) ∧ (∀ b, b ∈ s.insts → b.node ≠ n → b ∈ t.insts ∨ ∃ y, y ∈ s.insts ∧ y.node = n ∧ b.isAt y.cell y.seq = true)
        ∧ ((∃ b, b ∈ t.insts ∧ b.node = n) → j.recorded = k.recorded ∧ j.sent = k.sent)
        ∧ ((∀ b, b ∈ t.insts → b.node ≠ n) → lanternOf s n = none → n.n ∈ j.recorded ∧ ∀ ch, ch ∈ outChans c n.n →
          (∀ o, o ∈ s.ops → o.node = n → o.port = some ((ch.src.map (fun e => e.port.toNat)).getD 0) → o.isStream = true) → ch.n ∈ j.sent ∧ (ch.n ∉ k.sent → marker { w := n.w, x := n.x } k.epoch ch.n ∈ t.flights))))
  ∧ (∀ s x,
    let c := ctxOf s x.w x.x
    ((c.cut = none ∨ findTask s x.w c.task = none) → exec (.cutComplete x) s = .next s)
    ∧ (c.cut = none → exec (.saveDeadlineExpiry x) s = .next s)
    ∧ (∀ k, c.cut = some k → s.now < k.at_ + saveLimit s x.w → exec (.saveDeadlineExpiry x) s = .next s)
    ∧ ∀ k u, c.cut = some k → findTask s x.w c.task = some u →
      let a := arenaOf s x
      let body := 16 * (statedUnits s x + openUnits s x)
      let fits := 16 ≤ a.2 ∧ a.2 ≤ 40 ∧ 64 + body ≤ 2 ^ a.2 ∧ inCapability s x.w a.1 (64 + body) = true
      (k.at_ + saveLimit s x.w ≤ s.now → fails s x u (exec (.saveDeadlineExpiry x) s))
      ∧ (cutDone s x k = false → exec (.cutComplete x) s = .next s)
      ∧ (cutDone s x k = true → ¬ fits → fails s x u (exec (.cutComplete x) s))
      ∧ (cutDone s x k = true → fits → levelCheck s x.w a.1 0 = none → levelCheck s x.w (a.1 + 63 + body) 0 = none →
        let nonce := mget 0 (worldOf s x.w).nctr x.x.toNat + 1
        ∃ t v, exec (.cutComplete x) s = .next t ∧ mget none t.images a.1 = some v ∧ v.pa = a.1 ∧ v.ctx = c ∧ v.at_ = k.at_ ∧ v.header.length = 6
          ∧ v.header.getD 0 0 % 2 ^ 14 = x.w.toNat + x.x.toNat * 2 ^ 4 + 2 ^ 12 ∧ v.header.getD 1 0 = nonce % 2 ^ 64 ∧ v.header.getD 2 0 = body ∧ v.header.getD 4 0 = c.spires.length
          ∧ field (v.header.getD 0 0) 14 1 = (if swapWaits s x then 1 else 0) ∧ field (v.header.getD 0 0) 15 2 = belCur (worldOf s x.w).belfry ∧ v.skey = (worldOf s x.w).saveKey ∧ v.drains = pendingDrains s x
          ∧ v.ptoks = savedToks s x ∧ v.srcq = s.srcq.filter (fun e => e.1.w == x.w && e.1.x == x.x)
          ∧ (let mine (n : NodeId) : Bool := n.w == x.w && n.x == x.x
            v.outq = s.outq.filter (fun o => mine o.at_.node) ∧ v.firings = s.firings.filter (fun f => mine f.node) ∧ v.invs = s.invs.filter (fun i => mine i.node) ∧ v.nests = s.nests.filter (fun r => mine r.node)
            ∧ v.groups = s.groups.filter (fun g => mine g.node) ∧ v.streams = s.ops.filter (fun o => mine o.node))
          ∧ ((∀ y, y ∈ (worldOf s x.w).tasks → y.st ≠ .awaiting u.id) → ∀ i, i < 6 → word8 t.mem a.1 i = v.header.getD i 0 % 2 ^ 64) ∧ (ctxOf t x.w x.x).resident = false ∧ mget 0 (worldOf t x.w).nctr x.x.toNat = nonce
          ∧ ((∀ y, y ∈ (worldOf s x.w).tasks → y.st = .awaiting u.id → y.id ≠ u.id) → findTask t x.w u.id = some { u with st := .queued, saved := true, since := s.now, spires := [], toCut := false, carve := c.carve })))
  ∧ ∀ s w id,
    (findTask s w id = none → exec (.restore w id) s = .next s)
    ∧ ∀ u, findTask s w id = some u →
      let x : CtxId := { w := w, x := u.img.context }
      let new := ctxOf s w x.x
      let pa := (arenaOf s x).1
      let ready := u.st = .launching ∧ u.saved = true ∧ new.resident = true ∧ new.launched = false ∧ new.task = id ∧ attached s w = true ∧ ∀ r, levelCheck s w pa 0 = some r → r.cause ≠ .stall
      let valid (v : Saved) : Prop := arenaReach s w pa 64 = true ∧ field (word8 s.mem pa 0) 12 2 = 1 ∧ field (word8 s.mem pa 0) 0 4 = w.toNat ∧ field (word8 s.mem pa 0) 4 8 = x.x.toNat
        ∧ word8 s.mem pa 1 = mget 0 (worldOf s w).nctr x.x.toNat ∧ mget none s.images pa = some v ∧ v.skey = (worldOf s w).saveKey ∧ v.pa = pa ∧ (List.range 6).map (word8 s.mem pa) = v.header
        ∧ (∀ i, i < 16 → byteAt s.mem (pa + 48 + i) = Config.cipherByte v.key i) ∧ ∀ i, i < word8 s.mem pa 2 → byteAt s.mem (pa + 64 + i) = Config.cipherByte v.key (16 + i)
      (¬ ready → exec (.restore w id) s = .next s)
      ∧ (ready → (∀ v, ¬ valid v) → ∃ t, exec (.restore w id) s = .next t ∧ ended s t w id)
      ∧ ∀ v, ready → valid v → s.dev.badc = [] → v.drains = [] → v.binds = [] →
        let go (e : Context × Token) : List (ChanId × Token) := new.starts.filterMap (fun n => (startChan new n).map (fun k =>
          (({ w := w, x := x.x, n := k } : ChanId), ({ tag := { colour := new.colour, context := x.x, iter := 0 }, kind := .data, aux := 0, val := firstSlots [e.2.aux.zeroExtend 32] } : Token))))
        let b := (worldOf s w).belfry
        let cur := field (v.header.getD 0 0) 15 2
        let back := x.x ∈ belfrySeq (worldOf s w) ∧ cur ≤ belSeq b ∧ (belCtx b cur = x.x ∨ ∀ y, y ∈ belfrySeq (worldOf s w) → y ≠ x.x → ¬ ((ctxOf s w y).resident = true ∧ (ctxOf s w y).launched = true))
        ∃ t, exec (.restore w id) s = .next t ∧ Recorded s t w ∧ findTask t w id = some { u with st := if u.toCut then .cutting else .running }
          ∧ (back → (worldOf t w).belfry = withCur b cur) ∧ (¬ back → (worldOf t w).belfry = b) ∧ (∀ e, e ∈ (worldOf t w).goDue → e.1 ≠ x.x)
          ∧ (let c := ctxOf t w x.x
            c.launched = true ∧ c.resident = true ∧ c.task = id ∧ c.spires = new.spires ∧ c.nodes = new.nodes ∧ c.epoch = v.ctx.epoch ∧ c.gens = v.ctx.gens ∧ c.gen = v.ctx.gen ∧ c.srseed = v.ctx.srseed ∧ c.tags = v.ctx.tags
            ∧ c.caps = v.ctx.caps ∧ c.quotas = v.ctx.quotas ∧ c.limits = v.ctx.limits ∧ c.changed = v.ctx.changed)
          ∧ t.srcq = s.srcq ++ v.srcq ++ ((worldOf s w).goDue.filter (fun e => e.1 == x.x)).flatMap go ∧ t.nests = s.nests ++ v.nests ∧ t.goWaits = s.goWaits ++ v.goWaits ∧ t.outq = s.outq ++ v.outq.map (fun o => { o with since := s.now })
          ∧ t.ptoks.map (fun p => (p.at_, p.tok)) = s.ptoks.map (fun p => (p.at_, p.tok)) ++ v.ptoks.map (fun p => (p.at_, p.tok))
          ∧ t.groups = s.groups ++ v.groups.map (fun g => { g with cell := movedCell v.ctx.spires new.spires g.cell })

/-- Registers of BAR 0 (R4, R363, R376, R378, R379, R385, R394, R399, R406, R408, R409). Before SP is ready no write has an effect, and a write elsewhere than at a
register that is writable never has. DOMID is written while no FRAUTH port is ready and for a number of 0 to 383; WQOS ignores 0; a write of BADC keeps ERRS and leaves
no task running on a spire with a listed cell; debug-break and each word of a comparator, SAVE, PWR and ROUTE take the value written, where a comparator never names a
protected world's cell; QSPIRE clears the bits written 1. BKPT_STEP releases the oldest token that a comparator holds and BRK firings of its node; BKPT_DISARM and a
cleared V release every one; clearing debug-break lets the BRK firings of the world fire. How debugging of a protected
world's cell is refused is the model's reading (assumption 60). -/
def Obligations.RegisterEvents : Prop :=
  let put (s : State) (d : Dev) : State := { s with dev := d }
  let held (k : Nat) (x : PTok) : Bool := (x.bkpt.map (fun b => b.1)) == some k
  let runsClear (t : State) : Prop := ∀ w y, y ∈ (worldOf t w).tasks → y.st = .running → ∀ sp, sp ∈ y.spires → spireBad t sp = false
  let badc (s : State) (r : Result) (i : Nat) (v : Nat) : Prop := ∃ t, r = .next t ∧ (let x := (mget 0 t.dev.badc i).toNat
    x / 2 ^ 31 = field v 31 1 ∧ field x 16 8 = field (mget 0 s.dev.badc i).toNat 16 8 ∧ field x 0 14 = field v 0 14) ∧ (∀ j, j ≠ i → mget 0 t.dev.badc j = mget 0 s.dev.badc j) ∧ runsClear t
  let released (s t : State) (k : Nat) : Prop := (∀ x, x ∈ t.ptoks → held k x = false) ∧ t.ptoks.map (fun x => (x.at_, x.tok)) = s.ptoks.map (fun x => (x.at_, x.tok))
  let freed (s t : State) (k : Nat) : Prop := ∀ f, f ∈ s.firings → f.kind = .brk → (let c := mget {} s.dev.bkpts k
      f.node.w.toNat = c.w → (∃ p, placedOf s f.node = some p ∧ p.node = c.node ∧ cellX p.cell = c.x ∧ cellY p.cell = c.y) → { f with kind := .fresh, brkOff := true, counting := some s.now } ∈ t.firings)
  let stepped (s t : State) (k : Nat) : Prop := ((∀ x, x ∈ s.ptoks → held k x = false) → t.ptoks = s.ptoks)
    ∧ (∀ a y b, s.ptoks = a ++ y :: b → held k y = true → (∀ x, x ∈ a → held k x = false) → t.ptoks.map (fun x => (x.at_, x.tok)) = s.ptoks.map (fun x => (x.at_, x.tok)) ∧ t.ptoks[a.length]? = some { y with bkpt := none }
      ∧ ∀ n x z, n ≠ a.length → s.ptoks[n]? = some x → t.ptoks[n]? = some z → x.bkpt.map (fun b => b.1) = z.bkpt.map (fun b => b.1))
    ∧ freed s t k
  let refusal (s : State) : State := { s with outputs := s.outputs ++ [.reply (Cause.code .permission) []] }
  let names (s : State) (b : Bkpt) : Prop := (worldOf s (BitVec.ofNat 4 b.w)).prot = true ∨ ∃ w, mget none s.cellOwner (b.x + 128 * b.y) = some w ∧ (worldOf s (BitVec.ofNat 4 w)).prot = true
  let broken (s t : State) (w : BitVec 4) (on : Bool) : Prop := mget false t.dev.dbgw w.toNat = on ∧ (∀ v, v ≠ w.toNat → mget false t.dev.dbgw v = mget false s.dev.dbgw v)
    ∧ (on = true → t.firings = s.firings) ∧ (on = false → ∀ f, f ∈ t.firings → f.kind = .brk → f.node.w ≠ w)
  (∀ s a v i m k w on, s.dev.ready.getLsbD 0 = false → exec (.registerWrite a v) s = .next s ∧ exec (.badcClear i) s = .next s ∧ exec (.qspireClear m) s = .next s ∧ exec (.bkptStep k) s = .next s
    ∧ exec (.bkptDisarm k) s = .next s ∧ exec (.debugBreakWrite w on) s = .next s)
  ∧ ∀ s, s.dev.ready.getLsbD 0 = true →
    (∀ a v,
      let o := a.toNat
      let x := v.toNat
      let r := exec (.registerWrite a v) s
      let at_ (base n i : Nat) : Prop := i < n ∧ o = base + 8 * i
      ((o ≠ 8 ∧ o ≠ 0x700 ∧ ∀ i, ¬ (at_ 0x100 16 i ∨ at_ 0x200 32 i ∨ at_ 0x300 16 i ∨ at_ 0x400 64 i ∨ at_ 0x600 32 i ∨ at_ 0x800 4 i ∨ at_ 0x1000 384 i)) → r = .next s)
      ∧ (o = 8 → (let free := field x 0 9 ≤ 383 ∧ ∀ p, p < 18 → s.dev.ready.getLsbD (22 + p) = false; (free → r = .next (put s { s.dev with domid := field x 0 9 })) ∧ (¬ free → r = .next s)))
      ∧ (∀ i, at_ 0x100 16 i → (field x 0 8 = 0 → r = .next s) ∧ (field x 0 8 ≠ 0 → ∃ m, r = .next (put s { s.dev with wqos := m }) ∧ mget 16 m i = field x 0 8 ∧ ∀ j, j ≠ i → mget 16 m j = mget 16 s.dev.wqos j))
      ∧ (∀ i, at_ 0x200 32 i → badc s r i x)
      ∧ (∀ i, at_ 0x300 16 i → ((worldOf s (BitVec.ofNat 4 i)).prot = false → ∃ t, r = .next t ∧ broken s t (BitVec.ofNat 4 i) (v.getLsbD 0)) ∧ ((worldOf s (BitVec.ofNat 4 i)).prot = true → r = .next s))
      ∧ (∀ k, at_ 0x400 64 (4 * k) →
        let b := mget {} s.dev.bkpts k
        let new : Bkpt := { b with v := v.getLsbD 63, hit := b.hit && !v.getLsbD 62, tagm := v.getLsbD 60, valm := v.getLsbD 59, w := field x 52 4, port := field x 48 4, node := field x 44 4, y := field x 37 7, x := field x 30 7 }
        let refused := (v.getLsbD 63 = true ∨ v.getLsbD 61 = true) ∧ names s new
        (refused → r = .next (refusal s))
        ∧ (¬ refused → ∃ t, r = .next t ∧ mget {} t.dev.bkpts k = new ∧ (v.getLsbD 63 = false → released s t k) ∧ (v.getLsbD 61 = true → freed (put s t.dev) t k)
          ∧ (v.getLsbD 63 = true → v.getLsbD 61 = true → stepped (put s t.dev) t k) ∧ (v.getLsbD 63 = true → v.getLsbD 61 = false → t.ptoks = s.ptoks) ∧ (v.getLsbD 61 = false → t.firings = s.firings)))
      ∧ (∀ k j, j < 4 → 0 < j → at_ 0x400 64 (4 * k + j) → ∃ m, r = .next (put s { s.dev with bkpts := m }) ∧ (∀ n, n ≠ k → mget {} m n = mget {} s.dev.bkpts n)
        ∧ (let b := mget {} s.dev.bkpts k; mget {} m k = if j = 1 then { b with w1 := v } else if j = 2 then { b with w2 := v } else { b with vslot := field x 0 4 }))
      ∧ (∀ i, at_ 0x600 32 i → ∃ m, r = .next (put s { s.dev with saves := m }) ∧ (∀ j, j ≠ i / 2 → mget (0, 0) m j = mget (0, 0) s.dev.saves j)
        ∧ (let old := mget (0, 0) s.dev.saves (i / 2)
          (i % 2 = 0 → (mget (0, 0) m (i / 2)).2 = old.2 ∧ (mget (0, 0) m (i / 2)).1.toNat = field x 12 40 * 2 ^ 12 + field x 0 6) ∧ (i % 2 = 1 → (mget (0, 0) m (i / 2)).1 = old.1 ∧ (mget (0, 0) m (i / 2)).2.toNat = field x 0 16)))
      ∧ (o = 0x700 → ∃ t, r = .next t ∧ t = { s with dev := { s.dev with qspire := s.dev.qspire &&& ~~~v }, worlds := t.worlds })
      ∧ (∀ i, at_ 0x800 4 i → let s1 := fillBuckets s
        ∃ m, r = .next (put s1 { s1.dev with buckets := m }) ∧ (∀ j, j ≠ i → mget {} m j = mget {} s1.dev.buckets j)
        ∧ (let b := mget {} s1.dev.buckets i; mget {} m i = { b with newRate := field x 0 16, newDepth := (if field x 32 16 = 0 then b.newDepth else field x 32 16) }))
      ∧ (∀ i, at_ 0x1000 384 i → ∃ m, r = .next (put s { s.dev with routes := m }) ∧ (∀ j, j ≠ i → mget 0 m j = mget 0 s.dev.routes j) ∧ (mget 0 m i).toNat = field x 63 1 * 2 ^ 63 + field x 0 18))
    ∧ (∀ i, let old := (mget 0 s.dev.badc i.toNat).toNat; badc s (exec (.badcClear i) s) i.toNat (old - field old 31 1 * 2 ^ 31))
    ∧ (∀ m, ∃ t, exec (.qspireClear m) s = .next t ∧ t = { s with dev := { s.dev with qspire := s.dev.qspire &&& ~~~m }, worlds := t.worlds })
    ∧ (∀ k, names s (mget {} s.dev.bkpts k.toNat) → exec (.bkptStep k) s = .next (refusal s))
    ∧ (∀ k, ¬ names s (mget {} s.dev.bkpts k.toNat) → ∃ t, exec (.bkptStep k) s = .next t ∧ stepped s t k.toNat ∧ t = { s with ptoks := t.ptoks, timers := t.timers, firings := t.firings })
    ∧ (∀ k, ∃ t, exec (.bkptDisarm k) s = .next t ∧ mget {} t.dev.bkpts k.toNat = { mget {} s.dev.bkpts k.toNat with v := false } ∧ released s t k.toNat)
    ∧ (∀ w on, (worldOf s w).prot = true → exec (.debugBreakWrite w on) s = .next s)
    ∧ (∀ w on, (worldOf s w).prot = false → ∃ t, exec (.debugBreakWrite w on) s = .next t ∧ broken s t w on)
    ∧ ∀ a l, s.agenda = .readBar a :: l → ∃ v : Word64, step s = .next { s with agenda := l, outputs := s.outputs ++ [.mmio v] }
      ∧ (a = 0 → v = s.dev.ready) ∧ (a = 8 → v.toNat = s.dev.domid % 2 ^ 64) ∧ (a = 0x10 → v = s.dev.fail) ∧ (a = 0x700 → v = s.dev.qspire)
      ∧ ∀ i, (i < 16 → a = 0x100 + 8 * i → v.toNat = mget 16 s.dev.wqos i % 2 ^ 64) ∧ (i < 32 → a = 0x200 + 8 * i → v = mget 0 s.dev.badc i)
        ∧ (i < 16 → a = 0x300 + 8 * i → v.toNat = if mget false s.dev.dbgw i then 1 else 0)
        ∧ (i < 16 → let b := mget {} s.dev.bkpts i
          (a = 0x400 + 32 * i → v.getLsbD 63 = b.v ∧ v.getLsbD 62 = b.hit ∧ v.getLsbD 61 = false ∧ v.getLsbD 60 = b.tagm ∧ v.getLsbD 59 = b.valm ∧ field v.toNat 52 4 = b.w % 16 ∧ field v.toNat 48 4 = b.port % 16
            ∧ field v.toNat 44 4 = b.node % 16 ∧ field v.toNat 37 7 = b.y % 128 ∧ field v.toNat 30 7 = b.x % 128)
          ∧ (a = 0x408 + 32 * i → v = b.w1) ∧ (a = 0x410 + 32 * i → v = b.w2) ∧ (a = 0x418 + 32 * i → v.toNat = b.vslot % 16))
        ∧ (i < 16 → (a = 0x600 + 16 * i → v = (mget (0, 0) s.dev.saves i).1) ∧ (a = 0x608 + 16 * i → v = (mget (0, 0) s.dev.saves i).2))
        ∧ (i < 4 → a = 0x800 + 8 * i → (let b := mget {} s.dev.buckets i; v.toNat = (b.newDepth * 2 ^ 32 + b.newRate) % 2 ^ 64)) ∧ (i < 384 → a = 0x1000 + 8 * i → v = mget 0 s.dev.routes i)

/-- Bring-up, links and what comes from outside (R5, R237, R254, R323, R348, R404 to R410). A function's READY or FAIL bit sets once, SP first; SP takes the requests that waited
and shows the links' bits; the training of a link records its state, clears its FAIL bit and sets its READY bit, and a port going down clears it. The controller fills each bucket at
the period and moves the thermal limit while a junction is hot; MONITOR answers THERM, READY and the power drawn; a staged image runs from the next cold reset, which gives every
other field its reset value and leaves memory of the host and of other devices. The host's write of a live word makes it plain; a snoop takes a host line from the Dome; another
device's request is checked against the granules of its world and performed at its home. The thermal limit, and the
context of a remote line, are the model's (assumptions 23, 59). -/
def Obligations.LinkEvents : Prop :=
  let dev (s : State) (d : Dev) : State := { s with dev := d }
  let bit (v : Word64) (i : Nat) : Bool := v.getLsbD i
  let sp (s : State) : Bool := bit s.dev.ready 0
  let link (fn : Nat) : Prop := fn = 1 ∨ 22 ≤ fn
  let up (s : State) (fn : Nat) : Bool := if fn = 1 then s.dev.link.isSome else (mget none s.dev.ports (fn - 22)).isSome
  let shown (s t : State) : Prop := ∀ fn, fn < 40 → bit t.dev.ready fn = if sp s = true ∧ (fn = 1 ∨ 22 ≤ fn) then up t fn else bit s.dev.ready fn
  let effRate (b : Bucket) : Nat := match b.limit with | none => b.rate | some l => if b.rate = 0 then l else min b.rate l
  let outside (a : Nat) : Prop := region a = some .host ∨ ∃ d, region a = some (.remote d)
  (∀ s fn (h : fn < 40) ok,
    let i := Instr.functionReady ⟨fn, h⟩ ok
    let open_ := bit s.dev.ready fn = false ∧ bit s.dev.fail fn = false ∧ (fn = 0 ∨ sp s = true)
    (¬ open_ → exec i s = .next s)
    ∧ (open_ → ok = false → ∃ f, exec i s = .next (dev s { s.dev with fail := f }) ∧ ∀ k, k < 64 → bit f k = (decide (k = fn) || bit s.dev.fail k))
    ∧ (open_ → ok = true → link fn → exec i s = .next s)
    ∧ (open_ → ok = true → fn ≠ 0 → ¬ link fn → ∃ t, exec i s = .next t ∧ (∀ k, k < 40 → bit t.dev.ready k = (decide (k = fn) || bit s.dev.ready k)) ∧ t = { s with dev := { s.dev with ready := t.dev.ready }, worlds := t.worlds })
    ∧ (open_ → ok = true → fn = 0 → ∃ t, exec i s = .next t ∧ t = { s with dev := { s.dev with ready := t.dev.ready, mailbox := [] }, agenda := t.agenda } ∧ sp t = true
      ∧ (∀ k, 0 < k → k < 40 → link k → bit t.dev.ready k = up s k) ∧ (∀ k, 0 < k → k < 40 → ¬ link k → bit t.dev.ready k = bit s.dev.ready k)
      ∧ (∀ e, e ∈ s.dev.mailbox → .request e.2 ∈ t.agenda) ∧ ∃ l, t.agenda = l ++ s.agenda))
  ∧ (∀ s g w c, ∃ t, exec (.hostLinkTrain g w c) s = .next t ∧ t.dev.link = some (g, w, c) ∧ t.dev.lost = false ∧ (∀ k, k < 64 → bit t.dev.fail k = (bit s.dev.fail k && decide (k ≠ 1))) ∧ shown s t
    ∧ ((c = .none ∨ c = .noCache) → ∀ line, region (64 * line) = some .host → mget none t.dome line = none) ∧ (∀ line, region (64 * line) ≠ some .host → mget none t.dome line = mget none s.dome line)
    ∧ t = { s with dev := t.dev, dome := t.dome, monitors := t.monitors })
  ∧ (∀ s (p : Fin 18) r, ∃ t, exec (.frauthPortTrain p r) s = .next t ∧ t = dev s t.dev ∧ mget none t.dev.ports p.val = some r ∧ (∀ q, q ≠ p.val → mget none t.dev.ports q = mget none s.dev.ports q)
    ∧ (∀ k, k < 64 → bit t.dev.fail k = (bit s.dev.fail k && decide (k ≠ 22 + p.val))) ∧ shown s t)
  ∧ (∀ s (p : Fin 18), ∃ t, exec (.frauthPortDown p) s = .next t ∧ t = dev s t.dev ∧ mget none t.dev.ports p.val = none ∧ (∀ q, q ≠ p.val → mget none t.dev.ports q = mget none s.dev.ports q) ∧ t.dev.fail = s.dev.fail ∧ shown s t)
  ∧ (∀ s, ∃ m, exec .powerPeriod s = .next (dev s { s.dev with period := s.now / 1024, buckets := m })
    ∧ ∀ d, let b := mget {} s.dev.buckets d
      let b1 : Bucket := { b with depth := b.newDepth, rate := b.newRate }
      let n := s.now / 1024 - s.dev.period
      (d < 4 → n ≠ 0 → mget {} m d = { b1 with level := min b.newDepth (min b.newDepth (min b.depth (b.level + effRate b)) + (n - 1) * effRate b1) }) ∧ ((4 ≤ d ∨ n = 0) → mget {} m d = b))
  ∧ (∀ s d, ∃ m, exec (.thermalLimit d) s = .next (dev s { s.dev with buckets := m }) ∧ (∀ k, k ≠ d.toNat → mget {} m k = mget {} s.dev.buckets k)
    ∧ (let b := mget {} s.dev.buckets d.toNat
      let hot := ∃ k, k < 4 ∧ (Config.maxJunction k ≤ mget 0 s.dev.tj k + 5 ∨ 105 ≤ mget 0 s.dev.dram k + 5)
      ∃ l, mget {} m d.toNat = { b with limit := l } ∧ (hot → ∃ n, l = some n ∧ ∀ o, b.limit = some o → n ≤ o - 1) ∧ (¬ hot → ∀ n, l = some n → ∃ o, b.limit = some o ∧ o < n)))
  ∧ (∀ s d tj dram, ∃ m n, exec (.temperatureChange d tj dram) s = .next (dev s { s.dev with tj := m, dram := n }) ∧ mget 0 m d.toNat = tj.toNat ∧ mget 0 n d.toNat = dram.toNat
    ∧ ∀ k, k ≠ d.toNat → mget 0 m k = mget 0 s.dev.tj k ∧ mget 0 n k = mget 0 s.dev.dram k)
  ∧ (∀ s, ∃ t x p, exec .pldmMonitor s = .next t ∧ t = { s with outputs := s.outputs ++ [.reply 0 [x, s.dev.ready.toNat, p]], free := t.free } ∧ ∀ d, d < 4 → mget 0 s.dev.tj d < 256 → (∀ k, k < 4 → mget 0 s.dev.tj k < 256) →
    field x (8 * d) 8 = mget 0 s.dev.tj d)
  ∧ (∀ s i, exec (.pldmFirmwareUpdate i) s = .next (dev s { s.dev with staged := some i }))
  ∧ (∀ s pa v, let a := pa.toNat / 8 * 8
    ((typeAt s a = 0 ∨ region a ≠ some .host) → exec (.hostWriteLiveWord pa v) s = .next s)
    ∧ (typeAt s a ≠ 0 → region a = some .host → ∃ t, exec (.hostWriteLiveWord pa v) s = .next t ∧ t = { s with mem := t.mem, lines := t.lines, monitors := t.monitors, wtype := t.wtype } ∧ Written s t (bytesAt a 8) v.toNat ∧ typeAt t a = 0
      ∧ ∀ b, b / 8 ≠ a / 8 → typeAt t b = typeAt s b))
  ∧ (∀ s pa, (region pa.toNat ≠ some .host → exec (.cxlSnoop pa) s = .next s)
    ∧ (region pa.toNat = some .host → ∃ t, exec (.cxlSnoop pa) s = .next t ∧ t = { s with dome := t.dome, monitors := t.monitors } ∧ mget none t.dome (pa.toNat / 64) = none ∧ (∀ k, k ≠ pa.toNat / 64 → mget none t.dome k = mget none s.dome k)
      ∧ (∀ m, m ∈ t.monitors → m.granule = pa.toNat / 64 → m.event ≠ none)
      ∧ ∀ m, m ∈ s.monitors → m.granule = pa.toNat / 64 → m.event = none → { m with event := some (.write, s.now) } ∈ t.monitors))
  ∧ (∀ s w pa r,
    let a := canonPa s pa.toNat
    let n := match r with | .read k => k | .write l => l.length | .atomic _ w64 _ _ => if w64 then 8 else 4
    let lines := ∃ l, r = .write l ∧ a % 64 = 0 ∧ l.length % 64 = 0
    let mine := ∀ x, x ∈ bytesAt a n → isDevice x = true ∧ mget none s.granuleOwner (x / granuleSize) = some w.toNat ∧ (lines ∨ remoteLineOk s w x = true)
    let answers (t : State) (code : Nat) (l : List Nat) : Prop := exec (.frauthRequest w pa r) s = .next t ∧ t.outputs = s.outputs ++ [.reply code l]
    ((¬ mine ∨ (mine ∧ ∃ e, levelCheck s w a a = some e ∧ e.cause ≠ .stall)) → ∃ t, answers t 5 [] ∧ t = { s with outputs := t.outputs })
    ∧ (∀ e, mine → levelCheck s w a a = some e → e.cause = .stall → exec (.frauthRequest w pa r) s = .next s)
    ∧ (mine → levelCheck s w a a = none →
      (∀ k, r = .read k → ∃ t, answers t 0 ((bytesAt a k).map (fun x => (byteAt s.mem x).toNat)) ∧ t = { s with outputs := t.outputs })
      ∧ (∀ l, r = .write l → (∀ x, x ∈ bytesAt a l.length → typeAt s x = 0) → ∃ t, answers t 0 [] ∧ t = { s with mem := t.mem, lines := t.lines, monitors := t.monitors, outputs := t.outputs }
        ∧ (∀ (k : Nat) b, l[k]? = some b → byteAt t.mem (a + k) = b) ∧ ∀ x, x ∉ bytesAt a l.length → byteAt t.mem x = byteAt s.mem x)
      ∧ (∀ op w64 b c, r = .atomic op w64 b c →
        let k := if w64 then 8 else 4
        let old := numberAt s (bytesAt a k)
        let refused := typeAt s a = 1 ∨ (typeAt s a = 2 ∧ op ≠ .or)
        (refused → ∃ t, answers t (Cause.code .barrierStore) [] ∧ t = { s with outputs := t.outputs })
        ∧ (¬ refused → ∃ t, answers t 0 [old] ∧ Written s t (bytesAt a k) (atResult op (8 * k) old (b.toNat % 2 ^ (8 * k)) (c.toNat % 2 ^ (8 * k)))))))
  ∧ (∀ s, ∃ t, exec .coldReset s = .next t ∧ (∀ a, (outside a → byteAt t.mem a = byteAt s.mem a) ∧ (¬ outside a → byteAt t.mem a = 0))
    ∧ t = { State.reset with agenda := s.agenda, free := s.free, outputs := s.outputs, mem := t.mem, dev := { State.reset.dev with firmware := if s.dev.staged.isSome then s.dev.staged else s.dev.firmware } })

/-- The security processor (R346 to R350, R356 to R362, R404, R408, R413). Until it is ready a request waits in the mailbox. CREATE, GRANT and RECLAIM change the owners of the cells
and granules they name, cleared and FRESH as they change hands, and answer BUSY, DEBUG or REFUSED with nothing changed; DESTROY takes everything from its world. Keys of a world are
installed, retired and imported by its tenant in its session, or by the operator of an unprotected world. A request that R357 orders before one which has changed something in
this cycle comes again in another cycle. A token that verifies puts debug unlock in force, and consumes the nonce
either way. The TDISP requests move the state of a protected world's interface (the replies of versions and capabilities and the transitions are the model's, assumption 22), and
report what it owns. A link that goes down ends sessions and IDE keys, puts the interfaces of protected worlds in ERROR and cuts their tasks; then their keys are wrapped. -/
def Obligations.SecurityEvents : Prop :=
  let answers (i : Instr) (s t : State) (code : Nat) (l : List Nat) : Prop := exec i s = .next t ∧ t.outputs = s.outputs ++ [.reply code l]
  let only (i : Instr) (s : State) (code : Nat) (l : List Nat) : Prop := exec i s = .next { s with outputs := s.outputs ++ [.reply code l] }
  let waits (i : Instr) (r : Request) : Prop := ∀ s, s.dev.ready.getLsbD 0 = false → exec i s = .next { s with dev := { s.dev with mailbox := s.dev.mailbox ++ [(s.now, r)] } }
  let later (i : Instr) (r : Request) : Prop := ∀ s, s.dev.ready.getLsbD 0 = true → requestTurn s r = false → exec i s = .next { s with agenda := afterPass (.request r) s.agenda }
  let cleared (t : State) (c : Nat) : Prop := (∀ k, k < 32 → mget 0 t.hregs (32 * c + k) = 0) ∧ (∀ k, k < 8 → mget 0 t.counters (8 * c + k) = 0) ∧ ∀ k, k < 131072 → byteAt t.mem (scratchAddr c k) = 0
  let fresh (t : State) (g : Nat) : Prop := ∀ a, a / granuleSize = g → byteAt t.mem a = 0 ∧ mget none t.lines (a / 64) = none ∧ typeAt t a = 0
  let cellOf (s : State) (c : Nat) : Option Nat := mget none s.cellOwner c
  let granOf (s : State) (g : Nat) : Option Nat := mget none s.granuleOwner g
  let gives (s t : State) (w : BitVec 4) (cells granules : List Nat) : Prop := (∀ c, c ∈ cells → c < 12288 → cellOf t c = some w.toNat ∧ (cellOf s c ≠ some w.toNat → cleared t c)) ∧ (∀ c, c ∉ cells → cellOf t c = cellOf s c)
    ∧ (∀ g, g ∈ granules → isDevice (g * granuleSize) = true → granOf t g = some w.toNat ∧ (granOf s g ≠ some w.toNat → fresh t g)) ∧ ∀ g, g ∉ granules → granOf t g = granOf s g
  let others (s : State) (w : BitVec 4) (cells granules : List Nat) : Prop := (∃ c v, c ∈ cells ∧ cellOf s c = some v ∧ v ≠ w.toNat) ∨ ∃ g v, g ∈ granules ∧ granOf s g = some v ∧ v ≠ w.toNat
  let fixed (x : World) : Prop := x.prot = true ∧ (x.tdi = .locked ∨ x.tdi = .run)
  let may (s : State) (b : Requester) (w : BitVec 4) : Prop := (worldOf s w).live = true ∧ match b with | .operator => (worldOf s w).prot = false | .tenant v => v = w ∧ (worldOf s w).spdm = true
  let tdi (i : BitVec 4 → Instr) (P : State → BitVec 4 → World → Prop) : Prop := ∀ s w, s.dev.ready.getLsbD 0 = true →
    (¬ ((worldOf s w).live = true ∧ (worldOf s w).prot = true) → only (i w) s 3 []) ∧ ((worldOf s w).live = true → (worldOf s w).prot = true → P s w (worldOf s w))
  let moves (i : BitVec 4 → Instr) (src : Tdi → Prop) (dst : Tdi) : Prop := tdi i (fun s w x => (src x.tdi → ∃ t, answers (i w) s t 0 [] ∧ (worldOf t w).tdi = dst ∧ t = { s with worlds := t.worlds, outputs := t.outputs }) ∧ (¬ src x.tdi → only (i w) s 3 []))
  (∀ b w p y k g slot keys kek blob n token nonce, waits (.create w p y k g) (.create w p y k g) ∧ waits (.grant w k g) (.grant w k g) ∧ waits (.reclaim w k g) (.reclaim w k g) ∧ waits (.destroy w) (.destroy w)
    ∧ waits (.keyInstall b w slot keys) (.keyInstall b w slot keys) ∧ waits (.keyRetire b w slot) (.keyRetire b w slot) ∧ waits (.kekInstall w kek) (.kekInstall w kek) ∧ waits (.keyImport w kek blob n) (.keyImport w kek blob n)
    ∧ waits (.unlock token) (.unlock token) ∧ waits (.unlockChallenge nonce) (.unlockChallenge nonce) ∧ waits (.getTdispVersion w) (.tdispVersion w) ∧ waits (.getTdispCapabilities w) (.tdispCapabilities w)
    ∧ waits (.lockInterfaceRequest w) (.lock w) ∧ waits (.getDeviceInterfaceReport w) (.report w) ∧ waits (.getDeviceInterfaceState w) (.tdiState w) ∧ waits (.startInterfaceRequest w) (.start w)
    ∧ waits (.stopInterfaceRequest w) (.stop w) ∧ waits (.getMeasurements w) (.measurements w) ∧ waits (.spdmSessionEstablish w) (.session w) ∧ waits (.ideKm w) (.ideKm w))
  ∧ (∀ b w p y k g slot keys kek blob n, later (.create w p y k g) (.create w p y k g) ∧ later (.grant w k g) (.grant w k g) ∧ later (.reclaim w k g) (.reclaim w k g) ∧ later (.destroy w) (.destroy w)
    ∧ later (.keyInstall b w slot keys) (.keyInstall b w slot keys) ∧ later (.keyRetire b w slot) (.keyRetire b w slot) ∧ later (.kekInstall w kek) (.kekInstall w kek) ∧ later (.keyImport w kek blob n) (.keyImport w kek blob n))
  ∧ (∀ s w p y k g, s.dev.ready.getLsbD 0 = true → requestTurn s (.create w p y k g) = true →
    let i := Instr.create w p y k g
    let live := (worldOf s w).live = true
    let open_ := p = true ∧ ∃ u, s.dev.unlocked = some u ∧ u < s.now
    (live → only i s 1 []) ∧ (¬ live → open_ → only i s 2 []) ∧ (¬ live → ¬ open_ → others s w k g → only i s 3 [])
    ∧ (¬ live → ¬ open_ → ¬ others s w k g → ∃ t, answers i s t 0 [] ∧ worldOf t w = { live := true, prot := p, sys := y, saveKey := some s.free } ∧ gives s t w k g))
  ∧ (∀ s w k g, s.dev.ready.getLsbD 0 = true →
    let x := worldOf s w
    (let bad := x.live = false ∨ fixed x ∨ others s w k g;
      requestTurn s (.grant w k g) = true → (bad → only (.grant w k g) s 3 []) ∧ (¬ bad → ∃ t, answers (.grant w k g) s t 0 [] ∧ gives s t w k g))
    ∧ (let bad := x.live = false ∨ fixed x
      let busy := (∃ c, c ∈ k ∧ c ∈ residentCells s w) ∨ ∃ d, d ∈ g ∧ ∃ e, e ∈ worldCarves s w ∧ d ∈ carveGranules e.2;
      requestTurn s (.reclaim w k g) = true → (bad → only (.reclaim w k g) s 3 []) ∧ (¬ bad → busy → only (.reclaim w k g) s 1 [])
      ∧ (¬ bad → ¬ busy → ∃ t, answers (.reclaim w k g) s t 0 [] ∧ (∀ c, (c ∈ k ∧ cellOf s c = some w.toNat → cellOf t c = none ∧ cleared t c) ∧ (¬ (c ∈ k ∧ cellOf s c = some w.toNat) → cellOf t c = cellOf s c))
        ∧ ∀ d, granOf t d = if d ∈ g ∧ granOf s d = some w.toNat then none else granOf s d))
    ∧ (requestTurn s (.destroy w) = true → ∃ t, answers (.destroy w) s t 0 [] ∧ worldOf t w = {} ∧ (∀ c, cellOf t c ≠ some w.toNat ∧ (cellOf s c = some w.toNat → cleared t c)) ∧ (∀ d, granOf t d ≠ some w.toNat) ∧ ∀ y, (ctxOf t w y).resident = false))
  ∧ (∀ s b w slot keys, s.dev.ready.getLsbD 0 = true → let x := worldOf s w
    (requestTurn s (.keyInstall b w slot keys) = true → (¬ may s b w → only (.keyInstall b w slot keys) s 3 []) ∧ (may s b w → ∃ t m, answers (.keyInstall b w slot keys) s t 0 [] ∧ worldOf t w = { x with keys := m } ∧ mget none m slot.toNat = some keys ∧ ∀ j, j ≠ slot.toNat → mget none m j = mget none x.keys j))
    ∧ (requestTurn s (.keyRetire b w slot) = true → (¬ may s b w → only (.keyRetire b w slot) s 3 []) ∧ (may s b w → ∃ t, answers (.keyRetire b w slot) s t 0 [] ∧ mget none (worldOf t w).keys slot.toNat = none ∧ (∀ j, j ≠ slot.toNat → mget none (worldOf t w).keys j = mget none x.keys j)
        ∧ ∀ line key a v l, mget none x.keys slot.toNat ≠ none → mget none s.lines line = some (.keyed w.toNat slot.toNat key a v l) → mget none t.dome line = none)))
  ∧ (∀ s w kek blob n, s.dev.ready.getLsbD 0 = true → let x := worldOf s w
    (requestTurn s (.kekInstall w kek) = true → (x.spdm = false → only (.kekInstall w kek) s 3 [])
      ∧ (x.spdm = true → ∃ t, answers (.kekInstall w kek) s t 0 [] ∧ worldOf t w = { x with kek := some kek } ∧ t = { s with worlds := t.worlds, turns := t.turns, outputs := t.outputs }))
    ∧ (x.spdm = false → only (.ideKm w) s 3 [])
    ∧ (x.spdm = true → ∃ t, answers (.ideKm w) s t 0 [] ∧ worldOf t w = { x with ide := true } ∧ t = { s with worlds := t.worlds, outputs := t.outputs })
    ∧ (let ok := x.spdm = true ∧ x.tdi = .locked ∧ x.kek = some kek;
      requestTurn s (.keyImport w kek blob n) = true → (¬ ok → only (.keyImport w kek blob n) s 3 [])
      ∧ (ok → ∃ t, answers (.keyImport w kek blob n) s t 0 [] ∧ (worldOf t w).wrapped = none ∧ (worldOf t w).saveKey = x.wrapped.bind (fun v => v.save) ∧ (∀ a b slot key, blob = a ++ (slot, key) :: b → slot < 256 → (∀ e, e ∈ b → e.1 % 256 ≠ slot) → mget none (worldOf t w).keys slot = some key)
        ∧ (∀ slot, (∀ e, e ∈ blob → e.1 % 256 ≠ slot) → mget none (worldOf t w).keys slot = none) ∧ ∀ a b y c, n = a ++ (y, c) :: b → y < 256 → (∀ e, e ∈ b → e.1 % 256 ≠ y) → mget 0 (worldOf t w).nctr y = c))
    ∧ (x.live = true → s.dev.link.isSome = true → ∃ t, answers (.spdmSessionEstablish w) s t 0 [] ∧ worldOf t w = { x with spdm := true })
    ∧ (x.live = false ∨ s.dev.link = none → only (.spdmSessionEstablish w) s 3 []))
  ∧ (∀ s (token : DebugToken) nonce w, s.dev.ready.getLsbD 0 = true →
    let ok := token.version = 1 ∧ token.rsv = 0 ∧ token.devid = Config.devid ∧ s.dev.nonce = some token.nonce ∧ Config.sigOk token.version token.devid token.nonce token.sig = true
    let dbg := if s.dev.unlocked.isSome then 1 else 0
    (ok → ∃ t, answers (.unlock token) s t 0 [] ∧ t = { s with dev := { s.dev with nonce := none, unlocked := some (s.dev.unlocked.getD s.now) }, outputs := t.outputs })
    ∧ (¬ ok → ∃ t, answers (.unlock token) s t 3 [] ∧ t = { s with dev := { s.dev with nonce := none }, outputs := t.outputs })
    ∧ (∃ t, answers (.unlockChallenge nonce) s t 0 [nonce.toNat] ∧ t = { s with dev := { s.dev with nonce := some nonce }, outputs := t.outputs })
    ∧ only (.getMeasurements w) s 0 [measurement s, dbg])
  ∧ tdi .getTdispVersion (fun s w _ => only (.getTdispVersion w) s 0 [0x10]) ∧ tdi .getTdispCapabilities (fun s w _ => ∃ l, only (.getTdispCapabilities w) s 0 l)
  ∧ moves .lockInterfaceRequest (fun x => x = .unlocked ∨ x = .error) .locked ∧ moves .startInterfaceRequest (fun x => x = .locked) .run ∧ moves .stopInterfaceRequest (fun _ => True) .unlocked
  ∧ tdi .getDeviceInterfaceState (fun s w x => only (.getDeviceInterfaceState w) s 0 [match x.tdi with | .unlocked => 0 | .locked => 1 | .run => 2 | .error => 3])
  ∧ tdi .getDeviceInterfaceReport (fun s w _ => ∃ cs gs rest, (∀ c, cellOf s c = some w.toNat → c ∈ cs) ∧ (∀ g, granOf s g = some w.toNat → g ∈ gs)
    ∧ only (.getDeviceInterfaceReport w) s 0 ([w.toNat, cs.length] ++ cs ++ [gs.length] ++ gs ++ [if s.dev.unlocked.isSome then 1 else 0, measurement s, mget 16 s.dev.wqos w.toNat] ++ rest))
  ∧ (∀ s, ∃ t, exec .linkDown s = .next t ∧ t = { s with worlds := t.worlds, dev := t.dev } ∧ t.dev.link = none ∧ t.dev.lost = true ∧ (∀ k, k < 64 → t.dev.ready.getLsbD k = (s.dev.ready.getLsbD k && decide (k ≠ 1)))
    ∧ ∀ w, let x := worldOf s w; let y := worldOf t w;
      (x.prot = false → y = { x with spdm := false, ide := false }) ∧ (x.prot = true → y.spdm = false ∧ y.ide = false ∧ y.tdi = .error ∧ y.wrapPending = true ∧ y.keys = x.keys
        ∧ y.tasks = x.tasks.map (fun q => if q.st = .running then { q with st := .cutting, cuts := q.cuts + 1 } else q)))
  ∧ ∀ s w, let x := worldOf s w
    let busy := x.wrapPending = false ∨ (∃ q, q ∈ x.tasks ∧ q.st = .cutting) ∨ ∃ e, e ∈ contextsOf s w ∧ e.2.cut ≠ none;
    (busy → exec (.keyWrap w) s = .next s)
    ∧ (¬ busy → ∃ t, exec (.keyWrap w) s = .next t ∧ (worldOf t w).keys = [] ∧ (worldOf t w).nctr = [] ∧ (worldOf t w).saveKey = none ∧ (worldOf t w).wrapPending = false
      ∧ ((x.wrapped.isSome = true ∧ x.keys = []) → (worldOf t w).wrapped = x.wrapped) ∧ (¬ (x.wrapped.isSome = true ∧ x.keys = []) → (worldOf t w).wrapped = x.kek.map (fun k => { kek := k, keys := x.keys, nctr := x.nctr, save := x.saveKey })))

/-! ### The whole machine -/

/-- R72 to R83, R194, R328: the words that the manual writes out for instructions of every layout decode to those instructions: FMUL, END and FADD (R89's
example), LNDOT, CVPK2, MDRAIN, LD, STREL, DRAFT, QUOTA, PURGE, FMTLD and RDSR; MULI and SEL of a logit program; FOREACH, SLTU and KILL of a policy. -/
def Obligations.SpecWordsDecode : Prop :=
  let hd (fmt : BitVec 4) (nopd : BitVec 3) (imask : BitVec 5) (t0 : Target) : Hdr :=
    { fmt := fmt, rnd := .dflt, gd := Guard.off, nopd := nopd, imask := imask, t0 := t0, t1 := .none, hint := 0, swz := 0, sched := 0 }
  let w (scope : Scope) (ord : Ord) (mctl : BitVec 6) (ofs : BitVec 32) : PayW := { wself := 1, wpred := 0, wsucc := 127, scope := scope, ord := ord, mctl := mctl, ofs := ofs }
  decodeTableWord 128 0x40838109020000000000000040000000 = some (.fmul (hd 0 2 0b10 (.operand 1 0)) { k := 0x40000000 })
  ∧ decodeTableWord 128 0x40038103000000000000000000000000 = some (.fadd (hd 0 2 0 (.chan 0)) { k := 0 })
  ∧ decodeTableWord 128 0x00438000000000000000000000000000 = some (.exitEnd (hd 0 0 0 .none) { blk := 0, auxi := 0, cctl := 0, k0 := 0 })
  ∧ decodeTableWord 256 0x00000000000100000004010000000100_0AC38180000000000000000000002004
    = some (.lndot (hd 0 3 0 .none) { sh2 := 0, ext4 := 0, ext3 := 0, ext2 := 0, ext1 := 2, ext0 := 4, sh0 := 0, sh1 := 0, strides := 0x1000000040100000_00100 })
  ∧ decodeTableWord 128 0x70C38103000000001000000000000000 = some (.cvpk2 (hd 0 2 0 (.chan 0)) { dfmt := 1, vctl := 0, k0 := 0 })
  ∧ decodeTableWord 128 0x81438003000000000100000000000000 = some (.mdrain (hd 0 0 0 (.chan 0)) { bfmt := 0, ofmt := 1, mctl := 0, k0 := 0 })
  ∧ decodeTableWord 128 0x901B8081040000100203F80100000040 = some (.ld { hd 6 1 0 (.operand 2 0) with swz := 1 } (w .cell .plain 1 0x40))
  ∧ decodeTableWord 128 0x91C38100000000000203FB8000000000 = some (.strel (hd 0 2 0 .none) (w .dev .rel 0 0))
  ∧ decodeTableWord 128 0xC1C38103020000006013000000000000 = some (.draft (hd 0 2 0 (.chan 1)) { scope := .dev, ectl := 0x13, k0 := 0 })
  ∧ decodeTableWord 128 0xD0038108000000000050000000000803 = some (.quota (hd 0 2 0b10 .none) { qctl := 0x50, k0 := 0x803 })
  ∧ decodeTableWord 128 0xD0C38080000000000000000000000000 = some (.purge (hd 0 1 0 .none) { qctl := 0, k0 := 0 })
  ∧ decodeTableWord 128 0xE20380840000000000300000_00003C4B = some (.fmtld (hd 0 1 1 .none) { sreg := 3, k0 := 0x3C4B })
  ∧ decodeTableWord 128 0xE0838001060000000270000000000000 = some (.rdsr (hd 0 0 0 (.operand 3 0)) { sreg := 0x027, k0 := 0 })
  ∧ decodeTableWord 64 0x360000003F000000 = some (.lgMuli 6 0 0x3F000000) ∧ decodeTableWord 64 0x9EDE800000000000 = some (.lgSel 6 6 7 5)
  ∧ decodeTableWord 32 0x8D400014 = some (.polForeach 5 20) ∧ decodeTableWord 32 0x2E8D8000 = some (.polSltu 10 3 6) ∧ decodeTableWord 32 0xCC300000 = some (.polKill 12)
  ∧ decodeTableWord 32 0 = none

/-- R72–R83, R194, R195, R328: no bit of an encoding is dropped; every well-formed instruction is read back from its word, whatever its fields. -/
def Obligations.EncodedInstructionsDecodeBack : Prop :=
  ∀ i n w, i.wf = true → encode i = some (n, w) → decodeTableWord n w = some i ∧ w < 2 ^ n

/-- R6, R86: no bit of a word is ignored; a word that decodes is the encoding of the well-formed instruction it gives, in every set. -/
def Obligations.DecodedWordsEncodeBack : Prop :=
  (∀ w v i, w < 2 ^ 128 → v < 2 ^ 128 → decodeMain w v = .ok i → i.wf = true ∧ (encode i = some (128, w) ∨ encode i = some (256, w + 2 ^ 128 * v)))
  ∧ (∀ w i, w < 2 ^ 64 → decodeLogit w = .ok i → i.wf = true ∧ encode i = some (64, w))
  ∧ ∀ w i, w < 2 ^ 32 → decodePolicy w = .ok i → i.wf = true ∧ encode i = some (32, w)

/-- R39, R82, R194, R328: a step runs the instruction that the words of what is in focus decode to, at that very state; a move of the agenda comes
first, and turns the focus, brings an event, or lets time pass; with nothing to run a cycle passes, but what decisions of the scheduler still do in it
comes before (R334). A word placed by `withFetchWord` (assumption 30) is what the next step runs. -/
def Obligations.StepRunsDecodedInstruction : Prop :=
  (∀ s b w i, s.agenda = [] → Executes s b → b.code[b.pc]? = some w →
    decodeMain w.toNat (if 0x020 ≤ field w.toNat 118 10 ∧ field w.toNat 118 10 ≤ 0x02B then (b.code.getD (b.pc + 1) 0).toNat else 0) = .ok i → step s = exec i s)
  ∧ (∀ s w d x i, s.agenda = [] → s.focus = .policy w → (worldOf s w).decision = some d → d.live = true → d.prog[d.pc]? = some x →
    decodePolicy x.toNat = .ok i → step s = exec i s)
  ∧ (∀ s r x i, s.agenda = [] → s.focus = .logit → s.logit = some r → r.prog[r.pc]? = some x → decodeLogit x.toNat = .ok i → step s = exec i s)
  ∧ (∀ s, s.agenda = [] → fetched s = none → step s = .next (tick s 1))
  ∧ (∀ s n, (∀ w, (worldOf s w).decision = none ∧ (worldOf s w).triggers = []) → tick s n = passTime s n)
  ∧ (∀ s w d x, (∀ v, v ≠ w → (worldOf s v).decision = none ∧ (worldOf s v).triggers = []) → (worldOf s w).decision = some d → d.due ≤ s.now → d.outcome = none → d.count < policyBudget →
    d.prog[d.pc]? = some x → s.focus ≠ .policy w → tick s 1 = { s with focus := .policy w })
  ∧ (∀ s l, (∀ c q i, s.agenda = .run c q :: l → fetched { s with agenda := l, focus := .inst c q } = some (.ok i) → step s = exec i { s with agenda := l, focus := .inst c q })
    ∧ (∀ i, s.agenda = .event i :: l → encode i = none → step s = exec i { s with agenda := l })
    ∧ (∀ n, s.agenda = .pass n :: l → step s = .next (tick { s with agenda := l } n)))
  ∧ ∀ s n w i, n ∈ [32, 64, 128, 256] → w < 2 ^ n → decodeTableWord n w = some i → findInst s 0 (mget 0 s.seqs 0 + 1) = none →
    step (s.withFetchWord n w) = exec i (s.withFetchWord n w)

/-- Every step keeps memory in its canonical form: addresses strictly rising, and no byte listed that equals what an unlisted address reads as. -/
def Obligations.MemoryFormKept : Prop := ∀ s t, memWf s.mem = true → step s = .next t → memWf t.mem = true

/-- What a cold reset leaves (R5, R346, R372, R373, R407): no world, no resident context, no owner, no plane-array run, no line's metadata, every
register that the manual gives a reset value at it (the watchdog limit 4,096, each world's weight 16, the others 0), debug locked, no function ready and
nothing to run, so that a step lets a cycle pass. That H registers, counters and bytes read 0 is the model's choice (assumptions 8 and 34). -/
def Obligations.ResetState : Prop :=
  let s := State.reset
  memWf s.mem = true ∧ (∀ a, byteAt s.mem a = 0 ∧ typeAt s a = 0 ∧ mget none s.lines a = none) ∧ (∀ k, mget 0 s.hregs k = 0 ∧ mget 0 s.counters k = 0 ∧ mget none s.planes k = none)
  ∧ (∀ w, worldOf s w = {} ∧ (worldOf s w).live = false ∧ (worldOf s w).belfry = 0 ∧ (worldOf s w).ttab = 0 ∧ (worldOf s w).schedbase = 0 ∧ (worldOf s w).polslot = 0
    ∧ (worldOf s w).ctab = 0 ∧ (worldOf s w).fltlog = 0 ∧ (worldOf s w).evtab = 0 ∧ (worldOf s w).catab = 0 ∧ (worldOf s w).tdi = .unlocked)
  ∧ s.cgtab = 0 ∧ (∀ w x, (ctxOf s w x).resident = false ∧ (ctxOf s w x).wdog = 4096 ∧ (ctxOf s w x).srseed = 0 ∧ (ctxOf s w x).hintdrop = 0)
  ∧ (∀ k, mget none s.cellOwner k = none ∧ mget none s.granuleOwner k = none) ∧ (∀ w, mget 16 s.dev.wqos w = 16 ∧ mget false s.dev.dbgw w = false)
  ∧ s.dev.ready = 0 ∧ s.dev.fail = 0 ∧ s.dev.domid = 0 ∧ s.dev.qspire = 0 ∧ s.dev.unlocked = none ∧ s.dev.link = none ∧ s.outputs = [] ∧ s.now = 0
  ∧ step s = .next { s with now := 1 }

/-- Every instruction and event answers a next state in every state, and a step stops only where a word in focus is no instruction, which R87 and R88
keep out of what is loaded. That stop is the model's (assumption 30). -/
def Obligations.OnlyUndecodableWordStops : Prop :=
  (∀ i s, ∃ t, exec i s = .next t)
  ∧ (∀ s, s.agenda = [] → ((∃ t, step s = .next t) ↔ ∀ r, fetched s ≠ some (.error r)) ∧ ((∃ r, fetched s = some (.error r)) → step s = .fault .badWord))
  ∧ ∀ s m l, s.agenda = m :: l → (∃ t, step s = .next t) ∨ step s = .fault .badWord

/-- The frame of every control, counter, loop-nest, integer, float, lane, conversion and matrix instruction: it raises its fault, or it changes nothing but
the instance in focus; no byte of memory, register, token, other instance or other state (R41: its effects come at its commit). -/
def Obligations.LocalInstructionsFrame : Prop :=
  ∀ i op h s t, Coded i op h → op < 0x240 → exec i s = .next t →
    t = s ∨ (∃ b r, focusInst s = some b ∧ t = raise s b r)
    ∨ (t = { s with insts := t.insts } ∧ ∀ c q, s.focus ≠ .inst c q → findInst t c q = findInst s c q)

/-- R39, R44: a main instruction waits, with nothing changed, while no instance executes or an operand or a predicate of its guard is not there; with a
false guard it goes on and delivers nothing valid and predicate 0, raises nothing and adds nothing to the commit. A guarded-off SPAWN
returns its tag besides; a guarded-off STEER delivers so with DROPC too (assumption 44). -/
def Obligations.WaitingAndGuardedOff : Prop :=
  ∀ i op h, Coded i op h →
    (∀ s, Waits h s → exec i s = .next s)
    ∧ ∀ s b, Executes s b → guardOf h b = some false → operands h (fun _ => noVal) b ≠ none → Alone s b →
      let len := if 0x020 ≤ op ∧ op ≤ 0x02B then 2 else 1
      (op ≠ 0x341 → ∃ aux, (op < 0x008 ∨ 0x014 < op → aux = 0) ∧ exec i s = .next (putInst s (advance len (deliver h aux offDeliv b))))
      ∧ (op = 0x341 → exec i s = .next (putInst s (advance 1 (deliver h 0 offDeliv { b with effs := b.effs ++ (match b.spawned with | some g => [.tagFree g] | none => []) }))))

/-- R365, R366, R369, R371, R372: a fault waits while an older instance of its invocation is in flight, and for a later cycle where one of a later place
was taken in this (R371). When it is taken, the uncommitted instances of its
invocation are gone, and its held stores but where an instance of it has begun its commit; no DONE or GO leaves (a loop nest's waiting GO may start), its plane-array run closes, and one
record goes to the world's log with the next number, to the supervisor as an EXC token, and to the scheduler as a FAULT decision; the queue's vector is
sent where it has one; no other byte changes. -/
def Obligations.FaultTaking : Prop :=
  ∀ s b r, r.cause ≠ .stall →
    let r1 : Report := match b.point with
      | some (is, _) => if r.iters = [] then { r with iters := 0 :: is } else r
      | none => r
    let t := raise s b r
    let x := worldOf s b.node.w
    let c := ctxOf s b.node.w b.node.x
    let nest := ((findInv s b.inv).map (fun v => v.nest)).getD false
    let rcd := faultRecord b r1 b.pc (((placedOf s b.node).map (fun p => p.node)).getD 0) nest s.now x.fltSeq
    let place := logPlace x x.fltSeq
    let turn := inTurn s .fault b.node (faultPlace b.cell b.pc) = true
    (¬ (Alone s b ∧ turn) → t = putInst s { b with raised := some (b.pc, r) })
    ∧ (Alone s b → turn → t.insts = s.insts.filter (fun y => !(y.inv == b.inv && !y.begun)) ∧ ((∀ y, y ∈ s.insts → y.inv = b.inv → y.begun = false) → ∀ v, findInv t b.inv = some v → v.held = [])
      ∧ (nest = false → t.outq = s.outq ∧ t.ctls = s.ctls)
      ∧ (b ∈ s.insts → b.begun = false → holdsMatrix b.code = true → ∀ q, mget none t.planes b.cell = some q → q.tag ≠ b.tag)
      ∧ (worldOf t b.node.w).fltSeq = (x.fltSeq + 1) % 2 ^ 32 ∧ (c.resident = true → (worldOf t b.node.w).triggers = x.triggers ++ [(.fault c.task r.cause, s.now)])
      ∧ (field x.fltlog.toNat 12 40 = 0 ∨ reaches s b.node.w place = false → t.mem = s.mem)
      ∧ (field x.fltlog.toNat 12 40 ≠ 0 → reaches s b.node.w place = true → (∀ k, k < 16 → readLE t.mem (place + 4 * k) 4 = rcd.getD k 0 % 2 ^ 32) ∧ ∀ a, a < place ∨ place + 64 ≤ a → byteAt t.mem a = byteAt s.mem a)
      ∧ (supervisorOf c = none → t.excFlight = s.excFlight)
      ∧ (supervisorOf c ≠ none → ∃ e, t.excFlight = s.excFlight ++ [({ w := b.node.w, x := b.node.x }, e)] ∧ e.kind = .exc ∧ e.aux.toNat = r.cause.code ∧ e.val.valid = 0xFFFF
        ∧ ∀ k, k < 16 → slotOf e.val k = some (BitVec.ofNat 32 (rcd.getD k 0)))
      ∧ t.outputs = s.outputs ++ (match c.queue with
        | some q => if queueVec s b.node.w q = 0 then [] else [.msix b.node.w (queueVec s b.node.w q)]
        | none => []))

/-- R132, R158, R189, R305–R310, R314, R382–R387: in these states and on these operands each of QBLK, RDSR, WRSR, HRD, HWR, FMTLD, FMTRD, FMTSYNC,
TRAP, BRK, YIELD, HALT and LGBIND, and each event of a queue, goes to a next state with its own effect; TRAP's is the BREAK fault that it takes.
Room for several FMTLDs of an instance is counted as assumption 46 says. -/
def Obligations.SystemAndQueueFormsComplete : Prop :=
  (
  (∀ h p s b x q, Fires h (k0Const p.k0) s b [x] → h.t0 = .chan q →
    let e := entryWord s b h.fmt.toNat
    let d := entryWord s b p.dfmt.toNat
    let g := p.vctl.toNat + 1
    Plain e → contW e = 32 → legalEntry d = true → (Fmt.ofWord d).block ≠ 0 → g % max (32 / contW d) ((Fmt.ofWord d).block / 16) = 0 →
      exec (.qblk h p) s = .next (putInst s (adds b [.qblk q.toNat g e d h.rnd ((srOf s b).seed, b.blk, b.pc) x])))
  ∧ (∀ h p s b xs, Fires h (k0Const p.k0) s b xs →
    let r := p.sreg.toNat
    (∀ x, registerOf s b r = some x → ∃ v, InPair v x ∧ exec (.rdsr h p) s = .next (delivered h 0 s b 1 v (decide (x ≠ 0))))
    ∧ (hmodeOf s b r = .const ∨ hmodeOf s b r = .colour b.tag.colour → ∃ v, InPair v (mget 0 b.hregs0 (b.cell * 32 + r)) ∧
      exec (.hrd h p) s = .next (delivered h 0 s b 1 v (decide (mget (0 : Word64) b.hregs0 (b.cell * 32 + r) ≠ 0))))
    ∧ (∃ v z, SlotNonzero v z ∧ exec (.fmtrd h p) s = .next (delivered h 0 s b 1 v z)
      ∧ Words v [(entryWord s b r).toNat, (entryWord s b r).toNat / 2 ^ 32, b.gen % 2 ^ 16])
    ∧ (b.fetched ≠ some s.now → (∀ c, c ∈ ctxCells (nodeCtx s b.node) → b.sync ≤ reachOf s b.node.w b.node.x c) →
      (∀ g, g ∈ heldGens s b.node.w b.node.x (fun y => y.cell == b.cell && decide (b.seq ≤ y.seq)) → b.sync ≤ g) →
        ∃ v z, SlotNonzero v z ∧ exec (.fmtsync h p) s = .next (delivered h 0 s b 1 v z) ∧ Words v [b.sync % 2 ^ 16])
    ∧ (Alone s b → inTurn s .fault b.node (faultPlace b.cell b.pc) = true → ∃ t, exec (.trap h p) s = .next t
      ∧ t.insts = s.insts.filter (fun y => !(y.inv == b.inv && !y.begun)) ∧ (worldOf t b.node.w).fltSeq = ((worldOf s b.node.w).fltSeq + 1) % 2 ^ 32
      ∧ (supervisorOf (nodeCtx s b.node) ≠ none → ∃ e, t.excFlight = s.excFlight ++ [({ w := b.node.w, x := b.node.x }, e)] ∧ e.kind = .exc ∧ e.aux.toNat = Cause.code .brk
        ∧ (let a := (elemOf 64 (xs.getD 0 noVal) 0).getD 0
          slotOf e.val 9 = some (BitVec.ofNat 32 (a % 2 ^ 32)) ∧ slotOf e.val 10 = some (BitVec.ofNat 32 (a / 2 ^ 32 % 2 ^ 32)) ∧ slotOf e.val 11 = some 14)))
    ∧ (b.brkOff = true → exec (.brk h p) s = .next (putInst s (adds b [])))
    ∧ (b.brkOff = false → mget false s.dev.dbgw b.node.w.toNat = false ∨ (worldOf s b.node.w).prot = true → exec (.brk h p) s = .next (putInst s { b with brkOff := true, pc := 0 }))
    ∧ (∃ v n, Words v [n] ∧ n < 2 ∧ (n = 1 ↔ ∃ t, findTask s b.node.w (nodeCtx s b.node).task = some t ∧ holdsCells t = true ∧ preemptCands s b.node.w t ≠ [])
      ∧ exec (.yield h p) s = .next (putInst s (advance 1 (addEff .yieldTask (deliver h 0 (same v (decide (n = 1))) b)))))
    ∧ exec (.halt h p) s = .next (putInst s (adds b [.haltTask])))
  ∧ (∀ h p s b x, Fires h (k0Const p.k0) s b [x] →
    let r := p.sreg.toNat
    let given (f : Word64 → Eff) : State := putInst s (adds b ((givenWord h p.k0 x).toList.map f))
    ((r ≠ 0x015 ∧ r < 0x020) ∨ ((nodeCtx s b.node).sysAttr = true ∧ (r = 0x023 → (worldOf s b.node.w).sys = true)) → exec (.wrsr h p) s = .next (given (fun w => .sreg r w)))
    ∧ exec (.fmtld h p) s = .next (given (fun w => .fmt r w))
    ∧ (hmodeOf s b r = .colour b.tag.colour → exec (.hwr h p) s = .next (given (fun w => .hreg r w))))
  ∧ (∀ h p s b x, MemFires h s b [x] →
    (baseOf false x = none → exec (.lgbind h p) s = .next (putInst s (adds b [])))
    ∧ ∀ va, baseOf false x = some va → (va = 0 ∨ (va % 64 = 0 ∧ ∃ q, loadSeq (instByte s b) va = .ok q)) →
      Replaces (exec (.lgbind h p) s) s (adds b [.lgbind p.sreg.toNat (BitVec.ofNat 64 va)])))
  ∧ (
  (∀ s w (q : BitVec 6) idx d img, nextPkt s w q.toNat = some (idx, d) → pktFault s w q.toNat d img = none →
    let s1 := startPkt s w q.toNat d
    let own : BitVec 32 := BitVec.ofNat 32 (field (d 0) 32 32)
    let ty := field (d 0) 0 8
    let mode := field (d 1) 0 2
    let ends (i : Instr) (y : State) (status : Nat) (P : State → Prop) : Prop := ∃ t, exec i s = .next t ∧ Completes y t w q.toNat idx status 0 own 0 ∧ P t
    (∀ g, ty = 1 → img = some g →
      let x := taskOf s1 w q.toNat idx d g
      overNeed (setWorld s1 w { worldOf s1 w with tasks := (worldOf s1 w).tasks ++ [x] }) w x = false →
        ∃ t, exec (.launch w q g) s = .next t ∧ (worldOf t w).tasks = (worldOf s w).tasks ++ [x] ∧ x.st = .queued ∧ queueOf t w q.toNat = queueOf s1 w q.toNat)
    ∧ (∀ u0 u, ty = 3 → img = none →
      let op (y : State) : Except Report State := signalOp y w (BitVec.ofNat 8 (field (d 2) 16 8)) (d 1) (field (d 2) 0 2) (d 3)
      op s = .ok u0 → op s1 = .ok u → ends (.signal w q) u 0 (fun _ => True))
    ∧ (∀ l, ty = 4 → img = none → ((field (d 1) 6 46 = 0 ∧ l = []) ∨ (field (d 1) 6 46 ≠ 0 ∧ reaches s w (field (d 1) 6 46 * 64) = true ∧ readPolicy s w (field (d 1) 6 46 * 64) = some l)) →
      ends (.policySwap w q) s1 0 (fun t => (mget {} (worldOf t w).policies (field (d 2) 0 6)).prog = l))
    ∧ (∀ x, ty = 5 → img = none → abortWaits s w q.toNat = false → findTask s w (BitVec.ofNat 32 (field (d 1) 32 32)) = some x →
      let gone (y : State) : Prop := ∀ z, z ∈ (worldOf y w).tasks → z.id ≠ BitVec.ofNat 32 (field (d 1) 32 32)
      (mode = 0 → x.st = .queued → ∃ y, gone y ∧ ends (.abortCancel w q) y 2 (fun _ => True))
      ∧ (mode = 1 → ∃ y, gone y ∧ ends (.abortKill w q) y (if x.st = .queued then 2 else 5) (fun _ => True)))
    ∧ (ty = 5 → mode = 2 → img = none →
      let x : Context := BitVec.ofNat 8 (field (d 2) 24 8)
      let c : Colour := BitVec.ofNat 8 (field (d 2) 16 8)
      (ctxOf s1 w x).resident = true → (ctxOf s1 w x).purging = none → (ctxOf s1 w x).purgeq = [] →
        ∃ t, exec (.abortPurge w q) s = .next t ∧ frozen t w x c = true ∧ (∀ y, y ∈ t.ptoks → ¬ (y.at_.node.w = w ∧ y.at_.node.x = x ∧ y.tok.tag.colour = c))))
  ∧ (∀ s w (q : BitVec 6) p, openWait s w q.toNat = some p →
    let d := pktWord s w q.toNat p.idx
    (waitTest s w d = .ok true → ∃ t, exec (.wait w q) s = .next t ∧ Completes s t w q.toNat p.idx 0 0 p.task 0)
    ∧ (field (d 4) 0 32 ≠ 0 → p.since + 1024 * field (d 4) 0 32 ≤ s.now → ∃ t, exec (.waitPacketTimeout w q) s = .next t ∧ Completes s t w q.toNat p.idx 6 0 p.task 0))
  ∧ ∀ s w (q : BitVec 6), let st := (queueOf s w q.toNat).st
    let goes (i : Instr) (n : Nat) : Prop := ∃ t, exec i s = .next t ∧ (queueOf t w q.toNat).st = n ∧ (worldOf t w).tasks = (worldOf s w).tasks
    (st = 0 → s.dev.ready.getLsbD (2 + (Config.queueDie w q.toNat).val) = true → qdescOk s w q.toNat = true → goes (.queueStart w q) 1)
    ∧ (st = 1 ∨ st = 3 → goes (.queueStop w q) 0) ∧ (st = 2 → goes (.queueResume w q false) 0)
    ∧ (st = 2 → (∀ x, x ∈ (worldOf s w).tasks → x.queue = q.toNat → x.st = .queued → x.img.spires.length ≤ 1) → goes (.queueResume w q true) 3) ∧ (st = 3 → goes (.queueClearQuar w q) 1)
    ∧ (st = 2 → ∀ v, ∃ t, exec (.ridxWrite w q v) s = .next t ∧ (queueOf t w q.toNat).ridx = v.toNat ∧ (queueOf t w q.toNat).started = v.toNat ∧ (queueOf t w q.toNat).st = 2))
end

