-- ==== Sys2Proof/Laws/Maps.lean ====
section
/-! SUPPORT. Laws of the sparse maps: reading after writing, and the canonical form. -/

namespace Sys2Proof.Machine

theorem mfind_mdel_other {α : Type} (m : FMap α) {j k : Nat} (h : j ≠ k) : mfind (mdel m k) j = mfind m j := by
  induction m with
  | nil => rfl
  | cons e m ih =>
    obtain ⟨i, v⟩ := e
    by_cases hi : i = k
    · subst hi; simp [mdel, mfind, Ne.symm h, ih]
    · simp [mdel, mfind, hi, ih]

theorem mfind_mins_same {α : Type} (m : FMap α) (k : Nat) (v : α) : mfind (mins m k v) k = some v := by
  induction m with
  | nil => simp [mins, mfind]
  | cons e m ih =>
    obtain ⟨i, u⟩ := e
    simp only [mins]
    split
    · simp [mfind]
    · split
      · simp [mfind]
      · next h => simp [mfind, h, ih]

theorem mfind_mins_other {α : Type} (m : FMap α) {j k : Nat} (h : j ≠ k) (v : α) : mfind (mins m k v) j = mfind m j := by
  induction m with
  | nil => simp [mins, mfind, Ne.symm h]
  | cons e m ih =>
    obtain ⟨i, u⟩ := e
    simp only [mins]
    split
    · simp [mfind, Ne.symm h]
    · split
      · next hi => subst hi; simp [mfind, Ne.symm h]
      · simp [mfind, ih]

theorem mfind_mdel_same {α : Type} (m : FMap α) (k : Nat) : mfind (mdel m k) k = none := by
  induction m with
  | nil => rfl
  | cons e m ih =>
    obtain ⟨i, v⟩ := e
    by_cases hi : i = k
    · simp [mdel, hi, ih]
    · simp [mdel, mfind, hi, ih]

section
variable {α : Type} [DecidableEq α] (d : α)

/-- Keys of a well-formed map lie above its lower bound. -/
theorem mfind_none_of_le {lo : Nat} {m : FMap α} (h : mwfFrom d (some lo) m = true) {k : Nat} (hk : k ≤ lo) :
    mfind m k = none := by
  induction m generalizing lo with
  | nil => rfl
  | cons e m ih =>
    obtain ⟨i, v⟩ := e
    simp only [mwfFrom, Bool.and_eq_true, decide_eq_true_eq] at h
    have : i ≠ k := by omega
    simp only [mfind, this, if_false]
    exact ih h.2 (by omega)

/-- A write leaves every other key alone. -/
theorem mget_mput_other (m : FMap α) {j k : Nat} (h : j ≠ k) (v : α) : mget d (mput d m k v) j = mget d m j := by
  unfold mget mput
  split
  · rw [mfind_mdel_other m h]
  · rw [mfind_mins_other m h]

/-- A read after a write gives the value written. -/
theorem mget_mput_same (m : FMap α) (k : Nat) (v : α) : mget d (mput d m k v) k = v := by
  unfold mget mput
  split
  · next hv => rw [mfind_mdel_same, hv]; rfl
  · rw [mfind_mins_same]; rfl

theorem mwfFrom_mono {a b : Nat} (hab : a ≤ b) {m : FMap α} (h : mwfFrom d (some b) m = true) : mwfFrom d (some a) m = true := by
  cases m with
  | nil => rfl
  | cons e m =>
    obtain ⟨i, v⟩ := e
    simp only [mwfFrom, Bool.and_eq_true, decide_eq_true_eq] at h ⊢
    exact ⟨⟨by omega, h.1.2⟩, h.2⟩

theorem mwfFrom_none {a : Nat} {m : FMap α} (h : mwfFrom d (some a) m = true) : mwfFrom d none m = true := by
  cases m with
  | nil => rfl
  | cons e m =>
    obtain ⟨i, v⟩ := e
    simp only [mwfFrom, Bool.and_eq_true, decide_eq_true_eq] at h ⊢
    exact ⟨⟨trivial, h.1.2⟩, h.2⟩

theorem mwfFrom_mdel {lo : Option Nat} {m : FMap α} (h : mwfFrom d lo m = true) (k : Nat) : mwfFrom d lo (mdel m k) = true := by
  induction m generalizing lo with
  | nil => rfl
  | cons e m ih =>
    obtain ⟨i, v⟩ := e
    simp only [mwfFrom, Bool.and_eq_true] at h
    simp only [mdel]
    split
    · cases lo with
      | none => exact mwfFrom_none d (ih h.2)
      | some a =>
        have ha := h.1.1
        simp only [decide_eq_true_eq] at ha
        exact mwfFrom_mono d (by omega) (ih h.2)
    · simp only [mwfFrom, Bool.and_eq_true]
      exact ⟨h.1, ih h.2⟩

theorem mwfFrom_mins {lo : Option Nat} {m : FMap α} (h : mwfFrom d lo m = true) {k : Nat} {v : α} (hv : v ≠ d)
    (hk : ∀ a, lo = some a → a < k) : mwfFrom d lo (mins m k v) = true := by
  induction m generalizing lo with
  | nil => cases lo <;> simp [mins, mwfFrom, hv]; exact hk _ rfl
  | cons e m ih =>
    obtain ⟨i, u⟩ := e
    simp only [mwfFrom, Bool.and_eq_true, decide_eq_true_eq] at h
    simp only [mins]
    split
    · next hki =>
      simp only [mwfFrom, Bool.and_eq_true, decide_eq_true_eq]
      refine ⟨⟨?_, hv⟩, ⟨hki, h.1.2⟩, h.2⟩
      cases lo with
      | none => rfl
      | some a => simpa using hk a rfl
    · split
      · next _ hik =>
        subst hik
        simp only [mwfFrom, Bool.and_eq_true, decide_eq_true_eq]
        exact ⟨⟨h.1.1, hv⟩, h.2⟩
      · next h1 h2 =>
        simp only [mwfFrom, Bool.and_eq_true, decide_eq_true_eq]
        refine ⟨h.1, ih h.2 ?_⟩
        intro a ha
        cases ha
        omega

/-- Writing keeps the canonical form. -/
theorem mwf_mput {m : FMap α} (h : mwf d m = true) (k : Nat) (v : α) : mwf d (mput d m k v) = true := by
  unfold mput
  split
  · exact mwfFrom_mdel d h k
  · next hv => exact mwfFrom_mins d h hv (by intro a ha; cases ha)

theorem mwfFrom_filter (p : Nat × α → Bool) {lo : Option Nat} {m : FMap α} (h : mwfFrom d lo m = true) :
    mwfFrom d lo (m.filter p) = true := by
  induction m generalizing lo with
  | nil => rfl
  | cons e m ih =>
    obtain ⟨i, v⟩ := e
    simp only [mwfFrom, Bool.and_eq_true] at h
    by_cases hp : p (i, v) = true
    · rw [List.filter_cons_of_pos hp]
      simp only [mwfFrom, Bool.and_eq_true]
      exact ⟨h.1, ih h.2⟩
    · rw [List.filter_cons_of_neg hp]
      cases lo with
      | none => exact mwfFrom_none d (ih h.2)
      | some a =>
        have ha := h.1.1
        simp only [decide_eq_true_eq] at ha
        exact mwfFrom_mono d (by omega) (ih h.2)

/-- Dropping entries keeps the canonical form. -/
theorem mwf_filter (p : Nat × α → Bool) {m : FMap α} (h : mwf d m = true) : mwf d (m.filter p) = true :=
  mwfFrom_filter d p h

end

/-- Replacing the first match of a list keeps its length. -/
theorem updFirst_length {α : Type} (p : α → Bool) (f : α → α) (l : List α) : (updFirst p f l).length = l.length := by
  induction l with
  | nil => rfl
  | cons a l ih => by_cases h : p a = true <;> simp [updFirst, h, ih]

/-- What is found after the first match has been replaced by something that matches too. -/
theorem find_updFirst {α : Type} (p : α → Bool) (f : α → α) (hf : ∀ a, p a = true → p (f a) = true) (l : List α) :
    (updFirst p f l).find? p = (l.find? p).map f := by
  induction l with
  | nil => rfl
  | cons a l ih =>
    by_cases h : p a = true
    · simp [updFirst, h, hf a h]
    · simp [updFirst, h, ih]

/-- What another test finds is as before when the replaced elements fail it before and after. -/
theorem find_updFirst_other {α : Type} (p q : α → Bool) (f : α → α) (hq : ∀ a, p a = true → q a = false ∧ q (f a) = false) (l : List α) :
    (updFirst p f l).find? q = l.find? q := by
  induction l with
  | nil => rfl
  | cons a l ih =>
    by_cases h : p a = true
    · simp [updFirst, h, hq a h]
    · simp only [updFirst, h, Bool.false_eq_true, if_false, List.find?_cons, ih]

end Sys2Proof.Machine
end

