-- ==== Sys2Proof/Laws/State.lean ====
section
/-! SUPPORT. One lemma per field for each named update of the state: the field it changes, and that every other
one is as it was. -/

namespace Sys2Proof.Machine

/-! ### setWorld -/

@[simp] theorem setWorld_now (s : State) (w : BitVec 4) (x : World) : (setWorld s w x).now = s.now := rfl
@[simp] theorem setWorld_agenda (s : State) (w : BitVec 4) (x : World) : (setWorld s w x).agenda = s.agenda := rfl
@[simp] theorem setWorld_focus (s : State) (w : BitVec 4) (x : World) : (setWorld s w x).focus = s.focus := rfl
@[simp] theorem setWorld_free (s : State) (w : BitVec 4) (x : World) : (setWorld s w x).free = s.free := rfl
@[simp] theorem setWorld_insts (s : State) (w : BitVec 4) (x : World) : (setWorld s w x).insts = s.insts := rfl
@[simp] theorem setWorld_invs (s : State) (w : BitVec 4) (x : World) : (setWorld s w x).invs = s.invs := rfl
@[simp] theorem setWorld_nextInv (s : State) (w : BitVec 4) (x : World) : (setWorld s w x).nextInv = s.nextInv := rfl
@[simp] theorem setWorld_seqs (s : State) (w : BitVec 4) (x : World) : (setWorld s w x).seqs = s.seqs := rfl
@[simp] theorem setWorld_firings (s : State) (w : BitVec 4) (x : World) : (setWorld s w x).firings = s.firings := rfl
@[simp] theorem setWorld_nests (s : State) (w : BitVec 4) (x : World) : (setWorld s w x).nests = s.nests := rfl
@[simp] theorem setWorld_goWaits (s : State) (w : BitVec 4) (x : World) : (setWorld s w x).goWaits = s.goWaits := rfl
@[simp] theorem setWorld_ctls (s : State) (w : BitVec 4) (x : World) : (setWorld s w x).ctls = s.ctls := rfl
@[simp] theorem setWorld_monitors (s : State) (w : BitVec 4) (x : World) : (setWorld s w x).monitors = s.monitors := rfl
@[simp] theorem setWorld_lastColour (s : State) (w : BitVec 4) (x : World) : (setWorld s w x).lastColour = s.lastColour := rfl
@[simp] theorem setWorld_blocks (s : State) (w : BitVec 4) (x : World) : (setWorld s w x).blocks = s.blocks := rfl
@[simp] theorem setWorld_ptoks (s : State) (w : BitVec 4) (x : World) : (setWorld s w x).ptoks = s.ptoks := rfl
@[simp] theorem setWorld_flights (s : State) (w : BitVec 4) (x : World) : (setWorld s w x).flights = s.flights := rfl
@[simp] theorem setWorld_outq (s : State) (w : BitVec 4) (x : World) : (setWorld s w x).outq = s.outq := rfl
@[simp] theorem setWorld_srcq (s : State) (w : BitVec 4) (x : World) : (setWorld s w x).srcq = s.srcq := rfl
@[simp] theorem setWorld_credRet (s : State) (w : BitVec 4) (x : World) : (setWorld s w x).credRet = s.credRet := rfl
@[simp] theorem setWorld_excFlight (s : State) (w : BitVec 4) (x : World) : (setWorld s w x).excFlight = s.excFlight := rfl
@[simp] theorem setWorld_timers (s : State) (w : BitVec 4) (x : World) : (setWorld s w x).timers = s.timers := rfl
@[simp] theorem setWorld_hregs (s : State) (w : BitVec 4) (x : World) : (setWorld s w x).hregs = s.hregs := rfl
@[simp] theorem setWorld_counters (s : State) (w : BitVec 4) (x : World) : (setWorld s w x).counters = s.counters := rfl
@[simp] theorem setWorld_groups (s : State) (w : BitVec 4) (x : World) : (setWorld s w x).groups = s.groups := rfl
@[simp] theorem setWorld_planes (s : State) (w : BitVec 4) (x : World) : (setWorld s w x).planes = s.planes := rfl
@[simp] theorem setWorld_fmtReach (s : State) (w : BitVec 4) (x : World) : (setWorld s w x).fmtReach = s.fmtReach := rfl
@[simp] theorem setWorld_fmtTravel (s : State) (w : BitVec 4) (x : World) : (setWorld s w x).fmtTravel = s.fmtTravel := rfl
@[simp] theorem setWorld_fmtOwn (s : State) (w : BitVec 4) (x : World) : (setWorld s w x).fmtOwn = s.fmtOwn := rfl
@[simp] theorem setWorld_turns (s : State) (w : BitVec 4) (x : World) : (setWorld s w x).turns = s.turns := rfl
@[simp] theorem setWorld_freed (s : State) (w : BitVec 4) (x : World) : (setWorld s w x).freed = s.freed := rfl
@[simp] theorem setWorld_mem (s : State) (w : BitVec 4) (x : World) : (setWorld s w x).mem = s.mem := rfl
@[simp] theorem setWorld_wtype (s : State) (w : BitVec 4) (x : World) : (setWorld s w x).wtype = s.wtype := rfl
@[simp] theorem setWorld_lines (s : State) (w : BitVec 4) (x : World) : (setWorld s w x).lines = s.lines := rfl
@[simp] theorem setWorld_tlb (s : State) (w : BitVec 4) (x : World) : (setWorld s w x).tlb = s.tlb := rfl
@[simp] theorem setWorld_walks (s : State) (w : BitVec 4) (x : World) : (setWorld s w x).walks = s.walks := rfl
@[simp] theorem setWorld_bank (s : State) (w : BitVec 4) (x : World) : (setWorld s w x).bank = s.bank := rfl
@[simp] theorem setWorld_dome (s : State) (w : BitVec 4) (x : World) : (setWorld s w x).dome = s.dome := rfl
@[simp] theorem setWorld_ops (s : State) (w : BitVec 4) (x : World) : (setWorld s w x).ops = s.ops := rfl
@[simp] theorem setWorld_nextOp (s : State) (w : BitVec 4) (x : World) : (setWorld s w x).nextOp = s.nextOp := rfl
@[simp] theorem setWorld_epochs (s : State) (w : BitVec 4) (x : World) : (setWorld s w x).epochs = s.epochs := rfl
@[simp] theorem setWorld_notices (s : State) (w : BitVec 4) (x : World) : (setWorld s w x).notices = s.notices := rfl
@[simp] theorem setWorld_evqs (s : State) (w : BitVec 4) (x : World) : (setWorld s w x).evqs = s.evqs := rfl
@[simp] theorem setWorld_waiters (s : State) (w : BitVec 4) (x : World) : (setWorld s w x).waiters = s.waiters := rfl
@[simp] theorem setWorld_peers (s : State) (w : BitVec 4) (x : World) : (setWorld s w x).peers = s.peers := rfl
@[simp] theorem setWorld_cgtab (s : State) (w : BitVec 4) (x : World) : (setWorld s w x).cgtab = s.cgtab := rfl
@[simp] theorem setWorld_ctxs (s : State) (w : BitVec 4) (x : World) : (setWorld s w x).ctxs = s.ctxs := rfl
@[simp] theorem setWorld_worlds (s : State) (w : BitVec 4) (x : World) : (setWorld s w x).worlds = mput {} s.worlds w.toNat x := rfl
@[simp] theorem setWorld_cellOwner (s : State) (w : BitVec 4) (x : World) : (setWorld s w x).cellOwner = s.cellOwner := rfl
@[simp] theorem setWorld_granuleOwner (s : State) (w : BitVec 4) (x : World) : (setWorld s w x).granuleOwner = s.granuleOwner := rfl
@[simp] theorem setWorld_outputs (s : State) (w : BitVec 4) (x : World) : (setWorld s w x).outputs = s.outputs := rfl
@[simp] theorem setWorld_lanterns (s : State) (w : BitVec 4) (x : World) : (setWorld s w x).lanterns = s.lanterns := rfl
@[simp] theorem setWorld_lstreams (s : State) (w : BitVec 4) (x : World) : (setWorld s w x).lstreams = s.lstreams := rfl
@[simp] theorem setWorld_logit (s : State) (w : BitVec 4) (x : World) : (setWorld s w x).logit = s.logit := rfl
@[simp] theorem setWorld_dev (s : State) (w : BitVec 4) (x : World) : (setWorld s w x).dev = s.dev := rfl
@[simp] theorem setWorld_images (s : State) (w : BitVec 4) (x : World) : (setWorld s w x).images = s.images := rfl

/-! ### setCtx -/

@[simp] theorem setCtx_now (s : State) (w : BitVec 4) (x : Context) (c : Ctx) : (setCtx s w x c).now = s.now := rfl
@[simp] theorem setCtx_agenda (s : State) (w : BitVec 4) (x : Context) (c : Ctx) : (setCtx s w x c).agenda = s.agenda := rfl
@[simp] theorem setCtx_focus (s : State) (w : BitVec 4) (x : Context) (c : Ctx) : (setCtx s w x c).focus = s.focus := rfl
@[simp] theorem setCtx_free (s : State) (w : BitVec 4) (x : Context) (c : Ctx) : (setCtx s w x c).free = s.free := rfl
@[simp] theorem setCtx_insts (s : State) (w : BitVec 4) (x : Context) (c : Ctx) : (setCtx s w x c).insts = s.insts := rfl
@[simp] theorem setCtx_invs (s : State) (w : BitVec 4) (x : Context) (c : Ctx) : (setCtx s w x c).invs = s.invs := rfl
@[simp] theorem setCtx_nextInv (s : State) (w : BitVec 4) (x : Context) (c : Ctx) : (setCtx s w x c).nextInv = s.nextInv := rfl
@[simp] theorem setCtx_seqs (s : State) (w : BitVec 4) (x : Context) (c : Ctx) : (setCtx s w x c).seqs = s.seqs := rfl
@[simp] theorem setCtx_firings (s : State) (w : BitVec 4) (x : Context) (c : Ctx) : (setCtx s w x c).firings = s.firings := rfl
@[simp] theorem setCtx_nests (s : State) (w : BitVec 4) (x : Context) (c : Ctx) : (setCtx s w x c).nests = s.nests := rfl
@[simp] theorem setCtx_goWaits (s : State) (w : BitVec 4) (x : Context) (c : Ctx) : (setCtx s w x c).goWaits = s.goWaits := rfl
@[simp] theorem setCtx_ctls (s : State) (w : BitVec 4) (x : Context) (c : Ctx) : (setCtx s w x c).ctls = s.ctls := rfl
@[simp] theorem setCtx_monitors (s : State) (w : BitVec 4) (x : Context) (c : Ctx) : (setCtx s w x c).monitors = s.monitors := rfl
@[simp] theorem setCtx_lastColour (s : State) (w : BitVec 4) (x : Context) (c : Ctx) : (setCtx s w x c).lastColour = s.lastColour := rfl
@[simp] theorem setCtx_blocks (s : State) (w : BitVec 4) (x : Context) (c : Ctx) : (setCtx s w x c).blocks = s.blocks := rfl
@[simp] theorem setCtx_ptoks (s : State) (w : BitVec 4) (x : Context) (c : Ctx) : (setCtx s w x c).ptoks = s.ptoks := rfl
@[simp] theorem setCtx_flights (s : State) (w : BitVec 4) (x : Context) (c : Ctx) : (setCtx s w x c).flights = s.flights := rfl
@[simp] theorem setCtx_outq (s : State) (w : BitVec 4) (x : Context) (c : Ctx) : (setCtx s w x c).outq = s.outq := rfl
@[simp] theorem setCtx_srcq (s : State) (w : BitVec 4) (x : Context) (c : Ctx) : (setCtx s w x c).srcq = s.srcq := rfl
@[simp] theorem setCtx_credRet (s : State) (w : BitVec 4) (x : Context) (c : Ctx) : (setCtx s w x c).credRet = s.credRet := rfl
@[simp] theorem setCtx_excFlight (s : State) (w : BitVec 4) (x : Context) (c : Ctx) : (setCtx s w x c).excFlight = s.excFlight := rfl
@[simp] theorem setCtx_timers (s : State) (w : BitVec 4) (x : Context) (c : Ctx) : (setCtx s w x c).timers = s.timers := rfl
@[simp] theorem setCtx_hregs (s : State) (w : BitVec 4) (x : Context) (c : Ctx) : (setCtx s w x c).hregs = s.hregs := rfl
@[simp] theorem setCtx_counters (s : State) (w : BitVec 4) (x : Context) (c : Ctx) : (setCtx s w x c).counters = s.counters := rfl
@[simp] theorem setCtx_groups (s : State) (w : BitVec 4) (x : Context) (c : Ctx) : (setCtx s w x c).groups = s.groups := rfl
@[simp] theorem setCtx_planes (s : State) (w : BitVec 4) (x : Context) (c : Ctx) : (setCtx s w x c).planes = s.planes := rfl
@[simp] theorem setCtx_fmtReach (s : State) (w : BitVec 4) (x : Context) (c : Ctx) : (setCtx s w x c).fmtReach = s.fmtReach := rfl
@[simp] theorem setCtx_fmtTravel (s : State) (w : BitVec 4) (x : Context) (c : Ctx) : (setCtx s w x c).fmtTravel = s.fmtTravel := rfl
@[simp] theorem setCtx_fmtOwn (s : State) (w : BitVec 4) (x : Context) (c : Ctx) : (setCtx s w x c).fmtOwn = s.fmtOwn := rfl
@[simp] theorem setCtx_turns (s : State) (w : BitVec 4) (x : Context) (c : Ctx) : (setCtx s w x c).turns = s.turns := rfl
@[simp] theorem setCtx_freed (s : State) (w : BitVec 4) (x : Context) (c : Ctx) : (setCtx s w x c).freed = s.freed := rfl
@[simp] theorem setCtx_mem (s : State) (w : BitVec 4) (x : Context) (c : Ctx) : (setCtx s w x c).mem = s.mem := rfl
@[simp] theorem setCtx_wtype (s : State) (w : BitVec 4) (x : Context) (c : Ctx) : (setCtx s w x c).wtype = s.wtype := rfl
@[simp] theorem setCtx_lines (s : State) (w : BitVec 4) (x : Context) (c : Ctx) : (setCtx s w x c).lines = s.lines := rfl
@[simp] theorem setCtx_tlb (s : State) (w : BitVec 4) (x : Context) (c : Ctx) : (setCtx s w x c).tlb = s.tlb := rfl
@[simp] theorem setCtx_walks (s : State) (w : BitVec 4) (x : Context) (c : Ctx) : (setCtx s w x c).walks = s.walks := rfl
@[simp] theorem setCtx_bank (s : State) (w : BitVec 4) (x : Context) (c : Ctx) : (setCtx s w x c).bank = s.bank := rfl
@[simp] theorem setCtx_dome (s : State) (w : BitVec 4) (x : Context) (c : Ctx) : (setCtx s w x c).dome = s.dome := rfl
@[simp] theorem setCtx_ops (s : State) (w : BitVec 4) (x : Context) (c : Ctx) : (setCtx s w x c).ops = s.ops := rfl
@[simp] theorem setCtx_nextOp (s : State) (w : BitVec 4) (x : Context) (c : Ctx) : (setCtx s w x c).nextOp = s.nextOp := rfl
@[simp] theorem setCtx_epochs (s : State) (w : BitVec 4) (x : Context) (c : Ctx) : (setCtx s w x c).epochs = s.epochs := rfl
@[simp] theorem setCtx_notices (s : State) (w : BitVec 4) (x : Context) (c : Ctx) : (setCtx s w x c).notices = s.notices := rfl
@[simp] theorem setCtx_evqs (s : State) (w : BitVec 4) (x : Context) (c : Ctx) : (setCtx s w x c).evqs = s.evqs := rfl
@[simp] theorem setCtx_waiters (s : State) (w : BitVec 4) (x : Context) (c : Ctx) : (setCtx s w x c).waiters = s.waiters := rfl
@[simp] theorem setCtx_peers (s : State) (w : BitVec 4) (x : Context) (c : Ctx) : (setCtx s w x c).peers = s.peers := rfl
@[simp] theorem setCtx_cgtab (s : State) (w : BitVec 4) (x : Context) (c : Ctx) : (setCtx s w x c).cgtab = s.cgtab := rfl
@[simp] theorem setCtx_ctxs (s : State) (w : BitVec 4) (x : Context) (c : Ctx) : (setCtx s w x c).ctxs = mput {} s.ctxs (ctxKey w x) c := rfl
@[simp] theorem setCtx_worlds (s : State) (w : BitVec 4) (x : Context) (c : Ctx) : (setCtx s w x c).worlds = s.worlds := rfl
@[simp] theorem setCtx_cellOwner (s : State) (w : BitVec 4) (x : Context) (c : Ctx) : (setCtx s w x c).cellOwner = s.cellOwner := rfl
@[simp] theorem setCtx_granuleOwner (s : State) (w : BitVec 4) (x : Context) (c : Ctx) : (setCtx s w x c).granuleOwner = s.granuleOwner := rfl
@[simp] theorem setCtx_outputs (s : State) (w : BitVec 4) (x : Context) (c : Ctx) : (setCtx s w x c).outputs = s.outputs := rfl
@[simp] theorem setCtx_lanterns (s : State) (w : BitVec 4) (x : Context) (c : Ctx) : (setCtx s w x c).lanterns = s.lanterns := rfl
@[simp] theorem setCtx_lstreams (s : State) (w : BitVec 4) (x : Context) (c : Ctx) : (setCtx s w x c).lstreams = s.lstreams := rfl
@[simp] theorem setCtx_logit (s : State) (w : BitVec 4) (x : Context) (c : Ctx) : (setCtx s w x c).logit = s.logit := rfl
@[simp] theorem setCtx_dev (s : State) (w : BitVec 4) (x : Context) (c : Ctx) : (setCtx s w x c).dev = s.dev := rfl
@[simp] theorem setCtx_images (s : State) (w : BitVec 4) (x : Context) (c : Ctx) : (setCtx s w x c).images = s.images := rfl

/-! ### putInst -/

@[simp] theorem putInst_now (s : State) (b : BInst) : (putInst s b).now = s.now := rfl
@[simp] theorem putInst_agenda (s : State) (b : BInst) : (putInst s b).agenda = s.agenda := rfl
@[simp] theorem putInst_focus (s : State) (b : BInst) : (putInst s b).focus = s.focus := rfl
@[simp] theorem putInst_free (s : State) (b : BInst) : (putInst s b).free = s.free := rfl
@[simp] theorem putInst_insts (s : State) (b : BInst) : (putInst s b).insts = updFirst (fun y => y.isAt b.cell b.seq) (fun _ => b) s.insts := rfl
@[simp] theorem putInst_invs (s : State) (b : BInst) : (putInst s b).invs = s.invs := rfl
@[simp] theorem putInst_nextInv (s : State) (b : BInst) : (putInst s b).nextInv = s.nextInv := rfl
@[simp] theorem putInst_seqs (s : State) (b : BInst) : (putInst s b).seqs = s.seqs := rfl
@[simp] theorem putInst_firings (s : State) (b : BInst) : (putInst s b).firings = s.firings := rfl
@[simp] theorem putInst_nests (s : State) (b : BInst) : (putInst s b).nests = s.nests := rfl
@[simp] theorem putInst_goWaits (s : State) (b : BInst) : (putInst s b).goWaits = s.goWaits := rfl
@[simp] theorem putInst_ctls (s : State) (b : BInst) : (putInst s b).ctls = s.ctls := rfl
@[simp] theorem putInst_monitors (s : State) (b : BInst) : (putInst s b).monitors = s.monitors := rfl
@[simp] theorem putInst_lastColour (s : State) (b : BInst) : (putInst s b).lastColour = s.lastColour := rfl
@[simp] theorem putInst_blocks (s : State) (b : BInst) : (putInst s b).blocks = s.blocks := rfl
@[simp] theorem putInst_ptoks (s : State) (b : BInst) : (putInst s b).ptoks = s.ptoks := rfl
@[simp] theorem putInst_flights (s : State) (b : BInst) : (putInst s b).flights = s.flights := rfl
@[simp] theorem putInst_outq (s : State) (b : BInst) : (putInst s b).outq = s.outq := rfl
@[simp] theorem putInst_srcq (s : State) (b : BInst) : (putInst s b).srcq = s.srcq := rfl
@[simp] theorem putInst_credRet (s : State) (b : BInst) : (putInst s b).credRet = s.credRet := rfl
@[simp] theorem putInst_excFlight (s : State) (b : BInst) : (putInst s b).excFlight = s.excFlight := rfl
@[simp] theorem putInst_timers (s : State) (b : BInst) : (putInst s b).timers = s.timers := rfl
@[simp] theorem putInst_hregs (s : State) (b : BInst) : (putInst s b).hregs = s.hregs := rfl
@[simp] theorem putInst_counters (s : State) (b : BInst) : (putInst s b).counters = s.counters := rfl
@[simp] theorem putInst_groups (s : State) (b : BInst) : (putInst s b).groups = s.groups := rfl
@[simp] theorem putInst_planes (s : State) (b : BInst) : (putInst s b).planes = s.planes := rfl
@[simp] theorem putInst_fmtReach (s : State) (b : BInst) : (putInst s b).fmtReach = s.fmtReach := rfl
@[simp] theorem putInst_fmtTravel (s : State) (b : BInst) : (putInst s b).fmtTravel = s.fmtTravel := rfl
@[simp] theorem putInst_fmtOwn (s : State) (b : BInst) : (putInst s b).fmtOwn = s.fmtOwn := rfl
@[simp] theorem putInst_turns (s : State) (b : BInst) : (putInst s b).turns = s.turns := rfl
@[simp] theorem putInst_freed (s : State) (b : BInst) : (putInst s b).freed = s.freed := rfl
@[simp] theorem putInst_mem (s : State) (b : BInst) : (putInst s b).mem = s.mem := rfl
@[simp] theorem putInst_wtype (s : State) (b : BInst) : (putInst s b).wtype = s.wtype := rfl
@[simp] theorem putInst_lines (s : State) (b : BInst) : (putInst s b).lines = s.lines := rfl
@[simp] theorem putInst_tlb (s : State) (b : BInst) : (putInst s b).tlb = s.tlb := rfl
@[simp] theorem putInst_walks (s : State) (b : BInst) : (putInst s b).walks = s.walks := rfl
@[simp] theorem putInst_bank (s : State) (b : BInst) : (putInst s b).bank = s.bank := rfl
@[simp] theorem putInst_dome (s : State) (b : BInst) : (putInst s b).dome = s.dome := rfl
@[simp] theorem putInst_ops (s : State) (b : BInst) : (putInst s b).ops = s.ops := rfl
@[simp] theorem putInst_nextOp (s : State) (b : BInst) : (putInst s b).nextOp = s.nextOp := rfl
@[simp] theorem putInst_epochs (s : State) (b : BInst) : (putInst s b).epochs = s.epochs := rfl
@[simp] theorem putInst_notices (s : State) (b : BInst) : (putInst s b).notices = s.notices := rfl
@[simp] theorem putInst_evqs (s : State) (b : BInst) : (putInst s b).evqs = s.evqs := rfl
@[simp] theorem putInst_waiters (s : State) (b : BInst) : (putInst s b).waiters = s.waiters := rfl
@[simp] theorem putInst_peers (s : State) (b : BInst) : (putInst s b).peers = s.peers := rfl
@[simp] theorem putInst_cgtab (s : State) (b : BInst) : (putInst s b).cgtab = s.cgtab := rfl
@[simp] theorem putInst_ctxs (s : State) (b : BInst) : (putInst s b).ctxs = s.ctxs := rfl
@[simp] theorem putInst_worlds (s : State) (b : BInst) : (putInst s b).worlds = s.worlds := rfl
@[simp] theorem putInst_cellOwner (s : State) (b : BInst) : (putInst s b).cellOwner = s.cellOwner := rfl
@[simp] theorem putInst_granuleOwner (s : State) (b : BInst) : (putInst s b).granuleOwner = s.granuleOwner := rfl
@[simp] theorem putInst_outputs (s : State) (b : BInst) : (putInst s b).outputs = s.outputs := rfl
@[simp] theorem putInst_lanterns (s : State) (b : BInst) : (putInst s b).lanterns = s.lanterns := rfl
@[simp] theorem putInst_lstreams (s : State) (b : BInst) : (putInst s b).lstreams = s.lstreams := rfl
@[simp] theorem putInst_logit (s : State) (b : BInst) : (putInst s b).logit = s.logit := rfl
@[simp] theorem putInst_dev (s : State) (b : BInst) : (putInst s b).dev = s.dev := rfl
@[simp] theorem putInst_images (s : State) (b : BInst) : (putInst s b).images = s.images := rfl

/-! ### putInv -/

@[simp] theorem putInv_now (s : State) (v : Inv) : (putInv s v).now = s.now := rfl
@[simp] theorem putInv_agenda (s : State) (v : Inv) : (putInv s v).agenda = s.agenda := rfl
@[simp] theorem putInv_focus (s : State) (v : Inv) : (putInv s v).focus = s.focus := rfl
@[simp] theorem putInv_free (s : State) (v : Inv) : (putInv s v).free = s.free := rfl
@[simp] theorem putInv_insts (s : State) (v : Inv) : (putInv s v).insts = s.insts := rfl
@[simp] theorem putInv_invs (s : State) (v : Inv) : (putInv s v).invs = updFirst (fun y => y.id == v.id) (fun _ => v) s.invs := rfl
@[simp] theorem putInv_nextInv (s : State) (v : Inv) : (putInv s v).nextInv = s.nextInv := rfl
@[simp] theorem putInv_seqs (s : State) (v : Inv) : (putInv s v).seqs = s.seqs := rfl
@[simp] theorem putInv_firings (s : State) (v : Inv) : (putInv s v).firings = s.firings := rfl
@[simp] theorem putInv_nests (s : State) (v : Inv) : (putInv s v).nests = s.nests := rfl
@[simp] theorem putInv_goWaits (s : State) (v : Inv) : (putInv s v).goWaits = s.goWaits := rfl
@[simp] theorem putInv_ctls (s : State) (v : Inv) : (putInv s v).ctls = s.ctls := rfl
@[simp] theorem putInv_monitors (s : State) (v : Inv) : (putInv s v).monitors = s.monitors := rfl
@[simp] theorem putInv_lastColour (s : State) (v : Inv) : (putInv s v).lastColour = s.lastColour := rfl
@[simp] theorem putInv_blocks (s : State) (v : Inv) : (putInv s v).blocks = s.blocks := rfl
@[simp] theorem putInv_ptoks (s : State) (v : Inv) : (putInv s v).ptoks = s.ptoks := rfl
@[simp] theorem putInv_flights (s : State) (v : Inv) : (putInv s v).flights = s.flights := rfl
@[simp] theorem putInv_outq (s : State) (v : Inv) : (putInv s v).outq = s.outq := rfl
@[simp] theorem putInv_srcq (s : State) (v : Inv) : (putInv s v).srcq = s.srcq := rfl
@[simp] theorem putInv_credRet (s : State) (v : Inv) : (putInv s v).credRet = s.credRet := rfl
@[simp] theorem putInv_excFlight (s : State) (v : Inv) : (putInv s v).excFlight = s.excFlight := rfl
@[simp] theorem putInv_timers (s : State) (v : Inv) : (putInv s v).timers = s.timers := rfl
@[simp] theorem putInv_hregs (s : State) (v : Inv) : (putInv s v).hregs = s.hregs := rfl
@[simp] theorem putInv_counters (s : State) (v : Inv) : (putInv s v).counters = s.counters := rfl
@[simp] theorem putInv_groups (s : State) (v : Inv) : (putInv s v).groups = s.groups := rfl
@[simp] theorem putInv_planes (s : State) (v : Inv) : (putInv s v).planes = s.planes := rfl
@[simp] theorem putInv_fmtReach (s : State) (v : Inv) : (putInv s v).fmtReach = s.fmtReach := rfl
@[simp] theorem putInv_fmtTravel (s : State) (v : Inv) : (putInv s v).fmtTravel = s.fmtTravel := rfl
@[simp] theorem putInv_fmtOwn (s : State) (v : Inv) : (putInv s v).fmtOwn = s.fmtOwn := rfl
@[simp] theorem putInv_turns (s : State) (v : Inv) : (putInv s v).turns = s.turns := rfl
@[simp] theorem putInv_freed (s : State) (v : Inv) : (putInv s v).freed = s.freed := rfl
@[simp] theorem putInv_mem (s : State) (v : Inv) : (putInv s v).mem = s.mem := rfl
@[simp] theorem putInv_wtype (s : State) (v : Inv) : (putInv s v).wtype = s.wtype := rfl
@[simp] theorem putInv_lines (s : State) (v : Inv) : (putInv s v).lines = s.lines := rfl
@[simp] theorem putInv_tlb (s : State) (v : Inv) : (putInv s v).tlb = s.tlb := rfl
@[simp] theorem putInv_walks (s : State) (v : Inv) : (putInv s v).walks = s.walks := rfl
@[simp] theorem putInv_bank (s : State) (v : Inv) : (putInv s v).bank = s.bank := rfl
@[simp] theorem putInv_dome (s : State) (v : Inv) : (putInv s v).dome = s.dome := rfl
@[simp] theorem putInv_ops (s : State) (v : Inv) : (putInv s v).ops = s.ops := rfl
@[simp] theorem putInv_nextOp (s : State) (v : Inv) : (putInv s v).nextOp = s.nextOp := rfl
@[simp] theorem putInv_epochs (s : State) (v : Inv) : (putInv s v).epochs = s.epochs := rfl
@[simp] theorem putInv_notices (s : State) (v : Inv) : (putInv s v).notices = s.notices := rfl
@[simp] theorem putInv_evqs (s : State) (v : Inv) : (putInv s v).evqs = s.evqs := rfl
@[simp] theorem putInv_waiters (s : State) (v : Inv) : (putInv s v).waiters = s.waiters := rfl
@[simp] theorem putInv_peers (s : State) (v : Inv) : (putInv s v).peers = s.peers := rfl
@[simp] theorem putInv_cgtab (s : State) (v : Inv) : (putInv s v).cgtab = s.cgtab := rfl
@[simp] theorem putInv_ctxs (s : State) (v : Inv) : (putInv s v).ctxs = s.ctxs := rfl
@[simp] theorem putInv_worlds (s : State) (v : Inv) : (putInv s v).worlds = s.worlds := rfl
@[simp] theorem putInv_cellOwner (s : State) (v : Inv) : (putInv s v).cellOwner = s.cellOwner := rfl
@[simp] theorem putInv_granuleOwner (s : State) (v : Inv) : (putInv s v).granuleOwner = s.granuleOwner := rfl
@[simp] theorem putInv_outputs (s : State) (v : Inv) : (putInv s v).outputs = s.outputs := rfl
@[simp] theorem putInv_lanterns (s : State) (v : Inv) : (putInv s v).lanterns = s.lanterns := rfl
@[simp] theorem putInv_lstreams (s : State) (v : Inv) : (putInv s v).lstreams = s.lstreams := rfl
@[simp] theorem putInv_logit (s : State) (v : Inv) : (putInv s v).logit = s.logit := rfl
@[simp] theorem putInv_dev (s : State) (v : Inv) : (putInv s v).dev = s.dev := rfl
@[simp] theorem putInv_images (s : State) (v : Inv) : (putInv s v).images = s.images := rfl

/-! ### putOp -/

@[simp] theorem putOp_now (s : State) (o : EngOp) : (putOp s o).now = s.now := rfl
@[simp] theorem putOp_agenda (s : State) (o : EngOp) : (putOp s o).agenda = s.agenda := rfl
@[simp] theorem putOp_focus (s : State) (o : EngOp) : (putOp s o).focus = s.focus := rfl
@[simp] theorem putOp_free (s : State) (o : EngOp) : (putOp s o).free = s.free := rfl
@[simp] theorem putOp_insts (s : State) (o : EngOp) : (putOp s o).insts = s.insts := rfl
@[simp] theorem putOp_invs (s : State) (o : EngOp) : (putOp s o).invs = s.invs := rfl
@[simp] theorem putOp_nextInv (s : State) (o : EngOp) : (putOp s o).nextInv = s.nextInv := rfl
@[simp] theorem putOp_seqs (s : State) (o : EngOp) : (putOp s o).seqs = s.seqs := rfl
@[simp] theorem putOp_firings (s : State) (o : EngOp) : (putOp s o).firings = s.firings := rfl
@[simp] theorem putOp_nests (s : State) (o : EngOp) : (putOp s o).nests = s.nests := rfl
@[simp] theorem putOp_goWaits (s : State) (o : EngOp) : (putOp s o).goWaits = s.goWaits := rfl
@[simp] theorem putOp_ctls (s : State) (o : EngOp) : (putOp s o).ctls = s.ctls := rfl
@[simp] theorem putOp_monitors (s : State) (o : EngOp) : (putOp s o).monitors = s.monitors := rfl
@[simp] theorem putOp_lastColour (s : State) (o : EngOp) : (putOp s o).lastColour = s.lastColour := rfl
@[simp] theorem putOp_blocks (s : State) (o : EngOp) : (putOp s o).blocks = s.blocks := rfl
@[simp] theorem putOp_ptoks (s : State) (o : EngOp) : (putOp s o).ptoks = s.ptoks := rfl
@[simp] theorem putOp_flights (s : State) (o : EngOp) : (putOp s o).flights = s.flights := rfl
@[simp] theorem putOp_outq (s : State) (o : EngOp) : (putOp s o).outq = s.outq := rfl
@[simp] theorem putOp_srcq (s : State) (o : EngOp) : (putOp s o).srcq = s.srcq := rfl
@[simp] theorem putOp_credRet (s : State) (o : EngOp) : (putOp s o).credRet = s.credRet := rfl
@[simp] theorem putOp_excFlight (s : State) (o : EngOp) : (putOp s o).excFlight = s.excFlight := rfl
@[simp] theorem putOp_timers (s : State) (o : EngOp) : (putOp s o).timers = s.timers := rfl
@[simp] theorem putOp_hregs (s : State) (o : EngOp) : (putOp s o).hregs = s.hregs := rfl
@[simp] theorem putOp_counters (s : State) (o : EngOp) : (putOp s o).counters = s.counters := rfl
@[simp] theorem putOp_groups (s : State) (o : EngOp) : (putOp s o).groups = s.groups := rfl
@[simp] theorem putOp_planes (s : State) (o : EngOp) : (putOp s o).planes = s.planes := rfl
@[simp] theorem putOp_fmtReach (s : State) (o : EngOp) : (putOp s o).fmtReach = s.fmtReach := rfl
@[simp] theorem putOp_fmtTravel (s : State) (o : EngOp) : (putOp s o).fmtTravel = s.fmtTravel := rfl
@[simp] theorem putOp_fmtOwn (s : State) (o : EngOp) : (putOp s o).fmtOwn = s.fmtOwn := rfl
@[simp] theorem putOp_turns (s : State) (o : EngOp) : (putOp s o).turns = s.turns := rfl
@[simp] theorem putOp_freed (s : State) (o : EngOp) : (putOp s o).freed = s.freed := rfl
@[simp] theorem putOp_mem (s : State) (o : EngOp) : (putOp s o).mem = s.mem := rfl
@[simp] theorem putOp_wtype (s : State) (o : EngOp) : (putOp s o).wtype = s.wtype := rfl
@[simp] theorem putOp_lines (s : State) (o : EngOp) : (putOp s o).lines = s.lines := rfl
@[simp] theorem putOp_tlb (s : State) (o : EngOp) : (putOp s o).tlb = s.tlb := rfl
@[simp] theorem putOp_walks (s : State) (o : EngOp) : (putOp s o).walks = s.walks := rfl
@[simp] theorem putOp_bank (s : State) (o : EngOp) : (putOp s o).bank = s.bank := rfl
@[simp] theorem putOp_dome (s : State) (o : EngOp) : (putOp s o).dome = s.dome := rfl
@[simp] theorem putOp_ops (s : State) (o : EngOp) : (putOp s o).ops = updFirst (fun y => y.id == o.id) (fun _ => o) s.ops := rfl
@[simp] theorem putOp_nextOp (s : State) (o : EngOp) : (putOp s o).nextOp = s.nextOp := rfl
@[simp] theorem putOp_epochs (s : State) (o : EngOp) : (putOp s o).epochs = s.epochs := rfl
@[simp] theorem putOp_notices (s : State) (o : EngOp) : (putOp s o).notices = s.notices := rfl
@[simp] theorem putOp_evqs (s : State) (o : EngOp) : (putOp s o).evqs = s.evqs := rfl
@[simp] theorem putOp_waiters (s : State) (o : EngOp) : (putOp s o).waiters = s.waiters := rfl
@[simp] theorem putOp_peers (s : State) (o : EngOp) : (putOp s o).peers = s.peers := rfl
@[simp] theorem putOp_cgtab (s : State) (o : EngOp) : (putOp s o).cgtab = s.cgtab := rfl
@[simp] theorem putOp_ctxs (s : State) (o : EngOp) : (putOp s o).ctxs = s.ctxs := rfl
@[simp] theorem putOp_worlds (s : State) (o : EngOp) : (putOp s o).worlds = s.worlds := rfl
@[simp] theorem putOp_cellOwner (s : State) (o : EngOp) : (putOp s o).cellOwner = s.cellOwner := rfl
@[simp] theorem putOp_granuleOwner (s : State) (o : EngOp) : (putOp s o).granuleOwner = s.granuleOwner := rfl
@[simp] theorem putOp_outputs (s : State) (o : EngOp) : (putOp s o).outputs = s.outputs := rfl
@[simp] theorem putOp_lanterns (s : State) (o : EngOp) : (putOp s o).lanterns = s.lanterns := rfl
@[simp] theorem putOp_lstreams (s : State) (o : EngOp) : (putOp s o).lstreams = s.lstreams := rfl
@[simp] theorem putOp_logit (s : State) (o : EngOp) : (putOp s o).logit = s.logit := rfl
@[simp] theorem putOp_dev (s : State) (o : EngOp) : (putOp s o).dev = s.dev := rfl
@[simp] theorem putOp_images (s : State) (o : EngOp) : (putOp s o).images = s.images := rfl

/-! ### endOp -/

@[simp] theorem endOp_now (s : State) (o : EngOp) : (endOp s o).now = s.now := rfl
@[simp] theorem endOp_agenda (s : State) (o : EngOp) : (endOp s o).agenda = s.agenda := rfl
@[simp] theorem endOp_focus (s : State) (o : EngOp) : (endOp s o).focus = s.focus := rfl
@[simp] theorem endOp_free (s : State) (o : EngOp) : (endOp s o).free = s.free := rfl
@[simp] theorem endOp_insts (s : State) (o : EngOp) : (endOp s o).insts = s.insts := rfl
@[simp] theorem endOp_invs (s : State) (o : EngOp) : (endOp s o).invs = s.invs := rfl
@[simp] theorem endOp_nextInv (s : State) (o : EngOp) : (endOp s o).nextInv = s.nextInv := rfl
@[simp] theorem endOp_seqs (s : State) (o : EngOp) : (endOp s o).seqs = s.seqs := rfl
@[simp] theorem endOp_firings (s : State) (o : EngOp) : (endOp s o).firings = s.firings := rfl
@[simp] theorem endOp_nests (s : State) (o : EngOp) : (endOp s o).nests = s.nests := rfl
@[simp] theorem endOp_goWaits (s : State) (o : EngOp) : (endOp s o).goWaits = s.goWaits := rfl
@[simp] theorem endOp_ctls (s : State) (o : EngOp) : (endOp s o).ctls = s.ctls := rfl
@[simp] theorem endOp_monitors (s : State) (o : EngOp) : (endOp s o).monitors = s.monitors := rfl
@[simp] theorem endOp_lastColour (s : State) (o : EngOp) : (endOp s o).lastColour = s.lastColour := rfl
@[simp] theorem endOp_blocks (s : State) (o : EngOp) : (endOp s o).blocks = s.blocks := rfl
@[simp] theorem endOp_ptoks (s : State) (o : EngOp) : (endOp s o).ptoks = s.ptoks := rfl
@[simp] theorem endOp_flights (s : State) (o : EngOp) : (endOp s o).flights = s.flights := rfl
@[simp] theorem endOp_outq (s : State) (o : EngOp) : (endOp s o).outq = s.outq := rfl
@[simp] theorem endOp_srcq (s : State) (o : EngOp) : (endOp s o).srcq = s.srcq := rfl
@[simp] theorem endOp_credRet (s : State) (o : EngOp) : (endOp s o).credRet = s.credRet := rfl
@[simp] theorem endOp_excFlight (s : State) (o : EngOp) : (endOp s o).excFlight = s.excFlight := rfl
@[simp] theorem endOp_timers (s : State) (o : EngOp) : (endOp s o).timers = s.timers := rfl
@[simp] theorem endOp_hregs (s : State) (o : EngOp) : (endOp s o).hregs = s.hregs := rfl
@[simp] theorem endOp_counters (s : State) (o : EngOp) : (endOp s o).counters = s.counters := rfl
@[simp] theorem endOp_groups (s : State) (o : EngOp) : (endOp s o).groups = s.groups := rfl
@[simp] theorem endOp_planes (s : State) (o : EngOp) : (endOp s o).planes = s.planes := rfl
@[simp] theorem endOp_fmtReach (s : State) (o : EngOp) : (endOp s o).fmtReach = s.fmtReach := rfl
@[simp] theorem endOp_fmtTravel (s : State) (o : EngOp) : (endOp s o).fmtTravel = s.fmtTravel := rfl
@[simp] theorem endOp_fmtOwn (s : State) (o : EngOp) : (endOp s o).fmtOwn = s.fmtOwn := rfl
@[simp] theorem endOp_turns (s : State) (o : EngOp) : (endOp s o).turns = s.turns := rfl
@[simp] theorem endOp_freed (s : State) (o : EngOp) : (endOp s o).freed = s.freed := rfl
@[simp] theorem endOp_mem (s : State) (o : EngOp) : (endOp s o).mem = s.mem := rfl
@[simp] theorem endOp_wtype (s : State) (o : EngOp) : (endOp s o).wtype = s.wtype := rfl
@[simp] theorem endOp_lines (s : State) (o : EngOp) : (endOp s o).lines = s.lines := rfl
@[simp] theorem endOp_tlb (s : State) (o : EngOp) : (endOp s o).tlb = s.tlb := rfl
@[simp] theorem endOp_walks (s : State) (o : EngOp) : (endOp s o).walks = s.walks := rfl
@[simp] theorem endOp_bank (s : State) (o : EngOp) : (endOp s o).bank = s.bank := rfl
@[simp] theorem endOp_dome (s : State) (o : EngOp) : (endOp s o).dome = s.dome := rfl
@[simp] theorem endOp_ops (s : State) (o : EngOp) : (endOp s o).ops = s.ops.filter (fun y => y.id != o.id) := rfl
@[simp] theorem endOp_nextOp (s : State) (o : EngOp) : (endOp s o).nextOp = s.nextOp := rfl
@[simp] theorem endOp_epochs (s : State) (o : EngOp) : (endOp s o).epochs = s.epochs := rfl
@[simp] theorem endOp_notices (s : State) (o : EngOp) : (endOp s o).notices = s.notices := rfl
@[simp] theorem endOp_evqs (s : State) (o : EngOp) : (endOp s o).evqs = s.evqs := rfl
@[simp] theorem endOp_waiters (s : State) (o : EngOp) : (endOp s o).waiters = s.waiters := rfl
@[simp] theorem endOp_peers (s : State) (o : EngOp) : (endOp s o).peers = s.peers := rfl
@[simp] theorem endOp_cgtab (s : State) (o : EngOp) : (endOp s o).cgtab = s.cgtab := rfl
@[simp] theorem endOp_ctxs (s : State) (o : EngOp) : (endOp s o).ctxs = s.ctxs := rfl
@[simp] theorem endOp_worlds (s : State) (o : EngOp) : (endOp s o).worlds = s.worlds := rfl
@[simp] theorem endOp_cellOwner (s : State) (o : EngOp) : (endOp s o).cellOwner = s.cellOwner := rfl
@[simp] theorem endOp_granuleOwner (s : State) (o : EngOp) : (endOp s o).granuleOwner = s.granuleOwner := rfl
@[simp] theorem endOp_outputs (s : State) (o : EngOp) : (endOp s o).outputs = s.outputs := rfl
@[simp] theorem endOp_lanterns (s : State) (o : EngOp) : (endOp s o).lanterns = s.lanterns := rfl
@[simp] theorem endOp_lstreams (s : State) (o : EngOp) : (endOp s o).lstreams = s.lstreams := rfl
@[simp] theorem endOp_logit (s : State) (o : EngOp) : (endOp s o).logit = s.logit := rfl
@[simp] theorem endOp_dev (s : State) (o : EngOp) : (endOp s o).dev = s.dev := rfl
@[simp] theorem endOp_images (s : State) (o : EngOp) : (endOp s o).images = s.images := rfl

/-! ### setReach -/

@[simp] theorem setReach_now (s : State) (w : BitVec 4) (x : Context) (cell g : Nat) : (setReach s w x cell g).now = s.now := rfl
@[simp] theorem setReach_agenda (s : State) (w : BitVec 4) (x : Context) (cell g : Nat) : (setReach s w x cell g).agenda = s.agenda := rfl
@[simp] theorem setReach_focus (s : State) (w : BitVec 4) (x : Context) (cell g : Nat) : (setReach s w x cell g).focus = s.focus := rfl
@[simp] theorem setReach_free (s : State) (w : BitVec 4) (x : Context) (cell g : Nat) : (setReach s w x cell g).free = s.free := rfl
@[simp] theorem setReach_insts (s : State) (w : BitVec 4) (x : Context) (cell g : Nat) : (setReach s w x cell g).insts = s.insts := rfl
@[simp] theorem setReach_invs (s : State) (w : BitVec 4) (x : Context) (cell g : Nat) : (setReach s w x cell g).invs = s.invs := rfl
@[simp] theorem setReach_nextInv (s : State) (w : BitVec 4) (x : Context) (cell g : Nat) : (setReach s w x cell g).nextInv = s.nextInv := rfl
@[simp] theorem setReach_seqs (s : State) (w : BitVec 4) (x : Context) (cell g : Nat) : (setReach s w x cell g).seqs = s.seqs := rfl
@[simp] theorem setReach_firings (s : State) (w : BitVec 4) (x : Context) (cell g : Nat) : (setReach s w x cell g).firings = s.firings := rfl
@[simp] theorem setReach_nests (s : State) (w : BitVec 4) (x : Context) (cell g : Nat) : (setReach s w x cell g).nests = s.nests := rfl
@[simp] theorem setReach_goWaits (s : State) (w : BitVec 4) (x : Context) (cell g : Nat) : (setReach s w x cell g).goWaits = s.goWaits := rfl
@[simp] theorem setReach_ctls (s : State) (w : BitVec 4) (x : Context) (cell g : Nat) : (setReach s w x cell g).ctls = s.ctls := rfl
@[simp] theorem setReach_monitors (s : State) (w : BitVec 4) (x : Context) (cell g : Nat) : (setReach s w x cell g).monitors = s.monitors := rfl
@[simp] theorem setReach_lastColour (s : State) (w : BitVec 4) (x : Context) (cell g : Nat) : (setReach s w x cell g).lastColour = s.lastColour := rfl
@[simp] theorem setReach_blocks (s : State) (w : BitVec 4) (x : Context) (cell g : Nat) : (setReach s w x cell g).blocks = s.blocks := rfl
@[simp] theorem setReach_ptoks (s : State) (w : BitVec 4) (x : Context) (cell g : Nat) : (setReach s w x cell g).ptoks = s.ptoks := rfl
@[simp] theorem setReach_flights (s : State) (w : BitVec 4) (x : Context) (cell g : Nat) : (setReach s w x cell g).flights = s.flights := rfl
@[simp] theorem setReach_outq (s : State) (w : BitVec 4) (x : Context) (cell g : Nat) : (setReach s w x cell g).outq = s.outq := rfl
@[simp] theorem setReach_srcq (s : State) (w : BitVec 4) (x : Context) (cell g : Nat) : (setReach s w x cell g).srcq = s.srcq := rfl
@[simp] theorem setReach_credRet (s : State) (w : BitVec 4) (x : Context) (cell g : Nat) : (setReach s w x cell g).credRet = s.credRet := rfl
@[simp] theorem setReach_excFlight (s : State) (w : BitVec 4) (x : Context) (cell g : Nat) : (setReach s w x cell g).excFlight = s.excFlight := rfl
@[simp] theorem setReach_timers (s : State) (w : BitVec 4) (x : Context) (cell g : Nat) : (setReach s w x cell g).timers = s.timers := rfl
@[simp] theorem setReach_hregs (s : State) (w : BitVec 4) (x : Context) (cell g : Nat) : (setReach s w x cell g).hregs = s.hregs := rfl
@[simp] theorem setReach_counters (s : State) (w : BitVec 4) (x : Context) (cell g : Nat) : (setReach s w x cell g).counters = s.counters := rfl
@[simp] theorem setReach_groups (s : State) (w : BitVec 4) (x : Context) (cell g : Nat) : (setReach s w x cell g).groups = s.groups := rfl
@[simp] theorem setReach_planes (s : State) (w : BitVec 4) (x : Context) (cell g : Nat) : (setReach s w x cell g).planes = s.planes := rfl
@[simp] theorem setReach_fmtReach (s : State) (w : BitVec 4) (x : Context) (cell g : Nat) : (setReach s w x cell g).fmtReach = mput 0 s.fmtReach (reachKey w x cell) g := rfl
@[simp] theorem setReach_fmtTravel (s : State) (w : BitVec 4) (x : Context) (cell g : Nat) : (setReach s w x cell g).fmtTravel = s.fmtTravel := rfl
@[simp] theorem setReach_fmtOwn (s : State) (w : BitVec 4) (x : Context) (cell g : Nat) : (setReach s w x cell g).fmtOwn = s.fmtOwn := rfl
@[simp] theorem setReach_turns (s : State) (w : BitVec 4) (x : Context) (cell g : Nat) : (setReach s w x cell g).turns = s.turns := rfl
@[simp] theorem setReach_freed (s : State) (w : BitVec 4) (x : Context) (cell g : Nat) : (setReach s w x cell g).freed = s.freed := rfl
@[simp] theorem setReach_mem (s : State) (w : BitVec 4) (x : Context) (cell g : Nat) : (setReach s w x cell g).mem = s.mem := rfl
@[simp] theorem setReach_wtype (s : State) (w : BitVec 4) (x : Context) (cell g : Nat) : (setReach s w x cell g).wtype = s.wtype := rfl
@[simp] theorem setReach_lines (s : State) (w : BitVec 4) (x : Context) (cell g : Nat) : (setReach s w x cell g).lines = s.lines := rfl
@[simp] theorem setReach_tlb (s : State) (w : BitVec 4) (x : Context) (cell g : Nat) : (setReach s w x cell g).tlb = s.tlb := rfl
@[simp] theorem setReach_walks (s : State) (w : BitVec 4) (x : Context) (cell g : Nat) : (setReach s w x cell g).walks = s.walks := rfl
@[simp] theorem setReach_bank (s : State) (w : BitVec 4) (x : Context) (cell g : Nat) : (setReach s w x cell g).bank = s.bank := rfl
@[simp] theorem setReach_dome (s : State) (w : BitVec 4) (x : Context) (cell g : Nat) : (setReach s w x cell g).dome = s.dome := rfl
@[simp] theorem setReach_ops (s : State) (w : BitVec 4) (x : Context) (cell g : Nat) : (setReach s w x cell g).ops = s.ops := rfl
@[simp] theorem setReach_nextOp (s : State) (w : BitVec 4) (x : Context) (cell g : Nat) : (setReach s w x cell g).nextOp = s.nextOp := rfl
@[simp] theorem setReach_epochs (s : State) (w : BitVec 4) (x : Context) (cell g : Nat) : (setReach s w x cell g).epochs = s.epochs := rfl
@[simp] theorem setReach_notices (s : State) (w : BitVec 4) (x : Context) (cell g : Nat) : (setReach s w x cell g).notices = s.notices := rfl
@[simp] theorem setReach_evqs (s : State) (w : BitVec 4) (x : Context) (cell g : Nat) : (setReach s w x cell g).evqs = s.evqs := rfl
@[simp] theorem setReach_waiters (s : State) (w : BitVec 4) (x : Context) (cell g : Nat) : (setReach s w x cell g).waiters = s.waiters := rfl
@[simp] theorem setReach_peers (s : State) (w : BitVec 4) (x : Context) (cell g : Nat) : (setReach s w x cell g).peers = s.peers := rfl
@[simp] theorem setReach_cgtab (s : State) (w : BitVec 4) (x : Context) (cell g : Nat) : (setReach s w x cell g).cgtab = s.cgtab := rfl
@[simp] theorem setReach_ctxs (s : State) (w : BitVec 4) (x : Context) (cell g : Nat) : (setReach s w x cell g).ctxs = s.ctxs := rfl
@[simp] theorem setReach_worlds (s : State) (w : BitVec 4) (x : Context) (cell g : Nat) : (setReach s w x cell g).worlds = s.worlds := rfl
@[simp] theorem setReach_cellOwner (s : State) (w : BitVec 4) (x : Context) (cell g : Nat) : (setReach s w x cell g).cellOwner = s.cellOwner := rfl
@[simp] theorem setReach_granuleOwner (s : State) (w : BitVec 4) (x : Context) (cell g : Nat) : (setReach s w x cell g).granuleOwner = s.granuleOwner := rfl
@[simp] theorem setReach_outputs (s : State) (w : BitVec 4) (x : Context) (cell g : Nat) : (setReach s w x cell g).outputs = s.outputs := rfl
@[simp] theorem setReach_lanterns (s : State) (w : BitVec 4) (x : Context) (cell g : Nat) : (setReach s w x cell g).lanterns = s.lanterns := rfl
@[simp] theorem setReach_lstreams (s : State) (w : BitVec 4) (x : Context) (cell g : Nat) : (setReach s w x cell g).lstreams = s.lstreams := rfl
@[simp] theorem setReach_logit (s : State) (w : BitVec 4) (x : Context) (cell g : Nat) : (setReach s w x cell g).logit = s.logit := rfl
@[simp] theorem setReach_dev (s : State) (w : BitVec 4) (x : Context) (cell g : Nat) : (setReach s w x cell g).dev = s.dev := rfl
@[simp] theorem setReach_images (s : State) (w : BitVec 4) (x : Context) (cell g : Nat) : (setReach s w x cell g).images = s.images := rfl

/-! ### setType -/

@[simp] theorem setType_now (s : State) (pa k : Nat) : (setType s pa k).now = s.now := rfl
@[simp] theorem setType_agenda (s : State) (pa k : Nat) : (setType s pa k).agenda = s.agenda := rfl
@[simp] theorem setType_focus (s : State) (pa k : Nat) : (setType s pa k).focus = s.focus := rfl
@[simp] theorem setType_free (s : State) (pa k : Nat) : (setType s pa k).free = s.free := rfl
@[simp] theorem setType_insts (s : State) (pa k : Nat) : (setType s pa k).insts = s.insts := rfl
@[simp] theorem setType_invs (s : State) (pa k : Nat) : (setType s pa k).invs = s.invs := rfl
@[simp] theorem setType_nextInv (s : State) (pa k : Nat) : (setType s pa k).nextInv = s.nextInv := rfl
@[simp] theorem setType_seqs (s : State) (pa k : Nat) : (setType s pa k).seqs = s.seqs := rfl
@[simp] theorem setType_firings (s : State) (pa k : Nat) : (setType s pa k).firings = s.firings := rfl
@[simp] theorem setType_nests (s : State) (pa k : Nat) : (setType s pa k).nests = s.nests := rfl
@[simp] theorem setType_goWaits (s : State) (pa k : Nat) : (setType s pa k).goWaits = s.goWaits := rfl
@[simp] theorem setType_ctls (s : State) (pa k : Nat) : (setType s pa k).ctls = s.ctls := rfl
@[simp] theorem setType_monitors (s : State) (pa k : Nat) : (setType s pa k).monitors = s.monitors := rfl
@[simp] theorem setType_lastColour (s : State) (pa k : Nat) : (setType s pa k).lastColour = s.lastColour := rfl
@[simp] theorem setType_blocks (s : State) (pa k : Nat) : (setType s pa k).blocks = s.blocks := rfl
@[simp] theorem setType_ptoks (s : State) (pa k : Nat) : (setType s pa k).ptoks = s.ptoks := rfl
@[simp] theorem setType_flights (s : State) (pa k : Nat) : (setType s pa k).flights = s.flights := rfl
@[simp] theorem setType_outq (s : State) (pa k : Nat) : (setType s pa k).outq = s.outq := rfl
@[simp] theorem setType_srcq (s : State) (pa k : Nat) : (setType s pa k).srcq = s.srcq := rfl
@[simp] theorem setType_credRet (s : State) (pa k : Nat) : (setType s pa k).credRet = s.credRet := rfl
@[simp] theorem setType_excFlight (s : State) (pa k : Nat) : (setType s pa k).excFlight = s.excFlight := rfl
@[simp] theorem setType_timers (s : State) (pa k : Nat) : (setType s pa k).timers = s.timers := rfl
@[simp] theorem setType_hregs (s : State) (pa k : Nat) : (setType s pa k).hregs = s.hregs := rfl
@[simp] theorem setType_counters (s : State) (pa k : Nat) : (setType s pa k).counters = s.counters := rfl
@[simp] theorem setType_groups (s : State) (pa k : Nat) : (setType s pa k).groups = s.groups := rfl
@[simp] theorem setType_planes (s : State) (pa k : Nat) : (setType s pa k).planes = s.planes := rfl
@[simp] theorem setType_fmtReach (s : State) (pa k : Nat) : (setType s pa k).fmtReach = s.fmtReach := rfl
@[simp] theorem setType_fmtTravel (s : State) (pa k : Nat) : (setType s pa k).fmtTravel = s.fmtTravel := rfl
@[simp] theorem setType_fmtOwn (s : State) (pa k : Nat) : (setType s pa k).fmtOwn = s.fmtOwn := rfl
@[simp] theorem setType_turns (s : State) (pa k : Nat) : (setType s pa k).turns = s.turns := rfl
@[simp] theorem setType_freed (s : State) (pa k : Nat) : (setType s pa k).freed = s.freed := rfl
@[simp] theorem setType_mem (s : State) (pa k : Nat) : (setType s pa k).mem = s.mem := rfl
@[simp] theorem setType_wtype (s : State) (pa k : Nat) : (setType s pa k).wtype = mput 0 s.wtype (pa / 8) k := rfl
@[simp] theorem setType_lines (s : State) (pa k : Nat) : (setType s pa k).lines = s.lines := rfl
@[simp] theorem setType_tlb (s : State) (pa k : Nat) : (setType s pa k).tlb = s.tlb := rfl
@[simp] theorem setType_walks (s : State) (pa k : Nat) : (setType s pa k).walks = s.walks := rfl
@[simp] theorem setType_bank (s : State) (pa k : Nat) : (setType s pa k).bank = s.bank := rfl
@[simp] theorem setType_dome (s : State) (pa k : Nat) : (setType s pa k).dome = s.dome := rfl
@[simp] theorem setType_ops (s : State) (pa k : Nat) : (setType s pa k).ops = s.ops := rfl
@[simp] theorem setType_nextOp (s : State) (pa k : Nat) : (setType s pa k).nextOp = s.nextOp := rfl
@[simp] theorem setType_epochs (s : State) (pa k : Nat) : (setType s pa k).epochs = s.epochs := rfl
@[simp] theorem setType_notices (s : State) (pa k : Nat) : (setType s pa k).notices = s.notices := rfl
@[simp] theorem setType_evqs (s : State) (pa k : Nat) : (setType s pa k).evqs = s.evqs := rfl
@[simp] theorem setType_waiters (s : State) (pa k : Nat) : (setType s pa k).waiters = s.waiters := rfl
@[simp] theorem setType_peers (s : State) (pa k : Nat) : (setType s pa k).peers = s.peers := rfl
@[simp] theorem setType_cgtab (s : State) (pa k : Nat) : (setType s pa k).cgtab = s.cgtab := rfl
@[simp] theorem setType_ctxs (s : State) (pa k : Nat) : (setType s pa k).ctxs = s.ctxs := rfl
@[simp] theorem setType_worlds (s : State) (pa k : Nat) : (setType s pa k).worlds = s.worlds := rfl
@[simp] theorem setType_cellOwner (s : State) (pa k : Nat) : (setType s pa k).cellOwner = s.cellOwner := rfl
@[simp] theorem setType_granuleOwner (s : State) (pa k : Nat) : (setType s pa k).granuleOwner = s.granuleOwner := rfl
@[simp] theorem setType_outputs (s : State) (pa k : Nat) : (setType s pa k).outputs = s.outputs := rfl
@[simp] theorem setType_lanterns (s : State) (pa k : Nat) : (setType s pa k).lanterns = s.lanterns := rfl
@[simp] theorem setType_lstreams (s : State) (pa k : Nat) : (setType s pa k).lstreams = s.lstreams := rfl
@[simp] theorem setType_logit (s : State) (pa k : Nat) : (setType s pa k).logit = s.logit := rfl
@[simp] theorem setType_dev (s : State) (pa k : Nat) : (setType s pa k).dev = s.dev := rfl
@[simp] theorem setType_images (s : State) (pa k : Nat) : (setType s pa k).images = s.images := rfl

/-! ### postEv -/

@[simp] theorem postEv_now (s : State) (e : EvRec) : (postEv s e).now = s.now := rfl
@[simp] theorem postEv_agenda (s : State) (e : EvRec) : (postEv s e).agenda = s.agenda := rfl
@[simp] theorem postEv_focus (s : State) (e : EvRec) : (postEv s e).focus = s.focus := rfl
@[simp] theorem postEv_free (s : State) (e : EvRec) : (postEv s e).free = s.free := rfl
@[simp] theorem postEv_insts (s : State) (e : EvRec) : (postEv s e).insts = s.insts := rfl
@[simp] theorem postEv_invs (s : State) (e : EvRec) : (postEv s e).invs = s.invs := rfl
@[simp] theorem postEv_nextInv (s : State) (e : EvRec) : (postEv s e).nextInv = s.nextInv := rfl
@[simp] theorem postEv_seqs (s : State) (e : EvRec) : (postEv s e).seqs = s.seqs := rfl
@[simp] theorem postEv_firings (s : State) (e : EvRec) : (postEv s e).firings = s.firings := rfl
@[simp] theorem postEv_nests (s : State) (e : EvRec) : (postEv s e).nests = s.nests := rfl
@[simp] theorem postEv_goWaits (s : State) (e : EvRec) : (postEv s e).goWaits = s.goWaits := rfl
@[simp] theorem postEv_ctls (s : State) (e : EvRec) : (postEv s e).ctls = s.ctls := rfl
@[simp] theorem postEv_monitors (s : State) (e : EvRec) : (postEv s e).monitors = s.monitors := rfl
@[simp] theorem postEv_lastColour (s : State) (e : EvRec) : (postEv s e).lastColour = s.lastColour := rfl
@[simp] theorem postEv_blocks (s : State) (e : EvRec) : (postEv s e).blocks = s.blocks := rfl
@[simp] theorem postEv_ptoks (s : State) (e : EvRec) : (postEv s e).ptoks = s.ptoks := rfl
@[simp] theorem postEv_flights (s : State) (e : EvRec) : (postEv s e).flights = s.flights := rfl
@[simp] theorem postEv_outq (s : State) (e : EvRec) : (postEv s e).outq = s.outq := rfl
@[simp] theorem postEv_srcq (s : State) (e : EvRec) : (postEv s e).srcq = s.srcq := rfl
@[simp] theorem postEv_credRet (s : State) (e : EvRec) : (postEv s e).credRet = s.credRet := rfl
@[simp] theorem postEv_excFlight (s : State) (e : EvRec) : (postEv s e).excFlight = s.excFlight := rfl
@[simp] theorem postEv_timers (s : State) (e : EvRec) : (postEv s e).timers = s.timers := rfl
@[simp] theorem postEv_hregs (s : State) (e : EvRec) : (postEv s e).hregs = s.hregs := rfl
@[simp] theorem postEv_counters (s : State) (e : EvRec) : (postEv s e).counters = s.counters := rfl
@[simp] theorem postEv_groups (s : State) (e : EvRec) : (postEv s e).groups = s.groups := rfl
@[simp] theorem postEv_planes (s : State) (e : EvRec) : (postEv s e).planes = s.planes := rfl
@[simp] theorem postEv_fmtReach (s : State) (e : EvRec) : (postEv s e).fmtReach = s.fmtReach := rfl
@[simp] theorem postEv_fmtTravel (s : State) (e : EvRec) : (postEv s e).fmtTravel = s.fmtTravel := rfl
@[simp] theorem postEv_fmtOwn (s : State) (e : EvRec) : (postEv s e).fmtOwn = s.fmtOwn := rfl
@[simp] theorem postEv_turns (s : State) (e : EvRec) : (postEv s e).turns = s.turns := rfl
@[simp] theorem postEv_freed (s : State) (e : EvRec) : (postEv s e).freed = s.freed := rfl
@[simp] theorem postEv_mem (s : State) (e : EvRec) : (postEv s e).mem = s.mem := rfl
@[simp] theorem postEv_wtype (s : State) (e : EvRec) : (postEv s e).wtype = s.wtype := rfl
@[simp] theorem postEv_lines (s : State) (e : EvRec) : (postEv s e).lines = s.lines := rfl
@[simp] theorem postEv_tlb (s : State) (e : EvRec) : (postEv s e).tlb = s.tlb := rfl
@[simp] theorem postEv_walks (s : State) (e : EvRec) : (postEv s e).walks = s.walks := rfl
@[simp] theorem postEv_bank (s : State) (e : EvRec) : (postEv s e).bank = s.bank := rfl
@[simp] theorem postEv_dome (s : State) (e : EvRec) : (postEv s e).dome = s.dome := rfl
@[simp] theorem postEv_ops (s : State) (e : EvRec) : (postEv s e).ops = s.ops := rfl
@[simp] theorem postEv_nextOp (s : State) (e : EvRec) : (postEv s e).nextOp = s.nextOp := rfl
@[simp] theorem postEv_epochs (s : State) (e : EvRec) : (postEv s e).epochs = s.epochs := rfl
@[simp] theorem postEv_notices (s : State) (e : EvRec) : (postEv s e).notices = s.notices := rfl
@[simp] theorem postEv_evqs (s : State) (e : EvRec) : (postEv s e).evqs = s.evqs ++ [e] := rfl
@[simp] theorem postEv_waiters (s : State) (e : EvRec) : (postEv s e).waiters = s.waiters := rfl
@[simp] theorem postEv_peers (s : State) (e : EvRec) : (postEv s e).peers = s.peers := rfl
@[simp] theorem postEv_cgtab (s : State) (e : EvRec) : (postEv s e).cgtab = s.cgtab := rfl
@[simp] theorem postEv_ctxs (s : State) (e : EvRec) : (postEv s e).ctxs = s.ctxs := rfl
@[simp] theorem postEv_worlds (s : State) (e : EvRec) : (postEv s e).worlds = s.worlds := rfl
@[simp] theorem postEv_cellOwner (s : State) (e : EvRec) : (postEv s e).cellOwner = s.cellOwner := rfl
@[simp] theorem postEv_granuleOwner (s : State) (e : EvRec) : (postEv s e).granuleOwner = s.granuleOwner := rfl
@[simp] theorem postEv_outputs (s : State) (e : EvRec) : (postEv s e).outputs = s.outputs := rfl
@[simp] theorem postEv_lanterns (s : State) (e : EvRec) : (postEv s e).lanterns = s.lanterns := rfl
@[simp] theorem postEv_lstreams (s : State) (e : EvRec) : (postEv s e).lstreams = s.lstreams := rfl
@[simp] theorem postEv_logit (s : State) (e : EvRec) : (postEv s e).logit = s.logit := rfl
@[simp] theorem postEv_dev (s : State) (e : EvRec) : (postEv s e).dev = s.dev := rfl
@[simp] theorem postEv_images (s : State) (e : EvRec) : (postEv s e).images = s.images := rfl

/-! ### reply -/

@[simp] theorem reply_now (s : State) (code : Nat) (l : List Nat) : (reply s code l).now = s.now := rfl
@[simp] theorem reply_agenda (s : State) (code : Nat) (l : List Nat) : (reply s code l).agenda = s.agenda := rfl
@[simp] theorem reply_focus (s : State) (code : Nat) (l : List Nat) : (reply s code l).focus = s.focus := rfl
@[simp] theorem reply_free (s : State) (code : Nat) (l : List Nat) : (reply s code l).free = s.free := rfl
@[simp] theorem reply_insts (s : State) (code : Nat) (l : List Nat) : (reply s code l).insts = s.insts := rfl
@[simp] theorem reply_invs (s : State) (code : Nat) (l : List Nat) : (reply s code l).invs = s.invs := rfl
@[simp] theorem reply_nextInv (s : State) (code : Nat) (l : List Nat) : (reply s code l).nextInv = s.nextInv := rfl
@[simp] theorem reply_seqs (s : State) (code : Nat) (l : List Nat) : (reply s code l).seqs = s.seqs := rfl
@[simp] theorem reply_firings (s : State) (code : Nat) (l : List Nat) : (reply s code l).firings = s.firings := rfl
@[simp] theorem reply_nests (s : State) (code : Nat) (l : List Nat) : (reply s code l).nests = s.nests := rfl
@[simp] theorem reply_goWaits (s : State) (code : Nat) (l : List Nat) : (reply s code l).goWaits = s.goWaits := rfl
@[simp] theorem reply_ctls (s : State) (code : Nat) (l : List Nat) : (reply s code l).ctls = s.ctls := rfl
@[simp] theorem reply_monitors (s : State) (code : Nat) (l : List Nat) : (reply s code l).monitors = s.monitors := rfl
@[simp] theorem reply_lastColour (s : State) (code : Nat) (l : List Nat) : (reply s code l).lastColour = s.lastColour := rfl
@[simp] theorem reply_blocks (s : State) (code : Nat) (l : List Nat) : (reply s code l).blocks = s.blocks := rfl
@[simp] theorem reply_ptoks (s : State) (code : Nat) (l : List Nat) : (reply s code l).ptoks = s.ptoks := rfl
@[simp] theorem reply_flights (s : State) (code : Nat) (l : List Nat) : (reply s code l).flights = s.flights := rfl
@[simp] theorem reply_outq (s : State) (code : Nat) (l : List Nat) : (reply s code l).outq = s.outq := rfl
@[simp] theorem reply_srcq (s : State) (code : Nat) (l : List Nat) : (reply s code l).srcq = s.srcq := rfl
@[simp] theorem reply_credRet (s : State) (code : Nat) (l : List Nat) : (reply s code l).credRet = s.credRet := rfl
@[simp] theorem reply_excFlight (s : State) (code : Nat) (l : List Nat) : (reply s code l).excFlight = s.excFlight := rfl
@[simp] theorem reply_timers (s : State) (code : Nat) (l : List Nat) : (reply s code l).timers = s.timers := rfl
@[simp] theorem reply_hregs (s : State) (code : Nat) (l : List Nat) : (reply s code l).hregs = s.hregs := rfl
@[simp] theorem reply_counters (s : State) (code : Nat) (l : List Nat) : (reply s code l).counters = s.counters := rfl
@[simp] theorem reply_groups (s : State) (code : Nat) (l : List Nat) : (reply s code l).groups = s.groups := rfl
@[simp] theorem reply_planes (s : State) (code : Nat) (l : List Nat) : (reply s code l).planes = s.planes := rfl
@[simp] theorem reply_fmtReach (s : State) (code : Nat) (l : List Nat) : (reply s code l).fmtReach = s.fmtReach := rfl
@[simp] theorem reply_fmtTravel (s : State) (code : Nat) (l : List Nat) : (reply s code l).fmtTravel = s.fmtTravel := rfl
@[simp] theorem reply_fmtOwn (s : State) (code : Nat) (l : List Nat) : (reply s code l).fmtOwn = s.fmtOwn := rfl
@[simp] theorem reply_turns (s : State) (code : Nat) (l : List Nat) : (reply s code l).turns = s.turns := rfl
@[simp] theorem reply_freed (s : State) (code : Nat) (l : List Nat) : (reply s code l).freed = s.freed := rfl
@[simp] theorem reply_mem (s : State) (code : Nat) (l : List Nat) : (reply s code l).mem = s.mem := rfl
@[simp] theorem reply_wtype (s : State) (code : Nat) (l : List Nat) : (reply s code l).wtype = s.wtype := rfl
@[simp] theorem reply_lines (s : State) (code : Nat) (l : List Nat) : (reply s code l).lines = s.lines := rfl
@[simp] theorem reply_tlb (s : State) (code : Nat) (l : List Nat) : (reply s code l).tlb = s.tlb := rfl
@[simp] theorem reply_walks (s : State) (code : Nat) (l : List Nat) : (reply s code l).walks = s.walks := rfl
@[simp] theorem reply_bank (s : State) (code : Nat) (l : List Nat) : (reply s code l).bank = s.bank := rfl
@[simp] theorem reply_dome (s : State) (code : Nat) (l : List Nat) : (reply s code l).dome = s.dome := rfl
@[simp] theorem reply_ops (s : State) (code : Nat) (l : List Nat) : (reply s code l).ops = s.ops := rfl
@[simp] theorem reply_nextOp (s : State) (code : Nat) (l : List Nat) : (reply s code l).nextOp = s.nextOp := rfl
@[simp] theorem reply_epochs (s : State) (code : Nat) (l : List Nat) : (reply s code l).epochs = s.epochs := rfl
@[simp] theorem reply_notices (s : State) (code : Nat) (l : List Nat) : (reply s code l).notices = s.notices := rfl
@[simp] theorem reply_evqs (s : State) (code : Nat) (l : List Nat) : (reply s code l).evqs = s.evqs := rfl
@[simp] theorem reply_waiters (s : State) (code : Nat) (l : List Nat) : (reply s code l).waiters = s.waiters := rfl
@[simp] theorem reply_peers (s : State) (code : Nat) (l : List Nat) : (reply s code l).peers = s.peers := rfl
@[simp] theorem reply_cgtab (s : State) (code : Nat) (l : List Nat) : (reply s code l).cgtab = s.cgtab := rfl
@[simp] theorem reply_ctxs (s : State) (code : Nat) (l : List Nat) : (reply s code l).ctxs = s.ctxs := rfl
@[simp] theorem reply_worlds (s : State) (code : Nat) (l : List Nat) : (reply s code l).worlds = s.worlds := rfl
@[simp] theorem reply_cellOwner (s : State) (code : Nat) (l : List Nat) : (reply s code l).cellOwner = s.cellOwner := rfl
@[simp] theorem reply_granuleOwner (s : State) (code : Nat) (l : List Nat) : (reply s code l).granuleOwner = s.granuleOwner := rfl
@[simp] theorem reply_outputs (s : State) (code : Nat) (l : List Nat) : (reply s code l).outputs = s.outputs ++ [.reply code l] := rfl
@[simp] theorem reply_lanterns (s : State) (code : Nat) (l : List Nat) : (reply s code l).lanterns = s.lanterns := rfl
@[simp] theorem reply_lstreams (s : State) (code : Nat) (l : List Nat) : (reply s code l).lstreams = s.lstreams := rfl
@[simp] theorem reply_logit (s : State) (code : Nat) (l : List Nat) : (reply s code l).logit = s.logit := rfl
@[simp] theorem reply_dev (s : State) (code : Nat) (l : List Nat) : (reply s code l).dev = s.dev := rfl
@[simp] theorem reply_images (s : State) (code : Nat) (l : List Nat) : (reply s code l).images = s.images := rfl

/-! ### devWrite -/

@[simp] theorem devWrite_now (s : State) (cells : List Host.Cell) : (devWrite s cells).now = s.now := rfl
@[simp] theorem devWrite_agenda (s : State) (cells : List Host.Cell) : (devWrite s cells).agenda = s.agenda := rfl
@[simp] theorem devWrite_focus (s : State) (cells : List Host.Cell) : (devWrite s cells).focus = s.focus := rfl
@[simp] theorem devWrite_free (s : State) (cells : List Host.Cell) : (devWrite s cells).free = s.free := rfl
@[simp] theorem devWrite_insts (s : State) (cells : List Host.Cell) : (devWrite s cells).insts = s.insts := rfl
@[simp] theorem devWrite_invs (s : State) (cells : List Host.Cell) : (devWrite s cells).invs = s.invs := rfl
@[simp] theorem devWrite_nextInv (s : State) (cells : List Host.Cell) : (devWrite s cells).nextInv = s.nextInv := rfl
@[simp] theorem devWrite_seqs (s : State) (cells : List Host.Cell) : (devWrite s cells).seqs = s.seqs := rfl
@[simp] theorem devWrite_firings (s : State) (cells : List Host.Cell) : (devWrite s cells).firings = s.firings := rfl
@[simp] theorem devWrite_nests (s : State) (cells : List Host.Cell) : (devWrite s cells).nests = s.nests := rfl
@[simp] theorem devWrite_goWaits (s : State) (cells : List Host.Cell) : (devWrite s cells).goWaits = s.goWaits := rfl
@[simp] theorem devWrite_ctls (s : State) (cells : List Host.Cell) : (devWrite s cells).ctls = s.ctls := rfl
@[simp] theorem devWrite_monitors (s : State) (cells : List Host.Cell) : (devWrite s cells).monitors = wakeAll s.now s.monitors cells := rfl
@[simp] theorem devWrite_lastColour (s : State) (cells : List Host.Cell) : (devWrite s cells).lastColour = s.lastColour := rfl
@[simp] theorem devWrite_blocks (s : State) (cells : List Host.Cell) : (devWrite s cells).blocks = s.blocks := rfl
@[simp] theorem devWrite_ptoks (s : State) (cells : List Host.Cell) : (devWrite s cells).ptoks = s.ptoks := rfl
@[simp] theorem devWrite_flights (s : State) (cells : List Host.Cell) : (devWrite s cells).flights = s.flights := rfl
@[simp] theorem devWrite_outq (s : State) (cells : List Host.Cell) : (devWrite s cells).outq = s.outq := rfl
@[simp] theorem devWrite_srcq (s : State) (cells : List Host.Cell) : (devWrite s cells).srcq = s.srcq := rfl
@[simp] theorem devWrite_credRet (s : State) (cells : List Host.Cell) : (devWrite s cells).credRet = s.credRet := rfl
@[simp] theorem devWrite_excFlight (s : State) (cells : List Host.Cell) : (devWrite s cells).excFlight = s.excFlight := rfl
@[simp] theorem devWrite_timers (s : State) (cells : List Host.Cell) : (devWrite s cells).timers = s.timers := rfl
@[simp] theorem devWrite_hregs (s : State) (cells : List Host.Cell) : (devWrite s cells).hregs = s.hregs := rfl
@[simp] theorem devWrite_counters (s : State) (cells : List Host.Cell) : (devWrite s cells).counters = s.counters := rfl
@[simp] theorem devWrite_groups (s : State) (cells : List Host.Cell) : (devWrite s cells).groups = s.groups := rfl
@[simp] theorem devWrite_planes (s : State) (cells : List Host.Cell) : (devWrite s cells).planes = s.planes := rfl
@[simp] theorem devWrite_fmtReach (s : State) (cells : List Host.Cell) : (devWrite s cells).fmtReach = s.fmtReach := rfl
@[simp] theorem devWrite_fmtTravel (s : State) (cells : List Host.Cell) : (devWrite s cells).fmtTravel = s.fmtTravel := rfl
@[simp] theorem devWrite_fmtOwn (s : State) (cells : List Host.Cell) : (devWrite s cells).fmtOwn = s.fmtOwn := rfl
@[simp] theorem devWrite_turns (s : State) (cells : List Host.Cell) : (devWrite s cells).turns = s.turns := rfl
@[simp] theorem devWrite_freed (s : State) (cells : List Host.Cell) : (devWrite s cells).freed = s.freed := rfl
@[simp] theorem devWrite_mem (s : State) (cells : List Host.Cell) : (devWrite s cells).mem = putBytes s.mem cells := rfl
@[simp] theorem devWrite_wtype (s : State) (cells : List Host.Cell) : (devWrite s cells).wtype = s.wtype := rfl
@[simp] theorem devWrite_lines (s : State) (cells : List Host.Cell) : (devWrite s cells).lines = deviceMeta s.lines cells := rfl
@[simp] theorem devWrite_tlb (s : State) (cells : List Host.Cell) : (devWrite s cells).tlb = s.tlb := rfl
@[simp] theorem devWrite_walks (s : State) (cells : List Host.Cell) : (devWrite s cells).walks = s.walks := rfl
@[simp] theorem devWrite_bank (s : State) (cells : List Host.Cell) : (devWrite s cells).bank = s.bank := rfl
@[simp] theorem devWrite_dome (s : State) (cells : List Host.Cell) : (devWrite s cells).dome = s.dome := rfl
@[simp] theorem devWrite_ops (s : State) (cells : List Host.Cell) : (devWrite s cells).ops = s.ops := rfl
@[simp] theorem devWrite_nextOp (s : State) (cells : List Host.Cell) : (devWrite s cells).nextOp = s.nextOp := rfl
@[simp] theorem devWrite_epochs (s : State) (cells : List Host.Cell) : (devWrite s cells).epochs = s.epochs := rfl
@[simp] theorem devWrite_notices (s : State) (cells : List Host.Cell) : (devWrite s cells).notices = s.notices := rfl
@[simp] theorem devWrite_evqs (s : State) (cells : List Host.Cell) : (devWrite s cells).evqs = s.evqs := rfl
@[simp] theorem devWrite_waiters (s : State) (cells : List Host.Cell) : (devWrite s cells).waiters = s.waiters := rfl
@[simp] theorem devWrite_peers (s : State) (cells : List Host.Cell) : (devWrite s cells).peers = s.peers := rfl
@[simp] theorem devWrite_cgtab (s : State) (cells : List Host.Cell) : (devWrite s cells).cgtab = s.cgtab := rfl
@[simp] theorem devWrite_ctxs (s : State) (cells : List Host.Cell) : (devWrite s cells).ctxs = s.ctxs := rfl
@[simp] theorem devWrite_worlds (s : State) (cells : List Host.Cell) : (devWrite s cells).worlds = s.worlds := rfl
@[simp] theorem devWrite_cellOwner (s : State) (cells : List Host.Cell) : (devWrite s cells).cellOwner = s.cellOwner := rfl
@[simp] theorem devWrite_granuleOwner (s : State) (cells : List Host.Cell) : (devWrite s cells).granuleOwner = s.granuleOwner := rfl
@[simp] theorem devWrite_outputs (s : State) (cells : List Host.Cell) : (devWrite s cells).outputs = s.outputs := rfl
@[simp] theorem devWrite_lanterns (s : State) (cells : List Host.Cell) : (devWrite s cells).lanterns = s.lanterns := rfl
@[simp] theorem devWrite_lstreams (s : State) (cells : List Host.Cell) : (devWrite s cells).lstreams = s.lstreams := rfl
@[simp] theorem devWrite_logit (s : State) (cells : List Host.Cell) : (devWrite s cells).logit = s.logit := rfl
@[simp] theorem devWrite_dev (s : State) (cells : List Host.Cell) : (devWrite s cells).dev = s.dev := rfl
@[simp] theorem devWrite_images (s : State) (cells : List Host.Cell) : (devWrite s cells).images = s.images := rfl

/-! ### performWrite -/

@[simp] theorem performWrite_now (s : State) (st : HStore) : (performWrite s st).now = s.now := rfl
@[simp] theorem performWrite_agenda (s : State) (st : HStore) : (performWrite s st).agenda = s.agenda := rfl
@[simp] theorem performWrite_focus (s : State) (st : HStore) : (performWrite s st).focus = s.focus := rfl
@[simp] theorem performWrite_free (s : State) (st : HStore) : (performWrite s st).free = s.free := rfl
@[simp] theorem performWrite_insts (s : State) (st : HStore) : (performWrite s st).insts = s.insts := rfl
@[simp] theorem performWrite_invs (s : State) (st : HStore) : (performWrite s st).invs = s.invs := rfl
@[simp] theorem performWrite_nextInv (s : State) (st : HStore) : (performWrite s st).nextInv = s.nextInv := rfl
@[simp] theorem performWrite_seqs (s : State) (st : HStore) : (performWrite s st).seqs = s.seqs := rfl
@[simp] theorem performWrite_firings (s : State) (st : HStore) : (performWrite s st).firings = s.firings := rfl
@[simp] theorem performWrite_nests (s : State) (st : HStore) : (performWrite s st).nests = s.nests := rfl
@[simp] theorem performWrite_goWaits (s : State) (st : HStore) : (performWrite s st).goWaits = s.goWaits := rfl
@[simp] theorem performWrite_ctls (s : State) (st : HStore) : (performWrite s st).ctls = s.ctls := rfl
@[simp] theorem performWrite_monitors (s : State) (st : HStore) : (performWrite s st).monitors = wakeAll s.now s.monitors st.bytes := rfl
@[simp] theorem performWrite_lastColour (s : State) (st : HStore) : (performWrite s st).lastColour = s.lastColour := rfl
@[simp] theorem performWrite_blocks (s : State) (st : HStore) : (performWrite s st).blocks = s.blocks := rfl
@[simp] theorem performWrite_ptoks (s : State) (st : HStore) : (performWrite s st).ptoks = s.ptoks := rfl
@[simp] theorem performWrite_flights (s : State) (st : HStore) : (performWrite s st).flights = s.flights := rfl
@[simp] theorem performWrite_outq (s : State) (st : HStore) : (performWrite s st).outq = s.outq := rfl
@[simp] theorem performWrite_srcq (s : State) (st : HStore) : (performWrite s st).srcq = s.srcq := rfl
@[simp] theorem performWrite_credRet (s : State) (st : HStore) : (performWrite s st).credRet = s.credRet := rfl
@[simp] theorem performWrite_excFlight (s : State) (st : HStore) : (performWrite s st).excFlight = s.excFlight := rfl
@[simp] theorem performWrite_timers (s : State) (st : HStore) : (performWrite s st).timers = s.timers := rfl
@[simp] theorem performWrite_hregs (s : State) (st : HStore) : (performWrite s st).hregs = s.hregs := rfl
@[simp] theorem performWrite_counters (s : State) (st : HStore) : (performWrite s st).counters = s.counters := rfl
@[simp] theorem performWrite_groups (s : State) (st : HStore) : (performWrite s st).groups = s.groups := rfl
@[simp] theorem performWrite_planes (s : State) (st : HStore) : (performWrite s st).planes = s.planes := rfl
@[simp] theorem performWrite_fmtReach (s : State) (st : HStore) : (performWrite s st).fmtReach = s.fmtReach := rfl
@[simp] theorem performWrite_fmtTravel (s : State) (st : HStore) : (performWrite s st).fmtTravel = s.fmtTravel := rfl
@[simp] theorem performWrite_fmtOwn (s : State) (st : HStore) : (performWrite s st).fmtOwn = s.fmtOwn := rfl
@[simp] theorem performWrite_turns (s : State) (st : HStore) : (performWrite s st).turns = s.turns := rfl
@[simp] theorem performWrite_freed (s : State) (st : HStore) : (performWrite s st).freed = s.freed := rfl
@[simp] theorem performWrite_mem (s : State) (st : HStore) : (performWrite s st).mem = putBytes s.mem st.bytes := rfl
@[simp] theorem performWrite_wtype (s : State) (st : HStore) : (performWrite s st).wtype = s.wtype := rfl
@[simp] theorem performWrite_lines (s : State) (st : HStore) : (performWrite s st).lines = storeMeta s st := rfl
@[simp] theorem performWrite_tlb (s : State) (st : HStore) : (performWrite s st).tlb = s.tlb := rfl
@[simp] theorem performWrite_walks (s : State) (st : HStore) : (performWrite s st).walks = s.walks := rfl
@[simp] theorem performWrite_bank (s : State) (st : HStore) : (performWrite s st).bank = s.bank := rfl
@[simp] theorem performWrite_dome (s : State) (st : HStore) : (performWrite s st).dome = s.dome := rfl
@[simp] theorem performWrite_ops (s : State) (st : HStore) : (performWrite s st).ops = s.ops := rfl
@[simp] theorem performWrite_nextOp (s : State) (st : HStore) : (performWrite s st).nextOp = s.nextOp := rfl
@[simp] theorem performWrite_epochs (s : State) (st : HStore) : (performWrite s st).epochs = s.epochs := rfl
@[simp] theorem performWrite_notices (s : State) (st : HStore) : (performWrite s st).notices = s.notices := rfl
@[simp] theorem performWrite_evqs (s : State) (st : HStore) : (performWrite s st).evqs = s.evqs := rfl
@[simp] theorem performWrite_waiters (s : State) (st : HStore) : (performWrite s st).waiters = s.waiters := rfl
@[simp] theorem performWrite_peers (s : State) (st : HStore) : (performWrite s st).peers = s.peers := rfl
@[simp] theorem performWrite_cgtab (s : State) (st : HStore) : (performWrite s st).cgtab = s.cgtab := rfl
@[simp] theorem performWrite_ctxs (s : State) (st : HStore) : (performWrite s st).ctxs = s.ctxs := rfl
@[simp] theorem performWrite_worlds (s : State) (st : HStore) : (performWrite s st).worlds = s.worlds := rfl
@[simp] theorem performWrite_cellOwner (s : State) (st : HStore) : (performWrite s st).cellOwner = s.cellOwner := rfl
@[simp] theorem performWrite_granuleOwner (s : State) (st : HStore) : (performWrite s st).granuleOwner = s.granuleOwner := rfl
@[simp] theorem performWrite_outputs (s : State) (st : HStore) : (performWrite s st).outputs = s.outputs := rfl
@[simp] theorem performWrite_lanterns (s : State) (st : HStore) : (performWrite s st).lanterns = s.lanterns := rfl
@[simp] theorem performWrite_lstreams (s : State) (st : HStore) : (performWrite s st).lstreams = s.lstreams := rfl
@[simp] theorem performWrite_logit (s : State) (st : HStore) : (performWrite s st).logit = s.logit := rfl
@[simp] theorem performWrite_dev (s : State) (st : HStore) : (performWrite s st).dev = s.dev := rfl
@[simp] theorem performWrite_images (s : State) (st : HStore) : (performWrite s st).images = s.images := rfl

/-! ### takeTurn -/

@[simp] theorem takeTurn_now (s : State) (k : Turn) (n : NodeId) (place : Nat) : (takeTurn s k n place).now = s.now := rfl
@[simp] theorem takeTurn_agenda (s : State) (k : Turn) (n : NodeId) (place : Nat) : (takeTurn s k n place).agenda = s.agenda := rfl
@[simp] theorem takeTurn_focus (s : State) (k : Turn) (n : NodeId) (place : Nat) : (takeTurn s k n place).focus = s.focus := rfl
@[simp] theorem takeTurn_free (s : State) (k : Turn) (n : NodeId) (place : Nat) : (takeTurn s k n place).free = s.free := rfl
@[simp] theorem takeTurn_insts (s : State) (k : Turn) (n : NodeId) (place : Nat) : (takeTurn s k n place).insts = s.insts := rfl
@[simp] theorem takeTurn_invs (s : State) (k : Turn) (n : NodeId) (place : Nat) : (takeTurn s k n place).invs = s.invs := rfl
@[simp] theorem takeTurn_nextInv (s : State) (k : Turn) (n : NodeId) (place : Nat) : (takeTurn s k n place).nextInv = s.nextInv := rfl
@[simp] theorem takeTurn_seqs (s : State) (k : Turn) (n : NodeId) (place : Nat) : (takeTurn s k n place).seqs = s.seqs := rfl
@[simp] theorem takeTurn_firings (s : State) (k : Turn) (n : NodeId) (place : Nat) : (takeTurn s k n place).firings = s.firings := rfl
@[simp] theorem takeTurn_nests (s : State) (k : Turn) (n : NodeId) (place : Nat) : (takeTurn s k n place).nests = s.nests := rfl
@[simp] theorem takeTurn_goWaits (s : State) (k : Turn) (n : NodeId) (place : Nat) : (takeTurn s k n place).goWaits = s.goWaits := rfl
@[simp] theorem takeTurn_ctls (s : State) (k : Turn) (n : NodeId) (place : Nat) : (takeTurn s k n place).ctls = s.ctls := rfl
@[simp] theorem takeTurn_monitors (s : State) (k : Turn) (n : NodeId) (place : Nat) : (takeTurn s k n place).monitors = s.monitors := rfl
@[simp] theorem takeTurn_lastColour (s : State) (k : Turn) (n : NodeId) (place : Nat) : (takeTurn s k n place).lastColour = s.lastColour := rfl
@[simp] theorem takeTurn_blocks (s : State) (k : Turn) (n : NodeId) (place : Nat) : (takeTurn s k n place).blocks = s.blocks := rfl
@[simp] theorem takeTurn_ptoks (s : State) (k : Turn) (n : NodeId) (place : Nat) : (takeTurn s k n place).ptoks = s.ptoks := rfl
@[simp] theorem takeTurn_flights (s : State) (k : Turn) (n : NodeId) (place : Nat) : (takeTurn s k n place).flights = s.flights := rfl
@[simp] theorem takeTurn_outq (s : State) (k : Turn) (n : NodeId) (place : Nat) : (takeTurn s k n place).outq = s.outq := rfl
@[simp] theorem takeTurn_srcq (s : State) (k : Turn) (n : NodeId) (place : Nat) : (takeTurn s k n place).srcq = s.srcq := rfl
@[simp] theorem takeTurn_credRet (s : State) (k : Turn) (n : NodeId) (place : Nat) : (takeTurn s k n place).credRet = s.credRet := rfl
@[simp] theorem takeTurn_excFlight (s : State) (k : Turn) (n : NodeId) (place : Nat) : (takeTurn s k n place).excFlight = s.excFlight := rfl
@[simp] theorem takeTurn_timers (s : State) (k : Turn) (n : NodeId) (place : Nat) : (takeTurn s k n place).timers = s.timers := rfl
@[simp] theorem takeTurn_hregs (s : State) (k : Turn) (n : NodeId) (place : Nat) : (takeTurn s k n place).hregs = s.hregs := rfl
@[simp] theorem takeTurn_counters (s : State) (k : Turn) (n : NodeId) (place : Nat) : (takeTurn s k n place).counters = s.counters := rfl
@[simp] theorem takeTurn_groups (s : State) (k : Turn) (n : NodeId) (place : Nat) : (takeTurn s k n place).groups = s.groups := rfl
@[simp] theorem takeTurn_planes (s : State) (k : Turn) (n : NodeId) (place : Nat) : (takeTurn s k n place).planes = s.planes := rfl
@[simp] theorem takeTurn_fmtReach (s : State) (k : Turn) (n : NodeId) (place : Nat) : (takeTurn s k n place).fmtReach = s.fmtReach := rfl
@[simp] theorem takeTurn_fmtTravel (s : State) (k : Turn) (n : NodeId) (place : Nat) : (takeTurn s k n place).fmtTravel = s.fmtTravel := rfl
@[simp] theorem takeTurn_fmtOwn (s : State) (k : Turn) (n : NodeId) (place : Nat) : (takeTurn s k n place).fmtOwn = s.fmtOwn := rfl
@[simp] theorem takeTurn_turns (s : State) (k : Turn) (n : NodeId) (place : Nat) : (takeTurn s k n place).turns = mput (0, 0) s.turns (turnKey k n) (s.now + 1, place) := rfl
@[simp] theorem takeTurn_freed (s : State) (k : Turn) (n : NodeId) (place : Nat) : (takeTurn s k n place).freed = s.freed := rfl
@[simp] theorem takeTurn_mem (s : State) (k : Turn) (n : NodeId) (place : Nat) : (takeTurn s k n place).mem = s.mem := rfl
@[simp] theorem takeTurn_wtype (s : State) (k : Turn) (n : NodeId) (place : Nat) : (takeTurn s k n place).wtype = s.wtype := rfl
@[simp] theorem takeTurn_lines (s : State) (k : Turn) (n : NodeId) (place : Nat) : (takeTurn s k n place).lines = s.lines := rfl
@[simp] theorem takeTurn_tlb (s : State) (k : Turn) (n : NodeId) (place : Nat) : (takeTurn s k n place).tlb = s.tlb := rfl
@[simp] theorem takeTurn_walks (s : State) (k : Turn) (n : NodeId) (place : Nat) : (takeTurn s k n place).walks = s.walks := rfl
@[simp] theorem takeTurn_bank (s : State) (k : Turn) (n : NodeId) (place : Nat) : (takeTurn s k n place).bank = s.bank := rfl
@[simp] theorem takeTurn_dome (s : State) (k : Turn) (n : NodeId) (place : Nat) : (takeTurn s k n place).dome = s.dome := rfl
@[simp] theorem takeTurn_ops (s : State) (k : Turn) (n : NodeId) (place : Nat) : (takeTurn s k n place).ops = s.ops := rfl
@[simp] theorem takeTurn_nextOp (s : State) (k : Turn) (n : NodeId) (place : Nat) : (takeTurn s k n place).nextOp = s.nextOp := rfl
@[simp] theorem takeTurn_epochs (s : State) (k : Turn) (n : NodeId) (place : Nat) : (takeTurn s k n place).epochs = s.epochs := rfl
@[simp] theorem takeTurn_notices (s : State) (k : Turn) (n : NodeId) (place : Nat) : (takeTurn s k n place).notices = s.notices := rfl
@[simp] theorem takeTurn_evqs (s : State) (k : Turn) (n : NodeId) (place : Nat) : (takeTurn s k n place).evqs = s.evqs := rfl
@[simp] theorem takeTurn_waiters (s : State) (k : Turn) (n : NodeId) (place : Nat) : (takeTurn s k n place).waiters = s.waiters := rfl
@[simp] theorem takeTurn_peers (s : State) (k : Turn) (n : NodeId) (place : Nat) : (takeTurn s k n place).peers = s.peers := rfl
@[simp] theorem takeTurn_cgtab (s : State) (k : Turn) (n : NodeId) (place : Nat) : (takeTurn s k n place).cgtab = s.cgtab := rfl
@[simp] theorem takeTurn_ctxs (s : State) (k : Turn) (n : NodeId) (place : Nat) : (takeTurn s k n place).ctxs = s.ctxs := rfl
@[simp] theorem takeTurn_worlds (s : State) (k : Turn) (n : NodeId) (place : Nat) : (takeTurn s k n place).worlds = s.worlds := rfl
@[simp] theorem takeTurn_cellOwner (s : State) (k : Turn) (n : NodeId) (place : Nat) : (takeTurn s k n place).cellOwner = s.cellOwner := rfl
@[simp] theorem takeTurn_granuleOwner (s : State) (k : Turn) (n : NodeId) (place : Nat) : (takeTurn s k n place).granuleOwner = s.granuleOwner := rfl
@[simp] theorem takeTurn_outputs (s : State) (k : Turn) (n : NodeId) (place : Nat) : (takeTurn s k n place).outputs = s.outputs := rfl
@[simp] theorem takeTurn_lanterns (s : State) (k : Turn) (n : NodeId) (place : Nat) : (takeTurn s k n place).lanterns = s.lanterns := rfl
@[simp] theorem takeTurn_lstreams (s : State) (k : Turn) (n : NodeId) (place : Nat) : (takeTurn s k n place).lstreams = s.lstreams := rfl
@[simp] theorem takeTurn_logit (s : State) (k : Turn) (n : NodeId) (place : Nat) : (takeTurn s k n place).logit = s.logit := rfl
@[simp] theorem takeTurn_dev (s : State) (k : Turn) (n : NodeId) (place : Nat) : (takeTurn s k n place).dev = s.dev := rfl
@[simp] theorem takeTurn_images (s : State) (k : Turn) (n : NodeId) (place : Nat) : (takeTurn s k n place).images = s.images := rfl

/-! ### leaveWait -/

@[simp] theorem leaveWait_now (s : State) (who : Requestor) : (leaveWait s who).now = s.now := rfl
@[simp] theorem leaveWait_agenda (s : State) (who : Requestor) : (leaveWait s who).agenda = s.agenda := rfl
@[simp] theorem leaveWait_focus (s : State) (who : Requestor) : (leaveWait s who).focus = s.focus := rfl
@[simp] theorem leaveWait_free (s : State) (who : Requestor) : (leaveWait s who).free = s.free := rfl
@[simp] theorem leaveWait_insts (s : State) (who : Requestor) : (leaveWait s who).insts = s.insts := rfl
@[simp] theorem leaveWait_invs (s : State) (who : Requestor) : (leaveWait s who).invs = s.invs := rfl
@[simp] theorem leaveWait_nextInv (s : State) (who : Requestor) : (leaveWait s who).nextInv = s.nextInv := rfl
@[simp] theorem leaveWait_seqs (s : State) (who : Requestor) : (leaveWait s who).seqs = s.seqs := rfl
@[simp] theorem leaveWait_firings (s : State) (who : Requestor) : (leaveWait s who).firings = s.firings := rfl
@[simp] theorem leaveWait_nests (s : State) (who : Requestor) : (leaveWait s who).nests = s.nests := rfl
@[simp] theorem leaveWait_goWaits (s : State) (who : Requestor) : (leaveWait s who).goWaits = s.goWaits := rfl
@[simp] theorem leaveWait_ctls (s : State) (who : Requestor) : (leaveWait s who).ctls = s.ctls := rfl
@[simp] theorem leaveWait_monitors (s : State) (who : Requestor) : (leaveWait s who).monitors = s.monitors := rfl
@[simp] theorem leaveWait_lastColour (s : State) (who : Requestor) : (leaveWait s who).lastColour = s.lastColour := rfl
@[simp] theorem leaveWait_blocks (s : State) (who : Requestor) : (leaveWait s who).blocks = s.blocks := rfl
@[simp] theorem leaveWait_ptoks (s : State) (who : Requestor) : (leaveWait s who).ptoks = s.ptoks := rfl
@[simp] theorem leaveWait_flights (s : State) (who : Requestor) : (leaveWait s who).flights = s.flights := rfl
@[simp] theorem leaveWait_outq (s : State) (who : Requestor) : (leaveWait s who).outq = s.outq := rfl
@[simp] theorem leaveWait_srcq (s : State) (who : Requestor) : (leaveWait s who).srcq = s.srcq := rfl
@[simp] theorem leaveWait_credRet (s : State) (who : Requestor) : (leaveWait s who).credRet = s.credRet := rfl
@[simp] theorem leaveWait_excFlight (s : State) (who : Requestor) : (leaveWait s who).excFlight = s.excFlight := rfl
@[simp] theorem leaveWait_timers (s : State) (who : Requestor) : (leaveWait s who).timers = s.timers := rfl
@[simp] theorem leaveWait_hregs (s : State) (who : Requestor) : (leaveWait s who).hregs = s.hregs := rfl
@[simp] theorem leaveWait_counters (s : State) (who : Requestor) : (leaveWait s who).counters = s.counters := rfl
@[simp] theorem leaveWait_groups (s : State) (who : Requestor) : (leaveWait s who).groups = s.groups := rfl
@[simp] theorem leaveWait_planes (s : State) (who : Requestor) : (leaveWait s who).planes = s.planes := rfl
@[simp] theorem leaveWait_fmtReach (s : State) (who : Requestor) : (leaveWait s who).fmtReach = s.fmtReach := rfl
@[simp] theorem leaveWait_fmtTravel (s : State) (who : Requestor) : (leaveWait s who).fmtTravel = s.fmtTravel := rfl
@[simp] theorem leaveWait_fmtOwn (s : State) (who : Requestor) : (leaveWait s who).fmtOwn = s.fmtOwn := rfl
@[simp] theorem leaveWait_turns (s : State) (who : Requestor) : (leaveWait s who).turns = s.turns := rfl
@[simp] theorem leaveWait_freed (s : State) (who : Requestor) : (leaveWait s who).freed = s.freed := rfl
@[simp] theorem leaveWait_mem (s : State) (who : Requestor) : (leaveWait s who).mem = s.mem := rfl
@[simp] theorem leaveWait_wtype (s : State) (who : Requestor) : (leaveWait s who).wtype = s.wtype := rfl
@[simp] theorem leaveWait_lines (s : State) (who : Requestor) : (leaveWait s who).lines = s.lines := rfl
@[simp] theorem leaveWait_tlb (s : State) (who : Requestor) : (leaveWait s who).tlb = s.tlb := rfl
@[simp] theorem leaveWait_walks (s : State) (who : Requestor) : (leaveWait s who).walks = s.walks := rfl
@[simp] theorem leaveWait_bank (s : State) (who : Requestor) : (leaveWait s who).bank = s.bank := rfl
@[simp] theorem leaveWait_dome (s : State) (who : Requestor) : (leaveWait s who).dome = s.dome := rfl
@[simp] theorem leaveWait_ops (s : State) (who : Requestor) : (leaveWait s who).ops = s.ops := rfl
@[simp] theorem leaveWait_nextOp (s : State) (who : Requestor) : (leaveWait s who).nextOp = s.nextOp := rfl
@[simp] theorem leaveWait_epochs (s : State) (who : Requestor) : (leaveWait s who).epochs = s.epochs := rfl
@[simp] theorem leaveWait_notices (s : State) (who : Requestor) : (leaveWait s who).notices = s.notices := rfl
@[simp] theorem leaveWait_evqs (s : State) (who : Requestor) : (leaveWait s who).evqs = s.evqs := rfl
@[simp] theorem leaveWait_waiters (s : State) (who : Requestor) : (leaveWait s who).waiters = s.waiters.filter (fun y => y.who != who) := rfl
@[simp] theorem leaveWait_peers (s : State) (who : Requestor) : (leaveWait s who).peers = s.peers := rfl
@[simp] theorem leaveWait_cgtab (s : State) (who : Requestor) : (leaveWait s who).cgtab = s.cgtab := rfl
@[simp] theorem leaveWait_ctxs (s : State) (who : Requestor) : (leaveWait s who).ctxs = s.ctxs := rfl
@[simp] theorem leaveWait_worlds (s : State) (who : Requestor) : (leaveWait s who).worlds = s.worlds := rfl
@[simp] theorem leaveWait_cellOwner (s : State) (who : Requestor) : (leaveWait s who).cellOwner = s.cellOwner := rfl
@[simp] theorem leaveWait_granuleOwner (s : State) (who : Requestor) : (leaveWait s who).granuleOwner = s.granuleOwner := rfl
@[simp] theorem leaveWait_outputs (s : State) (who : Requestor) : (leaveWait s who).outputs = s.outputs := rfl
@[simp] theorem leaveWait_lanterns (s : State) (who : Requestor) : (leaveWait s who).lanterns = s.lanterns := rfl
@[simp] theorem leaveWait_lstreams (s : State) (who : Requestor) : (leaveWait s who).lstreams = s.lstreams := rfl
@[simp] theorem leaveWait_logit (s : State) (who : Requestor) : (leaveWait s who).logit = s.logit := rfl
@[simp] theorem leaveWait_dev (s : State) (who : Requestor) : (leaveWait s who).dev = s.dev := rfl
@[simp] theorem leaveWait_images (s : State) (who : Requestor) : (leaveWait s who).images = s.images := rfl

end Sys2Proof.Machine
end

