-- ==== Sys2Proof/Laws/Memory.lean ====
section
/-! SUPPORT. What every operation of the machine does to memory: most leave it as it is (`f_mem`), and the
others keep its canonical form (`f_wf`). -/

namespace Sys2Proof.Machine

@[simp] theorem memWf_putByte (m : List Host.Cell) (a : Nat) (b : BitVec 8) (h : memWf m = true) : memWf (putByte m a b) = true :=
  mwf_mput unlistedByte h a b

@[simp] theorem memWf_putBytes (l : List Host.Cell) (m : List Host.Cell) (h : memWf m = true) : memWf (putBytes m l) = true := by
  induction l generalizing m with
  | nil => exact h
  | cons c l ih => exact ih _ (memWf_putByte m c.1 c.2 h)

@[simp] theorem memWf_filter (p : Host.Cell → Bool) (m : List Host.Cell) (h : memWf m = true) : memWf (m.filter p) = true :=
  mwf_filter unlistedByte p h

@[simp] theorem memWf_clear (l : List Nat) (m : List Host.Cell) (h : memWf m = true) : memWf (l.foldl clearScratch m) = true := by
  induction l generalizing m with
  | nil => exact h
  | cons c l ih => exact ih _ (memWf_filter _ m h)

@[simp] theorem foldl_mem {α : Type} (f : State → α → State) (h : ∀ s a, (f s a).mem = s.mem) (l : List α) (s : State) :
    (l.foldl f s).mem = s.mem := by
  induction l generalizing s with
  | nil => rfl
  | cons a l ih => simp [ih, h]

@[simp] theorem foldl_wf {α : Type} (f : State → α → State) (h : ∀ s a, memWf s.mem = true → memWf (f s a).mem = true) (l : List α)
    (s : State) (hs : memWf s.mem = true) : memWf (l.foldl f s).mem = true := by
  induction l generalizing s with
  | nil => exact hs
  | cons a l ih => exact ih _ (h s a hs)

@[simp] theorem takeFree_mem (s : State) : (takeFree s).1.mem = s.mem := by
  unfold takeFree; simp [*]

@[simp] theorem devWrite_wf (s : State) (cells : List Host.Cell) (hw : memWf s.mem = true) : memWf (devWrite s cells).mem = true := by
  unfold devWrite; simp [*]

@[simp] theorem devPut_wf (s : State) (a : Nat) (n : Nat) (v : Nat) (hw : memWf s.mem = true) : memWf (devPut s a n v).mem = true := by
  unfold devPut; simp [*]

@[simp] theorem sendVec_mem (s : State) (w : BitVec 4) (vec : Nat) : (sendVec s w vec).mem = s.mem := by
  unfold sendVec; (repeat' split) <;> simp [*]

@[simp] theorem ownWrite_wf (s : State) (w : BitVec 4) (a : Nat) (cells : List Host.Cell) (hw : memWf s.mem = true) : memWf (ownWrite s w a cells).mem = true := by
  unfold ownWrite; split <;> simp [hw]

@[simp] theorem logRecord_wf (s : State) (x : CtxId) (slots : List Nat) (hw : memWf s.mem = true) : memWf (logRecord s x slots).mem = true := by
  unfold logRecord; dsimp only; (repeat' split) <;> simp [*]

@[simp] theorem sendExc_mem (s : State) (x : CtxId) (c : Cause) (slots : List Nat) (valid : BitVec 16) : (sendExc s x c slots valid).mem = s.mem := by
  unfold sendExc; (repeat' split) <;> simp [*]

@[simp] theorem addTrigger_mem (s : State) (w : BitVec 4) (t : Trigger) : (addTrigger s w t).mem = s.mem := by
  unfold addTrigger; simp [*]

@[simp] theorem deliverRecord_wf (s : State) (o : Origin) (r : Report) (discards : Bool) (hw : memWf s.mem = true) : memWf (deliverRecord s o r discards).mem = true := by
  unfold deliverRecord; dsimp only; (repeat' split) <;> simp [*]

@[simp] theorem logOnly_wf (s : State) (o : Origin) (r : Report) (hw : memWf s.mem = true) : memWf (logOnly s o r).mem = true := by
  unfold logOnly; simp [*]

@[simp] theorem homeWrite_wf (s : State) (o : Origin) (st : HStore) (hw : memWf s.mem = true) : memWf (homeWrite s o st).mem = true := by
  unfold homeWrite; dsimp only; (repeat' split) <;> simp [*]

@[simp] theorem homeWrites_wf (o : Origin) (x0 : State) (x1 : List HStore) (hw : memWf x0.mem = true) : memWf (homeWrites o x0 x1).mem = true := by
  induction x1 generalizing x0 <;> (simp only [homeWrites]; (repeat' split) <;> simp [*])

@[simp] theorem releaseInv_wf (s : State) (o : Origin) (id : Nat) (hw : memWf s.mem = true) : memWf (releaseInv s o id).mem = true := by
  unfold releaseInv; (repeat' split) <;> simp [*]

@[simp] theorem emitTok_mem (s : State) (n : NodeId) (port : Nat) (t : Token) (owner : Option Colour) : (emitTok s n port t owner).mem = s.mem := by
  unfold emitTok; dsimp only; (repeat' split) <;> simp [*]

@[simp] theorem emitDones_mem (v : Inv) (x0 : State) (x1 : List Nat) : (emitDones v x0 x1).mem = x0.mem := by
  induction x1 generalizing x0 <;> (simp [emitDones, *])

@[simp] theorem sendGos_mem (v : Inv) (s : State) (l : List Nat) : (sendGos v s l).mem = s.mem := by
  unfold sendGos; simp [*]

@[simp] theorem countDrain_mem (s : State) (n : NodeId) (t : Tag) : (countDrain s n t).mem = s.mem := by
  unfold countDrain; dsimp only; (repeat' split) <;> simp [*]

@[simp] theorem endInv_mem (s : State) (id : Nat) : (endInv s id).mem = s.mem := by
  unfold endInv; (repeat' split) <;> simp [*]

@[simp] theorem acquireNode_mem (s : State) (n : NodeId) : (acquireNode s n).mem = s.mem := by
  unfold acquireNode; (repeat' split) <;> simp [*]

@[simp] theorem beginNest_mem (s : State) (p : Placed) (exts : List Nat) (g : GoWait) : (beginNest s p exts g).mem = s.mem := by
  unfold beginNest; (repeat' split) <;> simp [*]

@[simp] theorem startGos_mem (n : NodeId) (p : Placed) (k : Nat) (s : State) : (startGos n p k s).mem = s.mem := by
  induction k generalizing s with
  | zero => rfl
  | succ k ih =>
    simp only [startGos]
    split
    · rfl
    · split
      · rfl
      · rw [ih]; simp

@[simp] theorem startWaiting_mem (s : State) (n : NodeId) : (startWaiting s n).mem = s.mem := by
  unfold startWaiting; (repeat' split) <;> simp [*]

@[simp] theorem leavePorts_mem (s : State) (gone : PTok → Bool) : (leavePorts s gone).mem = s.mem := by
  unfold leavePorts; simp [*]

@[simp] theorem leaveOne_mem (s : State) (t : PTok) : (leaveOne s t).mem = s.mem := by
  unfold leaveOne; simp [*]

@[simp] theorem dropUsed_mem (s : State) (cell : Nat) (seqs : List Nat) : (dropUsed s cell seqs).mem = s.mem := by
  unfold dropUsed; simp [*]

@[simp] theorem returnTag_mem (s : State) (n : NodeId) (t : Option IterTag) : (returnTag s n t).mem = s.mem := by
  unfold returnTag; split <;> simp

@[simp] theorem foldr_mem {α : Type} (f : α → State → State) (h : ∀ s a, (f a s).mem = s.mem) (l : List α) (s : State) :
    (l.foldr f s).mem = s.mem := by
  induction l with
  | nil => rfl
  | cons a l ih => simp [ih, h]

@[simp] theorem unuse_mem (s : State) (cell : Nat) (seq : Nat) : (unuse s cell seq).mem = s.mem := by
  unfold unuse; simp [*]

@[simp] theorem returnTags_mem (x0 : State) (x1 : List BInst) : (returnTags x0 x1).mem = x0.mem := by
  induction x1 generalizing x0 <;> (simp [returnTags, *])

@[simp] theorem discardInv_mem (s : State) (cell : Nat) (id : Nat) : (discardInv s cell id).mem = s.mem := by
  unfold discardInv; simp [*]

@[simp] theorem endFaulted_mem (s : State) (id : Nat) : (endFaulted s id).mem = s.mem := by
  unfold endFaulted; (repeat' split) <;> simp [*]

@[simp] theorem takeFault_wf (s : State) (b : BInst) (slot : Nat) (r : Report) (hw : memWf s.mem = true) : memWf (takeFault s b slot r).mem = true := by
  unfold takeFault; simp [*]

@[simp] theorem raise_wf (s : State) (b : BInst) (r : Report) (hw : memWf s.mem = true) : memWf (raise s b r).mem = true := by
  unfold raise; (repeat' split) <;> simp [hw]

@[simp] theorem raiseFormat_wf (s : State) (b : BInst) (i : Nat) (hw : memWf s.mem = true) : memWf (raiseFormat s b i).mem = true := by
  unfold raiseFormat; simp [*]

@[simp] theorem dropLine_mem (s : State) (pa : Nat) : (dropLine s pa).mem = s.mem := by
  unfold dropLine; (repeat' split) <;> simp [*]

@[simp] theorem domeKeep_mem (s : State) (pa : Nat) (r : Retention) : (domeKeep s pa r).mem = s.mem := by
  unfold domeKeep; dsimp only; (repeat' split) <;> simp

@[simp] theorem domeAccess_mem (s : State) (pa hint : Nat) : (domeAccess s pa hint).mem = s.mem := by
  unfold domeAccess; (repeat' split) <;> simp

@[simp] theorem touchLine_mem (s : State) (b : BInst) (hint : Nat) (pl : Place) : (touchLine s b hint pl).mem = s.mem := by
  unfold touchLine; dsimp only; (repeat' split) <;> simp [*]

@[simp] theorem touchLines_mem (s : State) (b : BInst) (hint : Nat) (l : List Place) : (touchLines s b hint l).mem = s.mem := by
  induction l generalizing s with
  | nil => rfl
  | cons a l ih => simp [touchLines, ih]

@[simp] theorem acquireAt_mem (s : State) (n : NodeId) (sc : Scope) : (acquireAt s n sc).mem = s.mem := by
  unfold acquireAt; (repeat' split) <;> rfl

@[simp] theorem acquire_mem (s : State) (b : BInst) (sc : Scope) : (acquire s b sc).mem = s.mem := acquireAt_mem _ _ _

@[simp] theorem finishLoad_mem (s : State) (h : Hdr) (b : BInst) (v : Val) (p : Bool) : (finishLoad s h b v p).mem = s.mem := by
  unfold finishLoad; simp [*]

@[simp] theorem deliverOff_mem (s : State) (h : Hdr) (b : BInst) : (deliverOff s h b).mem = s.mem := by
  unfold deliverOff; simp [*]

@[simp] theorem holdStores_wf (s : State) (h : Hdr) (b : BInst) (sts : List HStore) (ea : Nat) (hw : memWf s.mem = true) : memWf (holdStores s h b sts ea).mem = true := by
  unfold holdStores; (repeat' split) <;> simp [*]

@[simp] theorem performRels_wf (o : Origin) (id : Nat) (s : State) (pre : List HStore) (l : List Eff) (hw : memWf s.mem = true) :
    memWf (performRels o id s pre l).1.mem = true := by
  induction l generalizing s pre with
  | nil => exact hw
  | cons e l ih =>
    cases e with
    | store st => exact ih _ _ hw
    | rel r =>
      have h1 := homeWrites_wf o _ pre (releaseInv_wf s o id hw)
      cases r with
      | phase => exact ih _ _ h1
      | strel _ st => exact ih _ _ (homeWrites_wf o _ st.toList h1)
    | _ => exact ih _ _ hw

@[simp] theorem releaseNow_wf (s : State) (b : BInst) (hw : memWf s.mem = true) : memWf (releaseNow s b).1.mem = true :=
  homeWrites_wf _ _ _ (releaseInv_wf _ _ _ (performRels_wf _ _ _ _ _ hw))

@[simp] theorem settle_wf (s : State) (b : BInst) (hw : memWf s.mem = true) : memWf (settle s b).1.mem = true := by
  unfold settle; split <;> simp [hw]

@[simp] theorem countDrop_mem (s : State) (n : NodeId) : (countDrop s n).mem = s.mem := by
  unfold countDrop; simp [*]

@[simp] theorem hintLines_wf (b : BInst) (f : State → Nat → State) (x0 : State) (x1 : List Int) (hw : memWf x0.mem = true) (hf : ∀ y0 y1, memWf y0.mem = true → memWf (f y0 y1).mem = true) : memWf (hintLines b f x0 x1).mem = true := by
  induction x1 generalizing x0 <;> (simp only [hintLines]; (repeat' split) <;> simp [*])

@[simp] theorem keepLine_mem (r : Option Retention) (s : State) (pa : Nat) : (keepLine r s pa).mem = s.mem := by
  unfold keepLine; (repeat' split) <;> simp [*]

@[simp] theorem releaseOverlap_wf (s : State) (b : BInst) (addrs : List Nat) (hw : memWf s.mem = true) : memWf (releaseOverlap s b addrs).1.mem = true := by
  have h := settle_wf s b hw
  unfold releaseOverlap
  generalize settle s b = r at h
  dsimp only
  split <;> simp [h]

@[simp] theorem atomicRelease_wf (s : State) (b : BInst) (ord : Ord) (addrs : List Nat) (hw : memWf s.mem = true) : memWf (atomicRelease s b ord addrs).1.mem = true := by
  unfold atomicRelease; (repeat' split) <;> simp [*]

@[simp] theorem atomicAcquire_mem (s : State) (b : BInst) (ord : Ord) (sc : Scope) : (atomicAcquire s b ord sc).mem = s.mem := by
  unfold atomicAcquire; (repeat' split) <;> simp [*]

@[simp] theorem bankDrop_mem (s : State) (b : BInst) (pa : Nat) : (bankDrop s b pa).mem = s.mem := by
  unfold bankDrop; (repeat' split) <;> simp [*]

@[simp] theorem domeTouch_mem (s : State) (pl : Place) : (domeTouch s pl).mem = s.mem := by
  unfold domeTouch; split <;> simp

@[simp] theorem engTouch_mem (s : State) (sp : Bool) (pa : Nat) : (engTouch s sp pa).mem = s.mem := by
  unfold engTouch; split <;> simp

@[simp] theorem performWrite_wf (s : State) (st : HStore) (hw : memWf s.mem = true) : memWf (performWrite s st).mem = true := by
  unfold performWrite; simp [*]

@[simp] theorem commitRun_mem (s : State) (b : BInst) (r : PlaneOp) : (commitRun s b r).mem = s.mem := by
  unfold commitRun; simp [*]

@[simp] theorem startAtCommit_mem (s : State) (b : BInst) (o : EngOp) : (startAtCommit s b o).mem = s.mem := by
  unfold startAtCommit; simp [*]

@[simp] theorem putWord_wf (s : State) (a : Nat) (v : Nat) (hw : memWf s.mem = true) : memWf (putWord s a v).mem = true := by
  unfold putWord; simp [*]

@[simp] theorem shadowStep_wf (s : State) (t : Tensor) (buf : Nat) (hw : memWf s.mem = true) : memWf (shadowStep s t buf).1.mem = true := by
  unfold shadowStep; (repeat' split) <;> simp [*]

@[simp] theorem publishStep_wf (s : State) (t : Tensor) (hw : memWf s.mem = true) : memWf (publishStep s t).1.mem = true := by
  unfold publishStep; (repeat' split) <;> simp [*]

@[simp] theorem startOp_mem (s : State) (o : EngOp) : (startOp s o).mem = s.mem := by
  unfold startOp; (repeat' split) <;> simp [*]

@[simp] theorem sendNotice_wf (s : State) (o : Origin) (n : Notice) (hw : memWf s.mem = true) : memWf (sendNotice s o n).mem = true := by
  unfold sendNotice; (repeat' split) <;> simp [*]

theorem engStore_wf {s t : State} {o : EngOp} {sp : Bool} {a : Int} {n v : Nat} (hw : memWf s.mem = true)
    (h : engStore s o sp a n v = .ok t) : memWf t.mem = true := by
  unfold engStore at h
  split at h
  · cases h
  · split at h
    · cases h; simp [hw]
    · split at h
      · cases h
      · cases h; exact performWrite_wf _ _ (by simpa using hw)

theorem copyPoint_wf {s t : State} {o : EngOp} {d : CopyDesc} {fixed : Option Nat} {off k : Nat} (hw : memWf s.mem = true)
    (h : copyPoint s o d fixed off k = .ok t) : memWf t.mem = true := by
  unfold copyPoint at h
  extract_lets pt n at_ a v at h
  split at h
  · cases h; exact hw
  · have hv : ∀ p, v = .ok p → memWf p.1.mem = true := by
      intro p hp
      simp only [v] at hp
      split at hp
      · cases he : engAddr s o d.src.sp (viewAddr d.src d.rank none pt) n true false with
        | error r => rw [he] at hp; cases hp
        | ok pa => rw [he] at hp; cases hp; simpa using hw
      · cases hp; exact hw
    cases hve : v with
    | error r => rw [hve] at h; cases h
    | ok q =>
      rw [hve] at h
      obtain ⟨u, x⟩ := q
      have hu : memWf u.mem = true := hv _ hve
      dsimp only at h
      split at h
      · cases h; exact hu
      · generalize he : engStore u o _ _ _ x = r at h
        cases r with
        | error e => cases h
        | ok y => cases h; exact engStore_wf hu he

theorem copyPoints_wf {o : EngOp} {d : CopyDesc} {fixed : Option Nat} {off : Nat} {l : List Nat} {s t : State}
    (hw : memWf s.mem = true) (h : copyPoints o d fixed off s l = .ok t) : memWf t.mem = true := by
  induction l generalizing s with
  | nil => cases h; exact hw
  | cons k l ih =>
    simp only [copyPoints] at h
    split at h
    · exact ih hw h
    · split at h
      · cases h
      · next hp => exact ih (copyPoint_wf hw hp) h

@[simp] theorem enginePoint_wf (s : State) (id k : Nat) (hw : memWf s.mem = true) : memWf (enginePoint s id k).mem = true := by
  unfold enginePoint
  split
  · exact hw
  · split
    · exact hw
    · split
      · exact hw
      · split
        · simpa using hw
        · next hp => simpa using copyPoint_wf hw hp

@[simp] theorem reportOp_mem (s : State) (o : EngOp) (v : Val) : (reportOp s o v).mem = s.mem := by
  unfold reportOp; (repeat' split) <;> simp [*]

theorem setChunkBit_wf {s t : State} {o : EngOp} {d : CopyDesc} {j : Nat} (hw : memWf s.mem = true)
    (h : setChunkBit s o d j = .ok t) : memWf t.mem = true := by
  unfold setChunkBit at h
  extract_lets a at h
  split at h
  · cases h
  · split at h
    · cases h
    · cases h; exact performWrite_wf _ _ hw

@[simp] theorem afterTile_mem (s : State) (o : EngOp) (d : CopyDesc) (st : StreamSt) (ended : Bool) : (afterTile s o d st ended).mem = s.mem := by
  unfold afterTile; (repeat' split) <;> simp [*]

@[simp] theorem collWrite_wf (o : EngOp) (c : CollDesc) (f : Nat → Nat) (n i : Nat) (s : State) (hw : memWf s.mem = true) :
    memWf (collWrite o c f n i s).1.mem = true := by
  induction n generalizing i s with
  | zero => exact hw
  | succ n ih =>
    simp only [collWrite]
    split
    · exact hw
    · next hp => exact ih _ _ (engStore_wf hw hp)

@[simp] theorem endColl_wf (s : State) (o : EngOp) (c : CollDesc) (status : Nat) (f : Option Report) (hw : memWf s.mem = true) : memWf (endColl s o c status f).mem = true := by
  unfold endColl; (repeat' split) <;> simp [*]

@[simp] theorem applyQuota_mem (s : State) (n : NodeId) (p : Placed) (port : Nat) (c : Colour) (m : Nat) (sl : Nat) : (applyQuota s n p port c m sl).1.mem = s.mem := by
  unfold applyQuota; dsimp only; (repeat' split) <;> simp [*]

@[simp] theorem dropColour_mem (s : State) (w : BitVec 4) (x : Context) (c : Colour) : (dropColour s w x c).1.mem = s.mem := by
  unfold dropColour; simp [*]

@[simp] theorem beginPurge_mem (s : State) (w : BitVec 4) (x : Context) (c : Colour) (by_ : PurgeBy) : (beginPurge s w x c by_).mem = s.mem := by
  unfold beginPurge; simp [*]

@[simp] theorem nextPurge_mem (s : State) (w : BitVec 4) (x : Context) : (nextPurge s w x).mem = s.mem := by
  unfold nextPurge; dsimp only; (repeat' split) <;> simp [*]

@[simp] theorem askPurge_mem (s : State) (w : BitVec 4) (x : Context) (c : Colour) (by_ : PurgeBy) : (askPurge s w x c by_).mem = s.mem := by
  unfold askPurge; simp

@[simp] theorem setQueue_mem (s : State) (w : BitVec 4) (q : Nat) (x : QueueSt) : (setQueue s w q x).mem = s.mem := by
  unfold setQueue; simp [*]

@[simp] theorem ownPut_wf (s : State) (w : BitVec 4) (a n v : Nat) (hw : memWf s.mem = true) : memWf (ownPut s w a n v).mem = true :=
  ownWrite_wf _ _ _ _ hw

@[simp] theorem mirrorQueue_wf (s : State) (w : BitVec 4) (q : Nat) (hw : memWf s.mem = true) : memWf (mirrorQueue s w q).mem = true := by
  unfold mirrorQueue; simp [*]

@[simp] theorem updQueue_wf (s : State) (w : BitVec 4) (q : Nat) (f : QueueSt → QueueSt) (hw : memWf s.mem = true) : memWf (updQueue s w q f).mem = true := by
  unfold updQueue; simp [*]

@[simp] theorem putTask_mem (s : State) (w : BitVec 4) (t : Task) : (putTask s w t).mem = s.mem := by
  unfold putTask; simp [*]

@[simp] theorem dropTask_mem (s : State) (w : BitVec 4) (id : BitVec 32) : (dropTask s w id).mem = s.mem := by
  unfold dropTask; simp [*]

@[simp] theorem applyFmt_mem (s : State) (b : BInst) (entry : Nat) (w : Word64) : (applyFmt s b entry w).mem = s.mem := rfl

@[simp] theorem pruneGens_mem (s : State) (w : BitVec 4) (x : Context) : (pruneGens s w x).mem = s.mem := by
  unfold pruneGens; simp [*]

@[simp] theorem reachCell_mem (s : State) (x : CtxId) (cell g : Nat) : (reachCell s x cell g).mem = s.mem := by
  unfold reachCell; simp

@[simp] theorem travelOne_mem (s : State) (x : CtxId) (cell : Nat) : (travelOne s x cell).mem = s.mem := by
  unfold travelOne; split <;> simp

@[simp] theorem reachOwn_mem (s : State) (t : CtxId × Nat × Nat) : (reachOwn s t).mem = s.mem := by
  unfold reachOwn; dsimp only
  rw [reachCell_mem]; exact foldl_mem _ (fun st a => travelOne_mem _ _ _) _ _

@[simp] theorem reachOwns_mem (s : State) : (reachOwns s).mem = s.mem := by
  unfold reachOwns; exact foldl_mem _ (fun st a => reachOwn_mem _ _) _ _

@[simp] theorem reachLate_mem (s : State) (now : Nat) : (reachLate s now).mem = s.mem := by
  unfold reachLate; exact foldl_mem _ (fun st a => travelOne_mem _ _ _) _ _

@[simp] theorem activate_mem (s : State) (w : BitVec 4) (x : Context) : (activate s w x).mem = s.mem := by
  unfold activate; simp [*]

@[simp] theorem writeBelfry_mem (s : State) (w : BitVec 4) (v : Word64) : (writeBelfry s w v).mem = s.mem := by
  unfold writeBelfry; dsimp only; (repeat' split) <;> simp [*]

@[simp] theorem writeTinval_mem (s : State) (w : BitVec 4) (v : Word64) : (writeTinval s w v).mem = s.mem := by
  unfold writeTinval; simp [*]

@[simp] theorem writeSreg_mem (s : State) (w : BitVec 4) (x : Context) (reg : Nat) (v : Word64) : (writeSreg s w x reg v).mem = s.mem := by
  unfold writeSreg; (repeat' split) <;> simp [*]

@[simp] theorem takeUnit_mem (s : State) (die : Nat) : (takeUnit s die).mem = s.mem := by
  unfold takeUnit; dsimp only; (repeat' split) <;> simp [*]

@[simp] theorem sendOut_mem (s : State) (ch : ChanId) (o : OutTok) : (sendOut s ch o).mem = s.mem := by
  unfold sendOut; simp [*]

@[simp] theorem arrived_mem (s : State) (ch : ChanId) (c : Colour) : (arrived s ch c).mem = s.mem := by
  unfold arrived; simp [*]

@[simp] theorem dropFlight_mem (s : State) (f : Flight) : (dropFlight s f).mem = s.mem := by
  unfold dropFlight; simp [*]

@[simp] theorem putAtPort_mem (s : State) (p : PortId) (ch : Option ChanId) (t : Token) (hold : Option (Nat × Nat)) : (putAtPort s p ch t hold).mem = s.mem := by
  unfold putAtPort; simp [*]

@[simp] theorem useSet_mem (s : State) (n : NodeId) (ports : List Nat) (t : Tag) (seq : Nat) : (useSet s n ports t seq).mem = s.mem := by
  unfold useSet; simp [*]

@[simp] theorem takeSeq_mem (s : State) (cell : Nat) : (takeSeq s cell).1.mem = s.mem := by
  unfold takeSeq; simp [*]

@[simp] theorem makeFiring_mem (s : State) (n : NodeId) (p : Placed) (t : Tag) (point : Option (List Nat × Nat)) (inv : Option Nat) : (makeFiring s n p t point inv).mem = s.mem := by
  unfold makeFiring; simp [*]

@[simp] theorem completePoint_mem (s : State) (n : NodeId) (p : Placed) (r : NestRun) : (completePoint s n p r).mem = s.mem := by
  unfold completePoint; dsimp only; split <;> simp

@[simp] theorem completeNode_mem (s : State) (e : NodeId × Placed) : (completeNode s e).mem = s.mem := by
  unfold completeNode
  dsimp only
  split
  · split <;> simp
  · split
    · rfl
    · exact foldl_mem _ (fun st t => by split <;> simp) _ _

@[simp] theorem fifoNode_mem (s : State) (e : NodeId × Placed) : (fifoNode s e).mem = s.mem := by
  unfold fifoNode
  split
  · rfl
  · refine foldl_mem _ (fun st c => ?_) _ _
    split
    · rfl
    · split <;> simp

@[simp] theorem haltRun_wf (s : State) (r : NestRun) (hw : memWf s.mem = true) : memWf (haltRun s r).mem = true := by
  unfold haltRun; dsimp only; (repeat' split) <;> simp [*]

@[simp] theorem takeGo_mem (s : State) (c : CtlTok) : (takeGo s c).mem = s.mem := by
  unfold takeGo; simp

@[simp] theorem takeHalt_wf (s : State) (c : CtlTok) (hw : memWf s.mem = true) : memWf (takeHalt s c).mem = true := by
  unfold takeHalt; dsimp only; (repeat' split) <;> simp [hw]

@[simp] theorem takeControl_wf (s : State) (hw : memWf s.mem = true) : memWf (takeControl s).mem = true := by
  unfold takeControl
  exact foldl_wf _ (fun st c hs => takeHalt_wf _ _ hs) _ _ (by rw [foldl_mem _ (fun st c => takeGo_mem _ _)]; exact hw)

@[simp] theorem endCycle_wf (s : State) (hw : memWf s.mem = true) : memWf (endCycle s).mem = true := by
  unfold endCycle
  dsimp only
  rw [reachOwns_mem, foldl_mem _ (fun st c => completeNode_mem _ _)]
  refine takeControl_wf _ ?_
  rw [foldl_mem _ (fun st c => fifoNode_mem _ _)]; exact hw

@[simp] theorem passTime_wf (s : State) (n : Nat) (hw : memWf s.mem = true) : memWf (passTime s n).mem = true := by
  unfold passTime; split
  · exact hw
  · rw [reachLate_mem]; exact endCycle_wf s hw

@[simp] theorem listBad_mem (s : State) (cell : Nat) : (listBad s cell).mem = s.mem := by
  unfold listBad; dsimp only; (repeat' split) <;> simp [*]

@[simp] theorem cutBad_mem (s : State) : (cutBad s).mem = s.mem := by
  unfold cutBad
  exact foldl_mem _ (fun st w => setWorld_mem _ _ _) _ _

@[simp] theorem faultKey_wf (s : State) (n : NodeId) (t : Tag) (r : Report) (source : Nat) (hw : memWf s.mem = true) : memWf (faultKey s n t r source).mem = true := by
  unfold faultKey
  split
  · exact hw
  · dsimp only
    split
    · exact deliverRecord_wf _ _ _ _ (by simpa using hw)
    · exact deliverRecord_wf _ _ _ _ (by rw [dropUsed_mem]; exact hw)

@[simp] theorem returnInst_mem (s : State) (b : BInst) : (returnInst s b).mem = s.mem := by
  unfold returnInst; simp [*]

@[simp] theorem releaseHeld_mem (s : State) (t : PTok) (since : Nat) : (releaseHeld s t since).mem = s.mem := by
  unfold releaseHeld; simp [*]

@[simp] theorem stepBrk_mem (s : State) (b : Bkpt) : (stepBrk s b).mem = s.mem := by
  unfold stepBrk; simp [*]

@[simp] theorem stepBkpt_mem (k : Nat) (s : State) : (stepBkpt k s).mem = s.mem := by
  unfold stepBkpt; dsimp only; (repeat' split) <;> simp [*]

@[simp] theorem releaseAll_mem (k : Nat) (s : State) : (releaseAll k s).mem = s.mem := by
  refine foldl_mem _ (fun st c => ?_) _ _
  split <;> simp

@[simp] theorem putBreak_mem (w : BitVec 4) (on : Bool) (s : State) : (putBreak w on s).mem = s.mem := by
  unfold putBreak; (repeat' split) <;> simp [*]

@[simp] theorem sendStarts_mem (s : State) (w : BitVec 4) (x : Context) (v : Val) : (sendStarts s w x v).mem = s.mem := by
  unfold sendStarts; simp [*]

@[simp] theorem sendGo_mem (s : State) (w : BitVec 4) (x : Context) (t : Token) : (sendGo s w x t).mem = s.mem := sendStarts_mem _ _ _ _

@[simp] theorem sendDue_mem (s : State) (w : BitVec 4) (x : Context) : (sendDue s w x).mem = s.mem := by
  unfold sendDue; dsimp only; rw [foldl_mem _ (fun st e => sendGo_mem _ _ _ _)]; rfl

@[simp] theorem swapNow_mem (s : State) (w : BitVec 4) (t : Token) (rest : List Token) : (swapNow s w t rest).mem = s.mem := by
  unfold swapNow; dsimp only; (repeat' split) <;> simp [*]

@[simp] theorem setBind_mem (s : State) (spire : Nat) (c : Colour) (i : IterTag) (va : Nat) : (setBind s spire c i va).mem = s.mem := by
  unfold setBind; simp [*]

@[simp] theorem emitLantern_mem (s : State) (w : BitVec 4) (spire : Nat) (port : Nat) (c : Colour) (i : IterTag) (v : Val) : (emitLantern s w spire port c i v).mem = s.mem := by
  unfold emitLantern; simp [*]

@[simp] theorem lanternReport_wf (s : State) (n : NodeId) (t : Tag) (r : Report) (hw : memWf s.mem = true) : memWf (lanternReport s n t r).mem = true := by
  unfold lanternReport; (repeat' split) <;> simp [*]

@[simp] theorem putStream_mem (s : State) (l : LStream) : (putStream s l).mem = s.mem := by
  unfold putStream; simp [*]

@[simp] theorem finishStream_mem (s : State) (w : BitVec 4) (l : LStream) : (finishStream s w l).mem = s.mem := by
  unfold finishStream; (repeat' split) <;> simp [*]

@[simp] theorem nextId_mem (s : State) (l : LStream) (ids : List (Nat × Nat)) : (nextId s l ids).mem = s.mem := by
  unfold nextId; (repeat' split) <;> simp [*]

theorem devStore_wf {w : BitVec 4} {c : Colour} {l : List (BitVec 8)} {s t : State} {va : Nat} (hw : memWf s.mem = true)
    (h : devStore s w c va l = .ok t) : memWf t.mem = true := by
  induction l generalizing s va with
  | nil => cases h; exact hw
  | cons b l ih =>
    simp only [devStore] at h
    split at h
    · cases h
    · split at h
      · cases h
      · exact ih (performWrite_wf _ _ hw) h

theorem commitTable_wf {s : State} {w : BitVec 4} {c : Colour} {va : Nat} {ids : List Nat} {t : State × Nat × Nat}
    (hw : memWf s.mem = true) (h : commitTable s w c va ids = .ok t) : memWf t.1.mem = true := by
  unfold commitTable at h
  split at h
  · cases h
  · split at h
    · cases h
    · extract_lets j r at h
      split at h
      · cases h
      · next h1 =>
        split at h
        · cases h
        · next h2 => cases h; exact devStore_wf (devStore_wf hw h1) h2

@[simp] theorem fetchCheck_wf (s : State) (b : BInst) (hw : memWf s.mem = true) : memWf (fetchCheck s b).mem = true := by
  unfold fetchCheck; (repeat' split) <;> simp [*]

@[simp] theorem takeTag_mem (s : State) (n : NodeId) (cell : Nat) (c : Colour) (g : IterTag) : (takeTag s n cell c g).mem = s.mem := rfl

@[simp] theorem touchBlock_mem (s : State) (b : BInst) : (touchBlock s b).mem = s.mem := by
  unfold touchBlock; simp [*]

@[simp] theorem startInst_wf (s : State) (b : BInst) (hw : memWf s.mem = true) : memWf (startInst s b).mem = true := by
  unfold startInst; dsimp only; split <;> exact fetchCheck_wf _ _ (by simpa using hw)

@[simp] theorem beginInv_mem (s : State) (f : Firing) : (beginInv s f).mem = s.mem := by
  unfold beginInv; (repeat' split) <;> simp [*]

@[simp] theorem holdIndices_mem (s : State) (f : Firing) : (holdIndices s f).mem = s.mem := by
  unfold holdIndices; split <;> rfl

@[simp] theorem fireInst_wf (s : State) (f : Firing) (b : BInst) (hw : memWf s.mem = true) : memWf (fireInst s f b).mem = true := by
  unfold fireInst; exact startInst_wf _ _ (by simpa using hw)

@[simp] theorem startChained_wf (s : State) (b : BInst) (hw : memWf s.mem = true) : memWf (startChained s b).mem = true := by
  unfold startChained; dsimp only; (repeat' split) <;> simp [*]

@[simp] theorem chainTo_wf (s : State) (b : BInst) (blk : Nat) (carried : List Val) (hw : memWf s.mem = true) : memWf (chainTo s b blk carried).mem = true := by
  unfold chainTo; (repeat' split) <;> simp [*]

@[simp] theorem emitGroup_mem (s : State) (b : BInst) (port : Nat) (l : List Token) : (emitGroup s b port l).mem = s.mem := by
  induction l generalizing s with
  | nil => rfl
  | cons a l ih => simp [emitGroup, ih]

@[simp] theorem countEmitted_mem (s : State) (id : Nat) (port : Nat) (n : Nat) : (countEmitted s id port n).mem = s.mem := by
  unfold countEmitted; simp [*]

@[simp] theorem joinGroup_mem (s : State) (b : BInst) (port : Nat) (g : Nat) (src : Word64) (dst : Word64) (m : Rnd) (sr : Word64 × Nat × Nat) (x : Val) : (joinGroup s b port g src dst m sr x).mem = s.mem := by
  unfold joinGroup; dsimp only; (repeat' split) <;> simp [*]

@[simp] theorem applyEff_wf (b : BInst) (s : State) (x0 : Eff) (hw : memWf s.mem = true) : memWf (applyEff b s x0).mem = true := by
  unfold applyEff; dsimp only; (repeat' split) <;> simp [*]

@[simp] theorem emitInst_mem (b : BInst) (s : State) (l : List Emit) : (emitInst b s l).mem = s.mem := by
  induction l generalizing s with
  | nil => rfl
  | cons a l ih => simp only [emitInst, ih]; split <;> simp

@[simp] theorem endHalted_wf (s : State) (w : BitVec 4) (x : Context) (hw : memWf s.mem = true) : memWf (endHalted s w x).mem = true := by
  unfold endHalted; (repeat' split) <;> simp_all

@[simp] theorem finishInst_wf (s : State) (b : BInst) (e : Exit) (hw : memWf s.mem = true) : memWf (finishInst s b e).mem = true := by
  unfold finishInst
  extract_lets c ends s1 s2 s3 s4 s5
  have h4 : memWf s4.mem = true := foldl_wf _ (fun st x hs => applyEff_wf c st x hs) _ _ (by simp [s2, s1, hw])
  split
  · exact endHalted_wf _ _ _ h4
  · split
    · split <;> exact h4
    · split
      · have h5 : memWf s5.mem = true := by simpa [s5] using h4
        split
        · simpa using h5
        · exact h5
      · split
        · exact chainTo_wf _ _ _ _ h4
        · exact h4

@[simp] theorem wakeFiring_mem (s : State) (cell : Nat) (seq : Nat) (k : Wake) : (wakeFiring s cell seq k).mem = s.mem := by
  unfold wakeFiring; simp [*]

@[simp] theorem writeRecord_wf (s : State) (w : BitVec 4) (cmpla : Option Nat) (status : Nat) (cause : Nat) (task : BitVec 32) (tiles : Nat) (hw : memWf s.mem = true) : memWf (writeRecord s w cmpla status cause task tiles).mem = true := by
  unfold writeRecord; (repeat' split) <;> simp [*]

@[simp] theorem updPkt_wf (s : State) (w : BitVec 4) (q : Nat) (idx : Nat) (f : Pkt → Pkt) (hw : memWf s.mem = true) : memWf (updPkt s w q idx f).mem = true := by
  unfold updPkt; simp [*]

@[simp] theorem consumePkt_wf (s : State) (w : BitVec 4) (q : Nat) (idx : Nat) (hw : memWf s.mem = true) : memWf (consumePkt s w q idx).mem = true := by
  unfold consumePkt; simp [*]

@[simp] theorem completePkt_wf (s : State) (w : BitVec 4) (q : Nat) (idx : Nat) (status : Nat) (cause : Nat) (task : BitVec 32) (tiles : Nat) (hw : memWf s.mem = true) : memWf (completePkt s w q idx status cause task tiles).mem = true := by
  unfold completePkt; simp [*]

@[simp] theorem dispatchAt_mem (s : State) (w : BitVec 4) (slot at_ : Nat) : (dispatchAt s w slot at_).mem = s.mem := rfl

@[simp] theorem addDispatch_mem (s : State) (w : BitVec 4) (slot : Nat) : (addDispatch s w slot).mem = s.mem := rfl

@[simp] theorem cellsFree_mem (s : State) (w : BitVec 4) : (cellsFree s w).mem = s.mem :=
  foldl_mem (fun st k => addDispatch st w k) (fun _ _ => rfl) _ _

@[simp] theorem allCellsFree_mem (s : State) : (allCellsFree s).mem = s.mem :=
  foldl_mem _ (fun st w => cellsFree_mem _ _) _ _

@[simp] theorem settleBegun_wf (s : State) (w : BitVec 4) (x : Context) (hw : memWf s.mem = true) : memWf (settleBegun s w x).mem = true := by
  unfold settleBegun
  refine foldl_wf _ (fun st b hs => ?_) _ _ hw
  have h1 : ∀ t, execReleasePerformed b.cell b.seq st = .next t → memWf t.mem = true := by
    intro t ht
    unfold execReleasePerformed at ht
    dsimp only at ht
    split at ht
    · cases ht; exact hs
    · split at ht
      · cases ht; exact hs
      · cases ht
        have := performRels_wf (originOf st ‹_› 0 2) (‹BInst›).inv st [] (‹BInst›).effs hs
        simp only [putInst_mem]
        split <;> simp [this]
  dsimp only
  generalize hr : execReleasePerformed b.cell b.seq st = r at h1
  have h2 : memWf (match r with | .next t => t | _ => st).mem = true := by
    cases r with
    | next t => exact h1 t rfl
    | _ => exact hs
  split
  · exact h2
  · split
    · exact finishInst_wf _ _ _ h2
    · exact h2

@[simp] theorem dropWork_mem (s : State) (w : BitVec 4) (x : Context) : (dropWork s w x).mem = s.mem := by
  unfold dropWork; simp [*]

@[simp] theorem dropConfig_wf (s : State) (w : BitVec 4) (x : Context) (hw : memWf s.mem = true) : memWf (dropConfig s w x).mem = true := by
  unfold dropConfig; simp [*]

@[simp] theorem unloadCtx_wf (s : State) (w : BitVec 4) (x : Context) (hw : memWf s.mem = true) : memWf (unloadCtx s w x).mem = true := by
  unfold unloadCtx
  exact foldl_wf _ (fun st e hs => completePkt_wf _ _ _ _ _ _ _ _ hs) _ _ (dropConfig_wf _ _ _ (by simpa using hw))

@[simp] theorem placeTask_wf (s : State) (w : BitVec 4) (t : Task) (quar : Bool) (hw : memWf s.mem = true) : memWf (placeTask s w t quar).mem = true := by
  unfold placeTask; simp [*]

@[simp] theorem afterSubject_wf (s : State) (w : BitVec 4) (id : BitVec 32) (hw : memWf s.mem = true) : memWf (afterSubject s w id).mem = true := by
  unfold afterSubject; (repeat' split) <;> simp [*]

@[simp] theorem finishTask_wf (s : State) (w : BitVec 4) (t : Task) (status cause : Nat) (hw : memWf s.mem = true) : memWf (finishTask s w t status cause).mem = true := by
  unfold finishTask
  extract_lets x c s1 s2
  have h1 : memWf s1.mem = true := by simp only [s1]; split <;> simp [hw]
  simp [s2, h1]

@[simp] theorem stopTask_wf (s : State) (w : BitVec 4) (t : Task) (status : Nat) (cause : Nat) (hw : memWf s.mem = true) : memWf (stopTask s w t status cause).mem = true := by
  unfold stopTask; dsimp only; (repeat' split) <;> simp [*]

@[simp] theorem killTask_wf (s : State) (w : BitVec 4) (t : Task) (hw : memWf s.mem = true) : memWf (killTask s w t).mem = true := by
  unfold killTask; simp [*]

@[simp] theorem failCode_wf (s : State) (w : BitVec 4) (t : Task) (code : Nat) (hw : memWf s.mem = true) : memWf (failCode s w t code).mem = true := by
  unfold failCode
  extract_lets d s1 others
  have h1 : memWf s1.mem = true := stopTask_wf _ _ _ _ _ hw
  split
  · exact h1
  · exact foldl_wf _ (fun st u hs => by split <;> simp [hs]) _ _ h1

@[simp] theorem failTask_wf (s : State) (w : BitVec 4) (t : Task) (c : Cause) (hw : memWf s.mem = true) : memWf (failTask s w t c).mem = true := by
  unfold failTask; simp [*]

@[simp] theorem queueFail_wf (s : State) (w : BitVec 4) (q : Nat) (c : Cause) (d : Nat → Nat) (hw : memWf s.mem = true) :
    memWf (queueFail s w q c d).mem = true := by
  unfold queueFail
  extract_lets s1 a head s2
  have h1 : memWf s1.mem = true := updQueue_wf _ _ _ _ hw
  have h2 : memWf s2.mem = true := by
    simp only [s2]; split
    · exact foldl_wf _ (fun st u hs => by simp [hs]) _ _ h1
    · exact h1
  simp [h2]

@[simp] theorem startPkt_wf (s : State) (w : BitVec 4) (q : Nat) (d : Nat → Nat) (hw : memWf s.mem = true) : memWf (startPkt s w q d).mem = true := by
  unfold startPkt; simp [*]

theorem signalOp_wf {s : State} {w : BitVec 4} {c : Colour} {va op value : Nat} {t : State} (hw : memWf s.mem = true)
    (h : signalOp s w c va op value = .ok t) : memWf t.mem = true := by
  unfold signalOp at h
  split at h
  · cases h
  · split at h
    · cases h
    · cases h; exact performWrite_wf _ _ hw

@[simp] theorem testWait_wf (s : State) (w : BitVec 4) (q : Nat) (hw : memWf s.mem = true) : memWf (testWait s w q).mem = true := by
  unfold testWait; dsimp only; (repeat' split) <;> simp [*]

@[simp] theorem abortTask_wf (s : State) (w : BitVec 4) (q : Nat) (idx : Nat) (d : Nat → Nat) (kill : Bool) (hw : memWf s.mem = true) : memWf (abortTask s w q idx d kill).mem = true := by
  unfold abortTask; (repeat' split) <;> simp [*]

@[simp] theorem failWide_wf (s : State) (w : BitVec 4) (q : Nat) (hw : memWf s.mem = true) : memWf (failWide s w q).mem = true := by
  unfold failWide
  exact foldl_wf _ (fun st u hs => by split <;> simp [hs]) _ _ hw

@[simp] theorem evFault_wf (s : State) (e : EvRec) (r : Report) (hw : memWf s.mem = true) : memWf (evFault s e r).mem = true := by
  unfold evFault; simp [*]

theorem ringEvent_wf {s : State} {e : EvRec} {d : Nat → Nat} {t : State} (hw : memWf s.mem = true) (h : ringEvent s e d = some t) :
    memWf t.mem = true := by
  unfold ringEvent at h
  extract_lets base n widx s1 at h
  split at h
  · cases h; simp [hw]
  · split at h
    · cases h
    · cases h
      simp only [sendVec_mem]
      exact devPut_wf _ _ _ _ (foldl_wf _ (fun st u hs => devPut_wf _ _ _ _ hs) _ _ hw)

@[simp] theorem clearCarves_wf (s : State) (l : List (Nat × Nat)) (hw : memWf s.mem = true) : memWf (clearCarves s l).mem = true := by
  unfold clearCarves; simp [*]

@[simp] theorem placeRegs_mem (cs : List (Nat × Nat × Nat × Word64)) (s : State) (p : Placed) : (placeRegs cs s p).mem = s.mem := by
  unfold placeRegs; simp [*]

@[simp] theorem placeImage_wf (s : State) (w : BitVec 4) (t : Task) (l : List Item) (nodes : List Placed) (hw : memWf s.mem = true) : memWf (placeImage s w t l nodes).mem = true := by
  unfold placeImage; (repeat' split) <;> simp [*]

@[simp] theorem sendLaunch_mem (s : State) (w : BitVec 4) (t : Task) : (sendLaunch s w t).mem = s.mem := by
  unfold sendLaunch; dsimp only; (repeat' split) <;> simp [*]

@[simp] theorem startDecision_mem (s : State) (w : BitVec 4) (kind : Nat) (slot : Nat) (cause : Nat) (subject : Option Cand) (cands : List Cand) : (startDecision s w kind slot cause subject cands).mem = s.mem := by
  unfold startDecision; dsimp only; (repeat' split) <;> simp [*]

theorem dispatchTask_wf {s : State} {w : BitVec 4} {t : Task} {place : State → Task → State} {u : State} (hw : memWf s.mem = true) (hplace : ∀ y0 y1, memWf y0.mem = true → memWf (place y0 y1).mem = true) (h : dispatchTask s w t place = some u) : memWf u.mem = true := by
  unfold dispatchTask at h
  split at h
  · split at h
    · split at h
      · cases h
      · cases h; simp [hw]
    · cases h; simp [hw]
    · cases h; exact hplace _ _ hw
  · cases h; exact hplace _ _ hw

theorem dispatchQuar_wf {s : State} {w : BitVec 4} {slot : Nat} {t : State} (hw : memWf s.mem = true) (h : dispatchQuar s w slot = some t) :
    memWf t.mem = true := by
  unfold dispatchQuar at h
  split at h
  · cases h; exact hw
  · simp only [Option.map_eq_some_iff] at h
    obtain ⟨u, hu, rfl⟩ := h
    simpa using dispatchTask_wf hw (fun y0 y1 hy => placeTask_wf _ _ _ _ hy) hu

@[simp] theorem followOn_mem (s : State) (w : BitVec 4) (slot : Nat) : (followOn s w slot).mem = s.mem := by
  unfold followOn; split <;> simp

@[simp] theorem preemptAgain_mem (s : State) (w : BitVec 4) (t : Task) : (preemptAgain s w t).mem = s.mem := by
  unfold preemptAgain; dsimp only; split <;> simp

@[simp] theorem again_mem (s : State) (w : BitVec 4) (d : Decision) (subj : Option Task) : (again s w d subj).mem = s.mem := by
  unfold again; split <;> simp

@[simp] theorem deferSlice_mem (s : State) (w : BitVec 4) (t : Task) : (deferSlice s w t).mem = s.mem := by
  unfold deferSlice; simp

@[simp] theorem dropIdle_mem (s : State) (w : BitVec 4) : (dropIdle s w).mem = s.mem := by
  unfold dropIdle; dsimp only; split <;> simp

@[simp] theorem failOver_wf (s : State) (w : BitVec 4) (slot : Nat) (hw : memWf s.mem = true) : memWf (failOver s w slot).mem = true := by
  unfold failOver
  refine foldl_wf _ (fun st u hs => ?_) _ _ hw
  split
  · split
    · exact failTask_wf _ _ _ _ hs
    · exact hs
  · exact hs

@[simp] theorem awaitCut_wf (w : BitVec 4) (subj : Task) (s : State) (t : Task) (hw : memWf s.mem = true) : memWf (awaitCut w subj s t).mem = true := by
  unfold awaitCut; simp [*]

theorem commitPreempt_wf {s : State} {w : BitVec 4} {d : Decision} {subj c : Option Task} {t : State} (hw : memWf s.mem = true)
    (h : commitPreempt s w d subj c = some t) : memWf t.mem = true := by
  unfold commitPreempt at h
  split at h
  · split at h
    · simp only [Option.map_eq_some_iff] at h
      obtain ⟨u, hu, rfl⟩ := h
      have := dispatchTask_wf hw (fun y0 y1 hy => awaitCut_wf _ _ _ _ hy) hu
      split <;> simp [this]
    · cases h; simp [hw]
  · cases h; simp [hw]

theorem commitOutcome_wf {s : State} {w : BitVec 4} {d : Decision} {o : Choice} {t : State} (hw : memWf s.mem = true)
    (h : commitOutcome s w d o = some t) : memWf t.mem = true := by
  unfold commitOutcome at h
  dsimp only at h
  split at h
  · split at h
    · split at h
      · simp only [Option.map_eq_some_iff] at h
        obtain ⟨u, hu, rfl⟩ := h
        simpa using dispatchTask_wf hw (fun y0 y1 hy => placeTask_wf _ _ _ _ hy) hu
      · (simp only [Option.some.injEq] at h; subst h); simp [hw]
    · (simp only [Option.some.injEq] at h; subst h); simp [hw]
  · exact commitPreempt_wf hw h
  · split at h <;> ((simp only [Option.some.injEq] at h; subst h); simp [hw])
  · split at h
    · split at h
      · simp only [Option.some.injEq] at h; subst h
        split <;> simp [hw]
      · (simp only [Option.some.injEq] at h; subst h); simp [hw]
    · (simp only [Option.some.injEq] at h; subst h); simp [hw]
  · split at h
    · split at h
      · (simp only [Option.some.injEq] at h; subst h); exact hw
      · split at h
        · (simp only [Option.some.injEq] at h; subst h); exact failCode_wf _ _ _ _ hw
        · (simp only [Option.some.injEq] at h; subst h); simp [hw]
    · (simp only [Option.some.injEq] at h; subst h); exact hw

@[simp] theorem refuse_mem (s : State) : (refuse s).mem = s.mem := by
  unfold refuse; simp [*]

@[simp] theorem takeMailbox_mem (s : State) : (takeMailbox s).mem = s.mem := by
  unfold takeMailbox; simp [*]

@[simp] theorem clearCells_wf (s : State) (cells : List Nat) (hw : memWf s.mem = true) : memWf (clearCells s cells).mem = true := by
  unfold clearCells; simp [*]

@[simp] theorem dropGranules_mem (s : State) (gs : List Nat) : (dropGranules s gs).mem = s.mem := rfl

@[simp] theorem freshGranules_wf (s : State) (gs : List Nat) (hw : memWf s.mem = true) : memWf (freshGranules s gs).mem = true := by
  unfold freshGranules; exact memWf_filter _ _ hw

@[simp] theorem giveAll_wf (s : State) (w : BitVec 4) (cells : List Nat) (granules : List Nat) (hw : memWf s.mem = true) : memWf (giveAll s w cells granules).mem = true := by
  unfold giveAll; simp [*]

@[simp] theorem doCreate_wf (w : BitVec 4) (prot : Bool) (sys : Bool) (cells : List Nat) (granules : List Nat) (s : State) (hw : memWf s.mem = true) : memWf (doCreate w prot sys cells granules s).mem = true := by
  unfold doCreate; (repeat' split) <;> simp [*]

@[simp] theorem doGrant_wf (w : BitVec 4) (cells : List Nat) (granules : List Nat) (s : State) (hw : memWf s.mem = true) : memWf (doGrant w cells granules s).mem = true := by
  unfold doGrant; dsimp only; (repeat' split) <;> simp [*]

@[simp] theorem doReclaim_wf (w : BitVec 4) (cells : List Nat) (granules : List Nat) (s : State) (hw : memWf s.mem = true) : memWf (doReclaim w cells granules s).mem = true := by
  unfold doReclaim; dsimp only; (repeat' split) <;> simp [*]

@[simp] theorem loseLine_wf (s : State) (line : Nat) (hw : memWf s.mem = true) : memWf (loseLine s line).mem = true := by
  unfold loseLine; simp [hw]

@[simp] theorem retireSlot_wf (w : BitVec 4) (s : State) (slot : Nat) (hw : memWf s.mem = true) : memWf (retireSlot w s slot).mem = true := by
  unfold retireSlot; dsimp only; split
  · exact hw
  · exact foldl_wf _ (fun st l hs => loseLine_wf _ _ hs) _ _ hw

@[simp] theorem doKeyInstall_mem (b : Requester) (w : BitVec 4) (slot : BitVec 8) (keys : KeySet) (s : State) : (doKeyInstall b w slot keys s).mem = s.mem := by
  unfold doKeyInstall; (repeat' split) <;> simp [*]

@[simp] theorem doKeyRetire_wf (b : Requester) (w : BitVec 4) (slot : BitVec 8) (s : State) (hw : memWf s.mem = true) : memWf (doKeyRetire b w slot s).mem = true := by
  unfold doKeyRetire; split <;> simp [hw]

@[simp] theorem doKekInstall_mem (w : BitVec 4) (kek : BitVec 256) (s : State) : (doKekInstall w kek s).mem = s.mem := by
  unfold doKekInstall; dsimp only; (repeat' split) <;> simp [*]

@[simp] theorem doKeyImport_mem (w : BitVec 4) (kek : BitVec 256) (blob : List (Nat × KeySet)) (nctrs : List (Nat × Nat)) (s : State) : (doKeyImport w kek blob nctrs s).mem = s.mem := by
  unfold doKeyImport; dsimp only; (repeat' split) <;> simp [*]

@[simp] theorem destroyWorld_wf (s : State) (w : BitVec 4) (hw : memWf s.mem = true) : memWf (destroyWorld s w).mem = true := by
  unfold destroyWorld
  extract_lets s1 s2 cs s3
  have h1 : memWf s1.mem = true := foldl_wf _ (fun st e hs => dropConfig_wf _ _ _ (by simpa using hs)) _ _ hw
  have h2 : memWf s2.mem = true := foldl_wf _ (fun st e hs => retireSlot_wf _ _ _ hs) _ _ h1
  have h3 : memWf s3.mem = true := clearCells_wf _ _ h2
  simpa using h3

@[simp] theorem doDestroy_wf (w : BitVec 4) (s : State) (hw : memWf s.mem = true) : memWf (doDestroy w s).mem = true := by
  unfold doDestroy; simp [*]

@[simp] theorem doUnlock_mem (t : DebugToken) (s : State) : (doUnlock t s).mem = s.mem := by
  unfold doUnlock; (repeat' split) <;> simp [*]

@[simp] theorem doUnlockChallenge_mem (nonce : BitVec 256) (s : State) : (doUnlockChallenge nonce s).mem = s.mem := by
  unfold doUnlockChallenge; simp [*]

theorem tdi_mem (s : State) (w : BitVec 4) (body : State → World → State) (hb : ∀ t x, (body t x).mem = t.mem) :
    (tdi s w body).mem = s.mem := by
  unfold tdi; extract_lets x; split <;> simp [hb]

@[simp] theorem doGetTdispVersion_mem (w : BitVec 4) (s : State) : (doGetTdispVersion w s).mem = s.mem :=
  tdi_mem s w _ (fun _ _ => by (try split) <;> simp)

@[simp] theorem doGetTdispCapabilities_mem (w : BitVec 4) (s : State) : (doGetTdispCapabilities w s).mem = s.mem :=
  tdi_mem s w _ (fun _ _ => by (try split) <;> simp)

@[simp] theorem doLockInterfaceRequest_mem (w : BitVec 4) (s : State) : (doLockInterfaceRequest w s).mem = s.mem :=
  tdi_mem s w _ (fun _ _ => by (try split) <;> simp)

@[simp] theorem doStartInterfaceRequest_mem (w : BitVec 4) (s : State) : (doStartInterfaceRequest w s).mem = s.mem :=
  tdi_mem s w _ (fun _ _ => by (try split) <;> simp)

@[simp] theorem doStopInterfaceRequest_mem (w : BitVec 4) (s : State) : (doStopInterfaceRequest w s).mem = s.mem :=
  tdi_mem s w _ (fun _ _ => by (try split) <;> simp)

@[simp] theorem doGetDeviceInterfaceState_mem (w : BitVec 4) (s : State) : (doGetDeviceInterfaceState w s).mem = s.mem :=
  tdi_mem s w _ (fun _ _ => by (try split) <;> simp)

@[simp] theorem doGetDeviceInterfaceReport_mem (w : BitVec 4) (s : State) : (doGetDeviceInterfaceReport w s).mem = s.mem :=
  tdi_mem s w _ (fun _ _ => by (try split) <;> simp)

@[simp] theorem doGetMeasurements_mem (u0 : BitVec 4) (s : State) : (doGetMeasurements u0 s).mem = s.mem := by
  unfold doGetMeasurements; simp [*]

@[simp] theorem doSpdmSessionEstablish_mem (w : BitVec 4) (s : State) : (doSpdmSessionEstablish w s).mem = s.mem := by
  unfold doSpdmSessionEstablish; dsimp only; (repeat' split) <;> simp [*]

@[simp] theorem doIdeKm_mem (w : BitVec 4) (s : State) : (doIdeKm w s).mem = s.mem := by
  unfold doIdeKm; dsimp only; (repeat' split) <;> simp [*]

@[simp] theorem doRequest_wf (r : Request) (s : State) (hw : memWf s.mem = true) : memWf (doRequest r s).mem = true := by
  unfold doRequest; (repeat' split) <;> simp [*]

@[simp] theorem sendMarkers_mem (s : State) (x : CtxId) (epoch : Nat) (chans : List Nat) : (sendMarkers s x epoch chans).mem = s.mem := by
  unfold sendMarkers; simp [*]

@[simp] theorem updCut_mem (s : State) (n : NodeId) (f : CutSt → CutSt) : (updCut s n f).mem = s.mem := by
  unfold updCut; simp [*]

@[simp] theorem takeMarkers_mem (s : State) (n : NodeId) (chans : List Nat) : (takeMarkers s n chans).mem = s.mem := by
  unfold takeMarkers; simp [*]

@[simp] theorem cutNode_mem (s : State) (n : NodeId) : (cutNode s n).mem = s.mem := by
  unfold cutNode; simp [*]

@[simp] theorem recordNode_mem (s : State) (n : NodeId) : (recordNode s n).mem = s.mem := by
  unfold recordNode; (repeat' split) <;> simp [*]

@[simp] theorem requeue_wf (s : State) (w : BitVec 4) (t : Task) (hw : memWf s.mem = true) : memWf (requeue s w t).mem = true := by
  unfold requeue; simp [*]

@[simp] theorem clearHits_mem (s : State) (x : CtxId) : (clearHits s x).mem = s.mem := by
  unfold clearHits; simp [*]

@[simp] theorem writeImage_wf (s : State) (x : CtxId) (k : CutSt) (t : Task) (pa body : Nat) (hw : memWf s.mem = true) :
    memWf (writeImage s x k t pa body).mem = true := by
  unfold writeImage
  dsimp only
  exact requeue_wf _ _ _ (devWrite_wf _ _ (unloadCtx_wf _ _ _ (by simpa using hw)))

@[simp] theorem badHeader_wf (s : State) (x : CtxId) (k : CutSt) (hw : memWf s.mem = true) : memWf (badHeader s x k).mem = true := by
  unfold badHeader; dsimp only; (repeat' split) <;> simp [*]

@[simp] theorem failSave_wf (s : State) (x : CtxId) (k : CutSt) (hw : memWf s.mem = true) : memWf (failSave s x k).mem = true := by
  unfold failSave
  extract_lets c o cells s1 d2 s2 s3
  have h2 : memWf s2.mem = true := badHeader_wf _ _ _ hw
  have h3 : memWf s3.mem = true := logOnly_wf _ _ _ h2
  split
  · exact clearCells_wf _ _ (failTask_wf _ _ _ _ h3)
  · exact h3

@[simp] theorem restoreFirings_mem (mv : Nat → Nat) (away : Nat) (x0 : State) (x1 : List Firing) : (restoreFirings mv away x0 x1).1.mem = x0.mem := by
  induction x1 generalizing x0 <;> (simp [restoreFirings, *])

@[simp] theorem startTimers_mem (s : State) (l : List PTok) : (startTimers s l).mem = s.mem := by
  refine foldl_mem _ (fun st c => ?_) _ _
  split <;> rfl

@[simp] theorem placeSaved_wf (s : State) (x : CtxId) (v : Saved) (hw : memWf s.mem = true) : memWf (placeSaved s x v).mem = true := by
  unfold placeSaved; simp [*]

@[simp] theorem finishSwap_mem (s : State) (x : CtxId) (v : Saved) : (finishSwap s x v).mem = s.mem := by
  unfold finishSwap; dsimp only; (repeat' split) <;> simp [*]

@[simp] theorem showLinks_mem (s : State) : (showLinks s).mem = s.mem := by
  unfold showLinks; (repeat' split) <;> simp [*]

@[simp] theorem setReady_mem (s : State) (fn : Nat) : (setReady s fn).mem = s.mem := by
  unfold setReady; (repeat' split) <;> simp [*]

@[simp] theorem dropHostLines_mem (s : State) : (dropHostLines s).mem = s.mem := by
  unfold dropHostLines; simp [*]

@[simp] theorem writeBadc_mem (s : State) (i : Nat) (v : Word64) : (writeBadc s i v).mem = s.mem := by
  unfold writeBadc
  dsimp only
  rw [cutBad_mem]
  split <;> simp

@[simp] theorem refuseDebug_mem (s : State) : (refuseDebug s).mem = s.mem := rfl

@[simp] theorem writeBkpt_mem (s : State) (k : Nat) (j : Nat) (v : Word64) : (writeBkpt s k j v).mem = s.mem := by
  unfold writeBkpt; dsimp only; (repeat' split) <;> simp [*]

@[simp] theorem writeQspire_mem (s : State) (v : Word64) : (writeQspire s v).mem = s.mem := by
  unfold writeQspire; simp [*]

@[simp] theorem fillBuckets_mem (s : State) : (fillBuckets s).mem = s.mem := rfl

@[simp] theorem writePwr_mem (s : State) (d : Nat) (v : Word64) : (writePwr s d v).mem = s.mem := by
  unfold writePwr; simp [*]

@[simp] theorem writeDomid_mem (s : State) (v : Word64) : (writeDomid s v).mem = s.mem := by
  unfold writeDomid; dsimp only; (repeat' split) <;> simp [*]

@[simp] theorem writeWqos_mem (s : State) (w : Nat) (v : Word64) : (writeWqos s w v).mem = s.mem := by
  unfold writeWqos; dsimp only; (repeat' split) <;> simp [*]

@[simp] theorem writeSave_mem (s : State) (w : Nat) (j : Nat) (v : Word64) : (writeSave s w j v).mem = s.mem := by
  unfold writeSave; simp [*]

theorem devmem (s : State) (d : Dev) : ({ s with dev := d } : State).mem = s.mem := rfl

@[simp] theorem writeRoute_mem (s : State) (i : Nat) (v : Word64)  : (writeRoute s i v).mem = s.mem := devmem _ _

@[simp] theorem writeBar_mem (s : State) (i : Nat) (v : Word64)  : (writeBar s i v).mem = s.mem := by
  unfold writeBar
  dsimp only
  simp only [apply_ite State.mem, writeDomid_mem, writeWqos_mem, writeBadc_mem, putBreak_mem, writeBkpt_mem, writeSave_mem, writeQspire_mem, writePwr_mem, writeRoute_mem, ite_self]

@[simp] theorem performRemote_wf (s : State) (pa : Nat) (x0 : RemoteReq) (hw : memWf s.mem = true) : memWf (performRemote s pa x0).mem = true := by
  unfold performRemote; dsimp only; (repeat' split) <;> simp [*]

theorem takeTrigger_mem {s t : State} {w : BitVec 4} {f : Trigger → Bool} {g : Trigger} (h : takeTrigger s w f = some (t, g)) : t.mem = s.mem := by
  unfold takeTrigger at h
  dsimp only at h
  split at h
  · split at h
    · cases h; rfl
    · cases h
  · cases h

theorem execDispatchDecision_wf {s t : State} {w : BitVec 4} {slot : BitVec 6} (hw : memWf s.mem = true)
    (h : execDispatchDecision w slot s = .next t) : memWf t.mem = true := by
  unfold execDispatchDecision at h
  split at h
  · cases h; exact hw
  · next s1 _ h1 =>
    have hw1 : memWf s1.mem = true := by rw [takeTrigger_mem h1]; exact hw
    split at h
    · cases h; exact hw
    · next h2 =>
      have k := dispatchQuar_wf (failOver_wf _ _ _ hw1) h2
      split at h <;> cases h <;> simp [k]

theorem execPreemptDecision_wf {s t : State} {w : BitVec 4} {task : BitVec 32} (hw : memWf s.mem = true)
    (h : execPreemptDecision w task s = .next t) : memWf t.mem = true := by
  unfold execPreemptDecision at h
  split at h
  · next h1 _ => cases h; rw [startDecision_mem, takeTrigger_mem h1]; exact hw
  · cases h; exact hw

theorem execFaultDecision_wf {s t : State} {w : BitVec 4} {task : BitVec 32} (hw : memWf s.mem = true)
    (h : execFaultDecision w task s = .next t) : memWf t.mem = true := by
  unfold execFaultDecision at h
  split at h
  · next h1 _ => cases h; rw [startDecision_mem, takeTrigger_mem h1]; exact hw
  · cases h; exact hw

theorem execDecisionCommit_wf {s t : State} {w : BitVec 4} (hw : memWf s.mem = true) (h : execDecisionCommit w s = .next t) :
    memWf t.mem = true := by
  unfold execDecisionCommit at h
  dsimp only at h
  (repeat' split at h) <;> cases h <;> try exact hw
  next h1 => exact commitOutcome_wf (s := setWorld s w _) hw h1

theorem execPolicyBudgetExpiry_wf {s t : State} {w : BitVec 4} (hw : memWf s.mem = true) (h : execPolicyBudgetExpiry w s = .next t) :
    memWf t.mem = true := by
  unfold execPolicyBudgetExpiry at h
  dsimp only at h
  (repeat' split at h) <;> cases h <;> exact hw

theorem startDue_wf {s t : State} {w : BitVec 4} (hw : memWf s.mem = true) (h : startDue s w = .next t) : memWf t.mem = true := by
  unfold startDue at h
  split at h
  · exact execDispatchDecision_wf hw h
  · exact execPreemptDecision_wf hw h
  · exact execFaultDecision_wf hw h
  · cases h; exact hw

theorem forced_wf {s t : State} {w : BitVec 4} (hw : memWf s.mem = true) (h : forced s w = some t) : memWf t.mem = true := by
  unfold forced at h
  extract_lets ch at h
  have hc : ∀ r, ch r = some t → r = .next t := by
    intro r hr
    unfold ch at hr
    cases r with
    | next u => simp only at hr; split at hr <;> cases hr; rfl
    | fault _ => cases hr
    | refused _ => cases hr
  split at h
  · exact startDue_wf hw (hc _ h)
  · split at h
    · cases h
    · split at h
      · exact execDecisionCommit_wf hw (hc _ h)
      · split at h
        · exact execPolicyBudgetExpiry_wf hw (hc _ h)
        · split at h
          · have h2 := hc (.next _) h; cases h2; exact hw
          · cases h

/-- What a tick does: it makes an act that a decision still owes this cycle, or time passes. -/
theorem tick_cases (s : State) (n : Nat) :
    (∃ w t, forced s w = some t ∧ tick s n = t) ∨ ∃ k, k ≤ n ∧ tick s n = passTime (worldIds.foldl dropIdle s) k := by
  unfold tick
  split
  · next h =>
    obtain ⟨w, _, hw⟩ := List.exists_of_findSome?_eq_some h
    exact .inl ⟨w, _, hw, rfl⟩
  · exact .inr ⟨_, Nat.min_le_left _ _, rfl⟩

@[simp] theorem tick_wf (s : State) (n : Nat) (hw : memWf s.mem = true) : memWf (tick s n).mem = true := by
  obtain ⟨w, t, h, e⟩ | ⟨k, _, e⟩ := tick_cases s n
  · rw [e]; exact forced_wf hw h
  · rw [e]; exact passTime_wf _ _ (by rw [foldl_mem _ (fun st u => dropIdle_mem st u)]; exact hw)

@[simp] theorem windowWrite_wf (s : State) (w : BitVec 4) (t : State) (hs : memWf s.mem = true) (ht : memWf t.mem = true) :
    memWf (windowWrite s w t).mem = true := by
  unfold windowWrite; split
  · exact ht
  · exact hs

@[simp] theorem windowRead_mem (s : State) (w : BitVec 4) (x : Context) (reg : Nat) : (windowRead s w x reg).mem = s.mem := rfl

@[simp] theorem tookTurn_mem (r : Request) (s : State) : (tookTurn r s).mem = s.mem := by
  unfold tookTurn; dsimp only; (repeat' split) <;> rfl

@[simp] theorem poke_wf (s : State) (l : List Host.Cell) (hw : memWf s.mem = true) : memWf (poke s l).mem = true := devWrite_wf _ _ hw

@[simp] theorem alterBlock_mem (s : State) (n : NodeId) (blk : Nat) (hdr : Word128) (code : List Word128) : (alterBlock s n blk hdr code).mem = s.mem := rfl

@[simp] theorem replayInst_mem (ch : Option ChanId) (s : State) (b : BInst) : (replayInst ch s b).mem = s.mem := by
  unfold replayInst; simp

@[simp] theorem storeError_mem (s : State) (cell : Nat) (n : NodeId) (blk : Nat) : (storeError s cell n blk).mem = s.mem := by
  unfold storeError; dsimp only; rw [foldl_mem _ (fun st b => replayInst_mem _ st b)]

@[simp] theorem listHard_mem (s : State) (cell : Option Nat) : (listHard s cell).mem = s.mem := by
  unfold listHard; split <;> simp

@[simp] theorem dataError_wf (s : State) (cell seq : Nat) (held : Option Nat) (hw : memWf s.mem = true) : memWf (dataError s cell seq held).mem = true := by
  unfold dataError; (repeat' split) <;> simp [*]

@[simp] theorem moveOnly_wf (s : State) (x0 : Move) (hw : memWf s.mem = true) : memWf (moveOnly s x0).mem = true := by
  unfold moveOnly; (repeat' split) <;> simp [*]

end Sys2Proof.Machine
end

