-- ==== Sys2Proof/Laws/Bytes.lean ====
section
/-! SUPPORT. Reading memory after writing it, one byte and several. -/

namespace Sys2Proof.Machine

/-- A read after a write to the same address gives the byte written. -/
theorem byteAt_putByte_same (m : List Host.Cell) (a : Nat) (b : BitVec 8) : byteAt (putByte m a b) a = b :=
  mget_mput_same unlistedByte m a b

/-- A write leaves every other byte alone. -/
theorem byteAt_putByte_other (m : List Host.Cell) {a x : Nat} (h : x ≠ a) (b : BitVec 8) : byteAt (putByte m a b) x = byteAt m x :=
  mget_mput_other unlistedByte m h b

/-- Writing some bytes leaves every byte that is not among them alone. -/
theorem byteAt_putBytes_other (l : List Host.Cell) (m : List Host.Cell) {x : Nat} (h : ∀ c ∈ l, c.1 ≠ x) :
    byteAt (putBytes m l) x = byteAt m x := by
  induction l generalizing m with
  | nil => rfl
  | cons c l ih =>
    simp only [putBytes]
    rw [ih _ (fun d hd => h d (List.mem_cons_of_mem _ hd)), byteAt_putByte_other _ (Ne.symm (h c (by simp)))]

/-- After writing bytes at different addresses, each reads as written. -/
theorem byteAt_putBytes_same (l : List Host.Cell) (m : List Host.Cell) (hn : (l.map Prod.fst).Nodup)
    {a : Nat} {b : BitVec 8} (h : (a, b) ∈ l) : byteAt (putBytes m l) a = b := by
  induction l generalizing m with
  | nil => cases h
  | cons c l ih =>
    simp only [List.map_cons, List.nodup_cons] at hn
    simp only [putBytes]
    rcases List.mem_cons.mp h with rfl | h
    · rw [byteAt_putBytes_other]
      · exact byteAt_putByte_same m a b
      · intro d hd he
        exact hn.1 (List.mem_map.mpr ⟨d, hd, he⟩)
    · exact ih _ hn.2 h

/-- The addresses of little-endian bytes. -/
theorem mem_cellsOf {a n v : Nat} {c : Host.Cell} (h : c ∈ cellsOf a n v) : a ≤ c.1 ∧ c.1 < a + n := by
  induction n generalizing a v with
  | zero => cases h
  | succ n ih =>
    simp only [cellsOf, List.mem_cons] at h
    rcases h with rfl | h
    · exact ⟨by simp, by simp⟩
    · have := ih h; omega

theorem readLE_putBytes_other (l : List Host.Cell) (m : List Host.Cell) (a n : Nat) (h : ∀ c ∈ l, c.1 < a ∨ a + n ≤ c.1) :
    readLE (putBytes m l) a n = readLE m a n := by
  induction n generalizing a with
  | zero => rfl
  | succ n ih =>
    simp only [readLE]
    rw [byteAt_putBytes_other, ih]
    · intro c hc; have := h c hc; omega
    · intro c hc; have := h c hc; omega

/-- A number written little-endian reads back (R3). -/
theorem readLE_cellsOf (m : List Host.Cell) (a n v : Nat) : readLE (putBytes m (cellsOf a n v)) a n = v % 256 ^ n := by
  induction n generalizing m a v with
  | zero => simp [readLE, Nat.mod_one]
  | succ n ih =>
    simp only [readLE, cellsOf, putBytes]
    rw [byteAt_putBytes_other, byteAt_putByte_same, ih]
    · rw [Nat.pow_succ, Nat.mul_comm (256 ^ n) 256, Nat.mod_mul]
      simp
    · intro c hc
      have := mem_cellsOf hc
      omega

end Sys2Proof.Machine
end

