-- ==== Sys2Proof/Laws/Operands.lean ====
section
/-! SUPPORT. Laws of values: the slots of a packed value, and the elements of an element-wise result. -/

namespace Sys2Proof.Machine

/-! ### Slots -/

/-- Bit k of the packed valid mask, and bits of the packed payload at slot k. -/
theorem packSlots_spec (l : List (Option Slot)) (k : Nat) :
    (packSlots l).1 / 2 ^ k % 2 = (if ((l[k]?).getD none).isSome then 1 else 0)
      ∧ (packSlots l).2 / 2 ^ (32 * k) % 2 ^ 32 = (((l[k]?).getD none).map BitVec.toNat).getD 0 := by
  induction l generalizing k with
  | nil => simp [packSlots]
  | cons a l ih =>
    cases k with
    | zero =>
      cases a with
      | none => simp [packSlots]
      | some x =>
        have hx := x.isLt
        simp [packSlots]
        omega
    | succ k =>
      have h1 : 2 ^ (k + 1) = 2 * 2 ^ k := by rw [Nat.pow_succ, Nat.mul_comm]
      have h2 : 2 ^ (32 * (k + 1)) = 2 ^ 32 * 2 ^ (32 * k) := by rw [← Nat.pow_add]; congr 1; omega
      obtain ⟨ih1, ih2⟩ := ih k
      cases a with
      | none =>
        simp only [packSlots, List.getElem?_cons_succ, h1, h2]
        rw [Nat.mul_div_mul_left _ _ (by omega), Nat.mul_div_mul_left _ _ (by omega)]
        exact ⟨ih1, ih2⟩
      | some x =>
        have hx := x.isLt
        simp only [packSlots, List.getElem?_cons_succ, h1, h2]
        have e1 : (1 + 2 * (packSlots l).1) / (2 * 2 ^ k) = (packSlots l).1 / 2 ^ k := by
          rw [← Nat.div_div_eq_div_mul, Nat.add_mul_div_left 1 _ (by omega)]; simp
        have e2 : (x.toNat + 2 ^ 32 * (packSlots l).2) / (2 ^ 32 * 2 ^ (32 * k)) = (packSlots l).2 / 2 ^ (32 * k) := by
          rw [← Nat.div_div_eq_div_mul, Nat.add_mul_div_left _ _ (by decide), Nat.div_eq_of_lt hx, Nat.zero_add]
        rw [e1, e2]
        exact ⟨ih1, ih2⟩

theorem slotBits_eq (v : Val) (k : Nat) : slotBits v k = BitVec.ofNat 32 (v.slots.toNat / 2 ^ (32 * k)) := by
  unfold slotBits
  apply BitVec.eq_of_toNat_eq
  simp [BitVec.extractLsb'_toNat, Nat.shiftRight_eq_div_pow]

theorem getLsbD_ofNat_div (n x k : Nat) (hk : k < n) : (BitVec.ofNat n x).getLsbD k = decide (x / 2 ^ k % 2 = 1) := by
  rw [BitVec.getLsbD_ofNat, Nat.testBit_eq_decide_div_mod_eq]; simp [hk]

/-- A slot of a value made of sixteen slots. -/
theorem slotOf_ofSlots (l : List (Option Slot)) (k : Nat) (hk : k < 16) : slotOf (ofSlots l) k = (l[k]?).getD none := by
  obtain ⟨h1, h2⟩ := packSlots_spec l k
  unfold slotOf
  rw [slotBits_eq]
  simp only [ofSlots, getLsbD_ofNat_div _ _ _ hk, h1]
  cases hv : (l[k]?).getD none with
  | none => simp
  | some x =>
    rw [hv] at h2
    simp only [Option.isSome_some, if_true, decide_true, Option.some.injEq]
    apply BitVec.eq_of_toNat_eq
    simp only [BitVec.toNat_ofNat]
    simp only [Option.map_some, Option.getD_some] at h2
    rw [← h2]
    have hp : 2 ^ 512 = 2 ^ (32 * k) * (2 ^ 32 * 2 ^ (480 - 32 * k)) := by
      rw [← Nat.pow_add, ← Nat.pow_add]; congr 1; omega
    rw [hp, Nat.mod_mul_right_div_self, Nat.mod_mul_right_mod]

/-- A slot of a value made slot by slot. -/
@[simp] theorem slotOf_valOf (f : Nat → Option Slot) (k : Nat) (hk : k < 16) : slotOf (valOf f) k = f k := by
  unfold valOf
  rw [slotOf_ofSlots _ _ hk]
  simp [List.getElem?_map, List.getElem?_range hk]

/-- A slot of a value given by its first slots. -/
theorem slotOf_firstSlots (l : List Slot) (k : Nat) (hk : k < 16) : slotOf (firstSlots l) k = l[k]? := by
  unfold firstSlots
  rw [slotOf_ofSlots _ _ hk, List.getElem?_append]
  split
  · next h => simp at h; simp [h]
  · next h =>
    simp at h
    rw [List.getElem?_replicate, List.getElem?_eq_none h]
    split <;> rfl

/-- The valid bit of a slot says whether the slot is there. -/
theorem valid_eq_isSome (v : Val) (k : Nat) : v.valid.getLsbD k = (slotOf v k).isSome := by
  unfold slotOf; split <;> simp_all

theorem slotOf_word32 (x k : Nat) (hk : k < 16) : slotOf (word32 x) k = if k = 0 then some (BitVec.ofNat 32 x) else none := by
  unfold word32
  rw [slotOf_firstSlots _ _ hk]
  cases k <;> simp

/-! ### Elements -/

/-- The bits of element n of packed elements. -/
theorem packElems_spec (w : Nat) (l : List (Option Nat)) (n : Nat) :
    packElems w l / 2 ^ (n * w) % 2 ^ w = ((l[n]?).getD none).getD 0 % 2 ^ w := by
  induction l generalizing n with
  | nil => simp [packElems]
  | cons a l ih =>
    have hp : 0 < 2 ^ w := Nat.pos_of_ne_zero (by simp)
    cases n with
    | zero => simp [packElems, Nat.add_mul_mod_self_left]
    | succ n =>
      have h : 2 ^ ((n + 1) * w) = 2 ^ w * 2 ^ (n * w) := by rw [← Nat.pow_add]; congr 1; rw [Nat.succ_mul, Nat.add_comm]
      simp only [packElems, List.getElem?_cons_succ, h]
      rw [← Nat.div_div_eq_div_mul, Nat.add_mul_div_left _ _ hp, Nat.div_eq_of_lt (Nat.mod_lt _ hp), Nat.zero_add]
      exact ih n

theorem packBits_spec (l : List Bool) (k : Nat) : packBits l / 2 ^ k % 2 = (if (l[k]?).getD false then 1 else 0) := by
  induction l generalizing k with
  | nil => simp [packBits]
  | cons b l ih =>
    cases k with
    | zero => cases b <;> simp [packBits] <;> omega
    | succ k =>
      simp only [packBits, List.getElem?_cons_succ, Nat.pow_succ]
      rw [← ih k, Nat.mul_comm (2 ^ k) 2, ← Nat.div_div_eq_div_mul]
      congr 2
      cases b <;> simp <;> omega

/-- The bits of an element lying in the 512 payload bits. -/
theorem elemBits_slots (w n x : Nat) (h : (n + 1) * w ≤ 512) (v : BitVec 16) :
    elemBits w { valid := v, slots := BitVec.ofNat 512 x } n = x / 2 ^ (n * w) % 2 ^ w := by
  unfold elemBits
  simp only [BitVec.toNat_ofNat]
  have hn : (n + 1) * w = n * w + w := Nat.succ_mul n w
  have hp : 2 ^ 512 = 2 ^ (n * w) * (2 ^ w * 2 ^ (512 - (n + 1) * w)) := by
    rw [← Nat.pow_add, ← Nat.pow_add]; congr 1; omega
  rw [hp, Nat.mod_mul_right_div_self, Nat.mod_mul_right_mod]

/-- The widths of elements. -/
def Width (w : Nat) : Prop := w = 4 ∨ w = 8 ∨ w = 16 ∨ w = 32 ∨ w = 64

theorem codeWidth_width (c : BitVec 4) : Width (codeWidth c) := by
  unfold Width codeWidth
  have : c.toNat % 4 < 4 := Nat.mod_lt _ (by decide)
  generalize c.toNat % 4 = k at this
  match k, this with
  | 0, _ => decide
  | 1, _ => decide
  | 2, _ => decide
  | 3, _ => decide

/-- An element of at most 32 bits as bits of its slot. -/
theorem elemBits_slot {w : Nat} (hw : w = 4 ∨ w = 8 ∨ w = 16 ∨ w = 32) (v : Val) (n : Nat) :
    elemBits w v n = (slotBits v (n * w / 32)).toNat / 2 ^ (n * w % 32) % 2 ^ w := by
  have hle : n * w % 32 + w ≤ 32 := by rcases hw with rfl | rfl | rfl | rfl <;> omega
  unfold elemBits
  rw [slotBits_eq, BitVec.toNat_ofNat]
  have e : n * w = 32 * (n * w / 32) + n * w % 32 := (Nat.div_add_mod _ 32).symm
  have hp : (2 : Nat) ^ 32 = 2 ^ (n * w % 32) * (2 ^ w * 2 ^ (32 - (n * w % 32 + w))) := by
    rw [← Nat.pow_add, ← Nat.pow_add]; congr 1; omega
  conv => lhs; rw [e]
  rw [Nat.pow_add, ← Nat.div_div_eq_div_mul]
  conv => rhs; rw [hp, Nat.mod_mul_right_div_self, Nat.mod_mul_right_mod]

/-- An element of 64 bits as its two slots. -/
theorem elemBits_pair (v : Val) (n : Nat) :
    elemBits 64 v n = (slotBits v (2 * n)).toNat + 2 ^ 32 * (slotBits v (2 * n + 1)).toNat := by
  unfold elemBits
  rw [slotBits_eq, slotBits_eq, BitVec.toNat_ofNat, BitVec.toNat_ofNat]
  have e1 : 32 * (2 * n) = n * 64 := by omega
  have e2 : 2 ^ (32 * (2 * n + 1)) = 2 ^ (n * 64) * 2 ^ 32 := by rw [← Nat.pow_add]; congr 1; omega
  rw [e1, e2, ← Nat.div_div_eq_div_mul]
  generalize v.slots.toNat / 2 ^ (n * 64) = y
  omega

theorem valid_cleanVal (v : Val) (k : Nat) (hk : k < 16) : (cleanVal v).valid.getLsbD k = v.valid.getLsbD k := by
  rw [valid_eq_isSome, valid_eq_isSome]; unfold cleanVal; rw [slotOf_valOf _ _ hk]

theorem slotBits_cleanVal (v : Val) (k : Nat) (hk : k < 16) (hv : v.valid.getLsbD k = true) : slotBits (cleanVal v) k = slotBits v k := by
  have h : slotOf (cleanVal v) k = slotOf v k := by unfold cleanVal; exact slotOf_valOf _ _ hk
  have hc := valid_cleanVal v k hk
  rw [hv] at hc
  simp only [slotOf, hv, hc, if_true, Option.some.injEq] at h
  exact h

/-- Clearing the payload of invalid slots changes no valid element. -/
theorem elemOf_cleanVal {w : Nat} (hw : Width w) (v : Val) (n : Nat) (hn : n < elemCount w) :
    elemOf w (cleanVal v) n = elemOf w v n := by
  unfold elemOf elemValid
  rcases hw with h | h | h | h | rfl
  case inr.inr.inr.inr =>
    have hn : n < 8 := by simpa [elemCount] using hn
    simp only [if_true, valid_cleanVal v (2 * n) (by omega), valid_cleanVal v (2 * n + 1) (by omega)]
    split
    · next hv =>
      simp only [Bool.and_eq_true] at hv
      rw [elemBits_pair, elemBits_pair, slotBits_cleanVal v _ (by omega) hv.1, slotBits_cleanVal v _ (by omega) hv.2]
    · rfl
  all_goals
    have hs : n * w / 32 < 16 := by subst h; simp [elemCount] at hn; omega
    have h64 : w ≠ 64 := by omega
    simp only [h64, if_false, valid_cleanVal v _ hs]
    split
    · next hv => rw [elemBits_slot (by simp [h]), elemBits_slot (by simp [h]), slotBits_cleanVal v _ hs hv]
    · rfl

theorem elemsAt_isSome (w : Nat) (ops : List Val) (n : Nat) : (elemsAt w ops n).isSome = ops.all (fun v => elemValid w v n) := by
  unfold elemsAt
  induction ops with
  | nil => rfl
  | cons v l ih =>
    simp only [List.mapM_cons, List.all_cons]
    unfold elemOf at ih ⊢
    cases h : elemValid w v n
    · simp
    · simp only [if_true]
      cases hm : List.mapM (fun v => if elemValid w v n = true then some (elemBits w v n) else none) l with
      | none => rw [hm] at ih; simpa using ih
      | some x => rw [hm] at ih; simpa using ih

/-- A slot of small elements is full where any of its elements is present, when they are present together. -/
theorem slotFull_spec {w : Nat} (hw : w = 4 ∨ w = 8 ∨ w = 16 ∨ w = 32) (l : List (Option Nat)) (n : Nat) (hn : n < elemCount w)
    (hl : l.length = elemCount w)
    (hu : ∀ i j, i < elemCount w → j < elemCount w → i * w / 32 = j * w / 32 → ((l[i]?).getD none).isSome = ((l[j]?).getD none).isSome) :
    slotFull w l (n * w / 32) = ((l[n]?).getD none).isSome := by
  have h64 : w ≠ 64 := by omega
  have key : ∀ j, j < 32 / w → n * w / 32 * (32 / w) + j < elemCount w ∧ (n * w / 32 * (32 / w) + j) * w / 32 = n * w / 32 := by
    intro j hj
    rcases hw with rfl | rfl | rfl | rfl <;> simp [elemCount] at * <;> omega
  have own : n * w / 32 * (32 / w) ≤ n ∧ n - n * w / 32 * (32 / w) < 32 / w := by
    rcases hw with rfl | rfl | rfl | rfl <;> simp [elemCount] at * <;> omega
  generalize hm : 32 / w = m at key own
  simp only [slotFull, h64, if_false, hm]
  rw [Bool.eq_iff_iff]
  simp only [Bool.and_eq_true, List.all_eq_true, decide_eq_true_eq]
  constructor
  · intro hall
    have hmem : l[n]'(by omega) ∈ (l.drop (n * w / 32 * m)).take m := by
      rw [List.mem_take_iff_getElem]
      refine ⟨n - n * w / 32 * m, ?_, ?_⟩
      · simp; omega
      · simp only [List.getElem_drop]; congr 1; omega
    have := hall.1 _ hmem
    simpa [List.getElem?_eq_getElem (show n < l.length by omega)] using this
  · intro hsome
    refine ⟨?_, by omega⟩
    intro x hx
    rw [List.mem_take_iff_getElem] at hx
    obtain ⟨j, hj, rfl⟩ := hx
    simp only [List.length_drop] at hj
    have hk := key j (by omega)
    simp only [List.getElem_drop]
    have := hu n (n * w / 32 * m + j) hn hk.1 hk.2.symm
    rw [hsome, List.getElem?_eq_getElem (by omega)] at this
    simpa using this.symm

/-- Element n of packed elements, where the elements in a slot are present together. -/
theorem elemOf_ofElems {w : Nat} (hw : Width w) (l : List (Option Nat)) (n : Nat) (hn : n < elemCount w) (hl : l.length = elemCount w)
    (hu : ∀ i j, i < elemCount w → j < elemCount w → i * w / 32 = j * w / 32 → ((l[i]?).getD none).isSome = ((l[j]?).getD none).isSome)
    (hr : ∀ x, (l[n]?).getD none = some x → x < 2 ^ w) :
    elemOf w (ofElems w l) n = (l[n]?).getD none := by
  unfold ofElems
  rw [elemOf_cleanVal hw _ _ hn]
  have hvalid : ∀ k, k < 16 → (BitVec.ofNat 16 (packBits ((List.range 16).map (slotFull w l)))).getLsbD k = slotFull w l k := by
    intro k hk
    rw [getLsbD_ofNat_div _ _ _ hk, packBits_spec]
    simp [List.getElem?_map, List.getElem?_range hk]
  have hfull : elemValid w { valid := BitVec.ofNat 16 (packBits ((List.range 16).map (slotFull w l))), slots := BitVec.ofNat 512 (packElems w l) } n
      = ((l[n]?).getD none).isSome := by
    unfold elemValid
    rcases hw with h | h | h | h | rfl
    case inr.inr.inr.inr =>
      have hn8 : n < 8 := by simpa [elemCount] using hn
      have e1 : 2 * n / 2 = n := by omega
      have e2 : (2 * n + 1) / 2 = n := by omega
      simp only [if_true, hvalid (2 * n) (by omega), hvalid (2 * n + 1) (by omega), slotFull, e1, e2, List.getD_eq_getElem?_getD]
      simp
    all_goals
      have hs : n * w / 32 < 16 := by subst h; simp [elemCount] at hn; omega
      have h64 : w ≠ 64 := by omega
      simp only [h64, if_false, hvalid _ hs]
      exact slotFull_spec (by simp [h]) l n hn hl hu
  unfold elemOf
  rw [hfull]
  have hb : elemBits w { valid := BitVec.ofNat 16 (packBits ((List.range 16).map (slotFull w l))), slots := BitVec.ofNat 512 (packElems w l) } n
      = ((l[n]?).getD none).getD 0 % 2 ^ w := by
    rw [elemBits_slots, packElems_spec]
    unfold elemCount at hn
    have := Nat.mul_le_of_le_div w (n + 1) 512 hn
    exact this
  rw [hb]
  cases h : (l[n]?).getD none with
  | none => simp
  | some x => simp [Nat.mod_eq_of_lt (hr x h)]

/-- An element-wise result: element n is `f n` of the operands' elements n where all are valid (R45). -/
theorem elemOf_mapElems {w : Nat} (hw : Width w) (ops : List Val) (f : Nat → List Nat → Nat) (n : Nat) (hn : n < elemCount w)
    (hr : ∀ l, elemsAt w ops n = some l → f n l < 2 ^ w) :
    elemOf w (mapElems w ops f) n = (elemsAt w ops n).map (f n) := by
  unfold mapElems
  have hget : ∀ i, i < elemCount w → (((List.range (elemCount w)).map (fun n => (elemsAt w ops n).map (f n)))[i]?).getD none = (elemsAt w ops i).map (f i) := by
    intro i hi
    simp [List.getElem?_map, List.getElem?_range hi]
  rw [elemOf_ofElems hw _ n hn (by simp), hget n hn]
  · intro i j hi hj hij
    rw [hget i hi, hget j hj]
    simp only [Option.isSome_map, elemsAt_isSome]
    congr 1
    funext v
    unfold elemValid
    rcases hw with rfl | rfl | rfl | rfl | rfl
    case inr.inr.inr.inr =>
      have : i = j := by omega
      rw [this]
    all_goals simp [hij]
  · intro x hx
    rw [hget n hn] at hx
    cases he : elemsAt w ops n with
    | none => rw [he] at hx; cases hx
    | some l => rw [he] at hx; cases hx; exact hr l he

end Sys2Proof.Machine
end

