-- ==== Sys2Proof/Laws/Ops.lean ====
section
/-! SUPPORT. What the shared forms of instructions do: fire, act as guarded off, or wait; and what holds of every
next state that they answer. -/

namespace Sys2Proof.Machine

open Sys2Proof

theorem Fmt.cont_width (e : Fmt) : Width e.cont := by
  unfold Fmt.cont Width
  (repeat' split) <;> simp

/-! ### The common form -/

theorem withOps_fires {h : Hdr} {consts : Nat → Val} {s : State} {b : BInst} {xs : List Val} (off : BInst → BInst)
    (body : BInst → List Val → State) (hf : Fires h consts s b xs) : withOps h consts s off body = .next (body b xs) := by
  obtain ⟨⟨h1, h2, h3⟩, h4, h5⟩ := hf
  unfold withOps
  simp [h1, h2, h3, h4, h5]

theorem withOps_off {h : Hdr} {consts : Nat → Val} {s : State} {b : BInst} {xs : List Val} (off : BInst → BInst)
    (body : BInst → List Val → State) (he : Executes s b) (hr : Ready h consts b false xs) :
    withOps h consts s off body = .next (putInst s (off b)) := by
  obtain ⟨h1, h2, h3⟩ := he
  obtain ⟨h4, h5⟩ := hr
  unfold withOps
  simp [h1, h2, h3, h4, h5]

/-- Everything the common form can answer. -/
theorem withOps_cases {h : Hdr} {consts : Nat → Val} {s t : State} {off : BInst → BInst} {body : BInst → List Val → State}
    (ht : withOps h consts s off body = .next t) :
    t = s ∨ (∃ b xs, Executes s b ∧ Ready h consts b false xs ∧ t = putInst s (off b))
      ∨ (∃ b xs, Fires h consts s b xs ∧ t = body b xs) := by
  unfold withOps at ht
  split at ht
  · cases ht; exact .inl rfl
  · next b hb =>
    split at ht
    · cases ht; exact .inl rfl
    · next hn =>
      have he : Executes s b := ⟨hb, by simp at hn; exact hn.1, by simp at hn; exact hn.2⟩
      split at ht
      · next g xs hg hx =>
        cases ht
        cases g with
        | true => exact .inr (.inr ⟨b, xs, ⟨he, hg, hx⟩, rfl⟩)
        | false => exact .inr (.inl ⟨b, xs, he, ⟨hg, hx⟩, rfl⟩)
      · cases ht; exact .inl rfl

/-- The common form always answers a next state. -/
theorem withOps_next (h : Hdr) (consts : Nat → Val) (s : State) (off : BInst → BInst) (body : BInst → List Val → State) :
    ∃ t, withOps h consts s off body = .next t := by
  unfold withOps
  (repeat' split) <;> exact ⟨_, rfl⟩

/-- What holds of the state and of every replacement and body holds of every next state. -/
theorem withOps_keeps {P : State → Prop} {h : Hdr} {consts : Nat → Val} {s : State} {off : BInst → BInst}
    {body : BInst → List Val → State} (h0 : P s) (ho : ∀ b, P (putInst s (off b))) (hb : ∀ b xs, P (body b xs)) :
    ∀ t, withOps h consts s off body = .next t → P t := by
  intro t ht
  obtain rfl | ⟨b, _, _, _, rfl⟩ | ⟨b, xs, _, rfl⟩ := withOps_cases ht
  · exact h0
  · exact ho b
  · exact hb b xs

/-! ### Instructions that change their own instance alone -/

theorem pureOp_fires {h : Hdr} {consts : Nat → Val} {s : State} {b : BInst} {xs : List Val} (aux : BitVec 12)
    (f : BInst → List Val → Deliv) (hf : Fires h consts s b xs) :
    pureOp h consts aux s f = .next (putInst s (advance 1 (deliver h aux (f b xs) b))) := withOps_fires _ _ hf

theorem fmtOp_fires {h : Hdr} {consts : Nat → Val} {s : State} {b : BInst} {xs : List Val} {check : BInst → Option Nat}
    (f : BInst → List Val → Deliv) (hf : Fires h consts s b xs) (hc : check b = none) :
    fmtOp h consts s check f = .next (putInst s (advance 1 (deliver h 0 (f b xs) b))) := by
  unfold fmtOp
  rw [withOps_fires _ _ hf, hc]

theorem fmtOp_raises {h : Hdr} {consts : Nat → Val} {s : State} {b : BInst} {xs : List Val} {check : BInst → Option Nat} {i : Nat}
    (f : BInst → List Val → Deliv) (hf : Fires h consts s b xs) (hc : check b = some i) :
    fmtOp h consts s check f = .next (raiseFormat s b i) := by
  unfold fmtOp
  rw [withOps_fires _ _ hf, hc]

/-! ### Instructions that wait for the older instances of their invocation -/

theorem memOp_fires {h : Hdr} {s : State} {b : BInst} {xs : List Val} (body : BInst → List Val → State)
    (hf : Fires h (k0Const 0) s b xs) (ha : Alone s b) : memOp h s body = .next (body b xs) := by
  unfold memOp
  rw [hf.exec.focus]
  simp only [show olderOfInv s b = false from ha, Bool.false_eq_true, if_false]
  exact withOps_fires _ _ hf

theorem memOp_waits {h : Hdr} {s : State} {b : BInst} (body : BInst → List Val → State) (hb : focusInst s = some b)
    (ho : olderOfInv s b = true) : memOp h s body = .next s := by
  unfold memOp
  rw [hb]
  simp [ho]

theorem memOp_keeps {P : State → Prop} {h : Hdr} {s : State} {body : BInst → List Val → State} (h0 : P s)
    (ho : ∀ b, P (putInst s (skipInst h b))) (hb : ∀ b xs, P (body b xs)) : ∀ t, memOp h s body = .next t → P t := by
  intro t ht
  unfold memOp at ht
  split at ht
  · cases ht; exact h0
  · split at ht
    · cases ht; exact h0
    · exact withOps_keeps h0 ho hb t ht

theorem quotaOp_fires {h : Hdr} {p : PayQ} {s : State} {b : BInst} {xs : List Val} {l : List Slot} {sup : Bool}
    (body : BInst → List Slot → State) (hf : Fires h (k0Const p.k0) s b xs)
    (hl : xs.mapM (fun v => slotOf v 0) = some l) (hs : sup = true → inSupervisor s b = true) :
    quotaOp h p s sup body = .next (body b l) := by
  unfold quotaOp
  rw [withOps_fires _ _ hf, hl]
  cases sup with
  | false => simp
  | true => simp [hs rfl]

theorem quotaOp_keeps {P : State → Prop} {h : Hdr} {p : PayQ} {s : State} {sup : Bool} {body : BInst → List Slot → State} (h0 : P s)
    (ho : ∀ b, P (putInst s (skipInst h b))) (hr : ∀ b, P (raise s b (fail .permission))) (hb : ∀ b l, P (body b l)) :
    ∀ t, quotaOp h p s sup body = .next t → P t := by
  intro t ht
  unfold quotaOp at ht
  refine withOps_keeps h0 ho (fun b xs => ?_) t ht
  split
  · exact ho b
  · split
    · exact hr b
    · exact hb b _

theorem matrixOp_fires {h : Hdr} {p : PayX} {s : State} {b : BInst} {xs : List Val} {enabled : BInst → Bool}
    (body : BInst → List Val → State) (hf : Fires h (k0Const p.k0) s b xs) (ha : Alone s b) (he : enabled b = true) :
    matrixOp h p s enabled body = .next (body b xs) := by
  unfold matrixOp
  rw [hf.exec.focus]
  simp only [show olderOfInv s b = false from ha, Bool.false_eq_true, if_false]
  rw [withOps_fires _ _ hf]
  simp [he]

theorem matrixOp_keeps {P : State → Prop} {h : Hdr} {p : PayX} {s : State} {enabled : BInst → Bool} {body : BInst → List Val → State}
    (h0 : P s) (ho : ∀ b, P (putInst s (skipInst h b))) (hb : ∀ b xs, P (body b xs)) :
    ∀ t, matrixOp h p s enabled body = .next t → P t := by
  intro t ht
  unfold matrixOp at ht
  split at ht
  · cases ht; exact h0
  · split at ht
    · cases ht; exact h0
    · refine withOps_keeps h0 ho (fun b xs => ?_) t ht
      split
      · exact hb b xs
      · exact h0

/-! ### Finding instances and invocations -/

theorem isAt_self (b : BInst) : b.isAt b.cell b.seq = true := by simp [BInst.isAt]

/-- A replaced instance is found where it was. -/
theorem findInst_putInst (s : State) (b : BInst) (c q : Nat) (h : (findInst s b.cell b.seq).isSome = true) :
    findInst (putInst s b) c q = if b.cell = c ∧ b.seq = q then some b else findInst s c q := by
  unfold findInst putInst
  split
  · next hc =>
    obtain ⟨rfl, rfl⟩ := hc
    unfold findInst at h
    refine (find_updFirst (fun x => x.isAt b.cell b.seq) (fun _ => b) (fun _ _ => isAt_self b) s.insts).trans ?_
    cases hf : s.insts.find? (fun x => x.isAt b.cell b.seq) with
    | none => rw [hf] at h; cases h
    | some a => rfl
  · next hc =>
    refine find_updFirst_other (fun x => x.isAt b.cell b.seq) (fun x => x.isAt c q) (fun _ => b) ?_ s.insts
    intro a ha
    simp only [BInst.isAt, Bool.and_eq_true, beq_iff_eq] at ha
    constructor
    · simp only [BInst.isAt, Bool.and_eq_false_imp, beq_iff_eq, beq_eq_false_iff_ne]
      intro h1 h2
      exact hc ⟨ha.1.symm.trans h1, ha.2.symm.trans h2⟩
    · simp only [BInst.isAt, Bool.and_eq_false_imp, beq_iff_eq, beq_eq_false_iff_ne]
      intro h1 h2
      exact hc ⟨h1, h2⟩

/-- The instance in focus is found where it is. -/
theorem findInst_of_focus {s : State} {b : BInst} (h : focusInst s = some b) : findInst s b.cell b.seq = some b := by
  unfold focusInst at h
  split at h
  · next c q _ =>
    have := List.find?_some h
    simp only [BInst.isAt, Bool.and_eq_true, beq_iff_eq] at this
    rw [this.1, this.2]
    exact h
  · cases h

end Sys2Proof.Machine
end

