-- ==== Sys2Proof/Laws/Claims.lean ====
section
/-! SUPPORT. Small lemmas of the words that the statements use. -/

namespace Sys2Proof.Claims

open Sys2Proof Sys2Proof.Machine

theorem elemsAt_lt {w : Nat} {xs : List Val} {n : Nat} {l : List Nat} (h : elemsAt w xs n = some l) (k : Nat) : bitsAt l k < 2 ^ w := by
  unfold elemsAt at h
  induction xs generalizing l k with
  | nil => cases h; unfold bitsAt; exact Nat.pow_pos (by omega)
  | cons v xs ih =>
    rw [List.mapM_cons] at h
    unfold elemOf at h
    split at h
    · simp only [Option.pure_def, Option.bind_eq_bind, Option.bind_some] at h
      cases hm : List.mapM (fun v => elemOf w v n) xs with
      | none => unfold elemOf at hm; rw [hm] at h; cases h
      | some m =>
        unfold elemOf at hm
        rw [hm] at h
        cases h
        cases k with
        | zero => exact Nat.mod_lt _ (Nat.pow_pos (by omega))
        | succ k => exact ih hm k
    · cases h

theorem firstNonzero_predElem (w : Nat) (v : Val) : FirstNonzero w v (predElem w v) := by
  unfold FirstNonzero predElem elemOf
  cases elemValid w v 0 <;> simp

theorem elementsAre_mapElems {w : Nat} (hw : Width w) {xs : List Val} {f : Nat → List Nat → Nat} {g : Nat → List Nat → Nat → Prop}
    (h : ∀ n l, elemsAt w xs n = some l → f n l < 2 ^ w ∧ g n l (f n l)) : ElementsAre w xs (mapElems w xs f) g := by
  intro n hn
  have hm := elemOf_mapElems hw xs f n hn (fun l hl => (h n l hl).1)
  cases he : elemsAt w xs n with
  | none => rw [he] at hm; exact hm
  | some l => rw [he] at hm; exact ⟨f n l, hm, (h n l he).2⟩

/-- What an instruction that maps its elements delivers. -/
theorem elementWise_mapElems {r : Result} {h : Hdr} {s : State} {b : BInst} {w : Nat} (hw : Width w) {xs : List Val} {f : Nat → List Nat → Nat}
    {g : Nat → List Nat → Nat → Prop}
    (hr : r = .next (putInst s (advance 1 (deliver h 0 (same (mapElems w xs f) (predElem w (mapElems w xs f))) b))))
    (hg : ∀ n l, elemsAt w xs n = some l → f n l < 2 ^ w ∧ g n l (f n l)) : ElementWise r h s b w xs g :=
  ⟨_, _, hr, firstNonzero_predElem _ _, elementsAre_mapElems hw hg⟩

/-- A packed element is its low bits. -/
theorem ofElems_mod (w : Nat) (l : List (Option Nat)) : ofElems w l = ofElems w (l.map (Option.map (· % 2 ^ w))) := by
  unfold ofElems
  have hs : ∀ (a b : List (Option Nat)), a.map Option.isSome = b.map Option.isSome → slotFull w a = slotFull w b := by
    intro a b hab
    funext s
    unfold slotFull
    have hlen : a.length = b.length := by have := congrArg List.length hab; simpa using this
    split
    · have : (a.map Option.isSome).getD (s / 2) false = (b.map Option.isSome).getD (s / 2) false := by rw [hab]
      simp only [List.getD_eq_getElem?_getD, List.getElem?_map] at this ⊢
      cases ha : a[s / 2]? <;> cases hb : b[s / 2]? <;> rw [ha, hb] at this <;> simpa using this
    · rw [hlen]
      congr 1
      have : ∀ c : List (Option Nat), ((c.drop (s * (32 / w))).take (32 / w)).all Option.isSome
          = (((c.map Option.isSome).drop (s * (32 / w))).take (32 / w)).all id := by
        intro c; rw [← List.map_drop, ← List.map_take, List.all_map]; rfl
      rw [this, this, hab]
  have hpack : ∀ l : List (Option Nat), packElems w l = packElems w (l.map (Option.map (· % 2 ^ w))) := by
    intro l
    induction l with
    | nil => rfl
    | cons x l ih =>
      simp only [List.map_cons, packElems, ih]
      cases x <;> simp
  rw [hs l (l.map (Option.map (· % 2 ^ w))) (by simp [List.map_map, Function.comp_def]), hpack l]

theorem mapElems_mod (w : Nat) (xs : List Val) (f : Nat → List Nat → Nat) : mapElems w xs f = mapElems w xs (fun n l => f n l % 2 ^ w) := by
  unfold mapElems
  rw [ofElems_mod, List.map_map]
  congr 2
  funext n
  simp only [Function.comp]
  cases elemsAt w xs n <;> rfl

end Sys2Proof.Claims
end

