-- ==== Sys2Proof/Laws/Decode.lean ====
section
/-! SUPPORT. Laws of encoding and decoding: packing and unpacking bit fields are inverse, piece by piece. -/

namespace Sys2Proof

/-! ### Bit fields -/

/-- Every field fits its width. -/
def FieldsFit (l : List (Nat × Nat)) : Prop := ∀ e ∈ l, e.2 < 2 ^ e.1

/-- The bits that a list of widths takes. -/
def totalWidth (l : List Nat) : Nat := l.foldr (· + ·) 0

theorem unpack_pack (l : List (Nat × Nat)) (hl : FieldsFit l) : unpack (l.map Prod.fst) (pack l) = l.map Prod.snd := by
  induction l with
  | nil => rfl
  | cons e l ih =>
    obtain ⟨k, v⟩ := e
    have hv : v < 2 ^ k := hl (k, v) (by simp)
    have hp : 0 < 2 ^ k := Nat.pos_of_ne_zero (by simp)
    simp only [List.map_cons, pack, unpack, Nat.add_mul_mod_self_left, Nat.mod_eq_of_lt hv, Nat.add_mul_div_left _ _ hp,
      Nat.div_eq_of_lt hv, Nat.zero_add]
    rw [ih (fun e he => hl e (List.mem_cons_of_mem _ he))]

theorem pack_lt (l : List (Nat × Nat)) (hl : FieldsFit l) : pack l < 2 ^ totalWidth (l.map Prod.fst) := by
  induction l with
  | nil => decide
  | cons e l ih =>
    obtain ⟨k, v⟩ := e
    have hv : v < 2 ^ k := hl (k, v) (by simp)
    have ih := ih (fun e he => hl e (List.mem_cons_of_mem _ he))
    simp only [List.map_cons, totalWidth, List.foldr_cons, pack] at ih ⊢
    rw [Nat.pow_add]
    calc v + 2 ^ k * pack l < 2 ^ k + 2 ^ k * pack l := Nat.add_lt_add_right hv _
      _ = 2 ^ k * (pack l + 1) := by rw [Nat.mul_add, Nat.mul_one, Nat.add_comm]
      _ ≤ _ := Nat.mul_le_mul_left _ ih

theorem pack_append (a b : List (Nat × Nat)) : pack (a ++ b) = pack a + 2 ^ totalWidth (a.map Prod.fst) * pack b := by
  induction a with
  | nil => simp [pack, totalWidth]
  | cons e a ih =>
    obtain ⟨k, v⟩ := e
    simp only [List.cons_append, pack, ih, List.map_cons, totalWidth, List.foldr_cons, Nat.pow_add, Nat.mul_add, Nat.mul_assoc, Nat.add_assoc]

/-- A number below the total width is packed from its fields. -/
theorem pack_unpack (ks : List Nat) (w : Nat) (h : w < 2 ^ totalWidth ks) : pack (ks.zip (unpack ks w)) = w := by
  induction ks generalizing w with
  | nil => simp [totalWidth] at h; simp [pack, h]
  | cons k ks ih =>
    simp only [unpack, List.zip_cons_cons, pack]
    rw [ih]
    · exact Nat.mod_add_div w (2 ^ k)
    · simp only [totalWidth, List.foldr_cons, Nat.pow_add] at h
      exact Nat.div_lt_of_lt_mul h

/-! ### The pieces of the header -/

@[simp] theorem Rnd.read_code (r : Rnd) : Rnd.read r.code = some r := by cases r <;> rfl
@[simp] theorem GuardMode.read_code (m : GuardMode) : GuardMode.read m.code = some m := by cases m <;> rfl
@[simp] theorem Scope.read_code (s : Scope) : Scope.read s.code = some s := by cases s <;> rfl
@[simp] theorem Ord.read_code (o : Ord) : Ord.read o.code = some o := by cases o <;> rfl

theorem Rnd.code_lt (r : Rnd) : r.code < 2 ^ 3 := by cases r <;> decide
theorem GuardMode.code_lt (m : GuardMode) : m.code < 2 ^ 2 := by cases m <;> decide
theorem Scope.code_lt (s : Scope) : s.code < 2 ^ 3 := by cases s <;> decide
theorem Ord.code_lt (o : Ord) : o.code < 2 ^ 2 := by cases o <;> decide

@[simp] theorem Guard.read_code (g : Guard) : Guard.read g.code = some g := by
  obtain ⟨m0, m1, c⟩ := g
  cases m0 <;> cases m1 <;> cases c <;> rfl

theorem Guard.code_lt (g : Guard) : g.code < 2 ^ 5 := by
  obtain ⟨m0, m1, c⟩ := g
  cases m0 <;> cases m1 <;> cases c <;> decide

theorem Target.code_lt (t : Target) : t.code < 2 ^ 12 := by
  cases t with
  | none => decide
  | operand s p => have := s.isLt; have := p.isLt; simp only [Target.code, pack]; omega
  | pred s p => have := s.isLt; have := p.isLt; simp only [Target.code, pack]; omega
  | chan q => have := q.isLt; simp only [Target.code, pack]; omega

@[simp] theorem Target.read_code (t : Target) : Target.read t.code = some t := by
  unfold Target.read Target.code
  cases t with
  | none => rfl
  | operand s p =>
    have := unpack_pack [(3, p.toNat), (7, s.toNat), (2, 1)] (by intro e he; simp at he; rcases he with rfl | rfl | rfl <;> first | exact p.isLt | exact s.isLt | decide)
    simp only [List.map_cons, List.map_nil] at this
    rw [this]
    simp
  | pred s p =>
    have := unpack_pack [(3, p.toNat), (7, s.toNat), (2, 2)] (by intro e he; simp at he; rcases he with rfl | rfl | rfl <;> first | exact p.isLt | exact s.isLt | decide)
    simp only [List.map_cons, List.map_nil] at this
    rw [this]
    simp
  | chan q =>
    have := unpack_pack [(3, 0), (7, q.toNat), (2, 3)] (by intro e he; simp at he; rcases he with rfl | rfl | rfl <;> first | exact q.isLt | decide)
    simp only [List.map_cons, List.map_nil] at this
    rw [this]
    simp

theorem Hdr.fields_fit (h : Hdr) (op : Nat) (hop : op < 2 ^ 10) : FieldsFit (h.fields op) := by
  intro e he
  simp only [Hdr.fields, List.mem_cons, List.not_mem_nil, or_false] at he
  rcases he with rfl | rfl | rfl | rfl | rfl | rfl | rfl | rfl | rfl | rfl | rfl
  · exact h.sched.isLt
  · exact h.swz.isLt
  · exact h.hint.isLt
  · exact Target.code_lt _
  · exact Target.code_lt _
  · exact h.imask.isLt
  · exact h.nopd.isLt
  · exact Guard.code_lt _
  · exact Rnd.code_lt _
  · exact h.fmt.isLt
  · exact hop

/-- Reading a header back (R72). -/
theorem Hdr.read_fields (h : Hdr) (op : Nat) (hop : op < 2 ^ 10) : Hdr.read (pack (h.fields op)) = some (op, h) := by
  have hu := unpack_pack (h.fields op) (h.fields_fit op hop)
  have hk : (h.fields op).map Prod.fst = hdrWidths := rfl
  rw [hk] at hu
  unfold Hdr.read
  rw [hu]
  simp [Hdr.fields]

/-! ### Payloads (R78, R82) -/

theorem PayA.fit (p : PayA) : FieldsFit p.fields := by
  intro e he; simp only [PayA.fields, List.mem_cons, List.not_mem_nil, or_false] at he; rcases he with rfl; exact p.k.isLt
theorem PayA.read_fields (p : PayA) : PayA.read (pack p.fields) = some p := by
  obtain ⟨k⟩ := p; simp [PayA.read, PayA.fields, pack]

theorem PayC.fit (p : PayC) : FieldsFit p.fields := by
  intro e he
  simp only [PayC.fields, List.mem_cons, List.not_mem_nil, or_false] at he
  rcases he with rfl | rfl | rfl | rfl
  · exact p.k0.isLt
  · exact p.cctl.isLt
  · exact p.auxi.isLt
  · exact p.blk.isLt
theorem PayC.read_fields (p : PayC) : PayC.read (pack p.fields) = some p := by
  have hu := unpack_pack p.fields p.fit
  unfold PayC.read
  simp only [PayC.fields, List.map_cons, List.map_nil] at hu ⊢
  rw [hu]; simp

theorem PayL.fit (p : PayL) : FieldsFit p.fields := by
  intro e he
  simp only [PayL.fields, List.mem_cons, List.not_mem_nil, or_false] at he
  rcases he with rfl | rfl | rfl
  · exact p.k0.isLt
  · decide
  · exact p.lctl.isLt
theorem PayL.read_fields (p : PayL) : PayL.read (pack p.fields) = some p := by
  have hu := unpack_pack p.fields p.fit
  unfold PayL.read
  simp only [PayL.fields, List.map_cons, List.map_nil] at hu ⊢
  rw [hu]; simp

theorem PayV.fit (p : PayV) : FieldsFit p.fields := by
  intro e he
  simp only [PayV.fields, List.mem_cons, List.not_mem_nil, or_false] at he
  rcases he with rfl | rfl | rfl | rfl
  · exact p.k0.isLt
  · decide
  · exact p.vctl.isLt
  · exact p.dfmt.isLt
theorem PayV.read_fields (p : PayV) : PayV.read (pack p.fields) = some p := by
  have hu := unpack_pack p.fields p.fit
  unfold PayV.read
  simp only [PayV.fields, List.map_cons, List.map_nil] at hu ⊢
  rw [hu]; simp

theorem PayX.fit (p : PayX) : FieldsFit p.fields := by
  intro e he
  simp only [PayX.fields, List.mem_cons, List.not_mem_nil, or_false] at he
  rcases he with rfl | rfl | rfl | rfl | rfl
  · exact p.k0.isLt
  · decide
  · exact p.mctl.isLt
  · exact p.ofmt.isLt
  · exact p.bfmt.isLt
theorem PayX.read_fields (p : PayX) : PayX.read (pack p.fields) = some p := by
  have hu := unpack_pack p.fields p.fit
  unfold PayX.read
  simp only [PayX.fields, List.map_cons, List.map_nil] at hu ⊢
  rw [hu]; simp

theorem PayW.fit (p : PayW) : FieldsFit p.fields := by
  intro e he
  simp only [PayW.fields, List.mem_cons, List.not_mem_nil, or_false] at he
  rcases he with rfl | rfl | rfl | rfl | rfl | rfl | rfl
  · exact p.ofs.isLt
  · exact p.mctl.isLt
  · exact Ord.code_lt _
  · exact Scope.code_lt _
  · exact p.wsucc.isLt
  · exact p.wpred.isLt
  · exact p.wself.isLt
theorem PayW.read_fields (p : PayW) : PayW.read (pack p.fields) = some p := by
  have hu := unpack_pack p.fields p.fit
  unfold PayW.read
  simp only [PayW.fields, List.map_cons, List.map_nil] at hu ⊢
  rw [hu]; simp

theorem PayE.fit (p : PayE) : FieldsFit p.fields := by
  intro e he
  simp only [PayE.fields, List.mem_cons, List.not_mem_nil, or_false] at he
  rcases he with rfl | rfl | rfl | rfl
  · exact p.k0.isLt
  · decide
  · exact p.ectl.isLt
  · exact Scope.code_lt _
theorem PayE.read_fields (p : PayE) : PayE.read (pack p.fields) = some p := by
  have hu := unpack_pack p.fields p.fit
  unfold PayE.read
  simp only [PayE.fields, List.map_cons, List.map_nil] at hu ⊢
  rw [hu]; simp

theorem PayQ.fit (p : PayQ) : FieldsFit p.fields := by
  intro e he
  simp only [PayQ.fields, List.mem_cons, List.not_mem_nil, or_false] at he
  rcases he with rfl | rfl | rfl
  · exact p.k0.isLt
  · decide
  · exact p.qctl.isLt
theorem PayQ.read_fields (p : PayQ) : PayQ.read (pack p.fields) = some p := by
  have hu := unpack_pack p.fields p.fit
  unfold PayQ.read
  simp only [PayQ.fields, List.map_cons, List.map_nil] at hu ⊢
  rw [hu]; simp

theorem PayS.fit (p : PayS) : FieldsFit p.fields := by
  intro e he
  simp only [PayS.fields, List.mem_cons, List.not_mem_nil, or_false] at he
  rcases he with rfl | rfl | rfl
  · exact p.k0.isLt
  · decide
  · exact p.sreg.isLt
theorem PayS.read_fields (p : PayS) : PayS.read (pack p.fields) = some p := by
  have hu := unpack_pack p.fields p.fit
  unfold PayS.read
  simp only [PayS.fields, List.map_cons, List.map_nil] at hu ⊢
  rw [hu]; simp

theorem PayN.fit (p : PayN) : FieldsFit p.fields := by
  intro e he
  simp only [PayN.fields, List.mem_cons, List.not_mem_nil, or_false] at he
  rcases he with rfl | rfl | rfl | rfl | rfl | rfl
  · exact p.ext0.isLt
  · exact p.ext1.isLt
  · exact p.ext2.isLt
  · exact p.ext3.isLt
  · exact p.ext4.isLt
  · exact p.sh2.isLt
theorem PayN.fit1 (p : PayN) : FieldsFit p.fields1 := by
  intro e he
  simp only [PayN.fields1, List.mem_cons, List.not_mem_nil, or_false] at he
  rcases he with rfl | rfl | rfl
  · exact p.strides.isLt
  · exact p.sh1.isLt
  · exact p.sh0.isLt
theorem PayN.read_fields (p : PayN) : PayN.read (pack p.fields) (pack p.fields1) = some p := by
  have hu := unpack_pack p.fields p.fit
  have hv := unpack_pack p.fields1 p.fit1
  unfold PayN.read
  simp only [PayN.fields, PayN.fields1, List.map_cons, List.map_nil] at hu hv ⊢
  rw [hu, hv]; simp

/-! ### Words -/

/-- The two halves of a main word: its payload below, its header above. -/
theorem mainWord_halves (h : Hdr) (op : Nat) (l : List (Nat × Nat)) (hop : op < 2 ^ 10) (hl : FieldsFit l)
    (hw : totalWidth (l.map Prod.fst) = 64) :
    mainWord h op l % 2 ^ 64 = pack l ∧ mainWord h op l / 2 ^ 64 = pack (h.fields op) ∧ mainWord h op l < 2 ^ 128 := by
  have h1 := pack_lt l hl
  rw [hw] at h1
  have h2 : pack (h.fields op) < 2 ^ 64 := pack_lt _ (h.fields_fit op hop)
  unfold mainWord
  rw [pack_append, hw]
  refine ⟨?_, ?_, ?_⟩
  · rw [Nat.add_mul_mod_self_left, Nat.mod_eq_of_lt h1]
  · rw [Nat.add_mul_div_left _ _ (by decide), Nat.div_eq_of_lt h1, Nat.zero_add]
  · omega

/-- Decoding a main word comes to the table's row for its op (R72, R86). -/
theorem decodeMain_mainWord (h : Hdr) (op : Nat) (l : List (Nat × Nat)) (w1 : Nat) (hop : op < 2 ^ 10) (hl : FieldsFit l)
    (hw : totalWidth (l.map Prod.fst) = 64) {i : Instr} (ht : opTable op h (pack l) w1 = some (some i)) (hi : i.wf = true) :
    decodeMain (mainWord h op l) w1 = .ok i := by
  obtain ⟨h1, h2, h3⟩ := mainWord_halves h op l hop hl hw
  have h4 : pack (h.fields op) < 2 ^ 64 := pack_lt _ (h.fields_fit op hop)
  unfold decodeMain
  rw [h2, Nat.mod_eq_of_lt h4, Hdr.read_fields h op hop, h1]
  simp [ht, hi]

/-- A main instruction of one word is read back from the table's 128 bits. -/
theorem decodeTableWord_main (h : Hdr) (op : Nat) (l : List (Nat × Nat)) (hop : op < 2 ^ 10) (hl : FieldsFit l)
    (hw : totalWidth (l.map Prod.fst) = 64) {i : Instr} (ht : opTable op h (pack l) 0 = some (some i)) (hi : i.wf = true) :
    decodeTableWord 128 (mainWord h op l) = some i ∧ mainWord h op l < 2 ^ 128 := by
  have h3 := (mainWord_halves h op l hop hl hw).2.2
  refine ⟨?_, h3⟩
  unfold decodeTableWord
  simp only [Nat.reduceLeDiff, if_false]
  rw [Nat.mod_eq_of_lt h3, Nat.div_eq_of_lt h3]
  exact congrArg Except.toOption (decodeMain_mainWord h op l 0 hop hl hw ht hi)

/-- A loop nest is read back from the table's 256 bits. -/
theorem decodeTableWord_nest (h : Hdr) (op : Nat) (p : PayN) (hop : op < 2 ^ 10) {i : Instr}
    (ht : opTable op h (pack p.fields) (pack p.fields1) = some (some i)) (hi : i.wf = true) :
    decodeTableWord 256 (nestWord h op p) = some i ∧ nestWord h op p < 2 ^ 256 := by
  have h3 := (mainWord_halves h op p.fields hop p.fit rfl).2.2
  have h4 : pack p.fields1 < 2 ^ 128 := pack_lt _ p.fit1
  unfold nestWord
  refine ⟨?_, by omega⟩
  unfold decodeTableWord
  simp only [Nat.reduceLeDiff, if_false]
  rw [Nat.add_mul_mod_self_left, Nat.add_mul_div_left _ _ (by decide), Nat.mod_eq_of_lt h3, Nat.div_eq_of_lt h3, Nat.zero_add,
    Nat.mod_eq_of_lt h4, decodeMain_mainWord h op _ _ hop p.fit rfl ht hi]
  rfl

/-- The fields of a logit word (R194). -/
theorem unpack_logitWord (op d a b c imm : Nat) (h1 : op < 32) (h2 : d < 8) (h3 : a < 8) (h4 : b < 8) (h5 : c < 8) (h6 : imm < 2 ^ 32) :
    unpack [32, 15, 3, 3, 3, 3, 5] (logitWord op d a b c imm % 2 ^ 64) = [imm, 0, c, b, a, d, op] ∧ logitWord op d a b c imm < 2 ^ 64 := by
  have hf : FieldsFit [(32, imm), (15, 0), (3, c), (3, b), (3, a), (3, d), (5, op)] := by
    intro e he
    simp only [List.mem_cons, List.not_mem_nil, or_false] at he
    rcases he with rfl | rfl | rfl | rfl | rfl | rfl | rfl <;> first | assumption | decide
  have hl : logitWord op d a b c imm < 2 ^ 64 := pack_lt _ hf
  exact ⟨by rw [Nat.mod_eq_of_lt hl]; exact unpack_pack _ hf, hl⟩

/-- The fields of a policy word in register form (R328). -/
theorem unpack_polReg (op d a b : Nat) (h1 : op < 64) (h2 : d < 16) (h3 : a < 16) (h4 : b < 16) :
    unpack [14, 4, 4, 4, 6] (polReg op d a b % 2 ^ 32) = [0, b, a, d, op] ∧ polReg op d a b < 2 ^ 32 := by
  have hf : FieldsFit [(14, 0), (4, b), (4, a), (4, d), (6, op)] := by
    intro e he
    simp only [List.mem_cons, List.not_mem_nil, or_false] at he
    rcases he with rfl | rfl | rfl | rfl | rfl <;> first | assumption | decide
  have hl : polReg op d a b < 2 ^ 32 := pack_lt _ hf
  exact ⟨by rw [Nat.mod_eq_of_lt hl]; exact unpack_pack _ hf, hl⟩

/-- The fields of a policy word in immediate form (R328). -/
theorem unpack_polImm (op d a imm : Nat) (h1 : op < 64) (h2 : d < 16) (h3 : a < 16) (h4 : imm < 2 ^ 16) :
    unpack [16, 2, 4, 4, 6] (polImm op d a imm % 2 ^ 32) = [imm, 0, a, d, op] ∧ polImm op d a imm < 2 ^ 32 := by
  have hf : FieldsFit [(16, imm), (2, 0), (4, a), (4, d), (6, op)] := by
    intro e he
    simp only [List.mem_cons, List.not_mem_nil, or_false] at he
    rcases he with rfl | rfl | rfl | rfl | rfl <;> first | assumption | decide
  have hl : polImm op d a imm < 2 ^ 32 := pack_lt _ hf
  exact ⟨by rw [Nat.mod_eq_of_lt hl]; exact unpack_pack _ hf, hl⟩

/-- OP, D and A of a policy word in immediate form, as the register form's fields show them. -/
theorem unpack_polImm_op (op d a imm : Nat) (h1 : op < 64) (h2 : d < 16) (h3 : a < 16) (h4 : imm < 2 ^ 16) :
    ∃ low b, unpack [14, 4, 4, 4, 6] (polImm op d a imm % 2 ^ 32) = [low, b, a, d, op] := by
  have hl := (unpack_polImm op d a imm h1 h2 h3 h4).2
  rw [Nat.mod_eq_of_lt hl]
  have hx : FieldsFit [(4, a), (4, d), (6, op)] := by
    intro e he
    simp only [List.mem_cons, List.not_mem_nil, or_false] at he
    rcases he with rfl | rfl | rfl <;> assumption
  have hu := unpack_pack _ hx
  have e : polImm op d a imm / 2 ^ 14 / 2 ^ 4 = pack [(4, a), (4, d), (6, op)] := by
    simp only [polImm, pack]
    omega
  refine ⟨polImm op d a imm % 2 ^ 14, polImm op d a imm / 2 ^ 14 % 2 ^ 4, ?_⟩
  simp only [unpack, List.map_cons, List.map_nil] at hu ⊢
  rw [e, hu]

end Sys2Proof
end

