-- ==== Sys2Proof/Laws/Frames.lean ====
section
/-! SUPPORT.  What the machine's shared operations leave unchanged: one lemma for each pair of an operation and a field that the laws of the events
use. -/

namespace Sys2Proof.Machine

/-! ### The field cellOwner -/

@[simp] theorem foldl_cellOwner {α : Type} (f : State → α → State) (h : ∀ s a, (f s a).cellOwner = s.cellOwner) (l : List α) (s : State) :
    (l.foldl f s).cellOwner = s.cellOwner := by
  induction l generalizing s with
  | nil => rfl
  | cons a l ih => simp [ih, h]

@[simp] theorem sendVec_cellOwner (s : State) (w : BitVec 4) (vec : Nat) : (sendVec s w vec).cellOwner = s.cellOwner := by
  unfold sendVec; (repeat' split) <;> simp [*]

@[simp] theorem ownWrite_cellOwner (s : State) (w : BitVec 4) (a : Nat) (cells : List Host.Cell) : (ownWrite s w a cells).cellOwner = s.cellOwner := by
  unfold ownWrite; split <;> simp

@[simp] theorem ownPut_cellOwner (s : State) (w : BitVec 4) (a n v : Nat) : (ownPut s w a n v).cellOwner = s.cellOwner :=
  ownWrite_cellOwner _ _ _ _

@[simp] theorem setQueue_cellOwner (s : State) (w : BitVec 4) (q : Nat) (x : QueueSt) : (setQueue s w q x).cellOwner = s.cellOwner := by
  unfold setQueue; simp [*]

@[simp] theorem mirrorQueue_cellOwner (s : State) (w : BitVec 4) (q : Nat)  : (mirrorQueue s w q).cellOwner = s.cellOwner := by
  unfold mirrorQueue; simp [*]

@[simp] theorem updQueue_cellOwner (s : State) (w : BitVec 4) (q : Nat) (f : QueueSt → QueueSt)  : (updQueue s w q f).cellOwner = s.cellOwner := by
  unfold updQueue; simp [*]

@[simp] theorem writeRecord_cellOwner (s : State) (w : BitVec 4) (cmpla : Option Nat) (status : Nat) (cause : Nat) (task : BitVec 32) (tiles : Nat)  : (writeRecord s w cmpla status cause task tiles).cellOwner = s.cellOwner := by
  unfold writeRecord; (repeat' split) <;> simp [*]

@[simp] theorem updPkt_cellOwner (s : State) (w : BitVec 4) (q : Nat) (idx : Nat) (f : Pkt → Pkt)  : (updPkt s w q idx f).cellOwner = s.cellOwner := by
  unfold updPkt; simp [*]

@[simp] theorem consumePkt_cellOwner (s : State) (w : BitVec 4) (q : Nat) (idx : Nat)  : (consumePkt s w q idx).cellOwner = s.cellOwner := by
  unfold consumePkt; simp [*]

@[simp] theorem completePkt_cellOwner (s : State) (w : BitVec 4) (q : Nat) (idx : Nat) (status : Nat) (cause : Nat) (task : BitVec 32) (tiles : Nat)  : (completePkt s w q idx status cause task tiles).cellOwner = s.cellOwner := by
  unfold completePkt; simp [*]

@[simp] theorem dropWork_cellOwner (s : State) (w : BitVec 4) (x : Context) : (dropWork s w x).cellOwner = s.cellOwner := rfl

@[simp] theorem dropConfig_cellOwner (s : State) (w : BitVec 4) (x : Context)  : (dropConfig s w x).cellOwner = s.cellOwner := by
  unfold dropConfig; simp [*]

@[simp] theorem unloadCtx_cellOwner (s : State) (w : BitVec 4) (x : Context)  : (unloadCtx s w x).cellOwner = s.cellOwner := by
  unfold unloadCtx; rw [foldl_cellOwner _ (fun st e => completePkt_cellOwner _ _ _ _ _ _ _ _)]; simp

/-! ### The field ctxs -/

@[simp] theorem foldl_ctxs {α : Type} (f : State → α → State) (h : ∀ s a, (f s a).ctxs = s.ctxs) (l : List α) (s : State) :
    (l.foldl f s).ctxs = s.ctxs := by
  induction l generalizing s with
  | nil => rfl
  | cons a l ih => simp [ih, h]

@[simp] theorem devPut_ctxs (s : State) (a : Nat) (n : Nat) (v : Nat)  : (devPut s a n v).ctxs = s.ctxs := by
  unfold devPut; simp [*]

@[simp] theorem ownWrite_ctxs (s : State) (w : BitVec 4) (a : Nat) (cells : List Host.Cell) : (ownWrite s w a cells).ctxs = s.ctxs := by
  unfold ownWrite; split <;> simp

@[simp] theorem ownPut_ctxs (s : State) (w : BitVec 4) (a n v : Nat) : (ownPut s w a n v).ctxs = s.ctxs :=
  ownWrite_ctxs _ _ _ _

@[simp] theorem sendVec_ctxs (s : State) (w : BitVec 4) (vec : Nat) : (sendVec s w vec).ctxs = s.ctxs := by
  unfold sendVec; (repeat' split) <;> simp [*]

@[simp] theorem logRecord_ctxs (s : State) (x : CtxId) (slots : List Nat)  : (logRecord s x slots).ctxs = s.ctxs := by
  unfold logRecord; dsimp only; (repeat' split) <;> simp [*]

@[simp] theorem sendExc_ctxs (s : State) (x : CtxId) (c : Cause) (slots : List Nat) (valid : BitVec 16) : (sendExc s x c slots valid).ctxs = s.ctxs := by
  unfold sendExc; (repeat' split) <;> simp [*]

@[simp] theorem addTrigger_ctxs (s : State) (w : BitVec 4) (t : Trigger) : (addTrigger s w t).ctxs = s.ctxs := by
  unfold addTrigger; simp [*]

@[simp] theorem deliverRecord_ctxs (s : State) (o : Origin) (r : Report) (discards : Bool)  : (deliverRecord s o r discards).ctxs = s.ctxs := by
  unfold deliverRecord; dsimp only; (repeat' split) <;> simp [*]

@[simp] theorem emitTok_ctxs (s : State) (n : NodeId) (port : Nat) (t : Token) (owner : Option Colour) : (emitTok s n port t owner).ctxs = s.ctxs := by
  unfold emitTok; dsimp only; (repeat' split) <;> simp [*]

@[simp] theorem emitDones_ctxs (v : Inv) (x0 : State) (x1 : List Nat) : (emitDones v x0 x1).ctxs = x0.ctxs := by
  induction x1 generalizing x0 <;> (simp [emitDones, *])

@[simp] theorem sendGos_ctxs (v : Inv) (s : State) (l : List Nat) : (sendGos v s l).ctxs = s.ctxs := by
  unfold sendGos; simp [*]

@[simp] theorem leavePorts_ctxs (s : State) (gone : PTok → Bool) : (leavePorts s gone).ctxs = s.ctxs := by
  unfold leavePorts; simp [*]

@[simp] theorem dropUsed_ctxs (s : State) (cell : Nat) (seqs : List Nat) : (dropUsed s cell seqs).ctxs = s.ctxs := by
  unfold dropUsed; simp [*]

@[simp] theorem unuse_ctxs (s : State) (cell : Nat) (seq : Nat) : (unuse s cell seq).ctxs = s.ctxs := by
  unfold unuse; simp [*]

@[simp] theorem setQueue_ctxs (s : State) (w : BitVec 4) (q : Nat) (x : QueueSt) : (setQueue s w q x).ctxs = s.ctxs := by
  unfold setQueue; simp [*]

@[simp] theorem mirrorQueue_ctxs (s : State) (w : BitVec 4) (q : Nat)  : (mirrorQueue s w q).ctxs = s.ctxs := by
  unfold mirrorQueue; simp [*]

@[simp] theorem updQueue_ctxs (s : State) (w : BitVec 4) (q : Nat) (f : QueueSt → QueueSt)  : (updQueue s w q f).ctxs = s.ctxs := by
  unfold updQueue; simp [*]

@[simp] theorem putTask_ctxs (s : State) (w : BitVec 4) (t : Task) : (putTask s w t).ctxs = s.ctxs := by
  unfold putTask; simp [*]

@[simp] theorem takeSeq_ctxs (s : State) (cell : Nat) : (takeSeq s cell).1.ctxs = s.ctxs := by
  unfold takeSeq; simp [*]

@[simp] theorem cutBad_ctxs (s : State) : (cutBad s).ctxs = s.ctxs := by
  unfold cutBad
  exact foldl_ctxs _ (fun st w => setWorld_ctxs _ _ _) _ _

@[simp] theorem writeRecord_ctxs (s : State) (w : BitVec 4) (cmpla : Option Nat) (status : Nat) (cause : Nat) (task : BitVec 32) (tiles : Nat)  : (writeRecord s w cmpla status cause task tiles).ctxs = s.ctxs := by
  unfold writeRecord; (repeat' split) <;> simp [*]

@[simp] theorem updPkt_ctxs (s : State) (w : BitVec 4) (q : Nat) (idx : Nat) (f : Pkt → Pkt)  : (updPkt s w q idx f).ctxs = s.ctxs := by
  unfold updPkt; simp [*]

@[simp] theorem consumePkt_ctxs (s : State) (w : BitVec 4) (q : Nat) (idx : Nat)  : (consumePkt s w q idx).ctxs = s.ctxs := by
  unfold consumePkt; simp [*]

@[simp] theorem completePkt_ctxs (s : State) (w : BitVec 4) (q : Nat) (idx : Nat) (status : Nat) (cause : Nat) (task : BitVec 32) (tiles : Nat)  : (completePkt s w q idx status cause task tiles).ctxs = s.ctxs := by
  unfold completePkt; simp [*]

@[simp] theorem addDispatch_ctxs (s : State) (w : BitVec 4) (slot : Nat) : (addDispatch s w slot).ctxs = s.ctxs := rfl

@[simp] theorem cellsFree_ctxs (s : State) (w : BitVec 4) : (cellsFree s w).ctxs = s.ctxs :=
  foldl_ctxs (fun st k => addDispatch st w k) (fun _ _ => rfl) _ _

@[simp] theorem placeTask_ctxs (s : State) (w : BitVec 4) (t : Task) (quar : Bool)  : (placeTask s w t quar).ctxs = s.ctxs := by
  unfold placeTask; simp [*]

@[simp] theorem afterSubject_ctxs (s : State) (w : BitVec 4) (id : BitVec 32)  : (afterSubject s w id).ctxs = s.ctxs := by
  unfold afterSubject; (repeat' split) <;> simp [*]

@[simp] theorem requeue_ctxs (s : State) (w : BitVec 4) (t : Task)  : (requeue s w t).ctxs = s.ctxs := by
  unfold requeue; simp [*]

@[simp] theorem restoreFirings_ctxs (mv : Nat → Nat) (away : Nat) (x0 : State) (x1 : List Firing) : (restoreFirings mv away x0 x1).1.ctxs = x0.ctxs := by
  induction x1 generalizing x0 <;> (simp [restoreFirings, *])

@[simp] theorem startTimers_ctxs (s : State) (l : List PTok) : (startTimers s l).ctxs = s.ctxs := by
  refine foldl_ctxs _ (fun st c => ?_) _ _
  split <;> rfl

/-! ### The field dev -/

@[simp] theorem foldl_dev {α : Type} (f : State → α → State) (h : ∀ s a, (f s a).dev = s.dev) (l : List α) (s : State) :
    (l.foldl f s).dev = s.dev := by
  induction l generalizing s with
  | nil => rfl
  | cons a l ih => simp [ih, h]

@[simp] theorem devPut_dev (s : State) (a : Nat) (n : Nat) (v : Nat)  : (devPut s a n v).dev = s.dev := by
  unfold devPut; simp [*]

@[simp] theorem ownWrite_dev (s : State) (w : BitVec 4) (a : Nat) (cells : List Host.Cell) : (ownWrite s w a cells).dev = s.dev := by
  unfold ownWrite; split <;> simp

@[simp] theorem ownPut_dev (s : State) (w : BitVec 4) (a n v : Nat) : (ownPut s w a n v).dev = s.dev :=
  ownWrite_dev _ _ _ _

@[simp] theorem sendVec_dev (s : State) (w : BitVec 4) (vec : Nat) : (sendVec s w vec).dev = s.dev := by
  unfold sendVec; (repeat' split) <;> simp [*]

@[simp] theorem logRecord_dev (s : State) (x : CtxId) (slots : List Nat)  : (logRecord s x slots).dev = s.dev := by
  unfold logRecord; dsimp only; (repeat' split) <;> simp [*]

@[simp] theorem sendExc_dev (s : State) (x : CtxId) (c : Cause) (slots : List Nat) (valid : BitVec 16) : (sendExc s x c slots valid).dev = s.dev := by
  unfold sendExc; (repeat' split) <;> simp [*]

@[simp] theorem addTrigger_dev (s : State) (w : BitVec 4) (t : Trigger) : (addTrigger s w t).dev = s.dev := by
  unfold addTrigger; simp [*]

@[simp] theorem deliverRecord_dev (s : State) (o : Origin) (r : Report) (discards : Bool)  : (deliverRecord s o r discards).dev = s.dev := by
  unfold deliverRecord; dsimp only; (repeat' split) <;> simp [*]

@[simp] theorem logOnly_dev (s : State) (o : Origin) (r : Report)  : (logOnly s o r).dev = s.dev := by
  unfold logOnly; simp [*]

@[simp] theorem setQueue_dev (s : State) (w : BitVec 4) (q : Nat) (x : QueueSt) : (setQueue s w q x).dev = s.dev := by
  unfold setQueue; simp [*]

@[simp] theorem mirrorQueue_dev (s : State) (w : BitVec 4) (q : Nat)  : (mirrorQueue s w q).dev = s.dev := by
  unfold mirrorQueue; simp [*]

@[simp] theorem updQueue_dev (s : State) (w : BitVec 4) (q : Nat) (f : QueueSt → QueueSt)  : (updQueue s w q f).dev = s.dev := by
  unfold updQueue; simp [*]

@[simp] theorem putTask_dev (s : State) (w : BitVec 4) (t : Task) : (putTask s w t).dev = s.dev := by
  unfold putTask; simp [*]

@[simp] theorem dropTask_dev (s : State) (w : BitVec 4) (id : BitVec 32) : (dropTask s w id).dev = s.dev := by
  unfold dropTask; simp [*]

@[simp] theorem takeSeq_dev (s : State) (cell : Nat) : (takeSeq s cell).1.dev = s.dev := by
  unfold takeSeq; simp [*]

@[simp] theorem cutBad_dev (s : State) : (cutBad s).dev = s.dev := by
  unfold cutBad
  exact foldl_dev _ (fun st w => setWorld_dev _ _ _) _ _

@[simp] theorem setBind_dev (s : State) (spire : Nat) (c : Colour) (i : IterTag) (va : Nat) : (setBind s spire c i va).dev = s.dev := by
  unfold setBind; simp [*]

@[simp] theorem writeRecord_dev (s : State) (w : BitVec 4) (cmpla : Option Nat) (status : Nat) (cause : Nat) (task : BitVec 32) (tiles : Nat)  : (writeRecord s w cmpla status cause task tiles).dev = s.dev := by
  unfold writeRecord; (repeat' split) <;> simp [*]

@[simp] theorem updPkt_dev (s : State) (w : BitVec 4) (q : Nat) (idx : Nat) (f : Pkt → Pkt)  : (updPkt s w q idx f).dev = s.dev := by
  unfold updPkt; simp [*]

@[simp] theorem consumePkt_dev (s : State) (w : BitVec 4) (q : Nat) (idx : Nat)  : (consumePkt s w q idx).dev = s.dev := by
  unfold consumePkt; simp [*]

@[simp] theorem completePkt_dev (s : State) (w : BitVec 4) (q : Nat) (idx : Nat) (status : Nat) (cause : Nat) (task : BitVec 32) (tiles : Nat)  : (completePkt s w q idx status cause task tiles).dev = s.dev := by
  unfold completePkt; simp [*]

@[simp] theorem addDispatch_dev (s : State) (w : BitVec 4) (slot : Nat) : (addDispatch s w slot).dev = s.dev := rfl

@[simp] theorem cellsFree_dev (s : State) (w : BitVec 4) : (cellsFree s w).dev = s.dev :=
  foldl_dev (fun st k => addDispatch st w k) (fun _ _ => rfl) _ _

@[simp] theorem dropWork_dev (s : State) (w : BitVec 4) (x : Context) : (dropWork s w x).dev = s.dev := rfl

@[simp] theorem dropConfig_dev (s : State) (w : BitVec 4) (x : Context)  : (dropConfig s w x).dev = s.dev := by
  unfold dropConfig; simp [*]

@[simp] theorem unloadCtx_dev (s : State) (w : BitVec 4) (x : Context)  : (unloadCtx s w x).dev = s.dev := by
  unfold unloadCtx; simp

@[simp] theorem placeTask_dev (s : State) (w : BitVec 4) (t : Task) (quar : Bool)  : (placeTask s w t quar).dev = s.dev := by
  unfold placeTask; simp [*]

@[simp] theorem afterSubject_dev (s : State) (w : BitVec 4) (id : BitVec 32)  : (afterSubject s w id).dev = s.dev := by
  unfold afterSubject; (repeat' split) <;> simp [*]

@[simp] theorem clearCells_dev (s : State) (cells : List Nat)  : (clearCells s cells).dev = s.dev := by
  unfold clearCells; simp [*]

@[simp] theorem restoreFirings_dev (mv : Nat → Nat) (away : Nat) (x0 : State) (x1 : List Firing) : (restoreFirings mv away x0 x1).1.dev = x0.dev := by
  induction x1 generalizing x0 <;> (simp [restoreFirings, *])

@[simp] theorem startTimers_dev (s : State) (l : List PTok) : (startTimers s l).dev = s.dev := by
  refine foldl_dev _ (fun st c => ?_) _ _
  split <;> rfl

@[simp] theorem placeSaved_dev (s : State) (x : CtxId) (v : Saved)  : (placeSaved s x v).dev = s.dev := by
  unfold placeSaved; simp [*]

/-! ### The field evqs -/

@[simp] theorem sendVec_evqs (s : State) (w : BitVec 4) (vec : Nat) : (sendVec s w vec).evqs = s.evqs := by
  unfold sendVec; (repeat' split) <;> simp [*]

@[simp] theorem ownWrite_evqs (s : State) (w : BitVec 4) (a : Nat) (cells : List Host.Cell) : (ownWrite s w a cells).evqs = s.evqs := by
  unfold ownWrite; split <;> simp

@[simp] theorem logRecord_evqs (s : State) (x : CtxId) (slots : List Nat)  : (logRecord s x slots).evqs = s.evqs := by
  unfold logRecord; dsimp only; (repeat' split) <;> simp [*]

@[simp] theorem sendExc_evqs (s : State) (x : CtxId) (c : Cause) (slots : List Nat) (valid : BitVec 16) : (sendExc s x c slots valid).evqs = s.evqs := by
  unfold sendExc; (repeat' split) <;> simp [*]

@[simp] theorem addTrigger_evqs (s : State) (w : BitVec 4) (t : Trigger) : (addTrigger s w t).evqs = s.evqs := by
  unfold addTrigger; simp [*]

@[simp] theorem deliverRecord_evqs (s : State) (o : Origin) (r : Report) (discards : Bool)  : (deliverRecord s o r discards).evqs = s.evqs := by
  unfold deliverRecord; dsimp only; (repeat' split) <;> simp [*]

/-! ### The field excFlight -/

@[simp] theorem foldl_excFlight {α : Type} (f : State → α → State) (h : ∀ s a, (f s a).excFlight = s.excFlight) (l : List α) (s : State) :
    (l.foldl f s).excFlight = s.excFlight := by
  induction l generalizing s with
  | nil => rfl
  | cons a l ih => simp [ih, h]

@[simp] theorem sendVec_excFlight (s : State) (w : BitVec 4) (vec : Nat) : (sendVec s w vec).excFlight = s.excFlight := by
  unfold sendVec; (repeat' split) <;> simp [*]

@[simp] theorem ownWrite_excFlight (s : State) (w : BitVec 4) (a : Nat) (cells : List Host.Cell) : (ownWrite s w a cells).excFlight = s.excFlight := by
  unfold ownWrite; split <;> simp

@[simp] theorem logRecord_excFlight (s : State) (x : CtxId) (slots : List Nat)  : (logRecord s x slots).excFlight = s.excFlight := by
  unfold logRecord; dsimp only; (repeat' split) <;> simp [*]

@[simp] theorem emitTok_excFlight (s : State) (n : NodeId) (port : Nat) (t : Token) (owner : Option Colour) : (emitTok s n port t owner).excFlight = s.excFlight := by
  unfold emitTok; dsimp only; (repeat' split) <;> simp [*]

@[simp] theorem emitDones_excFlight (v : Inv) (x0 : State) (x1 : List Nat) : (emitDones v x0 x1).excFlight = x0.excFlight := by
  induction x1 generalizing x0 <;> (simp [emitDones, *])

@[simp] theorem sendGos_excFlight (v : Inv) (s : State) (l : List Nat) : (sendGos v s l).excFlight = s.excFlight := by
  unfold sendGos; simp [*]

@[simp] theorem countDrain_excFlight (s : State) (n : NodeId) (t : Tag) : (countDrain s n t).excFlight = s.excFlight := by
  unfold countDrain; dsimp only; (repeat' split) <;> simp [*]

@[simp] theorem endInv_excFlight (s : State) (id : Nat) : (endInv s id).excFlight = s.excFlight := by
  unfold endInv; (repeat' split) <;> simp [*]

@[simp] theorem acquireNode_excFlight (s : State) (n : NodeId) : (acquireNode s n).excFlight = s.excFlight := by
  unfold acquireNode; (repeat' split) <;> simp [*]

@[simp] theorem beginNest_excFlight (s : State) (p : Placed) (exts : List Nat) (g : GoWait) : (beginNest s p exts g).excFlight = s.excFlight := by
  unfold beginNest; (repeat' split) <;> simp [*]

@[simp] theorem startGos_excFlight (n : NodeId) (p : Placed) (k : Nat) (s : State) : (startGos n p k s).excFlight = s.excFlight := by
  induction k generalizing s with
  | zero => rfl
  | succ k ih =>
    simp only [startGos]
    split
    · rfl
    · split
      · rfl
      · rw [ih]; simp

@[simp] theorem startWaiting_excFlight (s : State) (n : NodeId) : (startWaiting s n).excFlight = s.excFlight := by
  unfold startWaiting; (repeat' split) <;> simp [*]

@[simp] theorem leavePorts_excFlight (s : State) (gone : PTok → Bool) : (leavePorts s gone).excFlight = s.excFlight := by
  unfold leavePorts; simp [*]

@[simp] theorem dropUsed_excFlight (s : State) (cell : Nat) (seqs : List Nat) : (dropUsed s cell seqs).excFlight = s.excFlight := by
  unfold dropUsed; simp [*]

@[simp] theorem unuse_excFlight (s : State) (cell : Nat) (seq : Nat) : (unuse s cell seq).excFlight = s.excFlight := by
  unfold unuse; simp [*]

@[simp] theorem returnTag_excFlight (s : State) (n : NodeId) (t : Option IterTag) : (returnTag s n t).excFlight = s.excFlight := by
  unfold returnTag; split <;> rfl

@[simp] theorem returnTags_excFlight (x0 : State) (x1 : List BInst) : (returnTags x0 x1).excFlight = x0.excFlight := by
  induction x1 generalizing x0 <;> (simp [returnTags, *])

@[simp] theorem discardInv_excFlight (s : State) (cell : Nat) (id : Nat) : (discardInv s cell id).excFlight = s.excFlight := by
  unfold discardInv; simp [*]

@[simp] theorem endFaulted_excFlight (s : State) (id : Nat) : (endFaulted s id).excFlight = s.excFlight := by
  unfold endFaulted; (repeat' split) <;> simp [*]

/-! ### The field flights -/

@[simp] theorem foldl_flights {α : Type} (f : State → α → State) (h : ∀ s a, (f s a).flights = s.flights) (l : List α) (s : State) :
    (l.foldl f s).flights = s.flights := by
  induction l generalizing s with
  | nil => rfl
  | cons a l ih => simp [ih, h]

@[simp] theorem sendVec_flights (s : State) (w : BitVec 4) (vec : Nat) : (sendVec s w vec).flights = s.flights := by
  unfold sendVec; (repeat' split) <;> simp [*]

@[simp] theorem ownWrite_flights (s : State) (w : BitVec 4) (a : Nat) (cells : List Host.Cell) : (ownWrite s w a cells).flights = s.flights := by
  unfold ownWrite; split <;> simp

@[simp] theorem logRecord_flights (s : State) (x : CtxId) (slots : List Nat)  : (logRecord s x slots).flights = s.flights := by
  unfold logRecord; dsimp only; (repeat' split) <;> simp [*]

@[simp] theorem sendExc_flights (s : State) (x : CtxId) (c : Cause) (slots : List Nat) (valid : BitVec 16) : (sendExc s x c slots valid).flights = s.flights := by
  unfold sendExc; (repeat' split) <;> simp [*]

@[simp] theorem addTrigger_flights (s : State) (w : BitVec 4) (t : Trigger) : (addTrigger s w t).flights = s.flights := by
  unfold addTrigger; simp [*]

@[simp] theorem deliverRecord_flights (s : State) (o : Origin) (r : Report) (discards : Bool)  : (deliverRecord s o r discards).flights = s.flights := by
  unfold deliverRecord; dsimp only; (repeat' split) <;> simp [*]

@[simp] theorem emitTok_flights (s : State) (n : NodeId) (port : Nat) (t : Token) (owner : Option Colour) : (emitTok s n port t owner).flights = s.flights := by
  unfold emitTok; dsimp only; (repeat' split) <;> simp [*]

@[simp] theorem emitDones_flights (v : Inv) (x0 : State) (x1 : List Nat) : (emitDones v x0 x1).flights = x0.flights := by
  induction x1 generalizing x0 <;> (simp [emitDones, *])

@[simp] theorem sendGos_flights (v : Inv) (s : State) (l : List Nat) : (sendGos v s l).flights = s.flights := by
  unfold sendGos; simp [*]

@[simp] theorem countDrain_flights (s : State) (n : NodeId) (t : Tag) : (countDrain s n t).flights = s.flights := by
  unfold countDrain; dsimp only; (repeat' split) <;> simp [*]

@[simp] theorem endInv_flights (s : State) (id : Nat) : (endInv s id).flights = s.flights := by
  unfold endInv; (repeat' split) <;> simp [*]

@[simp] theorem acquireNode_flights (s : State) (n : NodeId) : (acquireNode s n).flights = s.flights := by
  unfold acquireNode; (repeat' split) <;> simp [*]

@[simp] theorem beginNest_flights (s : State) (p : Placed) (exts : List Nat) (g : GoWait) : (beginNest s p exts g).flights = s.flights := by
  unfold beginNest; (repeat' split) <;> simp [*]

@[simp] theorem startGos_flights (n : NodeId) (p : Placed) (k : Nat) (s : State) : (startGos n p k s).flights = s.flights := by
  induction k generalizing s with
  | zero => rfl
  | succ k ih =>
    simp only [startGos]
    split
    · rfl
    · split
      · rfl
      · rw [ih]; simp

@[simp] theorem startWaiting_flights (s : State) (n : NodeId) : (startWaiting s n).flights = s.flights := by
  unfold startWaiting; (repeat' split) <;> simp [*]

@[simp] theorem leavePorts_flights (s : State) (gone : PTok → Bool) : (leavePorts s gone).flights = s.flights := by
  unfold leavePorts; simp [*]

@[simp] theorem dropUsed_flights (s : State) (cell : Nat) (seqs : List Nat) : (dropUsed s cell seqs).flights = s.flights := by
  unfold dropUsed; simp [*]

@[simp] theorem unuse_flights (s : State) (cell : Nat) (seq : Nat) : (unuse s cell seq).flights = s.flights := by
  unfold unuse; simp [*]

@[simp] theorem returnTag_flights (s : State) (n : NodeId) (t : Option IterTag) : (returnTag s n t).flights = s.flights := by
  unfold returnTag; split <;> rfl

@[simp] theorem returnTags_flights (x0 : State) (x1 : List BInst) : (returnTags x0 x1).flights = x0.flights := by
  induction x1 generalizing x0 <;> (simp [returnTags, *])

@[simp] theorem discardInv_flights (s : State) (cell : Nat) (id : Nat) : (discardInv s cell id).flights = s.flights := by
  unfold discardInv; simp [*]

@[simp] theorem endFaulted_flights (s : State) (id : Nat) : (endFaulted s id).flights = s.flights := by
  unfold endFaulted; (repeat' split) <;> simp [*]

@[simp] theorem takeUnit_flights (s : State) (die : Nat) : (takeUnit s die).flights = s.flights := by
  unfold takeUnit; dsimp only; (repeat' split) <;> simp [*]

@[simp] theorem listBad_flights (s : State) (cell : Nat) : (listBad s cell).flights = s.flights := by
  unfold listBad; dsimp only; (repeat' split) <;> simp [*]

@[simp] theorem cutBad_flights (s : State) : (cutBad s).flights = s.flights := by
  unfold cutBad
  exact foldl_flights _ (fun st w => setWorld_flights _ _ _) _ _

@[simp] theorem faultKey_flights (s : State) (n : NodeId) (t : Tag) (r : Report) (source : Nat)  : (faultKey s n t r source).flights = s.flights := by
  unfold faultKey; split
  · rfl
  · dsimp only; split <;> simp

/-! ### The field goWaits -/

@[simp] theorem foldl_goWaits {α : Type} (f : State → α → State) (h : ∀ s a, (f s a).goWaits = s.goWaits) (l : List α) (s : State) :
    (l.foldl f s).goWaits = s.goWaits := by
  induction l generalizing s with
  | nil => rfl
  | cons a l ih => simp [ih, h]

@[simp] theorem sendVec_goWaits (s : State) (w : BitVec 4) (vec : Nat) : (sendVec s w vec).goWaits = s.goWaits := by
  unfold sendVec; (repeat' split) <;> simp [*]

@[simp] theorem ownWrite_goWaits (s : State) (w : BitVec 4) (a : Nat) (cells : List Host.Cell) : (ownWrite s w a cells).goWaits = s.goWaits := by
  unfold ownWrite; split <;> simp

@[simp] theorem logRecord_goWaits (s : State) (x : CtxId) (slots : List Nat)  : (logRecord s x slots).goWaits = s.goWaits := by
  unfold logRecord; dsimp only; (repeat' split) <;> simp [*]

@[simp] theorem sendExc_goWaits (s : State) (x : CtxId) (c : Cause) (slots : List Nat) (valid : BitVec 16) : (sendExc s x c slots valid).goWaits = s.goWaits := by
  unfold sendExc; (repeat' split) <;> simp [*]

@[simp] theorem addTrigger_goWaits (s : State) (w : BitVec 4) (t : Trigger) : (addTrigger s w t).goWaits = s.goWaits := by
  unfold addTrigger; simp [*]

@[simp] theorem deliverRecord_goWaits (s : State) (o : Origin) (r : Report) (discards : Bool)  : (deliverRecord s o r discards).goWaits = s.goWaits := by
  unfold deliverRecord; dsimp only; (repeat' split) <;> simp [*]

@[simp] theorem putTask_goWaits (s : State) (w : BitVec 4) (t : Task) : (putTask s w t).goWaits = s.goWaits := by
  unfold putTask; simp [*]

@[simp] theorem takeSeq_goWaits (s : State) (cell : Nat) : (takeSeq s cell).1.goWaits = s.goWaits := by
  unfold takeSeq; simp [*]

@[simp] theorem cutBad_goWaits (s : State) : (cutBad s).goWaits = s.goWaits := by
  unfold cutBad
  exact foldl_goWaits _ (fun st w => setWorld_goWaits _ _ _) _ _

@[simp] theorem restoreFirings_goWaits (mv : Nat → Nat) (away : Nat) (x0 : State) (x1 : List Firing) : (restoreFirings mv away x0 x1).1.goWaits = x0.goWaits := by
  induction x1 generalizing x0 <;> (simp [restoreFirings, *])

@[simp] theorem startTimers_goWaits (s : State) (l : List PTok) : (startTimers s l).goWaits = s.goWaits := by
  refine foldl_goWaits _ (fun st c => ?_) _ _
  split <;> rfl

/-! ### The field granuleOwner -/

@[simp] theorem foldl_granuleOwner {α : Type} (f : State → α → State) (h : ∀ s a, (f s a).granuleOwner = s.granuleOwner) (l : List α) (s : State) :
    (l.foldl f s).granuleOwner = s.granuleOwner := by
  induction l generalizing s with
  | nil => rfl
  | cons a l ih => simp [ih, h]

@[simp] theorem sendVec_granuleOwner (s : State) (w : BitVec 4) (vec : Nat) : (sendVec s w vec).granuleOwner = s.granuleOwner := by
  unfold sendVec; (repeat' split) <;> simp [*]

@[simp] theorem ownWrite_granuleOwner (s : State) (w : BitVec 4) (a : Nat) (cells : List Host.Cell) : (ownWrite s w a cells).granuleOwner = s.granuleOwner := by
  unfold ownWrite; split <;> simp

@[simp] theorem ownPut_granuleOwner (s : State) (w : BitVec 4) (a n v : Nat) : (ownPut s w a n v).granuleOwner = s.granuleOwner :=
  ownWrite_granuleOwner _ _ _ _

@[simp] theorem setQueue_granuleOwner (s : State) (w : BitVec 4) (q : Nat) (x : QueueSt) : (setQueue s w q x).granuleOwner = s.granuleOwner := by
  unfold setQueue; simp [*]

@[simp] theorem mirrorQueue_granuleOwner (s : State) (w : BitVec 4) (q : Nat)  : (mirrorQueue s w q).granuleOwner = s.granuleOwner := by
  unfold mirrorQueue; simp [*]

@[simp] theorem updQueue_granuleOwner (s : State) (w : BitVec 4) (q : Nat) (f : QueueSt → QueueSt)  : (updQueue s w q f).granuleOwner = s.granuleOwner := by
  unfold updQueue; simp [*]

@[simp] theorem writeRecord_granuleOwner (s : State) (w : BitVec 4) (cmpla : Option Nat) (status : Nat) (cause : Nat) (task : BitVec 32) (tiles : Nat)  : (writeRecord s w cmpla status cause task tiles).granuleOwner = s.granuleOwner := by
  unfold writeRecord; (repeat' split) <;> simp [*]

@[simp] theorem updPkt_granuleOwner (s : State) (w : BitVec 4) (q : Nat) (idx : Nat) (f : Pkt → Pkt)  : (updPkt s w q idx f).granuleOwner = s.granuleOwner := by
  unfold updPkt; simp [*]

@[simp] theorem consumePkt_granuleOwner (s : State) (w : BitVec 4) (q : Nat) (idx : Nat)  : (consumePkt s w q idx).granuleOwner = s.granuleOwner := by
  unfold consumePkt; simp [*]

@[simp] theorem completePkt_granuleOwner (s : State) (w : BitVec 4) (q : Nat) (idx : Nat) (status : Nat) (cause : Nat) (task : BitVec 32) (tiles : Nat)  : (completePkt s w q idx status cause task tiles).granuleOwner = s.granuleOwner := by
  unfold completePkt; simp [*]

@[simp] theorem dropWork_granuleOwner (s : State) (w : BitVec 4) (x : Context) : (dropWork s w x).granuleOwner = s.granuleOwner := rfl

@[simp] theorem dropConfig_granuleOwner (s : State) (w : BitVec 4) (x : Context)  : (dropConfig s w x).granuleOwner = s.granuleOwner := by
  unfold dropConfig; simp [*]

@[simp] theorem unloadCtx_granuleOwner (s : State) (w : BitVec 4) (x : Context)  : (unloadCtx s w x).granuleOwner = s.granuleOwner := by
  unfold unloadCtx; rw [foldl_granuleOwner _ (fun st e => completePkt_granuleOwner _ _ _ _ _ _ _ _)]; simp

/-! ### The field groups -/

@[simp] theorem foldl_groups {α : Type} (f : State → α → State) (h : ∀ s a, (f s a).groups = s.groups) (l : List α) (s : State) :
    (l.foldl f s).groups = s.groups := by
  induction l generalizing s with
  | nil => rfl
  | cons a l ih => simp [ih, h]

@[simp] theorem sendVec_groups (s : State) (w : BitVec 4) (vec : Nat) : (sendVec s w vec).groups = s.groups := by
  unfold sendVec; (repeat' split) <;> simp [*]

@[simp] theorem ownWrite_groups (s : State) (w : BitVec 4) (a : Nat) (cells : List Host.Cell) : (ownWrite s w a cells).groups = s.groups := by
  unfold ownWrite; split <;> simp

@[simp] theorem logRecord_groups (s : State) (x : CtxId) (slots : List Nat)  : (logRecord s x slots).groups = s.groups := by
  unfold logRecord; dsimp only; (repeat' split) <;> simp [*]

@[simp] theorem sendExc_groups (s : State) (x : CtxId) (c : Cause) (slots : List Nat) (valid : BitVec 16) : (sendExc s x c slots valid).groups = s.groups := by
  unfold sendExc; (repeat' split) <;> simp [*]

@[simp] theorem addTrigger_groups (s : State) (w : BitVec 4) (t : Trigger) : (addTrigger s w t).groups = s.groups := by
  unfold addTrigger; simp [*]

@[simp] theorem deliverRecord_groups (s : State) (o : Origin) (r : Report) (discards : Bool)  : (deliverRecord s o r discards).groups = s.groups := by
  unfold deliverRecord; dsimp only; (repeat' split) <;> simp [*]

@[simp] theorem putTask_groups (s : State) (w : BitVec 4) (t : Task) : (putTask s w t).groups = s.groups := by
  unfold putTask; simp [*]

@[simp] theorem takeSeq_groups (s : State) (cell : Nat) : (takeSeq s cell).1.groups = s.groups := by
  unfold takeSeq; simp [*]

@[simp] theorem cutBad_groups (s : State) : (cutBad s).groups = s.groups := by
  unfold cutBad
  exact foldl_groups _ (fun st w => setWorld_groups _ _ _) _ _

@[simp] theorem restoreFirings_groups (mv : Nat → Nat) (away : Nat) (x0 : State) (x1 : List Firing) : (restoreFirings mv away x0 x1).1.groups = x0.groups := by
  induction x1 generalizing x0 <;> (simp [restoreFirings, *])

@[simp] theorem startTimers_groups (s : State) (l : List PTok) : (startTimers s l).groups = s.groups := by
  refine foldl_groups _ (fun st c => ?_) _ _
  split <;> rfl

/-! ### The field images -/

@[simp] theorem foldl_images {α : Type} (f : State → α → State) (h : ∀ s a, (f s a).images = s.images) (l : List α) (s : State) :
    (l.foldl f s).images = s.images := by
  induction l generalizing s with
  | nil => rfl
  | cons a l ih => simp [ih, h]

@[simp] theorem devPut_images (s : State) (a : Nat) (n : Nat) (v : Nat)  : (devPut s a n v).images = s.images := by
  unfold devPut; simp [*]

@[simp] theorem ownWrite_images (s : State) (w : BitVec 4) (a : Nat) (cells : List Host.Cell) : (ownWrite s w a cells).images = s.images := by
  unfold ownWrite; split <;> simp

@[simp] theorem ownPut_images (s : State) (w : BitVec 4) (a n v : Nat) : (ownPut s w a n v).images = s.images :=
  ownWrite_images _ _ _ _

@[simp] theorem addTrigger_images (s : State) (w : BitVec 4) (t : Trigger) : (addTrigger s w t).images = s.images := by
  unfold addTrigger; simp [*]

@[simp] theorem setQueue_images (s : State) (w : BitVec 4) (q : Nat) (x : QueueSt) : (setQueue s w q x).images = s.images := by
  unfold setQueue; simp [*]

@[simp] theorem mirrorQueue_images (s : State) (w : BitVec 4) (q : Nat)  : (mirrorQueue s w q).images = s.images := by
  unfold mirrorQueue; simp [*]

@[simp] theorem updQueue_images (s : State) (w : BitVec 4) (q : Nat) (f : QueueSt → QueueSt)  : (updQueue s w q f).images = s.images := by
  unfold updQueue; simp [*]

@[simp] theorem putTask_images (s : State) (w : BitVec 4) (t : Task) : (putTask s w t).images = s.images := by
  unfold putTask; simp [*]

@[simp] theorem updPkt_images (s : State) (w : BitVec 4) (q : Nat) (idx : Nat) (f : Pkt → Pkt)  : (updPkt s w q idx f).images = s.images := by
  unfold updPkt; simp [*]

@[simp] theorem consumePkt_images (s : State) (w : BitVec 4) (q : Nat) (idx : Nat)  : (consumePkt s w q idx).images = s.images := by
  unfold consumePkt; simp [*]

@[simp] theorem addDispatch_images (s : State) (w : BitVec 4) (slot : Nat) : (addDispatch s w slot).images = s.images := rfl

@[simp] theorem cellsFree_images (s : State) (w : BitVec 4) : (cellsFree s w).images = s.images :=
  foldl_images (fun st k => addDispatch st w k) (fun _ _ => rfl) _ _

@[simp] theorem placeTask_images (s : State) (w : BitVec 4) (t : Task) (quar : Bool)  : (placeTask s w t quar).images = s.images := by
  unfold placeTask; simp [*]

@[simp] theorem afterSubject_images (s : State) (w : BitVec 4) (id : BitVec 32)  : (afterSubject s w id).images = s.images := by
  unfold afterSubject; (repeat' split) <;> simp [*]

@[simp] theorem requeue_images (s : State) (w : BitVec 4) (t : Task)  : (requeue s w t).images = s.images := by
  unfold requeue; simp [*]

/-! ### The field insts -/

@[simp] theorem sendVec_insts (s : State) (w : BitVec 4) (vec : Nat) : (sendVec s w vec).insts = s.insts := by
  unfold sendVec; (repeat' split) <;> simp [*]

@[simp] theorem ownWrite_insts (s : State) (w : BitVec 4) (a : Nat) (cells : List Host.Cell) : (ownWrite s w a cells).insts = s.insts := by
  unfold ownWrite; split <;> simp

@[simp] theorem logRecord_insts (s : State) (x : CtxId) (slots : List Nat)  : (logRecord s x slots).insts = s.insts := by
  unfold logRecord; dsimp only; (repeat' split) <;> simp [*]

@[simp] theorem logOnly_insts (s : State) (o : Origin) (r : Report)  : (logOnly s o r).insts = s.insts := by
  unfold logOnly; simp [*]

@[simp] theorem emitTok_insts (s : State) (n : NodeId) (port : Nat) (t : Token) (owner : Option Colour) : (emitTok s n port t owner).insts = s.insts := by
  unfold emitTok; dsimp only; (repeat' split) <;> simp [*]

@[simp] theorem emitDones_insts (v : Inv) (x0 : State) (x1 : List Nat) : (emitDones v x0 x1).insts = x0.insts := by
  induction x1 generalizing x0 <;> (simp [emitDones, *])

@[simp] theorem sendGos_insts (v : Inv) (s : State) (l : List Nat) : (sendGos v s l).insts = s.insts := by
  unfold sendGos; simp [*]

@[simp] theorem countDrain_insts (s : State) (n : NodeId) (t : Tag) : (countDrain s n t).insts = s.insts := by
  unfold countDrain; dsimp only; (repeat' split) <;> simp [*]

@[simp] theorem endInv_insts (s : State) (id : Nat) : (endInv s id).insts = s.insts := by
  unfold endInv; (repeat' split) <;> simp [*]

@[simp] theorem acquireNode_insts (s : State) (n : NodeId) : (acquireNode s n).insts = s.insts := by
  unfold acquireNode; (repeat' split) <;> simp [*]

@[simp] theorem beginNest_insts (s : State) (p : Placed) (exts : List Nat) (g : GoWait) : (beginNest s p exts g).insts = s.insts := by
  unfold beginNest; (repeat' split) <;> simp [*]

@[simp] theorem startGos_insts (n : NodeId) (p : Placed) (k : Nat) (s : State) : (startGos n p k s).insts = s.insts := by
  induction k generalizing s with
  | zero => rfl
  | succ k ih =>
    simp only [startGos]
    split
    · rfl
    · split
      · rfl
      · rw [ih]; simp

@[simp] theorem startWaiting_insts (s : State) (n : NodeId) : (startWaiting s n).insts = s.insts := by
  unfold startWaiting; (repeat' split) <;> simp [*]

@[simp] theorem leavePorts_insts (s : State) (gone : PTok → Bool) : (leavePorts s gone).insts = s.insts := by
  unfold leavePorts; simp [*]

@[simp] theorem dropUsed_insts (s : State) (cell : Nat) (seqs : List Nat) : (dropUsed s cell seqs).insts = s.insts := by
  unfold dropUsed; simp [*]

@[simp] theorem unuse_insts (s : State) (cell : Nat) (seq : Nat) : (unuse s cell seq).insts = s.insts := by
  unfold unuse; simp [*]

@[simp] theorem returnTag_insts (s : State) (n : NodeId) (t : Option IterTag) : (returnTag s n t).insts = s.insts := by
  unfold returnTag; split <;> rfl

@[simp] theorem returnTags_insts (x0 : State) (x1 : List BInst) : (returnTags x0 x1).insts = x0.insts := by
  induction x1 generalizing x0 <;> (simp [returnTags, *])

@[simp] theorem endFaulted_insts (s : State) (id : Nat) : (endFaulted s id).insts = s.insts := by
  unfold endFaulted; (repeat' split) <;> simp [*]

/-! ### The field lanterns -/

@[simp] theorem sendVec_lanterns (s : State) (w : BitVec 4) (vec : Nat) : (sendVec s w vec).lanterns = s.lanterns := by
  unfold sendVec; (repeat' split) <;> simp [*]

@[simp] theorem ownWrite_lanterns (s : State) (w : BitVec 4) (a : Nat) (cells : List Host.Cell) : (ownWrite s w a cells).lanterns = s.lanterns := by
  unfold ownWrite; split <;> simp

@[simp] theorem logRecord_lanterns (s : State) (x : CtxId) (slots : List Nat)  : (logRecord s x slots).lanterns = s.lanterns := by
  unfold logRecord; dsimp only; (repeat' split) <;> simp [*]

@[simp] theorem sendExc_lanterns (s : State) (x : CtxId) (c : Cause) (slots : List Nat) (valid : BitVec 16) : (sendExc s x c slots valid).lanterns = s.lanterns := by
  unfold sendExc; (repeat' split) <;> simp [*]

@[simp] theorem addTrigger_lanterns (s : State) (w : BitVec 4) (t : Trigger) : (addTrigger s w t).lanterns = s.lanterns := by
  unfold addTrigger; simp [*]

@[simp] theorem deliverRecord_lanterns (s : State) (o : Origin) (r : Report) (discards : Bool)  : (deliverRecord s o r discards).lanterns = s.lanterns := by
  unfold deliverRecord; dsimp only; (repeat' split) <;> simp [*]

/-! ### The field lastColour -/

@[simp] theorem foldl_lastColour {α : Type} (f : State → α → State) (h : ∀ s a, (f s a).lastColour = s.lastColour) (l : List α) (s : State) :
    (l.foldl f s).lastColour = s.lastColour := by
  induction l generalizing s with
  | nil => rfl
  | cons a l ih => simp [ih, h]

@[simp] theorem sendVec_lastColour (s : State) (w : BitVec 4) (vec : Nat) : (sendVec s w vec).lastColour = s.lastColour := by
  unfold sendVec; (repeat' split) <;> simp [*]

@[simp] theorem ownWrite_lastColour (s : State) (w : BitVec 4) (a : Nat) (cells : List Host.Cell) : (ownWrite s w a cells).lastColour = s.lastColour := by
  unfold ownWrite; split <;> simp

@[simp] theorem logRecord_lastColour (s : State) (x : CtxId) (slots : List Nat)  : (logRecord s x slots).lastColour = s.lastColour := by
  unfold logRecord; dsimp only; (repeat' split) <;> simp [*]

@[simp] theorem sendExc_lastColour (s : State) (x : CtxId) (c : Cause) (slots : List Nat) (valid : BitVec 16) : (sendExc s x c slots valid).lastColour = s.lastColour := by
  unfold sendExc; (repeat' split) <;> simp [*]

@[simp] theorem addTrigger_lastColour (s : State) (w : BitVec 4) (t : Trigger) : (addTrigger s w t).lastColour = s.lastColour := by
  unfold addTrigger; simp [*]

@[simp] theorem deliverRecord_lastColour (s : State) (o : Origin) (r : Report) (discards : Bool)  : (deliverRecord s o r discards).lastColour = s.lastColour := by
  unfold deliverRecord; dsimp only; (repeat' split) <;> simp [*]

@[simp] theorem emitTok_lastColour (s : State) (n : NodeId) (port : Nat) (t : Token) (owner : Option Colour) : (emitTok s n port t owner).lastColour = s.lastColour := by
  unfold emitTok; dsimp only; (repeat' split) <;> simp [*]

@[simp] theorem emitDones_lastColour (v : Inv) (x0 : State) (x1 : List Nat) : (emitDones v x0 x1).lastColour = x0.lastColour := by
  induction x1 generalizing x0 <;> (simp [emitDones, *])

@[simp] theorem sendGos_lastColour (v : Inv) (s : State) (l : List Nat) : (sendGos v s l).lastColour = s.lastColour := by
  unfold sendGos; simp [*]

@[simp] theorem countDrain_lastColour (s : State) (n : NodeId) (t : Tag) : (countDrain s n t).lastColour = s.lastColour := by
  unfold countDrain; dsimp only; (repeat' split) <;> simp [*]

@[simp] theorem endInv_lastColour (s : State) (id : Nat) : (endInv s id).lastColour = s.lastColour := by
  unfold endInv; (repeat' split) <;> simp [*]

@[simp] theorem acquireNode_lastColour (s : State) (n : NodeId) : (acquireNode s n).lastColour = s.lastColour := by
  unfold acquireNode; (repeat' split) <;> simp [*]

@[simp] theorem beginNest_lastColour (s : State) (p : Placed) (exts : List Nat) (g : GoWait) : (beginNest s p exts g).lastColour = s.lastColour := by
  unfold beginNest; (repeat' split) <;> simp [*]

@[simp] theorem startGos_lastColour (n : NodeId) (p : Placed) (k : Nat) (s : State) : (startGos n p k s).lastColour = s.lastColour := by
  induction k generalizing s with
  | zero => rfl
  | succ k ih =>
    simp only [startGos]
    split
    · rfl
    · split
      · rfl
      · rw [ih]; simp

@[simp] theorem startWaiting_lastColour (s : State) (n : NodeId) : (startWaiting s n).lastColour = s.lastColour := by
  unfold startWaiting; (repeat' split) <;> simp [*]

@[simp] theorem leavePorts_lastColour (s : State) (gone : PTok → Bool) : (leavePorts s gone).lastColour = s.lastColour := by
  unfold leavePorts; simp [*]

@[simp] theorem dropUsed_lastColour (s : State) (cell : Nat) (seqs : List Nat) : (dropUsed s cell seqs).lastColour = s.lastColour := by
  unfold dropUsed; simp [*]

@[simp] theorem unuse_lastColour (s : State) (cell : Nat) (seq : Nat) : (unuse s cell seq).lastColour = s.lastColour := by
  unfold unuse; simp [*]

@[simp] theorem returnTag_lastColour (s : State) (n : NodeId) (t : Option IterTag) : (returnTag s n t).lastColour = s.lastColour := by
  unfold returnTag; split <;> rfl

@[simp] theorem returnTags_lastColour (x0 : State) (x1 : List BInst) : (returnTags x0 x1).lastColour = x0.lastColour := by
  induction x1 generalizing x0 <;> (simp [returnTags, *])

@[simp] theorem discardInv_lastColour (s : State) (cell : Nat) (id : Nat) : (discardInv s cell id).lastColour = s.lastColour := by
  unfold discardInv; simp [*]

@[simp] theorem endFaulted_lastColour (s : State) (id : Nat) : (endFaulted s id).lastColour = s.lastColour := by
  unfold endFaulted; (repeat' split) <;> simp [*]

@[simp] theorem takeFault_lastColour (s : State) (b : BInst) (slot : Nat) (r : Report)  : (takeFault s b slot r).lastColour = s.lastColour := by
  unfold takeFault; simp [*]

/-! ### The field lstreams -/

@[simp] theorem sendVec_lstreams (s : State) (w : BitVec 4) (vec : Nat) : (sendVec s w vec).lstreams = s.lstreams := by
  unfold sendVec; (repeat' split) <;> simp [*]

@[simp] theorem ownWrite_lstreams (s : State) (w : BitVec 4) (a : Nat) (cells : List Host.Cell) : (ownWrite s w a cells).lstreams = s.lstreams := by
  unfold ownWrite; split <;> simp

@[simp] theorem logRecord_lstreams (s : State) (x : CtxId) (slots : List Nat)  : (logRecord s x slots).lstreams = s.lstreams := by
  unfold logRecord; dsimp only; (repeat' split) <;> simp [*]

@[simp] theorem sendExc_lstreams (s : State) (x : CtxId) (c : Cause) (slots : List Nat) (valid : BitVec 16) : (sendExc s x c slots valid).lstreams = s.lstreams := by
  unfold sendExc; (repeat' split) <;> simp [*]

@[simp] theorem addTrigger_lstreams (s : State) (w : BitVec 4) (t : Trigger) : (addTrigger s w t).lstreams = s.lstreams := by
  unfold addTrigger; simp [*]

@[simp] theorem deliverRecord_lstreams (s : State) (o : Origin) (r : Report) (discards : Bool)  : (deliverRecord s o r discards).lstreams = s.lstreams := by
  unfold deliverRecord; dsimp only; (repeat' split) <;> simp [*]

/-! ### The field nests -/

@[simp] theorem foldl_nests {α : Type} (f : State → α → State) (h : ∀ s a, (f s a).nests = s.nests) (l : List α) (s : State) :
    (l.foldl f s).nests = s.nests := by
  induction l generalizing s with
  | nil => rfl
  | cons a l ih => simp [ih, h]

@[simp] theorem sendVec_nests (s : State) (w : BitVec 4) (vec : Nat) : (sendVec s w vec).nests = s.nests := by
  unfold sendVec; (repeat' split) <;> simp [*]

@[simp] theorem ownWrite_nests (s : State) (w : BitVec 4) (a : Nat) (cells : List Host.Cell) : (ownWrite s w a cells).nests = s.nests := by
  unfold ownWrite; split <;> simp

@[simp] theorem logRecord_nests (s : State) (x : CtxId) (slots : List Nat)  : (logRecord s x slots).nests = s.nests := by
  unfold logRecord; dsimp only; (repeat' split) <;> simp [*]

@[simp] theorem sendExc_nests (s : State) (x : CtxId) (c : Cause) (slots : List Nat) (valid : BitVec 16) : (sendExc s x c slots valid).nests = s.nests := by
  unfold sendExc; (repeat' split) <;> simp [*]

@[simp] theorem addTrigger_nests (s : State) (w : BitVec 4) (t : Trigger) : (addTrigger s w t).nests = s.nests := by
  unfold addTrigger; simp [*]

@[simp] theorem deliverRecord_nests (s : State) (o : Origin) (r : Report) (discards : Bool)  : (deliverRecord s o r discards).nests = s.nests := by
  unfold deliverRecord; dsimp only; (repeat' split) <;> simp [*]

@[simp] theorem putTask_nests (s : State) (w : BitVec 4) (t : Task) : (putTask s w t).nests = s.nests := by
  unfold putTask; simp [*]

@[simp] theorem takeSeq_nests (s : State) (cell : Nat) : (takeSeq s cell).1.nests = s.nests := by
  unfold takeSeq; simp [*]

@[simp] theorem cutBad_nests (s : State) : (cutBad s).nests = s.nests := by
  unfold cutBad
  exact foldl_nests _ (fun st w => setWorld_nests _ _ _) _ _

@[simp] theorem restoreFirings_nests (mv : Nat → Nat) (away : Nat) (x0 : State) (x1 : List Firing) : (restoreFirings mv away x0 x1).1.nests = x0.nests := by
  induction x1 generalizing x0 <;> (simp [restoreFirings, *])

@[simp] theorem startTimers_nests (s : State) (l : List PTok) : (startTimers s l).nests = s.nests := by
  refine foldl_nests _ (fun st c => ?_) _ _
  split <;> rfl

/-! ### The field now -/

@[simp] theorem foldl_now {α : Type} (f : State → α → State) (h : ∀ s a, (f s a).now = s.now) (l : List α) (s : State) :
    (l.foldl f s).now = s.now := by
  induction l generalizing s with
  | nil => rfl
  | cons a l ih => simp [ih, h]

@[simp] theorem sendVec_now (s : State) (w : BitVec 4) (vec : Nat) : (sendVec s w vec).now = s.now := by
  unfold sendVec; (repeat' split) <;> simp [*]

@[simp] theorem ownWrite_now (s : State) (w : BitVec 4) (a : Nat) (cells : List Host.Cell) : (ownWrite s w a cells).now = s.now := by
  unfold ownWrite; split <;> simp

@[simp] theorem logRecord_now (s : State) (x : CtxId) (slots : List Nat)  : (logRecord s x slots).now = s.now := by
  unfold logRecord; dsimp only; (repeat' split) <;> simp [*]

@[simp] theorem sendExc_now (s : State) (x : CtxId) (c : Cause) (slots : List Nat) (valid : BitVec 16) : (sendExc s x c slots valid).now = s.now := by
  unfold sendExc; (repeat' split) <;> simp [*]

@[simp] theorem addTrigger_now (s : State) (w : BitVec 4) (t : Trigger) : (addTrigger s w t).now = s.now := by
  unfold addTrigger; simp [*]

@[simp] theorem deliverRecord_now (s : State) (o : Origin) (r : Report) (discards : Bool)  : (deliverRecord s o r discards).now = s.now := by
  unfold deliverRecord; dsimp only; (repeat' split) <;> simp [*]

@[simp] theorem emitTok_now (s : State) (n : NodeId) (port : Nat) (t : Token) (owner : Option Colour) : (emitTok s n port t owner).now = s.now := by
  unfold emitTok; dsimp only; (repeat' split) <;> simp [*]

@[simp] theorem emitDones_now (v : Inv) (x0 : State) (x1 : List Nat) : (emitDones v x0 x1).now = x0.now := by
  induction x1 generalizing x0 <;> (simp [emitDones, *])

@[simp] theorem sendGos_now (v : Inv) (s : State) (l : List Nat) : (sendGos v s l).now = s.now := by
  unfold sendGos; simp [*]

@[simp] theorem countDrain_now (s : State) (n : NodeId) (t : Tag) : (countDrain s n t).now = s.now := by
  unfold countDrain; dsimp only; (repeat' split) <;> simp [*]

@[simp] theorem endInv_now (s : State) (id : Nat) : (endInv s id).now = s.now := by
  unfold endInv; (repeat' split) <;> simp [*]

@[simp] theorem acquireNode_now (s : State) (n : NodeId) : (acquireNode s n).now = s.now := by
  unfold acquireNode; (repeat' split) <;> simp [*]

@[simp] theorem beginNest_now (s : State) (p : Placed) (exts : List Nat) (g : GoWait) : (beginNest s p exts g).now = s.now := by
  unfold beginNest; (repeat' split) <;> simp [*]

@[simp] theorem startGos_now (n : NodeId) (p : Placed) (k : Nat) (s : State) : (startGos n p k s).now = s.now := by
  induction k generalizing s with
  | zero => rfl
  | succ k ih =>
    simp only [startGos]
    split
    · rfl
    · split
      · rfl
      · rw [ih]; simp

@[simp] theorem startWaiting_now (s : State) (n : NodeId) : (startWaiting s n).now = s.now := by
  unfold startWaiting; (repeat' split) <;> simp [*]

@[simp] theorem leavePorts_now (s : State) (gone : PTok → Bool) : (leavePorts s gone).now = s.now := by
  unfold leavePorts; simp [*]

@[simp] theorem dropUsed_now (s : State) (cell : Nat) (seqs : List Nat) : (dropUsed s cell seqs).now = s.now := by
  unfold dropUsed; simp [*]

@[simp] theorem unuse_now (s : State) (cell : Nat) (seq : Nat) : (unuse s cell seq).now = s.now := by
  unfold unuse; simp [*]

@[simp] theorem returnTag_now (s : State) (n : NodeId) (t : Option IterTag) : (returnTag s n t).now = s.now := by
  unfold returnTag; split <;> rfl

@[simp] theorem returnTags_now (x0 : State) (x1 : List BInst) : (returnTags x0 x1).now = x0.now := by
  induction x1 generalizing x0 <;> (simp [returnTags, *])

@[simp] theorem discardInv_now (s : State) (cell : Nat) (id : Nat) : (discardInv s cell id).now = s.now := by
  unfold discardInv; simp [*]

@[simp] theorem endFaulted_now (s : State) (id : Nat) : (endFaulted s id).now = s.now := by
  unfold endFaulted; (repeat' split) <;> simp [*]

/-! ### The field ops -/

@[simp] theorem sendVec_ops (s : State) (w : BitVec 4) (vec : Nat) : (sendVec s w vec).ops = s.ops := by
  unfold sendVec; (repeat' split) <;> simp [*]

@[simp] theorem ownWrite_ops (s : State) (w : BitVec 4) (a : Nat) (cells : List Host.Cell) : (ownWrite s w a cells).ops = s.ops := by
  unfold ownWrite; split <;> simp

@[simp] theorem logRecord_ops (s : State) (x : CtxId) (slots : List Nat)  : (logRecord s x slots).ops = s.ops := by
  unfold logRecord; dsimp only; (repeat' split) <;> simp [*]

@[simp] theorem sendExc_ops (s : State) (x : CtxId) (c : Cause) (slots : List Nat) (valid : BitVec 16) : (sendExc s x c slots valid).ops = s.ops := by
  unfold sendExc; (repeat' split) <;> simp [*]

@[simp] theorem addTrigger_ops (s : State) (w : BitVec 4) (t : Trigger) : (addTrigger s w t).ops = s.ops := by
  unfold addTrigger; simp [*]

@[simp] theorem deliverRecord_ops (s : State) (o : Origin) (r : Report) (discards : Bool)  : (deliverRecord s o r discards).ops = s.ops := by
  unfold deliverRecord; dsimp only; (repeat' split) <;> simp [*]

/-! ### The field outputs -/

@[simp] theorem foldl_outputs {α : Type} (f : State → α → State) (h : ∀ s a, (f s a).outputs = s.outputs) (l : List α) (s : State) :
    (l.foldl f s).outputs = s.outputs := by
  induction l generalizing s with
  | nil => rfl
  | cons a l ih => simp [ih, h]

@[simp] theorem emitTok_outputs (s : State) (n : NodeId) (port : Nat) (t : Token) (owner : Option Colour) : (emitTok s n port t owner).outputs = s.outputs := by
  unfold emitTok; dsimp only; (repeat' split) <;> simp [*]

@[simp] theorem emitDones_outputs (v : Inv) (x0 : State) (x1 : List Nat) : (emitDones v x0 x1).outputs = x0.outputs := by
  induction x1 generalizing x0 <;> (simp [emitDones, *])

@[simp] theorem sendGos_outputs (v : Inv) (s : State) (l : List Nat) : (sendGos v s l).outputs = s.outputs := by
  unfold sendGos; simp [*]

@[simp] theorem countDrain_outputs (s : State) (n : NodeId) (t : Tag) : (countDrain s n t).outputs = s.outputs := by
  unfold countDrain; dsimp only; (repeat' split) <;> simp [*]

@[simp] theorem endInv_outputs (s : State) (id : Nat) : (endInv s id).outputs = s.outputs := by
  unfold endInv; (repeat' split) <;> simp [*]

@[simp] theorem acquireNode_outputs (s : State) (n : NodeId) : (acquireNode s n).outputs = s.outputs := by
  unfold acquireNode; (repeat' split) <;> simp [*]

@[simp] theorem beginNest_outputs (s : State) (p : Placed) (exts : List Nat) (g : GoWait) : (beginNest s p exts g).outputs = s.outputs := by
  unfold beginNest; (repeat' split) <;> simp [*]

@[simp] theorem startGos_outputs (n : NodeId) (p : Placed) (k : Nat) (s : State) : (startGos n p k s).outputs = s.outputs := by
  induction k generalizing s with
  | zero => rfl
  | succ k ih =>
    simp only [startGos]
    split
    · rfl
    · split
      · rfl
      · rw [ih]; simp

@[simp] theorem startWaiting_outputs (s : State) (n : NodeId) : (startWaiting s n).outputs = s.outputs := by
  unfold startWaiting; (repeat' split) <;> simp [*]

@[simp] theorem leavePorts_outputs (s : State) (gone : PTok → Bool) : (leavePorts s gone).outputs = s.outputs := by
  unfold leavePorts; simp [*]

@[simp] theorem dropUsed_outputs (s : State) (cell : Nat) (seqs : List Nat) : (dropUsed s cell seqs).outputs = s.outputs := by
  unfold dropUsed; simp [*]

@[simp] theorem unuse_outputs (s : State) (cell : Nat) (seq : Nat) : (unuse s cell seq).outputs = s.outputs := by
  unfold unuse; simp [*]

@[simp] theorem returnTag_outputs (s : State) (n : NodeId) (t : Option IterTag) : (returnTag s n t).outputs = s.outputs := by
  unfold returnTag; split <;> rfl

@[simp] theorem returnTags_outputs (x0 : State) (x1 : List BInst) : (returnTags x0 x1).outputs = x0.outputs := by
  induction x1 generalizing x0 <;> (simp [returnTags, *])

@[simp] theorem discardInv_outputs (s : State) (cell : Nat) (id : Nat) : (discardInv s cell id).outputs = s.outputs := by
  unfold discardInv; simp [*]

@[simp] theorem endFaulted_outputs (s : State) (id : Nat) : (endFaulted s id).outputs = s.outputs := by
  unfold endFaulted; (repeat' split) <;> simp [*]

@[simp] theorem dropWork_outputs (s : State) (w : BitVec 4) (x : Context) : (dropWork s w x).outputs = s.outputs := rfl

@[simp] theorem dropConfig_outputs (s : State) (w : BitVec 4) (x : Context)  : (dropConfig s w x).outputs = s.outputs := by
  unfold dropConfig; simp [*]

theorem unloadCtx_outputs {s : State} {w : BitVec 4} {x : Context} (h : purgePackets (ctxOf s w x) = []) : (unloadCtx s w x).outputs = s.outputs := by
  unfold unloadCtx; rw [h]; rfl

/-! ### The field outq -/

@[simp] theorem foldl_outq {α : Type} (f : State → α → State) (h : ∀ s a, (f s a).outq = s.outq) (l : List α) (s : State) :
    (l.foldl f s).outq = s.outq := by
  induction l generalizing s with
  | nil => rfl
  | cons a l ih => simp [ih, h]

@[simp] theorem sendVec_outq (s : State) (w : BitVec 4) (vec : Nat) : (sendVec s w vec).outq = s.outq := by
  unfold sendVec; (repeat' split) <;> simp [*]

@[simp] theorem ownWrite_outq (s : State) (w : BitVec 4) (a : Nat) (cells : List Host.Cell) : (ownWrite s w a cells).outq = s.outq := by
  unfold ownWrite; split <;> simp

@[simp] theorem logRecord_outq (s : State) (x : CtxId) (slots : List Nat)  : (logRecord s x slots).outq = s.outq := by
  unfold logRecord; dsimp only; (repeat' split) <;> simp [*]

@[simp] theorem sendExc_outq (s : State) (x : CtxId) (c : Cause) (slots : List Nat) (valid : BitVec 16) : (sendExc s x c slots valid).outq = s.outq := by
  unfold sendExc; (repeat' split) <;> simp [*]

@[simp] theorem addTrigger_outq (s : State) (w : BitVec 4) (t : Trigger) : (addTrigger s w t).outq = s.outq := by
  unfold addTrigger; simp [*]

@[simp] theorem deliverRecord_outq (s : State) (o : Origin) (r : Report) (discards : Bool)  : (deliverRecord s o r discards).outq = s.outq := by
  unfold deliverRecord; dsimp only; (repeat' split) <;> simp [*]

@[simp] theorem putTask_outq (s : State) (w : BitVec 4) (t : Task) : (putTask s w t).outq = s.outq := by
  unfold putTask; simp [*]

@[simp] theorem takeUnit_outq (s : State) (die : Nat) : (takeUnit s die).outq = s.outq := by
  unfold takeUnit; dsimp only; (repeat' split) <;> simp [*]

@[simp] theorem takeSeq_outq (s : State) (cell : Nat) : (takeSeq s cell).1.outq = s.outq := by
  unfold takeSeq; simp [*]

@[simp] theorem cutBad_outq (s : State) : (cutBad s).outq = s.outq := by
  unfold cutBad
  exact foldl_outq _ (fun st w => setWorld_outq _ _ _) _ _

@[simp] theorem restoreFirings_outq (mv : Nat → Nat) (away : Nat) (x0 : State) (x1 : List Firing) : (restoreFirings mv away x0 x1).1.outq = x0.outq := by
  induction x1 generalizing x0 <;> (simp [restoreFirings, *])

@[simp] theorem startTimers_outq (s : State) (l : List PTok) : (startTimers s l).outq = s.outq := by
  refine foldl_outq _ (fun st c => ?_) _ _
  split <;> rfl

/-! ### The field planes -/

@[simp] theorem emitTok_planes (s : State) (n : NodeId) (port : Nat) (t : Token) (owner : Option Colour) : (emitTok s n port t owner).planes = s.planes := by
  unfold emitTok; dsimp only; (repeat' split) <;> simp [*]

@[simp] theorem emitDones_planes (v : Inv) (x0 : State) (x1 : List Nat) : (emitDones v x0 x1).planes = x0.planes := by
  induction x1 generalizing x0 <;> (simp [emitDones, *])

@[simp] theorem sendGos_planes (v : Inv) (s : State) (l : List Nat) : (sendGos v s l).planes = s.planes := by
  unfold sendGos; simp [*]

@[simp] theorem countDrain_planes (s : State) (n : NodeId) (t : Tag) : (countDrain s n t).planes = s.planes := by
  unfold countDrain; dsimp only; (repeat' split) <;> simp [*]

@[simp] theorem endInv_planes (s : State) (id : Nat) : (endInv s id).planes = s.planes := by
  unfold endInv; (repeat' split) <;> simp [*]

@[simp] theorem acquireNode_planes (s : State) (n : NodeId) : (acquireNode s n).planes = s.planes := by
  unfold acquireNode; (repeat' split) <;> simp [*]

@[simp] theorem beginNest_planes (s : State) (p : Placed) (exts : List Nat) (g : GoWait) : (beginNest s p exts g).planes = s.planes := by
  unfold beginNest; (repeat' split) <;> simp [*]

@[simp] theorem startGos_planes (n : NodeId) (p : Placed) (k : Nat) (s : State) : (startGos n p k s).planes = s.planes := by
  induction k generalizing s with
  | zero => rfl
  | succ k ih =>
    simp only [startGos]
    split
    · rfl
    · split
      · rfl
      · rw [ih]; simp

@[simp] theorem startWaiting_planes (s : State) (n : NodeId) : (startWaiting s n).planes = s.planes := by
  unfold startWaiting; (repeat' split) <;> simp [*]

@[simp] theorem leavePorts_planes (s : State) (gone : PTok → Bool) : (leavePorts s gone).planes = s.planes := by
  unfold leavePorts; simp [*]

@[simp] theorem dropUsed_planes (s : State) (cell : Nat) (seqs : List Nat) : (dropUsed s cell seqs).planes = s.planes := by
  unfold dropUsed; simp [*]

@[simp] theorem unuse_planes (s : State) (cell : Nat) (seq : Nat) : (unuse s cell seq).planes = s.planes := by
  unfold unuse; simp [*]

@[simp] theorem returnTag_planes (s : State) (n : NodeId) (t : Option IterTag) : (returnTag s n t).planes = s.planes := by
  unfold returnTag; split <;> rfl

@[simp] theorem returnTags_planes (x0 : State) (x1 : List BInst) : (returnTags x0 x1).planes = x0.planes := by
  induction x1 generalizing x0 <;> (simp [returnTags, *])

@[simp] theorem endFaulted_planes (s : State) (id : Nat) : (endFaulted s id).planes = s.planes := by
  unfold endFaulted; (repeat' split) <;> simp [*]

/-! ### The field ptoks -/

@[simp] theorem foldl_ptoks {α : Type} (f : State → α → State) (h : ∀ s a, (f s a).ptoks = s.ptoks) (l : List α) (s : State) :
    (l.foldl f s).ptoks = s.ptoks := by
  induction l generalizing s with
  | nil => rfl
  | cons a l ih => simp [ih, h]

@[simp] theorem sendVec_ptoks (s : State) (w : BitVec 4) (vec : Nat) : (sendVec s w vec).ptoks = s.ptoks := by
  unfold sendVec; (repeat' split) <;> simp [*]

@[simp] theorem ownWrite_ptoks (s : State) (w : BitVec 4) (a : Nat) (cells : List Host.Cell) : (ownWrite s w a cells).ptoks = s.ptoks := by
  unfold ownWrite; split <;> simp

@[simp] theorem logRecord_ptoks (s : State) (x : CtxId) (slots : List Nat)  : (logRecord s x slots).ptoks = s.ptoks := by
  unfold logRecord; dsimp only; (repeat' split) <;> simp [*]

@[simp] theorem sendExc_ptoks (s : State) (x : CtxId) (c : Cause) (slots : List Nat) (valid : BitVec 16) : (sendExc s x c slots valid).ptoks = s.ptoks := by
  unfold sendExc; (repeat' split) <;> simp [*]

@[simp] theorem addTrigger_ptoks (s : State) (w : BitVec 4) (t : Trigger) : (addTrigger s w t).ptoks = s.ptoks := by
  unfold addTrigger; simp [*]

@[simp] theorem deliverRecord_ptoks (s : State) (o : Origin) (r : Report) (discards : Bool)  : (deliverRecord s o r discards).ptoks = s.ptoks := by
  unfold deliverRecord; dsimp only; (repeat' split) <;> simp [*]

@[simp] theorem putTask_ptoks (s : State) (w : BitVec 4) (t : Task) : (putTask s w t).ptoks = s.ptoks := by
  unfold putTask; simp [*]

@[simp] theorem takeSeq_ptoks (s : State) (cell : Nat) : (takeSeq s cell).1.ptoks = s.ptoks := by
  unfold takeSeq; simp [*]

@[simp] theorem cutBad_ptoks (s : State) : (cutBad s).ptoks = s.ptoks := by
  unfold cutBad
  exact foldl_ptoks _ (fun st w => setWorld_ptoks _ _ _) _ _

@[simp] theorem restoreFirings_ptoks (mv : Nat → Nat) (away : Nat) (x0 : State) (x1 : List Firing) : (restoreFirings mv away x0 x1).1.ptoks = x0.ptoks := by
  induction x1 generalizing x0 <;> (simp [restoreFirings, *])

@[simp] theorem startTimers_ptoks (s : State) (l : List PTok) : (startTimers s l).ptoks = s.ptoks := by
  refine foldl_ptoks _ (fun st c => ?_) _ _
  split <;> rfl

/-! ### The field srcq -/

@[simp] theorem foldl_srcq {α : Type} (f : State → α → State) (h : ∀ s a, (f s a).srcq = s.srcq) (l : List α) (s : State) :
    (l.foldl f s).srcq = s.srcq := by
  induction l generalizing s with
  | nil => rfl
  | cons a l ih => simp [ih, h]

@[simp] theorem sendVec_srcq (s : State) (w : BitVec 4) (vec : Nat) : (sendVec s w vec).srcq = s.srcq := by
  unfold sendVec; (repeat' split) <;> simp [*]

@[simp] theorem ownWrite_srcq (s : State) (w : BitVec 4) (a : Nat) (cells : List Host.Cell) : (ownWrite s w a cells).srcq = s.srcq := by
  unfold ownWrite; split <;> simp

@[simp] theorem logRecord_srcq (s : State) (x : CtxId) (slots : List Nat)  : (logRecord s x slots).srcq = s.srcq := by
  unfold logRecord; dsimp only; (repeat' split) <;> simp [*]

@[simp] theorem sendExc_srcq (s : State) (x : CtxId) (c : Cause) (slots : List Nat) (valid : BitVec 16) : (sendExc s x c slots valid).srcq = s.srcq := by
  unfold sendExc; (repeat' split) <;> simp [*]

@[simp] theorem addTrigger_srcq (s : State) (w : BitVec 4) (t : Trigger) : (addTrigger s w t).srcq = s.srcq := by
  unfold addTrigger; simp [*]

@[simp] theorem deliverRecord_srcq (s : State) (o : Origin) (r : Report) (discards : Bool)  : (deliverRecord s o r discards).srcq = s.srcq := by
  unfold deliverRecord; dsimp only; (repeat' split) <;> simp [*]

@[simp] theorem putTask_srcq (s : State) (w : BitVec 4) (t : Task) : (putTask s w t).srcq = s.srcq := by
  unfold putTask; simp [*]

@[simp] theorem takeSeq_srcq (s : State) (cell : Nat) : (takeSeq s cell).1.srcq = s.srcq := by
  unfold takeSeq; simp [*]

@[simp] theorem cutBad_srcq (s : State) : (cutBad s).srcq = s.srcq := by
  unfold cutBad
  exact foldl_srcq _ (fun st w => setWorld_srcq _ _ _) _ _

@[simp] theorem restoreFirings_srcq (mv : Nat → Nat) (away : Nat) (x0 : State) (x1 : List Firing) : (restoreFirings mv away x0 x1).1.srcq = x0.srcq := by
  induction x1 generalizing x0 <;> (simp [restoreFirings, *])

@[simp] theorem startTimers_srcq (s : State) (l : List PTok) : (startTimers s l).srcq = s.srcq := by
  refine foldl_srcq _ (fun st c => ?_) _ _
  split <;> rfl

/-! ### The field timers -/

@[simp] theorem sendVec_timers (s : State) (w : BitVec 4) (vec : Nat) : (sendVec s w vec).timers = s.timers := by
  unfold sendVec; (repeat' split) <;> simp [*]

@[simp] theorem ownWrite_timers (s : State) (w : BitVec 4) (a : Nat) (cells : List Host.Cell) : (ownWrite s w a cells).timers = s.timers := by
  unfold ownWrite; split <;> simp

@[simp] theorem logRecord_timers (s : State) (x : CtxId) (slots : List Nat)  : (logRecord s x slots).timers = s.timers := by
  unfold logRecord; dsimp only; (repeat' split) <;> simp [*]

@[simp] theorem sendExc_timers (s : State) (x : CtxId) (c : Cause) (slots : List Nat) (valid : BitVec 16) : (sendExc s x c slots valid).timers = s.timers := by
  unfold sendExc; (repeat' split) <;> simp [*]

/-! ### The field worlds -/

@[simp] theorem foldl_worlds {α : Type} (f : State → α → State) (h : ∀ s a, (f s a).worlds = s.worlds) (l : List α) (s : State) :
    (l.foldl f s).worlds = s.worlds := by
  induction l generalizing s with
  | nil => rfl
  | cons a l ih => simp [ih, h]

@[simp] theorem devPut_worlds (s : State) (a : Nat) (n : Nat) (v : Nat)  : (devPut s a n v).worlds = s.worlds := by
  unfold devPut; simp [*]

@[simp] theorem ownWrite_worlds (s : State) (w : BitVec 4) (a : Nat) (cells : List Host.Cell) : (ownWrite s w a cells).worlds = s.worlds := by
  unfold ownWrite; split <;> simp

@[simp] theorem ownPut_worlds (s : State) (w : BitVec 4) (a n v : Nat) : (ownPut s w a n v).worlds = s.worlds :=
  ownWrite_worlds _ _ _ _

@[simp] theorem sendVec_worlds (s : State) (w : BitVec 4) (vec : Nat) : (sendVec s w vec).worlds = s.worlds := by
  unfold sendVec; (repeat' split) <;> simp [*]

@[simp] theorem emitTok_worlds (s : State) (n : NodeId) (port : Nat) (t : Token) (owner : Option Colour) : (emitTok s n port t owner).worlds = s.worlds := by
  unfold emitTok; dsimp only; (repeat' split) <;> simp [*]

@[simp] theorem emitDones_worlds (v : Inv) (x0 : State) (x1 : List Nat) : (emitDones v x0 x1).worlds = x0.worlds := by
  induction x1 generalizing x0 <;> (simp [emitDones, *])

@[simp] theorem sendGos_worlds (v : Inv) (s : State) (l : List Nat) : (sendGos v s l).worlds = s.worlds := by
  unfold sendGos; simp [*]

@[simp] theorem leavePorts_worlds (s : State) (gone : PTok → Bool) : (leavePorts s gone).worlds = s.worlds := by
  unfold leavePorts; simp [*]

@[simp] theorem dropUsed_worlds (s : State) (cell : Nat) (seqs : List Nat) : (dropUsed s cell seqs).worlds = s.worlds := by
  unfold dropUsed; simp [*]

@[simp] theorem unuse_worlds (s : State) (cell : Nat) (seq : Nat) : (unuse s cell seq).worlds = s.worlds := by
  unfold unuse; simp [*]

@[simp] theorem takeSeq_worlds (s : State) (cell : Nat) : (takeSeq s cell).1.worlds = s.worlds := by
  unfold takeSeq; simp [*]

@[simp] theorem setBind_worlds (s : State) (spire : Nat) (c : Colour) (i : IterTag) (va : Nat) : (setBind s spire c i va).worlds = s.worlds := by
  unfold setBind; simp [*]

@[simp] theorem writeRecord_worlds (s : State) (w : BitVec 4) (cmpla : Option Nat) (status : Nat) (cause : Nat) (task : BitVec 32) (tiles : Nat)  : (writeRecord s w cmpla status cause task tiles).worlds = s.worlds := by
  unfold writeRecord; (repeat' split) <;> simp [*]

@[simp] theorem dropWork_worlds (s : State) (w : BitVec 4) (x : Context) : (dropWork s w x).worlds = s.worlds := rfl

@[simp] theorem dropConfig_worlds (s : State) (w : BitVec 4) (x : Context)  : (dropConfig s w x).worlds = s.worlds := by
  unfold dropConfig; simp [*]

theorem unloadCtx_worlds {s : State} {w : BitVec 4} {x : Context} (h : purgePackets (ctxOf s w x) = []) : (unloadCtx s w x).worlds = s.worlds := by
  unfold unloadCtx; rw [h]; rfl

@[simp] theorem clearCells_worlds (s : State) (cells : List Nat)  : (clearCells s cells).worlds = s.worlds := by
  unfold clearCells; simp [*]

@[simp] theorem restoreFirings_worlds (mv : Nat → Nat) (away : Nat) (x0 : State) (x1 : List Firing) : (restoreFirings mv away x0 x1).1.worlds = x0.worlds := by
  induction x1 generalizing x0 <;> (simp [restoreFirings, *])

@[simp] theorem startTimers_worlds (s : State) (l : List PTok) : (startTimers s l).worlds = s.worlds := by
  refine foldl_worlds _ (fun st c => ?_) _ _
  split <;> rfl

@[simp] theorem placeSaved_worlds (s : State) (x : CtxId) (v : Saved)  : (placeSaved s x v).worlds = s.worlds := by
  unfold placeSaved; simp [*]

end Sys2Proof.Machine
end

