-- ==== Sys2Proof/Laws/Integer.lean ====
section
/-! SUPPORT. The integer results of R139–R141 as arithmetic on values read by type and as bits. -/

namespace Sys2Proof.Machine

open Sys2Proof.Claims

/-! ### Reading and writing by type -/

theorem readInt_typed (sg : Bool) {w a : Nat} (h : a < 2 ^ w) : readInt sg w a = typed sg w a := by
  unfold readInt typed
  cases sg with
  | false => simp
  | true =>
    simp only [Bool.true_and, decide_eq_true_eq, if_true, BitVec.toInt_eq_toNat_cond, BitVec.toNat_ofNat, Nat.mod_eq_of_lt h]
    cases w with
    | zero => simp; omega
    | succ n =>
      have h4 : (2 : Nat) ^ (n + 1) = 2 ^ n * 2 := Nat.pow_succ ..
      simp only [Nat.add_sub_cancel]
      split <;> split <;> omega

theorem typed_cases (sg : Bool) {w a : Nat} (h : a < 2 ^ w) :
    typed sg w a = a ∨ (sg = true ∧ typed sg w a = (a : Int) - 2 ^ w) := by
  rw [← readInt_typed sg h]
  unfold readInt
  split
  · next hc => right; simp only [Bool.and_eq_true] at hc; exact ⟨hc.1, by simp [Int.natCast_pow]⟩
  · left; rfl

theorem typed_emod (sg : Bool) {w a : Nat} (h : a < 2 ^ w) : typed sg w a % 2 ^ w = a := by
  have ha : (a : Int) < 2 ^ w := by exact_mod_cast h
  obtain h1 | ⟨_, h1⟩ := typed_cases sg h
  · rw [h1]; exact Int.emod_eq_of_lt (by omega) ha
  · rw [h1, Int.sub_emod_right]; exact Int.emod_eq_of_lt (by omega) ha

theorem wrapInt_cast (w : Nat) (z : Int) : (wrapInt w z : Int) = z % 2 ^ w := by
  unfold wrapInt
  have h : (0 : Int) < 2 ^ w := Int.pow_pos (by omega)
  have hc : ((2 ^ w : Nat) : Int) = 2 ^ w := by simp [Int.natCast_pow]
  rw [hc, Int.toNat_of_nonneg (Int.emod_nonneg _ (by omega))]

theorem wrapInt_lt (w : Nat) (z : Int) : wrapInt w z < 2 ^ w := by
  have h : (0 : Int) < 2 ^ w := Int.pow_pos (by omega)
  have := Int.emod_lt_of_pos z h
  have := wrapInt_cast w z
  have hc : ((2 ^ w : Nat) : Int) = 2 ^ w := by simp [Int.natCast_pow]
  omega

theorem typed_range (sg : Bool) {w a : Nat} (hw : 0 < w) (h : a < 2 ^ w) :
    leastOf sg w ≤ typed sg w a ∧ typed sg w a ≤ greatestOf sg w := by
  rw [← readInt_typed sg h]
  unfold readInt leastOf greatestOf
  obtain ⟨n, rfl⟩ : ∃ n, w = n + 1 := ⟨w - 1, by omega⟩
  have hc : ((2 ^ n : Nat) : Int) = 2 ^ n := by simp [Int.natCast_pow]
  have h2 : ((2 ^ (n + 1) : Nat) : Int) = 2 ^ (n + 1) := by simp [Int.natCast_pow]
  have h3 : (2 : Int) ^ (n + 1) = 2 ^ n * 2 := Int.pow_succ 2 n
  have h4 : (2 : Nat) ^ (n + 1) = 2 ^ n * 2 := Nat.pow_succ ..
  rw [h4] at h
  simp only [Nat.add_sub_cancel]
  cases sg with
  | true =>
    simp only [Bool.true_and, decide_eq_true_eq, if_true]
    split <;> omega
  | false => simp; omega

/-- A value in the range of a type, written in w bits, reads as itself. -/
theorem typed_wrapInt (sg : Bool) {w : Nat} (hw : 0 < w) (z : Int) (h1 : leastOf sg w ≤ z) (h2 : z ≤ greatestOf sg w) :
    typed sg w (wrapInt w z) = z := by
  have hb := wrapInt_cast w z
  have hr := typed_range sg hw (wrapInt_lt w z)
  have hm := typed_emod sg (wrapInt_lt w z)
  rw [hb] at hm
  have hp : (0 : Int) < 2 ^ w := Int.pow_pos (by omega)
  have h3 : greatestOf sg w - leastOf sg w < 2 ^ w := by
    unfold greatestOf leastOf
    obtain ⟨n, rfl⟩ : ∃ n, w = n + 1 := ⟨w - 1, by omega⟩
    have : (2 : Int) ^ (n + 1) = 2 ^ n * 2 := Int.pow_succ 2 n
    cases sg <;> simp <;> omega
  have h5 := Int.emod_eq_emod_iff_emod_sub_eq_zero.mp hm
  obtain ⟨k, hk⟩ := Int.dvd_of_emod_eq_zero h5
  have hk0 : k = 0 := by
    apply Classical.byContradiction
    intro hk0
    obtain h | h : 1 ≤ k ∨ k ≤ -1 := by omega
    · have := Int.mul_le_mul_of_nonneg_left h (Int.le_of_lt hp); omega
    · have := Int.mul_le_mul_of_nonneg_left h (Int.le_of_lt hp); omega
  subst hk0
  omega

theorem intMin_eq (sg : Bool) (w : Nat) : intMin sg w = leastOf sg w := by
  unfold intMin leastOf; cases sg <;> simp [Int.natCast_pow]
theorem intMax_eq (sg : Bool) (w : Nat) : intMax sg w = greatestOf sg w := by
  unfold intMax greatestOf; cases sg <;> simp [Int.natCast_pow]

theorem typed_satInt (sg : Bool) {w : Nat} (hw : 0 < w) (z : Int) :
    typed sg w (satInt sg w z) = max (leastOf sg w) (min (greatestOf sg w) z) := by
  unfold satInt
  rw [intMin_eq, intMax_eq]
  have hle : leastOf sg w ≤ greatestOf sg w := by
    have := typed_range sg hw (show 0 < 2 ^ w from Nat.pow_pos (by omega)); omega
  exact typed_wrapInt sg hw _ (by omega) (by omega)

theorem satInt_lt (sg : Bool) (w : Nat) (z : Int) : satInt sg w z < 2 ^ w := wrapInt_lt _ _

/-! ### Arithmetic -/

theorem typed_cong (sg : Bool) {w a : Nat} (h : a < 2 ^ w) : typed sg w a % 2 ^ w = (a : Int) % 2 ^ w := by
  have ha : (a : Int) < 2 ^ w := by exact_mod_cast h
  rw [typed_emod sg h, Int.emod_eq_of_lt (by omega) ha]

theorem typed_zero (sg : Bool) {w a : Nat} (h : a < 2 ^ w) : typed sg w a = 0 ↔ a = 0 := by
  have hm := typed_emod sg h
  constructor
  · intro h0; rw [h0, Int.zero_emod] at hm; omega
  · rintro rfl; rw [← readInt_typed sg h]; unfold readInt; have : 0 < 2 ^ (w - 1) := Nat.pow_pos (by omega)
    split
    · next hc => simp at hc
    · rfl

theorem typed_inj (sg : Bool) {w a b : Nat} (ha : a < 2 ^ w) (hb : b < 2 ^ w) : typed sg w a = typed sg w b ↔ a = b := by
  constructor
  · intro h; have h1 := typed_emod sg ha; have h2 := typed_emod sg hb; rw [h, h2] at h1; omega
  · rintro rfl; rfl

variable (sg : Bool) {w a b c : Nat}

theorem aluAdd_spec (ha : a < 2 ^ w) (hb : b < 2 ^ w) : (aluAdd sg w a b : Int) = (typed sg w a + typed sg w b) % 2 ^ w := by
  rw [Int.add_emod, typed_cong sg ha, typed_cong sg hb, ← Int.add_emod]
  unfold aluAdd
  simp [Int.natCast_emod, Int.natCast_add, Int.natCast_pow]

theorem aluSub_spec (ha : a < 2 ^ w) (hb : b < 2 ^ w) : (aluSub sg w a b : Int) = (typed sg w a - typed sg w b) % 2 ^ w := by
  rw [Int.sub_emod, typed_cong sg ha, typed_cong sg hb, ← Int.sub_emod]
  exact wrapInt_cast w _

theorem aluMul_spec (ha : a < 2 ^ w) (hb : b < 2 ^ w) : (aluMul sg w a b : Int) = typed sg w a * typed sg w b % 2 ^ w := by
  rw [Int.mul_emod, typed_cong sg ha, typed_cong sg hb, ← Int.mul_emod]
  unfold aluMul
  simp [Int.natCast_emod, Int.natCast_mul, Int.natCast_pow]

theorem aluMad_spec (ha : a < 2 ^ w) (hb : b < 2 ^ w) (hc : c < 2 ^ w) :
    (aluMad sg w a b c : Int) = (typed sg w a * typed sg w b + typed sg w c) % 2 ^ w := by
  rw [Int.add_emod, Int.mul_emod, typed_cong sg ha, typed_cong sg hb, typed_cong sg hc, ← Int.mul_emod, ← Int.add_emod]
  unfold aluMad
  simp [Int.natCast_emod, Int.natCast_mul, Int.natCast_add, Int.natCast_pow]

theorem aluMulh_spec (ha : a < 2 ^ w) (hb : b < 2 ^ w) :
    (aluMulh sg w a b : Int) = typed sg w a * typed sg w b / 2 ^ w % 2 ^ w := by
  unfold aluMulh
  rw [readInt_typed sg ha, readInt_typed sg hb]
  generalize typed sg w a * typed sg w b = z
  have hp : (0 : Int) < 2 ^ w := Int.pow_pos (by omega)
  have h1 := wrapInt_cast (2 * w) z
  have h2 : (2 : Int) ^ (2 * w) = 2 ^ w * 2 ^ w := by rw [← Int.pow_add]; congr 1; omega
  rw [Int.natCast_ediv, h1, h2]
  have hc : ((2 ^ w : Nat) : Int) = 2 ^ w := by simp [Int.natCast_pow]
  rw [hc]
  generalize (2 : Int) ^ w = m at hp
  have e1 : z = m * (z / m) + z % m := (Int.mul_ediv_add_emod z m).symm
  have e2 := Int.mul_ediv_add_emod (z / m) m
  have hr := Int.emod_nonneg z (show m ≠ 0 by omega)
  have hr2 := Int.emod_lt_of_pos z hp
  have hq := Int.emod_nonneg (z / m) (show m ≠ 0 by omega)
  have hq2 := Int.emod_lt_of_pos (z / m) hp
  have e3 : z = (z % m + m * (z / m % m)) + m * m * (z / m / m) := by
    conv => lhs; rw [e1, ← e2]
    rw [Int.mul_add, ← Int.mul_assoc]; omega
  have hlt : z % m + m * (z / m % m) < m * m := by
    have : m * (z / m % m + 1) ≤ m * m := Int.mul_le_mul_of_nonneg_left (by omega) (by omega)
    rw [Int.mul_add] at this; omega
  have hge : 0 ≤ m * (z / m % m) := Int.mul_nonneg (by omega) hq
  rw [show z % (m * m) = z % m + m * (z / m % m) by
    conv => lhs; rw [e3]
    rw [Int.add_mul_emod_self_left, Int.emod_eq_of_lt (by omega) hlt]]
  rw [Int.add_mul_ediv_left _ _ (by omega), Int.ediv_eq_zero_of_lt hr hr2]
  omega

theorem aluNeg_spec (ha : a < 2 ^ w) : (aluNeg sg w a : Int) = -typed sg w a % 2 ^ w := by
  have h : -typed sg w a % 2 ^ w = (0 - typed sg w a) % 2 ^ w := by rw [Int.zero_sub]
  rw [h, Int.sub_emod, typed_cong sg ha, ← Int.sub_emod, Int.zero_sub]
  exact wrapInt_cast w _

theorem aluAbs_spec (ha : a < 2 ^ w) : aluAbs sg w a = (typed sg w a).natAbs % 2 ^ w := by
  unfold aluAbs
  rw [readInt_typed sg ha]
  have := wrapInt_cast w ((typed sg w a).natAbs : Int)
  apply Int.ofNat.inj
  simp only [Int.ofNat_eq_natCast]
  rw [this]
  simp [Int.natCast_emod, Int.natCast_pow]

theorem aluDiv_spec (ha : a < 2 ^ w) (hb : b < 2 ^ w) :
    (aluDiv sg w a b : Int) = if b = 0 then 2 ^ w - 1 else (typed sg w a).tdiv (typed sg w b) % 2 ^ w := by
  unfold aluDiv
  rw [readInt_typed sg ha, readInt_typed sg hb]
  split
  · have hc : ((2 ^ w : Nat) : Int) = 2 ^ w := by simp [Int.natCast_pow]
    omega
  · exact wrapInt_cast w _

theorem aluRem_spec (ha : a < 2 ^ w) (hb : b < 2 ^ w) :
    (aluRem sg w a b : Int) = if b = 0 then (a : Int)
      else (typed sg w a - typed sg w b * (typed sg w a).tdiv (typed sg w b)) % 2 ^ w := by
  unfold aluRem
  rw [readInt_typed sg ha, readInt_typed sg hb, ← Int.tmod_def]
  split
  · rfl
  · exact wrapInt_cast w _

theorem aluMin_spec (ha : a < 2 ^ w) (hb : b < 2 ^ w) : typed sg w (aluMin sg w a b) = min (typed sg w a) (typed sg w b) := by
  unfold aluMin
  rw [readInt_typed sg ha, readInt_typed sg hb]
  split <;> omega

theorem aluMax_spec (ha : a < 2 ^ w) (hb : b < 2 ^ w) : typed sg w (aluMax sg w a b) = max (typed sg w a) (typed sg w b) := by
  unfold aluMax
  rw [readInt_typed sg ha, readInt_typed sg hb]
  split <;> omega

theorem aluMin_lt (ha : a < 2 ^ w) (hb : b < 2 ^ w) : aluMin sg w a b < 2 ^ w := by unfold aluMin; split <;> assumption
theorem aluMax_lt (ha : a < 2 ^ w) (hb : b < 2 ^ w) : aluMax sg w a b < 2 ^ w := by unfold aluMax; split <;> assumption

/-! ### Shifts, bit by bit -/

theorem lt_of_testBit {x j : Nat} (hx : x < 2 ^ w) (h : x.testBit j = true) : j < w := by
  apply Classical.byContradiction
  intro hn
  have : x < 2 ^ j := Nat.lt_of_lt_of_le hx (Nat.pow_le_pow_right (by omega) (by omega))
  rw [Nat.testBit_lt_two_pow this] at h
  cases h

theorem aluNot_bit (ha : a < 2 ^ w) (j : Nat) (hj : j < w) : (aluNot sg w a).testBit j = !a.testBit j := by
  unfold aluNot
  rw [show 2 ^ w - 1 - a = 2 ^ w - (a + 1) by omega, Nat.testBit_two_pow_sub_succ ha]
  simp [hj]

theorem aluAndn_bit (hb : b < 2 ^ w) (j : Nat) (hj : j < w) : (aluAndn sg w a b).testBit j = (a.testBit j && !b.testBit j) := by
  have := aluNot_bit sg hb j hj
  unfold aluNot at this
  unfold aluAndn
  rw [Nat.testBit_and, this]

theorem aluShl_bit (j : Nat) (hj : j < w) : (aluShl sg w a b).testBit j = (decide (b % w ≤ j) && a.testBit (j - b % w)) := by
  unfold aluShl shiftAmt
  rw [Nat.testBit_mod_two_pow, Nat.mul_comm, Nat.testBit_two_pow_mul]
  simp [hj]

theorem aluShr_bit (ha : a < 2 ^ w) (j : Nat) :
    (aluShr sg w a b).testBit j = (decide (j + b % w < w) && a.testBit (j + b % w)) := by
  unfold aluShr shiftAmt
  rw [Nat.testBit_div_two_pow, Bool.eq_iff_iff]
  constructor
  · intro h; have := lt_of_testBit ha h; simp [h]; omega
  · intro h; simp at h; exact h.2

theorem wrapInt_bit (z : Int) (j : Nat) (hj : j < w) : (wrapInt w z).testBit j = decide (z / 2 ^ j % 2 = 1) := by
  have h1 := wrapInt_cast w z
  rw [Nat.testBit_eq_decide_div_mod_eq, Bool.eq_iff_iff, decide_eq_true_iff, decide_eq_true_iff]
  have h2 : (2 : Int) ^ w = 2 ^ j * 2 * 2 ^ (w - j - 1) := by
    rw [← Int.pow_succ, ← Int.pow_add]; congr 1; omega
  have hp : (0 : Int) < 2 ^ j := Int.pow_pos (by omega)
  have hc : ((2 ^ j : Nat) : Int) = 2 ^ j := by simp [Int.natCast_pow]
  have h3 : ((wrapInt w z / 2 ^ j % 2 : Nat) : Int) = z / 2 ^ j % 2 := by
    rw [Int.natCast_emod, Int.natCast_ediv, hc, h1, h2]
    generalize (2 : Int) ^ (w - j - 1) = r
    generalize (2 : Int) ^ j = m at hp
    have e : z % (m * 2 * r) = z - m * (2 * r * (z / (m * 2 * r))) := by
      have := Int.emod_def z (m * 2 * r)
      rw [this]; simp only [Int.mul_assoc]
    rw [e, Int.sub_mul_ediv_left _ _ (by omega), Int.mul_assoc]
    exact Int.sub_mul_emod_self_left ..
  omega

/-- Bits of a signed value, its sign bit repeated above. -/
theorem signed_bit (ha : a < 2 ^ w) (hw : 0 < w) (j : Nat) :
    decide (readInt true w a / 2 ^ j % 2 = 1) = a.testBit (min j (w - 1)) := by
  unfold readInt
  obtain ⟨n, rfl⟩ : ∃ n, w = n + 1 := ⟨w - 1, by omega⟩
  have h4 : (2 : Nat) ^ (n + 1) = 2 ^ n * 2 := Nat.pow_succ ..
  simp only [Nat.add_sub_cancel, Bool.true_and, decide_eq_true_eq]
  have hcast : ∀ x k : Nat, (decide ((x : Int) / 2 ^ k % 2 = 1)) = x.testBit k := by
    intro x k
    rw [Nat.testBit_eq_decide_div_mod_eq, Bool.eq_iff_iff, decide_eq_true_iff, decide_eq_true_iff]
    have hc : ((2 ^ k : Nat) : Int) = 2 ^ k := by simp [Int.natCast_pow]
    have : ((x / 2 ^ k % 2 : Nat) : Int) = (x : Int) / 2 ^ k % 2 := by rw [Int.natCast_emod, Int.natCast_ediv, hc]; rfl
    omega
  by_cases hjn : j < n + 1
  · have hm : min j n = j := by omega
    rw [hm]
    split
    · have e : ((a : Int) - ((2 ^ (n + 1) : Nat) : Int)) / 2 ^ j % 2 = (a : Int) / 2 ^ j % 2 := by
        have h2 : ((2 ^ (n + 1) : Nat) : Int) = 2 ^ j * (2 * 2 ^ (n - j)) := by
          rw [Int.natCast_pow, ← Int.mul_assoc]
          show (2 : Int) ^ (n + 1) = _
          rw [← Int.pow_succ, ← Int.pow_add]; congr 1; omega
        have hp : (2 : Int) ^ j ≠ 0 := by have : (0 : Int) < 2 ^ j := Int.pow_pos (by omega); omega
        rw [h2, Int.sub_mul_ediv_left _ _ hp, Int.sub_mul_emod_self_left]
      rw [e]; exact hcast a j
    · exact hcast a j
  · have hm : min j n = n := by omega
    rw [hm]
    have hjp : (2 : Nat) ^ (n + 1) ≤ 2 ^ j := Nat.pow_le_pow_right (by omega) (by omega)
    have hcj : ((2 ^ j : Nat) : Int) = 2 ^ j := by simp [Int.natCast_pow]
    split
    · next hge =>
      have : ((a : Int) - ((2 ^ (n + 1) : Nat) : Int)) / 2 ^ j = -1 := by
        rw [← hcj]
        exact (Int.ediv_eq_iff_of_pos (by omega)).mpr ⟨by omega, by omega⟩
      rw [this, Nat.testBit_eq_decide_div_mod_eq]
      have : a / 2 ^ n = 1 := Nat.div_eq_of_lt_le (by omega) (by omega)
      rw [this]; rfl
    · next hlt =>
      have : (a : Int) / 2 ^ j = 0 := by rw [← hcj]; exact Int.ediv_eq_zero_of_lt (by omega) (by omega)
      rw [this, Nat.testBit_lt_two_pow (by omega)]; rfl

theorem aluShra_bit (ha : a < 2 ^ w) (hw : 0 < w) (j : Nat) (hj : j < w) :
    (aluShra sg w a b).testBit j = a.testBit (min (j + b % w) (w - 1)) := by
  unfold aluShra shiftAmt
  rw [wrapInt_bit _ _ hj, ← signed_bit ha hw]
  congr 3
  have hc : ((2 ^ (b % w) : Nat) : Int) = 2 ^ (b % w) := by simp [Int.natCast_pow]
  have hp : (0 : Int) ≤ 2 ^ (b % w) := Int.le_of_lt (Int.pow_pos (by omega))
  rw [hc, Int.ediv_ediv_of_nonneg hp, ← Int.pow_add, Nat.add_comm]

theorem aluRotl_bit (ha : a < 2 ^ w) (hw : 0 < w) (j : Nat) (hj : j < w) :
    (aluRotl sg w a b).testBit ((j + b % w) % w) = a.testBit j := by
  unfold aluRotl shiftAmt
  have hk : b % w < w := Nat.mod_lt _ hw
  generalize b % w = k at hk
  simp only
  have e1 : a * 2 ^ k % 2 ^ w = 2 ^ k * (a % 2 ^ (w - k)) := by
    rw [Nat.mul_comm, show (2 : Nat) ^ w = 2 ^ k * 2 ^ (w - k) by rw [← Nat.pow_add]; congr 1; omega, Nat.mul_mod_mul_left]
  have e2 : a / 2 ^ (w - k) < 2 ^ k := by
    rw [Nat.div_lt_iff_lt_mul (Nat.pow_pos (by omega)), ← Nat.pow_add]
    rw [show k + (w - k) = w by omega]; exact ha
  rw [e1, Nat.testBit_two_pow_mul_add _ e2]
  by_cases h : j + k < w
  · rw [Nat.mod_eq_of_lt h]
    simp [show ¬ (j + k < k) by omega, Nat.testBit_mod_two_pow]; omega
  · rw [show (j + k) % w = j + k - w by rw [Nat.mod_eq_sub_mod (by omega)]; exact Nat.mod_eq_of_lt (by omega)]
    simp [show j + k - w < k by omega, Nat.testBit_div_two_pow]
    congr 1; omega

/-! ### Counting and reversing bits -/

theorem popCount_spec : ∀ n a, popCount n a = ((List.range n).filter (fun j => a.testBit j)).length := by
  intro n
  induction n with
  | zero => intro a; rfl
  | succ n ih =>
    intro a
    unfold popCount
    rw [ih, List.range_succ_eq_map]
    simp only [List.filter_cons, List.filter_map, Nat.testBit_zero, Function.comp_def, Nat.testBit_succ]
    split
    · next h => simp at h; simp [h]; omega
    · next h => simp at h; simp; omega

theorem trailZeros_le : ∀ n a, trailZeros n a ≤ n := by
  intro n
  induction n with
  | zero => intro a; exact Nat.le_refl _
  | succ n ih => intro a; unfold trailZeros; have := ih (a / 2); split <;> omega

theorem trailZeros_clear : ∀ n a j, j < trailZeros n a → a.testBit j = false := by
  intro n
  induction n with
  | zero => intro a j h; cases h
  | succ n ih =>
    intro a j h
    unfold trailZeros at h
    split at h
    · cases h
    · next ho =>
      cases j with
      | zero => simp [Nat.testBit_zero]; omega
      | succ j => rw [Nat.testBit_succ]; exact ih _ _ (by omega)

theorem trailZeros_set : ∀ n a, trailZeros n a < n → a.testBit (trailZeros n a) = true := by
  intro n
  induction n with
  | zero => intro a h; cases h
  | succ n ih =>
    intro a h
    unfold trailZeros at h ⊢
    split
    · next ho => simp [Nat.testBit_zero, ho]
    · next ho =>
      rw [if_neg ho] at h
      rw [Nat.add_comm, Nat.testBit_succ]; exact ih _ (by omega)

theorem bitReverse_lt : ∀ n a, bitReverse n a < 2 ^ n := by
  intro n
  induction n with
  | zero => intro a; simp [bitReverse]
  | succ n ih =>
    intro a
    unfold bitReverse
    have := ih (a / 2)
    have hp : (2 : Nat) ^ (n + 1) = 2 ^ n * 2 := Nat.pow_succ ..
    obtain h | h : a % 2 = 0 ∨ a % 2 = 1 := by omega
    · rw [h]; omega
    · rw [h]; omega

theorem bitReverse_bit : ∀ n a j, j < n → (bitReverse n a).testBit j = a.testBit (n - 1 - j) := by
  intro n
  induction n with
  | zero => intro a j h; cases h
  | succ n ih =>
    intro a j h
    unfold bitReverse
    rw [Nat.mul_comm, Nat.testBit_two_pow_mul_add _ (bitReverse_lt n (a / 2))]
    split
    · next hj =>
      rw [ih _ _ hj, ← Nat.testBit_succ]
      congr 1; omega
    · next hj =>
      have : j = n := by omega
      subst this
      simp [Nat.testBit_zero]

/-! ### Fields -/

theorem aluBfx_bit (hw : 0 < w) (pos len j : Nat) (hj : j < w) :
    let p := pos % w
    let l := min len (w - p)
    (aluBfx sg w a pos len).testBit j = if j < l then a.testBit (p + j) else sg && decide (0 < l) && a.testBit (p + l - 1) := by
  intro p l
  have hp : p < w := Nat.mod_lt _ hw
  unfold aluBfx fieldOf
  show (if l = 0 then 0 else if sg = true then wrapInt w (readInt true l (a / 2 ^ p % 2 ^ l)) else a / 2 ^ p % 2 ^ l).testBit j = _
  by_cases hl : l = 0
  · simp [hl]
  · rw [if_neg hl]
    have hb : ∀ k, (a / 2 ^ p % 2 ^ l).testBit k = (decide (k < l) && a.testBit (p + k)) := by
      intro k; rw [Nat.testBit_mod_two_pow, Nat.testBit_div_two_pow, Nat.add_comm]
    cases sg with
    | true =>
      rw [if_pos rfl, wrapInt_bit _ _ hj, signed_bit (Nat.mod_lt _ (Nat.pow_pos (by omega))) (by omega), hb]
      split
      · next h => rw [show min j (l - 1) = j by omega]; simp [h]
      · next h =>
        rw [show min j (l - 1) = l - 1 by omega]
        simp [show l - 1 < l by omega, show 0 < l by omega]; congr 1; omega
    | false =>
      rw [if_neg (by decide), hb]
      split <;> simp [*]

theorem aluBfi_bit (hw : 0 < w) (pos len j : Nat) :
    let p := pos % w
    let l := min len (w - p)
    (aluBfi sg w a b pos len).testBit j = if p ≤ j ∧ j < p + l then b.testBit (j - p) else a.testBit j := by
  intro p l
  have hp : p < w := Nat.mod_lt _ hw
  unfold aluBfi fieldOf
  show (if l = 0 then a else a - a / 2 ^ p % 2 ^ l * 2 ^ p + b % 2 ^ l * 2 ^ p).testBit j = _
  by_cases hl : l = 0
  · rw [if_pos hl, if_neg (by omega)]
  · rw [if_neg hl]
    have hpl : (2 : Nat) ^ (p + l) = 2 ^ p * 2 ^ l := Nat.pow_add ..
    have e0 : a = 2 ^ (p + l) * (a / 2 ^ (p + l)) + (2 ^ p * (a / 2 ^ p % 2 ^ l) + a % 2 ^ p) := by
      have h1 := Nat.div_add_mod a (2 ^ p)
      have h2 := Nat.div_add_mod (a / 2 ^ p) (2 ^ l)
      rw [Nat.div_div_eq_div_mul, ← hpl] at h2
      conv => lhs; rw [← h1, ← h2]
      rw [Nat.mul_add, ← Nat.mul_assoc, ← hpl]; omega
    have hlow : a % 2 ^ p < 2 ^ p := Nat.mod_lt _ (Nat.pow_pos (by omega))
    have hmidb : b % 2 ^ l < 2 ^ l := Nat.mod_lt _ (Nat.pow_pos (by omega))
    have hmida : a / 2 ^ p % 2 ^ l < 2 ^ l := Nat.mod_lt _ (Nat.pow_pos (by omega))
    have hsm : ∀ m, m < 2 ^ l → 2 ^ p * m + a % 2 ^ p < 2 ^ (p + l) := by
      intro m hm
      rw [hpl]
      have : 2 ^ p * (m + 1) ≤ 2 ^ p * 2 ^ l := Nat.mul_le_mul_left _ hm
      rw [Nat.mul_add] at this; omega
    have e1 : a - a / 2 ^ p % 2 ^ l * 2 ^ p + b % 2 ^ l * 2 ^ p
        = 2 ^ (p + l) * (a / 2 ^ (p + l)) + (2 ^ p * (b % 2 ^ l) + a % 2 ^ p) := by
      rw [Nat.mul_comm _ (2 ^ p), Nat.mul_comm (b % 2 ^ l)]
      omega
    have hbit : ∀ m, m < 2 ^ l → (2 ^ (p + l) * (a / 2 ^ (p + l)) + (2 ^ p * m + a % 2 ^ p)).testBit j
        = if j < p + l then (if j < p then (a % 2 ^ p).testBit j else m.testBit (j - p)) else (a / 2 ^ (p + l)).testBit (j - (p + l)) := by
      intro m hm
      rw [Nat.testBit_two_pow_mul_add _ (hsm _ hm), Nat.testBit_two_pow_mul_add _ hlow]
    have hown := hbit _ hmida
    rw [← e0] at hown
    rw [e1, hbit _ hmidb, hown]
    by_cases h1 : j < p + l
    · by_cases h2 : j < p
      · simp only [h1, h2, if_true, show ¬ p ≤ j by omega, false_and, if_false]
      · simp only [h1, h2, show p ≤ j by omega, Nat.testBit_mod_two_pow, show j - p < l by omega]; simp
    · simp [h1]

theorem aluBfi_lt (ha : a < 2 ^ w) (hw : 0 < w) (pos len : Nat) : aluBfi sg w a b pos len < 2 ^ w := by
  apply Nat.lt_pow_two_of_testBit
  intro j hj
  have hb := aluBfi_bit sg (a := a) (b := b) hw pos len j
  have hp : pos % w < w := Nat.mod_lt _ hw
  simp only at hb
  rw [hb, if_neg (by omega)]
  exact Nat.testBit_lt_two_pow (Nat.lt_of_lt_of_le ha (Nat.pow_le_pow_right (by omega) hj))

theorem aluBfx_lt (ha : a < 2 ^ w) (pos len : Nat) : aluBfx sg w a pos len < 2 ^ w := by
  unfold aluBfx
  have hp : 0 < 2 ^ w := Nat.pow_pos (by omega)
  simp only
  split
  · exact hp
  · split
    · exact wrapInt_lt _ _
    · exact Nat.lt_of_le_of_lt (Nat.mod_le _ _) (Nat.lt_of_le_of_lt (Nat.div_le_self _ _) ha)

end Sys2Proof.Machine
end

