-- ==== Sys2Proof/Laws/Results.lean ====
section
/-! SUPPORT.  Lemmas for the statements about the results of integer, float, lane, conversion and control instructions. -/

open Sys2Proof Sys2Proof.Machine Sys2Proof.Claims

namespace Sys2Proof.Laws

theorem intResult {i : Hdr → PayA → Instr} {f : Bool → Nat → List Nat → Nat} {g : Bool → Nat → List Nat → Nat → Prop}
    (hi : ∀ h p s, exec (i h p) s = intOp h p s f)
    (hg : ∀ sg w l, Width w → (∀ k, bitsAt l k < 2 ^ w) → f sg w l < 2 ^ w ∧ g sg w l (f sg w l)) : IntResult i g := by
  intro h p s b xs hf
  apply elementWise_mapElems (codeWidth_width _) (f := fun _ l => f (codeSigned h.fmt) (codeWidth h.fmt) l)
  · rw [hi]; exact pureOp_fires _ _ hf
  · intro n l hl; exact hg _ _ l (codeWidth_width _) (elemsAt_lt hl)

theorem wpos {w : Nat} (h : Width w) : 0 < w := by unfold Width at h; omega

theorem wlt {w : Nat} (hw : Width w) : w < 2 ^ w := Nat.lt_two_pow_self

theorem onelt {w : Nat} (hw : Width w) : 1 < 2 ^ w := Nat.one_lt_two_pow (by have := (wpos hw); omega)

theorem modlt (x w : Nat) : x % 2 ^ w < 2 ^ w := Nat.mod_lt _ (Nat.pow_pos (by omega))

theorem pc_le (n a : Nat) : popCount n a ≤ n := by
  induction n generalizing a with
  | zero => exact Nat.le_refl _
  | succ n ih => unfold popCount; have := ih (a/2); omega

theorem onelt_results {w : Nat} (hw : Width w) : 1 < 2 ^ w := Nat.one_lt_two_pow (by unfold Width at hw; omega)

theorem addrBad_none : ∀ (l : List (Option Int)) (n : Nat), (∀ y, some y ∈ l → 0 ≤ y ∧ y < 2 ^ 57) → addrBad n l = none := by
  intro l; induction l with
  | nil => intros; rfl
  | cons a l ih =>
    intro n h
    cases a with
    | none => exact ih _ (fun y hy => h y (List.mem_cons_of_mem _ hy))
    | some x =>
      unfold addrBad
      have := h x (List.mem_cons_self ..)
      rw [if_neg (by simp; omega)]
      exact ih _ (fun y hy => h y (List.mem_cons_of_mem _ hy))

theorem addrBad_some : ∀ (l : List (Option Int)) (k n : Nat) (y : Int), l[n]? = some (some y) → ¬ (0 ≤ y ∧ y < 2 ^ 57) →
    (∀ m z, m < n → l[m]? = some (some z) → 0 ≤ z ∧ z < 2 ^ 57) → addrBad k l = some (k + n, y) := by
  intro l; induction l with
  | nil => intro k n y h; simp at h
  | cons a l ih =>
    intro k n y h hy hm
    cases n with
    | zero =>
      simp at h; subst h; unfold addrBad; rw [if_pos (by simp; omega)]; rfl
    | succ n =>
      have hr := ih (k + 1) n y (by simpa using h) hy (fun m z hlt hz => hm (m + 1) z (by omega) (by simpa using hz))
      rw [show k + (n + 1) = k + 1 + n by omega]
      cases a with
      | none => exact hr
      | some x =>
        have := hm 0 x (by omega) rfl
        unfold addrBad; rw [if_neg (by simp; omega)]; exact hr

theorem addressResult {i : Hdr → PayA → Instr} {f : List Int → Int} {ex : Int → List Int → Int}
    (hi : ∀ h p s, exec (i h p) s = addrOp h p s f) (hx : ∀ l, l ≠ [] → f (readInt false 64 (l.getD 0 0) :: (l.drop 1).map (readInt true 64)) = ex (l.getD 0 0 : Nat) ((l.drop 1).map (readInt true 64)))
    (hn : f (readInt false 64 0 :: []) = ex 0 []) : AddressResult i ex := by
  intro h p s b xs hf x good
  have hget : ∀ n, n < 8 → (addrExact xs f)[n]? = some (x n) := by
    intro n hn8
    unfold addrExact
    rw [List.getElem?_map, List.getElem?_range hn8]
    simp only [Option.map_some, Option.some.injEq]
    show _ = (elemsAt 64 xs n).map _
    cases he : elemsAt 64 xs n with
    | none => rfl
    | some l =>
      simp only [Option.map_some, Option.some.injEq]
      have hl : (l.drop 1).map (readInt true 64) = (l.drop 1).map (typed true 64) := by
        apply List.map_congr_left
        intro a ha
        obtain ⟨k, hk, rfl⟩ := List.mem_iff_getElem.mp ha
        rw [List.getElem_drop]
        have := elemsAt_lt he (1 + k)
        unfold bitsAt at this
        rw [List.getD_eq_getElem?_getD, List.getElem?_eq_getElem (by simp at hk; omega)] at this
        exact readInt_typed true this
      cases l with
      | nil => exact hn
      | cons a l => rw [hx _ (by simp), hl]; rfl
  have hlen : (addrExact xs f).length = 8 := by simp [addrExact]
  have hmem : ∀ y, some y ∈ addrExact xs f → ∃ n, n < 8 ∧ x n = some y := by
    intro y hy
    obtain ⟨n, hn, he⟩ := List.mem_iff_getElem.mp hy
    refine ⟨n, by omega, ?_⟩
    have := hget n (by omega)
    rw [List.getElem?_eq_getElem hn, he] at this
    simpa using this.symm
  have he := withOps_fires (skipInst h) (fun b xs =>
    let r := addrExact xs f
    match addrBad 0 r with
    | some (n, x) => raise s b { cause := .addrOverflow, n := n, addr := wrapInt 64 x }
    | none =>
      let v := ofElems 64 (r.map (fun o => o.map (wrapInt 64)))
      putInst s (advance 1 (deliver h 0 (same v (predElem 64 v)) b))) hf
  have he : exec (i h p) s = _ := (hi h p s).trans he
  constructor
  · intro hg
    have hb := addrBad_none (addrExact xs f) 0 (fun y hy => by obtain ⟨n, hn, e⟩ := hmem y hy; exact hg n y hn e)
    simp only [hb] at he
    refine ⟨_, _, he, firstNonzero_predElem _ _, ?_⟩
    intro n hn
    have hgx : ∀ k, k < 8 → (((addrExact xs f).map (fun o => o.map (wrapInt 64)))[k]?).getD none = (x k).map (wrapInt 64) := by
      intro k hk; rw [List.getElem?_map, hget k hk]; rfl
    rw [elemOf_ofElems (w := 64) (by unfold Width; simp) _ n (by simpa [elemCount] using hn) (by simp [hlen, elemCount]), hgx n hn]
    · cases hxn : x n with
      | none => rfl
      | some y =>
        have := hg n y hn hxn
        simp only [Option.map_some, Option.some.injEq]
        have h1 := wrapInt_cast 64 y
        rw [Int.emod_eq_of_lt this.1 (by have h2 := this.2; omega)] at h1
        omega
    · intro a c ha hc hac
      have : a = c := by simp [elemCount] at ha hc; omega
      rw [this]
    · intro z hz; rw [hgx n hn] at hz
      cases hxn : x n with
      | none => rw [hxn] at hz; cases hz
      | some y => rw [hxn] at hz; cases hz; exact wrapInt_lt _ _
  · intro n y hn hxy hbad hall
    have hb := addrBad_some (addrExact xs f) 0 n y (by rw [hget n hn, hxy]) hbad (fun m z hm hz => hall m z hm (by
      rw [hget m (by omega)] at hz; simpa using hz))
    simp only [Nat.zero_add] at hb
    simp only [hb] at he
    exact he

theorem floatOf {i : Hdr → PayA → Instr} {f : Hdr → State → BInst → Nat → List Nat → Nat} {g : Fmt → Rnd → Nat → List Nat → Nat → Prop}
    (hi : ∀ h p s, exec (i h p) s = fmtOp h (kConsts false p.k) s (vectorCheck s h) (fun b xs => floatDeliv (entryOf s b h.fmt.toNat) xs (f h s b)))
    (hg : ∀ h s b n l, vectorEntry (entryWord s b h.fmt.toNat) = true → (∀ k, bitsAt l k < 2 ^ (entryOf s b h.fmt.toNat).cont) → g (entryOf s b h.fmt.toNat) h.rnd ((srOf s b).noise n) l (f h s b n l % 2 ^ (entryOf s b h.fmt.toNat).cont)) : FloatResult i g := by
  intro h p s b xs hf e
  constructor
  · intro hv
    rw [hi]; exact fmtOp_raises _ hf (by simp [vectorCheck, hv])
  · intro hv
    have he := fmtOp_fires (check := vectorCheck s h) (fun b xs => floatDeliv (entryOf s b h.fmt.toNat) xs (f h s b)) hf (by simp [vectorCheck, hv])
    refine elementWise_mapElems (f := fun n l => f h s b n l % 2 ^ e.cont) (Fmt.cont_width _) ?_ (fun n l hl => ⟨modlt _ _, hg h s b n l hv (elemsAt_lt hl)⟩)
    rw [hi, he]; unfold floatDeliv; rw [mapElems_mod]

theorem rounded {i : Hdr → PayA → Instr} {f : Bool → (Nat → Machine.Num) → Exact} {g : Bool → Fmt → List Nat → Exact} (hi : ∀ h p s, exec (i h p) s = roundOp h p s f)
    (hg : ∀ d e l, f d (valueOf e l) = g d e l) : RoundedResult i g := by
  refine floatOf (f := fun h s b n l => round (f (resolveRnd h.rnd (entryOf s b h.fmt.toNat) == .rdn) (valueOf (entryOf s b h.fmt.toNat) l)) (entryOf s b h.fmt.toNat) h.rnd ((srOf s b).noise n)) hi ?_
  intro h s b n l hv _
  simp only [hg]; rfl

theorem plain {i : Hdr → PayA → Instr} {f : Fmt → List Nat → Nat} {g : Fmt → Rnd → Nat → List Nat → Nat → Prop} (hi : ∀ h p s, exec (i h p) s = floatOp h p s f)
    (hg : ∀ x m noise l, let e := Fmt.ofWord x; vectorEntry x = true → (∀ k, bitsAt l k < 2 ^ e.cont) → g e m noise l (f e l % 2 ^ e.cont)) : FloatResult i g := by
  refine floatOf (f := fun h s b n l => f (entryOf s b h.fmt.toNat) l) hi ?_
  intro h s b n l hv hl
  exact hg _ _ _ l hv hl

theorem vec_width {x : Word64} (h : vectorEntry x = true) : (Fmt.ofWord x).width = (Fmt.ofWord x).cont ∧ ((Fmt.ofWord x).cont = 16 ∨ (Fmt.ofWord x).cont = 32) := by
  simp only [vectorEntry, Bool.and_eq_true, Bool.or_eq_true, beq_iff_eq] at h
  obtain ⟨⟨_, h | h⟩, _⟩ := h <;> simp [Fmt.cont, h]

theorem nan_iff (v : Machine.Num) : v.isNan = true ↔ v = .nan := by cases v <;> simp [Machine.Num.isNan]

theorem cmp_swap (a b : Machine.Num) : b.cmp a = (a.cmp b).map Ordering.swap := by
  cases a <;> cases b <;> simp only [Machine.Num.cmp, Option.map_none, Option.map_some]
  · next s t => cases s <;> cases t <;> rfl
  · next s t n e => cases s <;> rfl
  · next s n e t => cases t <;> rfl
  · rw [Int.min_comm]
    simp only [Option.some.injEq, compare, compareOfLessAndEq]
    split <;> split <;> (try split) <;> (try split) <;> (try rfl) <;> omega

theorem before_asymm {a b : Machine.Num} (h : a.before b = true) : b.before a = false := by
  unfold Machine.Num.before at h ⊢
  rw [cmp_swap a b]
  cases hc : a.cmp b with
  | none => rfl
  | some o =>
    rw [hc] at h
    cases o with
    | lt => rfl
    | gt => cases h
    | eq => simp at h; simp [h]

theorem pickSpec (big : Bool) (x : Word64) (l : List Nat) (hv : vectorEntry x = true) (hl : ∀ k, bitsAt l k < 2 ^ (Fmt.ofWord x).cont) :
    let e := Fmt.ofWord x
    let c := pickCode e big (bitsAt l 0) (bitsAt l 1) % 2 ^ e.cont
    let x := valueAt e l 0
    let y := valueAt e l 1
    if x = .nan ∧ y = .nan then c = special e .nan false .rne % 2 ^ e.cont
    else if x = .nan then c = bitsAt l 1
    else if y = .nan then c = bitsAt l 0
    else (c = bitsAt l 0 ∧ (if big then x.before y else y.before x) = false) ∨ (c = bitsAt l 1 ∧ (if big then y.before x else x.before y) = false) := by
  intro e c X Y
  have h0 := Nat.mod_eq_of_lt (hl 0)
  have h1 := Nat.mod_eq_of_lt (hl 1)
  have hnx : (decodeElem e (bitsAt l 0)).isNan = true ↔ X = .nan := nan_iff _
  have hny : (decodeElem e (bitsAt l 1)).isNan = true ↔ Y = .nan := nan_iff _
  have hc : c = pickCode e big (bitsAt l 0) (bitsAt l 1) % 2 ^ e.cont := rfl
  unfold pickCode at hc
  simp only [Bool.and_eq_true, hnx, hny] at hc
  by_cases h1' : X = .nan
  · by_cases h2' : Y = .nan
    · rw [if_pos ⟨h1', h2'⟩] at hc ⊢; exact hc
    · rw [if_neg (fun h => h2' h.2), if_pos h1'] at hc ⊢; rw [hc]; exact h1
  · rw [if_neg (fun h => h1' h.1), if_neg h1'] at hc ⊢
    by_cases h2' : Y = .nan
    · rw [if_pos h2'] at hc ⊢; rw [hc]; exact h0
    · rw [if_neg h2'] at hc ⊢
      change c = (if (if big = true then X.before Y else Y.before X) = true then _ else _) % _ at hc
      cases big
      · simp only [Bool.false_eq_true, if_false] at hc ⊢
        split at hc
        · next hb => right; exact ⟨hc.trans h1, before_asymm hb⟩
        · next hb => left; exact ⟨hc.trans h0, by simpa using hb⟩
      · simp only [if_true] at hc ⊢
        split at hc
        · next hb => right; exact ⟨hc.trans h1, before_asymm hb⟩
        · next hb => left; exact ⟨hc.trans h0, by simpa using hb⟩

theorem rel {x : Word64} {l : List Nat} {f : Option Ordering → Bool} {P : Option Ordering → Prop} (hf : ∀ o, f o = true ↔ P o) (hw : 1 < 2 ^ (Fmt.ofWord x).cont) :
    let e := Fmt.ofWord x
    let c := relCode e l f % 2 ^ e.cont
    (c = 1 ∧ P ((valueAt e l 0).cmp (valueAt e l 1))) ∨ (c = 0 ∧ ¬ P ((valueAt e l 0).cmp (valueAt e l 1))) := by
  intro e c
  have hc : c = relCode e l f % 2 ^ e.cont := rfl
  unfold relCode at hc
  by_cases h : f ((valueAt e l 0).cmp (valueAt e l 1)) = true
  · left; change c = (if f ((valueAt e l 0).cmp (valueAt e l 1)) = true then _ else _) % _ at hc
    rw [if_pos h, Nat.mod_eq_of_lt hw] at hc; exact ⟨hc, (hf _).mp h⟩
  · right; change c = (if f ((valueAt e l 0).cmp (valueAt e l 1)) = true then _ else _) % _ at hc
    rw [if_neg h, Nat.zero_mod] at hc; exact ⟨hc, fun hp => h ((hf _).mpr hp)⟩

theorem cmp_none (a b : Machine.Num) : a.cmp b = none ↔ a = .nan ∨ b = .nan := by
  cases a <;> cases b <;> simp [Machine.Num.cmp]

theorem transOf {i : Hdr → PayA → Instr} {f : Machine.Num → Exact} (hi : ∀ h p s, exec (i h p) s = transOp h p s f) : TransResult i f := by
  intro h p s b xs hf
  constructor
  · intro hne; rw [hi]; exact fmtOp_raises _ hf (by simp [fp32Check, hne])
  · intro he
    have h1 := fmtOp_fires (check := fp32Check s h) (fun b xs => floatDeliv fp32 xs (fun n l => round (f (decodeElem fp32 (l.getD 0 0))) fp32 h.rnd ((srOf s b).noise n))) hf (by simp [fp32Check, he])
    refine elementWise_mapElems (f := fun n l => round (f (decodeElem fp32 (l.getD 0 0))) fp32 h.rnd ((srOf s b).noise n) % 2 ^ 32) (by unfold Width; simp) ?_ (fun n l hl => ⟨modlt _ _, rfl⟩)
    rw [hi]; refine h1.trans ?_; unfold floatDeliv; rw [show fp32.cont = 32 from rfl, mapElems_mod 32 xs]

theorem slotRes {i : Hdr → PayL → Instr} {f : Hdr → PayL → List Val → Val} {g : Hdr → PayL → List Val → Nat → Option Slot}
    (hi : ∀ h p s, exec (i h p) s = slotOp h p s (f h p)) (hg : ∀ h p xs k, k < 16 → slotOf (f h p xs) k = g h p xs k) : SlotResult i g := by
  intro h p s b xs hf
  refine ⟨_, _, (hi h p s).trans (pureOp_fires _ _ hf), firstNonzero_predElem _ _, hg h p xs⟩

theorem slot_noVal (k : Nat) : slotOf noVal k = none := by unfold slotOf noVal; simp

theorem prefixes_get (e : Fmt) : ∀ (l : List (Option Nat)) (acc : List Machine.Num) (n : Nat), n < l.length →
    (prefixes e acc l)[n]? = some ((l[n]?.getD none).map (fun _ => acc ++ ((l.take (n + 1)).filterMap id).map (decodeElem e))) := by
  intro l; induction l with
  | nil => intro acc n h; simp at h
  | cons x l ih =>
    intro acc n h
    cases x with
    | none =>
      cases n with
      | zero => rfl
      | succ n => simp only [prefixes, List.getElem?_cons_succ, List.take_succ_cons, List.filterMap_cons_none (f := id) rfl]; exact ih acc n (by simpa using h)
    | some x =>
      cases n with
      | zero => simp [prefixes]
      | succ n =>
        simp only [prefixes, List.getElem?_cons_succ, List.take_succ_cons, List.filterMap_cons_some (f := id) rfl]
        rw [ih _ n (by simpa using h)]; simp

theorem prefixes_len (e : Fmt) : ∀ (l : List (Option Nat)) (acc : List Machine.Num), (prefixes e acc l).length = l.length := by
  intro l; induction l with
  | nil => intro acc; rfl
  | cons x l ih => intro acc; cases x <;> simp [prefixes, ih]

theorem enumFrom_get {α : Type} : ∀ (l : List α) (k n : Nat), (enumFrom k l)[n]? = l[n]?.map (fun x => (k + n, x)) := by
  intro l; induction l with
  | nil => intro k n; simp [enumFrom]
  | cons a l ih => intro k n; cases n with
    | zero => simp [enumFrom]
    | succ n => simp only [enumFrom, List.getElem?_cons_succ, ih]; congr 1; funext x; congr 1; omega

theorem elemValid_slot {w : Nat} (hw : Width w) (v : Val) {i j : Nat} (h : i * w / 32 = j * w / 32) : elemValid w v i = elemValid w v j := by
  unfold elemValid
  unfold Width at hw
  by_cases h64 : w = 64
  · subst h64; have : i = j := by omega
    rw [this]
  · simp [h64, h]

theorem fred {i : Hdr → PayL → Instr} {f : Fmt → (Nat → Nat) → List Nat → Nat} {h : Hdr} {p : PayL} {s : State} {g : Fmt → Rnd → Nat → List Nat → Nat} (hi : exec (i h p) s = floatReduce h p s f)
    (hg : ∀ s' b, let e := entryOf s' b h.fmt.toNat; ∀ l, l ≠ [] → f e (srOf s' b).noise l = g e h.rnd ((srOf s' b).noise 0) l) {b : BInst} {xs : List Val} (hf : Fires h (k0Const p.k0) s b xs) :
    let e := entryOf s b h.fmt.toNat
    let l := validElems e.cont (xs.getD 0 noVal)
    (vectorEntry (entryWord s b h.fmt.toNat) = false → exec (i h p) s = .next (raiseFormat s b h.fmt.toNat))
    ∧ (vectorEntry (entryWord s b h.fmt.toNat) = true →
      ∃ v q, exec (i h p) s = .next (delivered h 0 s b 1 v q) ∧ FirstNonzero e.cont v q
        ∧ ∀ k, k < 16 → slotOf v k = if k = 0 ∧ l ≠ [] then some (BitVec.ofNat 32 (g e h.rnd ((srOf s b).noise 0) l)) else none) := by
  intro e l
  constructor
  · intro hv; rw [hi]; unfold floatReduce; exact fmtOp_raises _ hf (by simp [vectorCheck, hv])
  · intro hv
    have he := fmtOp_fires (check := vectorCheck s h) (fun b xs =>
      let e := entryOf s b h.fmt.toNat
      let l := (elems e.cont (arg xs 0)).filterMap id
      let v := if l = [] then noVal else word32 (f e (srOf s b).noise l)
      same v (predElem e.cont v)) hf (by simp [vectorCheck, hv])
    refine ⟨_, _, hi.trans he, firstNonzero_predElem _ _, ?_⟩
    intro k hk
    show slotOf (if l = [] then noVal else word32 (f e (srOf s b).noise l)) k = _
    by_cases hl : l = []
    · rw [if_pos hl, slot_noVal, if_neg (fun h => h.2 hl)]
    · rw [if_neg hl, slotOf_word32 _ _ hk, hg s b l hl]; simp [hl, e]

theorem foldMinMem (f : Int → Int → Int) (hf : ∀ a b, f a b = a ∨ f a b = b) : ∀ (l : List Int) (a : Int), l.foldl f a = a ∨ l.foldl f a ∈ l := by
  intro l; induction l with
  | nil => intro a; exact .inl rfl
  | cons x l ih =>
    intro a
    rw [List.foldl_cons]
    obtain h | h := ih (f a x)
    · rw [h]; obtain h2 | h2 := hf a x
      · rw [h2]; exact .inl rfl
      · rw [h2]; exact .inr (List.mem_cons_self ..)
    · exact .inr (List.mem_cons_of_mem _ h)

theorem foldMaxLe : ∀ (l : List Int) (a : Int), a ≤ l.foldl max a ∧ ∀ x ∈ l, x ≤ l.foldl max a := by
  intro l; induction l with
  | nil => intro a; simp
  | cons x l ih =>
    intro a
    rw [List.foldl_cons]
    obtain ⟨h1, h2⟩ := ih (max a x)
    refine ⟨by omega, fun y hy => ?_⟩
    rcases List.mem_cons.mp hy with rfl | hy
    · omega
    · exact h2 y hy

theorem foldMinLe : ∀ (l : List Int) (a : Int), l.foldl min a ≤ a ∧ ∀ x ∈ l, l.foldl min a ≤ x := by
  intro l; induction l with
  | nil => intro a; simp
  | cons x l ih =>
    intro a
    rw [List.foldl_cons]
    obtain ⟨h1, h2⟩ := ih (min a x)
    refine ⟨by omega, fun y hy => ?_⟩
    rcases List.mem_cons.mp hy with rfl | hy
    · omega
    · exact h2 y hy

theorem foldAddSum : ∀ (l : List Int) (a : Int), l.foldl (· + ·) a = a + l.sum := by
  intro l; induction l with
  | nil => intro a; simp
  | cons x l ih => intro a; rw [List.foldl_cons, ih, List.sum_cons]; omega

theorem foldAnd : ∀ (l : List Nat) (a j : Nat), (l.foldl (fun a b => a &&& b) a).testBit j = (a.testBit j && l.all (fun x => x.testBit j)) := by
  intro l; induction l with
  | nil => intro a j; simp
  | cons x l ih => intro a j; rw [List.foldl_cons, ih, Nat.testBit_and, List.all_cons, Bool.and_assoc]

theorem foldOr : ∀ (l : List Nat) (a j : Nat), (l.foldl (fun a b => a ||| b) a).testBit j = (a.testBit j || l.any (fun x => x.testBit j)) := by
  intro l; induction l with
  | nil => intro a j; simp
  | cons x l ih => intro a j; rw [List.foldl_cons, ih, Nat.testBit_or, List.any_cons, Bool.or_assoc]

theorem valid_lt {w : Nat} {x : Val} {c : Nat} (h : c ∈ validElems w x) : c < 2 ^ w := by
  unfold validElems elems at h
  simp only [List.mem_filterMap, List.mem_map, List.mem_range, id] at h
  obtain ⟨a, ⟨n, _, rfl⟩, h⟩ := h
  unfold elemOf at h
  split at h
  · cases h; exact Nat.mod_lt _ (Nat.pow_pos (by omega))
  · cases h

theorem slotOf_word64 (x : Word64) (k : Nat) (hk : k < 16) : slotOf (word64 x) k = if k = 0 then some (x.extractLsb' 0 32) else if k = 1 then some (x.extractLsb' 32 32) else none := by
  unfold word64; rw [slotOf_firstSlots _ _ hk]
  match k with
  | 0 => rfl
  | 1 => rfl
  | k + 2 => simp

theorem ofNat_wrap (m : Int) : BitVec.ofNat 32 (wrapInt 32 m) = BitVec.ofInt 32 m := by
  apply BitVec.eq_of_toNat_eq
  have := wrapInt_cast 32 m
  rw [BitVec.toNat_ofInt, BitVec.toNat_ofNat, Nat.mod_eq_of_lt (wrapInt_lt 32 m)]
  omega

theorem elem0_word32 (m : Int) : elemOf 32 (word32 (wrapInt 32 m)) 0 = some (wrapInt 32 m) := by
  have h0 := slotOf_word32 (wrapInt 32 m) 0 (by omega)
  simp only [if_true] at h0
  have hv := valid_eq_isSome (word32 (wrapInt 32 m)) 0
  rw [h0] at hv
  unfold slotOf at h0
  rw [hv] at h0
  simp only [Option.isSome_some, if_true, Option.some.injEq] at h0
  have hv' : elemValid 32 (word32 (wrapInt 32 m)) 0 = true := by
    unfold elemValid
    simp only [show ¬ ((32 : Nat) = 64) by decide, if_false]
    exact hv
  unfold elemOf
  rw [hv']
  simp only [if_true, Option.some.injEq]
  rw [elemBits_slot (by simp), show 0 * 32 / 32 = 0 from rfl, h0, BitVec.toNat_ofNat, Nat.mod_eq_of_lt (wrapInt_lt 32 m)]
  simp; exact wrapInt_lt 32 m

theorem elem0_word64 (x : Word64) : elemOf 64 (word64 x) 0 = some x.toNat := by
  have h0 := slotOf_word64 x 0 (by omega)
  have h1 := slotOf_word64 x 1 (by omega)
  simp only [if_true] at h0
  rw [if_neg (by decide), if_pos rfl] at h1
  have hv0 := valid_eq_isSome (word64 x) 0
  have hv1 := valid_eq_isSome (word64 x) 1
  rw [h0] at hv0; rw [h1] at hv1
  unfold slotOf at h0 h1
  rw [hv0] at h0; rw [hv1] at h1
  simp only [Option.isSome_some, if_true, Option.some.injEq] at h0 h1
  unfold elemOf elemValid
  rw [if_pos rfl, hv0, hv1]
  simp only [Option.isSome_some, Bool.and_true, if_true, Option.some.injEq]
  rw [elemBits_pair, h0, h1, BitVec.extractLsb'_toNat, BitVec.extractLsb'_toNat]
  have := x.isLt
  simp [Nat.shiftRight_eq_div_pow]; omega

theorem ired {i : Hdr → PayL → Instr} {f : Bool → Nat → List Nat → Int} {g : Bool → Nat → List Nat → Int → Prop} (hi : ∀ h p s, exec (i h p) s = intReduce h p s f)
    (hg : ∀ sg w l, Width w → (∀ c ∈ l, c < 2 ^ w) → l ≠ [] → g sg w l (f sg w l)) : ReduceResult i g := by
  intro h p s b xs hf w l
  have he := (hi h p s).trans (pureOp_fires 0 (fun _ xs =>
    let w := codeWidth h.fmt
    let l := (elems w (arg xs 0)).filterMap id
    let r := f (codeSigned h.fmt) w l
    let v := if l = [] then noVal else if w = 64 then word64 (BitVec.ofInt 64 r) else word32 (wrapInt 32 r)
    same v (predElem (if w = 64 then 64 else 32) v)) hf)
  have hw : Width w := codeWidth_width _
  change exec (i h p) s = .next (delivered h 0 s b 1 (if l = [] then noVal else if w = 64 then word64 (BitVec.ofInt 64 (f (codeSigned h.fmt) w l)) else word32 (wrapInt 32 (f (codeSigned h.fmt) w l)))
    (predElem (if w = 64 then 64 else 32) (if l = [] then noVal else if w = 64 then word64 (BitVec.ofInt 64 (f (codeSigned h.fmt) w l)) else word32 (wrapInt 32 (f (codeSigned h.fmt) w l))))) at he
  refine ⟨_, _, he, ?_, ?_⟩
  · intro hl; rw [if_pos hl]
    refine ⟨?_, fun k _ => slot_noVal k⟩
    unfold predElem elemValid noVal; split <;> simp
  · intro hl
    rw [if_neg hl]
    refine ⟨f (codeSigned h.fmt) w l, hg _ _ _ hw (fun c hc => valid_lt hc) hl, ?_⟩
    generalize f (codeSigned h.fmt) w l = m
    by_cases h64 : w = 64
    · rw [if_pos h64, if_pos h64, if_pos h64, show max w 32 = 64 by omega]
      refine ⟨?_, ?_, ?_, ?_⟩
      · have hfn := firstNonzero_predElem 64 (word64 (BitVec.ofInt 64 m))
        refine Iff.trans hfn ?_
        rw [elem0_word64]
        have hz : ((BitVec.ofInt 64 m).toNat : Int) = m % 2 ^ 64 := by
          rw [BitVec.toNat_ofInt, Int.toNat_of_nonneg (Int.emod_nonneg _ (by decide))]; rfl
        constructor
        · rintro ⟨c, hc, hne⟩; cases hc; omega
        · intro hne; exact ⟨_, rfl, by omega⟩
      · rw [slotOf_word64 _ _ (by omega), if_pos rfl]; congr 1
        apply BitVec.eq_of_toNat_eq; simp [BitVec.toNat_ofInt]; omega
      · rw [slotOf_word64 _ _ (by omega), if_neg (by omega), if_pos rfl]; congr 1
        apply BitVec.eq_of_toNat_eq; simp [BitVec.toNat_ofInt, Nat.shiftRight_eq_div_pow]; omega
      · intro k h2 hk; rw [slotOf_word64 _ _ hk, if_neg (by omega), if_neg (by omega)]
    · rw [if_neg h64, if_neg h64, if_neg h64, show max w 32 = 32 by unfold Width at hw; omega]
      refine ⟨?_, ?_, ?_, ?_⟩
      · have hfn := firstNonzero_predElem 32 (word32 (wrapInt 32 m))
        refine Iff.trans hfn ?_
        rw [elem0_word32]
        have hz := wrapInt_cast 32 m
        constructor
        · rintro ⟨c, hc, hne⟩; cases hc; omega
        · intro hne; exact ⟨_, rfl, by omega⟩
      · rw [slotOf_word32 _ _ (by omega), if_pos rfl, ofNat_wrap]
      · rw [slotOf_word32 _ _ (by omega), if_neg (by omega)]
      · intro k h2 hk; rw [slotOf_word32 _ _ hk, if_neg (by omega)]

theorem map_typed {sg : Bool} {w : Nat} {l : List Nat} (h : ∀ c ∈ l, c < 2 ^ w) : l.map (readInt sg w) = l.map (typed sg w) :=
  List.map_congr_left (fun c hc => readInt_typed sg (h c hc))

theorem plain_iff (x : Word64) : plainEntry x = true ↔ Plain x := by
  unfold plainEntry Plain; simp

/-- a conversion over `fmtOp` whose check names the source and then the destination -/
theorem entriesThen {h : Hdr} {p : PayV} {s : State} {b : BInst} {xs : List Val} {r : Result} {check : BInst → Option Nat} {f : BInst → List Val → Deliv} {okS okD : Word64 → Prop} {P : Prop}
    (hf : Fires h (k0Const p.k0) s b xs) (hr : r = fmtOp h (k0Const p.k0) s check f)
    (h1 : ¬ okS (entryWord s b h.fmt.toNat) → check b = some h.fmt.toNat)
    (h2 : okS (entryWord s b h.fmt.toNat) → ¬ okD (entryWord s b p.dfmt.toNat) → check b = some p.dfmt.toNat)
    (h3 : okS (entryWord s b h.fmt.toNat) → okD (entryWord s b p.dfmt.toNat) → check b = none)
    (hP : okS (entryWord s b h.fmt.toNat) → okD (entryWord s b p.dfmt.toNat) → r = .next (putInst s (advance 1 (deliver h 0 (f b xs) b))) → P) :
    EntriesThen r s b h.fmt p.dfmt okS okD P := by
  refine ⟨fun a => ?_, fun a c => ?_, fun a c => ?_⟩
  · rw [hr]; exact fmtOp_raises _ hf (h1 a)
  · rw [hr]; exact fmtOp_raises _ hf (h2 a c)
  · exact hP a c (hr.trans (fmtOp_fires _ hf (h3 a c)))

theorem cvtCheck_spec {s : State} {h : Hdr} {p : PayV} {src : Word64 → Bool} {dst : Word64 → Word64 → Bool} {b : BInst} {okS okD : Word64 → Prop}
    (hs : ∀ x, src x = true ↔ okS x) (hd : ∀ x y, x = entryWord s b h.fmt.toNat → (dst x y = true ↔ okD y)) :
    (¬ okS (entryWord s b h.fmt.toNat) → cvtCheck s h p src dst b = some h.fmt.toNat)
    ∧ (okS (entryWord s b h.fmt.toNat) → ¬ okD (entryWord s b p.dfmt.toNat) → cvtCheck s h p src dst b = some p.dfmt.toNat)
    ∧ (okS (entryWord s b h.fmt.toNat) → okD (entryWord s b p.dfmt.toNat) → cvtCheck s h p src dst b = none) := by
  unfold cvtCheck
  refine ⟨fun a => ?_, fun a c => ?_, fun a c => ?_⟩
  · rw [← hs] at a; simp [a]
  · rw [← hs] at a; rw [← hd _ _ rfl] at c; simp [a, c]
  · rw [← hs] at a; rw [← hd _ _ rfl] at c; simp [a, c]

theorem slotsThen {r : Result} {h : Hdr} {s : State} {b : BInst} {w : Nat} {f : Nat → Option Slot} {v : Val}
    (hr : r = .next (putInst s (advance 1 (deliver h 0 (same v (predElem w v)) b)))) (hv : ∀ k, k < 16 → slotOf v k = f k) : Slots r h s b w f :=
  ⟨_, _, hr, firstNonzero_predElem _ _, hv⟩

theorem pair_spec {c d : Nat → Bool} {okS okD : Word64 → Prop} (hs : ∀ x, (plainEntry x && c (contOf x)) = true ↔ okS x) (hd : ∀ x, (plainEntry x && d (contOf x)) = true ↔ okD x) (s : State) (h : Hdr) (p : PayV) (b : BInst) :
    (¬ okS (entryWord s b h.fmt.toNat) → pairBad s h p c d b = some h.fmt.toNat)
    ∧ (okS (entryWord s b h.fmt.toNat) → ¬ okD (entryWord s b p.dfmt.toNat) → pairBad s h p c d b = some p.dfmt.toNat)
    ∧ (okS (entryWord s b h.fmt.toNat) → okD (entryWord s b p.dfmt.toNat) → pairBad s h p c d b = none) := by
  unfold pairBad contPair
  exact cvtCheck_spec hs (fun x y _ => hd y)

theorem general_iff (v : Val) : predGeneral v = true ↔ ∃ w, slotOf v 0 = some w ∧ w ≠ 0 := by
  unfold predGeneral slotOf
  cases v.valid.getLsbD 0 <;> simp

theorem takeExit_eq (e : Exit) (b : BInst) : (b.exit = none → advance 1 (takeExit e b) = { b with pc := b.pc + 1, exit := some e }) ∧
   (b.exit ≠ none → advance 1 (takeExit e b) = { b with pc := b.pc + 1 }) := by
  constructor
  · intro h; unfold advance takeExit; rw [h]; rfl
  · intro h; unfold advance takeExit
    cases hx : b.exit with
    | none => exact absurd hx h
    | some x => simp [hx]

theorem mergeSlot_eq (k : Nat) (xs : List Val) : mergeSlot k xs = (xs.filterMap (fun x => slotOf x k)).head? := by
  induction xs with
  | nil => rfl
  | cons x xs ih =>
    unfold mergeSlot
    rw [List.filterMap_cons]
    cases slotOf x k with
    | none => exact ih
    | some y => rfl

theorem getLsb_pack (f : Nat → Bool) (k : Nat) (hk : k < 16) : (BitVec.ofNat 16 (packBits ((List.range 16).map f))).getLsbD k = f k := by
  rw [getLsbD_ofNat_div _ _ _ hk, packBits_spec]
  simp [List.getElem?_map, List.getElem?_range hk]

theorem valid_maskVal (x : Val) (m : BitVec 16) : (maskVal x m).valid = m := by
  apply BitVec.eq_of_getLsbD_eq
  intro k hk
  rw [valid_eq_isSome]; unfold maskVal; rw [slotOf_valOf _ _ hk]
  cases m.getLsbD k <;> rfl

theorem slot_maskVal (x : Val) (m : BitVec 16) (k : Nat) (hk : k < 16) (hm : m.getLsbD k = true → x.valid.getLsbD k = true) :
    slotOf (maskVal x m) k = if m.getLsbD k then slotOf x k else none := by
  unfold maskVal; rw [slotOf_valOf _ _ hk]
  split
  · next h => unfold slotOf; rw [hm h]; rfl
  · rfl

theorem lowest_spec (v : Val) : (lowestValid v).map (slotBits v) = ((List.range 16).filterMap (slotOf v)).head? := by
  unfold lowestValid
  generalize List.range 16 = l
  induction l with
  | nil => rfl
  | cons k l ih =>
    rw [List.filterMap_cons, List.find?_cons]
    cases hv : v.valid.getLsbD k with
    | true => rw [show slotOf v k = some (slotBits v k) by unfold slotOf; rw [hv]; rfl]; rfl
    | false => rw [show slotOf v k = none by unfold slotOf; rw [hv]; rfl]; exact ih

theorem slotOf_first2 (a c : Slot) (k : Nat) (hk : k < 16) : slotOf (firstSlots [a, c]) k = if k = 0 then some a else if k = 1 then some c else none := by
  rw [slotOf_firstSlots _ _ hk]
  match k with
  | 0 => rfl
  | 1 => rfl
  | k + 2 => simp

end Sys2Proof.Laws
end

