-- ==== Sys2Proof/Laws/Nests.lean ====
section
/-! SUPPORT.  Lemmas for the statements about loop nests. -/

open Sys2Proof Sys2Proof.Machine Sys2Proof.Claims

namespace Sys2Proof.Laws

theorem nestAddr_eq (p : PayN) (base w o : Nat) (i : List Nat) : nestAddr p base w o i = nestAt p base w o i := by
  unfold nestAddr nestAt
  simp [List.range, List.range.loop, List.foldl]

theorem nestAddrs_ok (p : PayN) (w : Nat) (i : List Nat) : ∀ (l : List Nat) (o : Nat),
    (∀ j a, l[j]? = some a → 0 ≤ nestAt p a w (o + j) i ∧ nestAt p a w (o + j) i + w ≤ 131072 ∧ nestAt p a w (o + j) i % w = 0) →
    nestAddrs p w i o l = .ok ((List.range l.length).map (fun j => (nestAt p (l.getD j 0) w (o + j) i).toNat)) := by
  intro l; induction l with
  | nil => intro o _; rfl
  | cons a l ih =>
    intro o h
    have h0 := h 0 a rfl
    have hr := ih (o + 1) (fun j c hj => by have := h (j + 1) c (by simpa using hj); rw [show o + 1 + j = o + (j + 1) by omega]; exact this)
    unfold nestAddrs
    simp only [nestAddr_eq]
    rw [if_neg (by simp only [Nat.add_zero] at h0; rw [show (scratchSize : Int) = 131072 from rfl]; omega), hr]
    rw [List.length_cons, List.range_succ_eq_map, List.map_cons, List.map_map]
    simp only [Nat.add_zero, List.getD_cons_zero]
    congr 2
    apply List.map_congr_left; intro j _
    simp [Nat.add_assoc, Nat.add_comm 1 j]

theorem addWords_grow : ∀ (bs : List Host.Cell) (ws0 ws : List Nat), ws0 ⊆ ws →
    (addWords ws bs).length + ws0.length ≤ (addWords ws0 bs).length + ws.length ∧ addWords ws0 bs ⊆ addWords ws bs := by
  intro bs; induction bs with
  | nil => intro ws0 ws h; exact ⟨Nat.le_of_eq (Nat.add_comm ..), h⟩
  | cons x bs ih =>
    intro ws0 ws h
    obtain ⟨a, _⟩ := x
    unfold addWords
    by_cases h0 : a / 4 ∈ ws0
    · have h1 := h h0
      simp only [List.contains_iff_mem, h0, h1, if_true]
      exact ih _ _ h
    · by_cases h1 : a / 4 ∈ ws
      · simp only [List.contains_iff_mem, h0, h1, if_true, if_false]
        obtain ⟨k1, k2⟩ := ih (a / 4 :: ws0) ws (List.cons_subset.mpr ⟨h1, h⟩)
        exact ⟨by simp only [List.length_cons] at k1; omega, k2⟩
      · simp only [List.contains_iff_mem, h0, h1, if_false]
        obtain ⟨k1, k2⟩ := ih (a / 4 :: ws0) (a / 4 :: ws) (List.cons_subset_cons _ h)
        exact ⟨by simp only [List.length_cons] at k1; omega, k2⟩

theorem touchedWords_grow : ∀ (l : List HStore) (ws0 ws : List Nat), ws0 ⊆ ws →
    (touchedWords ws l).length + ws0.length ≤ (touchedWords ws0 l).length + ws.length := by
  intro l; induction l with
  | nil => intro ws0 ws _; exact Nat.le_of_eq (Nat.add_comm ..)
  | cons x l ih =>
    intro ws0 ws h
    obtain ⟨k1, k2⟩ := addWords_grow x.bytes ws0 ws h
    have := ih _ _ k2
    unfold touchedWords
    omega

theorem touchedWords_append : ∀ (a b : List HStore) (ws : List Nat), touchedWords ws (a ++ b) = touchedWords (touchedWords ws a) b := by
  intro a; induction a with
  | nil => intro b ws; rfl
  | cons x a ih => intro b ws; exact ih b _

/-- A word that two lists of stores touch counts once. -/
theorem holdWords_append (a b : List HStore) : holdWords (a ++ b) ≤ holdWords a + holdWords b := by
  unfold holdWords
  rw [touchedWords_append]
  have := touchedWords_grow b [] (touchedWords [] a) (List.nil_subset _)
  simp only [List.length_nil] at this
  omega

theorem addWords_same (k : Nat) : ∀ (bs : List Host.Cell) (ws : List Nat), (∀ x ∈ bs, x.1 / 4 = k) → k ∈ ws → addWords ws bs = ws := by
  intro bs; induction bs with
  | nil => intro ws _ _; rfl
  | cons x bs ih =>
    intro ws h hk
    obtain ⟨a, v⟩ := x
    have ha : a / 4 = k := h (a, v) (List.mem_cons_self ..)
    unfold addWords
    simp only [List.contains_iff_mem, ha, hk, if_true]
    exact ih ws (fun y hy => h y (List.mem_cons_of_mem _ hy)) hk

/-- A store within one word takes one word of the hold buffer. -/
theorem holdWords_one (x : HStore) (k : Nat) (h : ∀ y ∈ x.bytes, y.1 / 4 = k) : holdWords [x] ≤ 1 := by
  unfold holdWords touchedWords touchedWords
  cases hb : x.bytes with
  | nil => simp [addWords]
  | cons y l =>
    obtain ⟨a, v⟩ := y
    rw [hb] at h
    have ha : a / 4 = k := h (a, v) (List.mem_cons_self ..)
    unfold addWords
    rw [ha, addWords_same k l _ (fun y hy => h y (List.mem_cons_of_mem _ hy)) (by simp)]
    simp

theorem cellsOf_in (a n v : Nat) : ∀ y ∈ cellsOf a n v, a ≤ y.1 ∧ y.1 < a + n := by
  induction n generalizing a v with
  | zero => intro y h; cases h
  | succ n ih =>
    intro y h
    rcases List.mem_cons.mp h with rfl | h
    · exact ⟨Nat.le_refl _, by simp⟩
    · have := ih (a + 1) (v / 256) y h; omega

theorem effStores_append (a b : List Eff) : effStores (a ++ b) = effStores a ++ effStores b := by
  induction a with
  | nil => rfl
  | cons x a ih => cases x <;> simp [effStores, ih]

theorem effStores_stores (l : List HStore) : effStores (l.map .store) = l := by
  induction l with
  | nil => rfl
  | cons x l ih => simp [effStores, ih]

theorem cellsOf_length (a n v : Nat) : (cellsOf a n v).length = n := by
  induction n generalizing a v with
  | zero => rfl
  | succ n ih => simp [cellsOf, ih]

theorem nestStore_words (m a w c : Nat) (hw : w = 1 ∨ w = 2 ∨ w = 4) (ha : a % w = 0) : holdWords [nestStore m a w c] ≤ (w + 3) / 4 := by
  have h1 : (w + 3) / 4 = 1 := by rcases hw with rfl | rfl | rfl <;> rfl
  rw [h1]
  refine holdWords_one _ (scratchAddr m a / 4) (fun y hy => ?_)
  have hy := cellsOf_in _ _ _ y hy
  have hs : scratchAddr m a % w = 0 := by
    unfold scratchAddr scratchBase scratchSize
    rcases hw with rfl | rfl | rfl <;> omega
  rcases hw with rfl | rfl | rfl <;> omega

theorem holdWords_list (k : Nat) : ∀ l : List HStore, (∀ x ∈ l, holdWords [x] ≤ k) → holdWords l ≤ l.length * k := by
  intro l; induction l with
  | nil => intro _; simp [holdWords, touchedWords]
  | cons x l ih =>
    intro h
    have h1 := holdWords_append [x] l
    have h2 := h x (List.mem_cons_self ..)
    have h3 := ih (fun y hy => h y (List.mem_cons_of_mem _ hy))
    rw [List.length_cons, Nat.add_mul, Nat.one_mul]
    simp only [List.singleton_append] at h1
    omega

theorem room_of (s : State) (b : BInst) (l : List HStore) (x : HStore) (w n : Nat) (hl : ∀ y ∈ l, holdWords [y] ≤ (w + 3) / 4) (hx : holdWords [x] ≤ (w + 3) / 4)
    (hn : l.length < n)
    (hroom : holdWords (((findInv s b.inv).map (fun v => v.held)).getD []) + holdWords (effStores b.effs) + n * ((w + 3) / 4) ≤ 4096) :
    holdOverflows s (withStores b l) [x] = false := by
  unfold holdOverflows withStores
  simp only [effStores_append, effStores_stores]
  have hh := holdWords_list ((w + 3) / 4) l hl
  have : (l.length + 1) * ((w + 3) / 4) ≤ n * ((w + 3) / 4) := Nat.mul_le_mul_right _ hn
  rw [Nat.add_mul, Nat.one_mul] at this
  have a1 := holdWords_append (((findInv s b.inv).map (fun v => v.held)).getD [] ++ (effStores b.effs ++ l)) [x]
  have a2 := holdWords_append (((findInv s b.inv).map (fun v => v.held)).getD []) (effStores b.effs ++ l)
  have a3 := holdWords_append (effStores b.effs) l
  apply decide_eq_false; unfold holdLimit; omega

theorem ready_width {h : Hdr} {p : PayN} {s : State} {b : BInst} {bases : List Nat} {m w : Nat} {outer : List Nat} {n : Nat}
    (hr : NestReady h p s b bases m w outer n) : w = 1 ∨ w = 2 ∨ w = 4 := by
  have h1 := hr.entry
  have h2 := hr.width
  unfold nestEntry at h1
  unfold entryOf at h2
  simp only [Bool.and_eq_true, Bool.or_eq_true, beq_iff_eq] at h1
  rcases h1.2 with (h3 | h3) | h3 <;> rw [h3] at h2 <;> omega

/-- The element that a nest writes at a point takes one word of the hold buffer. -/
theorem ready_words {h : Hdr} {p : PayN} {s : State} {b : BInst} {bases : List Nat} {m w : Nat} {outer : List Nat} {n : Nat}
    (hr : NestReady h p s b bases m w outer n) (i0 c : Nat) (hi : i0 < max 1 (p.ext 0)) :
    holdWords [nestStore m (nestAt p (bases.getD 0 0) w 0 (i0 :: outer)).toNat w c] ≤ (w + 3) / 4 := by
  have hw := ready_width hr
  refine nestStore_words _ _ _ _ hw ?_
  have hne := hr.small.1
  cases hb : bases with
  | nil => exact absurd hb hne
  | cons a l =>
    have := hr.inside i0 0 a hi (by rw [hb]; rfl)
    simp only [List.getD_cons_zero]
    rcases hw with rfl | rfl | rfl <;> omega

theorem fires_bases {h : Hdr} {s : State} {b : BInst} {xs : List Val} {bases : List Nat}
    (hx : xs.map (fun v => slotOf v 0) = bases.map (fun a => some (BitVec.ofNat 32 a))) (hs : ∀ a, a ∈ bases → a < 2 ^ 32) :
    ∃ bs, xs.mapM (fun v => slotOf v 0) = some bs ∧ bs.map BitVec.toNat = bases := by
  induction xs generalizing bases with
  | nil => cases bases with
    | nil => exact ⟨[], rfl, rfl⟩
    | cons a l => cases hx
  | cons x xs ih =>
    cases bases with
    | nil => cases hx
    | cons a l =>
      simp only [List.map_cons, List.cons.injEq] at hx
      obtain ⟨bs, h1, h2⟩ := ih hx.2 (fun a ha => hs a (List.mem_cons_of_mem _ ha))
      refine ⟨BitVec.ofNat 32 a :: bs, ?_, ?_⟩
      · rw [List.mapM_cons, hx.1, h1]; rfl
      · simp only [List.map_cons, h2, BitVec.toNat_ofNat]
        rw [Nat.mod_eq_of_lt (hs a (List.mem_cons_self ..))]

/-- What a nest that is ready answers, before its run is worked out. -/
theorem nest_unfold {h : Hdr} {p : PayN} {s : State} {b : BInst} {bases : List Nat} {m w : Nat} {outer : List Nat} {n : Nat}
    (hr : NestReady h p s b bases m w outer n) (kind : SrCtx → Rnd → Nat → NestKind) :
    let e := entryOf s b h.fmt.toNat
    let q := (b.point.map (fun x => x.2)).getD 0
    let k := kind (srOf s b) h.rnd q
    let d0 := (nestAt p (bases.getD 0 0) w 0 (0 :: outer)).toNat
    ∀ acc f, nestRun s p e k m w bases outer (List.range (p.ext 0)) { b := b, terms := [], code := agentRead s b (scratchAddr m d0) w, err := none } = acc → acc.err = none →
      nestFinish s h e m w d0 k q acc = f → f.1.err = none →
      nestOp h p s kind = .next (putInst s (advance 2 (deliver h 0 (same f.2 (predGeneral f.2)) f.1.b))) := by
  intro e q k d0 acc f hacc he hfin hfe
  obtain ⟨⟨xs, hf, hx⟩, hsm, hal, hen, hw, hpt, hsc, hin, hroom⟩ := hr
  obtain ⟨bs, hb1, hb2⟩ := fires_bases (h := h) (s := s) (b := b) hx hsm.2
  unfold nestOp
  rw [hf.exec.focus]
  simp only [show olderOfInv s b = false from hal, Bool.false_eq_true, if_false]
  rw [withOps_fires _ _ hf]
  simp only [hen, Bool.not_true, Bool.false_eq_true, if_false, hb1, hsc]
  have hok := nestAddrs_ok p w (0 :: outer) bases 0 (fun j a hj => by rw [Nat.zero_add]; exact hin 0 j a (by omega) hj)
  have hww : (Fmt.ofWord (entryWord s b h.fmt.toNat)).width / 8 = w := hw.symm
  rw [hww, ← hpt, hb2, hok]
  simp only
  have hd0 : ((List.range bases.length).map (fun j => (nestAt p (bases.getD j 0) w (0 + j) (0 :: outer)).toNat)).getD 0 0 = d0 := by
    cases bases with
    | nil => exact absurd rfl hsm.1
    | cons a l => rw [List.length_cons, List.range_succ_eq_map]; rfl
  rw [hd0]
  rw [show nestRun s p (Fmt.ofWord (entryWord s b h.fmt.toNat)) (kind (srOf s b) h.rnd ((b.point.map (fun x => x.2)).getD 0)) m w bases outer (List.range (p.ext 0)) { b := b, terms := [], code := agentRead s b (scratchAddr m d0) w, err := none } = acc from hacc]
  rw [he]
  simp only
  rw [show nestFinish s h (Fmt.ofWord (entryWord s b h.fmt.toNat)) m w d0 (kind (srOf s b) h.rnd ((b.point.map (fun x => x.2)).getD 0)) ((b.point.map (fun x => x.2)).getD 0) acc = f from hfin, hfe]

theorem nestRun_append (s : State) (p : PayN) (e : Fmt) (kind : NestKind) (m w : Nat) (bases outer : List Nat) : ∀ (l l' : List Nat) (acc : NestAcc),
    nestRun s p e kind m w bases outer (l ++ l') acc = nestRun s p e kind m w bases outer l' (nestRun s p e kind m w bases outer l acc) := by
  intro l; induction l with
  | nil => intro l' acc; rfl
  | cons a l ih => intro l' acc; exact ih l' _

/-- the stores of the first n points -/
def sts (f : Fmt → Nat → List Nat → Nat) (p : PayN) (s : State) (b : BInst) (bases : List Nat) (m w : Nat) (outer : List Nat) (e : Fmt) : Nat → List HStore
  | 0 => []
  | n + 1 =>
    let l := sts f p s b bases m w outer e n
    l ++ [nestStore m (nestAt p (bases.getD 0 0) w 0 (n :: outer)).toNat w (f e n (nestCodes p s (withStores b l) bases m w outer n))]

theorem sts_length (f p s b bases m w outer e n) : (sts f p s b bases m w outer e n).length = n := by
  induction n with
  | zero => rfl
  | succ n ih => simp [sts, ih]

theorem sts_take (f p s b bases m w outer e) (n k : Nat) (h : k ≤ n) : (sts f p s b bases m w outer e n).take k = sts f p s b bases m w outer e k := by
  induction n with
  | zero => have : k = 0 := by omega
            subst this; rfl
  | succ n ih =>
    by_cases hk : k = n + 1
    · subst hk; rw [List.take_of_length_le (Nat.le_of_eq (sts_length ..))]
    · show (sts f p s b bases m w outer e n ++ _).take k = _
      rw [List.take_append_of_le_length (by rw [sts_length]; omega)]; exact ih (by omega)

theorem sts_get (f p s b bases m w outer e) (n k : Nat) (h : k < n) : (sts f p s b bases m w outer e n)[k]? =
    some (nestStore m (nestAt p (bases.getD 0 0) w 0 (k :: outer)).toNat w (f e k (nestCodes p s (withStores b (sts f p s b bases m w outer e k)) bases m w outer k))) := by
  have ht := sts_take f p s b bases m w outer e n (k + 1) (by omega)
  have : ((sts f p s b bases m w outer e n).take (k + 1))[k]? = (sts f p s b bases m w outer e n)[k]? := by rw [List.getElem?_take]; simp
  rw [← this, ht]
  show (sts f p s b bases m w outer e k ++ _)[k]? = _
  rw [List.getElem?_append_right (Nat.le_of_eq (sts_length ..)), sts_length]; simp

theorem sts_words (f p s b bases m w outer e n k) (h : ∀ i c, i < n → holdWords [nestStore m (nestAt p (bases.getD 0 0) w 0 (i :: outer)).toNat w c] ≤ k) :
    ∀ x ∈ sts f p s b bases m w outer e n, holdWords [x] ≤ k := by
  induction n with
  | zero => intro x h; cases h
  | succ n ih =>
    intro x hx
    rcases List.mem_append.mp hx with hx | hx
    · exact ih (fun i c hi => h i c (by omega)) x hx
    · simp only [List.mem_singleton] at hx; subst hx; exact h n _ (by omega)

theorem nestElems {i : Hdr → PayN → Instr} {kind : SrCtx → Rnd → Nat → NestKind} {f : Fmt → Rnd → Nat → List Nat → Nat}
    (hi : ∀ h p s, exec (i h p) s = nestOp h p s kind)
    (hk : ∀ s b m, kind (srOf s b) m ((b.point.map (fun x => x.2)).getD 0) = .elem (fun e i0 l => f e m (nestNoise s b i0) l)) : NestElements i f := by
  intro h p s b bases m w outer hr e
  let g : Fmt → Nat → List Nat → Nat := fun e i0 l => f e h.rnd (nestNoise s b i0) l
  have hrun : ∀ n, n ≤ p.ext 0 → nestRun s p e (.elem g) m w bases outer (List.range n) { b := b, terms := [], code := agentRead s b (scratchAddr m (nestAt p (bases.getD 0 0) w 0 (0 :: outer)).toNat) w, err := none }
      = { b := withStores b (sts g p s b bases m w outer e n), terms := [], code := agentRead s b (scratchAddr m (nestAt p (bases.getD 0 0) w 0 (0 :: outer)).toNat) w, err := none } := by
    intro n; induction n with
    | zero => intro _; simp [nestRun, sts, withStores]
    | succ n ih =>
      intro hn
      rw [List.range_succ, nestRun_append, ih (by omega)]
      simp only [nestRun]
      unfold nestPoint
      have hok := nestAddrs_ok p w (n :: outer) bases 0 (fun j a hj => by rw [Nat.zero_add]; exact hr.inside n j a (by omega) hj)
      have hd0 : ((List.range bases.length).map (fun j => (nestAt p (bases.getD j 0) w (0 + j) (n :: outer)).toNat)).getD 0 0 = (nestAt p (bases.getD 0 0) w 0 (n :: outer)).toNat := by
        cases hb : bases with
        | nil => exact absurd hb hr.small.1
        | cons a l => rw [List.length_cons, List.range_succ_eq_map]; rfl
      simp only [Option.isSome_none, Bool.false_eq_true, if_false, hok, List.map_map, hd0]
      rw [room_of s b (sts g p s b bases m w outer e n) _ w (p.ext 0) (sts_words g p s b bases m w outer e n _ (fun i c hi => ready_words hr i c (by omega)))
        (ready_words hr n _ (by omega)) (by rw [sts_length]; omega) hr.room]
      simp only [Bool.false_eq_true, if_false]
      congr 1
      simp only [withStores, addEff, sts, List.map_append, List.append_assoc, List.map_cons, List.map_nil]
      congr 5
      unfold nestCodes
      refine congrArg (fun l => nestStore m (nestAt p (bases.getD 0 0) w 0 (n :: outer)).toNat w (g e n l)) ?_
      apply List.map_congr_left
      intro j _; simp only [Function.comp, Nat.zero_add]
  have hun := nest_unfold hr kind
  simp only [hk s b] at hun
  have := hun _ _ (hrun (p.ext 0) (Nat.le_refl _)) rfl rfl rfl
  refine ⟨sts g p s b bases m w outer e (p.ext 0), sts_length .., fun i0 h0 => ?_, ?_⟩
  · rw [sts_take _ _ _ _ _ _ _ _ _ _ _ (by omega)]; exact sts_get _ _ _ _ _ _ _ _ _ _ _ h0
  · rw [hi, this]; unfold nestFinish delivered; simp only [show predGeneral noVal = false by decide]

theorem runSum {s : State} {p : PayN} {e : Fmt} {b : BInst} {bases : List Nat} {m w : Nat} {outer : List Nat} {n0 : Nat} {h : Hdr} (hr : NestReady h p s b bases m w outer n0) (kind : NestKind) (T : List (List Nat) → List Machine.Num) (C : Nat → List (List Nat) → Nat) (c0 : Nat)
    (h0 : T [] = [] ∧ C c0 [] = c0)
    (hs : ∀ (acc : NestAcc) (codes : List Nat) (l : List (List Nat)), acc = { b := b, terms := T l, code := C c0 l, err := none } → (match kind with
      | .elem f => False
      | .sum f => (NestAcc.mk b (acc.terms ++ [f e codes]) acc.code none : NestAcc) = { b := b, terms := T (l ++ [codes]), code := C c0 (l ++ [codes]), err := none }
      | .best big => NestAcc.mk b acc.terms (pickCode e big acc.code (codes.getD 1 0)) none = { b := b, terms := T (l ++ [codes]), code := C c0 (l ++ [codes]), err := none })) :
    ∀ n, n ≤ p.ext 0 → nestRun s p e kind m w bases outer (List.range n) { b := b, terms := [], code := c0, err := none }
      = { b := b, terms := T ((List.range n).map (nestCodes p s b bases m w outer)), code := C c0 ((List.range n).map (nestCodes p s b bases m w outer)), err := none } := by
  intro n; induction n with
  | zero => intro _; simp [nestRun, h0]
  | succ n ih =>
    intro hn
    rw [List.range_succ, nestRun_append, ih (by omega)]
    simp only [nestRun]
    unfold nestPoint
    have hok := nestAddrs_ok p w (n :: outer) bases 0 (fun j a hj => by rw [Nat.zero_add]; exact hr.inside n j a (by omega) hj)
    have hcodes : ((List.range bases.length).map (fun j => (nestAt p (bases.getD j 0) w (0 + j) (n :: outer)).toNat)).map (fun a => agentRead s b (scratchAddr m a) w) = nestCodes p s b bases m w outer n := by
      rw [List.map_map]; apply List.map_congr_left; intro j _; simp only [Function.comp, Nat.zero_add]
    simp only [Option.isSome_none, Bool.false_eq_true, if_false, hok, hcodes, List.map_append, List.map_cons, List.map_nil]
    have := hs _ (nestCodes p s b bases m w outer n) ((List.range n).map (nestCodes p s b bases m w outer)) rfl
    cases kind with
    | elem f => exact absurd this (by simp)
    | sum f => exact this
    | best big => exact this

theorem nestRed {i : Hdr → PayN → Instr} {kind : NestKind} {f : Fmt → Rnd → Nat → Nat → List (List Nat) → Nat}
    (T : Fmt → List (List Nat) → List Machine.Num) (C : Fmt → Nat → List (List Nat) → Nat)
    (h0 : ∀ e c0, T e [] = [] ∧ C e c0 [] = c0)
    (hs : ∀ (b : BInst) (e : Fmt) (c0 : Nat) (acc : NestAcc) (codes : List Nat) (l : List (List Nat)), acc = { b := b, terms := T e l, code := C e c0 l, err := none } → (match kind with
      | .elem f => False
      | .sum f => (NestAcc.mk b (acc.terms ++ [f e codes]) acc.code none : NestAcc) = { b := b, terms := T e (l ++ [codes]), code := C e c0 (l ++ [codes]), err := none }
      | .best big => NestAcc.mk b acc.terms (pickCode e big acc.code (codes.getD 1 0)) none = { b := b, terms := T e (l ++ [codes]), code := C e c0 (l ++ [codes]), err := none }))
    (hf : ∀ e m noise c0 l, f e m noise c0 l = match kind with
      | .elem _ => 0
      | .sum _ => roundNum (sumNums (resolveRnd m e == .rdn) [decodeElem e (C e c0 l), sumNums (resolveRnd m e == .rdn) (T e l)]) e m noise
      | .best _ => C e c0 l) (hi : ∀ h p s, exec (i h p) s = nestOp h p s (fun _ _ _ => kind)) : NestReduces i f := by
  intro h p s b bases m w outer hr e d c
  have hrun := runSum hr kind (T e) (C e) (agentRead s b (scratchAddr m d) w) (h0 e _) (hs b e _) (e := e) (p.ext 0) (Nat.le_refl _)
  have hun := nest_unfold hr (fun _ _ _ => kind)
  have hroom := room_of s b [] (nestStore m d w c) w 1 (by intro x hx; cases hx) (ready_words hr 0 c (by omega)) (by simp) hr.room
  rw [show withStores b [] = b by simp [withStores]] at hroom
  have hc : c = f e h.rnd (nestNoise s b 0) (agentRead s b (scratchAddr m d) w) ((List.range (p.ext 0)).map (nestCodes p s b bases m w outer)) := rfl
  rw [hf] at hc
  rw [hi]
  cases kind with
  | elem g => exact absurd (hs b e 0 _ [] [] rfl) (by simp)
  | sum g =>
    simp only at hc
    have hfin : nestFinish s h e m w d (.sum g) ((b.point.map (fun x => x.2)).getD 0) { b := b, terms := T e ((List.range (p.ext 0)).map (nestCodes p s b bases m w outer)), code := C e (agentRead s b (scratchAddr m d) w) ((List.range (p.ext 0)).map (nestCodes p s b bases m w outer)), err := none }
        = ({ b := addEff (.store (nestStore m d w c)) b, terms := T e ((List.range (p.ext 0)).map (nestCodes p s b bases m w outer)), code := C e (agentRead s b (scratchAddr m d) w) ((List.range (p.ext 0)).map (nestCodes p s b bases m w outer)), err := none }, word32 c) := by
      unfold nestFinish
      simp only
      have hno : ({ srOf s b with ord := ((b.point.map (fun x => x.2)).getD 0) % 4096 * 4096 } : SrCtx).noise 0 = nestNoise s b 0 := by unfold nestNoise; simp
      rw [hno, ← hc, hroom]; rfl
    have := hun _ _ hrun rfl hfin rfl
    exact this
  | best big =>
    simp only at hc
    have hfin : nestFinish s h e m w d (.best big) ((b.point.map (fun x => x.2)).getD 0) { b := b, terms := T e ((List.range (p.ext 0)).map (nestCodes p s b bases m w outer)), code := C e (agentRead s b (scratchAddr m d) w) ((List.range (p.ext 0)).map (nestCodes p s b bases m w outer)), err := none }
        = ({ b := addEff (.store (nestStore m d w c)) b, terms := T e ((List.range (p.ext 0)).map (nestCodes p s b bases m w outer)), code := C e (agentRead s b (scratchAddr m d) w) ((List.range (p.ext 0)).map (nestCodes p s b bases m w outer)), err := none }, word32 c) := by
      unfold nestFinish
      simp only
      rw [← hc, hroom]; rfl
    have := hun _ _ hrun rfl hfin rfl
    exact this

end Sys2Proof.Laws
end

