-- ==== Sys2Proof/Laws/Access.lean ====
section
/-! SUPPORT.  Lemmas for the statements about loads, stores, ordering, atomics and waits. -/

open Sys2Proof Sys2Proof.Machine Sys2Proof.Claims

namespace Sys2Proof.Laws

theorem slotNonzero_pred (v : Val) : SlotNonzero v (predGeneral v) := by
  unfold SlotNonzero predGeneral slotOf
  cases h : v.valid.getLsbD 0 <;> simp

theorem sameArms_refl (s : State) : SameArms s s := rfl

theorem wakeGranule_arms (ms : List Monitor) (now granule : Nat) (k : Wake) :
    (wakeGranule ms now granule k).map (fun m => { m with event := none }) = ms.map (fun m => { m with event := none }) := by
  unfold wakeGranule
  rw [List.map_map]
  apply List.map_congr_left
  intro m _
  simp only [Function.comp]
  split
  · unfold Monitor.sees
    (repeat' split) <;> rfl
  · rfl

theorem caches_self (s : State) : CachesOnly s s ∧ s.insts = s.insts := ⟨⟨rfl, rfl⟩, rfl⟩

theorem cachesOnly_trans {s t u : State} (h : CachesOnly s t) (g : CachesOnly t u) : CachesOnly s u := by
  obtain ⟨h1, h2⟩ := h
  obtain ⟨g1, g2⟩ := g
  exact ⟨by rw [g1, h1], g2.trans h2⟩

theorem cachesOnly_insts {s t u : State} (h : CachesOnly s t ∧ t.insts = s.insts) (g : CachesOnly t u ∧ u.insts = t.insts) :
    CachesOnly s u ∧ u.insts = s.insts := ⟨cachesOnly_trans h.1 g.1, g.2.trans h.2⟩

theorem cachesOnly_dome (s : State) (d : FMap (Option Retention)) : CachesOnly s { s with dome := d } ∧ ({ s with dome := d } : State).insts = s.insts :=
  ⟨⟨rfl, rfl⟩, rfl⟩

theorem cachesOnly_bank (s : State) (l : List BankLine) : CachesOnly s { s with bank := l } ∧ ({ s with bank := l } : State).insts = s.insts :=
  ⟨⟨rfl, rfl⟩, rfl⟩

theorem dropLine_only (s : State) (pa : Nat) : CachesOnly s (dropLine s pa) ∧ (dropLine s pa).insts = s.insts := by
  unfold dropLine
  split
  · exact caches_self s
  · exact ⟨⟨rfl, wakeGranule_arms _ _ _ _⟩, rfl⟩

/-- What a Dome does to keep a line: it changes caches alone. -/
theorem domeKeep_only (s : State) (pa : Nat) (r : Retention) : CachesOnly s (domeKeep s pa r) ∧ (domeKeep s pa r).insts = s.insts := by
  unfold domeKeep
  dsimp only
  split
  · exact caches_self s
  · split
    · exact caches_self s
    · split
      · exact cachesOnly_dome s _
      · split
        · exact cachesOnly_insts (dropLine_only s _) (cachesOnly_dome _ _)
        · exact caches_self s

theorem domeAccess_only (s : State) (pa hint : Nat) : CachesOnly s (domeAccess s pa hint) ∧ (domeAccess s pa hint).insts = s.insts := by
  unfold domeAccess
  split
  · split
    · exact domeKeep_only _ _ _
    · exact caches_self s
  · exact domeKeep_only _ _ _
  · exact caches_self s

theorem domeTouch_only (s : State) (pl : Place) : CachesOnly s (domeTouch s pl) ∧ (domeTouch s pl).insts = s.insts := by
  unfold domeTouch
  split
  · exact domeAccess_only _ _ _
  · exact caches_self s

theorem touchLine_only (s : State) (b : BInst) (hint : Nat) (pl : Place) : CachesOnly s (touchLine s b hint pl) ∧ (touchLine s b hint pl).insts = s.insts := by
  unfold touchLine
  dsimp only
  split
  · exact caches_self s
  · split
    · exact cachesOnly_insts (domeAccess_only s _ _) (cachesOnly_bank _ _)
    · exact domeAccess_only s _ _

theorem touchLines_only (b : BInst) (hint : Nat) (l : List Place) : ∀ s : State, CachesOnly s (touchLines s b hint l) ∧ (touchLines s b hint l).insts = s.insts := by
  induction l with
  | nil => exact caches_self
  | cons pl l ih => exact fun s => cachesOnly_insts (touchLine_only s b hint pl) (ih _)

theorem acquire_only (s : State) (b : BInst) (sc : Scope) : CachesOnly s (acquire s b sc) ∧ (acquire s b sc).insts = s.insts := by
  unfold acquire acquireAt
  split
  · split
    · exact caches_self s
    · exact cachesOnly_bank _ _
  · exact caches_self s

theorem replaces_put {s u : State} {b : BInst} (h : CachesOnly s u ∧ u.insts = s.insts) : Replaces (.next (putInst u b)) s b := by
  refine ⟨_, rfl, ⟨?_, h.1.2⟩, ?_⟩
  · unfold putInst; rw [h.1.1]
  · unfold putInst; simp [h.2]

theorem memOp_fires' {h : Hdr} {s : State} {b : BInst} {xs : List Val} (body : BInst → List Val → State)
    (hf : MemFires h s b xs) : memOp h s body = .next (body b xs) := memOp_fires body hf.fires hf.alone

theorem load_spec (h : Hdr) (p : PayW) (s : State) (b : BInst) (a : Val) (size : Nat) (acq : Option Scope) (f : Nat → Val)
    (hf : MemFires h s b [a]) :
    (baseOf (spOf p) a = none → loadOp h p s size acq f = .next (delivered h 0 s b 1 noVal false))
    ∧ (∀ base r, baseOf (spOf p) a = some base → placeOf p s b base size h.swz.toNat true false = .error r →
      loadOp h p s size acq f = .next (raise s b r))
    ∧ (∀ base pl, baseOf (spOf p) a = some base → placeOf p s b base size h.swz.toNat true false = .ok pl →
      Replaces (loadOp h p s size acq f) s (awaits h b (f (readPlace s b pl.addrs)) (predGeneral (f (readPlace s b pl.addrs))))) := by
  unfold loadOp
  rw [memOp_fires' _ hf]
  refine ⟨?_, ?_, ?_⟩
  · intro h1; simp [h1]; rfl
  · intro base r h1 h2; unfold placeOf at h2; simp [h1, h2]
  · intro base pl h1 h2
    unfold placeOf at h2
    simp only [List.getD_cons_zero, h1, h2]
    unfold finishLoad
    apply replaces_put
    have ht := touchLine_only s b h.hint.toNat pl
    cases acq with
    | none => exact ht
    | some sc =>
      have hq := acquire_only (touchLine s b h.hint.toNat pl) b sc
      exact ⟨cachesOnly_trans ht.1 hq.1, hq.2.trans ht.2⟩

theorem effAddr_length {s : State} {b : BInst} {sp : Bool} {swz : Nat} {ea : Int} {size n : Nat} {rd wr : Bool} {pl : Place}
    (h : effAddr s b sp swz ea size n rd wr = .ok pl) : pl.addrs.length = size := by
  unfold effAddr at h
  (repeat' split at h) <;> cases h <;> simp

theorem readPlace_lt (s : State) (b : BInst) (l : List Nat) : readPlace s b l < 256 ^ l.length := by
  induction l with
  | nil => simp [readPlace]
  | cons a l ih =>
    have := (agentByte s b a).isLt
    simp only [readPlace, List.length_cons, Nat.pow_succ]; omega

theorem loadResult_of {i : Hdr → PayW → Instr} {size : Hdr → PayW → Nat} {f : Hdr → PayW → Nat → Val → Prop} (g : Hdr → PayW → Nat → Val) (acq : Hdr → PayW → Option Scope)
    (hi : ∀ h p s, exec (i h p) s = loadOp h p s (size h p) (acq h p) (g h p)) (hg : ∀ h p x, x < 256 ^ size h p → f h p x (g h p x)) : LoadResult i size f := by
  intro h p s b a hf
  obtain ⟨h1, h2, h3⟩ := load_spec h p s b a (size h p) (acq h p) (g h p) hf
  rw [hi]
  refine ⟨h1, h2, fun base pl x y => ⟨_, _, hg h p _ ?_, slotNonzero_pred _, h3 base pl x y⟩⟩
  unfold placeOf at y
  rw [← effAddr_length y]; exact readPlace_lt _ _ _

theorem holds_loadVal (c : BitVec 4) (x : Nat) (hx : x < 256 ^ (codeWidth c / 8)) : Holds (codeSigned c) (codeWidth c) x (loadVal c x) := by
  have hw : x < 2 ^ codeWidth c := by
    rw [show (256 : Nat) = 2 ^ 8 by rfl, ← Nat.pow_mul] at hx
    rcases codeWidth_width c with e | e | e | e | e <;> rw [e] at hx ⊢ <;> first | exact hx | skip
    exfalso; revert e; revert c; decide
  unfold Holds loadVal
  dsimp only
  split
  · next e =>
    rw [e] at hw ⊢
    unfold word64
    refine ⟨?_, ?_, ?_⟩
    · rw [slotOf_firstSlots _ _ (by omega)]
      simp only [List.getElem?_cons_zero, Option.some.injEq]
      apply BitVec.eq_of_toNat_eq
      simp only [BitVec.extractLsb'_toNat, BitVec.toNat_ofNat, BitVec.toNat_ofInt]
      have h2 := typed_emod (codeSigned c) hw
      have : typed (codeSigned c) 64 x % (2 ^ 32 : Int) = (x : Int) % 2 ^ 32 := by omega
      simp only [Nat.shiftRight_zero]
      omega
    · rw [slotOf_firstSlots _ _ (by omega)]
      simp only [List.getElem?_cons_succ, List.getElem?_cons_zero, if_pos]
      congr 1
      apply BitVec.eq_of_toNat_eq
      simp only [BitVec.extractLsb'_toNat, BitVec.toNat_ofNat, Nat.shiftRight_eq_div_pow]
      omega
    · intro k h1 h2
      rw [slotOf_firstSlots _ _ h2, List.getElem?_eq_none]; simpa using h1
  · next e =>
    rw [readInt_typed _ hw]
    refine ⟨?_, ?_, ?_⟩
    · rw [slotOf_word32 _ _ (by omega)]
      simp only [if_pos, Option.some.injEq]
      apply BitVec.eq_of_toNat_eq
      simp only [BitVec.toNat_ofNat, BitVec.toNat_ofInt]
      have := wrapInt_cast 32 (typed (codeSigned c) (codeWidth c) x)
      omega
    · rw [slotOf_word32 _ _ (by omega)]; simp [e]
    · intro k h1 h2; rw [slotOf_word32 _ _ h2]; rw [if_neg (by omega)]

theorem tv (x k : Nat) (hk : k < 16) : slotOf (tokenVal x) k = some (BitVec.ofNat 32 (x / 2 ^ (32 * k))) := by
  unfold slotOf tokenVal
  have : (0xFFFF : BitVec 16).getLsbD k = true := by
    have : ∀ k, k < 16 → (0xFFFF : BitVec 16).getLsbD k = true := by decide
    exact this k hk
  dsimp only
  rw [if_pos this, slotBits_eq]
  congr 1
  apply BitVec.eq_of_toNat_eq
  simp only [BitVec.toNat_ofNat]
  rw [show (2:Nat)^512 = 2 ^ (32 * k) * 2 ^ (512 - 32 * k) by rw [← Nat.pow_add]; congr 1; omega, Nat.mod_mul_right_div_self, Nat.mod_mod_of_dvd]
  exact Nat.pow_dvd_pow 2 (by omega)

theorem holdStores_spec {s u : State} {h : Hdr} {b : BInst} {sts : List HStore} {ea : Nat} (hu : CachesOnly s u ∧ u.insts = s.insts) :
    HoldsStores (.next (holdStores u h b sts ea)) h s b sts := by
  intro hh
  have : holdOverflows u b sts = false := by
    rw [hu.1.1]; exact hh
  unfold holdStores
  rw [if_neg (by simp [this])]
  exact replaces_put hu

theorem storeAt_eq {pl : Place} {n v : Nat} (h : pl.addrs.length = n) : storeAt pl v = { bytes := pl.addrs.zip (leBytes n v), via := pl.via } := by
  unfold storeAt; rw [h]

theorem find_range {P : Nat → Bool} {n : Nat} {k : Nat} (hk : k < n) (h1 : P k = true) (h2 : ∀ j, j < k → P j = false) : (List.range n).find? P = some k := by
  rw [List.find?_range_eq_some]
  exact ⟨h1, by simpa using hk, fun j hj => by simp [h2 j hj]⟩

theorem fm_congr {α β : Type} {f g : α → Option β} {l : List α} (h : ∀ a, a ∈ l → f a = g a) : l.filterMap f = l.filterMap g := by
  induction l with
  | nil => rfl
  | cons a l ih =>
    simp only [List.filterMap_cons, h a (by simp), ih (fun b hb => h b (by simp [hb]))]

theorem slotPlaces_ok {s : State} {b : BInst} {h : Hdr} {p : PayW} {base : Nat} {idx : Val} {use : Nat → Bool} {rd wr : Bool} (pl : Nat → Place) :
    ∀ l : List Nat, (∀ k, k ∈ l → use k = true →
      effAddr s b (spOf p) h.swz.toNat (base + p.ofs.toInt + (slotBits idx k).toInt * (codeWidth h.fmt / 8 : Nat)) (codeWidth h.fmt / 8) k rd wr = .ok (pl k)
      ∧ (wr && touchesLive s (pl k)) = false) →
    slotPlaces s b h p base idx use rd wr l = .ok ((l.filter use).map (fun k => (k, pl k))) := by
  intro l; induction l with
  | nil => intro _; rfl
  | cons k l ih =>
    intro hh
    have hr := ih (fun j hj => hh j (by simp [hj]))
    unfold slotPlaces
    cases hu : use k with
    | false => simp [hu, hr]
    | true =>
      obtain ⟨h1, h2⟩ := hh k (by simp) hu
      simp only [if_true, h1, h2, hr, List.filter_cons, hu, List.map_cons]
      simp

theorem find_map_filter (pl : Nat → Place) (use : Nat → Bool) (k : Nat) : ∀ l : List Nat, k ∈ l → 
    ((l.filter use).map (fun k => (k, pl k))).find? (fun q => q.1 == k) = if use k then some (k, pl k) else none := by
  intro l; induction l with
  | nil => simp
  | cons j l ih =>
    intro hk
    rw [List.filter_cons]
    by_cases e : j = k
    · subst e
      cases hu : use j with
      | true => simp
      | false =>
        simp only [Bool.false_eq_true, if_false]
        rw [List.find?_eq_none]
        intro q hq; simp only [List.mem_map, List.mem_filter] at hq
        obtain ⟨a, ⟨_, ha⟩, rfl⟩ := hq
        simp only [beq_iff_eq]; intro h; rw [h, hu] at ha; cases ha
    · have hk' : k ∈ l := by simp at hk; rcases hk with h | h; exact absurd h.symm e; exact h
      have hr := ih hk'
      cases hu : use j
      · simpa using hr
      · simp only [if_true, List.map_cons, List.find?_cons]
        rw [show (j == k) = false by simp [e]]; exact hr

theorem slotBits_of {v : Val} {k : Nat} {i : Slot} (h : slotOf v k = some i) : slotBits v k = i := by
  unfold slotOf at h; split at h <;> simp at h; exact h

theorem codeWidth_pow (c : BitVec 4) {x : Nat} (hx : x < 256 ^ (codeWidth c / 8)) : x < 2 ^ codeWidth c := by
  rw [show (256 : Nat) = 2 ^ 8 by rfl, ← Nat.pow_mul] at hx
  rcases codeWidth_width c with e | e | e | e | e <;> rw [e] at hx ⊢ <;> first | exact hx | skip
  exfalso; revert e; revert c; decide

theorem dataOf_32 (d : Val) (x : Bool) : dataOf (if x then 64 else 32) d = if x then elemOf 64 d 0 else (slotOf d 0).map BitVec.toNat := by
  cases x
  · simp only [dataOf, Bool.false_eq_true, if_false]
    rw [if_neg (by omega)]
    congr 1; funext x; exact Nat.mod_eq_of_lt x.isLt
  · simp [dataOf]

theorem elem64_none {d : Val} (h : slotOf d 0 = none) : elemOf 64 d 0 = none := by
  have : d.valid.getLsbD 0 = false := by rw [valid_eq_isSome, h]; rfl
  unfold elemOf elemValid
  rw [if_pos rfl, this]; rfl

theorem deliverAt_addEff (k : Nat) (h : Hdr) (aux : BitVec 12) (d : Deliv) (b : BInst) (e : Eff) :
    deliverAt k h aux d (addEff e b) = addEff e (deliverAt k h aux d b) := by
  unfold deliverAt deliver1
  (repeat' split) <;> rfl

theorem deliver_addEff (h : Hdr) (aux : BitVec 12) (d : Deliv) (b : BInst) (e : Eff) :
    deliver h aux d (addEff e b) = addEff e (deliver h aux d b) := deliverAt_addEff b.pc h aux d b e

theorem deliverAt_effs' (k : Nat) (h : Hdr) (aux : BitVec 12) (d : Deliv) (b : BInst) : (deliverAt k h aux d b).effs = b.effs := by
  unfold deliverAt deliver1
  (repeat' split) <;> rfl

/-- A store that its home neither refuses nor meets with a live word is performed whole. -/
theorem homeWrite_lands {s : State} {o : Origin} {st : HStore}
    (h : st.via = none ∨ ((∀ v, st.via = some v → homeRefuses s v (st.bytes.headD (0, 0)).1 st.bytes.length = none) ∧ ∀ c, c ∈ st.bytes → typeAt s c.1 = 0)) :
    homeWrite s o st = stored s st := by
  have hf : st.bytes.filter (fun p => st.via.isNone || typeAt s p.1 == 0) = st.bytes := by
    rw [List.filter_eq_self]
    intro c hc
    rcases h with h | h
    · simp [h]
    · simp [h.2 c hc]
  have hr : st.via.bind (fun v => homeRefuses s v (st.bytes.headD (0, 0)).1 st.bytes.length) = none := by
    rcases h with h | h
    · rw [h]; rfl
    · cases hv : st.via with
      | none => rfl
      | some v => exact h.1 v hv
  unfold homeWrite plainBytes stored
  simp only [hf, hr]
  simp

theorem homeWrites_lands (o : Origin) : ∀ (l : List HStore) (s : State), Lands s l → homeWrites o s l = l.foldl stored s := by
  intro l; induction l with
  | nil => intro s _; rfl
  | cons st l ih =>
    intro s h
    unfold homeWrites
    rw [homeWrite_lands h.1]
    exact ih _ h.2

theorem homeWrites_append (o : Origin) : ∀ (l m : List HStore) (s : State), homeWrites o s (l ++ m) = homeWrites o (homeWrites o s l) m := by
  intro l; induction l with
  | nil => intro m s; rfl
  | cons st l ih => intro m s; exact ih m _

theorem lands_append : ∀ (l m : List HStore) (s : State), Lands s (l ++ m) ↔ Lands s l ∧ Lands (l.foldl stored s) m := by
  intro l; induction l with
  | nil => intro m s; simp [Lands]
  | cons st l ih =>
    intro m s
    simp only [List.cons_append, Lands, List.foldl_cons, ih, and_assoc]

/-- Whether stores land does not rest on the invocations. -/
theorem lands_invs (vs : List Machine.Inv) : ∀ (l : List HStore) (s : State), Lands { s with invs := vs } l ↔ Lands s l := by
  intro l; induction l with
  | nil => intro s; exact Iff.rfl
  | cons st l ih =>
    intro s
    have h : stored { s with invs := vs } st = { stored s st with invs := vs } := rfl
    unfold Lands
    rw [h, ih]
    exact Iff.rfl

theorem stored_fold (l : List HStore) : ∀ s : State, (l.foldl stored s).mem = l.foldl (fun m st => putBytes m st.bytes) s.mem
    ∧ (l.foldl stored s).insts = s.insts ∧ (l.foldl stored s).invs = s.invs ∧ (l.foldl stored s).wtype = s.wtype := by
  induction l with
  | nil => intro s; exact ⟨rfl, rfl, rfl, rfl⟩
  | cons st l ih => intro s; exact ih (stored s st)

theorem typeAt_congr {s t : State} (h : t.wtype = s.wtype) (a : Nat) : typeAt t a = typeAt s a := by unfold typeAt; rw [h]

theorem byteAt_putBytes (a : Nat) : ∀ (l m : List Host.Cell),
    byteAt (putBytes m l) a = (((l.filter (fun p => p.1 == a)).getLast?).map (fun p => p.2)).getD (byteAt m a) := by
  intro l; induction l with
  | nil => intro m; rfl
  | cons c l ih =>
    intro m
    obtain ⟨x, v⟩ := c
    have := ih (putByte m x v)
    rw [show putBytes m ((x, v) :: l) = putBytes (putByte m x v) l from rfl, this, List.filter_cons]
    by_cases e : x = a
    · subst e
      simp only [beq_self_eq_true, if_true]
      rw [List.getLast?_cons]
      cases (l.filter (fun p => p.1 == x)).getLast? with
      | none => simp [byteAt_putByte_same]
      | some y => simp
    · rw [if_neg (by simp [e]), byteAt_putByte_other _ (fun h => e h.symm)]

theorem fold_last (a : Nat) : ∀ (l : List HStore) (m : List Host.Cell),
    byteAt (l.foldl (fun m st => putBytes m st.bytes) m) a = (lastStore a l).getD (byteAt m a) := by
  intro l; induction l with
  | nil => intro m; rfl
  | cons st l ih =>
    intro m
    rw [List.foldl_cons, ih, byteAt_putBytes a]
    have : lastStore a (st :: l) = match lastStore a l with
      | some x => some x
      | none => ((st.bytes.filter (fun p => p.1 == a)).getLast?).map (fun p => p.2) := rfl
    rw [this]
    cases lastStore a l <;> rfl

theorem findInv_put {s : State} {v : Inv} (i : Nat) (h : findInv s i = some v) (hs : List HStore) :
    findInv (putInv s { v with held := hs }) i = some { v with held := hs } := by
  have hid : v.id = i := by have := List.find?_some h; simpa using this
  unfold findInv putInv
  dsimp only
  rw [hid]
  refine (find_updFirst (fun x : Machine.Inv => x.id == i) _ (fun a _ => by simp [hid]) _).trans ?_
  unfold findInv at h
  rw [h]; rfl

theorem putInv_self {s : State} {v : Machine.Inv} {i : Nat} (h : findInv s i = some v) : putInv s v = s := by
  have hid : v.id = i := by have := List.find?_some h; simpa using this
  unfold putInv
  have : ∀ l : List Machine.Inv, l.find? (fun x => x.id == i) = some v → updFirst (fun x => x.id == v.id) (fun _ => v) l = l := by
    intro l; induction l with
    | nil => intro _; rfl
    | cons a l ih =>
      intro h
      rw [List.find?_cons] at h
      unfold updFirst
      rw [hid]
      split at h
      · next e => cases h; rw [if_pos e]
      · next e =>
        rw [if_neg (by simp [e])]
        have := ih h; rw [hid] at this; rw [this]
  rw [this s.invs h]

theorem findInv_congr {s t : State} (h : t.invs = s.invs) (i : Nat) : findInv t i = findInv s i := by unfold findInv; rw [h]

/-- What a release performs: the invocation's held stores and then the instance's own, in program order; it leaves neither a
store nor a release. -/
theorem performRels_lands (o : Origin) : ∀ (l : List Eff) (s : State) (v : Machine.Inv) (pre : List HStore) (i : Nat), findInv s i = some v →
    Lands s (v.held ++ (pre ++ ownStores l)) →
    let r := performRels o i s pre l
    homeWrites o (releaseInv r.1 o i) r.2.1 = (v.held ++ (pre ++ ownStores l)).foldl stored (putInv s { v with held := [] })
    ∧ effStores r.2.2 = [] ∧ r.2.2.any Eff.isRel = false := by
  have now : ∀ (s : State) (v : Machine.Inv) (pre : List HStore) (i : Nat), findInv s i = some v → Lands s (v.held ++ pre) →
      homeWrites o (releaseInv s o i) pre = (v.held ++ pre).foldl stored (putInv s { v with held := [] }) := by
    intro s v pre i hv hl
    unfold releaseInv
    simp only [hv]
    rw [← homeWrites_append]
    exact homeWrites_lands o _ _ ((lands_invs _ _ _).mpr hl)
  have step : ∀ (l : List Eff) (s : State) (v : Machine.Inv) (xs : List HStore) (i : Nat), findInv s i = some v → Lands s (v.held ++ (xs ++ ownStores l)) →
      (∀ (s : State) (v : Machine.Inv) (pre : List HStore) (i : Nat), findInv s i = some v → Lands s (v.held ++ (pre ++ ownStores l)) →
        let r := performRels o i s pre l
        homeWrites o (releaseInv r.1 o i) r.2.1 = (v.held ++ (pre ++ ownStores l)).foldl stored (putInv s { v with held := [] })
        ∧ effStores r.2.2 = [] ∧ r.2.2.any Eff.isRel = false) →
      let u := (v.held ++ xs).foldl stored (putInv s { v with held := [] })
      let r := performRels o i u [] l
      homeWrites o (releaseInv r.1 o i) r.2.1 = (v.held ++ (xs ++ ownStores l)).foldl stored (putInv s { v with held := [] })
      ∧ effStores r.2.2 = [] ∧ r.2.2.any Eff.isRel = false := by
    intro l s v xs i hv hl ih u r
    have hu : findInv u i = some { v with held := [] } := by
      rw [findInv_congr (stored_fold _ _).2.2.1]; exact findInv_put i hv []
    have hl2 := (lands_append (v.held ++ xs) (ownStores l) s).mp (by rw [List.append_assoc]; exact hl)
    have hl3 : Lands u (([] : List HStore) ++ ([] ++ ownStores l)) := by
      have := (lands_append (v.held ++ xs) (ownStores l) (putInv s { v with held := [] })).mp
        ((lands_invs _ _ _).mpr (by rw [List.append_assoc]; exact hl))
      exact this.2
    obtain ⟨k1, k2⟩ := ih u _ [] i hu hl3
    refine ⟨?_, k2⟩
    have hp : putInv u { ({ v with held := [] } : Machine.Inv) with held := [] } = u := putInv_self hu
    rw [k1, hp, ← List.append_assoc v.held, List.foldl_append (l := v.held ++ xs)]
    rfl
  intro l; induction l with
  | nil =>
    intro s v pre i hv hl
    refine ⟨?_, rfl, rfl⟩
    simp only [ownStores, List.append_nil] at hl ⊢
    exact now s v pre i hv hl
  | cons e l ih =>
    intro s v pre i hv hl
    cases e with
    | store st =>
      have := ih s v (pre ++ [st]) i hv (by simpa [ownStores] using hl)
      simpa [performRels, ownStores] using this
    | rel r =>
      cases r with
      | phase c =>
        have hl' : Lands s (v.held ++ (pre ++ ownStores l)) := hl
        have hn := now s v pre i hv ((lands_append _ _ s).mp (by rw [← List.append_assoc] at hl'; exact hl')).1
        have := step l s v pre i hv hl' ih
        dsimp only at this
        unfold performRels
        rw [hn]
        exact this
      | strel c st =>
        have hs : ownStores (.rel (.strel c st) :: l) = st.toList ++ ownStores l := by cases st <;> rfl
        rw [hs] at hl ⊢
        have hl' : Lands s (v.held ++ ((pre ++ st.toList) ++ ownStores l)) := by rw [List.append_assoc pre]; exact hl
        have hn := now s v (pre ++ st.toList) i hv ((lands_append _ _ s).mp (by rw [← List.append_assoc] at hl'; exact hl')).1
        rw [homeWrites_append] at hn
        have := step l s v (pre ++ st.toList) i hv hl' ih
        dsimp only at this
        unfold performRels
        rw [hn, ← List.append_assoc pre]
        exact this
    | _ =>
      obtain ⟨k1, k2, k3⟩ := ih s v pre i hv hl
      exact ⟨k1, by simpa [performRels, effStores] using k2, by simpa [performRels, Eff.isRel] using k3⟩

theorem releaseNow_lands {s : State} {b : BInst} {v : Machine.Inv} (hv : findInv s b.inv = some v) (h : Lands s (v.held ++ ownStores b.effs)) :
    (releaseNow s b).1 = (v.held ++ ownStores b.effs).foldl stored (putInv s { v with held := [] })
    ∧ effStores (releaseNow s b).2.effs = [] ∧ (releaseNow s b).2.effs.any Eff.isRel = false := by
  have := performRels_lands (originOf s b b.pc 2) b.effs s v [] b.inv hv (by simpa using h)
  simpa [releaseNow] using this

def HintFrame (s t : State) : Prop := t = { s with dome := t.dome, monitors := t.monitors, ctxs := t.ctxs }

theorem hintFrame_trans {s t u : State} (h : HintFrame s t) (g : HintFrame t u) : HintFrame s u := by
  unfold HintFrame at *; rw [g, h]

theorem hintLines_frame (b : BInst) (f : State → Nat → State) (hf : ∀ s pa, HintFrame s (f s pa)) : ∀ (l : List Int) (s : State), HintFrame s (hintLines b f s l) := by
  intro l; induction l with
  | nil => intro s; rfl
  | cons va l ih =>
    intro s
    have hc : HintFrame s (countDrop s b.node) := rfl
    unfold hintLines
    (repeat' split)
    · exact hintFrame_trans hc (ih _)
    · exact hintFrame_trans hc (ih _)
    · exact hintFrame_trans (hf _ _) (ih _)

theorem dropLine_frame (s : State) (pa : Nat) : HintFrame s (dropLine s pa) := by
  unfold dropLine; split <;> rfl

theorem domeKeep_frame (s : State) (pa : Nat) (r : Retention) : HintFrame s (domeKeep s pa r) := by
  unfold domeKeep
  dsimp only
  split
  · rfl
  · split
    · rfl
    · split
      · rfl
      · split
        · exact hintFrame_trans (dropLine_frame _ _) rfl
        · rfl

theorem keepLine_frame (r : Option Retention) (s : State) (pa : Nat) : HintFrame s (keepLine r s pa) := by
  unfold keepLine; split
  · exact domeKeep_frame _ _ _
  · rfl

theorem hintOp_spec {h : Hdr} {p : PayW} {s : State} {b : BInst} {a : Val} {active : Bool} {f : State → Nat → State} (hf : MemFires h s b [a])
    (hF : ∀ s pa, HintFrame s (f s pa)) :
    let done := advance 1 (deliver h 0 offDeliv b)
    (baseOf false a = none → hintOp h p s active f = .next (putInst s done))
    ∧ (∃ t, hintOp h p s active f = .next t ∧ t.insts = (putInst s done).insts ∧ t = { s with insts := t.insts, dome := t.dome, monitors := t.monitors, ctxs := t.ctxs })
    ∧ ∀ base, baseOf false a = some base → p.mctl = 0 → 0 ≤ ((base : Int) + p.ofs.toInt) / 64 * 64 → ((base : Int) + p.ofs.toInt) / 64 * 64 < 2 ^ 57 →
      (∀ r, active = true → translate s (some b.cell) b.node.w b.tag.colour (((base : Int) + p.ofs.toInt) / 64 * 64).toNat true false = .error r →
        hintOp h p s active f = .next (putInst (countDrop s b.node) done))
      ∧ (∀ pa, active = true → translate s (some b.cell) b.node.w b.tag.colour (((base : Int) + p.ofs.toInt) / 64 * 64).toNat true false = .ok pa →
        hintOp h p s active f = .next (putInst (f s pa) done)) := by
  intro done
  unfold hintOp
  rw [memOp_fires' _ hf]
  refine ⟨?_, ?_, ?_⟩
  · intro h1; simp [h1]; rfl
  · refine ⟨_, rfl, ?_⟩
    simp only [List.getD_cons_zero]
    split
    · exact ⟨rfl, rfl⟩
    · next base _ =>
      split
      · have := hintLines_frame b f hF ((List.range (p.mctl.toNat + 1)).map (fun (i : Nat) => ((base : Int) + p.ofs.toInt) / 64 * 64 + 64 * (i : Int))) s
        unfold HintFrame at this
        generalize hintLines b f s _ = u at this ⊢
        constructor
        · show (putInst u _).insts = _; rw [this]; rfl
        · show putInst u _ = _; rw [this]; rfl
      · exact ⟨rfl, rfl⟩
  · intro base h1 h2 h3 h4
    have hr : (List.range ((0 : BitVec 6).toNat + 1)).map (fun (i : Nat) => ((base : Int) + p.ofs.toInt) / 64 * 64 + 64 * (i : Int)) = [((base : Int) + p.ofs.toInt) / 64 * 64] := by
      simp [List.range, List.range.loop]
    have hn : ¬ (((base : Int) + p.ofs.toInt) / 64 * 64 < 0 ∨ (2 ^ 57 : Nat) ≤ ((base : Int) + p.ofs.toInt) / 64 * 64) := by
      omega
    constructor
    · intro r h5 h6
      simp only [List.getD_cons_zero, h1, h2, h5, if_true]
      rw [hr]
      simp only [hintLines, if_neg hn, h6]
      rfl
    · intro pa h5 h6
      simp only [List.getD_cons_zero, h1, h2, h5, if_true]
      rw [hr]
      simp only [hintLines, if_neg hn, h6]
      rfl

theorem held_nil {s : State} {b : BInst} (h : NothingHeld s b) {v : Machine.Inv} (hv : findInv s b.inv = some v) : ({ v with held := [] } : Machine.Inv) = v := by
  have := h.2.2 v hv; rw [← this]

theorem performRels_nil (o : Origin) (i : Nat) (s : State) : ∀ l : List Eff, effStores l = [] → l.any Eff.isRel = false → performRels o i s [] l = (s, [], l) := by
  intro l; induction l with
  | nil => intro _ _; rfl
  | cons e l ih =>
    intro h g
    simp only [List.any_cons, Bool.or_eq_false_iff] at g
    obtain ⟨g1, g2⟩ := g
    cases e <;> simp [effStores] at h <;> first | (simp [Eff.isRel] at g1; done) | simp [performRels, ih h g2]

theorem keepStores_nil : ∀ l : List Eff, keepStores [] l = l := by
  intro l; induction l with
  | nil => rfl
  | cons e l ih => cases e <;> simp [keepStores, ih]

theorem releaseNow_nil {s : State} {b : BInst} (h : NothingHeld s b) : releaseNow s b = (s, b) := by
  unfold releaseNow releaseInv
  simp only [performRels_nil _ _ _ _ h.1 h.2.1]
  cases hv : findInv s b.inv with
  | none => rfl
  | some v => simp only; rw [held_nil h hv, h.2.2 v hv, putInv_self hv]; rfl

theorem settle_nil {s : State} {b : BInst} (h : NothingHeld s b) : settle s b = (s, b) := by
  unfold settle; simp [h.2.1]

theorem releaseOverlap_nil {s : State} {b : BInst} (h : NothingHeld s b) (l : List Nat) : releaseOverlap s b l = (s, b) := by
  unfold releaseOverlap
  rw [settle_nil h]
  simp only
  rw [h.1]
  cases hv : findInv s b.inv with
  | none => simp only; rw [List.reverse_nil]; unfold overlapSplit; rw [keepStores_nil]; rfl
  | some v =>
    simp only
    rw [h.2.2 v hv]
    simp only [List.reverse_nil, overlapSplit]
    rw [held_nil h hv, putInv_self hv, keepStores_nil]; rfl

theorem atomicRelease_nil {s : State} {b : BInst} (h : NothingHeld s b) (o : Sys2Proof.Ord) (l : List Nat) : atomicRelease s b o l = (s, b) := by
  unfold atomicRelease
  split <;> first | exact releaseNow_nil h | exact releaseOverlap_nil h l

theorem readAddrs_eq (s : State) (l : List Nat) : readAddrs s l = numberAt s l := by
  induction l with
  | nil => rfl
  | cons a l ih => simp [readAddrs, numberAt, ih]

theorem numberAt_congr {s t : State} (h : t.mem = s.mem) (l : List Nat) : numberAt t l = numberAt s l := by
  unfold numberAt; rw [h]

theorem numberAt_lt (s : State) (l : List Nat) : numberAt s l < 256 ^ l.length := by
  rw [← readAddrs_eq]
  induction l with
  | nil => simp [readAddrs]
  | cons a l ih =>
    have := (byteAt s.mem a).isLt
    simp only [readAddrs, List.length_cons, Nat.pow_succ]; omega

theorem leBytes_length (n x : Nat) : (leBytes n x).length = n := by
  induction n generalizing x with
  | zero => rfl
  | succ n ih => simp [leBytes, ih]

theorem leBytes_get (n : Nat) : ∀ (x k : Nat), k < n → (leBytes n x)[k]? = some (BitVec.ofNat 8 (x / 256 ^ k)) := by
  induction n with
  | zero => intro x k h; omega
  | succ n ih =>
    intro x k h
    cases k with
    | zero => simp [leBytes]
    | succ k =>
      simp only [leBytes, List.getElem?_cons_succ]
      rw [ih _ _ (by omega), Nat.div_div_eq_div_mul, Nat.pow_succ, Nat.mul_comm 256]

theorem written_put {s t : State} {addrs : List Nat} {x : Nat} (hn : addrs.Nodup)
    (ht : t.mem = putBytes s.mem (addrs.zip (leBytes addrs.length x))) : Written s t addrs x := by
  have hfst : (addrs.zip (leBytes addrs.length x)).map Prod.fst = addrs := by
    rw [List.map_fst_zip]; exact Nat.le_of_eq (leBytes_length ..).symm
  constructor
  · intro k a hk
    have hk' : k < addrs.length := by
      rw [List.getElem?_eq_some_iff] at hk; exact hk.1
    rw [ht]
    refine byteAt_putBytes_same _ _ (by rw [hfst]; exact hn) ?_
    have : (addrs.zip (leBytes addrs.length x))[k]? = some (a, BitVec.ofNat 8 (x / 256 ^ k)) := by
      rw [List.getElem?_zip_eq_some]
      exact ⟨hk, leBytes_get _ _ _ hk'⟩
    exact List.mem_of_getElem? this
  · intro a ha
    rw [ht]
    apply byteAt_putBytes_other
    intro c hc e
    apply ha
    rw [← e, ← hfst]
    exact List.mem_map_of_mem hc

theorem range_map_nodup {f : Nat → Nat} (n : Nat) (hf : ∀ i j, f i = f j → i = j) : ((List.range n).map f).Nodup := by
  apply List.Pairwise.map (R := fun a b => a ≠ b)
  · intro a b h e; exact h (hf a b e)
  · exact List.nodup_range

theorem effAddr_nodup {s : State} {b : BInst} {sp : Bool} {ea : Int} {size n : Nat} {rd wr : Bool} {pl : Place}
    (h : effAddr s b sp 0 ea size n rd wr = .ok pl) : pl.addrs.Nodup := by
  unfold effAddr at h
  (repeat' split at h) <;> cases h
  · dsimp only
    apply range_map_nodup
    intro i j; simp only [swizzle, scratchAddr]; omega
  · dsimp only
    apply range_map_nodup
    intro i j; omega

theorem holds_old {w old : Nat} (hw : Width w) (h4 : w ≠ 4) (ho : old < 2 ^ w) : Holds false w old (if w = 64 then word64 (BitVec.ofNat 64 old) else word32 old) := by
  have : ∃ c : BitVec 4, codeWidth c = w ∧ codeSigned c = false := by
    rcases hw with e | e | e | e | e
    · exact absurd e h4
    · exact ⟨4, by rw [e]; rfl, rfl⟩
    · exact ⟨5, by rw [e]; rfl, rfl⟩
    · exact ⟨6, by rw [e]; rfl, rfl⟩
    · exact ⟨7, by rw [e]; rfl, rfl⟩
  obtain ⟨c, e1, e2⟩ := this
  have hx : old < 256 ^ (codeWidth c / 8) := by
    rw [e1]; rcases hw with e | e | e | e | e
    · exact absurd e h4
    all_goals (rw [e] at ho ⊢; exact ho)
  have := holds_loadVal c old hx
  rw [e1, e2] at this
  unfold loadVal at this
  rw [e1, e2] at this
  by_cases h : w = 64
  · rw [if_pos h] at this ⊢; exact this
  · simp only [if_neg h] at this ⊢
    have e : wrapInt 32 (readInt false w old) = old := by
      unfold readInt
      have : old < 2 ^ 32 := by
        rcases hw with e | e | e | e | e
        · exact absurd e h4
        · rw [e] at ho; omega
        · rw [e] at ho; omega
        · rw [e] at ho; omega
        · exact absurd e h
      have h2 := wrapInt_cast 32 (old : Int)
      simp
      omega
    rw [e] at this; exact this

structure SameRest (s t : State) : Prop where
  worlds : t.worlds = s.worlds
  ctxs : t.ctxs = s.ctxs
  counters : t.counters = s.counters
  wtype : t.wtype = s.wtype
  dev : t.dev = s.dev
  mem : t.mem = s.mem
  insts : t.insts = s.insts

theorem bankDrop_rest (s : State) (b : BInst) (pa : Nat) : SameRest s (bankDrop s b pa) := by
  unfold bankDrop; split <;> exact ⟨rfl, rfl, rfl, rfl, rfl, rfl, rfl⟩

theorem rest_of_only {s t : State} (h : CachesOnly s t ∧ t.insts = s.insts) : SameRest s t := by
  obtain ⟨⟨h1, _⟩, h2⟩ := h
  refine ⟨?_, ?_, ?_, ?_, ?_, ?_, h2⟩ <;> rw [h1]

theorem rest_trans {s t u : State} (h : SameRest s t) (g : SameRest t u) : SameRest s u :=
  ⟨g.worlds.trans h.worlds, g.ctxs.trans h.ctxs, g.counters.trans h.counters, g.wtype.trans h.wtype, g.dev.trans h.dev, g.mem.trans h.mem, g.insts.trans h.insts⟩

/-- The caches before a step at a home. -/
theorem homeStep_rest (s : State) (b : BInst) (pa : Nat) (pl : Place) : SameRest s (domeTouch (bankDrop s b pa) pl) :=
  rest_trans (bankDrop_rest s b pa) (rest_of_only (domeTouch_only _ pl))

theorem acquire_rest (s : State) (b : BInst) (sc : Scope) : SameRest s (acquire s b sc) := rest_of_only (acquire_only s b sc)

theorem atomicAcquire_rest (s : State) (b : BInst) (o : Sys2Proof.Ord) (sc : Scope) : SameRest s (atomicAcquire s b o sc) := by
  unfold atomicAcquire; split <;> first | exact acquire_rest s b sc | exact ⟨rfl, rfl, rfl, rfl, rfl, rfl, rfl⟩

theorem atomicOp_spec {h : Hdr} {p : PayW} {s : State} {w : Nat} {isOr isCas pcie : Bool} {pre : BInst → Option Report}
    {f : BInst → Nat → Nat → Nat → Nat} {b : BInst} {a : Val} {ds : List Nat} {xs : List Val} {base : Nat} {pl : Place}
    (hw : Width w) (h4 : w ≠ 4)
    (hf : MemFires h s b (a :: xs)) (hp : pre b = none) (hn : NothingHeld s b)
    (h1 : baseOf (spOf p) a = some base) (h2 : xs.mapM (dataOf w) = some ds) (h3 : placeOf p s b base (w / 8) 0 true true = .ok pl)
    (hv : pl.via = none ∨ (hostUncached s (pl.addrs.headD 0) = false ∧ typeAt s (pl.addrs.headD 0) = 0)) :
    let old := numberAt s pl.addrs
    old < 2 ^ w ∧ ∃ t v, atomicOp h p s w isOr isCas pcie pre f = .next t ∧ Holds false w old v ∧ Written s t pl.addrs (f b old (ds.getD 0 0) (ds.getD 1 0))
      ∧ t.insts = (putInst s (awaits h (markDurable b) v (if isCas then old == ds.getD 0 0 else old != 0))).insts
      ∧ t.worlds = s.worlds ∧ t.ctxs = s.ctxs ∧ t.counters = s.counters ∧ t.wtype = s.wtype ∧ t.dev = s.dev := by
  intro old
  unfold placeOf at h3
  have hlen := effAddr_length h3
  have ho : old < 2 ^ w := by
    have := numberAt_lt s pl.addrs
    rw [hlen, show (256 : Nat) = 2 ^ 8 by rfl, ← Nat.pow_mul] at this
    have hd : 8 * (w / 8) = w := by rcases hw with e | e | e | e | e <;> rw [e] <;> first | rfl | exact absurd e h4
    rw [hd] at this; exact this
  refine ⟨ho, ?_⟩
  unfold atomicOp
  rw [memOp_fires' _ hf]
  simp only [hp, List.getD_cons_zero, List.drop_succ_cons, List.drop_zero, h1, h2, h3]
  rw [if_neg (by
    rcases hv with h | h
    · simp [h]
    · simp only [h.1]; simp)]
  rw [if_neg (by
    rcases hv with h | h
    · simp [h]
    · simp only [h.2]; simp)]
  rw [atomicRelease_nil hn]
  refine ⟨_, _, rfl, holds_old hw h4 (by simpa [readAddrs_eq, numberAt_congr (homeStep_rest _ _ _ _).mem] using ho), ?_⟩
  simp only [readAddrs_eq, numberAt_congr (homeStep_rest s b (pl.addrs.headD 0) pl).mem]
  have hr1 := homeStep_rest s b (pl.addrs.headD 0) pl
  generalize hs1 : domeTouch (bankDrop s b (pl.addrs.headD 0)) pl = s1 at hr1 ⊢
  have hr2 := atomicAcquire_rest (performWrite s1 (storeAt pl (f b (numberAt s pl.addrs) (ds.getD 0 0) (ds.getD 1 0)))) b p.ord p.scope
  refine ⟨?_, ?_, ?_, ?_, ?_, ?_, ?_⟩
  · apply written_put (effAddr_nodup h3)
    show (atomicAcquire _ _ _ _).mem = _
    rw [hr2.mem]; unfold performWrite storeAt; dsimp only; rw [hr1.mem]
  · unfold finishLoad putInst awaits
    dsimp only
    rw [hr2.insts]; unfold performWrite; dsimp only; rw [hr1.insts]
  · show (atomicAcquire _ _ _ _).worlds = _; rw [hr2.worlds]; exact hr1.worlds
  · show (atomicAcquire _ _ _ _).ctxs = _; rw [hr2.ctxs]; exact hr1.ctxs
  · show (atomicAcquire _ _ _ _).counters = _; rw [hr2.counters]; exact hr1.counters
  · show (atomicAcquire _ _ _ _).wtype = _; rw [hr2.wtype]; exact hr1.wtype
  · show (atomicAcquire _ _ _ _).dev = _; rw [hr2.dev]; exact hr1.dev

theorem mapM_bits {w : Nat} (hw : Width w) : ∀ {xs : List Val} {ds : List Nat}, xs.mapM (dataOf w) = some ds → ∀ k, bitsAt ds k < 2 ^ w := by
  have hd : ∀ {x : Val} {y : Nat}, dataOf w x = some y → y < 2 ^ w := by
    intro x y h; unfold dataOf at h; split at h
    · next e =>
      rw [e]; unfold elemOf at h; split at h <;> cases h
      unfold elemBits; exact Nat.mod_lt _ (by omega)
    · cases hs : slotOf x 0 with
      | none => rw [hs] at h; cases h
      | some z => rw [hs] at h; cases h; exact Nat.mod_lt _ (Nat.pow_pos (by omega))
  intro xs; induction xs with
  | nil => intro ds h k; simp at h; subst h; exact Nat.pow_pos (by omega)
  | cons x xs ih =>
    intro ds h k
    rw [List.mapM_cons] at h
    cases hx : dataOf w x with
    | none => rw [hx] at h; cases h
    | some y =>
      cases hr : xs.mapM (dataOf w) with
      | none => rw [hx, hr] at h; cases h
      | some ys =>
        rw [hx, hr] at h; cases h
        cases k with
        | zero => exact hd hx
        | succ k => exact ih hr k

theorem cw4 (c : BitVec 4) : codeWidth c ≠ 4 := by revert c; decide

theorem atomic_of {i : Hdr → PayW → Instr} {op : Hdr → AtOp} {F : Hdr → State → BInst → Nat → List Nat → Nat → Prop} {q : Nat → List Nat → Bool}
    (hi : ∀ h p s, exec (i h p) s = intAtomic h p s (op h))
    (hF : ∀ h s b old ds, old < 2 ^ codeWidth h.fmt → (∀ k, bitsAt ds k < 2 ^ codeWidth h.fmt) → F h s b old ds (atResult (op h) (codeWidth h.fmt) old (bitsAt ds 0) (bitsAt ds 1)))
    (hq : ∀ h old ds, q old ds = (if op h == .cas then old == bitsAt ds 0 else old != 0)) :
    AtomicResult i (fun h => codeWidth h.fmt) (fun _ _ _ => True) F q := by
  intro h p s b a ds xs base pl hf _ hn h1 h2 h3 hv
  dsimp only at *
  have hs := atomicOp_spec (isOr := op h == .or) (isCas := op h == .cas) (pcie := op h == .add || op h == .xch || op h == .cas) (pre := fun _ => none)
    (f := fun _ old x y => atResult (op h) (codeWidth h.fmt) old x y) (codeWidth_width h.fmt) (cw4 _) hf rfl hn h1 h2 h3 hv
  obtain ⟨ho, t, v, g1, g2, g3, g4, g5⟩ := hs
  refine ⟨t, v, _, (hi h p s).trans g1, g2, hF h s b _ _ ho (mapM_bits (codeWidth_width _) h2), g3, ?_, g5⟩
  rw [hq h]; exact g4

theorem elemOf64_lt {d : Val} {x : Nat} (h : elemOf 64 d 0 = some x) : x < 2 ^ 64 := by
  unfold elemOf at h; split at h <;> cases h
  unfold elemBits; exact Nat.mod_lt _ (by omega)

theorem waitVal_spec (code x : Nat) (hx : x < 2 ^ 64) : ∀ k, k < 16 →
    slotOf (waitVal code x) k = if k = 0 then some (BitVec.ofNat 32 code) else if k = 1 then some (BitVec.ofNat 32 x) else if k = 2 then some (BitVec.ofNat 32 (x / 2 ^ 32)) else none := by
  intro k hk
  unfold waitVal
  rw [slotOf_firstSlots _ _ hk]
  match k with
  | 0 => rfl
  | 1 =>
    simp only [List.getElem?_cons_succ, List.getElem?_cons_zero]
    show _ = some (BitVec.ofNat 32 x)
    congr 1; apply BitVec.eq_of_toNat_eq; simp
  | 2 => rfl
  | k + 3 => simp

theorem withdraw_back (s : State) (b : BInst) (pa : Nat) (xs : List Val) :
    (withdraw s b pa xs).mem = s.mem ∧ (withdraw s b pa xs).insts = s.insts.filter (fun x => !x.isAt b.cell b.seq)
    ∧ (∃ f, f ∈ (withdraw s b pa xs).firings ∧ f.cell = b.cell ∧ f.seq = b.seq)
    ∧ ∃ m, m ∈ (withdraw s b pa xs).monitors ∧ m.granule = pa / 64 ∧ m.cell = b.cell ∧ m.seq = b.seq ∧ m.event = none := by
  unfold withdraw
  refine ⟨by simp, by simp, ⟨_, List.mem_append_right _ (List.mem_singleton.2 rfl), rfl, rfl⟩, ⟨_, List.mem_append_right _ (List.mem_singleton.2 rfl), rfl, rfl, rfl, rfl⟩⟩

theorem and_bits (x y : Nat) : (x &&& y == y) = true ↔ ∀ j, y.testBit j = true → x.testBit j = true := by
  rw [beq_iff_eq]
  constructor
  · intro h j hj; rw [← h, Nat.testBit_and] at hj; simp at hj; exact hj.1
  · intro h
    apply Nat.eq_of_testBit_eq
    intro j; rw [Nat.testBit_and]
    cases hy : y.testBit j
    · simp
    · simp [h j hy]

theorem waitOp_spec {h : Hdr} {p : PayW} {s : State} {ty : Nat} {test : Val → Option (Nat → Bool)} {b : BInst} {a g : Val} {xs : List Val}
    {base : Nat} {pl : Place} {cond : Nat → Bool} (hf : MemFires h s b (a :: g :: xs)) (h1 : baseOf false a = some base) (h2 : test g = some cond)
    (h3 : effAddr s b false 0 ((base : Int) + p.ofs.toInt) 8 0 true false = .ok pl) :
    let x := readPlace s b pl.addrs
    waitOp h p s ty test = .next (if typeAt s (pl.addrs.headD 0) ≠ ty then raise s b { cause := .permission, detail := 6, addr := pl.ea }
        else if cond x then finishLoad (acquire s b p.scope) h b (waitVal 0 x) true
        else match b.wake with
          | some .timeout => finishLoad s h b (waitVal 2 x) false
          | _ => withdraw s b (pl.addrs.headD 0) (a :: g :: xs)) := by
  intro x
  unfold waitOp
  rw [memOp_fires' _ hf]
  simp only [List.getD_cons_zero, List.getD_cons_succ, h1, h2, h3]
  rfl

end Sys2Proof.Laws
end

