-- ==== Sys2Proof/Laws/Runs.lean ====
section
/-! SUPPORT.  Lemmas for the statements about the plane array. -/

open Sys2Proof Sys2Proof.Machine Sys2Proof.Claims

namespace Sys2Proof.Laws

theorem mat_fires {h : Hdr} {p : PayX} {s : State} {b : BInst} {xs : List Val} {enabled : BInst → Bool}
    (body : BInst → List Val → State) (hf : MatFires h p s b xs) : matrixOp h p s enabled body = .next (if enabled b then body b xs else s) := by
  unfold matrixOp
  rw [hf.fires.exec.focus]
  simp only [show olderOfInv s b = false from hf.alone, Bool.false_eq_true, if_false]
  rw [withOps_fires _ _ hf.fires]

theorem slot3 (r : Run) : ∀ k, k < 16 → slotOf (mstatVal r) k =
        if k = 0 then some (r.status.extractLsb' 0 32) else if k = 1 then some (r.status.extractLsb' 32 32) else if k = 2 then some (BitVec.ofNat 32 r.word)
        else if k = 3 then some (BitVec.ofNat 32 (r.rp true * 2 ^ 24 + r.rp false * 2 ^ 16 + r.kinp * 2 ^ 8 + r.outp)) else none := by
  intro k hk
  unfold mstatVal
  rw [slotOf_firstSlots _ _ hk]
  match k with
  | 0 => simp
  | 1 => simp
  | 2 => simp
  | 3 => simp
  | k + 4 => simp

theorem own_tag {s : State} {b : BInst} {r : Run} (h : ownRun s b = some r) : r.tag = b.tag := by
  unfold ownRun at h
  split at h
  · split at h
    · next e => cases h; exact e
    · cases h
  · cases h

/-- What a panel load, a row and an initial row make of the key's own run at the commit. -/
theorem makes_load {s : State} {b : BInst} {r : Run} (h : ownRun s b = some r) (sel : Bool) (q : Panel) : Makes b r (.load sel q) (some (r.setPanel sel (some q))) := by
  unfold Makes planeAfter; simp [own_tag h]

theorem makes_row {s : State} {b : BInst} {r : Run} {q : Panel} {sel : Bool} (h : ownRun s b = some r) (hq : r.panel sel = some q) (word : Word64) (a : List (Option (Nat × Nat))) :
    Makes b r (.row sel word a) (some (fireRow (Fmt.ofWord word) a sel q r)) := by
  unfold Makes planeAfter; simp [own_tag h, hq]

theorem makes_kin {s : State} {b : BInst} {r : Run} (h : ownRun s b = some r) (xs : List Val) : Makes b r (.kin xs) (some (kinRow r xs)) := by
  unfold Makes planeAfter; simp [own_tag h]

theorem makes_close {s : State} {b : BInst} {r : Run} (h : ownRun s b = some r) : Makes b r .close none := by
  unfold Makes planeAfter; simp [own_tag h]

theorem makes_drain {s : State} {b : BInst} {r : Run} (h : ownRun s b = some r) (row slot : Nat) (hd : Hdr) (o : Option (BitVec 4)) (sat : Bool) :
    Makes b r (.drain row slot hd o sat) (if r.outp + 1 = r.m then none else some { r with outp := r.outp + 1, sat := r.sat || sat }) := by
  unfold Makes planeAfter
  simp only [own_tag h, ne_eq, not_true_eq_false, if_false]
  rfl

theorem kin_fold (xs : List Val) : ∀ (j : Nat) (r : Run), j ≤ r.n →
    let r1 := (List.range j).foldl (fun (r : Run) (n : Nat) =>
    ({ r with acc := mput 0 r.acc (64 * r.kinp + n) ((slotOf (xs.getD (n / 16) noVal) (n % 16)).getD 0).toNat } : Run)) r
    r1 = { r with acc := r1.acc } ∧ (∀ n, n < j → mget 0 r1.acc (64 * r.kinp + n) = ((slotOf (xs.getD (n / 16) noVal) (n % 16)).getD 0).toNat)
    ∧ ∀ k, (k < 64 * r.kinp ∨ 64 * r.kinp + j ≤ k) → mget 0 r1.acc k = mget 0 r.acc k := by
  intro j; induction j with
  | zero => intro r _; exact ⟨rfl, fun n h => absurd h (by omega), fun _ _ => rfl⟩
  | succ j ih =>
    intro r hj
    obtain ⟨h1, h2, h3⟩ := ih r (by omega)
    dsimp only at *
    rw [List.range_succ, List.foldl_append]
    generalize (List.range j).foldl (fun (r : Run) (n : Nat) =>
    ({ r with acc := mput 0 r.acc (64 * r.kinp + n) ((slotOf (xs.getD (n / 16) noVal) (n % 16)).getD 0).toNat } : Run)) r = r1 at h1 h2 h3
    simp only [List.foldl_cons, List.foldl_nil]
    have hk : r1.kinp = r.kinp := by rw [h1]
    refine ⟨by rw [h1], ?_, ?_⟩
    · intro n hn
      rw [hk]
      by_cases e : n = j
      · subst e; exact mget_mput_same 0 _ _ _
      · rw [mget_mput_other 0 _ (by omega)]; exact h2 n (by omega)
    · intro k hk2
      rw [hk, mget_mput_other 0 _ (by omega)]
      exact h3 k (by omega)

theorem kin_spec (r : Run) (xs : List Val) : let r' := kinRow r xs
    (∀ n, n < r.n → r'.accAt r.kinp n = ((slotOf (xs.getD (n / 16) noVal) (n % 16)).getD 0).toNat)
        ∧ (∀ i n, i ≠ r.kinp → n < 64 → r.n ≤ 64 → r'.accAt i n = r.accAt i n) ∧ r'.count r.kinp = 1 ∧ (∀ i, i ≠ r.kinp → r'.count i = r.count i)
        ∧ r' = { r with acc := r'.acc, cnt := r'.cnt, kinp := r.kinp + 1 } := by
  obtain ⟨h1, h2, h3⟩ := kin_fold xs r.n r (Nat.le_refl _)
  unfold kinRow
  dsimp only at *
  generalize (List.range r.n).foldl (fun (r : Run) (n : Nat) =>
    ({ r with acc := mput 0 r.acc (64 * r.kinp + n) ((slotOf (xs.getD (n / 16) noVal) (n % 16)).getD 0).toNat } : Run)) r = r1 at h1 h2 h3
  refine ⟨h2, ?_, ?_, ?_, ?_⟩
  · intro i n hi hn hN
    apply h3
    omega
  · exact (mget_mput_same 0 r1.cnt r.kinp 1 :)
  · intro i hi
    unfold Run.count
    dsimp only
    rw [mget_mput_other 0 _ hi, h1]
  · rw [h1]

theorem foldl_sum (f : Nat → Nat) : ∀ (l : List Nat) (x : Nat), l.foldl (fun acc i => acc + f i) x = x + (l.map f).sum := by
  intro l; induction l with
  | nil => simp
  | cons a l ih => intro x; simp [ih]; omega

theorem padElem_eq (s : State) (b : BInst) (m swz a c : Nat) (high : Bool) : padElem s b m swz a c high = scratchCode s b m swz a c high := by
  unfold padElem scratchCode
  rw [foldl_sum (fun i => padByte s b m swz (a + i) * 256 ^ i)]
  simp [padByte, scratchByte]

theorem readRow_eq (s : State) (b : BInst) (m swz : Nat) (e : Fmt) (a k : Nat) : readSpot s b m swz e.cont (rowSpot e a k) = rowElement s b m swz e a k := by
  unfold readSpot rowSpot rowElement
  simp only [padElem_eq]
  by_cases h : e.block = 0
  · simp only [h, if_true]
  · simp only [h, if_false]; rfl

theorem rowSpot_start (e : Fmt) (a k : Nat) : (rowSpot e a k).addr = rowStart e a k := by
  unfold rowSpot rowStart; dsimp only; split <;> rfl

theorem findSome_range {β : Type} {f : Nat → Option β} {n k : Nat} {y : β} (hk : k < n) (h1 : f k = some y) (h2 : ∀ j, j < k → f j = none) :
    (List.range n).findSome? f = some y := by
  induction n with
  | zero => omega
  | succ n ih =>
    rw [List.range_succ, List.findSome?_append]
    by_cases e : k = n
    · subst e
      have : (List.range k).findSome? f = none := by
        rw [List.findSome?_eq_none_iff]; intro x hx; exact h2 x (by simpa using hx)
      simp [this, h1]
    · rw [ih (by omega)]; rfl

theorem panelStart (e : Fmt) (nMajor : Bool) (a pitch k n : Nat) : (panelSpot e nMajor a pitch k n).addr = if nMajor then rowStart e (a + n * pitch) k else a + k * pitch + n * e.cont / 8 := by
  unfold panelSpot; split
  · rw [rowSpot_start]
  · rfl

theorem beyond_iff (e : Fmt) (sp : Spot) : (decide (scratchSize < sp.top e.cont)) = true ↔ Beyond e sp.addr := by
  unfold Beyond Spot.top scratchSize; simp

theorem panelBad_some {e : Fmt} {nMajor : Bool} {a pitch kb N k n : Nat} 
    (hr : k < (if nMajor then rowSpan e kb else kb)) (hn : n < N) 
    (hb : Beyond e (panelSpot e nMajor a pitch k n).addr)
    (hf : ∀ k' n', n' < N → k' < k ∨ (k' = k ∧ n' < n) → ¬ Beyond e (panelSpot e nMajor a pitch k' n').addr) : panelBad e nMajor a pitch kb N = some (k, n) := by
  have hrow : (if nMajor ∧ e.block ≠ 0 then (kb + e.block - 1) / e.block * e.block else kb) = (if nMajor then rowSpan e kb else kb) := by
    unfold rowSpan; cases nMajor <;> simp
  unfold panelBad
  simp only [hrow]
  apply findSome_range hr
  · rw [find_range hn]
    · rfl
    · rw [beyond_iff]; exact hb
    · intro j hj
      have := hf k j (by omega) (.inr ⟨rfl, hj⟩)
      rw [← beyond_iff] at this
      simpa using this
  · intro j hj
    rw [Option.map_eq_none_iff, List.find?_eq_none]
    intro c hc
    rw [beyond_iff]
    exact hf j c (by simpa using hc) (.inl hj)

theorem panelBad_none {e : Fmt} {nMajor : Bool} {a pitch kb N : Nat} 
    (hf : ∀ k n, k < (if nMajor then rowSpan e kb else kb) → n < N → ¬ Beyond e (panelSpot e nMajor a pitch k n).addr) : panelBad e nMajor a pitch kb N = none := by
  have hrow : (if nMajor ∧ e.block ≠ 0 then (kb + e.block - 1) / e.block * e.block else kb) = (if nMajor then rowSpan e kb else kb) := by
    unfold rowSpan; cases nMajor <;> simp
  unfold panelBad
  simp only [hrow]
  rw [List.findSome?_eq_none_iff]
  intro k hk
  rw [Option.map_eq_none_iff, List.find?_eq_none]
  intro c hc
  rw [beyond_iff]
  exact hf k c (by simpa using hk) (by simpa using hc)

theorem panel_load (nMajor : Bool) (i : Hdr → PayX → Instr) (hi : ∀ h p s, exec (i h p) s = panelOp h p s nMajor) : ∀ h p s b x r m, MatFires h p s b [x] → ownRun s b = some r → r.panel (p.mctl.getLsbD 0) = none →
    scratchCell s b = some m →
    let word := entryWord s b p.bfmt.toNat
    let e := Fmt.ofWord word
    let legal := legalEntry word = true ∧ (nMajor = false → e.block = 0)
    (¬ legal → exec (i h p) s = .next (raiseFormat s b p.bfmt.toNat))
    ∧ (legal → (slotOf x 0 = none ∨ slotOf x 1 = none ∨ slotOf x 2 = none) → exec (i h p) s = .next (delivered h 0 s b 1 noVal false))
    ∧ ∀ a0 p0 w0, legal → slotOf x 0 = some a0 → slotOf x 1 = some p0 → slotOf x 2 = some w0 →
      let a := a0.toNat
      let pitch := p0.toNat
      let w := w0.toNat
      let kb := w % 256 + 1
      let ch := w / 2 ^ 16 % 256
      let align := if e.block = 0 then max 1 (e.cont / 8) else 2
      let rows := if nMajor then rowSpan e kb else kb
      let start (k n : Nat) : Nat := if nMajor then rowStart e (a + n * pitch) k else a + k * pitch + n * e.cont / 8
      let bad := 128 < kb ∨ r.nch ≤ ch ∨ (ch = 0 ∧ r.kin = true) ∨ w / 2 ^ 24 ≠ 0
      (bad → exec (i h p) s = .next (raise s b { cause := .illegalEncoding, detail := 3 }))
      ∧ (¬ bad → (a % align ≠ 0 ∨ pitch % align ≠ 0) → exec (i h p) s = .next (raise s b { cause := .addrOverflow, iters := [0, 0, 0], addr := a }))
      ∧ (¬ bad → a % align = 0 → pitch % align = 0 → ∀ k n, k < rows → n < r.n → Beyond e (start k n) →
        (∀ k' n', n' < r.n → k' < k ∨ (k' = k ∧ n' < n) → ¬ Beyond e (start k' n')) →
        exec (i h p) s = .next (raise s b { cause := .addrOverflow, iters := [0, k, n], n := n, addr := start k n }))
      ∧ (¬ bad → a % align = 0 → pitch % align = 0 → (∀ k n, k < rows → n < r.n → ¬ Beyond e (start k n)) →
        ∃ op q, exec (i h p) s = .next (putInst s (plans b op)) ∧ Makes b r op (some (r.setPanel (p.mctl.getLsbD 0) (some q)))
          ∧ q.entry = word ∧ q.gen = b.gen ∧ q.kb = kb ∧ q.kidx = w / 2 ^ 8 % 256 ∧ q.ch = ch ∧ q.rp = 0 ∧ q.elems.length = kb
          ∧ ∀ k n, k < kb → n < r.n → ((q.elems.getD k []).getD n (0, 0)) =
            if nMajor then rowElement s b m (p.mctl.toNat / 2 % 8) e (a + n * pitch) k
            else (0, scratchCode s b m (p.mctl.toNat / 2 % 8) (a + k * pitch + n * e.cont / 8) e.cont (n % 2 == 1))) := by
  intro h p s b x r m hf hr hp hm word e legal
  have he := hi h p s
  unfold panelOp at he
  rw [mat_fires _ hf] at he
  rw [if_pos (by unfold panelFree; rw [hr]; simp only [Option.any_some, pselOf]; rw [hp]; rfl)] at he
  simp only [List.getD_cons_zero, hr, hm] at he
  have hl : panelEntryBad s b p nMajor = if legalEntry word && (nMajor || e.block == 0) then none else some p.bfmt.toNat := rfl
  have hl2 : (legalEntry word && (nMajor || e.block == 0)) = true ↔ legal := by
    simp only [legal, Bool.and_eq_true, Bool.or_eq_true, beq_iff_eq]
    cases nMajor <;> simp
  rw [hl] at he
  refine ⟨?_, ?_, ?_⟩
  · intro h1
    rw [if_neg (fun h => h1 (hl2.1 h))] at he
    exact he
  · intro h1 h2
    rw [if_pos (hl2.2 h1)] at he
    rcases h2 with h2 | h2 | h2
    · simp only [h2] at he; exact he
    · simp only [h2] at he; cases h3 : slotOf x 0 <;> simp only [h3] at he <;> exact he
    · simp only [h2] at he; cases h3 : slotOf x 0 <;> cases h4 : slotOf x 1 <;> simp only [h3, h4] at he <;> exact he
  · intro a0 p0 w0 h1 h2 h3 h4 a pitch w kb ch align rows start bad
    rw [if_pos (hl2.2 h1)] at he
    simp only [h2, h3, h4] at he
    have hb : (128 < bits w0.toNat 7 0 + 1 ∨ r.nch ≤ bits w0.toNat 23 16 ∨ bits w0.toNat 23 16 = 0 ∧ r.kin = true ∨ bits w0.toNat 31 24 ≠ 0) ↔ bad := by
      simp only [bad, kb, ch, w, bits, Nat.reduceAdd, Nat.reduceSub, Nat.reducePow]
      have := w0.isLt
      rw [show w0.toNat / 16777216 % 256 = w0.toNat / 16777216 by omega, Nat.div_one]
    have hal : padAlign e = align := rfl
    refine ⟨?_, ?_, ?_, ?_⟩
    · intro h5; rw [if_pos (hb.2 h5)] at he; exact he
    · intro h5 h6
      have h6' : a0.toNat % padAlign (entryOf s b p.bfmt.toNat) ≠ 0 ∨ p0.toNat % padAlign (entryOf s b p.bfmt.toNat) ≠ 0 := h6
      rw [if_neg (fun h => h5 (hb.1 h)), if_pos h6'] at he
      exact he
    · intro h5 h6 h6' k n h7 h8 h9 h10
      rw [if_neg (fun h => h5 (hb.1 h)), if_neg (by rw [show a0.toNat % padAlign (entryOf s b p.bfmt.toNat) = 0 from h6, show p0.toNat % padAlign (entryOf s b p.bfmt.toNat) = 0 from h6']; simp)] at he
      have e1 : bits w0.toNat 7 0 + 1 = kb := by simp [bits, kb, w]
      have hpb : panelBad (entryOf s b p.bfmt.toNat) nMajor a0.toNat p0.toNat kb r.n = some (k, n) :=
        panelBad_some (k := k) (n := n) h7 h8 (by rw [panelStart]; exact h9) (fun k' n' a1 a2 => by rw [panelStart]; exact h10 k' n' a1 a2)
      rw [e1, hpb] at he
      rw [he]; simp only [panelStart]; rfl
    · intro h5 h6 h6' h7
      rw [if_neg (fun h => h5 (hb.1 h)), if_neg (by rw [show a0.toNat % padAlign (entryOf s b p.bfmt.toNat) = 0 from h6, show p0.toNat % padAlign (entryOf s b p.bfmt.toNat) = 0 from h6']; simp)] at he
      have e1 : bits w0.toNat 7 0 + 1 = kb := by simp [bits, kb, w]
      have hpb : panelBad (entryOf s b p.bfmt.toNat) nMajor a0.toNat p0.toNat kb r.n = none := panelBad_none (fun k n a1 a2 => by rw [panelStart]; exact h7 k n a1 a2)
      rw [e1, hpb] at he
      refine ⟨_, _, he, makes_load hr _ _, rfl, rfl, rfl, ?_, ?_, rfl, by simp, ?_⟩
      · simp [bits, w]
      · simp [bits, ch, w]
      · intro k n hk hn
        have hsw : swzOf p = p.mctl.toNat / 2 % 8 := by simp [swzOf, bits]
        simp only [List.getD_eq_getElem?_getD, List.getElem?_map, List.getElem?_range hk, List.getElem?_range hn, Option.map_some, Option.getD_some]
        rw [← hsw]
        unfold panelSpot
        split
        · exact readRow_eq ..
        · unfold readSpot; simp only [padElem_eq]; rfl

theorem enumFrom_map {α β : Type} (f : Nat × α → Option β) : ∀ (l : List α) (j : Nat), (enumFrom j l).filterMap f =
    (List.range l.length).filterMap (fun k => (l[k]?).bind (fun a => f (j + k, a))) := by
  intro l; induction l with
  | nil => intro j; rfl
  | cons a l ih =>
    intro j
    rw [List.length_cons, List.range_succ_eq_map]
    simp only [enumFrom, List.filterMap_cons, ih, List.filterMap_map]
    simp [Function.comp_def, Nat.add_comm, Nat.add_left_comm, Nat.add_assoc]

/-- The products of a column, as the statement counts them. -/
theorem products_terms (ea : Fmt) (l : List (Option (Nat × Nat))) (q : Panel) (n : Nat) (a : Nat → Option (Nat × Nat))
    (ha : ∀ k, a k = (l[k]?).getD none) :
    (products ea (Fmt.ofWord q.entry) l q n).map (fun x => x.2) = rowTerms ea q a n := by
  unfold products rowTerms
  rw [enumFrom_map, List.map_filterMap]
  have hlen : (l.zip q.elems).length = min l.length q.elems.length := List.length_zip
  rw [hlen]
  have ext : ∀ (f : Nat → Option Machine.Num) (i j : Nat), i ≤ j → (∀ k, i ≤ k → k < j → f k = none) → (List.range i).filterMap f = (List.range j).filterMap f := by
    intro f i j hij hf
    obtain ⟨d, rfl⟩ : ∃ d, j = i + d := ⟨j - i, by omega⟩
    clear hij
    induction d with
    | zero => rfl
    | succ d ih =>
      rw [← Nat.add_assoc, List.range_succ, List.filterMap_append, ← ih (fun k h1 h2 => hf k h1 (by omega))]
      simp [hf (i + d) (by omega) (by omega)]
  rw [← ext _ (min l.length q.elems.length) q.elems.length (Nat.min_le_right _ _) ?_]
  · apply fm_congr
    intro k hk
    have hk : k < min l.length q.elems.length := by simpa using hk
    have h1 : l[k]? = some l[k] := List.getElem?_eq_getElem (by omega)
    have h2 : q.elems[k]? = some q.elems[k] := List.getElem?_eq_getElem (by omega)
    have hz : (l.zip q.elems)[k]? = some (l[k], q.elems[k]) := by rw [List.getElem?_zip_eq_some]; exact ⟨h1, h2⟩
    rw [ha k, hz, h1]
    simp only [Option.bind_some, Option.getD_some, Option.map_map]
    have hd : q.elems.getD k [] = q.elems[k] := by rw [List.getD_eq_getElem?_getD, h2]; rfl
    rw [hd]
    cases l[k] with
    | none => rfl
    | some x => simp only [Option.map_some, Function.comp_apply]
  · intro k h1 h2
    have : l.length ≤ k := by omega
    rw [ha k, List.getElem?_eq_none this]; rfl

theorem rowColumn_spec (ea : Fmt) (l : List (Option (Nat × Nat))) (q : Panel) (a : Nat → Option (Nat × Nat)) (ha : ∀ k, a k = (l[k]?).getD none) (row : Nat) (r : Run) (n : Nat) :
    let r' := rowColumn ea (Fmt.ofWord q.entry) l q row r n
    let v := chunkValue (rowTerms ea q a n)
    r'.acc = mput 0 r.acc (64 * row + n) (if r.count row = 0 then v else roundNum (sumNums false [decodeElem fp32 (r.accAt row n), decodeElem fp32 v]) fp32 .rne 0)
    ∧ (r'.nan = true ↔ r.nan = true ∨ Machine.Num.nan ∈ rowTerms ea q a n)
    ∧ r' = { r with acc := r'.acc, offender := r'.offender, nan := r'.nan, inf := r'.inf, ovf := r'.ovf } := by
  intro r' v
  have hp := products_terms ea l q n a ha
  refine ⟨?_, ?_, rfl⟩
  · show (rowColumn ea (Fmt.ofWord q.entry) l q row r n).acc = _
    unfold rowColumn
    dsimp only
    rw [hp]
  · show (rowColumn ea (Fmt.ofWord q.entry) l q row r n).nan = true ↔ _
    unfold rowColumn
    dsimp only
    rw [Bool.or_eq_true, List.any_eq_true, ← hp]
    apply or_congr Iff.rfl
    constructor
    · rintro ⟨x, h1, h2⟩
      refine List.mem_map.2 ⟨x, h1, ?_⟩
      cases hx : x.2 <;> rw [hx] at h2 <;> simp [Machine.Num.isNan] at h2
    · intro h
      obtain ⟨x, h1, h2⟩ := List.mem_map.1 h
      exact ⟨x, h1, by rw [h2]; rfl⟩

theorem rowCols_spec (ea : Fmt) (l : List (Option (Nat × Nat))) (q : Panel) (a : Nat → Option (Nat × Nat)) (ha : ∀ k, a k = (l[k]?).getD none) (row : Nat) (r : Run) : ∀ j : Nat,
    let r' := (List.range j).foldl (rowColumn ea (Fmt.ofWord q.entry) l q row) r
    r' = { r with acc := r'.acc, offender := r'.offender, nan := r'.nan, inf := r'.inf, ovf := r'.ovf }
    ∧ (∀ n, n < j → mget 0 r'.acc (64 * row + n) = if r.count row = 0 then chunkValue (rowTerms ea q a n) else roundNum (sumNums false [decodeElem fp32 (r.accAt row n), decodeElem fp32 (chunkValue (rowTerms ea q a n))]) fp32 .rne 0)
    ∧ (∀ k, (k < 64 * row ∨ 64 * row + j ≤ k) → mget 0 r'.acc k = mget 0 r.acc k)
    ∧ (r'.nan = true ↔ r.nan = true ∨ ∃ n, n < j ∧ Machine.Num.nan ∈ rowTerms ea q a n) := by
  intro j; induction j with
  | zero => exact ⟨rfl, fun n h => absurd h (by omega), fun _ _ => rfl, by simp⟩
  | succ j ih =>
    rw [List.range_succ, List.foldl_append]
    dsimp only at *
    generalize (List.range j).foldl (rowColumn ea (Fmt.ofWord q.entry) l q row) r = r1 at ih ⊢
    obtain ⟨h1, h2, h3, h4⟩ := ih
    obtain ⟨g1, g2, g3⟩ := rowColumn_spec ea l q a ha row r1 j
    simp only [List.foldl_cons, List.foldl_nil]
    generalize rowColumn ea (Fmt.ofWord q.entry) l q row r1 j = r2 at g1 g2 g3 ⊢
    have hc : r1.count row = r.count row := by rw [h1]; rfl
    have hacc : r1.accAt row j = r.accAt row j := h3 _ (.inr (Nat.le_refl _))
    refine ⟨by rw [g3]; rw [h1], ?_, ?_, ?_⟩
    · intro n hn
      rw [g1]
      by_cases e : n = j
      · subst e; rw [mget_mput_same, hc, hacc]
      · rw [mget_mput_other 0 _ (by omega)]; exact h2 n (by omega)
    · intro k hk
      rw [g1, mget_mput_other 0 _ (by omega)]
      exact h3 k (by omega)
    · rw [g2, h4]
      constructor
      · rintro ((h | ⟨n, h, h'⟩) | h)
        · exact .inl h
        · exact .inr ⟨n, by omega, h'⟩
        · exact .inr ⟨j, by omega, h⟩
      · rintro (h | ⟨n, h, h'⟩)
        · exact .inl (.inl h)
        · by_cases e : n = j
          · subst e; exact .inr h'
          · exact .inl (.inr ⟨n, by omega, h'⟩)

theorem fireRow_spec (ea : Fmt) (l : List (Option (Nat × Nat))) (q : Panel) (a : Nat → Option (Nat × Nat)) (ha : ∀ k, a k = (l[k]?).getD none) (sel : Bool) (r : Run) (hn : r.n ≤ 64) :
    RowFired ea a sel q r (fireRow ea l sel q r) := by
  obtain ⟨h1, h2, h3, h4⟩ := rowCols_spec ea l q a ha q.rp r r.n
  unfold fireRow
  dsimp only at *
  generalize (List.range r.n).foldl (rowColumn ea (Fmt.ofWord q.entry) l q q.rp) r = r1 at h1 h2 h3 h4 ⊢
  have hacc : ∀ (x : Run) (o : Option Panel) i n, (x.setPanel sel o).accAt i n = x.accAt i n := by intro x o i n; unfold Run.setPanel; split <;> rfl
  have hcnt : ∀ (x : Run) (o : Option Panel) i, (x.setPanel sel o).count i = x.count i := by intro x o i; unfold Run.setPanel; split <;> rfl
  have hrest : ∀ (x : Run) (o : Option Panel), SameRun x (x.setPanel sel o) ∧ (x.setPanel sel o).kinp = x.kinp ∧ (x.setPanel sel o).outp = x.outp ∧ (x.setPanel sel o).sat = x.sat ∧ (x.setPanel sel o).nan = x.nan := by
    intro x o; unfold Run.setPanel; split <;> exact ⟨⟨rfl, rfl, rfl, rfl, rfl, rfl⟩, rfl, rfl, rfl, rfl⟩
  have hs : ∀ (x : Run) (o : Option Panel), (x.setPanel sel o).panel sel = o ∧ (x.setPanel sel o).panel (!sel) = x.panel (!sel) := by
    intro x o; unfold Run.setPanel Run.panel; cases sel <;> exact ⟨rfl, rfl⟩
  have hc : ∀ i, r1.count i = r.count i := by intro i; rw [h1]; rfl
  have kacc : ∀ (x : Run) k i n, (x.keepRp sel k).accAt i n = x.accAt i n := by intro x k i n; unfold Run.keepRp; split <;> rfl
  have kcnt : ∀ (x : Run) k i, (x.keepRp sel k).count i = x.count i := by intro x k i; unfold Run.keepRp; split <;> rfl
  have krest : ∀ (x : Run) k, SameRun x (x.keepRp sel k) ∧ (x.keepRp sel k).kinp = x.kinp ∧ (x.keepRp sel k).outp = x.outp ∧ (x.keepRp sel k).sat = x.sat ∧ (x.keepRp sel k).nan = x.nan ∧ ∀ y, (x.keepRp sel k).panel y = x.panel y := by
    intro x k; unfold Run.keepRp; split <;> exact ⟨⟨rfl, rfl, rfl, rfl, rfl, rfl⟩, rfl, rfl, rfl, rfl, fun _ => rfl⟩
  have krp : ∀ (x : Run) k, x.panel sel = none ∨ (∃ y, x.panel sel = some y ∧ y.rp = k) → (x.keepRp sel k).rp sel = k := by
    intro x k hx
    unfold Run.rp
    rw [(krest x k).2.2.2.2.2]
    rcases hx with hx | ⟨y, hx, hy⟩
    · rw [hx]; unfold Run.keepRp; cases sel <;> rfl
    · rw [hx]; exact hy
  refine ⟨?_, ?_, ?_, ?_, ?_, ?_, ?_, ?_, ?_, ?_, ?_, ?_⟩
  · intro n hn'; rw [kacc, hacc]; exact h2 n hn'
  · intro i n hi hn'; rw [kacc, hacc]; exact h3 _ (by omega)
  · rw [kcnt, hcnt]; unfold Run.count at *; dsimp only; rw [mget_mput_same, hc]
  · intro i hi; rw [kcnt, hcnt]; unfold Run.count at *; dsimp only; rw [mget_mput_other 0 _ hi]; exact hc i
  · rw [(krest _ _).2.2.2.2.2, (hs _ _).1]
  · apply krp
    rw [(hs _ _).1]
    split
    · exact .inl rfl
    · exact .inr ⟨_, rfl, rfl⟩
  · rw [(krest _ _).2.2.2.2.2, (hs _ _).2, h1]; rfl
  · obtain ⟨a1, a2, a3, a4, a5, a6⟩ := (hrest { r1 with cnt := mput 0 r1.cnt q.rp (r1.count q.rp + 1) } (if q.rp + 1 = r.m then none else some { q with rp := q.rp + 1 })).1
    obtain ⟨b1, b2, b3, b4, b5, b6⟩ := (krest ({ r1 with cnt := mput 0 r1.cnt q.rp (r1.count q.rp + 1) }.setPanel sel (if q.rp + 1 = r.m then none else some { q with rp := q.rp + 1 })) (q.rp + 1)).1
    refine ⟨(b1.trans a1).trans ?_, (b2.trans a2).trans ?_, (b3.trans a3).trans ?_, (b4.trans a4).trans ?_, (b5.trans a5).trans ?_, (b6.trans a6).trans ?_⟩ <;> rw [h1]
  · rw [(krest _ _).2.1, (hrest _ _).2.1]; rw [h1]
  · rw [(krest _ _).2.2.1, (hrest _ _).2.2.1]; rw [h1]
  · rw [(krest _ _).2.2.2.1, (hrest _ _).2.2.2.1]; rw [h1]
  · rw [(krest _ _).2.2.2.2.1, (hrest _ _).2.2.2.2]; exact h4

theorem tokenRow_get (e : Fmt) (xs : List Val) (k : Nat) : ((tokenRow e xs)[k]?).getD none =
    if 128 ≤ k then none else
      match elemOf e.cont (xs.getD (k / (512 / e.cont)) noVal) (k % (512 / e.cont)) with
      | none => none
      | some c => if e.block = 0 then some (0, c) else (elemOf 16 (xs.getD (128 / (512 / e.cont)) noVal) (k / e.block)).map (fun hd => (hd, c)) := by
  unfold tokenRow
  by_cases h : 128 ≤ k
  · rw [if_pos h, List.getElem?_eq_none (by simpa using h)]; rfl
  · rw [if_neg h]
    simp only [List.getElem?_map, List.getElem?_range (show k < 128 by omega), Option.map_some, Option.getD_some]
    all_goals rfl

theorem cont_idx (e : Fmt) (k : Nat) : k * e.cont / 512 = k / (512 / e.cont) ∧ 128 / (512 / e.cont) = e.cont / 4 := by
  rcases e.cont_width with h | h | h | h | h <;> rw [h] <;> constructor <;> omega

theorem emitAll_eq (h : Hdr) (port : BitVec 7) (ht : h.t0 = .chan port) : ∀ (l : List Val) (b : BInst),
    emitAll h b l = { b with emits := b.emits ++ l.map (fun v => { slot := b.pc, port := port.toNat, tok := dataTok b.tag 0 v }) } := by
  intro l; induction l with
  | nil => intro b; simp [emitAll]
  | cons v l ih =>
    intro b
    unfold emitAll
    rw [ih, ht]
    simp [deliver1]

theorem cont_cases (e : Fmt) : e.cont = 4 ∨ e.cont = 8 ∨ e.cont = 16 ∨ e.cont = 32 := by
  unfold Fmt.cont; (repeat' split) <;> simp

theorem statusBits (x : Word64) : (bits x.toNat 47 43 != 0) = decide (x.toNat / 2 ^ 43 % 32 ≠ 0) := by
  unfold bits
  rw [show (47 + 1 - 43) = 5 by rfl, show (2 ^ 5 : Nat) = 32 by rfl]
  generalize x.toNat / 2 ^ 43 % 32 = y
  cases y <;> rfl

theorem drain_spec {h : Hdr} {p : PayX} {s : State} {b : BInst} {xs : List Val} {r : Run} {port : BitVec 7} {o : Option (BitVec 4)} {row : BInst → Run → List Val × Bool} {check : BInst → Option Nat}
    (hf : MatFires h p s b xs) (hr : ownRun s b = some r) (ht : h.t0 = .chan port) :
    (¬ (r.count r.outp = r.nch ∧ r.outp < r.m) → drainOp h p s o row check = .next s)
    ∧ ((r.count r.outp = r.nch ∧ r.outp < r.m) → ∀ i, check b = some i → drainOp h p s o row check = .next (raiseFormat s b i))
    ∧ ((r.count r.outp = r.nch ∧ r.outp < r.m) → check b = none → Drains (drainOp h p s o row check) h s b r port.toNat (row b r).1 (row b r).2) := by
  have hd : rowDone s b = true ↔ (r.count r.outp = r.nch ∧ r.outp < r.m) := by
    unfold rowDone; rw [hr]; simp
  unfold drainOp
  rw [mat_fires _ hf]
  refine ⟨?_, ?_, ?_⟩
  · intro h1; rw [if_neg (fun h => h1 (hd.1 h))]
  · intro h1 i h2; rw [if_pos (hd.2 h1)]; simp only [h2]
  · intro h1 h2
    rw [if_pos (hd.2 h1)]
    simp only [h2, hr]
    unfold Drains
    dsimp only
    rw [emitAll_eq h port ht]
    refine ⟨_, makes_drain hr r.outp b.pc h o (row b r).2, ?_⟩
    unfold statusDeliv drained commitRun plans
    dsimp only
    rw [statusBits]

theorem elem_valOf {w : Nat} (hw : w = 4 ∨ w = 8 ∨ w = 16 ∨ w = 32) (f : Nat → Option Slot) (i : Nat) (hi : i < elemCount w) (l : List (Option Nat))
    (hf : f (i * w / 32) = some (BitVec.ofNat 32 (packElems w l))) : elemOf w (valOf f) i = some (((l[i % (32 / w)]?).getD none).getD 0 % 2 ^ w) := by
  have hk : i * w / 32 < 16 := by rcases hw with rfl | rfl | rfl | rfl <;> simp [elemCount] at hi <;> omega
  have hs : slotOf (valOf f) (i * w / 32) = some (BitVec.ofNat 32 (packElems w l)) := (slotOf_valOf _ _ hk).trans hf
  unfold elemOf
  have hv : elemValid w (valOf f) i = true := by
    unfold elemValid
    rw [if_neg (by rcases hw with rfl | rfl | rfl | rfl <;> decide), valid_eq_isSome, hs]; rfl
  rw [if_pos hv, elemBits_slot hw, slotBits_of hs, ← packElems_spec w l (i % (32 / w))]
  congr 1
  rw [BitVec.toNat_ofNat]
  have e1 : i * w % 32 = i % (32 / w) * w := by rcases hw with rfl | rfl | rfl | rfl <;> omega
  have e2 : i % (32 / w) * w + w ≤ 32 := by rcases hw with rfl | rfl | rfl | rfl <;> omega
  rw [e1]
  have hp : (2 : Nat) ^ 32 = 2 ^ (i % (32 / w) * w) * (2 ^ w * 2 ^ (32 - (i % (32 / w) * w + w))) := by
    rw [← Nat.pow_add, ← Nat.pow_add]; congr 1; omega
  rw [hp, Nat.mod_mul_right_div_self, Nat.mod_mul_right_mod]

theorem outTokens_elem (e : Fmt) (m : Rnd) (sr : SrCtx) (r : Run) (j : Nat) (v : Val) (i : Nat) (hj : (outTokens e m sr r)[j]? = some v)
    (hi : i < elemCount e.cont) (hn : j * (512 / e.cont) + i < r.n) : elemOf e.cont v i = some (outCode e m sr r r.outp (j * (512 / e.cont) + i) % 2 ^ e.cont) := by
  unfold outTokens at hj
  simp only [List.getElem?_map] at hj
  have hjr : j < (r.n * e.cont + 511) / 512 := by
    by_cases h : j < (r.n * e.cont + 511) / 512
    · exact h
    · rw [List.getElem?_eq_none (by simpa using h)] at hj; cases hj
  rw [List.getElem?_range hjr] at hj
  simp only [Option.map_some, Option.some.injEq] at hj
  subst hj
  have hw := cont_cases e
  generalize e.cont = w at hw hi hn ⊢
  have e3 : i * w / 32 * (32 / w) + i % (32 / w) = i := by rcases hw with rfl | rfl | rfl | rfl <;> omega
  rw [elem_valOf hw _ i hi ((List.range (32 / w)).map (fun k => if j * (512 / w) + i * w / 32 * (32 / w) + k < r.n then some (outCode e m sr r r.outp (j * (512 / w) + i * w / 32 * (32 / w) + k)) else none)) (by rw [if_pos (by omega)])]
  have e4 : i % (32 / w) < 32 / w := Nat.mod_lt _ (by rcases hw with rfl | rfl | rfl | rfl <;> decide)
  simp only [List.getElem?_map, List.getElem?_range e4, Option.map_some, Option.getD_some]
  rw [show j * (512 / w) + i * w / 32 * (32 / w) + i % (32 / w) = j * (512 / w) + i by omega, if_pos hn]
  rfl

theorem flat_get {α β : Type} (f : α → List β) (n : Nat) : ∀ (l : List α), (∀ a, a ∈ l → (f a).length = n) → ∀ i k, k < n → i < l.length →
    ((l.map f).flatten)[i * n + k]? = (l[i]?).bind (fun a => (f a)[k]?) := by
  intro l; induction l with
  | nil => intro _ i k _ h; simp at h
  | cons a l ih =>
    intro hl i k hk hi
    rw [List.map_cons, List.flatten_cons]
    cases i with
    | zero => rw [Nat.zero_mul, Nat.zero_add, List.getElem?_append_left (by rw [hl a (by simp)]; exact hk)]; simp
    | succ i =>
      rw [List.getElem?_append_right (by rw [hl a (by simp), Nat.succ_mul]; omega), hl a (by simp)]
      rw [show (i + 1) * n + k - n = i * n + k by rw [Nat.succ_mul]; omega]
      rw [ih (fun x hx => hl x (by simp [hx])) i k hk (by simpa using hi)]
      simp

theorem flat_length {α β : Type} (f : α → List β) (n : Nat) : ∀ (l : List α), (∀ a, a ∈ l → (f a).length = n) → ((l.map f).flatten).length = l.length * n := by
  intro l; induction l with
  | nil => intro _; simp
  | cons a l ih =>
    intro hl
    rw [List.map_cons, List.flatten_cons, List.length_append, ih (fun x hx => hl x (by simp [hx])), hl a (by simp), List.length_cons, Nat.succ_mul]; omega

theorem tileBad_none {e : Fmt} {a pitch m n : Nat} (h : ∀ i k, i < m → k < n → ¬ Beyond e (a + i * pitch + k * e.cont / 8)) : tileBad e a pitch m n = none := by
  unfold tileBad
  rw [List.findSome?_eq_none_iff]
  intro i hi
  rw [Option.map_eq_none_iff, List.find?_eq_none]
  intro k hk
  have := h i k (by simpa using hi) (by simpa using hk)
  unfold Beyond at this
  exact fun hc => this (of_decide_eq_true hc)

theorem done_iff (r : Run) : r.done = r.m ↔ ∀ i, i < r.m → r.count i = r.nch := by
  unfold Run.done
  have : (List.filter (fun i => r.count i == r.nch) (List.range r.m)).length = r.m ↔ (List.filter (fun i => r.count i == r.nch) (List.range r.m)).length = (List.range r.m).length := by rw [List.length_range]
  rw [this, List.length_filter_eq_length_iff]
  simp

end Sys2Proof.Laws
end

