-- ==== Sys2Proof/Laws/Units.lean ====
section
/-! SUPPORT.  Lemmas for the statements about engine starts, mappings, quotas, spawns and the system registers. -/

open Sys2Proof Sys2Proof.Machine Sys2Proof.Claims

namespace Sys2Proof.Laws

theorem bits_field (x hi lo : Nat) : bits x hi lo = field x lo (hi + 1 - lo) := rfl

theorem sgn_eq {w x : Nat} (h : x < 2 ^ w) : readInt true w x = signedOf w x := readInt_typed true h

theorem half_eq (ws : List Nat) (i : Nat) : half ws i = field (ws.getD (i / 2) 0) (32 * (i % 2)) 32 := rfl

theorem half_lt (ws : List Nat) (i : Nat) : half ws i < 2 ^ 32 := Nat.mod_lt _ (by omega)

theorem viewFields (ws : List Nat) (rank : Nat) (dst : Bool) (h : viewOk ws (readView ws) rank dst = true) : ViewFields ws (readView ws) := by
  have h0 : bits (ws.getD 0 0) 63 28 = 0 := by
    unfold viewOk at h
    simp only [Bool.and_eq_true, beq_iff_eq] at h
    exact h.1.1.1.1.1.1.1.1.1.1
  refine ⟨rfl, rfl, ?_, ?_, h0, fun hw => sgn_eq hw, rfl, ?_⟩
  · unfold readView; simp [bits, field]
  · unfold readView; simp [bits, field]
  · intro k hk
    unfold readView
    simp only [List.getElem?_map, List.getElem?_range hk, Option.map_some]
    refine ⟨?_, ?_, fun hw => ?_⟩
    · rw [half_eq, show (4 + k) / 2 = 2 + k / 2 by omega, show (4 + k) % 2 = k % 2 by omega]
    · unfold sgn32; rw [sgn_eq (half_lt _ _), half_eq, show (10 + k) / 2 = 5 + k / 2 by omega, show (10 + k) % 2 = k % 2 by omega]
    · unfold sgn64; rw [sgn_eq hw]

theorem descFields (ws : List Nat) (d : CopyDesc) (h : readDesc ws = some d) :
    let w (i : Nat) : Nat := ws.getD i 0
    d.rank = field (w 2) 32 3 + 1 ∧ d.rank ≤ 5 ∧ d.nbw = field (w 2) 40 16 ∧ d.bmap = w 3 ∧ w 3 % 8 = 0 ∧ (∀ k, k < 5 → d.box[k]? = some (field (w (k / 2)) (32 * (k % 2)) 32))
    ∧ (∀ k x, d.box[k]? = some x → if k < d.rank then 1 ≤ x ∧ x < 2 ^ 31 else x = 0)
    ∧ ViewFields ((ws.drop 4).take 14) d.src ∧ ViewFields ((ws.drop 18).take 14) d.dst ∧ d.src.esz = d.dst.esz := by
  unfold readDesc at h
  dsimp only at h
  split at h
  · next hc =>
    simp only [Bool.and_eq_true, Bool.or_eq_true, beq_iff_eq, bne_iff_ne, decide_eq_true_eq, List.all_eq_true] at hc
    obtain ⟨⟨⟨⟨⟨⟨⟨⟨⟨⟨c1, c2⟩, c3⟩, c4⟩, c5⟩, c6⟩, c7⟩, c8⟩, c9⟩, c10⟩, c11⟩ := hc
    cases h
    refine ⟨rfl, c1, rfl, rfl, c4, ?_, ?_, viewFields _ _ _ c8, viewFields _ _ _ c9, c10⟩
    · intro k hk
      simp only [List.getElem?_map, List.getElem?_range hk, Option.map_some]; rw [half_eq]
    · intro k x hx
      dsimp only at hx ⊢
      split
      · next hk =>
        apply c6 x
        have : (((List.range 5).map (half ws)).take (bits (ws.getD 2 0) 34 32 + 1))[k]? = some x := by
          rw [List.getElem?_take, if_pos hk]; exact hx
        exact List.mem_of_getElem? this
      · next hk =>
        apply c7 x
        have : (((List.range 5).map (half ws)).drop (bits (ws.getD 2 0) 34 32 + 1))[k - (bits (ws.getD 2 0) 34 32 + 1)]? = some x := by
          rw [List.getElem?_drop]
          rw [show bits (ws.getD 2 0) 34 32 + 1 + (k - (bits (ws.getD 2 0) 34 32 + 1)) = k by omega]; exact hx
        exact List.mem_of_getElem? this
  · cases h

theorem readLE_lt (m : List Host.Cell) : ∀ (n a : Nat), readLE m a n < 256 ^ n := by
  intro n; induction n with
  | zero => intro a; simp [readLE]
  | succ n ih =>
    intro a
    have := (byteAt m a).isLt
    have := ih (a + 1)
    simp only [readLE, Nat.pow_succ]; omega

theorem word8_lt (m : List Host.Cell) (a i : Nat) : word8 m a i < 2 ^ 64 := by
  have := readLE_lt m 8 (a + 8 * i); unfold word8; omega

theorem putWord_mem (s : State) (a v : Nat) : (putWord s a v).mem = putBytes s.mem (cellsOf a 8 v) ∧ (putWord s a v).insts = s.insts := ⟨rfl, rfl⟩

theorem putWord_same (s : State) (a v : Nat) (hv : v < 2 ^ 64) : readLE (putWord s a v).mem a 8 = v := by
  rw [(putWord_mem s a v).1, readLE_cellsOf]; exact Nat.mod_eq_of_lt (by omega)

theorem putWord_other (s : State) (a v x n : Nat) (h : x + n ≤ a ∨ a + 8 ≤ x) : readLE (putWord s a v).mem x n = readLE s.mem x n := by
  rw [(putWord_mem s a v).1]
  apply readLE_putBytes_other
  intro c hc
  have := mem_cellsOf hc
  omega

theorem putWord_byte (s : State) (a v x : Nat) (h : x < a ∨ a + 8 ≤ x) : byteAt (putWord s a v).mem x = byteAt s.mem x := by
  rw [(putWord_mem s a v).1]
  apply byteAt_putBytes_other
  intro c hc
  have := mem_cellsOf hc
  omega

def told (status : Nat) (t : Tensor) (v : Val) : Prop :=
    let buf := if t.sel = 0 then t.buf0 else t.buf1
    ∀ k, k < 16 → slotOf v k = ([status, buf, buf / 2 ^ 32, t.version, t.sel, if t.shopen then 1 else 0].map (BitVec.ofNat 32))[k]?

theorem told_map (status : Nat) (t : Tensor) : told status t (mapVal status t) := by
  unfold told
  intro buf k hk
  unfold mapVal
  rw [slotOf_firstSlots _ _ hk]
  cases t.shopen <;> rfl

theorem named_read {s : State} {w : BitVec 4} {c : Colour} {tid : Nat} {t : Tensor} (h : namedTensor s w c tid = .ok t) : t = readTensor s.mem t.addr ∧ t.sel < 2 ∧ t.version < 2 ^ 32 ∧ (t.shopen = true ↔ field (word8 s.mem t.addr 0) 42 1 = 1) := by
  unfold namedTensor at h
  cases ha : tensorAddr s w c tid with
  | none => rw [ha] at h; cases h
  | some a =>
    rw [ha] at h
    have h' : (if (!tensorOk s.mem (readTensor s.mem a) tid) = true then Except.error { cause := .illegalEncoding, detail := 8 }
      else match colourEntry s w c with
        | some (_, k) => if k = (readTensor s.mem a).key then .ok (readTensor s.mem a) else .error (fail .permission)
        | none => .error (fail .permission)) = Except.ok t := h
    by_cases hc : (!tensorOk s.mem (readTensor s.mem a) tid) = true
    · rw [if_pos hc] at h'; cases h'
    · rw [if_neg hc] at h'
      have : readTensor s.mem a = t := by
        cases hk : colourEntry s w c with
        | none => rw [hk] at h'; cases h'
        | some k =>
          rw [hk] at h'
          simp only at h'
          by_cases hq : k.2 = (readTensor s.mem a).key
          · rw [if_pos hq] at h'; exact Except.ok.inj h'
          · rw [if_neg hq] at h'; cases h'
      subst this
      refine ⟨rfl, Nat.mod_lt _ (by decide), Nat.mod_lt _ (by decide), ?_⟩
      simp only [readTensor]; rw [beq_iff_eq]; rfl

/-- SHDW's step. -/
theorem shadow_spec (s : State) (t : Tensor) (buf : Nat) (hb : buf < 2 ^ 64) (n2 : t.sel < 2) (n4 : t.shopen = true ↔ field (word8 s.mem t.addr 0) 42 1 = 1) (hs0 : t.shopen = false) :
    ∃ u, shadowStep s t buf = (u, 0) ∧ u.insts = s.insts ∧ word8 u.mem t.addr (if t.sel = 0 then 3 else 2) = buf
      ∧ word8 u.mem t.addr 0 = word8 s.mem t.addr 0 + 2 ^ 42 ∧ word8 u.mem t.addr 1 = word8 s.mem t.addr 1
      ∧ (readTensor u.mem t.addr).shopen = true ∧ ∀ a, a < t.addr ∨ t.addr + 64 ≤ a → byteAt u.mem a = byteAt s.mem a := by
  have hw0 : field (word8 s.mem t.addr 0) 42 1 = 0 := by
    have : field (word8 s.mem t.addr 0) 42 1 ≠ 1 := fun h => by rw [n4.2 h] at hs0; cases hs0
    unfold field at *; omega
  have hws : withShopen (word8 s.mem t.addr 0) true = word8 s.mem t.addr 0 + 2 ^ 42 := by
    unfold withShopen; rw [bits_field, hw0]; rfl
  have hlt : word8 s.mem t.addr 0 + 2 ^ 42 < 2 ^ 64 := by
    have := word8_lt s.mem t.addr 0
    unfold field at hw0; omega
  generalize hx : word8 s.mem t.addr 0 + 2 ^ 42 = X at *
  generalize hp : t.addr + 16 + 8 * (1 - t.sel) = A at *
  have hA : t.addr + 8 * (if t.sel = 0 then 3 else 2) = A := by split <;> omega
  have e0 : readLE (putWord (putWord s A buf) t.addr X).mem t.addr 8 = X := putWord_same _ _ _ hlt
  refine ⟨putWord (putWord s A buf) t.addr X, ?_, rfl, ?_, (by show readLE _ (t.addr + 8 * 0) 8 = _; rw [Nat.mul_zero, show t.addr + 0 = t.addr from rfl, e0]; first | done | exact hx.symm), ?_, ?_, ?_⟩
  · unfold shadowStep; rw [if_neg (by rw [hs0]; exact Bool.false_ne_true), hws, hp]
  · unfold word8
    rw [hA, putWord_other _ _ _ _ _ (by omega)]
    exact putWord_same _ _ _ hb
  · unfold word8
    rw [putWord_other _ _ _ _ _ (by omega), putWord_other _ _ _ _ _ (by omega)]
  · unfold readTensor word8
    dsimp only
    rw [Nat.mul_zero, show t.addr + 0 = t.addr from rfl, e0, bits_field, beq_iff_eq]
    unfold field at hw0 ⊢
    omega
  · intro a ha
    rw [putWord_byte _ _ _ _ (by omega), putWord_byte _ _ _ _ (by omega)]

theorem publish_spec (s : State) (t : Tensor) (n2 : t.sel < 2) (n3 : t.version < 2 ^ 32) (n4 : t.shopen = true ↔ field (word8 s.mem t.addr 0) 42 1 = 1) (hs : t.shopen = true) (hv : t.version ≠ 2 ^ 32 - 1) :
    ∃ u, publishStep s t = (u, 0) ∧ u.insts = s.insts ∧ word8 u.mem t.addr 0 = word8 s.mem t.addr 0 - 2 ^ 42 ∧ word8 u.mem t.addr 1 = (t.version + 1) * 2 ^ 32 + (1 - t.sel)
      ∧ (readTensor u.mem t.addr).version = t.version + 1 ∧ (readTensor u.mem t.addr).sel = 1 - t.sel ∧ (readTensor u.mem t.addr).shopen = false
      ∧ ∀ a, a < t.addr ∨ t.addr + 64 ≤ a → byteAt u.mem a = byteAt s.mem a := by
  have hw0 : field (word8 s.mem t.addr 0) 42 1 = 1 := n4.1 hs
  have hws : withShopen (word8 s.mem t.addr 0) false = word8 s.mem t.addr 0 - 2 ^ 42 := by
    unfold withShopen; rw [bits_field, hw0, Nat.one_mul, if_neg Bool.false_ne_true]; exact Nat.add_zero _
  have hlt := word8_lt s.mem t.addr 0
  have hl1 : (t.version + 1) * 2 ^ 32 + (1 - t.sel) < 2 ^ 64 := by
    have : t.version + 1 < 2 ^ 32 := by omega
    omega
  generalize hx : word8 s.mem t.addr 0 - 2 ^ 42 = X at *
  generalize hp : (t.version + 1) * 2 ^ 32 + (1 - t.sel) = Y at *
  have e0 : readLE (putWord (putWord s (t.addr + 8) Y) t.addr X).mem t.addr 8 = X := putWord_same _ _ _ (by omega)
  have e1 : readLE (putWord (putWord s (t.addr + 8) Y) t.addr X).mem (t.addr + 8) 8 = Y := by
    rw [putWord_other _ _ _ _ _ (by omega)]; exact putWord_same _ _ _ hl1
  have z0 : t.addr + 8 * 0 = t.addr := by omega
  have z1 : t.addr + 8 * 1 = t.addr + 8 := by omega
  refine ⟨putWord (putWord s (t.addr + 8) Y) t.addr X, ?_, rfl, by unfold word8; rw [z0, e0], by unfold word8; rw [z1, e1], ?_, ?_, ?_, ?_⟩
  · unfold publishStep
    have hv' : ¬ t.version = 0xFFFFFFFF := by omega
    rw [if_neg (by rw [hs]; decide), if_neg hv', hws, hp]
  · unfold readTensor word8
    dsimp only
    rw [z1, e1, bits_field]; unfold field; omega
  · unfold readTensor word8
    dsimp only
    rw [z1, e1, bits_field]; unfold field; omega
  · unfold readTensor word8
    dsimp only
    rw [z0, e0, bits_field, beq_eq_false_iff_ne]
    unfold field at hw0 ⊢; omega
  · intro a ha
    rw [putWord_byte _ _ _ _ (by omega), putWord_byte _ _ _ _ (by omega)]

theorem mapM_slots {xs : List Val} {l : List Slot} (h : xs.map (fun v => slotOf v 0) = l.map some) : xs.mapM (fun v => slotOf v 0) = some l := by
  induction xs generalizing l with
  | nil => cases l with
    | nil => rfl
    | cons _ _ => simp at h
  | cons x xs ih =>
    cases l with
    | nil => simp at h
    | cons y l =>
      simp only [List.map_cons, List.cons.injEq] at h
      rw [List.mapM_cons, h.1, ih h.2]; rfl

theorem mapM_none {xs : List Val} (h : ∃ x, x ∈ xs ∧ slotOf x 0 = none) : xs.mapM (fun v => slotOf v 0) = none := by
  induction xs with
  | nil => obtain ⟨x, hx, _⟩ := h; cases hx
  | cons y xs ih =>
    obtain ⟨x, hx, h0⟩ := h
    rw [List.mapM_cons]
    cases hy : slotOf y 0 with
    | none => rfl
    | some z =>
      rcases List.mem_cons.1 hx with rfl | hx
      · rw [hy] at h0; cases h0
      · rw [ih ⟨x, hx, h0⟩]; rfl

theorem focus_of {h : Hdr} {c : Nat → Val} {s : State} {b : BInst} {xs : List Val} (hf : Fires h c s b xs) : focusInst s = some b := hf.exec.1

theorem quotaOp_fires {h : Hdr} {p : PayQ} {s : State} {b : BInst} {xs : List Val} {l : List Slot} (sup : Bool) (body : BInst → List Slot → State)
    (hf : QuotaFires h p s b xs l) : quotaOp h p s sup body = .next (if (sup && !inSupervisor s b) = true then raise s b (fail .permission) else body b l) := by
  unfold quotaOp
  rw [withOps_fires _ _ hf.fires, mapM_slots hf.slots]

theorem quotaOp_none {h : Hdr} {p : PayQ} {s : State} {b : BInst} {xs : List Val} (sup : Bool) (body : BInst → List Slot → State)
    (hf : Fires h (k0Const p.k0) s b xs) (hx : ∃ x, x ∈ xs ∧ slotOf x 0 = none) : quotaOp h p s sup body = .next (delivered h 0 s b 1 noVal false) := by
  unfold quotaOp
  rw [withOps_fires _ _ hf, mapM_none hx]
  rfl

theorem sup_true {s : State} {b : BInst} (h : supervisorOf (nodeCtx s b.node) = some b.node.n) : inSupervisor s b = true := by
  unfold inSupervisor; rw [h]; exact beq_self_eq_true _

theorem sup_false {s : State} {b : BInst} (h : supervisorOf (nodeCtx s b.node) ≠ some b.node.n) : inSupervisor s b = false := by
  unfold inSupervisor; exact beq_eq_false_iff_ne.2 h

theorem quota_perm {h : Hdr} {p : PayQ} {s : State} {b : BInst} {xs : List Val} {l : List Slot} (body : BInst → List Slot → State)
    (hf : QuotaFires h p s b xs l) (hs : supervisorOf (nodeCtx s b.node) ≠ some b.node.n) : quotaOp h p s true body = .next (raise s b { cause := .permission }) := by
  rw [quotaOp_fires true body hf, sup_false hs]; rfl

theorem quota_sup {h : Hdr} {p : PayQ} {s : State} {b : BInst} {xs : List Val} {l : List Slot} (body : BInst → List Slot → State)
    (hf : QuotaFires h p s b xs l) (hs : supervisorOf (nodeCtx s b.node) = some b.node.n) : quotaOp h p s true body = .next (body b l) := by
  rw [quotaOp_fires true body hf, sup_true hs]; rfl

theorem quota_any {h : Hdr} {p : PayQ} {s : State} {b : BInst} {xs : List Val} {l : List Slot} (body : BInst → List Slot → State)
    (hf : QuotaFires h p s b xs l) : quotaOp h p s false body = .next (body b l) := by
  rw [quotaOp_fires false body hf]; rfl

theorem predZero_first (x : Slot) (l : List Slot) : predZero (firstSlots (x :: l)) = decide (x = 0) := by
  have h := slotOf_firstSlots (x :: l) 0 (by omega)
  unfold predZero
  unfold slotOf at h
  by_cases hv : (firstSlots (x :: l)).valid.getLsbD 0 = true
  · rw [if_pos hv] at h
    have hx : slotBits (firstSlots (x :: l)) 0 = x := by
      have := Option.some.inj h; exact this
    rw [hv, hx, Bool.true_and]
    by_cases hz : x = 0
    · subst hz; simp
    · rw [decide_eq_false hz]; exact beq_eq_false_iff_ne.2 hz
  · rw [if_neg hv] at h; cases h

theorem defer_eq (s : State) (h : Hdr) (b : BInst) (a : LateAct) : defer s h b a = putInst s (defers h b a) := rfl

theorem words_first (l : List Nat) : Words (firstSlots (l.map (BitVec.ofNat 32))) l := fun _ hk => slotOf_firstSlots _ _ hk

/-- The commit of an instance with changes to make makes the first of them. -/
theorem commit_late {s : State} {b : BInst} {e : Exit} (hb : BeginsCommit s b e) (hl : b.later ≠ []) :
    exec (.instanceCommit b.cell) s = .next (lateAct (putInst s (begunAs s b e)) (begunAs s b e)) := by
  show execInstanceCommit b.cell s = _
  unfold execInstanceCommit
  rw [hb.oldest]
  dsimp only
  rw [hb.quiet]
  dsimp only
  have := hb.done
  rw [if_neg (by rintro (h | h); exact hb.started h; exact h hb.answered), if_neg (by omega), hb.exit]
  dsimp only
  rw [if_pos hl]; rfl

theorem colourArg_some {c : Slot} (h : c.toNat < 2 ^ 8) : colourArg c = some (BitVec.ofNat 8 c.toNat) := by
  unfold colourArg; rw [if_pos (by omega)]

theorem colourArg_none {c : Slot} (h : 2 ^ 8 ≤ c.toNat) : colourArg c = none := by
  unfold colourArg; rw [if_neg (by omega)]

theorem quotaIn_put (c : Ctx) (l : List (Nat × Nat × Colour × Nat × Nat)) (n q : Nat) (col : Colour) (m sl : Nat) :
    quotaIn { c with quotas := putQuota l n q col m sl } n q col = (m, sl) := by
  unfold quotaIn putQuota
  dsimp only
  rw [List.find?_append]
  have : (l.filter (fun x => !(x.1 == n && x.2.1 == q && x.2.2.1 == col))).find? (fun x => x.1 == n && x.2.1 == q && x.2.2.1 == col) = none := by
    rw [List.find?_eq_none]; intro x hx
    have := (List.mem_filter.1 hx).2
    rw [Bool.not_eq_true'] at this; rw [this]; exact Bool.false_ne_true
  rw [this]
  simp

theorem findc {α : Type} (p q : α → Bool) (l : List α) (h : ∀ x, p x = q x) : l.find? p = l.find? q := by
  rw [funext h]

theorem quotaIn_put_other (c : Ctx) (l : List (Nat × Nat × Colour × Nat × Nat)) (hl : c.quotas = l) (n q : Nat) (col : Colour) (m sl : Nat) (n' q' : Nat) (c' : Colour)
    (ne : ¬ (n' = n ∧ q' = q ∧ c' = col)) : quotaIn { c with quotas := putQuota l n q col m sl } n' q' c' = quotaIn c n' q' c' := by
  unfold quotaIn putQuota
  dsimp only
  rw [List.find?_append, hl]
  have e : (l.filter (fun x => !(x.1 == n && x.2.1 == q && x.2.2.1 == col))).find? (fun x => x.1 == n' && x.2.1 == q' && x.2.2.1 == c') = l.find? (fun x => x.1 == n' && x.2.1 == q' && x.2.2.1 == c') := by
    rw [List.find?_filter]
    apply findc
    intro x
    by_cases hx : (x.1 == n' && x.2.1 == q' && x.2.2.1 == c') = true
    · have hx' := hx
      simp only [Bool.and_eq_true, beq_iff_eq] at hx
      have : ¬ (x.1 = n ∧ x.2.1 = q ∧ x.2.2.1 = col) := by rw [hx.1.1, hx.1.2, hx.2]; exact ne
      simp only [hx', Bool.not_eq_true', Bool.and_eq_false_iff, beq_eq_false_iff_ne, and_true, decide_eq_true_eq]
      by_cases a1 : x.1 = n
      · by_cases a2 : x.2.1 = q
        · exact .inr (fun a3 => this ⟨a1, a2, a3⟩)
        · exact .inl (.inr a2)
      · exact .inl (.inl a1)
    · rw [Bool.not_eq_true] at hx; rw [hx]; simp
  rw [e]
  have e2 : [(n, q, col, m, sl)].find? (fun x => x.1 == n' && x.2.1 == q' && x.2.2.1 == c') = none := by
    rw [List.find?_eq_none]; intro x hx hc
    rw [List.mem_singleton.1 hx] at hc
    simp only [Bool.and_eq_true, beq_iff_eq] at hc
    exact ne ⟨hc.1.1.symm, hc.1.2.symm, hc.2.symm⟩
  rw [e2, Option.or_none]

theorem foldl_sum2 (l : List (Nat × Nat)) (a : Nat) : l.foldl (fun a e => a + e.2) a = a + (l.map (fun e => e.2)).sum := by
  induction l generalizing a with
  | nil => rfl
  | cons x l ih => rw [List.foldl_cons, ih, List.map_cons, List.sum_cons]; omega

/-- what startWaiting keeps -/
structure Keeps (s t : State) : Prop where
  insts : t.insts = s.insts
  ptoks : t.ptoks = s.ptoks
  purging : ∀ w x, (ctxOf t w x).purging = (ctxOf s w x).purging ∧ (ctxOf t w x).purgeq = (ctxOf s w x).purgeq

theorem Keeps.refl (s : State) : Keeps s s := ⟨rfl, rfl, fun _ _ => ⟨rfl, rfl⟩⟩

theorem Keeps.trans {s t u : State} (a : Keeps s t) (b : Keeps t u) : Keeps s u :=
  ⟨b.insts.trans a.insts, b.ptoks.trans a.ptoks, fun w x => ⟨(b.purging w x).1.trans (a.purging w x).1, (b.purging w x).2.trans (a.purging w x).2⟩⟩

theorem ctxOf_setCtx (s : State) (w w' : BitVec 4) (x x' : Context) (c : Ctx) :
    ctxOf (setCtx s w x c) w' x' = if ctxKey w' x' = ctxKey w x then c else ctxOf s w' x' := by
  unfold ctxOf setCtx
  by_cases h : ctxKey w' x' = ctxKey w x
  · rw [if_pos h, h]; exact mget_mput_same (d := ({} : Ctx)) _ _ _
  · rw [if_neg h]; exact mget_mput_other (d := ({} : Ctx)) _ h _

theorem keeps_setCtx (s : State) (w : BitVec 4) (x : Context) (c : Ctx) (h : c.purging = (ctxOf s w x).purging ∧ c.purgeq = (ctxOf s w x).purgeq) : Keeps s (setCtx s w x c) := by
  refine ⟨rfl, rfl, fun w' x' => ?_⟩
  rw [ctxOf_setCtx]
  split
  · next hk => rw [h.1, h.2]; unfold ctxOf; rw [hk]; exact ⟨rfl, rfl⟩
  · exact ⟨rfl, rfl⟩

theorem keeps_emit (s : State) (n : NodeId) (port : Nat) (t : Token) (o : Option Colour) : Keeps s (emitTok s n port t o) := by
  unfold emitTok; dsimp only; split <;> exact ⟨rfl, rfl, fun _ _ => ⟨rfl, rfl⟩⟩

theorem keeps_emits (v : Inv) : ∀ (l : List Nat) (s : State), Keeps s (emitDones v s l)
  | [], s => Keeps.refl s
  | _ :: l, _ => (keeps_emit ..).trans (keeps_emits v l _)

theorem keeps_drain (s : State) (n : NodeId) (t : Tag) : Keeps s (countDrain s n t) := by
  unfold countDrain
  dsimp only
  split
  · exact Keeps.refl s
  · split
    · exact Keeps.refl s
    · split
      · exact (keeps_setCtx s n.w n.x { nodeCtx s n with ended := (nodeCtx s n).ended + 1 } ⟨rfl, rfl⟩).trans ⟨rfl, rfl, fun _ _ => ⟨rfl, rfl⟩⟩
      · exact keeps_setCtx s n.w n.x { nodeCtx s n with ended := (nodeCtx s n).ended + 1 } ⟨rfl, rfl⟩

theorem keeps_end (s : State) (id : Nat) : Keeps s (endInv s id) := by
  unfold endInv
  dsimp only
  split
  · exact Keeps.refl s
  · split
    · exact ⟨rfl, rfl, fun _ _ => ⟨rfl, rfl⟩⟩
    · refine Keeps.trans ?_ (keeps_drain _ _ _)
      refine Keeps.trans (t := emitDones _ _ _) ?_ ⟨rfl, rfl, fun _ _ => ⟨rfl, rfl⟩⟩
      refine Keeps.trans ?_ (keeps_emits _ _ _)
      exact ⟨rfl, rfl, fun _ _ => ⟨rfl, rfl⟩⟩

theorem keeps_acq (s : State) (n : NodeId) : Keeps s (acquireNode s n) := by
  unfold acquireNode; split <;> exact ⟨rfl, rfl, fun _ _ => ⟨rfl, rfl⟩⟩

theorem keeps_nest (s : State) (p : Placed) (e : List Nat) (g : GoWait) : Keeps s (beginNest s p e g) := by
  unfold beginNest
  dsimp only
  have h1 : Keeps s (if g.acq then acquireNode s g.node else s) := by
    split
    · exact keeps_acq _ _
    · exact Keeps.refl _
  revert h1
  generalize (if g.acq then acquireNode s g.node else s) = u
  intro h1
  split
  · refine h1.trans (Keeps.trans ?_ (keeps_end _ _))
    exact ⟨rfl, rfl, fun _ _ => ⟨rfl, rfl⟩⟩
  · exact h1.trans ⟨rfl, rfl, fun _ _ => ⟨rfl, rfl⟩⟩

theorem keeps_gos (n : NodeId) (p : Placed) : ∀ (k : Nat) (s : State), Keeps s (startGos n p k s)
  | 0, s => Keeps.refl s
  | k + 1, s => by
    unfold startGos
    split
    · exact Keeps.refl s
    · split
      · exact Keeps.refl s
      · refine Keeps.trans ?_ ((keeps_nest _ _ _ _).trans (keeps_gos n p k _))
        exact ⟨rfl, rfl, fun _ _ => ⟨rfl, rfl⟩⟩

theorem keeps_wait (s : State) (n : NodeId) : Keeps s (startWaiting s n) := by
  unfold startWaiting
  split
  · split
    · exact Keeps.refl s
    · exact keeps_gos _ _ _ _
  · exact Keeps.refl s

theorem keeps_fold : ∀ (l : List NodeId) (s : State), Keeps s (l.foldl startWaiting s)
  | [], s => Keeps.refl s
  | n :: l, s => (keeps_wait s n).trans (keeps_fold l _)

theorem drop_spec (s : State) (w : BitVec 4) (x : Context) (c : Colour) :
    (∀ q, q ∈ (dropColour s w x c).1.ptoks → ofColour w x c q.at_.node q.tok.tag = false)
    ∧ (∀ y, y ∈ (dropColour s w x c).1.insts → ofColour w x c y.node y.tag = true → y.begun = true ∧ queuedPurge (ctxOf s w x) y = false) := by
  unfold dropColour
  dsimp only
  constructor
  · intro q hq
    rw [(keeps_fold _ _).ptoks] at hq
    have hq' := (List.mem_filter.1 hq).2
    rw [Bool.not_eq_true', Bool.or_eq_false_iff] at hq'
    exact hq'.1
  · intro y hy hm
    rw [(keeps_fold _ _).insts] at hy
    have hy' := (List.mem_filter.1 hy).2
    rw [hm, Bool.true_and, Bool.not_eq_true', Bool.or_eq_false_iff] at hy'
    exact ⟨by simpa using hy'.1, hy'.2⟩

theorem drop_purgeq (s : State) (w : BitVec 4) (x : Context) (c : Colour) : ∀ e, e ∈ (ctxOf (dropColour s w x c).1 w x).purgeq → e ∈ (ctxOf s w x).purgeq := by
  intro e he
  unfold dropColour at he
  dsimp only at he
  rw [((keeps_fold _ _).purging w x).2] at he
  have : ∀ (t : State) (y : Ctx) (fr : List Nat), ctxOf { setCtx t w x y with freed := fr } w x = y := fun t y fr => by
    show ctxOf (setCtx t w x y) w x = y
    rw [ctxOf_setCtx, if_pos rfl]
  rw [this] at he
  exact (List.mem_filter.1 he).1

theorem ofColour_iff {w : BitVec 4} {x : Context} {c : Colour} {n : NodeId} {t : Tag} : ofColour w x c n t = true ↔ n.w = w ∧ n.x = x ∧ t.colour = c := by
  unfold ofColour; simp [and_assoc]

theorem begin_spec (s : State) (w : BitVec 4) (x : Context) (c : Colour) (by_ : PurgeBy) :
    frozen (beginPurge s w x c by_) w x c = true ∧ (beginPurge s w x c by_).mem = s.mem
    ∧ (∀ q, q ∈ (beginPurge s w x c by_).ptoks → ¬ (q.at_.node.w = w ∧ q.at_.node.x = x ∧ q.tok.tag.colour = c))
    ∧ (∀ y, y ∈ (beginPurge s w x c by_).insts → y.node.w = w → y.node.x = x → y.tag.colour = c → y.begun = true) := by
  refine ⟨?_, beginPurge_mem .., ?_, ?_⟩
  · unfold frozen beginPurge
    dsimp only
    rw [ctxOf_setCtx, if_pos rfl]
    simp
  · intro q hq hc
    have := (drop_spec s w x c).1 q hq
    rw [ofColour_iff.2 hc] at this; cases this
  · intro y hy h1 h2 h3
    exact ((drop_spec s w x c).2 y hy (ofColour_iff.2 ⟨h1, h2, h3⟩)).1

theorem ask_waits {s : State} {w : BitVec 4} {x : Context} (c : Colour) (by_ : PurgeBy) (hp : (ctxOf s w x).purging ≠ none) :
    askPurge s w x c by_ = setCtx s w x { ctxOf s w x with purgeq := (ctxOf s w x).purgeq ++ [(c, by_)] } := by
  unfold askPurge nextPurge
  rw [ctxOf_setCtx, if_pos rfl]
  dsimp only
  split
  · next h _ => exact absurd h hp
  · rfl

theorem ask_begins {s : State} {w : BitVec 4} {x : Context} (c : Colour) (by_ : PurgeBy) (hp : (ctxOf s w x).purging = none)
    (hq : (ctxOf s w x).purgeq = []) : ∃ t, t = { s with ctxs := t.ctxs } ∧ askPurge s w x c by_ = beginPurge t w x c by_ := by
  unfold askPurge nextPurge
  rw [ctxOf_setCtx, if_pos rfl]
  dsimp only
  split
  · next h =>
    rw [hq] at h
    obtain ⟨⟨rfl, rfl⟩, rfl⟩ : (c = _ ∧ by_ = _) ∧ [] = _ := by simpa using h
    exact ⟨_, rfl, rfl⟩
  · next h => exact (h c by_ [] hp (by rw [hq]; rfl)).elim

theorem slots_first (l : List Nat) (k : Nat) (hk : k < 16) : slotOf (firstSlots (l.map (BitVec.ofNat 32))) k = (l.map (BitVec.ofNat 32))[k]? := slotOf_firstSlots _ _ hk

theorem predZero_slot (v : Val) : predZero v = decide (slotOf v 0 = some 0) := by
  unfold predZero slotOf
  cases v.valid.getLsbD 0 with
  | false => rfl
  | true =>
    rw [Bool.true_and, if_pos rfl]
    by_cases hz : slotBits v 0 = 0
    · rw [decide_eq_true (by rw [hz])]; exact beq_iff_eq.2 hz
    · rw [decide_eq_false (by simpa using hz)]; exact beq_eq_false_iff_ne.2 hz

/-- A change that is made delivers its outcome. -/
theorem late_made {s t : State} {b : BInst} {l : Late} {ls : List Late} {ws : List Nat} (hl : b.later = l :: ls)
    (hs : lateStep s b l.act = (t, some ws)) : Changes (.next (lateAct s b)) l b ls t ws := by
  refine ⟨firstSlots (ws.map (BitVec.ofNat 32)), words_first ws, ?_⟩
  unfold lateAct lateDeliv
  rw [hl]
  simp only [hs, predZero_slot]

theorem inPair64 (x : Word64) : InPair (word64 x) x := by
  intro k hk
  unfold word64
  rw [slotOf_firstSlots _ _ hk]
  match k with
  | 0 => rw [if_pos rfl]; show some _ = some _; congr 1
  | 1 => rw [if_neg (by omega), if_pos rfl]; show some _ = some _; congr 1; apply BitVec.eq_of_toNat_eq; simp [BitVec.extractLsb'_toNat, Nat.shiftRight_eq_div_pow]
  | k + 2 => rw [if_neg (by omega), if_neg (by omega)]; rfl

theorem wordDeliv_eq (h : Hdr) (x : Word64) (s : State) (b : BInst) : putInst s (wordDeliv h x b) = delivered h 0 s b 1 (word64 x) (decide (x ≠ 0)) := by
  unfold wordDeliv delivered
  have : (x != 0) = decide (x ≠ 0) := by
    by_cases h : x = 0
    · rw [h]; rfl
    · rw [decide_eq_true h]; exact bne_iff_ne.2 h
  rw [this]

theorem given_eq (h : Hdr) (k0 : BitVec 32) (x : Val) : regWord h k0 x = givenWord h k0 x := by
  unfold regWord givenWord
  split
  · congr 1
    apply BitVec.eq_of_toNat_eq
    have := k0.isLt
    simp
  · unfold slotOf
    by_cases hv : x.valid.getLsbD 0 = true
    · rw [if_pos hv, if_pos hv]
      simp only [Option.map_some]
      congr 1
      apply BitVec.eq_of_toNat_eq
      unfold pairOf slotOf
      rw [BitVec.toNat_append, ← Nat.shiftLeft_add_eq_or_of_lt (slotBits x 0).isLt, Nat.shiftLeft_eq]
      have h0 := (slotBits x 0).isLt
      have e : (slotBits x 0).toNat = (x.slots.extractLsb' (0 * 32) 32).toNat := rfl
      generalize ((if x.valid.getLsbD 1 = true then some (slotBits x 1) else none).getD 0 : Slot) = z
      have h1 := z.isLt
      rw [BitVec.toNat_ofNat, Nat.mod_eq_of_lt (by omega)]
      omega
    · rw [if_neg hv, if_neg hv]; rfl

theorem givenList (s : State) (b : BInst) (o : Option Word64) (f : Word64 → Eff) :
    (match o with | none => putInst s (advance 1 b) | some w => putInst s (advance 1 (addEff (f w) b))) = putInst s (adds b (o.toList.map f)) := by
  cases o with
  | none => unfold adds; simp [advance]
  | some w => rfl

theorem raise_some (s : State) (w : BitVec 4) (id : BitVec 32) : hasPreempt s w id = true ↔ ∃ t, findTask s w id = some t ∧ holdsCells t = true ∧ preemptCands s w t ≠ [] := by
  unfold hasPreempt
  cases h : findTask s w id with
  | none => simp
  | some t =>
    simp only [Bool.and_eq_true, Bool.not_eq_true', Option.some.injEq, List.isEmpty_eq_false_iff]
    constructor
    · intro h; exact ⟨t, rfl, h⟩
    · rintro ⟨_, rfl, h⟩; exact h

theorem word32_slots (n : Nat) (k : Nat) (hk : k < 16) : slotOf (word32 n) k = if k = 0 then some (BitVec.ofNat 32 n) else none := by
  unfold word32
  rw [slotOf_firstSlots _ _ hk]
  match k with
  | 0 => rfl
  | k + 1 => rw [if_neg (by omega)]; rfl

@[simp] theorem ownWrite_firings (s : State) (w : BitVec 4) (a : Nat) (cells : List Host.Cell) : (ownWrite s w a cells).firings = s.firings := by
  unfold ownWrite; split <;> rfl

@[simp] theorem logRecord_firings (s : State) (x : CtxId) (l : List Nat) : (logRecord s x l).firings = s.firings := by
  unfold logRecord sendVec; dsimp only; (repeat' split) <;> simp

@[simp] theorem logRecord_worlds (s : State) (x : CtxId) (l : List Nat) : (logRecord s x l).worlds = (setWorld s x.w { worldOf s x.w with fltSeq := ((worldOf s x.w).fltSeq + 1) % 2 ^ 32 }).worlds := by
  unfold logRecord sendVec; dsimp only; (repeat' split) <;> simp

theorem logRecord_seq (s : State) (x : CtxId) (l : List Nat) : (worldOf (logRecord s x l) x.w).fltSeq = ((worldOf s x.w).fltSeq + 1) % 2 ^ 32 := by
  unfold worldOf
  rw [logRecord_worlds]
  exact congrArg World.fltSeq (mget_mput_same (d := ({} : World)) _ _ _)

theorem one1 : predGeneral (word32 1) = true := (slotNonzero_pred (word32 1)).2 ⟨1, word32_slots 1 0 (by omega), by decide⟩

theorem one0 : predGeneral (word32 0) = false := by
  rw [← Bool.not_eq_true]
  intro h
  obtain ⟨w, h1, h2⟩ := (slotNonzero_pred (word32 0)).1 h
  rw [word32_slots 0 0 (by omega)] at h1
  exact h2 (Option.some.inj h1).symm

end Sys2Proof.Laws
end

