-- ==== Sys2Proof/Laws/Bytecode.lean ====
section
/-! SUPPORT.  Lemmas for the statements about logit and policy bytecodes. -/

open Sys2Proof Sys2Proof.Machine Sys2Proof.Claims

namespace Sys2Proof.Laws

theorem logit_puts {i : Instr} {d : BitVec 3} {v f : LogitRun → Slot} (h : ∀ s, exec i s = logitOp s (fun r => lput r d (f r))) (e : ∀ r, f r = v r) : LogitPuts i d v := by
  intro s r hr
  rw [h s]; unfold logitOp; rw [hr]; simp only; unfold lput; rw [e]

theorem lnz (x : Slot) : lnonzero x = true ↔ field x.toNat 0 31 ≠ 0 := by
  unfold lnonzero field; rw [bne_iff_ne]; simp

theorem ite_iff {p : Prop} [Decidable p] {b : Bool} (h : b = true ↔ p) (x y : Slot) : (if b then x else y) = if p then x else y := by
  by_cases hp : p
  · rw [if_pos hp, if_pos (h.2 hp)]
  · rw [if_neg hp, if_neg (fun h' => hp (h.1 h'))]

theorem mget_mput_if {α : Type} [DecidableEq α] (d : α) (m : FMap α) (k j : Nat) (v : α) : mget d (mput d m k v) j = if j = k then v else mget d m j := by
  by_cases h : j = k
  · rw [if_pos h, h]; exact mget_mput_same (d := d) _ _ _
  · rw [if_neg h]; exact mget_mput_other (d := d) _ h _

theorem fneg32 (x : Slot) : lcode (fnegCode fp32 x.toNat) = x ^^^ 0x80000000 := by
  unfold lcode fnegCode
  rw [if_neg (by decide)]
  apply BitVec.eq_of_toNat_eq
  have e : signBit fp32 = 2 ^ 31 := by decide
  have hx := x.isLt
  rw [e, show fp32.width = 32 from by decide, Nat.mod_eq_of_lt hx, BitVec.toNat_xor, BitVec.toNat_ofNat]
  have := Nat.xor_lt_two_pow hx (show 2 ^ 31 < 2 ^ 32 by omega)
  rw [Nat.mod_eq_of_lt this]; rfl

theorem fabs32 (x : Slot) : lcode (fabsCode fp32 x.toNat) = x &&& 0x7FFFFFFF := by
  unfold lcode fabsCode
  rw [if_neg (by decide)]
  apply BitVec.eq_of_toNat_eq
  have e : signBit fp32 = 2 ^ 31 := by decide
  have hx := x.isLt
  rw [e, BitVec.toNat_and, BitVec.toNat_ofNat, Nat.mod_eq_of_lt (by omega)]
  exact (Nat.and_two_pow_sub_one_eq_mod x.toNat 31).symm

theorem pol_puts {i : Instr} {k : BitVec 4} {v f : Decision → Word64} (h : ∀ s, exec i s = polSet s k f) (e : ∀ (d : Decision) (n : Nat), f { d with count := n } = v d) : PolicyPuts i k v := by
  intro s w d hd
  have hl : d.live = true := by
    unfold Decision.live policyBudget
    rw [hd.open_]; simp [hd.budget]
  rw [h s]
  unfold polSet polStep
  rw [hd.focus]
  simp only
  rw [hd.here]
  simp only
  rw [if_pos hl]
  unfold goto qput withDecision
  dsimp only
  rw [e d]

theorem pol_bin {i : Instr} {k a b : BitVec 4} {v : Decision → Word64} {g : Word64 → Word64 → Word64} (h : ∀ s, exec i s = polBin s k a b g)
    (e : ∀ (d : Decision) (_ : Nat), g (qreg d a) (qreg d b) = v d) : PolicyPuts i k v := pol_puts (f := fun d => g (qreg d a) (qreg d b)) h e

theorem pol_goes {i : Instr} {pc : Decision → Nat} {f : Decision → Decision} (h : ∀ s, exec i s = polStep s f)
    (e : ∀ (d : Decision) (n : Nat), f { d with count := n } = { d with count := n, pc := pc d }) : PolicyGoes i pc := by
  intro s w d hd
  have hl : d.live = true := by
    unfold Decision.live policyBudget
    rw [hd.open_]; simp [hd.budget]
  rw [h s]
  unfold polStep
  rw [hd.focus]
  simp only
  rw [hd.here]
  simp only
  rw [if_pos hl, e d]
  rfl

theorem xAdd (k a b : BitVec 4) (s : State) : exec (.polAdd k a b) s = execPolAdd k a b s := rfl

theorem xSub (k a b : BitVec 4) (s : State) : exec (.polSub k a b) s = execPolSub k a b s := rfl

theorem xMul (k a b : BitVec 4) (s : State) : exec (.polMul k a b) s = execPolMul k a b s := rfl

theorem xAnd (k a b : BitVec 4) (s : State) : exec (.polAnd k a b) s = execPolAnd k a b s := rfl

theorem xOr (k a b : BitVec 4) (s : State) : exec (.polOr k a b) s = execPolOr k a b s := rfl

theorem xXor (k a b : BitVec 4) (s : State) : exec (.polXor k a b) s = execPolXor k a b s := rfl

theorem xShl (k a b : BitVec 4) (s : State) : exec (.polShl k a b) s = execPolShl k a b s := rfl

theorem xShr (k a b : BitVec 4) (s : State) : exec (.polShr k a b) s = execPolShr k a b s := rfl

theorem xMin (k a b : BitVec 4) (s : State) : exec (.polMin k a b) s = execPolMin k a b s := rfl

theorem xMax (k a b : BitVec 4) (s : State) : exec (.polMax k a b) s = execPolMax k a b s := rfl

theorem xSltu (k a b : BitVec 4) (s : State) : exec (.polSltu k a b) s = execPolSltu k a b s := rfl

theorem xSeq (k a b : BitVec 4) (s : State) : exec (.polSeq k a b) s = execPolSeq k a b s := rfl

theorem xCsel (k a b : BitVec 4) (s : State) : exec (.polCsel k a b) s = execPolCsel k a b s := rfl

theorem xLdi (k : BitVec 4) (imm : BitVec 16) (s : State) : exec (.polLdi k imm) s = execPolLdi k imm s := rfl

theorem xLdis (k : BitVec 4) (imm : BitVec 16) (s : State) : exec (.polLdis k imm) s = execPolLdis k imm s := rfl

theorem xAddi (k a : BitVec 4) (imm : BitVec 16) (s : State) : exec (.polAddi k a imm) s = execPolAddi k a imm s := rfl

theorem xAndi (k a : BitVec 4) (imm : BitVec 16) (s : State) : exec (.polAndi k a imm) s = execPolAndi k a imm s := rfl

theorem xShli (k a : BitVec 4) (imm : BitVec 16) (s : State) : exec (.polShli k a imm) s = execPolShli k a imm s := rfl

theorem xShri (k a : BitVec 4) (imm : BitVec 16) (s : State) : exec (.polShri k a imm) s = execPolShri k a imm s := rfl

theorem xRdc (k a : BitVec 4) (imm : BitVec 16) (s : State) : exec (.polRdc k a imm) s = execPolRdc k a imm s := rfl

theorem xRdq (k a : BitVec 4) (imm : BitVec 16) (s : State) : exec (.polRdq k a imm) s = execPolRdq k a imm s := rfl

theorem xRdr (k a : BitVec 4) (imm : BitVec 16) (s : State) : exec (.polRdr k a imm) s = execPolRdr k a imm s := rfl

theorem xRdw (k : BitVec 4) (imm : BitVec 16) (s : State) : exec (.polRdw k imm) s = execPolRdw k imm s := rfl

theorem xRdd (k : BitVec 4) (imm : BitVec 16) (s : State) : exec (.polRdd k imm) s = execPolRdd k imm s := rfl

theorem xBrz (k : BitVec 4) (imm : BitVec 16) (s : State) : exec (.polBrz k imm) s = execPolBrz k imm s := rfl

theorem xBrnz (k : BitVec 4) (imm : BitVec 16) (s : State) : exec (.polBrnz k imm) s = execPolBrnz k imm s := rfl

theorem xJmp (imm : BitVec 16) (s : State) : exec (.polJmp imm) s = execPolJmp imm s := rfl

theorem w64 (x : Word64) : BitVec.ofNat 64 x.toNat = x := by simp

theorem immN (i : BitVec 16) : immWord i = BitVec.ofNat 64 i.toNat := by
  unfold immWord; apply BitVec.eq_of_toNat_eq; have := i.isLt; simp

theorem or_low (x : Word64) (i : BitVec 16) : (x <<< 16 ||| immWord i) = BitVec.ofNat 64 (x.toNat * 2 ^ 16 + i.toNat) := by
  apply BitVec.eq_of_toNat_eq
  have hi := i.isLt
  rw [immN, BitVec.toNat_or, BitVec.toNat_shiftLeft, BitVec.toNat_ofNat, BitVec.toNat_ofNat, Nat.shiftLeft_eq]
  have e : x.toNat * 2 ^ 16 % 2 ^ 64 = (x.toNat % 2 ^ 48) <<< 16 := by rw [Nat.shiftLeft_eq]; omega
  rw [e, Nat.mod_eq_of_lt (show i.toNat < 2 ^ 64 by omega), ← Nat.shiftLeft_add_eq_or_of_lt hi, Nat.shiftLeft_eq]
  omega

theorem best_find {α : Type} (p : α → Nat) (l : List α) :
    (l = [] → bestOf (fun a b => decide (p b < p a)) l = none)
    ∧ ∀ (i : Nat) c, l[i]? = some c → (∀ (j : Nat) y, l[j]? = some y → p y ≤ p c ∧ (p y = p c → i ≤ j)) → bestOf (fun a b => decide (p b < p a)) l = some c := by
  constructor
  · intro h; rw [h]; rfl
  · induction l with
    | nil => intro i c h; simp at h
    | cons a l ih =>
      intro i c hi hm
      unfold bestOf
      cases i with
      | zero =>
        have hc : a = c := by simpa using hi
        subst hc
        cases hb : bestOf (fun a b => decide (p b < p a)) l with
        | none => rfl
        | some b =>
          simp only
          rw [if_neg]
          have hmem : ∃ j : Nat, l[j]? = some b := by
            have : b ∈ l := by
              clear ih hm hi
              induction l generalizing b with
              | nil => cases hb
              | cons x l ih2 =>
                unfold bestOf at hb
                cases hq : bestOf (fun a b => decide (p b < p a)) l with
                | none => rw [hq] at hb; simp only [Option.some.injEq] at hb; rw [← hb]; exact List.mem_cons_self
                | some z =>
                  rw [hq] at hb
                  simp only at hb
                  split at hb
                  · rw [← Option.some.inj hb]; exact List.mem_cons_of_mem _ (ih2 z hq)
                  · rw [← Option.some.inj hb]; exact List.mem_cons_self
            exact List.mem_iff_getElem?.1 this
          obtain ⟨j, hj⟩ := hmem
          have := (hm (j + 1) b (by simpa using hj)).1
          simp; omega
      | succ i =>
        have hi' : l[i]? = some c := by simpa using hi
        rw [ih i c hi' (fun j y hy => by
          have := hm (j + 1) y (by simpa using hy)
          exact ⟨this.1, fun h => by have := this.2 h; omega⟩)]
        simp only
        have h0 := hm 0 a (by simp)
        rw [if_pos]
        have : p a ≠ p c := fun h => by have := h0.2 h; omega
        simp; omega

theorem fallback_ok (d : Decision) : Fallback d (fallbackOf d) := by
  have hb := best_find (fun (c : Cand) => c.fields.getD 3 0) d.cands
  constructor
  · intro i c hi hm
    have e : bestCand d.cands = some c := hb.2 i c hi hm
    unfold fallbackOf
    constructor <;> intro hk <;> rw [hk, e] <;> rfl
  · intro h
    unfold fallbackOf
    rcases h with h | h
    · split
      · next hk _ => omega
      · next hk _ => omega
      · rfl
    · have e : bestCand d.cands = none := hb.1 h
      rw [e]
      split
      · next h1 => cases h1
      · next h1 => cases h1
      · rfl

theorem pol_ends {i : Instr} {f g : Decision → Option Choice} (h : ∀ s, exec i s = polOutcome s g) (e : ∀ d, g d = f d) : PolicyEnds i f := by
  intro s w d hd
  have hl : d.live = true := by
    unfold Decision.live policyBudget
    rw [hd.open_]; simp [hd.budget]
  have he := h s
  unfold polOutcome at he
  rw [hd.focus] at he
  simp only [hd.here] at he
  rw [if_pos hl, e d] at he
  have hw : ∀ (t : State) (y : World), worldOf (setWorld t w y) w = y := fun t y => mget_mput_same (d := ({} : World)) _ _ _
  refine ⟨_, he, rfl, ?_, ?_⟩
  · intro o ho; rw [hw, ho]; rfl
  · intro ho
    rw [hw, ho]
    refine ⟨⟨_, fallback_ok d, rfl⟩, ?_⟩
    show (mget {} (mupd {} (worldOf s w).policies d.slot (fun p => { p with inval := min (p.inval + 1) 0xFFFF })) d.slot).inval = _
    unfold mupd
    rw [mget_mput_same]

end Sys2Proof.Laws
end

