-- ==== Sys2Proof/Laws/Tokens.lean ====
section
/-! SUPPORT.  Lemmas for the statements about tokens, cells and invocations. -/

open Sys2Proof Sys2Proof.Machine Sys2Proof.Claims

namespace Sys2Proof.Laws

theorem putAt_timer (s : State) (p : PortId) (ch : Option ChanId) (t : Token) (h : Option (Nat × Nat)) : ∃ y, y ∈ (putAtPort s p ch t h).timers ∧ y.at_ = p ∧ y.colour = t.tag.colour := by
  unfold putAtPort
  dsimp only
  split
  · next hh =>
    rw [List.any_eq_true] at hh
    obtain ⟨y, h1, h2⟩ := hh
    unfold StallTimer.covers at h2
    rw [Bool.and_eq_true, beq_iff_eq, beq_iff_eq] at h2
    exact ⟨y, h1, h2.1, h2.2⟩
  · exact ⟨_, List.mem_append_right _ (List.mem_singleton.2 rfl), rfl, rfl⟩

theorem payload_iff (t : Token) : isPayload t = true ↔ t.kind = .data ∨ t.kind = .scale := by
  unfold isPayload; rw [Bool.or_eq_true, beq_iff_eq, beq_iff_eq]

theorem fold_return (l : List BInst) (s : State) : (l.foldl returnInst s).flights = s.flights ∧ (l.foldl returnInst s).ptoks = s.ptoks :=
  ⟨foldl_flights returnInst (fun _ _ => by simp [returnInst]) l s, foldl_ptoks returnInst (fun _ _ => by unfold returnInst returnTag; split <;> rfl) l s⟩

theorem logOnly_keep (s : State) (o : Origin) (r : Report) : (logOnly s o r).flights = s.flights ∧ (logOnly s o r).ptoks = s.ptoks ∧ (logOnly s o r).timers = s.timers := by
  unfold logOnly; simp

theorem limitCtx_put (s : State) (x : CtxId) (c : Ctx) : ctxOf (setCtx s x.w x.x c) x.w x.x = c := by rw [ctxOf_setCtx, if_pos rfl]

theorem worldOf_setWorld (s : State) (w : BitVec 4) (x : World) : worldOf (setWorld s w x) w = x := mget_mput_same (d := ({} : World)) _ _ _

theorem best_unique {α : Type} (better : α → α → Bool) (l : List α) (x : α) (hx : x ∈ l) (h : ∀ y, y ∈ l → y ≠ x → better x y = true ∧ better y x = false) :
    bestOf better l = some x := by
  induction l with
  | nil => cases hx
  | cons a l ih =>
    unfold bestOf
    by_cases hm : x ∈ l
    · rw [ih hm (fun y hy => h y (List.mem_cons_of_mem _ hy))]
      simp only
      by_cases ha : a = x
      · subst ha; split <;> rfl
      · rw [if_pos (h a List.mem_cons_self ha).1]
    · have ha : x = a := by
        rcases List.mem_cons.1 hx with h | h
        · exact h
        · exact absurd h hm
      subst ha
      cases hb : bestOf better l with
      | none => rfl
      | some b =>
        simp only
        have hbm : b ∈ l := by
          clear ih hx h hm
          induction l generalizing b with
          | nil => cases hb
          | cons c l ih =>
            unfold bestOf at hb
            cases hq : bestOf better l with
            | none => rw [hq] at hb; rw [← Option.some.inj hb]; exact List.mem_cons_self
            | some d =>
              rw [hq] at hb
              simp only at hb
              split at hb
              · rw [← Option.some.inj hb]; exact List.mem_cons_of_mem _ (ih d hq)
              · rw [← Option.some.inj hb]; exact List.mem_cons_self
        have hne : b ≠ x := fun h => hm (h ▸ hbm)
        rw [if_neg (by rw [(h b (List.mem_cons_of_mem _ hbm) hne).2]; exact Bool.false_ne_true)]

theorem filterMap_none {α β : Type} (f : α → Option β) (l : List α) (h : ∀ a, a ∈ l → f a = none) : l.filterMap f = [] := by
  rw [List.filterMap_eq_nil_iff]; exact h

theorem homeWrites_via (o : Origin) : ∀ (l : List HStore) (s : State), (∀ st, st ∈ l → st.via = none) →
    (homeWrites o s l).mem = l.foldl (fun m st => putBytes m st.bytes) s.mem ∧ (homeWrites o s l).insts = s.insts
  | [], s, _ => ⟨rfl, rfl⟩
  | st :: l, s, h => by
    have hv := h st List.mem_cons_self
    have hp : plainBytes s st = (st.bytes, false) := by
      unfold plainBytes
      have : st.bytes.filter (fun p => st.via.isNone || typeAt s p.1 == 0) = st.bytes := by
        rw [List.filter_eq_self]; intro a _; rw [hv]; rfl
      simp only [this]
      congr 1
      simp
    have hw : (homeWrite s o st).mem = putBytes s.mem st.bytes ∧ (homeWrite s o st).insts = s.insts := by
      unfold homeWrite
      simp only [hv, Option.bind_none, hp, Bool.false_eq_true, if_false, and_self]
    have ih := homeWrites_via o l (homeWrite s o st) (fun x hx => h x (List.mem_cons_of_mem _ hx))
    unfold homeWrites
    rw [ih.1, ih.2, hw.1, hw.2]
    exact ⟨rfl, rfl⟩

theorem performRels_stores (o : Origin) (id : Nat) (s : State) : ∀ (sts pre : List HStore), performRels o id s pre (sts.map .store) = (s, pre ++ sts, [])
  | [], pre => by simp [performRels]
  | st :: l, pre => by
    show performRels o id s (pre ++ [st]) (l.map .store) = _
    rw [performRels_stores o id s l (pre ++ [st])]; simp

theorem noEngine (sts : List HStore) : (sts.map Eff.store).any Eff.isEngine = false := by
  rw [List.any_eq_false]; intro e he
  obtain ⟨st, _, rfl⟩ := List.mem_map.1 he
  exact Bool.false_ne_true

theorem findInv_upd (s : State) (id : Nat) (f : Inv → Inv) (hf : ∀ v, (f v).id = v.id) (v : Inv) (h : findInv s id = some v) :
    findInv { s with invs := updFirst (fun v => v.id == id) f s.invs } id = some (f v) := by
  unfold findInv at h ⊢
  dsimp only
  rw [find_updFirst (fun v => v.id == id) f (fun a ha => by rw [beq_iff_eq] at ha ⊢; rw [hf, ha]), h]; rfl

theorem applyFmt_gen (s : State) (b : BInst) (i : Nat) (v : Word64) : (nodeCtx (applyFmt s b i v) b.node).gen = (nodeCtx s b.node).gen + 1
    ∧ (applyFmt s b i v).fmtOwn = s.fmtOwn ++ [(({ w := b.node.w, x := b.node.x } : CtxId), b.cell, (nodeCtx s b.node).gen + 1)]
    ∧ (applyFmt s b i v).fmtReach = s.fmtReach := by
  unfold applyFmt
  refine ⟨?_, rfl, rfl⟩
  show (ctxOf (setCtx s b.node.w b.node.x _) b.node.w b.node.x).gen = _
  rw [ctxOf_setCtx, if_pos rfl]

theorem beginInv_keep (s : State) (f : Firing) : (beginInv s f).firings = s.firings ∧ (beginInv s f).insts = s.insts := by
  unfold beginInv; split <;> exact ⟨rfl, rfl⟩

theorem beginInv_colour (s : State) (f : Firing) : (beginInv s f).lastColour = s.lastColour := by
  unfold beginInv; split <;> rfl

theorem fetchBad_none (s : State) (b : BInst) (hx : ∀ x, x ∈ slotsOf b.code → ∀ u, entryBad u b x = none) : fetchBad s b = none := by
  unfold fetchBad
  rw [List.findSome?_eq_none_iff]
  intro x hm
  rw [hx x hm s]; rfl

theorem startInst_plain (s : State) (b : BInst) (hc : b.code ≠ []) (hx : ∀ x, x ∈ slotsOf b.code → ∀ u, entryBad u b x = none) (hs : blockSpawns b.code = false) :
    (startInst s b).firings = s.firings ∧ (startInst s b).insts = s.insts.filter (fun x => !x.isAt b.cell b.seq) ++ [b] := by
  unfold startInst
  dsimp only
  rw [hs]
  simp only [Bool.false_eq_true, if_false]
  unfold fetchCheck
  rw [if_neg hc, fetchBad_none _ _ hx]
  exact ⟨rfl, rfl⟩

theorem raise_colour (s : State) (b : BInst) (r : Report) : (raise s b r).lastColour = s.lastColour := by
  unfold raise
  (repeat' split) <;> simp

theorem fetchCheck_lastColour (s : State) (b : BInst) : (fetchCheck s b).lastColour = s.lastColour := by
  unfold fetchCheck
  split
  · exact raise_colour _ _ _
  · split
    · exact raise_colour _ _ _
    · rfl

theorem startInst_colour (s : State) (b : BInst) : (startInst s b).lastColour = s.lastColour := by
  unfold startInst
  dsimp only
  split
  · rw [fetchCheck_lastColour]; rfl
  · rw [fetchCheck_lastColour]; rfl

theorem unuse_keep (l : List Firing) : ∀ s : State, (l.foldl (fun st f => unuse st f.cell f.seq) s).nests = s.nests ∧ (l.foldl (fun st f => unuse st f.cell f.seq) s).insts = s.insts := by
  induction l with
  | nil => intro s; exact ⟨rfl, rfl⟩
  | cons f l ih => intro s; exact ⟨(ih _).1, (ih _).2⟩

theorem haltRun_busy (s : State) (r : NestRun) (b : BInst) (h1 : b ∈ s.insts) (h2 : b.inv = r.inv) :
    (haltRun s r).nests = s.nests.map (fun x => if x.inv = r.inv then { x with halted := true } else x) ∧ (haltRun s r).insts = s.insts := by
  unfold haltRun
  dsimp only
  rw [if_pos]
  · refine ⟨?_, ?_⟩
    · show List.map _ _ = _
      rw [(unuse_keep _ _).1]
    · exact (unuse_keep _ _).2
  · rw [(unuse_keep _ _).2, Bool.or_eq_true]
    left
    rw [List.any_eq_true]
    exact ⟨b, h1, beq_iff_eq.2 h2⟩

theorem startGos_busy (n : NodeId) (p : Placed) (k : Nat) (s : State) (h : ∃ r, r ∈ s.nests ∧ r.node = n) : startGos n p k s = s := by
  cases k with
  | zero => rfl
  | succ k =>
    unfold startGos
    rw [if_pos]
    rw [List.any_eq_true]
    obtain ⟨r, h1, h2⟩ := h
    exact ⟨r, h1, beq_iff_eq.2 h2⟩

theorem startWaiting_busy (s : State) (n : NodeId) (h : ∃ r, r ∈ s.nests ∧ r.node = n) : startWaiting s n = s := by
  unfold startWaiting
  split
  · split
    · rfl
    · exact startGos_busy _ _ _ _ h
  · rfl

theorem beginNest_spec (s : State) (p : Placed) (e : List Nat) (g : GoWait) (hg : g.halted = false) : ∃ (r : NestRun) (v : Machine.Inv),
    (beginNest s p e g).nests = s.nests ++ [r] ∧ (beginNest s p e g).goWaits = s.goWaits ∧ r.node = g.node ∧ r.tag = g.tag ∧ r.inv = s.nextInv ∧ r.next = 0 ∧ r.halted = false
    ∧ (beginNest s p e g).invs = s.invs ++ [v] ∧ v.id = s.nextInv ∧ v.tag = g.tag ∧ v.nest = true ∧ v.held = [] ∧ True := by
  unfold beginNest
  dsimp only
  rw [hg, if_neg Bool.false_ne_true]
  have hq : ∀ u : State, u = (if g.acq = true then acquireNode s g.node else s) → u.nests = s.nests ∧ u.goWaits = s.goWaits ∧ u.invs = s.invs := by
    intro u hu
    rw [hu]
    split
    · unfold acquireNode; split <;> exact ⟨rfl, rfl, rfl⟩
    · exact ⟨rfl, rfl, rfl⟩
  obtain ⟨u, hu⟩ : ∃ u, u = (if g.acq = true then acquireNode s g.node else s) := ⟨_, rfl⟩
  obtain ⟨q1, q2, q3⟩ := hq u hu
  rw [← hu]
  exact ⟨_, _, congrArg (· ++ _) q1, q2, rfl, rfl, rfl, rfl, rfl, congrArg (· ++ _) q3, rfl, rfl, rfl, rfl, trivial⟩

theorem emitInst_keep (b : BInst) : ∀ (l : List Emit) (s : State), (emitInst b s l).insts = s.insts ∧ (emitInst b s l).mem = s.mem ∧ (emitInst b s l).ptoks = s.ptoks ∧ (emitInst b s l).ctxs = s.ctxs
  | [], s => ⟨rfl, rfl, rfl, rfl⟩
  | e :: l, s => by
    unfold emitInst
    dsimp only
    have ih := emitInst_keep b l (if e.tok.kind = .data then countEmitted (emitTok s b.node e.port e.tok (some b.tag.colour)) b.inv e.port 1 else emitTok s b.node e.port e.tok (some b.tag.colour))
    have h : ∀ u : State, u = (if e.tok.kind = .data then countEmitted (emitTok s b.node e.port e.tok (some b.tag.colour)) b.inv e.port 1 else emitTok s b.node e.port e.tok (some b.tag.colour)) →
        u.insts = s.insts ∧ u.mem = s.mem ∧ u.ptoks = s.ptoks ∧ u.ctxs = s.ctxs := by
      intro u hu
      rw [hu]
      have hk := keeps_emit s b.node e.port e.tok (some b.tag.colour)
      have hm := emitTok_mem s b.node e.port e.tok (some b.tag.colour)
      have hx : (emitTok s b.node e.port e.tok (some b.tag.colour)).ctxs = s.ctxs := by unfold emitTok; dsimp only; split <;> rfl
      split
      · exact ⟨hk.insts, hm, hk.ptoks, hx⟩
      · exact ⟨hk.insts, hm, hk.ptoks, hx⟩
    have h' := h _ rfl
    exact ⟨ih.1.trans h'.1, ih.2.1.trans h'.2.1, ih.2.2.1.trans h'.2.2.1, ih.2.2.2.trans h'.2.2.2⟩

theorem redrained_none (s : State) {b : BInst} (h : b.effs = []) : redrained s b = b := by unfold redrained; rw [h]; rfl

theorem finish_plain (s : State) (b : BInst) (h11 : b.effs = []) (h12 : (nodeCtx s b.node).halted = false) :
    let t := finishInst s b .fin
    t.insts = s.insts.filter (fun x => !x.isAt b.cell b.seq) ∧ t.mem = s.mem
    ∧ t.ptoks = s.ptoks.filter (fun x => !x.usedBy { s with insts := s.insts.filter (fun x => !x.isAt b.cell b.seq) } b.cell b.seq) := by
  intro t
  show (finishInst s b .fin).insts = _ ∧ (finishInst s b .fin).mem = _ ∧ (finishInst s b .fin).ptoks = _
  unfold finishInst
  rw [redrained_none s h11]
  extract_lets b1 ends s1 s2 s3 s4
  have k1 : s1.insts = s.insts.filter (fun x => !x.isAt b.cell b.seq) ∧ s1.mem = s.mem ∧ s1.ctxs = s.ctxs
      ∧ s1.ptoks = s.ptoks.filter (fun x => !x.usedBy { s with insts := s.insts.filter (fun x => !x.isAt b.cell b.seq) } b.cell b.seq) := by
    refine ⟨rfl, rfl, rfl, ?_⟩
    show List.filter _ _ = _
    congr 1
    funext x
    simp [b1]
  have k2 : s2.insts = s1.insts ∧ s2.mem = s1.mem ∧ s2.ptoks = s1.ptoks ∧ s2.ctxs = s1.ctxs := emitInst_keep b (sortBy (fun x y => decide (x.slot < y.slot)) b.emits) s1
  have e3 : s3 = s2 := by show b.effs.foldl (applyEff b) s2 = s2; rw [h11]; rfl
  have k4 : s4.insts = s3.insts ∧ s4.mem = s3.mem ∧ s4.ptoks = s3.ptoks ∧ s4.ctxs = s3.ctxs := ⟨rfl, rfl, rfl, rfl⟩
  rw [e3] at k4
  have hh : (nodeCtx s4 b.node).halted = false := by
    have : nodeCtx s4 b.node = nodeCtx s b.node := by
      unfold nodeCtx ctxOf; rw [k4.2.2.2, k2.2.2.2, k1.2.2.1]
    rw [this]; exact h12
  have base : s4.insts = s.insts.filter (fun x => !x.isAt b.cell b.seq) ∧ s4.mem = s.mem ∧ s4.ptoks = s.ptoks.filter (fun x => !x.usedBy { s with insts := s.insts.filter (fun x => !x.isAt b.cell b.seq) } b.cell b.seq) :=
    ⟨k4.1.trans (k2.1.trans k1.1), k4.2.1.trans (k2.2.1.trans k1.2.1), k4.2.2.1.trans (k2.2.2.1.trans k1.2.2.2)⟩
  rw [if_neg (by show ¬ (nodeCtx s4 b.node).halted = true; rw [hh]; exact Bool.false_ne_true)]
  split
  · exact base
  split
  · have ke := keeps_end s4 b.inv
    have me := endInv_mem s4 b.inv
    split
    · have kw := keeps_wait (endInv s4 b.inv) b.node
      exact ⟨kw.insts.trans (ke.insts.trans base.1), (startWaiting_mem _ _).trans (me.trans base.2.1), kw.ptoks.trans (ke.ptoks.trans base.2.2)⟩
    · exact ⟨ke.insts.trans base.1, me.trans base.2.1, ke.ptoks.trans base.2.2⟩
  · exact base

end Sys2Proof.Laws
end

