-- ==== Sys2Proof/Laws/EngineOps.lean ====
section
/-! SUPPORT.  Lemmas for the statements about engine operations. -/

open Sys2Proof Sys2Proof.Machine Sys2Proof.Claims

namespace Sys2Proof.Laws

theorem cells_zip (a n x : Nat) : cellsOf a n x = (bytesAt a n).zip (leBytes (bytesAt a n).length x) := by
  have : ∀ (n a x : Nat), cellsOf a n x = (bytesAt a n).zip (leBytes n x) := by
    intro n
    induction n with
    | zero => intro a x; rfl
    | succ n ih =>
      intro a x
      simp only [cellsOf, bytesAt, List.range_succ_eq_map, List.map_cons, List.map_map, leBytes, List.zip_cons_cons, Nat.add_zero]
      rw [ih]
      congr 2
      simp only [bytesAt]
      apply List.map_congr_left; intro i _; simp only [Function.comp]; omega
  rw [this]; simp [bytesAt]

theorem bytesAt_nodup (a n : Nat) : (bytesAt a n).Nodup := range_map_nodup n (fun i j h => by omega)

theorem readLE_number (s : State) : ∀ (n a : Nat), readLE s.mem a n = numberAt s (bytesAt a n) := by
  intro n
  induction n with
  | zero => intro a; rfl
  | succ n ih =>
    intro a
    simp only [readLE, numberAt, bytesAt, List.range_succ_eq_map, List.map_cons, List.map_map, List.foldr_cons, Nat.add_zero]
    rw [ih]
    congr 2
    simp only [numberAt, bytesAt]
    congr 1
    apply List.map_congr_left; intro i _; simp only [Function.comp]; omega

theorem written_cells {s t : State} {a n x : Nat} (h : t.mem = putBytes s.mem (cellsOf a n x)) : Written s t (bytesAt a n) x :=
  written_put (bytesAt_nodup a n) (by rw [h, cells_zip])

theorem wtrans {s t u : State} (a : WritesOnly s t) (b : WritesOnly t u) : WritesOnly s u := by
  unfold WritesOnly at *; rw [b, a]

theorem engTouch_eq (s : State) (sp : Bool) (pa : Nat) : engTouch s sp pa = { s with dome := (engTouch s sp pa).dome, monitors := (engTouch s sp pa).monitors } := by
  unfold engTouch domeAccess domeKeep dropLine; dsimp only; (repeat' split) <;> rfl

theorem engTouch_only (s : State) (sp : Bool) (pa : Nat) : WritesOnly s (engTouch s sp pa) ∧ (engTouch s sp pa).mem = s.mem := by
  rw [engTouch_eq]; exact ⟨rfl, rfl⟩

theorem walk_domes (s : State) (d : FMap (Option Retention)) (m : List Monitor) (w : BitVec 4) (va : Nat) : ∀ n t,
    walkFrom { s with dome := d, monitors := m } w va n t = walkFrom s w va n t
  | 0, _ => rfl
  | n + 1, t => by
    unfold walkFrom
    simp only [walk_domes s d m w va n]
    rfl

/-- What an access asks does not look at the lines of the Domes or at the monitors. -/
theorem access_domes (s : State) (d : FMap (Option Retention)) (m : List Monitor) (ho : Option Nat) (w : BitVec 4) (c : Colour) (va n : Nat) (rd wr : Bool) :
    access { s with dome := d, monitors := m } ho w c va n rd wr = access s ho w c va n rd wr := by
  have h : ∀ root, leafFor { s with dome := d, monitors := m } ho w c va root = leafFor s ho w c va root := by
    intro root
    have hc : ∀ sp, walkCached { s with dome := d, monitors := m } sp w c va root = walkCached s sp w c va root := fun sp => walk_domes s d m w va _ _
    unfold leafFor
    simp only [hc, walk_domes]
    rfl
  have ht : Machine.translate { s with dome := d, monitors := m } ho w c va rd wr = Machine.translate s ho w c va rd wr := by
    unfold Machine.translate; simp only [h]; rfl
  unfold access
  rw [ht]; rfl

theorem engAddr_touch (s : State) (sp' : Bool) (pa : Nat) (o : EngOp) (sp : Bool) (a : Int) (n : Nat) (rd wr : Bool) :
    engAddr (engTouch s sp' pa) o sp a n rd wr = engAddr s o sp a n rd wr := by
  unfold engAddr
  rw [engTouch_eq, access_domes]

theorem engStore_cases {s t : State} {o : EngOp} {sp : Bool} {a : Int} {n v : Nat} (h : engStore s o sp a n v = .ok t) : WritesOnly s t := by
  unfold engStore at h
  (repeat' split at h) <;> cases h
  · rfl
  · exact wtrans (engTouch_only _ _ _).1 rfl

theorem copyPoint_cases {s t : State} {o : EngOp} {d : CopyDesc} {fixed : Option Nat} {off k : Nat} (h : copyPoint s o d fixed off k = .ok t) : WritesOnly s t := by
  unfold copyPoint at h
  dsimp only at h
  split at h
  · cases h; rfl
  · split at h
    · cases h
    · next s1 x hv =>
      have h1 : WritesOnly s s1 := by
        split at hv
        · cases hq : engAddr s o d.src.sp (viewAddr d.src d.rank none (pointAt d.box k)) (2 ^ d.src.esz) true false with
          | error e => rw [hq] at hv; cases hv
          | ok pa => rw [hq] at hv; cases hv; exact (engTouch_only _ _ _).1
        · cases hv; rfl
      split at h
      · cases h; exact h1
      · cases hq : engStore s1 o d.dst.sp (viewAddr d.dst d.rank fixed (pointAt d.box k) + off) (2 ^ d.src.esz) x with
        | error e => rw [hq] at h; cases h
        | ok u => rw [hq] at h; cases h; exact wtrans h1 (engStore_cases hq)

theorem copyPoints_cases {o : EngOp} {d : CopyDesc} {fixed : Option Nat} {off : Nat} : ∀ (l : List Nat) {s t : State}, copyPoints o d fixed off s l = .ok t → WritesOnly s t := by
  intro l
  induction l with
  | nil => intro s t h; cases h; rfl
  | cons k l ih =>
    intro s t h
    unfold copyPoints at h
    split at h
    · exact ih h
    · split at h
      · cases h
      · next hq => exact wtrans (copyPoint_cases hq) (ih h)

theorem collWrite_cases (o : EngOp) (c : CollDesc) (f : Nat → Nat) : ∀ (n i : Nat) (s : State), WritesOnly s (collWrite o c f n i s).1 := by
  intro n
  induction n with
  | zero => intro i s; rfl
  | succ n ih =>
    intro i s
    unfold collWrite
    dsimp only
    split
    · rfl
    · next hq => exact wtrans (engStore_cases hq) (ih _ _)

theorem engStore_ok {s : State} {o : EngOp} {sp : Bool} {a : Int} {n v pa : Nat} (h1 : engAddr s o sp a n false true = .ok pa)
    (h2 : sp = true ∨ ∀ i, i < n → typeAt s (pa + i) = 0) : ∃ t, engStore s o sp a n v = .ok t ∧ WritesOnly s t ∧ Written s t (bytesAt pa n) v := by
  unfold engStore
  rw [h1]
  dsimp only
  by_cases hs : sp = true
  · rw [if_pos hs]; exact ⟨_, rfl, rfl, written_cells rfl⟩
  · rw [if_neg hs, if_neg]
    · refine ⟨_, rfl, wtrans (engTouch_only _ _ _).1 rfl, written_cells ?_⟩
      show putBytes (engTouch s sp pa).mem _ = _
      rw [(engTouch_only _ _ _).2]
    · intro hc
      obtain ⟨c, hc, ht⟩ := List.any_eq_true.1 hc
      have hm := mem_cellsOf hc
      rcases h2 with h2 | h2
      · exact hs h2
      · have := h2 (c.1 - pa) (by omega)
        rw [show pa + (c.1 - pa) = c.1 by omega] at this
        simp [this] at ht

theorem emitTok_outq (s : State) (n : NodeId) (q : Nat) (t : Token) : (emitTok s n q t none).outq = s.outq ++ queues s n q t ∧ (emitTok s n q t none).evqs = s.evqs := by
  unfold emitTok queues
  dsimp only
  split <;> simp [*]

theorem reportOp_spec {s u : State} {o : EngOp} {v : Val} (h1 : u.outq = s.outq) (h2 : u.evqs = s.evqs) (h3 : u.ctxs = s.ctxs) (h4 : u.now = s.now) :
    Reported s (reportOp u o v) o v := by
  have hq : ∀ n q t, queues u n q t = queues s n q t := by
    intro n q t; unfold queues chansFrom placedOf nodeCtx ctxOf; rw [h3, h4]
  unfold reportOp
  constructor
  · cases o.port with
    | none => simp [postEv, h1]
    | some q => simp only; rw [(emitTok_outq _ _ _ _).1, h1, hq]; rfl
  · cases o.port with
    | none => simp only [postEv, h2]
    | some q => simp only; rw [(emitTok_outq _ _ _ _).2, h2]; simp

theorem reportOp_rest (s : State) (o : EngOp) (v : Val) : (reportOp s o v).mem = s.mem ∧ (reportOp s o v).ops = s.ops ∧ (reportOp s o v).peers = s.peers ∧ (reportOp s o v).worlds = s.worlds := by
  unfold reportOp
  cases o.port with
  | none => exact ⟨rfl, rfl, rfl, rfl⟩
  | some q => simp only; unfold emitTok; dsimp only; split <;> exact ⟨rfl, rfl, rfl, rfl⟩

theorem slotOf_valOf' (f : Nat → Option Slot) (k : Nat) (hk : k < 16) : slotOf (valOf f) k = f k := slotOf_valOf f k hk

theorem shows_completion0 (n : Nat) : Shows (completionVal n none []) [some n] := by
  intro k hk
  unfold completionVal
  rw [slotOf_valOf' _ _ hk]
  have : k = 0 ∨ k = 1 ∨ k = 2 ∨ k = 3 ∨ k = 4 ∨ k = 5 ∨ k = 6 ∨ k = 7 ∨ k = 8 ∨ k = 9 ∨ k = 10 ∨ k = 11 ∨ k = 12 ∨ k = 13 ∨ k = 14 ∨ k = 15 := by omega
  rcases this with rfl|rfl|rfl|rfl|rfl|rfl|rfl|rfl|rfl|rfl|rfl|rfl|rfl|rfl|rfl|rfl <;> simp

theorem shows_coll0 (n : Nat) (c : CollDesc) : Shows (completionVal n none (collSlots c)) [some n, none, none, none, some c.rank, some c.p] := by
  intro k hk
  unfold completionVal collSlots
  rw [slotOf_valOf' _ _ hk]
  have : k = 0 ∨ k = 1 ∨ k = 2 ∨ k = 3 ∨ k = 4 ∨ k = 5 ∨ k = 6 ∨ k = 7 ∨ k = 8 ∨ k = 9 ∨ k = 10 ∨ k = 11 ∨ k = 12 ∨ k = 13 ∨ k = 14 ∨ k = 15 := by omega
  rcases this with rfl|rfl|rfl|rfl|rfl|rfl|rfl|rfl|rfl|rfl|rfl|rfl|rfl|rfl|rfl|rfl <;> simp

theorem shows_fault (r : Report) (pts : List (Option Nat)) (hp : pts.length ≤ 5) : Shows (completionVal 1 (some r) pts) ([some 1, some r.cause.code, some r.addr, some (r.addr / 2 ^ 32)] ++ pts) := by
  intro k hk
  unfold completionVal
  rw [slotOf_valOf' _ _ hk]
  have : k = 0 ∨ k = 1 ∨ k = 2 ∨ k = 3 ∨ k = 4 ∨ k = 5 ∨ k = 6 ∨ k = 7 ∨ k = 8 ∨ k = 9 ∨ k = 10 ∨ k = 11 ∨ k = 12 ∨ k = 13 ∨ k = 14 ∨ k = 15 := by omega
  rcases this with rfl|rfl|rfl|rfl|rfl|rfl|rfl|rfl|rfl|rfl|rfl|rfl|rfl|rfl|rfl|rfl <;> simp
  all_goals (rw [List.getElem?_eq_none (by omega)]; rfl)

theorem wrap32_ofInt (x : Int) : BitVec.ofInt 32 x = BitVec.ofNat 32 (wrap32 x) := by
  apply BitVec.eq_of_toNat_eq
  unfold wrap32
  rw [BitVec.toNat_ofInt, BitVec.toNat_ofNat, Nat.mod_eq_of_lt (by omega)]; rfl

theorem shows_ready (o : EngOp) (d : CopyDesc) (st : StreamSt) : Shows (readyVal o d st none)
    [some (cellX o.home + cellY o.home * 2 ^ 7 + st.place * 2 ^ 14 + st.epoch * 2 ^ 17), some st.next, some (st.next % st.ns), some (wrap32 (d.dst.base + (st.next % st.ns * st.slotb : Nat))), some (if st.next + 1 = d.box.getD (tileDim d) 0 then 1 else 0)] := by
  intro k hk
  unfold readyVal tileCount
  dsimp only
  rw [slotOf_firstSlots _ _ hk]
  have : k = 0 ∨ k = 1 ∨ k = 2 ∨ k = 3 ∨ k = 4 ∨ k = 5 ∨ k = 6 ∨ k = 7 ∨ k = 8 ∨ k = 9 ∨ k = 10 ∨ k = 11 ∨ k = 12 ∨ k = 13 ∨ k = 14 ∨ k = 15 := by omega
  rcases this with rfl|rfl|rfl|rfl|rfl|rfl|rfl|rfl|rfl|rfl|rfl|rfl|rfl|rfl|rfl|rfl <;> simp [wrap32_ofInt]

theorem shows_readyF (o : EngOp) (d : CopyDesc) (st : StreamSt) (r : Report) : Shows (readyVal o d st (some r))
    ([some (cellX o.home + cellY o.home * 2 ^ 7 + st.place * 2 ^ 14 + st.epoch * 2 ^ 17), some st.next, some (st.next % st.ns), some (wrap32 (d.dst.base + (st.next % st.ns * st.slotb : Nat))), some 3] ++ [some r.cause.code, some r.addr, some (r.addr / 2 ^ 32)]) := by
  intro k hk
  unfold readyVal tileCount
  dsimp only
  rw [slotOf_valOf' _ _ hk]
  simp only [slotOf_firstSlots _ _ hk]
  have : k = 0 ∨ k = 1 ∨ k = 2 ∨ k = 3 ∨ k = 4 ∨ k = 5 ∨ k = 6 ∨ k = 7 ∨ k = 8 ∨ k = 9 ∨ k = 10 ∨ k = 11 ∨ k = 12 ∨ k = 13 ∨ k = 14 ∨ k = 15 := by omega
  rcases this with rfl|rfl|rfl|rfl|rfl|rfl|rfl|rfl|rfl|rfl|rfl|rfl|rfl|rfl|rfl|rfl <;> simp [wrap32_ofInt]

theorem findOp_id {s : State} {id : Nat} {o : EngOp} (h : findOp s id = some o) : o.id = id := by
  have := List.find?_some h
  simpa using this

theorem deliverRecord_seq (s : State) (o : Origin) (r : Report) : Recorded s (deliverRecord s o r false) o.ctx.w := by
  unfold Recorded deliverRecord
  dsimp only
  rw [if_neg (by simp), logRecord_seq]
  unfold sendExc; split <;> rfl

theorem endColl_spec (s u : State) (o : EngOp) (c : CollDesc) (n : Nat) (hw : WritesOnly s u) (id : Nat) (hid : o.id = id) :
    Reported s (endColl u o c n none) o (completionVal n none (collSlots c)) ∧ (endColl u o c n none).mem = u.mem ∧ (endColl u o c n none).ops = s.ops.filter (fun x => x.id != id)
    ∧ (endColl u o c n none).peers = s.peers.filter (fun p => !(p.desc.group == c.group && p.desc.seq == c.seq)) := by
  unfold endColl
  dsimp only
  have hr := reportOp_rest ({ endOp u o with peers := u.peers.filter (fun p => !(p.desc.group == c.group && p.desc.seq == c.seq)) } : State) o (completionVal n none (collSlots c))
  unfold WritesOnly at hw
  refine ⟨reportOp_spec ?_ ?_ ?_ ?_, hr.1, ?_, ?_⟩
  · rw [hw]; rfl
  · rw [hw]; rfl
  · rw [hw]; rfl
  · rw [hw]; rfl
  · rw [hr.2.1]; unfold endOp; dsimp only; rw [hid, hw]
  · rw [hr.2.2.1, hw]

theorem devPut_other (s : State) (a n v x i : Nat) (h : x + 8 * i + 8 ≤ a ∨ a + n ≤ x + 8 * i) : word8 (devPut s a n v).mem x i = word8 s.mem x i := by
  unfold word8 devPut devWrite
  dsimp only
  apply readLE_putBytes_other
  intro c hc
  have := mem_cellsOf hc
  omega

theorem devPut_same (s : State) (a v x i : Nat) (h : x + 8 * i = a) : word8 (devPut s a 8 v).mem x i = v % 2 ^ 64 := by
  unfold word8 devPut devWrite
  dsimp only
  rw [h]; exact readLE_cellsOf ..

theorem puts_spec (base : Nat) : ∀ (l : List Nat) (n : Nat) (s : State),
    let t := (enumFrom n l).foldl (fun st x => devPut st (base + 8 * x.1) 8 x.2) s
    (∀ i x, l[i]? = some x → word8 t.mem base (n + i) = x % 2 ^ 64) ∧ (∀ x i, (x + 8 * i + 8 ≤ base + 8 * n ∨ base + 8 * (n + l.length) ≤ x + 8 * i) → word8 t.mem x i = word8 s.mem x i)
    ∧ t.evqs = s.evqs ∧ t.outputs = s.outputs := by
  intro l
  induction l with
  | nil => intro n s; exact ⟨fun i x h => by simp at h, fun _ _ _ => rfl, rfl, rfl⟩
  | cons v l ih =>
    intro n s
    simp only [enumFrom, List.foldl_cons]
    obtain ⟨h1, h2, h3, h4⟩ := ih (n + 1) (devPut s (base + 8 * n) 8 v)
    refine ⟨?_, ?_, h3, h4⟩
    · intro i x hx
      cases i with
      | zero =>
        simp only [List.getElem?_cons_zero, Option.some.injEq] at hx
        subst hx
        rw [h2 _ _ (Or.inl (by omega)), devPut_same _ _ _ _ _ (by omega)]
      | succ i =>
        simp only [List.getElem?_cons_succ] at hx
        rw [show n + (i + 1) = n + 1 + i by omega]; exact h1 i x hx
    · intro x i h
      simp only [List.length_cons] at h
      rw [h2 x i (by omega), devPut_other _ _ _ _ _ _ (by omega)]

theorem updFirst_congr {α : Type} (p : α → Bool) (f g : α → α) : ∀ (l : List α), (∀ a, l.find? p = some a → f a = g a) → updFirst p f l = updFirst p g l := by
  intro l
  induction l with
  | nil => intro _; rfl
  | cons a l ih =>
    intro h
    unfold updFirst
    by_cases hp : p a = true
    · rw [if_pos hp, if_pos hp, h a (by simp [List.find?, hp])]
    · rw [if_neg hp, if_neg hp, ih]; intro x hx; exact h x (by simp only [List.find?]; rw [show p a = false by simpa using hp]; exact hx)

theorem updFirst_none {α : Type} (p : α → Bool) (f : α → α) : ∀ (l : List α), (∀ a, a ∈ l → p a = false) → updFirst p f l = l := by
  intro l
  induction l with
  | nil => intro _; rfl
  | cons a l ih =>
    intro h
    unfold updFirst
    rw [if_neg (by rw [h a List.mem_cons_self]; simp), ih (fun x hx => h x (List.mem_cons_of_mem _ hx))]

theorem devPut_outputs (s : State) (a n v : Nat) : (devPut s a n v).outputs = s.outputs := rfl

theorem devPut_evqs' (s : State) (a n v : Nat) : (devPut s a n v).evqs = s.evqs := rfl

theorem ring_go (f : State) (e : EvRec) (base n v : Nat) :
    let t := sendVec (devPut ((enumFrom 0 (evWords e)).foldl (fun st x => devPut st (base + 64 + 64 * (word8 f.mem base 0 % n) + 8 * x.1) 8 x.2) f) base 8 ((word8 f.mem base 0 + 1) % 2 ^ 64)) e.w v
    t.evqs = f.evqs ∧ word8 t.mem base 0 = (word8 f.mem base 0 + 1) % 2 ^ 64 ∧ (∀ i x, (evWords e)[i]? = some x → word8 t.mem (base + 64 + 64 * (word8 f.mem base 0 % n)) i = x % 2 ^ 64)
      ∧ t.outputs = f.outputs ++ (if v = 0 then [] else [.msix e.w v]) := by
  dsimp only
  obtain ⟨p1, p2, p3, p4⟩ := puts_spec (base + 64 + 64 * (word8 f.mem base 0 % n)) (evWords e) 0 f
  have hm : ∀ u w v, (sendVec u w v).mem = u.mem ∧ (sendVec u w v).evqs = u.evqs ∧ (sendVec u w v).outputs = u.outputs ++ (if v = 0 then [] else [.msix w v]) := by
    intro u w v; unfold sendVec; split <;> simp
  generalize hg : (enumFrom 0 (evWords e)).foldl (fun st x => devPut st (base + 64 + 64 * (word8 f.mem base 0 % n) + 8 * x.1) 8 x.2) f = g at *
  refine ⟨?_, ?_, ?_, ?_⟩
  · rw [(hm _ _ _).2.1, devPut_evqs', p3]
  · rw [(hm _ _ _).1, devPut_same _ _ _ _ _ (by omega), Nat.mod_mod]
  · intro i x hx
    rw [(hm _ _ _).1, devPut_other _ _ _ _ _ _ (Or.inr (by omega)), ← p1 i x hx, Nat.zero_add]
  · rw [(hm _ _ _).2.2, ← p4]
    rw [Sys2Proof.Laws.devPut_outputs]

theorem signal_go (f : State) (w : BitVec 4) (c : Colour) (va op v pa old : Nat) (h4 : devWord f w c va true true = .ok (pa, old)) (h5 : typeAt f pa = op) :
    signalOp f w c va op v = .ok (performWrite f { bytes := cellsOf pa 8 (if op = 0 then v else if op = 1 then (arriveWord old).1 else old ||| v), via := some { w := w, colour := c, va := va } }) := by
  unfold signalOp
  rw [h4]
  dsimp only
  rw [if_neg (fun g => g h5)]

theorem ringEvent_spec (f : State) (e : EvRec) (d : Nat → Nat) (base n v : Nat) (hb : bits (d 1) 51 12 * 2 ^ 12 = base) (hn : 2 ^ bits (d 1) 3 0 = n) (hv : bits (d 2) 15 0 = v)
    (h4 : inCapability f e.w base (64 + 64 * n) = true) (h5 : isDevice base = true) : ringEvent f e d =
    if (word8 f.mem base 0 + 2 ^ 64 - word8 f.mem base 1) % 2 ^ 64 = n then none
    else some (sendVec (devPut ((enumFrom 0 (evWords e)).foldl (fun st x => devPut st (base + 64 + 64 * (word8 f.mem base 0 % n) + 8 * x.1) 8 x.2) f) base 8 ((word8 f.mem base 0 + 1) % 2 ^ 64)) e.w v) := by
  unfold ringEvent
  dsimp only
  rw [hb, hn, hv, if_neg (by rw [h4, h5]; simp)]

theorem inCap_eq (f s : State) (h : f.granuleOwner = s.granuleOwner) (w : BitVec 4) (a n : Nat) : inCapability f w a n = inCapability s w a n := by unfold inCapability; rw [h]

theorem event_ring (s f : State) (sp : Nat) (e : EvRec) (d : Nat → Nat) (base n v : Nat) (hb : bits (d 1) 51 12 * 2 ^ 12 = base) (hn : 2 ^ bits (d 1) 3 0 = n) (hv : bits (d 2) 15 0 = v)
    (h : s.evqs.find? (fun e => e.spire == sp) = some e) (h2 : evAction s e = some d) (h3 : bits (d 0) 2 1 = 1) (hf : f = { s with evqs := delFirst (fun x => x.spire == sp) s.evqs })
    (h4 : inCapability s e.w base (64 + 64 * n) = true) (h5 : isDevice base = true) :
    ((word8 s.mem base 0 + 2 ^ 64 - word8 s.mem base 1) % 2 ^ 64 = n → exec (.eventRecord sp) s = .next s)
    ∧ ((word8 s.mem base 0 + 2 ^ 64 - word8 s.mem base 1) % 2 ^ 64 ≠ n → ∃ t, exec (.eventRecord sp) s = .next t ∧ t.evqs = f.evqs ∧ word8 t.mem base 0 = (word8 s.mem base 0 + 1) % 2 ^ 64 ∧ (∀ i x, (evWords e)[i]? = some x → word8 t.mem (base + 64 + 64 * (word8 s.mem base 0 % n)) i = x % 2 ^ 64)
      ∧ t.outputs = s.outputs ++ (if v = 0 then [] else [.msix e.w v])) := by
  have h4 : inCapability f e.w base (64 + 64 * n) = true := by rw [inCap_eq f s (by rw [hf])]; exact h4
  have hfm : f.mem = s.mem := by rw [hf]
  have hfo : f.outputs = s.outputs := by rw [hf]
  rw [← hfm, ← hfo]
  have he := show exec (.eventRecord sp) s = execEventRecord sp s from rfl
  unfold execEventRecord at he
  rw [h] at he
  try dsimp only at he
  rw [h2, ← hf] at he
  try dsimp only at he
  rw [h3] at he
  try dsimp only at he
  rw [ringEvent_spec f e d base n v hb hn hv h4 h5] at he
  constructor
  · intro h6; rw [if_pos h6] at he; exact he
  · intro h6; rw [if_neg h6] at he; exact ⟨_, he, ring_go f e base n v⟩

theorem event_signal (s f : State) (sp : Nat) (e : EvRec) (d : Nat → Nat) (op pa old : Nat)
    (h : s.evqs.find? (fun e => e.spire == sp) = some e) (h2 : evAction s e = some d) (h3 : bits (d 0) 2 1 = 2) (hf : f = { s with evqs := delFirst (fun x => x.spire == sp) s.evqs })
    (hop : bits (d 2) 1 0 = op) (h4 : devWord f e.w e.tag.colour (d 1) true true = .ok (pa, old)) (h5 : typeAt f pa = op) :
    ∃ t, exec (.eventRecord sp) s = .next t ∧ t.evqs = f.evqs ∧ Written f t (bytesAt pa 8) (if op = 0 then d 3 else if op = 1 then (arriveWord old).1 else old ||| d 3) := by
  have he := show exec (.eventRecord sp) s = execEventRecord sp s from rfl
  unfold execEventRecord at he
  rw [h] at he
  try dsimp only at he
  rw [h2, ← hf] at he
  try dsimp only at he
  rw [h3] at he
  try dsimp only at he
  rw [hop, signal_go f e.w e.tag.colour (d 1) op (d 3) pa old h4 h5] at he
  exact ⟨_, he, rfl, written_cells rfl⟩

end Sys2Proof.Laws
end

