-- ==== Sys2Proof/Laws/Belfries.lean ====
section
/-! SUPPORT.  Lemmas for the statements about belfries. -/

open Sys2Proof Sys2Proof.Machine Sys2Proof.Claims

namespace Sys2Proof.Laws

theorem en_field (b : Word64) : b.getLsbD 0 = true ↔ b.toNat % 2 = 1 := by
  simp [BitVec.getLsbD, Nat.testBit_zero]

theorem ctx_field (b : Word64) (i : Nat) : belCtx b i = BitVec.ofNat 8 (field b.toNat (16 + 8 * i) 8) := by
  apply BitVec.eq_of_toNat_eq
  simp [belCtx, field, BitVec.extractLsb'_toNat, Nat.shiftRight_eq_div_pow]

/-- The parts of a belfry word. -/
theorem bel_parts (B q n r : Nat) (hr : r < 16) (hn : n < 4) : (64 * q + 16 * n + r) / 2 ^ 4 % 2 ^ 2 = n ∧ (64 * q + 16 * n + r) / 64 = q ∧ (64 * q + 16 * n + r) % 2 = r % 2 := by
  refine ⟨?_, ?_, ?_⟩ <;> omega

theorem hi_field (a b k n : Nat) (hk : 6 ≤ k) (h : a / 64 = b / 64) : field a k n = field b k n := by
  unfold field
  obtain ⟨j, rfl⟩ : ∃ j, k = 6 + j := ⟨k - 6, by omega⟩
  rw [Nat.pow_add, ← Nat.div_div_eq_div_mul, ← Nat.div_div_eq_div_mul, show (2:Nat)^6 = 64 from rfl, h]

theorem lt_word (b : Word64) : b.toNat < 2 ^ 64 := b.isLt

theorem quiet_spec (s : State) (w : BitVec 4) (x : Context) (h : ctxQuiet s w x = true) : (∀ b, b ∈ s.insts → ¬ (b.node.w = w ∧ b.node.x = x)) ∧ (∀ f, f ∈ s.firings → ¬ (f.node.w = w ∧ f.node.x = x))
    ∧ (∀ v, v ∈ s.invs → v.node.w = w → v.node.x = x → v.held = []) ∧ (∀ o, o ∈ s.ops → o.node.w = w → o.node.x = x → o.isStream = true) := by
  unfold ctxQuiet at h
  simp only [Bool.and_eq_true, Bool.not_eq_true', List.any_eq_false, inCtx, Bool.and_eq_true, beq_iff_eq, bne_iff_ne, not_and] at h
  obtain ⟨⟨⟨⟨⟨⟨⟨⟨⟨⟨⟨h1, h2⟩, _⟩, _⟩, _⟩, _⟩, _⟩, _⟩, _⟩, _⟩, h3⟩, h4⟩ := h
  refine ⟨fun b hb => ?_, fun f hf => ?_, fun v hv a b => ?_, fun o ho a b => ?_⟩
  · rintro ⟨a, c⟩; exact h1 b hb a c
  · rintro ⟨a, c⟩; exact h2 f hf a c
  · have := h3 v hv ⟨a, b⟩; simpa using this
  · have := h4 o ho ⟨a, b⟩; simpa using this

theorem window_iff (s : State) (w : BitVec 4) : windowOpen s w = true ↔ ¬ ((worldOf s w).prot = true ∧ (worldOf s w).tdi = .error) := by
  unfold windowOpen
  cases (worldOf s w).prot <;> simp

theorem keep_field (v : Word64) : keepBits v 47 16 + keepBits v 9 8 < 2 ^ 48 ∧ (keepBits v 47 16 + keepBits v 9 8) / 64 = (keepBits v 47 16 + keepBits v 9 8) / 256 * 4
   ∧ (keepBits v 47 16 + keepBits v 9 8) % 256 = 0 ∧ field (keepBits v 47 16 + keepBits v 9 8) 8 2 = field v.toNat 8 2 ∧ (∀ i, i < 4 → field (keepBits v 47 16 + keepBits v 9 8) (16 + 8 * i) 8 = field v.toNat (16 + 8 * i) 8) := by
  unfold keepBits bits field
  generalize v.toNat = V
  refine ⟨by omega, by omega, by omega, by omega, ?_⟩
  intro i hi
  have : i = 0 ∨ i = 1 ∨ i = 2 ∨ i = 3 := by omega
  rcases this with rfl | rfl | rfl | rfl <;> simp only [Nat.reduceMul, Nat.reduceAdd, Nat.reduceSub, Nat.reducePow] <;> omega

end Sys2Proof.Laws
end

