-- ==== Sys2Proof/Laws/Lanterns.lean ====
section
/-! SUPPORT.  Lemmas for the statements about lanterns. -/

open Sys2Proof Sys2Proof.Machine Sys2Proof.Claims

namespace Sys2Proof.Laws

theorem report_spec (s u : State) (n : NodeId) (t : Tag) (r : Report) (h : (placedOf u n).isSome = true) (hw : u.worlds = s.worlds) :
    (lanternReport u n t r).ptoks = u.ptoks ∧ (lanternReport u n t r).lstreams = u.lstreams ∧ (lanternReport u n t r).lanterns = u.lanterns ∧ Recorded s (lanternReport u n t r) n.w := by
  obtain ⟨p, hp⟩ := Option.isSome_iff_exists.1 h
  unfold lanternReport
  rw [hp]
  dsimp only
  refine ⟨deliverRecord_ptoks _ _ _ _, deliverRecord_lstreams _ _ _ _, deliverRecord_lanterns _ _ _ _, ?_⟩
  have := deliverRecord_seq u { portOrigin p n t with source := 1, nest := false } r
  unfold Recorded worldOf at this ⊢
  rw [← hw]; exact this

theorem emitFold (l : List (NodeId × Placed)) (port : Nat) (t : NodeId × Placed → Token) : ∀ s : State, let u := l.foldl (fun st e => emitTok st e.1 port (t e) none) s
    u.ptoks = s.ptoks ∧ u.lstreams = s.lstreams ∧ u.mem = s.mem := by
  induction l with
  | nil => intro s; exact ⟨rfl, rfl, rfl⟩
  | cons e l ih =>
    intro s
    simp only [List.foldl_cons]
    obtain ⟨a, b, c⟩ := ih (emitTok s e.1 port (t e) none)
    have : (emitTok s e.1 port (t e) none).ptoks = s.ptoks ∧ (emitTok s e.1 port (t e) none).lstreams = s.lstreams ∧ (emitTok s e.1 port (t e) none).mem = s.mem := by
      unfold emitTok; dsimp only; split <;> exact ⟨rfl, rfl, rfl⟩
    exact ⟨a.trans this.1, b.trans this.2.1, c.trans this.2.2⟩

theorem emitLantern_keep (s : State) (w : BitVec 4) (sp port : Nat) (c : Colour) (i : IterTag) (v : Val) : (emitLantern s w sp port c i v).ptoks = s.ptoks ∧ (emitLantern s w sp port c i v).lstreams = s.lstreams ∧ (emitLantern s w sp port c i v).mem = s.mem := by
  unfold emitLantern; exact emitFold _ _ _ s

theorem k16 {k : Nat} (hk : k < 16) : k = 0 ∨ k = 1 ∨ k = 2 ∨ k = 3 ∨ k = 4 ∨ k = 5 ∨ k = 6 ∨ k = 7 ∨ k = 8 ∨ k = 9 ∨ k = 10 ∨ k = 11 ∨ k = 12 ∨ k = 13 ∨ k = 14 ∨ k = 15 := by omega

theorem result_faulted (l : LStream) (h : l.faulted = true) : Shows (resultVal l) [none, none, none, none, some ((if l.trunc = true then 2 else 0) + 16), some l.node, some l.pos] := by
  intro k hk
  unfold resultVal
  dsimp only
  rw [if_pos h, slotOf_valOf' _ _ hk]
  rcases k16 hk with rfl|rfl|rfl|rfl|rfl|rfl|rfl|rfl|rfl|rfl|rfl|rfl|rfl|rfl|rfl|rfl <;> simp <;> cases l.trunc <;> rfl

theorem result_empty (l : LStream) (h : l.faulted = false) (h2 : l.cands = []) : Shows (resultVal l) [none, none, none, some 0, some ((if l.trunc = true then 2 else 0) + (if l.order = true then 4 else 0) + (if l.bad = true then 8 else 0) + 1), some l.node, some l.pos] := by
  intro k hk
  unfold resultVal
  dsimp only
  rw [if_neg (by simp [h]), h2]
  dsimp only
  rw [slotOf_valOf' _ _ hk]
  rcases k16 hk with rfl|rfl|rfl|rfl|rfl|rfl|rfl|rfl|rfl|rfl|rfl|rfl|rfl|rfl|rfl|rfl <;> simp <;> cases l.trunc <;> cases l.order <;> cases l.bad <;> rfl

theorem result_some (l : LStream) (h : l.faulted = false) (h2 : l.cands ≠ []) (y id : Nat)
    (h3 : (if l.greedy then (keepCands l (round (sumNums false [decodeElem fp32 l.m, decodeElem fp32 (ln32 l.sum)]).toExact fp32 .rne 0)).head? else gumbelPick l (keepCands l (round (sumNums false [decodeElem fp32 l.m, decodeElem fp32 (ln32 l.sum)]).toExact fp32 .rne 0))) = some (y, id)) :
    Shows (resultVal l) [some id, some y, some (round (sumNums false [decodeElem fp32 l.m, decodeElem fp32 (ln32 l.sum)]).toExact fp32 .rne 0), some (keepCands l (round (sumNums false [decodeElem fp32 l.m, decodeElem fp32 (ln32 l.sum)]).toExact fp32 .rne 0)).length, some ((if l.trunc = true then 2 else 0) + (if l.order = true then 4 else 0) + (if l.bad = true then 8 else 0)), some l.node, some l.pos] := by
  have hl : add32 (f32 l.m) (f32 (ln32 l.sum)) = round (sumNums false [decodeElem fp32 l.m, decodeElem fp32 (ln32 l.sum)]).toExact fp32 .rne 0 := rfl
  generalize round (sumNums false [decodeElem fp32 l.m, decodeElem fp32 (ln32 l.sum)]).toExact fp32 .rne 0 = lse at *
  intro k hk
  unfold resultVal
  dsimp only
  rw [if_neg (by simp [h])]
  cases hc : l.cands with
  | nil => exact absurd hc h2
  | cons a r =>
    dsimp only
    rw [hl, h3]
    dsimp only
    rw [slotOf_valOf' _ _ hk]
    rcases k16 hk with rfl|rfl|rfl|rfl|rfl|rfl|rfl|rfl|rfl|rfl|rfl|rfl|rfl|rfl|rfl|rfl <;> simp <;> cases l.trunc <;> cases l.order <;> cases l.bad <;> rfl

theorem countId_spec (id : Nat) : ∀ (tab : List (Nat × Nat × Nat)), (tab.map (fun e => e.1)).Pairwise (· < ·) → ((countId id tab).map (fun e => e.1)).Pairwise (· < ·)
    ∧ (∀ j n b, (j, n, b) ∈ countId id tab ↔ (j ≠ id ∧ (j, n, b) ∈ tab) ∨ (j = id ∧ ((∃ m, (id, m, b) ∈ tab ∧ n = min (m + 1) 65535) ∨ ((∀ e, e ∈ tab → e.1 ≠ id) ∧ n = 1 ∧ b = 0)))) := by
  intro tab
  induction tab with
  | nil => intro _; refine ⟨by simp [countId], ?_⟩; intro j n b; simp [countId]
  | cons e l ih =>
    intro h
    simp only [List.map_cons, List.pairwise_cons, List.mem_map, forall_exists_index, and_imp, forall_apply_eq_imp_iff₂] at h
    obtain ⟨h1, h2⟩ := h
    obtain ⟨i1, i2⟩ := ih h2
    obtain ⟨ei, en, eb⟩ := e
    simp only at h1
    unfold countId
    by_cases a1 : id < ei
    · rw [if_pos (by exact a1)]
      refine ⟨?_, ?_⟩
      · simp only [List.map_cons, List.pairwise_cons, List.mem_cons, List.mem_map]
        refine ⟨?_, ?_, h2⟩
        · rintro x (rfl | ⟨y, hy, rfl⟩)
          · exact a1
          · have := h1 y hy; omega
        · rintro x ⟨y, hy, rfl⟩; exact h1 y hy
      · intro j n b
        simp only [List.mem_cons, Prod.mk.injEq]
        constructor
        · rintro (⟨rfl, rfl, rfl⟩ | ⟨rfl, rfl, rfl⟩ | hm)
          · refine Or.inr ⟨rfl, Or.inr ⟨?_, rfl, rfl⟩⟩
            rintro x (rfl | hx)
            · show ei ≠ j; omega
            · have := h1 x hx; omega
          · exact Or.inl ⟨by omega, Or.inl (by simp)⟩
          · refine Or.inl ⟨?_, Or.inr hm⟩
            have := h1 _ hm; simp only at this; omega
        · rintro (⟨_, h | h⟩ | ⟨rfl, ⟨m, h | h, _⟩ | ⟨_, rfl, rfl⟩⟩)
          · exact Or.inr (Or.inl h)
          · exact Or.inr (Or.inr h)
          · exfalso; omega
          · exfalso; have := h1 _ h; simp only at this; omega
          · exact Or.inl (by simp)
    · rw [if_neg (by exact a1)]
      by_cases a2 : id = ei
      · rw [if_pos (by exact a2)]
        subst a2
        refine ⟨?_, ?_⟩
        · simp only [List.map_cons, List.pairwise_cons, List.mem_map]
          exact ⟨by rintro x ⟨y, hy, rfl⟩; exact h1 y hy, h2⟩
        · intro j n b
          simp only [List.mem_cons, Prod.mk.injEq]
          constructor
          · rintro (⟨rfl, rfl, rfl⟩ | hm)
            · exact Or.inr ⟨rfl, Or.inl ⟨en, Or.inl (by simp), rfl⟩⟩
            · refine Or.inl ⟨?_, Or.inr hm⟩
              have := h1 _ hm; simp only at this; omega
          · rintro (⟨hj, h | h⟩ | ⟨rfl, ⟨m, h | h, rfl⟩ | ⟨hx, _⟩⟩)
            · exact absurd h.1 hj
            · exact Or.inr h
            · exact Or.inl ⟨rfl, by rw [h.2.1], h.2.2⟩
            · exfalso; have := h1 _ h; simp only at this; omega
            · exact absurd rfl (hx _ (Or.inl rfl))
      · rw [if_neg (by exact a2)]
        refine ⟨?_, ?_⟩
        · simp only [List.map_cons, List.pairwise_cons, List.mem_map]
          refine ⟨?_, i1⟩
          rintro x ⟨⟨j, n, b⟩, hy, rfl⟩
          rcases (i2 j n b).1 hy with ⟨_, h⟩ | ⟨rfl, _⟩
          · exact h1 _ h
          · show ei < j; omega
        · intro j n b
          simp only [List.mem_cons, Prod.mk.injEq, i2]
          constructor
          · rintro (⟨rfl, rfl, rfl⟩ | ⟨hj, h⟩ | ⟨rfl, ⟨m, h, rfl⟩ | ⟨hx, rfl, rfl⟩⟩)
            · exact Or.inl ⟨fun e => a2 e.symm, Or.inl ⟨rfl, rfl, rfl⟩⟩
            · exact Or.inl ⟨hj, Or.inr h⟩
            · exact Or.inr ⟨rfl, Or.inl ⟨m, Or.inr h, rfl⟩⟩
            · refine Or.inr ⟨rfl, Or.inr ⟨?_, rfl, rfl⟩⟩
              rintro x (rfl | hx')
              · exact fun e => a2 e.symm
              · exact hx x hx'
          · rintro (⟨hj, h | h⟩ | ⟨rfl, ⟨m, h | h, rfl⟩ | ⟨hx, rfl, rfl⟩⟩)
            · exact Or.inl h
            · exact Or.inr (Or.inl ⟨hj, h⟩)
            · exact absurd h.1 a2
            · exact Or.inr (Or.inr ⟨rfl, Or.inl ⟨m, h, rfl⟩⟩)
            · exact Or.inr (Or.inr ⟨rfl, Or.inr ⟨fun e he => hx e (Or.inr he), rfl, rfl⟩⟩)

theorem devStore_cases (w : BitVec 4) (c : Colour) : ∀ (l : List (BitVec 8)) {s t : State} {va : Nat}, devStore s w c va l = .ok t → WritesOnly s t := by
  intro l
  induction l with
  | nil => intro s t va h; cases h; rfl
  | cons b l ih =>
    intro s t va h
    unfold devStore at h
    split at h
    · cases h
    · split at h
      · cases h
      · exact wtrans (rfl : WritesOnly s (performWrite s _)) (ih h)

theorem commitTable_cases {s s1 : State} {w : BitVec 4} {c : Colour} {va ntab st : Nat} {ids : List Nat} (h : commitTable s w c va ids = .ok (s1, ntab, st)) : WritesOnly s s1 := by
  unfold commitTable at h
  split at h
  · cases h
  · split at h
    · cases h
    · dsimp only at h
      split at h
      · cases h
      · next e1 =>
        split at h
        · cases h
        · next e2 => cases h; exact wtrans (devStore_cases _ _ _ e1) (devStore_cases _ _ _ e2)

theorem head_colour {s : State} {p : PortId} {c : Colour} {q : PTok → Bool} {t : PTok} (h : (seqHeads s p c).find? q = some t) : t.tok.tag.colour = c := by
  have hm := List.mem_of_find?_eq_some h
  unfold seqHeads at hm
  dsimp only at hm
  obtain ⟨i, _, hi⟩ := List.mem_filterMap.1 hm
  have := List.mem_of_find?_eq_some hi
  have := (List.mem_filter.1 this).2
  simp only [Bool.and_eq_true, beq_iff_eq] at this
  exact this.2

theorem open_spec (s : State) (w : BitVec 4) (sp : Nat) (t : Tag) (hd : Nat × Nat × Nat × List Nat) (va : Nat) (d : SeqDesc) (prog : List Word64) (tab : List (Nat × Nat × Nat))
    (h1 : loadSeq (devByte s w t.colour) va = .ok (d, prog)) (h2 : readTable (devByte s w t.colour) d.table d.ntab = .ok tab) : ∃ l, openStreamOf s w sp t hd va = (l, none)
      ∧ l.spire = sp ∧ l.colour = t.colour ∧ l.iter = t.iter ∧ (l.pos, l.node, l.total, l.path) = hd ∧ l.next = 0 ∧ l.prog = prog ∧ l.vlim = d.vlim ∧ l.k = d.k
          ∧ l.table = (joinTable none tab).1 ∧ l.order = (joinTable none tab).2 ∧ l.m = 0xFF800000 ∧ l.sum = 0 ∧ l.cands = [] ∧ l.drop = false ∧ l.faulted = false := by
  unfold openStreamOf
  dsimp only
  rw [h1]
  dsimp only
  rw [h2]
  exact ⟨_, rfl, rfl, rfl, rfl, rfl, rfl, rfl, rfl, rfl, rfl, rfl, rfl, rfl, rfl, rfl, rfl⟩

end Sys2Proof.Laws
end

