-- ==== Sys2Proof/Laws/Queues.lean ====
section
/-! SUPPORT.  Lemmas for the statements about queues and their packets. -/

open Sys2Proof Sys2Proof.Machine Sys2Proof.Claims

namespace Sys2Proof.Laws

theorem worldOf_congr {s t : State} (h : t.worlds = s.worlds) (w : BitVec 4) : worldOf t w = worldOf s w := by unfold worldOf; rw [h]

theorem mirror_worlds (s : State) (w : BitVec 4) (q : Nat) : (mirrorQueue s w q).worlds = s.worlds := by
  unfold mirrorQueue; simp

theorem world_upd (s : State) (w : BitVec 4) (q : Nat) (f : QueueSt → QueueSt) : worldOf (updQueue s w q f) w = { worldOf s w with queues := mput {} (worldOf s w).queues q (f (queueOf s w q)) } := by
  unfold updQueue; rw [worldOf_congr (mirror_worlds _ _ _)]; unfold setQueue; dsimp only; rw [worldOf_setWorld]

theorem queue_upd (s : State) (w : BitVec 4) (q : Nat) (f : QueueSt → QueueSt) : queueOf (updQueue s w q f) w q = f (queueOf s w q) := by
  unfold queueOf; rw [world_upd]; exact mget_mput_same (d := ({} : QueueSt)) _ _ _

theorem queue_congr {s t : State} (w : BitVec 4) (h : (worldOf t w).queues = (worldOf s w).queues) (q : Nat) : queueOf t w q = queueOf s w q := by unfold queueOf; rw [h]

theorem qdesc_upd (s : State) (w : BitVec 4) (q : Nat) (f : QueueSt → QueueSt) : qdescAddr (setQueue s w q (f (queueOf s w q))) w q = qdescAddr s w q := by
  unfold qdescAddr setQueue; dsimp only; rw [worldOf_setWorld]

theorem putBytes_append : ∀ (l k m : List Host.Cell), putBytes m (l ++ k) = putBytes (putBytes m l) k := by
  intro l
  induction l with
  | nil => intro k m; rfl
  | cons a l ih => intro k m; obtain ⟨x, b⟩ := a; exact ih k _

theorem ownPut_other (s : State) (w : BitVec 4) (a n v x i : Nat) (h : x + 8 * i + 8 ≤ a ∨ a + n ≤ x + 8 * i) : word8 (ownPut s w a n v).mem x i = word8 s.mem x i := by
  unfold ownPut ownWrite
  split
  · exact devPut_other s a n v x i h
  · rfl

theorem upd_mem (s : State) (w : BitVec 4) (q : Nat) (f : QueueSt → QueueSt) (x i : Nat) (h : x + 8 * i + 8 ≤ qdescAddr s w q + 16 ∨ qdescAddr s w q + 28 ≤ x + 8 * i) :
    word8 (updQueue s w q f).mem x i = word8 s.mem x i := by
  unfold updQueue mirrorQueue
  dsimp only
  rw [qdesc_upd, ownPut_other _ _ _ _ _ _ _ (by omega), ownPut_other _ _ _ _ _ _ _ (by omega)]
  rfl

theorem completes (s : State) (w : BitVec 4) (q idx status cause : Nat) (task : BitVec 32) (tiles : Nat) : Completes s (completePkt s w q idx status cause task tiles) w q idx status cause task tiles := by
  unfold completePkt
  dsimp only
  generalize hc : ((queueOf s w q).pkts.find? (fun p => p.idx == idx)).bind (fun p => p.cmpla) = cm
  have hw := writeRecord_worlds s w cm status cause task tiles
  have hq : queueOf (writeRecord s w cm status cause task tiles) w q = queueOf s w q := queue_congr w (by rw [worldOf_congr hw]) q
  have hd : qdescAddr (writeRecord s w cm status cause task tiles) w q = qdescAddr s w q := by unfold qdescAddr; rw [worldOf_congr hw]
  constructor
  · unfold updPkt; rw [queue_upd, hq]
  · intro p a h1 h2 hr h3
    have hcm : cm = some a := by rw [← hc, h1]; exact h2
    unfold updPkt
    rw [upd_mem _ _ _ _ _ _ (by rw [hd]; omega), upd_mem _ _ _ _ _ _ (by rw [hd]; omega), hcm]
    have hm : (writeRecord s w (some a) status cause task tiles).mem
        = (devPut (devPut s a 8 (status + cause * 2 ^ 8 + task.toNat * 2 ^ 32)) (a + 8) 8 tiles).mem := by
      unfold writeRecord ownWrite
      dsimp only
      rw [if_pos hr]
      exact putBytes_append _ _ _
    rw [hm, devPut_other _ _ _ _ _ _ (by omega), devPut_same _ _ _ _ _ (by omega), devPut_same _ _ _ _ _ (by omega)]
    exact ⟨rfl, rfl⟩

theorem completes_congr {s u t : State} {w : BitVec 4} {q idx st c : Nat} {task : BitVec 32} {n : Nat} (h : Completes s t w q idx st c task n) (h1 : queueOf s w q = queueOf u w q) (h2 : qdescAddr s w q = qdescAddr u w q)
    (h3 : ∀ a, reaches u w a = true → reaches s w a = true) :
    Completes u t w q idx st c task n := ⟨by rw [← h1]; exact h.queue, fun p a a1 a2 a3 a4 => h.record p a (by rw [h1]; exact a1) a2 (h3 a a3) (by rw [h2]; exact a4)⟩

theorem complete_world (s : State) (w : BitVec 4) (q idx st c : Nat) (task : BitVec 32) (n : Nat) : ∃ x, worldOf (completePkt s w q idx st c task n) w = { worldOf s w with queues := x } := by
  unfold completePkt updPkt
  dsimp only
  rw [world_upd, worldOf_congr (writeRecord_worlds _ _ _ _ _ _ _)]
  exact ⟨_, rfl⟩

theorem foldPut_worlds (w : BitVec 4) (a : Nat) : ∀ (l : List (Nat × Nat)) (s : State), (l.foldl (fun st e => ownPut st w (a + 8 * e.1) 8 e.2) s).worlds = s.worlds := by
  intro l
  induction l with
  | nil => intro s; rfl
  | cons e l ih => intro s; rw [List.foldl_cons, ih, ownPut_worlds]

theorem fail_world (s : State) (w : BitVec 4) (q : Nat) (c : Cause) (d : Nat → Nat) : worldOf (queueFail s w q c d) w = worldOf (updQueue s w q (fun x => { x with st := 2, errs := min (x.errs + 1) 255 })) w := by
  apply worldOf_congr
  unfold queueFail
  dsimp only
  rw [sendVec_worlds]
  split
  · exact foldPut_worlds _ _ _ _
  · rfl

theorem fail_queue (s : State) (w : BitVec 4) (q : Nat) (c : Cause) (d : Nat → Nat) : queueOf (queueFail s w q c d) w q = { queueOf s w q with st := 2, errs := min ((queueOf s w q).errs + 1) 255 } := by
  have h := queue_congr (s := updQueue s w q (fun x => { x with st := 2, errs := min (x.errs + 1) 255 })) (t := queueFail s w q c d) w (by rw [fail_world]) q
  exact h.trans (queue_upd _ _ _ _)

theorem fail_tasks (s : State) (w : BitVec 4) (q : Nat) (c : Cause) (d : Nat → Nat) : (worldOf (queueFail s w q c d) w).tasks = (worldOf s w).tasks := by
  rw [fail_world, world_upd]

theorem updQueue_now (s : State) (w : BitVec 4) (q : Nat) (f : QueueSt → QueueSt) : (updQueue s w q f).now = s.now := by
  have h : ∀ (S : State) pa n v, (ownPut S w pa n v).now = S.now := by intro S pa n v; unfold ownPut ownWrite; split <;> rfl
  unfold updQueue mirrorQueue
  dsimp only
  rw [h, h]; rfl

theorem startPkt_now (s : State) (w : BitVec 4) (q : Nat) (d : Nat → Nat) : (startPkt s w q d).now = s.now := updQueue_now _ _ _ _

theorem startPkt_world (s : State) (w : BitVec 4) (q : Nat) (d : Nat → Nat) : ∃ x, worldOf (startPkt s w q d) w = { worldOf s w with queues := x } := by
  unfold startPkt; rw [world_upd]; exact ⟨_, rfl⟩

theorem startPkt_tasks (s : State) (w : BitVec 4) (q : Nat) (d : Nat → Nat) : (worldOf (startPkt s w q d) w).tasks = (worldOf s w).tasks := by
  obtain ⟨x, h⟩ := startPkt_world s w q d; rw [h]

theorem failed {i : Instr} {s : State} {w : BitVec 4} {q : Nat} {c : Cause} {d : Nat → Nat} (h : exec i s = .next (queueFail s w q c d)) :
    ∃ t, exec i s = .next t ∧ (queueOf t w q).st = 2 ∧ (queueOf t w q).errs = min ((queueOf s w q).errs + 1) 255
      ∧ (queueOf t w q).started = (queueOf s w q).started ∧ (worldOf t w).tasks = (worldOf s w).tasks :=
  ⟨_, h, by rw [fail_queue], by rw [fail_queue], by rw [fail_queue], fail_tasks _ _ _ _ _⟩

theorem startsOwn_run {i : Instr} {s : State} {w : BitVec 4} {q : Nat} {img : Option Image} {take : (Nat → Nat) → Bool} {mine : (Nat → Nat) → Prop} {body : State → Nat → (Nat → Nat) → State}
    (h : exec i s = runPkt s w q img take body) (hm : ∀ d, take d = true ↔ mine d) : StartsOwn i w q img mine s := by
  unfold runPkt at h
  constructor
  · intro h1; rw [h1] at h; exact h
  · intro idx d h1
    rw [h1] at h
    dsimp only at h
    constructor
    · intro h2; rw [if_pos (by cases ht : take d with | false => rfl | true => exact absurd ((hm d).1 ht) h2)] at h; exact h
    · intro c h2 h3
      rw [if_neg (by rw [(hm d).2 h2]; simp), h3] at h
      exact failed h

theorem run_ok {i : Instr} {s : State} {w : BitVec 4} {q : Nat} {img : Option Image} {take : (Nat → Nat) → Bool} {body : State → Nat → (Nat → Nat) → State} {idx : Nat} {d : Nat → Nat}
    (h : exec i s = runPkt s w q img take body) (h1 : nextPkt s w q = some (idx, d)) (h2 : take d = true) (h3 : pktFault s w q d img = none) : exec i s = .next (body (startPkt s w q d) idx d) := by
  rw [h]; unfold runPkt; rw [h1]; dsimp only; rw [if_neg (by rw [h2]; simp), h3]

theorem launch_mine (d : Nat → Nat) : (pktType d == 1 || !(decide (1 ≤ pktType d) && decide (pktType d ≤ 5))) = true ↔ field (d 0) 0 8 ∉ [2, 3, 4, 5] := by
  have : pktType d = field (d 0) 0 8 := rfl
  rw [this]
  simp only [Bool.or_eq_true, beq_iff_eq, Bool.not_eq_true', Bool.and_eq_false_iff, decide_eq_false_iff_not, List.mem_cons, List.not_mem_nil, or_false, not_or]
  omega

theorem abort_mine (d : Nat → Nat) (m : Nat) : (pktType d == 5 && abortMode d == m) = true ↔ field (d 0) 0 8 = 5 ∧ field (d 1) 0 2 = m := by
  simp [pktType, abortMode, field, bits]

theorem cellsFree_spec (s : State) (w : BitVec 4) : ∃ x, worldOf (cellsFree s w) w = { worldOf s w with triggers := x } ∧ (cellsFree s w).mem = s.mem ∧ (cellsFree s w).ctxs = s.ctxs := by
  unfold cellsFree
  have : ∀ (l : List Nat) (s : State), ∃ x, worldOf (l.foldl (fun st k => addDispatch st w k) s) w = { worldOf s w with triggers := x } ∧ (l.foldl (fun st k => addDispatch st w k) s).mem = s.mem ∧ (l.foldl (fun st k => addDispatch st w k) s).ctxs = s.ctxs := by
    intro l
    induction l with
    | nil => intro s; exact ⟨_, rfl, rfl, rfl⟩
    | cons k l ih =>
      intro s
      simp only [List.foldl_cons]
      obtain ⟨x, h, hm, hc⟩ := ih (addDispatch s w k)
      have : ∃ y, worldOf (addDispatch s w k) w = { worldOf s w with triggers := y } ∧ (addDispatch s w k).mem = s.mem ∧ (addDispatch s w k).ctxs = s.ctxs := by
        unfold addDispatch dispatchAt; dsimp only; rw [worldOf_setWorld]; exact ⟨_, rfl, rfl, rfl⟩
      obtain ⟨y, h2, hm2, hc2⟩ := this
      exact ⟨x, by rw [h, h2], hm.trans hm2, hc.trans hc2⟩
  exact this _ s

theorem updFirst_ids (p : Task → Bool) (f : Task → Task) (id : BitVec 32) : ∀ (l : List Task), (∀ t, p t = true → t ∈ l → (f t).id ≠ id) → (∀ t, t ∈ l → t.id ≠ id) → ∀ t, t ∈ updFirst p f l → t.id ≠ id := by
  intro l
  induction l with
  | nil => intro _ _ t h; cases h
  | cons a l ih =>
    intro h1 h2 t ht
    unfold updFirst at ht
    split at ht
    · next hp =>
      rcases List.mem_cons.1 ht with rfl | h
      · exact h1 a hp List.mem_cons_self
      · exact h2 t (List.mem_cons_of_mem _ h)
    · rcases List.mem_cons.1 ht with rfl | h
      · exact h2 _ List.mem_cons_self
      · exact ih (fun t a b => h1 t a (List.mem_cons_of_mem _ b)) (fun t a => h2 t (List.mem_cons_of_mem _ a)) t h

theorem finishTask_gone (s : State) (w : BitVec 4) (t : Task) (st c : Nat) : ∀ y, y ∈ (worldOf (finishTask s w t st c) w).tasks → y.id ≠ t.id := by
  unfold finishTask
  dsimp only
  generalize (if (ctxOf s w t.img.context).resident && (ctxOf s w t.img.context).task == t.id then unloadCtx s w t.img.context else s) = s1
  have h1 : ∀ y, y ∈ (worldOf (completePkt (dropTask s1 w t.id) w t.queue t.idx st c t.id t.sent) w).tasks → y.id ≠ t.id := by
    obtain ⟨x, h⟩ := complete_world (dropTask s1 w t.id) w t.queue t.idx st c t.id t.sent
    rw [h]; unfold dropTask; dsimp only; rw [worldOf_setWorld]
    intro y hy; have := (List.mem_filter.1 hy).2; simpa using this
  generalize completePkt (dropTask s1 w t.id) w t.queue t.idx st c t.id t.sent = s2 at h1
  have h2 : ∀ y, y ∈ (worldOf (afterSubject s2 w t.id) w).tasks → y.id ≠ t.id := by
    unfold afterSubject
    split
    · next u hu =>
      have hm := h1 u (List.mem_of_find?_eq_some hu)
      split
      · unfold placeTask consumePkt updPkt
        dsimp only
        rw [world_upd]
        unfold putTask; dsimp only; rw [worldOf_setWorld]
        exact updFirst_ids _ _ _ _ (fun _ _ _ => hm) h1
      · unfold putTask; dsimp only; rw [worldOf_setWorld]
        exact updFirst_ids _ _ _ _ (fun _ _ _ => hm) h1
    · exact h1
  obtain ⟨x, h3, _⟩ := cellsFree_spec (afterSubject s2 w t.id) w
  rw [h3]; exact h2

theorem stopTask_gone (s : State) (w : BitVec 4) (t : Task) (st c : Nat) : ∀ y, y ∈ (worldOf (stopTask s w t st c) w).tasks → y.id ≠ t.id := by
  unfold stopTask; exact finishTask_gone _ _ _ _ _

theorem written_cells_queues {s t : State} {a n x : Nat} (h : t.mem = putBytes s.mem (cellsOf a n x)) : Written s t (bytesAt a n) x :=
  written_put (range_map_nodup n (fun i j h => by omega)) (by rw [h, cells_zip])

theorem startPkt_queue (s : State) (w : BitVec 4) (q : Nat) (d : Nat → Nat) : queueOf (startPkt s w q d) w q = settleQueue { queueOf s w q with started := ((queueOf s w q).started + 1) % 2 ^ 32, pkts := (queueOf s w q).pkts ++
      [{ idx := (queueOf s w q).started, ty := pktType d, task := pktTask d, cmpla := pktCmpla d, done := false, consumed := false, since := s.now }] } := by
  unfold startPkt; rw [queue_upd]

theorem startPkt_open (s : State) (w : BitVec 4) (q : Nat) (d : Nat → Nat) (h : pktType d = 2) : openWait (startPkt s w q d) w q ≠ none := by
  unfold openWait
  rw [startPkt_queue]
  intro hn
  have := List.find?_eq_none.1 hn { idx := (queueOf s w q).started, ty := pktType d, task := pktTask d, cmpla := pktCmpla d, done := false, consumed := false, since := s.now }
  apply this
  · unfold settleQueue; dsimp only
    exact List.mem_filter.2 ⟨List.mem_append_right _ List.mem_cons_self, rfl⟩
  · simp [h]

/-- A word of a world's table as the device reads it: the word there, or zero where the world does not reach it. -/
theorem ownWord_eq (s : State) (w : BitVec 4) (x i : Nat) : ownWord s w (x + 8 * i) = if reaches s w (x + 8 * i) = true then word8 s.mem x i else 0 := rfl

theorem nextPkt_spec {s : State} {w : BitVec 4} {q idx : Nat} {d : Nat → Nat} (h : nextPkt s w q = some (idx, d)) : idx = (queueOf s w q).started ∧ (∀ i, let a := qRing s w q + 64 * (idx % 2 ^ qLog s w q); d i = if reaches s w (a + 8 * i) = true then word8 s.mem a i else 0) ∧ idx ≠ qWidx s w q
    ∧ ((queueOf s w q).st = 1 ∨ (queueOf s w q).st = 3) ∧ (∀ p, p ∈ (queueOf s w q).pkts → p.ty = 2 → p.done = true)
    ∧ ((field (d 0) 8 1 = 1 ∨ field (d 0) 0 8 = 3) → ∀ p, p ∈ (queueOf s w q).pkts → p.done = true) := by
  unfold nextPkt at h
  dsimp only at h
  split at h
  · cases h
  · next h1 =>
    split at h
    · cases h
    · next h2 =>
      simp only [Option.some.injEq, Prod.mk.injEq] at h
      obtain ⟨rfl, rfl⟩ := h
      simp only [Bool.or_eq_true, Bool.not_eq_true', List.any_eq_true, Bool.and_eq_true, beq_iff_eq, not_or, not_exists, not_and] at h1
      obtain ⟨⟨a, b⟩, c⟩ := h1
      refine ⟨rfl, fun i => ownWord_eq .., b, ?_, ?_, ?_⟩
      · have : queueRuns s w q = true := by simpa using a
        unfold queueRuns at this; dsimp only at this
        rw [Bool.and_eq_true, Bool.or_eq_true, beq_iff_eq, beq_iff_eq] at this
        exact this.1
      · intro p hp hty
        have := c p hp hty
        cases hd : p.done with
        | true => rfl
        | false => exact absurd hd this
      · intro hb p hp
        cases hd : p.done with
        | true => rfl
        | false =>
          exfalso; apply h2
          rw [Bool.and_eq_true]
          refine ⟨?_, List.any_eq_true.2 ⟨p, hp, by simp [hd]⟩⟩
          rw [Bool.or_eq_true]
          rcases hb with hb | hb
          · left; unfold pktBar; exact beq_iff_eq.2 hb
          · right; exact beq_iff_eq.2 hb

theorem settle_spec (x : QueueSt) : (settleQueue x).pkts = x.pkts.filter (fun p => !(p.done && p.consumed)) ∧ (settleQueue x).st = x.st ∧ (settleQueue x).started = x.started
    ∧ ((∀ p, p ∈ (settleQueue x).pkts → p.consumed = true) → (settleQueue x).ridx = x.started)
    ∧ ∀ p, (settleQueue x).pkts.find? (fun p => !p.consumed) = some p → (settleQueue x).ridx = p.idx := by
  refine ⟨rfl, rfl, rfl, ?_, ?_⟩
  · intro h
    show (((settleQueue x).pkts.find? (fun p => !p.consumed)).map (fun p => p.idx)).getD x.started = _
    rw [List.find?_eq_none.2 (fun p hp => by rw [h p hp]; simp)]; rfl
  · intro p h
    show (((settleQueue x).pkts.find? (fun p => !p.consumed)).map (fun p => p.idx)).getD x.started = _
    rw [h]; rfl

theorem queue_setCtx (s : State) (w v : BitVec 4) (x : Context) (c : Ctx) (q : Nat) : queueOf (setCtx s w x c) v q = queueOf s v q := rfl

theorem qdesc_setCtx (s : State) (w v : BitVec 4) (x : Context) (c : Ctx) (q : Nat) : qdescAddr (setCtx s w x c) v q = qdescAddr s v q := rfl

end Sys2Proof.Laws
end

