-- ==== Sys2Proof/Laws/TaskEnds.lean ====
section
/-! SUPPORT.  Lemmas for the statements about decisions and the end of tasks. -/

open Sys2Proof Sys2Proof.Machine Sys2Proof.Claims

namespace Sys2Proof.Laws

theorem findTask_put (s : State) (w : BitVec 4) (t : Machine.Task) (x : Machine.Task) (h : findTask s w t.id = some x) : findTask (putTask s w t) w t.id = some t := by
  unfold findTask putTask at *; dsimp only; rw [worldOf_setWorld]; dsimp only
  generalize (worldOf s w).tasks = l at *
  induction l with
  | nil => cases h
  | cons a l ih =>
    unfold updFirst
    by_cases ha : (a.id == t.id) = true
    · rw [if_pos ha]; simp
    · rw [if_neg ha, List.find?_cons_of_neg (by simpa using ha)]
      rw [List.find?_cons_of_neg (by simpa using ha)] at h
      exact ih h

theorem findTask_put_other (s : State) (w : BitVec 4) (t : Machine.Task) (id : BitVec 32) (hne : t.id ≠ id) : findTask (putTask s w t) w id = findTask s w id := by
  unfold findTask putTask; dsimp only; rw [worldOf_setWorld]; dsimp only
  generalize (worldOf s w).tasks = l
  induction l with
  | nil => rfl
  | cons a l ih =>
    unfold updFirst
    by_cases ha : (a.id == t.id) = true
    · rw [if_pos ha]
      have : a.id = t.id := by simpa using ha
      rw [List.find?_cons_of_neg (by simpa using hne), List.find?_cons_of_neg (by rw [this]; simpa using hne)]
    · rw [if_neg ha]
      simp only [List.find?_cons, ih]

theorem find_of_tasks {s t : State} {w : BitVec 4} (h : (worldOf t w).tasks = (worldOf s w).tasks) (id : BitVec 32) : findTask t w id = findTask s w id := by unfold findTask; rw [h]

theorem consume_world (s : State) (w : BitVec 4) (q idx : Nat) : ∃ x, worldOf (consumePkt s w q idx) w = { worldOf s w with queues := x } := by
  unfold consumePkt updPkt; rw [world_upd]; exact ⟨_, rfl⟩

theorem put_world (s : State) (w : BitVec 4) (t : Machine.Task) : worldOf (putTask s w t) w = { worldOf s w with tasks := updFirst (fun x => x.id == t.id) (fun _ => t) (worldOf s w).tasks } := by
  unfold putTask; dsimp only; rw [worldOf_setWorld]

theorem addTrigger_world (s : State) (w : BitVec 4) (t : Trigger) : worldOf (addTrigger s w t) w = { worldOf s w with triggers := (worldOf s w).triggers ++ [(t, s.now)] } := by
  unfold addTrigger; dsimp only; rw [worldOf_setWorld]

theorem dispatchAt_world (s : State) (w : BitVec 4) (k n : Nat) : ∃ x, worldOf (dispatchAt s w k n) w = { worldOf s w with triggers := x } := by
  unfold dispatchAt; dsimp only; rw [worldOf_setWorld]; exact ⟨_, rfl⟩

theorem dispatchAt_has (s : State) (w : BitVec 4) (k n : Nat) : ∃ y, y ∈ (worldOf (dispatchAt s w k n) w).triggers ∧ y.1 = .dispatch k := by
  unfold dispatchAt
  dsimp only
  rw [worldOf_setWorld]
  dsimp only
  split
  · next h =>
    have : ∀ l : List (Trigger × Nat), l.any (fun t => t.1 == .dispatch k) = true → ∃ y, y ∈ updFirst (fun t : Trigger × Nat => t.1 == .dispatch k) (fun t => (t.1, min t.2 n)) l ∧ y.1 = .dispatch k := by
      intro l
      induction l with
      | nil => intro h; cases h
      | cons a l ih =>
        intro h
        unfold updFirst
        split
        · next ha => exact ⟨_, List.mem_cons_self, by simpa using ha⟩
        · next ha =>
          rw [List.any_cons, Bool.or_eq_true] at h
          obtain ⟨y, hy, hk⟩ := ih (h.resolve_left ha)
          exact ⟨y, List.mem_cons_of_mem _ hy, hk⟩
    exact this _ h
  · exact ⟨_, List.mem_append_right _ List.mem_cons_self, rfl⟩

theorem addDispatch_world (s : State) (w : BitVec 4) (k : Nat) : ∃ x, worldOf (addDispatch s w k) w = { worldOf s w with triggers := x } := dispatchAt_world _ _ _ _

theorem followOn_world (s : State) (w : BitVec 4) (k : Nat) : ∃ x, worldOf (followOn s w k) w = { worldOf s w with triggers := x } := by
  unfold followOn; split
  · exact ⟨_, rfl⟩
  · exact dispatchAt_world _ _ _ _

theorem again_world (s : State) (w : BitVec 4) (d : Decision) (u : Option Machine.Task) : ∃ x, worldOf (again s w d u) w = { worldOf s w with triggers := x } := by
  unfold again
  split
  · exact followOn_world _ _ _
  · unfold preemptAgain
    dsimp only
    split
    · rw [worldOf_setWorld]; exact ⟨_, rfl⟩
    · exact ⟨_, rfl⟩
  · exact ⟨_, rfl⟩

theorem place_spec (s : State) (w : BitVec 4) (t : Machine.Task) (q : Bool) (h : findTask s w t.id = some t) : (worldOf (placeTask s w t q) w).decision = (worldOf s w).decision
    ∧ findTask (placeTask s w t q) w t.id = some { t with st := .launching, spires := chooseSpires s w t q, heldAt := if t.st = .queued then s.now else t.heldAt, sliceAt := s.now, quar := q, pos := t.img.sections.map (fun _ => 0) } := by
  unfold placeTask
  dsimp only
  generalize hT : ({ t with st := .launching, spires := chooseSpires s w t q, heldAt := if t.st = .queued then s.now else t.heldAt, sliceAt := s.now, quar := q, pos := t.img.sections.map (fun _ => 0) } : Machine.Task) = T
  have hid : T.id = t.id := by rw [← hT]
  obtain ⟨x, hx⟩ := consume_world (putTask s w T) w t.queue t.idx
  constructor
  · rw [hx, put_world]
  · rw [find_of_tasks (s := putTask s w T) (by rw [hx]), ← hid]
    exact findTask_put s w T t (by rw [hid]; exact h)

theorem ins_mem {α : Type} (lt : α → α → Bool) (a : α) : ∀ (l : List α) (x : α), x ∈ insSorted lt a l ↔ x = a ∨ x ∈ l := by
  intro l
  induction l with
  | nil => intro x; simp [insSorted]
  | cons b l ih =>
    intro x
    unfold insSorted
    split
    · simp
    · simp only [List.mem_cons, ih]
      constructor
      · rintro (h | h | h)
        · exact Or.inr (Or.inl h)
        · exact Or.inl h
        · exact Or.inr (Or.inr h)
      · rintro (h | h | h)
        · exact Or.inr (Or.inl h)
        · exact Or.inl h
        · exact Or.inr (Or.inr h)

theorem sort_mem {α : Type} (lt : α → α → Bool) : ∀ (l : List α) (x : α), x ∈ sortBy lt l ↔ x ∈ l := by
  intro l
  induction l with
  | nil => intro x; rfl
  | cons a l ih => intro x; unfold sortBy; rw [ins_mem, ih]; simp

theorem tb_iff (a b : Trigger × Nat) : triggerBefore a b = true ↔ (triggerKey a).1 < (triggerKey b).1 ∨ ((triggerKey a).1 = (triggerKey b).1 ∧ ((triggerKey a).2.1 < (triggerKey b).2.1 ∨ ((triggerKey a).2.1 = (triggerKey b).2.1 ∧ (triggerKey a).2.2 < (triggerKey b).2.2))) := by
  unfold triggerBefore; simp

theorem tb_trans {a b c : Trigger × Nat} (h1 : triggerBefore b a = false) (h2 : triggerBefore c b = false) : triggerBefore c a = false := by
  have e : ∀ x y : Trigger × Nat, triggerBefore x y = false ↔ ¬ (triggerBefore x y = true) := by intro x y; cases triggerBefore x y <;> simp
  rw [e, tb_iff] at *
  omega

theorem tb_total {a b : Trigger × Nat} (h : triggerBefore a b = true) : triggerBefore b a = false := by
  have e : ∀ x y : Trigger × Nat, triggerBefore x y = false ↔ ¬ (triggerBefore x y = true) := by intro x y; cases triggerBefore x y <;> simp
  rw [e, tb_iff]; rw [tb_iff] at h
  omega

theorem tb_irrefl (a : Trigger × Nat) : triggerBefore a a = false := by
  have e : ∀ x y : Trigger × Nat, triggerBefore x y = false ↔ ¬ (triggerBefore x y = true) := by intro x y; cases triggerBefore x y <;> simp
  rw [e, tb_iff]; omega

theorem ins_sorted (a : Trigger × Nat) : ∀ (l : List (Trigger × Nat)), l.Pairwise (fun x y => triggerBefore y x = false) → (insSorted (fun x y => !(triggerBefore y x)) a l).Pairwise (fun x y => triggerBefore y x = false) := by
  intro l
  induction l with
  | nil => intro _; simp [insSorted]
  | cons b l ih =>
    intro h
    obtain ⟨h1, h2⟩ := List.pairwise_cons.1 h
    unfold insSorted
    split
    · next hc =>
      have hc : triggerBefore b a = false := by simpa using hc
      refine List.pairwise_cons.2 ⟨?_, h⟩
      intro x hx
      rcases List.mem_cons.1 hx with rfl | hx
      · exact hc
      · exact tb_trans hc (h1 x hx)
    · next hc =>
      have hc : triggerBefore b a = true := by simpa using hc
      refine List.pairwise_cons.2 ⟨?_, ih h2⟩
      intro x hx
      rcases (ins_mem _ _ _ _).1 hx with rfl | hx
      · exact tb_total hc
      · exact h1 x hx

theorem sort_sorted : ∀ (l : List (Trigger × Nat)), (sortBy triggerBefore l).Pairwise (fun x y => triggerBefore y x = false) := by
  intro l
  induction l with
  | nil => exact List.Pairwise.nil
  | cons a l ih => unfold sortBy; exact ins_sorted a _ ih

theorem drop_spec' {α : Type} (p : α → Bool) : ∀ (l : List α) (y : α) (m : List α), l.dropWhile p = y :: m → y ∈ l ∧ p y = false ∧ (∀ u, u ∈ m → u ∈ l) ∧ ∀ u, u ∈ l → p u = false → u = y ∨ u ∈ m := by
  intro l
  induction l with
  | nil => intro y m h; cases h
  | cons a l ih =>
    intro y m h
    by_cases ha : p a = true
    · rw [List.dropWhile_cons_of_pos ha] at h
      obtain ⟨h1, h2, h3, h4⟩ := ih y m h
      refine ⟨List.mem_cons_of_mem _ h1, h2, fun u hu => List.mem_cons_of_mem _ (h3 u hu), ?_⟩
      intro u hu hp
      rcases List.mem_cons.1 hu with rfl | hu
      · rw [ha] at hp; cases hp
      · exact h4 u hu hp
    · rw [List.dropWhile_cons_of_neg ha] at h
      cases h
      refine ⟨List.mem_cons_self, by simpa using ha, fun u hu => List.mem_cons_of_mem _ hu, ?_⟩
      intro u hu _
      exact List.mem_cons.1 hu

theorem drop_sorted {α : Type} (R : α → α → Prop) (p : α → Bool) : ∀ (l : List α), l.Pairwise R → (l.dropWhile p).Pairwise R := by
  intro l h
  exact h.sublist (List.dropWhile_sublist p)

theorem due_spec (s : State) (w : BitVec 4) (y : Trigger × Nat) (l : List (Trigger × Nat)) (h : dueTriggers s w = y :: l) : y ∈ (worldOf s w).triggers ∧ y.2 ≤ s.now ∧ triggerLive s w y.1 = true
    ∧ (∀ u, u ∈ (worldOf s w).triggers → u.2 ≤ s.now → triggerLive s w u.1 = true → triggerBefore u y = false) ∧ ∀ u, u ∈ l → u ∈ (worldOf s w).triggers := by
  have h0 := h
  unfold dueTriggers at h
  have hm : ∀ u, u ∈ (worldOf s w).triggers.filter (risen s) ↔ u ∈ (worldOf s w).triggers ∧ u.2 ≤ s.now := by
    intro u; rw [List.mem_filter]; unfold risen; rw [decide_eq_true_iff]
  obtain ⟨h1, h2, h3, h4⟩ := drop_spec' _ _ _ _ h
  have hs := drop_sorted _ (fun t => !triggerLive s w t.1) _ (sort_sorted ((worldOf s w).triggers.filter (risen s)))
  rw [h] at hs
  have h1' := (hm y).1 ((sort_mem _ _ _).1 h1)
  refine ⟨h1'.1, h1'.2, by simpa using h2, ?_, fun u hu => ((hm u).1 ((sort_mem _ _ _).1 (h3 u hu))).1⟩
  intro u hu hn hl
  rcases h4 u ((sort_mem _ _ _).2 ((hm u).2 ⟨hu, hn⟩)) (by simp [hl]) with rfl | hm
  · exact tb_irrefl _
  · exact (List.pairwise_cons.1 hs).1 u hm

theorem take_none {s : State} {w : BitVec 4} (want : Trigger → Bool) (h : (worldOf s w).decision ≠ none ∨ dueTriggers s w = []) : takeTrigger s w want = none := by
  unfold takeTrigger
  dsimp only
  rcases h with h | h
  · cases hd : (worldOf s w).decision with
    | none => exact absurd hd h
    | some d => rfl
  · rw [h]; cases (worldOf s w).decision <;> rfl

theorem take_some {s : State} {w : BitVec 4} {want : Trigger → Bool} {y : Trigger × Nat} {l : List (Trigger × Nat)} (h : (worldOf s w).decision = none) (h2 : dueTriggers s w = y :: l) :
    takeTrigger s w want = if want y.1 then some (setWorld s w { worldOf s w with triggers := l ++ laterTriggers s w }, y.1) else none := by
  unfold takeTrigger
  dsimp only
  rw [h, h2]

theorem begins_start {r : Result} {s1 : State} {w : BitVec 4} {kind slot cause : Nat} {sub : Option Machine.Task} {l : List Machine.Task}
    (h : r = .next (startDecision s1 w kind slot cause (sub.map (fun x => candOf s1 w x cause)) (l.map (fun x => candOf s1 w x 0)))) : Begins r s1 w kind slot cause sub l := by
  unfold startDecision at h
  dsimp only at h
  by_cases hp : programOf s1 w slot = []
  · rw [if_pos (by exact hp)] at h
    refine ⟨_, _, h, rfl, (congrArg World.decision (worldOf_setWorld _ _ _)), ?_, ?_, rfl, rfl, rfl, rfl, rfl, rfl, rfl, rfl, rfl, fun e => absurd hp e, fun _ => ⟨_, ?_, rfl⟩⟩
    · rw [worldOf_setWorld]
    · rw [worldOf_setWorld]
    · exact fallback_ok _
  · rw [if_neg (by exact hp)] at h
    refine ⟨_, _, h, rfl, (congrArg World.decision (worldOf_setWorld _ _ _)), ?_, ?_, rfl, rfl, rfl, rfl, rfl, rfl, rfl, rfl, rfl, fun _ => rfl, fun e => absurd e hp⟩
    · rw [worldOf_setWorld]
    · rw [worldOf_setWorld]

theorem start_tasks (s1 : State) (w : BitVec 4) (kind slot cause : Nat) (sub : Option Cand) (l : List Cand) : (worldOf (startDecision s1 w kind slot cause sub l) w).tasks = (worldOf s1 w).tasks := by
  unfold startDecision; dsimp only; (repeat' split) <;> rw [worldOf_setWorld]

theorem dispatch_plain {s : State} {w : BitVec 4} {t : Machine.Task} (h : t.recq = false) (f : State → Machine.Task → State) : dispatchTask s w t f = some (f s t) := by
  unfold dispatchTask; rw [h]; rfl

theorem cutBad_same {s : State} (h : s.dev.badc = []) (w : BitVec 4) : worldOf (cutBad s) w = worldOf s w ∧ (cutBad s).ctxs = s.ctxs ∧ (cutBad s).srcq = s.srcq := by
  unfold cutBad
  have : ∀ (l : List (BitVec 4)) (s : State), s.dev.badc = [] → let u := l.foldl (fun st w =>
      let ww := worldOf st w
      setWorld st w { ww with tasks := ww.tasks.map (fun t => if t.st == .running && t.spires.any (spireBad st) then { t with st := .cutting, cuts := t.cuts + 1 } else t) }) s
      worldOf u w = worldOf s w ∧ u.ctxs = s.ctxs ∧ u.srcq = s.srcq := by
    intro l
    induction l with
    | nil => intro s _; exact ⟨rfl, rfl, rfl⟩
    | cons v l ih =>
      intro s h
      simp only [List.foldl_cons]
      have hb : ∀ sp, spireBad s sp = false := by intro sp; unfold spireBad; rw [h]; rfl
      obtain ⟨a, b, c⟩ := ih (setWorld s v { worldOf s v with tasks := (worldOf s v).tasks.map (fun t => if t.st == .running && t.spires.any (spireBad s) then { t with st := .cutting, cuts := t.cuts + 1 } else t) }) h
      refine ⟨a.trans ?_, b, c⟩
      have hm : (worldOf s v).tasks.map (fun t => if t.st == .running && t.spires.any (spireBad s) then { t with st := .cutting, cuts := t.cuts + 1 } else t) = (worldOf s v).tasks := by
        rw [List.map_congr_left (g := id)]
        · simp
        · intro t _; rw [if_neg]; · rfl
          rw [List.any_eq_false.2 (fun sp _ => by rw [hb]; simp)]; simp
      rw [hm]
      by_cases hv : w = v
      · subst hv; rw [worldOf_setWorld]
      · unfold worldOf setWorld; dsimp only
        rw [mget_mput_other (d := ({} : World)) _ (fun e => hv (BitVec.eq_of_toNat_eq e))]
  exact this worldIds s h

theorem cutBad_none {s : State} (h : s.dev.badc = []) (w : BitVec 4) : (worldOf (cutBad s) w).tasks = (worldOf s w).tasks ∧ (cutBad s).ctxs = s.ctxs ∧ (cutBad s).srcq = s.srcq :=
  ⟨by rw [(cutBad_same h w).1], (cutBad_same h w).2⟩

theorem sendLaunch_spec (s : State) (w : BitVec 4) (t : Machine.Task) (h : findTask s w t.id = some t) :
    let y := t.img.context
    let u := sendLaunch s w t
    u.ctxs = s.ctxs ∧ u.dev = s.dev ∧ (∀ e, e ∈ (worldOf u w).goDue → e.1 ≠ y)
    ∧ findTask u w t.id = some { t with tiles := if inSequence s w y = true ∧ belfryActive (worldOf s w) ≠ y then [] else t.tiles }
    ∧ (t.recq = false → (inSequence s w y = false ∨ belfryActive (worldOf s w) = y) → u.srcq = (sendStarts s w y (startVal t)).srcq) := by
  intro y u
  generalize hS : setWorld s w { worldOf s w with goDue := (worldOf s w).goDue.filter (fun e => e.1 != y) } = S
  have hw : worldOf S w = { worldOf s w with goDue := (worldOf s w).goDue.filter (fun e => e.1 != y) } := by rw [← hS]; exact worldOf_setWorld _ _ _
  have hseq : inSequence S w y = inSequence s w y := by unfold inSequence belfrySeq; dsimp only; rw [hw]
  have hgo : ∀ e, e ∈ (worldOf S w).goDue → e.1 ≠ y := by
    rw [hw]; intro e he; simpa using (List.mem_filter.1 he).2
  have hf : findTask S w t.id = some t := by rw [find_of_tasks (s := s) (by rw [hw])]; exact h
  have hu : u = if inSequence S w y && belfryActive (worldOf s w) != y then putTask S w { t with tiles := [] }
      else if t.recq then { S with ctls := S.ctls ++ (rootNests (ctxOf S w y)).map (fun n => { go := true, node := { w := w, x := y, n := n }, tag := { colour := (ctxOf S w y).colour, context := y, iter := 0 }, src := none }) }
      else sendStarts S w y (startVal t) := by rw [← hS]; rfl
  have hc : S.ctxs = s.ctxs ∧ S.dev = s.dev ∧ S.srcq = s.srcq := by rw [← hS]; exact ⟨rfl, rfl, rfl⟩
  rw [hseq] at hu
  by_cases hi : inSequence s w y = true ∧ belfryActive (worldOf s w) ≠ y
  · rw [if_pos (by rw [hi.1]; simpa using hi.2)] at hu
    refine ⟨by rw [hu]; exact hc.1, by rw [hu]; exact hc.2.1, ?_, ?_, ?_⟩
    · rw [hu, put_world]; exact hgo
    · rw [hu, if_pos hi]; exact findTask_put S w { t with tiles := [] } t hf
    · rintro _ (e | e)
      · rw [hi.1] at e; cases e
      · exact absurd e hi.2
  · rw [if_neg (by simpa using hi)] at hu
    rw [if_neg hi]
    by_cases hr : t.recq = true
    · rw [if_pos hr] at hu
      refine ⟨by rw [hu]; exact hc.1, by rw [hu]; exact hc.2.1, by rw [hu]; exact hgo, by rw [hu]; exact hf, fun e => by rw [hr] at e; cases e⟩
    · rw [if_neg hr] at hu
      refine ⟨by rw [hu]; exact hc.1, by rw [hu]; exact hc.2.1, by rw [hu]; exact hgo, by rw [hu]; exact hf, fun _ _ => ?_⟩
      rw [hu]
      unfold sendStarts
      dsimp only
      have : ctxOf S w y = ctxOf s w y := by unfold ctxOf; rw [hc.1]
      rw [this, hc.2.2]

theorem placeRegs_keep (cs : List (Nat × Nat × Nat × Word64)) : ∀ (l : List Placed) (s : State), (l.foldl (placeRegs cs) s).worlds = s.worlds ∧ (l.foldl (placeRegs cs) s).ctxs = s.ctxs ∧ (l.foldl (placeRegs cs) s).srcq = s.srcq ∧ (l.foldl (placeRegs cs) s).dev = s.dev := by
  intro l
  induction l with
  | nil => intro s; exact ⟨rfl, rfl, rfl, rfl⟩
  | cons a l ih => intro s; simp only [List.foldl_cons]; exact ih _

theorem takeUnit_keep : ∀ (l : List Nat) (s : State), (l.foldl takeUnit s).worlds = s.worlds ∧ (l.foldl takeUnit s).ctxs = s.ctxs ∧ (l.foldl takeUnit s).flights = s.flights := by
  intro l
  induction l with
  | nil => intro s; exact ⟨rfl, rfl, rfl⟩
  | cons a l ih =>
    intro s; simp only [List.foldl_cons]
    obtain ⟨x, y, z⟩ := ih (takeUnit s a)
    have k : (takeUnit s a).worlds = s.worlds ∧ (takeUnit s a).ctxs = s.ctxs ∧ (takeUnit s a).flights = s.flights := by
      unfold takeUnit; dsimp only; split <;> exact ⟨rfl, rfl, rfl⟩
    exact ⟨x.trans k.1, y.trans k.2.1, z.trans k.2.2⟩

theorem findTask_id {s : State} {w : BitVec 4} {id : BitVec 32} {x : Machine.Task} (h : findTask s w id = some x) : x.id = id := by
  have := List.find?_some h; simpa using this

end Sys2Proof.Laws
end

