-- ==== Sys2Proof/Laws/Cuts.lean ====
section
/-! SUPPORT.  Lemmas for the statements about cuts, saves and restores. -/

open Sys2Proof Sys2Proof.Machine Sys2Proof.Claims

namespace Sys2Proof.Laws

theorem fail_one (s : State) (w : BitVec 4) (t : Machine.Task) (c : Cause) (h : ∀ y, y ∈ (worldOf s w).tasks → y.id = t.id) : failTask s w t c = stopTask s w t 1 c.code := by
  have ho : (worldOf s w).tasks.filter (fun u => u.id != t.id && regionEff s w u.region 4 == regionEff s w t.region 4) = [] := by
    rw [List.filter_eq_nil_iff]
    intro y hy; rw [h y hy]; simp
  unfold failTask failCode
  simp only [ho, List.foldl_nil, ite_self]

theorem fail_gone (s : State) (w : BitVec 4) (t : Machine.Task) (c : Cause) (h : ∀ y, y ∈ (worldOf s w).tasks → y.id = t.id) : TaskGone (failTask s w t c) w t.id := by
  rw [fail_one s w t c h]; exact stopTask_gone _ _ _ _ _

theorem logOnly_world (s : State) (o : Origin) (r : Report) : worldOf (logOnly s o r) o.ctx.w = { worldOf s o.ctx.w with fltSeq := ((worldOf s o.ctx.w).fltSeq + 1) % 2 ^ 32 } := by
  unfold logOnly; rw [worldOf_congr (logRecord_worlds _ _ _), worldOf_setWorld]

theorem after_cases (s : State) (w : BitVec 4) (id : BitVec 32) {P : State → Prop} (h1 : P s) (h2 : ∀ t b, P (placeTask s w t b)) (h3 : ∀ t, P (putTask s w t)) : P (afterSubject s w id) := by
  unfold afterSubject
  split
  · split
    · exact h2 _ _
    · exact h3 _
  · exact h1

theorem after_seq (s : State) (w : BitVec 4) (id : BitVec 32) : (worldOf (afterSubject s w id) w).fltSeq = (worldOf s w).fltSeq := by
  have h1 : ∀ t b, (worldOf (placeTask s w t b) w).fltSeq = (worldOf s w).fltSeq := by
    intro t b; unfold placeTask consumePkt updPkt; dsimp only; rw [world_upd]; rw [put_world]
  have h2 : ∀ t, (worldOf (putTask s w t) w).fltSeq = (worldOf s w).fltSeq := by intro t; rw [put_world]
  exact after_cases s w id (P := fun u => (worldOf u w).fltSeq = (worldOf s w).fltSeq) rfl h1 h2

theorem finish_seq (s : State) (w : BitVec 4) (t : Machine.Task) (st c : Nat) (x : State) (hx : (if (ctxOf s w t.img.context).resident && (ctxOf s w t.img.context).task == t.id then unloadCtx s w t.img.context else s) = x) : (worldOf (finishTask s w t st c) w).fltSeq = (worldOf x w).fltSeq := by
  unfold finishTask
  dsimp only
  rw [hx]
  obtain ⟨y, hy, _⟩ := cellsFree_spec (afterSubject (completePkt (dropTask x w t.id) w t.queue t.idx st c t.id t.sent) w t.id) w
  rw [hy]
  dsimp only
  rw [after_seq]
  obtain ⟨z, hz⟩ := complete_world (dropTask x w t.id) w t.queue t.idx st c t.id t.sent
  rw [hz]
  dsimp only
  unfold dropTask; dsimp only; rw [worldOf_setWorld]

theorem unload_world (s : State) (w : BitVec 4) (x : Context) : ∃ q, worldOf (unloadCtx s w x) w = { worldOf s w with queues := q } := by
  have h : ∀ (l : List (Nat × Nat × BitVec 32)) (st : State), (∃ q, worldOf st w = { worldOf s w with queues := q }) → ∃ q, worldOf (l.foldl (fun st e => completePkt st w e.1 e.2.1 0 0 e.2.2 0) st) w = { worldOf s w with queues := q } := by
    intro l
    induction l with
    | nil => intro st h; exact h
    | cons e l ih =>
      intro st h
      refine ih _ ?_
      obtain ⟨q, hq⟩ := h
      obtain ⟨z, hz⟩ := complete_world st w e.1 e.2.1 0 0 e.2.2 0
      exact ⟨z, by rw [hz, hq]⟩
  exact h _ _ ⟨_, by rfl⟩

theorem unload_seq (s : State) (w : BitVec 4) (x : Context) : (worldOf (unloadCtx s w x) w).fltSeq = (worldOf s w).fltSeq := by
  obtain ⟨q, h⟩ := unload_world s w x; rw [h]

theorem stop_seq (s : State) (w : BitVec 4) (t : Machine.Task) (st c : Nat) (h : ∀ b, b ∈ s.insts → b.begun = false) : (worldOf (stopTask s w t st c) w).fltSeq = (worldOf s w).fltSeq := by
  have hs : settleBegun s w t.img.context = s := by
    unfold settleBegun
    rw [show s.insts.filter (fun b => inCtx w t.img.context b.node && b.begun) = [] from ?_]
    · rfl
    · rw [List.filter_eq_nil_iff]; intro b hb; rw [h b hb]; simp
  unfold stopTask
  dsimp only
  rw [hs]
  rw [finish_seq _ _ _ _ _ _ rfl]
  have h2 : ∀ (b : Bool) (u : State), u.worlds = s.worlds → (worldOf (if b = true then unloadCtx u w t.img.context else u) w).fltSeq = (worldOf s w).fltSeq := by
    intro b u e
    cases b
    · rw [if_neg (by simp), worldOf_congr e]
    · rw [if_pos rfl, unload_seq, worldOf_congr e]
  exact h2 _ _ (by split <;> rfl)

theorem badHeader_spec (s : State) (x : CtxId) (k : CutSt) : (badHeader s x k).worlds = s.worlds ∧ (badHeader s x k).ctxs = s.ctxs ∧ (badHeader s x k).dev = s.dev ∧ (badHeader s x k).insts = s.insts := by
  unfold badHeader; dsimp only; split <;> exact ⟨rfl, rfl, rfl, rfl⟩

theorem nodeCtx_set (s : State) (n : NodeId) (c : Ctx) : nodeCtx (setCtx s n.w n.x c) n = c := (ctxOf_setCtx s n.w n.w n.x n.x c).trans (if_pos rfl)

theorem return_kept (s : State) (a : BInst) (n : NodeId) : (nodeCtx (returnInst s a) n).cut = (nodeCtx s n).cut ∧ (nodeCtx (returnInst s a) n).nodes = (nodeCtx s n).nodes
    ∧ (returnInst s a).flights = s.flights ∧ (returnInst s a).ops = s.ops ∧ (returnInst s a).insts = s.insts.filter (fun x => !x.isAt a.cell a.seq) := by
  unfold returnInst
  dsimp only
  have hk : (nodeCtx (returnTag s a.node a.spawned) n).cut = (nodeCtx s n).cut ∧ (nodeCtx (returnTag s a.node a.spawned) n).nodes = (nodeCtx s n).nodes := by
    cases a.spawned with
    | none => exact ⟨rfl, rfl⟩
    | some g =>
      have e := ctxOf_setCtx s a.node.w n.w a.node.x n.x { nodeCtx s a.node with tags := mput none (nodeCtx s a.node).tags g.toNat none }
      have e' : nodeCtx (returnTag s a.node (some g)) n = _ := e
      rw [e']
      split
      · next h => constructor <;> (unfold nodeCtx ctxOf; rw [h])
      · exact ⟨rfl, rfl⟩
  have hi : (returnTag s a.node a.spawned).flights = s.flights ∧ (returnTag s a.node a.spawned).ops = s.ops ∧ (returnTag s a.node a.spawned).insts = s.insts := by cases a.spawned <;> exact ⟨rfl, rfl, rfl⟩
  exact ⟨hk.1, hk.2, hi.1, hi.2.1, by rw [hi.2.2]⟩

theorem fold_ret (n : NodeId) : ∀ (l : List BInst) (s : State), (∀ b, b ∈ l → b.node = n) → (nodeCtx (l.foldl returnInst s) n).cut = (nodeCtx s n).cut ∧ (nodeCtx (l.foldl returnInst s) n).nodes = (nodeCtx s n).nodes
    ∧ (∀ b, b ∈ (l.foldl returnInst s).insts ↔ b ∈ s.insts ∧ ∀ y, y ∈ l → b.isAt y.cell y.seq = false) ∧ (l.foldl returnInst s).flights = s.flights ∧ (l.foldl returnInst s).ops = s.ops := by
  intro l
  induction l with
  | nil => intro s _; exact ⟨rfl, rfl, fun b => by simp, rfl, rfl⟩
  | cons a l ih =>
    intro s h
    simp only [List.foldl_cons]
    obtain ⟨h1, h2, h3, h4, h5⟩ := ih (returnInst s a) (fun b hb => h b (List.mem_cons_of_mem _ hb))
    have ha : a.node = n := h a List.mem_cons_self
    obtain ⟨c1, c2, c3, c4, c5⟩ := return_kept s a n
    refine ⟨h1.trans c1, h2.trans c2, ?_, h4.trans c3, h5.trans c4⟩
    · intro b
      rw [h3]
      have : b ∈ (returnInst s a).insts ↔ b ∈ s.insts ∧ b.isAt a.cell a.seq = false := by
        rw [c5, List.mem_filter]; simp
      rw [this]
      constructor
      · rintro ⟨⟨x, y⟩, z⟩
        refine ⟨x, fun q hq => ?_⟩
        rcases List.mem_cons.1 hq with rfl | hq
        · exact y
        · exact z q hq
      · rintro ⟨x, y⟩
        exact ⟨⟨x, y a List.mem_cons_self⟩, fun q hq => y q (List.mem_cons_of_mem _ hq)⟩

theorem cutNode_spec (s : State) (n : NodeId) (k : CutSt) (hk : (nodeCtx s n).cut = some k) : (nodeCtx (cutNode s n) n).cut = some { k with cutNodes := k.cutNodes ++ [n.n] } ∧ (nodeCtx (cutNode s n) n).nodes = (nodeCtx s n).nodes
    ∧ (∀ b, b ∈ (cutNode s n).insts ↔ b ∈ s.insts ∧ ∀ y, y ∈ s.insts → y.node = n → y.begun = false → y.durable = false → b.isAt y.cell y.seq = false) ∧ (cutNode s n).flights = s.flights ∧ (cutNode s n).ops = s.ops := by
  unfold cutNode
  dsimp only
  generalize hs1 : updCut { s with monitors := s.monitors.filter (fun m => !s.firings.any (fun f => f.cell == m.cell && f.seq == m.seq && f.node == n)) } n (fun k => { k with cutNodes := k.cutNodes ++ [n.n] }) = s1
  have e1 : nodeCtx s1 n = { nodeCtx s n with cut := some { k with cutNodes := k.cutNodes ++ [n.n] } } := by
    rw [← hs1]; unfold updCut; rw [nodeCtx_set]
    rw [show nodeCtx { s with monitors := s.monitors.filter (fun m => !s.firings.any (fun f => f.cell == m.cell && f.seq == m.seq && f.node == n)) } n = nodeCtx s n from rfl, hk]; rfl
  have e2 : s1.insts = s.insts ∧ s1.flights = s.flights ∧ s1.ops = s.ops := by rw [← hs1]; exact ⟨rfl, rfl, rfl⟩
  obtain ⟨h1, h2, h3, h4, h5⟩ := fold_ret n (s1.insts.filter (fun b => b.node == n && !b.begun && !b.durable)) s1 (fun b hb => by
    have := (List.mem_filter.1 hb).2; simp at this; exact this.1.1)
  refine ⟨h1.trans (by rw [e1]), h2.trans (by rw [e1]), ?_, h4.trans e2.2.1, h5.trans e2.2.2⟩
  intro b
  rw [h3, e2.1]
  constructor
  · rintro ⟨x, y⟩
    exact ⟨x, fun z hz a b c => y z (List.mem_filter.2 ⟨hz, by simp [a, b, c]⟩)⟩
  · rintro ⟨x, y⟩
    refine ⟨x, fun z hz => ?_⟩
    obtain ⟨p, q⟩ := List.mem_filter.1 hz
    simp at q
    exact y z p q.1.1 q.1.2 q.2

theorem record_spec (u : State) (n : NodeId) (j : CutSt) (hj : (nodeCtx u n).cut = some j) :
    ∃ j2, (nodeCtx (recordNode u n) n).cut = some j2 ∧ j2.epoch = j.epoch ∧ j2.marks = j.marks ∧ j2.chans = j.chans ∧ j2.cutNodes = j.cutNodes ∧ (recordNode u n).insts = u.insts
    ∧ ((∃ b, b ∈ u.insts ∧ b.node = n) → j2.recorded = j.recorded ∧ j2.sent = j.sent)
    ∧ ((∀ b, b ∈ u.insts → b.node ≠ n) → lanternOf u n = none → n.n ∈ j2.recorded ∧ ∀ ch, ch ∈ outChans (nodeCtx u n) n.n →
      (∀ o, o ∈ u.ops → o.node = n → o.port = some ((ch.src.map (fun e => e.port.toNat)).getD 0) → o.isStream = true) → ch.n ∈ j2.sent ∧ (ch.n ∉ j.sent → departs { w := n.w, x := n.x, n := ch.n } { tag := { colour := 0, context := n.x, iter := 0 }, kind := .marker, aux := BitVec.ofNat 12 j.epoch, val := noVal } ∈ (recordNode u n).flights)) := by
  unfold recordNode
  by_cases hs : nodeSettled u n = true
  · rw [if_neg (by rw [hs]; simp)]
    dsimp only
    generalize hd : ((outChans (nodeCtx u n) n.n).filter (fun ch => !((nodeCtx u n).cut.any (fun k => k.sent.contains ch.n)) && !portBusy u n ((ch.src.map (fun e => e.port.toNat)).getD 0))).map (fun ch => ch.n) = due
    have e : nodeCtx (sendMarkers (updCut u n (fun k => { k with recorded := (if k.recorded.contains n.n then k.recorded else k.recorded ++ [n.n]), sent := k.sent ++ due })) { w := n.w, x := n.x } (((nodeCtx u n).cut.map (fun k => k.epoch)).getD 0) due) n
        = { nodeCtx u n with cut := some { j with recorded := (if j.recorded.contains n.n then j.recorded else j.recorded ++ [n.n]), sent := j.sent ++ due } } := by
      refine (nodeCtx_set u n _).trans ?_
      rw [hj]; rfl
    refine ⟨{ j with recorded := (if j.recorded.contains n.n then j.recorded else j.recorded ++ [n.n]), sent := j.sent ++ due }, by rw [e], rfl, rfl, rfl, rfl, rfl, ?_, ?_⟩
    · rintro ⟨b, hb, hn⟩
      unfold nodeSettled at hs
      rw [List.any_eq_true.2 ⟨b, hb, by rw [hn]; simp⟩] at hs
      simp at hs
    · intro _ _
      constructor
      · show n.n ∈ (if j.recorded.contains n.n then j.recorded else j.recorded ++ [n.n])
        split
        · next h => simpa using h
        · simp
      · intro ch hch ho
        by_cases hm : ch.n ∈ j.sent
        · exact ⟨List.mem_append_left _ hm, fun h => absurd hm h⟩
        · have hb : portBusy u n ((ch.src.map (fun e => e.port.toNat)).getD 0) = false := by
            unfold portBusy
            rw [List.any_eq_false]
            intro o hoo
            intro hc
            simp only [Bool.and_eq_true, beq_iff_eq] at hc
            rw [ho o hoo hc.1.1 hc.1.2] at hc
            simp at hc
          have hdue : ch.n ∈ due := by
            rw [← hd]
            refine List.mem_map.2 ⟨ch, List.mem_filter.2 ⟨hch, ?_⟩, rfl⟩
            rw [hj, hb]; simp [hm]
          refine ⟨List.mem_append_right _ hdue, fun _ => ?_⟩
          show _ ∈ u.flights ++ due.map _
          refine List.mem_append_right _ (List.mem_map.2 ⟨ch.n, hdue, ?_⟩)
          rw [hj]; rfl
  · rw [if_pos (by simpa using hs)]
    refine ⟨j, hj, rfl, rfl, rfl, rfl, rfl, fun _ => ⟨rfl, rfl⟩, ?_⟩
    intro h1 h2
    exfalso; apply hs
    unfold nodeSettled
    rw [h2, List.any_eq_false.2 (fun b hb => by simpa using h1 b hb)]; rfl

theorem qspire_fold (sp : Nat) : ∀ (l : List Nat) (q : Word64), sp < 64 → (q.getLsbD sp = true ∨ sp ∈ l) → (l.foldl (fun q sp => q ||| BitVec.ofNat 64 (2 ^ sp)) q).getLsbD sp = true := by
  intro l
  induction l with
  | nil =>
    intro q _ h
    rcases h with h | h
    · exact h
    · cases h
  | cons a l ih =>
    intro q hs h
    simp only [List.foldl_cons]
    apply ih _ hs
    rcases h with h | h
    · left; simp [h]
    · rcases List.mem_cons.1 h with rfl | h
      · left
        rw [BitVec.getLsbD_or, BitVec.getLsbD_ofNat, decide_eq_true hs, Nat.testBit_two_pow_self]; simp
      · exact Or.inr h

theorem fail_dev (s : State) (w : BitVec 4) (t : Machine.Task) (c : Cause) (h1 : ∀ y, y ∈ (worldOf s w).tasks → y.id = t.id) (h : ∀ b, b ∈ s.insts → b.begun = false) : (failTask s w t c).dev = s.dev := by
  rw [fail_one s w t c h1]
  have hs : settleBegun s w t.img.context = s := by
    unfold settleBegun
    rw [show s.insts.filter (fun b => inCtx w t.img.context b.node && b.begun) = [] from ?_]
    · rfl
    · rw [List.filter_eq_nil_iff]; intro b hb; rw [h b hb]; simp
  unfold stopTask finishTask
  dsimp only
  rw [hs, cellsFree_dev, afterSubject_dev, completePkt_dev, dropTask_dev]
  have h2 : ∀ (a b : State) (q : Bool), a.dev = s.dev → b.dev = s.dev → (if q = true then a else b).dev = s.dev := by intro a b q ha hb; cases q; exact hb; exact ha
  have h3 : ∀ b : Bool, (if b = true then ({ s with ops := s.ops.filter (fun o => !inCtx w t.img.context o.node) } : State) else s).dev = s.dev := by intro b; cases b <;> rfl
  exact h2 _ _ _ ((unloadCtx_dev _ _ _).trans (h3 _)) (h3 _)

theorem failSave_spec (s : State) (x : CtxId) (k : CutSt) (u : Machine.Task) (hu : findTask s x.w (ctxOf s x.w x.x).task = some u) (h1 : ∀ y, y ∈ (worldOf s x.w).tasks → y.id = u.id) :
    TaskGone (failSave s x k) x.w u.id ∧ ((∀ b, b ∈ s.insts → b.begun = false) → Recorded s (failSave s x k) x.w ∧ ∀ sp, sp ∈ (ctxOf s x.w x.x).spires → sp < 64 → (failSave s x k).dev.qspire.getLsbD sp = true) := by
  obtain ⟨b1, b2, b3, b4⟩ := badHeader_spec s x k
  unfold failSave
  dsimp only
  generalize hs2 : ({ badHeader s x k with dev := { (badHeader s x k).dev with qspire := (ctxOf s x.w x.x).spires.foldl (fun q sp => q ||| BitVec.ofNat 64 (2 ^ sp)) (badHeader s x k).dev.qspire } } : State) = s2
  have d1 : s2.worlds = s.worlds ∧ s2.insts = s.insts ∧ s2.dev.qspire = (ctxOf s x.w x.x).spires.foldl (fun q sp => q ||| BitVec.ofNat 64 (2 ^ sp)) s.dev.qspire := by
    rw [← hs2]; exact ⟨b1, b4, by rw [← b3]⟩
  generalize ho : ({ ctx := x, colour := (ctxOf s x.w x.x).colour, iter := 0, cell := 0, node := 0, blk := 0, slot := 0, nest := false, source := 3, gen := 0 } : Origin) = o
  have hox : o.ctx = x := by rw [← ho]
  have d2 := logOnly_world s2 o { cause := .preempted, trap := k.epoch % 4096 }
  rw [hox, worldOf_congr d1.1] at d2
  have d3 : (logOnly s2 o { cause := .preempted, trap := k.epoch % 4096 }).dev = s2.dev := logOnly_dev _ _ _
  have d4 : (logOnly s2 o { cause := .preempted, trap := k.epoch % 4096 }).insts = s.insts := (logOnly_insts _ _ _).trans d1.2.1
  generalize logOnly s2 o { cause := .preempted, trap := k.epoch % 4096 } = s3 at d2 d3 d4
  have hf : findTask s3 x.w (ctxOf s x.w x.x).task = some u := by rw [find_of_tasks (s := s) (by rw [d2])]; exact hu
  rw [hf]
  dsimp only
  generalize hs4 : ({ s3 with invs := s3.invs.map (fun v => if inCtx x.w x.x v.node then { v with held := [] } else v) } : State) = s4
  have e1 : s4.worlds = s3.worlds ∧ s4.dev = s3.dev ∧ s4.insts = s3.insts := by rw [← hs4]; exact ⟨rfl, rfl, rfl⟩
  have g1 : ∀ y, y ∈ (worldOf s4 x.w).tasks → y.id = u.id := by rw [worldOf_congr e1.1, d2]; exact h1
  refine ⟨?_, ?_⟩
  · unfold TaskGone
    rw [worldOf_congr (clearCells_worlds _ _)]
    exact fail_gone _ _ _ _ g1
  · intro hb
    have hb4 : ∀ b, b ∈ s4.insts → b.begun = false := by rw [e1.2.2, d4]; exact hb
    constructor
    · unfold Recorded
      rw [worldOf_congr (clearCells_worlds _ _), fail_one _ _ _ _ g1, stop_seq _ _ _ _ _ hb4, worldOf_congr e1.1, d2]
    · intro sp hsp hlt
      rw [clearCells_dev, fail_dev _ _ _ _ g1 hb4, e1.2.1, d3, d1.2.2]
      exact qspire_fold sp _ _ hlt (Or.inr hsp)

theorem wordCells_ge : ∀ (l : List Nat) (a : Nat) (c : Host.Cell), c ∈ wordCells a l → a ≤ c.1 := by
  intro l
  induction l with
  | nil => intro a c h; cases h
  | cons v l ih =>
    intro a c h
    rcases List.mem_append.1 h with h | h
    · exact (mem_cellsOf h).1
    · have := ih _ _ h; omega

theorem word8_words : ∀ (l : List Nat) (a i : Nat) (m : List Host.Cell), i < l.length → word8 (putBytes m (wordCells a l)) a i = l.getD i 0 % 2 ^ 64 := by
  intro l
  induction l with
  | nil => intro a i m h; cases h
  | cons v l ih =>
    intro a i m h
    show word8 (putBytes m (cellsOf a 8 v ++ wordCells (a + 8) l)) a i = _
    rw [putBytes_append]
    cases i with
    | zero =>
      unfold word8
      rw [readLE_putBytes_other _ _ _ _ (fun c hc => by have := wordCells_ge _ _ _ hc; omega), show a + 8 * 0 = a by omega, readLE_cellsOf]
      rfl
    | succ i =>
      have := ih (a + 8) i (putBytes m (cellsOf a 8 v)) (by simpa using h)
      rw [show (v :: l).getD (i + 1) 0 = l.getD i 0 from rfl, ← this]
      unfold word8
      rw [show a + 8 * (i + 1) = a + 8 + 8 * i by omega]

theorem after_cases' (s : State) (w : BitVec 4) (id : BitVec 32) {P : State → Prop} (h1 : P s) (h2 : ∀ t b, t ∈ (worldOf s w).tasks → t.st = .awaiting id → P (placeTask s w t b)) (h3 : ∀ t, t ∈ (worldOf s w).tasks → t.st = .awaiting id → P (putTask s w { t with st := .queued, spires := [], since := s.now })) : P (afterSubject s w id) := by
  unfold afterSubject
  split
  · next t ht =>
    have a1 := List.mem_of_find?_eq_some ht
    have a2 : t.st = .awaiting id := by have := List.find?_some ht; simpa using this
    split
    · exact h2 _ _ a1 a2
    · exact h3 _ a1 a2
  · exact h1

theorem place_find (s : State) (w : BitVec 4) (t : Machine.Task) (b : Bool) (id : BitVec 32) (h : t.id ≠ id) : findTask (placeTask s w t b) w id = findTask s w id := by
  unfold placeTask consumePkt updPkt
  dsimp only
  rw [find_of_tasks (s := putTask s w { t with st := .launching, spires := chooseSpires s w t b, heldAt := (if t.st = .queued then s.now else t.heldAt), sliceAt := s.now, quar := b, pos := t.img.sections.map (fun _ => 0) }) (by rw [world_upd])]
  exact findTask_put_other _ _ _ _ h

theorem place_nctr (s : State) (w : BitVec 4) (t : Machine.Task) (b : Bool) : (worldOf (placeTask s w t b) w).nctr = (worldOf s w).nctr := by
  unfold placeTask consumePkt updPkt; dsimp only; rw [world_upd]; rw [put_world]

theorem mem_updFirst {α : Type} (p : α → Bool) (f : α → α) : ∀ (l : List α) (x : α), x ∈ updFirst p f l → x ∈ l ∨ ∃ y, y ∈ l ∧ p y = true ∧ x = f y := by
  intro l
  induction l with
  | nil => intro x h; cases h
  | cons a l ih =>
    intro x h
    unfold updFirst at h
    split at h
    · rcases List.mem_cons.1 h with rfl | h
      · exact Or.inr ⟨a, List.mem_cons_self, ‹_›, rfl⟩
      · exact Or.inl (List.mem_cons_of_mem _ h)
    · rcases List.mem_cons.1 h with rfl | h
      · exact Or.inl List.mem_cons_self
      · rcases ih x h with h | ⟨y, h, q⟩
        · exact Or.inl (List.mem_cons_of_mem _ h)
        · exact Or.inr ⟨y, List.mem_cons_of_mem _ h, q⟩

theorem requeue_spec (s : State) (w : BitVec 4) (u : Machine.Task) {u0 : Machine.Task} (hu : findTask s w u.id = some u0) : (worldOf (requeue s w u) w).nctr = (worldOf s w).nctr
    ∧ ((∀ y, y ∈ (worldOf s w).tasks → y.st = .awaiting u.id → y.id ≠ u.id) → findTask (requeue s w u) w u.id = some { u with st := .queued, saved := true, since := s.now, spires := [], toCut := false }) := by
  unfold requeue
  dsimp only
  generalize hU : ({ u with st := .queued, saved := true, since := s.now, spires := [], toCut := false } : Machine.Task) = U
  have hid : U.id = u.id := by rw [← hU]
  have hst : U.st = .queued := by rw [← hU]
  obtain ⟨z, hz, _⟩ := cellsFree_spec (afterSubject (putTask s w U) w u.id) w
  constructor
  · rw [hz]
    dsimp only
    refine after_cases (putTask s w U) w u.id (P := fun v => (worldOf v w).nctr = (worldOf s w).nctr) ?_ ?_ ?_
    · rw [put_world]
    · intro t b; rw [place_nctr, put_world]
    · intro t; rw [put_world, put_world]
  · intro h
    rw [find_of_tasks (s := afterSubject (putTask s w U) w u.id) (by rw [hz])]
    have h0 : findTask (putTask s w U) w u.id = some U := by
      rw [← hid]; exact findTask_put s w U u0 (by rw [hid]; exact hu)
    have hne : ∀ t, t ∈ (worldOf (putTask s w U) w).tasks → t.st = .awaiting u.id → t.id ≠ u.id := by
      intro t ht hs
      rw [put_world] at ht
      rcases mem_updFirst _ _ _ _ ht with ht | ⟨_, _, _, rfl⟩
      · exact h t ht hs
      · rw [hst] at hs; cases hs
    refine after_cases' (putTask s w U) w u.id (P := fun v => findTask v w u.id = some U) h0 ?_ ?_
    · intro t b ht hs; rw [place_find _ _ _ _ _ (hne t ht hs)]; exact h0
    · intro t ht hs; exact (findTask_put_other (putTask s w U) w { t with st := .queued, spires := [], since := (putTask s w U).now } u.id (hne t ht hs)).trans h0

theorem requeue_mem' (s : State) (w : BitVec 4) (u : Machine.Task) (h : ∀ y, y ∈ (worldOf s w).tasks → y.st ≠ .awaiting u.id) : (requeue s w u).mem = s.mem := by
  unfold requeue
  dsimp only
  generalize hU : ({ u with st := .queued, saved := true, since := s.now, spires := [], toCut := false } : Machine.Task) = U
  have hst : U.st = .queued := by rw [← hU]
  obtain ⟨z, _, hz, _⟩ := cellsFree_spec (afterSubject (putTask s w U) w u.id) w
  rw [hz]
  have hne : ∀ t, t ∈ (worldOf (putTask s w U) w).tasks → t.st = .awaiting u.id → False := by
    intro t ht hs
    rw [put_world] at ht
    rcases mem_updFirst _ _ _ _ ht with ht | ⟨_, _, _, rfl⟩
    · exact h t ht hs
    · rw [hst] at hs; cases hs
  exact after_cases' (putTask s w U) w u.id (P := fun v => v.mem = s.mem) rfl (fun t b ht hs => (hne t ht hs).elim) (fun t ht hs => (hne t ht hs).elim)

theorem header_low (w x e c p : Nat) (hw : w < 16) (hx : x < 256) (q : Nat) : (w + x * 2 ^ 4 + 1 * 2 ^ 12 + p * 2 ^ 14 + c * 2 ^ 15 + q % 4096 * 2 ^ 17) % 2 ^ 14 = w + x * 2 ^ 4 + 2 ^ 12 := by omega

theorem header_swap {w x c p : Nat} (hw : w < 16) (hx : x < 256) (hc : c < 4) (hp : p < 2) (q : Nat) : field (w + x * 2 ^ 4 + 1 * 2 ^ 12 + p * 2 ^ 14 + c * 2 ^ 15 + q % 4096 * 2 ^ 17) 14 1 = p := by
  show _ / 2 ^ 14 % 2 ^ 1 = p; omega

theorem header_cur {w x c p : Nat} (hw : w < 16) (hx : x < 256) (hc : c < 4) (hp : p < 2) (q : Nat) : field (w + x * 2 ^ 4 + 1 * 2 ^ 12 + p * 2 ^ 14 + c * 2 ^ 15 + q % 4096 * 2 ^ 17) 15 2 = c := by
  show _ / 2 ^ 15 % 2 ^ 2 = c; omega

theorem unload_plain {s : State} {w : BitVec 4} {x : Context} (h : purgePackets (ctxOf s w x) = []) : unloadCtx s w x = dropConfig (dropWork s w x) w x := by
  unfold unloadCtx; rw [h]; rfl

set_option maxHeartbeats 4000000 in
theorem image_spec (s : State) (x : CtxId) (k : CutSt) (u : Machine.Task) (pa body : Nat) (hu : findTask s x.w u.id = some u) (hp : purgePackets (ctxOf s x.w x.x) = []) :
    let c := ctxOf s x.w x.x
    let t := writeImage s x k u pa body
    let nonce := mget 0 (worldOf s x.w).nctr x.x.toNat + 1
    ∃ v, mget none t.images pa = some v ∧ v.pa = pa ∧ v.ctx = c ∧ v.at_ = k.at_ ∧ v.header.length = 6
          ∧ v.header.getD 0 0 % 2 ^ 14 = x.w.toNat + x.x.toNat * 2 ^ 4 + 2 ^ 12 ∧ v.header.getD 1 0 = nonce % 2 ^ 64 ∧ v.header.getD 2 0 = body ∧ v.header.getD 4 0 = c.spires.length
          ∧ field (v.header.getD 0 0) 14 1 = (if swapWaits s x then 1 else 0) ∧ field (v.header.getD 0 0) 15 2 = belCur (worldOf s x.w).belfry ∧ v.skey = (worldOf s x.w).saveKey ∧ v.drains = pendingDrains s x
          ∧ v.ptoks = savedToks s x ∧ v.srcq = s.srcq.filter (fun e => e.1.w == x.w && e.1.x == x.x)
          ∧ (let mine (n : NodeId) : Bool := n.w == x.w && n.x == x.x
            v.outq = s.outq.filter (fun o => mine o.at_.node) ∧ v.firings = s.firings.filter (fun f => mine f.node) ∧ v.invs = s.invs.filter (fun i => mine i.node) ∧ v.nests = s.nests.filter (fun r => mine r.node)
            ∧ v.groups = s.groups.filter (fun g => mine g.node) ∧ v.streams = s.ops.filter (fun o => mine o.node))
          ∧ ((∀ y, y ∈ (worldOf s x.w).tasks → y.st ≠ .awaiting u.id) → ∀ i, i < 6 → word8 t.mem pa i = v.header.getD i 0 % 2 ^ 64) ∧ (ctxOf t x.w x.x).resident = false ∧ mget 0 (worldOf t x.w).nctr x.x.toNat = nonce
          ∧ ((∀ y, y ∈ (worldOf s x.w).tasks → y.st = .awaiting u.id → y.id ≠ u.id) → findTask t x.w u.id = some { u with st := .queued, saved := true, since := s.now, spires := [], toCut := false, carve := c.carve }) := by
  intro c t nonce
  let v := savedOf s x pa s.free (headerWords s x 1 (if swapWaits s x then 1 else 0) (belCur (worldOf s x.w).belfry) k.epoch nonce body (recordCount s x)) k.at_
  let s2 := setWorld (clearHits s x) x.w { worldOf s x.w with nctr := mput 0 (worldOf s x.w).nctr x.x.toNat nonce, drains := if v.drains != [] then [] else (worldOf s x.w).drains }
  let s3 : State := { s2 with free := s2.free + 1, images := mput none s2.images pa (some v), ptoks := s2.ptoks.filter (fun p => !p.chan.any (fun c => c.w == x.w && c.x == x.x)) }
  let s4 := devWrite (unloadCtx s3 x.w x.x) (imageCells pa v.key v.header body)
  have ht : t = requeue s4 x.w { u with carve := c.carve } := rfl
  have w2 : worldOf s2 x.w = { worldOf s x.w with nctr := mput 0 (worldOf s x.w).nctr x.x.toNat nonce, drains := if v.drains != [] then [] else (worldOf s x.w).drains } := worldOf_setWorld _ _ _
  have w4 : worldOf s4 x.w = worldOf s2 x.w := worldOf_congr (s := s2) (t := s4) (unloadCtx_worlds (s := s3) hp) x.w
  obtain ⟨r1, r2⟩ := requeue_spec s4 x.w { u with carve := c.carve } (u0 := u) (by rw [find_of_tasks (s := s) (by rw [w4, w2])]; exact hu)
  have hhdr : v.header = [x.w.toNat + x.x.toNat * 2 ^ 4 + 1 * 2 ^ 12 + (if swapWaits s x then 1 else 0) * 2 ^ 14 + belCur (worldOf s x.w).belfry * 2 ^ 15 + k.epoch % 4096 * 2 ^ 17, nonce % 2 ^ 64, body, recordCount s x, c.spires.length, 0] := rfl
  have hx := x.w.isLt
  have hxx := x.x.isLt
  have hcu : belCur (worldOf s x.w).belfry < 4 := Nat.mod_lt _ (by decide)
  have hsw : (if swapWaits s x then 1 else 0 : Nat) < 2 := by split <;> omega
  refine ⟨v, ?_, rfl, rfl, rfl, rfl, ?_, rfl, rfl, rfl, ?_, ?_, rfl, rfl, rfl, rfl, ⟨rfl, rfl, rfl, rfl, rfl, rfl⟩, ?_, ?_, ?_, ?_⟩
  · rw [ht, requeue_images]
    show mget none (unloadCtx s3 x.w x.x).images pa = some v
    rw [unload_plain (s := s3) hp]
    exact mget_mput_same (α := Option Saved) (d := none) s2.images pa (some v)
  · rw [hhdr]; exact header_low _ _ k.epoch _ _ x.w.isLt x.x.isLt _
  · rw [hhdr]; exact header_swap hx hxx hcu hsw _
  · rw [hhdr]; exact header_cur hx hxx hcu hsw _
  · intro hna i hi
    have hm : t.mem = putBytes (unloadCtx s3 x.w x.x).mem (imageCells pa v.key v.header body) := by
      rw [ht, requeue_mem' s4 x.w { u with carve := c.carve } (by rw [w4, w2]; exact hna)]; rfl
    rw [hm]
    unfold imageCells
    rw [putBytes_append]
    exact word8_words _ _ _ _ (by rw [hhdr]; exact hi)
  · have hc : (ctxOf t x.w x.x) = {} := by
      rw [ht]; unfold ctxOf; rw [requeue_ctxs]
      show mget {} (unloadCtx s3 x.w x.x).ctxs (ctxKey x.w x.x) = {}
      rw [unload_plain (s := s3) hp]
      exact (ctxOf_setCtx _ x.w x.w x.x x.x {}).trans (if_pos rfl)
    rw [hc]
  · rw [ht, r1, w4, w2]; exact mget_mput_same (d := 0) (worldOf s x.w).nctr x.x.toNat nonce
  · intro h
    rw [ht]
    have r3 := r2 (by rw [w4, w2]; exact h)
    have hn : s4.now = s.now := by
      show (unloadCtx s3 x.w x.x).now = _
      rw [unload_plain (s := s3) hp]; rfl
    rw [hn] at r3
    exact r3

theorem restoreCur_spec (s : State) (x : CtxId) (v : Saved) :
    let b := (worldOf s x.w).belfry
    let cur := field (v.header.getD 0 0) 15 2
    let back := x.x ∈ belfrySeq (worldOf s x.w) ∧ cur ≤ belSeq b ∧ (belCtx b cur = x.x ∨ ∀ y, y ∈ belfrySeq (worldOf s x.w) → y ≠ x.x → ¬ ((ctxOf s x.w y).resident = true ∧ (ctxOf s x.w y).launched = true))
    ∃ e, worldOf (restoreCur s x v) x.w = { worldOf s x.w with belfry := e } ∧ (back → e = withCur b cur) ∧ (¬ back → e = b) ∧ restoreCur s x v = { s with worlds := (restoreCur s x v).worlds } := by
  intro b cur back
  have hc : bits (v.header.getD 0 0) 16 15 = cur := rfl
  have key : ((belfrySeq (worldOf s x.w)).contains x.x && decide (cur ≤ belSeq b) && (belCtx b cur == x.x || !(belfrySeq (worldOf s x.w)).any (fun y => y != x.x && (ctxOf s x.w y).resident && (ctxOf s x.w y).launched))) = true ↔ back := by
    rw [Bool.and_eq_true, Bool.and_eq_true, Bool.or_eq_true, List.contains_iff_mem, decide_eq_true_iff, beq_iff_eq, Bool.not_eq_true', List.any_eq_false, and_assoc]
    simp only [Bool.and_eq_true, bne_iff_ne, and_assoc, not_and]
    show _ ↔ _ ∧ _ ∧ (_ ∨ ∀ y, _ → _ → ¬ (_ ∧ _))
    simp only [not_and]
  unfold restoreCur
  dsimp only
  rw [hc]
  by_cases h : back
  · rw [if_pos (key.2 h)]
    exact ⟨_, worldOf_setWorld _ _ _, fun _ => rfl, fun e => absurd h e, rfl⟩
  · rw [if_neg (fun e => h (key.1 e))]
    exact ⟨_, rfl, fun e => absurd e h, fun _ => rfl, rfl⟩

theorem sendDue_spec (s : State) (w : BitVec 4) (x : Context) :
    let c := ctxOf s w x
    let go (e : Context × Token) : List (ChanId × Token) := c.starts.filterMap (fun n => (startChan c n).map (fun k =>
      (({ w := w, x := x, n := k } : ChanId), ({ tag := { colour := c.colour, context := x, iter := 0 }, kind := .data, aux := 0, val := firstSlots [e.2.aux.zeroExtend 32] } : Token))))
    let t := sendDue s w x
    t.srcq = s.srcq ++ ((worldOf s w).goDue.filter (fun e => e.1 == x)).flatMap go ∧ worldOf t w = { worldOf s w with goDue := (worldOf s w).goDue.filter (fun e => e.1 != x) }
    ∧ t = { s with worlds := t.worlds, srcq := t.srcq, ctls := t.ctls } := by
  intro c go t
  have h : ∀ (l : List (Context × Token)) (u : State), u.ctxs = s.ctxs →
      let r := l.foldl (fun st e => sendGo st w x e.2) u
      r.srcq = u.srcq ++ l.flatMap go ∧ r = { u with srcq := r.srcq, ctls := r.ctls } := by
    intro l
    induction l with
    | nil => intro u _; exact ⟨by simp, rfl⟩
    | cons e l ih =>
      intro u hu
      rw [List.foldl_cons]
      have hcu : ctxOf u w x = c := by unfold ctxOf; rw [hu]; rfl
      obtain ⟨i1, i2⟩ := ih (sendGo u w x e.2) hu
      have h1 : (sendGo u w x e.2).srcq = u.srcq ++ go e := by
        show u.srcq ++ (ctxOf u w x).starts.filterMap (fun n => (startChan (ctxOf u w x) n).map (fun k => (({ w := w, x := x, n := k } : ChanId), ({ tag := { colour := (ctxOf u w x).colour, context := x, iter := 0 }, kind := .data, aux := 0, val := firstSlots [e.2.aux.zeroExtend 32] } : Token)))) = _
        rw [hcu]
      refine ⟨?_, ?_⟩
      · rw [i1, h1, List.flatMap_cons, List.append_assoc]
      · rw [i2]; rfl
  obtain ⟨h1, h2⟩ := h ((worldOf s w).goDue.filter (fun e => e.1 == x)) (setWorld s w { worldOf s w with goDue := (worldOf s w).goDue.filter (fun e => e.1 != x) }) rfl
  have ht : t = ((worldOf s w).goDue.filter (fun e => e.1 == x)).foldl (fun st e => sendGo st w x e.2) (setWorld s w { worldOf s w with goDue := (worldOf s w).goDue.filter (fun e => e.1 != x) }) := rfl
  rw [← ht] at h1 h2
  refine ⟨h1, ?_, ?_⟩
  · rw [h2]; exact worldOf_setWorld s w _
  · rw [h2]; rfl

theorem image_valid (s : State) (x : CtxId) (v : Saved) : imageOk s x = some v ↔ (arenaReach s x.w (arenaOf s x).1 64 = true ∧ field (word8 s.mem (arenaOf s x).1 0) 12 2 = 1 ∧ field (word8 s.mem (arenaOf s x).1 0) 0 4 = x.w.toNat ∧ field (word8 s.mem (arenaOf s x).1 0) 4 8 = x.x.toNat
        ∧ word8 s.mem (arenaOf s x).1 1 = mget 0 (worldOf s x.w).nctr x.x.toNat ∧ mget none s.images (arenaOf s x).1 = some v ∧ v.skey = (worldOf s x.w).saveKey ∧ v.pa = (arenaOf s x).1 ∧ (List.range 6).map (word8 s.mem (arenaOf s x).1) = v.header
        ∧ (∀ i, i < 16 → byteAt s.mem ((arenaOf s x).1 + 48 + i) = Config.cipherByte v.key i) ∧ ∀ i, i < word8 s.mem (arenaOf s x).1 2 → byteAt s.mem ((arenaOf s x).1 + 64 + i) = Config.cipherByte v.key (16 + i)) := by
  unfold imageOk
  dsimp only
  generalize (arenaOf s x).1 = pa
  generalize hR : arenaReach s x.w pa 64 = R
  generalize hM : s.mem = m
  have hl : ((List.range 8).map (word8 m pa)).getD 0 0 = word8 m pa 0 ∧ ((List.range 8).map (word8 m pa)).getD 1 0 = word8 m pa 1 ∧ ((List.range 8).map (word8 m pa)).getD 2 0 = word8 m pa 2 ∧ ((List.range 8).map (word8 m pa)).take 6 = (List.range 6).map (word8 m pa) := ⟨rfl, rfl, rfl, rfl⟩
  rw [hl.1, hl.2.1, hl.2.2.1, hl.2.2.2]
  generalize word8 m pa 0 = w0
  generalize word8 m pa 1 = w1
  generalize word8 m pa 2 = w2
  generalize (List.range 6).map (word8 m pa) = H
  have f1 : bits w0 13 12 = field w0 12 2 := rfl
  have f2 : bits w0 3 0 = field w0 0 4 := rfl
  have f3 : bits w0 11 4 = field w0 4 8 := rfl
  rw [f1, f2, f3]
  by_cases g : R = true ∧ field w0 12 2 = 1 ∧ field w0 0 4 = x.w.toNat ∧ field w0 4 8 = x.x.toNat ∧ w1 = mget 0 (worldOf s x.w).nctr x.x.toNat
  · obtain ⟨g1, g2, g3, g4, g5⟩ := g
    rw [if_neg (by rw [g1, g2, g3, g4, g5]; simp)]
    rw [Option.filter_eq_some_iff]
    simp only [Bool.and_eq_true, beq_iff_eq, List.all_eq_true, List.mem_range, and_assoc]
    constructor
    · rintro ⟨a, b, c, d, e, f⟩; exact ⟨g1, g2, g3, g4, g5, a, b, c, d, e, f⟩
    · rintro ⟨_, _, _, _, _, a, b, c, d, e, f⟩; exact ⟨a, b, c, d, e, f⟩
  · rw [if_pos]
    · constructor
      · intro h; cases h
      · rintro ⟨a, b, c, d, e, _⟩; exact absurd ⟨a, b, c, d, e⟩ g
    · cases R with
      | false => rfl
      | true =>
        simp only [Bool.not_true, Bool.false_or, Bool.or_eq_true, bne_iff_ne, ne_eq]
        by_cases a1 : field w0 12 2 = 1
        · by_cases a2 : field w0 0 4 = x.w.toNat
          · by_cases a3 : field w0 4 8 = x.x.toNat
            · right; intro a4; exact g ⟨rfl, a1, a2, a3, a4⟩
            · left; right; exact a3
          · left; left; right; exact a2
        · left; left; left; exact a1

theorem place_saved (s : State) (x : CtxId) (v : Saved) (hb : v.binds = []) :
    let t := placeSaved s x v
    let new := ctxOf s x.w x.x
    ctxOf t x.w x.x = mergeCtx new v.ctx ∧ t.srcq = s.srcq ++ v.srcq ∧ t.nests = s.nests ++ v.nests ∧ t.goWaits = s.goWaits ++ v.goWaits ∧ t.outq = s.outq ++ v.outq.map (fun o => { o with since := s.now })
          ∧ t.ptoks.map (fun p => (p.at_, p.tok)) = s.ptoks.map (fun p => (p.at_, p.tok)) ++ v.ptoks.map (fun p => (p.at_, p.tok))
          ∧ t.groups = s.groups ++ v.groups.map (fun g => { g with cell := movedCell v.ctx.spires new.spires g.cell }) ∧ t.worlds = s.worlds ∧ t.dev = s.dev := by
  intro t new
  refine ⟨?_, ?_, ?_, ?_, ?_, ?_, ?_, placeSaved_worlds _ _ _, placeSaved_dev _ _ _⟩
  all_goals unfold t placeSaved; rw [hb]; dsimp only [List.foldl_nil]
  · unfold ctxOf; rw [startTimers_ctxs]; dsimp only; rw [restoreFirings_ctxs]
    exact (ctxOf_setCtx s x.w x.w x.x x.x _).trans (if_pos rfl)
  · rw [startTimers_srcq]; dsimp only; rw [restoreFirings_srcq]; rfl
  · rw [startTimers_nests]; dsimp only; rw [restoreFirings_nests]; rfl
  · rw [startTimers_goWaits]; dsimp only; rw [restoreFirings_goWaits]; rfl
  · rw [startTimers_outq]; dsimp only; rw [restoreFirings_outq]; rfl
  · rw [startTimers_ptoks]; dsimp only; rw [restoreFirings_ptoks]
    rw [List.map_append, List.map_map]; rfl
  · rw [startTimers_groups]; dsimp only; rw [restoreFirings_groups]; rfl

theorem place_other (s : State) (x : CtxId) (v : Saved) (hb : v.binds = []) (y : Context) (h : y ≠ x.x) : ctxOf (placeSaved s x v) x.w y = ctxOf s x.w y := by
  unfold placeSaved
  rw [hb]
  dsimp only [List.foldl_nil]
  unfold ctxOf
  rw [startTimers_ctxs]
  dsimp only
  rw [restoreFirings_ctxs]
  refine (ctxOf_setCtx s x.w x.w x.x y _).trans (if_neg ?_)
  unfold ctxKey; intro e; exact h (BitVec.eq_of_toNat_eq (by omega))

theorem purge_of_done {s : State} {x : CtxId} {k : CutSt} (h : cutDone s x k = true) : purgePackets (ctxOf s x.w x.x) = [] := by
  unfold cutDone at h
  simp only [Bool.and_eq_true, Option.isNone_iff_eq_none, beq_iff_eq] at h
  unfold purgePackets
  rw [h.1.1.1.1.1.1.1.1.1.2, h.1.1.1.1.1.1.1.1.2]
  rfl

theorem deliver_tasks (s : State) (o : Origin) (r : Report) : worldOf (deliverRecord s o r false) o.ctx.w = { worldOf s o.ctx.w with fltSeq := ((worldOf s o.ctx.w).fltSeq + 1) % 2 ^ 32 } := by
  unfold deliverRecord
  dsimp only
  rw [if_neg (by simp), worldOf_congr (logRecord_worlds _ _ _), worldOf_setWorld]
  have : ∀ a, (sendExc s o.ctx r.cause a 0xFFFF).worlds = s.worlds := by intro a; unfold sendExc; split <;> rfl
  rw [worldOf_congr (this _)]

end Sys2Proof.Laws
end

