-- ==== Sys2Proof/Laws/Registers.lean ====
section
/-! SUPPORT.  Lemmas for the statements about the registers of a function. -/

open Sys2Proof Sys2Proof.Machine Sys2Proof.Claims

namespace Sys2Proof.Laws

theorem mupd_same {α : Type} [DecidableEq α] (d : α) (m : FMap α) (k : Nat) (f : α → α) : mget d (mupd d m k f) k = f (mget d m k) := mget_mput_same _ _ _ _

theorem cellsFree_only (s : State) (w : BitVec 4) : ∃ x, cellsFree s w = { s with worlds := x } := by
  unfold cellsFree
  have : ∀ (l : List Nat) (s : State), ∃ x, l.foldl (fun st k => addDispatch st w k) s = { s with worlds := x } := by
    intro l
    induction l with
    | nil => intro s; exact ⟨s.worlds, rfl⟩
    | cons k l ih =>
      intro s
      simp only [List.foldl_cons]
      obtain ⟨x, h⟩ := ih (addDispatch s w k)
      have : ∃ y, addDispatch s w k = { s with worlds := y } := by
        exact ⟨_, rfl⟩
      obtain ⟨y, h2⟩ := this
      exact ⟨x, by rw [h, h2]⟩
  exact this _ s

theorem free_only (s : State) : ∃ x, allCellsFree s = { s with worlds := x } := by
  unfold allCellsFree
  have : ∀ (l : List (BitVec 4)) (s : State), ∃ x, l.foldl cellsFree s = { s with worlds := x } := by
    intro l
    induction l with
    | nil => intro s; exact ⟨s.worlds, rfl⟩
    | cons k l ih =>
      intro s
      simp only [List.foldl_cons]
      obtain ⟨x, h⟩ := ih (cellsFree s k)
      obtain ⟨y, h2⟩ := cellsFree_only s k
      exact ⟨x, by rw [h, h2]⟩
  exact this _ s

theorem cutBad_clear (s : State) : (cutBad s).dev = s.dev ∧ ∀ w y, y ∈ (worldOf (cutBad s) w).tasks → y.st = .running → ∀ sp, sp ∈ y.spires → spireBad (cutBad s) sp = false := by
  have hd : (cutBad s).dev = s.dev := cutBad_dev s
  have hb : ∀ {t : State}, t.dev = s.dev → ∀ sp, spireBad t sp = spireBad s sp := by intro t h sp; unfold spireBad; rw [h]
  refine ⟨hd, ?_⟩
  intro w y hy hr sp hsp
  rw [hb hd]
  let f : State → BitVec 4 → State := fun st w =>
      let ww := worldOf st w
      setWorld st w { ww with tasks := ww.tasks.map (fun t => if t.st == .running && t.spires.any (spireBad st) then { t with st := .cutting, cuts := t.cuts + 1 } else t) }
  let good (t : State) (w : BitVec 4) : Prop := ∀ y, y ∈ (worldOf t w).tasks → y.st = .running → ∀ sp, sp ∈ y.spires → spireBad s sp = false
  have one : ∀ (t : State) (v : BitVec 4), t.dev = s.dev → (f t v).dev = s.dev ∧ good (f t v) v ∧ ∀ u, good t u → good (f t v) u := by
    intro t v ht
    have hv : good (f t v) v := by
      intro y hy hr sp hsp
      have hy : y ∈ (worldOf (setWorld t v { worldOf t v with tasks := (worldOf t v).tasks.map (fun q => if q.st == .running && q.spires.any (spireBad t) then { q with st := .cutting, cuts := q.cuts + 1 } else q) }) v).tasks := hy
      rw [worldOf_setWorld] at hy
      obtain ⟨q, _, hq⟩ := List.mem_map.1 hy
      split at hq
      · rw [← hq] at hr; cases hr
      · next hn =>
        subst hq
        cases hh : spireBad s sp with
        | false => rfl
        | true => exact absurd (by rw [hr]; simp only [beq_self_eq_true, Bool.true_and]; exact List.any_eq_true.2 ⟨sp, hsp, by rw [hb ht]; exact hh⟩) hn
    refine ⟨ht, hv, ?_⟩
    intro u hu
    by_cases he : u = v
    · subst he; exact hv
    · have : worldOf (f t v) u = worldOf t u := by
        show worldOf (setWorld t v _) u = _
        unfold worldOf setWorld; dsimp only
        rw [mget_mput_other (d := ({} : World)) _ (fun e => he (BitVec.eq_of_toNat_eq e))]
      intro y hy; rw [this] at hy; exact hu y hy
  have all : ∀ (l : List (BitVec 4)) (t : State), t.dev = s.dev → ∀ u, (u ∈ l ∨ good t u) → good (l.foldl f t) u := by
    intro l
    induction l with
    | nil => intro t _ u h; rcases h with h | h
             · cases h
             · exact h
    | cons v l ih =>
      intro t ht u h
      simp only [List.foldl_cons]
      obtain ⟨a, b, c⟩ := one t v ht
      refine ih (f t v) a u ?_
      rcases h with h | h
      · rcases List.mem_cons.1 h with rfl | h
        · exact Or.inr b
        · exact Or.inl h
      · exact Or.inr (c u h)
  have hmem : w ∈ worldIds := by
    have : ∀ w : BitVec 4, w ∈ worldIds := by decide
    exact this w
  exact all worldIds s rfl w (Or.inl hmem) y hy hr sp hsp

def heldB (k : Nat) (x : PTok) : Bool := (x.bkpt.map (fun b => b.1)) == some k

def keyT (x : PTok) : PortId × Token := (x.at_, x.tok)

theorem updFirst_split {α : Type} [BEq α] [LawfulBEq α] (f : α → α) (a b : List α) (y : α) (h : ∀ x, x ∈ a → x ≠ y) : updFirst (fun x => x == y) f (a ++ y :: b) = a ++ f y :: b := by
  induction a with
  | nil => unfold updFirst; simp
  | cons x a ih =>
    have hx : (x == y) = false := by simpa using h x List.mem_cons_self
    show updFirst _ f (x :: (a ++ y :: b)) = _
    unfold updFirst
    rw [if_neg (by rw [hx]; simp), ih (fun z hz => h z (List.mem_cons_of_mem _ hz))]
    rfl

theorem early_keep (p : PortId) (c : Colour) (since : Nat) (x : PTok) : let e : PTok := if x.at_ = p ∧ x.tok.tag.colour = c then { x with bkpt := x.bkpt.map (fun b => (b.1, min b.2 since)) } else x
    e.at_ = x.at_ ∧ e.tok = x.tok ∧ e.bkpt.map (fun b => b.1) = x.bkpt.map (fun b => b.1) := by
  intro e
  have : e = if x.at_ = p ∧ x.tok.tag.colour = c then { x with bkpt := x.bkpt.map (fun b => (b.1, min b.2 since)) } else x := rfl
  split at this
  · rw [this]; refine ⟨rfl, rfl, ?_⟩; cases x.bkpt <;> rfl
  · rw [this]; exact ⟨rfl, rfl, rfl⟩

theorem release_ptoks (s : State) (a b : List PTok) (y : PTok) (since : Nat) (hs : s.ptoks = a ++ y :: b) (h : ∀ x, x ∈ a → x ≠ y) :
    ∃ g : PTok → PTok, (releaseHeld s y since).ptoks = a.map g ++ { y with bkpt := none } :: b.map g ∧ ∀ x, (g x).at_ = x.at_ ∧ (g x).tok = x.tok ∧ (g x).bkpt.map (fun q => q.1) = x.bkpt.map (fun q => q.1) := by
  refine ⟨fun x => if x.at_ = y.at_ ∧ x.tok.tag.colour = y.tok.tag.colour then { x with bkpt := x.bkpt.map (fun b => (b.1, min b.2 since)) } else x, ?_, fun x => early_keep y.at_ y.tok.tag.colour since x⟩
  unfold releaseHeld
  dsimp only
  rw [hs, updFirst_split _ _ _ _ h, List.map_append, List.map_cons]
  congr 2
  rw [if_pos ⟨rfl, rfl⟩]; rfl

theorem find_split {α : Type} (p : α → Bool) : ∀ (l : List α) (y : α), l.find? p = some y → ∃ a b, l = a ++ y :: b ∧ p y = true ∧ ∀ x, x ∈ a → p x = false := by
  intro l
  induction l with
  | nil => intro y h; cases h
  | cons x l ih =>
    intro y h
    by_cases hx : p x = true
    · rw [List.find?_cons_of_pos hx] at h; cases h
      exact ⟨[], l, rfl, hx, fun z hz => by cases hz⟩
    · rw [List.find?_cons_of_neg hx] at h
      obtain ⟨a, b, h1, h2, h3⟩ := ih y h
      refine ⟨x :: a, b, by rw [h1]; rfl, h2, ?_⟩
      intro z hz
      rcases List.mem_cons.1 hz with rfl | hz
      · simpa using hx
      · exact h3 z hz

theorem stepped_spec (s : State) (k : Nat) : let t := stepBkpt k s
    ((∀ x, x ∈ s.ptoks → heldB k x = false) → t.ptoks = s.ptoks)
    ∧ (∀ a y b, s.ptoks = a ++ y :: b → heldB k y = true → (∀ x, x ∈ a → heldB k x = false) → t.ptoks.map (fun x => (x.at_, x.tok)) = s.ptoks.map (fun x => (x.at_, x.tok)) ∧ t.ptoks[a.length]? = some { y with bkpt := none }
      ∧ ∀ n x z, n ≠ a.length → s.ptoks[n]? = some x → t.ptoks[n]? = some z → x.bkpt.map (fun b => b.1) = z.bkpt.map (fun b => b.1))
    ∧ (∀ f, f ∈ s.firings → f.kind = .brk → (let c := mget {} s.dev.bkpts k
      f.node.w.toNat = c.w → (∃ p, placedOf s f.node = some p ∧ p.node = c.node ∧ cellX p.cell = c.x ∧ cellY p.cell = c.y) → { f with kind := .fresh, brkOff := true, counting := some s.now } ∈ t.firings))
    ∧ t = { s with ptoks := t.ptoks, timers := t.timers, firings := t.firings } := by
  intro t
  have ht : t = (match (stepBrk s (mget {} s.dev.bkpts k)).ptoks.find? (heldB k) with
    | none => stepBrk s (mget {} s.dev.bkpts k)
    | some y => releaseHeld (stepBrk s (mget {} s.dev.bkpts k)) y ((y.bkpt.map (fun b => b.2)).getD s.now)) := rfl
  generalize hs1 : stepBrk s (mget {} s.dev.bkpts k) = s1 at ht
  have e1 : s1 = { s with firings := s1.firings } := by rw [← hs1]; rfl
  have e2 : s1.ptoks = s.ptoks := by rw [e1]
  have hf : t.firings = s1.firings := by rw [ht]; split <;> rfl
  refine ⟨?_, ?_, ?_, ?_⟩
  · intro h
    have : s1.ptoks.find? (heldB k) = none := List.find?_eq_none.2 (fun x hx => by rw [e2] at hx; rw [h x hx]; simp)
    rw [this] at ht
    rw [ht]; exact e2
  · intro a y b hs hy ha
    have hfind : s1.ptoks.find? (heldB k) = some y := by
      rw [e2, hs, List.find?_append, List.find?_eq_none.2 (fun x hx => by rw [ha x hx]; simp), List.find?_cons_of_pos hy]; rfl
    rw [hfind] at ht
    dsimp only at ht
    obtain ⟨g, hg1, hg2⟩ := release_ptoks s1 a b y ((y.bkpt.map (fun b => b.2)).getD s.now) (e2.trans hs) (fun x hx e => by rw [e] at hx; rw [ha y hx] at hy; cases hy)
    rw [← ht] at hg1
    rw [hg1]
    refine ⟨?_, ?_, ?_⟩
    · rw [hs]
      simp only [List.map_append, List.map_map, List.map_cons]
      have : (fun x : PTok => (x.at_, x.tok)) ∘ g = (fun x => (x.at_, x.tok)) := by funext x; simp only [Function.comp]; rw [(hg2 x).1, (hg2 x).2.1]
      rw [this]
    · rw [List.getElem?_append_right (by simp)]; simp
    · intro n x z hn hx hz
      rw [hs] at hx
      rcases Nat.lt_trichotomy n a.length with hlt | he | hgt
      · rw [List.getElem?_append_left hlt] at hx
        rw [List.getElem?_append_left (by simpa using hlt), List.getElem?_map, hx] at hz
        cases hz; exact (hg2 x).2.2.symm
      · exact absurd he hn
      · rw [List.getElem?_append_right (by omega)] at hx
        rw [List.getElem?_append_right (by simp; omega), List.length_map] at hz
        obtain ⟨m, hm⟩ : ∃ m, n - a.length = m + 1 := ⟨n - a.length - 1, by omega⟩
        rw [hm, List.getElem?_cons_succ] at hx hz
        rw [List.getElem?_map, hx] at hz
        cases hz; exact (hg2 x).2.2.symm
  · intro f hff hk c hw hp
    rw [hf, ← hs1]
    show _ ∈ s.firings.map _
    refine List.mem_map.2 ⟨f, hff, ?_⟩
    rw [if_pos]
    dsimp only
    obtain ⟨p, h1, h2, h3, h4⟩ := hp
    rw [h1, hk]
    simp only [beq_self_eq_true, Bool.true_and, Option.any_some, Bool.and_eq_true, beq_iff_eq]
    exact ⟨hw, ⟨h2, h3⟩, h4⟩
  · rw [ht]
    split
    · rw [e1]
    · unfold releaseHeld; rw [e1]

theorem releaseAll_spec (k : Nat) (s : State) : let t := releaseAll k s
    (∀ x, x ∈ t.ptoks → heldB k x = false) ∧ t.ptoks.map (fun x => (x.at_, x.tok)) = s.ptoks.map (fun x => (x.at_, x.tok)) ∧ t = { s with ptoks := t.ptoks, timers := t.timers } := by
  let f : State → PTok → State := fun st t => match st.ptoks.find? (fun x => x.at_ == t.at_ && x.tok == t.tok && (x.bkpt.map (fun b => b.1)) == some k) with
    | some x => releaseHeld st x ((x.bkpt.map (fun b => b.2)).getD st.now)
    | none => st
  have main : ∀ (l : List PTok) (s : State), (s.ptoks.filter (heldB k)).map keyT = l.map keyT → let t := l.foldl f s
      (∀ x, x ∈ t.ptoks → heldB k x = false) ∧ t.ptoks.map keyT = s.ptoks.map keyT ∧ t = { s with ptoks := t.ptoks, timers := t.timers } := by
    intro l
    induction l with
    | nil =>
      intro s h
      refine ⟨?_, rfl, rfl⟩
      intro x hx
      have h : s.ptoks.filter (heldB k) = [] := by simpa using h
      have := List.filter_eq_nil_iff.1 h x hx
      simpa using this
    | cons c l ih =>
      intro s h
      simp only [List.foldl_cons]
      cases hfl : s.ptoks.filter (heldB k) with
      | nil => rw [hfl] at h; cases h
      | cons y m =>
        rw [hfl] at h
        simp only [List.map_cons, List.cons.injEq] at h
        obtain ⟨hk1, hk2⟩ := h
        have hfirst : s.ptoks.find? (heldB k) = some y := by
          have : (s.ptoks.filter (heldB k)).head? = some y := by rw [hfl]; rfl
          rw [List.head?_filter] at this; exact this
        obtain ⟨a, b, hs, hy, ha⟩ := find_split _ _ _ hfirst
        have hkey : y.at_ = c.at_ ∧ y.tok = c.tok := by
          have := Prod.mk.inj hk1; exact this
        have hfind : s.ptoks.find? (fun x => x.at_ == c.at_ && x.tok == c.tok && (x.bkpt.map (fun b => b.1)) == some k) = some y := by
          rw [hs, List.find?_append, List.find?_eq_none.2, List.find?_cons_of_pos]
          · rfl
          · rw [hkey.1, hkey.2]; simp only [beq_self_eq_true, Bool.true_and]; exact hy
          · intro x hx
            have := ha x hx
            unfold heldB at this
            rw [this]; simp
        have hf : f s c = releaseHeld s y ((y.bkpt.map (fun b => b.2)).getD s.now) := by
          show (match s.ptoks.find? (fun x => x.at_ == c.at_ && x.tok == c.tok && (x.bkpt.map (fun b => b.1)) == some k) with | some x => _ | none => _) = _
          rw [hfind]
        obtain ⟨g, hg1, hg2⟩ := release_ptoks s a b y ((y.bkpt.map (fun b => b.2)).getD s.now) hs (fun x hx e => by rw [e] at hx; rw [ha y hx] at hy; cases hy)
        rw [← hf] at hg1
        have hgk : keyT ∘ g = keyT := by funext x; simp only [Function.comp, keyT]; rw [(hg2 x).1, (hg2 x).2.1]
        have hgh : ∀ x, heldB k (g x) = heldB k x := by intro x; unfold heldB; rw [(hg2 x).2.2]
        have hmap : ∀ q : List PTok, (q.map g).filter (heldB k) = (q.filter (heldB k)).map g := by
          intro q
          rw [List.filter_map]
          congr 1
          apply List.filter_congr; intro x _; exact hgh x
        have hfilt : ((f s c).ptoks.filter (heldB k)).map keyT = l.map keyT := by
          rw [hg1, List.filter_append, List.filter_cons, if_neg (by unfold heldB; simp), hmap, hmap]
          rw [List.map_append, List.map_map, List.map_map, hgk, ← List.map_append]
          rw [← hk2]
          congr 1
          rw [hs, List.filter_append, List.filter_cons, if_pos hy] at hfl
          rw [List.filter_eq_nil_iff.2 (fun x hx => by rw [ha x hx]; simp)] at hfl ⊢
          simp only [List.nil_append, List.cons.injEq] at hfl ⊢
          exact hfl.2
        obtain ⟨i1, i2, i3⟩ := ih (f s c) hfilt
        refine ⟨i1, i2.trans ?_, ?_⟩
        · rw [hg1, hs]
          simp only [List.map_append, List.map_map, List.map_cons, hgk]
          rfl
        · have e : f s c = { s with ptoks := (f s c).ptoks, timers := (f s c).timers } := by rw [hf]; rfl
          rw [i3, e]
  exact main (s.ptoks.filter (heldB k)) s rfl

theorem bit_eq (v : Word64) (k : Nat) : (bits v.toNat k k == 1) = v.getLsbD k := by
  unfold bits BitVec.getLsbD
  rw [Nat.testBit_eq_decide_div_mod_eq, show k + 1 - k = 1 by omega]
  rw [Bool.eq_iff_iff]; simp

theorem bit0_eq (v : Word64) (k : Nat) : (bits v.toNat k k == 0) = !v.getLsbD k := by
  unfold bits BitVec.getLsbD
  rw [Nat.testBit_eq_decide_div_mod_eq, show k + 1 - k = 1 by omega]
  rw [Bool.eq_iff_iff]; simp

theorem word_of (n : Nat) (h : n < 2 ^ 64) : (BitVec.ofNat 64 n).toNat = n := by rw [BitVec.toNat_ofNat, Nat.mod_eq_of_lt h]

theorem badc_new (v old : Nat) : let n := bits v 31 31 * 2 ^ 31 + bits old 23 16 * 2 ^ 16 + bits v 13 0
    n < 2 ^ 32 ∧ n / 2 ^ 31 = field v 31 1 ∧ field n 16 8 = field old 16 8 ∧ field n 0 14 = field v 0 14 := by
  intro n
  have a : bits v 31 31 = v / 2 ^ 31 % 2 := rfl
  have b : bits old 23 16 = old / 2 ^ 16 % 2 ^ 8 := rfl
  have c : bits v 13 0 = v % 2 ^ 14 := by show v / 2 ^ 0 % 2 ^ 14 = _; rw [Nat.pow_zero, Nat.div_one]
  have hn : n = (v / 2 ^ 31 % 2) * 2 ^ 31 + (old / 2 ^ 16 % 2 ^ 8) * 2 ^ 16 + v % 2 ^ 14 := by rw [← a, ← b, ← c]
  unfold field
  rw [Nat.pow_zero, Nat.div_one, Nat.div_one]
  omega

theorem writeBadc_spec (s : State) (i : Nat) (v : Word64) : (let x := (mget 0 (writeBadc s i v).dev.badc i).toNat
    x / 2 ^ 31 = field v.toNat 31 1 ∧ field x 16 8 = field (mget 0 s.dev.badc i).toNat 16 8 ∧ field x 0 14 = field v.toNat 0 14) ∧ (∀ j, j ≠ i → mget 0 (writeBadc s i v).dev.badc j = mget 0 s.dev.badc j)
    ∧ ∀ w y, y ∈ (worldOf (writeBadc s i v) w).tasks → y.st = .running → ∀ sp, sp ∈ y.spires → spireBad (writeBadc s i v) sp = false := by
  unfold writeBadc
  dsimp only
  generalize hn : (BitVec.ofNat 64 (bits v.toNat 31 31 * 2 ^ 31 + bits (mget 0 s.dev.badc i).toNat 23 16 * 2 ^ 16 + bits v.toNat 13 0) : Word64) = n
  have hn2 : n.toNat = bits v.toNat 31 31 * 2 ^ 31 + bits (mget 0 s.dev.badc i).toNat 23 16 * 2 ^ 16 + bits v.toNat 13 0 := by
    rw [← hn, word_of]; have := (badc_new v.toNat (mget 0 s.dev.badc i).toNat).1; omega
  generalize hu : (if ((mget 0 s.dev.badc i).getLsbD 31 && !n.getLsbD 31) = true then allCellsFree ({ s with dev := { s.dev with badc := mput 0 s.dev.badc i n } } : State) else { s with dev := { s.dev with badc := mput 0 s.dev.badc i n } }) = u
  have hdev : u.dev = { s.dev with badc := mput 0 s.dev.badc i n } := by
    rw [← hu]; split
    · obtain ⟨x, hx⟩ := free_only { s with dev := { s.dev with badc := mput 0 s.dev.badc i n } }
      rw [hx]
    · rfl
  obtain ⟨c1, c2⟩ := cutBad_clear u
  refine ⟨?_, ?_, c2⟩
  · rw [c1, hdev]
    rw [show mget 0 (mput 0 s.dev.badc i n) i = n from mget_mput_same (d := (0 : Word64)) _ _ _, hn2]
    exact (badc_new _ _).2
  · intro j hj; rw [c1, hdev]; exact mget_mput_other (d := (0 : Word64)) _ hj _

theorem putBreak_spec (s : State) (w : BitVec 4) (on : Bool) (hw : (worldOf s w).prot = false) : let t := putBreak w on s
    mget false t.dev.dbgw w.toNat = on ∧ (∀ v, v ≠ w.toNat → mget false t.dev.dbgw v = mget false s.dev.dbgw v)
    ∧ (on = true → t.firings = s.firings) ∧ (on = false → ∀ f, f ∈ t.firings → f.kind = .brk → f.node.w ≠ w) := by
  intro t
  have ht : t = (if on = true then { s with dev := { s.dev with dbgw := mput false s.dev.dbgw w.toNat on } } else { s with dev := { s.dev with dbgw := mput false s.dev.dbgw w.toNat on }, firings := s.firings.map (fun f => if f.kind = .brk ∧ f.node.w = w then { f with kind := .fresh, brkOff := true, counting := some s.now } else f) }) := by
    show putBreak w on s = _; unfold putBreak; rw [if_neg (by rw [hw]; simp)]
  have hd : t.dev = { s.dev with dbgw := mput false s.dev.dbgw w.toNat on } := by rw [ht]; split <;> rfl
  refine ⟨?_, ?_, ?_, ?_⟩
  · rw [hd]; exact mget_mput_same (d := false) _ _ _
  · intro v hv; rw [hd]; exact mget_mput_other (d := false) _ hv _
  · intro h; subst h; rw [ht, if_pos rfl]
  · intro h; subst h
    intro f hf hk hw
    rw [ht, if_neg (by simp)] at hf
    obtain ⟨g, _, hg⟩ := List.mem_map.1 hf
    split at hg
    · rw [← hg] at hk; cases hk
    · next hn => subst hg; exact hn ⟨hk, hw⟩

theorem guarded_iff (s : State) (b : Bkpt) : guarded s b = true ↔ ((worldOf s (BitVec.ofNat 4 b.w)).prot = true ∨ ∃ w, mget none s.cellOwner (b.x + 128 * b.y) = some w ∧ (worldOf s (BitVec.ofNat 4 w)).prot = true) := by
  unfold guarded
  rw [Bool.or_eq_true]
  apply or_congr Iff.rfl
  cases mget none s.cellOwner (b.x + 128 * b.y) <;> simp

theorem rw_next {a : BitVec 16} {v : Word64} {s : State} (h : s.dev.ready.getLsbD 0 = true) : exec (.registerWrite a v) s = .next (writeBar s a.toNat v) := by
  show execRegisterWrite a v s = _; unfold execRegisterWrite; rw [if_pos (show spReady s = true from h)]

theorem withBit_off (v : Word64) (i : Nat) (hi : i < 64) : (withBit v i false).toNat = v.toNat - field v.toNat i 1 * 2 ^ i := by
  unfold withBit
  rw [if_neg (by simp), Nat.add_zero, word_of]
  · unfold bits field; rw [show i + 1 - i = 1 by omega]
  · have := v.isLt; omega

theorem bar_wqos (s : State) (v : Word64) (i : Nat) (h : i < 16) : writeBar s (256 + 8 * i) v = writeWqos s i v := by
  unfold writeBar
  dsimp only
  rw [if_neg (by omega), if_neg (by omega), if_pos (by simp; omega)]
  rw [show (256 + 8 * i - 256) / 8 = i by omega]

theorem bar_badc (s : State) (v : Word64) (i : Nat) (h : i < 32) : writeBar s (512 + 8 * i) v = writeBadc s i v := by
  unfold writeBar
  dsimp only
  rw [if_neg (by omega), if_neg (by omega), if_neg (by simp; omega), if_pos (by simp; omega)]
  rw [show (512 + 8 * i - 512) / 8 = i by omega]

theorem bar_dbg (s : State) (v : Word64) (i : Nat) (h : i < 16) : writeBar s (768 + 8 * i) v = putBreak (BitVec.ofNat 4 i) (v.getLsbD 0) s := by
  unfold writeBar
  dsimp only
  rw [if_neg (by omega), if_neg (by omega), if_neg (by simp <;> omega), if_neg (by simp <;> omega), if_pos (by simp <;> omega)]
  rw [show (768 + 8 * i - 768) / 8 = i by omega]

theorem bar_bkpt (s : State) (v : Word64) (i : Nat) (h : i < 64) : writeBar s (1024 + 8 * i) v = writeBkpt s (i / 4) (i % 4) v := by
  unfold writeBar
  dsimp only
  rw [if_neg (by omega), if_neg (by omega), if_neg (by simp; omega), if_neg (by simp; omega), if_neg (by simp; omega), if_pos (by simp; omega)]
  rw [show (1024 + 8 * i - 1024) / 8 = i by omega]

theorem bar_save (s : State) (v : Word64) (i : Nat) (h : i < 32) : writeBar s (1536 + 8 * i) v = writeSave s (i / 2) (i % 2) v := by
  unfold writeBar
  dsimp only
  rw [if_neg (by omega), if_neg (by omega), if_neg (by simp <;> omega), if_neg (by simp <;> omega), if_neg (by simp <;> omega), if_neg (by simp <;> omega), if_pos (by simp <;> omega)]
  rw [show (1536 + 8 * i - 1536) / 8 = i by omega]

theorem bar_pwr (s : State) (v : Word64) (i : Nat) (h : i < 4) : writeBar s (2048 + 8 * i) v = writePwr s i v := by
  unfold writeBar
  dsimp only
  rw [if_neg (by omega), if_neg (by omega), if_neg (by simp; omega), if_neg (by simp; omega), if_neg (by simp; omega), if_neg (by simp; omega), if_neg (by simp; omega), if_neg (by omega), if_pos (by simp; omega)]
  rw [show (2048 + 8 * i - 2048) / 8 = i by omega]

theorem bar_route (s : State) (v : Word64) (i : Nat) (h : i < 384) : writeBar s (4096 + 8 * i) v = writeRoute s i v := by
  unfold writeBar
  dsimp only
  rw [if_neg (by omega), if_neg (by omega), if_neg (by simp; omega), if_neg (by simp; omega), if_neg (by simp; omega), if_neg (by simp; omega), if_neg (by simp; omega), if_neg (by omega), if_neg (by simp; omega), if_pos (by simp; omega)]
  rw [show (4096 + 8 * i - 4096) / 8 = i by omega]

theorem read_wqos (s : State) (i : Nat) (h : i < 16) : readBar s (256 + 8 * i) = BitVec.ofNat 64 (mget 16 s.dev.wqos i) := by
  unfold readBar
  dsimp only
  rw [if_neg (by omega), if_neg (by omega), if_neg (by omega), if_neg (by omega), if_pos (by simp <;> omega)]
  rw [show (256 + 8 * i - 256) / 8 = i by omega]

theorem read_badc (s : State) (i : Nat) (h : i < 32) : readBar s (512 + 8 * i) = mget 0 s.dev.badc i := by
  unfold readBar
  dsimp only
  rw [if_neg (by omega), if_neg (by omega), if_neg (by omega), if_neg (by omega), if_neg (by simp <;> omega), if_pos (by simp <;> omega)]
  rw [show (512 + 8 * i - 512) / 8 = i by omega]

theorem read_dbg (s : State) (i : Nat) (h : i < 16) : readBar s (768 + 8 * i) = BitVec.ofNat 64 (if mget false s.dev.dbgw i then 1 else 0) := by
  unfold readBar
  dsimp only
  rw [if_neg (by omega), if_neg (by omega), if_neg (by omega), if_neg (by omega), if_neg (by simp <;> omega), if_neg (by simp <;> omega), if_pos (by simp <;> omega)]
  simp only [show (768 + 8 * i - 768) / 8 = i from by omega]

theorem read_bkpt (s : State) (i : Nat) (h : i < 64) : readBar s (1024 + 8 * i) = bkptWord (mget {} s.dev.bkpts (i / 4)) (i % 4) := by
  unfold readBar
  dsimp only
  rw [if_neg (by omega), if_neg (by omega), if_neg (by omega), if_neg (by omega), if_neg (by simp <;> omega), if_neg (by simp <;> omega), if_neg (by simp <;> omega), if_pos (by simp <;> omega)]
  rw [show (1024 + 8 * i - 1024) / 8 = i by omega]

theorem read_save (s : State) (i : Nat) (h : i < 32) : readBar s (1536 + 8 * i) = (let v := mget (0, 0) s.dev.saves (i / 2); if i % 2 = 0 then v.1 else v.2) := by
  unfold readBar
  dsimp only
  rw [if_neg (by omega), if_neg (by omega), if_neg (by omega), if_neg (by omega), if_neg (by simp <;> omega), if_neg (by simp <;> omega), if_neg (by simp <;> omega), if_neg (by simp <;> omega), if_pos (by simp <;> omega)]
  simp only [show (1536 + 8 * i - 1536) / 8 = i from by omega]

theorem read_pwr (s : State) (i : Nat) (h : i < 4) : readBar s (2048 + 8 * i) = (let b := bucketOf s i; BitVec.ofNat 64 (b.newDepth * 2 ^ 32 + b.newRate)) := by
  unfold readBar
  dsimp only
  rw [if_neg (by omega), if_neg (by omega), if_neg (by omega), if_neg (by omega), if_neg (by simp <;> omega), if_neg (by simp <;> omega), if_neg (by simp <;> omega), if_neg (by simp <;> omega), if_neg (by simp <;> omega), if_neg (by omega), if_pos (by simp <;> omega)]
  rw [show (2048 + 8 * i - 2048) / 8 = i by omega]

theorem read_route (s : State) (i : Nat) (h : i < 384) : readBar s (4096 + 8 * i) = mget 0 s.dev.routes i := by
  unfold readBar
  dsimp only
  rw [if_neg (by omega), if_neg (by omega), if_neg (by omega), if_neg (by omega), if_neg (by simp <;> omega), if_neg (by simp <;> omega), if_neg (by simp <;> omega), if_neg (by simp <;> omega), if_neg (by simp <;> omega), if_neg (by omega), if_neg (by simp <;> omega), if_neg (by omega), if_pos (by simp <;> omega)]
  rw [show (4096 + 8 * i - 4096) / 8 = i by omega]

theorem bkptWord_spec (b : Bkpt) : let v := bkptWord b 0
    v.getLsbD 63 = b.v ∧ v.getLsbD 62 = b.hit ∧ v.getLsbD 61 = false ∧ v.getLsbD 60 = b.tagm ∧ v.getLsbD 59 = b.valm ∧ field v.toNat 52 4 = b.w % 16 ∧ field v.toNat 48 4 = b.port % 16
    ∧ field v.toNat 44 4 = b.node % 16 ∧ field v.toNat 37 7 = b.y % 128 ∧ field v.toNat 30 7 = b.x % 128 := by
  intro v
  have hf : ∀ x k, (if x = true then 2 ^ k else 0 : Nat) = x.toNat * 2 ^ k := by intro x k; cases x <;> simp
  have hl : ∀ x : Bool, x.toNat < 2 := by intro x; cases x <;> decide
  have hv : v.toNat = b.v.toNat * 2 ^ 63 + b.hit.toNat * 2 ^ 62 + b.tagm.toNat * 2 ^ 60 + b.valm.toNat * 2 ^ 59 + b.w % 16 * 2 ^ 52 + b.port % 16 * 2 ^ 48 + b.node % 16 * 2 ^ 44 + b.y % 128 * 2 ^ 37 + b.x % 128 * 2 ^ 30 := by
    show (BitVec.ofNat 64 _).toNat = _
    dsimp only
    rw [hf, hf, hf, hf, word_of]
    have := hl b.v; have := hl b.hit; have := hl b.tagm; have := hl b.valm
    omega
  have h1 := hl b.v; have h2 := hl b.hit; have h3 := hl b.tagm; have h4 := hl b.valm
  have hb : ∀ (k : Nat) (x : Bool), field v.toNat k 1 = x.toNat → v.getLsbD k = x := by
    intro k x h
    rw [← bit_eq]
    rw [show bits v.toNat k k = field v.toNat k 1 by unfold bits field; rw [show k + 1 - k = 1 by omega], h]
    cases x <;> rfl
  refine ⟨hb _ _ ?_, hb _ _ ?_, hb _ _ ?_, hb _ _ ?_, hb _ _ ?_, ?_, ?_, ?_, ?_, ?_⟩ <;> rw [hv] <;> unfold field
  all_goals first | (show _ = (0 : Nat); omega) | omega

end Sys2Proof.Laws
end

