-- ==== Sys2Proof/Laws/LinkLaws.lean ====
section
/-! SUPPORT.  Lemmas for the statements about links, requests and reports. -/

open Sys2Proof Sys2Proof.Machine Sys2Proof.Claims

namespace Sys2Proof.Laws

theorem withBit_toNat (v : Word64) (i : Nat) (hi : i < 64) (on : Bool) : (withBit v i on).toNat = 2 ^ i * (2 * (v.toNat / 2 ^ (i + 1)) + (if on then 1 else 0)) + v.toNat % 2 ^ i := by
  unfold withBit
  have hb : bits v.toNat i i = v.toNat / 2 ^ i % 2 := by unfold bits; rw [show i + 1 - i = 1 by omega, Nat.pow_one]
  have h2 : v.toNat / 2 ^ (i + 1) = v.toNat / 2 ^ i / 2 := by rw [Nat.pow_succ, Nat.div_div_eq_div_mul]
  have hpos : 0 < 2 ^ i := Nat.two_pow_pos i
  have hd : v.toNat = 2 ^ i * (v.toNat / 2 ^ i) + v.toNat % 2 ^ i := (Nat.div_add_mod _ _).symm
  rw [hb, h2]
  generalize hV : v.toNat = V at *
  have hVl : V < 2 ^ 64 := by rw [← hV]; exact v.isLt
  generalize hq : V / 2 ^ i = q at *
  generalize hr : V % 2 ^ i = r at *
  have hrl : r < 2 ^ i := by rw [← hr]; exact Nat.mod_lt _ hpos
  have hql : q < 2 ^ (64 - i) := by
    rw [← hq]; apply Nat.div_lt_of_lt_mul
    rw [← Nat.pow_add, show i + (64 - i) = 64 by omega]; exact hVl
  have e1 : V - q % 2 * 2 ^ i = 2 ^ i * (2 * (q / 2)) + r := by
    have : q = 2 * (q / 2) + q % 2 := by omega
    have h3 : 2 ^ i * q = 2 ^ i * (2 * (q / 2)) + q % 2 * 2 ^ i := by
      conv => lhs; rw [this]
      rw [Nat.mul_add, Nat.mul_comm (2 ^ i) (q % 2)]
    rw [hd, h3]
    generalize 2 ^ i * (2 * (q / 2)) = A
    generalize q % 2 * 2 ^ i = B
    omega
  rw [e1]
  have e2 : 2 ^ i * (2 * (q / 2)) + r + (if on = true then 2 ^ i else 0) = 2 ^ i * (2 * (q / 2) + (if on = true then 1 else 0)) + r := by
    cases on with
    | true => rw [if_pos rfl, if_pos rfl, Nat.mul_add]; omega
    | false => rw [if_neg (by simp), if_neg (by simp), Nat.add_zero, Nat.add_zero]
  rw [e2, BitVec.toNat_ofNat, Nat.mod_eq_of_lt]
  have h4 : 2 * (q / 2) + (if on = true then 1 else 0) < 2 ^ (64 - i) := by
    have : 2 ^ (64 - i) = 2 * 2 ^ (63 - i) := by rw [← Nat.pow_succ']; congr 1; omega
    split <;> omega
  have h5 : 2 ^ i * (2 * (q / 2) + (if on = true then 1 else 0)) + 2 ^ i ≤ 2 ^ i * 2 ^ (64 - i) := by
    rw [← Nat.mul_succ]; exact Nat.mul_le_mul_left _ h4
  rw [← Nat.pow_add, show i + (64 - i) = 64 by omega] at h5
  omega

theorem withBit_bit (v : Word64) (i k : Nat) (hi : i < 64) (on : Bool) : (withBit v i on).getLsbD k = if k = i then on else v.getLsbD k := by
  unfold BitVec.getLsbD
  rw [withBit_toNat v i hi on]
  have hd : v.toNat = 2 ^ i * (v.toNat / 2 ^ i) + v.toNat % 2 ^ i := (Nat.div_add_mod _ _).symm
  have hrl : v.toNat % 2 ^ i < 2 ^ i := Nat.mod_lt _ (Nat.two_pow_pos i)
  rw [Nat.testBit_two_pow_mul_add _ hrl]
  have hv : v.toNat.testBit k = if k < i then (v.toNat % 2 ^ i).testBit k else (v.toNat / 2 ^ i).testBit (k - i) := by
    conv => lhs; rw [hd]
    exact Nat.testBit_two_pow_mul_add _ hrl k
  rw [hv]
  by_cases h1 : k < i
  · rw [if_pos h1, if_pos h1, if_neg (by omega)]
  · rw [if_neg h1, if_neg h1]
    by_cases h2 : k = i
    · subst h2
      rw [if_pos rfl, Nat.sub_self, Nat.testBit_zero]
      cases on <;> simp <;> omega
    · rw [if_neg h2]
      obtain ⟨m, hm⟩ : ∃ m, k - i = m + 1 := ⟨k - i - 1, by omega⟩
      rw [hm, Nat.testBit_succ, Nat.testBit_succ, Nat.pow_succ, ← Nat.div_div_eq_div_mul]
      congr 1
      split <;> omega

theorem showLinks_bits (s : State) : (showLinks s).dev = { s.dev with ready := (showLinks s).dev.ready } ∧ ∀ k, (showLinks s).dev.ready.getLsbD k = if s.dev.ready.getLsbD 0 = true ∧ (k = 1 ∨ 22 ≤ k ∧ k < 40) then linkUp s k else s.dev.ready.getLsbD k := by
  have fold : ∀ (l : List Nat), (∀ x, x ∈ l → x < 64) → ∀ (v : Word64) (k : Nat), (l.foldl (fun v fn => withBit v fn (linkUp s fn)) v).getLsbD k = if k ∈ l then linkUp s k else v.getLsbD k := by
    intro l
    induction l with
    | nil => intro _ v k; simp
    | cons a l ih =>
      intro h v k
      simp only [List.foldl_cons]
      rw [ih (fun x hx => h x (List.mem_cons_of_mem _ hx))]
      by_cases hk : k ∈ l
      · rw [if_pos hk, if_pos (List.mem_cons_of_mem _ hk)]
      · rw [if_neg hk, withBit_bit _ _ _ (h a List.mem_cons_self)]
        by_cases ha : k = a
        · subst ha; rw [if_pos rfl, if_pos List.mem_cons_self]
        · rw [if_neg ha, if_neg (by simp [ha, hk])]
  have hl : ∀ x, x ∈ (1 :: (List.range 18).map (· + 22)) ↔ (x = 1 ∨ 22 ≤ x ∧ x < 40) := by
    intro x
    simp only [List.mem_cons, List.mem_map, List.mem_range]
    constructor
    · rintro (h | ⟨a, h, rfl⟩)
      · exact Or.inl h
      · exact Or.inr (by omega)
    · rintro (h | h)
      · exact Or.inl h
      · exact Or.inr ⟨x - 22, by omega, by omega⟩
  unfold showLinks
  dsimp only
  by_cases hsp : s.dev.ready.getLsbD 0 = true
  · rw [if_pos (show spReady s = true from hsp)]
    refine ⟨rfl, fun k => ?_⟩
    dsimp only
    rw [fold _ (fun x hx => by rcases (hl x).1 hx with h | h <;> omega)]
    by_cases hk : k = 1 ∨ 22 ≤ k ∧ k < 40
    · rw [if_pos ((hl k).2 hk), if_pos ⟨hsp, hk⟩]
    · rw [if_neg (fun e => hk ((hl k).1 e)), if_neg (fun e => hk e.2)]
  · rw [if_neg (show ¬ spReady s = true from hsp)]
    exact ⟨rfl, fun k => by rw [if_neg (fun e => hsp e.1)]⟩

theorem showLinks_rest (s : State) : ∃ d, showLinks s = { s with dev := d } := by
  unfold showLinks; dsimp only; split
  · exact ⟨_, rfl⟩
  · exact ⟨s.dev, rfl⟩

theorem taken_mem : ∀ (l : List (Nat × Request)) (c : Option Nat) (e : Nat × Request), e ∈ l → Move.request e.2 ∈ takenMoves c l := by
  intro l
  induction l with
  | nil => intro c e h; cases h
  | cons a l ih =>
    intro c e h
    obtain ⟨k, i⟩ := a
    unfold takenMoves
    refine List.mem_append_right _ ?_
    rcases List.mem_cons.1 h with rfl | h
    · exact List.mem_cons_self
    · exact List.mem_cons_of_mem _ (ih _ _ h)

theorem mfind_filter {α : Type} (p : Nat → Bool) : ∀ (m : FMap α) (k : Nat), mfind (m.filter (fun e => p e.1)) k = if p k = true then mfind m k else none := by
  intro m
  induction m with
  | nil => intro k; simp [mfind]
  | cons e m ih =>
    intro k
    obtain ⟨j, v⟩ := e
    have hm : ∀ (m : FMap α), mfind ((j, v) :: m) k = if j = k then some v else mfind m k := fun m => rfl
    rw [List.filter_cons, hm]
    by_cases hj : p j = true
    · rw [if_pos (by exact hj), hm, ih]
      by_cases hjk : j = k
      · subst hjk; rw [if_pos rfl, if_pos rfl, if_pos hj]
      · rw [if_neg hjk, if_neg hjk]
    · rw [if_neg (by exact hj), ih]
      by_cases hjk : j = k
      · subst hjk; rw [if_neg hj, if_neg hj]
      · rw [if_neg hjk]

theorem mget_filter {α : Type} (d : α) (p : Nat → Bool) (m : FMap α) (k : Nat) : mget d (m.filter (fun e => p e.1)) k = if p k = true then mget d m k else d := by
  unfold mget; rw [mfind_filter]; split <;> rfl

theorem refill_fold (n : Nat) : ∀ (l : List Nat), l.Nodup → ∀ (m : FMap Bucket) (d : Nat), mget {} (l.foldl (fun m d => mupd {} m d (refill n)) m) d = if d ∈ l then refill n (mget {} m d) else mget {} m d := by
  intro l
  induction l with
  | nil => intro _ m d; simp
  | cons a l ih =>
    intro h m d
    obtain ⟨h1, h2⟩ := List.nodup_cons.1 h
    simp only [List.foldl_cons]
    rw [ih h2]
    by_cases hd : d ∈ l
    · rw [if_pos hd, if_pos (List.mem_cons_of_mem _ hd)]
      congr 1
      exact mget_mput_other (d := ({} : Bucket)) _ (fun e => h1 (by rw [← e]; exact hd)) _
    · rw [if_neg hd]
      by_cases ha : d = a
      · subst ha; rw [if_pos List.mem_cons_self]; exact mget_mput_same (d := ({} : Bucket)) _ _ _
      · rw [if_neg (by simp [ha, hd])]; exact mget_mput_other (d := ({} : Bucket)) _ ha _

theorem enum_get {α : Type} : ∀ (l : List α) (a k : Nat) (b : α), l[k]? = some b → (a + k, b) ∈ enumFrom a l := by
  intro l
  induction l with
  | nil => intro a k b h; cases h
  | cons x l ih =>
    intro a k b h
    cases k with
    | zero => cases h; exact List.mem_cons_self
    | succ k => exact List.mem_cons_of_mem _ (by have := ih (a + 1) k b h; rw [show a + (k + 1) = a + 1 + k by omega]; exact this)

theorem enum_fst {α : Type} : ∀ (l : List α) (a : Nat), (enumFrom a l).map Prod.fst = bytesAt a l.length := by
  intro l
  induction l with
  | nil => intro a; rfl
  | cons x l ih =>
    intro a
    show a :: (enumFrom (a + 1) l).map Prod.fst = _
    rw [ih]
    unfold bytesAt
    rw [List.length_cons, List.range_succ_eq_map, List.map_cons, List.map_map]
    congr 1
    apply List.map_congr_left; intro i _; simp only [Function.comp]; omega

theorem therm_byte (a b c d k : Nat) (ha : a < 256) (hb : b < 256) (hc : c < 256) (hd : d < 256) :
    (k * 2 ^ 32 + (a + b * 2 ^ 8 + c * 2 ^ 16 + d * 2 ^ 24)) / 2 ^ 0 % 2 ^ 8 = a ∧ (k * 2 ^ 32 + (a + b * 2 ^ 8 + c * 2 ^ 16 + d * 2 ^ 24)) / 2 ^ 8 % 2 ^ 8 = b ∧ (k * 2 ^ 32 + (a + b * 2 ^ 8 + c * 2 ^ 16 + d * 2 ^ 24)) / 2 ^ 16 % 2 ^ 8 = c ∧ (k * 2 ^ 32 + (a + b * 2 ^ 8 + c * 2 ^ 16 + d * 2 ^ 24)) / 2 ^ 24 % 2 ^ 8 = d := by
  omega

theorem therm_sum (f : Nat → Nat) : ((List.range 4).map (fun d => f d * 2 ^ (8 * d))).foldl (· + ·) 0 = f 0 + f 1 * 2 ^ 8 + f 2 * 2 ^ 16 + f 3 * 2 ^ 24 := by
  have h : ∀ a b c d : Nat, ([a, b, c, d] : List Nat).foldl (· + ·) 0 = a + b + c + d := by
    intro a b c d; simp only [List.foldl_cons, List.foldl_nil]; omega
  have h0 : f 0 * 2 ^ (8 * 0) = f 0 := by simp
  rw [show List.range 4 = [0, 1, 2, 3] from rfl]
  simp only [List.map_cons, List.map_nil]
  rw [h, h0]

theorem therm_top (b : Bool) (n t : Nat) : ∃ k, (if b = true then 2 ^ 40 else 0) + n * 2 ^ 32 + t = k * 2 ^ 32 + t := by
  cases b with
  | true => exact ⟨2 ^ 8 + n, by rw [if_pos rfl]; omega⟩
  | false => exact ⟨n, by rw [if_neg (by simp)]; omega⟩

theorem therm_gen (b : Bool) (n : Nat) (f : Nat → Nat) : ∃ k, (if b = true then 2 ^ 40 else 0) + n * 2 ^ 32 + ((List.range 4).map (fun d => f d * 2 ^ (8 * d))).foldl (· + ·) 0 = k * 2 ^ 32 + (f 0 + f 1 * 2 ^ 8 + f 2 * 2 ^ 16 + f 3 * 2 ^ 24) := by
  rw [therm_sum]; exact therm_top _ _ _

theorem therm_split (s : State) : ∃ (b : Bool) (n : Nat), thermWord s = (if b = true then 2 ^ 40 else 0) + n * 2 ^ 32 + ((List.range 4).map (fun d => mget 0 s.dev.tj d * 2 ^ (8 * d))).foldl (· + ·) 0 :=
  ⟨_, _, by rw [thermWord]⟩

theorem therm_form (s : State) : ∃ k, thermWord s = k * 2 ^ 32 + (mget 0 s.dev.tj 0 + mget 0 s.dev.tj 1 * 2 ^ 8 + mget 0 s.dev.tj 2 * 2 ^ 16 + mget 0 s.dev.tj 3 * 2 ^ 24) := by
  obtain ⟨b, n, h⟩ := therm_split s
  generalize thermWord s = X at h ⊢
  subst h
  exact therm_gen b n (fun d => mget 0 s.dev.tj d)

end Sys2Proof.Laws
end

