-- ==== Sys2Proof/Laws/Worlds.lean ====
section
/-! SUPPORT.  Lemmas for the statements about security domains. -/

open Sys2Proof Sys2Proof.Machine Sys2Proof.Claims

namespace Sys2Proof.Laws

theorem mfind_mem {α : Type} : ∀ (m : FMap α) (k : Nat) (v : α), mfind m k = some v → (k, v) ∈ m := by
  intro m
  induction m with
  | nil => intro k v h; cases h
  | cons e m ih =>
    intro k v h
    obtain ⟨j, x⟩ := e
    have hm : mfind ((j, x) :: m) k = if j = k then some x else mfind m k := rfl
    rw [hm] at h
    by_cases hj : j = k
    · rw [if_pos hj] at h; cases h; rw [hj]; exact List.mem_cons_self
    · rw [if_neg hj] at h; exact List.mem_cons_of_mem _ (ih k v h)

theorem setOwner_get (v : Option Nat) : ∀ (l : List Nat) (m : FMap (Option Nat)) (k : Nat), mget none (setOwner v m l) k = if k ∈ l then v else mget none m k := by
  intro l
  induction l with
  | nil => intro m k; simp [setOwner]
  | cons a l ih =>
    intro m k
    show mget none (setOwner v (mput none m a v) l) k = _
    rw [ih]
    by_cases hk : k ∈ l
    · rw [if_pos hk, if_pos (List.mem_cons_of_mem _ hk)]
    · rw [if_neg hk]
      by_cases ha : k = a
      · subst ha; rw [if_pos List.mem_cons_self]; exact mget_mput_same (α := Option Nat) (d := none) _ _ _
      · rw [if_neg (by simp [ha, hk])]; exact mget_mput_other (α := Option Nat) (d := none) _ ha _

theorem scratch_zero (c k : Nat) (hk : k < 131072) : ∀ (l : List Nat) (m : List Host.Cell), (c ∈ l ∨ byteAt m (scratchAddr c k) = 0) → byteAt (l.foldl clearScratch m) (scratchAddr c k) = 0 := by
  intro l
  induction l with
  | nil => intro m h; rcases h with h | h
           · cases h
           · exact h
  | cons a l ih =>
    intro m h
    simp only [List.foldl_cons]
    apply ih
    by_cases hl : c ∈ l
    · exact Or.inl hl
    · right
      unfold clearScratch byteAt
      rw [mget_filter (d := unlistedByte) (fun x => !(decide (scratchAddr a 0 ≤ x) && decide (x < scratchAddr a 0 + scratchSize)))]
      rcases h with h | h
      · rcases List.mem_cons.1 h with rfl | h
        · rw [if_neg]
          · rfl
          · have : scratchAddr c 0 ≤ scratchAddr c k := by unfold scratchAddr; omega
            have h2 : scratchAddr c k < scratchAddr c 0 + scratchSize := by unfold scratchAddr scratchSize; omega
            simp [this, h2]
        · exact absurd h hl
      · split
        · exact h
        · rfl

def clr (t : State) (c : Nat) : Prop := (∀ k, k < 32 → mget 0 t.hregs (32 * c + k) = 0) ∧ (∀ k, k < 8 → mget 0 t.counters (8 * c + k) = 0) ∧ ∀ k, k < 131072 → byteAt t.mem (scratchAddr c k) = 0

theorem clear_spec (s : State) (l : List Nat) (c : Nat) (hc : c ∈ l) : clr (clearCells s l) c := by
  refine ⟨?_, ?_, ?_⟩
  · intro k hk
    show mget 0 (s.hregs.filter (fun e => !l.contains (e.1 / 32))) (32 * c + k) = 0
    rw [mget_filter (d := (0 : Word64)) (fun e => !l.contains (e / 32)), if_neg]
    rw [show (32 * c + k) / 32 = c by omega]; simp [hc]
  · intro k hk
    show mget 0 (s.counters.filter (fun e => !l.contains (e.1 / 8))) (8 * c + k) = 0
    rw [mget_filter (d := (0 : Word64)) (fun e => !l.contains (e / 8)), if_neg]
    rw [show (8 * c + k) / 8 = c by omega]; simp [hc]
  · intro k hk
    exact scratch_zero c k hk l s.mem (Or.inl hc)

def frs (t : State) (g : Nat) : Prop := ∀ a, a / granuleSize = g → byteAt t.mem a = 0 ∧ mget none t.lines (a / 64) = none ∧ typeAt t a = 0

theorem fresh_spec (s : State) (l : List Nat) (g : Nat) (hg : g ∈ l) : frs (freshGranules s l) g := by
  intro a ha
  refine ⟨?_, ?_, ?_⟩
  · show byteAt (s.mem.filter (fun c => !l.contains (c.1 / granuleSize))) a = 0
    unfold byteAt
    rw [mget_filter (d := unlistedByte) (fun c => !l.contains (c / granuleSize)), if_neg]
    · rfl
    · rw [ha]; simp [hg]
  · show mget none (s.lines.filter (fun e => !l.contains (64 * e.1 / granuleSize))) (a / 64) = none
    rw [mget_filter (d := none) (fun e => !l.contains (64 * e / granuleSize)), if_neg]
    have : 64 * (a / 64) / granuleSize = g := by rw [← ha]; unfold granuleSize; omega
    rw [this]; simp [hg]
  · show mget 0 (s.wtype.filter (fun e => !l.contains (8 * e.1 / granuleSize))) (a / 8) = 0
    rw [mget_filter (d := 0) (fun e => !l.contains (8 * e / granuleSize)), if_neg]
    have : 8 * (a / 8) / granuleSize = g := by rw [← ha]; unfold granuleSize; omega
    rw [this]; simp [hg]

theorem clr_fresh {s : State} {c : Nat} (h : clr s c) (l : List Nat) : clr (freshGranules s l) c := by
  refine ⟨h.1, h.2.1, ?_⟩
  intro k hk
  show byteAt (s.mem.filter (fun c => !l.contains (c.1 / granuleSize))) _ = 0
  have := h.2.2 k hk
  unfold byteAt at *
  rw [mget_filter (d := unlistedByte) (fun c => !l.contains (c / granuleSize))]
  split
  · exact this
  · rfl

theorem give_spec (s : State) (w : BitVec 4) (cells granules : List Nat) : let t := giveAll s w cells granules
    (∀ c, c ∈ cells → c < 12288 → mget none t.cellOwner c = some w.toNat ∧ (mget none s.cellOwner c ≠ some w.toNat → clr t c)) ∧ (∀ c, c ∉ cells → mget none t.cellOwner c = mget none s.cellOwner c)
    ∧ (∀ g, g ∈ granules → isDevice (g * granuleSize) = true → mget none t.granuleOwner g = some w.toNat ∧ (mget none s.granuleOwner g ≠ some w.toNat → frs t g)) ∧ (∀ g, g ∉ granules → mget none t.granuleOwner g = mget none s.granuleOwner g)
    ∧ t.worlds = s.worlds ∧ t.outputs = s.outputs := by
  intro t
  have ho : t.cellOwner = setOwner (some w.toNat) s.cellOwner (cells.filter (fun c => decide (c < Machine.cellCount) && mget none s.cellOwner c != some w.toNat)) := rfl
  have hg : t.granuleOwner = setOwner (some w.toNat) s.granuleOwner (granules.filter (fun g => isDevice (g * granuleSize) && mget none s.granuleOwner g != some w.toNat)) := rfl
  refine ⟨?_, ?_, ?_, ?_, rfl, rfl⟩
  · intro c hc hlt
    rw [ho, setOwner_get]
    by_cases hs : mget none s.cellOwner c = some w.toNat
    · refine ⟨?_, fun h => absurd hs h⟩
      split
      · rfl
      · exact hs
    · have hm : c ∈ cells.filter (fun c => decide (c < Machine.cellCount) && mget none s.cellOwner c != some w.toNat) := by
        rw [List.mem_filter]; exact ⟨hc, by simp only [Bool.and_eq_true, decide_eq_true_eq, bne_iff_ne]; exact ⟨hlt, hs⟩⟩
      refine ⟨if_pos hm, fun _ => ?_⟩
      have := clr_fresh (clear_spec s _ c hm) (granules.filter (fun g => isDevice (g * granuleSize) && mget none s.granuleOwner g != some w.toNat))
      exact this
  · intro c hc
    rw [ho, setOwner_get, if_neg (fun h => hc (List.mem_filter.1 h).1)]
  · intro g hgm hd
    rw [hg, setOwner_get]
    by_cases hs : mget none s.granuleOwner g = some w.toNat
    · refine ⟨?_, fun h => absurd hs h⟩
      split
      · rfl
      · exact hs
    · have hm : g ∈ granules.filter (fun g => isDevice (g * granuleSize) && mget none s.granuleOwner g != some w.toNat) := by
        rw [List.mem_filter]; exact ⟨hgm, by rw [hd]; simpa using hs⟩
      exact ⟨if_pos hm, fun _ => fresh_spec _ _ g hm⟩
  · intro g hgm
    rw [hg, setOwner_get, if_neg (fun h => hgm (List.mem_filter.1 h).1)]

theorem foreign_iff (m : FMap (Option Nat)) (w : BitVec 4) (k : Nat) : foreign m w k = true ↔ ∃ v, mget none m k = some v ∧ v ≠ w.toNat := by
  unfold foreign
  cases mget none m k with
  | none => simp
  | some v => simp

theorem names_iff (s : State) (w : BitVec 4) (cells granules : List Nat) : namesForeign s w cells granules = true ↔ ((∃ c v, c ∈ cells ∧ mget none s.cellOwner c = some v ∧ v ≠ w.toNat) ∨ ∃ g v, g ∈ granules ∧ mget none s.granuleOwner g = some v ∧ v ≠ w.toNat) := by
  unfold namesForeign
  rw [Bool.or_eq_true, List.any_eq_true, List.any_eq_true]
  simp only [foreign_iff]
  constructor
  · rintro (⟨c, h, v, a, b⟩ | ⟨c, h, v, a, b⟩)
    · exact Or.inl ⟨c, v, h, a, b⟩
    · exact Or.inr ⟨c, v, h, a, b⟩
  · rintro (⟨c, v, h, a, b⟩ | ⟨c, v, h, a, b⟩)
    · exact Or.inl ⟨c, h, v, a, b⟩
    · exact Or.inr ⟨c, h, v, a, b⟩

theorem owned_mem (m : FMap (Option Nat)) (w : BitVec 4) (k : Nat) (h : mget none m k = some w.toNat) : k ∈ ownedBy m w := by
  unfold ownedBy
  have : mfind m k = some (some w.toNat) := by
    unfold mget at h
    cases hf : mfind m k with
    | none => rw [hf] at h; cases h
    | some v => rw [hf] at h; rw [show v = some w.toNat from h]
  exact List.mem_map.2 ⟨(k, some w.toNat), List.mem_filter.2 ⟨mfind_mem _ _ _ this, by simp⟩, rfl⟩

theorem lose_fold (l : List Nat) (s : State) : ∃ n m, l.foldl loseLine s = { s with free := n, mem := m } := by
  induction l generalizing s with
  | nil => exact ⟨_, _, rfl⟩
  | cons a l ih =>
    obtain ⟨n, m, h⟩ := ih (loseLine s a)
    exact ⟨n, m, h⟩

theorem dome_key (s : State) (w : BitVec 4) (slot line : Nat) (k : KeySet) (t v l : Nat) (h : mget none s.lines line = some (.keyed w.toNat slot k t v l)) (hc : (slotLines s w slot).contains line = false) : mget none s.dome line = none := by
  unfold mget
  cases hf : mfind s.dome line with
  | none => rfl
  | some x =>
    exfalso
    have hm : line ∈ slotLines s w slot := List.mem_filter.2 ⟨List.mem_map.2 ⟨(line, x), mfind_mem _ _ _ hf, rfl⟩, by rw [h]; simp⟩
    rw [List.contains_iff_mem.2 hm] at hc; cases hc

theorem retire_spec (w : BitVec 4) (s : State) (slot : Nat) : let t := retireSlot w s slot
    mget none (worldOf t w).keys slot = none ∧ (∀ j, j ≠ slot → mget none (worldOf t w).keys j = mget none (worldOf s w).keys j) ∧ t.outputs = s.outputs ∧ t.cellOwner = s.cellOwner ∧ t.granuleOwner = s.granuleOwner ∧ t.ctxs = s.ctxs
    ∧ ∀ line key a v l, mget none (worldOf s w).keys slot ≠ none → mget none s.lines line = some (.keyed w.toNat slot key a v l) → mget none t.dome line = none := by
  intro t
  have ht : t = retireSlot w s slot := rfl
  unfold retireSlot at ht
  dsimp only at ht
  cases hk : mget none (worldOf s w).keys slot with
  | none =>
    rw [hk] at ht
    rw [ht]
    refine ⟨hk, fun _ _ => rfl, rfl, rfl, rfl, rfl, ?_⟩
    intro line key a v l h; exact absurd rfl h
  | some k =>
    rw [hk] at ht
    obtain ⟨n, m, hl⟩ := lose_fold (slotLines s w slot) s
    rw [hl] at ht
    dsimp only at ht
    have hw : worldOf t w = { worldOf s w with keys := mput none (worldOf s w).keys slot none } := by rw [ht]; exact worldOf_setWorld _ _ _
    refine ⟨?_, ?_, ?_, ?_, ?_, ?_, ?_⟩
    · rw [hw]; exact mget_mput_same (α := Option KeySet) none (worldOf s w).keys slot none
    · intro j hj; rw [hw]; exact mget_mput_other (α := Option KeySet) none (worldOf s w).keys hj none
    · rw [ht]; rfl
    · rw [ht]; rfl
    · rw [ht]; rfl
    · rw [ht]; rfl
    · intro line key a v l _ h2
      rw [ht]
      show mget none (s.dome.filter (fun e => !(slotLines s w slot).contains e.1)) line = none
      rw [mget_filter (d := none) (fun line => !(slotLines s w slot).contains line)]
      split
      · next h => exact dome_key s w slot line key a v l h2 (by simpa using h)
      · rfl

theorem drop_ctx (s : State) (w : BitVec 4) (x y : Context) : (ctxOf (dropConfig (dropWork s w x) w x) w y) = if y = x then {} else ctxOf s w y := by
  show mget {} (mput {} s.ctxs (ctxKey w x) {}) (ctxKey w y) = _
  by_cases h : y = x
  · subst h; rw [if_pos rfl]; exact mget_mput_same (α := Ctx) {} s.ctxs (ctxKey w y) {}
  · rw [if_neg h]
    have : ctxKey w y ≠ ctxKey w x := by
      intro hk; apply h; apply BitVec.eq_of_toNat_eq
      unfold ctxKey at hk; omega
    exact mget_mput_other (α := Ctx) {} s.ctxs this {}

theorem mem_contexts (s : State) (w : BitVec 4) (y : Context) (h : (ctxOf s w y).resident = true) : (y, ctxOf s w y) ∈ contextsOf s w := by
  unfold contextsOf
  have : mfind s.ctxs (ctxKey w y) = some (ctxOf s w y) := by
    unfold ctxOf mget at h ⊢
    cases hf : mfind s.ctxs (ctxKey w y) with
    | none => rw [hf] at h; cases h
    | some v => rfl
  refine List.mem_map.2 ⟨(ctxKey w y, ctxOf s w y), List.mem_filter.2 ⟨mfind_mem _ _ _ this, ?_⟩, ?_⟩
  · have : ctxKey w y / 256 = w.toNat := by unfold ctxKey; omega
    simp [this, h]
  · have : BitVec.ofNat 8 (ctxKey w y) = y := by
      apply BitVec.eq_of_toNat_eq; rw [BitVec.toNat_ofNat]; unfold ctxKey; omega
    simp [this]

theorem drop_fold (w : BitVec 4) : ∀ (l : List (Context × Ctx)) (s : State), let t := l.foldl (fun st e => dropConfig (dropWork st w e.1) w e.1) s
    t.cellOwner = s.cellOwner ∧ t.granuleOwner = s.granuleOwner ∧ t.outputs = s.outputs ∧ ∀ y, ((∃ e, e ∈ l ∧ e.1 = y) ∨ (ctxOf s w y).resident = false) → (ctxOf t w y).resident = false := by
  intro l
  induction l with
  | nil => intro s; exact ⟨rfl, rfl, rfl, fun y h => by
      rcases h with ⟨e, h, _⟩ | h
      · cases h
      · exact h⟩
  | cons e l ih =>
    intro s
    obtain ⟨a, b, c, f⟩ := ih (dropConfig (dropWork s w e.1) w e.1)
    refine ⟨a, b, c, fun y h => f y ?_⟩
    by_cases hy : y = e.1
    · right; rw [drop_ctx, if_pos hy]
    · rcases h with ⟨g, h, h2⟩ | h
      · rcases List.mem_cons.1 h with rfl | h
        · exact absurd h2.symm hy
        · exact Or.inl ⟨g, h, h2⟩
      · right; rw [drop_ctx, if_neg hy]; exact h

theorem retire_fold (w : BitVec 4) : ∀ (l : List Nat) (s : State), let t := l.foldl (retireSlot w) s
    t.outputs = s.outputs ∧ t.cellOwner = s.cellOwner ∧ t.granuleOwner = s.granuleOwner ∧ t.ctxs = s.ctxs := by
  intro l
  induction l with
  | nil => intro s; exact ⟨rfl, rfl, rfl, rfl⟩
  | cons e l ih =>
    intro s
    obtain ⟨a, b, c, d⟩ := ih (retireSlot w s e)
    have := retire_spec w s e
    exact ⟨a.trans this.2.2.1, b.trans this.2.2.2.1, c.trans this.2.2.2.2.1, d.trans this.2.2.2.2.2.1⟩

theorem destroy_spec (s : State) (w : BitVec 4) : let t := destroyWorld s w
    worldOf t w = {} ∧ t.outputs = s.outputs ∧ (∀ c, mget none t.cellOwner c ≠ some w.toNat ∧ (mget none s.cellOwner c = some w.toNat → clr t c)) ∧ (∀ d, mget none t.granuleOwner d ≠ some w.toNat) ∧ ∀ y, (ctxOf t w y).resident = false := by
  intro t
  let s1 := (contextsOf s w).foldl (fun st e => dropConfig (dropWork st w e.1) w e.1) s
  obtain ⟨a1, a2, a3, a5⟩ := drop_fold w (contextsOf s w) s
  let s2 := ((worldOf s1 w).keys.map (fun e => e.1)).foldl (retireSlot w) s1
  obtain ⟨b1, b2, b3, b4⟩ := retire_fold w ((worldOf s1 w).keys.map (fun e => e.1)) s1
  have c1 : s2.cellOwner = s.cellOwner := b2.trans a1
  have c2 : s2.granuleOwner = s.granuleOwner := b3.trans a2
  have hco : t.cellOwner = setOwner none s2.cellOwner (ownedBy s2.cellOwner w) := rfl
  have hgo : t.granuleOwner = setOwner none s2.granuleOwner (ownedBy s2.granuleOwner w) := rfl
  refine ⟨worldOf_setWorld _ _ _, b1.trans a3, ?_, ?_, ?_⟩
  · intro c
    refine ⟨?_, ?_⟩
    · rw [hco, setOwner_get]
      split
      · intro h; cases h
      · next h => intro h2; exact h (owned_mem _ _ _ h2)
    · intro h
      have hm : c ∈ ownedBy s2.cellOwner w := owned_mem _ _ _ (by rw [c1]; exact h)
      exact clear_spec s2 _ c hm
  · intro d
    rw [hgo, setOwner_get]
    split
    · intro h; cases h
    · next h => intro h2; exact h (owned_mem _ _ _ h2)
  · intro y
    have : ctxOf t w y = ctxOf s1 w y := by
      show mget {} t.ctxs _ = mget {} s1.ctxs _
      have : t.ctxs = s2.ctxs := rfl
      rw [this, show s2.ctxs = s1.ctxs from b4]
    rw [this]
    apply a5
    by_cases h : (ctxOf s w y).resident = true
    · exact Or.inl ⟨_, mem_contexts s w y h, rfl⟩
    · right; simpa using h

theorem waits_gen (i : Instr) (r : Request) (body : State → State) (hd : ∀ s, exec i s = request r s body) : ∀ s, s.dev.ready.getLsbD 0 = false → exec i s = .next { s with dev := { s.dev with mailbox := s.dev.mailbox ++ [(s.now, r)] } } := by
  intro s h
  rw [hd]; unfold request spReady; rw [h]; rfl

theorem ready_gen {i : Instr} {r : Request} {body : State → State} (hd : ∀ s, exec i s = request r s body) {s : State} (h : s.dev.ready.getLsbD 0 = true) (ht : requestTurn s r = true) : exec i s = .next (tookTurn r (body s)) := by
  rw [hd]; unfold request spReady; rw [h, ht]; rfl

/-- A request out of its turn comes again in another cycle. -/
theorem turned_gen {i : Instr} {r : Request} {body : State → State} (hd : ∀ s, exec i s = request r s body) {s : State} (h : s.dev.ready.getLsbD 0 = true) (ht : requestTurn s r = false) : exec i s = .next { s with agenda := afterPass (.request r) s.agenda } := by
  rw [hd]; unfold request spReady; rw [h, ht]; rfl

/-- All that taking a turn can change. -/
theorem took_spec (r : Request) (s : State) : tookTurn r s = { s with turns := (tookTurn r s).turns } := by
  unfold tookTurn; extract_lets ok; clear_value ok; cases (decide (7 < requestRank r) || !ok) <;> rfl

theorem took_refused (r : Request) (s : State) (k : Nat) (l : List Nat) (h : k ≠ 0) : tookTurn r (reply s k l) = reply s k l := by
  unfold tookTurn reply; dsimp only; rw [List.getLast?_append]
  cases k with
  | zero => exact absurd rfl h
  | succ n => rw [if_pos]; simp

theorem took_late (r : Request) (s : State) (h : 7 < requestRank r) : tookTurn r s = s := by
  unfold tookTurn; dsimp only; rw [if_pos]; simp [h]

theorem turn_late (s : State) (r : Request) (h : 7 < requestRank r) : requestTurn s r = true := by
  unfold requestTurn; dsimp only; simp [h]

theorem reply_eq (s : State) (code : Nat) (l : List Nat) : reply s code l = { s with outputs := s.outputs ++ [.reply code l] } := rfl

theorem unlockBefore_iff (s : State) : unlockBefore s = true ↔ ∃ u, s.dev.unlocked = some u ∧ u < s.now := by
  unfold unlockBefore
  cases s.dev.unlocked <;> simp

theorem fixed_iff (x : World) : worldFixed x = true ↔ (x.prot = true ∧ (x.tdi = .locked ∨ x.tdi = .run)) := by
  unfold worldFixed
  cases x.prot <;> cases x.tdi <;> simp

theorem mayKey_iff (s : State) (b : Requester) (w : BitVec 4) : mayKey s b w = true ↔ ((worldOf s w).live = true ∧ match b with | .operator => (worldOf s w).prot = false | .tenant v => v = w ∧ (worldOf s w).spdm = true) := by
  unfold mayKey
  cases b <;> simp

theorem foldl_mput {α β : Type} [DecidableEq α] (d : α) (f : β → Nat) (g : β → α) (k : Nat) : ∀ (l : List β) (m : FMap α), ((∀ e, e ∈ l → f e ≠ k) → mget d (l.foldl (fun m e => mput d m (f e) (g e)) m) k = mget d m k)
    := by
  intro l
  induction l with
  | nil => intro m _; rfl
  | cons e l ih =>
    intro m h
    simp only [List.foldl_cons]
    rw [ih _ (fun e he => h e (List.mem_cons_of_mem _ he))]
    exact mget_mput_other d m (fun hk => h e List.mem_cons_self hk.symm) (g e)

theorem foldl_mput_hit {α β : Type} [DecidableEq α] (d : α) (f : β → Nat) (g : β → α) (k : Nat) (a b : List β) (e : β) (m : FMap α) (he : f e = k) (h : ∀ e, e ∈ b → f e ≠ k) :
    mget d ((a ++ e :: b).foldl (fun m e => mput d m (f e) (g e)) m) k = g e := by
  rw [List.foldl_append, List.foldl_cons, foldl_mput d f g k b _ h, he]
  exact mget_mput_same d _ k (g e)

theorem create_spec (s : State) (w : BitVec 4) (p y : Bool) (k g : List Nat) (h : s.dev.ready.getLsbD 0 = true) (ht : requestTurn s (.create w p y k g) = true) :
    let i := Instr.create w p y k g
    let live := (worldOf s w).live = true
    let open_ := p = true ∧ ∃ u, s.dev.unlocked = some u ∧ u < s.now
    let others := (∃ c v, c ∈ k ∧ mget none s.cellOwner c = some v ∧ v ≠ w.toNat) ∨ ∃ d v, d ∈ g ∧ mget none s.granuleOwner d = some v ∧ v ≠ w.toNat
    (live → exec i s = .next (reply s 1 [])) ∧ (¬ live → open_ → exec i s = .next (reply s 2 [])) ∧ (¬ live → ¬ open_ → others → exec i s = .next (reply s 3 []))
    ∧ (¬ live → ¬ open_ → ¬ others → exec i s = .next (tookTurn (.create w p y k g) (reply (giveAll (setWorld { s with free := s.free + 1 } w { live := true, prot := p, sys := y, saveKey := some s.free }) w k g) 0 []))) := by
  intro i live open_ others
  have he : exec i s = .next (tookTurn (.create w p y k g) (doCreate w p y k g s)) := ready_gen (fun _ => rfl) h ht
  have ho : (p && unlockBefore s) = true ↔ open_ := by
    rw [Bool.and_eq_true, unlockBefore_iff]
  have hn : namesForeign s w k g = true ↔ others := names_iff s w k g
  rw [he]; unfold doCreate
  refine ⟨?_, ?_, ?_, ?_⟩
  · intro a; rw [if_pos a, took_refused _ _ _ _ (by omega)]
  · intro a b; rw [if_neg a, if_pos (ho.2 b), took_refused _ _ _ _ (by omega)]
  · intro a b c; rw [if_neg a, if_neg (fun z => b (ho.1 z)), if_pos (hn.2 c)]; exact congrArg _ (took_refused _ _ 3 [] (by omega))
  · intro a b c; rw [if_neg a, if_neg (fun z => b (ho.1 z)), if_neg (fun z => c (hn.1 z))]

theorem resident_iff (s : State) (w : BitVec 4) (k g : List Nat) : (k.any (residentCells s w).contains || g.any (((worldCarves s w).map (fun e => carveGranules e.2)).flatten).contains) = true
    ↔ ((∃ c, c ∈ k ∧ c ∈ residentCells s w) ∨ ∃ d, d ∈ g ∧ ∃ e, e ∈ worldCarves s w ∧ d ∈ carveGranules e.2) := by
  rw [Bool.or_eq_true, List.any_eq_true, List.any_eq_true]
  simp only [List.contains_iff_mem, List.mem_flatten, List.mem_map]
  constructor
  · rintro (h | ⟨d, h, l, ⟨e, h1, rfl⟩, h2⟩)
    · exact Or.inl h
    · exact Or.inr ⟨d, h, e, h1, h2⟩
  · rintro (h | ⟨d, h, e, h1, h2⟩)
    · exact Or.inl h
    · exact Or.inr ⟨d, h, _, ⟨e, h1, rfl⟩, h2⟩

theorem worldOf_setWorld_other {s : State} {a w : BitVec 4} (x : World) (h : w ≠ a) : worldOf (setWorld s a x) w = worldOf s w := by
  unfold worldOf setWorld; dsimp only
  exact mget_mput_other (α := World) {} s.worlds (fun e => h (BitVec.eq_of_toNat_eq e)) x

theorem linkBad (s : State) (l : List (BitVec 4)) : let t := l.foldl (fun st w => setWorld st w (linkLost (worldOf st w))) s
    t = { s with worlds := t.worlds } := by
  induction l generalizing s with
  | nil => rfl
  | cons a l ih =>
    intro t
    have := ih (setWorld s a (linkLost (worldOf s a)))
    exact this

theorem linkBad_get (w : BitVec 4) (s : State) (l : List (BitVec 4)) (hnd : l.Nodup) : worldOf (l.foldl (fun st w => setWorld st w (linkLost (worldOf st w))) s) w = if w ∈ l then linkLost (worldOf s w) else worldOf s w := by
  induction l generalizing s with
  | nil => rfl
  | cons a l ih =>
    rw [List.foldl_cons, ih _ (List.nodup_cons.1 hnd).2]
    by_cases ha : w = a
    · subst ha
      rw [if_neg (List.nodup_cons.1 hnd).1, if_pos List.mem_cons_self, worldOf_setWorld]
    · rw [worldOf_setWorld_other _ ha]
      simp [ha]

theorem ready_bit1 (r : Word64) (k : Nat) : (BitVec.ofNat 64 (r.toNat - bits r.toNat 1 1 * 2)).getLsbD k = (r.getLsbD k && decide (k ≠ 1)) := by
  have h : BitVec.ofNat 64 (r.toNat - bits r.toNat 1 1 * 2) = withBit r 1 false := rfl
  rw [h, withBit_bit r 1 k (by omega)]
  by_cases hk : k = 1
  · rw [if_pos hk]; simp [hk]
  · rw [if_neg hk]; simp [hk]

open Host in
theorem security_a (s : State) (w : BitVec 4) (h : s.dev.ready.getLsbD 0 = true) (body : State → World → State) (i : Instr) (r : Request) (h7 : 7 < requestRank r) (hd : ∀ s, exec i s = request r s (fun s => Machine.tdi s w body)) :
    (¬ ((worldOf s w).live = true ∧ (worldOf s w).prot = true) → exec i s = .next (reply s 3 [])) ∧ ((worldOf s w).live = true → (worldOf s w).prot = true → exec i s = .next (body s (worldOf s w))) := by
  rw [ready_gen hd h (turn_late s r h7), took_late r _ h7]
  unfold Machine.tdi
  refine ⟨fun hn => ?_, fun a b => ?_⟩
  · dsimp only; rw [if_neg (by simpa using hn)]; rfl
  · dsimp only; rw [if_pos (by rw [a, b]; rfl)]

def linkAll (s : State) : State := worldIds.foldl (fun st w => setWorld st w (linkLost (worldOf st w))) s

theorem worldIds_all : ∀ w : BitVec 4, w ∈ worldIds := by unfold worldIds; decide

theorem linkAll_get (s : State) (w : BitVec 4) : worldOf (linkAll s) w = linkLost (worldOf s w) := (linkBad_get w s worldIds (by decide)).trans (if_pos (worldIds_all w))

theorem cellsFree_tdi (s : State) (w : BitVec 4) : (worldOf (cellsFree s w) w).tdi = (worldOf s w).tdi := by
  unfold cellsFree
  have : ∀ (l : List Nat) (s : State), (worldOf (l.foldl (fun st k => addDispatch st w k) s) w).tdi = (worldOf s w).tdi := by
    intro l
    induction l with
    | nil => intro s; rfl
    | cons k l ih =>
      intro s
      simp only [List.foldl_cons]
      rw [ih]
      unfold addDispatch
      obtain ⟨x, hx⟩ := dispatchAt_world s w k s.now
      rw [hx]
  exact this _ s

end Sys2Proof.Laws
end

