-- ==== Sys2Proof/Laws/Encode.lean ====
section
/-! SUPPORT.  Lemmas for the statements about encodings read back. -/

open Sys2Proof Sys2Proof.Machine Sys2Proof.Claims

namespace Sys2Proof.Laws

theorem Rnd.back {n : Nat} {r : Rnd} (h : Rnd.read n = some r) : r.code = n := by
  unfold Rnd.read at h; split at h <;> cases h <;> rfl

theorem GuardMode.back {n : Nat} {r : GuardMode} (h : GuardMode.read n = some r) : r.code = n := by
  unfold GuardMode.read at h; split at h <;> cases h <;> rfl

theorem Scope.back {n : Nat} {r : Scope} (h : Scope.read n = some r) : r.code = n := by
  unfold Scope.read at h; split at h <;> cases h <;> rfl

theorem Ord.back {n : Nat} {r : Ord} (h : Ord.read n = some r) : r.code = n := by
  unfold Ord.read at h; split at h <;> cases h <;> rfl

theorem Guard.back {n : Nat} (hn : n < 2 ^ 5) {g : Guard} (h : Guard.read n = some g) : g.code = n := by
  unfold Guard.read at h
  simp only [unpack] at h
  simp only [Option.bind_eq_bind, Option.bind_eq_some_iff, Option.pure_def, Option.some.injEq] at h
  obtain ⟨m0, h0, m1, h1, rfl⟩ := h
  have a := GuardMode.back h0
  have b := GuardMode.back h1
  unfold Guard.code
  simp only [pack, a, b]
  by_cases hc : n % 2 ^ 1 = 1
  · simp only [hc, beq_self_eq_true, if_true]; omega
  · simp only [beq_false_of_ne hc, Bool.false_eq_true, if_false]; omega

theorem Target.back {n : Nat} (hn : n < 2 ^ 12) {t : Target} (h : Target.read n = some t) : t.code = n := by
  unfold Target.read at h
  simp only [unpack] at h
  split at h
  · split at h
    · cases h; show 0 = n; omega
    · cases h
  · cases h; unfold Target.code; simp only [pack, BitVec.toNat_ofNat]; omega
  · cases h; unfold Target.code; simp only [pack, BitVec.toNat_ofNat]; omega
  · next a b c =>
    have a' : ¬ n / 2 ^ 3 / 2 ^ 7 % 2 ^ 2 = 0 := a
    have b' : ¬ n / 2 ^ 3 / 2 ^ 7 % 2 ^ 2 = 1 := b
    have c' : ¬ n / 2 ^ 3 / 2 ^ 7 % 2 ^ 2 = 2 := c
    split at h
    · cases h; unfold Target.code; simp only [pack, BitVec.toNat_ofNat]; omega
    · cases h

theorem Hdr.back {v op : Nat} (hv : v < 2 ^ 64) {h : Hdr} (he : Hdr.read v = some (op, h)) : pack (h.fields op) = v ∧ op < 1024 := by
  unfold Hdr.read at he
  have hp := pack_unpack hdrWidths v hv
  simp only [hdrWidths, unpack] at he hp
  simp only [Option.bind_eq_bind, Option.bind_eq_some_iff, Option.pure_def, Option.some.injEq, Prod.mk.injEq] at he
  obtain ⟨r, hr, g, hg, t0, h0, t1, h1, rfl, rfl⟩ := he
  have a := Rnd.back hr
  have b := Guard.back (Nat.mod_lt _ (by decide)) hg
  have c := Target.back (Nat.mod_lt _ (by decide)) h0
  have d := Target.back (Nat.mod_lt _ (by decide)) h1
  refine ⟨?_, Nat.mod_lt _ (by decide)⟩
  refine Eq.trans ?_ hp
  simp only [Hdr.fields, a, b, c, d, BitVec.toNat_ofNat, Nat.mod_mod, List.zip_cons_cons, List.zip_nil_right]

theorem PayA.back {v : Nat} (hv : v < 2 ^ 64) {p : PayA} (h : PayA.read v = some p) : pack p.fields = v := by
  unfold PayA.read at h; cases h; simp only [PayA.fields, pack, BitVec.toNat_ofNat]; omega

theorem PayC.back {v : Nat} (hv : v < 2 ^ 64) {p : PayC} (h : PayC.read v = some p) : pack p.fields = v := by
  unfold PayC.read at h; simp only [unpack] at h; cases h; simp only [PayC.fields, pack, BitVec.toNat_ofNat]; omega

theorem PayL.back {v : Nat} (hv : v < 2 ^ 64) {p : PayL} (h : PayL.read v = some p) : pack p.fields = v := by
  unfold PayL.read at h; simp only [unpack] at h; split at h
  · cases h; simp only [PayL.fields, pack, BitVec.toNat_ofNat]; omega
  · cases h

theorem PayV.back {v : Nat} (hv : v < 2 ^ 64) {p : PayV} (h : PayV.read v = some p) : pack p.fields = v := by
  unfold PayV.read at h; simp only [unpack] at h; split at h
  · cases h; simp only [PayV.fields, pack, BitVec.toNat_ofNat]; omega
  · cases h

theorem PayX.back {v : Nat} (hv : v < 2 ^ 64) {p : PayX} (h : PayX.read v = some p) : pack p.fields = v := by
  unfold PayX.read at h; simp only [unpack] at h; split at h
  · cases h; simp only [PayX.fields, pack, BitVec.toNat_ofNat]; omega
  · cases h

theorem PayQ.back {v : Nat} (hv : v < 2 ^ 64) {p : PayQ} (h : PayQ.read v = some p) : pack p.fields = v := by
  unfold PayQ.read at h; simp only [unpack] at h; split at h
  · cases h; simp only [PayQ.fields, pack, BitVec.toNat_ofNat]; omega
  · cases h

theorem PayS.back {v : Nat} (hv : v < 2 ^ 64) {p : PayS} (h : PayS.read v = some p) : pack p.fields = v := by
  unfold PayS.read at h; simp only [unpack] at h; split at h
  · cases h; simp only [PayS.fields, pack, BitVec.toNat_ofNat]; omega
  · cases h

theorem PayW.back {v : Nat} (hv : v < 2 ^ 64) {p : PayW} (h : PayW.read v = some p) : pack p.fields = v := by
  unfold PayW.read at h; simp only [unpack] at h
  simp only [Option.bind_eq_bind, Option.bind_eq_some_iff, Option.pure_def, Option.some.injEq] at h
  obtain ⟨o, ho, s, hs, rfl⟩ := h
  simp only [PayW.fields, pack, BitVec.toNat_ofNat, Ord.back ho, Scope.back hs]; omega

theorem PayE.back {v : Nat} (hv : v < 2 ^ 64) {p : PayE} (h : PayE.read v = some p) : pack p.fields = v := by
  unfold PayE.read at h; simp only [unpack] at h
  simp only [Option.bind_eq_bind, Option.bind_eq_some_iff] at h
  obtain ⟨s, hs, h⟩ := h
  split at h
  · cases h; simp only [PayE.fields, pack, BitVec.toNat_ofNat, Scope.back hs]; omega
  · cases h

theorem PayN.back {v w : Nat} (hv : v < 2 ^ 64) (hw : w < 2 ^ 128) {p : PayN} (h : PayN.read v w = some p) : pack p.fields = v ∧ pack p.fields1 = w := by
  unfold PayN.read at h; simp only [unpack] at h; cases h; simp only [PayN.fields, PayN.fields1, pack, BitVec.toNat_ofNat]
  constructor <;> omega

theorem map_inv {α : Type} {f : α → Instr} {o : Option α} {i : Instr} (h : some (Option.map f o) = some (some i)) : ∃ p, o = some p ∧ f p = i := by
  cases o with
  | none => cases h
  | some p => exact ⟨p, rfl, by cases h; rfl⟩

set_option maxRecDepth 20000 in
theorem table_inv (op : Nat) (h : Hdr) (v w1 : Nat) (i : Instr) (hv : v < 2 ^ 64) (hw : w1 < 2 ^ 128) (ht : opTable op h v w1 = some (some i)) :
    encode i = some (128, v + 2 ^ 64 * pack (h.fields op)) ∨ encode i = some (256, v + 2 ^ 64 * pack (h.fields op) + 2 ^ 128 * w1) := by
  have main : ∀ (op : Nat) (l : List (Nat × Nat)), totalWidth (l.map Prod.fst) = 64 → mainWord h op l = pack l + 2 ^ 64 * pack (h.fields op) := by
    intro op l hl; unfold mainWord; rw [pack_append, hl]
  unfold opTable at ht
  split at ht
  all_goals first
    | (obtain ⟨p, hp, rfl⟩ := map_inv ht; left; have := PayC.back hv hp; show some (128, mainWord h _ p.fields) = _; rw [main _ _ rfl, this]; done)
    | (obtain ⟨p, hp, rfl⟩ := map_inv ht; left; have := PayA.back hv hp; show some (128, mainWord h _ p.fields) = _; rw [main _ _ rfl, this]; done)
    | (obtain ⟨p, hp, rfl⟩ := map_inv ht; left; have := PayL.back hv hp; show some (128, mainWord h _ p.fields) = _; rw [main _ _ rfl, this]; done)
    | (obtain ⟨p, hp, rfl⟩ := map_inv ht; left; have := PayV.back hv hp; show some (128, mainWord h _ p.fields) = _; rw [main _ _ rfl, this]; done)
    | (obtain ⟨p, hp, rfl⟩ := map_inv ht; left; have := PayX.back hv hp; show some (128, mainWord h _ p.fields) = _; rw [main _ _ rfl, this]; done)
    | (obtain ⟨p, hp, rfl⟩ := map_inv ht; left; have := PayW.back hv hp; show some (128, mainWord h _ p.fields) = _; rw [main _ _ rfl, this]; done)
    | (obtain ⟨p, hp, rfl⟩ := map_inv ht; left; have := PayQ.back hv hp; show some (128, mainWord h _ p.fields) = _; rw [main _ _ rfl, this]; done)
    | (obtain ⟨p, hp, rfl⟩ := map_inv ht; left; have := PayS.back hv hp; show some (128, mainWord h _ p.fields) = _; rw [main _ _ rfl, this]; done)
    | (obtain ⟨p, hp, rfl⟩ := map_inv ht; left; have := PayE.back hv hp; show some (128, mainWord h _ p.fields) = _; rw [main _ _ rfl, this]; done)
    | (obtain ⟨p, hp, rfl⟩ := map_inv ht; right; have hh := PayN.back hv hw hp; show some (256, nestWord h _ p) = _; unfold nestWord; rw [main _ _ rfl, hh.1, hh.2]; done)
    | (obtain ⟨p, hp, rfl⟩ := map_inv ht; left; have := PayE.back hv hp; split <;> (show some (128, mainWord h _ p.fields) = _; rw [main _ _ rfl, this]); done)
    | (obtain ⟨p, hp, rfl⟩ := map_inv ht; left; have := PayQ.back hv hp; split <;> (show some (128, mainWord h _ p.fields) = _; rw [main _ _ rfl, this]); done)
    | (cases ht; done)

end Sys2Proof.Laws
end

