-- ==== Sys2Proof/Laws/Steps.lean ====
section
/-! SUPPORT.  Lemmas for the statements about a step. -/

open Sys2Proof Sys2Proof.Machine Sys2Proof.Claims

namespace Sys2Proof.Laws

theorem nest_iff (w : Word128) : isNestWord w = decide (0x020 ≤ field w.toNat 118 10 ∧ field w.toNat 118 10 ≤ 0x02B) := by
  unfold isNestWord field; rw [Bool.decide_and]

theorem focus_shape {s : State} {b : BInst} (h : focusInst s = some b) : ∃ c q, s.focus = .inst c q := by
  unfold focusInst at h
  cases hf : s.focus with
  | inst c q => exact ⟨c, q, rfl⟩
  | _ => rw [hf] at h; cases h

theorem fetched_inst {s : State} {b : BInst} {w : Word128} {r : Except Reject Instr} (he : Executes s b) (hw : b.code[b.pc]? = some w)
    (hd : decodeMain w.toNat (if 0x020 ≤ field w.toNat 118 10 ∧ field w.toNat 118 10 ≤ 0x02B then (b.code.getD (b.pc + 1) 0).toNat else 0) = r) : fetched s = some r := by
  obtain ⟨c, q, hf⟩ := focus_shape he.focus
  unfold fetched; rw [hf]; dsimp only
  rw [he.focus]; dsimp only
  rw [he.stage, he.quiet]
  rw [if_pos (by rfl)]
  unfold fetchCode; rw [hw]
  simp only [Option.map_some]
  rw [nest_iff]
  simp only [decide_eq_true_eq]
  rw [hd]

theorem run_ok_steps {s : State} {i : Instr} (h : fetched s = some (.ok i)) : runFocus s = exec i s := by
  unfold runFocus; rw [h]

theorem probe_find (s : State) (code : List Word128) (h : findInst s 0 (mget 0 s.seqs 0 + 1) = none) : focusInst (withMain s code) = some (probeInst s code) := by
  show findInst (withMain s code) 0 (mget 0 s.seqs 0 + 1) = _
  unfold findInst withMain at *
  dsimp only
  rw [List.find?_append, h]
  simp [probeInst, BInst.isAt]

set_option maxRecDepth 20000 in
theorem table_skip (op : Nat) (h : Hdr) (x v : Nat) (hn : ¬ (0x020 ≤ op ∧ op ≤ 0x02B)) : opTable op h x v = opTable op h x 0 := by
  unfold opTable
  split <;> first | rfl | (exact absurd ⟨by decide, by decide⟩ hn)

theorem hdr_op {v op : Nat} {h : Hdr} (he : Hdr.read v = some (op, h)) : op = v / 2 ^ 54 % 2 ^ 10 := by
  unfold Hdr.read at he
  simp only [hdrWidths, unpack] at he
  simp only [Option.bind_eq_bind, Option.bind_eq_some_iff, Option.pure_def, Option.some.injEq, Prod.mk.injEq] at he
  obtain ⟨r, hr, g, hg, t0, h0, t1, h1, rfl, rfl⟩ := he
  omega

theorem decode_skip {w v : Nat} {j : Instr} (hd : decodeMain w v = .ok j) (hn : ¬ (0x020 ≤ w / 2 ^ 118 % 2 ^ 10 ∧ w / 2 ^ 118 % 2 ^ 10 ≤ 0x02B)) : decodeMain w 0 = .ok j := by
  unfold decodeMain at *
  split at hd
  · exact hd
  · next op h he =>
    have := hdr_op he
    have e : op = w / 2 ^ 118 % 2 ^ 10 := by omega
    rw [table_skip op h _ v (by rw [e]; exact hn)] at hd
    exact hd

end Sys2Proof.Laws
end

