-- ==== Sys2Proof/Laws/FaultLaws.lean ====
section
/-! SUPPORT.  Lemmas for the statements about taking a fault. -/

open Sys2Proof Sys2Proof.Machine Sys2Proof.Claims

namespace Sys2Proof.Laws

/-- What taking a fault keeps of the worlds and contexts until its record is delivered. -/
structure Kp (s t : State) : Prop where
  w : ∀ w, (worldOf t w).fltSeq = (worldOf s w).fltSeq ∧ (worldOf t w).fltlog = (worldOf s w).fltlog ∧ (worldOf t w).triggers = (worldOf s w).triggers ∧ (worldOf t w).schedbase = (worldOf s w).schedbase ∧ (worldOf t w).prot = (worldOf s w).prot ∧ (worldOf t w).ide = (worldOf s w).ide ∧ (worldOf t w).queues = (worldOf s w).queues
  c : ∀ w x, (ctxOf t w x).resident = (ctxOf s w x).resident ∧ (ctxOf t w x).task = (ctxOf s w x).task ∧ (ctxOf t w x).queue = (ctxOf s w x).queue ∧ (ctxOf t w x).nodes = (ctxOf s w x).nodes
  d : t.dev = s.dev ∧ t.granuleOwner = s.granuleOwner

theorem Kp.rfl' (s : State) : Kp s s := ⟨fun _ => ⟨rfl, rfl, rfl, rfl, rfl, rfl, rfl⟩, fun _ _ => ⟨rfl, rfl, rfl, rfl⟩, rfl, rfl⟩

theorem Kp.of {s t : State} (h1 : t.worlds = s.worlds) (h2 : t.ctxs = s.ctxs) (h3 : t.dev = s.dev) (h4 : t.granuleOwner = s.granuleOwner) : Kp s t := ⟨fun w => by unfold worldOf; rw [h1]; simp, fun w x => by unfold ctxOf; rw [h2]; simp, h3, h4⟩

theorem Kp.trans {s t u : State} (h1 : Kp s t) (h2 : Kp t u) : Kp s u :=
  ⟨fun w => ⟨(h2.w w).1.trans (h1.w w).1, (h2.w w).2.1.trans (h1.w w).2.1, (h2.w w).2.2.1.trans (h1.w w).2.2.1, (h2.w w).2.2.2.1.trans (h1.w w).2.2.2.1, (h2.w w).2.2.2.2.1.trans (h1.w w).2.2.2.2.1, (h2.w w).2.2.2.2.2.1.trans (h1.w w).2.2.2.2.2.1, (h2.w w).2.2.2.2.2.2.trans (h1.w w).2.2.2.2.2.2⟩,
   fun w x => ⟨(h2.c w x).1.trans (h1.c w x).1, (h2.c w x).2.1.trans (h1.c w x).2.1, (h2.c w x).2.2.1.trans (h1.c w x).2.2.1, (h2.c w x).2.2.2.trans (h1.c w x).2.2.2⟩, h2.d.1.trans h1.d.1, h2.d.2.trans h1.d.2⟩

theorem Kp.ctx {s : State} {w : BitVec 4} {x : Context} {c : Ctx} (h : c.resident = (ctxOf s w x).resident ∧ c.task = (ctxOf s w x).task ∧ c.queue = (ctxOf s w x).queue ∧ c.nodes = (ctxOf s w x).nodes) : Kp s (setCtx s w x c) := by
  refine ⟨fun _ => ⟨rfl, rfl, rfl, rfl, rfl, rfl, rfl⟩, fun w' x' => ?_, rfl, rfl⟩
  by_cases hk : ctxKey w' x' = ctxKey w x
  · have h1 : ctxOf (setCtx s w x c) w' x' = c := by unfold ctxOf setCtx; rw [hk]; exact mget_mput_same (d := ({} : Ctx)) _ _ _
    have h2 : ctxOf s w' x' = ctxOf s w x := by unfold ctxOf; rw [hk]
    rw [h1, h2]; exact h
  · have h1 : ctxOf (setCtx s w x c) w' x' = ctxOf s w' x' := by unfold ctxOf setCtx; exact mget_mput_other (d := ({} : Ctx)) _ hk _
    rw [h1]; exact ⟨rfl, rfl, rfl, rfl⟩

theorem Kp.world {s : State} {w : BitVec 4} {c : World} (h : c.fltSeq = (worldOf s w).fltSeq ∧ c.fltlog = (worldOf s w).fltlog ∧ c.triggers = (worldOf s w).triggers ∧ c.schedbase = (worldOf s w).schedbase ∧ c.prot = (worldOf s w).prot ∧ c.ide = (worldOf s w).ide ∧ c.queues = (worldOf s w).queues) : Kp s (setWorld s w c) := by
  refine ⟨fun w' => ?_, fun _ _ => ⟨rfl, rfl, rfl, rfl⟩, rfl, rfl⟩
  by_cases hk : w'.toNat = w.toNat
  · have h1 : worldOf (setWorld s w c) w' = c := by unfold worldOf setWorld; rw [hk]; exact mget_mput_same (d := ({} : World)) _ _ _
    have h2 : worldOf s w' = worldOf s w := by unfold worldOf; rw [hk]
    rw [h1, h2]; exact h
  · have h1 : worldOf (setWorld s w c) w' = worldOf s w' := by unfold worldOf setWorld; exact mget_mput_other (d := ({} : World)) _ hk _
    rw [h1]; exact ⟨rfl, rfl, rfl, rfl, rfl, rfl, rfl⟩

theorem reaches_congr {s t : State} {w : BitVec 4} (h1 : t.dev = s.dev) (h2 : t.granuleOwner = s.granuleOwner) (h3 : (worldOf t w).prot = (worldOf s w).prot) (h4 : (worldOf t w).ide = (worldOf s w).ide) (a : Nat) : reaches t w a = reaches s w a := by
  unfold reaches ownsPa; rw [h1, h2, h3, h4]

theorem kp_drain (s : State) (n : NodeId) (t : Tag) : Kp s (countDrain s n t) := by
  unfold countDrain
  dsimp only
  split
  · exact .rfl' s
  · split
    · exact .rfl' s
    · split
      · refine Kp.trans ?_ (Kp.world ⟨rfl, rfl, rfl, rfl, rfl, rfl, rfl⟩)
        exact Kp.ctx ⟨rfl, rfl, rfl, rfl⟩
      · exact Kp.ctx ⟨rfl, rfl, rfl, rfl⟩

theorem emitDones_dev (v : Inv) (l : List Nat) (s : State) : (emitDones v s l).dev = s.dev ∧ (emitDones v s l).granuleOwner = s.granuleOwner := by
  induction l generalizing s with
  | nil => exact ⟨rfl, rfl⟩
  | cons a l ih =>
    unfold emitDones
    refine ⟨(ih _).1.trans ?_, (ih _).2.trans ?_⟩ <;> (unfold emitTok; dsimp only; split <;> rfl)

theorem kp_endInv (s : State) (id : Nat) : Kp s (endInv s id) := by
  unfold endInv
  split
  · exact .rfl' s
  · dsimp only
    split
    · exact .of rfl rfl rfl rfl
    · refine Kp.trans (.of ?_ ?_ ?_ ?_) (kp_drain _ _ _)
      · simp
      · simp
      · unfold sendGos; dsimp only; rw [(emitDones_dev _ _ _).1]
      · unfold sendGos; dsimp only; rw [(emitDones_dev _ _ _).2]

theorem kp_acq (s : State) (n : NodeId) : Kp s (acquireNode s n) := by
  unfold acquireNode; split <;> exact .of rfl rfl rfl rfl

theorem kp_beginNest (s : State) (p : Placed) (e : List Nat) (g : GoWait) : Kp s (beginNest s p e g) := by
  unfold beginNest
  dsimp only
  have h : Kp s (if g.acq then acquireNode s g.node else s) := by
    split
    · exact kp_acq _ _
    · exact .rfl' s
  split
  · refine Kp.trans ?_ (kp_endInv _ _)
    exact h.trans (.of rfl rfl rfl rfl)
  · exact h.trans (.of rfl rfl rfl rfl)

theorem kp_startGos (n : NodeId) (p : Placed) (k : Nat) (s : State) : Kp s (startGos n p k s) := by
  induction k generalizing s with
  | zero => exact .rfl' s
  | succ k ih =>
    simp only [startGos]
    split
    · exact .rfl' s
    · split
      · exact .rfl' s
      · refine Kp.trans ?_ (ih _)
        refine Kp.trans ?_ (kp_beginNest _ _ _ _)
        exact .of rfl rfl rfl rfl

theorem kp_startWaiting (s : State) (n : NodeId) : Kp s (startWaiting s n) := by
  unfold startWaiting
  split
  · split
    · exact .rfl' s
    · exact kp_startGos _ _ _ _
  · exact .rfl' s

theorem kp_endFaulted (s : State) (id : Nat) : Kp s (endFaulted s id) := by
  unfold endFaulted
  split
  · exact .rfl' s
  · dsimp only
    split
    · refine Kp.trans ?_ (kp_startWaiting _ _)
      exact .of rfl rfl rfl rfl
    · exact .of rfl rfl rfl rfl

theorem kp_returnTag (s : State) (n : NodeId) (t : Option IterTag) : Kp s (returnTag s n t) := by
  cases t with
  | none => exact .rfl' s
  | some g => exact (Kp.ctx (s := s) (w := n.w) (x := n.x) (c := { nodeCtx s n with tags := mput none (nodeCtx s n).tags g.toNat none }) ⟨rfl, rfl, rfl, rfl⟩).trans (.of rfl rfl rfl rfl)

theorem kp_returnTags (l : List BInst) (s : State) : Kp s (returnTags s l) := by
  induction l generalizing s with
  | nil => exact .rfl' s
  | cons b l ih => exact (kp_returnTag _ _ _).trans (ih _)

theorem foldl_eq {β : Type} (f : State → β) (l : List Firing) (s : State) (h : ∀ st (x : Firing), f (unuse st x.cell x.seq) = f st) : f (l.foldl (fun st x => unuse st x.cell x.seq) s) = f s := by
  induction l generalizing s with
  | nil => rfl
  | cons x l ih => rw [List.foldl_cons, ih, h]

theorem kp_unuse (l : List Firing) (s : State) : Kp s (l.foldl (fun st x => unuse st x.cell x.seq) s) := by
  induction l generalizing s with
  | nil => exact .rfl' s
  | cons x l ih => exact (Kp.of (s := s) (t := unuse s x.cell x.seq) rfl rfl rfl rfl).trans (ih _)

theorem kp_discard (s : State) (cell id : Nat) : Kp s (discardInv s cell id) := by
  unfold discardInv
  extract_lets gone dead point back s0 s1
  refine Kp.trans ?_ (kp_returnTags _ _)
  exact (kp_unuse _ s).trans (Kp.of rfl rfl rfl rfl)

theorem kp_waits (l : List NodeId) (s : State) : Kp s (l.foldl startWaiting s) := by
  induction l generalizing s with
  | nil => exact .rfl' s
  | cons n l ih => exact (kp_startWaiting s n).trans (ih _)

theorem kp_dropColour (s : State) (w : BitVec 4) (x : Context) (c : Colour) : Kp s (dropColour s w x c).1 := by
  unfold dropColour
  extract_lets cx mine spires chan held outs gone dead deadInvs toks tags nodes s1 back s2
  refine Kp.trans ?_ (kp_waits _ _)
  refine Kp.trans (t := s1) (Kp.of rfl rfl rfl rfl) ?_
  exact (Kp.ctx (s := s1) (w := w) (x := x) (c := { ctxOf s1 w x with tags := cx.tags.filter (fun e => e.2 != some (.colour c)), purgeq := cx.purgeq.filter (fun e => !dead.any (fun b => e.2 == .inst b.cell b.seq)) }) ⟨rfl, rfl, rfl, rfl⟩).trans (Kp.of rfl rfl rfl rfl)

theorem discard_insts (s : State) (cell id : Nat) : (discardInv s cell id).insts = s.insts.filter (fun b => !(b.inv == id && !b.begun)) := by
  unfold discardInv
  extract_lets gone dead point back s0 s1
  rw [returnTags_insts]
  show List.filter _ s1.insts = _
  rw [show s1.insts = s0.insts from rfl, show s0.insts = s.insts from foldl_eq (fun s => s.insts) _ _ (fun st x => unuse_insts ..)]

theorem closeRun_keeps (m : FMap (Option Run)) (c cell : Nat) (t t0 : Tag) (h : ∀ q, mget none m c = some q → q.tag ≠ t0) : ∀ q, mget none (closeRun m cell t) c = some q → q.tag ≠ t0 := by
  unfold closeRun
  split
  · split
    · intro q hq
      by_cases hc : c = cell
      · subst hc; rw [mget_mput_same (d := none)] at hq; cases hq
      · rw [mget_mput_other (d := none) _ hc] at hq; exact h q hq
    · exact h
  · exact h

theorem closeRun_at (m : FMap (Option Run)) (c : Nat) (t : Tag) : ∀ q, mget none (closeRun m c t) c = some q → q.tag ≠ t := by
  unfold closeRun
  split
  · rename_i r hr
    split
    · intro q hq; rw [mget_mput_same (d := none)] at hq; cases hq
    · intro q hq; rw [hr] at hq; cases hq; assumption
  · intro q hq; rename_i hr; rw [hr] at hq; cases hq

theorem closeRuns_keeps (c : Nat) (t0 : Tag) (l : List BInst) (m : FMap (Option Run)) (h : ∀ q, mget none m c = some q → q.tag ≠ t0) : ∀ q, mget none (closeRuns m l) c = some q → q.tag ≠ t0 := by
  induction l generalizing m with
  | nil => exact h
  | cons b l ih =>
    unfold closeRuns
    refine ih _ ?_
    split
    · exact closeRun_keeps _ _ _ _ _ h
    · exact h

theorem closeRuns_at (b : BInst) (hb : holdsMatrix b.code = true) (l : List BInst) (h : b ∈ l) (m : FMap (Option Run)) : ∀ q, mget none (closeRuns m l) b.cell = some q → q.tag ≠ b.tag := by
  induction l generalizing m with
  | nil => cases h
  | cons y l ih =>
    unfold closeRuns
    rcases List.mem_cons.1 h with rfl | h
    · rw [if_pos hb]; exact closeRuns_keeps _ _ _ _ (closeRun_at _ _ _)
    · exact ih h _

theorem returnTags_f {β : Type} (f : State → β) (h : ∀ s n t, f (returnTag s n t) = f s) (l : List BInst) (s : State) : f (returnTags s l) = f s := by
  induction l generalizing s with
  | nil => rfl
  | cons b l ih => unfold returnTags; rw [ih, h]

theorem discard_planes (s : State) (cell id : Nat) : (discardInv s cell id).planes = closeRuns s.planes (s.insts.filter (fun b => b.inv == id && !b.begun)) := by
  unfold discardInv
  extract_lets gone dead point back s0 s1
  rw [returnTags_planes]
  show closeRuns s1.planes _ = _
  rw [show s1.planes = s0.planes from rfl, show s0.planes = s.planes from foldl_eq (fun s => s.planes) _ _ (fun st x => unuse_planes ..)]

theorem discard_f {β : Type} (f : State → β) (h1 : ∀ s n t, f (returnTag s n t) = f s) (h2 : ∀ s c q, f (unuse s c q) = f s) (h3 : ∀ s c l, f (dropUsed s c l) = f s)
    (h4 : ∀ (s : State) i fi m p g, f { s with insts := i, firings := fi, monitors := m, planes := p, groups := g } = f s) (s : State) (cell id : Nat) : f (discardInv s cell id) = f s := by
  unfold discardInv
  dsimp only
  rw [returnTags_f f h1, h4, h3, foldl_eq f _ _ (fun st x => h2 ..)]

theorem readLE_slotCells (l : List Nat) (hl : ∀ v ∈ l, True) : ∀ (a k : Nat) (m : List Host.Cell), k < l.length → readLE (putBytes m (slotCells a l)) (a + 4 * k) 4 = l.getD k 0 % 2 ^ 32 := by
  induction l with
  | nil => intro a k m hk; simp at hk
  | cons v l ih =>
    intro a k m hk
    have hap : ∀ (l k m : List Host.Cell), putBytes m (l ++ k) = putBytes (putBytes m l) k := by
      intro l; induction l with
      | nil => intro k m; rfl
      | cons a l ih => intro k m; obtain ⟨x, b⟩ := a; exact ih k _
    have hge : ∀ (l : List Nat) (a : Nat) (c : Host.Cell), c ∈ slotCells a l → a ≤ c.1 := by
      intro l; induction l with
      | nil => intro a c h; cases h
      | cons v l ih => intro a c h; unfold slotCells at h; rcases List.mem_append.1 h with h | h
                       · exact (mem_cellsOf h).1
                       · have := ih _ _ h; omega
    unfold slotCells
    rw [hap]
    cases k with
    | zero =>
      rw [readLE_putBytes_other]
      · rw [Nat.mul_zero, Nat.add_zero, readLE_cellsOf]; rfl
      · intro c hc; have := hge _ _ _ hc; omega
    | succ k =>
      have := ih (fun _ _ => trivial) (a + 4) k (putBytes m (cellsOf a 4 v)) (by simp at hk; omega)
      rw [show a + 4 * (k + 1) = a + 4 + 4 * k by omega, this]; rfl

theorem slotCells_in : ∀ (l : List Nat) (a : Nat) (c : Host.Cell), c ∈ slotCells a l → a ≤ c.1 ∧ c.1 < a + 4 * l.length := by
  intro l; induction l with
  | nil => intro a c h; cases h
  | cons v l ih =>
    intro a c h; unfold slotCells at h; rcases List.mem_append.1 h with h | h
    · have := mem_cellsOf h; simp; omega
    · have := ih _ _ h; simp; omega

/-- All that writing a record to a world's log does. -/
theorem logRecord_spec (s : State) (x : CtxId) (l : List Nat) :
    let w := worldOf s x.w
    let place := base12 w.fltlog + 64 * (w.fltSeq % 2 ^ max 4 (bits w.fltlog.toNat 11 8))
    (logRecord s x l).insts = s.insts ∧ (logRecord s x l).outq = s.outq ∧ (logRecord s x l).ctls = s.ctls ∧ (logRecord s x l).planes = s.planes ∧ (logRecord s x l).invs = s.invs ∧ (logRecord s x l).excFlight = s.excFlight
    ∧ (logRecord s x l).worlds = (setWorld s x.w { w with fltSeq := (w.fltSeq + 1) % 2 ^ 32 }).worlds
    ∧ (logRecord s x l).mem = (if base12 w.fltlog = 0 then s.mem else if reaches s x.w place = true then putBytes s.mem (slotCells place l) else s.mem)
    ∧ (logRecord s x l).outputs = s.outputs ++ (match (ctxOf s x.w x.x).queue with
        | some q => if queueVec s x.w q = 0 then [] else [.msix x.w (queueVec s x.w q)]
        | none => []) := by
  intro w place
  have hr : reaches (setWorld s x.w { w with fltSeq := (w.fltSeq + 1) % 2 ^ 32 }) x.w place = reaches s x.w place := reaches_congr (s := s) (t := setWorld s x.w { w with fltSeq := (w.fltSeq + 1) % 2 ^ 32 }) rfl rfl (by rw [worldOf_setWorld]) (by rw [worldOf_setWorld]) _
  have e : logRecord s x l = (let s2 := (if base12 w.fltlog = 0 then setWorld s x.w { w with fltSeq := (w.fltSeq + 1) % 2 ^ 32 } else ownWrite (setWorld s x.w { w with fltSeq := (w.fltSeq + 1) % 2 ^ 32 }) x.w place (slotCells place l))
      match (ctxOf s x.w x.x).queue with | none => s2 | some q => sendVec s2 x.w (queueVec s x.w q)) := rfl
  rw [e]
  unfold ownWrite sendVec
  rw [hr]
  clear e hr
  by_cases h0 : base12 w.fltlog = 0 <;> by_cases h1 : reaches s x.w place = true <;> (cases hq : (ctxOf s x.w x.x).queue with
  | none => simp [h0, h1, hq, setWorld, devWrite]
  | some q => by_cases h2 : queueVec s x.w q = 0 <;> simp [h0, h1, hq, h2, setWorld, devWrite])

theorem deliverRecord_spec (s : State) (o : Origin) (r : Report) :
    let w := worldOf s o.ctx.w
    let c := ctxOf s o.ctx.w o.ctx.x
    let rc := recordSlots o r s.now w.fltSeq
    let t := deliverRecord s o r true
    t.insts = s.insts ∧ t.outq = s.outq ∧ t.ctls = s.ctls ∧ t.planes = s.planes ∧ t.invs = s.invs
    ∧ t.excFlight = (if (supervisorOf c).isNone then s.excFlight else s.excFlight ++ [(o.ctx, excTok o.ctx.x r.cause rc 0xFFFF)])
    ∧ (worldOf t o.ctx.w).fltSeq = (w.fltSeq + 1) % 2 ^ 32 ∧ (c.resident = true → (worldOf t o.ctx.w).triggers = w.triggers ++ [(.fault c.task r.cause, s.now)])
    ∧ t.mem = (let place := base12 w.fltlog + 64 * (w.fltSeq % 2 ^ max 4 (bits w.fltlog.toNat 11 8)); if base12 w.fltlog = 0 then s.mem else if reaches s o.ctx.w place = true then putBytes s.mem (slotCells place rc) else s.mem)
    ∧ t.outputs = s.outputs ++ (match c.queue with
        | some q => if queueVec s o.ctx.w q = 0 then [] else [.msix o.ctx.w (queueVec s o.ctx.w q)]
        | none => []) := by
  dsimp only
  unfold deliverRecord
  dsimp only
  generalize recordSlots o r s.now (worldOf s o.ctx.w).fltSeq = rc
  have hs : ∃ e, sendExc s o.ctx r.cause rc 0xFFFF = { s with excFlight := e } ∧ e = (if (supervisorOf (ctxOf s o.ctx.w o.ctx.x)).isNone then s.excFlight else s.excFlight ++ [(o.ctx, excTok o.ctx.x r.cause rc 0xFFFF)]) := by
    unfold sendExc; split <;> exact ⟨_, rfl, rfl⟩
  obtain ⟨e, he, he2⟩ := hs
  rw [he, ← he2]
  have hl := logRecord_spec { s with excFlight := e } o.ctx rc
  have hnow : (logRecord { s with excFlight := e } o.ctx rc).now = s.now := by
    simp
  dsimp only at hl
  obtain ⟨h1, h2, h3, h4, h5, h6, h7, h8, h9⟩ := hl
  have hw : worldOf { s with excFlight := e } o.ctx.w = worldOf s o.ctx.w := rfl
  have hc : ctxOf { s with excFlight := e } o.ctx.w o.ctx.x = ctxOf s o.ctx.w o.ctx.x := rfl
  have hq : ∀ q, queueVec { s with excFlight := e } o.ctx.w q = queueVec s o.ctx.w q := fun _ => rfl
  have hrr : ∀ a, reaches { s with excFlight := e } o.ctx.w a = reaches s o.ctx.w a := fun _ => rfl
  rw [hw] at h7 h8
  simp only [hrr] at h8
  rw [hc] at h9
  simp only [hq] at h9
  have hwo : worldOf (logRecord { s with excFlight := e } o.ctx rc) o.ctx.w = { worldOf s o.ctx.w with fltSeq := ((worldOf s o.ctx.w).fltSeq + 1) % 2 ^ 32 } := by
    unfold worldOf at *; rw [h7]; exact mget_mput_same (d := ({} : World)) _ _ _
  generalize logRecord { s with excFlight := e } o.ctx rc = u at *
  cases hr : (ctxOf s o.ctx.w o.ctx.x).resident with
  | false =>
    simp only [Bool.and_false, Bool.false_eq_true, if_false]
    refine ⟨h1, h2, h3, h4, h5, h6, by rw [hwo], fun h => h.elim, h8, h9⟩
  | true =>
    simp only [Bool.and_true, if_true]
    have ha : worldOf (addTrigger u o.ctx.w (.fault (ctxOf s o.ctx.w o.ctx.x).task r.cause)) o.ctx.w = { worldOf u o.ctx.w with triggers := (worldOf u o.ctx.w).triggers ++ [(.fault (ctxOf s o.ctx.w o.ctx.x).task r.cause, u.now)] } := by
      exact mget_mput_same (d := ({} : World)) _ _ _
    refine ⟨h1, h2, h3, h4, h5, h6, ?_, fun _ => ?_, h8, h9⟩
    · rw [ha, hwo]
    · rw [ha, hwo, hnow]

theorem hE_filter (l : List Inv) (id k : Nat) (h : ∀ v, l.find? (fun x => x.id == id) = some v → v.held = []) :
    ∀ v, (l.filter (fun x => x.id != k)).find? (fun x => x.id == id) = some v → v.held = [] := by
  intro v hv
  by_cases hk : k = id
  · subst hk
    have h1 := List.find?_some hv
    have hm := List.mem_of_find?_eq_some hv
    rw [List.mem_filter] at hm; simp_all
  · apply h
    rw [List.find?_filter] at hv
    rw [← hv]; congr 1; funext x
    by_cases hx : x.id = id
    · simp [hx]; exact fun h => hk h.symm
    · simp [hx]

theorem hE_app (l : List Inv) (id : Nat) (w : Inv) (hw : w.held = []) (h : ∀ v, l.find? (fun x => x.id == id) = some v → v.held = []) :
    ∀ v, (l ++ [w]).find? (fun x => x.id == id) = some v → v.held = [] := by
  intro v hv
  rw [List.find?_append] at hv
  cases hf : l.find? (fun x => x.id == id) with
  | some u => rw [hf] at hv; cases hv; exact h _ hf
  | none =>
    rw [hf] at hv; simp only [Option.none_or] at hv
    simp only [List.find?_cons, List.find?_nil] at hv
    split at hv <;> cases hv; exact hw

theorem emitDones_invs (v : Inv) (l : List Nat) (s : State) : (emitDones v s l).invs = s.invs := by
  induction l generalizing s with
  | nil => rfl
  | cons a l ih => unfold emitDones; rw [ih]; unfold emitTok; dsimp only; split <;> rfl

theorem drain_invs (s : State) (n : NodeId) (t : Tag) : (countDrain s n t).invs = s.invs := by
  unfold countDrain; dsimp only; (repeat' split) <;> rfl

theorem endInv_held (s : State) (k id : Nat) (h : ∀ v, findInv s id = some v → v.held = []) : ∀ v, findInv (endInv s k) id = some v → v.held = [] := by
  unfold endInv
  split
  · exact h
  · dsimp only
    have hx := hE_filter s.invs id k h
    split
    · exact hx
    · unfold findInv; rw [drain_invs]; unfold sendGos; dsimp only; rw [emitDones_invs]; exact hx

theorem beginNest_held (s : State) (p : Placed) (e : List Nat) (g : GoWait) (id : Nat) (h : ∀ v, findInv s id = some v → v.held = []) : ∀ v, findInv (beginNest s p e g) id = some v → v.held = [] := by
  unfold beginNest
  dsimp only
  have ha : (if g.acq then acquireNode s g.node else s).invs = s.invs := by split; unfold acquireNode; split <;> rfl; rfl
  split
  · refine endInv_held _ _ _ ?_
    unfold findInv; dsimp only; rw [ha]; exact hE_app _ _ _ rfl h
  · unfold findInv; dsimp only; rw [ha]; exact hE_app _ _ _ rfl h

theorem startG_inv (n : NodeId) (p : Placed) (id k : Nat) (s : State) (h : ∀ v, findInv s id = some v → v.held = []) : ∀ v, findInv (startGos n p k s) id = some v → v.held = [] := by
  induction k generalizing s with
  | zero => exact h
  | succ k ih =>
    simp only [startGos]
    split
    · exact h
    · split
      · exact h
      · exact ih _ (beginNest_held _ _ _ _ _ h)

theorem startW_inv (s : State) (n : NodeId) (id : Nat) (h : ∀ v, findInv s id = some v → v.held = []) : ∀ v, findInv (startWaiting s n) id = some v → v.held = [] := by
  unfold startWaiting
  split
  · split
    · exact h
    · exact startG_inv _ _ _ _ _ h
  · exact h

theorem endFaulted_q (s : State) (id : Nat) (h : ((findInv s id).map (fun v => v.nest)).getD false = false) : (endFaulted s id).outq = s.outq ∧ (endFaulted s id).ctls = s.ctls := by
  unfold endFaulted
  split
  · exact ⟨rfl, rfl⟩
  · rename_i v hv
    rw [hv] at h
    dsimp only
    have : v.nest = false := h
    rw [this]; exact ⟨rfl, rfl⟩

theorem recordEq (s : State) (b : BInst) (r : Report) (seq : Nat) :
    recordSlots (originOf s b b.pc 0) r s.now seq = faultRecord b r b.pc (((placedOf s b.node).map (fun p => p.node)).getD 0) (((findInv s b.inv).map (fun v => v.nest)).getD false) s.now seq := by
  unfold recordSlots faultRecord originOf cellX cellY
  dsimp only
  have : s.now % 2 ^ 48 / 2 ^ 32 = s.now / 2 ^ 32 % 2 ^ 16 := by omega
  rw [this]
  simp

theorem fault_now (s : State) (b : BInst) : (endFaulted (discardInv s b.cell b.inv) b.inv).now = s.now := by simp

theorem excTok_slot (x : Context) (c : Cause) (l : List Nat) (hl : l.length = 16) (k : Nat) (hk : k < 16) :
    slotOf (excTok x c l 0xFFFF).val k = some (BitVec.ofNat 32 (l.getD k 0)) := by
  unfold excTok
  have h2 := slotOf_firstSlots (l.map (BitVec.ofNat 32)) k hk
  have hl : k < l.length := by omega
  have h3 : (l.map (BitVec.ofNat 32))[k]? = some (BitVec.ofNat 32 (l.getD k 0)) := by
    rw [List.getElem?_map, List.getElem?_eq_getElem hl, List.getD_eq_getElem?_getD, List.getElem?_eq_getElem hl]; rfl
  rw [h3] at h2
  have hv : (0xFFFF : BitVec 16).getLsbD k = true := by
    have : ∀ k, k < 16 → (0xFFFF : BitVec 16).getLsbD k = true := by decide
    exact this k hk
  generalize firstSlots (l.map (BitVec.ofNat 32)) = fs at *
  unfold slotOf at h2 ⊢
  dsimp only
  rw [hv]
  split at h2
  · exact h2
  · cases h2

end Sys2Proof.Laws
end

