-- ==== Sys2Proof/Laws/Shared.lean ====
section
/-! SUPPORT.  Every shared operation of a meaning answers (`Answers`), keeps memory in its canonical form (`KeepsMem`), changes at most the instance in
focus or raises (`OnlyFocus`), and goes on without effect when its guard is false (`OffGoesOn`). -/

open Sys2Proof Sys2Proof.Machine Sys2Proof.Claims

namespace Sys2Proof.Laws

def Answers (r : Result) : Prop := ∃ t, r = .next t

theorem answers (t : State) : Answers (.next t) := ⟨t, rfl⟩

theorem answers_withOps (h : Hdr) (c : Nat → Val) (s : State) (off : BInst → BInst) (body : BInst → List Val → State) : Answers (withOps h c s off body) := withOps_next h c s off body

theorem answers_pureOp (h : Hdr) (consts : Nat → Val) (aux : BitVec 12) (s : State) (f : BInst → List Val → Deliv) : Answers (pureOp h consts aux s f) := by
  unfold pureOp
  repeat' (first | with_reducible exact answers _ | with_reducible apply answers_withOps | split | dsimp only)

theorem answers_fmtOp (h : Hdr) (consts : Nat → Val) (s : State) (check : BInst → Option Nat) (f : BInst → List Val → Deliv) : Answers (fmtOp h consts s check f) := by
  unfold fmtOp
  repeat' (first | with_reducible exact answers _ | with_reducible apply answers_withOps | split | dsimp only)

theorem answers_floatOp (h : Hdr) (p : PayA) (s : State) (f : Fmt → List Nat → Nat) : Answers (floatOp h p s f) := by
  unfold floatOp
  repeat' (first | with_reducible exact answers _ | with_reducible apply answers_fmtOp | split | dsimp only)

theorem answers_roundOp (h : Hdr) (p : PayA) (s : State) (f : Bool → (Nat → Machine.Num) → Exact) : Answers (roundOp h p s f) := by
  unfold roundOp
  repeat' (first | with_reducible exact answers _ | with_reducible apply answers_fmtOp | split | dsimp only)

theorem answers_transOp (h : Hdr) (p : PayA) (s : State) (f : Machine.Num → Exact) : Answers (transOp h p s f) := by
  unfold transOp
  repeat' (first | with_reducible exact answers _ | with_reducible apply answers_fmtOp | split | dsimp only)

theorem answers_intOp (h : Hdr) (p : PayA) (s : State) (f : Bool → Nat → List Nat → Nat) : Answers (intOp h p s f) := by
  unfold intOp
  repeat' (first | with_reducible exact answers _ | with_reducible apply answers_pureOp | split | dsimp only)

theorem answers_addrOp (h : Hdr) (p : PayA) (s : State) (f : List Int → Int) : Answers (addrOp h p s f) := by
  unfold addrOp
  repeat' (first | with_reducible exact answers _ | with_reducible apply answers_withOps | split | dsimp only)

theorem answers_slotOp (h : Hdr) (p : PayL) (s : State) (f : List Val → Val) : Answers (slotOp h p s f) := by
  unfold slotOp
  repeat' (first | with_reducible exact answers _ | with_reducible apply answers_pureOp | split | dsimp only)

theorem answers_floatReduce (h : Hdr) (p : PayL) (s : State) (f : Fmt → (Nat → Nat) → List Nat → Nat) : Answers (floatReduce h p s f) := by
  unfold floatReduce
  repeat' (first | with_reducible exact answers _ | with_reducible apply answers_fmtOp | split | dsimp only)

theorem answers_intReduce (h : Hdr) (p : PayL) (s : State) (f : Bool → Nat → List Nat → Int) : Answers (intReduce h p s f) := by
  unfold intReduce
  repeat' (first | with_reducible exact answers _ | with_reducible apply answers_pureOp | split | dsimp only)

theorem answers_cvtOp (h : Hdr) (p : PayV) (s : State) (check : BInst → Option Nat) (f : Fmt → Fmt → (Nat → Nat) → List Val → Val) (w : Fmt → Nat) : Answers (cvtOp h p s check f w) := by
  unfold cvtOp
  repeat' (first | with_reducible exact answers _ | with_reducible apply answers_fmtOp | split | dsimp only)

theorem answers_exitOp (h : Hdr) (p : PayC) (s : State) (f : List Val → Exit) : Answers (exitOp h p s f) := by
  unfold exitOp
  repeat' (first | with_reducible exact answers _ | with_reducible apply answers_withOps | split | dsimp only)

theorem answers_routeOp (h : Hdr) (p : PayC) (s : State) (f : BInst → List Val → Val) : Answers (routeOp h p s f) := by
  unfold routeOp
  repeat' (first | with_reducible exact answers _ | with_reducible apply answers_pureOp | split | dsimp only)

theorem answers_counterOp (h : Hdr) (p : PayC) (s : State) (writes : Bool) (body : BInst → List Val → BInst) : Answers (counterOp h p s writes body) := by
  unfold counterOp
  repeat' (first | with_reducible exact answers _ | with_reducible apply answers_withOps | split | dsimp only)

theorem answers_ctlOp (h : Hdr) (p : PayC) (s : State) (go : Bool) : Answers (ctlOp h p s go) := by
  unfold ctlOp
  repeat' (first | with_reducible exact answers _ | with_reducible apply answers_withOps | split | dsimp only)

theorem answers_nestOp (h : Hdr) (p : PayN) (s : State) (kind : SrCtx → Rnd → Nat → NestKind) : Answers (nestOp h p s kind) := by
  unfold nestOp
  repeat' (first | with_reducible exact answers _ | with_reducible apply answers_withOps | split | dsimp only)

theorem answers_memOp (h : Hdr) (s : State) (body : BInst → List Val → State) : Answers (memOp h s body) := by
  unfold memOp
  repeat' (first | with_reducible exact answers _ | with_reducible apply answers_withOps | split | dsimp only)

theorem answers_loadOp (h : Hdr) (p : PayW) (s : State) (size : Nat) (acq : Option Scope) (f : Nat → Val) : Answers (loadOp h p s size acq f) := by
  unfold loadOp
  repeat' (first | with_reducible exact answers _ | with_reducible apply answers_memOp | split | dsimp only)

theorem answers_hintOp (h : Hdr) (p : PayW) (s : State) (active : Bool) (f : State → Nat → State) : Answers (hintOp h p s active f) := by
  unfold hintOp
  repeat' (first | with_reducible exact answers _ | with_reducible apply answers_memOp | split | dsimp only)

theorem answers_atomicOp (h : Hdr) (p : PayW) (s : State) (w : Nat) (isOr isCas pcie : Bool) (pre : BInst → Option Report) (f : BInst → Nat → Nat → Nat → Nat) : Answers (atomicOp h p s w isOr isCas pcie pre f) := by
  unfold atomicOp
  repeat' (first | with_reducible exact answers _ | with_reducible apply answers_memOp | split | dsimp only)

theorem answers_intAtomic (h : Hdr) (p : PayW) (s : State) (op : AtOp) : Answers (intAtomic h p s op) := by
  unfold intAtomic
  repeat' (first | with_reducible exact answers _ | with_reducible apply answers_atomicOp | split | dsimp only)

theorem answers_waitOp (h : Hdr) (p : PayW) (s : State) (ty : Nat) (test : Val → Option (Nat → Bool)) : Answers (waitOp h p s ty test) := by
  unfold waitOp
  repeat' (first | with_reducible exact answers _ | with_reducible apply answers_memOp | split | dsimp only)

theorem answers_matrixOp (h : Hdr) (p : PayX) (s : State) (enabled : BInst → Bool) (body : BInst → List Val → State) : Answers (matrixOp h p s enabled body) := by
  unfold matrixOp
  repeat' (first | with_reducible exact answers _ | with_reducible apply answers_withOps | split | dsimp only)

theorem answers_panelOp (h : Hdr) (p : PayX) (s : State) (nMajor : Bool) : Answers (panelOp h p s nMajor) := by
  unfold panelOp
  repeat' (first | with_reducible exact answers _ | with_reducible apply answers_matrixOp | split | dsimp only)

theorem answers_drainOp (h : Hdr) (p : PayX) (s : State) (ofmt : Option (BitVec 4)) (row : BInst → Run → List Val × Bool) (check : BInst → Option Nat) : Answers (drainOp h p s ofmt row check) := by
  unfold drainOp
  repeat' (first | with_reducible exact answers _ | with_reducible apply answers_matrixOp | split | dsimp only)

theorem answers_copyOp (h : Hdr) (p : PayE) (s : State) (f : BInst → Nat → List Val → Option Nat → Except Report OpKind) : Answers (copyOp h p s f) := by
  unfold copyOp
  repeat' (first | with_reducible exact answers _ | with_reducible apply answers_memOp | split | dsimp only)

theorem answers_quotaOp (h : Hdr) (p : PayQ) (s : State) (sup : Bool) (body : BInst → List Slot → State) : Answers (quotaOp h p s sup body) := by
  unfold quotaOp
  repeat' (first | with_reducible exact answers _ | with_reducible apply answers_withOps | split | dsimp only)

theorem answers_logitOp (s : State) (f : LogitRun → LogitRun) : Answers (logitOp s f) := by
  unfold logitOp
  repeat' (first | with_reducible exact answers _ | split | dsimp only)

theorem answers_logitRound (s : State) (d : BitVec 3) (f : LogitRun → Exact) : Answers (logitRound s d f) := by
  unfold logitRound
  repeat' (first | with_reducible exact answers _ | with_reducible apply answers_logitOp | split | dsimp only)

theorem answers_logitCmp (s : State) (d a b : BitVec 3) (f : Option Ordering → Bool) : Answers (logitCmp s d a b f) := by
  unfold logitCmp
  repeat' (first | with_reducible exact answers _ | with_reducible apply answers_logitOp | split | dsimp only)

theorem answers_polStep (s : State) (f : Decision → Decision) : Answers (polStep s f) := by
  unfold polStep
  repeat' (first | with_reducible exact answers _ | split | dsimp only)

theorem answers_polSet (s : State) (k : BitVec 4) (f : Decision → Word64) : Answers (polSet s k f) := by
  unfold polSet
  repeat' (first | with_reducible exact answers _ | with_reducible apply answers_polStep | split | dsimp only)

theorem answers_polBin (s : State) (k a b : BitVec 4) (f : Word64 → Word64 → Word64) : Answers (polBin s k a b f) := by
  unfold polBin
  repeat' (first | with_reducible exact answers _ | with_reducible apply answers_polSet | split | dsimp only)

theorem answers_polOutcome (s : State) (f : Decision → Option Choice) : Answers (polOutcome s f) := by
  unfold polOutcome
  repeat' (first | with_reducible exact answers _ | split | dsimp only)

theorem answers_request (i : Request) (s : State) (body : State → State) : Answers (request i s body) := by
  unfold request
  repeat' (first | with_reducible exact answers _ | split | dsimp only)

theorem answers_runPkt (s : State) (w : BitVec 4) (q : Nat) (img : Option Image) (take : (Nat → Nat) → Bool) (body : State → Nat → (Nat → Nat) → State) : Answers (runPkt s w q img take body) := by
  unfold runPkt
  repeat' (first | with_reducible exact answers _ | split | dsimp only)

structure KeepsMem (s : State) (r : Result) : Prop where
  go : memWf s.mem = true → ∀ t, r = .next t → memWf t.mem = true

theorem keepsMem {s t : State} (h : memWf s.mem = true → memWf t.mem = true) : KeepsMem s (.next t) := ⟨by intro hw u hu; cases hu; exact h hw⟩

theorem keepsMem_withOps (h : Hdr) (c : Nat → Val) (s : State) (off : BInst → BInst) (body : BInst → List Val → State) (hb : memWf s.mem = true → ∀ b xs, memWf (body b xs).mem = true) : KeepsMem s (withOps h c s off body) := ⟨fun hw => withOps_keeps (P := fun t => memWf t.mem = true) hw (fun _ => hw) (hb hw)⟩

theorem keepsMem_request {i : Request} {s : State} {body : State → State} (hb : memWf s.mem = true → memWf (body s).mem = true) : KeepsMem s (request i s body) := by
  unfold request; split
  · exact keepsMem (fun h => h)
  · split
    · exact keepsMem (fun h => by rw [took_spec]; exact hb h)
    · exact keepsMem (fun h => h)

theorem keepsMem_runPkt {s : State} {w : BitVec 4} {q : Nat} {img : Option Image} {take : (Nat → Nat) → Bool} {body : State → Nat → (Nat → Nat) → State} (hb : ∀ u i d, memWf u.mem = true → memWf (body u i d).mem = true) : KeepsMem s (runPkt s w q img take body) := by
  unfold runPkt
  repeat' (first | apply keepsMem | intro hw | split | (simp [*]; done) | (apply hb; simp [*]; done))

theorem keepsMem_hintOp {h : Hdr} {p : PayW} {s : State} {active : Bool} {f : State → Nat → State} (hf : ∀ y0 y1, memWf y0.mem = true → memWf (f y0 y1).mem = true) : KeepsMem s (hintOp h p s active f) := by
  unfold hintOp
  refine ⟨fun hw => memOp_keeps (P := fun t => memWf t.mem = true) hw (fun _ => hw) (fun b xs => ?_)⟩
  dsimp only
  split
  · simp [*]
  · show memWf (ite _ _ _ : State).mem = true
    split
    · exact hintLines_wf b f s _ hw hf
    · exact hw

theorem keepsMem_memOp (h : Hdr) (s : State) (body : BInst → List Val → State) (hb : memWf s.mem = true → ∀ b xs, memWf (body b xs).mem = true) : KeepsMem s (memOp h s body) := ⟨fun hw => memOp_keeps (P := fun t => memWf t.mem = true) hw (fun _ => hw) (hb hw)⟩

theorem keepsMem_matrixOp {h : Hdr} {p : PayX} {s : State} {enabled : BInst → Bool} {body : BInst → List Val → State} (hb : memWf s.mem = true → ∀ b xs, memWf (body b xs).mem = true) : KeepsMem s (matrixOp h p s enabled body) := ⟨fun hw => matrixOp_keeps (P := fun t => memWf t.mem = true) hw (fun _ => hw) (hb hw)⟩

theorem keepsMem_quotaOp {h : Hdr} {p : PayQ} {s : State} {sup : Bool} {body : BInst → List Slot → State} (hb : memWf s.mem = true → ∀ b xs, memWf (body b xs).mem = true) : KeepsMem s (quotaOp h p s sup body) := ⟨fun hw => quotaOp_keeps (P := fun t => memWf t.mem = true) hw (fun _ => hw) (fun b => by simp [hw]) (hb hw)⟩

theorem keepsMem_pureOp (h : Hdr) (consts : Nat → Val) (aux : BitVec 12) (s : State) (f : BInst → List Val → Deliv) : KeepsMem s (pureOp h consts aux s f) := by
  unfold pureOp
  repeat' (first | with_reducible apply keepsMem | with_reducible apply keepsMem_withOps | intro hw b xs | intro hw | split | assumption | (simp [*]; done) | (have h1 := copyPoints_wf (by assumption) (by assumption); have h2 := setChunkBit_wf h1 (by assumption); simp [putOp, *]; done) | (have h1 := copyPoints_wf (by assumption) (by assumption); simp [putOp, endOp, *]; done) | (have h1 := commitTable_wf (by assumption) (by assumption); simp [*]; done) | (simp [withdrawBrk, *]; done) | (have h1 := commitTable_wf (by assumption) (by assumption); dsimp only at h1; simp [*]; done) | intro u | dsimp only)

theorem keepsMem_fmtOp (h : Hdr) (consts : Nat → Val) (s : State) (check : BInst → Option Nat) (f : BInst → List Val → Deliv) : KeepsMem s (fmtOp h consts s check f) := by
  unfold fmtOp
  repeat' (first | with_reducible apply keepsMem | with_reducible apply keepsMem_withOps | intro hw b xs | intro hw | split | assumption | (simp [*]; done) | (have h1 := copyPoints_wf (by assumption) (by assumption); have h2 := setChunkBit_wf h1 (by assumption); simp [putOp, *]; done) | (have h1 := copyPoints_wf (by assumption) (by assumption); simp [putOp, endOp, *]; done) | (have h1 := commitTable_wf (by assumption) (by assumption); simp [*]; done) | (simp [withdrawBrk, *]; done) | (have h1 := commitTable_wf (by assumption) (by assumption); dsimp only at h1; simp [*]; done) | intro u | dsimp only)

theorem keepsMem_floatOp (h : Hdr) (p : PayA) (s : State) (f : Fmt → List Nat → Nat) : KeepsMem s (floatOp h p s f) := by
  unfold floatOp
  repeat' (first | with_reducible apply keepsMem | with_reducible apply keepsMem_fmtOp | intro hw b xs | intro hw | split | assumption | (simp [*]; done) | (have h1 := copyPoints_wf (by assumption) (by assumption); have h2 := setChunkBit_wf h1 (by assumption); simp [putOp, *]; done) | (have h1 := copyPoints_wf (by assumption) (by assumption); simp [putOp, endOp, *]; done) | (have h1 := commitTable_wf (by assumption) (by assumption); simp [*]; done) | (simp [withdrawBrk, *]; done) | (have h1 := commitTable_wf (by assumption) (by assumption); dsimp only at h1; simp [*]; done) | intro u | dsimp only)

theorem keepsMem_roundOp (h : Hdr) (p : PayA) (s : State) (f : Bool → (Nat → Machine.Num) → Exact) : KeepsMem s (roundOp h p s f) := by
  unfold roundOp
  repeat' (first | with_reducible apply keepsMem | with_reducible apply keepsMem_fmtOp | intro hw b xs | intro hw | split | assumption | (simp [*]; done) | (have h1 := copyPoints_wf (by assumption) (by assumption); have h2 := setChunkBit_wf h1 (by assumption); simp [putOp, *]; done) | (have h1 := copyPoints_wf (by assumption) (by assumption); simp [putOp, endOp, *]; done) | (have h1 := commitTable_wf (by assumption) (by assumption); simp [*]; done) | (simp [withdrawBrk, *]; done) | (have h1 := commitTable_wf (by assumption) (by assumption); dsimp only at h1; simp [*]; done) | intro u | dsimp only)

theorem keepsMem_transOp (h : Hdr) (p : PayA) (s : State) (f : Machine.Num → Exact) : KeepsMem s (transOp h p s f) := by
  unfold transOp
  repeat' (first | with_reducible apply keepsMem | with_reducible apply keepsMem_fmtOp | intro hw b xs | intro hw | split | assumption | (simp [*]; done) | (have h1 := copyPoints_wf (by assumption) (by assumption); have h2 := setChunkBit_wf h1 (by assumption); simp [putOp, *]; done) | (have h1 := copyPoints_wf (by assumption) (by assumption); simp [putOp, endOp, *]; done) | (have h1 := commitTable_wf (by assumption) (by assumption); simp [*]; done) | (simp [withdrawBrk, *]; done) | (have h1 := commitTable_wf (by assumption) (by assumption); dsimp only at h1; simp [*]; done) | intro u | dsimp only)

theorem keepsMem_intOp (h : Hdr) (p : PayA) (s : State) (f : Bool → Nat → List Nat → Nat) : KeepsMem s (intOp h p s f) := by
  unfold intOp
  repeat' (first | with_reducible apply keepsMem | with_reducible apply keepsMem_pureOp | intro hw b xs | intro hw | split | assumption | (simp [*]; done) | (have h1 := copyPoints_wf (by assumption) (by assumption); have h2 := setChunkBit_wf h1 (by assumption); simp [putOp, *]; done) | (have h1 := copyPoints_wf (by assumption) (by assumption); simp [putOp, endOp, *]; done) | (have h1 := commitTable_wf (by assumption) (by assumption); simp [*]; done) | (simp [withdrawBrk, *]; done) | (have h1 := commitTable_wf (by assumption) (by assumption); dsimp only at h1; simp [*]; done) | intro u | dsimp only)

theorem keepsMem_addrOp (h : Hdr) (p : PayA) (s : State) (f : List Int → Int) : KeepsMem s (addrOp h p s f) := by
  unfold addrOp
  repeat' (first | with_reducible apply keepsMem | with_reducible apply keepsMem_withOps | intro hw b xs | intro hw | split | assumption | (simp [*]; done) | (have h1 := copyPoints_wf (by assumption) (by assumption); have h2 := setChunkBit_wf h1 (by assumption); simp [putOp, *]; done) | (have h1 := copyPoints_wf (by assumption) (by assumption); simp [putOp, endOp, *]; done) | (have h1 := commitTable_wf (by assumption) (by assumption); simp [*]; done) | (simp [withdrawBrk, *]; done) | (have h1 := commitTable_wf (by assumption) (by assumption); dsimp only at h1; simp [*]; done) | intro u | dsimp only)

theorem keepsMem_slotOp (h : Hdr) (p : PayL) (s : State) (f : List Val → Val) : KeepsMem s (slotOp h p s f) := by
  unfold slotOp
  repeat' (first | with_reducible apply keepsMem | with_reducible apply keepsMem_pureOp | intro hw b xs | intro hw | split | assumption | (simp [*]; done) | (have h1 := copyPoints_wf (by assumption) (by assumption); have h2 := setChunkBit_wf h1 (by assumption); simp [putOp, *]; done) | (have h1 := copyPoints_wf (by assumption) (by assumption); simp [putOp, endOp, *]; done) | (have h1 := commitTable_wf (by assumption) (by assumption); simp [*]; done) | (simp [withdrawBrk, *]; done) | (have h1 := commitTable_wf (by assumption) (by assumption); dsimp only at h1; simp [*]; done) | intro u | dsimp only)

theorem keepsMem_floatReduce (h : Hdr) (p : PayL) (s : State) (f : Fmt → (Nat → Nat) → List Nat → Nat) : KeepsMem s (floatReduce h p s f) := by
  unfold floatReduce
  repeat' (first | with_reducible apply keepsMem | with_reducible apply keepsMem_fmtOp | intro hw b xs | intro hw | split | assumption | (simp [*]; done) | (have h1 := copyPoints_wf (by assumption) (by assumption); have h2 := setChunkBit_wf h1 (by assumption); simp [putOp, *]; done) | (have h1 := copyPoints_wf (by assumption) (by assumption); simp [putOp, endOp, *]; done) | (have h1 := commitTable_wf (by assumption) (by assumption); simp [*]; done) | (simp [withdrawBrk, *]; done) | (have h1 := commitTable_wf (by assumption) (by assumption); dsimp only at h1; simp [*]; done) | intro u | dsimp only)

theorem keepsMem_intReduce (h : Hdr) (p : PayL) (s : State) (f : Bool → Nat → List Nat → Int) : KeepsMem s (intReduce h p s f) := by
  unfold intReduce
  repeat' (first | with_reducible apply keepsMem | with_reducible apply keepsMem_pureOp | intro hw b xs | intro hw | split | assumption | (simp [*]; done) | (have h1 := copyPoints_wf (by assumption) (by assumption); have h2 := setChunkBit_wf h1 (by assumption); simp [putOp, *]; done) | (have h1 := copyPoints_wf (by assumption) (by assumption); simp [putOp, endOp, *]; done) | (have h1 := commitTable_wf (by assumption) (by assumption); simp [*]; done) | (simp [withdrawBrk, *]; done) | (have h1 := commitTable_wf (by assumption) (by assumption); dsimp only at h1; simp [*]; done) | intro u | dsimp only)

theorem keepsMem_cvtOp (h : Hdr) (p : PayV) (s : State) (check : BInst → Option Nat) (f : Fmt → Fmt → (Nat → Nat) → List Val → Val) (w : Fmt → Nat) : KeepsMem s (cvtOp h p s check f w) := by
  unfold cvtOp
  repeat' (first | with_reducible apply keepsMem | with_reducible apply keepsMem_fmtOp | intro hw b xs | intro hw | split | assumption | (simp [*]; done) | (have h1 := copyPoints_wf (by assumption) (by assumption); have h2 := setChunkBit_wf h1 (by assumption); simp [putOp, *]; done) | (have h1 := copyPoints_wf (by assumption) (by assumption); simp [putOp, endOp, *]; done) | (have h1 := commitTable_wf (by assumption) (by assumption); simp [*]; done) | (simp [withdrawBrk, *]; done) | (have h1 := commitTable_wf (by assumption) (by assumption); dsimp only at h1; simp [*]; done) | intro u | dsimp only)

theorem keepsMem_exitOp (h : Hdr) (p : PayC) (s : State) (f : List Val → Exit) : KeepsMem s (exitOp h p s f) := by
  unfold exitOp
  repeat' (first | with_reducible apply keepsMem | with_reducible apply keepsMem_withOps | intro hw b xs | intro hw | split | assumption | (simp [*]; done) | (have h1 := copyPoints_wf (by assumption) (by assumption); have h2 := setChunkBit_wf h1 (by assumption); simp [putOp, *]; done) | (have h1 := copyPoints_wf (by assumption) (by assumption); simp [putOp, endOp, *]; done) | (have h1 := commitTable_wf (by assumption) (by assumption); simp [*]; done) | (simp [withdrawBrk, *]; done) | (have h1 := commitTable_wf (by assumption) (by assumption); dsimp only at h1; simp [*]; done) | intro u | dsimp only)

theorem keepsMem_routeOp (h : Hdr) (p : PayC) (s : State) (f : BInst → List Val → Val) : KeepsMem s (routeOp h p s f) := by
  unfold routeOp
  repeat' (first | with_reducible apply keepsMem | with_reducible apply keepsMem_pureOp | intro hw b xs | intro hw | split | assumption | (simp [*]; done) | (have h1 := copyPoints_wf (by assumption) (by assumption); have h2 := setChunkBit_wf h1 (by assumption); simp [putOp, *]; done) | (have h1 := copyPoints_wf (by assumption) (by assumption); simp [putOp, endOp, *]; done) | (have h1 := commitTable_wf (by assumption) (by assumption); simp [*]; done) | (simp [withdrawBrk, *]; done) | (have h1 := commitTable_wf (by assumption) (by assumption); dsimp only at h1; simp [*]; done) | intro u | dsimp only)

theorem keepsMem_counterOp (h : Hdr) (p : PayC) (s : State) (writes : Bool) (body : BInst → List Val → BInst) : KeepsMem s (counterOp h p s writes body) := by
  unfold counterOp
  repeat' (first | with_reducible apply keepsMem | with_reducible apply keepsMem_withOps | intro hw b xs | intro hw | split | assumption | (simp [*]; done) | (have h1 := copyPoints_wf (by assumption) (by assumption); have h2 := setChunkBit_wf h1 (by assumption); simp [putOp, *]; done) | (have h1 := copyPoints_wf (by assumption) (by assumption); simp [putOp, endOp, *]; done) | (have h1 := commitTable_wf (by assumption) (by assumption); simp [*]; done) | (simp [withdrawBrk, *]; done) | (have h1 := commitTable_wf (by assumption) (by assumption); dsimp only at h1; simp [*]; done) | intro u | dsimp only)

theorem keepsMem_ctlOp (h : Hdr) (p : PayC) (s : State) (go : Bool) : KeepsMem s (ctlOp h p s go) := by
  unfold ctlOp
  repeat' (first | with_reducible apply keepsMem | with_reducible apply keepsMem_withOps | intro hw b xs | intro hw | split | assumption | (simp [*]; done) | (have h1 := copyPoints_wf (by assumption) (by assumption); have h2 := setChunkBit_wf h1 (by assumption); simp [putOp, *]; done) | (have h1 := copyPoints_wf (by assumption) (by assumption); simp [putOp, endOp, *]; done) | (have h1 := commitTable_wf (by assumption) (by assumption); simp [*]; done) | (simp [withdrawBrk, *]; done) | (have h1 := commitTable_wf (by assumption) (by assumption); dsimp only at h1; simp [*]; done) | intro u | dsimp only)

theorem keepsMem_nestOp (h : Hdr) (p : PayN) (s : State) (kind : SrCtx → Rnd → Nat → NestKind) : KeepsMem s (nestOp h p s kind) := by
  unfold nestOp
  repeat' (first | with_reducible apply keepsMem | with_reducible apply keepsMem_withOps | intro hw b xs | intro hw | split | assumption | (simp [*]; done) | (have h1 := copyPoints_wf (by assumption) (by assumption); have h2 := setChunkBit_wf h1 (by assumption); simp [putOp, *]; done) | (have h1 := copyPoints_wf (by assumption) (by assumption); simp [putOp, endOp, *]; done) | (have h1 := commitTable_wf (by assumption) (by assumption); simp [*]; done) | (simp [withdrawBrk, *]; done) | (have h1 := commitTable_wf (by assumption) (by assumption); dsimp only at h1; simp [*]; done) | intro u | dsimp only)

theorem keepsMem_loadOp (h : Hdr) (p : PayW) (s : State) (size : Nat) (acq : Option Scope) (f : Nat → Val) : KeepsMem s (loadOp h p s size acq f) := by
  unfold loadOp
  repeat' (first | with_reducible apply keepsMem | with_reducible apply keepsMem_memOp | intro hw b xs | intro hw | split | assumption | (simp [*]; done) | (have h1 := copyPoints_wf (by assumption) (by assumption); have h2 := setChunkBit_wf h1 (by assumption); simp [putOp, *]; done) | (have h1 := copyPoints_wf (by assumption) (by assumption); simp [putOp, endOp, *]; done) | (have h1 := commitTable_wf (by assumption) (by assumption); simp [*]; done) | (simp [withdrawBrk, *]; done) | (have h1 := commitTable_wf (by assumption) (by assumption); dsimp only at h1; simp [*]; done) | intro u | dsimp only)

theorem keepsMem_atomicOp (h : Hdr) (p : PayW) (s : State) (w : Nat) (isOr isCas pcie : Bool) (pre : BInst → Option Report) (f : BInst → Nat → Nat → Nat → Nat) : KeepsMem s (atomicOp h p s w isOr isCas pcie pre f) := by
  unfold atomicOp
  repeat' (first | with_reducible apply keepsMem | with_reducible apply keepsMem_memOp | intro hw b xs | intro hw | split | assumption | (simp [*]; done) | (have h1 := copyPoints_wf (by assumption) (by assumption); have h2 := setChunkBit_wf h1 (by assumption); simp [putOp, *]; done) | (have h1 := copyPoints_wf (by assumption) (by assumption); simp [putOp, endOp, *]; done) | (have h1 := commitTable_wf (by assumption) (by assumption); simp [*]; done) | (simp [withdrawBrk, *]; done) | (have h1 := commitTable_wf (by assumption) (by assumption); dsimp only at h1; simp [*]; done) | intro u | dsimp only)

theorem keepsMem_intAtomic (h : Hdr) (p : PayW) (s : State) (op : AtOp) : KeepsMem s (intAtomic h p s op) := by
  unfold intAtomic
  repeat' (first | with_reducible apply keepsMem | with_reducible apply keepsMem_atomicOp | intro hw b xs | intro hw | split | assumption | (simp [*]; done) | (have h1 := copyPoints_wf (by assumption) (by assumption); have h2 := setChunkBit_wf h1 (by assumption); simp [putOp, *]; done) | (have h1 := copyPoints_wf (by assumption) (by assumption); simp [putOp, endOp, *]; done) | (have h1 := commitTable_wf (by assumption) (by assumption); simp [*]; done) | (simp [withdrawBrk, *]; done) | (have h1 := commitTable_wf (by assumption) (by assumption); dsimp only at h1; simp [*]; done) | intro u | dsimp only)

@[simp] theorem withdraw_mem (s : State) (b : BInst) (pa : Nat) (xs : List Val) : (withdraw s b pa xs).mem = s.mem := by
  unfold withdraw; simp

theorem keepsMem_waitOp (h : Hdr) (p : PayW) (s : State) (ty : Nat) (test : Val → Option (Nat → Bool)) : KeepsMem s (waitOp h p s ty test) := by
  unfold waitOp
  repeat' (first | with_reducible apply keepsMem | with_reducible apply keepsMem_memOp | intro hw b xs | intro hw | split | assumption | (simp [*]; done) | (have h1 := copyPoints_wf (by assumption) (by assumption); have h2 := setChunkBit_wf h1 (by assumption); simp [putOp, *]; done) | (have h1 := copyPoints_wf (by assumption) (by assumption); simp [putOp, endOp, *]; done) | (have h1 := commitTable_wf (by assumption) (by assumption); simp [*]; done) | (simp [withdrawBrk, *]; done) | (have h1 := commitTable_wf (by assumption) (by assumption); dsimp only at h1; simp [*]; done) | intro u | dsimp only)

theorem keepsMem_panelOp (h : Hdr) (p : PayX) (s : State) (nMajor : Bool) : KeepsMem s (panelOp h p s nMajor) := by
  unfold panelOp
  repeat' (first | with_reducible apply keepsMem | with_reducible apply keepsMem_matrixOp | intro hw b xs | intro hw | split | assumption | (simp [*]; done) | (have h1 := copyPoints_wf (by assumption) (by assumption); have h2 := setChunkBit_wf h1 (by assumption); simp [putOp, *]; done) | (have h1 := copyPoints_wf (by assumption) (by assumption); simp [putOp, endOp, *]; done) | (have h1 := commitTable_wf (by assumption) (by assumption); simp [*]; done) | (simp [withdrawBrk, *]; done) | (have h1 := commitTable_wf (by assumption) (by assumption); dsimp only at h1; simp [*]; done) | intro u | dsimp only)

theorem keepsMem_drainOp (h : Hdr) (p : PayX) (s : State) (ofmt : Option (BitVec 4)) (row : BInst → Run → List Val × Bool) (check : BInst → Option Nat) : KeepsMem s (drainOp h p s ofmt row check) := by
  unfold drainOp
  repeat' (first | with_reducible apply keepsMem | with_reducible apply keepsMem_matrixOp | intro hw b xs | intro hw | split | assumption | (simp [*]; done) | (have h1 := copyPoints_wf (by assumption) (by assumption); have h2 := setChunkBit_wf h1 (by assumption); simp [putOp, *]; done) | (have h1 := copyPoints_wf (by assumption) (by assumption); simp [putOp, endOp, *]; done) | (have h1 := commitTable_wf (by assumption) (by assumption); simp [*]; done) | (simp [withdrawBrk, *]; done) | (have h1 := commitTable_wf (by assumption) (by assumption); dsimp only at h1; simp [*]; done) | intro u | dsimp only)

theorem keepsMem_copyOp (h : Hdr) (p : PayE) (s : State) (f : BInst → Nat → List Val → Option Nat → Except Report OpKind) : KeepsMem s (copyOp h p s f) := by
  unfold copyOp
  repeat' (first | with_reducible apply keepsMem | with_reducible apply keepsMem_memOp | intro hw b xs | intro hw | split | assumption | (simp [*]; done) | (have h1 := copyPoints_wf (by assumption) (by assumption); have h2 := setChunkBit_wf h1 (by assumption); simp [putOp, *]; done) | (have h1 := copyPoints_wf (by assumption) (by assumption); simp [putOp, endOp, *]; done) | (have h1 := commitTable_wf (by assumption) (by assumption); simp [*]; done) | (simp [withdrawBrk, *]; done) | (have h1 := commitTable_wf (by assumption) (by assumption); dsimp only at h1; simp [*]; done) | intro u | dsimp only)

theorem keepsMem_logitOp (s : State) (f : LogitRun → LogitRun) : KeepsMem s (logitOp s f) := by
  unfold logitOp
  repeat' (first | with_reducible apply keepsMem | intro hw b xs | intro hw | split | assumption | (simp [*]; done) | (have h1 := copyPoints_wf (by assumption) (by assumption); have h2 := setChunkBit_wf h1 (by assumption); simp [putOp, *]; done) | (have h1 := copyPoints_wf (by assumption) (by assumption); simp [putOp, endOp, *]; done) | (have h1 := commitTable_wf (by assumption) (by assumption); simp [*]; done) | (simp [withdrawBrk, *]; done) | (have h1 := commitTable_wf (by assumption) (by assumption); dsimp only at h1; simp [*]; done) | intro u | dsimp only)

theorem keepsMem_logitRound (s : State) (d : BitVec 3) (f : LogitRun → Exact) : KeepsMem s (logitRound s d f) := by
  unfold logitRound
  repeat' (first | with_reducible apply keepsMem | with_reducible apply keepsMem_logitOp | intro hw b xs | intro hw | split | assumption | (simp [*]; done) | (have h1 := copyPoints_wf (by assumption) (by assumption); have h2 := setChunkBit_wf h1 (by assumption); simp [putOp, *]; done) | (have h1 := copyPoints_wf (by assumption) (by assumption); simp [putOp, endOp, *]; done) | (have h1 := commitTable_wf (by assumption) (by assumption); simp [*]; done) | (simp [withdrawBrk, *]; done) | (have h1 := commitTable_wf (by assumption) (by assumption); dsimp only at h1; simp [*]; done) | intro u | dsimp only)

theorem keepsMem_logitCmp (s : State) (d a b : BitVec 3) (f : Option Ordering → Bool) : KeepsMem s (logitCmp s d a b f) := by
  unfold logitCmp
  repeat' (first | with_reducible apply keepsMem | with_reducible apply keepsMem_logitOp | intro hw b xs | intro hw | split | assumption | (simp [*]; done) | (have h1 := copyPoints_wf (by assumption) (by assumption); have h2 := setChunkBit_wf h1 (by assumption); simp [putOp, *]; done) | (have h1 := copyPoints_wf (by assumption) (by assumption); simp [putOp, endOp, *]; done) | (have h1 := commitTable_wf (by assumption) (by assumption); simp [*]; done) | (simp [withdrawBrk, *]; done) | (have h1 := commitTable_wf (by assumption) (by assumption); dsimp only at h1; simp [*]; done) | intro u | dsimp only)

theorem keepsMem_polStep (s : State) (f : Decision → Decision) : KeepsMem s (polStep s f) := by
  unfold polStep
  repeat' (first | with_reducible apply keepsMem | intro hw b xs | intro hw | split | assumption | (simp [*]; done) | (have h1 := copyPoints_wf (by assumption) (by assumption); have h2 := setChunkBit_wf h1 (by assumption); simp [putOp, *]; done) | (have h1 := copyPoints_wf (by assumption) (by assumption); simp [putOp, endOp, *]; done) | (have h1 := commitTable_wf (by assumption) (by assumption); simp [*]; done) | (simp [withdrawBrk, *]; done) | (have h1 := commitTable_wf (by assumption) (by assumption); dsimp only at h1; simp [*]; done) | intro u | dsimp only)

theorem keepsMem_polSet (s : State) (k : BitVec 4) (f : Decision → Word64) : KeepsMem s (polSet s k f) := by
  unfold polSet
  repeat' (first | with_reducible apply keepsMem | with_reducible apply keepsMem_polStep | intro hw b xs | intro hw | split | assumption | (simp [*]; done) | (have h1 := copyPoints_wf (by assumption) (by assumption); have h2 := setChunkBit_wf h1 (by assumption); simp [putOp, *]; done) | (have h1 := copyPoints_wf (by assumption) (by assumption); simp [putOp, endOp, *]; done) | (have h1 := commitTable_wf (by assumption) (by assumption); simp [*]; done) | (simp [withdrawBrk, *]; done) | (have h1 := commitTable_wf (by assumption) (by assumption); dsimp only at h1; simp [*]; done) | intro u | dsimp only)

theorem keepsMem_polBin (s : State) (k a b : BitVec 4) (f : Word64 → Word64 → Word64) : KeepsMem s (polBin s k a b f) := by
  unfold polBin
  repeat' (first | with_reducible apply keepsMem | with_reducible apply keepsMem_polSet | intro hw b xs | intro hw | split | assumption | (simp [*]; done) | (have h1 := copyPoints_wf (by assumption) (by assumption); have h2 := setChunkBit_wf h1 (by assumption); simp [putOp, *]; done) | (have h1 := copyPoints_wf (by assumption) (by assumption); simp [putOp, endOp, *]; done) | (have h1 := commitTable_wf (by assumption) (by assumption); simp [*]; done) | (simp [withdrawBrk, *]; done) | (have h1 := commitTable_wf (by assumption) (by assumption); dsimp only at h1; simp [*]; done) | intro u | dsimp only)

theorem keepsMem_polOutcome (s : State) (f : Decision → Option Choice) : KeepsMem s (polOutcome s f) := by
  unfold polOutcome
  repeat' (first | with_reducible apply keepsMem | intro hw b xs | intro hw | split | assumption | (simp [*]; done) | (have h1 := copyPoints_wf (by assumption) (by assumption); have h2 := setChunkBit_wf h1 (by assumption); simp [putOp, *]; done) | (have h1 := copyPoints_wf (by assumption) (by assumption); simp [putOp, endOp, *]; done) | (have h1 := commitTable_wf (by assumption) (by assumption); simp [*]; done) | (simp [withdrawBrk, *]; done) | (have h1 := commitTable_wf (by assumption) (by assumption); dsimp only at h1; simp [*]; done) | intro u | dsimp only)

theorem fold_mem_eq {α : Type} (f : State → α → State) (h : ∀ s a, (f s a).mem = s.mem) (l : List α) (s : State) : (l.foldl f s).mem = s.mem := by
  induction l generalizing s with
  | nil => rfl
  | cons a l ih => rw [List.foldl_cons, ih, h]

theorem takeTrigger_wf {s t : State} {w : BitVec 4} {f : Trigger → Bool} {g : Trigger} (hw : memWf s.mem = true) (h : takeTrigger s w f = some (t, g)) : memWf t.mem = true := by
  unfold takeTrigger at h
  dsimp only at h
  split at h
  · split at h
    · cases h; exact hw
    · cases h
  · cases h

theorem Kf.from {s u : State} {r : Result} (h : KeepsMem u r) (hm : memWf s.mem = true → memWf u.mem = true) : KeepsMem s r := ⟨fun hw => h.go (hm hw)⟩

def Own (s : State) (b : BInst) (t : State) : Prop := t = s ∨ (∃ r, t = raise s b r) ∨ ∃ c, t = putInst s c ∧ c.cell = b.cell ∧ c.seq = b.seq

structure OnlyFocus (s : State) (r : Result) : Prop where
  go : ∀ t, r = .next t → t = s ∨ ∃ b, focusInst s = some b ∧ Own s b t

theorem onlyFocus (s : State) : OnlyFocus s (.next s) := ⟨fun t h => by cases h; exact .inl rfl⟩

@[simp] theorem adv_c (n : Nat) (b : BInst) : (advance n b).cell = b.cell := rfl

@[simp] theorem adv_s (n : Nat) (b : BInst) : (advance n b).seq = b.seq := rfl

@[simp] theorem eff_c (e : Eff) (b : BInst) : (addEff e b).cell = b.cell := rfl

@[simp] theorem eff_s (e : Eff) (b : BInst) : (addEff e b).seq = b.seq := rfl

@[simp] theorem d1_c (k : Nat) (t : Target) (a : BitVec 12) (v : Val) (p : Bool) (b : BInst) : (deliver1 k t a v p b).cell = b.cell := by unfold deliver1; split <;> rfl

@[simp] theorem d1_s (k : Nat) (t : Target) (a : BitVec 12) (v : Val) (p : Bool) (b : BInst) : (deliver1 k t a v p b).seq = b.seq := by unfold deliver1; split <;> rfl

@[simp] theorem dl_c (h : Hdr) (a : BitVec 12) (d : Deliv) (b : BInst) : (deliver h a d b).cell = b.cell := by unfold deliver deliverAt; simp

@[simp] theorem dl_s (h : Hdr) (a : BitVec 12) (d : Deliv) (b : BInst) : (deliver h a d b).seq = b.seq := by unfold deliver deliverAt; simp

@[simp] theorem sk_c (h : Hdr) (b : BInst) : (skipInst h b).cell = b.cell := by unfold skipInst; simp

@[simp] theorem sk_s (h : Hdr) (b : BInst) : (skipInst h b).seq = b.seq := by unfold skipInst; simp

theorem onlyFocus_withOps {h : Hdr} {c : Nat → Val} {s : State} {off : BInst → BInst} {body : BInst → List Val → State} (ho : ∀ b, (off b).cell = b.cell ∧ (off b).seq = b.seq) (hb : ∀ b xs, Own s b (body b xs)) : OnlyFocus s (withOps h c s off body) := by
  refine ⟨fun t ht => ?_⟩
  obtain h | ⟨b, xs, he, _, h⟩ | ⟨b, xs, hf, h⟩ := withOps_cases ht
  · exact .inl h
  · exact .inr ⟨b, he.focus, .inr (.inr ⟨off b, h, ho b⟩)⟩
  · exact .inr ⟨b, hf.exec.focus, by rw [h]; exact hb b xs⟩

theorem onlyFocus_matrixOp {h : Hdr} {p : PayX} {s : State} {enabled : BInst → Bool} {body : BInst → List Val → State} (hb : ∀ b xs, Own s b (body b xs)) : OnlyFocus s (matrixOp h p s enabled body) := by
  unfold matrixOp
  split
  · exact onlyFocus s
  · split
    · exact onlyFocus s
    · refine onlyFocus_withOps (fun b => ⟨sk_c h b, sk_s h b⟩) (fun b xs => ?_)
      split
      · exact hb b xs
      · exact .inl rfl

theorem own_same (s : State) (b : BInst) : Own s b s := .inl rfl

theorem own_raise (s : State) (b : BInst) (r : Report) : Own s b (raise s b r) := .inr (.inl ⟨r, rfl⟩)

theorem own_fmt (s : State) (b : BInst) (i : Nat) : Own s b (raiseFormat s b i) := .inr (.inl ⟨_, rfl⟩)

theorem emit_c (h : Hdr) (b : BInst) (vs : List Val) : (emitAll h b vs).cell = b.cell ∧ (emitAll h b vs).seq = b.seq := by
  induction vs generalizing b with
  | nil => exact ⟨rfl, rfl⟩
  | cons v l ih => unfold emitAll; have := ih (deliver1 b.pc h.t0 0 v false b); simpa using this

@[simp] theorem emit_c' (h : Hdr) (b : BInst) (vs : List Val) : (emitAll h b vs).cell = b.cell := (emit_c h b vs).1

@[simp] theorem emit_s' (h : Hdr) (b : BInst) (vs : List Val) : (emitAll h b vs).seq = b.seq := (emit_c h b vs).2

theorem own_commit {s : State} {b c : BInst} {r : PlaneOp} (h1 : c.cell = b.cell) (h2 : c.seq = b.seq) : Own s b (commitRun s c r) := .inr (.inr ⟨_, rfl, h1, h2⟩)

theorem own_put {s : State} {b c : BInst} (h1 : c.cell = b.cell) (h2 : c.seq = b.seq) : Own s b (putInst s c) := .inr (.inr ⟨c, rfl, h1, h2⟩)

theorem onlyFocus_pureOp (h : Hdr) (consts : Nat → Val) (aux : BitVec 12) (s : State) (f : BInst → List Val → Deliv) : OnlyFocus s (pureOp h consts aux s f) := by
  unfold pureOp
  repeat' (first | with_reducible exact onlyFocus _ | with_reducible apply onlyFocus_withOps | with_reducible exact own_same _ _ | with_reducible apply own_commit | with_reducible exact own_raise _ _ _ | with_reducible exact own_fmt _ _ _ | with_reducible apply own_put | intro b xs | intro b | split | rfl | with_reducible apply And.intro | (simp; done) | dsimp only)

theorem onlyFocus_fmtOp (h : Hdr) (consts : Nat → Val) (s : State) (check : BInst → Option Nat) (f : BInst → List Val → Deliv) : OnlyFocus s (fmtOp h consts s check f) := by
  unfold fmtOp
  repeat' (first | with_reducible exact onlyFocus _ | with_reducible apply onlyFocus_withOps | with_reducible exact own_same _ _ | with_reducible apply own_commit | with_reducible exact own_raise _ _ _ | with_reducible exact own_fmt _ _ _ | with_reducible apply own_put | intro b xs | intro b | split | rfl | with_reducible apply And.intro | (simp; done) | dsimp only)

theorem onlyFocus_floatOp (h : Hdr) (p : PayA) (s : State) (f : Fmt → List Nat → Nat) : OnlyFocus s (floatOp h p s f) := by
  unfold floatOp
  repeat' (first | with_reducible exact onlyFocus _ | with_reducible apply onlyFocus_fmtOp | with_reducible exact own_same _ _ | with_reducible apply own_commit | with_reducible exact own_raise _ _ _ | with_reducible exact own_fmt _ _ _ | with_reducible apply own_put | intro b xs | intro b | split | rfl | with_reducible apply And.intro | (simp; done) | dsimp only)

theorem onlyFocus_roundOp (h : Hdr) (p : PayA) (s : State) (f : Bool → (Nat → Machine.Num) → Exact) : OnlyFocus s (roundOp h p s f) := by
  unfold roundOp
  repeat' (first | with_reducible exact onlyFocus _ | with_reducible apply onlyFocus_fmtOp | with_reducible exact own_same _ _ | with_reducible apply own_commit | with_reducible exact own_raise _ _ _ | with_reducible exact own_fmt _ _ _ | with_reducible apply own_put | intro b xs | intro b | split | rfl | with_reducible apply And.intro | (simp; done) | dsimp only)

theorem onlyFocus_transOp (h : Hdr) (p : PayA) (s : State) (f : Machine.Num → Exact) : OnlyFocus s (transOp h p s f) := by
  unfold transOp
  repeat' (first | with_reducible exact onlyFocus _ | with_reducible apply onlyFocus_fmtOp | with_reducible exact own_same _ _ | with_reducible apply own_commit | with_reducible exact own_raise _ _ _ | with_reducible exact own_fmt _ _ _ | with_reducible apply own_put | intro b xs | intro b | split | rfl | with_reducible apply And.intro | (simp; done) | dsimp only)

theorem onlyFocus_intOp (h : Hdr) (p : PayA) (s : State) (f : Bool → Nat → List Nat → Nat) : OnlyFocus s (intOp h p s f) := by
  unfold intOp
  repeat' (first | with_reducible exact onlyFocus _ | with_reducible apply onlyFocus_pureOp | with_reducible exact own_same _ _ | with_reducible apply own_commit | with_reducible exact own_raise _ _ _ | with_reducible exact own_fmt _ _ _ | with_reducible apply own_put | intro b xs | intro b | split | rfl | with_reducible apply And.intro | (simp; done) | dsimp only)

theorem onlyFocus_addrOp (h : Hdr) (p : PayA) (s : State) (f : List Int → Int) : OnlyFocus s (addrOp h p s f) := by
  unfold addrOp
  repeat' (first | with_reducible exact onlyFocus _ | with_reducible apply onlyFocus_withOps | with_reducible exact own_same _ _ | with_reducible apply own_commit | with_reducible exact own_raise _ _ _ | with_reducible exact own_fmt _ _ _ | with_reducible apply own_put | intro b xs | intro b | split | rfl | with_reducible apply And.intro | (simp; done) | dsimp only)

theorem onlyFocus_slotOp (h : Hdr) (p : PayL) (s : State) (f : List Val → Val) : OnlyFocus s (slotOp h p s f) := by
  unfold slotOp
  repeat' (first | with_reducible exact onlyFocus _ | with_reducible apply onlyFocus_pureOp | with_reducible exact own_same _ _ | with_reducible apply own_commit | with_reducible exact own_raise _ _ _ | with_reducible exact own_fmt _ _ _ | with_reducible apply own_put | intro b xs | intro b | split | rfl | with_reducible apply And.intro | (simp; done) | dsimp only)

theorem onlyFocus_floatReduce (h : Hdr) (p : PayL) (s : State) (f : Fmt → (Nat → Nat) → List Nat → Nat) : OnlyFocus s (floatReduce h p s f) := by
  unfold floatReduce
  repeat' (first | with_reducible exact onlyFocus _ | with_reducible apply onlyFocus_fmtOp | with_reducible exact own_same _ _ | with_reducible apply own_commit | with_reducible exact own_raise _ _ _ | with_reducible exact own_fmt _ _ _ | with_reducible apply own_put | intro b xs | intro b | split | rfl | with_reducible apply And.intro | (simp; done) | dsimp only)

theorem onlyFocus_intReduce (h : Hdr) (p : PayL) (s : State) (f : Bool → Nat → List Nat → Int) : OnlyFocus s (intReduce h p s f) := by
  unfold intReduce
  repeat' (first | with_reducible exact onlyFocus _ | with_reducible apply onlyFocus_pureOp | with_reducible exact own_same _ _ | with_reducible apply own_commit | with_reducible exact own_raise _ _ _ | with_reducible exact own_fmt _ _ _ | with_reducible apply own_put | intro b xs | intro b | split | rfl | with_reducible apply And.intro | (simp; done) | dsimp only)

theorem onlyFocus_cvtOp (h : Hdr) (p : PayV) (s : State) (check : BInst → Option Nat) (f : Fmt → Fmt → (Nat → Nat) → List Val → Val) (w : Fmt → Nat) : OnlyFocus s (cvtOp h p s check f w) := by
  unfold cvtOp
  repeat' (first | with_reducible exact onlyFocus _ | with_reducible apply onlyFocus_fmtOp | with_reducible exact own_same _ _ | with_reducible apply own_commit | with_reducible exact own_raise _ _ _ | with_reducible exact own_fmt _ _ _ | with_reducible apply own_put | intro b xs | intro b | split | rfl | with_reducible apply And.intro | (simp; done) | dsimp only)

theorem onlyFocus_exitOp (h : Hdr) (p : PayC) (s : State) (f : List Val → Exit) : OnlyFocus s (exitOp h p s f) := by
  unfold exitOp
  repeat' (first | with_reducible exact onlyFocus _ | with_reducible apply onlyFocus_withOps | with_reducible exact own_same _ _ | with_reducible apply own_commit | with_reducible exact own_raise _ _ _ | with_reducible exact own_fmt _ _ _ | with_reducible apply own_put | intro b xs | intro b | split | rfl | with_reducible apply And.intro | (simp; done) | dsimp only)

theorem onlyFocus_routeOp (h : Hdr) (p : PayC) (s : State) (f : BInst → List Val → Val) : OnlyFocus s (routeOp h p s f) := by
  unfold routeOp
  repeat' (first | with_reducible exact onlyFocus _ | with_reducible apply onlyFocus_pureOp | with_reducible exact own_same _ _ | with_reducible apply own_commit | with_reducible exact own_raise _ _ _ | with_reducible exact own_fmt _ _ _ | with_reducible apply own_put | intro b xs | intro b | split | rfl | with_reducible apply And.intro | (simp; done) | dsimp only)

theorem onlyFocus_counterOp {h : Hdr} {p : PayC} {s : State} {writes : Bool} {body : BInst → List Val → BInst} (hb : ∀ b xs, (body b xs).cell = b.cell ∧ (body b xs).seq = b.seq) : OnlyFocus s (counterOp h p s writes body) := by
  unfold counterOp
  refine onlyFocus_withOps (fun b => by simp) (fun b xs => ?_)
  split
  · exact own_raise _ _ _
  · exact own_put (hb b xs).1 (hb b xs).2

theorem onlyFocus_ctlOp (h : Hdr) (p : PayC) (s : State) (go : Bool) : OnlyFocus s (ctlOp h p s go) := by
  unfold ctlOp
  repeat' (first | with_reducible exact onlyFocus _ | with_reducible apply onlyFocus_withOps | with_reducible exact own_same _ _ | with_reducible apply own_commit | with_reducible exact own_raise _ _ _ | with_reducible exact own_fmt _ _ _ | with_reducible apply own_put | intro b xs | intro b | split | rfl | with_reducible apply And.intro | (simp; done) | dsimp only)

theorem nestPoint_cs (s : State) (p : PayN) (e : Fmt) (kind : NestKind) (m w : Nat) (bases outer : List Nat) (i0 : Nat) (acc : NestAcc) :
    (nestPoint s p e kind m w bases outer i0 acc).b.cell = acc.b.cell ∧ (nestPoint s p e kind m w bases outer i0 acc).b.seq = acc.b.seq := by
  unfold nestPoint; split
  · simp
  · split
    · simp
    · cases kind <;> dsimp only
      · split <;> simp
      · simp
      · simp

theorem nestRun_cs (s : State) (p : PayN) (e : Fmt) (kind : NestKind) (m w : Nat) (bases outer : List Nat) (l : List Nat) (acc : NestAcc) :
    (nestRun s p e kind m w bases outer l acc).b.cell = acc.b.cell ∧ (nestRun s p e kind m w bases outer l acc).b.seq = acc.b.seq := by
  induction l generalizing acc with
  | nil => exact ⟨rfl, rfl⟩
  | cons i l ih => have := ih (nestPoint s p e kind m w bases outer i acc); have h2 := nestPoint_cs s p e kind m w bases outer i acc; exact ⟨this.1.trans h2.1, this.2.trans h2.2⟩

theorem nestFin_cs (s : State) (h : Hdr) (e : Fmt) (m w d0 : Nat) (kind : NestKind) (q : Nat) (acc : NestAcc) :
    (nestFinish s h e m w d0 kind q acc).1.b.cell = acc.b.cell ∧ (nestFinish s h e m w d0 kind q acc).1.b.seq = acc.b.seq := by
  unfold nestFinish
  cases kind <;> dsimp only
  · simp
  · split <;> simp
  · split <;> simp

@[simp] theorem nestRun_c (s : State) (p : PayN) (e : Fmt) (kind : NestKind) (m w : Nat) (bases outer : List Nat) (l : List Nat) (acc : NestAcc) :
    (nestRun s p e kind m w bases outer l acc).b.cell = acc.b.cell := (nestRun_cs ..).1

@[simp] theorem nestRun_s (s : State) (p : PayN) (e : Fmt) (kind : NestKind) (m w : Nat) (bases outer : List Nat) (l : List Nat) (acc : NestAcc) :
    (nestRun s p e kind m w bases outer l acc).b.seq = acc.b.seq := (nestRun_cs ..).2

@[simp] theorem nestFin_c (s : State) (h : Hdr) (e : Fmt) (m w d0 : Nat) (kind : NestKind) (q : Nat) (acc : NestAcc) :
    (nestFinish s h e m w d0 kind q acc).1.b.cell = acc.b.cell := (nestFin_cs ..).1

@[simp] theorem nestFin_s (s : State) (h : Hdr) (e : Fmt) (m w d0 : Nat) (kind : NestKind) (q : Nat) (acc : NestAcc) :
    (nestFinish s h e m w d0 kind q acc).1.b.seq = acc.b.seq := (nestFin_cs ..).2

theorem onlyFocus_nestOp (h : Hdr) (p : PayN) (s : State) (kind : SrCtx → Rnd → Nat → NestKind) : OnlyFocus s (nestOp h p s kind) := by
  unfold nestOp
  repeat' (first | with_reducible exact onlyFocus _ | with_reducible apply onlyFocus_withOps | with_reducible exact own_same _ _ | with_reducible apply own_commit | with_reducible exact own_raise _ _ _ | with_reducible exact own_fmt _ _ _ | with_reducible apply own_put | intro b xs | intro b | split | rfl | with_reducible apply And.intro | (simp; done) | dsimp only)

theorem onlyFocus_panelOp (h : Hdr) (p : PayX) (s : State) (nMajor : Bool) : OnlyFocus s (panelOp h p s nMajor) := by
  unfold panelOp
  repeat' (first | with_reducible exact onlyFocus _ | with_reducible apply onlyFocus_matrixOp | with_reducible exact own_same _ _ | with_reducible apply own_commit | with_reducible exact own_raise _ _ _ | with_reducible exact own_fmt _ _ _ | with_reducible apply own_put | intro b xs | intro b | split | rfl | with_reducible apply And.intro | (simp; done) | dsimp only)

theorem onlyFocus_drainOp (h : Hdr) (p : PayX) (s : State) (ofmt : Option (BitVec 4)) (row : BInst → Run → List Val × Bool) (check : BInst → Option Nat) : OnlyFocus s (drainOp h p s ofmt row check) := by
  unfold drainOp
  repeat' (first | with_reducible exact onlyFocus _ | with_reducible apply onlyFocus_matrixOp | with_reducible exact own_same _ _ | with_reducible apply own_commit | with_reducible exact own_raise _ _ _ | with_reducible exact own_fmt _ _ _ | with_reducible apply own_put | intro b xs | intro b | split | rfl | with_reducible apply And.intro | (simp; done) | dsimp only)

theorem updFirst_find (bs : List BInst) (c q : Nat) (x : BInst) (hc : x.isAt c q = true) (c' q' : Nat) (hn : ¬ (c' = c ∧ q' = q)) :
    (updFirst (fun y => y.isAt c q) (fun _ => x) bs).find? (fun y => y.isAt c' q') = bs.find? (fun y => y.isAt c' q') := by
  have hx : x.isAt c' q' = false := by
    unfold BInst.isAt at *; simp only [Bool.and_eq_true, beq_iff_eq] at hc; rw [Bool.and_eq_false_iff]
    rw [hc.1, hc.2]; simp only [beq_eq_false_iff_ne]; omega
  induction bs with
  | nil => rfl
  | cons y l ih =>
    unfold updFirst
    by_cases hy : y.isAt c q = true
    · have hy' : y.isAt c' q' = false := by
        unfold BInst.isAt at *; simp only [Bool.and_eq_true, beq_iff_eq] at hy; rw [Bool.and_eq_false_iff]
        rw [hy.1, hy.2]; simp only [beq_eq_false_iff_ne]; omega
      simp [hy, hx, hy']
    · simp [hy, List.find?_cons, ih]

theorem focus_at {s : State} {b : BInst} (h : focusInst s = some b) : s.focus = .inst b.cell b.seq := by
  unfold focusInst at h
  split at h
  · rename_i c q hf
    unfold findInst at h
    have := List.find?_some h
    unfold BInst.isAt at this; simp only [Bool.and_eq_true, beq_iff_eq] at this
    rw [hf, this.1, this.2]
  · cases h

theorem onlyFocus_final {i : Instr} {s t : State} (h : OnlyFocus s (exec i s)) (he : exec i s = .next t) :
    t = s ∨ (∃ b r, focusInst s = some b ∧ t = raise s b r)
    ∨ (t = { s with insts := t.insts } ∧ ∀ c q, s.focus ≠ .inst c q → findInst t c q = findInst s c q) := by
  rcases h.go t he with h | ⟨b, hb, h | ⟨r, h⟩ | ⟨c, h, h1, h2⟩⟩
  · exact .inl h
  · exact .inl h
  · exact .inr (.inl ⟨b, r, hb, h⟩)
  · refine .inr (.inr ⟨by rw [h]; rfl, fun c' q' hne => ?_⟩)
    rw [h]
    unfold findInst putInst
    refine updFirst_find s.insts c.cell c.seq c (by simp [BInst.isAt]) c' q' ?_
    rintro ⟨rfl, rfl⟩
    exact hne (by rw [focus_at hb, h1, h2])

theorem coded_op {i : Instr} {op op' : Nat} {h h' : Hdr} {l : List (Nat × Nat)} (he : encode i = some (128, mainWord h op l)) (hop : op < 2 ^ 10) (hl : FieldsFit l)
    (hw : totalWidth (l.map Prod.fst) = 64) (hc : Coded i op' h') : op' = op ∧ h' = h := by
  obtain ⟨n, w, h1, h2, h3⟩ := hc
  rw [he] at h1; cases h1
  obtain ⟨-, h4, h5⟩ := mainWord_halves h op l hop hl hw
  have h6 : pack (h.fields op) < 2 ^ 64 := pack_lt _ (h.fields_fit op hop)
  rw [h4, Nat.mod_eq_of_lt h6, Hdr.read_fields h op hop] at h3
  cases h3; exact ⟨rfl, rfl⟩

theorem not_coded {i : Instr} {op : Nat} {h : Hdr} (he : ∀ n w, encode i = some (n, w) → n < 128) (hc : Coded i op h) : False := by
  obtain ⟨n, w, h1, h2, h3⟩ := hc
  have := he n w h1
  omega

structure OffGoesOn (h : Hdr) (s : State) (off : BInst → BInst) (r : Result) : Prop where
  wait : Waits h s → r = .next s
  off : ∀ b, Executes s b → guardOf h b = some false → operands h (fun _ => noVal) b ≠ none → Alone s b → r = .next (putInst s (off b))

theorem ops_none (h : Hdr) (c c' : Nat → Val) (b : BInst) : (operands h c b = none) ↔ (operands h c' b = none) := by
  unfold operands
  generalize List.range h.nopd.toNat = l
  induction l with
  | nil => simp
  | cons k l ih =>
    have hk : operandAt h c b k = none ↔ operandAt h c' b k = none := by unfold operandAt; split <;> simp_all
    simp only [List.mapM_cons]
    cases h1 : operandAt h c b k <;> cases h2 : operandAt h c' b k <;> simp_all
    cases h3 : List.mapM (operandAt h c b) l <;> cases h4 : List.mapM (operandAt h c' b) l <;> simp_all

theorem offGoesOn_withOps (h : Hdr) (c : Nat → Val) (s : State) (off : BInst → BInst) (body : BInst → List Val → State) : OffGoesOn h s off (withOps h c s off body) := by
  constructor
  · intro hw
    unfold withOps
    split
    · rfl
    · rename_i b hb
      rcases hw b hb with h1 | h1 | h1 | h1
      · rw [if_pos (.inl h1)]
      · rw [if_pos (.inr (by cases hr : b.raised <;> simp_all))]
      · split
        · rfl
        · rw [h1]
      · split
        · rfl
        · rw [(ops_none h _ c b).1 h1]; split <;> simp_all
  · intro b he hg ho _
    have : operands h c b ≠ none := fun h' => ho ((ops_none h c _ b).1 h')
    cases hx : operands h c b with
    | none => exact absurd hx this
    | some xs => exact withOps_off off body he ⟨hg, hx⟩

theorem offGoesOn_older {h : Hdr} {s : State} {off : BInst → BInst} {f : BInst → Result} (hf : ∀ b, OffGoesOn h s off (f b)) :
    OffGoesOn h s off (match focusInst s with | none => .next s | some b0 => if olderOfInv s b0 then .next s else f b0) := by
  cases hb : focusInst s with
  | none => exact ⟨fun _ => rfl, fun b he => by rw [he.focus] at hb; cases hb⟩
  | some b0 =>
    dsimp only
    split
    · rename_i ho
      refine ⟨fun _ => rfl, fun b he hg hx ha => ?_⟩
      have := he.focus; rw [hb] at this; cases this
      exact absurd ho (by rw [ha]; decide)
    · exact hf b0

theorem coded_nest {i : Instr} {op op' : Nat} {h h' : Hdr} {p : PayN} (he : encode i = some (256, nestWord h op p)) (hop : op < 2 ^ 10)
    (hc : Coded i op' h') : op' = op ∧ h' = h := by
  obtain ⟨n, w, h1, h2, h3⟩ := hc
  rw [he] at h1; cases h1
  obtain ⟨-, h4, h5⟩ := mainWord_halves h op p.fields hop p.fit rfl
  have h6 : pack (h.fields op) < 2 ^ 64 := pack_lt _ (h.fields_fit op hop)
  have : nestWord h op p / 2 ^ 64 % 2 ^ 64 = pack (h.fields op) := by unfold nestWord; omega
  rw [this, Hdr.read_fields h op hop] at h3
  cases h3; exact ⟨rfl, rfl⟩

theorem offGoesOn_final {i : Instr} {op : Nat} {h : Hdr} {ln : Nat} {aux : BitVec 12} (hx : ∀ s, OffGoesOn h s (fun b => advance ln (deliver h aux offDeliv b)) (exec i s))
    (hl : ln = if 0x020 ≤ op ∧ op ≤ 0x02B then 2 else 1) (h1 : op ≠ 0x009) (h2 : op ≠ 0x341) (ha : op < 0x008 ∨ 0x014 < op → aux = 0) :
    (∀ s, Waits h s → exec i s = .next s)
    ∧ ∀ s b, Executes s b → guardOf h b = some false → operands h (fun _ => noVal) b ≠ none → Alone s b →
      let len := if 0x020 ≤ op ∧ op ≤ 0x02B then 2 else 1
      (op ≠ 0x009 → op ≠ 0x341 → ∃ aux, (op < 0x008 ∨ 0x014 < op → aux = 0) ∧ exec i s = .next (putInst s (advance len (deliver h aux offDeliv b))))
      ∧ (op = 0x341 → exec i s = .next (putInst s (advance 1 (deliver h 0 offDeliv { b with effs := b.effs ++ (match b.spawned with | some g => [.tagFree g] | none => []) }))))
      ∧ (op = 0x009 → ∃ h' aux, (h'.t0 = h.t0 ∨ h'.t0 = .none ∧ h.t0.isChan = true) ∧ (h'.t1 = h.t1 ∨ h'.t1 = .none ∧ h.t1.isChan = true)
        ∧ exec i s = .next (putInst s (advance 1 (deliver h' aux offDeliv b)))) := by
  subst hl
  refine ⟨fun s => (hx s).wait, fun s b he hg ho hal => ⟨fun _ _ => ⟨aux, ha, (hx s).off b he hg ho hal⟩, fun h => absurd h h2, fun h => absurd h h1⟩⟩

theorem steerT (d : Bool) (t : Target) : steerTarget d t 0 = t ∨ steerTarget d t 0 = .none ∧ t.isChan = true := by
  unfold steerTarget; cases hd : d <;> cases ht : t.isChan <;> simp

end Sys2Proof.Laws
end

