-- ==== Sys2Proof/Tests/Slice0.lean ====
section
/-! SUPPORT.  Tests: words written out from the manual's encodings, ill-formed terms that the checks refuse, single steps, and a state and operands
that meet the hypotheses of each statement. -/

open Sys2Proof Sys2Proof.Machine Sys2Proof.Claims

namespace Sys2Proof.Tests

set_option Elab.async false

/-! ### Decoding, from the manual's tables (R72–R83, R194, R328) -/

/-- A header with defaults. -/
def hd (nopd : BitVec 3) (t0 : Target := .none) : Hdr :=
  { fmt := 0, rnd := .dflt, gd := Guard.off, nopd := nopd, imask := 0, t0 := t0, t1 := .none, hint := 0, swz := 0, sched := 0 }

/-- MSET with one constant operand: op [127:118] 1000000000, rnd [113:111] 111, nopd [105:103] 001, imask [102:98] 00001. -/
theorem test_word_mset : decodeTableWord 128 0x80038084000000000000000000000000 = some (.mset { hd 1 with imask := 1 } { bfmt := 0, ofmt := 0, mctl := 0, k0 := 0 }) := by decide
/-- CPY with op 1100000000, nopd 001, t0 [97:86] channel 2, and scope [63:61] 010. -/
theorem test_word_cpy : decodeTableWord 128 0xC0038083040000004000000000000000 = some (.cpy { hd 1 with t0 := .chan 2 } { scope := .die, ectl := 0, k0 := 0 }) := by decide
theorem test_word_shli : decodeTableWord 32 0x52640001 = some (.polShli 9 9 1) := by decide
/-- A policy word of the unassigned op 0x00, and a main word of the unassigned op 0x007 (R86). -/
theorem test_word_policy_zero : decodeTableWord 32 0 = none := by decide
theorem test_word_op_unassigned : decodeTableWord 128 (0x007 * 2 ^ 118 + 7 * 2 ^ 111) = none := by decide
/-- END (0x001) with a reserved guard mode, a reserved target kind bit pattern, rnd other than 111 and a nonzero unused field (R6, R73, R75, R76, R78). -/
theorem test_word_guard_reserved : [1, 2, 3].map (fun m => (GuardMode.read m).isSome) = [true, true, false] := by decide
theorem test_word_target_reserved : Target.read 1 = none := by decide
theorem test_word_rnd_refused : decodeTableWord 128 (0x001 * 2 ^ 118) = none := by decide
theorem test_word_unused_refused : decodeTableWord 128 (0x001 * 2 ^ 118 + 7 * 2 ^ 111 + 1) = none := by decide
/-- The words of FMUL, LD and a logit program encode back as the manual writes them. -/
theorem test_encode_fmul : encode (.fmul { hd 2 (.operand 1 0) with imask := 2 } { k := 0x40000000 }) = some (128, 0x40838109020000000000000040000000) := by decide
theorem test_encode_sel : encode (.lgSel 6 6 7 5) = some (64, 0x9EDE800000000000) := by decide

/-! ### Ill-formed terms that the checks refuse (R37, R73–R83, R89) -/

def payA : PayA := { k := 0 }
def payC : PayC := { blk := 0, auxi := 0, cctl := 0, k0 := 0 }
def payL : PayL := { lctl := 0, k0 := 0 }
def payV : PayV := { dfmt := 0, vctl := 0, k0 := 0 }
def payX : PayX := { bfmt := 0, ofmt := 0, mctl := 0, k0 := 0 }
def payW : PayW := { wself := 1, wpred := 0, wsucc := 127, scope := .cell, ord := .plain, mctl := 0, ofs := 0 }
def payE : PayE := { scope := .cell, ectl := 0, k0 := 0 }
def payQ : PayQ := { qctl := 0, k0 := 0 }
def payS : PayS := { sreg := 0, k0 := 0 }
def payN : PayN := { sh2 := 0, ext4 := 0, ext3 := 0, ext2 := 0, ext1 := 0, ext0 := 2, sh0 := 0, sh1 := 0, strides := 0 }

/-- A header that passes, and one for each check of the common header that refuses it. -/
theorem test_ill_headers :
    (Instr.iadd (hd 2 (.operand 1 0)) payA).wf = true
    ∧ [Instr.iadd { hd 2 (.operand 1 0) with gd := { m0 := .none, m1 := .none, orr := true } } payA, .iadd (hd 1 (.operand 1 0)) payA, .iadd (hd 3 (.operand 1 0)) payA,
      .iadd { hd 2 (.operand 1 0) with imask := 4 } payA, .iadd (hd 2 (.operand 1 5)) payA, .iadd (hd 2 (.pred 1 2)) payA, .iadd (hd 2 (.chan 16)) payA,
      .iadd { hd 2 with t1 := .chan 0 } payA, .iadd { hd 2 (.operand 1 0) with fmt := 8 } payA, .iadd { hd 2 (.operand 1 0) with rnd := .rne } payA,
      .iadd { hd 2 (.operand 1 0) with hint := 1 } payA, .iadd { hd 2 (.operand 1 0) with swz := 1 } payA, .iadd { hd 2 (.operand 1 0) with sched := 4 } payA,
      .iadd (hd 2 (.operand 1 0)) { k := 1 }, .iadd { hd 2 (.operand 1 0) with fmt := 3, imask := 3 } payA].all (fun i => !i.wf) = true := by decide
/-- The payload checks of each layout. -/
theorem test_ill_payloads :
    [Instr.exitEnd (hd 0) { payC with blk := 1 }, .br (hd 0) { payC with auxi := 1 }, .cntld (hd 1) { payC with cctl := 0x4A }, .cntld (hd 1) { payC with cctl := 0x80 },
      .lbcast (hd 1 (.operand 1 0)) { payL with lctl := 16 }, .unpk2 { hd 1 (.operand 1 0) with rnd := .dflt } { payV with vctl := 2 },
      .cvti (hd 1 (.operand 1 0)) { payV with dfmt := 8 }, .mset (hd 1) { payX with bfmt := 1 }, .mset (hd 1) { payX with mctl := 16 },
      .ld (hd 1 (.operand 1 0)) { payW with wself := 0 }, .ld (hd 1 (.operand 1 0)) { payW with wself := 127 }, .ld (hd 1 (.operand 1 0)) { payW with ord := .acq },
      .ld { hd 1 (.operand 1 0) with swz := 1 } payW, .cpy { hd 1 (.chan 0) with imask := 1 } payE, .cpy (hd 1 (.chan 0)) { payE with k0 := 1 },
      .quota { hd 2 with imask := 1 } payQ, .rdsr (hd 0 (.operand 1 0)) { payS with sreg := 0x005 }, .wrsr (hd 1) { payS with sreg := 0x010 },
      .lncpy (hd 2) { payN with ext0 := 0 }, .lncpy (hd 2) { payN with ext2 := 1 }, .lncpy (hd 2) { payN with sh2 := 1 }, .lnsum (hd 2) { payN with strides := 1 },
      .quotaTag (hd 2) { payQ with qctl := 0 }].all (fun i => !i.wf) = true := by decide

/-! ### Fixtures -/

/-- An instance with operands at slot 0. -/
def inst (xs : List Val) : BInst := { probeInst State.reset [] with opds := enumFrom 0 xs }

/-- A state where it is in focus and alone. -/
def at_ (b : BInst) : State := { State.reset with focus := .inst 0 1, insts := [b], invs := [{ id := 0, cell := 0, node := b.node, tag := b.tag, held := [], emitted := [], nest := false }] }

/-- The value of element n of the operand that the only instance got at slot 1, position 0. -/
def got (w n : Nat) (r : Result) : Option Nat :=
  match r with
  | .next t => (t.insts.head?.bind (fun b => mfind b.opds 8)).bind (fun v => elemOf w v n)
  | _ => none

/-- Every slot holds x. -/
def all32 (x : Nat) : Val := ofSlots (List.replicate 16 (some (BitVec.ofNat 32 x)))

theorem fires_of {h : Hdr} {c : Nat → Val} {xs ys : List Val} (hg : guardOf h (inst xs) = some true) (ho : operands h c (inst xs) = some ys) : Fires h c (at_ (inst xs)) (inst xs) ys :=
  ⟨⟨rfl, rfl, rfl⟩, hg, ho⟩

/-! ### Hypotheses met, and results by hand: vector, lane and conversion instructions -/

theorem witness_IntegerArithmeticResults : Fires (hd 2) (kConsts (codeWidth (hd 2).fmt == 64) 0) (at_ (inst [all32 7, all32 2])) (inst [all32 7, all32 2]) [all32 7, all32 2] := fires_of (by decide +kernel) (by decide +kernel)
/-- A constant in operand position 1: K0 in every slot. -/
theorem witness_BitwiseResults : Fires { hd 2 with imask := 2 } (kConsts (codeWidth (hd 2).fmt == 64) 5) (at_ (inst [all32 7])) (inst [all32 7]) [all32 7, all32 5] := fires_of (by decide +kernel) (by decide +kernel)
theorem witness_CompareSelectMoveResults : Fires { hd 3 with fmt := 6 } (kConsts (codeWidth 6 == 64) 0) (at_ (inst [all32 1, all32 2, noVal])) (inst [all32 1, all32 2, noVal]) [all32 1, all32 2, noVal] := fires_of (by decide +kernel) (by decide +kernel)
/-- AADD at the boundary: 2^57 − 1 + 0 is good and 2^57 − 1 + 1 is not. -/
theorem witness_AddressFormResults : Fires { hd 2 with fmt := 7 } (kConsts true 0) (at_ (inst [word64 (2 ^ 57 - 1), word64 0])) (inst [word64 (2 ^ 57 - 1), word64 0]) [word64 (2 ^ 57 - 1), word64 0] ∧ elemsAt 64 [word64 (2 ^ 57 - 1), word64 0] 0 = some [2 ^ 57 - 1, 0] := ⟨fires_of (by decide +kernel) (by decide +kernel), by decide +kernel⟩
theorem witness_AddressFormResults_overflow : Fires { hd 2 with fmt := 7 } (kConsts true 0) (at_ (inst [word64 (2 ^ 57 - 1), word64 1])) (inst [word64 (2 ^ 57 - 1), word64 1]) [word64 (2 ^ 57 - 1), word64 1] ∧ elemsAt 64 [word64 (2 ^ 57 - 1), word64 1] 0 = some [2 ^ 57 - 1, 1] := ⟨fires_of (by decide +kernel) (by decide +kernel), by decide +kernel⟩
/-- Entry 0 is FP32 at reset (R119), which the vector class takes. -/
theorem witness_FloatRoundsOnce : Fires (hd 2) (kConsts false 0) (at_ (inst [all32 0x3F800000, all32 0x40000000])) (inst [all32 0x3F800000, all32 0x40000000]) [all32 0x3F800000, all32 0x40000000] ∧ vectorEntry (entryWord (at_ (inst [])) (inst []) 0) = true := ⟨fires_of (by decide +kernel) (by decide +kernel), by decide +kernel⟩
/-- The transcendentals' entry as at reset, and one that they refuse. -/
theorem witness_FloatSelectionsAndTranscendentals : Fires (hd 1) (kConsts false 0) (at_ (inst [all32 0])) (inst [all32 0]) [all32 0] ∧ entryWord (at_ (inst [])) (inst []) 0 = fp32Word ∧ entryWord (at_ (inst [])) (inst []) 1 ≠ fp32Word := ⟨fires_of (by decide +kernel) (by decide +kernel), by decide +kernel, by decide +kernel⟩
theorem witness_SlotMoveResults : Fires (hd 2) (k0Const 0) (at_ (inst [all32 4, all32 1])) (inst [all32 4, all32 1]) [all32 4, all32 1] := fires_of (by decide +kernel) (by decide +kernel)
theorem witness_ScanAndReductionResults : Fires (hd 0) (k0Const 0) (at_ (inst [])) (inst []) [] ∧ Fires (hd 1) (k0Const 0) (at_ (inst [all32 4])) (inst [all32 4]) [all32 4] ∧ validElems 32 (all32 4) ≠ [] ∧ validElems 32 noVal = [] := ⟨fires_of (by decide +kernel) (by decide +kernel), fires_of (by decide +kernel) (by decide +kernel), by decide +kernel, by decide +kernel⟩
/-- The FP32 and BF16 entries of the reset table, and four operands for CVPK4. -/
theorem witness_ConversionResults : Fires (hd 4) (k0Const 0) (at_ (inst [all32 1, all32 2, all32 3, all32 4])) (inst [all32 1, all32 2, all32 3, all32 4]) [all32 1, all32 2, all32 3, all32 4]
    ∧ contW (entryWord (at_ (inst [])) (inst []) 0) = 32 ∧ contW (entryWord (at_ (inst [])) (inst []) 1) = 16 := ⟨fires_of (by decide +kernel) (by decide +kernel), by decide +kernel, by decide +kernel⟩
theorem witness_BlockQuantiseAppends : Fires (hd 1 (.chan 3)) (k0Const 0) (at_ (inst [all32 0x3F800000])) (inst [all32 0x3F800000]) [all32 0x3F800000] ∧ (hd 1 (.chan 3)).t0 = .chan 3 := ⟨fires_of (by decide +kernel) (by decide +kernel), rfl⟩

/-- 7 + 2, 7 − 2, 7 / 2 toward zero, and −7 rem 2 = −1 in 32 bits. -/
theorem test_iadd : got 32 3 (exec (.iadd { hd 2 (.operand 1 0) with fmt := 6 } payA) (at_ (inst [all32 7, all32 2]))) = some 9 := by decide +kernel
theorem test_irem : got 32 0 (exec (.irem { hd 2 (.operand 1 0) with fmt := 2 } payA) (at_ (inst [all32 (2 ^ 32 - 7), all32 2]))) = some (2 ^ 32 - 1) := by decide +kernel
/-- 1.0 + 2.0 = 3.0 and 1.5 × 2.0 = 3.0 in binary32. -/
theorem test_fadd : got 32 0 (exec (.fadd (hd 2 (.operand 1 0)) payA) (at_ (inst [all32 0x3F800000, all32 0x40000000]))) = some 0x40400000 := by decide +kernel
theorem test_fmul : got 32 15 (exec (.fmul (hd 2 (.operand 1 0)) payA) (at_ (inst [all32 0x3FC00000, all32 0x40000000]))) = some 0x40400000 := by decide +kernel
/-- RISUM of sixteen threes, and LBCAST of slot 5. -/
theorem test_risum : got 32 0 (exec (.risum { hd 1 (.operand 1 0) with fmt := 6 } payL) (at_ (inst [all32 3]))) = some 48 := by decide +kernel
theorem test_lbcast : got 32 9 (exec (.lbcast (hd 1 (.operand 1 0)) { payL with lctl := 5 }) (at_ (inst [firstSlots [0, 1, 2, 3, 4, 77]]))) = some 77 := by decide +kernel
/-- CVT of binary32 1.0 to entry 1, bfloat16: the containers differ, so FORMAT_ENTRY is raised and the instance goes. -/
theorem test_cvt_refused : (match exec (.cvt (hd 1 (.operand 1 0)) { payV with dfmt := 1 }) (at_ (inst [all32 0x3F800000])) with
  | .next t => t.insts.length
  | _ => 9) = 0 := by decide +kernel

/-! ### Control and loop nests -/

theorem witness_ExitsTaken : Fires (hd 2) (k0Const 0) (at_ (inst [word32 9, all32 1])) (inst [word32 9, all32 1]) [word32 9, all32 1] ∧ (inst []).exit = none ∧ ({ inst [] with exit := some .fin }).exit ≠ none := ⟨fires_of (by decide +kernel) (by decide +kernel), rfl, by decide +kernel⟩
theorem witness_EmitDeliversOperand : Fires (hd 1 (.chan 0)) (k0Const 0) (at_ (inst [all32 4])) (inst [all32 4]) [all32 4] := fires_of (by decide +kernel) (by decide +kernel)
theorem witness_MergeTakesLowestValid : Fires (hd 2) (k0Const 0) (at_ (inst [noVal, all32 4])) (inst [noVal, all32 4]) [noVal, all32 4] := fires_of (by decide +kernel) (by decide +kernel)
/-- GATE with both operands, and with operand 1 not there. -/
theorem witness_GateHoldsOperandZero : Fires (hd 2) (k0Const 0) (at_ (inst [all32 4, noVal])) (inst [all32 4, noVal]) [all32 4, noVal] ∧ Executes (at_ (inst [all32 4])) (inst [all32 4]) ∧ operands (hd 2) (k0Const 0) (inst [all32 4]) = none := ⟨fires_of (by decide +kernel) (by decide +kernel), ⟨rfl, rfl, rfl⟩, by decide +kernel⟩
theorem witness_DropDeliversNothing : Fires (hd 1) (k0Const 0) (at_ (inst [all32 4])) (inst [all32 4]) [all32 4] := fires_of (by decide +kernel) (by decide +kernel)
theorem witness_SteerAndIterResults : Fires (hd 2) (k0Const 0) (at_ (inst [all32 4, word32 0])) (inst [all32 4, word32 0]) [all32 4, word32 0] ∧ Fires (hd 0) (k0Const 0) (at_ { inst [] with point := some ([3, 0, 0, 0], 3) }) { inst [] with point := some ([3, 0, 0, 0], 3) } [] := ⟨fires_of (by decide +kernel) (by decide +kernel), ⟨⟨rfl, rfl, rfl⟩, by decide +kernel, by decide +kernel⟩⟩
theorem test_merge : got 32 1 (exec (.merge (hd 2 (.operand 1 0)) payC) (at_ (inst [firstSlots [8], all32 4]))) = some 4 := by decide +kernel
theorem test_steer : got 32 1 (exec (.steer (hd 2 (.operand 1 0)) payC) (at_ (inst [all32 4, word32 0]))) = none := by decide +kernel

/-- A node's configuration at cell 0, with counters and their LIMITs. -/
def routed (k : NodeKind) (l : Option Nat) (cs : List (Nat × Nat)) : Placed :=
  { cell := 0, node := 0, route := { num := 0, kind := k, chans := [], succs := [], quotas := [], link := l, counters := cs, hregs := [], lanternRole := false, markerSource := false }, blocks := [] }

/-- The code words of an instruction. -/
def codeOf (i : Instr) : List Word128 :=
  match encode i with
  | some (n, w) => (List.range (n / 128)).map (fun k => BitVec.ofNat 128 (w / 2 ^ (128 * k)))
  | none => []

/-- Context 0 of world 0 is resident with one node and the roles of its memory cells. -/
def withNode (pl : Placed) (roles : List (Nat × Role × List (Nat × BitVec 16))) (s : State) : State :=
  { s with ctxs := [(0, { resident := true, nodes := [pl], roles := roles })] }

theorem witness_CountersAndControlTokens :
    let s := withNode (routed .compute none [(3, 3)]) [] (at_ (inst [word32 0x40001]))
    Fires (hd 1) (k0Const 0) s (inst [word32 0x40001]) [word32 0x40001] ∧ ownsCounter s (inst []) 3 = true ∧ nestHolds s (inst []) 3 = false ∧ ownsCounter s (inst []) 0 = false
    ∧ cntValue (mget (0 : Word64) (loadCounter 0 [] 3 0x40003 none) (counterKey 0 3)) + 1 = 4 ∧ cntLimit (mget (0 : Word64) (loadCounter 0 [] 3 0x40003 none) (counterKey 0 3)) = 4 :=
  ⟨⟨⟨rfl, rfl, rfl⟩, by decide +kernel, by decide +kernel⟩, by decide +kernel, by decide +kernel, by decide +kernel, by decide +kernel, by decide +kernel⟩
/-- A nest of one level holds counter 0. -/
theorem witness_CountersAndControlTokens_nest : nestHolds (withNode { routed .agen none [] with blocks := [(0, 0, codeOf (.lncpy (hd 2) payN))] } [] (at_ (inst []))) (inst []) 0 = true := by decide +kernel


/-! ### Loop nests and memory -/

/-- A cell that node 0 is linked to: cell 5, with a role. -/
def linked (r : Role) (b : BInst) : State := withNode (routed .compute (some 5) []) [(5, r, [])] (at_ b)

/-- The same node, with host memory behind a page that the cell's translation holds: virtual page 0 is host page 1, and the colour's entry is in host page 0. -/
def paged (r : Role) (b : BInst) : State :=
  { linked r b with
    mem := [(2 ^ 50, 1)], worlds := [(0, { ctab := 2 ^ 50 })]
    tlb := [{ cell := 0, w := 0, colour := 0, vbase := 0, size := 0, pbase := 2 ^ 50 + 4096, rd := true, wr := true }]
    dev := { ready := 2, link := some (.g6, .x16, .cxl3) } }

/-- An address operand, with a word of data in slots 0 and 1. -/
def addr (a : Nat) : Val := word64 (BitVec.ofNat 64 a)

theorem okWith {α : Type} {r : Except Report α} {p : α → Bool} (h : (r.toOption.map p) = some true) : ∃ a, r = .ok a ∧ p a = true := by
  cases r with
  | ok x => exact ⟨x, rfl, Option.some.inj h⟩
  | error e => cases h

theorem errOf {α : Type} {r : Except Report α} (h : r.toOption.isNone = true) : ∃ e, r = .error e := by
  cases r with
  | ok x => cases h
  | error x => exact ⟨x, rfl⟩

theorem linked_fires {r : Role} {h : Hdr} {c : Nat → Val} {b : BInst} {xs : List Val} (he : focusInst (linked r b) = some b ∧ b.stage = .open_ ∧ b.raised = none) (hg : guardOf h b = some true) (ho : operands h c b = some xs) : Fires h c (linked r b) b xs :=
  ⟨⟨he.1, he.2.1, he.2.2⟩, hg, ho⟩

theorem paged_mem {r : Role} {h : Hdr} {xs ys : List Val} (hg : guardOf h (inst xs) = some true) (ho : operands h (k0Const 0) (inst xs) = some ys) : MemFires h (paged r (inst xs)) (inst xs) ys :=
  ⟨⟨⟨rfl, rfl, rfl⟩, hg, ho⟩, rfl⟩

theorem linked_mem {r : Role} {h : Hdr} {xs ys : List Val} (hg : guardOf h (inst xs) = some true) (ho : operands h (k0Const 0) (inst xs) = some ys) : MemFires h (linked r (inst xs)) (inst xs) ys :=
  ⟨⟨⟨rfl, rfl, rfl⟩, hg, ho⟩, rfl⟩

/-- LNCPY of two elements from byte 64 to byte 0 of the scratchpad, and LNSUM over them. -/
def nestPay : PayN := { payN with strides := 2 ^ 40 + 1 }
theorem witness_LoopNestResults :
    let b := inst [word32 0, word32 64]
    NestReady (hd 2) nestPay (linked .scratch b) b [0, 64] 5 4 [0, 0, 0, 0] 2 ∧ nestPay.ext 0 = 2 :=
  ⟨{ fires := ⟨[word32 0, word32 64], linked_fires ⟨rfl, rfl, rfl⟩ (by decide +kernel) (by decide +kernel), by decide +kernel⟩
     small := by decide +kernel
     alone := rfl
     entry := by decide +kernel
     width := by decide +kernel
     point := rfl
     scratch := by decide +kernel
     inside := by
       intro i0 o a hi ha
       have hs : ∀ i, i < 2 → ∀ o, o < 2 → 0 ≤ nestAt nestPay ([0, 64].getD o 0) 4 o (i :: [0, 0, 0, 0]) ∧ nestAt nestPay ([0, 64].getD o 0) 4 o (i :: [0, 0, 0, 0]) + 4 ≤ 131072 ∧ nestAt nestPay ([0, 64].getD o 0) 4 o (i :: [0, 0, 0, 0]) % 4 = 0 := by decide +kernel
       have ho : o < 2 := by
         rcases Nat.lt_or_ge o 2 with h | h
         · exact h
         · rw [List.getElem?_eq_none (by simpa using h)] at ha; cases ha
       have := hs i0 hi o ho
       rw [List.getD_eq_getElem?_getD, ha] at this
       exact this
     room := by decide +kernel }, by decide +kernel⟩

/-- Address 16; one that is not valid; the last word of the page and the first beyond it; and the last word of a scratchpad and the first beyond. -/
theorem witness_LoadResults :
    MemFires (hd 1) (paged .cache (inst [addr 4092])) (inst [addr 4092]) [addr 4092] ∧ baseOf false (addr 4092) = some 4092 ∧ baseOf false noVal = none
    ∧ (∃ pl, placeOf payW (paged .cache (inst [addr 4092])) (inst [addr 4092]) 4092 4 0 true false = .ok pl ∧ (pl.addrs == [2 ^ 50 + 8188, 2 ^ 50 + 8189, 2 ^ 50 + 8190, 2 ^ 50 + 8191]) = true)
    ∧ (∃ r, placeOf payW (paged .cache (inst [addr 4096])) (inst [addr 4096]) 4096 4 0 true false = .error r)
    ∧ (∃ pl, placeOf { payW with mctl := 1 } (linked .scratch (inst [addr 131068])) (inst [addr 131068]) 131068 4 0 true false = .ok pl ∧ pl.via.isNone = true)
    ∧ (∃ r, placeOf { payW with mctl := 1 } (linked .scratch (inst [addr 131072])) (inst [addr 131072]) 131072 4 0 true false = .error r) :=
  ⟨paged_mem (by decide +kernel) (by decide +kernel), by decide +kernel, by decide +kernel, okWith (by decide +kernel), errOf (by decide +kernel), okWith (by decide +kernel), errOf (by decide +kernel)⟩
/-- LDACQ wider than its cell, with a linked bank. -/
theorem witness_LoadResults_acquire : bankOf (paged .cache (inst [addr 8])) (inst []).node = some 5 ∧ { payW with scope := .die }.scope ≠ .cell := by decide +kernel
theorem test_ld : (match exec (.ld { hd 1 (.operand 1 0) with fmt := 2 } payW) (paged .scratch (inst [addr 4])) with
  | .next t => t.insts.head?.map (fun b => b.pc)
  | _ => none) = some 1 := by decide +kernel

/-- The operands of a store, with room in the hold buffer; an invalid datum; a live word. -/
theorem witness_StoresAreHeld :
    let b := inst [addr 16, word32 7]
    let s := paged .cache b
    MemFires (hd 2) s b [addr 16, word32 7] ∧ (slotOf noVal 0).isNone = true ∧ holdOverflows s b [⟨[(0, 0)], none⟩] = false
    ∧ (∃ pl, placeOf payW s b 16 4 0 false true = .ok pl ∧ (!touchesLive s pl && touchesLive { s with wtype := [((2 ^ 50 + 4112) / 8, 1)] } pl) = true)
    ∧ (∃ r, placeOf payW s b 18 4 0 false true = .error r) :=
  ⟨paged_mem (by decide +kernel) (by decide +kernel), by decide +kernel, by decide +kernel, okWith (by decide +kernel), errOf (by decide +kernel)⟩
/-- STT of a full token, at 0 and where only slot 1 meets a live word. -/
theorem witness_StoresAreHeld_token :
    let b := inst [addr 0, all32 7]
    let s := { paged .cache b with wtype := [((2 ^ 50 + 4096 + 8) / 8, 1)] }
    (∃ pl, placeOf payW s b 0 64 0 false true = .ok pl ∧ (typeAt s (pl.addrs.getD 8 0) == 1 && typeAt s (pl.addrs.getD 4 0) == 0 && pl.via.isSome) = true) := okWith (by decide +kernel)
theorem test_st : (match exec (.st { hd 2 with fmt := 2 } payW) (paged .scratch (inst [addr 4, word32 7])) with
  | .next t => t.insts.head?.map (fun b => effStores b.effs)
  | _ => none) = some [{ bytes := [(2 ^ 50 + 4100, 7), (2 ^ 50 + 4101, 0), (2 ^ 50 + 4102, 0), (2 ^ 50 + 4103, 0)], via := some { w := 0, colour := 0, va := 4 } }] := by decide +kernel

/-- Indices 0 and 1, the others invalid; the place of the first is at the base. -/
theorem witness_GatherAndScatter :
    let b := inst [addr 0, firstSlots [0, 1], all32 7]
    MemFires (hd 3) (paged .cache b) b [addr 0, firstSlots [0, 1], all32 7]
    ∧ MemFires (hd 2) (paged .cache (inst [addr 0, firstSlots [0, 1]])) (inst [addr 0, firstSlots [0, 1]]) [addr 0, firstSlots [0, 1]]
    ∧ ∀ k, k < 2 → ∃ pl, effAddr (paged .cache b) b false 0 ((0 : Nat) + (0 : BitVec 24).toInt + (BitVec.ofNat 32 k).toInt * (1 : Nat)) 1 k true true = .ok pl ∧ (!touchesLive (paged .cache b) pl) = true := by
  refine ⟨paged_mem (by decide +kernel) (by decide +kernel), paged_mem (by decide +kernel) (by decide +kernel), ?_⟩
  intro k hk
  have hc : k = 0 ∨ k = 1 := by omega
  rcases hc with rfl | rfl <;> exact okWith (by decide +kernel)

theorem witness_OrderingInstructions :
    let b := inst [addr 8, word32 7]
    let s := paged .cache b
    MemFires (hd 2) s b [addr 8, word32 7] ∧ (∃ pl, placeOf payW s b 8 4 0 false true = .ok pl ∧ (!touchesLive s pl) = true)
    ∧ MemFires (hd 2) (paged .cache (inst [addr 8, noVal])) (inst [addr 8, noVal]) [addr 8, noVal]
    ∧ MemFires (hd 0) (paged .cache (inst [])) (inst []) [] ∧ bankOf s b.node = some 5 ∧ findInv s b.inv = some { id := 0, cell := 0, node := b.node, tag := b.tag, held := [], emitted := [], nest := false } :=
  ⟨paged_mem (by decide +kernel) (by decide +kernel), okWith (by decide +kernel), paged_mem (by decide +kernel) (by decide +kernel), paged_mem (by decide +kernel) (by decide +kernel), by decide +kernel, by decide +kernel⟩

/-- RESID of an address on the page, of one beyond it, and of one that is not valid. -/
theorem witness_HintsChangeNoValue :
    let b := inst [addr 64]
    let s := paged .cache b
    MemFires (hd 1) s b [addr 64] ∧ baseOf false noVal = none
    ∧ (∃ pa, translate s (some b.cell) b.node.w b.tag.colour 64 true false = .ok pa ∧ (!hostUncached s pa && region pa == some .host) = true)
    ∧ (∃ r, translate s (some b.cell) b.node.w b.tag.colour 4096 true false = .error r) :=
  ⟨paged_mem (by decide +kernel) (by decide +kernel), by decide +kernel, okWith (by decide +kernel), errOf (by decide +kernel)⟩

/-- ATADD on host memory over a link of level cxl3, ATCAS with two data operands, and ATFADD's entry at reset. -/
theorem witness_AtomicResults :
    let b := inst [addr 16, word32 7, word32 9]
    let s := paged .cache b
    MemFires { hd 3 with fmt := 6 } s b [addr 16, word32 7, word32 9] ∧ NothingHeld s b ∧ [word32 7, word32 9].mapM (dataOf 32) = some [7, 9]
    ∧ (∃ pl, placeOf payW s b 16 4 0 true true = .ok pl ∧ (!hostUncached s (pl.addrs.headD 0) && typeAt s (pl.addrs.headD 0) == 0) = true)
    ∧ Plain (entryWord s b 0) ∧ contW (entryWord s b 0) = 32 ∧ (nodeCtx s b.node).replay = false :=
  ⟨paged_mem (by decide +kernel) (by decide +kernel), ⟨rfl, rfl, fun v h => by cases h; rfl⟩, by decide +kernel, okWith (by decide +kernel), ⟨by decide +kernel, by decide +kernel⟩, by decide +kernel, by decide +kernel⟩
theorem test_atadd : (match exec (.atadd { hd 2 with fmt := 6 } payW) (paged .scratch (inst [addr 4, word32 7])) with
  | .next t => some (byteAt t.mem (2 ^ 50 + 4100))
  | _ => none) = some 7 := by decide +kernel

/-- BINIT with a good barrier word (expect 2, count 0) and a bad one (expect 2, count 2). -/
theorem witness_BarrierWords :
    let b := inst [addr 16, addr 0x20000]
    let s := paged .cache b
    MemFires (hd 2) s b [addr 16, addr 0x20000] ∧ NothingHeld s b ∧ elemOf 64 (addr 0x20000) 0 = some 0x20000 ∧ elemOf 64 (addr 0x20002) 0 = some 0x20002
    ∧ (∃ pl, effAddr s b false 0 ((16 : Nat) + payW.ofs.toInt) 8 0 false true = .ok pl ∧ (!hostUncached s (pl.addrs.headD 0)) = true) :=
  ⟨paged_mem (by decide +kernel) (by decide +kernel), ⟨rfl, rfl, fun v h => by cases h; rfl⟩, by decide +kernel, by decide +kernel, okWith (by decide +kernel)⟩
/-- BARR on a word of type 1, and on one of type 0. -/
theorem witness_BarrierWords_arrive :
    let b := inst [addr 16]
    let s := { paged .cache b with wtype := [((2 ^ 50 + 4112) / 8, 1)] }
    MemFires (hd 1) s b [addr 16] ∧ (∃ pl, effAddr s b false 0 ((16 : Nat) + payW.ofs.toInt) 8 0 true true = .ok pl ∧ (typeAt s (pl.addrs.headD 0) == 1 && typeAt (paged .cache b) (pl.addrs.headD 0) != 1) = true) :=
  ⟨⟨⟨⟨rfl, rfl, rfl⟩, by decide +kernel, by decide +kernel⟩, rfl⟩, okWith (by decide +kernel)⟩

/-- BWAIT and WAITB on words of type 1 and 2, with a generation that differs and one that does not; WAITA woken by a timeout and not woken. -/
theorem witness_WaitInstructions :
    let b := inst [addr 16, addr 0]
    let s := { paged .cache b with wtype := [((2 ^ 50 + 4112) / 8, 1)] }
    MemFires (hd 2) s b [addr 16, addr 0] ∧ (∃ pl, effAddr s b false 0 ((16 : Nat) + payW.ofs.toInt) 8 0 true false = .ok pl ∧ (typeAt s (pl.addrs.headD 0) == 1 && readPlace s b pl.addrs == 0) = true)
    ∧ (slotOf (addr 0) 0).map BitVec.toNat = some 0 ∧ (slotOf (addr 5) 0).map BitVec.toNat = some 5 ∧ elemOf 64 (addr 0) 0 = some 0 ∧ b.wake = none ∧ { b with wake := some .timeout }.wake = some .timeout :=
  ⟨⟨⟨⟨rfl, rfl, rfl⟩, by decide +kernel, by decide +kernel⟩, rfl⟩, okWith (by decide +kernel), by decide +kernel, by decide +kernel, by decide +kernel, rfl, rfl⟩


/-! ### Matrix instructions -/

/-- A run of one row and one column whose row has no contribution yet. -/
def run0 : Run :=
  { tag := { colour := 0, context := 0, iter := 0 }, word := 0, m := 1, n := 1, kin := false, nch := 1, acc := [], cnt := [], kinp := 0, outp := 0, p0 := none, p1 := none, rp0 := 0, rp1 := 0, offender := none
    nan := false, inf := false, ovf := false, sat := false }

/-- Entry 1 at reset, bfloat16, and a panel of one element, 1.0. -/
def brain16 : Word64 := entryWord (at_ (inst [])) (inst []) 1

def panel0 : Panel := { entry := brain16, gen := 0, kb := 1, kidx := 0, ch := 0, rp := 0, elems := [[(0, 0x3F80)]] }

/-- The plane array of the cell holds a run. -/
def running (r : Run) (b : BInst) : State := { linked .scratch b with planes := [(0, some r)] }

theorem running_mat {r : Run} {h : Hdr} {p : PayX} {xs ys : List Val} (hg : guardOf h (inst xs) = some true) (ho : operands h (k0Const p.k0) (inst xs) = some ys) : MatFires h p (running r (inst xs)) (inst xs) ys :=
  ⟨⟨⟨rfl, rfl, rfl⟩, hg, ho⟩, rfl⟩

/-- MSET of a good word, of one whose M − 1 is 192, and of an invalid one, with no run open; MKIN with its own run. -/
theorem witness_MatrixRunControl :
    let b := inst [word32 191]
    MatFires (hd 1) payX (linked .scratch b) b [word32 191] ∧ runOf (linked .scratch b) b = none ∧ ownRun (linked .scratch b) b = none
    ∧ slotOf (word32 191) 0 = some 191 ∧ slotOf (word32 192) 0 = some 192 ∧ slotOf noVal 0 = none
    ∧ MatFires (hd 1) payX (running { run0 with kin := true } b) b [word32 191] ∧ ownRun (running { run0 with kin := true } b) b = some { run0 with kin := true }
    ∧ (hd 1).nopd.toNat = (({ run0 with kin := true } : Run).n + 15) / 16 :=
  ⟨⟨⟨⟨rfl, rfl, rfl⟩, by decide +kernel, by decide +kernel⟩, rfl⟩, by decide +kernel, by decide +kernel, by decide +kernel, by decide +kernel, by decide +kernel, running_mat (by decide +kernel) (by decide +kernel), by decide +kernel, by decide +kernel⟩
/-- A load of one element under entry 1 at the last place of the scratchpad, one beyond it, one misaligned, and a panel word whose K − 1 is 128. -/
theorem witness_PanelLoads :
    let x (a w : Nat) : Val := firstSlots [BitVec.ofNat 32 a, 2, BitVec.ofNat 32 w]
    MatFires (hd 1) { payX with bfmt := 1 } (running run0 (inst [x 131070 0])) (inst [x 131070 0]) [x 131070 0]
    ∧ ownRun (running run0 (inst [x 131070 0])) (inst [x 131070 0]) = some run0 ∧ run0.panel false = none ∧ scratchCell (running run0 (inst [x 0 0])) (inst [x 0 0]) = some 5
    ∧ legalEntry brain16 = true ∧ (Fmt.ofWord brain16).block = 0
    ∧ ¬ Beyond (Fmt.ofWord brain16) 131070 ∧ Beyond (Fmt.ofWord brain16) 131072 ∧ 131071 % 2 ≠ 0 ∧ 128 < 128 % 256 + 1 ∧ slotOf (x 131070 0) 2 = some 0 ∧ slotOf (word32 4) 2 = none :=
  ⟨running_mat (by decide +kernel) (by decide +kernel), by decide +kernel, rfl, by decide +kernel, by decide +kernel, by decide +kernel, by unfold Beyond; decide +kernel, by unfold Beyond; decide +kernel, by decide, by decide, by decide +kernel, by decide +kernel⟩
/-- MROW with its four operands under entry 1, and MROWS of a row at the last place and one beyond; the row's turn and not its turn. -/
theorem witness_MatrixRows :
    let r : Run := { run0 with p0 := some panel0 }
    let xs := [all32 0x3F803F80, noVal, noVal, noVal]
    MatFires { hd 4 with fmt := 1 } payX (running r (inst xs)) (inst xs) xs ∧ ownRun (running r (inst xs)) (inst xs) = some r ∧ r.panel false = some panel0
    ∧ r.count panel0.rp = panel0.ch ∧ ({ r with cnt := [(0, 1)] } : Run).count panel0.rp ≠ panel0.ch ∧ legalEntry (panelEntry (running r (inst xs)) (inst xs) panel0 1) = true
    ∧ (Fmt.ofWord (panelEntry (running r (inst xs)) (inst xs) panel0 1)).cont = 16
    ∧ MatFires { hd 1 with fmt := 1 } payX (running r (inst [word32 131070])) (inst [word32 131070]) [word32 131070] ∧ scratchCell (running r (inst xs)) (inst xs) = some 5 :=
  ⟨running_mat (by decide +kernel) (by decide +kernel), by decide +kernel, rfl, by decide +kernel, by decide +kernel, by decide +kernel, by decide +kernel, running_mat (by decide +kernel) (by decide +kernel), by decide +kernel⟩
/-- A done row of 2.5 to drain, and a done tile to write at the start of the scratchpad. -/
theorem witness_MatrixDrains :
    let r : Run := { run0 with acc := [(0, 0x40200000)], cnt := [(0, 1)] }
    MatFires (hd 0 (.chan 0)) payX (running r (inst [])) (inst []) [] ∧ ownRun (running r (inst [])) (inst []) = some r ∧ r.count r.outp = r.nch ∧ r.outp < r.m ∧ run0.count run0.outp ≠ run0.nch
    ∧ Plain (entryWord (running r (inst [])) (inst []) 0)
    ∧ MatFires (hd 1) payX (running r (inst [firstSlots [0, 64]])) (inst [firstSlots [0, 64]]) [firstSlots [0, 64]] ∧ (∀ i, i < r.m → r.count i = r.nch)
    ∧ slotOf (firstSlots [0, 64]) 1 = some 64 ∧ holdOverflows (running r (inst [])) (inst []) [⟨[(0, 0)], none⟩] = false :=
  ⟨running_mat (by decide +kernel) (by decide +kernel), by decide +kernel, by decide +kernel, by decide +kernel, by decide +kernel, ⟨by decide +kernel, by decide +kernel⟩, running_mat (by decide +kernel) (by decide +kernel), by decide +kernel, by decide +kernel, by decide +kernel⟩
/-- The accumulator at row 0, column 0 of the run that an instance's first effect leaves, of the run in the plane array. -/
def accOf (r : Result) : Option Nat :=
  match r with
  | .next t => t.insts.head?.bind (fun b => b.effs.head?.bind (fun e => match e with
    | .plane op => (planeAfter b.tag op (mget none t.planes 0)).map (fun x => x.accAt 0 0)
    | _ => none))
  | _ => none

/-- 1.0 × 1.0 accumulates 1.0 at row 0, column 0. -/
theorem test_mrow : accOf (exec (.mrow { hd 4 with fmt := 1 } payX) (running { run0 with p0 := some panel0 } (inst [all32 0x3F803F80, noVal, noVal, noVal]))) = some 0x3F800000 := by decide +kernel

/-! ### Engine and mapping instructions -/

/-- Bytes of 8-byte words at addresses of host page 1, and of a table in host page 2. -/
def wordsAt (l : List (Nat × Nat)) : List Host.Cell := putBytes [(2 ^ 50, 1)] (l.flatMap (fun e => cellsOf e.1 8 e.2))

def page : Nat := 2 ^ 50 + 4096

/-- A copy descriptor at 0 (one byte from 0x400 to 0x500), a stream's at 0x100 (one byte from 0x400 to slot 0 of a scratchpad's ring), a collective's at 0x200. -/
def described (b : BInst) : State :=
  { paged .scratch b with
    mem := wordsAt [(page, 1), (page + 8 * 5, 0x400), (page + 8 * 6, 1), (page + 8 * 19, 0x500), (page + 8 * 20, 1)
      , (page + 0x100, 1 + 2 ^ 32), (page + 0x110, 2 ^ 32), (page + 0x100 + 8 * 5, 0x400), (page + 0x100 + 8 * 6, 1 + 2 ^ 32), (page + 0x100 + 8 * 18, 2 ^ 27), (page + 0x100 + 8 * 20, 1 + 2 ^ 32)
      , (page + 0x208, 1), (page + 0x210, 0x800), (page + 0x218, 0x900), (2 ^ 50 + 8192, 2 ^ 22 + 1)]
    cgtab := 2 ^ 50 + 8192 }

theorem described_mem {h : Hdr} {xs ys : List Val} (hg : guardOf h (inst xs) = some true) (ho : operands h (k0Const 0) (inst xs) = some ys) : MemFires h (described (inst xs)) (inst xs) ys :=
  ⟨⟨⟨rfl, rfl, rfl⟩, hg, ho⟩, rfl⟩

/-- Each descriptor passes its checks; one at 64 is misaligned, the stream's breaks CPY's or COLL's; a walk has its five slots. -/
theorem witness_EngineStarts :
    let b := inst [addr 0]
    let s := described b
    MemFires (hd 1) s b [addr 0] ∧ copyEngine s b = some (5, some 5) ∧ (∃ d, openCopy s b 0 (some 5) = .ok d ∧ (d.rank == 1) = true) ∧ (∃ r, openCopy s b 0x200 (some 5) = .error r)
    ∧ (∃ d, openStream s b 0x100 64 1 (some 5) = .ok d ∧ (d.rank == 2) = true) ∧ (∃ r, openStream s b 0x100 63 1 (some 5) = .error r)
    ∧ (∃ c, openColl s b (hd 1) 0x200 = .ok c ∧ (c.count == 1) = true) ∧ (∃ r, openColl s b (hd 1) 0 = .error r) ∧ copyEngine (at_ b) b = none :=
  ⟨described_mem (by decide +kernel) (by decide +kernel), by decide +kernel, okWith (by decide +kernel), errOf (by decide +kernel), okWith (by decide +kernel), errOf (by decide +kernel), okWith (by decide +kernel), errOf (by decide +kernel), by decide +kernel⟩
theorem witness_EngineStarts_walk :
    let x := firstSlots [0, 0, 64, 0, 8, 1]
    let b := inst [x, all32 3]
    MemFires (hd 2) (described b) b [x, all32 3] ∧ baseOf false x = some 0 ∧ slotOf x 5 = some 1 ∧ slotOf (addr 0) 2 = none :=
  ⟨described_mem (by decide +kernel) (by decide +kernel), by decide +kernel, by decide +kernel, by decide +kernel⟩

/-- Tensors 1 (no shadow), 2 (an xts tensor), 3 (a shadow open) and 4 (a shadow open at the last version), in a table of host page 2. -/
def tensors (b : BInst) : State :=
  { paged .scratch b with
    mem := wordsAt ([(1, 0, 0, 0x1000), (2, 1, 0, 2 ^ 56 + 2 * 2 ^ 32), (3, 4, 5 * 2 ^ 32, 0x2000), (4, 4, (2 ^ 32 - 1) * 2 ^ 32, 0x3000)].flatMap (fun (e : Nat × Nat × Nat × Nat) =>
      [(2 ^ 50 + 8192 + 64 * e.1, e.1 + e.2.1 * 2 ^ 40), (2 ^ 50 + 8192 + 64 * e.1 + 8, e.2.2.1), (2 ^ 50 + 8192 + 64 * e.1 + 16, e.2.2.2), (2 ^ 50 + 8192 + 64 * e.1 + 32, 64)]))
    worlds := [(0, { ctab := 2 ^ 50, ttab := 2 ^ 50 + 8192 + 31 })] }

theorem tensors_mem {h : Hdr} {xs ys : List Val} (hg : guardOf h (inst xs) = some true) (ho : operands h (k0Const 0) (inst xs) = some ys) : MemFires h (tensors (inst xs)) (inst xs) ys :=
  ⟨⟨⟨rfl, rfl, rfl⟩, hg, ho⟩, rfl⟩

/-- SHDW's boundary: a buffer that ends at 2^57, and the next aligned one beyond it. -/
theorem witness_MappingInstructions :
    let b := inst [word32 1, addr (2 ^ 57 - 64)]
    let s := tensors b
    MemFires (hd 2) s b [word32 1, addr (2 ^ 57 - 64)] ∧ NothingHeld s b
    ∧ (∃ t, namedTensor s b.node.w b.tag.colour 1 = .ok t ∧ (t.size == 64 && !t.shopen && t.mode == 0) = true) ∧ (∃ t, namedTensor s b.node.w b.tag.colour 2 = .ok t ∧ (t.mode == 1) = true)
    ∧ (∃ t, namedTensor s b.node.w b.tag.colour 3 = .ok t ∧ (t.shopen && t.version == 5) = true) ∧ (∃ t, namedTensor s b.node.w b.tag.colour 4 = .ok t ∧ (t.shopen && t.version == 2 ^ 32 - 1) = true)
    ∧ (∃ r, namedTensor s b.node.w b.tag.colour 0 = .error r) ∧ (2 ^ 57 - 64) % 64 = 0 ∧ 2 ^ 57 < 2 ^ 57 + 64 :=
  ⟨tensors_mem (by decide +kernel) (by decide +kernel), ⟨rfl, rfl, fun v h => by cases h; rfl⟩, okWith (by decide +kernel), okWith (by decide +kernel), okWith (by decide +kernel), okWith (by decide +kernel), errOf (by decide +kernel), by decide, by decide⟩
theorem witness_MappingInstructions_one : MemFires (hd 1) (tensors (inst [firstSlots [3, 0, 0]])) (inst [firstSlots [3, 0, 0]]) [firstSlots [3, 0, 0]] ∧ slotOf (firstSlots [3, 0, 0]) 2 = some 0 ∧ slotOf (word32 3) 1 = none :=
  ⟨tensors_mem (by decide +kernel) (by decide +kernel), by decide +kernel, by decide +kernel⟩
/-- PUBL of tensor 3: its version word gets 6 and the other buffer is selected. -/
theorem test_publ : (match exec (.publ (hd 1) payE) (tensors (inst [word32 3])) with
  | .next t => word8 t.mem (2 ^ 50 + 8192 + 192) 1
  | _ => 0) = 6 * 2 ^ 32 + 1 := by decide +kernel


/-! ### Quota and system instructions, logit programs and policies -/

/-- The node is its context's supervisor (a quota at port 15), with a channel into port 2 and persistent registers 1 (colour 0) and 2 (constant). -/
def chief (b : BInst) : State :=
  { at_ b with
    ctxs := [(0, {
      resident := true
      nodes := [{ routed .compute none [] with
        route := { (routed .compute none []).route with
          quotas := [{ port := 15, colour := 0, m := 1, s := 1 }]
          chans := [{ n := 0, src := none, dst := some { node := 0, port := 2 } }]
          hregs := [(1, .colour 0), (2, .const)] } }]
      quotas := [(0, 2, 1, 1, 1)] })] }

theorem quota_of {h : Hdr} {p : PayQ} {xs ys : List Val} {l : List Slot} (hg : guardOf h (inst xs) = some true) (ho : operands h (k0Const p.k0) (inst xs) = some ys) (hs : ys.map (fun v => slotOf v 0) = l.map some) : QuotaFires h p (chief (inst xs)) (inst xs) ys l :=
  ⟨⟨⟨rfl, rfl, rfl⟩, hg, ho⟩, hs⟩

/-- QUOTA of node 0's port 2: colour 255 and one entry with one slot fit; 64 entries beside another colour's one do not; port 3 is no input; a
tag cap of 65535 fits and beside it one of 1 does not; TAGFREE of the tags 0, 1, and 2^16. -/
theorem witness_QuotaInstructions :
    let xs := [word32 255, word32 0x101]
    let s := chief (inst xs)
    QuotaFires (hd 2) { payQ with qctl := 2 } s (inst xs) xs [255, 0x101] ∧ supervisorOf (nodeCtx s (inst xs).node) = some (inst xs).node.n
    ∧ supervisorOf (nodeCtx (linked .scratch (inst xs)) (inst xs).node) ≠ some (inst xs).node.n
    ∧ (∃ pl, placedOf s { (inst xs).node with n := 0 } = some pl ∧ isInput pl 2 = true ∧ isInput pl 3 = false ∧ (applyQuota s { (inst xs).node with n := 0 } pl 2 255 1 1).2 = true ∧ (applyQuota s { (inst xs).node with n := 0 } pl 2 255 64 255).2 = false)
    ∧ placedOf s { (inst xs).node with n := 1 } = none ∧ ((mput 0 ([] : FMap Nat) 0 65535).map (fun e => e.2)).sum ≤ 65535 ∧ ¬ ((mput 0 (mput 0 ([] : FMap Nat) 0 65535) 1 1).map (fun e => e.2)).sum ≤ 65535 :=
  ⟨quota_of (by decide +kernel) (by decide +kernel) (by decide +kernel), by decide +kernel, by decide +kernel, ⟨_, rfl, by decide +kernel, by decide +kernel, by decide +kernel, by decide +kernel⟩, by decide +kernel, by decide +kernel, by decide +kernel⟩
theorem witness_QuotaInstructions_tagfree :
    QuotaFires (hd 1) payQ (chief (inst [word32 1])) (inst [word32 1]) [word32 1] [1] ∧ (∃ x, x ∈ [noVal] ∧ slotOf x 0 = none) :=
  ⟨quota_of (by decide +kernel) (by decide +kernel) (by decide +kernel), ⟨_, List.mem_singleton.mpr rfl, by decide +kernel⟩⟩

/-- An instance whose commit begins with a change, its context holding tag 1 for its colour. -/
def changing (a : LateAct) : BInst := { inst [] with exit := some .fin, later := [{ slot := 0, h := hd 1, act := a }] }
def changes (a : LateAct) : State :=
  { chief (changing a) with focus := .idle, insts := [changing a], ctxs := [(0, { nodeCtx (chief (inst [])) (inst []).node with tags := [(1, some (.colour 0))] })] }
theorem begins_commit (a : LateAct) : BeginsCommit (changes a) (changing a) .fin := ⟨rfl, rfl, fun h => (by cases h), rfl, Nat.le_refl _, rfl⟩
/-- The turn of its cell, free and taken by a later cell in the same cycle; the tag that it holds and one that it does not. -/
theorem witness_QuotaInstructions_commit (a : LateAct) : BeginsCommit (changes a) (changing a) .fin ∧ (changing a).later = [{ slot := 0, h := hd 1, act := a }] :=
  ⟨begins_commit a, rfl⟩
theorem witness_QuotaInstructions_turn :
    let s := changes (.tagFree 1)
    let b := changing (.tagFree 1)
    inTurn s .quota (quotaTurn b.node) (cellPlace b.cell) = true ∧ inTurn (takeTurn s .quota (quotaTurn b.node) 1) .quota (quotaTurn b.node) (cellPlace b.cell) = false
    ∧ mget none (nodeCtx s b.node).tags 1 = some (.colour b.tag.colour) ∧ mget none (nodeCtx s b.node).tags 2 = none ∧ (placedOf s b.node).isSome = true := by decide +kernel

/-- SPAWN with a tag of the pool, in replay mode and not; RECOL with a new tag; PURGE of another colour, by the supervisor, with nothing in its way. -/
theorem witness_SpawnRecolPurge :
    let b : BInst := { inst [all32 4] with spawned := some 9 }
    let s := { chief b with focus := .inst 0 1, insts := [b] }
    Fires (hd 1 (.chan 0)) (k0Const 0) s b [all32 4] ∧ b.spawned = some 9 ∧ (nodeCtx s b.node).replay = false
    ∧ Fires (hd 2 (.chan 0)) (k0Const 0) (chief (inst [all32 4, word32 0xFFFF])) (inst [all32 4, word32 0xFFFF]) [all32 4, word32 0xFFFF]
    ∧ Fires (hd 1) (k0Const 0) (chief (inst [word32 7])) (inst [word32 7]) [word32 7] ∧ slotOf (word32 7) 0 = some 7 ∧ supervisorOf (nodeCtx (chief (inst [word32 7])) (inst []).node) = some (inst []).node.n
    ∧ (BitVec.ofNat 8 7 : Colour) ≠ (inst []).tag.colour :=
  ⟨⟨⟨rfl, rfl, rfl⟩, by decide +kernel, by decide +kernel⟩, rfl, by decide +kernel, ⟨⟨rfl, rfl, rfl⟩, by decide +kernel, by decide +kernel⟩, ⟨⟨rfl, rfl, rfl⟩, by decide +kernel, by decide +kernel⟩, by decide +kernel, by decide +kernel, by decide⟩
/-- The commit of an instance with a PURGE that has not been asked, and that has its counts; a context with no purge. -/
theorem witness_SpawnRecolPurge_commit :
    BeginsCommit (changes (.purge 7 false)) (changing (.purge 7 false)) .fin ∧ BeginsCommit (changes (.purge 7 true)) (changing (.purge 7 true)) .fin
    ∧ (nodeCtx (changes (.purge 7 false)) (inst []).node).purging = none ∧ (nodeCtx (changes (.purge 7 false)) (inst []).node).purgeq = [] ∧ (changing (.purge 7 false)).purged = none := ⟨begins_commit _, begins_commit _, by decide +kernel, by decide +kernel, rfl⟩
/-- A context whose purge waits, with an instance of its colour in flight and with none. -/
theorem witness_SpawnRecolPurge_reset :
    let c : CtxId := { w := 0, x := 0 }
    let s := { State.reset with ctxs := [(0, { resident := true, purging := some (0, .inst 0 1, 0, 0, 0) })], insts := [inst []] }
    (ctxOf s c.w c.x).purging = some (0, .inst 0 1, 0, 0, 0) ∧ (ctxOf s c.w c.x).purgeq = [] ∧ (inst []).tag.colour = 0 := by decide +kernel

/-- RDSR of COLOUR and of CELLID; HWR of a register of the node's colour; WRSR without the supervisor's attribute. -/
theorem witness_SystemInstructions :
    let b := inst [addr 5]
    Fires (hd 0) (k0Const 0) (chief (inst [])) (inst []) [] ∧ registerOf (chief (inst [])) (inst []) 0x001 = some 0 ∧ registerOf (chief (inst [])) (inst []) 0x005 = none
    ∧ Fires (hd 1) (k0Const 0) (chief b) b [addr 5] ∧ hmodeOf (chief b) b 1 = .colour b.tag.colour ∧ hmodeOf (chief b) b 2 = .const ∧ hmodeOf (chief b) b 3 = .unused
    ∧ (nodeCtx (chief b) b.node).sysAttr = false ∧ b.brkOff = false ∧ mget false { (chief b).dev with dbgw := [(0, true)] }.dbgw b.node.w.toNat = true ∧ (worldOf (chief b) b.node.w).prot = false :=
  ⟨⟨⟨rfl, rfl, rfl⟩, by decide +kernel, by decide +kernel⟩, by decide +kernel, by decide +kernel, ⟨⟨rfl, rfl, rfl⟩, by decide +kernel, by decide +kernel⟩, by decide +kernel, by decide +kernel, by decide +kernel, by decide +kernel, rfl, by decide +kernel, by decide +kernel⟩
/-- LGBIND of 0, of 32 and of a descriptor that breaks its rules. -/
theorem witness_SystemInstructions_lgbind :
    let b := inst [addr 0x40]
    MemFires (hd 1) (described b) b [addr 0x40] ∧ baseOf false (addr 0x40) = some 0x40 ∧ baseOf false noVal = none ∧ (∃ r, loadSeq (instByte (described b) b) 0x2000 = .error r) :=
  ⟨described_mem (by decide +kernel) (by decide +kernel), by decide +kernel, by decide +kernel, errOf (by decide +kernel)⟩

/-- A logit program in progress: id 3 at work and id 4 to run, or none, for a stream that is bound. -/
def stream0 : LStream :=
  { spire := 0, colour := 0, iter := 0, path := [], pos := 0, node := 0, total := 16, next := 1, bad := false, faulted := false, drop := false, order := false, trunc := false, vlim := 64, k := 2, greedy := true
    minp := 0, topp := 0, seed := 0, table := [], prog := [0], m := 0xFF800000, sum := 0, cands := [], ended := false }
def logit0 (ids : List (Nat × Nat)) : LogitRun := { spire := 0, colour := 0, iter := 0, ids := ids, cur := 3, prog := [0], pc := 0, regs := [(0, 0x3F800000)], mask := false }
theorem witness_LogitInstructions :
    let s := { State.reset with logit := some (logit0 [(4, 0)]), lstreams := [stream0] }
    s.logit = some (logit0 [(4, 0)]) ∧ findStream s 0 0 0 = some stream0 ∧ findStream { s with lstreams := [] } 0 0 0 = none ∧ (logit0 []).ids = []
    ∧ decodeElem fp32 0xFF800000 = .inf true ∧ decodeElem fp32 0x3F800000 = .fin false 8388608 (-23) := by decide +kernel
/-- 1.0 + 1.0 = 2.0 in register 1. -/
theorem test_lgadd : (match exec (.lgAdd 1 0 0) { State.reset with logit := some (logit0 []) } with
  | .next t => t.logit.map (fun r => mget (0 : Slot) r.regs 1)
  | _ => none) = some 0x40000000 := by decide +kernel

/-- A decision of world 0 in focus, with two candidates of priorities 1 and 2. -/
def decision0 (count : Nat) : Decision :=
  { kind := 0, slot := 3, subject := none, cands := [{ task := 10, fields := [0, 0, 0, 1] }, { task := 11, fields := [0, 0, 0, 2] }], queues := [], regions := [], wviews := [], free := 0, start := 0
    prog := [0x2E8D8000], pc := 0, count := count, regs := [], invalid := false, outcome := none, cause := 0 }
def deciding (d : Decision) : State := { State.reset with worlds := [(0, { decision := some d })], focus := .policy 0 }
/-- At the last cycle of the budget, and one later, where the decision's outcome is still open. -/
theorem witness_PolicyBytecodes : Decides (deciding (decision0 511)) 0 (decision0 511) ∧ (decision0 511).count < 512 := ⟨⟨rfl, by decide +kernel, rfl, by decide⟩, by decide⟩
theorem witness_PolicyOutcomes : (worldOf (deciding (decision0 512)) 0).decision = some (decision0 512) ∧ (decision0 512).outcome = none ∧ 512 ≤ (decision0 512).count
    ∧ Fallback (decision0 512) (.pick 11) := by
  refine ⟨by decide +kernel, rfl, Nat.le_refl _, fun i c hc hm => ⟨fun _ => ?_, fun h => by cases h⟩, fun h => by rcases h with h | h <;> cases h⟩
  have h1 := hm 1 _ rfl
  match i, hc with
  | 0, hc => cases hc; exact absurd h1.1 (by decide)
  | 1, hc => cases hc; rfl
/-- LDI, PICK of the highest priority left to the fallback, and SHLI by 63. -/
theorem test_polldi : (match exec (.polLdi 2 0xFFFF) (deciding (decision0 0)) with
  | .next t => ((worldOf t 0).decision.map (fun d => (mget (0 : Word64) d.regs 2, d.pc, d.count)))
  | _ => none) = some (0xFFFF, 1, 1) := by decide +kernel


/-! ### Events -/

def nid : NodeId := { w := 0, x := 0, n := 0 }
def tag0 : Tag := { colour := 0, context := 0, iter := 0 }
def chan0 : ChanId := { w := 0, x := 0, n := 0 }
def tok0 (k : TokKind) : Token := { tag := tag0, kind := k, aux := 0, val := all32 1 }
def flight0 (k : TokKind) (errs : Nat) : Flight := { chan := chan0, tok := tok0 k, errs := errs, partialTok := false }

/-- Node 0, a supervisor with channel 0 into its port 2, alone in its context. -/
def busy : State := { chief (inst []) with insts := [], focus := .idle }
def out0 (k : TokKind) : OutTok := { at_ := { node := nid, port := 0 }, tok := tok0 k, todo := [0], sent := [], since := 0, owner := some 0 }

/-- A DATA token and a DONE arrive at port 2; the third and the fourth parity error; a token to send, with credit 2. -/
theorem witness_TokenEvents :
    (∀ k, k ∈ [TokKind.data, .scale, .done] → ∃ pl, Arrives { busy with flights := [flight0 k 3] } chan0 0 (flight0 k 3) { node := nid, port := 2 } pl)
    ∧ chanFrozen { busy with flights := [flight0 .data 2] } chan0 0 = false ∧ (flight0 .data 2).errs < 3
    ∧ nextOut { busy with outq := [out0 .data] } chan0 0 = some (out0 .data) ∧ markerSent { busy with outq := [out0 .data] } chan0 = false ∧ heldByCut { busy with outq := [out0 .data] } (out0 .data) = false
    ∧ credit { busy with ctxs := [(0, { nodes := (nodeCtx busy nid).nodes, quotas := [(0, 2, 0, 1, 1)] })] } chan0 0 = 2 ∧ credit busy chan0 0 = 0 ∧ outranked { busy with outq := [out0 .data] } chan0 (out0 .data) = false
    ∧ (out0 .data).owner.isSome = true := by
  refine ⟨fun k hk => ?_, by decide +kernel, by decide, by decide +kernel, by decide +kernel, by decide +kernel, by decide +kernel, by decide +kernel, by decide +kernel, rfl⟩
  simp only [List.mem_cons, List.not_mem_nil, or_false] at hk
  rcases hk with rfl | rfl | rfl <;> exact ⟨_, ⟨by decide +kernel, by decide +kernel, rfl, rfl⟩⟩
/-- A partial token; an EXC on its way to the supervisor; a timer of port 2 that is due at 1024 × 1024 cycles. -/
theorem witness_TokenEvents_records :
    let f := { flight0 .data 0 with partialTok := true }
    let x : CtxId := { w := 0, x := 0 }
    let y : StallTimer := { at_ := { node := nid, port := 2 }, colour := 0, start := 0, fired := false }
    ({ busy with flights := [f] } : State).flights.find? (fun f => f.chan == chan0 && f.tok.tag.colour == 0 && f.partialTok) = some f
    ∧ ({ busy with excFlight := [(x, tok0 .exc)] } : State).excFlight.find? (fun e => e.1 == x) = some (x, tok0 .exc) ∧ supervisorOf (ctxOf busy x.w x.x) = some 0
    ∧ ({ busy with timers := [y], now := 2 ^ 20 } : State).timers.find? (fun t => t.at_ == ({ node := nid, port := 2 } : PortId) && t.colour == 0) = some y ∧ y.start + 1024 * limitOf (nodeCtx busy nid) 0 = 2 ^ 20 := by decide +kernel

/-- Node 0 with the one-instruction block DROP, fetched and not. -/
def dropCode : List Word128 := codeOf (.drop { hd 1 with gd := Guard.off } payC) ++ codeOf (.exitEnd (hd 0) payC)
def coded : State := { busy with ctxs := [(0, { resident := true, launched := true, nodes := [{ routed .compute none [] with blocks := [(0, 0, dropCode)] }] })], cellOwner := [(0, some 0)] }
def firing0 : Firing := { cell := 0, seq := 1, node := nid, tag := tag0, age := 0, kind := .fresh, point := none, inv := none, brkOff := false, watch := 0 }
def slot0 : BlockSlot := { cell := 0, node := nid, blk := 0, hdr := 0, code := dropCode, used := 0 }
theorem witness_CellEvents_fetch : (∃ p, placedOf coded nid = some p ∧ p.cell = 0 ∧ blockCode p 0 = some (0, dropCode)) ∧ findBlock coded 0 nid 0 = none ∧ (coded.blocks.filter (fun y => y.cell == 0)).length < 8 :=
  ⟨⟨_, rfl, rfl, by decide +kernel⟩, by decide +kernel, by decide +kernel⟩
theorem witness_CellEvents_choice :
    let s := { coded with blocks := [slot0], firings := [firing0] }
    (startable s firing0).isSome = true ∧ startable { s with blocks := [] } firing0 = none ∧ s.insts = [] ∧ firing0 ∈ s.firings ∧ blockSpawns dropCode = false ∧ dropCode ≠ [] := by
  refine ⟨by decide +kernel, by decide +kernel, rfl, List.mem_singleton.mpr rfl, by decide +kernel, by decide +kernel⟩
/-- A response for an instance, a translation of an owned cell, and a page that has no entry. -/
theorem witness_CellEvents_memory :
    let p : Pend := { slot := 0, h := hd 1, aux := 0, v0 := all32 1, v1 := noVal, b := true }
    let b := { inst [] with pend := [p] }
    let s := { paged .cache b with cellOwner := [(0, some 0)] }
    findInst s 0 1 = some b ∧ b.pend = p :: [] ∧ mget none s.cellOwner 0 = some 0 ∧ (0x1000 : Word64).toNat < 2 ^ 57 ∧ tlbHit s (some 0) 0 0 0x1000 = none ∧ colourEntry s 0 0 = some (0, 0)
    ∧ walkFrom s 0 0x1000 5 0 = .bad .permission 4 := by decide +kernel
/-- An instance that may commit: all executed, exit END, no effects; one that has not finished; one that raised; one without an exit. -/
theorem witness_CellEvents_commit :
    let b := { inst [] with exit := some .fin }
    let s := at_ b
    oldestInst s 0 = some b ∧ b.raised = none ∧ b.stage ≠ .waiting ∧ b.code.length ≤ b.pc ∧ b.pend = [] ∧ needsRelease s b .fin = false ∧ commitRoom s b = true ∧ b.effs = [] ∧ (nodeCtx s b.node).halted = false
    ∧ { b with code := dropCode }.pc < dropCode.length ∧ needsRelease s { b with effs := [.rel (.phase .cell)] } .fin = true := by decide +kernel
theorem witness_CellEvents_release :
    let b := { inst [] with exit := some .fin, stage := .releasing, effs := [.store ⟨[(2 ^ 52, 1)], none⟩] }
    let s := at_ b
    findInst s 0 1 = some b ∧ endsHere s b .fin = true ∧ (∃ v, findInv s b.inv = some v ∧ v.held = []) ∧ b.effs = [(⟨[(2 ^ 52, 1)], none⟩ : HStore)].map .store :=
  ⟨by decide +kernel, by decide +kernel, ⟨_, rfl, rfl⟩, rfl⟩
/-- A GO and a HALT of a nest node, a running nest with a point to make, a format change on its way, a monitor, and a watchdog that is due. -/
def nest0 : NestRun := { node := nid, tag := tag0, inv := 0, next := 0, points := 2, halted := false, exts := [2, 0, 0, 0] }
theorem witness_CellEvents_control :
    let c (go : Bool) : CtlTok := { go := go, node := nid, tag := tag0, src := none }
    let m : Monitor := { granule := 0, die := 0, cell := 0, seq := 1, deadline := some 5, event := none }
    ({ coded with ctls := [c true] } : State).ctls.find? (fun c => c.go && c.node == nid && c.tag == tag0) = some (c true) ∧ frozen coded 0 0 0 = false ∧ nodeCut coded nid = false ∧ (nodeCtx coded nid).halted = false
    ∧ ({ coded with ctls := [c false] } : State).ctls.find? (fun c => !c.go && c.node == nid && c.tag == tag0) = some (c false)
    ∧ ({ coded with nests := [nest0] } : State).nests.find? (fun r => (placedOf { coded with nests := [nest0] } r.node).any (fun p => p.cell == 0)) = some nest0
    ∧ (placedOf coded nid).any (fun p => setComplete coded nid (entryPorts p) tag0) = true
    ∧ ({ coded with fmtTravel := [({ w := 0, x := 0 }, 0, 1, 0)] } : State).fmtTravel.find? (fun t => t.1 == ({ w := 0, x := 0 } : CtxId) && t.2.1 == 0) = some ({ w := 0, x := 0 }, 0, 1, 0)
    ∧ ({ coded with monitors := [m] } : State).monitors.find? (fun m => m.cell == 0 && m.seq == 1) = some m ∧ watchLimit (nodeCtx coded nid) = 1024 * 4096 := by decide +kernel
/-- DROP's operand is there: the firing of the block's instance starts, and the oldest instance goes. -/
theorem test_commit : (match exec (.instanceCommit 0) (at_ { inst [] with exit := some .fin }) with
  | .next t => t.insts.length
  | _ => 9) = 0 := by decide +kernel


/-- The copy that `described` holds: one byte from 0x400 to 0x500; the stream's, one byte a tile; a collective of one device. -/
def view0 (base : Int) (sp : Bool) (ext : List Nat) : View :=
  { tid := 0, esz := 0, shd := false, sp := sp, base := base, ext := ext, pad := 7, start := [0, 0, 0, 0, 0], stride := [0, 0, 0, 0, 0], org := 0, size := 0 }
def copy0 (nbw : Nat) : CopyDesc := { rank := 1, box := [1, 0, 0, 0, 0], nbw := nbw, bmap := if nbw = 0 then 0 else 0x600, src := view0 0x400 false [1, 0, 0, 0, 0], dst := view0 0x500 false [1, 0, 0, 0, 0] }
def ring0 : CopyDesc := { rank := 2, box := [1, 2, 0, 0, 0], nbw := 0, bmap := 0, src := view0 0x400 false [1, 2, 0, 0, 0], dst := view0 0 true [1, 1, 0, 0, 0] }
def ringSt (next : Nat) : StreamSt := { ns := 1, slotb := 64, place := 0, epoch := 0, next := next, newest := [(0, some 0)], accepted := [] }
def coll0 : CollDesc :=
  { op := 0, red := 0, group := 0, seq := 0, count := 1, root := 0, src := 0x800, dst := 0x900, tmo := 5, cseed := 0, p := 1, rank := 0, ein := fp32Word, eout := fp32Word, mode := .rne }
def op0 (k : OpKind) : EngOp :=
  { id := 1, engine := 5, cell := 0, node := nid, tag := tag0, blk := 0, slot := 0, gen := 0, port := some 0, scope := .cell, mem := some 5, kind := k, start := 0, done := [], chunks := [], stuck := none, home := 5 }

/-- The tables of colour 0, whose leaf of 4 GiB maps virtual 0 to the start of host memory. -/
def tables : List (Nat × Nat) := [(2 ^ 50, 2 ^ 50 + 0x8000 + 1), (2 ^ 50 + 0x8000, 2 ^ 50 + 0x9000 + 1), (2 ^ 50 + 0x9000, 2 ^ 50 + 0xA000 + 1), (2 ^ 50 + 0xA000, 2 ^ 50 + 10 * 2 ^ 4 + 15)]
def engines (o : EngOp) : State := { paged .scratch (inst []) with ops := [o], mem := wordsAt tables, wtype := [((2 ^ 50 + 0x600) / 8, 2)] }

/-- A point in both views and one outside the source; a chunk, a box, both ends of a stream of two tiles, a notice, a collective that has all its devices and one that has not, and an operation that stands still. -/
theorem witness_EngineEvents :
    let o := op0 (.copy (copy0 1))
    let s := engines o
    findOp s 1 = some o ∧ inView (copy0 1).dst 1 none (pointAt (copy0 1).box 0) = true ∧ laterWrote (copy0 1) none 0 0x500 o.done = false ∧ (∃ pa, engAddr s o false 0x500 1 false true = .ok pa ∧ (typeAt s pa == 0) = true)
    ∧ inView { (copy0 1).src with ext := [0, 0, 0, 0, 0] } 1 none [0] = false ∧ chunkPoints (copy0 1) 0 = [0] ∧ canReport s o = true ∧ copyChunks (copy0 1) = [0]
    ∧ (∃ pa, access s none 0 0 0x600 8 true true = .ok pa ∧ (typeAt s pa == 2) = true) :=
  ⟨by decide +kernel, by decide +kernel, by decide +kernel, okWith (by decide +kernel), by decide +kernel, by decide +kernel, by decide +kernel, by decide +kernel, okWith (by decide +kernel)⟩
theorem witness_EngineEvents_rest :
    let o := op0 (.stream ring0 (ringSt 1))
    let s := engines o
    let n : Notice := { cell := 5, w := 0, tag := tag0, place := 0, epoch := 0, tile := 0, slot := 0 }
    canReport s o = true ∧ (ringSt 0).next < (ringSt 0).ns ∧ 1 - (ringSt 1).ns ∉ (ringSt 1).accepted ∧ (ringSt 1).next + 1 = ring0.box.getD (tileDim ring0) 0 ∧ (nodeCtx s nid).cut = none
    ∧ (match copyPoints o ring0 (some 1) 0 s [0] with
      | .ok _ => true
      | .error _ => false) = true
    ∧ ({ s with notices := [n] } : State).notices.find? (fun n => n.cell == 5) = some n ∧ accepts o n = true ∧ findOp (engines (op0 (.coll coll0))) 1 = some (op0 (.coll coll0))
    ∧ allStarted s coll0 = true ∧ allStarted s { coll0 with p := 2 } = false ∧ peersOf s coll0 = [] ∧ (opStuck s { o with stuck := some (0, failAt .permission 8) }) = some (0, failAt .permission 8) := by decide +kernel
/-- An event record and a table whose entry 0 rings a ring of two. -/
theorem witness_EngineEvents_record :
    let e : EvRec := { spire := 0, w := 0, src := 1, tag := tag0, code := 0, val := noVal }
    let s := { engines (op0 (.copy (copy0 0))) with evqs := [e], worlds := [(0, { ctab := 2 ^ 50, evtab := 2 ^ 50 + 0x5000 })], mem := wordsAt [(2 ^ 50 + 0x5000, 1 + 2 ^ 1 + 2 ^ 3 + 2 ^ 34), (2 ^ 50 + 0x5008, 2 ^ 50 + 0x6000 + 1)] }
    s.evqs.find? (fun e => e.spire == 0) = some e ∧ (evAction s e).map (fun d => field (d 0) 1 2) = some 1 ∧ inCapability s 0 (2 ^ 50 + 0x6000) (64 + 64 * 2) = true := by
  exact ⟨by decide +kernel, by decide +kernel, by decide +kernel⟩

/-- A belfry of two contexts, 1 active and 2 next, with a DRAIN to act on and one in flight. -/
def bells : State := { State.reset with worlds := [(0, { belfry := 1 + 2 ^ 8 + 1 * 2 ^ 16 + 2 * 2 ^ 24, drains := [tok0 .drain], drainFlight := [tok0 .drain] })] }
theorem witness_BelfryEvents :
    (worldOf bells 0).belfry.getLsbD 0 = true ∧ (worldOf bells 0).drains = [tok0 .drain] ∧ (worldOf bells 0).drainFlight = [tok0 .drain] ∧ (ctxOf bells 0 1).cut = none ∧ ctxQuiet bells 0 1 = true
    ∧ ctxQuiet { bells with firings := [{ firing0 with node := { nid with x := 1 } }] } 0 1 = false ∧ ¬ ((worldOf bells 0).prot = true ∧ (worldOf bells 0).tdi = .error) ∧ (worldOf State.reset 0).belfry.getLsbD 0 = false
    ∧ (worldOf bells 0).disable = false := by decide +kernel

/-- A lantern node that holds the role of spire 0's lantern; a header and a logit token at port 0 and an id token at port 1. -/
def lit (ts : List PTok) : State := { withNode { routed .lantern none [] with route := { (routed .lantern none []).route with lanternRole := true } } [] State.reset with ptoks := ts }
def ltok (port : Nat) (aux : BitVec 12) (v : Val) : PTok := { at_ := { node := nid, port := port }, chan := none, tok := { tag := tag0, kind := .data, aux := aux, val := v }, entry := false, use := none, bkpt := none }
theorem witness_LanternEvents :
    let h := ltok 0 1 (firstSlots [2, 3, 16])
    let g := ltok 0 0 (all32 0x3F800000)
    let s := lit [h]
    lanternPort s nid 0 0 true = some ({ node := nid, port := 0 }, 0) ∧ (placedOf s nid).isSome = true ∧ (seqHeads s { node := nid, port := 0 } 0).find? (fun t => !(t.tok.kind == .data && t.tok.aux == 0)) = some h
    ∧ readHeader h.tok = some (2, 3, 16, []) ∧ readHeader (ltok 0 1 (firstSlots [2, 3, 0])).tok = none ∧ bindOf s 0 0 0 = none ∧ bindOf { s with lanterns := [(0, { binds := [(0, 0, 64)] })] } 0 0 0 = some 64
    ∧ (seqHeads (lit [g]) { node := nid, port := 0 } 0).find? (fun t => t.tok.kind == .data && t.tok.aux == 0) = some g ∧ findStream { lit [g] with lstreams := [stream0] } 0 0 0 = some stream0
    ∧ lanternPort s nid 1 0 false = some ({ node := nid, port := 1 }, 0)
    ∧ (lit [ltok 1 2 noVal]).ptoks.find? (fun t => t.at_ == ({ node := nid, port := 1 } : PortId) && t.tok.tag.colour == 0 && t.bkpt.isNone) = some (ltok 1 2 noVal) := by decide +kernel
/-- Results that need a kept candidate, and an id count at its limits. -/
theorem witness_LanternEvents_results :
    let l := { stream0 with cands := [(0x3F800000, 3)] }
    l.cands ≠ [] ∧ (keepCands l 0x3F800000).head? = some (0x3F800000, 3) ∧ ([(5, 65535, 0)] : List (Nat × Nat × Nat)).length < 4096 ∧ (∃ e, e ∈ [((5 : Nat), (65535 : Nat), (0 : Nat))] ∧ e.1 = 5) := by
  refine ⟨by decide, by decide +kernel, by decide, ⟨_, List.mem_singleton.mpr rfl, rfl⟩⟩
theorem test_header : (match exec (.streamHeader nid 0) (lit [ltok 0 1 (firstSlots [2, 3, 16])]) with
  | .next t => t.lstreams.map (fun l => (l.pos, l.node, l.total, l.drop))
  | _ => []) = [(2, 3, 16, true)] := by decide +kernel


/-- World 0 with queue 0 at its descriptor (ring of 16 packets), region 0, and one packet; its cells are those of spire 0. -/
def sched0 : Nat := 2 ^ 50 + 0x10000
def queued (st : Nat) (d : List Nat) (tasks : List Task) : State :=
  { State.reset with
    mem := wordsAt (tables ++ [(sched0, 2 ^ 50 + 0x20000 + 4), (sched0 + 8, 1), (sched0 + 32, 2 ^ 50 + 0x30000), (sched0 + 4096, 0x3FF * 2 ^ 10 + 0x3F * 2 ^ 24), (sched0 + 4104, 6144 + 3072 * 2 ^ 16 + 2 ^ 32), (sched0 + 4112, 2 ^ 22)]
      ++ (enumFrom 0 d).map (fun e => (2 ^ 50 + 0x20000 + 8 * e.1, e.2)))
    worlds := [(0, { live := true, ctab := 2 ^ 50, schedbase := BitVec.ofNat 64 sched0, queues := [(0, { st := st })], tasks := tasks })]
    dev := { ready := 0xFFFF, link := some (.g6, .x16, .cxl3) }
    wtype := [((2 ^ 50 + 0x600) / 8, 2)] }

/-- An image of one spire whose section is its END packet, and its task. -/
def image0 : Image := { context := 0, fmts := [], atPlaced := false, spires := [0], sections := [[{ header := 0x4000000000000000, data := .fin 1 [] none }]] }
def task0 (st : TaskSt) (spires pos : List Nat) : Task :=
  { id := 9, queue := 0, idx := 0, region := 0, colour := 0, img := image0, recq := false, argv := 0, args := [], rva := 0, maxrec := 0, cmpla := none, quar := false, st := st, since := 0, heldAt := 0, sliceAt := 0, cuts := 0, spires := spires
    pos := pos, tiles := [], sent := 0, saved := false }
def signal0 : List Nat := [3, 0x600, 2, 1]
def owning (s : State) : State := { s with cellOwner := (cellsOfSpire 0).map (fun c => (c, some 0)) }

/-- A LAUNCH, a WAIT that has started and holds or not, a SIGNAL, a POLICY-SWAP to nothing and the ABORTs pass the checks; a LAUNCH of task 0 does not. -/
theorem witness_QueueEvents_start :
    let pkt (d : List Nat) (ts : List Task) : Option Nat := (nextPkt (queued 1 d ts) 0 0).bind (fun e => if pktFault (queued 1 d ts) 0 0 e.2 (some image0) = none then some (field (e.2 0) 0 8) else none)
    pkt [1 + 9 * 2 ^ 32, 2 ^ 50 + 0x40000, 0, 0, 0, 0, 0, 0] [] = some 1 ∧ pkt [1, 2 ^ 50 + 0x40000, 0, 0, 0, 0, 0, 0] [] = none ∧ pkt [2, 0, 2, 9] [] = some 2 ∧ pkt signal0 [] = some 3 ∧ pkt [4] [] = some 4
    ∧ pkt [5, 0 + 9 * 2 ^ 32] [] = some 5 ∧ pkt [5, 1 + 9 * 2 ^ 32] [task0 .queued [] []] = some 5 ∧ pkt [5, 2] [] = some 5 ∧ (nextPkt (queued 0 signal0 []) 0 0).isNone = true := by decide +kernel
theorem witness_QueueEvents_effects :
    let l := [1 + 9 * 2 ^ 32, 2 ^ 50 + 0x40000, 0, 0, 0, 0, 0, 0]
    let s := queued 1 l []
    let s1 := startPkt s 0 0 (pktWord s 0 0 0)
    let x := taskOf s1 0 0 0 (pktWord s 0 0 0) image0
    overNeed (setWorld s1 0 { worldOf s1 0 with tasks := (worldOf s1 0).tasks ++ [x] }) 0 x = false
    ∧ (signalOp (queued 1 signal0 []) 0 0 0x600 2 1).toOption.isSome = true ∧ (signalOp (startPkt (queued 1 signal0 []) 0 0 (pktWord (queued 1 signal0 []) 0 0 0)) 0 0 0x600 2 1).toOption.isSome = true
    ∧ (devWord s 0 0 0x600 true true).toOption = some (2 ^ 50 + 0x600, 0) ∧ typeAt s (2 ^ 50 + 0x600) = 2
    ∧ findTask (queued 1 [] [task0 .queued [] []]) 0 9 = some (task0 .queued [] []) ∧ findTask s 0 9 = none := by decide +kernel
/-- A WAIT in progress whose test holds (no task 9) and one whose test does not, timed and due; a queue that may start, one in ERROR and one in quarantine; a slice that is over. -/
theorem witness_QueueEvents_wait :
    let p : Pkt := { idx := 0, ty := 2, task := 0, cmpla := none, done := false, consumed := false, since := 0 }
    let l := [2, 0, 2, 9, 1, 0, 0, 0]
    let s (ts : List Task) : State := { queued 1 l ts with worlds := [(0, { ctab := 2 ^ 50, schedbase := BitVec.ofNat 64 sched0, queues := [(0, { st := 1, pkts := [p] })], tasks := ts })], now := 1024 }
    openWait (s []) 0 0 = some p ∧ (waitTest (s []) 0 (pktWord (s []) 0 0 0)).toOption = some true ∧ (waitTest (s [task0 .queued [] []]) 0 (pktWord (s []) 0 0 0)).toOption = some false
    ∧ field (pktWord (s []) 0 0 0 4) 0 32 ≠ 0 ∧ p.since + 1024 * field (pktWord (s []) 0 0 0 4) 0 32 ≤ (s []).now ∧ qdescOk (queued 0 [] []) 0 0 = true ∧ (queueOf (queued 2 [] []) 0 0).st = 2 ∧ (queueOf (queued 3 [] []) 0 0).st = 3
    ∧ (queueOf (queued 0 [] []) 0 0).st = 0 ∧ regionEff (s []) 0 0 2 = 1 := by decide +kernel
/-- The slice of a running task is over while a queued one could take its spire. -/
def twoTasks : State := { owning (queued 1 [] [task0 .running [0] [], { task0 .queued [] [] with id := 10, idx := 1, img := { image0 with context := 1 } }]) with now := 1024 }
theorem witness_QueueEvents_slice : findTask twoTasks 0 9 = some (task0 .running [0] []) ∧ preemptCands twoTasks 0 (task0 .running [0] []) ≠ [] ∧ (worldOf twoTasks 0).triggers = [] ∧ (task0 .running [0] []).sliceAt + 1024 * regionEff twoTasks 0 0 2 ≤ twoTasks.now := by decide +kernel

/-- A queued task with its dispatch trigger, due; the decision that picks it; a task being placed and one that is placed; a task that may complete. -/
def waitingTask (st : TaskSt) (spires pos : List Nat) (d : Option Decision) (tr : List (Trigger × Nat)) : State :=
  let s := owning (queued 1 [] [task0 st spires pos])
  { s with worlds := [(0, { worldOf s 0 with triggers := tr, decision := d })] }
theorem witness_TaskEvents :
    let s := waitingTask .queued [] [] none [(.dispatch 0, 0)]
    let y := waitingTask .queued [] [] (some { decision0 1 with outcome := some (.pick 9), kind := 0 }) []
    dueTriggers s 0 = [(.dispatch 0, 0)] ∧ dispatchCands s 0 0 false = [task0 .queued [] []] ∧ dispatchCands s 0 0 true = [] ∧ quarPick s 0 0 = none ∧ (worldOf s 0).decision = none
    ∧ dueTriggers { twoTasks with worlds := [(0, { worldOf twoTasks 0 with triggers := [(.preempt 9 false, 0)] })] } 0 = [(.preempt 9 false, 0)]
    ∧ dueTriggers { twoTasks with worlds := [(0, { worldOf twoTasks 0 with triggers := [(.fault 9 .parity, 0)] })] } 0 = [(.fault 9 .parity, 0)]
    ∧ stillFits (setWorld y 0 { worldOf y 0 with decision := none }) 0 (task0 .queued [] []) = true := by decide +kernel
theorem witness_TaskEvents_launch :
    let s := waitingTask .launching [0] [1] none []
    let z := waitingTask .launching [0] [0] none []
    findTask s 0 9 = some (task0 .launching [0] [1]) ∧ [1] = image0.sections.map (fun l => l.length) ∧ (ctxOf s 0 0).resident = false ∧ attached s 0 = true ∧ (checkImage s 0 (task0 .launching [0] [1])).toOption.isSome = true
    ∧ attrFault s 0 0 = none ∧ (match checkImage s 0 (task0 .launching [0] [1]) with
      | .ok (l, ns) => quotaFits (placeImage s 0 (task0 .launching [0] [1]) l ns) 0 ns
      | .error _ => false) = true
    ∧ (task0 .launching [0] [0]).pos.getD 0 0 < ((task0 .launching [0] [0]).img.sections.getD 0 []).length ∧ findTask z 0 9 = some (task0 .launching [0] [0]) := by decide +kernel
theorem witness_TaskEvents_complete :
    let s := { waitingTask .running [0] [1] none [] with ctxs := [(0, { resident := true, launched := true, task := 9, spires := [0] })] }
    (ctxOf s 0 0).resident = true ∧ (ctxOf s 0 0).task = 9 ∧ ctxQuiet s 0 0 = true ∧ inSequence s 0 0 = false ∧ (task0 .running [0] [1]).sent = (task0 .running [0] [1]).tiles.length := by decide +kernel
/-- A tile of a device-built launch that may be sent on the channel of start node 0. -/
theorem witness_TaskEvents_tile :
    let x := { task0 .running [0] [1] with recq := true, tiles := [{ u := 3, slots := [1, 2] }] }
    let c : Ctx := { resident := true, launched := true, task := 9, starts := [0], nodes := [{ routed .compute none [] with route := { (routed .compute none []).route with chans := [{ n := 0, src := none, dst := some { node := 0, port := 0 } }] } }], quotas := [(0, 0, 0, 1, 1)] }
    let s := { State.reset with worlds := [(0, { tasks := [x] })], ctxs := [(0, c)] }
    findTask s 0 9 = some x ∧ x.tiles[x.sent]? = some { u := 3, slots := [1, 2] } ∧ startChan c 0 = some 0 ∧ mget none c.tags 3 = none ∧ credit s chan0 0 ≠ 0 ∧ chanFrozen s chan0 0 = false ∧ ingressOpen s 0 = true := by decide +kernel

/-- A context whose task is to be cut; a cut with a MARKER at node 0; a complete cut whose image fits its slot of the arena; a saved image to restore. -/
def cutting (k : Option CutSt) (fs : List Flight) : State :=
  let s := queued 1 [] [task0 .cutting [0] [1]]
  { s with
    flights := fs, now := 2
    ctxs := [(0, { resident := true, launched := true, task := 9, spires := [0], cut := k, nodes := [{ routed .compute none [] with route := { (routed .compute none []).route with chans := [{ n := 0, src := none, dst := some { node := 0, port := 2 } }] } }] })]
    dev := { s.dev with saves := [(0, (2 ^ 50 + 2 ^ 41 + 40, 0))] } }
def cut0 (done : List Nat) : CutSt := { epoch := 1, at_ := 0, marks := [], cutNodes := done, recorded := done, chans := done, sent := [] }
theorem witness_CutEvents :
    let x : CtxId := { w := 0, x := 0 }
    let s := cutting (some (cut0 [])) [{ flight0 .marker 0 with chan := chan0 }]
    (ctxOf (cutting none []) x.w x.x).cut = none ∧ findTask (cutting none []) 0 9 = some (task0 .cutting [0] [1]) ∧ (inChans (nodeCtx s nid) 0).filter (fun ch => markerNext s { w := 0, x := 0, n := ch }) = [0] ∧ (nodeCtx s nid).purging = none
    ∧ cutDone (cutting (some (cut0 [0])) []) x (cut0 [0]) = true ∧ cutDone s x (cut0 []) = false ∧ arenaOf s x = (2 ^ 50 + 2 ^ 41, 40) ∧ (cut0 [0]).at_ + saveLimit s 0 = 1024 * 4096
    ∧ inCapability s 0 (2 ^ 50 + 2 ^ 41) 64 = true ∧ levelCheck s 0 (2 ^ 50 + 2 ^ 41) 0 = none := by decide +kernel
/-- The image's size has a part that the manual leaves open below the bound of its records: a slot of 2^40 bytes takes it. -/
theorem witness_CutEvents_fits :
    let x : CtxId := { w := 0, x := 0 }
    let s := cutting (some (cut0 [0])) []
    (arenaOf s x).2 = 40 ∧ 64 + 16 * (statedUnits s x + openUnits s x) ≤ 2 ^ (arenaOf s x).2 := by
  have hs : statedUnits (cutting (some (cut0 [0])) []) { w := 0, x := 0 } ≤ 2 ^ 20 := by decide +kernel
  have ha : (arenaOf (cutting (some (cut0 [0])) []) { w := 0, x := 0 }).2 = 40 := by decide +kernel
  have hr : recordCount (cutting (some (cut0 [0])) []) { w := 0, x := 0 } = 4 := by decide +kernel
  have ho : openUnits (cutting (some (cut0 [0])) []) { w := 0, x := 0 } < 2 ^ 28 * 4 := by
    unfold openUnits
    rw [hr]
    exact Nat.mod_lt _ (by decide)
  intro x s
  refine ⟨ha, ?_⟩
  rw [show (arenaOf s x).2 = 40 from ha]
  have : statedUnits s x ≤ 2 ^ 20 := hs
  have : openUnits s x < 2 ^ 28 * 4 := ho
  omega


/-- The device with some ready functions (SP is function 0). -/
def ready (fns : Nat) : State := { State.reset with dev := { ready := BitVec.ofNat 64 fns } }

/-- An offset of every kind of register at the ends of its range, a comparator on a protected world's cell, a held token and a BRK firing. -/
theorem witness_RegisterEvents :
    let b : Bkpt := { v := true, w := 0, port := 2, node := 0, y := 0, x := 0 }
    let q : PTok := { at_ := { node := nid, port := 2 }, chan := some chan0, tok := tok0 .data, entry := false, use := none, bkpt := some (3, 0) }
    let s := { coded with dev := { ready := 1, bkpts := [(3, b)] }, ptoks := [q], firings := [{ firing0 with kind := .brk }], worlds := [(1, { prot := true })], cellOwner := [(0, some 1)] }
    (ready 1).dev.ready.getLsbD 0 = true ∧ State.reset.dev.ready.getLsbD 0 = false ∧ (0x0100 = 0x100 + 8 * 0 ∧ 0x178 = 0x100 + 8 * 15 ∧ 0x2F8 = 0x200 + 8 * 31 ∧ 0x1BF8 = 0x1000 + 8 * 383) ∧ field 383 0 9 ≤ 383 ∧ ¬ field 384 0 9 ≤ 383
    ∧ (∀ p, p < 18 → s.dev.ready.getLsbD (22 + p) = false) ∧ (q.bkpt.map (fun b => b.1) == some 3) = true ∧ (∃ p, placedOf s nid = some p ∧ p.node = b.node ∧ cellX p.cell = b.x ∧ cellY p.cell = b.y)
    ∧ mget none s.cellOwner (field (0 : Nat) 30 7 + 128 * field 0 37 7) = some 1 ∧ (worldOf s 1).prot = true :=
  ⟨by decide +kernel, by decide +kernel, by decide, by decide, by decide, by decide +kernel, by decide +kernel, ⟨_, rfl, by decide +kernel, by decide +kernel, by decide +kernel⟩, by decide +kernel, by decide +kernel⟩
/-- WQOS of world 15 takes a weight of 255. -/
theorem test_wqos : (match exec (.registerWrite 0x178 0x1FF) (ready 1) with
  | .next t => mget 16 t.dev.wqos 15
  | _ => 0) = 255 := by decide +kernel

/-- Functions before and after SP, a period that has come, a live word of host memory, and another device's read of its own granule and of one it does not own. -/
theorem witness_LinkEvents :
    let s := { ready 0x401 with granuleOwner := [(0, some 0)], now := 1024 }
    (State.reset.dev.ready.getLsbD 0 = false ∧ State.reset.dev.fail.getLsbD 0 = false) ∧ ((ready 1).dev.ready.getLsbD 39 = false ∧ (ready 1).dev.ready.getLsbD 0 = true) ∧ s.dev.period < s.now / 1024
    ∧ region (2 ^ 50) = some .host ∧ typeAt { s with wtype := [(2 ^ 50 / 8, 1)] } (2 ^ 50) ≠ 0 ∧ region (2 ^ 38) = none
    ∧ (∀ x, x ∈ bytesAt 0 4 → isDevice x = true ∧ mget none s.granuleOwner (x / granuleSize) = some 0) ∧ levelCheck s 0 0 0 = some waitReport ∧ levelCheck (ready 0x4401) 0 0 0 = none
    ∧ ¬ (isDevice (2 ^ 50) = true) ∧ (mget 0 s.dev.tj 0 < 256) := by decide +kernel
/-- A world to create beside another that owns cell 5; a protected world in each interface state; a link that falls, and keys to wrap. -/
theorem witness_SecurityEvents :
    let x : World := { live := true, prot := true, spdm := true, tdi := .locked, kek := some 1 }
    let s := { ready 1 with worlds := [(0, x), (1, { live := true })], cellOwner := [(5, some 1)], now := 9, dev := { ready := 1, unlocked := some 3, link := some (.g5, .x4, .cxl2) } }
    (worldOf s 2).live = false ∧ (worldOf s 1).live = true ∧ (∃ u, s.dev.unlocked = some u ∧ u < s.now) ∧ (∃ c v, c ∈ [5] ∧ mget none s.cellOwner c = some v ∧ v ≠ (2 : BitVec 4).toNat) ∧ ((worldOf s 0).spdm = true ∧ (worldOf s 0).tdi = .locked ∧ (worldOf s 0).kek = some 1)
    ∧ (worldOf s 1).spdm = false ∧ ¬ ((worldOf s 1).prot = true) ∧ residentCells s 1 = [] ∧ s.dev.link.isSome = true ∧ { x with wrapPending := true, tdi := .error }.wrapPending = true ∧ (∀ t, t ∈ [Tdi.unlocked, .locked, .run, .error] → ({ x with tdi := t } : World).tdi = t) :=
  ⟨by decide +kernel, by decide +kernel, ⟨3, rfl, by decide⟩, ⟨5, 1, by decide, by decide +kernel, by decide⟩, by decide +kernel, by decide +kernel, by decide +kernel, by decide +kernel, by decide +kernel, rfl, by decide +kernel⟩
/-- CREATE of world 2 with cell 7: live, the cell is its own, reply 0. -/
theorem test_create : (match exec (.create 2 false false [7] []) (ready 1) with
  | .next t => ((worldOf t 2).live, mget none t.cellOwner 7)
  | _ => (false, none)) = (true, some 2) := by decide +kernel

/-! ### The whole machine -/

/-- A well-formed instruction of each set, with its word. -/
theorem witness_EncodedInstructionsDecodeBack : (Instr.fadd (hd 2 (.chan 0)) payA).wf = true ∧ encode (.fadd (hd 2 (.chan 0)) payA) = some (128, 0x40038103000000000000000000000000)
    ∧ (Instr.polSltu 10 3 6).wf = true ∧ encode (.polSltu 10 3 6) = some (32, 0x2E8D8000) ∧ (Instr.lgMuli 6 0 0x3F000000).wf = true ∧ encode (.lgMuli 6 0 0x3F000000) = some (64, 0x360000003F000000) := by decide +kernel
theorem witness_DecodedWordsEncodeBack : decodeMain 0x40038103000000000000000000000000 0 = .ok (.fadd (hd 2 (.chan 0)) payA) ∧ decodeLogit 0x360000003F000000 = .ok (.lgMuli 6 0 0x3F000000) ∧ decodePolicy 0x2E8D8000 = .ok (.polSltu 10 3 6) :=
  ⟨rfl, rfl, rfl⟩
theorem witness_StepRunsDecodedInstruction :
    let b := { inst [all32 1, all32 2] with code := [0x40038103000000000000000000000000] }
    Executes (at_ b) b ∧ b.code[b.pc]? = some 0x40038103000000000000000000000000 ∧ (at_ b).agenda = [] ∧ (decision0 0).live = true ∧ decodePolicy 0x2E8D8000 = .ok (.polSltu 10 3 6) ∧ fetched State.reset = none
    ∧ findInst State.reset 0 (mget 0 State.reset.seqs 0 + 1) = none ∧ encode (.linkDown) = none :=
  ⟨⟨by decide +kernel, rfl, rfl⟩, rfl, rfl, by decide +kernel, rfl, rfl, rfl, rfl⟩
theorem witness_MemoryFormKept : memWf State.reset.mem = true ∧ ∃ t, step State.reset = .next t := ⟨rfl, _, rfl⟩
/-- A word that is no instruction in focus, and one that is. -/
theorem witness_OnlyUndecodableWordStops : fetched (at_ { inst [] with code := [0] }) = some (.error .unassigned) ∧ (∃ i, fetched (at_ { inst [] with code := [0x40038103000000000000000000000000] }) = some (.ok i)) := ⟨rfl, _, rfl⟩
theorem witness_LocalInstructionsFrame : Coded (.fadd (hd 2 (.chan 0)) payA) 0x100 (hd 2 (.chan 0)) ∧ 0x100 < 0x240 ∧ ∃ t, exec (.fadd (hd 2 (.chan 0)) payA) (at_ (inst [all32 1, all32 2])) = .next t :=
  ⟨⟨128, 0x40038103000000000000000000000000, by decide +kernel, by decide, by decide +kernel⟩, by decide, _, rfl⟩
/-- One operand is not there; a guard that is false, with both operands. -/
theorem witness_WaitingAndGuardedOff :
    let h : Hdr := { hd 2 (.chan 0) with gd := { m0 := .onTrue, m1 := .none, orr := false } }
    let b := { inst [all32 1, all32 2] with preds := [(0, false)] }
    Waits (hd 2 (.chan 0)) (at_ (inst [all32 1])) ∧ Executes (at_ b) b ∧ guardOf h b = some false ∧ operands h (fun _ => noVal) b ≠ none ∧ Alone (at_ b) b ∧ (∃ w, encode (.fadd h payA) = some (128, w)) := by
  refine ⟨fun b hb => ?_, ⟨by decide +kernel, rfl, rfl⟩, by decide +kernel, by decide +kernel, by unfold Alone; decide +kernel, ⟨_, rfl⟩⟩
  have : b = inst [all32 1] := by
    have h0 : focusInst (at_ (inst [all32 1])) = some (inst [all32 1]) := by decide +kernel
    exact (Option.some.inj (h0.symm.trans hb)).symm
  subst this
  exact Or.inr (Or.inr (Or.inr (by decide +kernel)))
/-- A fault of an instance that is alone and of one that is not, with a log and a supervisor. -/
theorem witness_FaultTaking :
    let b := inst [all32 1]
    let s := { chief b with worlds := [(0, { fltlog := 2 ^ 50 + 4 * 2 ^ 8 })] }
    (fail .permission).cause ≠ .stall ∧ Alone s b ∧ ¬ Alone { s with insts := [{ b with seq := 0 }, b] } b ∧ field (worldOf s b.node.w).fltlog.toNat 12 40 ≠ 0 ∧ supervisorOf (ctxOf s b.node.w b.node.x) ≠ none
    ∧ (ctxOf s b.node.w b.node.x).resident = true ∧ b ∈ s.insts ∧ b.begun = false := by
  refine ⟨by decide, by unfold Alone; decide +kernel, by unfold Alone; decide +kernel, by decide +kernel, by decide +kernel, by decide +kernel, List.mem_singleton.mpr rfl, by decide +kernel⟩
/-- The record of a permission fault by node 0's first instruction: its cause code stands in the log. -/
theorem test_fault_record : (match exec (.quotaTag (hd 2) { payQ with qctl := 0x100 }) { linked .scratch (inst [word32 1, word32 1]) with worlds := [(0, { fltlog := 2 ^ 50 + 4 * 2 ^ 8 })] } with
  | .next t => some (byteAt t.mem (2 ^ 50))
  | _ => none) = some (BitVec.ofNat 8 (Cause.code .permission)) := by decide +kernel

/-! ### Clauses that rest on turns, waits and translations -/

/-- A port that takes a token and one that does not: its colour's quota; an ingress open and shut; a fault's turn, taken by a later place. -/
theorem witness_TokenEvents_turns :
    let s := { busy with blocks := [{ cell := 0, node := nid, blk := 0, hdr := 0, code := [], used := 0 }] }
    (∃ pl, placedOf s nid = some pl ∧ portTakes s { node := nid, port := 2 } pl 1 = true ∧ portTakes s { node := nid, port := 2 } pl 9 = false ∧ portTakes busy { node := nid, port := 2 } pl 1 = false)
    ∧ ingressTurn s 0 chan0 0 = true ∧ ingressTurn { s with dev := { s.dev with buckets := [(0, { rate := 1, level := 0 })] } } 0 chan0 0 = false
    ∧ inTurn s .fault nid (faultPlace 0 0) = true ∧ inTurn (takeTurn s .fault nid (faultPlace 5 0)) .fault nid (faultPlace 0 0) = false :=
  ⟨⟨_, rfl, by decide +kernel, by decide +kernel, by decide +kernel⟩, by decide +kernel, by decide +kernel, by decide +kernel, by decide +kernel⟩
/-- A miss with its walk to a leaf that fills an entry; a commit in turn for its room and its table change. -/
theorem witness_CellEvents_walk :
    let s := { engines (op0 (.copy (copy0 0))) with tlb := [], cellOwner := [(0, some 0)] }
    missHolder s 0 0 0 0x1000 = some 0 ∧ (colourEntry s 0 0).isSome = true ∧ (match walkCached s (cellSpire 0) 0 0 0x1000 ((colourEntry s 0 0).map (fun e => e.1)).get! with
      | .leaf _ size pb rd _ => rd && region (canonPa s (pb + 0x1000 % pageBytes size)) != none && ownsPa s 0 (canonPa s (pb + 0x1000 % pageBytes size))
      | .bad _ _ => false) = true := by decide +kernel
theorem witness_CellEvents_turns :
    let b := { inst [] with exit := some .fin, effs := [.fmt 0 0] }
    let s := at_ b
    BeginsCommit s b .fin ∧ b.later = [] ∧ roomTurn s b = true ∧ commitTurn s b = true ∧ commitTurn (takeTurn s .format b.node 9) b = false
    ∧ inTurn s .fault b.node (faultPlace b.cell b.pc) = true := ⟨⟨rfl, rfl, fun h => (by cases h), rfl, Nat.le_refl _, rfl⟩, rfl, by decide +kernel, by decide +kernel, by decide +kernel, by decide +kernel⟩
/-- A nest's point that is due and whose operands are there; a GO with no HALT of its tag; a monitor that saw a timeout; a firing that counts. -/
theorem witness_CellEvents_points :
    let r := { nest0 with due := true }
    let c : CtlTok := { go := true, node := nid, tag := tag0, src := none }
    let m : Monitor := { granule := 0, die := 0, cell := 0, seq := 1, deadline := some 5, event := some (.timeout, 4) }
    r.due = true ∧ r.halted = false ∧ nodeCut coded nid = false ∧ frozen coded nid.w nid.x r.tag.colour = false ∧ (nodeCtx coded nid).halted = false
    ∧ (placedOf coded nid).any (fun p => setComplete coded nid (entryPorts p) r.tag) = true ∧ (∀ y, y ∈ [c] → ¬ (y.here = true ∧ y.go = false ∧ y.node = c.node ∧ y.tag = c.tag))
    ∧ m.event = some (.timeout, 4) ∧ ({ firing0 with counting := some 0 } : Firing).counting ≠ none ∧ m.sees 4 .write = { m with event := some (.write, 4) } := by
  refine ⟨rfl, rfl, by decide +kernel, by decide +kernel, by decide +kernel, by decide +kernel, ?_, rfl, by decide, rfl⟩
  intro y hy h; rw [List.mem_singleton.mp hy] at h; cases h.2.1
/-- The belfry's next context is launched; requests to a world in ERROR. -/
theorem witness_BelfryEvents_launched :
    let s := { bells with ctxs := [(2, { launched := true })] }
    (ctxOf s 0 2).launched = true ∧ (ctxOf bells 0 2).launched = false ∧ (({ prot := true, tdi := .error } : World).prot = true ∧ ({ prot := true, tdi := .error } : World).tdi = .error) := by decide +kernel
/-- A binding whose descriptor and program keep their rules: 16 ids, one candidate, no table, and the program END, whose word is 0; and a commit of id 3. -/
def bound : State :=
  { engines (op0 (.copy (copy0 0))) with
    mem := wordsAt (tables ++ [(2 ^ 50 + 0x700, 0x780), (2 ^ 50 + 0x708, 0x7C0), (2 ^ 50 + 0x710, 16 + 2 ^ 48)])
    wtype := [], lanterns := [(0, { binds := [(0, 0, 0x700)] })] }
theorem witness_LanternEvents_binding :
    bindOf bound 0 0 0 = some 0x700 ∧ (∃ x, loadSeq (devByte bound 0 0) 0x700 = .ok x ∧ (x.1.vlim == 16 && x.1.ntab == 0) = true) ∧ (∃ l, readTable (devByte bound 0 0) 0x7C0 0 = .ok l ∧ l.isEmpty = true)
    ∧ (∃ x, commitTable bound 0 0 0x700 [3] = .ok x ∧ (x.2.1 == 1 && x.2.2 == 0) = true) :=
  ⟨by decide +kernel, okWith (by decide +kernel), okWith (by decide +kernel), okWith (by decide +kernel)⟩
/-- An ABORT that waits for the decision whose outcome is due; a purge of a resident context. -/
theorem witness_QueueEvents_abort :
    let s := queued 1 [5, 0 + 9 * 2 ^ 32] [task0 .queued [] []]
    let y := owning { s with worlds := [(0, { worldOf s 0 with decision := some { decision0 0 with outcome := some (.pick 9) } })] }
    abortWaits y 0 0 = true ∧ abortWaits s 0 0 = false ∧ (nextPkt (queued 1 [5, 2] []) 0 0).isSome = true ∧ (ctxOf { queued 1 [5, 2] [] with ctxs := [(0, { resident := true })] } 0 0).resident = true := by decide +kernel
/-- What the requests to SP ask of the cycle: CREATE before GRANT. -/
theorem witness_SecurityEvents_turns :
    let s := ready 1
    requestTurn s (.create 0 true false [] []) = true ∧ requestTurn { s with turns := mput (0, 0) s.turns requestKey (s.now + 1, requestRank (.grant 0 [] [])) } (.create 0 true false [] []) = false := by decide +kernel
/-- An image of the context at its place, header, tag and no body, of a task that is placed again. -/
def arena0 : Nat := 2 ^ 50 + 2 ^ 41
def saved0 : Saved :=
  { pa := arena0, header := [2 ^ 12, 1, 0, 0, 1, 0], key := 5, at_ := 0, pswap := false, ctx := { epoch := 1 }, ptoks := [], outq := [], srcq := [], firings := [], invs := [], nests := [], goWaits := [], groups := []
    hregs := [], counters := [], planes := [], streams := [], scratch := [], drains := [], binds := [] }
def restoring : State :=
  let s := cutting none []
  { s with
    mem := putBytes (wordsAt [(arena0, 2 ^ 12), (arena0 + 8, 1), (arena0 + 32, 1)]) ((List.range 16).map (fun i => (arena0 + 48 + i, Config.cipherByte 5 i)))
    images := [(arena0, some saved0)], ctxs := [(0, { resident := true, task := 9, spires := [0] })]
    worlds := [(0, { worldOf s 0 with tasks := [{ task0 .launching [0] [1] with saved := true }], nctr := [(0, 1)] })] }
theorem witness_CutEvents_restore :
    findTask restoring 0 9 = some { task0 .launching [0] [1] with saved := true } ∧ (ctxOf restoring 0 0).resident = true ∧ (ctxOf restoring 0 0).launched = false ∧ attached restoring 0 = true ∧ levelCheck restoring 0 arena0 0 = none
    ∧ arenaOf restoring { w := 0, x := 0 } = (arena0, 40) ∧ arenaReach restoring 0 arena0 64 = true ∧ (List.range 6).map (word8 restoring.mem arena0) = saved0.header ∧ mget 0 (worldOf restoring 0).nctr 0 = 1
    ∧ mget none restoring.images arena0 = some saved0 ∧ saved0.skey = (worldOf restoring 0).saveKey ∧ (∀ i, i < 16 → byteAt restoring.mem (arena0 + 48 + i) = Config.cipherByte saved0.key i) ∧ saved0.drains = [] ∧ saved0.binds = [] := by
  have hw : ∀ i, i < 6 → word8 restoring.mem arena0 i = word8 (wordsAt [(arena0, 2 ^ 12), (arena0 + 8, 1), (arena0 + 32, 1)]) arena0 i := by
    intro i hi
    refine readLE_putBytes_other _ _ _ _ ?_
    intro c hc
    obtain ⟨j, hj, rfl⟩ := List.mem_map.mp hc
    have := List.mem_range.mp hj
    right; show arena0 + 8 * i + 8 ≤ arena0 + 48 + j; omega
  have hb : ∀ i, i < 16 → byteAt restoring.mem (arena0 + 48 + i) = Config.cipherByte saved0.key i := by
    intro i hi
    exact byteAt_putBytes_same _ _ (by simp only [List.map_map]; decide +kernel) (List.mem_map.mpr ⟨i, List.mem_range.mpr hi, rfl⟩)
  refine ⟨by decide +kernel, by decide +kernel, by decide +kernel, by decide +kernel, by decide +kernel, by decide +kernel, by decide +kernel, ?_, by decide +kernel, by decide +kernel, by decide +kernel, hb, rfl, rfl⟩
  rw [List.map_congr_left (g := word8 (wordsAt [(arena0, 2 ^ 12), (arena0 + 8, 1), (arena0 + 32, 1)]) arena0) (fun i hi => hw i (List.mem_range.mp hi))]
  decide +kernel
/-- Registers of BAR 0 to read, and a comparator whose cell no protected world owns. -/
theorem witness_RegisterEvents_read :
    let s := { ready 1 with agenda := [.readBar 0x100] }
    s.agenda = [.readBar 0x100] ∧ s.dev.ready.getLsbD 0 = true ∧ (worldOf s 0).prot = false ∧ mget none s.cellOwner 0 = none := by decide +kernel

/-- QBLK from FP32 to a block entry, and the system forms on a supervisor's node; each event of a queue in a state of its own. -/
theorem witness_SystemAndQueueFormsComplete :
    let b := inst [all32 0x3F800000]
    Fires (hd 1 (.chan 3)) (k0Const 0) (chief b) b [all32 0x3F800000] ∧ Plain (entryWord (chief b) b 0) ∧ contW (entryWord (chief b) b 0) = 32 ∧ (∃ i, i < 16 ∧ legalEntry (entryWord (chief b) b i) = true ∧ (Fmt.ofWord (entryWord (chief b) b i)).block ≠ 0)
    ∧ Fires (hd 0) (k0Const 0) (chief (inst [])) (inst []) [] ∧ (inst []).fetched ≠ some (chief (inst [])).now ∧ (∀ c, c ∈ ctxCells (nodeCtx (chief (inst [])) (inst []).node) → (inst []).sync ≤ reachOf (chief (inst [])) 0 0 c)
    ∧ (∀ g, g ∈ heldGens (chief (inst [])) 0 0 (fun y => y.cell == 0 && decide (1 ≤ y.seq)) → (inst []).sync ≤ g) ∧ Alone (chief (inst [])) (inst [])
    ∧ inTurn (chief (inst [])) .fault (inst []).node (faultPlace 0 0) = true ∧ MemFires (hd 1) (paged .scratch (inst [addr 0x700])) (inst [addr 0x700]) [addr 0x700] :=
  ⟨⟨⟨rfl, rfl, rfl⟩, by decide +kernel, by decide +kernel⟩, ⟨by decide +kernel, by decide +kernel⟩, by decide +kernel, by decide +kernel, ⟨⟨rfl, rfl, rfl⟩, by decide +kernel, by decide +kernel⟩, by decide +kernel, by decide +kernel, by decide +kernel, by unfold Alone; decide +kernel, by decide +kernel, paged_mem (by decide +kernel) (by decide +kernel)⟩
theorem witness_SystemAndQueueFormsComplete_queue :
    let p (t : Nat) : Pkt := { idx := 0, ty := 2, task := 0, cmpla := none, done := false, consumed := false, since := t }
    let s (st : Nat) : State := queued st [2, 0, 2, 9, 1, 0, 0, 0] []
    let y : State := { s 1 with worlds := [(0, { worldOf (s 1) 0 with queues := [(0, { st := 1, pkts := [p 0] })] })], now := 1024 }
    openWait y 0 0 = some (p 0) ∧ (waitTest y 0 (pktWord y 0 0 0)).toOption = some true ∧ field (pktWord y 0 0 0 4) 0 32 ≠ 0 ∧ (p 0).since + 1024 * field (pktWord y 0 0 0 4) 0 32 ≤ y.now
    ∧ (queueOf (s 0) 0 0).st = 0 ∧ qdescOk (s 0) 0 0 = true ∧ (∀ d, d < 4 → (s 0).dev.ready.getLsbD (2 + d) = true) ∧ (queueOf (s 2) 0 0).st = 2 ∧ (queueOf (s 3) 0 0).st = 3 := by decide +kernel

/-! ### The manual's worked examples -/

/-- Narrowing to BF16 (chapter 07): slots 0 to 2 under RNE and RTZ, and slot 3 not valid. -/
def narrow (r : Rnd) : Result := exec (.cvpk2 { hd 2 (.operand 1 0) with rnd := r } { payV with dfmt := 1 }) (at_ (inst [firstSlots [0x3F808000, 0x7F7FFFFF, 0x7F800001, 0x00080000], firstSlots [0x80000000, 0xBFC00000, 0x40400000]]))
theorem test_narrow_rne : (List.range 4).map (fun k => got 32 k (narrow .dflt)) = [some 0x80003F80, some 0xBFC07F80, some 0x40407FC0, none] := by decide +kernel
theorem test_narrow_rtz : (List.range 4).map (fun k => got 32 k (narrow .rtz)) = [some 0x80003F80, some 0xBFC07F7F, some 0x40407FC0, none] := by decide +kernel

end Sys2Proof.Tests
end

section
namespace Sys2Proof.Proofs
open Sys2Proof Sys2Proof.Machine Sys2Proof.Claims Sys2Proof.Laws

/-! ### Cold reset (R5) -/

/-- No decision of the scheduler has anything to do after a cold reset. -/
theorem forced_reset (w : BitVec 4) : forced State.reset w = none := rfl

/-- A cycle that passes after a cold reset moves the clock alone. -/
theorem tick_reset : tick State.reset 1 = { State.reset with now := 1 } := by
  unfold tick
  rw [List.findSome?_eq_none_iff.2 fun w _ => forced_reset w]
  rfl

/-- Nothing is on the agenda or in focus after a cold reset, so a step lets a cycle pass. -/
theorem step_reset : step State.reset = .next { State.reset with now := 1 } :=
  congrArg Host.Outcome.next tick_reset

/-- Settles O55: every field of the reset state is at its default. -/
theorem resetState : Obligations.ResetState := by
  unfold Obligations.ResetState
  exact ⟨rfl, fun _ => ⟨rfl, rfl, rfl⟩, fun _ => ⟨rfl, rfl, rfl⟩,
    fun _ => ⟨rfl, rfl, rfl, rfl, rfl, rfl, rfl, rfl, rfl, rfl, rfl⟩,
    rfl, fun _ _ => ⟨rfl, rfl, rfl, rfl⟩, fun _ => ⟨rfl, rfl⟩, fun _ => ⟨rfl, rfl⟩,
    rfl, rfl, rfl, rfl, rfl, rfl, rfl, rfl, step_reset⟩

end Sys2Proof.Proofs
end

section
namespace Sys2Proof.Proofs
open Sys2Proof Sys2Proof.Machine Sys2Proof.Claims Sys2Proof.Laws

/-! ### Words read back from the instructions they decode to (R6, R86) -/

/-- The word of a main instruction that decodes, or the two of a loop nest, are the encoding of that well-formed
instruction: the header and the payload give back their halves, and `table_inv` the op's row. -/
theorem decodeMain_back {w v : Nat} {i : Instr} (hw : w < 2 ^ 128) (hv : v < 2 ^ 128) (hd : decodeMain w v = .ok i) :
    i.wf = true ∧ (encode i = some (128, w) ∨ encode i = some (256, w + 2 ^ 128 * v)) := by
  unfold decodeMain at hd
  split at hd
  · split at hd <;> cases hd
  next op h hh =>
    split at hd
    · cases hd
    · cases hd
    next j ht =>
      split at hd
      next hwf =>
        cases hd
        have hhead : pack (h.fields op) = w / 2 ^ 64 := by
          rw [(Hdr.back (Nat.mod_lt _ (by decide)) hh).1]
          exact Nat.mod_eq_of_lt (by omega)
        have hrow := table_inv op h (w % 2 ^ 64) v i (Nat.mod_lt _ (by decide)) hv ht
        rw [hhead, Nat.mod_add_div] at hrow
        exact ⟨hwf, hrow⟩
      · cases hd

/-- What a decoder's check lets through: the check holds, and the instruction is the one it guards. -/
theorem ok_of_check {c : Prop} [Decidable c] {i j : Instr} {r : Reject} (h : (if c then .ok j else .error r) = Except.ok i) :
    c ∧ i = j := by
  split at h
  next hc => cases h; exact ⟨hc, rfl⟩
  · cases h

/-- A logit word is packed again from the fields that its decoder reads, each within its width. -/
theorem logitWord_of_unpack {w : Nat} (hw : w < 2 ^ 64) {imm c b a d op : Nat}
    (hu : unpack [32, 15, 3, 3, 3, 3, 5] w = [imm, 0, c, b, a, d, op]) :
    w = logitWord op d a b c imm ∧ imm < 2 ^ 32 ∧ c < 2 ^ 3 ∧ b < 2 ^ 3 ∧ a < 2 ^ 3 ∧ d < 2 ^ 3 := by
  have hp := pack_unpack [32, 15, 3, 3, 3, 3, 5] w hw
  rw [hu] at hp
  simp only [unpack, List.cons.injEq, and_true] at hu
  exact ⟨hp.symm, by omega⟩

theorem decodeLogit_back {w : Nat} {i : Instr} (hw : w < 2 ^ 64) (hd : decodeLogit w = .ok i) :
    i.wf = true ∧ encode i = some (64, w) := by
  unfold decodeLogit at hd
  split at hd
  next imm rsv c b a d op hu =>
    dsimp only at hd
    split at hd
    case h_22 => cases hd
    all_goals
      obtain ⟨⟨rfl, hc, hb, ha, hd', hi⟩, rfl⟩ := ok_of_check hd
      simp only [true_or, false_or, Bool.false_eq_true] at hc hb ha hd' hi
      obtain ⟨rfl, li, lc, lb, la, ld⟩ := logitWord_of_unpack hw hu
      exact ⟨rfl, by simp only [encode, BitVec.toNat_ofNat, Nat.mod_eq_of_lt, *]⟩
  · cases hd

/-- A policy word is packed again from the fields that its decoder reads in register form, each within its width. -/
theorem polReg_of_unpack {w : Nat} (hw : w < 2 ^ 32) {b a d op : Nat} (hu : unpack [14, 4, 4, 4, 6] w = [0, b, a, d, op]) :
    w = polReg op d a b ∧ b < 2 ^ 4 ∧ a < 2 ^ 4 ∧ d < 2 ^ 4 := by
  have hp := pack_unpack [14, 4, 4, 4, 6] w hw
  rw [hu] at hp
  simp only [unpack, List.cons.injEq, and_true] at hu
  exact ⟨hp.symm, by omega⟩

/-- A policy word is packed again from OP, D and A as the register form shows them and the fields of the immediate form. -/
theorem polImm_of_unpack {w : Nat} {low b a d op imm : Nat} (hw : w < 2 ^ 32) (hu : unpack [14, 4, 4, 4, 6] w = [low, b, a, d, op])
    (hi : unpack [16, 2] w = [imm, 0]) : w = polImm op d a imm ∧ imm < 2 ^ 16 ∧ a < 2 ^ 4 ∧ d < 2 ^ 4 := by
  simp only [unpack, List.cons.injEq, and_true] at hu hi
  refine ⟨?_, by omega⟩
  simp only [polImm, pack]
  omega

theorem decodePolicy_back {w : Nat} {i : Instr} (hw : w < 2 ^ 32) (hd : decodePolicy w = .ok i) :
    i.wf = true ∧ encode i = some (32, w) := by
  unfold decodePolicy at hd
  split at hd
  next low b a d op imm zz hu hi =>
    dsimp only at hd
    split at hd
    case h_34 => cases hd
    case h_1 | h_2 | h_3 | h_4 | h_5 | h_6 | h_7 | h_8 | h_9 | h_10 | h_11 | h_12 | h_13 =>
      obtain ⟨hc, rfl⟩ := ok_of_check hd
      simp only [Bool.and_eq_true, beq_iff_eq] at hc
      obtain ⟨rfl, hwf⟩ := hc
      obtain ⟨rfl, lb, la, ld⟩ := polReg_of_unpack hw hu
      exact ⟨hwf, by simp only [encode, BitVec.toNat_ofNat, Nat.mod_eq_of_lt, *]⟩
    all_goals
      obtain ⟨hc, rfl⟩ := ok_of_check hd
      simp only [Bool.and_eq_true, beq_iff_eq, and_assoc] at hc
      obtain ⟨rfl, hc⟩ := hc
      obtain ⟨hword, li, la, ld⟩ := polImm_of_unpack hw hu hi
      refine ⟨by simp only [hc], ?_⟩
      simp only [encode, BitVec.toNat_ofNat, Nat.mod_eq_of_lt, li, la, ld, hc, hword]
  · cases hd

/-- Settles O52: each of the three decoders drops no bit of a word. -/
theorem decodedWordsEncodeBack : Obligations.DecodedWordsEncodeBack := by
  unfold Obligations.DecodedWordsEncodeBack
  exact ⟨fun _ _ _ => decodeMain_back, fun _ _ => decodeLogit_back, fun _ _ => decodePolicy_back⟩

end Sys2Proof.Proofs
end

section
namespace Sys2Proof.Proofs
open Sys2Proof Sys2Proof.Machine Sys2Proof.Claims Sys2Proof.Laws

/-! ### Registers of BAR 0 (R4, R363, R376, R378, R379, R385, R394, R399, R406, R408, R409) -/

theorem spReady_false {s : State} (h : s.dev.ready.getLsbD 0 = false) : ¬ spReady s = true := by
  rw [show spReady s = s.dev.ready.getLsbD 0 from rfl, h]; simp

/-- Before SP is ready no write of a register has an effect (R408). -/
theorem writes_ignored_before_sp {s : State} (h : s.dev.ready.getLsbD 0 = false) (a : BitVec 16) (v : Word64) (i : BitVec 5)
    (m : Word64) (k w : BitVec 4) (on : Bool) :
    exec (.registerWrite a v) s = .next s ∧ exec (.badcClear i) s = .next s ∧ exec (.qspireClear m) s = .next s
      ∧ exec (.bkptStep k) s = .next s ∧ exec (.bkptDisarm k) s = .next s ∧ exec (.debugBreakWrite w on) s = .next s := by
  have hn := spReady_false h
  have hb : (!spReady s) = true := by simpa using hn
  exact ⟨congrArg _ (if_neg hn), congrArg _ (if_neg hn), congrArg _ (if_neg hn), congrArg _ (if_pos hb), congrArg _ (if_pos hb),
    congrArg _ (if_neg hn)⟩

/-- Where `writeBar` finds no register it changes nothing. -/
theorem writeBar_elsewhere (s : State) (o : Nat) (v : Word64) (h8 : o ≠ 8) (h7 : o ≠ 0x700)
    (h : ∀ i, ¬ ((i < 16 ∧ o = 0x100 + 8 * i) ∨ (i < 32 ∧ o = 0x200 + 8 * i) ∨ (i < 16 ∧ o = 0x300 + 8 * i) ∨ (i < 64 ∧ o = 0x400 + 8 * i)
      ∨ (i < 32 ∧ o = 0x600 + 8 * i) ∨ (i < 4 ∧ o = 0x800 + 8 * i) ∨ (i < 384 ∧ o = 0x1000 + 8 * i))) : writeBar s o v = s := by
  unfold writeBar
  by_cases hm : o % 8 = 0
  case neg => exact if_pos hm
  have hat : ∀ base n, base % 8 = 0 → (∀ i, ¬ (i < n ∧ o = base + 8 * i)) → ¬ (decide (base ≤ o) && decide (o < base + 8 * n)) = true := by
    intro base n hb hno hin
    simp only [Bool.and_eq_true, decide_eq_true_eq] at hin
    exact hno ((o - base) / 8) ⟨by omega, by omega⟩
  simp only [not_or] at h
  dsimp only
  rw [if_neg (by omega), if_neg h8, if_neg (hat _ _ rfl fun i => (h i).1), if_neg (hat _ _ rfl fun i => (h i).2.1),
    if_neg (hat _ _ rfl fun i => (h i).2.2.1), if_neg (hat _ _ rfl fun i => (h i).2.2.2.1), if_neg (hat _ _ rfl fun i => (h i).2.2.2.2.1),
    if_neg h7, if_neg (hat _ _ rfl fun i => (h i).2.2.2.2.2.1), if_neg (hat _ _ rfl fun i => (h i).2.2.2.2.2.2)]

theorem writeBar_domid (s : State) (v : Word64) : writeBar s 8 v = writeDomid s v := by
  unfold writeBar; rfl

theorem writeBar_qspire (s : State) (v : Word64) : writeBar s 0x700 v = writeQspire s v := by
  unfold writeBar; rfl

/-- A field of a number is 0 when each of its bits is. -/
theorem field_eq_zero_iff (x lo n : Nat) : field x lo n = 0 ↔ ∀ p, p < n → x.testBit (lo + p) = false := by
  unfold field
  constructor
  · intro h p hp
    have hb := Nat.testBit_mod_two_pow (x / 2 ^ lo) n p
    rw [h, Nat.zero_testBit, Nat.testBit_div_two_pow, decide_eq_true hp, Bool.true_and] at hb
    rw [Nat.add_comm]; exact hb.symm
  · intro h
    apply Nat.eq_of_testBit_eq
    intro p
    rw [Nat.testBit_mod_two_pow, Nat.testBit_div_two_pow, Nat.zero_testBit]
    by_cases hp : p < n
    · rw [Nat.add_comm p lo, h p hp, Bool.and_false]
    · rw [decide_eq_false hp, Bool.false_and]

/-- A write of DOMID waits for no FRAUTH port and a number that a device may have (R406). -/
theorem writeDomid_spec (s : State) (v : Word64) :
    let free := field v.toNat 0 9 ≤ 383 ∧ ∀ p, p < 18 → s.dev.ready.getLsbD (22 + p) = false
    (free → writeDomid s v = { s with dev := { s.dev with domid := field v.toNat 0 9 } }) ∧ (¬ free → writeDomid s v = s) := by
  intro free
  have hports : bits s.dev.ready.toNat 39 22 = 0 ↔ ∀ p, p < 18 → s.dev.ready.getLsbD (22 + p) = false := field_eq_zero_iff _ 22 18
  have hiff : (bits s.dev.ready.toNat 39 22 ≠ 0 ∨ 383 < bits v.toNat 8 0) ↔ ¬ free := by
    rw [Ne, hports, Classical.not_and_iff_not_or_not, Nat.not_le, or_comm]; rfl
  exact ⟨fun h => if_neg fun hc => hiff.1 hc h, fun h => if_pos (hiff.2 h)⟩

/-- A write of WQOS: 0 is ignored (R363). -/
theorem writeWqos_spec (s : State) (i : Nat) (v : Word64) : let n := field v.toNat 0 8
    (n = 0 → writeWqos s i v = s) ∧ (n ≠ 0 → ∃ m, writeWqos s i v = { s with dev := { s.dev with wqos := m } } ∧ mget 16 m i = n
      ∧ ∀ j, j ≠ i → mget 16 m j = mget 16 s.dev.wqos j) :=
  ⟨fun h => if_pos h, fun h => ⟨_, if_neg h, mget_mput_same _ _ _ _, fun _ hj => mget_mput_other _ _ hj _⟩⟩

/-- A write of DBGW is ignored for a protected world (R362, R385). -/
theorem putBreak_protected {s : State} {w : BitVec 4} (on : Bool) (h : (worldOf s w).prot = true) : putBreak w on s = s := if_pos h

theorem keepBits_eq (v : Word64) (hi lo : Nat) : keepBits v hi lo = field v.toNat lo (hi + 1 - lo) * 2 ^ lo := rfl

/-- A write of SAVE changes one of a world's two words (R394). -/
theorem writeSave_spec (s : State) (w j : Nat) (v : Word64) : ∃ m, writeSave s w j v = { s with dev := { s.dev with saves := m } }
    ∧ (∀ k, k ≠ w → mget (0, 0) m k = mget (0, 0) s.dev.saves k)
    ∧ (j = 0 → (mget (0, 0) m w).2 = (mget (0, 0) s.dev.saves w).2 ∧ (mget (0, 0) m w).1.toNat = field v.toNat 12 40 * 2 ^ 12 + field v.toNat 0 6)
    ∧ (j ≠ 0 → (mget (0, 0) m w).1 = (mget (0, 0) s.dev.saves w).1 ∧ (mget (0, 0) m w).2.toNat = field v.toNat 0 16) := by
  refine ⟨_, rfl, fun k hk => mget_mput_other _ _ hk _, fun hj => ?_, fun hj => ?_⟩
  · rw [mget_mput_same, if_pos hj, keepBits_eq, keepBits_eq, Nat.pow_zero, Nat.mul_one]
    refine ⟨rfl, word_of _ ?_⟩
    unfold field; omega
  · rw [mget_mput_same, if_neg hj]
    refine ⟨rfl, word_of _ ?_⟩
    unfold bits; omega

/-- A write of PWR comes after the periods that have passed (R323, R409, assumption 127). -/
theorem writePwr_spec (s : State) (d : Nat) (v : Word64) : let s1 := fillBuckets s
    ∃ m, writePwr s d v = { s1 with dev := { s1.dev with buckets := m } } ∧ (∀ j, j ≠ d → mget {} m j = mget {} s1.dev.buckets j)
      ∧ (let b := mget {} s1.dev.buckets d
        mget {} m d = { b with newRate := field v.toNat 0 16, newDepth := if field v.toNat 32 16 = 0 then b.newDepth else field v.toNat 32 16 }) :=
  ⟨_, rfl, fun _ hj => mget_mput_other _ _ hj _, mget_mput_same _ _ _ _⟩

/-- A write of ROUTE (R406). -/
theorem writeRoute_spec (s : State) (i : Nat) (v : Word64) : ∃ m, writeRoute s i v = { s with dev := { s.dev with routes := m } }
    ∧ (∀ j, j ≠ i → mget 0 m j = mget 0 s.dev.routes j) ∧ (mget 0 m i).toNat = field v.toNat 63 1 * 2 ^ 63 + field v.toNat 0 18 := by
  refine ⟨_, rfl, fun _ hj => mget_mput_other _ _ hj _, ?_⟩
  rw [mget_mput_same, word_of, keepBits_eq, keepBits_eq, Nat.pow_zero, Nat.mul_one]
  rw [keepBits_eq, keepBits_eq]; unfold field; omega

/-- A write of QSPIRE clears the bits written 1 (R399). -/
theorem writeQspire_spec (s : State) (v : Word64) : let t := writeQspire s v
    t = { s with dev := { s.dev with qspire := s.dev.qspire &&& ~~~v }, worlds := t.worlds } := by
  obtain ⟨x, hx⟩ := free_only { s with dev := { s.dev with qspire := s.dev.qspire &&& ~~~v } }
  intro t
  have ht : t = _ := hx
  rw [ht]

/-! ### Comparators (R378, R379, R385) -/

/-- The state with comparator k at x. -/
def withBkpt (s : State) (k : Nat) (x : Bkpt) : State := { s with dev := { s.dev with bkpts := mput {} s.dev.bkpts k x } }

theorem withBkpt_same (s : State) (k : Nat) (x : Bkpt) : mget {} (withBkpt s k x).dev.bkpts k = x := mget_mput_same _ _ _ _

theorem withBkpt_other (s : State) {k n : Nat} (h : n ≠ k) (x : Bkpt) : mget {} (withBkpt s k x).dev.bkpts n = mget {} s.dev.bkpts n :=
  mget_mput_other _ _ h _

/-- A step changes tokens' holds, timers and firings alone. -/
theorem stepBkpt_only (s : State) (k : Nat) : let t := stepBkpt k s
    t = { s with ptoks := t.ptoks, timers := t.timers, firings := t.firings } := (stepped_spec s k).2.2.2

/-- A step keeps every token at its port. -/
theorem stepBkpt_tokens (s : State) (k : Nat) : (stepBkpt k s).ptoks.map keyT = s.ptoks.map keyT := by
  obtain ⟨hnone, hsome, _⟩ := stepped_spec s k
  cases hf : s.ptoks.find? (heldB k) with
  | none =>
    rw [hnone fun x hx => by simpa using List.find?_eq_none.1 hf x hx]
  | some y =>
    obtain ⟨a, b, hs, hy, ha⟩ := find_split _ _ _ hf
    exact (hsome a y b hs hy ha).1

/-- What word 0 of a comparator becomes: its fields as R378 places them. -/
theorem readBkpt_eq (b : Bkpt) (v : Word64) : readBkpt b v =
    { b with v := v.getLsbD 63, hit := b.hit && !v.getLsbD 62, tagm := v.getLsbD 60, valm := v.getLsbD 59
             w := field v.toNat 52 4, port := field v.toNat 48 4, node := field v.toNat 44 4, y := field v.toNat 37 7, x := field v.toNat 30 7 } := by
  unfold readBkpt
  dsimp only
  rw [bit_eq, bit0_eq, bit_eq, bit_eq]
  rfl

theorem writeBkpt_refused {s : State} {k : Nat} {v : Word64} (h : v.getLsbD 63 = true ∨ v.getLsbD 61 = true)
    (hg : guarded s (readBkpt (mget {} s.dev.bkpts k) v) = true) : writeBkpt s k 0 v = refuseDebug s := by
  have hv : (readBkpt (mget {} s.dev.bkpts k) v).v = v.getLsbD 63 := bit_eq v 63
  exact if_pos (by rw [hv, hg, Bool.and_true, Bool.or_eq_true]; exact h)

/-- A write of word 0 that is not refused arms the comparator, makes a step where STEP is 1, and releases every token where V is 0. -/
theorem writeBkpt_accepted {s : State} {k : Nat} {v : Word64}
    (h : ¬ ((v.getLsbD 63 = true ∨ v.getLsbD 61 = true) ∧ guarded s (readBkpt (mget {} s.dev.bkpts k) v) = true)) :
    let p := withBkpt s k (readBkpt (mget {} s.dev.bkpts k) v)
    let s1 := if v.getLsbD 61 then stepBkpt k p else p
    writeBkpt s k 0 v = if v.getLsbD 63 then s1 else releaseAll k s1 := by
  have hv : (readBkpt (mget {} s.dev.bkpts k) v).v = v.getLsbD 63 := bit_eq v 63
  intro p s1
  rw [← hv]
  exact if_neg (by rw [hv, Bool.and_eq_true, Bool.or_eq_true]; exact h)

/-- The tokens that comparator k held are released, and each stays at its port. -/
def Releases (s t : State) (k : Nat) : Prop := (∀ x, x ∈ t.ptoks → heldB k x = false) ∧ t.ptoks.map keyT = s.ptoks.map keyT

/-- The BRK firings of the node that comparator k names fire afresh with BRK off. -/
def FreesBrk (s t : State) (k : Nat) : Prop :=
  ∀ f, f ∈ s.firings → f.kind = .brk → (let c := mget {} s.dev.bkpts k
    f.node.w.toNat = c.w → (∃ p, placedOf s f.node = some p ∧ p.node = c.node ∧ cellX p.cell = c.x ∧ cellY p.cell = c.y) →
      { f with kind := .fresh, brkOff := true, counting := some s.now } ∈ t.firings)

/-- A step of comparator k: the oldest token it holds is released, every other hold stays, and BRK firings of its node fire afresh. -/
def Steps (s t : State) (k : Nat) : Prop :=
  ((∀ x, x ∈ s.ptoks → heldB k x = false) → t.ptoks = s.ptoks)
  ∧ (∀ a y b, s.ptoks = a ++ y :: b → heldB k y = true → (∀ x, x ∈ a → heldB k x = false) →
    t.ptoks.map keyT = s.ptoks.map keyT ∧ t.ptoks[a.length]? = some { y with bkpt := none }
    ∧ ∀ n x z, n ≠ a.length → s.ptoks[n]? = some x → t.ptoks[n]? = some z → x.bkpt.map (fun b => b.1) = z.bkpt.map (fun b => b.1))
  ∧ FreesBrk s t k

theorem stepBkpt_steps (s : State) (k : Nat) : Steps s (stepBkpt k s) k :=
  have ⟨hnone, hsome, hfree, _⟩ := stepped_spec s k
  ⟨hnone, hsome, hfree⟩

/-- What an accepted write of word 0 leaves: the comparator, the tokens, and the firings (R378, R379, R385). -/
theorem writeBkpt_spec {s : State} {k : Nat} {v : Word64}
    (h : ¬ ((v.getLsbD 63 = true ∨ v.getLsbD 61 = true) ∧ guarded s (readBkpt (mget {} s.dev.bkpts k) v) = true)) :
    let t := writeBkpt s k 0 v
    let p : State := { s with dev := t.dev }
    mget {} t.dev.bkpts k = readBkpt (mget {} s.dev.bkpts k) v ∧ (v.getLsbD 63 = false → Releases s t k)
      ∧ (v.getLsbD 61 = true → FreesBrk p t k) ∧ (v.getLsbD 63 = true → v.getLsbD 61 = true → Steps p t k)
      ∧ (v.getLsbD 63 = true → v.getLsbD 61 = false → t.ptoks = s.ptoks) ∧ (v.getLsbD 61 = false → t.firings = s.firings) := by
  intro t p
  let q := withBkpt s k (readBkpt (mget {} s.dev.bkpts k) v)
  let s1 := if v.getLsbD 61 then stepBkpt k q else q
  have ht : t = if v.getLsbD 63 then s1 else releaseAll k s1 := writeBkpt_accepted h
  obtain ⟨hheld, htok, honly⟩ := releaseAll_spec k s1
  have hrest : t.dev = s1.dev ∧ t.firings = s1.firings := by
    rw [ht]; split
    · exact ⟨rfl, rfl⟩
    · rw [honly]; exact ⟨rfl, rfl⟩
  obtain ⟨htdev, htfir⟩ := hrest
  have hwhole : v.getLsbD 63 = true → t = s1 := fun h3 => ht.trans (if_pos h3)
  have hrel : v.getLsbD 63 = false → t = releaseAll k s1 := fun h3 => ht.trans (if_neg (by rw [h3]; exact Bool.false_ne_true))
  have hstep : v.getLsbD 61 = true → s1 = stepBkpt k q := fun h1 => if_pos h1
  have hkeep : v.getLsbD 61 = false → s1 = q := fun h1 => if_neg (by rw [h1]; exact Bool.false_ne_true)
  have hdev : s1.dev = q.dev := by
    unfold s1; split
    · rw [stepBkpt_only q k]
    · rfl
  have hmap : s1.ptoks.map keyT = s.ptoks.map keyT := by
    unfold s1; split
    · exact stepBkpt_tokens q k
    · rfl
  have hp : p = q := by unfold p; rw [htdev, hdev]; rfl
  refine ⟨by rw [htdev, hdev]; exact withBkpt_same _ _ _, fun h3 => ?_, fun h1 => ?_, fun h3 h1 => ?_, fun h3 h1 => ?_, fun h1 => ?_⟩
  · rw [hrel h3]; exact ⟨hheld, htok.trans hmap⟩
  · unfold FreesBrk
    rw [htfir, hp, hstep h1]
    exact (stepBkpt_steps q k).2.2
  · rw [hp, hwhole h3, hstep h1]; exact stepBkpt_steps q k
  · rw [hwhole h3, hkeep h1]; rfl
  · rw [htfir, hkeep h1]; rfl

theorem writeBkpt_word (s : State) (k j : Nat) (v : Word64) (h0 : 0 < j) (h4 : j < 4) : let b := mget {} s.dev.bkpts k
    writeBkpt s k j v = withBkpt s k (if j = 1 then { b with w1 := v } else if j = 2 then { b with w2 := v } else { b with vslot := field v.toNat 0 4 }) := by
  obtain rfl | rfl | rfl : j = 1 ∨ j = 2 ∨ j = 3 := by omega
  all_goals rfl

/-- A write of a register's place comes to the write of the register. -/
theorem registerWrite_at {s t : State} {a : BitVec 16} {v : Word64} {o : Nat} (hs : s.dev.ready.getLsbD 0 = true) (ha : a.toNat = o)
    (h : writeBar s o v = t) : exec (.registerWrite a v) s = .next t := by
  rw [rw_next hs, ha, h]

section
variable {s : State} (hs : s.dev.ready.getLsbD 0 = true)
include hs

theorem not_spReady_false : ¬ (!spReady s) = true := by
  rw [show spReady s = true from hs]; exact Bool.false_ne_true

theorem badcClear_next (i : BitVec 5) : exec (.badcClear i) s = .next (writeBadc s i.toNat (withBit (mget 0 s.dev.badc i.toNat) 31 false)) :=
  congrArg Host.Outcome.next (if_pos hs)

theorem qspireClear_next (m : Word64) : exec (.qspireClear m) s = .next (writeQspire s m) :=
  congrArg Host.Outcome.next (if_pos hs)

theorem bkptStep_next (k : BitVec 4) :
    exec (.bkptStep k) s = .next (if guarded s (mget {} s.dev.bkpts k.toNat) then refuseDebug s else stepBkpt k.toNat s) :=
  congrArg Host.Outcome.next (if_neg (not_spReady_false hs))

theorem bkptDisarm_next (k : BitVec 4) :
    exec (.bkptDisarm k) s = .next (releaseAll k.toNat (withBkpt s k.toNat { mget {} s.dev.bkpts k.toNat with v := false })) :=
  congrArg Host.Outcome.next (if_neg (not_spReady_false hs))

theorem debugBreakWrite_next (w : BitVec 4) (on : Bool) : exec (.debugBreakWrite w on) s = .next (putBreak w on s) :=
  congrArg Host.Outcome.next (if_pos hs)

end

/-- A read of BAR 0 is answered with the register's value once SP is ready (R4). -/
theorem step_readBar {s : State} {a : Nat} {l : List Move} (hs : s.dev.ready.getLsbD 0 = true) (h : s.agenda = .readBar a :: l) :
    step s = .next { s with agenda := l, outputs := s.outputs ++ [.mmio (readBar s a)] } := by
  have hm : moveOnly { s with agenda := l } (.readBar a) = { s with agenda := l, outputs := s.outputs ++ [.mmio (readBar s a)] } :=
    if_pos (show spReady s = true from hs)
  unfold step
  rw [h]
  exact congrArg _ hm

/-- The words of comparator i as they are read (R378). -/
theorem readBar_bkpt (s : State) (i j : Nat) (hi : i < 16) (hj : j < 4) :
    readBar s (0x400 + 32 * i + 8 * j) = bkptWord (mget {} s.dev.bkpts i) j := by
  have h := read_bkpt s (4 * i + j) (by omega)
  rwa [show 1024 + 8 * (4 * i + j) = 0x400 + 32 * i + 8 * j by omega, show (4 * i + j) / 4 = i by omega, show (4 * i + j) % 4 = j by omega] at h

/-- The two words of SAVE as they are read (R394). -/
theorem readBar_save (s : State) (i j : Nat) (hi : i < 16) (hj : j < 2) :
    readBar s (0x600 + 16 * i + 8 * j) = if j = 0 then (mget (0, 0) s.dev.saves i).1 else (mget (0, 0) s.dev.saves i).2 := by
  have h := read_save s (2 * i + j) (by omega)
  rwa [show 1536 + 8 * (2 * i + j) = 0x600 + 16 * i + 8 * j by omega, show (2 * i + j) / 2 = i by omega, show (2 * i + j) % 2 = j by omega] at h

/-- Settles O47: each register's write by the lemma on its own write function, and each read by that register's read. -/
theorem registerEvents : Obligations.RegisterEvents := by
  unfold Obligations.RegisterEvents
  refine ⟨fun s a v i m k w on h => writes_ignored_before_sp h a v i m k w on, fun s hs => ⟨?_, ?_, ?_, ?_, ?_, ?_, ?_, ?_, ?_⟩⟩
  · intro a v
    refine ⟨?_, ?_, ?_, ?_, ?_, ?_, ?_, ?_, ?_, ?_, ?_⟩
    · rintro ⟨h8, h7, h⟩
      exact registerWrite_at hs rfl (writeBar_elsewhere s _ v h8 h7 h)
    · intro ho
      obtain ⟨hfree, hbusy⟩ := writeDomid_spec s v
      rw [registerWrite_at hs ho (writeBar_domid s v)]
      exact ⟨fun h => congrArg _ (hfree h), fun h => congrArg _ (hbusy h)⟩
    · rintro i ⟨hi, ho⟩
      obtain ⟨hzero, hother⟩ := writeWqos_spec s i v
      rw [registerWrite_at hs ho (bar_wqos s v i hi)]
      refine ⟨fun h => congrArg _ (hzero h), fun h => ?_⟩
      obtain ⟨m, hm, hrest⟩ := hother h
      exact ⟨m, congrArg _ hm, hrest⟩
    · rintro i ⟨hi, ho⟩
      exact ⟨_, registerWrite_at hs ho (bar_badc s v i hi), writeBadc_spec s i v⟩
    · rintro i ⟨hi, ho⟩
      rw [registerWrite_at hs ho (bar_dbg s v i hi)]
      exact ⟨fun h => ⟨_, rfl, putBreak_spec s _ _ h⟩, fun h => congrArg _ (putBreak_protected _ h)⟩
    · rintro k ⟨hk, ho⟩
      have hbar := bar_bkpt s v (4 * k) hk
      rw [show 4 * k / 4 = k by omega, show 4 * k % 4 = 0 by omega] at hbar
      rw [registerWrite_at hs ho hbar]
      intro b new refused
      have hnew : readBkpt b v = new := readBkpt_eq b v
      have hiff : refused ↔ (v.getLsbD 63 = true ∨ v.getLsbD 61 = true) ∧ guarded s (readBkpt b v) = true := by rw [hnew, guarded_iff]
      refine ⟨fun h => congrArg _ (writeBkpt_refused (hiff.1 h).1 (hiff.1 h).2), fun h => ⟨_, rfl, ?_⟩⟩
      obtain ⟨hput, hrest⟩ := writeBkpt_spec fun hc => h (hiff.2 hc)
      exact ⟨hput.trans hnew, hrest⟩
    · rintro k j hj4 hj0 ⟨hk, ho⟩
      have hbar := bar_bkpt s v (4 * k + j) hk
      rw [show (4 * k + j) / 4 = k by omega, show (4 * k + j) % 4 = j by omega, writeBkpt_word s k j v hj0 hj4] at hbar
      exact ⟨_, registerWrite_at hs ho hbar, fun n hn => withBkpt_other s hn _, withBkpt_same s k _⟩
    · rintro i ⟨hi, ho⟩
      obtain ⟨m, hm, hother, heven, hodd⟩ := writeSave_spec s (i / 2) (i % 2) v
      exact ⟨m, registerWrite_at hs ho ((bar_save s v i hi).trans hm), hother, heven, fun h => hodd (by omega)⟩
    · intro ho
      exact ⟨_, registerWrite_at hs ho (writeBar_qspire s v), writeQspire_spec s v⟩
    · rintro i ⟨hi, ho⟩
      obtain ⟨m, hm, hrest⟩ := writePwr_spec s i v
      exact ⟨m, registerWrite_at hs ho ((bar_pwr s v i hi).trans hm), hrest⟩
    · rintro i ⟨hi, ho⟩
      obtain ⟨m, hm, hrest⟩ := writeRoute_spec s i v
      exact ⟨m, registerWrite_at hs ho ((bar_route s v i hi).trans hm), hrest⟩
  · intro i
    have h := writeBadc_spec s i.toNat (withBit (mget 0 s.dev.badc i.toNat) 31 false)
    rw [withBit_off _ 31 (by decide)] at h
    exact ⟨_, badcClear_next hs i, h⟩
  · exact fun m => ⟨_, qspireClear_next hs m, writeQspire_spec s m⟩
  · intro k hk
    exact (bkptStep_next hs k).trans (congrArg _ (if_pos ((guarded_iff _ _).2 hk)))
  · intro k hk
    have h := (bkptStep_next hs k).trans (congrArg _ (if_neg fun hg => hk ((guarded_iff _ _).1 hg)))
    exact ⟨_, h, stepBkpt_steps s _, stepBkpt_only s _⟩
  · intro k
    obtain ⟨hheld, htok, honly⟩ := releaseAll_spec k.toNat (withBkpt s k.toNat { mget {} s.dev.bkpts k.toNat with v := false })
    refine ⟨_, bkptDisarm_next hs k, ?_, hheld, htok⟩
    rw [honly]; exact withBkpt_same _ _ _
  · exact fun w on h => (debugBreakWrite_next hs w on).trans (congrArg _ (putBreak_protected on h))
  · exact fun w on h => ⟨_, debugBreakWrite_next hs w on, putBreak_spec s w on h⟩
  · intro a l h
    refine ⟨_, step_readBar hs h, fun h => by rw [h]; rfl, fun h => by rw [h]; exact BitVec.toNat_ofNat _ _, fun h => by rw [h]; rfl,
      fun h => by rw [h]; rfl, fun i => ⟨?_, ?_, ?_, ?_, ?_, ?_, ?_⟩⟩
    · rintro hi rfl
      rw [read_wqos s i hi]; exact BitVec.toNat_ofNat _ _
    · rintro hi rfl
      exact read_badc s i hi
    · rintro hi rfl
      rw [read_dbg s i hi]
      exact word_of _ (by split <;> decide)
    · intro hi
      refine ⟨?_, ?_, ?_, ?_⟩
      · rintro rfl
        rw [show 0x400 + 32 * i = 0x400 + 32 * i + 8 * 0 from rfl, readBar_bkpt s i 0 hi (by decide)]
        exact bkptWord_spec _
      · rintro rfl
        rw [show 0x408 + 32 * i = 0x400 + 32 * i + 8 * 1 by omega, readBar_bkpt s i 1 hi (by decide)]
        rfl
      · rintro rfl
        rw [show 0x410 + 32 * i = 0x400 + 32 * i + 8 * 2 by omega, readBar_bkpt s i 2 hi (by decide)]
        rfl
      · rintro rfl
        rw [show 0x418 + 32 * i = 0x400 + 32 * i + 8 * 3 by omega, readBar_bkpt s i 3 hi (by decide)]
        exact word_of _ (by omega)
    · intro hi
      refine ⟨?_, ?_⟩
      · rintro rfl
        exact readBar_save s i 0 hi (by decide)
      · rintro rfl
        rw [show 0x608 + 16 * i = 0x600 + 16 * i + 8 * 1 by omega]
        exact readBar_save s i 1 hi (by decide)
    · rintro hi rfl
      rw [read_pwr s i hi]; exact BitVec.toNat_ofNat _ _
    · rintro hi rfl
      exact read_route s i hi

end Sys2Proof.Proofs
end

section
namespace Sys2Proof.Proofs
open Sys2Proof Sys2Proof.Machine Sys2Proof.Claims Sys2Proof.Laws

/-! ### Bring-up, links, power, and requests from outside (R5, R237, R254, R323, R348, R404 to R410) -/

/-! #### READY and FAIL (R407) -/

theorem withBit_set (v : Word64) (i k : Nat) (hi : i < 64) : (withBit v i true).getLsbD k = (decide (k = i) || v.getLsbD k) := by
  rw [withBit_bit v i k hi]
  by_cases h : k = i <;> simp [h]

theorem withBit_clear (v : Word64) (i k : Nat) (hi : i < 64) : (withBit v i false).getLsbD k = (v.getLsbD k && decide (k ≠ i)) := by
  rw [withBit_bit v i k hi]
  by_cases h : k = i <;> simp [h]

theorem isLink_iff (fn : Nat) : isLink fn = true ↔ fn = 1 ∨ 22 ≤ fn := by
  unfold isLink
  rw [Bool.or_eq_true, beq_iff_eq, decide_eq_true_eq]

/-- A READY or FAIL bit may set: neither is set, and SP is ready unless it is SP's own. -/
def Opens (s : State) (fn : Nat) : Prop :=
  s.dev.ready.getLsbD fn = false ∧ s.dev.fail.getLsbD fn = false ∧ (fn = 0 ∨ s.dev.ready.getLsbD 0 = true)

theorem opens_iff (s : State) (fn : Nat) :
    ¬ (s.dev.ready.getLsbD fn || s.dev.fail.getLsbD fn || (fn != 0 && !spReady s)) = true ↔ Opens s fn := by
  rw [show spReady s = s.dev.ready.getLsbD 0 from rfl]
  unfold Opens
  simp only [Bool.or_eq_true, Bool.and_eq_true, bne_iff_ne, Bool.not_eq_true', not_or, Bool.not_eq_true, not_and, Bool.not_eq_false, and_assoc]
  rw [show (fn ≠ 0 → s.dev.ready.getLsbD 0 = true) ↔ (fn = 0 ∨ s.dev.ready.getLsbD 0 = true) from Classical.or_iff_not_imp_left.symm]

theorem functionReady_shut {s : State} {fn : Fin 40} (ok : Bool) (h : ¬ Opens s fn.val) : exec (.functionReady fn ok) s = .next s :=
  if_pos (Classical.not_not.1 fun hn => h ((opens_iff s fn.val).1 hn))

theorem functionReady_fails {s : State} {fn : Fin 40} (h : Opens s fn.val) :
    exec (.functionReady fn false) s = .next { s with dev := { s.dev with fail := withBit s.dev.fail fn.val true } } :=
  if_neg ((opens_iff s fn.val).2 h)

theorem functionReady_sets {s : State} {fn : Fin 40} (h : Opens s fn.val) :
    exec (.functionReady fn true) s = .next (if isLink fn.val then s else setReady s fn.val) :=
  if_neg ((opens_iff s fn.val).2 h)

/-- A READY bit that sets may free spires: worlds' triggers alone change beside it. -/
theorem setReady_spec {s : State} {fn : Nat} (h0 : fn ≠ 0) (h : fn < 64) : let t := setReady s fn
    (∀ k, t.dev.ready.getLsbD k = (decide (k = fn) || s.dev.ready.getLsbD k))
      ∧ t = { s with dev := { s.dev with ready := t.dev.ready }, worlds := t.worlds } := by
  intro t
  obtain ⟨x, hx⟩ := free_only { s with dev := { s.dev with ready := withBit s.dev.ready fn true } }
  have ht : t = _ := (if_neg h0).trans hx
  rw [ht]
  exact ⟨fun k => withBit_set _ _ _ h, rfl⟩

/-- SP becomes ready: it shows the links' state and takes the requests that waited (R404, R408). -/
theorem setReady_sp (s : State) : let t := setReady s 0
    t = { s with dev := { s.dev with ready := t.dev.ready, mailbox := [] }, agenda := t.agenda } ∧ t.dev.ready.getLsbD 0 = true
      ∧ (∀ k, 0 < k → k < 40 → (k = 1 ∨ 22 ≤ k) → t.dev.ready.getLsbD k = linkUp s k)
      ∧ (∀ k, 0 < k → k < 40 → ¬ (k = 1 ∨ 22 ≤ k) → t.dev.ready.getLsbD k = s.dev.ready.getLsbD k)
      ∧ (∀ e, e ∈ s.dev.mailbox → .request e.2 ∈ t.agenda) ∧ ∃ l, t.agenda = l ++ s.agenda := by
  intro t
  let s1 : State := { s with dev := { s.dev with ready := withBit s.dev.ready 0 true } }
  obtain ⟨hdev, hbits⟩ := showLinks_bits s1
  obtain ⟨d, hd⟩ := showLinks_rest s1
  have hsp : s1.dev.ready.getLsbD 0 = true := withBit_set _ _ _ (by decide)
  have hready : t.dev.ready = (showLinks s1).dev.ready := rfl
  have hbox : (showLinks s1).dev.mailbox = s.dev.mailbox := by rw [hdev]
  have hag : (showLinks s1).agenda = s.agenda := by rw [hd]
  refine ⟨?_, ?_, ?_, ?_, ?_, ?_⟩
  · have ht : t = { showLinks s1 with agenda := t.agenda, dev := { (showLinks s1).dev with mailbox := [] } } := rfl
    rw [hdev, hd] at ht
    rw [ht]
  · rw [hready, hbits, if_neg (by omega)]; exact hsp
  · intro k _ h40 hk
    rw [hready, hbits, if_pos ⟨hsp, hk.imp_right fun h => ⟨h, h40⟩⟩]; rfl
  · intro k h0 _ hk
    rw [hready, hbits, if_neg fun h => hk (h.2.imp_right And.left)]
    exact (withBit_set _ _ _ (by decide)).trans (by rw [decide_eq_false (by omega), Bool.false_or])
  · intro e he
    exact List.mem_append_left _ (taken_mem _ _ _ ((sort_mem _ _ _).2 (by rw [hbox]; exact he)))
  · exact ⟨_, congrArg _ hag⟩

/-! #### Links (R404 to R407) -/

/-- The bits of links follow the links' state once SP is ready, and no other READY bit changes. -/
def ShowsLinks (s t : State) : Prop :=
  ∀ fn, fn < 40 → t.dev.ready.getLsbD fn = if s.dev.ready.getLsbD 0 = true ∧ (fn = 1 ∨ 22 ≤ fn) then linkUp t fn else s.dev.ready.getLsbD fn

/-- `showLinks` after a change of the links. -/
theorem showLinks_shows {s s1 : State} (h : s1.dev.ready = s.dev.ready) : ShowsLinks s (showLinks s1) := by
  obtain ⟨hdev, hbits⟩ := showLinks_bits s1
  intro fn hfn
  have hup : linkUp (showLinks s1) fn = linkUp s1 fn := by unfold linkUp; rw [hdev]
  rw [hbits, hup, h]
  simp only [hfn, and_true]

theorem showLinks_dev (s : State) : (showLinks s).dev = { s.dev with ready := (showLinks s).dev.ready } := (showLinks_bits s).1

theorem dome_dropHostLines (s : State) (line : Nat) :
    mget none (dropHostLines s).dome line = if region (64 * line) = some .host then none else mget none s.dome line := by
  refine (mget_filter none (fun k => !(region (64 * k) == some .host)) s.dome line).trans ?_
  by_cases h : region (64 * line) = some .host
  · rw [if_neg (by simp [h]), if_pos h]
  · rw [if_pos (by simpa using h), if_neg h]

/-- The training of the host's link (R404, R407): without CXL.cache no host line stays in the Dome. -/
theorem hostLinkTrain_spec (s : State) (g : PcieGen) (w : LinkWidth) (c : CxlLevel) : ∃ t, exec (.hostLinkTrain g w c) s = .next t
    ∧ t.dev.link = some (g, w, c) ∧ t.dev.lost = false ∧ (∀ k, k < 64 → t.dev.fail.getLsbD k = (s.dev.fail.getLsbD k && decide (k ≠ 1))) ∧ ShowsLinks s t
    ∧ ((c = .none ∨ c = .noCache) → ∀ line, region (64 * line) = some .host → mget none t.dome line = none)
    ∧ (∀ line, region (64 * line) ≠ some .host → mget none t.dome line = mget none s.dome line)
    ∧ t = { s with dev := t.dev, dome := t.dome, monitors := t.monitors } := by
  let s1 : State := { s with dev := { s.dev with link := some (g, w, c), lost := false, fail := withBit s.dev.fail 1 false } }
  let s2 := if c = .none ∨ c = .noCache then dropHostLines s1 else s1
  have hdev : s2.dev = s1.dev := by unfold s2; split <;> rfl
  have hshape : s2 = { s1 with dome := s2.dome, monitors := s2.monitors } := by unfold s2; split <;> rfl
  obtain ⟨d, hd⟩ := showLinks_rest s2
  have hdome : (showLinks s2).dome = s2.dome := by rw [hd]
  have hlinks := showLinks_dev s2
  refine ⟨showLinks s2, rfl, by rw [hlinks, hdev], by rw [hlinks, hdev], fun k hk => ?_, showLinks_shows (by rw [hdev]), fun hc line hl => ?_, fun line hl => ?_, ?_⟩
  · rw [hlinks, hdev]; exact withBit_clear _ _ _ (by decide)
  · rw [hdome, show s2 = dropHostLines s1 from if_pos hc, dome_dropHostLines, if_pos hl]
  · rw [hdome]
    unfold s2
    split
    · rw [dome_dropHostLines, if_neg hl]
    · rfl
  · rw [hd, hshape]

/-- The training of a port records its rate and clears its FAIL bit (R405, R407). -/
theorem frauthPortTrain_spec (s : State) (p : Fin 18) (r : LaneRate) : ∃ t, exec (.frauthPortTrain p r) s = .next t ∧ t = { s with dev := t.dev }
    ∧ mget none t.dev.ports p.val = some r ∧ (∀ q, q ≠ p.val → mget none t.dev.ports q = mget none s.dev.ports q)
    ∧ (∀ k, k < 64 → t.dev.fail.getLsbD k = (s.dev.fail.getLsbD k && decide (k ≠ 22 + p.val))) ∧ ShowsLinks s t := by
  let s1 : State := { s with dev := { s.dev with ports := mput none s.dev.ports p.val (some r), fail := withBit s.dev.fail (22 + p.val) false } }
  obtain ⟨d, hd⟩ := showLinks_rest s1
  have hlinks := showLinks_dev s1
  have hports : (showLinks s1).dev.ports = mput none s.dev.ports p.val (some r) := by rw [hlinks]
  refine ⟨showLinks s1, rfl, by rw [hd], ?_, fun q hq => ?_, fun k _ => ?_, showLinks_shows rfl⟩
  · rw [hports]; exact mget_mput_same _ _ _ _
  · rw [hports]; exact mget_mput_other _ _ hq _
  · rw [hlinks]; exact withBit_clear _ _ _ (by omega)

/-- A port that goes down (R406). -/
theorem frauthPortDown_spec (s : State) (p : Fin 18) : ∃ t, exec (.frauthPortDown p) s = .next t ∧ t = { s with dev := t.dev }
    ∧ mget none t.dev.ports p.val = none ∧ (∀ q, q ≠ p.val → mget none t.dev.ports q = mget none s.dev.ports q) ∧ t.dev.fail = s.dev.fail ∧ ShowsLinks s t := by
  let s1 : State := { s with dev := { s.dev with ports := mput none s.dev.ports p.val none } }
  obtain ⟨d, hd⟩ := showLinks_rest s1
  have hlinks := showLinks_dev s1
  have hports : (showLinks s1).dev.ports = mput none s.dev.ports p.val none := by rw [hlinks]
  refine ⟨showLinks s1, rfl, by rw [hd], ?_, fun q hq => ?_, by rw [hlinks], showLinks_shows rfl⟩
  · rw [hports]; exact mget_mput_same _ _ _ _
  · rw [hports]; exact mget_mput_other _ _ hq _

/-! #### Power, cooling and management (R323, R409, R410) -/

/-- A bucket after the periods that have passed (R323). -/
theorem bucket_fillBuckets (s : State) (d : Nat) :
    mget {} (fillBuckets s).dev.buckets d = if d < 4 then refill (s.now / 1024 - s.dev.period) (mget {} s.dev.buckets d) else mget {} s.dev.buckets d := by
  refine (refill_fold _ (List.range 4) (List.nodup_range) s.dev.buckets d).trans ?_
  simp only [List.mem_range]

/-- After at least one period: the old settings fill once, the new ones for the rest. -/
theorem refill_pos (n : Nat) (b : Bucket) (h : n ≠ 0) : refill n b =
    { b with depth := b.newDepth, rate := b.newRate, level := min b.newDepth (min b.newDepth (min b.depth (b.level + bucketRate b)) + (n - 1) * bucketRate { b with depth := b.newDepth, rate := b.newRate }) } :=
  if_neg h

theorem hot_iff (s : State) : hot s = true ↔ ∃ k, k < 4 ∧ (Config.maxJunction k ≤ mget 0 s.dev.tj k + 5 ∨ 105 ≤ mget 0 s.dev.dram k + 5) := by
  unfold hot
  simp only [List.any_eq_true, List.mem_range, Bool.or_eq_true, decide_eq_true_eq]

/-- A limit falls while a junction is hot, and rises until it is none otherwise (assumption 23). -/
theorem nextLimit_hot (o : Option Nat) : ∃ n, nextLimit true o = some n ∧ ∀ l, o = some l → n ≤ l - 1 := by
  cases o with
  | none => exact ⟨_, rfl, nofun⟩
  | some l => exact ⟨_, rfl, fun _ h => by cases h; exact Nat.min_le_left _ _⟩

theorem nextLimit_cool (o : Option Nat) (n : Nat) (h : nextLimit false o = some n) : ∃ l, o = some l ∧ l < n := by
  cases o with
  | none => cases h
  | some l =>
    have h : (if 65535 < max (l + 1) (Config.thermalStep l false) then none else some (max (l + 1) (Config.thermalStep l false))) = some n := h
    split at h
    · cases h
    · cases h; exact ⟨l, rfl, Nat.le_max_left _ _⟩

theorem thermalLimit_spec (s : State) (d : BitVec 2) : ∃ m, exec (.thermalLimit d) s = .next { s with dev := { s.dev with buckets := m } }
    ∧ (∀ k, k ≠ d.toNat → mget {} m k = mget {} s.dev.buckets k)
    ∧ mget {} m d.toNat = { mget {} s.dev.buckets d.toNat with limit := nextLimit (hot s) (mget {} s.dev.buckets d.toNat).limit } :=
  ⟨_, rfl, fun _ hk => mget_mput_other _ _ hk _, mget_mput_same _ _ _ _⟩

/-- THERM shows each die's junction in a byte of its own (R409). -/
theorem thermWord_byte (s : State) (h : ∀ k, k < 4 → mget 0 s.dev.tj k < 256) (d : Nat) (hd : d < 4) :
    field (thermWord s) (8 * d) 8 = mget 0 s.dev.tj d := by
  obtain ⟨k, hk⟩ := therm_form s
  obtain ⟨h0, h1, h2, h3⟩ := therm_byte _ _ _ _ k (h 0 (by decide)) (h 1 (by decide)) (h 2 (by decide)) (h 3 (by decide))
  rw [hk]
  obtain rfl | rfl | rfl | rfl : d = 0 ∨ d = 1 ∨ d = 2 ∨ d = 3 := by omega
  · exact h0
  · exact h1
  · exact h2
  · exact h3

/-! #### Memory from outside (R237, R254, R348) -/

/-- The host's write of a live word makes it plain (R254). -/
theorem hostWriteLiveWord_spec (s : State) (pa : BitVec 52) (v : Word64) : let a := pa.toNat / 8 * 8
    ((typeAt s a = 0 ∨ region a ≠ some .host) → exec (.hostWriteLiveWord pa v) s = .next s)
    ∧ (typeAt s a ≠ 0 → region a = some .host → exec (.hostWriteLiveWord pa v) s = .next (setType (devPut s a 8 v.toNat) a 0)) := by
  intro a
  exact ⟨fun h => congrArg _ (if_pos h), fun h1 h2 => congrArg _ (if_neg fun h => h.elim h1 fun hr => hr h2)⟩

theorem typeAt_setType (s : State) (a b k : Nat) : typeAt (setType s a k) b = if b / 8 = a / 8 then k else typeAt s b := by
  unfold typeAt
  rw [setType_wtype]
  split
  · next h => rw [h]; exact mget_mput_same _ _ _ _
  · next h => exact mget_mput_other _ _ h _

/-- A monitor that has seen something still has; one that had not sees the event. -/
theorem sees_ne_none (m : Monitor) (now : Nat) (k : Wake) : (m.sees now k).event ≠ none := by
  unfold Monitor.sees
  split
  · simp
  · next h => split <;> simp [h]

theorem sees_first {m : Monitor} (h : m.event = none) (now : Nat) (k : Wake) : m.sees now k = { m with event := some (k, now) } := by
  unfold Monitor.sees; rw [h]

/-- The monitors of a granule after an event there: each of them has seen something, and those that had not see this. -/
theorem wakeGranule_spec (ms : List Monitor) (now g : Nat) (k : Wake) :
    (∀ m, m ∈ wakeGranule ms now g k → m.granule = g → m.event ≠ none)
    ∧ ∀ m, m ∈ ms → m.granule = g → m.event = none → { m with event := some (k, now) } ∈ wakeGranule ms now g k := by
  constructor
  · intro m hm hg
    obtain ⟨n, _, rfl⟩ := List.mem_map.1 hm
    by_cases hn : n.granule = g
    · rw [if_pos hn]; exact sees_ne_none _ _ _
    · rw [if_neg hn] at hg; exact absurd hg hn
  · intro m hm hg he
    refine List.mem_map.2 ⟨m, hm, ?_⟩
    rw [if_pos hg, sees_first he]

theorem cxlSnoop_other {s : State} {pa : BitVec 52} (h : region pa.toNat ≠ some .host) : exec (.cxlSnoop pa) s = .next s :=
  congrArg Host.Outcome.next (if_neg h)

theorem cxlSnoop_host {s : State} {pa : BitVec 52} (h : region pa.toNat = some .host) : exec (.cxlSnoop pa) s = .next (snoopLine s pa.toNat) :=
  congrArg Host.Outcome.next (if_pos h)

/-- The number of bytes that a remote request covers. -/
def remoteLen : RemoteReq → Nat
  | .read k => k
  | .write l => l.length
  | .atomic _ w64 _ _ => if w64 then 8 else 4

theorem remoteBytes_eq (a : Nat) (r : RemoteReq) : remoteBytes a r = bytesAt a (remoteLen r) := by
  cases r <;> rfl

theorem wholeLine_iff (a : Nat) (r : RemoteReq) : wholeLine a r = true ↔ ∃ l, r = .write l ∧ a % 64 = 0 ∧ l.length % 64 = 0 := by
  cases r with
  | write l =>
    unfold wholeLine
    rw [Bool.and_eq_true, beq_iff_eq, beq_iff_eq]
    exact ⟨fun h => ⟨l, rfl, h⟩, fun ⟨_, he, h⟩ => by cases he; exact h⟩
  | read k => exact ⟨nofun, nofun⟩
  | atomic op w64 b c => exact ⟨nofun, nofun⟩

/-- A request passes the checks of its home: every byte lies in device memory of its world, and its line's MAC agrees unless
whole lines are written (R348, R353). -/
def PassesHome (s : State) (w : BitVec 4) (a : Nat) (r : RemoteReq) : Prop :=
  ∀ x, x ∈ bytesAt a (remoteLen r) → isDevice x = true ∧ mget none s.granuleOwner (x / granuleSize) = some w.toNat
    ∧ ((∃ l, r = .write l ∧ a % 64 = 0 ∧ l.length % 64 = 0) ∨ remoteLineOk s w x = true)

theorem passesHome_iff (s : State) (w : BitVec 4) (a : Nat) (r : RemoteReq) :
    (remoteBytes a r).any (fun x => !isDevice x || !ownsPa s w x || !(wholeLine a r || remoteLineOk s w x)) = false ↔ PassesHome s w a r := by
  rw [remoteBytes_eq, List.any_eq_false]
  refine forall₂_congr fun x _ => ?_
  rw [← wholeLine_iff]
  unfold ownsPa
  by_cases hd : isDevice x = true
  · cases wholeLine a r <;> simp [hd]
  · simp [hd]

section
variable {s : State} {w : BitVec 4} {pa : BitVec 52} {r : RemoteReq}

/-- A request that fails a check of its home, or whose level fails, is answered with PERMISSION. -/
theorem frauthRequest_denied (h : ¬ PassesHome s w (canonPa s pa.toNat) r ∨ (PassesHome s w (canonPa s pa.toNat) r
      ∧ ∃ e, levelCheck s w (canonPa s pa.toNat) (canonPa s pa.toNat) = some e ∧ e.cause ≠ .stall)) :
    exec (.frauthRequest w pa r) s = .next (reply s (Cause.code .permission) []) := by
  show execFrauthRequest w pa r s = _
  unfold execFrauthRequest
  dsimp only
  rcases h with h | ⟨h, e, he, hc⟩
  · exact if_pos (by rwa [← passesHome_iff, Bool.not_eq_false] at h)
  · rw [(passesHome_iff _ _ _ _).2 h, if_neg Bool.false_ne_true, he]
    exact congrArg _ (if_neg hc)

/-- A request whose level is not up waits. -/
theorem frauthRequest_waits {e : Report} (h : PassesHome s w (canonPa s pa.toNat) r)
    (he : levelCheck s w (canonPa s pa.toNat) (canonPa s pa.toNat) = some e) (hc : e.cause = .stall) :
    exec (.frauthRequest w pa r) s = .next s := by
  show execFrauthRequest w pa r s = _
  unfold execFrauthRequest
  dsimp only
  rw [(passesHome_iff _ _ _ _).2 h, if_neg Bool.false_ne_true, he]
  exact congrArg _ (if_pos hc)

theorem frauthRequest_performed (h : PassesHome s w (canonPa s pa.toNat) r)
    (he : levelCheck s w (canonPa s pa.toNat) (canonPa s pa.toNat) = none) :
    exec (.frauthRequest w pa r) s = .next (performRemote s (canonPa s pa.toNat) r) := by
  show execFrauthRequest w pa r s = _
  unfold execFrauthRequest
  dsimp only
  rw [(passesHome_iff _ _ _ _).2 h, if_neg Bool.false_ne_true, he]

end

theorem performRemote_read (s : State) (a k : Nat) :
    performRemote s a (.read k) = reply s 0 ((bytesAt a k).map (fun x => (byteAt s.mem x).toNat)) := by
  unfold performRemote bytesAt
  rw [List.map_map]
  rfl

theorem enum_of_mem {α : Type} {l : List α} {a : Nat} {c : Nat × α} (h : c ∈ enumFrom a l) : c.1 ∈ bytesAt a l.length := by
  rw [← enum_fst]; exact List.mem_map.2 ⟨c, h, rfl⟩

/-- A store at its home, where no word is live: its bytes are written in their order. -/
theorem performRemote_write (s : State) (a : Nat) (l : List (BitVec 8)) (h : ∀ x, x ∈ bytesAt a l.length → typeAt s x = 0) :
    performRemote s a (.write l) = reply (devWrite s (enumFrom a l)) 0 [] := by
  have hall : (enumFrom a l).filter (fun c => typeAt s c.1 == 0) = enumFrom a l :=
    List.filter_eq_self.2 fun c hc => beq_iff_eq.2 (h c.1 (enum_of_mem hc))
  have hlen : (enumFrom a l).length = l.length := by
    rw [← List.length_map Prod.fst, enum_fst]; unfold bytesAt; simp
  unfold performRemote
  dsimp only
  rw [hall, if_pos hlen]

theorem devWrite_bytes (s : State) (a : Nat) (l : List (BitVec 8)) :
    (∀ (k : Nat) b, l[k]? = some b → byteAt (devWrite s (enumFrom a l)).mem (a + k) = b)
    ∧ ∀ x, x ∉ bytesAt a l.length → byteAt (devWrite s (enumFrom a l)).mem x = byteAt s.mem x := by
  rw [devWrite_mem]
  refine ⟨fun k b hb => byteAt_putBytes_same _ _ ?_ (enum_get l a k b hb), fun x hx => byteAt_putBytes_other _ _ fun c hc he => ?_⟩
  · rw [enum_fst]; exact bytesAt_nodup a l.length
  · exact hx (he ▸ enum_of_mem hc)

section
variable (s : State) (a : Nat) (op : AtOp) (w64 : Bool) (b c : Word64)

/-- An atomic meets a live word as one of this device's does (R249, R254). -/
theorem performRemote_atomic_refused (h : typeAt s a = 1 ∨ (typeAt s a = 2 ∧ op ≠ .or)) :
    performRemote s a (.atomic op w64 b c) = reply s (Cause.code .barrierStore) [] := by
  unfold performRemote
  exact if_pos h

theorem performRemote_atomic (h : ¬ (typeAt s a = 1 ∨ (typeAt s a = 2 ∧ op ≠ .or))) : let k := if w64 then 8 else 4
    performRemote s a (.atomic op w64 b c) = reply (devPut s a k (atResult op (8 * k) (numberAt s (bytesAt a k)) (b.toNat % 2 ^ (8 * k)) (c.toNat % 2 ^ (8 * k)))) 0
      [numberAt s (bytesAt a k)] := by
  intro k
  rw [← readLE_number]
  unfold performRemote
  exact if_neg h

end

/-! #### Cold reset (R5) -/

/-- Memory of the host and of other devices, which a cold reset leaves. -/
def outsideMem (a : Nat) : Bool := match region a with
  | some .host => true
  | some (.remote _) => true
  | _ => false

theorem outsideMem_iff (a : Nat) : outsideMem a = true ↔ region a = some .host ∨ ∃ d, region a = some (.remote d) := by
  unfold outsideMem
  cases region a with
  | none => simp
  | some r => cases r <;> simp

theorem coldReset_next (s : State) : exec .coldReset s = .next { State.reset with
    agenda := s.agenda, free := s.free, outputs := s.outputs, mem := s.mem.filter (fun c => outsideMem c.1)
    dev := { State.reset.dev with firmware := s.dev.staged.or s.dev.firmware } } := rfl

theorem byteAt_filter (p : Nat → Bool) (m : List Host.Cell) (a : Nat) : byteAt (m.filter (fun c => p c.1)) a = if p a = true then byteAt m a else 0 :=
  mget_filter unlistedByte p m a

theorem or_eq_ite {α : Type} (a b : Option α) : a.or b = if a.isSome then a else b := by cases a <;> rfl

/-- Settles O48: each event by the lemma on its own act. -/
theorem linkEvents : Obligations.LinkEvents := by
  unfold Obligations.LinkEvents
  refine ⟨?_, ?_, ?_, ?_, ?_, ?_, ?_, ?_, ?_, ?_, ?_, ?_, ?_⟩
  · intro s fn h ok
    refine ⟨functionReady_shut (fn := ⟨fn, h⟩) ok, fun ho hk => ?_, fun ho hk hl => ?_, fun ho hk h0 hl => ?_, fun ho hk h0 => ?_⟩
    · subst hk
      exact ⟨_, functionReady_fails (fn := ⟨fn, h⟩) ho, fun k _ => withBit_set _ _ _ (by omega)⟩
    · subst hk
      exact (functionReady_sets (fn := ⟨fn, h⟩) ho).trans (congrArg _ (if_pos ((isLink_iff fn).2 hl)))
    · subst hk
      obtain ⟨hbits, hrest⟩ := setReady_spec (s := s) h0 (show fn < 64 by omega)
      exact ⟨_, (functionReady_sets (fn := ⟨fn, h⟩) ho).trans (congrArg _ (if_neg fun hc => hl ((isLink_iff fn).1 hc))), fun k _ => hbits k, hrest⟩
    · subst hk h0
      exact ⟨_, functionReady_sets ho, setReady_sp s⟩
  · exact hostLinkTrain_spec
  · exact frauthPortTrain_spec
  · exact frauthPortDown_spec
  · refine fun s => ⟨_, rfl, fun d => ⟨fun hd hn => ?_, fun hd => ?_⟩⟩
    · exact (bucket_fillBuckets s d).trans ((if_pos hd).trans (refill_pos _ _ hn))
    · refine (bucket_fillBuckets s d).trans ?_
      split
      next h4 => rw [hd.resolve_left (by omega)]; rfl
      · rfl
  · intro s d
    obtain ⟨m, hm, hother, hsame⟩ := thermalLimit_spec s d
    refine ⟨m, hm, hother, _, hsame, fun hh => ?_, fun hh n hn => ?_⟩
    · rw [(hot_iff s).2 hh]; exact nextLimit_hot _
    · rw [Bool.eq_false_iff.2 fun hc => hh ((hot_iff s).1 hc)] at hn
      exact nextLimit_cool _ n hn
  · exact fun s d tj dram => ⟨_, _, rfl, mget_mput_same _ _ _ _, mget_mput_same _ _ _ _, fun k hk => ⟨mget_mput_other _ _ hk _, mget_mput_other _ _ hk _⟩⟩
  · exact fun s => ⟨_, _, _, rfl, rfl, fun d hd _ h => thermWord_byte s h d hd⟩
  · exact fun _ _ => rfl
  · intro s pa v
    obtain ⟨hplain, hlive⟩ := hostWriteLiveWord_spec s pa v
    refine ⟨hplain, fun h1 h2 => ⟨_, hlive h1 h2, rfl, written_cells rfl, ?_, fun b hb => ?_⟩⟩
    · rw [typeAt_setType, if_pos rfl]
    · rw [typeAt_setType, if_neg hb]; rfl
  · intro s pa
    exact ⟨cxlSnoop_other, fun h => ⟨_, cxlSnoop_host h, rfl, mget_mput_same none s.dome _ none, fun k hk => mget_mput_other none s.dome hk none, wakeGranule_spec _ _ _ _⟩⟩
  · intro s w pa r a n lines mine answers
    have hmine : mine ↔ PassesHome s w a r := by cases r <;> rfl
    rw [hmine]
    refine ⟨fun h => ⟨_, ⟨frauthRequest_denied h, rfl⟩, rfl⟩, fun e h he hc => frauthRequest_waits h he hc, fun h he => ⟨?_, ?_, ?_⟩⟩
    · rintro k rfl
      exact ⟨_, ⟨(frauthRequest_performed h he).trans (congrArg _ (performRemote_read s a k)), rfl⟩, rfl⟩
    · rintro l rfl ht
      exact ⟨_, ⟨(frauthRequest_performed h he).trans (congrArg _ (performRemote_write s a l ht)), rfl⟩, rfl, devWrite_bytes s a l⟩
    · rintro op w64 b c rfl
      refine ⟨fun hr => ⟨_, ⟨(frauthRequest_performed h he).trans (congrArg _ (performRemote_atomic_refused s a op w64 b c hr)), rfl⟩, rfl⟩, fun hr => ?_⟩
      exact ⟨_, ⟨(frauthRequest_performed h he).trans (congrArg _ (performRemote_atomic s a op w64 b c hr)), rfl⟩, written_cells rfl⟩
  · intro s
    refine ⟨_, coldReset_next s, fun a => ⟨fun h => ?_, fun h => ?_⟩, ?_⟩
    · exact (byteAt_filter outsideMem s.mem a).trans (if_pos ((outsideMem_iff a).2 h))
    · exact (byteAt_filter outsideMem s.mem a).trans (if_neg fun hc => h ((outsideMem_iff a).1 hc))
    · rw [or_eq_ite]

end Sys2Proof.Proofs
end

section
namespace Sys2Proof.Proofs
open Sys2Proof Sys2Proof.Machine Sys2Proof.Claims Sys2Proof.Laws

/-! ### System instructions (R132, R189, R381 to R387) -/

theorem advance_one (b : BInst) : advance 1 b = adds b [] := by
  unfold adds
  rw [List.append_nil]
  rfl

/-! #### Special registers (R4, R381, R382) -/

theorem ofNat_ite (c : Bool) : (BitVec.ofNat 64 (if c then 1 else 0) : Word64) = if c then 1 else 0 := by
  cases c <;> rfl

/-- RDSR reads each register of R381 as the statement's table has it. -/
theorem readSreg_of_registerOf {s : State} {b : BInst} {reg : Nat} {x : Word64} (h : registerOf s b reg = some x) : readSreg s b reg = x := by
  obtain ⟨e, hfind, rfl⟩ := Option.map_eq_some_iff.1 h
  have hkey : e.1 = reg := by simpa using List.find?_some hfind
  rw [← hkey]
  refine (?_ : ∀ e, e ∈ _ → readSreg s b e.1 = e.2) e (List.mem_of_find?_eq_some hfind)
  simp only [List.forall_mem_cons]
  exact ⟨rfl, rfl, rfl, rfl, ofNat_ite _, rfl, rfl, rfl, rfl, rfl, ofNat_ite _, rfl, rfl, rfl, rfl, rfl, rfl, rfl, rfl, rfl, nofun⟩

/-- Where a write of a special register needs a SYS context, or a SYS world for sr.cgtab (R381). -/
def Denied (s : State) (b : BInst) (r : Nat) : Prop :=
  ((r = 0x015 ∨ 0x020 ≤ r) ∧ (nodeCtx s b.node).sysAttr = false) ∨ (r = 0x023 ∧ (worldOf s b.node.w).sys = false)

theorem denied_iff (s : State) (b : BInst) (r : Nat) :
    ((sysReg r && !(nodeCtx s b.node).sysAttr) = true ∨ (r = 0x023 ∧ (worldOf s b.node.w).sys = false)) ↔ Denied s b r := by
  unfold Denied sysReg
  simp only [Bool.and_eq_true, Bool.or_eq_true, beq_iff_eq, decide_eq_true_eq, Bool.not_eq_true']

section
variable {h : Hdr} {p : PayS} {s : State} {b : BInst} {xs : List Val} (hf : Fires h (k0Const p.k0) s b xs)
include hf

theorem rdsr_fires : exec (.rdsr h p) s = .next (delivered h 0 s b 1 (word64 (readSreg s b p.sreg.toNat)) (decide (readSreg s b p.sreg.toNat ≠ 0))) :=
  (withOps_fires _ _ hf).trans (congrArg _ (wordDeliv_eq h _ s b))

end

/-- The effects that a given word leaves to the commit: one, or none where slot 0 is not valid. -/
def givenEffs (h : Hdr) (k0 : BitVec 32) (x : Val) (f : Word64 → Eff) : List Eff := (givenWord h k0 x).toList.map f

theorem putInst_given (s : State) (b : BInst) (h : Hdr) (k0 : BitVec 32) (x : Val) (f : Word64 → Eff) :
    (match regWord h k0 x with | none => putInst s (advance 1 b) | some w => putInst s (advance 1 (addEff (f w) b))) = putInst s (adds b (givenEffs h k0 x f)) := by
  rw [given_eq]; exact givenList s b _ f

section
variable {h : Hdr} {p : PayS} {s : State} {b : BInst} {x : Val} (hf : Fires h (k0Const p.k0) s b [x])
include hf

theorem wrsr_denied (hd : Denied s b p.sreg.toNat) : exec (.wrsr h p) s = .next (raise s b { cause := .permission }) := by
  refine (withOps_fires _ _ hf).trans ?_
  dsimp only
  rcases (denied_iff s b p.sreg.toNat).2 hd with h1 | h2
  · rw [if_pos h1]; rfl
  · rw [if_pos h2, ite_self]; rfl

theorem wrsr_granted (hd : ¬ Denied s b p.sreg.toNat) :
    exec (.wrsr h p) s = .next (putInst s (adds b (givenEffs h p.k0 x (.sreg p.sreg.toNat)))) := by
  have hn := not_or.1 (mt (denied_iff s b p.sreg.toNat).1 hd)
  refine (withOps_fires _ _ hf).trans ?_
  dsimp only
  rw [if_neg hn.1, if_neg hn.2]
  exact congrArg _ (putInst_given s b h p.k0 x _)

theorem fmtld_fires : exec (.fmtld h p) s = .next (putInst s (adds b (givenEffs h p.k0 x (.fmt p.sreg.toNat)))) :=
  (withOps_fires _ _ hf).trans (congrArg _ (putInst_given s b h p.k0 x _))

theorem hwr_own (hm : hmodeOf s b p.sreg.toNat = .colour b.tag.colour) :
    exec (.hwr h p) s = .next (putInst s (adds b (givenEffs h p.k0 x (.hreg p.sreg.toNat)))) := by
  refine (withOps_fires _ _ hf).trans ?_
  dsimp only
  rw [hm]
  dsimp only
  rw [if_neg (not_not_intro rfl)]
  exact congrArg _ (putInst_given s b h p.k0 x _)

theorem hwr_refused (hm : hmodeOf s b p.sreg.toNat ≠ .colour b.tag.colour) : exec (.hwr h p) s = .next (raise s b { cause := .permission }) := by
  refine (withOps_fires _ _ hf).trans ?_
  dsimp only
  split
  next c hc => rw [if_pos fun he => hm (by rw [hc, he])]; rfl
  · rfl

end

section
variable {h : Hdr} {p : PayS} {s : State} {b : BInst} {xs : List Val} (hf : Fires h (k0Const p.k0) s b xs)
include hf

theorem hrd_granted (hm : hmodeOf s b p.sreg.toNat = .const ∨ hmodeOf s b p.sreg.toNat = .colour b.tag.colour) : let x := mget 0 b.hregs0 (b.cell * 32 + p.sreg.toNat)
    exec (.hrd h p) s = .next (delivered h 0 s b 1 (word64 x) (decide (x ≠ 0))) := by
  intro x
  refine (withOps_fires _ _ hf).trans (congrArg _ ?_)
  dsimp only
  rw [← wordDeliv_eq]
  rcases hm with hm | hm <;> rw [hm]
  · rfl
  · exact if_pos rfl

theorem hrd_refused (hm : ¬ (hmodeOf s b p.sreg.toNat = .const ∨ hmodeOf s b p.sreg.toNat = .colour b.tag.colour)) :
    exec (.hrd h p) s = .next (raise s b { cause := .permission }) := by
  obtain ⟨h1, h2⟩ := not_or.1 hm
  refine (withOps_fires _ _ hf).trans (congrArg _ ?_)
  dsimp only
  split
  · rfl
  next hc => exact absurd hc h1
  next c hc => rw [if_neg fun he => h2 (by rw [hc, he])]; rfl

/-! #### The format table (R132) -/

theorem fmtrd_fires : let x := (entryWord s b p.sreg.toNat).toNat
    let v := firstSlots ([x, x / 2 ^ 32, b.gen % 2 ^ 16].map (BitVec.ofNat 32))
    exec (.fmtrd h p) s = .next (delivered h 0 s b 1 v (predGeneral v)) := by
  intro x v
  have hv : firstSlots [(entryWord s b p.sreg.toNat).extractLsb' 0 32, (entryWord s b p.sreg.toNat).extractLsb' 32 32, BitVec.ofNat 32 (b.gen % 65536)] = v := by
    refine congrArg firstSlots ?_
    have h0 : (entryWord s b p.sreg.toNat).extractLsb' 0 32 = BitVec.ofNat 32 x := rfl
    have h1 : (entryWord s b p.sreg.toNat).extractLsb' 32 32 = BitVec.ofNat 32 (x / 2 ^ 32) :=
      congrArg (BitVec.ofNat 32) (Nat.shiftRight_eq_div_pow _ _)
    rw [h0, h1]; rfl
  refine (withOps_fires _ _ hf).trans (congrArg _ ?_)
  dsimp only
  rw [hv]; rfl

/-- FMTSYNC answers its generation once every cell has it and no other work holds an older one, in a cycle after its fetch. -/
theorem fmtsync_done (hs : b.fetched ≠ some s.now) (hr : ∀ cl, cl ∈ ctxCells (nodeCtx s b.node) → b.sync ≤ reachOf s b.node.w b.node.x cl)
    (hp : ∀ g, g ∈ heldGens s b.node.w b.node.x (fun y => y.cell == b.cell && decide (b.seq ≤ y.seq)) → b.sync ≤ g) :
    let v := word32 (b.sync % 2 ^ 16)
    exec (.fmtsync h p) s = .next (delivered h 0 s b 1 v (predGeneral v)) := by
  refine (withOps_fires _ _ hf).trans (congrArg _ (if_neg ?_))
  simp only [Bool.or_eq_true, beq_iff_eq, List.any_eq_true, decide_eq_true_eq, not_or, not_exists, not_and, Nat.not_lt]
  exact ⟨⟨hs, hr⟩, hp⟩

theorem fmtsync_waits (hn : ¬ (b.fetched ≠ some s.now ∧ (∀ cl, cl ∈ ctxCells (nodeCtx s b.node) → b.sync ≤ reachOf s b.node.w b.node.x cl)
      ∧ ∀ g, g ∈ heldGens s b.node.w b.node.x (fun y => y.cell == b.cell && decide (b.seq ≤ y.seq)) → b.sync ≤ g)) :
    exec (.fmtsync h p) s = .next s := by
  refine (withOps_fires _ _ hf).trans (congrArg _ (if_pos (Classical.not_not.1 fun hc => hn ?_)))
  simp only [Bool.or_eq_true, beq_iff_eq, List.any_eq_true, decide_eq_true_eq, not_or, not_exists, not_and, Nat.not_lt] at hc
  obtain ⟨⟨hs, hr⟩, hp⟩ := hc
  exact ⟨hs, hr, hp⟩

/-! #### TRAP, BRK, YIELD and HALT (R384 to R387) -/

theorem brk_off (ho : b.brkOff = true) : exec (.brk h p) s = .next (putInst s (adds b [])) := by
  rw [← advance_one]
  exact (withOps_fires _ _ hf).trans (congrArg _ (if_pos ho))

theorem brk_passes (ho : b.brkOff = false) (hn : ¬ (mget false s.dev.dbgw b.node.w.toNat = true ∧ (worldOf s b.node.w).prot = false)) :
    exec (.brk h p) s = .next (putInst s { b with brkOff := true, pc := 0 }) := by
  refine (withOps_fires _ _ hf).trans (congrArg _ ((if_neg (by rw [ho]; exact Bool.false_ne_true)).trans (if_neg ?_)))
  unfold breakSet
  rwa [Bool.and_eq_true, Bool.not_eq_true']

theorem brk_withdraws (ho : b.brkOff = false) (hn : mget false s.dev.dbgw b.node.w.toNat = true ∧ (worldOf s b.node.w).prot = false) :
    exec (.brk h p) s = .next (withdrawBrk s b) := by
  refine (withOps_fires _ _ hf).trans (congrArg _ ((if_neg (by rw [ho]; exact Bool.false_ne_true)).trans (if_pos ?_)))
  unfold breakSet
  rwa [Bool.and_eq_true, Bool.not_eq_true']

theorem yield_fires : let v := word32 (if hasPreempt s b.node.w (nodeCtx s b.node).task then 1 else 0)
    exec (.yield h p) s = .next (putInst s (advance 1 (addEff .yieldTask (deliver h 0 (same v (predGeneral v)) b)))) :=
  withOps_fires _ _ hf

end

@[simp] theorem returnTag_worlds (s : State) (n : NodeId) (t : Option IterTag) : (returnTag s n t).worlds = s.worlds := by
  unfold returnTag; split <;> rfl

@[simp] theorem returnTag_firings (s : State) (n : NodeId) (t : Option IterTag) : (returnTag s n t).firings = s.firings := by
  unfold returnTag; split <;> rfl

/-- A firing withdrawn at its BRK waits as such, what ran it is gone, and the record's number went on (R385, R372). -/
theorem withdrawBrk_spec (s : State) (b : BInst) : let t := withdrawBrk s b
    t.insts = s.insts.filter (fun y => !y.isAt b.cell b.seq) ∧ t.firings = s.firings ++ [firingOf s b .brk]
      ∧ (worldOf t b.node.w).fltSeq = ((worldOf s b.node.w).fltSeq + 1) % 2 ^ 32 := by
  let s1 := returnTag s b.node b.spawned
  let s2 := logOnly s1 (originOf s b b.pc 0) (fail .brk)
  have hins : s2.insts = s.insts := by simp [s2, s1]
  have hfir : s2.firings = s.firings := (logRecord_firings _ _ _).trans (returnTag_firings _ _ _)
  have hworld : worldOf s1 b.node.w = worldOf s b.node.w := by unfold worldOf; rw [returnTag_worlds]
  have hseq := congrArg World.fltSeq (logOnly_world s1 (originOf s b b.pc 0) (fail .brk))
  refine ⟨congrArg (List.filter _) hins, congrArg (· ++ _) hfir, ?_⟩
  rw [← hworld]; exact hseq

/-! #### Writes of special registers (R4, R381) -/

theorem writeBelfry_insts (s : State) (w : BitVec 4) (v : Word64) : (writeBelfry s w v).insts = s.insts := by
  unfold writeBelfry
  dsimp only
  (repeat' split) <;> rfl

theorem writeSreg_insts (s : State) (w : BitVec 4) (x : Context) (reg : Nat) (v : Word64) : (writeSreg s w x reg v).insts = s.insts := by
  unfold writeSreg
  split
  case h_4 => exact writeBelfry_insts s w v
  all_goals rfl

theorem onlyBits_add (v : Word64) (hi lo hi' lo' : Nat) :
    (BitVec.ofNat 64 (keepBits v hi lo + keepBits v hi' lo') : Word64) = onlyBits v hi lo + onlyBits v hi' lo' := BitVec.ofNat_add _ _

/-- The low bits of a number, as a register of that width keeps them. -/
theorem field_low (x n : Nat) : field x 0 n = x % 2 ^ n := by
  unfold field; rw [Nat.pow_zero, Nat.div_one]

theorem ctxOf_setCtx_same (s : State) (w : BitVec 4) (x : Context) (c : Ctx) : ctxOf (setCtx s w x c) w x = c := by
  rw [ctxOf_setCtx, if_pos rfl]

/-! #### LGBIND (R189) -/

section
variable {h : Hdr} {p : PayS} {s : State} {b : BInst} {x : Val} (hf : MemFires h s b [x])
include hf

theorem lgbind_invalid (hb : baseOf false x = none) : exec (.lgbind h p) s = .next (putInst s (adds b [])) := by
  refine (memOp_fires' _ hf).trans (congrArg _ ?_)
  dsimp only
  rw [List.getD_cons_zero, hb, advance_one]

variable {va : Nat} (hb : baseOf false x = some va)
include hb

/-- LGBIND of 0 binds nothing, and checks no descriptor. -/
theorem lgbind_zero (h0 : va = 0) : exec (.lgbind h p) s = .next (putInst s (adds b [.lgbind p.sreg.toNat (BitVec.ofNat 64 va)])) := by
  refine (memOp_fires' _ hf).trans (congrArg _ ?_)
  dsimp only
  rw [List.getD_cons_zero, hb]
  exact if_pos h0

theorem lgbind_misaligned (h0 : va ≠ 0) (h64 : va % 64 ≠ 0) : exec (.lgbind h p) s = .next (raise s b { cause := .addrOverflow, addr := va }) := by
  refine (memOp_fires' _ hf).trans (congrArg _ ?_)
  dsimp only
  rw [List.getD_cons_zero, hb]
  exact (if_neg h0).trans (if_pos h64)

theorem lgbind_refused (h0 : va ≠ 0) (h64 : va % 64 = 0) {r : Report} (hr : loadSeq (instByte s b) va = .error r) :
    exec (.lgbind h p) s = .next (raise s b r) := by
  refine (memOp_fires' _ hf).trans (congrArg _ ?_)
  dsimp only
  rw [List.getD_cons_zero, hb]
  refine (if_neg h0).trans ((if_neg (not_not_intro h64)).trans ?_)
  rw [hr]

theorem lgbind_binds (h0 : va ≠ 0) (h64 : va % 64 = 0) {q : SeqDesc × List Word64} (hq : loadSeq (instByte s b) va = .ok q) :
    exec (.lgbind h p) s = .next (putInst (acquire s b .dev) (adds b [.lgbind p.sreg.toNat (BitVec.ofNat 64 va)])) := by
  refine (memOp_fires' _ hf).trans (congrArg _ ?_)
  dsimp only
  rw [List.getD_cons_zero, hb]
  refine (if_neg h0).trans ((if_neg (not_not_intro h64)).trans ?_)
  rw [hq]; rfl

end

/-- Settles O35: each instruction's answer where it fires, by the lemma on that instruction, and each special register's write. -/
theorem systemInstructions : Obligations.SystemInstructions := by
  unfold Obligations.SystemInstructions
  refine ⟨⟨?_, ?_, ?_, ?_⟩, ?_, ?_, ?_⟩
  · intro h p s b xs x hf hx
    have hr := rdsr_fires hf
    rw [readSreg_of_registerOf hx] at hr
    exact ⟨_, inPair64 x, hr⟩
  · intro h p s b x hf
    exact ⟨wrsr_denied hf, wrsr_granted hf, fmtld_fires hf, hwr_own hf, hwr_refused hf⟩
  · intro h p s b xs hf
    refine ⟨fun hm => ⟨_, inPair64 _, hrd_granted hf hm⟩, hrd_refused hf, ⟨_, _, slotNonzero_pred _, fmtrd_fires hf, slots_first _⟩, ?_, fmtsync_waits hf⟩
    exact fun hs hr hp => ⟨_, _, slotNonzero_pred _, fmtsync_done hf hs hr hp, word32_slots _⟩
  · intro s w x v
    refine ⟨?_, ?_, ?_, ?_, rfl, ?_, ?_, ?_, ?_, ?_, ?_, ?_, fun r => ⟨writeSreg_mem s w x r v, writeSreg_insts s w x r v⟩⟩
    · exact congrArg Ctx.srseed (ctxOf_setCtx_same s w x _)
    · exact (congrArg Ctx.hintdrop (ctxOf_setCtx_same s w x _)).trans (field_low v.toNat 32)
    · exact (congrArg Ctx.wdog (ctxOf_setCtx_same s w x _)).trans (field_low v.toNat 16)
    · exact (congrArg World.ttab (worldOf_setWorld s w _)).trans (onlyBits_add v 51 12 4 0)
    · exact congrArg World.schedbase (worldOf_setWorld s w _)
    · exact (congrArg World.polslot (worldOf_setWorld s w _)).trans (field_low v.toNat 6)
    · exact congrArg World.ctab (worldOf_setWorld s w _)
    · exact (congrArg World.fltlog (worldOf_setWorld s w _)).trans (onlyBits_add v 51 12 11 8)
    · exact congrArg World.evtab (worldOf_setWorld s w _)
    · exact congrArg World.catab (worldOf_setWorld s w _)
    · simp only [List.forall_mem_cons]
      exact ⟨rfl, rfl, rfl, rfl, rfl, rfl, rfl, rfl, by simp⟩
  · exact fun h p s b xs hf => withOps_fires _ _ hf
  · intro h p s b xs hf
    refine ⟨brk_off hf, brk_passes hf, fun ho hs => ⟨_, brk_withdraws hf ho hs, withdrawBrk_spec s b⟩, ?_, withOps_fires _ _ hf⟩
    have hy := yield_fires hf
    by_cases hc : hasPreempt s b.node.w (nodeCtx s b.node).task = true
    · rw [if_pos hc] at hy
      exact ⟨_, _, 1, fun _ => ⟨rfl, one1⟩, fun hn => absurd ((raise_some _ _ _).1 hc) hn, word32_slots 1, hy⟩
    · rw [if_neg hc] at hy
      exact ⟨_, _, 0, fun hs => absurd ((raise_some _ _ _).2 hs) hc, fun _ => ⟨rfl, one0⟩, word32_slots 0, hy⟩
  · intro h p s b x hf
    refine ⟨lgbind_invalid hf, fun va hb => ⟨fun h0 => ?_, lgbind_misaligned hf hb, fun r h0 h64 => lgbind_refused hf hb h0 h64, fun q h0 h64 hq => ?_⟩⟩
    · rw [lgbind_zero hf hb h0]; exact replaces_put (caches_self s)
    · rw [lgbind_binds hf hb h0 h64 hq]; exact replaces_put (acquire_only s b .dev)

end Sys2Proof.Proofs
end

section
namespace Sys2Proof.Proofs
open Sys2Proof Sys2Proof.Machine Sys2Proof.Claims Sys2Proof.Laws

/-! ### Instructions read back from their encodings (R72 to R83, R194, R195, R328) -/

/-- The word of an instruction that is well formed, if it has one, decodes to it and fits its width. -/
def ReadsBack (i : Instr) : Prop :=
  ∀ n w, i.wf = true → encode i = some (n, w) → decodeTableWord n w = some i ∧ w < 2 ^ n

/-- It is enough to read back the one word that the encoder gives. -/
theorem readsBack_of_encode {i : Instr} {n w : Nat} (he : encode i = some (n, w))
    (hd : i.wf = true → decodeTableWord n w = some i ∧ w < 2 ^ n) : ReadsBack i := by
  intro n' w' hwf he'
  cases he.symm.trans he'
  exact hd hwf

theorem readsBack_event {i : Instr} (he : encode i = none) : ReadsBack i := by
  intro n w _ he'
  cases he.symm.trans he'

/-- A row of the opcode table whose payload is read back gives the row's instruction. -/
theorem row_some {α : Type} {o : Option α} {p : α} {f : α → Instr} (ho : o = some p) : some (o.map f) = some (some (f p)) := by
  rw [ho]
  rfl

/-- A one-word main instruction is read back when its row of the opcode table reads its payload. -/
theorem readsBack_main {i : Instr} {op : Nat} (h : Hdr) (l : List (Nat × Nat)) (he : encode i = some (128, mainWord h op l))
    (hop : op < 2 ^ 10) (hl : FieldsFit l) (hw : totalWidth (l.map Prod.fst) = 64)
    (ht : i.wf = true → opTable op h (pack l) 0 = some (some i)) : ReadsBack i :=
  readsBack_of_encode he fun hwf => decodeTableWord_main h op l hop hl hw (ht hwf) hwf

/-- A loop nest is read back when its row of the opcode table reads both halves of its payload. -/
theorem readsBack_nest {i : Instr} {op : Nat} (h : Hdr) (p : PayN) (he : encode i = some (256, nestWord h op p))
    (hop : op < 2 ^ 10) (ht : opTable op h (pack p.fields) (pack p.fields1) = some (some i)) : ReadsBack i :=
  readsBack_of_encode he fun hwf => decodeTableWord_nest h op p hop ht hwf

theorem decodeTableWord_logit (w : Nat) : decodeTableWord 64 w = (decodeLogit (w % 2 ^ 64)).toOption := rfl

theorem decodeTableWord_policy (w : Nat) : decodeTableWord 32 w = (decodePolicy (w % 2 ^ 32)).toOption := rfl

/-- A logit instruction is read back when the decoder's row of its op, given the fields, gives it. -/
theorem readsBack_logit {i : Instr} {op : Nat} (d a b c : BitVec 3) (imm : BitVec 32)
    (he : encode i = some (64, logitWord op d.toNat a.toNat b.toNat c.toNat imm.toNat)) (hop : op < 32)
    (hd : ∀ w, unpack [32, 15, 3, 3, 3, 3, 5] w = [imm.toNat, 0, c.toNat, b.toNat, a.toNat, d.toNat, op] → decodeLogit w = .ok i) :
    ReadsBack i := by
  obtain ⟨hu, hlt⟩ := unpack_logitWord op d.toNat a.toNat b.toNat c.toNat imm.toNat hop d.isLt a.isLt b.isLt c.isLt imm.isLt
  refine readsBack_of_encode he fun _ => ⟨?_, hlt⟩
  rw [decodeTableWord_logit, hd _ hu]
  rfl

/-- The immediate field of a policy word, whatever it holds. -/
theorem unpack_policyImm (w : Nat) : unpack [16, 2] w = [w % 2 ^ 16, w / 2 ^ 16 % 2 ^ 2] := rfl

/-- A policy bytecode in register form is read back when the decoder's row of its op gives it. -/
theorem readsBack_polReg {i : Instr} {op : Nat} (d a b : BitVec 4)
    (he : encode i = some (32, polReg op d.toNat a.toNat b.toNat)) (hop : op < 64)
    (hd : ∀ w, unpack [14, 4, 4, 4, 6] w = [0, b.toNat, a.toNat, d.toNat, op] → decodePolicy w = .ok i) :
    ReadsBack i := by
  obtain ⟨hu, hlt⟩ := unpack_polReg op d.toNat a.toNat b.toNat hop d.isLt a.isLt b.isLt
  refine readsBack_of_encode he fun _ => ⟨?_, hlt⟩
  rw [decodeTableWord_policy, hd _ hu]
  rfl

/-- A policy bytecode in immediate form is read back when the decoder's row of its op gives it. -/
theorem readsBack_polImm {i : Instr} {op : Nat} (d a : BitVec 4) (imm : BitVec 16)
    (he : encode i = some (32, polImm op d.toNat a.toNat imm.toNat)) (hop : op < 64)
    (hd : ∀ w low b, i.wf = true → unpack [14, 4, 4, 4, 6] w = [low, b, a.toNat, d.toNat, op] → unpack [16, 2] w = [imm.toNat, 0] →
      decodePolicy w = .ok i) : ReadsBack i := by
  obtain ⟨hi, hlt⟩ := unpack_polImm op d.toNat a.toNat imm.toNat hop d.isLt a.isLt imm.isLt
  obtain ⟨low, b, hu⟩ := unpack_polImm_op op d.toNat a.toNat imm.toNat hop d.isLt a.isLt imm.isLt
  refine readsBack_of_encode he fun hwf => ⟨?_, hlt⟩
  have hz : unpack [16, 2] (polImm op d.toNat a.toNat imm.toNat % 2 ^ 32) = [imm.toNat, 0] := congrArg (List.take 2) hi
  rw [decodeTableWord_policy, hd _ low b hwf hu hz]
  rfl

/-- SHDW and its query share an op; bit 0 of ECTL tells them apart (R261). -/
theorem shdw_ectl {h : Hdr} {p : PayE} (hwf : (Instr.shdw h p).wf = true) : p.ectl.getLsbD 0 = false := by
  simp only [Instr.wf, wfE, Bool.and_eq_true, decide_eq_true_eq] at hwf
  have h0 : p.ectl = 0 := BitVec.eq_of_toNat_eq (Nat.lt_one_iff.1 hwf.2)
  rw [h0]
  rfl

theorem shdwQry_ectl {h : Hdr} {p : PayE} (hwf : (Instr.shdwQry h p).wf = true) : p.ectl.getLsbD 0 = true := by
  simp only [Instr.wf, Bool.and_eq_true, beq_iff_eq] at hwf
  rw [hwf.2]
  rfl

/-- QUOTA of a tag shares QUOTA's op; bits 15:4 of QCTL tell them apart (R298). -/
theorem quota_qctl {h : Hdr} {p : PayQ} (hwf : (Instr.quota h p).wf = true) : (p.qctl.extractLsb' 4 12 == 0xFFF) = false := by
  simp only [Instr.wf, wfQ, Bool.and_eq_true, bne_iff_ne, ne_eq] at hwf
  exact beq_false_of_ne hwf.2

theorem quotaTag_qctl {h : Hdr} {p : PayQ} (hwf : (Instr.quotaTag h p).wf = true) : (p.qctl.extractLsb' 4 12 == 0xFFF) = true := by
  simp only [Instr.wf, wfQ, Bool.and_eq_true, beq_iff_eq] at hwf
  rw [hwf.2]
  rfl

/-- The row of SHDW and its query. -/
theorem opTable_shdw (h : Hdr) (v w1 : Nat) : opTable 0x303 h v w1 =
    some ((PayE.read v).map fun p => if p.ectl.getLsbD 0 then .shdwQry h p else .shdw h p) := rfl

/-- The row of QUOTA and its form for a tag. -/
theorem opTable_quota (h : Hdr) (v w1 : Nat) : opTable 0x340 h v w1 =
    some ((PayQ.read v).map fun p => if p.qctl.extractLsb' 4 12 == 0xFFF then .quotaTag h p else .quota h p) := rfl

/-- Every instruction is read back, layout by layout (R78): the payload's own lemma reads it back in the row of its op. -/
theorem readsBack (i : Instr) : ReadsBack i := by
  cases i with
  | exitEnd h p | br h p | brx h p | emit h p | steer h p | merge h p | gate h p | drop h p | iter h p | cntld h p | cntrd h p | cntstep h p
  | gotx h p | haltx h p
  | iadd h p | iadds h p | isub h p | isubs h p | imul h p | imulh h p | idiv h p | irem h p | ineg h p | iabs h p | imin h p | imax h p | imad h p
  | iclamp h p | andBits h p | orBits h p | xorBits h p | notBits h p | andn h p | shl h p | shr h p | shra h p | rotl h p | popc h p | clz h p
  | ctz h p | brev h p | bfx h p | bfi h p | icmpeq h p | icmpne h p | icmplt h p | icmple h p | icmpgt h p | icmpge h p | sel h p | mov h p
  | aadd h p | amad h p | asub h p | achk h p | fadd h p | fsub h p | fmul h p | fma h p | fms h p | fnma h p | fdiv h p | fsqrt h p | fmin h p
  | fmax h p | fneg h p | fabs h p | fcpys h p | fcmpeq h p | fcmpne h p | fcmplt h p | fcmple h p | fcmpun h p | fclass h p | frint h p | exp2 h p
  | log2 h p | rcp h p | rsq h p | tanh h p | sin h p
  | lbcast h p | lshuf h p | lrot h p | lsel h p | vmask h p | vget h p | liota h p | lscan h p | rsum h p | rmax h p | rmin h p | risum h p
  | rimax h p | rimin h p | rand h p | ror h p
  | cvt h p | cvti h p | cvtf h p | cvpk2 h p | cvpk4 h p | unpk2 h p | unpk4 h p | qblk h p | qapply h p
  | mset h p | mldb h p | mldt h p | mrow h p | mrows h p | mdrain h p | mout h p | mclr h p | mstat h p | mkin h p | mkout h p
  | ld h p | ldt h p | st h p | stt h p | ldg h p | stsc h p | ldacq h p | strel h p | pref h p | resid h p | evict h p | phase h p | fence h p
  | atadd h p | atand h p | ator h p | atxor h p | atmin h p | atmax h p | atxch h p | atcas h p | atfadd h p | binit h p | barr h p | bwait h p
  | waitb h p | waita h p
  | cpy h p | cpys h p | slotf h p | publ h p | evq h p | coll h p | draft h p
  | spawn h p | tagfree h p | purge h p | stallt h p | recol h p
  | trap h p | brk h p | rdsr h p | wrsr h p | yield h p | halt h p | hrd h p | hwr h p | fmtld h p | fmtrd h p | fmtsync h p | lgbind h p =>
    exact readsBack_main h p.fields rfl (by decide) p.fit rfl fun _ => row_some p.read_fields
  | lncpy h p | lnadd h p | lnsub h p | lnmul h p | lnfma h p | lnmax h p | lnmin h p | lndif h p | lnsum h p | lnrmx h p | lnrmn h p | lndot h p =>
    exact readsBack_nest h p rfl (by decide) (row_some p.read_fields)
  | shdw h p =>
    refine readsBack_main h p.fields rfl (by decide) p.fit rfl fun hwf => ?_
    rw [opTable_shdw, p.read_fields, Option.map_some, shdw_ectl hwf]
    rfl
  | shdwQry h p =>
    refine readsBack_main h p.fields rfl (by decide) p.fit rfl fun hwf => ?_
    rw [opTable_shdw, p.read_fields, Option.map_some, shdwQry_ectl hwf]
    rfl
  | quota h p =>
    refine readsBack_main h p.fields rfl (by decide) p.fit rfl fun hwf => ?_
    rw [opTable_quota, p.read_fields, Option.map_some, quota_qctl hwf]
    rfl
  | quotaTag h p =>
    refine readsBack_main h p.fields rfl (by decide) p.fit rfl fun hwf => ?_
    rw [opTable_quota, p.read_fields, Option.map_some, quotaTag_qctl hwf]
    rfl
  | lgAdd d a b | lgSub d a b | lgMul d a b | lgMax d a b | lgMin d a b | lgCmplt d a b | lgCmple d a b | lgCmpeq d a b =>
    exact readsBack_logit d a b 0 0 rfl (by decide) fun w hu => by simp [decodeLogit, hu]
  | lgFma d a b c | lgSel d a b c =>
    exact readsBack_logit d a b c 0 rfl (by decide) fun w hu => by simp [decodeLogit, hu]
  | lgAddi d a imm | lgMuli d a imm =>
    exact readsBack_logit d a 0 0 imm rfl (by decide) fun w hu => by simp [decodeLogit, hu]
  | lgMov d a | lgNeg d a | lgAbs d a | lgRcp d a | lgExp2 d a | lgLog2 d a =>
    exact readsBack_logit d a 0 0 0 rfl (by decide) fun w hu => by simp [decodeLogit, hu]
  | lgMovi d imm => exact readsBack_logit d 0 0 0 imm rfl (by decide) fun w hu => by simp [decodeLogit, hu]
  | lgMask a => exact readsBack_logit 0 a 0 0 0 rfl (by decide) fun w hu => by simp [decodeLogit, hu]
  | lgEnd => exact readsBack_logit 0 0 0 0 0 rfl (by decide) fun w hu => by simp [decodeLogit, hu]
  | polAdd d a b | polSub d a b | polMul d a b | polAnd d a b | polOr d a b | polXor d a b | polShl d a b | polShr d a b | polMin d a b
  | polMax d a b | polSltu d a b | polSeq d a b | polCsel d a b =>
    exact readsBack_polReg d a b rfl (by decide) fun w hu => by simp [decodePolicy, hu, unpack_policyImm, Instr.wf]
  | polAddi d a imm | polAndi d a imm | polShli d a imm | polShri d a imm | polRdc d a imm | polRdq d a imm | polRdr d a imm =>
    exact readsBack_polImm d a imm rfl (by decide) fun w low b hwf hu hi => by simp [decodePolicy, hu, hi, hwf]
  | polLdi d imm | polLdis d imm | polRdw d imm | polRdd d imm | polForeach d imm =>
    exact readsBack_polImm d 0 imm rfl (by decide) fun w low b hwf hu hi => by simp [decodePolicy, hu, hi, hwf]
  | polBrz a imm | polBrnz a imm =>
    exact readsBack_polImm 0 a imm rfl (by decide) fun w low b hwf hu hi => by simp [decodePolicy, hu, hi, hwf]
  | polPick a | polPreempt a | polKill a =>
    exact readsBack_polImm 0 a 0 rfl (by decide) fun w low b hwf hu hi => by simp [decodePolicy, hu, hi, hwf]
  | polJmp imm => exact readsBack_polImm 0 0 imm rfl (by decide) fun w low b hwf hu hi => by simp [decodePolicy, hu, hi, hwf]
  | polNext | polDefer => exact readsBack_polImm 0 0 0 rfl (by decide) fun w low b hwf hu hi => by simp [decodePolicy, hu, hi, hwf]
  | _ => exact readsBack_event rfl

/-- Settles O51: the three instruction sets, each by its decoder's row for the instruction's op. -/
theorem encodedInstructionsDecodeBack : Obligations.EncodedInstructionsDecodeBack := by
  unfold Obligations.EncodedInstructionsDecodeBack
  exact readsBack

/-! ### Words that the manual writes out (R72 to R83, R89, R194, R328) -/

/-- Settles O50: the words are closed numbers, so each decodes by evaluation. -/
theorem specWordsDecode : Obligations.SpecWordsDecode := by
  unfold Obligations.SpecWordsDecode
  exact ⟨rfl, rfl, rfl, rfl, rfl, rfl, rfl, rfl, rfl, rfl, rfl, rfl, rfl, rfl, rfl, rfl, rfl, rfl, rfl⟩

end Sys2Proof.Proofs
end

section
namespace Sys2Proof.Proofs
open Sys2Proof Sys2Proof.Machine Sys2Proof.Claims Sys2Proof.Laws
/-! ### Only a word that does not decode stops a step (R87, R88) -/

/-- Every instruction and event answers: it is one of the shared operations, which answer, or every branch of its meaning
ends in a next state. -/
theorem answers_exec (i : Instr) (s : State) : Answers (exec i s) := by
  cases i with
  -- Instructions that read their operands and then act on their own.
  | steer h p | drop h p | spawn h p | recol h p | trap h p | brk h p | rdsr h p | wrsr h p | yield h p | halt h p | hrd h p | hwr h p | fmtld h p
  | fmtrd h p | fmtsync h p | qblk h p =>
    dsimp only [exec]
    exact answers_withOps _ _ _ _ _
  | achk h p | liota h p =>
    dsimp only [exec]
    exact answers_pureOp _ _ _ _ _
  -- Control, counters and loop nests.
  | exitEnd h p | br h p | brx h p =>
    dsimp only [exec]
    exact answers_exitOp _ _ _ _
  | emit h p | merge h p | gate h p | iter h p =>
    dsimp only [exec]
    exact answers_routeOp _ _ _ _
  | cntld h p | cntrd h p | cntstep h p =>
    dsimp only [exec]
    exact answers_counterOp _ _ _ _ _
  | gotx h p | haltx h p =>
    dsimp only [exec]
    exact answers_ctlOp _ _ _ _
  | lncpy h p | lnadd h p | lnsub h p | lnmul h p | lnfma h p | lnmax h p | lnmin h p | lndif h p | lnsum h p | lnrmx h p | lnrmn h p | lndot h p =>
    dsimp only [exec]
    exact answers_nestOp _ _ _ _
  -- Integers, addresses, floats, lanes and conversions.
  | iadd h p | iadds h p | isub h p | isubs h p | imul h p | imulh h p | idiv h p | irem h p | ineg h p | iabs h p | imin h p | imax h p | imad h p
  | iclamp h p | andBits h p | orBits h p | xorBits h p | notBits h p | andn h p | shl h p | shr h p | shra h p | rotl h p | popc h p | clz h p
  | ctz h p | brev h p | bfx h p | bfi h p | icmpeq h p | icmpne h p | icmplt h p | icmple h p | icmpgt h p | icmpge h p | sel h p | mov h p =>
    dsimp only [exec]
    exact answers_intOp _ _ _ _
  | aadd h p | amad h p | asub h p =>
    dsimp only [exec]
    exact answers_addrOp _ _ _ _
  | fadd h p | fsub h p | fmul h p | fma h p | fms h p | fnma h p | fdiv h p | fsqrt h p =>
    dsimp only [exec]
    exact answers_roundOp _ _ _ _
  | fmin h p | fmax h p | fneg h p | fabs h p | fcpys h p | fcmpeq h p | fcmpne h p | fcmplt h p | fcmple h p | fcmpun h p | fclass h p =>
    dsimp only [exec]
    exact answers_floatOp _ _ _ _
  | frint h p | lscan h p | cvti h p | cvtf h p =>
    dsimp only [exec]
    exact answers_fmtOp _ _ _ _ _
  | exp2 h p | log2 h p | rcp h p | rsq h p | tanh h p | sin h p =>
    dsimp only [exec]
    exact answers_transOp _ _ _ _
  | lbcast h p | lshuf h p | lrot h p | lsel h p | vmask h p | vget h p =>
    dsimp only [exec]
    exact answers_slotOp _ _ _ _
  | rsum h p | rmax h p | rmin h p =>
    dsimp only [exec]
    exact answers_floatReduce _ _ _ _
  | risum h p | rimax h p | rimin h p | rand h p | ror h p =>
    dsimp only [exec]
    exact answers_intReduce _ _ _ _
  | cvt h p | cvpk2 h p | unpk2 h p | unpk4 h p | qapply h p =>
    dsimp only [exec]
    exact answers_cvtOp _ _ _ _ _ _
  | cvpk4 h p =>
    dsimp only [exec, execCvpk4]
    exact answers_cvtOp _ _ _ _ _ _
  -- The matrix engine.
  | mset h p | mrow h p | mrows h p | mout h p | mclr h p | mstat h p | mkin h p =>
    dsimp only [exec]
    exact answers_matrixOp _ _ _ _ _
  | mldb h p | mldt h p =>
    dsimp only [exec]
    exact answers_panelOp _ _ _ _
  | mdrain h p | mkout h p =>
    dsimp only [exec]
    exact answers_drainOp _ _ _ _ _ _
  -- Memory, waits, engines and quotas.
  | ld h p | ldt h p =>
    dsimp only [exec]
    exact answers_loadOp _ _ _ _ _ _
  | ldacq h p =>
    dsimp only [exec, execLdacq]
    exact answers_loadOp _ _ _ _ _ _
  | stt h p | ldg h p | stsc h p | phase h p | fence h p | binit h p | barr h p | waita h p | cpys h p | slotf h p | shdw h p | shdwQry h p
  | publ h p | evq h p | coll h p | draft h p | lgbind h p | st h p | strel h p =>
    dsimp only [exec]
    exact answers_memOp _ _ _
  | pref h p | resid h p | evict h p =>
    dsimp only [exec]
    exact answers_hintOp _ _ _ _ _
  | atadd h p | atand h p | ator h p | atxor h p | atmin h p | atmax h p | atxch h p | atcas h p =>
    dsimp only [exec]
    exact answers_intAtomic _ _ _ _
  | atfadd h p =>
    dsimp only [exec, execAtfadd]
    exact answers_atomicOp _ _ _ _ _ _ _ _ _
  | bwait h p | waitb h p =>
    dsimp only [exec]
    exact answers_waitOp _ _ _ _ _
  | cpy h p =>
    dsimp only [exec]
    exact answers_copyOp _ _ _ _
  | quota h p | tagfree h p | purge h p | quotaTag h p | stallt h p =>
    dsimp only [exec]
    exact answers_quotaOp _ _ _ _ _
  -- Logit programs and policies.
  | lgAdd d a b | lgSub d a b | lgMul d a b | lgFma d a b c | lgAddi d a imm | lgMuli d a imm | lgRcp d a | lgExp2 d a | lgLog2 d a =>
    dsimp only [exec]
    exact answers_logitRound _ _ _
  | lgMovi d imm | lgMov d a | lgMax d a b | lgMin d a b | lgNeg d a | lgAbs d a | lgSel d a b c | lgMask a =>
    dsimp only [exec]
    exact answers_logitOp _ _
  | lgCmplt d a b | lgCmple d a b | lgCmpeq d a b =>
    dsimp only [exec]
    exact answers_logitCmp _ _ _ _ _
  | lgEnd =>
    dsimp only [exec, execLgEnd]
    repeat' split
    all_goals exact answers _
  | polAdd d a b | polSub d a b | polMul d a b | polAnd d a b | polOr d a b | polXor d a b | polShl d a b | polShr d a b | polMin d a b
  | polMax d a b | polSltu d a b | polSeq d a b =>
    dsimp only [exec]
    exact answers_polBin _ _ _ _ _
  | polCsel d a b | polLdi d imm | polLdis d imm | polAddi d a imm | polAndi d a imm | polShli d a imm | polShri d a imm | polRdc d a imm
  | polRdq d a imm | polRdr d a imm | polRdw d imm | polRdd d imm =>
    dsimp only [exec]
    exact answers_polSet _ _ _
  | polBrz a imm | polBrnz a imm | polJmp imm | polForeach d imm | polNext =>
    dsimp only [exec]
    exact answers_polStep _ _
  | polPick a | polPreempt a | polDefer | polKill a =>
    dsimp only [exec]
    exact answers_polOutcome _ _
  -- Events with a single outcome.
  | goToken n tag | haltToken n tag | belfryDisable w | tinval w v | powerPeriod | thermalLimit die | cxlSnoop pa | bkptStep k | bkptDisarm k
  | debugBreakWrite w on | badcClear spire | qspireClear mask | registerWrite offset v | frauthPortTrain port rate | frauthPortDown port
  | flitReplay port | temperatureChange die tj dram | creditReturn c colour | hostWriteLiveWord pa v | linkDown | coldReset
  | hostLinkTrain gen width cxl | pldmMonitor | pldmFirmwareUpdate image =>
    exact answers _
  -- Events of channels, cells, contexts, engines and lanterns: each of their branches ends in a next state.
  | tokenAccept c colour | tokenSend c colour =>
    dsimp only [exec, execTokenAccept, execTokenSend]
    repeat' split
    all_goals exact answers _
  | firingChoice cell | blockFetch cell node blk | memoryResponse cell seq | translationWalk cell colour va | instanceCommit cell
  | releasePerformed cell seq | loopNestOuterPoint cell | formatChangeReach x cell | monitorEvent cell seq | waitTimeout cell seq =>
    dsimp only [exec, execFiringChoice, execBlockFetch, execMemoryResponse, execTranslationWalk, execInstanceCommit, execReleasePerformed,
      execLoopNestOuterPoint, execFormatChangeReach, execMonitorEvent, execWaitTimeout]
    repeat' split
    all_goals exact answers _
  | stallTimer n port colour | excDelivery x | watchdogExpiry cell seq | parityError c colour | hardFault c colour | partialTokenAbort c colour
  | purgeReset x | drainReceive w | belfrySwap w | belfryEnable w v =>
    dsimp only [exec, execStallTimer, execExcDelivery, execWatchdogExpiry, execParityError, execHardFault, execPartialTokenAbort,
      execPurgeReset, execDrainReceive, execBelfrySwap, execBelfryEnable]
    repeat' split
    all_goals exact answers _
  | chunkComplete op chunk | copyComplete op | engineFault op | streamTile op | noticeAccept cell | collComplete op | collTimeout op
  | eventRecord spire =>
    dsimp only [exec, execChunkComplete, execCopyComplete, execEngineFault, execStreamTile, execNoticeAccept, execCollComplete, execCollTimeout,
      execEventRecord]
    repeat' split
    all_goals exact answers _
  | streamHeader n colour | logitToken n colour | streamDraw n colour iter | lanternCommitToken n colour | draftWalkDone op =>
    dsimp only [exec, execStreamHeader, execLogitToken, execStreamDraw, execLanternCommitToken, execDraftWalkDone]
    repeat' split
    all_goals exact answers _
  -- Queues and their packets.
  | launch w q img | abortPurge w q =>
    dsimp only [exec]
    exact answers_runPkt _ _ _ _ _ _
  | wait w q =>
    dsimp only [exec, execWait]
    split
    · exact answers _
    · exact answers_runPkt _ _ _ _ _ _
  | signal w q =>
    dsimp only [exec, execSignal]
    split
    · exact answers _
    · split
      · split
        · exact answers _
        · exact answers _
      · exact answers_runPkt _ _ _ _ _ _
  | policySwap w q =>
    dsimp only [exec, execPolicySwap]
    split
    · exact answers _
    · split
      · exact answers _
      · split
        · exact answers _
        · exact answers _
        · exact answers_runPkt _ _ _ _ _ _
  | abortCancel w q | abortKill w q =>
    dsimp only [exec, execAbortCancel, execAbortKill]
    split
    · exact answers _
    · exact answers_runPkt _ _ _ _ _ _
  | waitPacketTimeout w q | queueStart w q | queueStop w q | queueResume w q quar | queueClearQuar w q | ridxWrite w q v =>
    dsimp only [exec, execWaitPacketTimeout, execQueueStart, execQueueStop, execQueueResume, execQueueClearQuar, execRidxWrite]
    repeat' split
    all_goals exact answers _
  -- Decisions, tasks and cuts.
  | dispatchDecision w slot | preemptDecision w task | faultDecision w task | policyBudgetExpiry w | decisionCommit w | sliceExpiry w task
  | quarantineSliceExpiry w task =>
    dsimp only [exec, execDispatchDecision, execPreemptDecision, execFaultDecision, execPolicyBudgetExpiry, execDecisionCommit, execSliceExpiry,
      execQuarantineSliceExpiry]
    repeat' split
    all_goals exact answers _
  | configPacket w task sec | launchComplete w task | recqTileSend w task | taskComplete w task | cutBegin x | markerArrive n | cutComplete x
  | saveDeadlineExpiry x | restore w task =>
    dsimp only [exec, execConfigPacket, execLaunchComplete, execRecqTileSend, execTaskComplete, execCutBegin, execMarkerArrive, execCutComplete,
      execSaveDeadlineExpiry, execRestore]
    repeat' split
    all_goals exact answers _
  -- Requests to SP, keys, functions and links.
  | create w prot sys cells granules | grant w cells granules | reclaim w cells granules | destroy w | keyInstall by_ w slot keys
  | keyRetire by_ w slot | kekInstall w kek | keyImport w kek blob nctrs | unlock token | unlockChallenge nonce | getTdispVersion w
  | getTdispCapabilities w | lockInterfaceRequest w | getDeviceInterfaceReport w | getDeviceInterfaceState w | startInterfaceRequest w
  | stopInterfaceRequest w | getMeasurements w | ideKm w | spdmSessionEstablish w =>
    dsimp only [exec]
    exact answers_request _ _ _
  | keyWrap w | functionReady fn ok | frauthRequest w pa r =>
    dsimp only [exec, execKeyWrap, execFunctionReady, execFrauthRequest]
    repeat' split
    all_goals exact answers _

/-! #### What a step can do -/

theorem runFocus_idle {s : State} (h : fetched s = none) : runFocus s = .next (tick s 1) := by
  unfold runFocus
  rw [h]

theorem runFocus_undecodable {s : State} {r : Reject} (h : fetched s = some (.error r)) : runFocus s = .fault .badWord := by
  unfold runFocus
  rw [h]

/-- Running the focus answers unless what it fetches is no instruction. -/
theorem answers_runFocus {s : State} (h : ∀ r, fetched s ≠ some (.error r)) : Answers (runFocus s) := by
  match hf : fetched s with
  | none => exact ⟨_, runFocus_idle hf⟩
  | some (.ok i) =>
    rw [run_ok_steps hf]
    exact answers_exec i s
  | some (.error r) => exact absurd hf (h r)

theorem not_answers_undecodable {s : State} {r : Reject} (h : fetched s = some (.error r)) : ¬ Answers (runFocus s) := by
  rintro ⟨t, ht⟩
  rw [runFocus_undecodable h] at ht
  cases ht

theorem answers_runFocus_iff (s : State) : Answers (runFocus s) ↔ ∀ r, fetched s ≠ some (.error r) :=
  ⟨fun ha _ hr => not_answers_undecodable hr ha, answers_runFocus⟩

theorem runFocus_answers_or_stops (s : State) : Answers (runFocus s) ∨ runFocus s = .fault .badWord := by
  by_cases h : ∃ r, fetched s = some (.error r)
  · obtain ⟨r, hr⟩ := h
    exact .inr (runFocus_undecodable hr)
  · exact .inl (answers_runFocus (not_exists.1 h))

/-- A move runs the focus that it turns to, brings an event, or answers by itself. -/
theorem moveStep_answers_or_stops (s : State) (m : Move) : Answers (moveStep s m) ∨ moveStep s m = .fault .badWord := by
  cases m with
  | event i =>
    left
    dsimp only [moveStep]
    split
    · exact answers_exec i s
    · exact answers s
  | run _ _ | policy _ | logit => exact runFocus_answers_or_stops _
  | _ => exact .inl (answers _)

theorem step_of_agenda_nil {s : State} (h : s.agenda = []) : step s = runFocus s := by
  unfold step
  rw [h]

theorem step_of_agenda_cons {s : State} {m : Move} {l : List Move} (h : s.agenda = m :: l) :
    step s = moveStep { s with agenda := l } m := by
  unfold step
  rw [h]

/-- Settles O56: every meaning answers, so a step stops only at a word in focus that does not decode. -/
theorem onlyUndecodableWordStops : Obligations.OnlyUndecodableWordStops := by
  unfold Obligations.OnlyUndecodableWordStops
  refine ⟨answers_exec, fun s hs => ?_, fun s m l hs => ?_⟩
  · rw [step_of_agenda_nil hs]
    exact ⟨answers_runFocus_iff s, fun ⟨_, hr⟩ => runFocus_undecodable hr⟩
  · rw [step_of_agenda_cons hs]
    exact moveStep_answers_or_stops _ m

end Sys2Proof.Proofs
end

section
namespace Sys2Proof.Proofs
open Sys2Proof Sys2Proof.Machine Sys2Proof.Claims Sys2Proof.Laws

/-! ### Control and graph instructions (R89 to R104) -/

section
variable {h : Hdr} {p : PayC} {s : State} {b : BInst} {xs : List Val}

/-! #### Exits (R90 to R92) -/

/-- An exit instruction takes its exit where none is taken yet, and otherwise leaves the lower one. -/
theorem exitOp_takes (f : List Val → Exit) (hf : Fires h (k0Const p.k0) s b xs) :
    (b.exit = none → exitOp h p s f = .next (putInst s { b with pc := b.pc + 1, exit := some (f xs) }))
    ∧ (b.exit ≠ none → exitOp h p s f = .next (putInst s { b with pc := b.pc + 1 })) := by
  obtain ⟨hfirst, hlater⟩ := takeExit_eq (f xs) b
  have he : exitOp h p s f = .next (putInst s (advance 1 (takeExit (f xs) b))) := withOps_fires _ _ hf
  exact ⟨fun hb => by rw [he, hfirst hb], fun hb => by rw [he, hlater hb]⟩

theorem brxIndex_of_valid {x : Val} {w : Slot} (hx : slotOf x 0 = some w) (n : Nat) : brxIndex x (n + 1) = min w.toNat n := by
  unfold brxIndex
  rw [hx]
  rfl

theorem brxIndex_of_invalid {x : Val} (hx : slotOf x 0 = none) (n : Nat) : brxIndex x (n + 1) = min 0 n := by
  unfold brxIndex
  rw [hx]
  rfl

/-! #### Routing values (R95 to R100) -/

theorem routeOp_fires (f : BInst → List Val → Val) (hf : Fires h (k0Const p.k0) s b xs) :
    routeOp h p s f = .next (delivered h p.auxi s b 1 (f b xs) (predGeneral (f b xs))) := pureOp_fires _ _ hf

/-- A routing instruction delivers its value with the predicate bit of R411. -/
theorem routeOp_delivers (f : BInst → List Val → Val) (hf : Fires h (k0Const p.k0) s b xs) :
    ∃ q, routeOp h p s f = .next (delivered h p.auxi s b 1 (f b xs) q) ∧ (q = true ↔ ∃ w, slotOf (f b xs) 0 = some w ∧ w ≠ 0) :=
  ⟨_, routeOp_fires f hf, general_iff _⟩

/-- An instruction waits for an operand that is not there (R39). -/
theorem withOps_waits {consts : Nat → Val} {off : BInst → BInst} {body : BInst → List Val → State} (he : Executes s b)
    (ho : operands h consts b = none) : withOps h consts s off body = .next s := by
  obtain ⟨hfocus, hstage, hquiet⟩ := he
  unfold withOps
  simp [hfocus, hstage, hquiet, ho]

end

/-- Slot k goes to the side for a zero selector or the side for a nonzero one (R96). -/
def Goes (slotw : Bool) (sel : Val) (zero : Bool) (k : Nat) : Prop :=
  if slotw then ∃ y, slotOf sel k = some y ∧ (if zero then y = 0 else y ≠ 0)
  else ∃ y, ((List.range 16).filterMap (slotOf sel)).head? = some y ∧ (if zero then y = 0 else y ≠ 0)

/-- The mask of one side of STEER. -/
def steerMask (slotw : Bool) (x sel : Val) (zero : Bool) : BitVec 16 := if zero then (steerMasks slotw x sel).2 else (steerMasks slotw x sel).1

/-- A side's mask has the valid slots that go to that side. -/
theorem steerMask_iff (slotw : Bool) (x sel : Val) (zero : Bool) {k : Nat} (hk : k < 16) :
    (steerMask slotw x sel zero).getLsbD k = true ↔ x.valid.getLsbD k = true ∧ Goes slotw sel zero k := by
  unfold steerMask steerMasks
  cases slotw with
  | true =>
    simp only [Goes, slotOf, if_true]
    cases zero <;> simp [getLsb_pack _ k hk, and_assoc]
  | false =>
    simp only [Goes, ← lowest_spec, Bool.false_eq_true, if_false]
    cases lowestValid sel with
    | none => cases zero <;> simp
    | some j => by_cases hj : slotBits sel j = 0#32 <;> cases zero <;> simp [hj]

/-- A side of STEER delivers the operand's slots that go to it, and no other slot. -/
theorem slotOf_steered (slotw : Bool) (x sel : Val) (zero : Bool) {k : Nat} (hk : k < 16) :
    (Goes slotw sel zero k → slotOf (maskVal x (steerMask slotw x sel zero)) k = slotOf x k)
    ∧ (¬ Goes slotw sel zero k → slotOf (maskVal x (steerMask slotw x sel zero)) k = none) := by
  have hm := steerMask_iff slotw x sel zero hk
  rw [slot_maskVal x _ k hk fun hb => (hm.1 hb).1]
  refine ⟨fun hg => ?_, fun hg => if_neg fun hb => hg (hm.1 hb).2⟩
  by_cases hx : x.valid.getLsbD k = true
  · exact if_pos (hm.2 ⟨hx, hg⟩)
  · rw [if_neg fun hb => hx (hm.1 hb).1]
    exact (if_neg hx).symm

theorem steerTarget_eq (dropc : Bool) (t : Target) (m : BitVec 16) :
    steerTarget dropc t m = if dropc = true ∧ t.isChan = true ∧ m = 0 then .none else t := by
  unfold steerTarget
  simp [and_assoc]

/-- STEER delivers its operand under the mask of each side (R96). -/
theorem steer_fires {h : Hdr} {p : PayC} {s : State} {b : BInst} {x sel : Val} (hf : Fires h (k0Const p.k0) s b [x, sel]) :
    let m := steerMask (p.cctl.getLsbD 0) x sel
    let target := steerTarget (p.cctl.getLsbD 1)
    execSteer h p s = .next (putInst s (advance 1 (deliver { h with t0 := target h.t0 (m false), t1 := target h.t1 (m true) } p.auxi
      { v0 := maskVal x (m false), p0 := m false != 0, v1 := maskVal x (m true), p1 := m true != 0 } b))) := by
  unfold execSteer
  rw [withOps_fires _ _ hf]
  rfl

/-- ITER delivers no slot 0, so its predicate bit is 0 (R100, R411). -/
theorem predGeneral_iterVal (b : BInst) (exts : List Nat) : predGeneral (iterVal b exts) = false := by
  have h0 : slotOf (iterVal b exts) 0 = none := by
    unfold iterVal
    cases b.point with
    | none => exact slot_noVal 0
    | some q => exact slotOf_valOf _ 0 (by decide)
  refine Bool.eq_false_iff.2 fun hq => ?_
  obtain ⟨w, hw, _⟩ := (general_iff _).1 hq
  cases h0.symm.trans hw

/-! #### Counters (R101 to R103) -/

section
variable {h : Hdr} {p : PayC} {s : State} {b : BInst} {xs : List Val}

/-- A counter that the node does not own, or that a writer finds held by a nest, raises PERMISSION (R102). -/
theorem counterOp_refused {writes : Bool} (body : BInst → List Val → BInst) (hf : Fires h (k0Const p.k0) s b xs)
    (hr : ownsCounter s b (p.cctl.toNat % 8) = false ∨ (writes = true ∧ nestHolds s b (p.cctl.toNat % 8) = true)) :
    counterOp h p s writes body = .next (raise s b (fail .permission)) := by
  unfold counterOp
  rw [withOps_fires _ _ hf]
  refine congrArg _ (if_pos ?_)
  obtain ho | ⟨rfl, hn⟩ := hr
  · rw [ho]; rfl
  · rw [hn]; exact Bool.or_true _

theorem counterOp_performed {writes : Bool} (body : BInst → List Val → BInst) (hf : Fires h (k0Const p.k0) s b xs)
    (ho : ownsCounter s b (p.cctl.toNat % 8) = true) (hn : writes = true → nestHolds s b (p.cctl.toNat % 8) = false) :
    counterOp h p s writes body = .next (putInst s (advance 1 (body b xs))) := by
  unfold counterOp
  rw [withOps_fires _ _ hf]
  refine congrArg _ (if_neg ?_)
  rw [ho]
  cases writes with
  | false => exact Bool.false_ne_true
  | true => rw [hn rfl]; exact Bool.false_ne_true

/-- What CNTLD leaves to the commit: nothing where slot 0 of its operand is invalid (R103). -/
theorem cntld_performed {x : Val} (hf : Fires h (k0Const p.k0) s b [x]) (ho : ownsCounter s b (p.cctl.toNat % 8) = true)
    (hn : nestHolds s b (p.cctl.toNat % 8) = false) :
    execCntld h p s = .next (putInst s { b with
      pc := b.pc + 1
      effs := b.effs ++ ((slotOf x 0).map fun w => Eff.counterLoad (p.cctl.toNat % 8) w
        (if p.cctl.getLsbD 6 then some (p.cctl.toNat / 8 % 8) else none)).toList }) := by
  refine (counterOp_performed _ hf ho fun _ => hn).trans ?_
  rw [show ([x].getD 0 noVal) = x from rfl]
  cases slotOf x 0 with
  | none => simp [advance]
  | some w => rfl

end

theorem cntValue_eq (w : Word64) : cntValue w = w.toNat % 65536 := by simp [cntValue, bits]

theorem cntLimit_eq (w : Word64) : cntLimit w = w.toNat / 65536 % 65536 := by simp [cntLimit, bits]

/-- The fields of a counter word put together: CHAIN and its valid bit, LIMIT and VALUE. -/
theorem counterWord_fields {ch lim v : Nat} (hch : ch < 16) (hlim : lim < 65536) (hv : v < 65536) :
    let x : Word64 := BitVec.ofNat 64 (ch * 2 ^ 36 + lim * 2 ^ 16 + v)
    cntLimit x = lim ∧ cntValue x = v ∧ x.getLsbD 39 = decide (8 ≤ ch) ∧ x.toNat / 2 ^ 36 % 8 = ch % 8 := by
  intro x
  have hx : x.toNat = ch * 2 ^ 36 + lim * 2 ^ 16 + v := by
    rw [BitVec.toNat_ofNat]
    omega
  refine ⟨?_, ?_, ?_, ?_⟩
  · rw [cntLimit_eq]; omega
  · rw [cntValue_eq]; omega
  · rw [BitVec.getLsbD, Nat.testBit_eq_decide_div_mod_eq, decide_eq_decide]; omega
  · omega

/-- A loaded counter has the word's LIMIT, its VALUE reduced to that limit, and the given chain (R103). -/
theorem loadCounter_spec (cell : Nat) (m : FMap Word64) (k : Nat) (w : BitVec 32) (c : Option Nat) (hc : ∀ x, c = some x → x < 8) :
    let x := mget 0 (loadCounter cell m k w c) (counterKey cell k)
    let lim := w.toNat / 65536
    cntLimit x = lim ∧ cntValue x = w.toNat % 65536 % (if lim = 0 then 65536 else lim) ∧ x.getLsbD 39 = c.isSome ∧ x.toNat / 2 ^ 36 % 8 = c.getD 0 := by
  intro x lim
  have hw := w.isLt
  have hv : w.toNat % 65536 % (if lim = 0 then 65536 else lim) < 65536 :=
    Nat.lt_of_le_of_lt (Nat.mod_le _ _) (Nat.mod_lt _ (by decide))
  have hlim : bits w.toNat 31 16 = lim := by unfold bits; omega
  have hval : bits w.toNat 15 0 = w.toNat % 65536 := by simp [bits]
  have hx : x = BitVec.ofNat 64 ((c.elim 0 (8 + ·)) * 2 ^ 36 + lim * 2 ^ 16 + w.toNat % 65536 % (if lim = 0 then 65536 else lim)) := by
    refine (mget_mput_same _ _ _ _).trans ?_
    rw [hlim, hval]
    cases c with
    | none => simp [counterLim]
    | some y => simp [counterLim, Nat.add_mul]
  rw [hx]
  cases c with
  | none => exact counterWord_fields (ch := 0) (by decide) (by omega) hv
  | some y =>
    have hy := hc y rfl
    obtain ⟨h1, h2, h3, h4⟩ := counterWord_fields (ch := 8 + y) (by omega) (lim := lim) (by omega) hv
    exact ⟨h1, h2, h3.trans (decide_eq_true (by omega)), h4.trans (show (8 + y) % 8 = y by omega)⟩

/-- Writing VALUE leaves the rest of a counter word as it is. -/
theorem cntValue_setValue (w : Word64) {v : Nat} (hv : v < 65536) : cntValue (BitVec.ofNat 64 (w.toNat - cntValue w + v)) = v := by
  have hw := w.isLt
  rw [cntValue_eq, cntValue_eq, BitVec.toNat_ofNat]
  omega

/-- A step short of the limit adds 1 to VALUE and wraps no counter (R103). -/
theorem stepCounter_counts (cell fuel : Nat) (m : FMap Word64) (k : Nat) :
    let w := mget 0 m (counterKey cell k)
    let x := mget 0 (stepCounter cell (fuel + 1) m k).1 (counterKey cell k)
    cntValue w + 1 ≠ counterLim (cntLimit w) → cntValue w < counterLim (cntLimit w) →
      cntValue x = cntValue w + 1 ∧ (stepCounter cell (fuel + 1) m k).2 = 0 := by
  intro w x hne hlt
  have hstep : stepCounter cell (fuel + 1) m k = (mput 0 m (counterKey cell k) (BitVec.ofNat 64 (w.toNat - cntValue w + (cntValue w + 1))), 0) :=
    if_neg hne
  have hmax : counterLim (cntLimit w) ≤ 65536 := by
    have := cntLimit_eq w
    unfold counterLim
    split <;> omega
  refine ⟨?_, congrArg Prod.snd hstep⟩
  rw [show x = _ from congrArg (fun r => mget 0 r.1 (counterKey cell k)) hstep, mget_mput_same]
  exact cntValue_setValue w (by omega)

/-- A step at the limit of a counter that chains to none puts VALUE at 0, and tells that counter alone (R103). -/
theorem stepCounter_wraps (cell fuel : Nat) (m : FMap Word64) (k : Nat) :
    let w := mget 0 m (counterKey cell k)
    let x := mget 0 (stepCounter cell (fuel + 1) m k).1 (counterKey cell k)
    cntValue w + 1 = counterLim (cntLimit w) → w.getLsbD 39 = false → cntValue x = 0 ∧ (stepCounter cell (fuel + 1) m k).2 = 2 ^ k := by
  intro w x heq hchain
  have hstep : stepCounter cell (fuel + 1) m k = (mput 0 m (counterKey cell k) (BitVec.ofNat 64 (w.toNat - cntValue w)), 2 ^ k) :=
    (if_pos heq).trans (if_neg (by rw [hchain]; decide))
  refine ⟨?_, congrArg Prod.snd hstep⟩
  rw [show x = _ from congrArg (fun r => mget 0 r.1 (counterKey cell k)) hstep, mget_mput_same]
  exact cntValue_setValue w (v := 0) (by decide)

/-! #### Control tokens (R104) -/

theorem ctlEffs_eq {n : Nat} (go : Bool) (m : BitVec n) :
    ctlEffs go m.toNat = ((List.range 4).filter fun i => m.getLsbD i).map (Eff.ctl go) := by
  unfold ctlEffs
  congr 2
  funext i
  rw [BitVec.getLsbD, Nat.testBit_eq_decide_div_mod_eq]
  rfl

theorem ctlOp_fires {h : Hdr} {p : PayC} {s : State} {b : BInst} {xs : List Val} (go : Bool) (hf : Fires h (k0Const p.k0) s b xs) :
    ctlOp h p s go = .next (putInst s { b with
      pc := b.pc + 1
      effs := b.effs ++ ((List.range 4).filter fun i => p.cctl.getLsbD i).map (Eff.ctl go) }) := by
  rw [← ctlEffs_eq]
  exact withOps_fires _ _ hf

/-! #### Loop nests (R107 to R109) -/

theorem nestElements_of_codes {i : Hdr → PayN → Instr} {f : Fmt → List Nat → Nat}
    (hi : ∀ h p s, exec (i h p) s = nestOp h p s fun _ _ _ => .elem fun e _ l => f e l) : NestElements i fun e _ _ l => f e l :=
  nestElems hi fun _ _ _ => rfl

theorem nestElements_of_round {i : Hdr → PayN → Instr} {f : Bool → Machine.Num → Machine.Num → Machine.Num → Machine.Num}
    (hi : ∀ h p s, exec (i h p) s = nestOp h p s (nestRound fun down d a b => (f down d a b).toExact)) :
    NestElements i fun e m noise l =>
      roundNum (f (isDown m e) (decodeElem e (l.getD 0 0)) (decodeElem e (l.getD 1 0)) (decodeElem e (l.getD 2 0))) e m noise :=
  nestElems hi fun _ _ _ => rfl

/-- A summing reduction gathers one term per element, and rounds d with their exact sum once (R108). -/
theorem nestReduces_of_terms {i : Hdr → PayN → Instr} {term : Fmt → List Nat → Machine.Num}
    (hi : ∀ h p s, exec (i h p) s = nestOp h p s fun _ _ _ => .sum term) :
    NestReduces i fun e m noise d run =>
      roundNum (sumNums (isDown m e) [decodeElem e d, sumNums (isDown m e) (run.map (term e))]) e m noise := by
  refine nestRed (fun e l => l.map (term e)) (fun _ c _ => c) (fun _ _ => ⟨rfl, rfl⟩) ?_ (fun _ _ _ _ _ => rfl) hi
  rintro b e c0 _ codes l rfl
  simp

/-- A reduction to the best element keeps one code, which each element of the run may replace (R108). -/
theorem nestReduces_of_best {i : Hdr → PayN → Instr} {big : Bool} (hi : ∀ h p s, exec (i h p) s = nestOp h p s fun _ _ _ => .best big) :
    NestReduces i fun e _ _ d run => run.foldl (fun c l => pickCode e big c (l.getD 1 0)) d := by
  refine nestRed (fun _ _ => []) (fun e c l => l.foldl (fun c y => pickCode e big c (y.getD 1 0)) c) (fun _ _ => ⟨rfl, rfl⟩) ?_ (fun _ _ _ _ _ => rfl) hi
  rintro b e c0 _ codes l rfl
  simp

/-! #### The statements -/

/-- Settles O11: END, BR and BRX are the common exit form, each with its own exit. -/
theorem exitsTaken : Obligations.ExitsTaken := by
  unfold Obligations.ExitsTaken
  refine ⟨fun h p s b xs hf => exitOp_takes _ hf, fun h p s b xs hf => exitOp_takes _ hf, fun h p s b x xs hf => ?_⟩
  have ht := exitOp_takes (fun xs => .chain (p.blk.toNat + brxIndex (xs.getD 0 noVal) (p.cctl.toNat % 64 + 1)) (xs.drop 1)) hf
  simp only [List.getD_cons_zero, List.drop_succ_cons, List.drop_zero] at ht
  cases hx : slotOf x 0 with
  | none => rw [brxIndex_of_invalid hx] at ht; exact ht
  | some w => rw [brxIndex_of_valid hx] at ht; exact ht

/-- Settles O16: each side of STEER by its mask, and ITER's slots by its value. -/
theorem steerAndIterResults : Obligations.SteerAndIterResults := by
  unfold Obligations.SteerAndIterResults
  refine ⟨fun h p s b x sel hf => ?_, fun h p s b xs hf => ?_⟩
  · refine ⟨maskVal x (steerMask _ x sel false), maskVal x (steerMask _ x sel true), ?_,
      fun k hk => slotOf_steered _ x sel false hk, fun k hk => slotOf_steered _ x sel true hk⟩
    simp only [valid_maskVal, ← steerTarget_eq]
    exact steer_fires hf
  · refine ⟨_, _, routeOp_fires _ hf, predGeneral_iterVal _ _, fun k hk => ?_⟩
    unfold iterVal
    cases b.point with
    | none => exact slot_noVal k
    | some q => exact slotOf_valOf _ k hk

/-- Settles O17: each counter instruction is refused or performed, a load and a step work on the fields of the counter word, and the
successors of a control token are the set bits of its mask. -/
theorem countersAndControlTokens : Obligations.CountersAndControlTokens := by
  unfold Obligations.CountersAndControlTokens
  refine ⟨⟨fun h p s b xs hf => ⟨fun ho i hi => ?_, fun hn i hi => ?_, fun ho => ?_, fun ho hn => ⟨?_, ?_⟩⟩, loadCounter_spec,
    fun cell m k => ⟨stepCounter_counts cell 7 m k, stepCounter_wraps cell 7 m k⟩⟩, fun h p s b xs hf => ⟨ctlOp_fires true hf, ctlOp_fires false hf⟩⟩
  · simp only [List.mem_cons, List.not_mem_nil, or_false] at hi
    obtain rfl | rfl | rfl := hi <;> exact counterOp_refused _ hf (.inl ho)
  · simp only [List.mem_cons, List.not_mem_nil, or_false] at hi
    obtain rfl | rfl := hi <;> exact counterOp_refused _ hf (.inr ⟨rfl, hn⟩)
  · exact ⟨_, _, counterOp_performed _ hf ho nofun, fun j hj => slotOf_word32 _ j hj⟩
  · rintro x rfl
    refine (cntld_performed hf ho hn).trans ?_
    cases slotOf x 0 <;> rfl
  · exact ⟨_, _, _, counterOp_performed _ hf ho fun _ => hn, rfl, fun j hj => slotOf_first2 _ _ j hj⟩

/-- Settles O18: each nest by the form of its kind: codes as they are, one rounding per element, a rounded sum, or a best code. -/
theorem loopNestResults : Obligations.LoopNestResults := by
  unfold Obligations.LoopNestResults
  refine ⟨⟨?lncpy, ?lnadd, ?lnsub, ?lnmul, ?lnfma, ?lnmax, ?lnmin, ?lndif⟩, ?lnsum, ?lndot, ?lnrmx, ?lnrmn⟩
  case lncpy | lnmax | lnmin => exact nestElements_of_codes fun _ _ _ => rfl
  case lnadd => exact nestElements_of_round (f := fun down _ a b => sumNums down [a, b]) fun _ _ _ => rfl
  case lnsub => exact nestElements_of_round (f := fun down _ a b => sumNums down [a, b.neg]) fun _ _ _ => rfl
  case lnmul => exact nestElements_of_round (f := fun _ _ a b => a.mul b) fun _ _ _ => rfl
  case lnfma => exact nestElements_of_round (f := fun down d a b => sumNums down [a.mul b, d]) fun _ _ _ => rfl
  case lndif => exact nestElements_of_round (f := fun down _ a b => (sumNums down [a, b.neg]).abs) fun _ _ _ => rfl
  case lnsum | lndot => exact nestReduces_of_terms fun _ _ _ => rfl
  case lnrmx | lnrmn => exact nestReduces_of_best fun _ _ _ => rfl

/-- Settles O12: EMIT routes operand 0. -/
theorem emitDeliversOperand : Obligations.EmitDeliversOperand := by
  unfold Obligations.EmitDeliversOperand
  exact fun h p s b x hf => routeOp_delivers _ hf

/-- Settles O13: MERGE routes in each slot the first valid one of its operands. -/
theorem mergeTakesLowestValid : Obligations.MergeTakesLowestValid := by
  unfold Obligations.MergeTakesLowestValid
  intro h p s b xs hf
  obtain ⟨q, he, hq⟩ := routeOp_delivers (fun _ xs => valOf fun k => mergeSlot k xs) hf
  exact ⟨_, q, he, hq, fun k hk => (slotOf_valOf _ k hk).trans (mergeSlot_eq k xs)⟩

/-- Settles O14: GATE routes operand 0, and does nothing before its last operand is there. -/
theorem gateHoldsOperandZero : Obligations.GateHoldsOperandZero := by
  unfold Obligations.GateHoldsOperandZero
  exact ⟨fun h p s b x xs hf => routeOp_delivers _ hf, fun h p s b he ho => withOps_waits he ho⟩

/-- Settles O15: a DROP that fires goes on one slot later. -/
theorem dropDeliversNothing : Obligations.DropDeliversNothing := by
  unfold Obligations.DropDeliversNothing
  exact fun h p s b xs hf => withOps_fires _ _ hf

end Sys2Proof.Proofs
end

section
namespace Sys2Proof.Proofs
open Sys2Proof Sys2Proof.Machine Sys2Proof.Claims Sys2Proof.Laws

/-! ### Conversions, packings and QAPPLY (R125, R154 to R156, R159) -/

/-! #### The entry checks (R154) -/

/-- What a check of a conversion's two entries answers: the source that fails, else the destination that fails, else nothing. -/
def Checks (s : State) (b : BInst) (src dst : BitVec 4) (bad : Option Nat) (okS okD : Word64 → Prop) : Prop :=
  (¬ okS (entryWord s b src.toNat) → bad = some src.toNat)
  ∧ (okS (entryWord s b src.toNat) → ¬ okD (entryWord s b dst.toNat) → bad = some dst.toNat)
  ∧ (okS (entryWord s b src.toNat) → okD (entryWord s b dst.toNat) → bad = none)

theorem plainCont_iff (x : Word64) (w : Nat) : (plainEntry x && contOf x == w) = true ↔ Plain x ∧ contW x = w := by
  rw [Bool.and_eq_true, beq_iff_eq, plain_iff]
  rfl

/-- The entries that CVPK4 and UNPK4 take for their packed side: 8 bits under a condition of the control field, or 4 bits. -/
theorem plainByteOrNibble_iff (x : Word64) (c : Bool) :
    (plainEntry x && ((contOf x == 8 && c) || contOf x == 4)) = true ↔ Plain x ∧ ((contW x = 8 ∧ c = true) ∨ contW x = 4) := by
  rw [Bool.and_eq_true, Bool.or_eq_true, Bool.and_eq_true, beq_iff_eq, beq_iff_eq, plain_iff]
  rfl

theorem blockedEntry_iff (x : Word64) : blockedEntry x = true ↔ legalEntry x = true ∧ (Fmt.ofWord x).block ≠ 0 := by
  rw [blockedEntry, Bool.and_eq_true, bne_iff_ne]

section
variable {s : State} {h : Hdr} {p : PayV} {b : BInst}

theorem cvtCheck_checks {src : Word64 → Bool} {dst : Word64 → Word64 → Bool} {okS okD : Word64 → Prop} (hs : ∀ x, src x = true ↔ okS x)
    (hd : ∀ x y, x = entryWord s b h.fmt.toNat → (dst x y = true ↔ okD y)) : Checks s b h.fmt p.dfmt (cvtCheck s h p src dst b) okS okD :=
  cvtCheck_spec hs hd

theorem pairBad_checks (c d : Nat → Bool) {okS okD : Word64 → Prop} (hs : ∀ x, (plainEntry x && c (contOf x)) = true ↔ okS x)
    (hd : ∀ x, (plainEntry x && d (contOf x)) = true ↔ okD x) : Checks s b h.fmt p.dfmt (pairBad s h p c d b) okS okD :=
  pair_spec hs hd s h p b

/-- CVT's destination has the container of its source. -/
theorem cvtBad_checks :
    Checks s b h.fmt p.dfmt (cvtBad s h p b) Plain (fun y => Plain y ∧ contW y = contW (entryWord s b h.fmt.toNat)) := by
  refine cvtCheck_checks plain_iff fun x y hx => ?_
  rw [hx, Bool.beq_comm, plainCont_iff]
  rfl

theorem cvtiBad_checks :
    Checks s b h.fmt p.dfmt (cvtiBad s h p b) (fun x => Plain x ∧ contW x = codeWidth p.dfmt) (fun _ => True) :=
  ⟨fun hs => if_neg (mt (plainCont_iff _ _).1 hs), fun _ hd => absurd trivial hd, fun hs _ => if_pos ((plainCont_iff _ _).2 hs)⟩

theorem cvtfBad_checks :
    Checks s b h.fmt p.dfmt (cvtfBad s h p b) (fun _ => True) (fun y => Plain y ∧ contW y = codeWidth h.fmt) :=
  ⟨fun hs => absurd trivial hs, fun _ hd => if_neg (mt (plainCont_iff _ _).1 hd), fun _ hd => if_pos ((plainCont_iff _ _).2 hd)⟩

theorem cvpk2Bad_checks :
    Checks s b h.fmt p.dfmt (cvpk2Bad s h p b) (fun e => Plain e ∧ contW e = 32) (fun e => Plain e ∧ contW e = 16) :=
  pairBad_checks (· == 32) (· == 16) (plainCont_iff · 32) (plainCont_iff · 16)

theorem cvpk4Bad_checks :
    Checks s b h.fmt p.dfmt (cvpk4Bad s h p b) (fun e => Plain e ∧ contW e = 32)
      (fun e => Plain e ∧ ((contW e = 8 ∧ p.vctl.getLsbD 0 = false) ∨ contW e = 4)) := by
  refine pairBad_checks (· == 32) (fun n => (n == 8 && !p.vctl.getLsbD 0) || n == 4) (plainCont_iff · 32) fun x => ?_
  rw [plainByteOrNibble_iff, Bool.not_eq_true']

theorem unpk2Bad_checks :
    Checks s b h.fmt p.dfmt (unpk2Bad s h p b) (fun e => Plain e ∧ contW e = 16) (fun e => Plain e ∧ contW e = 32) :=
  pairBad_checks (· == 16) (· == 32) (plainCont_iff · 16) (plainCont_iff · 32)

theorem unpk4Bad_checks :
    Checks s b h.fmt p.dfmt (unpk4Bad s h p b) (fun e => Plain e ∧ ((contW e = 8 ∧ p.vctl.toNat < 4) ∨ contW e = 4))
      (fun e => Plain e ∧ contW e = 32) := by
  refine pairBad_checks (fun n => (n == 8 && decide (p.vctl.toNat < 4)) || n == 4) (· == 32) (fun x => ?_) (plainCont_iff · 32)
  rw [plainByteOrNibble_iff, decide_eq_true_iff]

theorem qapplyBad_checks :
    Checks s b h.fmt p.dfmt (qapplyBad s h p b) (fun e => legalEntry e = true ∧ (Fmt.ofWord e).block ≠ 0)
      (fun e => Plain e ∧ contW e = 32) :=
  cvtCheck_checks blockedEntry_iff fun _ y _ => plainCont_iff y 32

/-! #### What a conversion delivers past its checks -/

variable {xs : List Val} {r : Result} {check : BInst → Option Nat} {okS okD : Word64 → Prop} {w : Nat}

/-- A conversion that maps its elements delivers their codes, cut to the width. -/
theorem entriesThen_elementWise {F : BInst → List Val → Deliv} {f : Nat → List Nat → Nat} {g : Nat → List Nat → Nat → Prop}
    (hf : Fires h (k0Const p.k0) s b xs) (hr : r = fmtOp h (k0Const p.k0) s check F) (hc : Checks s b h.fmt p.dfmt (check b) okS okD)
    (hw : Width w) (hF : F b xs = same (mapElems w xs f) (predElem w (mapElems w xs f)))
    (hg : ∀ n l, elemsAt w xs n = some l → g n l (f n l % 2 ^ w)) :
    EntriesThen r s b h.fmt p.dfmt okS okD (ElementWise r h s b w xs g) := by
  obtain ⟨hsrc, hdst, hnone⟩ := hc
  refine entriesThen hf hr hsrc hdst hnone fun _ _ he => ?_
  rw [hF, mapElems_mod] at he
  exact elementWise_mapElems hw he fun n l hl => ⟨modlt _ _, hg n l hl⟩

/-- A conversion that makes its value slot by slot delivers those slots, where both entries pass. -/
theorem entriesThen_slots {f : Fmt → Fmt → (Nat → Nat) → List Val → Val} {g : Nat → Option Slot}
    (hf : Fires h (k0Const p.k0) s b xs) (hr : r = cvtOp h p s check f Fmt.cont) (hc : Checks s b h.fmt p.dfmt (check b) okS okD)
    (hw : okD (entryWord s b p.dfmt.toNat) → (entryOf s b p.dfmt.toNat).cont = w)
    (hg : okS (entryWord s b h.fmt.toNat) → okD (entryWord s b p.dfmt.toNat) →
      ∀ k, k < 16 → slotOf (f (entryOf s b h.fmt.toNat) (entryOf s b p.dfmt.toNat) (srOf s b).noise xs) k = g k) :
    EntriesThen r s b h.fmt p.dfmt okS okD (Slots r h s b w g) := by
  obtain ⟨hsrc, hdst, hnone⟩ := hc
  refine entriesThen hf hr hsrc hdst hnone fun hs hd he => ?_
  rw [← hw hd]
  exact slotsThen he (hg hs hd)

end

/-! #### Floats to integers (R155) -/

section
variable {e : Fmt} {x : Nat} (m : Rnd) (sg : Bool) {w : Nat} (noise : Nat)

theorem toIntCode_lt : toIntCode e m sg w noise x < 2 ^ w := by
  unfold toIntCode
  dsimp only
  split
  · exact Nat.two_pow_pos w
  · exact wrapInt_lt _ _
  · exact satInt_lt _ _ _

theorem toIntCode_of_nan (hx : (decodeElem e x).toExact = .nan) : toIntCode e m sg w noise x = 0 := by
  unfold toIntCode
  rw [hx]

theorem typed_toIntCode_of_inf (hw : 0 < w) {neg : Bool} (hx : (decodeElem e x).toExact = .inf neg) :
    typed sg w (toIntCode e m sg w noise x) = if neg then leastOf sg w else greatestOf sg w := by
  unfold toIntCode
  rw [hx]
  dsimp only
  rw [intMin_eq, intMax_eq]
  obtain ⟨h1, h2⟩ := typed_range sg hw (Nat.two_pow_pos w)
  have hle := Int.le_trans h1 h2
  cases neg with
  | true => exact typed_wrapInt sg hw _ (Int.le_refl _) hle
  | false => exact typed_wrapInt sg hw _ hle (Int.le_refl _)

theorem typed_toIntCode_of_rat (hw : 0 < w) {neg : Bool} {n d : Nat} (hx : (decodeElem e x).toExact = .rat neg n d) :
    let z : Int := roundInt (if m = .dflt then .rne else m) neg n d noise
    typed sg w (toIntCode e m sg w noise x) = max (leastOf sg w) (min (greatestOf sg w) (if neg then -z else z)) := by
  unfold toIntCode
  rw [hx]
  exact typed_satInt sg hw _

end

/-! #### Packing and unpacking (R156) -/

/-- Elements that are absent below a list shift it up. -/
theorem packElems_append_none (w off : Nat) (l : List (Option Nat)) :
    packElems w (List.replicate off none ++ l) = 2 ^ (w * off) * packElems w l := by
  induction off with
  | zero => simp
  | succ off ih =>
    rw [List.replicate_succ, List.cons_append, packElems, ih]
    simp only [Option.getD_none, Nat.zero_mod, Nat.zero_add, Nat.mul_succ, Nat.pow_add]
    ac_rfl

/-- A function of a list whose elements must all be there, taken from the first element on. -/
theorem map_mapM_cons {α β γ : Type} (g : α → Option β) (f : List β → γ) (v : α) (vs : List α) :
    ((v :: vs).mapM g).map f = (g v).bind fun u => (vs.mapM g).map fun l => f (u :: l) := by
  rw [List.mapM_cons]
  cases g v with
  | none => rfl
  | some u => cases vs.mapM g <;> rfl

section
variable {a d : Fmt} {m : Rnd} {noise : Nat → Nat} {off k : Nat} {xs : List Val}

theorem slotOf_packVal (hk : k < 16) :
    slotOf (packVal a d m noise off xs) k = (xs.mapM fun v => slotOf v k).map (packSlot a d m noise off k) :=
  slotOf_valOf _ k hk

theorem slotOf_packVal_two (hk : k < 16) (x y : Val) : slotOf (packVal a d m noise off [x, y]) k =
    (slotOf x k).bind fun u => (slotOf y k).bind fun v => some (packSlot a d m noise off k [u, v]) := by
  rw [slotOf_packVal hk]
  simp only [map_mapM_cons]
  rfl

theorem slotOf_packVal_four (hk : k < 16) (x0 x1 x2 x3 : Val) : slotOf (packVal a d m noise off [x0, x1, x2, x3]) k =
    (slotOf x0 k).bind fun u0 => (slotOf x1 k).bind fun u1 => (slotOf x2 k).bind fun u2 => (slotOf x3 k).bind fun u3 =>
      some (packSlot a d m noise off k [u0, u1, u2, u3]) := by
  rw [slotOf_packVal hk]
  simp only [map_mapM_cons]
  rfl

/-- Two elements of a slot, the first in its lower half. -/
theorem packSlot_two (hd : d.cont = 16) (u v : Slot) : packSlot a d m noise 0 k [u, v] =
    BitVec.ofNat 32 (convert u.toNat a d m (noise (2 * k)) % 2 ^ d.cont + 2 ^ 16 * (convert v.toNat a d m (noise (2 * k + 1)) % 2 ^ d.cont)) := by
  have hn : k * (32 / d.cont) = 2 * k := by rw [hd, Nat.mul_comm]
  unfold packSlot
  dsimp only
  rw [hn, hd]
  rfl

/-- Four elements of a slot, in Horner's form, above `off` that are 0. -/
theorem packSlot_four (u0 u1 u2 u3 : Slot) : packSlot a d m noise off k [u0, u1, u2, u3] =
    let n := k * (32 / d.cont) + off
    let code (u : Slot) (j : Nat) : Nat := convert u.toNat a d m (noise j) % 2 ^ d.cont
    BitVec.ofNat 32 (2 ^ (d.cont * off) * (code u0 n + 2 ^ d.cont * (code u1 (n + 1) + 2 ^ d.cont * (code u2 (n + 2) + 2 ^ d.cont * code u3 (n + 3))))) := by
  unfold packSlot
  dsimp only
  rw [packElems_append_none]
  rfl

/-- A 32-bit slot takes a code of a 32-bit destination whole. -/
theorem slotOf_unpackVal {c : Nat} (ha : a.cont = c) (hd : d.cont = 32) (j : Nat) (x : Val) (hk : k < 16) :
    slotOf (unpackVal a d m noise j x) k
      = (slotOf x k).map fun y => BitVec.ofNat 32 (convert (y.toNat / 2 ^ (c * j) % 2 ^ c) a d m (noise k) % 2 ^ d.cont) := by
  refine (slotOf_valOf _ k hk).trans (congrArg (Option.map · _) (funext fun y => ?_))
  rw [ha, hd]
  exact BitVec.eq_of_toNat_eq (by simp)

end

/-! #### The instructions that make their value slot by slot, as conversions (R156, R159) -/

section
variable (h : Hdr) (p : PayV) (s : State)

theorem exec_cvpk2 : exec (.cvpk2 h p) s = cvtOp h p s (cvpk2Bad s h p) (fun a d noise xs => packVal a d h.rnd noise 0 xs) Fmt.cont := rfl

theorem exec_cvpk4 : exec (.cvpk4 h p) s =
    cvtOp h p s (cvpk4Bad s h p) (fun a d noise xs => packVal a d h.rnd noise (if p.vctl.getLsbD 0 then 4 else 0) xs) Fmt.cont := rfl

theorem exec_unpk2 : exec (.unpk2 h p) s =
    cvtOp h p s (unpk2Bad s h p) (fun a d noise xs => unpackVal a d h.rnd noise p.vctl.toNat (arg xs 0)) Fmt.cont := rfl

theorem exec_unpk4 : exec (.unpk4 h p) s =
    cvtOp h p s (unpk4Bad s h p) (fun a d noise xs => unpackVal a d h.rnd noise p.vctl.toNat (arg xs 0)) Fmt.cont := rfl

theorem exec_qapply : exec (.qapply h p) s =
    cvtOp h p s (qapplyBad s h p)
      (fun a d noise xs => valOf (qapplySlot a d h.rnd noise (p.vctl.toNat % 8) (p.vctl.toNat / 8) (arg xs 0) (arg xs 1))) Fmt.cont := rfl

end

/-! #### The statement -/

/-- Settles O9: past the checks of their entries, the element-wise conversions map their elements, and the others make their slots. -/
theorem conversionResults : Obligations.ConversionResults := by
  unfold Obligations.ConversionResults
  refine ⟨⟨?cvt, ?cvtf, ?cvti⟩, ?cvpk2, ?cvpk4, fun h p s b x hf => ⟨?unpk2, ?unpk4⟩, ?qapply⟩
  case cvt =>
    intro h p s b xs hf
    exact entriesThen_elementWise hf rfl cvtBad_checks (Fmt.cont_width _) rfl fun _ _ _ => rfl
  case cvtf =>
    intro h p s b xs hf
    refine entriesThen_elementWise hf rfl cvtfBad_checks (codeWidth_width _) rfl fun n l hl => ?_
    rw [typedAt, ← readInt_typed _ (elemsAt_lt hl 0)]
    rfl
  case cvti =>
    intro h p s b xs hf
    have hw := codeWidth_width p.dfmt
    refine entriesThen_elementWise hf rfl cvtiBad_checks hw rfl fun n l hl => ?_
    rw [Nat.mod_eq_of_lt (toIntCode_lt _ _ _)]
    cases hx : (valueAt (entryOf s b h.fmt.toNat) l 0).toExact with
    | nan => exact toIntCode_of_nan _ _ _ hx
    | inf neg => exact typed_toIntCode_of_inf _ _ _ (wpos hw) hx
    | rat neg k d => exact typed_toIntCode_of_rat _ _ _ (wpos hw) hx
  case cvpk2 =>
    intro h p s b x y hf
    refine entriesThen_slots hf (exec_cvpk2 h p s) cvpk2Bad_checks And.right fun _ ⟨_, hd⟩ k hk => ?_
    rw [slotOf_packVal_two hk]
    cases slotOf x k with
    | none => rfl
    | some u =>
      cases slotOf y k with
      | none => rfl
      | some v => exact congrArg some (packSlot_two hd u v)
  case cvpk4 =>
    intro h p s b x0 x1 x2 x3 hf
    refine entriesThen_slots hf (exec_cvpk4 h p s) cvpk4Bad_checks (fun _ => rfl) fun _ _ k hk => ?_
    rw [slotOf_packVal_four hk]
    cases slotOf x0 k with
    | none => rfl
    | some u0 =>
      cases slotOf x1 k with
      | none => rfl
      | some u1 =>
        cases slotOf x2 k with
        | none => rfl
        | some u2 =>
          cases slotOf x3 k with
          | none => rfl
          | some u3 => exact congrArg some (packSlot_four u0 u1 u2 u3)
  case unpk2 =>
    exact entriesThen_slots hf (exec_unpk2 h p s) unpk2Bad_checks And.right fun ⟨_, ha⟩ ⟨_, hd⟩ k hk => slotOf_unpackVal ha hd _ x hk
  case unpk4 =>
    exact entriesThen_slots hf (exec_unpk4 h p s) unpk4Bad_checks And.right fun _ ⟨_, hd⟩ k hk => slotOf_unpackVal rfl hd _ x hk
  case qapply =>
    intro h p s b x sc hf
    exact entriesThen_slots hf (exec_qapply h p s) qapplyBad_checks And.right fun _ _ k hk => slotOf_valOf _ k hk

end Sys2Proof.Proofs
end

section
namespace Sys2Proof.Proofs
open Sys2Proof Sys2Proof.Machine Sys2Proof.Claims Sys2Proof.Laws

/-! ### Integer, bit and address instructions (R138 to R142) -/

section
variable {i : Hdr → PayA → Instr} {f : Bool → Nat → List Nat → Nat}

/-! #### The kinds of integer results -/

/-- An integer result is delivered cut to its width. -/
theorem intResult_mod {g : Bool → Nat → List Nat → Nat → Prop} (hi : ∀ h p s, exec (i h p) s = intOp h p s f)
    (hg : ∀ sg w l, Width w → (∀ k, bitsAt l k < 2 ^ w) → g sg w l (f sg w l % 2 ^ w)) : IntResult i g := by
  intro h p s b xs hf
  have hw := codeWidth_width h.fmt
  refine elementWise_mapElems hw (f := fun _ l => f (codeSigned h.fmt) (codeWidth h.fmt) l % 2 ^ codeWidth h.fmt) ?_
    fun n l hl => ⟨modlt _ _, hg _ _ l hw (elemsAt_lt hl)⟩
  rw [hi, ← mapElems_mod]
  exact pureOp_fires _ _ hf

/-- A result that is an exact integer modulo 2^w. -/
theorem intResult_of_emod {z : Bool → Nat → List Nat → Int} (hi : ∀ h p s, exec (i h p) s = intOp h p s f)
    (hz : ∀ sg w l, (∀ k, bitsAt l k < 2 ^ w) → (f sg w l : Int) = z sg w l % 2 ^ w) :
    IntResult i (fun sg w l c => (c : Int) = z sg w l % 2 ^ w) := by
  refine intResult_mod hi fun sg w l _ hl => ?_
  rw [Int.natCast_emod, hz sg w l hl, Int.natCast_pow]
  exact Int.emod_emod_of_dvd _ (Int.dvd_refl _)

/-- A result that is an exact integer clamped to the type. -/
theorem intResult_of_satInt {z : Bool → Nat → List Nat → Int} (hi : ∀ h p s, exec (i h p) s = intOp h p s f)
    (hz : ∀ sg w l, (∀ k, bitsAt l k < 2 ^ w) → f sg w l = satInt sg w (z sg w l)) :
    IntResult i (fun sg w l c => typed sg w c = max (leastOf sg w) (min (greatestOf sg w) (z sg w l))) := by
  refine intResult hi fun sg w l hw hl => ?_
  rw [hz sg w l hl]
  exact ⟨satInt_lt _ _ _, typed_satInt sg (wpos hw) _⟩

/-- A result that is given bit by bit. -/
theorem intResult_of_bits {β : Bool → Nat → List Nat → Nat → Bool} (hi : ∀ h p s, exec (i h p) s = intOp h p s f)
    (hβ : ∀ sg w l, 0 < w → (∀ k, bitsAt l k < 2 ^ w) → ∀ j, j < w → (f sg w l).testBit j = β sg w l j) :
    IntResult i (fun sg w l c => ∀ j, j < w → c.testBit j = β sg w l j) := by
  refine intResult_mod hi fun sg w l hw hl j hj => ?_
  rw [Nat.testBit_mod_two_pow, decide_eq_true hj, Bool.true_and]
  exact hβ sg w l (wpos hw) hl j hj

/-- A result that is 1 where a test holds, and 0 where it fails. -/
theorem intResult_of_test {P : Bool → Nat → List Nat → Prop} [∀ sg w l, Decidable (P sg w l)]
    (hi : ∀ h p s, exec (i h p) s = intOp h p s f)
    (hP : ∀ sg w l, (∀ k, bitsAt l k < 2 ^ w) → f sg w l = if P sg w l then 1 else 0) :
    IntResult i (fun sg w l c => c = if P sg w l then 1 else 0) := by
  refine intResult hi fun sg w l hw hl => ⟨?_, hP sg w l hl⟩
  rw [hP sg w l hl]
  have := onelt hw
  split <;> omega

end

/-! #### Results of one element (R139 to R141) -/

section
variable (sg : Bool) {w a b c : Nat}

theorem aluDiv_lt : aluDiv sg w a b < 2 ^ w := by
  unfold aluDiv
  split
  · exact Nat.sub_lt (Nat.two_pow_pos w) Nat.one_pos
  · exact wrapInt_lt _ _

theorem aluRem_lt (ha : a < 2 ^ w) : aluRem sg w a b < 2 ^ w := by
  unfold aluRem
  split
  · exact ha
  · exact wrapInt_lt _ _

theorem aluAbs_lt : aluAbs sg w a < 2 ^ w := wrapInt_lt _ _

theorem aluAdds_eq (ha : a < 2 ^ w) (hb : b < 2 ^ w) : aluAdds sg w a b = satInt sg w (typed sg w a + typed sg w b) := by
  rw [← readInt_typed sg ha, ← readInt_typed sg hb]
  rfl

theorem aluSubs_eq (ha : a < 2 ^ w) (hb : b < 2 ^ w) : aluSubs sg w a b = satInt sg w (typed sg w a - typed sg w b) := by
  rw [← readInt_typed sg ha, ← readInt_typed sg hb]
  rfl

theorem aluClamp_lt (ha : a < 2 ^ w) (hb : b < 2 ^ w) (hc : c < 2 ^ w) : aluClamp sg w a b c < 2 ^ w :=
  aluMin_lt sg (aluMax_lt sg ha hb) hc

theorem aluClamp_spec (ha : a < 2 ^ w) (hb : b < 2 ^ w) (hc : c < 2 ^ w) :
    typed sg w (aluClamp sg w a b c) = min (max (typed sg w a) (typed sg w b)) (typed sg w c) := by
  unfold aluClamp
  rw [aluMin_spec sg (aluMax_lt sg ha hb) hc, aluMax_spec sg ha hb]

/-- The two parts of a rotation, the bits that stay above and those that come round below, fill w bits. -/
theorem aluRotl_lt (ha : a < 2 ^ w) (hw : 0 < w) : aluRotl sg w a b < 2 ^ w := by
  unfold aluRotl shiftAmt
  have hk : b % w < w := Nat.mod_lt _ hw
  generalize b % w = k at hk
  have hsplit : 2 ^ w = 2 ^ k * 2 ^ (w - k) := by rw [← Nat.pow_add, Nat.add_sub_of_le (Nat.le_of_lt hk)]
  have hhigh : a * 2 ^ k % 2 ^ w = 2 ^ k * (a % 2 ^ (w - k)) := by rw [hsplit, Nat.mul_comm, Nat.mul_mod_mul_left]
  have hlow : a / 2 ^ (w - k) < 2 ^ k := Nat.div_lt_of_lt_mul (by rwa [Nat.mul_comm, ← hsplit])
  calc a * 2 ^ k % 2 ^ w + a / 2 ^ (w - k)
      < 2 ^ k * (a % 2 ^ (w - k)) + 2 ^ k := by rw [hhigh]; exact Nat.add_lt_add_left hlow _
    _ = 2 ^ k * (a % 2 ^ (w - k) + 1) := (Nat.mul_succ _ _).symm
    _ ≤ 2 ^ w := by rw [hsplit]; exact Nat.mul_le_mul_left _ (modlt a _)

/-- The leading zeros of a number are the trailing zeros of its reversal. -/
theorem aluClz_spec :
    aluClz sg w a ≤ w ∧ (∀ j, j < aluClz sg w a → a.testBit (w - 1 - j) = false)
      ∧ (aluClz sg w a < w → a.testBit (w - 1 - aluClz sg w a) = true) := by
  have hle : aluClz sg w a ≤ w := trailZeros_le _ _
  refine ⟨hle, fun j hj => ?_, fun hlt => ?_⟩
  · rw [← bitReverse_bit w a j (Nat.lt_of_lt_of_le hj hle)]
    exact trailZeros_clear _ _ j hj
  · rw [← bitReverse_bit w a _ hlt]
    exact trailZeros_set _ _ hlt

theorem aluEq_eq (ha : a < 2 ^ w) (hb : b < 2 ^ w) : aluEq sg w a b = if typed sg w a = typed sg w b then 1 else 0 := by
  simp only [aluEq, typed_inj sg ha hb]

theorem aluNe_eq (ha : a < 2 ^ w) (hb : b < 2 ^ w) : aluNe sg w a b = if typed sg w a ≠ typed sg w b then 1 else 0 := by
  simp only [aluNe, ne_eq, typed_inj sg ha hb, ite_not]

theorem aluLt_eq (ha : a < 2 ^ w) (hb : b < 2 ^ w) : aluLt sg w a b = if typed sg w a < typed sg w b then 1 else 0 := by
  rw [aluLt, readInt_typed sg ha, readInt_typed sg hb]

theorem aluLe_eq (ha : a < 2 ^ w) (hb : b < 2 ^ w) : aluLe sg w a b = if typed sg w a ≤ typed sg w b then 1 else 0 := by
  rw [aluLe, readInt_typed sg ha, readInt_typed sg hb]

theorem aluSel_eq : aluSel sg w a b c = if a = 0 then c else b := ite_not _ _ _

end

theorem width_64 : Width 64 := .inr (.inr (.inr (.inr rfl)))

/-! #### The statements -/

/-- Settles O1: results modulo 2^w, clamped results, and the division, the minimum and the maximum by their own lemmas. -/
theorem integerArithmeticResults : Obligations.IntegerArithmeticResults := by
  unfold Obligations.IntegerArithmeticResults
  refine ⟨⟨?iadd, ?isub, ?iadds, ?isubs, ?imul, ?imulh, ?imad, ?ineg, ?iabs⟩, ?idiv, ?irem, ?imin, ?imax, ?iclamp⟩
  case iadd => exact intResult_of_emod (fun _ _ _ => rfl) fun sg _ _ hl => aluAdd_spec sg (hl 0) (hl 1)
  case isub => exact intResult_of_emod (fun _ _ _ => rfl) fun sg _ _ hl => aluSub_spec sg (hl 0) (hl 1)
  case iadds => exact intResult_of_satInt (fun _ _ _ => rfl) fun sg _ _ hl => aluAdds_eq sg (hl 0) (hl 1)
  case isubs => exact intResult_of_satInt (fun _ _ _ => rfl) fun sg _ _ hl => aluSubs_eq sg (hl 0) (hl 1)
  case imul => exact intResult_of_emod (fun _ _ _ => rfl) fun sg _ _ hl => aluMul_spec sg (hl 0) (hl 1)
  case imulh => exact intResult_of_emod (fun _ _ _ => rfl) fun sg _ _ hl => aluMulh_spec sg (hl 0) (hl 1)
  case imad => exact intResult_of_emod (fun _ _ _ => rfl) fun sg _ _ hl => aluMad_spec sg (hl 0) (hl 1) (hl 2)
  case ineg => exact intResult_of_emod (fun _ _ _ => rfl) fun sg _ _ hl => aluNeg_spec sg (hl 0)
  case iabs => exact intResult (fun _ _ _ => rfl) fun sg _ _ _ hl => ⟨aluAbs_lt sg, aluAbs_spec sg (hl 0)⟩
  case idiv => exact intResult (fun _ _ _ => rfl) fun sg _ _ _ hl => ⟨aluDiv_lt sg, aluDiv_spec sg (hl 0) (hl 1)⟩
  case irem => exact intResult (fun _ _ _ => rfl) fun sg _ _ _ hl => ⟨aluRem_lt sg (hl 0), aluRem_spec sg (hl 0) (hl 1)⟩
  case imin => exact intResult (fun _ _ _ => rfl) fun sg _ _ _ hl => ⟨aluMin_lt sg (hl 0) (hl 1), aluMin_spec sg (hl 0) (hl 1)⟩
  case imax => exact intResult (fun _ _ _ => rfl) fun sg _ _ _ hl => ⟨aluMax_lt sg (hl 0) (hl 1), aluMax_spec sg (hl 0) (hl 1)⟩
  case iclamp =>
    exact intResult (fun _ _ _ => rfl) fun sg _ _ _ hl => ⟨aluClamp_lt sg (hl 0) (hl 1) (hl 2), aluClamp_spec sg (hl 0) (hl 1) (hl 2)⟩

/-- Settles O2: most results bit by bit, and the rotation and the counts by their own lemmas. -/
theorem bitwiseResults : Obligations.BitwiseResults := by
  unfold Obligations.BitwiseResults
  refine ⟨⟨?and, ?or, ?xor, ?not, ?andn, ?shl, ?shr, ?shra, ?rotl⟩, ?popc, ?clz, ?ctz, ?brev, ?bfx, ?bfi⟩
  case and => exact intResult_of_bits (fun _ _ _ => rfl) fun _ _ _ _ _ j _ => Nat.testBit_and _ _ j
  case or => exact intResult_of_bits (fun _ _ _ => rfl) fun _ _ _ _ _ j _ => Nat.testBit_or _ _ j
  case xor => exact intResult_of_bits (fun _ _ _ => rfl) fun _ _ _ _ _ j _ => Nat.testBit_xor _ _ j
  case not => exact intResult_of_bits (fun _ _ _ => rfl) fun sg _ _ _ hl => aluNot_bit sg (hl 0)
  case andn => exact intResult_of_bits (fun _ _ _ => rfl) fun sg _ _ _ hl => aluAndn_bit sg (hl 1)
  case shl => exact intResult_of_bits (fun _ _ _ => rfl) fun sg _ _ _ _ => aluShl_bit sg
  case shr => exact intResult_of_bits (fun _ _ _ => rfl) fun sg _ _ _ hl j _ => aluShr_bit sg (hl 0) j
  case shra => exact intResult_of_bits (fun _ _ _ => rfl) fun sg _ _ hw hl => aluShra_bit sg (hl 0) hw
  case rotl =>
    exact intResult (fun _ _ _ => rfl) fun sg _ _ hw hl => ⟨aluRotl_lt sg (hl 0) (wpos hw), aluRotl_bit sg (hl 0) (wpos hw)⟩
  case popc => exact intResult (fun _ _ _ => rfl) fun _ w _ hw _ => ⟨Nat.lt_of_le_of_lt (pc_le w _) (wlt hw), popCount_spec w _⟩
  case clz => exact intResult (fun _ _ _ => rfl) fun sg w _ hw _ => ⟨Nat.lt_of_le_of_lt (trailZeros_le w _) (wlt hw), aluClz_spec sg⟩
  case ctz =>
    exact intResult (fun _ _ _ => rfl) fun _ w _ hw _ =>
      ⟨Nat.lt_of_le_of_lt (trailZeros_le w _) (wlt hw), trailZeros_le w _, trailZeros_clear w _, trailZeros_set w _⟩
  case brev => exact intResult_of_bits (fun _ _ _ => rfl) fun _ w _ _ _ => bitReverse_bit w _
  case bfx => exact intResult_of_bits (fun _ _ _ => rfl) fun sg _ _ hw _ => aluBfx_bit sg hw _ _
  case bfi => exact intResult_of_bits (fun _ _ _ => rfl) fun sg _ _ hw _ j _ => aluBfi_bit sg hw _ _ j

/-- Settles O3: the comparisons as tests of the values by type, and SEL and MOV as they stand. -/
theorem compareSelectMoveResults : Obligations.CompareSelectMoveResults := by
  unfold Obligations.CompareSelectMoveResults
  refine ⟨?eq, ?ne, ?lt, ?le, ?gt, ?ge, ?sel, ?mov⟩
  case eq => exact intResult_of_test (fun _ _ _ => rfl) fun sg _ _ hl => aluEq_eq sg (hl 0) (hl 1)
  case ne => exact intResult_of_test (fun _ _ _ => rfl) fun sg _ _ hl => aluNe_eq sg (hl 0) (hl 1)
  case lt => exact intResult_of_test (fun _ _ _ => rfl) fun sg _ _ hl => aluLt_eq sg (hl 0) (hl 1)
  case le => exact intResult_of_test (fun _ _ _ => rfl) fun sg _ _ hl => aluLe_eq sg (hl 0) (hl 1)
  case gt => exact intResult_of_test (fun _ _ _ => rfl) fun sg _ _ hl => aluLt_eq sg (hl 1) (hl 0)
  case ge => exact intResult_of_test (fun _ _ _ => rfl) fun sg _ _ hl => aluLe_eq sg (hl 1) (hl 0)
  case sel =>
    refine intResult (fun _ _ _ => rfl) fun sg w l _ hl => ⟨?_, aluSel_eq sg⟩
    show aluSel sg w _ _ _ < 2 ^ w
    rw [aluSel_eq]
    split
    · exact hl 2
    · exact hl 1
  case mov => exact intResult (fun _ _ _ => rfl) fun _ _ _ _ hl => ⟨hl 0, rfl⟩

/-- Settles O4: AADD, AMAD and ASUB by the common address form, and ACHK as a test of each element. -/
theorem addressFormResults : Obligations.AddressFormResults := by
  unfold Obligations.AddressFormResults
  refine ⟨?aadd, ?amad, ?asub, fun h p s b xs hf => ?achk⟩
  case aadd => exact addressResult (fun _ _ _ => rfl) (fun _ _ => rfl) rfl
  case amad => exact addressResult (fun _ _ _ => rfl) (fun _ _ => rfl) rfl
  case asub => exact addressResult (fun _ _ _ => rfl) (fun _ _ => rfl) rfl
  case achk =>
    refine elementWise_mapElems width_64 (pureOp_fires _ _ hf) fun _ l _ => ⟨?_, rfl⟩
    split <;> decide

end Sys2Proof.Proofs
end

section
namespace Sys2Proof.Proofs
open Sys2Proof Sys2Proof.Machine Sys2Proof.Claims Sys2Proof.Laws

/-! ### Float vector instructions and transcendentals (R143 to R149) -/

/-! #### Codes under a vector entry -/

/-- A vector entry's container has room for every class code. -/
theorem vector_mod_eq_self {x : Word64} (hv : vectorEntry x = true) {c : Nat} (hc : c ≤ 2 ^ 8) : c % 2 ^ (Fmt.ofWord x).cont = c := by
  obtain ⟨-, h | h⟩ := vec_width hv <;> rw [h] <;> omega

theorem relCode_le (e : Fmt) (l : List Nat) (f : Option Ordering → Bool) : relCode e l f ≤ 2 ^ 8 := by
  unfold relCode
  split <;> decide

/-! #### The sign bit (R146) -/

section
variable {w j : Nat} (a : Nat)

/-- The bits of a number below bit w − 1, with `s` there. -/
theorem testBit_low_add_sign (s : Bool) (hj : j < w) :
    (a % 2 ^ (w - 1) + s.toNat * 2 ^ (w - 1)).testBit j = if j = w - 1 then s else a.testBit j := by
  rw [Nat.add_comm, Nat.mul_comm, Nat.testBit_two_pow_mul_add _ (modlt a _), Nat.testBit_mod_two_pow]
  by_cases hjw : j = w - 1
  · rw [if_neg (by omega), if_pos hjw, hjw, Nat.sub_self]
    cases s <;> rfl
  · have hlow : j < w - 1 := by omega
    rw [if_pos hlow, if_neg hjw, decide_eq_true hlow, Bool.true_and]

theorem testBit_flip_sign (hj : j < w) :
    (a % 2 ^ w ^^^ 2 ^ (w - 1)).testBit j = if j = w - 1 then !a.testBit j else a.testBit j := by
  rw [Nat.testBit_xor, Nat.testBit_mod_two_pow, Nat.testBit_two_pow, decide_eq_true hj, Bool.true_and]
  by_cases hjw : j = w - 1
  · rw [if_pos hjw, decide_eq_true hjw.symm, Bool.xor_true]
  · rw [if_neg hjw, decide_eq_false (Ne.symm hjw), Bool.xor_false]

end

section
variable {e : Fmt} {j : Nat} (a b : Nat)

theorem fnegCode_bit (he : e.sgn ≠ 0) (hj : j < e.width) :
    (fnegCode e a).testBit j = if j = e.width - 1 then !a.testBit j else a.testBit j := by
  unfold fnegCode
  rw [if_neg he]
  exact testBit_flip_sign a hj

theorem fabsCode_bit (he : e.sgn ≠ 0) (hj : j < e.width) :
    (fabsCode e a).testBit j = if j = e.width - 1 then false else a.testBit j := by
  have hs := testBit_low_add_sign a false hj
  rw [Bool.toNat_false, Nat.zero_mul, Nat.add_zero] at hs
  unfold fabsCode
  rw [if_neg he]
  exact hs

theorem fcpysCode_bit (he : e.sgn ≠ 0) (hj : j < e.width) :
    (fcpysCode e a b).testBit j = if j = e.width - 1 then b.testBit j else a.testBit j := by
  have hs := testBit_low_add_sign a (b.testBit (e.width - 1)) hj
  rw [Nat.toNat_testBit] at hs
  unfold fcpysCode
  rw [if_neg he]
  refine hs.trans ?_
  by_cases hjw : j = e.width - 1
  · rw [if_pos hjw, if_pos hjw, hjw]
  · rw [if_neg hjw, if_neg hjw]

end

/-! #### Classes and integers (R147, R148) -/

/-- The code of a subnormal value (R147). -/
def Subnormal (e : Fmt) (a : Nat) : Prop := e.enc = false ∧ 0 < e.exp ∧ 0 < e.frac ∧ a / 2 ^ e.frac % 2 ^ e.exp = 0

section
variable {e : Fmt} {a : Nat}

theorem subnormal_iff : (!e.enc && decide (0 < e.exp) && decide (0 < e.frac) && a / 2 ^ e.frac % 2 ^ e.exp == 0) = true ↔ Subnormal e a := by
  simp [Subnormal, and_assoc]

theorem classCode_le (e : Fmt) (a : Nat) : classCode e a ≤ 2 ^ 8 := by
  unfold classCode
  split
  · decide
  · split <;> decide
  · dsimp only
    split
    · split <;> decide
    · split <;> split <;> decide

theorem classCode_of_nan (hx : decodeElem e a = .nan) : classCode e a = 2 ^ 8 := by
  unfold classCode
  rw [hx]

theorem classCode_of_inf {neg : Bool} (hx : decodeElem e a = .inf neg) : classCode e a = if neg then 2 ^ 0 else 2 ^ 7 := by
  unfold classCode
  rw [hx]

theorem classCode_of_zero {neg : Bool} {k : Int} (hx : decodeElem e a = .fin neg 0 k) :
    classCode e a = if neg ∧ e.enc = false then 2 ^ 3 else 2 ^ 4 := by
  unfold classCode
  rw [hx]
  simp

theorem classCode_of_subnormal {neg : Bool} {n : Nat} {k : Int} (hx : decodeElem e a = .fin neg n k) (hn : n ≠ 0) (hs : Subnormal e a) :
    classCode e a = if neg then 2 ^ 2 else 2 ^ 5 := by
  unfold classCode
  rw [hx]
  exact (if_neg hn).trans (if_pos (subnormal_iff.2 hs))

theorem classCode_of_normal {neg : Bool} {n : Nat} {k : Int} (hx : decodeElem e a = .fin neg n k) (hn : n ≠ 0) (hs : ¬ Subnormal e a) :
    classCode e a = if neg then 2 ^ 1 else 2 ^ 6 := by
  unfold classCode
  rw [hx]
  exact (if_neg hn).trans (if_neg (mt subnormal_iff.1 hs))

theorem rintCode_of_rat {m : Rnd} {noise : Nat} {neg : Bool} {n d : Nat} (hx : (decodeElem e a).toExact = .rat neg n d) :
    rintCode e m noise a = round (.rat neg (roundInt (resolveRnd m e) neg n d noise) 1) e m noise := by
  unfold rintCode
  rw [hx]

theorem rintCode_of_special {m : Rnd} {noise : Nat} {v : Exact} (hx : (decodeElem e a).toExact = v) (hv : ∀ neg n d, v ≠ .rat neg n d) :
    rintCode e m noise a = round v e m noise := by
  unfold rintCode
  rw [hx]
  cases v with
  | nan | inf => rfl
  | rat neg n d => exact absurd rfl (hv neg n d)

end

/-! #### The kinds of float results -/

section
variable {i : Hdr → PayA → Instr}

/-- A float instruction that changes at most the sign bit: an entry without one keeps its code. -/
theorem floatResult_of_sign (code : Fmt → List Nat → Nat) (sign : Bool → Bool → Bool) (hi : ∀ h p s, exec (i h p) s = floatOp h p s code)
    (hu : ∀ e l, e.sgn = 0 → code e l = bitsAt l 0)
    (hs : ∀ e l j, e.sgn ≠ 0 → j < e.width →
      (code e l).testBit j = if j = e.width - 1 then sign (bitAt l 0 j) (bitAt l 1 j) else bitAt l 0 j) :
    FloatResult i (fun e _ _ l c => if e.sgn = 0 then c = bitsAt l 0
      else ∀ j, j < e.cont → c.testBit j = if j = e.width - 1 then sign (bitAt l 0 j) (bitAt l 1 j) else bitAt l 0 j) := by
  refine plain hi fun x m noise l hv hl => ?_
  split
  next he => rw [hu _ _ he, Nat.mod_eq_of_lt (hl 0)]
  next he =>
    intro j hj
    rw [Nat.testBit_mod_two_pow, decide_eq_true hj, Bool.true_and]
    exact hs _ l j he ((vec_width hv).1 ▸ hj)

/-- A float instruction that delivers whether a relation of the two values holds. -/
theorem floatResult_of_rel (f : Option Ordering → Bool) {P : Option Ordering → Prop}
    (hi : ∀ h p s, exec (i h p) s = floatOp h p s fun e l => relCode e l f) (hf : ∀ o, f o = true ↔ P o) :
    FloatResult i (fun e _ _ l c => (c = 1 ∧ P ((valueAt e l 0).cmp (valueAt e l 1))) ∨ (c = 0 ∧ ¬ P ((valueAt e l 0).cmp (valueAt e l 1)))) :=
  plain hi fun _ _ _ _ _ _ => rel hf (onelt (Fmt.cont_width _))

end

/-! #### The statements -/

/-- Settles O5: each instruction rounds its own exact result. -/
theorem floatRoundsOnce : Obligations.FloatRoundsOnce := by
  unfold Obligations.FloatRoundsOnce
  refine ⟨?fadd, ?fsub, ?fmul, ?fma, ?fms, ?fnma, ?fdiv, ?fsqrt⟩
  all_goals exact rounded (fun _ _ _ => rfl) fun _ _ _ => rfl

/-- Settles O6: selections, sign changes, relations, classes and FRINT by the lemmas on their codes, and the transcendentals by their
common form, with R149's table by evaluation. -/
theorem floatSelectionsAndTranscendentals : Obligations.FloatSelectionsAndTranscendentals := by
  unfold Obligations.FloatSelectionsAndTranscendentals
  refine ⟨⟨?fmin, ?fmax, ?fneg, ?fabs, ?fcpys, ?fcmpeq, ?fcmpne, ?fcmplt, ?fcmple, ?fcmpun, ?fclass⟩,
    ?frint, ?exp2, ?log2, ?rcp, ?rsq, ?tanh, ?sin, ?ofNan, ?ofInf, ?ofNegInf, ?ofZero, ?ofNegZero, ?ofNeg⟩
  case fmin =>
    exact plain (f := fun e l => pickCode e false (bitsAt l 0) (bitsAt l 1)) (fun _ _ _ => rfl) fun x _ _ l hv hl => pickSpec false x l hv hl
  case fmax =>
    exact plain (f := fun e l => pickCode e true (bitsAt l 0) (bitsAt l 1)) (fun _ _ _ => rfl) fun x _ _ l hv hl => pickSpec true x l hv hl
  case fneg =>
    exact floatResult_of_sign (fun e l => fnegCode e (bitsAt l 0)) (fun a _ => !a) (fun _ _ _ => rfl) (fun _ _ he => if_pos he)
      fun _ l _ => fnegCode_bit (bitsAt l 0)
  case fabs =>
    exact floatResult_of_sign (fun e l => fabsCode e (bitsAt l 0)) (fun _ _ => false) (fun _ _ _ => rfl) (fun _ _ he => if_pos he)
      fun _ l _ => fabsCode_bit (bitsAt l 0)
  case fcpys =>
    exact floatResult_of_sign (fun e l => fcpysCode e (bitsAt l 0) (bitsAt l 1)) (fun _ b => b) (fun _ _ _ => rfl)
      (fun _ _ he => if_pos he)
      fun _ l _ => fcpysCode_bit (bitsAt l 0) (bitsAt l 1)
  case fcmpeq => exact floatResult_of_rel (· == some .eq) (fun _ _ _ => rfl) fun _ => beq_iff_eq
  case fcmpne => exact floatResult_of_rel (· != some .eq) (fun _ _ _ => rfl) fun _ => bne_iff_ne
  case fcmplt => exact floatResult_of_rel (· == some .lt) (fun _ _ _ => rfl) fun _ => beq_iff_eq
  case fcmple =>
    exact floatResult_of_rel (fun o => o == some .lt || o == some .eq) (P := fun o => o = some .lt ∨ o = some .eq) (fun _ _ _ => rfl)
      fun _ => by rw [Bool.or_eq_true, beq_iff_eq, beq_iff_eq]
  case fcmpun =>
    refine plain (f := fun e l => relCode e l (· == none)) (fun _ _ _ => rfl) fun x m noise l hv hl => ?_
    rw [vector_mod_eq_self hv (relCode_le _ _ _)]
    simp only [relCode, beq_iff_eq, cmp_none]
    rfl
  case fclass =>
    refine plain (f := fun e l => classCode e (bitsAt l 0)) (fun _ _ _ => rfl) fun x m noise l hv hl => ?_
    dsimp only
    rw [vector_mod_eq_self hv (classCode_le _ _)]
    cases hx : valueAt (Fmt.ofWord x) l 0 with
    | nan => exact classCode_of_nan hx
    | inf neg => exact classCode_of_inf hx
    | fin neg n k =>
      dsimp only
      split
      next hn => subst hn; exact classCode_of_zero hx
      next hn => exact ⟨classCode_of_subnormal hx hn, classCode_of_normal hx hn⟩
  case frint =>
    refine floatOf (f := fun h s b n l => rintCode (entryOf s b h.fmt.toNat) h.rnd ((srOf s b).noise n) (l.getD 0 0)) (fun _ _ _ => rfl)
      fun h s b n l _ _ => ?_
    cases hx : (valueAt (entryOf s b h.fmt.toNat) l 0).toExact with
    | nan => exact congrArg (· % _) (rintCode_of_special hx nofun)
    | inf neg => exact congrArg (· % _) (rintCode_of_special hx nofun)
    | rat neg k d => exact congrArg (· % _) (rintCode_of_rat hx)
  case exp2 | log2 | rcp | rsq | tanh | sin => exact transOf fun _ _ _ => rfl
  case ofNan =>
    simp only [List.mem_cons, List.not_mem_nil, or_false]
    rintro f (rfl | rfl | rfl | rfl | rfl | rfl) <;> rfl
  case ofInf | ofNegInf => rfl
  case ofZero | ofNegZero => exact fun _ => rfl
  case ofNeg => exact fun n e hn => ⟨if_neg hn, if_neg hn⟩

end Sys2Proof.Proofs
end

section
namespace Sys2Proof.Proofs
open Sys2Proof Sys2Proof.Machine Sys2Proof.Claims Sys2Proof.Laws

/-! ### Lane and token instructions (R150 to R153) -/

/-! #### Slot moves (R151) -/

/-- A rotation by r takes slot k − r of sixteen. -/
theorem rotated_slot {k : Nat} (hk : k < 16) (r : Nat) : (k + 16 - r % 16) % 16 = (((k : Int) - (r % 16 : Nat)) % 16).toNat := by
  omega

/-- The mask bit of VMASK: of its operand's slot 0, where an invalid slot masks everything out. -/
theorem getLsbD_maskOperand (o : Option Slot) {k : Nat} (hk : k < 16) :
    ((o.getD 0).setWidth 16).getLsbD k = o.any fun m => m.getLsbD k := by
  rw [BitVec.getLsbD_setWidth, decide_eq_true hk, Bool.true_and]
  cases o with
  | none => exact BitVec.getLsbD_zero
  | some m => rfl

/-- Settles O7: each move makes its value slot by slot. -/
theorem slotMoveResults : Obligations.SlotMoveResults := by
  unfold Obligations.SlotMoveResults
  refine ⟨?lbcast, ?lshuf, ?lrot, ?lsel, ?vmask, ?vget⟩
  case lbcast => exact slotRes (fun _ _ _ => rfl) fun _ _ _ k hk => slotOf_valOf _ k hk
  case lshuf =>
    refine slotRes (fun _ _ _ => rfl) fun _ _ xs k hk => (slotOf_valOf _ k hk).trans ?_
    show (slotOf (xs.getD 1 noVal) k).bind _ = _
    cases slotOf (xs.getD 1 noVal) k <;> rfl
  case lrot =>
    refine slotRes (fun _ _ _ => rfl) fun _ p xs k hk => (slotOf_valOf _ k hk).trans ?_
    rw [rotated_slot hk]
    rfl
  case lsel => exact slotRes (fun _ _ _ => rfl) fun _ _ _ k hk => slotOf_valOf _ k hk
  case vmask =>
    refine slotRes (fun _ _ _ => rfl) fun h p xs k hk => (slotOf_valOf _ k hk).trans ?_
    dsimp only
    rw [← getLsbD_maskOperand _ hk, ← apply_ite (fun m : BitVec 16 => m.getLsbD k)]
    rfl
  case vget =>
    refine slotRes (fun _ _ _ => rfl) fun _ _ xs k hk => (slotOf_word32 _ k hk).trans ?_
    rw [BitVec.ofNat_toNat]
    rfl

/-! #### One result per element (R152) -/

/-- Packed elements are cut to their width, where the elements in a slot are present together. -/
theorem elemOf_ofElems_mod {w : Nat} (hw : Width w) (l : List (Option Nat)) (n : Nat) (hn : n < elemCount w) (hl : l.length = elemCount w)
    (hu : ∀ i j, i < elemCount w → j < elemCount w → i * w / 32 = j * w / 32 → ((l[i]?).getD none).isSome = ((l[j]?).getD none).isSome) :
    elemOf w (ofElems w l) n = ((l[n]?).getD none).map (· % 2 ^ w) := by
  have hget : ∀ i : Nat, ((l.map (Option.map (· % 2 ^ w)))[i]?).getD none = ((l[i]?).getD none).map (· % 2 ^ w) := by
    intro i
    rw [List.getElem?_map]
    cases l[i]? <;> rfl
  rw [ofElems_mod, elemOf_ofElems hw _ n hn (by rw [List.length_map, hl]), hget]
  · intro i j hi hj hij
    rw [hget, hget, Option.isSome_map, Option.isSome_map, hu i j hi hj hij]
  · intro x hx
    rw [hget, Option.map_eq_some_iff] at hx
    obtain ⟨y, -, rfl⟩ := hx
    exact modlt y w

theorem isSome_elemOf (w : Nat) (v : Val) (n : Nat) : (elemOf w v n).isSome = elemValid w v n := by
  unfold elemOf
  split <;> simp_all

theorem elems_get {w n : Nat} (v : Val) (hn : n < elemCount w) : (elems w v)[n]? = some (elemOf w v n) := by
  unfold elems
  rw [List.getElem?_map, List.getElem?_range hn]
  rfl

theorem length_enumFrom {α : Type} (l : List α) (k : Nat) : (enumFrom k l).length = l.length := by
  induction l generalizing k with
  | nil => rfl
  | cons a l ih => exact congrArg (· + 1) (ih (k + 1))

theorem length_elems (w : Nat) (v : Val) : (elems w v).length = elemCount w := by
  rw [elems, List.length_map, List.length_range]

/-- The base that LIOTA counts up from. -/
def iotaBase (w : Nat) (xs : List Val) : Option Nat := if xs = [] then some 0 else elemOf w (xs.getD 0 noVal) 0

/-- LIOTA's value over a base. -/
def iotaVal (w : Nat) (base : Option Nat) : Val :=
  match base with
  | none => noVal
  | some a => ofElems w ((List.range (elemCount w)).map fun n => some ((a + n) % 2 ^ w))

theorem elemOf_iotaVal {w n : Nat} (hw : Width w) (a : Nat) (hn : n < elemCount w) :
    elemOf w (iotaVal w (some a)) n = some ((a + n) % 2 ^ w) := by
  have hget : ∀ k, k < elemCount w →
      (((List.range (elemCount w)).map fun n => some ((a + n) % 2 ^ w))[k]?).getD none = some ((a + k) % 2 ^ w) := by
    intro k hk
    rw [List.getElem?_map, List.getElem?_range hk]
    rfl
  refine (elemOf_ofElems_mod hw _ n hn (by rw [List.length_map, List.length_range]) fun i j hi hj _ => ?_).trans ?_
  · rw [hget i hi, hget j hj]
    rfl
  · rw [hget n hn, Option.map_some, Nat.mod_mod]

theorem liota_fires {h : Hdr} {p : PayL} {s : State} {b : BInst} {xs : List Val} (hf : Fires h (k0Const p.k0) s b xs) :
    let w := codeWidth h.fmt
    let v := iotaVal w (iotaBase w xs)
    exec (.liota h p) s = .next (delivered h 0 s b 1 v (predElem w v)) := by
  refine (pureOp_fires _ _ hf).trans ?_
  cases xs <;> rfl

/-- The elements of LSCAN's value, before they are cut to their width. -/
def scanList (e : Fmt) (down : Bool) (m : Rnd) (noise : Nat → Nat) (x : Val) : List (Option Nat) :=
  (enumFrom 0 (prefixes e [] (elems e.cont x))).map fun q => q.2.map fun l => roundNum (sumNums down l) e m (noise q.1)

section
variable {e : Fmt} (down : Bool) (m : Rnd) (noise : Nat → Nat) (x : Val)

/-- Where an element is valid, the sum of the valid elements up to it is rounded once. -/
theorem scanList_get {n : Nat} (hn : n < elemCount e.cont) : ((scanList e down m noise x)[n]?).getD none =
    (elemOf e.cont x n).map fun _ =>
      roundNum (sumNums down ((((elems e.cont x).take (n + 1)).filterMap id).map (decodeElem e))) e m (noise n) := by
  unfold scanList
  rw [List.getElem?_map, enumFrom_get, prefixes_get e _ _ n (by rw [length_elems]; exact hn), elems_get x hn]
  simp only [Option.map_some, Option.getD_some, Option.map_map, List.nil_append, Nat.zero_add]
  rfl

theorem length_scanList : (scanList e down m noise x).length = elemCount e.cont := by
  unfold scanList
  rw [List.length_map, length_enumFrom, prefixes_len, length_elems]

theorem elemOf_scan {n : Nat} (hn : n < elemCount e.cont) : elemOf e.cont (ofElems e.cont (scanList e down m noise x)) n =
    (elemOf e.cont x n).map fun _ =>
      roundNum (sumNums down ((((elems e.cont x).take (n + 1)).filterMap id).map (decodeElem e))) e m (noise n) % 2 ^ e.cont := by
  rw [elemOf_ofElems_mod e.cont_width _ n hn (length_scanList _ _ _ _), scanList_get _ _ _ _ hn, Option.map_map]
  · rfl
  · intro i j hi hj hij
    rw [scanList_get _ _ _ _ hi, scanList_get _ _ _ _ hj, Option.isSome_map, Option.isSome_map, isSome_elemOf, isSome_elemOf,
      elemValid_slot e.cont_width x hij]

end

/-! #### Reductions (R153) -/

/-- A float reduction delivers what it makes of the valid elements and the noise of element 0. -/
theorem floatReduceResult {i : Hdr → PayL → Instr} (f : Hdr → Fmt → (Nat → Nat) → List Nat → Nat) {g : Fmt → Rnd → Nat → List Nat → Nat}
    (hi : ∀ h p s, exec (i h p) s = floatReduce h p s (f h)) (hg : ∀ h e noise l, l ≠ [] → f h e noise l = g e h.rnd (noise 0) l) :
    FloatReduceResult i g :=
  fun h p s _ _ hf => fred (hi h p s) (fun _ _ l hl => hg h _ _ l hl) hf

theorem foldCode_of_ne_nil (e : Fmt) (big : Bool) {l : List Nat} (hl : l ≠ []) :
    foldCode e big l = l.tail.foldl (pickCode e big) (l.headD 0) := by
  cases l with
  | nil => exact absurd rfl hl
  | cons a l => rfl

/-- Folding a list of integers by a choice, from a value that the choice never prefers to one of the list, stays in the list. -/
theorem foldl_choice_mem {f : Int → Int → Int} {a : Int} {l : List Int} (hl : l ≠ []) (hf : ∀ x y, f x y = x ∨ f x y = y)
    (ha : ∀ x, x ∈ l → l.foldl f a = a → x = a) : l.foldl f a ∈ l := by
  obtain h | h := foldMinMem f hf l a
  · obtain ⟨x, hx⟩ := List.exists_mem_of_ne_nil l hl
    rw [h, ← ha x hx h]
    exact hx
  · exact h

section
variable (sg : Bool) {w : Nat} {l : List Nat}

theorem mem_typed_range (hw : 0 < w) (hl : ∀ c ∈ l, c < 2 ^ w) {x : Int} (hx : x ∈ l.map (typed sg w)) :
    intMin sg w ≤ x ∧ x ≤ intMax sg w := by
  obtain ⟨c, hc, rfl⟩ := List.mem_map.1 hx
  rw [intMin_eq, intMax_eq]
  exact typed_range sg hw (hl c hc)

theorem rimax_spec (hw : 0 < w) (hl : ∀ c ∈ l, c < 2 ^ w) (hne : l ≠ []) :
    let m := (l.map (readInt sg w)).foldl max (intMin sg w)
    m ∈ l.map (typed sg w) ∧ ∀ x, x ∈ l.map (typed sg w) → x ≤ m := by
  rw [map_typed hl]
  have hle := (foldMaxLe (l.map (typed sg w)) (intMin sg w)).2
  refine ⟨foldl_choice_mem (by simpa using hne) (by omega) fun x hx he => ?_, hle⟩
  exact Int.le_antisymm (he ▸ hle x hx) (mem_typed_range sg hw hl hx).1

theorem rimin_spec (hw : 0 < w) (hl : ∀ c ∈ l, c < 2 ^ w) (hne : l ≠ []) :
    let m := (l.map (readInt sg w)).foldl min (intMax sg w)
    m ∈ l.map (typed sg w) ∧ ∀ x, x ∈ l.map (typed sg w) → m ≤ x := by
  rw [map_typed hl]
  have hle := (foldMinLe (l.map (typed sg w)) (intMax sg w)).2
  refine ⟨foldl_choice_mem (by simpa using hne) (by omega) fun x hx he => ?_, hle⟩
  exact Int.le_antisymm (mem_typed_range sg hw hl hx).2 (he ▸ hle x hx)

end

/-- A number of w bits as an integer reduction delivers it. -/
theorem bitwise_reduction {w x : Nat} {β : Nat → Bool} (hx : ∀ j, w ≤ j → x.testBit j = false) (hβ : ∀ j, j < w → x.testBit j = β j) :
    0 ≤ (x : Int) ∧ (x : Int) < 2 ^ w ∧ ∀ j, j < w → (x : Int).toNat.testBit j = β j :=
  ⟨Int.natCast_nonneg x, by exact_mod_cast Nat.lt_pow_two_of_testBit x hx, hβ⟩

theorem rand_spec (w : Nat) (l : List Nat) : let m : Int := (l.foldl (fun a b => a &&& b) (2 ^ w - 1) : Nat)
    0 ≤ m ∧ m < 2 ^ w ∧ ∀ j, j < w → m.toNat.testBit j = l.all fun x => x.testBit j := by
  refine bitwise_reduction (fun j hj => ?_) fun j hj => ?_
  · rw [foldAnd, Nat.testBit_two_pow_sub_one, decide_eq_false (by omega), Bool.false_and]
  · rw [foldAnd, Nat.testBit_two_pow_sub_one, decide_eq_true hj, Bool.true_and]

theorem ror_spec {w : Nat} {l : List Nat} (hl : ∀ c ∈ l, c < 2 ^ w) : let m : Int := (l.foldl (fun a b => a ||| b) 0 : Nat)
    0 ≤ m ∧ m < 2 ^ w ∧ ∀ j, j < w → m.toNat.testBit j = l.any fun x => x.testBit j := by
  refine bitwise_reduction (fun j hj => ?_) fun j _ => ?_
  · rw [foldOr, Nat.zero_testBit, Bool.false_or, List.any_eq_false]
    exact fun c hc => by simp [Nat.testBit_lt_two_pow (Nat.lt_of_lt_of_le (hl c hc) (Nat.pow_le_pow_right Nat.two_pos hj))]
  · rw [foldOr, Nat.zero_testBit, Bool.false_or]

/-- Settles O8: LIOTA and LSCAN by their elements, and each reduction by its fold over the valid elements. -/
theorem scanAndReductionResults : Obligations.ScanAndReductionResults := by
  unfold Obligations.ScanAndReductionResults
  refine ⟨⟨?liota, ?lscan⟩, ?rsum, ?rmax, ?rmin, ?risum, ?rimax, ?rimin, ?rand, ?ror⟩
  case liota =>
    intro h p s b xs hf w base
    refine ⟨_, _, liota_fires hf, firstNonzero_predElem _ _, fun hb k _ => ?_, fun a n hb hn => ?_⟩
    · rw [show iotaBase w xs = none from hb]
      exact slot_noVal k
    · rw [show iotaBase w xs = some a from hb]
      exact elemOf_iotaVal (codeWidth_width _) a hn
  case lscan =>
    intro h p s b xs hf e x
    refine ⟨fun hv => fmtOp_raises _ hf (if_neg (by rw [hv]; decide)), fun hv => ?_⟩
    exact ⟨_, _, fmtOp_fires _ hf (if_pos hv), firstNonzero_predElem _ _, fun n hn => elemOf_scan _ _ _ _ hn⟩
  case rsum =>
    exact floatReduceResult (fun h e noise l => roundNum (sumNums (isDown h.rnd e) (nums e l)) e h.rnd (noise 0)) (fun _ _ _ => rfl)
      fun _ _ _ _ _ => rfl
  case rmax => exact floatReduceResult (fun _ e _ l => foldCode e true l) (fun _ _ _ => rfl) fun _ e _ _ hl => foldCode_of_ne_nil e true hl
  case rmin => exact floatReduceResult (fun _ e _ l => foldCode e false l) (fun _ _ _ => rfl) fun _ e _ _ hl => foldCode_of_ne_nil e false hl
  case risum =>
    refine ired (f := fun sg w l => (l.map (readInt sg w)).foldl (· + ·) 0) (fun _ _ _ => rfl) fun sg w l _ hl _ => ?_
    rw [foldAddSum, Int.zero_add, map_typed hl]
  case rimax =>
    exact ired (f := fun sg w l => (l.map (readInt sg w)).foldl max (intMin sg w)) (fun _ _ _ => rfl)
      fun sg _ _ hw hl hne => rimax_spec sg (wpos hw) hl hne
  case rimin =>
    exact ired (f := fun sg w l => (l.map (readInt sg w)).foldl min (intMax sg w)) (fun _ _ _ => rfl)
      fun sg _ _ hw hl hne => rimin_spec sg (wpos hw) hl hne
  case rand =>
    exact ired (f := fun _ w l => (l.foldl (fun a b => a &&& b) (2 ^ w - 1) : Nat)) (fun _ _ _ => rfl) fun _ w l _ _ _ => rand_spec w l
  case ror =>
    exact ired (f := fun _ _ l => (l.foldl (fun a b => a ||| b) 0 : Nat)) (fun _ _ _ => rfl) fun _ _ _ _ hl _ => ror_spec hl

end Sys2Proof.Proofs
end

section
namespace Sys2Proof.Proofs
open Sys2Proof Sys2Proof.Machine Sys2Proof.Claims Sys2Proof.Laws

/-! ### QBLK (R158) -/

section
variable {h : Hdr} {p : PayV} {s : State} {b : BInst}

/-- QBLK's destination is a blocked entry whose blocks a group of its tokens fills. -/
theorem qblkBad_checks : Checks s b h.fmt p.dfmt (qblkBad s h p b) (fun e => Plain e ∧ contW e = 32)
    (fun e => legalEntry e = true ∧ (Fmt.ofWord e).block ≠ 0 ∧ (p.vctl.toNat + 1) % max (32 / contW e) ((Fmt.ofWord e).block / 16) = 0) := by
  refine cvtCheck_checks (plainCont_iff · 32) fun _ y _ => ?_
  rw [Bool.and_eq_true, blockedEntry_iff, and_assoc, qblkGroupOk, beq_iff_eq]
  rfl

/-- A QBLK that fires raises FORMAT_ENTRY for the entry that fails its check. -/
theorem qblk_raises {xs : List Val} (hf : Fires h (k0Const p.k0) s b xs) {i : Nat} (hc : qblkBad s h p b = some i) :
    exec (.qblk h p) s = .next (raiseFormat s b i) := by
  refine (withOps_fires _ _ hf).trans ?_
  rw [hc]

/-- A QBLK that fires past its checks leaves its token to the commit, for the group of its port. -/
theorem qblk_appends {x : Val} {q : BitVec 7} (hf : Fires h (k0Const p.k0) s b [x]) (ht : h.t0 = .chan q) (hc : qblkBad s h p b = none) :
    exec (.qblk h p) s = .next (putInst s { b with
      pc := b.pc + 1
      effs := b.effs ++ [.qblk q.toNat (p.vctl.toNat + 1) (entryWord s b h.fmt.toNat) (entryWord s b p.dfmt.toNat) h.rnd
        ((srOf s b).seed, b.blk, b.pc) x] }) := by
  refine (withOps_fires _ _ hf).trans ?_
  rw [hc, ht]
  rfl

end

/-- Settles O10: QBLK's checks, then the effect that it adds. -/
theorem blockQuantiseAppends : Obligations.BlockQuantiseAppends := by
  unfold Obligations.BlockQuantiseAppends
  intro h p s b x q hf ht g
  obtain ⟨hsrc, hdst, hnone⟩ := qblkBad_checks (s := s) (h := h) (p := p) (b := b)
  exact ⟨fun hs => qblk_raises hf (hsrc hs), fun hs hd => qblk_raises hf (hdst hs hd), fun hs hd => qblk_appends hf ht (hnone hs hd)⟩

end Sys2Proof.Proofs
end

section
namespace Sys2Proof.Proofs
open Sys2Proof Sys2Proof.Machine Sys2Proof.Claims Sys2Proof.Laws

/-! ### The plane array and matrix instructions (R160 to R177) -/

section
variable {h : Hdr} {p : PayX} {s : State} {b : BInst} {xs : List Val} {enabled : BInst → Bool} (body : BInst → List Val → State)
  (hf : MatFires h p s b xs)
include hf

/-- A matrix instruction that the plane array does not enable changes nothing (R161). -/
theorem matrixOp_waits (he : enabled b = false) : matrixOp h p s enabled body = .next s :=
  (mat_fires body hf).trans (congrArg _ (if_neg (ne_true_of_eq_false he)))

theorem matrixOp_runs (he : enabled b = true) : matrixOp h p s enabled body = .next (body b xs) :=
  (mat_fires body hf).trans (congrArg _ (if_pos he))

end

/-! #### What enables an instruction (R161, R171 to R175) -/

section
variable {s : State} {b : BInst} (hn : ownRun s b = none)
include hn

theorem panelFree_of_no_run (p : PayX) : panelFree s b p = false := by
  rw [panelFree, hn]; rfl

theorem rowPanel_of_no_run (p : PayX) : rowPanel s b p = none := by
  rw [rowPanel, hn]

theorem rowDone_of_no_run : rowDone s b = false := by
  rw [rowDone, hn]; rfl

theorem tileDone_of_no_run : tileDone s b = false := by
  rw [tileDone, hn]; rfl

/-- Without its key's run every matrix instruction but MSET, MCLR and MSTAT waits (R161). -/
theorem waits_without_run {h : Hdr} {p : PayX} {xs : List Val} (hf : MatFires h p s b xs) :
    exec (.mkin h p) s = .next s ∧ exec (.mldb h p) s = .next s ∧ exec (.mldt h p) s = .next s ∧ exec (.mrow h p) s = .next s
      ∧ exec (.mrows h p) s = .next s ∧ exec (.mdrain h p) s = .next s ∧ exec (.mkout h p) s = .next s ∧ exec (.mout h p) s = .next s := by
  have hrow : (rowPanel s b p).isSome = false := by rw [rowPanel_of_no_run hn]; rfl
  exact ⟨matrixOp_waits _ hf (by rw [hn]; rfl), matrixOp_waits _ hf (panelFree_of_no_run hn p), matrixOp_waits _ hf (panelFree_of_no_run hn p),
    matrixOp_waits _ hf hrow, matrixOp_waits _ hf hrow, matrixOp_waits _ hf (rowDone_of_no_run hn), matrixOp_waits _ hf (rowDone_of_no_run hn),
    matrixOp_waits _ hf (tileDone_of_no_run hn)⟩

end

/-! #### MSET (R171) -/

/-- The run word's limits. -/
theorem runWordOk_iff (w : Slot) : runWordOk w.toNat = true ↔ w.toNat / 2 ^ 24 = 0 ∧ w.toNat / 2 ^ 15 % 2 = 0 ∧ w.toNat % 256 ≤ 191
    ∧ (w.toNat / 2 ^ 14 % 2 = 1 → 1 ≤ w.toNat / 2 ^ 16 % 256) := by
  have hw := w.isLt
  simp only [runWordOk, Bool.and_eq_true, Bool.or_eq_true, beq_iff_eq, decide_eq_true_eq]
  simp only [bits, Nat.reduceAdd, Nat.reduceSub, Nat.reducePow]
  omega

/-- The run's fields as the run word gives them. -/
theorem openRun_fields (t : Tag) (w : Nat) : (openRun t w).m = w % 256 + 1 ∧ (openRun t w).n = w / 2 ^ 8 % 64 + 1
    ∧ ((openRun t w).kin = true ↔ w / 2 ^ 14 % 2 = 1) ∧ (openRun t w).nch = w / 2 ^ 16 % 256 + 1 := by
  simp [openRun, bits]

theorem openRun_status (t : Tag) (w : Nat) : (openRun t w).status = 0 := by
  have hdone : (openRun t w).done = 0 := by
    unfold Run.done
    rw [List.filter_eq_nil_iff.2 fun i _ => ?_, List.length_nil]
    exact fun hc => absurd (eq_of_beq hc) (Nat.succ_ne_zero _).symm
  rw [Run.status, hdone]
  simp [openRun]

section
variable {h : Hdr} {p : PayX} {s : State} {b : BInst} {xs : List Val} (hf : MatFires h p s b xs)
include hf

theorem mset_waits {r : Run} (hr : runOf s b = some r) : exec (.mset h p) s = .next s :=
  matrixOp_waits _ hf (by rw [hr]; rfl)

section
variable (hn : runOf s b = none)
include hn

theorem mset_invalid (hx : slotOf (xs.getD 0 noVal) 0 = none) : exec (.mset h p) s = .next (delivered h 0 s b 1 noVal false) := by
  refine (matrixOp_runs _ hf (by rw [hn]; rfl)).trans ?_
  rw [hx]; rfl

variable {w : Slot} (hx : slotOf (xs.getD 0 noVal) 0 = some w)
include hx

theorem mset_refused (hw : runWordOk w.toNat = false) : exec (.mset h p) s = .next (raise s b { cause := .illegalEncoding, detail := 2 }) := by
  refine (matrixOp_runs _ hf (by rw [hn]; rfl)).trans ?_
  rw [hx]
  exact congrArg _ (if_neg (ne_true_of_eq_false hw))

theorem mset_opens (hw : runWordOk w.toNat = true) : exec (.mset h p) s = .next (putInst s (plans b (.set (openRun b.tag w.toNat)))) := by
  refine (matrixOp_runs _ hf (by rw [hn]; rfl)).trans ?_
  rw [hx]
  exact congrArg _ (if_pos hw)

end

/-! #### MCLR and MSTAT (R177) -/

theorem mclr_without_run (hn : ownRun s b = none) : exec (.mclr h p) s = .next (putInst s (advance 1 b)) :=
  (matrixOp_runs _ hf rfl).trans (congrArg _ (if_neg (by rw [hn]; exact Bool.false_ne_true)))

theorem mstat_without_run (hn : ownRun s b = none) : exec (.mstat h p) s = .next (delivered h 0 s b 1 noVal false) := by
  refine (matrixOp_runs _ hf rfl).trans ?_
  rw [hn]; rfl

variable {r : Run} (hr : ownRun s b = some r)
include hr

theorem mclr_closes : exec (.mclr h p) s = .next (putInst s (plans b .close)) :=
  (matrixOp_runs _ hf rfl).trans (congrArg _ (if_pos (by rw [hr]; rfl)))

theorem mstat_delivers : exec (.mstat h p) s = .next (delivered h 0 s b 1 (mstatVal r) (predGeneral (mstatVal r))) := by
  refine (matrixOp_runs _ hf rfl).trans ?_
  rw [hr]; rfl

/-! #### MKIN (R174) -/

theorem mkin_refused (hb : h.nopd.toNat ≠ (r.n + 15) / 16 ∨ r.kin = false ∨ r.kinp = r.m) :
    exec (.mkin h p) s = .next (raise s b { cause := .illegalEncoding, detail := 4 }) := by
  refine (matrixOp_runs _ hf (by rw [hr]; rfl)).trans ?_
  rw [hr]
  exact congrArg _ (if_pos hb)

theorem mkin_loads (hb : ¬ (h.nopd.toNat ≠ (r.n + 15) / 16 ∨ r.kin = false ∨ r.kinp = r.m)) :
    exec (.mkin h p) s = .next (putInst s (plans b (.kin xs))) := by
  refine (matrixOp_runs _ hf (by rw [hr]; rfl)).trans ?_
  rw [hr]
  exact congrArg _ (if_neg hb)

end

/-- Settles O27: each instruction with its key's run and without it. -/
theorem matrixRunControl : Obligations.MatrixRunControl := by
  unfold Obligations.MatrixRunControl
  refine ⟨fun h p s b xs hf => ⟨fun r hr => mset_waits hf hr, fun hn => ⟨mset_invalid hf hn, fun w hx => ⟨fun hw => ?_, fun hw => ?_⟩⟩⟩,
    fun h p s b xs hf => ⟨fun hn => ?_, fun r hr => ⟨?_, ?_, mkin_refused hf hr, fun ht hk hm => ?_⟩⟩⟩
  · exact mset_refused hf hn hx (Bool.eq_false_iff.2 fun hc => hw ((runWordOk_iff w).1 hc))
  · obtain ⟨hm, hn', hkin, hnch⟩ := openRun_fields b.tag w.toNat
    exact ⟨_, mset_opens hf hn hx ((runWordOk_iff w).2 hw), rfl, rfl, rfl, hm, hn', hkin, hnch,
      fun _ _ => ⟨rfl, rfl⟩, rfl, rfl, rfl, rfl, openRun_status _ _⟩
  · obtain ⟨hkin, hldb, hldt, hrow, hrows, hdrain, hkout, hout⟩ := waits_without_run hn hf
    exact ⟨mclr_without_run hf hn, hkin, hldb, hldt, hrow, hrows, hdrain, hkout, hout, mstat_without_run hf hn⟩
  · exact ⟨.close, makes_close hr, mclr_closes hf hr⟩
  · exact ⟨_, _, mstat_delivers hf hr, slotNonzero_pred _, slot3 r⟩
  · exact ⟨_, _, mkin_loads hf hr (by simp [ht, hk, hm]), makes_kin hr xs, kin_spec r xs⟩

end Sys2Proof.Proofs
end

section
namespace Sys2Proof.Proofs
open Sys2Proof Sys2Proof.Machine Sys2Proof.Claims Sys2Proof.Laws

/-! ### Panel loads and row firings (R164 to R167, R172, R173) -/

/-- Settles O28: MLDB and MLDT are the common panel load, k-major and n-major. -/
theorem panelLoads : Obligations.PanelLoads := by
  unfold Obligations.PanelLoads
  exact ⟨panel_load false .mldb fun _ _ _ => rfl, panel_load true .mldt fun _ _ _ => rfl⟩

section
variable {h : Hdr} {p : PayX} {s : State} {b : BInst} {xs : List Val} {r : Run} {q : Panel}
  (hr : ownRun s b = some r) (hq : r.panel (p.mctl.getLsbD 0) = some q)

section
include hr hq

/-- A row firing's panel is enabled when the row's count is the panel's ordinal (R173). -/
theorem rowPanel_of_turn (ht : r.count q.rp = q.ch) : rowPanel s b p = some (r, q) := by
  have hsel : r.panel (pselOf p) = some q := hq
  rw [rowPanel, hr]
  simp only [hsel, ht, if_true]

theorem rowPanel_out_of_turn (ht : r.count q.rp ≠ q.ch) : rowPanel s b p = none := by
  have hsel : r.panel (pselOf p) = some q := hq
  rw [rowPanel, hr]
  simp only [hsel, ht, if_false]

/-- The row that a firing adds at its commit, of the elements that `a` gives. -/
theorem makes_rowFired {word : Word64} {l : List (Option (Nat × Nat))} {a : Nat → Option (Nat × Nat)} (ha : ∀ k, a k = (l[k]?).getD none)
    (hn : r.n ≤ 64) : ∃ r', RowFired (Fmt.ofWord word) a (p.mctl.getLsbD 0) q r r' ∧ Makes b r (.row (pselOf p) word l) (some r') :=
  ⟨_, fireRow_spec _ l q a ha _ r hn, makes_row hr hq word l⟩

theorem rows_wait (hf : MatFires h p s b xs) (ht : r.count q.rp ≠ q.ch) : exec (.mrow h p) s = .next s ∧ exec (.mrows h p) s = .next s := by
  have hw : (rowPanel s b p).isSome = false := by rw [rowPanel_out_of_turn hr hq ht]; rfl
  exact ⟨matrixOp_waits _ hf hw, matrixOp_waits _ hf hw⟩

end

/-! #### MROW -/

/-- The entry of a row in tokens: legal, of at most 16 bits, and with as many operands as its row takes (R170). -/
def RowEntry (h : Hdr) (word : Word64) : Prop :=
  legalEntry word = true ∧ (Fmt.ofWord word).cont ≤ 16 ∧ h.nopd.toNat = (Fmt.ofWord word).cont / 4 + (if (Fmt.ofWord word).block = 0 then 0 else 1)

/-- Element k of an A row in tokens, with its block header (R164). -/
def tokenElement (e : Fmt) (xs : List Val) (k : Nat) : Option (Nat × Nat) := if 128 ≤ k then none else
  match elemOf e.cont (xs.getD (k * e.cont / 512) noVal) (k % (512 / e.cont)) with
  | none => none
  | some c => if e.block = 0 then some (0, c) else (elemOf 16 (xs.getD (e.cont / 4) noVal) (k / e.block)).map (fun x => (x, c))

theorem tokenElement_eq (e : Fmt) (xs : List Val) (k : Nat) : tokenElement e xs k = ((tokenRow e xs)[k]?).getD none := by
  have hget := tokenRow_get e xs k
  rw [← (cont_idx e k).1, (cont_idx e 0).2] at hget
  exact hget.symm

/-- The state in which a firing leaves its commit a row to add to its key's run. -/
def addsRow (h : Hdr) (p : PayX) (s : State) (b : BInst) (q : Panel) (l : List (Option (Nat × Nat))) : State :=
  putInst s (plans (markDurable b) (.row (pselOf p) (panelEntry s b q h.fmt.toNat) l))

theorem rowEntry_iff (h : Hdr) (word : Word64) : (legalEntry word && decide ((Fmt.ofWord word).cont ≤ 16)
    && h.nopd.toNat == (Fmt.ofWord word).cont / 4 + (if (Fmt.ofWord word).block = 0 then 0 else 1)) = true ↔ RowEntry h word := by
  simp only [RowEntry, Bool.and_eq_true, beq_iff_eq, decide_eq_true_eq, and_assoc]

section
variable {x : Val} (ht : r.count q.rp = q.ch)
include hr hq ht

theorem mrow_refused (hf : MatFires h p s b xs) (hl : ¬ RowEntry h (panelEntry s b q h.fmt.toNat)) :
    exec (.mrow h p) s = .next (raiseFormat s b h.fmt.toNat) := by
  have hp := rowPanel_of_turn hr hq ht
  have hbad : mrowBad s b h p = some h.fmt.toNat := by
    rw [mrowBad, hp]
    exact if_neg fun hc => hl ((rowEntry_iff h _).1 hc)
  refine (matrixOp_runs _ hf (by rw [hp]; rfl)).trans ?_
  rw [hbad]

theorem mrow_adds (hf : MatFires h p s b xs) (hl : RowEntry h (panelEntry s b q h.fmt.toNat)) :
    exec (.mrow h p) s = .next (addsRow h p s b q (tokenRow (Fmt.ofWord (panelEntry s b q h.fmt.toNat)) xs)) := by
  have hp := rowPanel_of_turn hr hq ht
  have hbad : mrowBad s b h p = none := by
    rw [mrowBad, hp]
    exact if_pos ((rowEntry_iff h _).2 hl)
  refine (matrixOp_runs _ hf (by rw [hp]; rfl)).trans ?_
  rw [hbad, hp]
  rfl

/-! #### MROWS -/

theorem mrows_refused (hf : MatFires h p s b xs) (hl : legalEntry (panelEntry s b q h.fmt.toNat) = false) :
    exec (.mrows h p) s = .next (raiseFormat s b h.fmt.toNat) := by
  have hp := rowPanel_of_turn hr hq ht
  have hbad : mrowsBad s b h p = some h.fmt.toNat := by
    rw [mrowsBad, hp]
    exact if_neg (ne_true_of_eq_false hl)
  refine (matrixOp_runs _ hf (by rw [hp]; rfl)).trans ?_
  rw [hbad]

variable (hf : MatFires h p s b [x]) (hl : legalEntry (panelEntry s b q h.fmt.toNat) = true)
include hf hl

/-- MROWS past its entry's check: without an address no element of its row is present, and otherwise the row is aligned, within the
scratchpad, and read from there (R165, R173). -/
theorem mrows_spec :
    let e := Fmt.ofWord (panelEntry s b q h.fmt.toNat)
    (slotOf x 0 = none → exec (.mrows h p) s = .next (addsRow h p s b q (List.replicate 128 none)))
    ∧ ∀ a m, slotOf x 0 = some a → scratchCell s b = some m →
      (a.toNat % padAlign e ≠ 0 → exec (.mrows h p) s = .next (raise s b (padReport q.rp 0 0 a.toNat)))
      ∧ (a.toNat % padAlign e = 0 → ∀ k, k < q.kb → Beyond e (rowStart e a.toNat k) → (∀ j, j < k → ¬ Beyond e (rowStart e a.toNat j)) →
        exec (.mrows h p) s = .next (raise s b (padReport q.rp k 0 (rowStart e a.toNat k))))
      ∧ (a.toNat % padAlign e = 0 → (∀ k, k < q.kb → ¬ Beyond e (rowStart e a.toNat k)) →
        exec (.mrows h p) s = .next (addsRow h p s b q ((List.range q.kb).map fun k => some (rowElement s b m (swzOf p) e a.toNat k)))) := by
  intro e
  have hp := rowPanel_of_turn hr hq ht
  have hbad : mrowsBad s b h p = none := by
    rw [mrowsBad, hp]
    exact if_pos hl
  have he : exec (.mrows h p) s = .next _ := matrixOp_runs _ hf (by rw [hp]; rfl)
  rw [hbad, hp, List.getD_cons_zero] at he
  have hbeyond : ∀ a k, decide (scratchSize < (rowSpot e a k).top e.cont) = true ↔ Beyond e (rowStart e a k) := fun a k => by
    rw [beyond_iff, rowSpot_start]
  refine ⟨fun hx => ?_, fun a m hx hm => ?_⟩
  · rw [hx] at he
    exact he
  · rw [hx, hm] at he
    refine ⟨fun hal => ?_, fun hal k hk hb hfirst => ?_, fun hal hb => ?_⟩
    · exact he.trans (congrArg _ (if_pos hal))
    · replace he := he.trans (congrArg _ (if_neg (not_not_intro hal)))
      rw [find_range hk ((hbeyond _ k).2 hb) fun j hj => Bool.eq_false_iff.2 fun hc => hfirst j hj ((hbeyond _ j).1 hc)] at he
      rw [← rowSpot_start]
      exact he
    · replace he := he.trans (congrArg _ (if_neg (not_not_intro hal)))
      rw [List.find?_eq_none.2 fun k hk hc => hb k (List.mem_range.1 hk) ((hbeyond _ k).1 hc)] at he
      simp only [readRow_eq] at he
      exact he

end

end

/-- The elements of a row of `n` that is read whole. -/
theorem rowOf_get {α : Type} (f : Nat → α) (n k : Nat) : (if k < n then some (f k) else none) = (((List.range n).map fun k => some (f k))[k]?).getD none := by
  rw [List.getElem?_map]
  split
  next hk => rw [List.getElem?_range hk]; rfl
  next hk => rw [List.getElem?_eq_none (by rw [List.length_range]; omega)]; rfl

/-- Settles O29: a row waits for its turn, is refused under its entry, and adds the elements of its tokens or of the scratchpad. -/
theorem matrixRows : Obligations.MatrixRows := by
  unfold Obligations.MatrixRows
  refine ⟨fun h p s b xs r q hf hr hq => ⟨fun ht => (rows_wait hr hq hf ht).1, fun ht hl => mrow_refused hr hq ht hf hl, fun ht hl hn => ?_⟩,
    fun h p s b x r q hf hr hq => ⟨fun ht => (rows_wait hr hq hf ht).2, fun ht hl => mrows_refused hr hq ht hf hl, fun ht hl hn => ?_⟩⟩
  · obtain ⟨r', hfired, hmakes⟩ := makes_rowFired hr hq (tokenElement_eq (Fmt.ofWord (panelEntry s b q h.fmt.toNat)) xs) hn
    exact ⟨_, r', hfired, hmakes, mrow_adds hr hq ht hf hl⟩
  · obtain ⟨habsent, hrow⟩ := mrows_spec hr hq ht hf hl
    refine ⟨fun hx => ?_, fun a m hx hm => ?_⟩
    · have hnone : ∀ k, none = ((List.replicate 128 (none : Option (Nat × Nat)))[k]?).getD none := fun k => by
        rw [List.getElem?_replicate]; split <;> rfl
      obtain ⟨r', hfired, hmakes⟩ := makes_rowFired hr hq hnone hn
      exact ⟨_, r', hfired, hmakes, habsent hx⟩
    · obtain ⟨hmis, hbeyond, hadds⟩ := hrow a m hx hm
      refine ⟨hmis, hbeyond, fun hal hin => ?_⟩
      obtain ⟨r', hfired, hmakes⟩ := makes_rowFired hr hq (rowOf_get _ q.kb) hn
      exact ⟨_, r', hfired, hmakes, hadds hal hin⟩

end Sys2Proof.Proofs
end

section
namespace Sys2Proof.Proofs
open Sys2Proof Sys2Proof.Machine Sys2Proof.Claims Sys2Proof.Laws

/-! ### Drains (R175, R176) -/

theorem length_codeTokens (r : Run) : (codeTokens r).length = (r.n + 15) / 16 := by
  rw [codeTokens, List.length_map, List.length_range]

theorem length_outTokens (e : Fmt) (m : Rnd) (sr : SrCtx) (r : Run) : (outTokens e m sr r).length = (r.n * e.cont + 511) / 512 := by
  rw [outTokens, List.length_map, List.length_range]

/-- A list over a range holds its function's values. -/
theorem map_range_get {α : Type} {f : Nat → α} {n i : Nat} {v : α} (h : ((List.range n).map f)[i]? = some v) : v = f i := by
  rw [List.getElem?_map] at h
  obtain ⟨j, hj, rfl⟩ := Option.map_eq_some_iff.1 h
  rw [(List.getElem?_eq_some_iff.1 hj).2.symm, List.getElem_range]

theorem slotOf_codeTokens {r : Run} {j k : Nat} {v : Val} (hv : (codeTokens r)[j]? = some v) (hk : k < 16) :
    slotOf v k = if 16 * j + k < r.n then some (BitVec.ofNat 32 (r.accAt r.outp (16 * j + k))) else none := by
  rw [map_range_get hv, slotOf_valOf _ k hk]

theorem rowSat_iff (e : Fmt) (m : Rnd) (sr : SrCtx) (r : Run) (row : Nat) :
    rowSat e m sr r row = true ↔ ∃ n, n < r.n ∧ outSat e m ({ sr with ord := row }.noise n) (r.accAt row n) = true := by
  simp only [rowSat, List.any_eq_true, List.mem_range]

theorem tileSat_iff (e : Fmt) (m : Rnd) (sr : SrCtx) (r : Run) : ((List.range r.m).any (rowSat e m sr r)) = true
    ↔ ∃ i n, i < r.m ∧ n < r.n ∧ outSat e m ({ sr with ord := i }.noise n) (r.accAt i n) = true := by
  simp only [List.any_eq_true, List.mem_range, rowSat_iff, exists_and_left]

/-- An output entry passes its check when it is legal and has no blocks (R170). -/
theorem outCheck_none {s : State} {p : PayX} {b : BInst} (h : Plain (entryWord s b p.ofmt.toNat)) : outCheck s p b = none :=
  if_pos (by rw [h.1, h.2]; rfl)

theorem outCheck_some {s : State} {p : PayX} {b : BInst} (h : ¬ Plain (entryWord s b p.ofmt.toNat)) : outCheck s p b = some p.ofmt.toNat :=
  if_neg fun hc => h (by rw [Bool.and_eq_true, beq_iff_eq] at hc; exact hc)

/-! #### MOUT's stores -/

/-- A store of `bytes` bytes of a number at a scratchpad address, under a swizzle (R165). -/
def padStore (mcell swz addr bytes v : Nat) : HStore :=
  { bytes := ((List.range bytes).map fun y => scratchAddr mcell (swizzle swz (addr + y))).zip (leBytes bytes v), via := none }

section
variable (e : Fmt) (m : Rnd) (sr : SrCtx) (r : Run) (mcell swz a pitch : Nat)

/-- The stores of a tile, row by row. -/
def tileStores : List HStore := ((List.range r.m).map (outStores e m sr r mcell swz a pitch)).flatten

/-- Under an entry of whole bytes every element has a store of its own. -/
theorem tileStores_bytes (hc : e.cont ≠ 4) : (tileStores e m sr r mcell swz a pitch).length = r.m * r.n
    ∧ ∀ i n, i < r.m → n < r.n → (tileStores e m sr r mcell swz a pitch)[i * r.n + n]?
      = some (padStore mcell swz (a + i * pitch + n * e.cont / 8) (e.cont / 8) (outCode e m sr r i n)) := by
  have hrow : ∀ i, outStores e m sr r mcell swz a pitch i
      = (List.range r.n).map fun n => padStore mcell swz (a + i * pitch + n * e.cont / 8) (e.cont / 8) (outCode e m sr r i n) := fun i => if_neg hc
  have hlen : ∀ i, i ∈ List.range r.m → (outStores e m sr r mcell swz a pitch i).length = r.n := fun i _ => by
    rw [hrow, List.length_map, List.length_range]
  refine ⟨by rw [tileStores, flat_length _ r.n _ hlen, List.length_range], fun i n hi hn => ?_⟩
  rw [tileStores, flat_get _ r.n _ hlen i n hn (by rw [List.length_range]; exact hi), List.getElem?_range hi, Option.bind_some, hrow,
    List.getElem?_map, List.getElem?_range hn]
  rfl

/-- Under an entry of four bits two elements share a store of one byte, and the last of an odd row has one alone. -/
theorem tileStores_nibbles (hc : e.cont = 4) : (tileStores e m sr r mcell swz a pitch).length = r.m * ((r.n + 1) / 2)
    ∧ ∀ i k, i < r.m → k < (r.n + 1) / 2 → (tileStores e m sr r mcell swz a pitch)[i * ((r.n + 1) / 2) + k]?
      = some (padStore mcell swz (a + i * pitch + k) 1 (outCode e m sr r i (2 * k) + (if 2 * k + 1 < r.n then 16 * outCode e m sr r i (2 * k + 1) else 0))) := by
  have hrow : ∀ i, outStores e m sr r mcell swz a pitch i = (List.range ((r.n + 1) / 2)).map fun k => padStore mcell swz (a + i * pitch + k) 1
      (outCode e m sr r i (2 * k) + (if 2 * k + 1 < r.n then 16 * outCode e m sr r i (2 * k + 1) else 0)) := fun i => if_pos hc
  have hlen : ∀ i, i ∈ List.range r.m → (outStores e m sr r mcell swz a pitch i).length = (r.n + 1) / 2 := fun i _ => by
    rw [hrow, List.length_map, List.length_range]
  refine ⟨by rw [tileStores, flat_length _ _ _ hlen, List.length_range], fun i k hi hk => ?_⟩
  rw [tileStores, flat_get _ _ _ hlen i k hk (by rw [List.length_range]; exact hi), List.getElem?_range hi, Option.bind_some, hrow,
    List.getElem?_map, List.getElem?_range hk]
  rfl

end

/-! #### MOUT -/

/-- Every row of the tile is done and none is drained (R176). -/
def TileDone (r : Run) : Prop := r.outp = 0 ∧ ∀ i, i < r.m → r.count i = r.nch

/-- The state after MOUT has closed its run, its targets given the status of the whole tile drained. -/
def closes (h : Hdr) (s : State) (b : BInst) (r : Run) : State :=
  let st := statusDeliv { r with outp := r.m }
  putInst s (plans (deliver h 0 (same st.1 st.2) b) .close)

/-- What MOUT's targets receive is the status word and whether one of its flags is set. -/
theorem closes_eq (h : Hdr) (s : State) (b : BInst) (r : Run) :
    closes h s b r = putInst s (plans (deliver h 0 (same (word64 ({ r with outp := r.m } : Run).status)
      (decide (({ r with outp := r.m } : Run).status.toNat / 2 ^ 43 % 32 ≠ 0))) b) .close) := by
  rw [closes, statusDeliv, statusBits]

section
variable {h : Hdr} {p : PayX} {s : State} {b : BInst} {r : Run} (hr : ownRun s b = some r)
include hr

theorem tileDone_iff : tileDone s b = true ↔ TileDone r := by
  rw [tileDone, hr, Option.any_some, Bool.and_eq_true, beq_iff_eq, beq_iff_eq, done_iff]
  rfl

variable {x : Val} (hf : MatFires h p s b [x])
include hf

theorem mout_waits (hd : ¬ TileDone r) : exec (.mout h p) s = .next s :=
  matrixOp_waits _ hf (Bool.eq_false_iff.2 fun hc => hd ((tileDone_iff hr).1 hc))

variable (hd : TileDone r)
include hd

theorem mout_refused (hl : ¬ Plain (entryWord s b p.ofmt.toNat)) : exec (.mout h p) s = .next (raiseFormat s b p.ofmt.toNat) := by
  refine (matrixOp_runs _ hf ((tileDone_iff hr).2 hd)).trans ?_
  rw [outCheck_some hl]

/-- MOUT past its entry's check: it closes the run, and with its two slots first checks its places and writes the tile (R165, R176). -/
theorem mout_spec (hl : Plain (entryWord s b p.ofmt.toNat)) :
    let e := entryOf s b p.ofmt.toNat
    (slotOf x 0 = none ∨ slotOf x 1 = none → exec (.mout h p) s = .next (closes h s b r))
    ∧ ∀ a pitch m, slotOf x 0 = some a → slotOf x 1 = some pitch → scratchCell s b = some m →
      let align := max 1 (e.cont / 8)
      (a.toNat % align ≠ 0 ∨ pitch.toNat % align ≠ 0 → exec (.mout h p) s = .next (raise s b (padReport 0 0 0 a.toNat)))
      ∧ (a.toNat % align = 0 → pitch.toNat % align = 0 → (∀ i n, i < r.m → n < r.n → ¬ Beyond e (a.toNat + i * pitch.toNat + n * e.cont / 8)) →
        let sts := tileStores e h.rnd (srOf s b) r m (swzOf p) a.toNat pitch.toNat
        holdOverflows s b sts = false → exec (.mout h p) s = .next (closes h s (withStores b sts)
          { r with sat := r.sat || (List.range r.m).any (rowSat e h.rnd (srOf s b) r) })) := by
  intro e
  have hpad : padAlign e = max 1 (e.cont / 8) := if_pos hl.2
  have he : exec (.mout h p) s = .next _ := matrixOp_runs _ hf ((tileDone_iff hr).2 hd)
  rw [outCheck_none hl, hr, List.getD_cons_zero] at he
  dsimp only at he
  refine ⟨fun hx => ?_, fun a pitch m ha hp hm => ?_⟩
  · obtain hx | hx := hx
    · rw [hx] at he
      exact he
    · rw [hx] at he
      cases hx0 : slotOf x 0 <;> (rw [hx0] at he; exact he)
  · rw [ha, hp, hm] at he
    dsimp only at he
    rw [show padAlign (entryOf s b p.ofmt.toNat) = max 1 (e.cont / 8) from hpad] at he
    refine ⟨fun hal => he.trans (congrArg _ (if_pos hal)), fun hal hpl hin hroom => ?_⟩
    replace he := he.trans (congrArg _ (if_neg fun hc => hc.elim (absurd hal) (absurd hpl)))
    rw [tileBad_none hin] at he
    exact he.trans (congrArg _ (if_neg fun hc => Bool.false_ne_true (hroom.symm.trans hc)))

end

/-- Settles O30: MKOUT and MDRAIN are the common drain, each with its tokens, and MOUT closes the run with the stores of its tile. -/
theorem matrixDrains : Obligations.MatrixDrains := by
  unfold Obligations.MatrixDrains
  refine ⟨fun h p s b xs r port hf hr ht => ?_, fun h p s b x r hf hr =>
    ⟨mout_waits hr hf, mout_refused hr hf, fun hd hl hx => ?_, fun a pitch m hd hl ha hp hm => ?_⟩⟩
  · obtain ⟨hwait, -, hkout⟩ := drain_spec (o := none) (row := fun _ r => (codeTokens r, false)) (check := fun _ => none) hf hr ht
    obtain ⟨hwait', hbad, hdrain⟩ := drain_spec (o := some p.ofmt) (row := fun b r => convRow (entryOf s b p.ofmt.toNat) h.rnd (srOf s b) r)
      (check := outCheck s p) hf hr ht
    refine ⟨fun hd => ⟨hwait hd, hwait' hd⟩, fun hd => ⟨_, hkout hd rfl, length_codeTokens r, fun j v k hv hk => slotOf_codeTokens hv hk⟩,
      fun hd hl => hbad hd _ (outCheck_some hl), fun hd hl =>
        ⟨_, _, hdrain hd (outCheck_none hl), rowSat_iff _ _ _ _ _, length_outTokens _ _ _ _, outTokens_elem _ _ _ _⟩⟩
  · rw [(mout_spec hr hf hd hl).1 hx, closes_eq]
  · obtain ⟨hmis, hwrites⟩ := (mout_spec hr hf hd hl).2 a pitch m ha hp hm
    refine ⟨hmis, fun hal hpl hin => ⟨_, _, tileSat_iff _ _ _ _, fun hroom => (hwrites hal hpl hin hroom).trans (congrArg _ (closes_eq _ _ _ _)),
      tileStores_bytes _ _ _ _ _ _ _ _, fun hc => ?_⟩⟩
    obtain ⟨hlen, hget⟩ := tileStores_nibbles _ h.rnd (srOf s b) r m (swzOf p) a.toNat pitch.toNat hc
    refine ⟨hlen, fun i k hi hk => ?_⟩
    have hat : a.toNat + i * pitch.toNat + 2 * k * (Fmt.ofWord (entryWord s b p.ofmt.toNat)).cont / 8 = a.toNat + i * pitch.toNat + k := by
      rw [hc]; omega
    have hst := hget i k hi hk
    rw [← hat] at hst
    exact hst

end Sys2Proof.Proofs
end

section
namespace Sys2Proof.Proofs
open Sys2Proof Sys2Proof.Machine Sys2Proof.Claims Sys2Proof.Laws

/-! ### Engine starts (R198, R260, R264, R266, R269, R278) -/

/-- The operation that an engine instruction starts carries its channel target and its place (R260). -/
theorem newOp_eq_opOf (h : Hdr) (p : PayE) (b : BInst) (e : Nat) (m : Option Nat) (k : OpKind) : newOp b h p.scope e m k = opOf h p b e m k := by
  unfold newOp opOf portOf
  cases h.t0 <;> rfl

/-- A start is an effect of the commit: until then only caches differ (R260). -/
theorem startAtCommit_acquire_replaces (s : State) (h : Hdr) (p : PayE) (b : BInst) (e : Nat) (m : Option Nat) (k : OpKind) :
    Replaces (.next (startAtCommit (acquire s b p.scope) b (newOp b h p.scope e m k))) s (adds b [.engine (opOf h p b e m k)]) := by
  rw [newOp_eq_opOf]
  exact replaces_put (acquire_only s b p.scope)

/-! #### CPY and CPYS (R266, R269) -/

/-- A descriptor of CPY away from 256 bytes is not read: ADDR_OVERFLOW with its address (assumption 80). -/
theorem openCopy_misaligned (s : State) (b : BInst) {ea : Nat} (m : Option Nat) (hal : ea % 256 ≠ 0) :
    openCopy s b ea m = .error { cause := .addrOverflow, addr := ea } := by
  have hw : descWords s b ea 4 = .error { cause := .addrOverflow, addr := ea } := if_pos (.inl hal)
  rw [openCopy, openDesc, hw]

/-- A stream before its first tile. -/
def freshStream (ns slotb : Nat) : StreamSt := { ns := ns, slotb := slotb, place := 0, epoch := 0, next := 0, newest := [], accepted := [] }

/-- CPY is the copies' shared form on its own checks. -/
theorem cpy_eq_copyOp (h : Hdr) (p : PayE) (s : State) : exec (.cpy h p) s = copyOp h p s (fun b ea _ m => (openCopy s b ea m).map .copy) := rfl

section
variable {h : Hdr} {p : PayE} {s : State} {b : BInst} {x : Val} (hf : MemFires h s b [x])
include hf

section
variable {f : BInst → Nat → List Val → Option Nat → Except Report OpKind}

theorem copyOp_invalid (hx : baseOf false x = none) : copyOp h p s f = .next (delivered h 0 s b 1 noVal false) := by
  refine (memOp_fires' _ hf).trans (congrArg _ ?_)
  rw [List.getD_cons_zero, hx]
  rfl

variable {ea : Nat} (hx : baseOf false x = some ea)
include hx

theorem copyOp_unserved (he : copyEngine s b = none) : copyOp h p s f = .next (raise s b { cause := .permission, addr := ea }) := by
  refine (memOp_fires' _ hf).trans (congrArg _ ?_)
  rw [List.getD_cons_zero, hx]
  dsimp only
  rw [he]
  rfl

variable {e : Nat} {m : Option Nat} (he : copyEngine s b = some (e, m))
include he

theorem copyOp_refused {r : Report} (hk : f b ea [x] m = .error r) : copyOp h p s f = .next (raise s b r) := by
  refine (memOp_fires' _ hf).trans (congrArg _ ?_)
  rw [List.getD_cons_zero, hx]
  dsimp only
  rw [he]
  dsimp only
  rw [hk]

theorem copyOp_starts {k : OpKind} (hk : f b ea [x] m = .ok k) : Replaces (copyOp h p s f) s (adds b [.engine (opOf h p b e m k)]) := by
  have hc : copyOp h p s f = .next (startAtCommit (acquire s b p.scope) b (newOp b h p.scope e m k)) := by
    refine (memOp_fires' _ hf).trans (congrArg _ ?_)
    rw [List.getD_cons_zero, hx]
    dsimp only
    rw [he]
    dsimp only
    rw [hk]
  rw [hc]
  exact startAtCommit_acquire_replaces s h p b e m k

end

/-- CPYS with its slot size is the copies' shared form on the stream's checks. -/
theorem cpys_eq_copyOp {sl : Slot} (hs : slotOf x 2 = some sl) : let ns := p.ectl.toNat % 16 + 1
    exec (.cpys h p) s = copyOp h p s (fun b ea _ m => (openStream s b ea sl.toNat ns m).map (fun d => .stream d (freshStream ns sl.toNat))) := by
  refine (memOp_fires' _ hf).trans (Eq.trans (congrArg _ ?_) (memOp_fires' _ hf).symm)
  rw [List.getD_cons_zero, hs]
  cases baseOf false x with
  | none => rfl
  | some ea =>
    dsimp only
    cases copyEngine s b with
    | none => rfl
    | some e =>
      dsimp only
      cases openStream s b ea sl.toNat (p.ectl.toNat % 16 + 1) e.2 <;> rfl

/-- CPYS without a valid address or slot size starts nothing (R261, R269). -/
theorem cpys_invalid (hx : slotOf x 2 = none ∨ baseOf false x = none) : exec (.cpys h p) s = .next (delivered h 0 s b 1 noVal false) := by
  refine (memOp_fires' _ hf).trans (congrArg _ ?_)
  rw [List.getD_cons_zero]
  obtain hx | hx := hx
  · rw [hx]; rfl
  · rw [hx]; cases slotOf x 2 <;> rfl

/-! #### COLL (R278) -/

theorem coll_invalid (hx : baseOf false x = none) : exec (.coll h p) s = .next (delivered h 0 s b 1 noVal false) := by
  refine (memOp_fires' _ hf).trans (congrArg _ ?_)
  rw [List.getD_cons_zero, hx]
  rfl

variable {ea : Nat} (hx : baseOf false x = some ea)
include hx

theorem coll_refused {r : Report} (hc : openColl s b h ea = .error r) : exec (.coll h p) s = .next (raise s b r) := by
  refine (memOp_fires' _ hf).trans (congrArg _ ?_)
  rw [List.getD_cons_zero, hx]
  dsimp only
  rw [hc]

theorem coll_starts {c : CollDesc} (hc : openColl s b h ea = .ok c) :
    Replaces (exec (.coll h p) s) s (adds b [.engine (opOf h p b (cellDie b.cell) none (.coll c))]) := by
  have he : exec (.coll h p) s = .next (startAtCommit (acquire s b p.scope) b (newOp b h p.scope (cellDie b.cell) none (.coll c))) := by
    refine (memOp_fires' _ hf).trans (congrArg _ ?_)
    rw [List.getD_cons_zero, hx]
    dsimp only
    rw [hc]
  rw [he]
  exact startAtCommit_acquire_replaces s h p b (cellDie b.cell) none (.coll c)

end

/-! #### DRAFT (R198) -/

section
variable {h : Hdr} {p : PayE} {s : State} {b : BInst} {x c : Val} (hf : MemFires h s b [x, c])
include hf

theorem draft_invalid (hx : baseOf false x = none ∨ slotOf x 2 = none ∨ slotOf x 3 = none ∨ slotOf x 4 = none ∨ slotOf x 5 = none) :
    exec (.draft h p) s = .next (delivered h 0 s b 1 noVal false) := by
  refine (memOp_fires' _ hf).trans (congrArg _ ?_)
  dsimp only
  rw [List.getD_cons_zero]
  split
  · next h0 h2 h3 h4 h5 => simp [h0, h2, h3, h4, h5] at hx
  · rfl

theorem draft_starts {base : Nat} {lo hi vlim minl : Slot} (h0 : baseOf false x = some base) (h2 : slotOf x 2 = some lo) (h3 : slotOf x 3 = some hi)
    (h4 : slotOf x 4 = some vlim) (h5 : slotOf x 5 = some minl) :
    Replaces (exec (.draft h p) s) s (adds b [.engine (opOf h p b (cellSpire b.cell) none (.walk
      { base := base, dest := lo.toNat + 2 ^ 32 * hi.toNat, vlim := vlim.toNat, minl := minl.toNat
        nc := field p.ectl.toNat 0 3 + 1, depth := field p.ectl.toNat 3 3 + 1
        ids := (List.range 16).filterMap (fun k => (slotOf c k).map BitVec.toNat) }))]) := by
  have he : exec (.draft h p) s = .next _ := memOp_fires' _ hf
  dsimp only at he
  rw [List.getD_cons_zero, h0, h2, h3, h4, h5] at he
  rw [he]
  exact startAtCommit_acquire_replaces s h p b (cellSpire b.cell) none _

end

/-- Settles O31: each instruction past its operands by the lemma on its form, and a descriptor's fields by its reading. -/
theorem engineStarts : Obligations.EngineStarts := by
  unfold Obligations.EngineStarts
  refine ⟨fun h p s b x hf hx => ?_, fun h p s b x ea hf hx => ⟨?_, fun e m he => ⟨fun hal => ?_, fun d hd => ?_, fun r hr => ?_, fun sl hs => ?_⟩,
    ?_, ?_, ?_⟩, descFields, fun h p s b x c hf => ⟨draft_invalid hf, fun base lo hi vlim minl => draft_starts hf⟩⟩
  · simp only [List.forall_mem_cons, cpy_eq_copyOp]
    exact ⟨copyOp_invalid hf hx, cpys_invalid hf (.inr hx), coll_invalid hf hx, List.forall_mem_nil _⟩
  · rw [cpy_eq_copyOp]
    exact copyOp_unserved hf hx
  · rw [cpy_eq_copyOp]
    exact copyOp_refused hf hx he (congrArg (Except.map _) (openCopy_misaligned s b m hal))
  · rw [cpy_eq_copyOp]
    exact copyOp_starts hf hx he (congrArg (Except.map _) hd)
  · rw [cpy_eq_copyOp]
    exact copyOp_refused hf hx he (congrArg (Except.map _) hr)
  · rw [cpys_eq_copyOp hf hs]
    exact ⟨fun d hd => copyOp_starts hf hx he (congrArg (Except.map _) hd), fun r hr => copyOp_refused hf hx he (congrArg (Except.map _) hr)⟩
  · exact fun hs => cpys_invalid hf (.inl hs)
  · exact fun c => coll_starts hf hx
  · exact fun r => coll_refused hf hx

end Sys2Proof.Proofs
end

section
namespace Sys2Proof.Proofs
open Sys2Proof Sys2Proof.Machine Sys2Proof.Claims Sys2Proof.Laws

/-! ### Logit programs (R190, R194, R195) -/

/-! #### Instructions that write a register -/

section
variable {i : Instr} {d : BitVec 3}

/-- An instruction that rounds an exact result writes its code. -/
theorem logitPuts_round {f : LogitRun → Exact} (h : ∀ s, exec i s = logitRound s d f) : LogitPuts i d (fun r => codeOf (f r)) :=
  logit_puts h (fun _ => rfl)

/-- A comparison writes 1.0 where the order of its operands is one that it asks for, and else +0. -/
theorem logitPuts_compare {a b : BitVec 3} {f : Option Ordering → Bool} {p : Option Ordering → Prop} [DecidablePred p]
    (h : ∀ s, exec i s = logitCmp s d a b f) (hp : ∀ o, f o = true ↔ p o) :
    LogitPuts i d (fun r => if p ((regNum r a).cmp (regNum r b)) then 0x3F800000 else 0) :=
  logit_puts h (fun _ => ite_iff (hp _) _ _)

end

/-! #### What an id's result does to its stream (R190) -/

/-- Only the running values of a stream change. -/
theorem takeY_rest (l : LStream) (y id : Nat) (masked : Bool) :
    ∃ bad m sum cands, takeY l y id masked = { l with bad := bad, m := m, sum := sum, cands := cands } := by
  unfold takeY
  dsimp only
  split
  · exact ⟨_, _, _, _, rfl⟩
  · split
    · exact ⟨_, _, _, _, rfl⟩
    · split <;> exact ⟨_, _, _, _, rfl⟩

theorem takeY_masked (l : LStream) (y id : Nat) : takeY l y id true = l := rfl

theorem takeY_negInf (l : LStream) {y : Nat} (id : Nat) (hy : f32 y = .inf true) : takeY l y id false = l := by
  rw [takeY, hy]; rfl

theorem takeY_bad (l : LStream) {y : Nat} (id : Nat) (hy : f32 y = .nan ∨ f32 y = .inf false) : takeY l y id false = { l with bad := true } := by
  obtain hy | hy := hy <;> rw [takeY, hy] <;> rfl

/-- A finite result joins the running sum and the candidates. -/
theorem takeY_finite (l : LStream) {y : Nat} (id : Nat) {sg : Bool} {n : Nat} {e : Int} (hy : f32 y = .fin sg n e) :
    ∃ sum, takeY l y id false = { l with
      sum := sum, m := if numGt (f32 y) (f32 l.m) then y else l.m, cands := (insSorted ranksBefore (y, id) l.cands).take l.k } := by
  have hfin : takeY l y id false = _ := (if_neg (by rw [hy]; exact Bool.false_ne_true)).trans (if_neg (by rw [hy]; exact Bool.false_ne_true))
  rw [hfin]
  by_cases hm : numGt (f32 y) (f32 l.m) = true
  · rw [if_pos hm, if_pos hm]; exact ⟨_, rfl⟩
  · rw [if_neg hm, if_neg hm]; exact ⟨_, rfl⟩

theorem numGt_iff (a b : Machine.Num) : numGt a b = true ↔ a.cmp b = some .gt := beq_iff_eq

/-! #### The registers at a program's entry (R194) -/

theorem entryRegs_reads (l : LStream) (id g k : Nat) : mget (0 : Slot) (entryRegs l id g) k =
    let e := l.table.find? (fun x => x.1 == id)
    if k = 0 then BitVec.ofNat 32 g
    else if k = 1 then codeOf (.rat false ((e.map (fun x => x.2.1)).getD 0 + (l.path.filter (fun x => x == id)).length) 1)
    else if k = 2 then BitVec.ofNat 32 ((e.map (fun x => x.2.2)).getD 0 * 2 ^ 16)
    else if k = 3 then codeOf (.rat false id 1) else 0 := by
  unfold entryRegs
  simp only [mget_mput_if]
  by_cases h0 : k = 0
  · subst h0; rfl
  by_cases h1 : k = 1
  · subst h1; rfl
  by_cases h2 : k = 2
  · subst h2; rfl
  by_cases h3 : k = 3
  · subst h3; rfl
  simp only [h0, h1, h2, h3, if_false]
  rfl

/-! #### MASK and END -/

section
variable {s : State} {r : LogitRun} (hr : s.logit = some r)
include hr

theorem mask_spec (a : BitVec 3) : ∃ m, (m = true ↔ r.mask = true ∨ field (mget (0 : Slot) r.regs a.toNat).toNat 0 31 ≠ 0)
    ∧ exec (.lgMask a) s = .next { s with logit := some { r with mask := m, pc := r.pc + 1 } } := by
  refine ⟨r.mask || lnonzero (lreg r a), by rw [Bool.or_eq_true, lnz, lreg], ?_⟩
  show logitOp s _ = _
  rw [logitOp, hr]

/-- Without its stream the unit is free again. -/
theorem lgEnd_streamless (hf : findStream s r.spire r.colour r.iter = none) : exec .lgEnd s = .next { s with logit := none } := by
  show execLgEnd s = _
  unfold execLgEnd
  rw [hr]
  dsimp only
  rw [hf]

variable {l : LStream} (hf : findStream s r.spire r.colour r.iter = some l)
include hf

theorem lgEnd_next : exec .lgEnd s = .next (nextId s (takeY l (mget (0 : Slot) r.regs 0).toNat r.cur r.mask) r.ids) := by
  show execLgEnd s = _
  unfold execLgEnd
  rw [hr]
  dsimp only
  rw [hf]
  rfl

end

/-- The last id of a token frees the unit, and that of the last token ends the stream. -/
theorem nextId_nil (s : State) (l : LStream) :
    nextId s l [] = putStream { s with logit := none } { l with ended := l.ended || decide (l.next = (l.total + 15) / 16) } := by
  unfold nextId streamToks
  by_cases h : l.next = (l.total + 15) / 16 <;> simp [h]

/-- The run of the next id of a stream. -/
def runOf (l : LStream) (id g : Nat) (rest : List (Nat × Nat)) : LogitRun :=
  { spire := l.spire, colour := l.colour, iter := l.iter, ids := rest, cur := id, prog := l.prog, pc := 0, regs := entryRegs l id g, mask := false }

theorem nextId_cons (s : State) (l : LStream) (id g : Nat) (rest : List (Nat × Nat)) :
    nextId s l ((id, g) :: rest) = putStream { s with logit := some (runOf l id g rest) } l := rfl

/-- What a stream runs does not rest on its running values. -/
theorem runOf_takeY (l : LStream) (y i : Nat) (masked : Bool) (id g : Nat) (rest : List (Nat × Nat)) :
    runOf (takeY l y i masked) id g rest = runOf l id g rest := by
  obtain ⟨bad, m, sum, cands, h⟩ := takeY_rest l y i masked
  rw [h]; rfl

theorem takeY_fixed (l : LStream) (y i : Nat) (masked : Bool) : (takeY l y i masked).next = l.next ∧ (takeY l y i masked).total = l.total := by
  obtain ⟨bad, m, sum, cands, h⟩ := takeY_rest l y i masked
  rw [h]; exact ⟨rfl, rfl⟩

/-- Settles O36: the register writes by the kind of their result, END by the stream that it finds, and a result by its value. -/
theorem logitInstructions : Obligations.LogitInstructions := by
  unfold Obligations.LogitInstructions
  refine ⟨fun d a b => ⟨?_, ?_, ?_, fun c => ⟨?_, ?_⟩, fun imm => ⟨?_, ?_, ?_⟩, ?_, ?_, ?_, ?_, ?_, ?_, ?_, ?_, ?_, ?_, ?_⟩,
    fun a s r hr => mask_spec hr a, fun s r l hr hf => ⟨fun hi => ?_, fun id g rest hi => ?_⟩, fun s r hr => lgEnd_streamless hr,
    fun l y id => ⟨takeY_masked l y id, takeY_negInf l id, takeY_bad l id, fun sg n e hy => ?_⟩, entryRegs_reads⟩
  · exact logitPuts_round fun _ => rfl
  · exact logitPuts_round fun _ => rfl
  · exact logitPuts_round fun _ => rfl
  · exact logitPuts_round fun _ => rfl
  · exact logit_puts (fun _ => rfl) fun r => ite_iff (lnz (lreg r c)) _ _
  · exact logitPuts_round fun _ => rfl
  · exact logitPuts_round fun _ => rfl
  · exact logit_puts (fun _ => rfl) fun _ => rfl
  · exact logit_puts (fun _ => rfl) fun _ => rfl
  · exact logit_puts (fun _ => rfl) fun _ => rfl
  · exact logit_puts (fun _ => rfl) fun _ => rfl
  · exact logit_puts (fun _ => rfl) fun r => fneg32 (lreg r a)
  · exact logit_puts (fun _ => rfl) fun r => fabs32 (lreg r a)
  · exact logitPuts_round fun _ => rfl
  · exact logitPuts_round fun _ => rfl
  · exact logitPuts_round fun _ => rfl
  · exact logitPuts_compare (p := fun o => o = some .lt) (fun _ => rfl) fun o => beq_iff_eq
  · exact logitPuts_compare (f := fun o => o == some .lt || o == some .eq) (p := fun o => o = some .lt ∨ o = some .eq) (fun _ => rfl)
      fun o => by rw [Bool.or_eq_true, beq_iff_eq, beq_iff_eq]
  · exact logitPuts_compare (p := fun o => o = some .eq) (fun _ => rfl) fun o => beq_iff_eq
  · obtain ⟨hnext, htotal⟩ := takeY_fixed l (mget (0 : Slot) r.regs 0).toNat r.cur r.mask
    rw [lgEnd_next hr hf, hi, nextId_nil, hnext, htotal]
  · rw [lgEnd_next hr hf, hi, nextId_cons, runOf_takeY]
    rfl
  · obtain ⟨sum, ht⟩ := takeY_finite l id hy
    rw [ht]
    exact ⟨rfl, fun hm => if_pos ((numGt_iff _ _).2 hm), fun hm => if_neg (mt (numGt_iff _ _).1 hm)⟩

end Sys2Proof.Proofs
end

section
namespace Sys2Proof.Proofs
open Sys2Proof Sys2Proof.Machine Sys2Proof.Claims Sys2Proof.Laws

/-! ### The belfry (R179 to R181, R217) -/

/-! #### The fields of sr.belfry -/

/-- A field above the bits in which two words differ reads the same. -/
theorem field_of_div {a b : Nat} (j : Nat) (h : a / 2 ^ j = b / 2 ^ j) {k : Nat} (hk : j ≤ k) (n : Nat) : field a k n = field b k n := by
  obtain ⟨i, rfl⟩ := Nat.exists_eq_add_of_le hk
  rw [field, field, Nat.pow_add, ← Nat.div_div_eq_div_mul, ← Nat.div_div_eq_div_mul, h]

theorem belEn_iff (b : Word64) : belEn b = true ↔ b.toNat % 2 = 1 := en_field b

theorem withCur_toNat (b : Word64) (cur : Nat) : (withCur b cur).toNat = 64 * (b.toNat / 64) + 16 * (cur % 4) + b.toNat % 16 := by
  have hb := lt_word b
  rw [withCur, belCur, bits, BitVec.toNat_ofNat]
  omega

/-- Another CUR below 4 leaves the other fields as they are. -/
theorem withCur_fields (b : Word64) {cur : Nat} (hc : cur < 4) : field (withCur b cur).toNat 4 2 = cur ∧ belEn (withCur b cur) = belEn b
    ∧ field (withCur b cur).toNat 8 2 = field b.toNat 8 2 ∧ ∀ i, field (withCur b cur).toNat (16 + 8 * i) 8 = field b.toNat (16 + 8 * i) 8 := by
  have ht := withCur_toNat b cur
  have hhigh : (withCur b cur).toNat / 2 ^ 6 = b.toNat / 2 ^ 6 := by omega
  refine ⟨by unfold field; omega, ?_, field_of_div 6 hhigh (by omega) 2, fun i => field_of_div 6 hhigh (by omega) 8⟩
  rw [Bool.eq_iff_iff, belEn_iff, belEn_iff]
  omega

/-- The belfry switched off: EN alone changes (R179). -/
theorem belfryOff_toNat (w : World) : (belfryOff w).belfry.toNat = w.belfry.toNat - w.belfry.toNat % 2 := by
  have hb := lt_word w.belfry
  rw [belfryOff, BitVec.toNat_ofNat]
  omega

theorem belfryOff_en (w : World) : belEn (belfryOff w).belfry = false := by
  have ht := belfryOff_toNat w
  rw [Bool.eq_false_iff, Ne, belEn_iff]
  omega

theorem belfryOff_field (w : World) {k : Nat} (n : Nat) (hk : 1 ≤ k) : field (belfryOff w).belfry.toNat k n = field w.belfry.toNat k n := by
  have ht := belfryOff_toNat w
  exact field_of_div 1 (by omega) hk n

/-! #### DRAINs (R179, R181) -/

theorem drainReceive_idle {s : State} {w : BitVec 4} (h : (worldOf s w).drainFlight = []) : exec (.drainReceive w) s = .next s := by
  show execDrainReceive w s = _
  simp only [execDrainReceive, h]

theorem drainReceive_takes {s : State} {w : BitVec 4} {t : Token} {l : List Token} (h : (worldOf s w).drainFlight = t :: l) :
    exec (.drainReceive w) s = .next (setWorld s w { worldOf s w with
      drainFlight := l, drains := if belEn (worldOf s w).belfry then (worldOf s w).drains ++ [t] else (worldOf s w).drains }) := by
  show execDrainReceive w s = _
  simp only [execDrainReceive, h]

/-! #### Swaps (R181, R344) -/

/-- CUR after a swap. -/
def curAfter (ww : World) : Nat := (belCur ww.belfry + 1) % (belSeq ww.belfry + 1)

/-- The world after a swap on the DRAIN `t`, the other DRAINs left in `rest`. -/
def worldAfterSwap (ww : World) (here : Bool) (t : Token) (rest : List Token) : World :=
  let b := withCur ww.belfry (curAfter ww)
  let due := if here then ww.goDue else ww.goDue ++ [(belCtx b (curAfter ww), t)]
  let w1 := { ww with belfry := b, swaps := ww.swaps + 1, drains := if belEn b then rest else [], goDue := due }
  if ww.disable then { belfryOff w1 with goDue := w1.goDue } else w1

theorem curAfter_lt (ww : World) : curAfter ww < 4 := by
  have hs : belSeq ww.belfry < 4 := Nat.mod_lt _ (by decide)
  have hc : curAfter ww < belSeq ww.belfry + 1 := Nat.mod_lt _ (by omega)
  omega

theorem belCtx_withCur (b : Word64) {cur : Nat} (hc : cur < 4) (i : Nat) : belCtx (withCur b cur) i = belCtx b i := by
  obtain ⟨-, -, -, hctx⟩ := withCur_fields b hc
  rw [ctx_field, ctx_field, hctx]

theorem swapNow_eq (s : State) (w : BitVec 4) (t : Token) (rest : List Token) :
    let ww := worldOf s w
    let x := belCtx ww.belfry (curAfter ww)
    let s1 := activate (setWorld s w (worldAfterSwap ww (ctxOf s w x).launched t rest)) w x
    swapNow s w t rest = if (ctxOf s w x).launched then sendGo s1 w x t else s1 := by
  intro ww x s1
  have hx : x = belCtx (withCur ww.belfry (curAfter ww)) (curAfter ww) := (belCtx_withCur _ (curAfter_lt ww) _).symm
  simp only [s1]
  rw [hx]
  rfl

theorem worldAfterSwap_fields (ww : World) (here : Bool) (t : Token) (rest : List Token) : let u := worldAfterSwap ww here t rest
    field u.belfry.toNat 4 2 = curAfter ww ∧ field u.belfry.toNat 8 2 = field ww.belfry.toNat 8 2
      ∧ (∀ i, field u.belfry.toNat (16 + 8 * i) 8 = field ww.belfry.toNat (16 + 8 * i) 8) ∧ u.swaps = ww.swaps + 1 := by
  intro u
  obtain ⟨hcur, -, hseq, hctx⟩ := withCur_fields ww.belfry (curAfter_lt ww)
  by_cases hd : ww.disable = true
  · have hu : u = _ := if_pos hd
    rw [hu]
    exact ⟨(belfryOff_field _ 2 (by omega)).trans hcur, (belfryOff_field _ 2 (by omega)).trans hseq, fun i => (belfryOff_field _ 8 (by omega)).trans (hctx i), rfl⟩
  · have hu : u = _ := if_neg hd
    rw [hu]
    exact ⟨hcur, hseq, hctx, rfl⟩

/-- A swap that a disabling write awaited switches the belfry off (R179). -/
theorem worldAfterSwap_enabled (ww : World) (here : Bool) (t : Token) (rest : List Token) (hen : belEn ww.belfry = true) :
    let u := worldAfterSwap ww here t rest
    (ww.disable = false → belEn u.belfry = true ∧ u.drains = rest) ∧ (ww.disable = true → ¬ belEn u.belfry = true ∧ u.drains = []) := by
  intro u
  obtain ⟨-, hsame, -⟩ := withCur_fields ww.belfry (curAfter_lt ww)
  refine ⟨fun hd => ?_, fun hd => ?_⟩
  · have hu : u = _ := if_neg (Bool.eq_false_iff.1 hd)
    rw [hu]
    exact ⟨hsame.trans hen, if_pos (hsame.trans hen)⟩
  · have hu : u = _ := if_pos hd
    rw [hu]
    exact ⟨Bool.eq_false_iff.1 (belfryOff_en _), rfl⟩

theorem worldAfterSwap_goDue (ww : World) (t : Token) (rest : List Token) :
    (worldAfterSwap ww false t rest).goDue = ww.goDue ++ [(belCtx ww.belfry (curAfter ww), t)] := by
  rw [← belCtx_withCur ww.belfry (curAfter_lt ww)]
  unfold worldAfterSwap
  dsimp only
  split <;> rfl

/-- Words in the low slots of a value show there, and nothing above them. -/
theorem shows_firstSlots (l : List Nat) : Shows (firstSlots (l.map (BitVec.ofNat 32))) (l.map some) := by
  intro k hk
  rw [slotOf_firstSlots _ _ hk, List.getElem?_map, List.getD_eq_getElem?_getD, List.getElem?_map]
  cases l[k]? <;> rfl

/-- A context's start tokens with the DRAIN's AUX wait at its start nodes, and each root nest has a GO for tag 0 (R344). -/
def StartsSent (s u : State) (w : BitVec 4) (x : Context) (t : Token) : Prop :=
  let c := ctxOf s w x
  (∃ v, Shows v [some t.aux.toNat] ∧ u.srcq = s.srcq ++ c.starts.filterMap (fun n => (startChan c n).map (fun k =>
    (({ w := w, x := x, n := k } : ChanId), ({ tag := { colour := c.colour, context := x, iter := 0 }, kind := .data, aux := 0, val := v } : Token)))))
  ∧ ∀ n, n ∈ rootNests c → ∃ g, g ∈ u.ctls ∧ g.go = true ∧ g.node = { w := w, x := x, n := n } ∧ g.tag.iter = 0

theorem sendGo_sends (s : State) (w : BitVec 4) (x : Context) (t : Token) : StartsSent s (sendGo s w x t) w x t := by
  have haux : t.aux.zeroExtend 32 = BitVec.ofNat 32 t.aux.toNat := by
    apply BitVec.eq_of_toNat_eq
    simp
  refine ⟨⟨_, ?_, rfl⟩, fun n hn => ⟨_, List.mem_append_right _ (List.mem_map_of_mem hn), rfl, rfl, rfl⟩⟩
  rw [haux]
  exact shows_firstSlots [t.aux.toNat]

theorem belfrySwap_idle {s : State} {w : BitVec 4} (h : (worldOf s w).drains = []) : exec (.belfrySwap w) s = .next s := by
  show execBelfrySwap w s = _
  simp only [execBelfrySwap, h]

/-- The belfry swaps when it is enabled and the outgoing context is whole and quiescent (R181). -/
def SwapReady (s : State) (w : BitVec 4) : Prop :=
  belEn (worldOf s w).belfry = true ∧ (ctxOf s w (belfryActive (worldOf s w))).cut = none ∧ ctxQuiet s w (belfryActive (worldOf s w)) = true

theorem swapReady_iff (s : State) (w : BitVec 4) : (belEn (worldOf s w).belfry && (ctxOf s w (belfryActive (worldOf s w))).cut.isNone
    && ctxQuiet s w (belfryActive (worldOf s w))) = true ↔ SwapReady s w := by
  rw [Bool.and_eq_true, Bool.and_eq_true, Option.isNone_iff_eq_none, and_assoc, SwapReady]

section
variable {s : State} {w : BitVec 4} {t : Token} {l : List Token} (h : (worldOf s w).drains = t :: l)
include h

theorem belfrySwap_waits (hr : ¬ SwapReady s w) : exec (.belfrySwap w) s = .next s := by
  show execBelfrySwap w s = _
  simp only [execBelfrySwap, h]
  exact congrArg _ (if_neg (mt (swapReady_iff s w).1 hr))

theorem belfrySwap_swaps (hr : SwapReady s w) : exec (.belfrySwap w) s = .next (swapNow s w t l) := by
  show execBelfrySwap w s = _
  simp only [execBelfrySwap, h]
  exact congrArg _ (if_pos ((swapReady_iff s w).2 hr))

end

theorem ctxOf_activate (s : State) (w : BitVec 4) (x : Context) : ctxOf (activate s w x) w x = { ctxOf s w x with ended := 0 } :=
  ctxOf_setCtx_same s w x _

/-- A context made active over a changed world: that world, and its ends counted from 0. -/
theorem activate_setWorld (s : State) (w : BitVec 4) (ww : World) (x : Context) : let u := activate (setWorld s w ww) w x
    worldOf u w = ww ∧ (ctxOf u w x).ended = 0 ∧ u.mem = s.mem ∧ u.insts = s.insts :=
  ⟨worldOf_setWorld s w ww, congrArg Ctx.ended (ctxOf_activate (setWorld s w ww) w x), rfl, rfl⟩

/-- The start tokens change neither worlds nor contexts, and nothing that runs. -/
theorem sendGo_rest (s : State) (w : BitVec 4) (x : Context) (t : Token) : let u := sendGo s w x t
    u.worlds = s.worlds ∧ u.ctxs = s.ctxs ∧ u.mem = s.mem ∧ u.insts = s.insts := ⟨rfl, rfl, rfl, rfl⟩

/-- What a swap leaves beside the start tokens: the world after it, and the next context counting its ends from 0 (R180, R181). -/
theorem swapNow_keeps (s : State) (w : BitVec 4) (t : Token) (rest : List Token) :
    let ww := worldOf s w
    let x := belCtx ww.belfry (curAfter ww)
    let u := swapNow s w t rest
    worldOf u w = worldAfterSwap ww (ctxOf s w x).launched t rest ∧ (ctxOf u w x).ended = 0 ∧ u.mem = s.mem ∧ u.insts = s.insts := by
  intro ww x u
  have hu : u = _ := swapNow_eq s w t rest
  rw [hu]
  obtain ⟨hworld, hended, hmem, hinsts⟩ := activate_setWorld s w (worldAfterSwap ww (ctxOf s w x).launched t rest) x
  generalize activate (setWorld s w (worldAfterSwap ww (ctxOf s w x).launched t rest)) w x = s1 at hworld hended hmem hinsts ⊢
  split
  · obtain ⟨hworlds, hctxs, hm, hi⟩ := sendGo_rest s1 w x t
    exact ⟨by rw [worldOf, hworlds]; exact hworld, by rw [ctxOf, hctxs]; exact hended, hm.trans hmem, hi.trans hinsts⟩
  · exact ⟨hworld, hended, hmem, hinsts⟩

/-- The start tokens of a swap: at once, or due when its context is cut (R344, assumption 56). -/
theorem swapNow_starts (s : State) (w : BitVec 4) (t : Token) (rest : List Token) :
    let ww := worldOf s w
    let x := belCtx ww.belfry (curAfter ww)
    let u := swapNow s w t rest
    ((ctxOf s w x).launched = true → StartsSent s u w x t)
    ∧ ((ctxOf s w x).launched = false → u.srcq = s.srcq ∧ u.ctls = s.ctls ∧ (worldOf u w).goDue = ww.goDue ++ [(x, t)]) := by
  intro ww x u
  refine ⟨fun hx => ?_, fun hx => ?_⟩
  · have hu : u = _ := (swapNow_eq s w t rest).trans (if_pos hx)
    have hs := sendGo_sends (activate (setWorld s w (worldAfterSwap ww (ctxOf s w x).launched t rest)) w x) w x t
    unfold StartsSent at hs
    rw [ctxOf_activate] at hs
    rw [hu]
    exact hs
  · have hu : u = _ := (swapNow_eq s w t rest).trans (if_neg (Bool.eq_false_iff.1 hx))
    obtain ⟨hw, -⟩ := swapNow_keeps s w t rest
    refine ⟨by rw [hu]; rfl, by rw [hu]; rfl, ?_⟩
    rw [hw, show (ctxOf s w (belCtx (worldOf s w).belfry (curAfter (worldOf s w)))).launched = false from hx]
    exact worldAfterSwap_goDue ww t rest

/-! #### Writes of system software (R179, R217, R360) -/

theorem windowWrite_open {s : State} {w : BitVec 4} (t : State) (h : ¬ ((worldOf s w).prot = true ∧ (worldOf s w).tdi = .error)) : windowWrite s w t = t :=
  if_pos ((window_iff s w).2 h)

theorem windowWrite_closed {s : State} {w : BitVec 4} (t : State) (h : ¬ ¬ ((worldOf s w).prot = true ∧ (worldOf s w).tdi = .error)) :
    windowWrite s w t = { s with outputs := s.outputs ++ [.unsupported] } := if_neg (mt (window_iff s w).1 h)

section
variable {s : State} {w : BitVec 4} {v : Word64}

theorem belfryEnable_ignored (hv : ¬ belEn v = true) : exec (.belfryEnable w v) s = .next s := if_neg hv

theorem belfryEnable_writes (hv : belEn v = true) : exec (.belfryEnable w v) s = .next (windowWrite s w (writeBelfry s w v)) := if_pos hv

theorem writeBelfry_stays (hs : belEn (worldOf s w).belfry = true) (hv : belEn v = true) : writeBelfry s w v = s :=
  (if_pos hs).trans (if_pos hv)

theorem writeBelfry_disables (hs : belEn (worldOf s w).belfry = true) (hv : belEn v = false) (hd : (worldOf s w).drains = []) :
    writeBelfry s w v = setWorld s w (belfryOff (worldOf s w)) :=
  (if_pos hs).trans ((if_neg (Bool.eq_false_iff.1 hv)).trans (if_pos hd))

theorem writeBelfry_awaits (hs : belEn (worldOf s w).belfry = true) (hv : belEn v = false) (hd : (worldOf s w).drains ≠ []) :
    writeBelfry s w v = setWorld s w { worldOf s w with disable := true } :=
  (if_pos hs).trans ((if_neg (Bool.eq_false_iff.1 hv)).trans (if_neg hd))

/-- The word of a belfry that a write enables: CUR 0, and the write's SEQ and contexts. -/
def enabledWord (v : Word64) : Word64 := BitVec.ofNat 64 (keepBits v 47 16 + keepBits v 9 8 + 1)

/-- The world of a belfry that a write enables: no swap counted, and no DRAIN or start token due. -/
def enabledWorld (ww : World) (v : Word64) : World := { ww with belfry := enabledWord v, swaps := 0, drains := [], goDue := [], disable := false }

theorem enabledWord_fields (v : Word64) :
    belEn (enabledWord v) = true ∧ field (enabledWord v).toNat 4 2 = 0 ∧ field (enabledWord v).toNat 8 2 = field v.toNat 8 2
    ∧ ∀ i, i < 4 → field (enabledWord v).toNat (16 + 8 * i) 8 = field v.toNat (16 + 8 * i) 8 := by
  obtain ⟨hlt, -, hlow, hseq, hctx⟩ := keep_field v
  have ht : (enabledWord v).toNat = keepBits v 47 16 + keepBits v 9 8 + 1 := by
    rw [enabledWord, BitVec.toNat_ofNat]; omega
  have hhigh : (enabledWord v).toNat / 2 ^ 8 = (keepBits v 47 16 + keepBits v 9 8) / 2 ^ 8 := by omega
  refine ⟨(belEn_iff _).2 (by omega), by unfold field; omega, (field_of_div 8 hhigh (by omega) 2).trans hseq,
    fun i hi => (field_of_div 8 hhigh (by omega) 8).trans (hctx i hi)⟩

theorem writeBelfry_enables (hs : ¬ belEn (worldOf s w).belfry = true) (hv : belEn v = true) :
    writeBelfry s w v = activate (setWorld s w (enabledWorld (worldOf s w) v)) w (belCtx (enabledWord v) 0) :=
  (if_neg hs).trans (if_pos hv)

/-- Whether a write of sr.tinval drops a world's entries of a colour (R217). -/
theorem tinval_hits {α : Type} (v : Word64) (world : α → BitVec 4) (colour : α → Colour) (l : List α) (e : α) :
    e ∈ l.filter (fun t => !(world t == w && (v.getLsbD 8 || colour t == v.extractLsb' 0 8)))
      ↔ e ∈ l ∧ ¬ (world e = w ∧ (v.getLsbD 8 = true ∨ colour e = BitVec.ofNat 8 v.toNat)) := by
  have hc : v.extractLsb' 0 8 = BitVec.ofNat 8 v.toNat := by
    apply BitVec.eq_of_toNat_eq
    simp [BitVec.extractLsb'_toNat]
  rw [List.mem_filter, Bool.not_eq_true', Bool.eq_false_iff, Ne, Bool.and_eq_true, Bool.or_eq_true, beq_iff_eq, beq_iff_eq, hc]

variable (ho : ¬ ((worldOf s w).prot = true ∧ (worldOf s w).tdi = .error))
include ho

theorem belfryDisable_turns_off (hs : belEn (worldOf s w).belfry = true) (hd : (worldOf s w).drains = []) :
    exec (.belfryDisable w) s = .next (setWorld s w (belfryOff (worldOf s w))) :=
  congrArg Host.Outcome.next ((windowWrite_open _ ho).trans (writeBelfry_disables hs rfl hd))

/-- A swap that waits comes first (R179). -/
theorem belfryDisable_awaits (hs : belEn (worldOf s w).belfry = true) (hd : (worldOf s w).drains ≠ []) :
    exec (.belfryDisable w) s = .next (setWorld s w { worldOf s w with disable := true }) :=
  congrArg Host.Outcome.next ((windowWrite_open _ ho).trans (writeBelfry_awaits hs rfl hd))

theorem tinval_open : exec (.tinval w v) s = .next (writeTinval s w v) := congrArg Host.Outcome.next (windowWrite_open _ ho)

end

/-- Settles O42: DRAINs, swaps and the writes, each by the lemma on its case. -/
theorem belfryEvents : Obligations.BelfryEvents := by
  unfold Obligations.BelfryEvents
  refine ⟨fun s w => drainReceive_idle, fun s w t l h => ⟨_, drainReceive_takes h, rfl, ?_, fun hon => ?_, fun hoff => ?_⟩, quiet_spec,
    fun s w => belfrySwap_idle, fun s w t l h => ?_, fun s w v => ⟨?_, fun hc => ⟨fun hv => ?_, ?_, ?_⟩, fun hv ho hs => ?_, fun ho hs hd => ?_, fun ho hs hd => ?_, fun ho => ?_⟩⟩
  · rw [worldOf_setWorld]
  · rw [worldOf_setWorld]; exact if_pos hon
  · rw [worldOf_setWorld]; exact if_neg hoff
  · simp only [← ctx_field]
    refine ⟨belfrySwap_waits h, fun hr => ?_⟩
    obtain ⟨hw, hended, hmem, hinsts⟩ := swapNow_keeps s w t l
    obtain ⟨hcur, hseq, hctx, hswaps⟩ := worldAfterSwap_fields (worldOf s w) (ctxOf s w (belCtx (worldOf s w).belfry (curAfter (worldOf s w)))).launched t l
    obtain ⟨hon, hoff⟩ := worldAfterSwap_enabled (worldOf s w) (ctxOf s w (belCtx (worldOf s w).belfry (curAfter (worldOf s w)))).launched t l hr.1
    obtain ⟨hgo, hdue⟩ := swapNow_starts s w t l
    rw [← hw] at hcur hseq hctx hswaps hon hoff
    refine ⟨_, belfrySwap_swaps h hr, hcur, fun i _ => ?_, hseq, hswaps, hended, hmem, hinsts, hon, hoff, hgo, hdue⟩
    rw [ctx_field, hctx i, ctx_field]
  · rintro (hv | ⟨ho, hs⟩)
    · exact belfryEnable_ignored hv
    · by_cases hv : belEn v = true
      · rw [belfryEnable_writes hv, windowWrite_open _ ho, writeBelfry_stays hs hv]
      · exact belfryEnable_ignored hv
  · rw [belfryEnable_writes hv, windowWrite_closed _ hc]
  · exact congrArg Host.Outcome.next (windowWrite_closed _ hc)
  · exact congrArg Host.Outcome.next (windowWrite_closed _ hc)
  · obtain ⟨hen, hcur, hseq, hctx⟩ := enabledWord_fields v
    obtain ⟨hworld, hended, hmem, -⟩ := activate_setWorld s w (enabledWorld (worldOf s w) v) (belCtx (enabledWord v) 0)
    dsimp only
    rw [← hctx 0 (by omega), ← ctx_field]
    refine ⟨_, by rw [belfryEnable_writes hv, windowWrite_open _ ho, writeBelfry_enables hs hv], ?_⟩
    rw [hworld]
    exact ⟨hen, hcur, hseq, fun i hi => congrArg _ (hctx i hi), rfl, rfl, hended, hmem⟩
  · refine ⟨_, belfryDisable_turns_off ho hs hd, rfl, ?_⟩
    rw [worldOf_setWorld]
    have hoff := belfryOff_toNat (worldOf s w)
    have hodd := (belEn_iff _).1 hs
    omega
  · refine ⟨_, belfryDisable_awaits ho hs hd, rfl, ?_⟩
    dsimp only
    rw [worldOf_setWorld]
    exact ⟨hs, rfl, rfl⟩
  · refine ⟨_, tinval_open ho, rfl, ?_, ?_⟩
    · exact tinval_hits v (fun t => t.w) (fun t => t.colour) s.walks
    · exact tinval_hits v (fun t => t.w) (fun t => t.colour) s.tlb

end Sys2Proof.Proofs
end

section
namespace Sys2Proof.Proofs
open Sys2Proof Sys2Proof.Machine Sys2Proof.Claims Sys2Proof.Laws

/-! ### Lanterns (R184, R189, R190, R192, R193, R197 to R199) -/

/-- A token that is reported leaves its port, and beside it only the record is made. -/
theorem leaveOne_reported (s : State) {n : NodeId} (t : PTok) (r : Report) (hn : (placedOf s n).isSome = true) : let u := lanternReport (leaveOne s t) n t.tok.tag r
    u.ptoks = delFirst (fun y => y == t) s.ptoks ∧ (u.lstreams = s.lstreams ∧ u.lanterns = s.lanterns) ∧ Recorded s u n.w := by
  obtain ⟨hptoks, hstreams, hlanterns, hrec⟩ := report_spec s (leaveOne s t) n t.tok.tag r hn rfl
  exact ⟨hptoks, ⟨hstreams, hlanterns⟩, hrec⟩

/-! #### Headers (R184, R189) -/

/-- A stream counts the logits that its header names, whatever its binding gives. -/
theorem openStreamOf_total (s : State) (w : BitVec 4) (sp : Nat) (t : Tag) (hd : Nat × Nat × Nat × List Nat) (va : Nat) :
    (openStreamOf s w sp t hd va).1.total = hd.2.2.1 := by
  unfold openStreamOf
  dsimp only
  split
  · rfl
  · split <;> rfl

/-- The stream of a header without a binding: it takes its tokens and has no result (assumption 18). -/
def unboundStream (s : State) (w : BitVec 4) (sp : Nat) (t : PTok) (hd : Nat × Nat × Nat × List Nat) : LStream :=
  { (openStreamOf s w sp t.tok.tag hd 0).1 with drop := true, faulted := true }

theorem commitAhead_iff (s : State) (sp : Nat) (t : PTok) : commitAhead s sp t = true ↔ ∃ y, y ∈ s.ptoks.takeWhile (fun y => y != t) ∧ y.at_.port = 1
    ∧ y.tok.tag.colour = t.tok.tag.colour ∧ y.tok.tag.iter = t.tok.tag.iter ∧ lanternOf s y.at_.node = some sp := by
  simp only [commitAhead, List.any_eq_true, Bool.and_eq_true, beq_iff_eq, and_assoc]

section
variable {s : State} {n : NodeId} {c : Colour} {p : PortId} {sp : Nat} {t : PTok} (hp : lanternPort s n 0 c true = some (p, sp))
  (hroom : (s.lstreams.filter (fun l => l.spire == sp)).length < 16) (ht : (seqHeads s p c).find? (fun t => !(t.tok.kind == .data && t.tok.aux == 0)) = some t)
include hroom ht

/-- With room for a stream, the first header of the port is the one that is taken. -/
theorem header_chosen (known : PTok → Bool) : (seqHeads s p c).find? (fun t => !(t.tok.kind == .data && t.tok.aux == 0)
    && (known t || !decide (16 ≤ (s.lstreams.filter (fun l => l.spire == sp)).length) || (readHeader t.tok).isNone)) = some t := by
  rw [← ht, decide_eq_false (by omega)]
  simp

include hp

theorem header_malformed (hh : readHeader t.tok = none) :
    exec (.streamHeader n c) s = .next (lanternReport (leaveOne s t) p.node t.tok.tag { cause := .illegalEncoding }) := by
  show execStreamHeader n c s = _
  simp only [execStreamHeader, hp, header_chosen hroom ht, hh]
  rfl

variable {hd : Nat × Nat × Nat × List Nat} (hh : readHeader t.tok = some hd)
include hh

theorem header_waits (hw : commitAhead s sp t = true) : exec (.streamHeader n c) s = .next s := by
  show execStreamHeader n c s = _
  simp only [execStreamHeader, hp, header_chosen hroom ht, hh]
  exact if_pos (by rw [hw, Bool.or_true])

variable (hl : s.logit = none) (hf : findStream s sp c t.tok.tag.iter = none) (hw : commitAhead s sp t = false)
include hl hf hw

theorem header_unbound (hb : bindOf s sp c t.tok.tag.iter = none) : exec (.streamHeader n c) s
    = .next (lanternReport (leaveOne { s with lstreams := s.lstreams ++ [unboundStream s n.w sp t hd] } t) p.node t.tok.tag { cause := .permission }) := by
  show execStreamHeader n c s = _
  simp only [execStreamHeader, hp, header_chosen hroom ht, hh]
  refine (if_neg (by rw [hl, hw]; exact Bool.false_ne_true)).trans ?_
  rw [hf]
  dsimp only
  rw [hb]
  rfl

theorem header_opens {va : Nat} {l : LStream} (hb : bindOf s sp c t.tok.tag.iter = some va) (ho : openStreamOf s n.w sp t.tok.tag hd va = (l, none)) :
    exec (.streamHeader n c) s = .next (leaveOne { s with lstreams := s.lstreams ++ [l] } t) := by
  show execStreamHeader n c s = _
  simp only [execStreamHeader, hp, header_chosen hroom ht, hh]
  refine (if_neg (by rw [hl, hw]; exact Bool.false_ne_true)).trans ?_
  simp only [hf, hb, ho, Option.any_none, Bool.false_eq_true, if_false]

end

/-! #### Logit tokens (R190) -/

/-- The ids of a logit token that the program runs for, with their logits (R190). -/
def tokenIds (l : LStream) (t : PTok) : List (Nat × Nat) :=
  (List.range 16).filterMap (fun k =>
    let i := 16 * l.next + k
    if i < l.total ∧ i < l.vlim then (slotOf t.tok.val k).map (fun v => (i, v.toNat)) else none)

theorem mem_tokenIds (l : LStream) (t : PTok) (i v : Nat) :
    (i, v) ∈ tokenIds l t ↔ ∃ k x, k < 16 ∧ i = 16 * l.next + k ∧ i < l.total ∧ i < l.vlim ∧ slotOf t.tok.val k = some x ∧ v = x.toNat := by
  simp only [tokenIds, List.mem_filterMap, List.mem_range]
  constructor
  · rintro ⟨k, hk, h⟩
    split at h
    · next hi =>
      obtain ⟨x, hx, he⟩ := Option.map_eq_some_iff.1 h
      obtain ⟨rfl, rfl⟩ := Prod.mk.inj he
      exact ⟨k, x, hk, rfl, hi.1, hi.2, hx, rfl⟩
    · cases h
  · rintro ⟨k, x, hk, rfl, ht, hv, hx, rfl⟩
    refine ⟨k, hk, ?_⟩
    rw [if_pos ⟨ht, hv⟩, hx]
    rfl

theorem nextId_ptoks (s : State) (l : LStream) : ∀ ids, (nextId s l ids).ptoks = s.ptoks
  | [] => rfl
  | _ :: _ => rfl

section
variable {s : State} {n : NodeId} {c : Colour} {p : PortId} {sp : Nat} {t : PTok} (hp : lanternPort s n 0 c true = some (p, sp))
  (ht : (seqHeads s p c).find? (fun t => t.tok.kind == .data && t.tok.aux == 0) = some t)
include hp ht

theorem logitToken_streamless (hf : findStream s sp c t.tok.tag.iter = none) :
    exec (.logitToken n c) s = .next (lanternReport (leaveOne s t) p.node t.tok.tag { cause := .illegalEncoding }) := by
  show execLogitToken n c s = _
  simp only [execLogitToken, hp, ht, hf]
  rfl

variable {l : LStream} (hf : findStream s sp c t.tok.tag.iter = some l) (he : l.ended = false) (hd : l.drop = false) (hx : l.faulted = false)
include hf he hd hx

/-- A live stream's token waits for the unit. -/
theorem logitToken_live : exec (.logitToken n c) s = .next (if s.logit.isSome then s else nextId (leaveOne s t) { l with next := l.next + 1 } (tokenIds l t)) := by
  show execLogitToken n c s = _
  simp only [execLogitToken, hp, ht, hf, he, hd, hx, Bool.false_eq_true, false_and, or_self, if_false]
  split <;> rfl

end

/-! #### Draws and commit tokens (R190, R193) -/

theorem streamDraw_eq {s : State} {n : NodeId} {c : Colour} {i : IterTag} {p : PortId} {sp : Nat} {l : LStream} (hp : lanternPort s n 0 c false = some (p, sp))
    (hf : findStream s sp c i = some l) : exec (.streamDraw n c i) s = .next (if l.ended then finishStream s n.w l else s) := by
  show execStreamDraw n c i s = _
  simp only [execStreamDraw, hp, hf]

/-- A stream that ends is gone, and its result leaves unless it is discarded. -/
theorem finishStream_spec (s : State) (w : BitVec 4) (l : LStream) : let u := finishStream s w l
    u.lstreams = delFirst (isSeq l.spire l.colour l.iter) s.lstreams ∧ u.ptoks = s.ptoks
      ∧ (l.drop = false → u = emitLantern { s with lstreams := u.lstreams } w l.spire 0 l.colour l.iter (resultVal l)) := by
  intro u
  by_cases hd : l.drop = true
  · have hu : u = _ := if_pos hd
    rw [hu]
    exact ⟨rfl, rfl, fun h => absurd hd (Bool.eq_false_iff.1 h)⟩
  · have hu : u = _ := if_neg hd
    obtain ⟨hptoks, hstreams, -⟩ := emitLantern_keep { s with lstreams := delFirst (isSeq l.spire l.colour l.iter) s.lstreams }
      w l.spire 0 l.colour l.iter (resultVal l)
    rw [hu]
    refine ⟨hstreams, hptoks, fun _ => ?_⟩
    rw [hstreams]

section
variable {s : State} {n : NodeId} {c : Colour} {p : PortId} {sp : Nat} {t : PTok} (hp : lanternPort s n 1 c false = some (p, sp))
  (ht : s.ptoks.find? (fun t => t.at_ == p && t.tok.tag.colour == c && t.bkpt.isNone) = some t)
include hp ht

theorem commitToken_malformed (hk : t.tok.kind ≠ .data ∨ t.tok.aux ≠ 2) :
    exec (.lanternCommitToken n c) s = .next (lanternReport (leaveOne s t) p.node t.tok.tag { cause := .illegalEncoding }) := by
  show execLanternCommitToken n c s = _
  simp only [execLanternCommitToken, hp, ht]
  exact if_pos hk

variable (hk : t.tok.kind = .data) (ha : t.tok.aux = 2)
include hk ha

theorem commitToken_unbound (hb : bindOf s sp c t.tok.tag.iter = none) :
    exec (.lanternCommitToken n c) s = .next (lanternReport (leaveOne s t) p.node t.tok.tag { cause := .permission }) := by
  show execLanternCommitToken n c s = _
  simp only [execLanternCommitToken, hp, ht]
  refine (if_neg (not_or.2 ⟨not_not_intro hk, not_not_intro ha⟩)).trans ?_
  rw [hb]
  rfl

theorem commitToken_counts {va ntab st : Nat} {s1 : State} (hb : bindOf s sp c t.tok.tag.iter = some va)
    (hc : commitTable s n.w c va ((List.range 16).filterMap (fun k => (slotOf t.tok.val k).map (fun v => v.toNat))) = .ok (s1, ntab, st)) :
    exec (.lanternCommitToken n c) s = .next (emitLantern (leaveOne s1 t) n.w sp 1 c t.tok.tag.iter (firstSlots ([ntab, st].map (BitVec.ofNat 32)))) := by
  show execLanternCommitToken n c s = _
  simp only [execLanternCommitToken, hp, ht]
  refine (if_neg (not_or.2 ⟨not_not_intro hk, not_not_intro ha⟩)).trans ?_
  rw [hb]
  dsimp only
  rw [hc]
  rfl

end

/-! #### Counting ids (R193) -/

section
variable {vlim : Nat} {tab : List (Nat × Nat × Nat)} {full range : Bool} {id : Nat} {l : List Nat}

theorem countIds_beyond (h : vlim ≤ id) : countIds vlim tab full range (id :: l) = countIds vlim tab full true l := if_pos h

variable (h : id < vlim)
include h

theorem countIds_full (hn : ∀ e, e ∈ tab → e.1 ≠ id) (hl : 4096 ≤ tab.length) :
    countIds vlim tab full range (id :: l) = countIds vlim tab true range l := by
  refine (if_neg (Nat.not_le.2 h)).trans (if_neg ?_)
  rw [Bool.or_eq_true, List.any_eq_true, decide_eq_true_eq]
  rintro (⟨e, he, hid⟩ | hlt)
  · exact hn e he (beq_iff_eq.1 hid)
  · omega

theorem countIds_counts (hr : (∃ e, e ∈ tab ∧ e.1 = id) ∨ tab.length < 4096) :
    countIds vlim tab full range (id :: l) = countIds vlim (countId id tab) full range l := by
  refine (if_neg (Nat.not_le.2 h)).trans (if_pos ?_)
  rw [Bool.or_eq_true, List.any_eq_true, decide_eq_true_eq]
  exact hr.imp (fun ⟨e, he, hid⟩ => ⟨e, he, beq_iff_eq.2 hid⟩) fun hlt => hlt

end

/-! #### The draft walker (R197 to R199) -/

/-- What the completion token of a whole walk holds: the counts of its trie and of the filtered transitions, SHORT, and LEN (R199). -/
def walkWords (w : Walker) (short : Bool) (len : Nat) : List Nat := [w.trie.length, w.filt.length, if short then 8 else 0, len]

section
variable {s : State} {id : Nat} {o : EngOp} {d : WalkDesc} (ho : findOp s id = some o) (hk : o.kind = .walk d)
include ho hk

theorem walkDone_waits (hr : canReport s o = false) : exec (.draftWalkDone id) s = .next s := by
  show execDraftWalkDone id s = _
  simp only [execDraftWalkDone, ho, hk]
  exact if_pos (by rw [hr]; rfl)

/-- A whole walk whose record is written ends with no report. -/
theorem walkDone_ends {len : Nat} {short : Bool} {w : Walker} {s1 : State} (hr : canReport s o = true)
    (hw : walkAll (devByte s o.node.w o.tag.colour) d {} = (.ok (len, short), w)) (hd : d.dest % 64 = 0)
    (hs : devStore s o.node.w o.tag.colour d.dest (trieBytes w (if short then 8 else 0) len) = .ok s1) :
    exec (.draftWalkDone id) s = .next (reportOp (endOp s1 o) o (firstSlots ((walkWords w short len).map (BitVec.ofNat 32)))) := by
  show execDraftWalkDone id s = _
  simp only [execDraftWalkDone, ho, hk]
  refine (if_neg (by rw [hr]; decide)).trans ?_
  rw [hw]
  dsimp only
  rw [if_pos hd, hs]
  rfl

end

/-- An operation that ends after writes of its own reports, and is gone. -/
theorem endOp_reported {s s1 : State} {id : Nat} {o : EngOp} (ho : findOp s id = some o) (hs : WritesOnly s s1) (v : Val) : let t := reportOp (endOp s1 o) o v
    Reported s t o v ∧ t.mem = s1.mem ∧ t.ops = s.ops.filter (fun x => x.id != id) := by
  obtain ⟨hmem, hops, -⟩ := reportOp_rest (endOp s1 o) o v
  have hfixed : s1.outq = s.outq ∧ s1.evqs = s.evqs ∧ s1.ctxs = s.ctxs ∧ s1.now = s.now ∧ s1.ops = s.ops := by
    rw [hs]; exact ⟨rfl, rfl, rfl, rfl, rfl⟩
  obtain ⟨houtq, hevqs, hctxs, hnow, hs1⟩ := hfixed
  refine ⟨reportOp_spec houtq hevqs hctxs hnow, hmem, hops.trans ?_⟩
  rw [endOp, findOp_id ho, hs1]

/-- Settles O43: each event by the lemma on its case, results and counted ids by the laws of lanterns. -/
theorem lanternEvents : Obligations.LanternEvents := by
  unfold Obligations.LanternEvents
  refine ⟨fun s n c p sp t hp hn hroom ht => ⟨fun hh => ?_, fun hd hh hl hf => ⟨fun hw => ?_, fun hw hb => ?_, fun va d prog tab hw hb hload htab => ?_⟩⟩,
    fun s n c p sp t hp hn ht => ⟨fun hf => ?_, fun l hf he hd hx => ⟨fun hl => ?_, fun hl => ?_⟩⟩,
    fun s n c i p sp l hp hf => ⟨fun he => ?_, fun he => ?_⟩,
    fun l => ⟨result_faulted l, result_empty l, fun hx hc y id hpick => result_some l hx hc y id hpick⟩,
    fun s n c p sp t hp hn ht => ⟨fun hk => ?_, fun hk ha => ⟨fun hb => ?_, fun va s1 ntab st hb hc => ?_⟩⟩,
    fun vlim tab full range id l => ⟨rfl, countIds_beyond, countIds_full, fun h hr => ⟨_, countIds_counts h hr, countId_spec id tab⟩⟩,
    fun s id o d ho hk => ⟨walkDone_waits ho hk, fun len short w s1 hr hw hd hs => ?_⟩⟩
  · exact ⟨_, header_malformed hp hroom ht hh, leaveOne_reported s t _ hn⟩
  · exact header_waits hp hroom ht hh ((commitAhead_iff s sp t).2 hw)
  · obtain ⟨hptoks, hstreams, -, hrec⟩ := report_spec s (leaveOne { s with lstreams := s.lstreams ++ [unboundStream s n.w sp t hd] } t) p.node t.tok.tag
      { cause := .permission } hn rfl
    have hw := Bool.eq_false_iff.2 (mt (commitAhead_iff s sp t).1 hw)
    exact ⟨_, _, header_unbound hp hroom ht hh hl hf hw hb, hptoks, hstreams, rfl, openStreamOf_total s n.w sp t.tok.tag hd 0, hrec⟩
  · have hw := Bool.eq_false_iff.2 (mt (commitAhead_iff s sp t).1 hw)
    obtain ⟨l, ho, hfields⟩ := open_spec s n.w sp t.tok.tag hd va d prog tab hload htab
    exact ⟨_, l, header_opens hp hroom ht hh hl hf hw hb ho, rfl, rfl, rfl, hfields⟩
  · exact ⟨_, logitToken_streamless hp ht hf, leaveOne_reported s t _ hn⟩
  · rw [logitToken_live hp ht hf he hd hx, if_pos hl]
  · have hu := logitToken_live hp ht hf he hd hx
    rw [hl] at hu
    exact ⟨_, _, hu, nextId_ptoks _ _ _, mem_tokenIds l t, fun id g rest hi => by rw [hi]; rfl, fun hi => by rw [hi]; rfl⟩
  · rw [streamDraw_eq hp hf, he]; rfl
  · rw [streamDraw_eq hp hf, he]
    exact ⟨_, rfl, finishStream_spec s n.w l⟩
  · exact ⟨_, commitToken_malformed hp ht hk, leaveOne_reported s t _ hn⟩
  · exact ⟨_, commitToken_unbound hp ht hk ha hb, leaveOne_reported s t _ hn⟩
  · obtain ⟨-, -, hmem⟩ := emitLantern_keep (leaveOne s1 t) n.w sp 1 c t.tok.tag.iter (firstSlots ([ntab, st].map (BitVec.ofNat 32)))
    exact ⟨_, _, commitToken_counts hp ht hk ha hb hc, shows_firstSlots [ntab, st], rfl, hmem, commitTable_cases hc⟩
  · obtain ⟨hrep, hmem, hops⟩ := endOp_reported ho (devStore_cases _ _ _ hs) (firstSlots ((walkWords w short len).map (BitVec.ofNat 32)))
    exact ⟨_, _, walkDone_ends ho hk hr hw hd hs, hrep, hmem, hops, shows_firstSlots (walkWords w short len)⟩

end Sys2Proof.Proofs
end

section
namespace Sys2Proof.Proofs
open Sys2Proof Sys2Proof.Machine Sys2Proof.Claims Sys2Proof.Laws

/-! ### Stores that wait for the commit (R206, R243, R246) -/

/-- The first valid slot of an STT that meets a live word (R246). -/
def firstLive (s : State) (pl : Place) (d : Val) : Option Nat :=
  (List.range 16).find? (fun k => d.valid.getLsbD k && touchesLive s (slotPlace pl k))

section
variable {h : Hdr} {p : PayW} {s : State} {b : BInst} {a d : Val} (hf : MemFires h s b [a, d])
include hf

/-! #### ST -/

theorem st_invalid (hi : baseOf (spOf p) a = none ∨ dataOf (codeWidth h.fmt) d = none) :
    exec (.st h p) s = .next (delivered h 0 s b 1 noVal false) := by
  refine (memOp_fires' _ hf).trans (congrArg _ ?_)
  rw [List.getD_cons_zero, List.getD_cons_succ, List.getD_cons_zero]
  rcases hi with ha | hd
  · rw [ha]; rfl
  · rw [hd]
    cases baseOf (spOf p) a <;> rfl

section
variable {base y : Nat} (ha : baseOf (spOf p) a = some base) (hd : dataOf (codeWidth h.fmt) d = some y)
include ha hd

theorem st_refused {r : Report} (hr : placeOf p s b base (codeWidth h.fmt / 8) h.swz.toNat false true = .error r) :
    exec (.st h p) s = .next (raise s b r) := by
  refine (memOp_fires' _ hf).trans (congrArg _ ?_)
  rw [List.getD_cons_zero, List.getD_cons_succ, List.getD_cons_zero, ha, hd]
  dsimp only
  rw [← placeOf, hr]

variable {pl : Place} (hp : placeOf p s b base (codeWidth h.fmt / 8) h.swz.toNat false true = .ok pl)
include hp

/-- An ST that reaches its place either meets a live word there or holds its one store. -/
theorem st_placed : exec (.st h p) s = .next (if touchesLive s pl then raise s b (liveReport 0 pl.ea)
    else holdStores (touchLine s b h.hint.toNat pl) h b [storeAt pl y] pl.ea) := by
  refine (memOp_fires' _ hf).trans (congrArg _ ?_)
  rw [List.getD_cons_zero, List.getD_cons_succ, List.getD_cons_zero, ha, hd]
  dsimp only
  rw [← placeOf, hp]

theorem st_live (hl : touchesLive s pl = true) : exec (.st h p) s = .next (raise s b (liveReport 0 pl.ea)) := by
  rw [st_placed hf ha hd hp, if_pos hl]

theorem st_holds (hl : touchesLive s pl = false) : HoldsStores (exec (.st h p) s) h s b [storeAt pl y] := by
  rw [st_placed hf ha hd hp, hl]
  exact holdStores_spec (touchLine_only s b _ pl)

end

/-! #### STT -/

theorem stt_invalid (ha : baseOf (spOf p) a = none) : exec (.stt h p) s = .next (delivered h 0 s b 1 noVal false) := by
  refine (memOp_fires' _ hf).trans (congrArg _ ?_)
  rw [List.getD_cons_zero, ha]
  rfl

variable {base : Nat} (ha : baseOf (spOf p) a = some base)
include ha

theorem stt_refused {r : Report} (hr : sttAddr s b h p base d = .error r) : exec (.stt h p) s = .next (raise s b r) := by
  refine (memOp_fires' _ hf).trans (congrArg _ ?_)
  rw [List.getD_cons_zero, List.getD_cons_succ, List.getD_cons_zero, ha]
  dsimp only
  rw [hr]

variable {pl : Place} (hp : sttAddr s b h p base d = .ok pl)
include hp

/-- An STT that reaches its place either meets a live word in a slot or holds the stores of its slots. -/
theorem stt_placed : exec (.stt h p) s = .next ((firstLive s pl d).elim
    (holdStores (touchLine s b h.hint.toNat pl) h b (slotStores pl d) pl.ea) (fun k => raise s b (liveReport k (pl.ea + 4 * k)))) := by
  refine (memOp_fires' _ hf).trans (congrArg _ ?_)
  rw [List.getD_cons_zero, List.getD_cons_succ, List.getD_cons_zero, ha]
  dsimp only
  rw [hp]
  dsimp only
  rw [← firstLive]
  cases firstLive s pl d <;> rfl

theorem stt_live {k : Nat} (hk : firstLive s pl d = some k) : exec (.stt h p) s = .next (raise s b (liveReport k (pl.ea + 4 * k))) := by
  rw [stt_placed hf ha hp, hk]
  rfl

theorem stt_holds (hk : firstLive s pl d = none) : HoldsStores (exec (.stt h p) s) h s b (slotStores pl d) := by
  rw [stt_placed hf ha hp, hk]
  exact holdStores_spec (touchLine_only s b _ pl)

end

/-! #### The parts of an STT's place -/

/-- Every place that an STT reaches is a whole line of 64 bytes. -/
theorem sttAddr_length {s : State} {b : BInst} {h : Hdr} {p : PayW} {base : Nat} {d : Val} {pl : Place} (hp : sttAddr s b h p base d = .ok pl) :
    pl.addrs.length = 64 := by
  unfold sttAddr at hp
  split at hp
  · cases hp
  next q hq =>
    split at hp <;> cases hp
    exact effAddr_length hq

/-- A valid slot meets a live word where a byte of its own four has one, at a virtual place. -/
theorem slotLive_iff (s : State) (pl : Place) (d : Val) (k : Nat) : (d.valid.getLsbD k && touchesLive s (slotPlace pl k)) = true ↔
    (slotOf d k).isSome = true ∧ pl.via.isSome = true ∧ ∃ c, c ∈ (pl.addrs.drop (4 * k)).take 4 ∧ typeAt s c ≠ 0 := by
  rw [valid_eq_isSome, touchesLive, Bool.and_eq_true, Bool.and_eq_true, List.any_eq_true]
  simp only [slotPlace, bne_iff_ne]

/-- The store of a slot writes the four bytes of its word, as the place has four for each slot. -/
theorem slotStores_eq {pl : Place} (hl : pl.addrs.length = 64) (d : Val) :
    slotStores pl d = (List.range 16).filterMap (fun k => (slotOf d k).map (fun x =>
      { bytes := ((pl.addrs.drop (4 * k)).take 4).zip (leBytes 4 x.toNat), via := pl.via.map (fun v => { v with va := v.va + 4 * k }) })) := by
  refine fm_congr fun k hk => congrArg (Option.map · _) (funext fun x => storeAt_eq ?_)
  have hk := List.mem_range.1 hk
  simp only [slotPlace, List.length_take, List.length_drop]
  omega

/-- Settles O20: ST by its one place, and STT by the first of its slots that meets a live word, if there is one. -/
theorem storesAreHeld : Obligations.StoresAreHeld := by
  unfold Obligations.StoresAreHeld
  refine ⟨fun h p s b a d hf => ⟨st_invalid hf, fun base y ha hd => ⟨fun r => st_refused hf ha hd, fun pl hp => ⟨st_live hf ha hd hp, fun hl => ?_⟩⟩⟩,
    fun h p s b a d hf => ⟨stt_invalid hf, fun base ha => ⟨fun r => stt_refused hf ha, fun pl hp => ⟨fun k hk hlive hfirst => ?_, fun hnone => ?_⟩⟩⟩⟩
  · rw [← storeAt_eq (effAddr_length hp)]
    exact st_holds hf ha hd hp hl
  · exact stt_live hf ha hp (find_range hk ((slotLive_iff s pl d k).2 hlive)
      fun j hj => Bool.eq_false_iff.2 (mt (slotLive_iff s pl d j).1 (hfirst j hj)))
  · have hfind := List.find?_eq_none.2 fun k hk => mt (slotLive_iff s pl d k).1 (hnone k (List.mem_range.1 hk))
    have hst := stt_holds hf ha hp hfind
    rwa [slotStores_eq (sttAddr_length hp)] at hst

end Sys2Proof.Proofs
end

section
namespace Sys2Proof.Proofs
open Sys2Proof Sys2Proof.Machine Sys2Proof.Claims Sys2Proof.Laws

/-! ### Loads, releases and acquires (R225, R230, R231, R242 to R247) -/

/-! #### What an acquire does to the linked bank (R231) -/

/-- The linked bank is one of a node's configuration, which no cache is. -/
theorem bankOf_of_cachesOnly {s t : State} (h : CachesOnly s t) (n : NodeId) : bankOf t n = bankOf s n := by
  rw [h.1]
  rfl

theorem acquire_bank {s : State} {b : BInst} {sc : Scope} {m : Nat} (hm : bankOf s b.node = some m) (hsc : sc ≠ .cell) :
    (acquire s b sc).bank = s.bank.filter (fun l => l.cell != m) := by
  rw [acquire, acquireAt, hm]
  exact congrArg State.bank (if_neg hsc)

theorem acquire_leaves_no_line {s : State} {b : BInst} {sc : Scope} {m : Nat} (hm : bankOf s b.node = some m) (hsc : sc ≠ .cell) :
    ∀ l, l ∈ (acquire s b sc).bank → l.cell ≠ m := by
  intro l hl
  rw [acquire_bank hm hsc] at hl
  exact bne_iff_ne.1 (List.mem_filter.1 hl).2

/-! #### LD, LDT and LDACQ (R242, R243, R245) -/

/-- A load that acquires does so after the line of its place has passed through the caches. -/
theorem loadOp_acquires {h : Hdr} {p : PayW} {s : State} {b : BInst} {a : Val} {size base : Nat} {sc : Scope} {pl : Place} (f : Nat → Val)
    (hf : MemFires h s b [a]) (ha : baseOf (spOf p) a = some base) (hp : placeOf p s b base size h.swz.toNat true false = .ok pl) :
    loadOp h p s size (some sc) f = .next (putInst (acquire (touchLine s b h.hint.toNat pl) b sc)
      (awaits h b (f (readPlace s b pl.addrs)) (predGeneral (f (readPlace s b pl.addrs))))) := by
  refine (memOp_fires' _ hf).trans (congrArg _ ?_)
  rw [List.getD_cons_zero, ha]
  dsimp only
  rw [← placeOf, hp]
  rfl

/-- The value of LDACQ is that of an unsigned word of its width. -/
theorem holds_acquired (w8 : Bool) {x : Nat} (hx : x < 256 ^ (if w8 then 8 else 4)) :
    Holds false (if w8 then 64 else 32) x (loadVal (if w8 then 7 else 6) x) := by
  cases w8
  case false => exact holds_loadVal 6 x hx
  case true => exact holds_loadVal 7 x hx

/-- Settles O19: each load is the shared form on its size and its value, and LDACQ acquires after it. -/
theorem loadResults : Obligations.LoadResults := by
  unfold Obligations.LoadResults
  refine ⟨?ld, ?ldt, ?ldacq, ?bank⟩
  case ld => exact loadResult_of (fun h _ => loadVal h.fmt) (fun _ _ => none) (fun _ _ _ => rfl) fun h _ x hx => holds_loadVal h.fmt x hx
  case ldt => exact loadResult_of (fun _ _ => tokenVal) (fun _ _ => none) (fun _ _ _ => rfl) fun _ _ x _ k hk => tv x k hk
  case ldacq =>
    exact loadResult_of (fun _ p => loadVal (if p.mctl.getLsbD 1 then 7 else 6)) (fun _ p => some p.scope) (fun _ _ _ => rfl)
      fun _ _ _ hx => holds_acquired _ hx
  case bank =>
    intro h p s b a base pl m t hf ha hp hm hsc ht
    obtain rfl : _ = t := Host.Outcome.next.inj ((loadOp_acquires _ hf ha hp).symm.trans ht)
    exact acquire_leaves_no_line ((bankOf_of_cachesOnly (touchLine_only s b h.hint.toNat pl).1 _).trans hm) hsc

/-! #### STREL (R225, R245) -/

section
variable {h : Hdr} {p : PayW} {s : State} {b : BInst} {a d : Val} (hf : MemFires h s b [a, d])
include hf

/-- A STREL whose address is not valid releases nothing either (assumption 70). -/
theorem strel_invalid (ha : baseOf (spOf p) a = none) : exec (.strel h p) s = .next (putInst s (advance 1 (deliver h 0 offDeliv b))) := by
  refine (memOp_fires' _ hf).trans (congrArg _ ?_)
  rw [List.getD_cons_zero, ha]
  rfl

variable {base : Nat} (ha : baseOf (spOf p) a = some base)
include ha

theorem strel_refused {r : Report} (hr : placeOf p s b base (if p.mctl.getLsbD 1 then 8 else 4) 0 false true = .error r) :
    exec (.strel h p) s = .next (raise s b r) := by
  refine (memOp_fires' _ hf).trans (congrArg _ ?_)
  rw [List.getD_cons_zero, ha]
  dsimp only
  rw [← placeOf, hr]

variable {pl : Place} (hp : placeOf p s b base (if p.mctl.getLsbD 1 then 8 else 4) 0 false true = .ok pl)
include hp

/-- A STREL without a datum still releases at the commit, where it stores nothing (assumption 70). -/
theorem strel_releases (hd : dataOf (if p.mctl.getLsbD 1 then 64 else 32) d = none) :
    exec (.strel h p) s = .next (putInst s (adds b [.rel (.strel p.scope none)])) := by
  refine (memOp_fires' _ hf).trans (congrArg _ ?_)
  rw [List.getD_cons_zero, List.getD_cons_succ, List.getD_cons_zero, ha]
  dsimp only
  rw [← placeOf, hp, hd]
  rfl

variable {y : Nat} (hd : dataOf (if p.mctl.getLsbD 1 then 64 else 32) d = some y)
include hd

/-- A STREL with a datum either meets a live word or leaves its release and its store to the commit. -/
theorem strel_placed : exec (.strel h p) s = .next (if touchesLive s pl then raise s b (liveReport 0 pl.ea)
    else putInst (touchLine s b h.hint.toNat pl) (adds b [.rel (.strel p.scope (some (storeAt pl y)))])) := by
  refine (memOp_fires' _ hf).trans (congrArg _ ?_)
  rw [List.getD_cons_zero, List.getD_cons_succ, List.getD_cons_zero, ha]
  dsimp only
  rw [← placeOf, hp, hd]
  rfl

theorem strel_live (hl : touchesLive s pl = true) : exec (.strel h p) s = .next (raise s b (liveReport 0 pl.ea)) := by
  rw [strel_placed hf ha hp hd, if_pos hl]

theorem strel_stores (hl : touchesLive s pl = false) :
    Replaces (exec (.strel h p) s) s (adds b [.rel (.strel p.scope (some (storeAt pl y)))]) := by
  rw [strel_placed hf ha hp hd, hl]
  exact replaces_put (touchLine_only s b _ pl)

end

/-! #### PHASE and FENCE (R230, R247) -/

/-- An instance that has passed a PHASE or a FENCE: it delivers 1 and goes on. -/
def fenced (h : Hdr) (b : BInst) : BInst := advance 1 (deliver h 0 (same (word32 1) true) b)

@[simp] theorem deliverAt_pc (k : Nat) (h : Hdr) (aux : BitVec 12) (d : Deliv) (b : BInst) : (deliverAt k h aux d b).pc = b.pc := by
  unfold deliverAt deliver1
  cases h.t0 <;> cases h.t1 <;> rfl

@[simp] theorem fenced_cell (h : Hdr) (b : BInst) : (fenced h b).cell = b.cell := dl_c ..

@[simp] theorem fenced_seq (h : Hdr) (b : BInst) : (fenced h b).seq = b.seq := dl_s ..

@[simp] theorem fenced_pc (h : Hdr) (b : BInst) : (fenced h b).pc = b.pc + 1 := congrArg (· + 1) (deliverAt_pc ..)

@[simp] theorem fenced_effs (h : Hdr) (b : BInst) : (fenced h b).effs = b.effs := deliverAt_effs' ..

/-- An instance that has passed a release left to its commit (R225). -/
def phased (h : Hdr) (sc : Scope) (b : BInst) : BInst := { fenced h b with effs := b.effs ++ [.rel (.phase sc)] }

/-- PHASE adds its release after it has delivered, and a releasing FENCE before: the instance is the same. -/
theorem addEff_fenced (h : Hdr) (sc : Scope) (b : BInst) :
    advance 1 (addEff (.rel (.phase sc)) (deliver h 0 (same (word32 1) true) b)) = phased h sc b := by
  rw [phased, ← fenced_effs h b]
  rfl

section
variable {h : Hdr} {p : PayW} {s : State} {b : BInst} {xs : List Val} (hf : MemFires h s b xs)
include hf

theorem phase_releases : exec (.phase h p) s = .next (putInst s (phased h p.scope b)) := by
  rw [← addEff_fenced]
  exact memOp_fires' _ hf

theorem fence_releases (ho : p.ord = .rel) : exec (.fence h p) s = .next (putInst s (phased h p.scope b)) := by
  refine (memOp_fires' _ hf).trans (congrArg _ ?_)
  rw [ho, ← addEff_fenced, ← deliver_addEff]

theorem fence_acquires (ho : p.ord = .acq) : exec (.fence h p) s = .next (putInst (acquire s b p.scope) (fenced h b)) := by
  refine (memOp_fires' _ hf).trans (congrArg _ ?_)
  rw [ho]
  rfl

theorem fence_releases_and_acquires (ho : p.ord = .acqrel) : exec (.fence h p) s =
    .next (putInst (acquire (releaseNow s b).1 b p.scope) (fenced h (markDurable (releaseNow s b).2))) := by
  refine (memOp_fires' _ hf).trans (congrArg _ ?_)
  rw [ho]
  rfl

end

/-! #### A release that lands leaves in memory what its agent reads (R220, R225, R230) -/

/-- Without commit stores and without releases, an instance has no store of its own. -/
theorem ownStores_nil : ∀ {l : List Eff}, effStores l = [] → l.any Eff.isRel = false → ownStores l = []
  | [], _, _ => rfl
  | e :: l, hs, hr => by
    obtain ⟨he, hl⟩ := Bool.or_eq_false_iff.1 hr
    cases e with
    | store st => cases hs
    | rel r => cases he
    | _ => exact ownStores_nil (l := l) hs hl

theorem byteAt_foldl_stored (l : List HStore) (s : State) (a : Nat) :
    byteAt (l.foldl stored s).mem a = (lastStore a l).getD (byteAt s.mem a) := by
  rw [(stored_fold l s).1]
  exact fold_last a l s.mem

section
variable {s : State} {b : BInst} {v : Inv} (hv : findInv s b.inv = some v) (hl : Lands s (v.held ++ ownStores b.effs))
include hv hl

theorem releaseNow_byteAt (a : Nat) : byteAt (releaseNow s b).1.mem a = agentByte s b a := by
  rw [(releaseNow_lands hv hl).1, byteAt_foldl_stored, agentByte, hv]
  rfl

theorem releaseNow_holds_nothing : findInv (releaseNow s b).1 b.inv = some { v with held := [] } := by
  obtain ⟨_, _, hinvs, _⟩ := stored_fold (v.held ++ ownStores b.effs) (putInv s { v with held := [] })
  rw [(releaseNow_lands hv hl).1, findInv_congr hinvs]
  exact findInv_put b.inv hv []

theorem releaseNow_insts : (releaseNow s b).1.insts = s.insts := by
  obtain ⟨_, hinsts, _, _⟩ := stored_fold (v.held ++ ownStores b.effs) (putInv s { v with held := [] })
  rw [(releaseNow_lands hv hl).1, hinsts, putInv_insts]

theorem releaseNow_ownStores : ownStores (releaseNow s b).2.effs = [] :=
  let ⟨_, hs, hr⟩ := releaseNow_lands hv hl
  ownStores_nil hs hr

theorem releaseNow_no_rel {e : Eff} (he : e ∈ (releaseNow s b).2.effs) : e.isRel = false :=
  let ⟨_, _, hr⟩ := releaseNow_lands hv hl
  Bool.eq_false_iff.2 (List.any_eq_false.1 hr e he)

end

/-- The instance in focus is found replaced by one of its own place, after a step that left the instances as they were. -/
theorem findInst_replaced {s u : State} {b b' : BInst} (hb : focusInst s = some b) (hu : u.insts = s.insts) (hc : b'.cell = b.cell)
    (hq : b'.seq = b.seq) : findInst (putInst u b') b.cell b.seq = some b' := by
  have hfind : findInst u b.cell b.seq = some b := by
    rw [findInst, hu]
    exact findInst_of_focus hb
  rw [findInst_putInst u b' _ _ (by rw [hc, hq, hfind]; rfl), if_pos ⟨hc, hq⟩]

/-- What a FENCE that releases and acquires leaves (R230, R247). -/
theorem fence_settles {h : Hdr} {p : PayW} {s : State} {b : BInst} {xs : List Val} {v : Inv} (hf : MemFires h s b xs) (ho : p.ord = .acqrel)
    (hv : findInv s b.inv = some v) (hl : Lands s (v.held ++ ownStores b.effs)) :
    ∃ t, exec (.fence h p) s = .next t ∧ (∀ a, byteAt t.mem a = agentByte s b a)
      ∧ (findInv t b.inv).map (fun x => x.held) = some []
      ∧ ∃ b', findInst t b.cell b.seq = some b' ∧ ownStores b'.effs = [] ∧ (∀ e, e ∈ b'.effs → e.isRel = false) ∧ b'.pc = b.pc + 1 := by
  have hacq := acquire_only (releaseNow s b).1 b p.scope
  refine ⟨_, fence_releases_and_acquires hf ho, fun a => ?_, ?_, fenced h (markDurable (releaseNow s b).2), ?_, ?_, ?_, ?_⟩
  · rw [putInst_mem, acquire_mem]
    exact releaseNow_byteAt hv hl a
  · have hinvs : (acquire (releaseNow s b).1 b p.scope).invs = (releaseNow s b).1.invs := by rw [hacq.1.1]
    rw [findInv_congr ((putInst_invs _ _).trans hinvs), releaseNow_holds_nothing hv hl]
    rfl
  · exact findInst_replaced hf.fires.exec.focus (hacq.2.trans (releaseNow_insts hv hl)) (fenced_cell _ _) (fenced_seq _ _)
  · rw [fenced_effs]
    exact releaseNow_ownStores hv hl
  · rw [fenced_effs]
    exact fun e => releaseNow_no_rel hv hl
  · exact fenced_pc _ _

/-- Settles O22: STREL by its place and its datum, PHASE and FENCE by their order, and the FENCE of both by what its release lands. -/
theorem orderingInstructions : Obligations.OrderingInstructions := by
  unfold Obligations.OrderingInstructions
  refine ⟨⟨fun h p s b a d hf => ⟨strel_invalid hf, fun base ha => ⟨fun r => strel_refused hf ha, fun pl hp => ?strel⟩⟩,
    fun h p s b xs hf => ⟨phase_releases hf, fence_releases hf, fun ho => ⟨?acquires, ?empties⟩⟩⟩,
    fun h p s b xs v hf ho hv hl => fence_settles hf ho hv hl⟩
  case strel =>
    rw [← dataOf_32]
    exact ⟨strel_releases hf ha hp, fun y hd => ⟨strel_live hf ha hp hd, strel_stores hf ha hp hd⟩⟩
  case acquires =>
    rw [fence_acquires hf ho]
    exact replaces_put (acquire_only s b p.scope)
  case empties =>
    intro t m ht hm hsc
    obtain rfl : _ = t := Host.Outcome.next.inj ((fence_acquires hf ho).symm.trans ht)
    exact acquire_leaves_no_line hm hsc

end Sys2Proof.Proofs
end

section
namespace Sys2Proof.Proofs
open Sys2Proof Sys2Proof.Machine Sys2Proof.Claims Sys2Proof.Laws

/-! ### Gathers and scatters (R244) -/

/-- The places of the slots that an indexed access uses, in ascending order. -/
def usedPlaces (use : Nat → Bool) (pl : Nat → Place) : List (Nat × Place) := ((List.range 16).filter use).map (fun k => (k, pl k))

/-- The token that LDG makes of the slots that have a place. -/
def gathered (h : Hdr) (s : State) (b : BInst) (ps : List (Nat × Place)) : Val :=
  valOf (fun k => (ps.find? (fun q => q.1 == k)).map (fun q =>
    BitVec.ofNat 32 (wrapInt 32 (readInt (codeSigned h.fmt) (codeWidth h.fmt) (readPlace s b q.2.addrs)))))

/-- The stores that STSC makes, one for each place. -/
def scattered (h : Hdr) (d : Val) (ps : List (Nat × Place)) : List HStore :=
  ps.map (fun q => storeAt q.2 ((slotBits d q.1).toNat % 2 ^ codeWidth h.fmt))

/-- A value written in 32 bits as it reads by its type. -/
theorem ofNat_wrapInt_readInt (sg : Bool) {w x : Nat} (hx : x < 2 ^ w) :
    BitVec.ofNat 32 (wrapInt 32 (readInt sg w x)) = BitVec.ofInt 32 (typed sg w x) := by
  rw [readInt_typed sg hx]
  apply BitVec.eq_of_toNat_eq
  rw [BitVec.toNat_ofNat, BitVec.toNat_ofInt, Nat.mod_eq_of_lt (wrapInt_lt 32 _)]
  rfl

theorem exists_slot_of_valid {v : Val} {k : Nat} (h : v.valid.getLsbD k = true) : ∃ i, slotOf v k = some i :=
  Option.isSome_iff_exists.1 ((valid_eq_isSome v k).symm.trans h)

theorem slotOf_gathered (h : Hdr) (s : State) (b : BInst) (use : Nat → Bool) (pl : Nat → Place) {k : Nat} (hk : k < 16) :
    slotOf (gathered h s b (usedPlaces use pl)) k = if use k then
      some (BitVec.ofNat 32 (wrapInt 32 (readInt (codeSigned h.fmt) (codeWidth h.fmt) (readPlace s b (pl k).addrs)))) else none := by
  rw [gathered, slotOf_valOf _ _ hk, usedPlaces, find_map_filter pl use k _ (List.mem_range.2 hk)]
  cases use k <;> rfl

theorem scattered_used (h : Hdr) (d : Val) (use : Nat → Bool) (pl : Nat → Place) :
    scattered h d (usedPlaces use pl) = (List.range 16).filterMap (fun k =>
      if use k then some (storeAt (pl k) ((slotBits d k).toNat % 2 ^ codeWidth h.fmt)) else none) := by
  rw [scattered, usedPlaces, List.map_map, ← List.filterMap_eq_map, List.filterMap_filter]
  rfl

section
variable {h : Hdr} {p : PayW} {s : State} {b : BInst} {a idx d : Val} {base : Nat} {ps : List (Nat × Place)}

theorem ldg_gathers (hf : MemFires h s b [a, idx]) (ha : baseOf (spOf p) a = some base)
    (hps : slotPlaces s b h p base idx (fun k => idx.valid.getLsbD k) true false (List.range 16) = .ok ps) :
    exec (.ldg h p) s = .next (putInst (touchLines s b h.hint.toNat (ps.map (fun q => q.2)))
      (awaits h b (gathered h s b ps) (predGeneral (gathered h s b ps)))) := by
  refine (memOp_fires' _ hf).trans (congrArg _ ?_)
  rw [List.getD_cons_zero, List.getD_cons_succ, List.getD_cons_zero, ha]
  dsimp only
  rw [hps]
  rfl

theorem stsc_scatters (hf : MemFires h s b [a, idx, d]) (ha : baseOf (spOf p) a = some base)
    (hps : slotPlaces s b h p base idx (fun k => idx.valid.getLsbD k && d.valid.getLsbD k) false true (List.range 16) = .ok ps) :
    exec (.stsc h p) s = .next (holdStores (touchLines s b h.hint.toNat (ps.map (fun q => q.2))) h b (scattered h d ps)
      ((ps.map (fun q => q.2.ea)).headD 0)) := by
  refine (memOp_fires' _ hf).trans (congrArg _ ?_)
  rw [List.getD_cons_zero, List.getD_cons_succ, List.getD_cons_succ, List.getD_cons_zero, ha]
  dsimp only
  rw [List.getD_cons_succ, List.getD_cons_zero, hps]
  rfl

end

/-- Settles O21: LDG finds each used slot's place and reads it by type; STSC holds a store for each used slot. -/
theorem gatherAndScatter : Obligations.GatherAndScatter := by
  unfold Obligations.GatherAndScatter
  intro at_
  refine ⟨fun h p s b a idx base pl hf ha hat => ?gather, fun h p s b a idx d base pl hf ha hat => ?scatter⟩
  case gather =>
    have hps : slotPlaces s b h p base idx (fun k => idx.valid.getLsbD k) true false (List.range 16) =
        .ok (usedPlaces (fun k => idx.valid.getLsbD k) pl) := slotPlaces_ok pl _ fun k hk hu => by
      obtain ⟨i, hi⟩ := exists_slot_of_valid hu
      rw [slotBits_of hi]
      exact ⟨hat k i (List.mem_range.1 hk) hi, rfl⟩
    rw [ldg_gathers hf ha hps]
    refine ⟨_, _, slotNonzero_pred _, replaces_put (touchLines_only b _ _ s), fun k hk => ?_⟩
    rw [slotOf_gathered h s b _ pl hk, valid_eq_isSome]
    cases hi : slotOf idx k with
    | none => rfl
    | some i =>
      have hx := readPlace_lt s b (pl k).addrs
      rw [effAddr_length (hat k i hk hi)] at hx
      exact congrArg some (ofNat_wrapInt_readInt _ (codeWidth_pow _ hx))
  case scatter =>
    have hps : slotPlaces s b h p base idx (fun k => idx.valid.getLsbD k && d.valid.getLsbD k) false true (List.range 16) =
        .ok (usedPlaces (fun k => idx.valid.getLsbD k && d.valid.getLsbD k) pl) := slotPlaces_ok pl _ fun k hk hu => by
      obtain ⟨hui, hud⟩ := Bool.and_eq_true_iff.1 hu
      obtain ⟨i, hi⟩ := exists_slot_of_valid hui
      rw [slotBits_of hi]
      exact hat k i (List.mem_range.1 hk) hi ((valid_eq_isSome d k).symm.trans hud)
    rw [stsc_scatters hf ha hps, scattered_used]
    refine (fm_congr fun k _ => ?_) ▸ holdStores_spec (touchLines_only b _ _ s)
    rw [valid_eq_isSome, valid_eq_isSome]
    cases hi : slotOf idx k with
    | none => rfl
    | some i =>
      cases hd : slotOf d k with
      | none => rfl
      | some x => rw [slotBits_of hd]; rfl

end Sys2Proof.Proofs
end

section
namespace Sys2Proof.Proofs
open Sys2Proof Sys2Proof.Machine Sys2Proof.Claims Sys2Proof.Laws

/-! ### Hints (R248) -/

section
variable {s : State} {pa : Nat} (hc : ∀ d, region pa ≠ some (.carve d))
include hc

/-- A Dome with room for a line that it caches holds it at the retention asked for. -/
theorem domeKeep_room (r : Retention) (hdie : homeDie pa < 4) (hu : hostUncached s pa = false)
    (hroom : (mget none s.dome (pa / 64)).isSome = true ∨ (s.dome.filter (fun e => homeDie (64 * e.1) == homeDie pa)).length < domeLimit s (homeDie pa)) :
    domeKeep s pa r = { s with dome := mput none s.dome (pa / 64) (some r) } := by
  have hcached : ¬ (4 ≤ homeDie pa ∨ hostUncached s pa = true) := by
    rw [hu]
    rintro (h | h)
    · omega
    · cases h
  unfold domeKeep
  split
  · next d hr => exact absurd hr (hc d)
  · rw [if_neg hcached, if_pos hroom]

theorem dropLine_of_not_carve : dropLine s pa =
    { s with dome := mput none s.dome (pa / 64) none, monitors := wakeGranule s.monitors s.now (pa / 64) .lost } := by
  unfold dropLine
  split
  · next d hr => exact absurd hr (hc d)
  · rfl

end

/-- Settles O23: each hint is the shared form on a step that touches the Dome, its monitors and the count alone. -/
theorem hintsChangeNoValue : Obligations.HintsChangeNoValue := by
  unfold Obligations.HintsChangeNoValue
  intro h p s b a hf done ea
  have hpref := hintOp_spec (p := p) (active := h.hint != 3) hf (keepLine_frame (hintRetention h.hint.toNat))
  have hresid := hintOp_spec (p := p) (active := true) hf (keepLine_frame (some .high))
  have hevict := hintOp_spec (p := p) (active := true) hf dropLine_frame
  refine ⟨fun i hi => ?frame, fun base ha hm h0 h57 => ⟨fun r hr => (hresid.2.2 base ha hm h0 h57).1 r rfl hr, fun pa hpa hc => ⟨fun hdie hu hroom => ⟨?resid, fun hn => ?pref⟩, ?evict⟩⟩⟩
  case frame =>
    simp only [List.mem_cons, List.not_mem_nil, or_false] at hi
    rcases hi with rfl | rfl | rfl
    · exact ⟨hpref.1, hpref.2.1⟩
    · exact ⟨hresid.1, hresid.2.1⟩
    · exact ⟨hevict.1, hevict.2.1⟩
  case resid =>
    rw [← domeKeep_room hc .high hdie hu hroom]
    exact (hresid.2.2 base ha hm h0 h57).2 pa rfl hpa
  case pref =>
    have hline := (hpref.2.2 base ha hm h0 h57).2 pa (by rw [hn]; rfl) hpa
    have hret : hintRetention h.hint.toNat = some .normal := by rw [hn]; rfl
    rw [← domeKeep_room hc .normal hdie hu hroom]
    exact hline.trans (by rw [hret]; rfl)
  case evict =>
    rw [← dropLine_of_not_carve hc]
    exact (hevict.2.2 base ha hm h0 h57).2 pa rfl hpa

end Sys2Proof.Proofs
end

section
namespace Sys2Proof.Proofs
open Sys2Proof Sys2Proof.Machine Sys2Proof.Claims Sys2Proof.Laws

/-! ### Atomics (R249, R250) -/

/-- The operation of ATMIN and of ATMAX by the type of its elements. -/
def minOp (h : Hdr) : AtOp := if codeSigned h.fmt then .minS else .minU

def maxOp (h : Hdr) : AtOp := if codeSigned h.fmt then .maxS else .maxU

theorem atResult_minOp (h : Hdr) (w old x y : Nat) : atResult (minOp h) w old x y = aluMin (codeSigned h.fmt) w old x := by
  rw [minOp]
  cases codeSigned h.fmt <;> rfl

theorem atResult_maxOp (h : Hdr) (w old x y : Nat) : atResult (maxOp h) w old x y = aluMax (codeSigned h.fmt) w old x := by
  rw [maxOp]
  cases codeSigned h.fmt <;> rfl

theorem minOp_ne_cas (h : Hdr) : (minOp h == .cas) = false := by
  rw [minOp]
  cases codeSigned h.fmt <;> rfl

theorem maxOp_ne_cas (h : Hdr) : (maxOp h == .cas) = false := by
  rw [maxOp]
  cases codeSigned h.fmt <;> rfl

/-- An atomic other than ATCAS gives its predicate bit by the old number. -/
theorem predicate_old {op : AtOp} (ho : (op == .cas) = false) (old : Nat) (ds : List Nat) :
    (old != 0) = (if op == .cas then old == bitsAt ds 0 else old != 0) := by
  rw [ho]
  rfl

/-- What ATFADD refuses before it reaches its place (R250). -/
def atfaddRefusal (h : Hdr) (s : State) (b : BInst) : Option Report :=
  if (atfaddBad s b h).isSome then some { cause := .formatEntry, entry := h.fmt.toNat }
  else if (nodeCtx s b.node).replay then some (fail .replayNondet) else none

/-- The number that ATFADD writes: the sum under its entry, rounded once (R250). -/
def atfaddSum (h : Hdr) (s : State) (b : BInst) (old x : Nat) : Nat :=
  let e := entryOf s b h.fmt.toNat
  roundNum (sumNums (isDown h.rnd e) [decodeElem e old, decodeElem e x]) e h.rnd ((srOf s b).noise 0)

/-- The state on which ATFADD refuses nothing: an unblocked entry of 32 bits, outside replay mode (R250). -/
def AtfaddReady (h : Hdr) (s : State) (b : BInst) : Prop :=
  Plain (entryWord s b h.fmt.toNat) ∧ contW (entryWord s b h.fmt.toNat) = 32 ∧ (nodeCtx s b.node).replay = false

theorem execAtfadd_eq (h : Hdr) (p : PayW) (s : State) :
    exec (.atfadd h p) s = atomicOp h p s 32 false false false (atfaddRefusal h s) (fun b old x _ => atfaddSum h s b old x) := rfl

theorem atfaddRefusal_of_ready {h : Hdr} {s : State} {b : BInst} (hr : AtfaddReady h s b) : atfaddRefusal h s b = none := by
  obtain ⟨⟨hlegal, hblock⟩, hcont, hreplay⟩ := hr
  rw [contW] at hcont
  rw [atfaddRefusal, atfaddBad, hlegal, hblock, hcont, hreplay]
  rfl

/-- ATFADD is the shared form of 32 bits on a sum rounded once (R250). -/
theorem atfadd_sums : AtomicResult .atfadd (fun _ => 32) AtfaddReady (fun h s b old l new => new = atfaddSum h s b old (bitsAt l 0)) (fun old _ => old != 0) := by
  intro h p s b a ds xs base pl hf hr hn ha hd hpl hv
  obtain ⟨_, t, v, ht, hold, hwritten, hinsts, hrest⟩ := atomicOp_spec (isOr := false) (isCas := false) (pcie := false)
    (f := fun b old x _ => atfaddSum h s b old x) (.inr (.inr (.inr (.inl rfl)))) (by decide) hf (atfaddRefusal_of_ready hr) hn ha hd hpl hv
  exact ⟨t, v, _, (execAtfadd_eq h p s).trans ht, hold, rfl, hwritten, hinsts, hrest⟩

/-- Settles O24: each integer atomic is the shared form on its operation, and ATFADD on its sum. -/
theorem atomicResults : Obligations.AtomicResults := by
  unfold Obligations.AtomicResults
  intro wide always bitwise ordered nonzero
  refine ⟨?add, ?and, ?or, ?xor, ?min, ?max, ?xch, ?cas, atfadd_sums⟩
  case add => exact atomic_of (op := fun _ => .add) (fun _ _ _ => rfl) (fun _ _ _ _ _ _ _ => rfl) fun _ => predicate_old rfl
  case and =>
    exact atomic_of (op := fun _ => .and) (fun _ _ _ => rfl) (fun _ _ _ old ds _ _ j _ => Nat.testBit_and old (bitsAt ds 0) j) fun _ => predicate_old rfl
  case or =>
    exact atomic_of (op := fun _ => .or) (fun _ _ _ => rfl) (fun _ _ _ old ds _ _ j _ => Nat.testBit_or old (bitsAt ds 0) j) fun _ => predicate_old rfl
  case xor =>
    exact atomic_of (op := fun _ => .xor) (fun _ _ _ => rfl) (fun _ _ _ old ds _ _ j _ => Nat.testBit_xor old (bitsAt ds 0) j) fun _ => predicate_old rfl
  case min =>
    exact atomic_of (op := minOp) (fun _ _ _ => rfl) (fun h _ _ _ _ ho hd => (congrArg _ (atResult_minOp h ..)).trans (aluMin_spec _ ho (hd 0)))
      fun h => predicate_old (minOp_ne_cas h)
  case max =>
    exact atomic_of (op := maxOp) (fun _ _ _ => rfl) (fun h _ _ _ _ ho hd => (congrArg _ (atResult_maxOp h ..)).trans (aluMax_spec _ ho (hd 0)))
      fun h => predicate_old (maxOp_ne_cas h)
  case xch => exact atomic_of (op := fun _ => .xch) (fun _ _ _ => rfl) (fun _ _ _ _ _ _ _ => rfl) fun _ => predicate_old rfl
  case cas => exact atomic_of (op := fun _ => .cas) (fun _ _ _ => rfl) (fun _ _ _ _ _ _ _ => rfl) fun _ _ _ => rfl

end Sys2Proof.Proofs
end

section
namespace Sys2Proof.Proofs
open Sys2Proof Sys2Proof.Machine Sys2Proof.Claims Sys2Proof.Laws

/-! ### Barrier words (R251 to R253) -/

/-! #### A step at a home that writes a place -/

/-- A step performed at the Dome of a place writes `x` there, past the linked bank (R212, R249). -/
def homeStep (s : State) (b : BInst) (pl : Place) (x : Nat) : State :=
  performWrite (domeTouch (bankDrop s b (pl.addrs.headD 0)) pl) (storeAt pl x)

section
variable (s : State) (b : BInst) (pl : Place) (x : Nat)

theorem readAddrs_home (l : List Nat) : readAddrs (domeTouch (bankDrop s b (pl.addrs.headD 0)) pl) l = numberAt s l :=
  (readAddrs_eq _ l).trans (numberAt_congr (homeStep_rest s b _ pl).mem l)

@[simp] theorem homeStep_insts : (homeStep s b pl x).insts = s.insts := (homeStep_rest s b _ pl).insts

@[simp] theorem homeStep_wtype : (homeStep s b pl x).wtype = s.wtype := (homeStep_rest s b _ pl).wtype

theorem homeStep_mem : (homeStep s b pl x).mem = putBytes s.mem (pl.addrs.zip (leBytes pl.addrs.length x)) :=
  congrArg (putBytes · _) (homeStep_rest s b _ pl).mem

variable {s b pl x}

/-- A state that keeps the memory of a step at a home has its place written. -/
theorem written_of_homeStep {t : State} (hn : pl.addrs.Nodup) (ht : t.mem = (homeStep s b pl x).mem) : Written s t pl.addrs x :=
  written_put hn (ht.trans (homeStep_mem s b pl x))

end

/-! #### BINIT (R252) -/

theorem barExpect_eq (x : Nat) : barExpect x = x / 2 ^ 16 % 2 ^ 16 := rfl

theorem barArrived_eq (x : Nat) : barArrived x = x % 2 ^ 16 := congrArg (· % 2 ^ 16) (Nat.div_one x)

/-- The condition on which BINIT refuses a word: one of a barrier that expects none, or that all have reached. -/
theorem not_barrier_iff {k x : Nat} : (k = 1 ∧ (barExpect x = 0 ∨ barExpect x ≤ barArrived x)) ↔
    (k = 1 ∧ ¬ (0 < x / 2 ^ 16 % 2 ^ 16 ∧ x % 2 ^ 16 < x / 2 ^ 16 % 2 ^ 16)) := by
  rw [barExpect_eq, barArrived_eq]
  omega

section
variable {h : Hdr} {p : PayW} {s : State} {b : BInst} {a d : Val} {base x : Nat} {pl : Place} (hf : MemFires h s b [a, d])
  (ha : baseOf false a = some base) (hp : effAddr s b false 0 ((base : Int) + p.ofs.toInt) 8 0 false true = .ok pl) (hd : elemOf 64 d 0 = some x)
include hf ha hp hd

theorem binit_refuses (hbad : p.mctl.toNat % 4 = 1 ∧ (barExpect x = 0 ∨ barExpect x ≤ barArrived x)) :
    exec (.binit h p) s = .next (raise s b { cause := .illegalEncoding, detail := 5, addr := pl.ea }) := by
  refine (memOp_fires' _ hf).trans (congrArg _ ?_)
  rw [List.getD_cons_zero, List.getD_cons_succ, List.getD_cons_zero, ha]
  dsimp only
  rw [hp, hd]
  exact if_pos hbad

theorem binit_writes (hn : NothingHeld s b) (hu : hostUncached s (pl.addrs.headD 0) = false)
    (hgood : ¬ (p.mctl.toNat % 4 = 1 ∧ (barExpect x = 0 ∨ barExpect x ≤ barArrived x))) :
    exec (.binit h p) s = .next (putInst (setType (homeStep s b pl x) (pl.addrs.headD 0) (p.mctl.toNat % 4))
      (advance 1 (deliver h 0 offDeliv (markDurable b)))) := by
  refine (memOp_fires' _ hf).trans (congrArg _ ?_)
  rw [List.getD_cons_zero, List.getD_cons_succ, List.getD_cons_zero, ha]
  dsimp only
  rw [hp, hd]
  dsimp only
  rw [if_neg hgood, hu, atomicRelease_nil hn]
  rfl

end

/-! #### BARR (R253) -/

/-- The number that an arrival leaves, by the fields of the barrier word. -/
theorem arriveWord_eq {x : Nat} (hx : x < 2 ^ 64) : arriveWord x =
    (if x % 2 ^ 16 + 1 = x / 2 ^ 16 % 2 ^ 16 then (x / 2 ^ 32 + 1) % 2 ^ 32 * 2 ^ 32 + x / 2 ^ 16 % 2 ^ 16 * 2 ^ 16
      else x / 2 ^ 32 * 2 ^ 32 + x / 2 ^ 16 % 2 ^ 16 * 2 ^ 16 + (x % 2 ^ 16 + 1) % 2 ^ 16,
      x / 2 ^ 32, decide (x % 2 ^ 16 + 1 = x / 2 ^ 16 % 2 ^ 16)) := by
  have hgen : barGen x = x / 2 ^ 32 := Nat.mod_eq_of_lt (by omega)
  rw [arriveWord, hgen, barArrived_eq, barExpect_eq]
  by_cases hlast : x % 2 ^ 16 + 1 = x / 2 ^ 16 % 2 ^ 16
  · rw [if_pos hlast, if_pos hlast, decide_eq_true hlast]
  · rw [if_neg hlast, if_neg hlast, decide_eq_false hlast]

/-- The token of an arrival: the generation and whether it was the last. -/
def arrival (r : Nat × Nat × Bool) : Val := firstSlots [BitVec.ofNat 32 r.2.1, if r.2.2 then 1 else 0]

theorem slotOf_arrival (r : Nat × Nat × Bool) {k : Nat} (hk : k < 16) : slotOf (arrival r) k =
    if k = 0 then some (BitVec.ofNat 32 r.2.1) else if k = 1 then some (if r.2.2 then 1 else 0) else none := by
  rw [arrival, slotOf_firstSlots _ _ hk]
  match k with
  | 0 => rfl
  | 1 => rfl
  | _ + 2 => rfl

section
variable {h : Hdr} {p : PayW} {s : State} {b : BInst} {a : Val} {base : Nat} {pl : Place} (hf : MemFires h s b [a]) (hn : NothingHeld s b)
  (ha : baseOf false a = some base) (hp : effAddr s b false 0 ((base : Int) + p.ofs.toInt) 8 0 true true = .ok pl)
  (hu : hostUncached s (pl.addrs.headD 0) = false)
include hf hn ha hp hu

theorem barr_refuses (ht : typeAt s (pl.addrs.headD 0) ≠ 1) :
    exec (.barr h p) s = .next (raise s b { cause := .permission, detail := 6, addr := pl.addrs.headD 0 }) := by
  refine (memOp_fires' _ hf).trans (congrArg _ ?_)
  rw [List.getD_cons_zero, ha]
  dsimp only
  rw [hp]
  dsimp only
  rw [hu, releaseNow_nil hn]
  exact if_pos ht

theorem barr_arrives (ht : typeAt s (pl.addrs.headD 0) = 1) :
    exec (.barr h p) s = .next (putInst (homeStep s b pl (arriveWord (numberAt s pl.addrs)).1)
      (awaits h (markDurable b) (arrival (arriveWord (numberAt s pl.addrs))) (arriveWord (numberAt s pl.addrs)).2.2)) := by
  refine (memOp_fires' _ hf).trans (congrArg _ ?_)
  rw [List.getD_cons_zero, ha]
  dsimp only
  rw [hp]
  dsimp only
  rw [hu, releaseNow_nil hn]
  dsimp only
  rw [readAddrs_home]
  exact if_neg (not_not_intro ht)

end

/-- Settles O25: BINIT and BARR each write their word by one step at its home, or refuse it. -/
theorem barrierWords : Obligations.BarrierWords := by
  unfold Obligations.BarrierWords
  refine ⟨fun h p s b a d base pl x hf hn ha hp hd hu => ⟨fun hbad => ?refuses, fun hgood => ?writes⟩,
    fun h p s b a base pl hf hn ha hp hu => ⟨fun ht => ?arrives, barr_refuses hf hn ha hp hu⟩⟩
  case refuses => exact binit_refuses hf ha hp hd (not_barrier_iff.2 hbad)
  case writes =>
    exact ⟨_, binit_writes hf ha hp hd hn hu (mt not_barrier_iff.1 hgood), written_of_homeStep (effAddr_nodup hp) rfl,
      (typeAt_setType ..).trans (if_pos rfl), congrArg (updFirst _ _) (homeStep_insts s b pl x)⟩
  case arrives =>
    have hx := numberAt_lt s pl.addrs
    rw [effAddr_length hp] at hx
    have harr := arriveWord_eq hx
    have hexec := barr_arrives hf hn ha hp hu ht
    rw [harr] at hexec
    refine ⟨_, _, hexec, written_of_homeStep (effAddr_nodup hp) rfl, fun k hk => ?_, congrArg (updFirst _ _) (homeStep_insts s b pl _)⟩
    rw [slotOf_arrival _ hk]
    simp only [decide_eq_true_eq]

end Sys2Proof.Proofs
end

section
namespace Sys2Proof.Proofs
open Sys2Proof Sys2Proof.Machine Sys2Proof.Claims Sys2Proof.Laws

/-! ### Waits (R255 to R258) -/

/-- The wait completes with a code, the word that it read and a predicate bit. -/
def WaitDelivers (r : Result) (h : Hdr) (s : State) (b : BInst) (code x : Nat) (q : Bool) : Prop :=
  ∃ v, (∀ k, k < 16 → slotOf v k = if k = 0 then some (BitVec.ofNat 32 code) else if k = 1 then some (BitVec.ofNat 32 x)
    else if k = 2 then some (BitVec.ofNat 32 (x / 2 ^ 32)) else none) ∧ Replaces r s (awaits h b v q)

/-- The wait goes back to its firing with a monitor on its granule. -/
def GoesBack (r : Result) (s : State) (b : BInst) (pa : Nat) : Prop :=
  ∃ t, r = .next t ∧ t.mem = s.mem ∧ t.insts = s.insts.filter (fun x => !x.isAt b.cell b.seq)
    ∧ (∃ f, f ∈ t.firings ∧ f.cell = b.cell ∧ f.seq = b.seq) ∧ ∃ m, m ∈ t.monitors ∧ m.granule = pa / 64 ∧ m.cell = b.cell ∧ m.seq = b.seq ∧ m.event = none

theorem waitDelivers_of_finishLoad {s u : State} (h : Hdr) (b : BInst) (code : Nat) {x : Nat} (q : Bool) (hx : x < 2 ^ 64)
    (hu : CachesOnly s u ∧ u.insts = s.insts) : WaitDelivers (.next (finishLoad u h b (waitVal code x) q)) h s b code x q :=
  ⟨waitVal code x, waitVal_spec code x hx, replaces_put hu⟩

theorem goesBack_of_withdraw (s : State) (b : BInst) (pa : Nat) (xs : List Val) : GoesBack (.next (withdraw s b pa xs)) s b pa :=
  ⟨_, rfl, withdraw_back s b pa xs⟩

/-- The word that a wait reads has 64 bits. -/
theorem word_lt {s : State} {b : BInst} {sp : Bool} {swz n : Nat} {ea : Int} {rd wr : Bool} {pl : Place}
    (hp : effAddr s b sp swz ea 8 n rd wr = .ok pl) : readPlace s b pl.addrs < 2 ^ 64 := by
  have hx := readPlace_lt s b pl.addrs
  rwa [effAddr_length hp] at hx

/-! #### BWAIT and WAITB (R256) -/

section
variable {h : Hdr} {p : PayW} {s : State} {b : BInst} {a g : Val} {xs : List Val} {base ty : Nat} {pl : Place}
  {test : Val → Option (Nat → Bool)} {cond : Nat → Bool} (hf : MemFires h s b (a :: g :: xs)) (ha : baseOf false a = some base)
  (hg : test g = some cond) (hp : effAddr s b false 0 ((base : Int) + p.ofs.toInt) 8 0 true false = .ok pl)
include hf ha hg hp

theorem waitOp_refuses (ht : typeAt s (pl.addrs.headD 0) ≠ ty) :
    waitOp h p s ty test = .next (raise s b { cause := .permission, detail := 6, addr := pl.ea }) :=
  (waitOp_spec hf ha hg hp).trans (congrArg _ (if_pos ht))

variable (ht : typeAt s (pl.addrs.headD 0) = ty)
include ht

theorem waitOp_succeeds (hc : cond (readPlace s b pl.addrs) = true) :
    waitOp h p s ty test = .next (finishLoad (acquire s b p.scope) h b (waitVal 0 (readPlace s b pl.addrs)) true) := by
  refine (waitOp_spec hf ha hg hp).trans (congrArg _ ?_)
  rw [if_neg (not_not_intro ht), if_pos hc]

theorem waitOp_timesOut (hc : ¬ cond (readPlace s b pl.addrs) = true) (hw : b.wake = some .timeout) :
    waitOp h p s ty test = .next (finishLoad s h b (waitVal 2 (readPlace s b pl.addrs)) false) := by
  refine (waitOp_spec hf ha hg hp).trans (congrArg _ ?_)
  rw [if_neg (not_not_intro ht), if_neg hc, hw]

theorem waitOp_withdraws (hc : ¬ cond (readPlace s b pl.addrs) = true) (hw : b.wake ≠ some .timeout) :
    waitOp h p s ty test = .next (withdraw s b (pl.addrs.headD 0) (a :: g :: xs)) := by
  refine (waitOp_spec hf ha hg hp).trans (congrArg _ ?_)
  rw [if_neg (not_not_intro ht), if_neg hc]
  split
  · next hk => exact absurd hk hw
  · rfl

end

/-- What a wait on a word of type `ty` does, with `ok` the condition on the word and the number that `needs` takes from its operand. -/
def WaitsOn (i : Hdr → PayW → Instr) (ty : Nat) (needs : Val → Option Nat) (ok : Nat → Nat → Prop) : Prop :=
  ∀ h p s b a g xs base pl y, MemFires h s b (a :: g :: xs) → baseOf false a = some base → needs g = some y →
    effAddr s b false 0 ((base : Int) + p.ofs.toInt) 8 0 true false = .ok pl →
    let x := readPlace s b pl.addrs
    (typeAt s (pl.addrs.headD 0) ≠ ty → exec (i h p) s = .next (raise s b { cause := .permission, detail := 6, addr := pl.ea }))
    ∧ (typeAt s (pl.addrs.headD 0) = ty → (ok x y → WaitDelivers (exec (i h p) s) h s b 0 x true)
      ∧ (¬ ok x y → b.wake = some .timeout → WaitDelivers (exec (i h p) s) h s b 2 x false)
      ∧ (¬ ok x y → b.wake ≠ some .timeout → GoesBack (exec (i h p) s) s b (pl.addrs.headD 0)))

/-- A wait whose test decides its condition on every word of 64 bits does as that condition says. -/
theorem waitsOn_of_test {i : Hdr → PayW → Instr} {ty : Nat} {needs : Val → Option Nat} {ok : Nat → Nat → Prop} {test : Val → Option (Nat → Bool)}
    (cond : Nat → Nat → Bool) (hi : ∀ h p s, exec (i h p) s = waitOp h p s ty test) (htest : ∀ g y, needs g = some y → test g = some (cond y))
    (hok : ∀ x y, x < 2 ^ 64 → (cond y x = true ↔ ok x y)) : WaitsOn i ty needs ok := by
  intro h p s b a g xs base pl y hf ha hy hp x
  have hx := word_lt hp
  have hg := htest g y hy
  rw [hi, ← hok x y hx]
  refine ⟨waitOp_refuses hf ha hg hp, fun ht => ⟨fun hc => ?_, fun hc hw => ?_, fun hc hw => ?_⟩⟩
  · exact waitOp_succeeds hf ha hg hp ht hc ▸ waitDelivers_of_finishLoad h b 0 true hx (acquire_only s b p.scope)
  · exact waitOp_timesOut hf ha hg hp ht hc hw ▸ waitDelivers_of_finishLoad h b 2 false hx (caches_self s)
  · exact waitOp_withdraws hf ha hg hp ht hc hw ▸ goesBack_of_withdraw s b _ _

/-- BWAIT waits for a generation other than its own. -/
theorem bwait_waitsOn : WaitsOn .bwait 1 (fun g => (slotOf g 0).map BitVec.toNat) (fun x y => x / 2 ^ 32 ≠ y) := by
  refine waitsOn_of_test (test := fun g => (slotOf g 0).map (fun y x => barGen x != y.toNat)) (fun y x => barGen x != y) (fun _ _ _ => rfl) (fun g y hy => ?_) fun x y hx => ?_
  · obtain ⟨w, hw, rfl⟩ := Option.map_eq_some_iff.1 hy
    rw [hw]
    rfl
  · rw [bne_iff_ne, show barGen x = x / 2 ^ 32 from Nat.mod_eq_of_lt (by omega)]

/-- WAITB waits for a word that holds every bit of its operand. -/
theorem waitb_waitsOn : WaitsOn .waitb 2 (fun g => elemOf 64 g 0) (fun x y => ∀ j, y.testBit j = true → x.testBit j = true) :=
  waitsOn_of_test (fun y x => x &&& y == y) (fun _ _ _ => rfl) (fun _ _ hy => congrArg (Option.map _) hy) fun x y _ => and_bits x y

/-! #### WAITA (R257) -/

section
variable {h : Hdr} {p : PayW} {s : State} {b : BInst} {a e : Val} {xs : List Val} {base y : Nat} {pl : Place}
  (hf : MemFires h s b (a :: e :: xs)) (ha : baseOf false a = some base) (he : elemOf 64 e 0 = some y)
  (hp : effAddr s b false 0 ((base : Int) + p.ofs.toInt) 8 0 true false = .ok pl)
include hf ha he hp

theorem waita_woken {k : Wake} (hw : b.wake = some k) :
    exec (.waita h p) s = .next (finishLoad s h b (waitVal (wakeCode k) (readPlace s b pl.addrs)) (k == .write)) := by
  refine (memOp_fires' _ hf).trans (congrArg _ ?_)
  rw [List.getD_cons_zero, List.getD_cons_succ, List.getD_cons_zero, ha, he]
  dsimp only
  rw [hp, hw]

/-- A first execution withdraws while the word is the one it knows. -/
theorem waita_first (hw : b.wake = none) :
    exec (.waita h p) s = .next (if readPlace s b pl.addrs = y then withdraw s b (pl.addrs.headD 0) (a :: e :: xs)
      else finishLoad s h b (waitVal 0 (readPlace s b pl.addrs)) true) := by
  refine (memOp_fires' _ hf).trans (congrArg _ ?_)
  rw [List.getD_cons_zero, List.getD_cons_succ, List.getD_cons_zero, ha, he]
  dsimp only
  rw [hp, hw]

end

/-- Settles O26: BWAIT and WAITB are the shared form on their tests, and WAITA completes by its wake or by its first word. -/
theorem waitInstructions : Obligations.WaitInstructions := by
  unfold Obligations.WaitInstructions
  intro result goesBack word
  refine ⟨bwait_waitsOn, waitb_waitsOn, fun h p s b a e xs base pl y hf ha he hp => ⟨fun hw hne => ?changed, fun hw heq => ?same, fun k hw => ?woken⟩⟩
  case changed =>
    rw [waita_first hf ha he hp hw, if_neg hne]
    exact waitDelivers_of_finishLoad h b 0 true (word_lt hp) (caches_self s)
  case same =>
    rw [waita_first hf ha he hp hw, if_pos heq]
    exact goesBack_of_withdraw s b _ _
  case woken =>
    rw [waita_woken hf ha he hp hw]
    cases k <;> exact waitDelivers_of_finishLoad h b _ _ (word_lt hp) (caches_self s)

end Sys2Proof.Proofs
end

section
namespace Sys2Proof.Proofs
open Sys2Proof Sys2Proof.Machine Sys2Proof.Claims Sys2Proof.Laws

/-! #### What the remaining operations do to memory -/

@[simp] theorem defer_mem (s : State) (h : Hdr) (b : BInst) (a : LateAct) : (defer s h b a).mem = s.mem := rfl

@[simp] theorem endAwait_mem (s : State) (ch : ChanId) (n : NodeId) (t : Tag) : (endAwait s ch n t).mem = s.mem := rfl

@[simp] theorem snoopLine_mem (s : State) (pa : Nat) : (snoopLine s pa).mem = s.mem := rfl

@[simp] theorem updPlaced_mem (s : State) (n : NodeId) (f : Placed → Placed) : (updPlaced s n f).mem = s.mem := rfl

@[simp] theorem joinWait_mem (s : State) (x : Waiter) : (joinWait s x).mem = s.mem := by
  unfold joinWait
  split <;> rfl

@[simp] theorem restoreCur_mem (s : State) (x : CtxId) (v : Saved) : (restoreCur s x v).mem = s.mem := by
  fun_cases restoreCur s x v <;> simp

@[simp] theorem arriveControl_mem (s : State) (go : Bool) (n : NodeId) (t : Tag) : (arriveControl s go n t).mem = s.mem := by
  unfold arriveControl
  split <;> rfl

@[simp] theorem enter_mem {s : State} {die : Nat} {ch : ChanId} {c : Colour} {go : State → State} (hgo : ∀ t, (go t).mem = t.mem) :
    (enter s die ch c go).mem = s.mem := by
  unfold enter
  split <;> simp [hgo]

@[simp] theorem fetchBlock_mem (s : State) (n : NodeId) (p : Placed) (blk : Nat) (hdr : Word128) (code : List Word128) :
    (fetchBlock s n p blk hdr code).1.mem = s.mem := by
  fun_cases fetchBlock s n p blk hdr code <;> simp

@[simp] theorem markCommit_mem (s : State) (b : BInst) : (markCommit s b).mem = s.mem := by
  unfold markCommit
  split <;> simp

@[simp] theorem waitRoom_mem (s : State) (b : BInst) : (waitRoom s b).mem = s.mem := by
  unfold waitRoom
  split <;> simp

@[simp] theorem lateStep_mem (s : State) (b : BInst) (a : LateAct) : (lateStep s b a).1.mem = s.mem := by
  fun_cases lateStep s b a <;> simp +zetaDelta [*]
  split <;> simp

@[simp] theorem lateAct_mem (s : State) (b : BInst) : (lateAct s b).mem = s.mem := by
  fun_cases lateAct s b <;> simp +zetaDelta

@[simp] theorem beginLate_mem (s : State) (b : BInst) (e : Exit) : (beginLate s b e).mem = s.mem := lateAct_mem _ _

@[simp] theorem collTouch_mem (o : EngOp) (c : CollDesc) (n i : Nat) (s : State) : (collTouch o c n i s).mem = s.mem := by
  fun_induction collTouch o c n i s <;> simp [*]

@[simp] theorem withdrawBrk_wf (s : State) (b : BInst) (hw : memWf s.mem = true) : memWf (withdrawBrk s b).mem = true := by
  unfold withdrawBrk
  simp [hw]

@[simp] theorem expireFiring_wf (s : State) (f : Firing) (hw : memWf s.mem = true) : memWf (expireFiring s f).mem = true := by
  unfold expireFiring
  split
  · exact hw
  · refine deliverRecord_wf _ _ _ _ ?_
    dsimp only
    split <;> simp [hw]

@[simp] theorem startReady_wf (s : State) (l : List BInst) (hw : memWf s.mem = true) : memWf (l.foldl startChained s).mem = true :=
  foldl_wf _ (fun st b hs => startChained_wf st b hs) l s hw

/-! #### Events whose writes can fail, or are several -/

theorem keepsMem_same (s : State) : KeepsMem s (.next s) := keepsMem (fun hw => hw)

theorem keepsMem_releasePerformed (cell seq : Nat) (s : State) : KeepsMem s (execReleasePerformed cell seq s) := by
  fun_cases execReleasePerformed cell seq s
  case case3 b _ _ o r all s1 =>
    refine keepsMem (fun hw => ?_)
    have hrel : memWf r.1.mem = true := performRels_wf o b.inv s [] b.effs hw
    rw [putInst_mem]
    unfold s1
    split
    · exact homeWrites_wf _ _ _ (releaseInv_wf _ _ _ hrel)
    · exact hrel
  all_goals exact keepsMem_same s

theorem keepsMem_chunkComplete (op chunk : Nat) (s : State) : KeepsMem s (execChunkComplete op chunk s) := by
  fun_cases execChunkComplete op chunk s
  case case4 hc _ _ _ => exact keepsMem (fun hw => by simp [copyPoints_wf hw hc])
  case case5 hc _ _ hb => exact keepsMem (fun hw => by simp [setChunkBit_wf (copyPoints_wf hw hc) hb])
  all_goals exact keepsMem (fun hw => hw)

theorem keepsMem_copyComplete (op : Nat) (s : State) : KeepsMem s (execCopyComplete op s) := by
  fun_cases execCopyComplete op s
  case case4 hc => exact keepsMem (fun hw => by simp [copyPoints_wf hw hc])
  all_goals exact keepsMem (fun hw => hw)

theorem keepsMem_streamTile (op : Nat) (s : State) : KeepsMem s (execStreamTile op s) := by
  fun_cases execStreamTile op s
  case case4 hc => exact keepsMem (fun hw => by simp [copyPoints_wf hw hc])
  all_goals exact keepsMem (fun hw => hw)

theorem keepsMem_eventRecord (spire : Nat) (s : State) : KeepsMem s (execEventRecord spire s) := by
  fun_cases execEventRecord spire s
  case case3 freed _ _ _ _ hr => exact keepsMem (fun hw => ringEvent_wf (s := freed) hw hr)
  case case5 freed _ _ _ _ hs => exact keepsMem (fun hw => signalOp_wf (s := freed) hw hs)
  case case6 =>
    refine keepsMem (fun hw => ?_)
    split
    · exact hw
    · exact evFault_wf _ _ _ hw
  all_goals exact keepsMem (fun hw => hw)

theorem keepsMem_lanternCommitToken (n : NodeId) (c : Colour) (s : State) : KeepsMem s (execLanternCommitToken n c s) := by
  fun_cases execLanternCommitToken n c s
  case case6 hc => exact keepsMem (fun hw => by simpa using commitTable_wf hw hc)
  case case5 =>
    refine keepsMem (fun hw => ?_)
    split <;> simp [hw]
  all_goals exact keepsMem (fun hw => by simp [hw])

theorem keepsMem_draftWalkDone (op : Nat) (s : State) : KeepsMem s (execDraftWalkDone op s) := by
  fun_cases execDraftWalkDone op s
  case case4 len bytes wr out _ tell s2 =>
    refine keepsMem (fun hw => ?_)
    have hlen : memWf len.1.mem = true := by
      unfold len
      split <;> simp [hw]
    have hwr (u : State) (h : wr = .ok u) : memWf u.mem = true := by
      unfold wr at h
      split at h
      · exact devStore_wf hlen h
      · cases h
    have hout : memWf out.1.mem = true := by
      unfold out
      clear_value wr
      cases wr with
      | ok u => exact hwr u rfl
      | error e => exact hlen
    have htell (st : State) (e : Option Report) (h : memWf st.mem = true) : memWf (tell st e).mem = true := by
      unfold tell
      split <;> simp [h]
    rw [reportOp_mem]
    exact htell _ _ (htell _ _ (by simpa using hout))
  all_goals exact keepsMem_same s

theorem keepsMem_signal (w : BitVec 4) (q : BitVec 6) (s : State) : KeepsMem s (execSignal w q s) := by
  fun_cases execSignal w q s
  case case4 run _ =>
    refine keepsMem_runPkt (fun u i d hu => ?_)
    split
    next hr =>
      have hu2 := signalOp_wf hu hr
      split <;> simp [hu2]
    · exact hu
  all_goals exact keepsMem (fun hw => by simp [hw])

theorem keepsMem_policySwap (w : BitVec 4) (q : BitVec 6) (s : State) : KeepsMem s (execPolicySwap w q s) := by
  fun_cases execPolicySwap w q s
  case case5 => exact keepsMem_runPkt (fun u i d hu => by simp [hu])
  all_goals exact keepsMem (fun hw => by simp [hw])

theorem keepsMem_linkDown (s : State) : KeepsMem s (execLinkDown s) := by
  unfold execLinkDown
  refine keepsMem (fun hw => ?_)
  rw [foldl_mem _ (fun st w => setWorld_mem st w _)]
  exact hw

/-! #### Every step keeps memory in its canonical form -/

/-- Every instruction and event keeps memory canonical: it is one of the shared operations, which do, or every branch of its
meaning ends in operations that do. -/
theorem keepsMem_exec (i : Instr) (s : State) : KeepsMem s (exec i s) := by
  cases i with
  -- Instructions that read their operands and then act on their own.
  | steer h p | drop h p | spawn h p | recol h p | trap h p | brk h p | rdsr h p | wrsr h p | yield h p | halt h p | hrd h p | hwr h p | fmtld h p
  | fmtrd h p | fmtsync h p | qblk h p =>
    dsimp only [exec, execSteer, execDrop, execSpawn, execRecol, execTrap, execBrk, execRdsr, execWrsr, execYield, execHalt, execHrd,
      execHwr, execFmtld, execFmtrd, execFmtsync, execQblk]
    refine keepsMem_withOps _ _ _ _ _ (fun hw b xs => ?_)
    repeat' split
    all_goals simp [hw]
  | achk h p | liota h p =>
    dsimp only [exec]
    exact keepsMem_pureOp _ _ _ _ _
  -- Control, counters and loop nests.
  | exitEnd h p | br h p | brx h p =>
    dsimp only [exec]
    exact keepsMem_exitOp _ _ _ _
  | emit h p | merge h p | gate h p | iter h p =>
    dsimp only [exec]
    exact keepsMem_routeOp _ _ _ _
  | cntld h p | cntrd h p | cntstep h p =>
    dsimp only [exec]
    exact keepsMem_counterOp _ _ _ _ _
  | gotx h p | haltx h p =>
    dsimp only [exec]
    exact keepsMem_ctlOp _ _ _ _
  | lncpy h p | lnadd h p | lnsub h p | lnmul h p | lnfma h p | lnmax h p | lnmin h p | lndif h p | lnsum h p | lnrmx h p | lnrmn h p | lndot h p =>
    dsimp only [exec]
    exact keepsMem_nestOp _ _ _ _
  -- Integers, addresses, floats, lanes and conversions.
  | iadd h p | iadds h p | isub h p | isubs h p | imul h p | imulh h p | idiv h p | irem h p | ineg h p | iabs h p | imin h p | imax h p | imad h p
  | iclamp h p | andBits h p | orBits h p | xorBits h p | notBits h p | andn h p | shl h p | shr h p | shra h p | rotl h p | popc h p | clz h p
  | ctz h p | brev h p | bfx h p | bfi h p | icmpeq h p | icmpne h p | icmplt h p | icmple h p | icmpgt h p | icmpge h p | sel h p | mov h p =>
    dsimp only [exec]
    exact keepsMem_intOp _ _ _ _
  | aadd h p | amad h p | asub h p =>
    dsimp only [exec]
    exact keepsMem_addrOp _ _ _ _
  | fadd h p | fsub h p | fmul h p | fma h p | fms h p | fnma h p | fdiv h p | fsqrt h p =>
    dsimp only [exec]
    exact keepsMem_roundOp _ _ _ _
  | fmin h p | fmax h p | fneg h p | fabs h p | fcpys h p | fcmpeq h p | fcmpne h p | fcmplt h p | fcmple h p | fcmpun h p | fclass h p =>
    dsimp only [exec]
    exact keepsMem_floatOp _ _ _ _
  | frint h p | lscan h p | cvti h p | cvtf h p =>
    dsimp only [exec]
    exact keepsMem_fmtOp _ _ _ _ _
  | exp2 h p | log2 h p | rcp h p | rsq h p | tanh h p | sin h p =>
    dsimp only [exec]
    exact keepsMem_transOp _ _ _ _
  | lbcast h p | lshuf h p | lrot h p | lsel h p | vmask h p | vget h p =>
    dsimp only [exec]
    exact keepsMem_slotOp _ _ _ _
  | rsum h p | rmax h p | rmin h p =>
    dsimp only [exec]
    exact keepsMem_floatReduce _ _ _ _
  | risum h p | rimax h p | rimin h p | rand h p | ror h p =>
    dsimp only [exec]
    exact keepsMem_intReduce _ _ _ _
  | cvt h p | cvpk2 h p | unpk2 h p | unpk4 h p | qapply h p =>
    dsimp only [exec]
    exact keepsMem_cvtOp _ _ _ _ _ _
  | cvpk4 h p =>
    dsimp only [exec, execCvpk4]
    exact keepsMem_cvtOp _ _ _ _ _ _
  -- The matrix engine.
  | mset h p | mrow h p | mrows h p | mout h p | mclr h p | mstat h p | mkin h p =>
    dsimp only [exec, execMset, execMrow, execMrows, execMout, execMclr, execMstat, execMkin]
    refine keepsMem_matrixOp (fun hw b xs => ?_)
    repeat' split
    all_goals simp [hw]
  | mldb h p | mldt h p =>
    dsimp only [exec]
    exact keepsMem_panelOp _ _ _ _
  | mdrain h p | mkout h p =>
    dsimp only [exec]
    exact keepsMem_drainOp _ _ _ _ _ _
  -- Memory, waits, engines and quotas.
  | ld h p | ldt h p =>
    dsimp only [exec]
    exact keepsMem_loadOp _ _ _ _ _ _
  | ldacq h p =>
    dsimp only [exec, execLdacq]
    exact keepsMem_loadOp _ _ _ _ _ _
  | stt h p | ldg h p | stsc h p | phase h p | fence h p | binit h p | barr h p | waita h p | cpys h p | slotf h p | shdw h p | shdwQry h p
  | publ h p | evq h p | coll h p | draft h p | lgbind h p | st h p | strel h p =>
    dsimp only [exec, execStt, execLdg, execStsc, execPhase, execFence, execBinit, execBarr, execWaita, execCpys, execSlotf, execShdw,
      execShdwQry, execPubl, execEvq, execColl, execDraft, execLgbind, execSt, execStrel]
    refine keepsMem_memOp _ _ _ (fun hw b xs => ?_)
    repeat' split
    all_goals simp [hw]
  | pref h p | resid h p | evict h p =>
    dsimp only [exec, execPref, execResid, execEvict]
    refine keepsMem_hintOp (fun u a hw => ?_)
    simp [hw]
  | atadd h p | atand h p | ator h p | atxor h p | atmin h p | atmax h p | atxch h p | atcas h p =>
    dsimp only [exec]
    exact keepsMem_intAtomic _ _ _ _
  | atfadd h p =>
    dsimp only [exec, execAtfadd]
    exact keepsMem_atomicOp _ _ _ _ _ _ _ _ _
  | bwait h p | waitb h p =>
    dsimp only [exec]
    exact keepsMem_waitOp _ _ _ _ _
  | cpy h p =>
    dsimp only [exec]
    exact keepsMem_copyOp _ _ _ _
  | quota h p | tagfree h p | purge h p =>
    dsimp only [exec, execQuota, execTagfree, execPurge]
    refine keepsMem_quotaOp (fun hw b xs => ?_)
    repeat' split
    all_goals simp [hw]
  | quotaTag h p | stallt h p =>
    dsimp only [exec, execQuotaTag, execStallt]
    refine keepsMem_quotaOp (fun hw b xs => ?_)
    split
    · simp [hw]
    · dsimp only
      split <;> simp [hw]
  -- Logit programs and policies.
  | lgAdd d a b | lgSub d a b | lgMul d a b | lgFma d a b c | lgAddi d a imm | lgMuli d a imm | lgRcp d a | lgExp2 d a | lgLog2 d a =>
    dsimp only [exec]
    exact keepsMem_logitRound _ _ _
  | lgMovi d imm | lgMov d a | lgMax d a b | lgMin d a b | lgNeg d a | lgAbs d a | lgSel d a b c | lgMask a =>
    dsimp only [exec]
    exact keepsMem_logitOp _ _
  | lgCmplt d a b | lgCmple d a b | lgCmpeq d a b =>
    dsimp only [exec]
    exact keepsMem_logitCmp _ _ _ _ _
  | lgEnd =>
    dsimp only [exec, execLgEnd]
    repeat' split
    all_goals refine keepsMem (fun hw => ?_)
    all_goals simp [hw]
  | polAdd d a b | polSub d a b | polMul d a b | polAnd d a b | polOr d a b | polXor d a b | polShl d a b | polShr d a b | polMin d a b
  | polMax d a b | polSltu d a b | polSeq d a b =>
    dsimp only [exec]
    exact keepsMem_polBin _ _ _ _ _
  | polCsel d a b | polLdi d imm | polLdis d imm | polAddi d a imm | polAndi d a imm | polShli d a imm | polShri d a imm | polRdc d a imm
  | polRdq d a imm | polRdr d a imm | polRdw d imm | polRdd d imm =>
    dsimp only [exec]
    exact keepsMem_polSet _ _ _
  | polBrz a imm | polBrnz a imm | polJmp imm | polForeach d imm | polNext =>
    dsimp only [exec]
    exact keepsMem_polStep _ _
  | polPick a | polPreempt a | polDefer | polKill a =>
    dsimp only [exec]
    exact keepsMem_polOutcome _ _
  -- Events with a single outcome.
  | goToken n tag | haltToken n tag | belfryDisable w | tinval w v | powerPeriod | thermalLimit die | cxlSnoop pa | bkptStep k | bkptDisarm k
  | debugBreakWrite w on | badcClear spire | qspireClear mask | registerWrite offset v | frauthPortTrain port rate | frauthPortDown port
  | flitReplay port | temperatureChange die tj dram | creditReturn c colour | hostWriteLiveWord pa v | coldReset
  | hostLinkTrain gen width cxl | pldmMonitor | pldmFirmwareUpdate image =>
    dsimp only [exec, execGoToken, execHaltToken, execBelfryDisable, execTinval, execPowerPeriod, execThermalLimit, execCxlSnoop,
      execBkptStep, execBkptDisarm, execDebugBreakWrite, execBadcClear, execQspireClear, execRegisterWrite, execFrauthPortTrain,
      execFrauthPortDown, execFlitReplay, execTemperatureChange, execCreditReturn, execHostWriteLiveWord, execColdReset, execHostLinkTrain,
      execPldmMonitor, execPldmFirmwareUpdate]
    refine keepsMem (fun hw => ?_)
    repeat' split
    all_goals simp [hw]
  -- Events whose every branch ends in operations that keep memory.
  | tokenAccept c colour | tokenSend c colour =>
    dsimp only [exec, execTokenAccept, execTokenSend]
    repeat' split
    all_goals refine keepsMem (fun hw => ?_)
    all_goals simp [hw]
  | firingChoice cell | blockFetch cell node blk | memoryResponse cell seq | translationWalk cell colour va | instanceCommit cell
  | loopNestOuterPoint cell | formatChangeReach x cell | monitorEvent cell seq | waitTimeout cell seq =>
    dsimp only [exec, execFiringChoice, execBlockFetch, execMemoryResponse, execTranslationWalk, execInstanceCommit,
      execLoopNestOuterPoint, execFormatChangeReach, execMonitorEvent, execWaitTimeout]
    repeat' split
    all_goals refine keepsMem (fun hw => ?_)
    all_goals simp [hw]
  | stallTimer n port colour | excDelivery x | watchdogExpiry cell seq | parityError c colour | hardFault c colour | partialTokenAbort c colour
  | purgeReset x | drainReceive w | belfrySwap w | belfryEnable w v =>
    dsimp only [exec, execStallTimer, execExcDelivery, execWatchdogExpiry, execParityError, execHardFault, execPartialTokenAbort,
      execPurgeReset, execDrainReceive, execBelfrySwap, execBelfryEnable]
    repeat' split
    all_goals refine keepsMem (fun hw => ?_)
    all_goals simp [hw]
  | engineFault op | noticeAccept cell | collComplete op | collTimeout op =>
    dsimp only [exec, execEngineFault, execNoticeAccept, execCollComplete, execCollTimeout]
    repeat' split
    all_goals refine keepsMem (fun hw => ?_)
    all_goals simp [hw]
  | streamHeader n colour | logitToken n colour | streamDraw n colour iter =>
    dsimp only [exec, execStreamHeader, execLogitToken, execStreamDraw]
    repeat' split
    all_goals refine keepsMem (fun hw => ?_)
    all_goals simp [hw]
  | launch w q img | abortPurge w q =>
    dsimp only [exec, execLaunch, execAbortPurge]
    refine keepsMem_runPkt (fun u i d hu => ?_)
    repeat' split
    all_goals simp [hu]
  | wait w q =>
    dsimp only [exec, execWait]
    split
    · exact keepsMem (fun hw => by simp [hw])
    · refine keepsMem_runPkt (fun u i d hu => ?_)
      simp [hu]
  | abortCancel w q | abortKill w q =>
    dsimp only [exec, execAbortCancel, execAbortKill]
    split
    · exact keepsMem (fun hw => by simp [hw])
    · refine keepsMem_runPkt (fun u i d hu => ?_)
      simp [hu]
  | waitPacketTimeout w q | queueStart w q | queueStop w q | queueResume w q quar | queueClearQuar w q | ridxWrite w q v =>
    dsimp only [exec, execWaitPacketTimeout, execQueueStart, execQueueStop, execQueueResume, execQueueClearQuar, execRidxWrite]
    repeat' split
    all_goals refine keepsMem (fun hw => ?_)
    all_goals simp [hw]
  | dispatchDecision w slot => exact ⟨fun hw _ h => execDispatchDecision_wf hw h⟩
  | preemptDecision w task => exact ⟨fun hw _ h => execPreemptDecision_wf hw h⟩
  | faultDecision w task => exact ⟨fun hw _ h => execFaultDecision_wf hw h⟩
  | policyBudgetExpiry w => exact ⟨fun hw _ h => execPolicyBudgetExpiry_wf hw h⟩
  | decisionCommit w => exact ⟨fun hw _ h => execDecisionCommit_wf hw h⟩
  | sliceExpiry w task | quarantineSliceExpiry w task =>
    dsimp only [exec, execSliceExpiry, execQuarantineSliceExpiry]
    repeat' split
    all_goals refine keepsMem (fun hw => ?_)
    all_goals simp [hw]
  | configPacket w task sec | launchComplete w task | recqTileSend w task | taskComplete w task | cutBegin x | markerArrive n | cutComplete x
  | saveDeadlineExpiry x | restore w task =>
    dsimp only [exec, execConfigPacket, execLaunchComplete, execRecqTileSend, execTaskComplete, execCutBegin, execMarkerArrive, execCutComplete,
      execSaveDeadlineExpiry, execRestore]
    repeat' split
    all_goals refine keepsMem (fun hw => ?_)
    all_goals simp [hw]
  -- Events whose writes can fail, or are several.
  | releasePerformed cell seq => exact keepsMem_releasePerformed cell seq s
  | chunkComplete op chunk => exact keepsMem_chunkComplete op chunk s
  | copyComplete op => exact keepsMem_copyComplete op s
  | streamTile op => exact keepsMem_streamTile op s
  | eventRecord spire => exact keepsMem_eventRecord spire s
  | lanternCommitToken n colour => exact keepsMem_lanternCommitToken n colour s
  | draftWalkDone op => exact keepsMem_draftWalkDone op s
  | signal w q => exact keepsMem_signal w q s
  | policySwap w q => exact keepsMem_policySwap w q s
  | linkDown => exact keepsMem_linkDown s
  -- Requests to SP, keys, functions and links.
  | create w prot sys cells granules | grant w cells granules | reclaim w cells granules | destroy w | keyInstall by_ w slot keys
  | keyRetire by_ w slot | kekInstall w kek | keyImport w kek blob nctrs | unlock token | unlockChallenge nonce | getTdispVersion w
  | getTdispCapabilities w | lockInterfaceRequest w | getDeviceInterfaceReport w | getDeviceInterfaceState w | startInterfaceRequest w
  | stopInterfaceRequest w | getMeasurements w | ideKm w | spdmSessionEstablish w =>
    dsimp only [exec]
    exact keepsMem_request (fun hw => by simp [hw])
  | keyWrap w | functionReady fn ok | frauthRequest w pa r =>
    dsimp only [exec, execKeyWrap, execFunctionReady, execFrauthRequest]
    repeat' split
    all_goals refine keepsMem (fun hw => ?_)
    all_goals simp [hw]

theorem keepsMem_runFocus (s : State) : KeepsMem s (runFocus s) := by
  fun_cases runFocus s
  case case1 => exact keepsMem (fun hw => tick_wf s 1 hw)
  case case2 i _ => exact keepsMem_exec i s
  case case3 => exact ⟨fun _ _ h => by cases h⟩

theorem keepsMem_moveStep (s : State) (m : Move) : KeepsMem s (moveStep s m) := by
  have hm (hw : memWf s.mem = true) : memWf (moveOnly s m).mem = true := moveOnly_wf s m hw
  cases m with
  | event i =>
    dsimp only [moveStep]
    split
    · exact keepsMem_exec i s
    · exact keepsMem_same s
  | run _ _ | policy _ | logit => exact Kf.from (keepsMem_runFocus _) hm
  | _ => exact keepsMem hm

/-- Settles O54: memory is canonical after every meaning, every tick and every move, so after the step that makes them. -/
theorem memoryFormKept : Obligations.MemoryFormKept := by
  unfold Obligations.MemoryFormKept
  intro s t hw ht
  cases ha : s.agenda with
  | nil => exact (keepsMem_runFocus s).go hw t (step_of_agenda_nil ha ▸ ht)
  | cons m l => exact (keepsMem_moveStep { s with agenda := l } m).go hw t (step_of_agenda_cons ha ▸ ht)

end Sys2Proof.Proofs
end

section
namespace Sys2Proof.Proofs
open Sys2Proof Sys2Proof.Machine Sys2Proof.Claims Sys2Proof.Laws

/-! ### Policy bytecodes (R328 to R334) -/

/-! #### Words of the policy machine as numbers -/

theorem eq_ofNat_of_toNat {x : Word64} {n : Nat} (h : x.toNat = n % 2 ^ 64) : x = BitVec.ofNat 64 n :=
  BitVec.eq_of_toNat_eq (by rw [h, BitVec.toNat_ofNat])

theorem add_word (x y : Word64) : x + y = BitVec.ofNat 64 (x.toNat + y.toNat) := eq_ofNat_of_toNat (BitVec.toNat_add x y)

theorem sub_word (x y : Word64) : x - y = BitVec.ofNat 64 (x.toNat + 2 ^ 64 - y.toNat) :=
  eq_ofNat_of_toNat (by have := y.isLt; rw [BitVec.toNat_sub]; omega)

theorem mul_word (x y : Word64) : x * y = BitVec.ofNat 64 (x.toNat * y.toNat) := eq_ofNat_of_toNat (BitVec.toNat_mul x y)

theorem and_word (x y : Word64) : x &&& y = BitVec.ofNat 64 (x.toNat &&& y.toNat) := by rw [← BitVec.toNat_and, w64]

theorem or_word (x y : Word64) : x ||| y = BitVec.ofNat 64 (x.toNat ||| y.toNat) := by rw [← BitVec.toNat_or, w64]

theorem xor_word (x y : Word64) : x ^^^ y = BitVec.ofNat 64 (x.toNat ^^^ y.toNat) := by rw [← BitVec.toNat_xor, w64]

theorem shl_word (x : Word64) (n : Nat) : x <<< n = BitVec.ofNat 64 (x.toNat * 2 ^ n) :=
  eq_ofNat_of_toNat (by rw [BitVec.toNat_shiftLeft, Nat.shiftLeft_eq])

theorem shr_word (x : Word64) (n : Nat) : x >>> n = BitVec.ofNat 64 (x.toNat / 2 ^ n) := by
  rw [← Nat.shiftRight_eq_div_pow, ← BitVec.toNat_ushiftRight, w64]

theorem min_word (x y : Word64) : (if x.toNat ≤ y.toNat then x else y) = BitVec.ofNat 64 (min x.toNat y.toNat) := by
  rw [Nat.min_def]
  split <;> rw [w64]

theorem max_word (x y : Word64) : (if x.toNat ≤ y.toNat then y else x) = BitVec.ofNat 64 (max x.toNat y.toNat) := by
  rw [Nat.max_def]
  split <;> rw [w64]

/-- A test's word is 1 or 0 as the test of the values says. -/
theorem test_word {p q : Prop} [Decidable p] [Decidable q] (h : p ↔ q) : (if p then (1 : Word64) else 0) = BitVec.ofNat 64 (if q then 1 else 0) := by
  by_cases hp : p
  · rw [if_pos hp, if_pos (h.1 hp)]; rfl
  · rw [if_neg hp, if_neg (mt h.2 hp)]; rfl

theorem zero_word_iff (x : Word64) : x = 0 ↔ x.toNat = 0 := BitVec.toNat_inj.symm

theorem choice_word {p q : Prop} [Decidable p] [Decidable q] (h : p ↔ q) (x y : Word64) :
    (if p then x else y) = BitVec.ofNat 64 (if q then x.toNat else y.toNat) := by
  by_cases hp : p
  · rw [if_pos hp, if_pos (h.1 hp), w64]
  · rw [if_neg hp, if_neg (mt h.2 hp), w64]

theorem immWord_toNat (i : BitVec 16) : (immWord i).toNat = i.toNat := by
  have := i.isLt
  rw [immN, BitVec.toNat_ofNat, Nat.mod_eq_of_lt (by omega)]

/-! #### Views and control flow -/

/-- Field n of a candidate, or of the subject at index 63 where no candidate has that index (R330). -/
theorem viewCand_eq (d : Decision) (i n : Nat) : viewCand d i n = (match d.cands[i]?, d.subject with
    | some c, _ => c.fields.getD n 0
    | none, some c => if i = 63 then c.fields.getD n 0 else 0
    | none, none => 0) := by
  unfold viewCand
  cases hc : d.cands[i]? with
  | some c =>
    obtain ⟨hi, -⟩ := List.getElem?_eq_some_iff.1 hc
    rw [if_pos hi]
    rfl
  | none =>
    rw [if_neg (Nat.not_lt.2 (List.getElem?_eq_none_iff.1 hc))]
    cases d.subject with
    | some c => rfl
    | none => split <;> rfl

/-- A live decision takes one bytecode's change with its count (R334). -/
theorem polStep_decides {s : State} {x : BitVec 4} {d : Decision} (hd : Decides s x d) (f : Decision → Decision) :
    polStep s f = .next (withDecision s x (f { d with count := d.count + 1 })) := by
  have hl : d.live = true := by
    unfold Decision.live
    rw [hd.open_]
    exact decide_eq_true hd.budget
  unfold polStep
  simp only [hd.focus, hd.here]
  exact if_pos hl

theorem foreach_goes {s : State} {x : BitVec 4} {d : Decision} (k : BitVec 4) (imm : BitVec 16) (hd : Decides s x d) :
    exec (.polForeach k imm) s = .next (withDecision s x (if d.cands = [] then { d with pc := imm.toNat + 1, count := d.count + 1 }
      else { d with regs := mput 0 d.regs k.toNat 0, pc := d.pc + 1, count := d.count + 1 })) := by
  show execPolForeach k imm s = _
  rw [execPolForeach, polStep_decides hd]
  dsimp only
  split <;> rfl

/-- NEXT steps its FOREACH's register and goes back while that is a candidate's index (R332). -/
theorem next_goes {s : State} {x : BitVec 4} {d : Decision} {i : Nat} {k : BitVec 4} (hd : Decides s x d) (hf : foreachOf 0 d.prog d.pc = some (i, k)) :
    let y : Word64 := BitVec.ofNat 64 ((mget (0 : Word64) d.regs k.toNat).toNat + 1)
    exec .polNext s = .next (withDecision s x
      { d with regs := mput 0 d.regs k.toNat y, pc := if y.toNat < d.cands.length then i + 1 else d.pc + 1, count := d.count + 1 }) := by
  intro y
  have hy : mget (0 : Word64) d.regs k.toNat + 1 = y := add_word _ _
  show execPolNext s = _
  rw [execPolNext, polStep_decides hd]
  dsimp only
  rw [hf]
  dsimp only [qput, qreg, goto]
  simp only [mget_mput_same, hy]

/-! #### The obligations -/

/-- Settles O37: each bytecode that writes by its value as a number, and each that goes on by its index. -/
theorem policyBytecodes : Obligations.PolicyBytecodes := by
  unfold Obligations.PolicyBytecodes
  refine ⟨fun k a b => ⟨?_, ?_, ?_, ?_, ?_, ?_, ?_, ?_, ?_, ?_, ?_, ?_, ?_⟩, fun k a imm => ⟨?_, ?_, ?_, ?_, ?_, ?_, ?_, ?_, ?_, ?_, ?_, ?_, ?_, ?_, ?_⟩,
    fun s x d i k hd hf => next_goes hd hf⟩
  · exact pol_bin (xAdd k a b) (fun _ _ => add_word _ _)
  · exact pol_bin (xSub k a b) (fun _ _ => sub_word _ _)
  · exact pol_bin (xMul k a b) (fun _ _ => mul_word _ _)
  · exact pol_bin (xAnd k a b) (fun _ _ => and_word _ _)
  · exact pol_bin (xOr k a b) (fun _ _ => or_word _ _)
  · exact pol_bin (xXor k a b) (fun _ _ => xor_word _ _)
  · exact pol_bin (xShl k a b) (fun _ _ => shl_word _ _)
  · exact pol_bin (xShr k a b) (fun _ _ => shr_word _ _)
  · exact pol_bin (xMin k a b) (fun _ _ => min_word _ _)
  · exact pol_bin (xMax k a b) (fun _ _ => max_word _ _)
  · exact pol_bin (xSltu k a b) (fun _ _ => test_word Iff.rfl)
  · exact pol_bin (xSeq k a b) (fun _ _ => test_word BitVec.toNat_inj.symm)
  · exact pol_puts (xCsel k a b) (fun _ _ => choice_word (not_congr (zero_word_iff _)) _ _)
  · exact pol_puts (xLdi k imm) (fun _ _ => immN imm)
  · exact pol_puts (xLdis k imm) (fun _ _ => or_low _ imm)
  · exact pol_puts (xAddi k a imm) (fun _ _ => by rw [add_word, immWord_toNat]; rfl)
  · exact pol_puts (xAndi k a imm) (fun _ _ => by rw [and_word, immWord_toNat]; rfl)
  · exact pol_puts (xShli k a imm) (fun _ _ => shl_word _ _)
  · exact pol_puts (xShri k a imm) (fun _ _ => shr_word _ _)
  · exact pol_puts (xRdc k a imm) (fun d _ => congrArg (BitVec.ofNat 64) (viewCand_eq d _ _))
  · exact pol_puts (xRdq k a imm) (fun _ _ => rfl)
  · exact pol_puts (xRdr k a imm) (fun _ _ => rfl)
  · exact pol_puts (xRdw k imm) (fun _ _ => rfl)
  · exact pol_puts (xRdd k imm) (fun _ _ => rfl)
  · exact pol_goes (xBrz a imm) (fun _ _ => by unfold goto; simp only [zero_word_iff]; rfl)
  · exact pol_goes (xBrnz a imm) (fun _ _ => by unfold goto; simp only [ne_eq, zero_word_iff]; rfl)
  · exact pol_goes (xJmp imm) (fun _ _ => rfl)
  · exact fun s x d hd => foreach_goes k imm hd

/-- The end of the budget: the fallback decides, and the slot counts it (R334, R338). -/
theorem budgetExpiry_decides {s : State} {w : BitVec 4} {d : Decision} (hd : (worldOf s w).decision = some d) (ho : d.outcome = none) :
    (d.count < 512 → exec (.policyBudgetExpiry w) s = .next s)
    ∧ (512 ≤ d.count → ∃ t, exec (.policyBudgetExpiry w) s = .next t ∧ t = { s with worlds := t.worlds }
      ∧ (∃ o, Fallback d o ∧ (worldOf t w).decision = some { d with outcome := some o })
      ∧ (mget {} (worldOf t w).policies d.slot).budg = min ((mget {} (worldOf s w).policies d.slot).budg + 1) 0xFFFF) := by
  have he : exec (.policyBudgetExpiry w) s = if d.count < 512 then .next s else .next (setWorld s w { worldOf s w with
      decision := some { d with outcome := some (fallbackOf d) }
      policies := mupd {} (worldOf s w).policies d.slot (fun p => { p with budg := min (p.budg + 1) 0xFFFF }) }) := by
    show execPolicyBudgetExpiry w s = _
    simp only [execPolicyBudgetExpiry, hd, ho, policyBudget, Option.isSome_none, Bool.false_or]
    exact if_congr decide_eq_true_iff rfl rfl
  refine ⟨fun hc => he.trans (if_pos hc), fun hc => ⟨_, he.trans (if_neg (Nat.not_lt.2 hc)), rfl, ⟨_, fallback_ok d, ?_⟩, ?_⟩⟩
  · rw [worldOf_setWorld]
  · rw [worldOf_setWorld]
    unfold mupd
    rw [mget_mput_same]

/-- Settles O38: each outcome bytecode by its choice, and the end of the budget by the fallback. -/
theorem policyOutcomes : Obligations.PolicyOutcomes := by
  unfold Obligations.PolicyOutcomes
  refine ⟨fun a => ⟨?_, ?_, ?_⟩, ?_, fun s w d hd ho => budgetExpiry_decides hd ho⟩
  · exact pol_ends (g := fun d => if d.kind = 0 then (candAt d a).map .pick else none) (fun _ => rfl) (fun _ => rfl)
  · exact pol_ends (g := fun d => if d.kind = 1 then (candAt d a).map .preempt else none) (fun _ => rfl) (fun _ => rfl)
  · exact pol_ends (g := fun d => if (qreg d a).toNat = 63 then (if d.kind = 0 then none else some .killSubject)
      else if d.kind = 2 then none else (candAt d a).map .kill) (fun _ => rfl) (fun _ => rfl)
  · exact pol_ends (g := fun _ => some .defer) (fun _ => rfl) (fun _ => rfl)

end Sys2Proof.Proofs
end

section
namespace Sys2Proof.Proofs
open Sys2Proof Sys2Proof.Machine Sys2Proof.Claims Sys2Proof.Laws

/-! ### Mapping instructions (R271 to R273, R275) -/

/-- A tensor that was named is what its entry reads as. -/
theorem named_eq {s : State} {w : BitVec 4} {c : Colour} {tid : Nat} {t : Tensor} (h : namedTensor s w c tid = .ok t) : readTensor s.mem t.addr = t :=
  (named_read h).1.symm

theorem told_named {s : State} {w : BitVec 4} {c : Colour} {tid : Nat} {t : Tensor} (h : namedTensor s w c tid = .ok t) (k : Nat) :
    told k t (mapVal k (readTensor s.mem t.addr)) := by
  rw [named_eq h]
  exact told_map k t

/-! #### The steps at the home -/

theorem shadowStep_open {s : State} {t : Tensor} (buf : Nat) (ho : t.shopen = true) : shadowStep s t buf = (s, 1) := if_pos ho

theorem publishStep_closed {s : State} {t : Tensor} (ho : t.shopen = false) : publishStep s t = (s, 1) := by
  unfold publishStep
  rw [ho]
  rfl

theorem publishStep_last {s : State} {t : Tensor} (ho : t.shopen = true) (hv : t.version = 2 ^ 32 - 1) : publishStep s t = (s, 2) := by
  unfold publishStep
  rw [ho, hv]
  rfl

/-! #### SHDW (R272) -/

section
variable {h : Hdr} {p : PayE} {s : State} {b : BInst} {x y : Val} {tid : Slot} {buf : Nat} {t : Tensor}
  (hf : MemFires h s b [x, y]) (hx : slotOf x 0 = some tid) (hy : baseOf false y = some buf)
  (ht : namedTensor s b.node.w b.tag.colour tid.toNat = .ok t)
include hf hx hy ht

theorem shdw_outOfRange (hb : buf % 64 ≠ 0 ∨ 2 ^ 57 < buf + t.size) :
    exec (.shdw h p) s = .next (raise s b { cause := .addrOverflow, addr := buf }) := by
  refine (memOp_fires' _ hf).trans (congrArg _ ?_)
  dsimp only
  rw [List.getD_cons_zero, List.getD_cons_succ, List.getD_cons_zero, hx, hy]
  dsimp only
  rw [ht]
  exact if_pos hb

theorem shdw_notOther (hb : ¬ (buf % 64 ≠ 0 ∨ 2 ^ 57 < buf + t.size)) (hm : t.mode = 1 ∧ buf ≠ xtsBase tid.toNat + (1 - t.sel) * 2 ^ 31) :
    exec (.shdw h p) s = .next (raise s b { cause := .permission, addr := buf }) := by
  refine (memOp_fires' _ hf).trans (congrArg _ ?_)
  dsimp only
  rw [List.getD_cons_zero, List.getD_cons_succ, List.getD_cons_zero, hx, hy]
  dsimp only
  rw [ht]
  exact (if_neg hb).trans (if_pos hm)

/-- SHDW with nothing held is its step at the home, and the delivery waits for the answer. -/
theorem shdw_steps (hb : ¬ (buf % 64 ≠ 0 ∨ 2 ^ 57 < buf + t.size)) (hm : ¬ (t.mode = 1 ∧ buf ≠ xtsBase tid.toNat + (1 - t.sel) * 2 ^ 31))
    (hn : NothingHeld s b) {u : State} {k : Nat} (hk : shadowStep s t buf = (u, k)) :
    exec (.shdw h p) s = .next (putInst u (awaits h (markDurable b) (mapVal k (readTensor u.mem t.addr)) (k == 0))) := by
  refine (memOp_fires' _ hf).trans (congrArg _ ?_)
  dsimp only
  rw [List.getD_cons_zero, List.getD_cons_succ, List.getD_cons_zero, hx, hy]
  dsimp only
  rw [ht]
  refine (if_neg hb).trans ((if_neg hm).trans ?_)
  rw [releaseOverlap_nil hn, named_eq ht, hk]
  rfl

end

/-! #### SHDW.qry and PUBL (R272, R273) -/

section
variable {h : Hdr} {p : PayE} {s : State} {b : BInst} {x : Val} {tid : Slot} (hf : MemFires h s b [x]) (hx : slotOf x 0 = some tid)
include hf hx

section
variable {r : Report} (hr : namedTensor s b.node.w b.tag.colour tid.toNat = .error r)
include hr

theorem shdwQry_refused : exec (.shdwQry h p) s = .next (raise s b r) := by
  refine (memOp_fires' _ hf).trans (congrArg _ ?_)
  rw [List.getD_cons_zero, hx]
  dsimp only
  rw [hr]

theorem publ_refused : exec (.publ h p) s = .next (raise s b r) := by
  refine (memOp_fires' _ hf).trans (congrArg _ ?_)
  dsimp only
  rw [List.getD_cons_zero, hx]
  dsimp only
  rw [hr]

end

variable {t : Tensor} (ht : namedTensor s b.node.w b.tag.colour tid.toNat = .ok t)
include ht

theorem shdwQry_reads : exec (.shdwQry h p) s = .next (putInst (acquire s b p.scope) (awaits h b (mapVal 0 t) true)) := by
  refine (memOp_fires' _ hf).trans (congrArg _ ?_)
  rw [List.getD_cons_zero, hx]
  dsimp only
  rw [ht]
  rfl

/-- PUBL with nothing held is its step at the home, and the delivery waits for the answer. -/
theorem publ_steps (hn : NothingHeld s b) {u : State} {k : Nat} (hk : publishStep s t = (u, k)) :
    exec (.publ h p) s = .next (putInst u (awaits h (markDurable b) (mapVal k (readTensor u.mem t.addr)) (k == 0))) := by
  refine (memOp_fires' _ hf).trans (congrArg _ ?_)
  dsimp only
  rw [List.getD_cons_zero, hx]
  dsimp only
  rw [ht]
  dsimp only
  rw [releaseNow_nil hn, named_eq ht, hk]
  rfl

end

/-- An instance takes its place among instances that are the same. -/
theorem putInst_insts_of {s u : State} (b : BInst) (hu : u.insts = s.insts) : (putInst u b).insts = (putInst s b).insts := by
  unfold putInst
  rw [hu]

/-! #### SLOTF and EVQ (R271, R275) -/

section
variable {h : Hdr} {p : PayE} {s : State} {b : BInst} {x : Val} (hf : MemFires h s b [x])
include hf

theorem slotf_sends {hd t k : Slot} (h0 : slotOf x 0 = some hd) (h1 : slotOf x 1 = some t) (h2 : slotOf x 2 = some k) :
    exec (.slotf h p) s = .next (putInst s (adds b [.rel (.phase p.scope), .notice
      { cell := field hd.toNat 0 7 + 128 * field hd.toNat 7 7, w := b.node.w, tag := b.tag, place := field hd.toNat 14 3
        epoch := field hd.toNat 17 15, tile := t.toNat, slot := k.toNat }])) := by
  refine (memOp_fires' _ hf).trans (congrArg _ ?_)
  dsimp only
  rw [List.getD_cons_zero, h0, h1, h2]
  simp only [adds, advance, addEff, List.append_assoc, List.singleton_append, bits_field]

theorem slotf_invalid (hx : slotOf x 0 = none ∨ slotOf x 1 = none ∨ slotOf x 2 = none) :
    exec (.slotf h p) s = .next (putInst s (adds b [.rel (.phase p.scope)])) := by
  refine (memOp_fires' _ hf).trans (congrArg _ ?_)
  dsimp only
  rw [List.getD_cons_zero]
  split
  · next h0 h1 h2 => simp [h0, h1, h2] at hx
  · rfl

theorem evq_waitAhead (hw : waitAhead b = true) : exec (.evq h p) s = .next (putInst s (adds b [.rel (.phase p.scope), .evq p.ectl.toNat x])) := by
  refine (memOp_fires' _ hf).trans (congrArg _ ?_)
  refine (if_pos hw).trans ?_
  simp only [adds, advance, addEff, List.append_assoc, List.singleton_append, List.getD_cons_zero]

theorem evq_releases (hw : waitAhead b = false) (hn : NothingHeld s b) :
    exec (.evq h p) s = .next (putInst s (adds (markDurable b) [.evq p.ectl.toNat x])) := by
  refine (memOp_fires' _ hf).trans (congrArg _ ?_)
  refine (if_neg (by rw [hw]; exact Bool.false_ne_true)).trans ?_
  rw [releaseNow_nil hn]
  rfl

end

/-- Settles O32: SHDW by its checks and the shadow's step, PUBL by its three statuses, SLOTF and EVQ by what they leave to the commit. -/
theorem mappingInstructions : Obligations.MappingInstructions := by
  unfold Obligations.MappingInstructions
  refine ⟨fun h p s b x y tid buf t hf hx hy ht => ⟨shdw_outOfRange hf hx hy ht, fun ha hs hm hb => ?xts, fun ha hs hm hn => ?shdw⟩,
    fun h p s b x tid t hf hx ht => ⟨⟨mapVal 0 t, told_map 0 t, ?qry⟩, fun hn => ?publ⟩,
    fun h p s b x tid r hf hx hr => ⟨shdwQry_refused hf hx hr, publ_refused hf hx hr⟩,
    fun h p s b x hf => ⟨fun hd t k => slotf_sends hf, slotf_invalid hf, evq_waitAhead hf, evq_releases hf⟩⟩
  case xts => exact shdw_notOther hf hx hy ht (by omega) ⟨hm, hb⟩
  case shdw =>
    have hsteps := fun {u k} => @shdw_steps h p s b x y tid buf t hf hx hy ht (by omega) (fun hc => hc.2 (hm hc.1)) hn u k
    obtain ⟨-, hsel, -, hopen⟩ := named_read ht
    cases hsh : t.shopen with
    | true => exact ⟨_, _, hsteps (shadowStep_open buf hsh), rfl, fun _ => ⟨rfl, told_named ht 1⟩, nofun⟩
    | false =>
      obtain ⟨u, hu, hinsts, hrest⟩ := shadow_spec s t buf (by omega) hsel hopen hsh
      exact ⟨_, _, hsteps hu, putInst_insts_of _ hinsts, nofun, fun _ => ⟨told_map 0 _, hrest⟩⟩
  case qry =>
    rw [shdwQry_reads hf hx ht]
    exact replaces_put (acquire_only s b p.scope)
  case publ =>
    obtain ⟨-, hsel, hver, hopen⟩ := named_read ht
    cases hsh : t.shopen with
    | false => exact ⟨_, _, publ_steps hf hx ht hn (publishStep_closed hsh), rfl, fun _ => ⟨rfl, told_named ht 1⟩, nofun, nofun⟩
    | true =>
      by_cases hv : t.version = 2 ^ 32 - 1
      · exact ⟨_, _, publ_steps hf hx ht hn (publishStep_last hsh hv), by rw [decide_eq_false (fun hc => hc.2 hv)]; rfl, nofun,
          fun _ _ => ⟨rfl, told_named ht 2⟩, fun _ hn => absurd hv hn⟩
      · obtain ⟨u, hu, hinsts, hrest⟩ := publish_spec s t hsel hver hopen hsh hv
        exact ⟨_, _, publ_steps hf hx ht hn hu, by rw [decide_eq_true ⟨rfl, hv⟩]; exact putInst_insts_of _ hinsts, nofun,
          fun _ hl => absurd hl hv, fun _ _ => ⟨told_map 0 _, hrest⟩⟩

end Sys2Proof.Proofs
end

section
namespace Sys2Proof.Proofs
open Sys2Proof Sys2Proof.Machine Sys2Proof.Claims Sys2Proof.Laws

/-! ### Quota instructions (R294, R298 to R302) -/

/-! #### The checks of an instruction's words -/

/-- What QUOTA asks of its words and of its port. -/
def quotaGood (c w : Slot) (pl : Placed) (port : Nat) : Prop :=
  c.toNat < 2 ^ 8 ∧ field w.toNat 7 1 = 0 ∧ w.toNat < 2 ^ 16 ∧ field w.toNat 0 7 ≤ 64 ∧ (field w.toNat 0 7 = 0 → field w.toNat 8 8 = 0) ∧ isInput pl port = true

theorem field_16_16 (w : Slot) : field w.toNat 16 16 = 0 ↔ w.toNat < 2 ^ 16 := by
  unfold field
  have := w.isLt
  omega

/-- Past its colour, the checks of QUOTA are those that `quotaGood` names. -/
theorem quotaGood_iff {c w : Slot} {pl : Placed} (hc : c.toNat < 2 ^ 8) (port : Nat) : quotaGood c w pl port ↔
    ¬ (field w.toNat 7 1 ≠ 0 ∨ field w.toNat 16 16 ≠ 0 ∨ 64 < field w.toNat 0 7 ∨ (field w.toNat 0 7 = 0 ∧ field w.toNat 8 8 ≠ 0) ∨ isInput pl port = false) := by
  simp only [quotaGood, field_16_16, not_or, not_and, not_not, Nat.not_lt, Bool.not_eq_false, hc, true_and]

section
variable {h : Hdr} {p : PayQ} {s : State} {b : BInst} {xs : List Val}

section
variable {l : List Slot} (hf : QuotaFires h p s b xs l) (hs : supervisorOf (nodeCtx s b.node) = some b.node.n)
include hf hs

theorem halfOp_fires (act : Colour → Nat → LateAct) : halfOp h p s act = .next
    (match colourArg (l.getD 0 0) with
    | none => raise s b badQuota
    | some c => if 2 ^ 16 ≤ (l.getD 1 0).toNat then raise s b badQuota else defer s h b (act c (l.getD 1 0).toNat)) :=
  (quota_sup _ hf hs).trans <| congrArg Host.Outcome.next <| by cases colourArg (l.getD 0 0) <;> rfl

end

section
variable {c w : Slot} (hf : QuotaFires h p s b xs [c, w]) (hs : supervisorOf (nodeCtx s b.node) = some b.node.n)
include hf hs

theorem halfOp_bad (hb : 2 ^ 8 ≤ c.toNat ∨ 2 ^ 16 ≤ w.toNat) (act : Colour → Nat → LateAct) :
    halfOp h p s act = .next (raise s b { cause := .illegalEncoding, detail := 11 }) := by
  refine (halfOp_fires hf hs act).trans (congrArg _ ?_)
  rw [List.getD_cons_zero, List.getD_cons_succ, List.getD_cons_zero]
  cases hc : colourArg c with
  | none => rfl
  | some col =>
    have hlt : c.toNat < 2 ^ 8 := Nat.lt_of_not_le fun hge => by rw [colourArg_none hge] at hc; cases hc
    exact if_pos (hb.resolve_left (Nat.not_le_of_lt hlt))

theorem halfOp_good (hc : c.toNat < 2 ^ 8) (hw : w.toNat < 2 ^ 16) (act : Colour → Nat → LateAct) :
    halfOp h p s act = .next (putInst s (defers h b (act (BitVec.ofNat 8 c.toNat) w.toNat))) := by
  refine (halfOp_fires hf hs act).trans (congrArg _ ?_)
  rw [List.getD_cons_zero, List.getD_cons_succ, List.getD_cons_zero, colourArg_some hc]
  exact if_neg (Nat.not_le_of_lt hw)

theorem quota_unplaced (hp : placedOf s { b.node with n := p.qctl.toNat / 16 } = none) :
    exec (.quota h p) s = .next (raise s b { cause := .illegalEncoding, detail := 11 }) := by
  refine (quota_sup _ hf hs).trans (congrArg _ ?_)
  dsimp only
  rw [hp]
  split
  · next h2 => cases h2
  · rfl

variable {pl : Placed} (hp : placedOf s { b.node with n := p.qctl.toNat / 16 } = some pl)
include hp

/-- QUOTA at a node that is placed checks its colour, then its word and its port (R299). -/
theorem quota_fires : exec (.quota h p) s = .next
    (match colourArg c with
    | some col =>
      if field w.toNat 7 1 ≠ 0 ∨ field w.toNat 16 16 ≠ 0 ∨ 64 < field w.toNat 0 7 ∨ (field w.toNat 0 7 = 0 ∧ field w.toNat 8 8 ≠ 0)
          ∨ isInput pl (p.qctl.toNat % 16) = false then raise s b badQuota
      else putInst s (defers h b (.quota { b.node with n := p.qctl.toNat / 16 } (p.qctl.toNat % 16) col (field w.toNat 0 7) (field w.toNat 8 8)))
    | none => raise s b badQuota) := by
  refine (quota_sup _ hf hs).trans (congrArg _ ?_)
  dsimp only
  rw [hp, List.getD_cons_zero, List.getD_cons_succ, List.getD_cons_zero]
  cases colourArg c with
  | none => rfl
  | some col => simp only [bits_field]; rfl

theorem quota_bad (hg : ¬ quotaGood c w pl (p.qctl.toNat % 16)) : exec (.quota h p) s = .next (raise s b { cause := .illegalEncoding, detail := 11 }) := by
  rw [quota_fires hf hs hp]
  by_cases hc : c.toNat < 2 ^ 8
  · rw [colourArg_some hc]
    exact congrArg _ (if_pos (Decidable.of_not_not fun hn => hg ((quotaGood_iff hc _).2 hn)))
  · rw [colourArg_none (Nat.le_of_not_lt hc)]
    rfl

theorem quota_good (hg : quotaGood c w pl (p.qctl.toNat % 16)) : exec (.quota h p) s = .next (putInst s (defers h b
    (.quota { b.node with n := p.qctl.toNat / 16 } (p.qctl.toNat % 16) (BitVec.ofNat 8 c.toNat) (field w.toNat 0 7) (field w.toNat 8 8)))) := by
  rw [quota_fires hf hs hp, colourArg_some hg.1]
  exact congrArg _ (if_neg ((quotaGood_iff hg.1 _).1 hg))

end

theorem tagfree_bad {t : Slot} (hf : QuotaFires h p s b xs [t]) (ht : 2 ^ 16 ≤ t.toNat) :
    exec (.tagfree h p) s = .next (raise s b { cause := .illegalEncoding, detail := 11 }) :=
  (quota_any _ hf).trans (congrArg _ (if_pos ht))

theorem tagfree_good {t : Slot} (hf : QuotaFires h p s b xs [t]) (ht : t.toNat < 2 ^ 16) :
    exec (.tagfree h p) s = .next (putInst s (defers h b (.tagFree t.toNat))) :=
  (quota_any _ hf).trans (congrArg _ (if_neg (Nat.not_le_of_lt ht)))

end

/-! #### The changes as the commit begins -/

section
variable {s : State} {b : BInst} {e : Exit} {l : Late} {ls : List Late} (hb : BeginsCommit s b e) (hl : b.later = l :: ls)
include hb hl

/-- A commit whose first change is made delivers the change's outcome. -/
theorem commit_changes {t : State} {ws : List Nat} (hs : lateStep (putInst s (begunAs s b e)) (begunAs s b e) l.act = (t, some ws)) :
    Changes (exec (.instanceCommit b.cell) s) l (begunAs s b e) ls t ws := by
  rw [commit_late hb (by rw [hl]; exact List.cons_ne_nil _ _)]
  exact late_made hl hs

/-- A commit whose first change waits leaves what the change's step left. -/
theorem commit_waits (hn : ∀ c, l.act ≠ .purge c false) {t : State}
    (hs : lateStep (putInst s (begunAs s b e)) (begunAs s b e) l.act = (t, none)) : exec (.instanceCommit b.cell) s = .next t := by
  rw [commit_late hb (by rw [hl]; exact List.cons_ne_nil _ _)]
  unfold lateAct
  rw [show (begunAs s b e).later = l :: ls from hl]
  dsimp only
  rw [hs]
  dsimp only
  split
  · next c hc => exact absurd hc (hn c)
  · rfl

end

section
variable (s : State) (b : BInst)

theorem lateStep_limit (c : Colour) (l : Nat) : lateStep s b (.limit c l) =
    (withCtx s b (fun x => { x with limits := mput 1024 x.limits c.toNat l }), some [0, mget 1024 (nodeCtx s b.node).limits c.toNat]) := rfl

/-- Whether an instance may make its quota changes in this cycle, after those of the cells before its own (R289). -/
def quotaInTurn : Bool := inTurn s .quota (quotaTurn b.node) (cellPlace b.cell)
/-- The state in which the turn is taken. -/
def quotaTaken (t : State) : State := takeTurn t .quota (quotaTurn b.node) (cellPlace b.cell)

theorem lateStep_cap (c : Colour) (n : Nat) : lateStep s b (.cap c n) =
    if (!quotaInTurn s b) = true then (s, none)
    else if 65535 < (mput 0 (nodeCtx s b.node).caps c.toNat n).foldl (fun a e => a + e.2) 0 then
      (quotaTaken b s, some [1, mget 0 (nodeCtx s b.node).caps c.toNat])
    else (quotaTaken b (withCtx s b (fun x => { x with caps := mput 0 (nodeCtx s b.node).caps c.toNat n })),
      some [0, mget 0 (nodeCtx s b.node).caps c.toNat]) := rfl

theorem lateStep_quota (n : NodeId) (port : Nat) (c : Colour) (m sl : Nat) : lateStep s b (.quota n port c m sl) =
    if (!quotaInTurn s b) = true then (s, none)
    else match placedOf s n with
      | none => (s, some [1, 0])
      | some pl => (quotaTaken b (applyQuota s n pl port c m sl).1, some [if (applyQuota s n pl port c m sl).2 then 0 else 1,
          (quotaIn (nodeCtx s n) n.n port c).1 + (quotaIn (nodeCtx s n) n.n port c).2 * 256]) := rfl

theorem lateStep_tagFree (g : Nat) : lateStep s b (.tagFree g) =
    if g ≠ 0 ∧ mget none (nodeCtx s b.node).tags g = some (.colour b.tag.colour) then (returnTag s b.node (some (BitVec.ofNat 16 g)), some [0])
    else (s, some [1]) := rfl

end

section
variable {s : State} {b : BInst}

theorem lateStep_cap_waits (c : Colour) (n : Nat) (ht : quotaInTurn s b = false) : lateStep s b (.cap c n) = (s, none) :=
  (lateStep_cap s b c n).trans (if_pos (by rw [ht]; rfl))

theorem lateStep_quota_waits (n : NodeId) (port : Nat) (c : Colour) (m sl : Nat) (ht : quotaInTurn s b = false) :
    lateStep s b (.quota n port c m sl) = (s, none) :=
  (lateStep_quota s b n port c m sl).trans (if_pos (by rw [ht]; rfl))

section
variable (ht : quotaInTurn s b = true)
include ht

theorem lateStep_cap_fits (c : Colour) (n : Nat) (hf : ((mput 0 (nodeCtx s b.node).caps c.toNat n).map (fun e => e.2)).sum ≤ 65535) :
    lateStep s b (.cap c n) = (quotaTaken b (withCtx s b (fun x => { x with caps := mput 0 (nodeCtx s b.node).caps c.toNat n })),
      some [0, mget 0 (nodeCtx s b.node).caps c.toNat]) := by
  rw [lateStep_cap, ht, foldl_sum2, Nat.zero_add]
  exact (if_neg Bool.false_ne_true).trans (if_neg (Nat.not_lt_of_le hf))

theorem lateStep_cap_exceeds (c : Colour) (n : Nat) (hf : ¬ ((mput 0 (nodeCtx s b.node).caps c.toNat n).map (fun e => e.2)).sum ≤ 65535) :
    lateStep s b (.cap c n) = (quotaTaken b s, some [1, mget 0 (nodeCtx s b.node).caps c.toNat]) := by
  rw [lateStep_cap, ht, foldl_sum2, Nat.zero_add]
  exact (if_neg Bool.false_ne_true).trans (if_pos (Nat.lt_of_not_le hf))

theorem lateStep_quota_placed (n : NodeId) (port : Nat) (c : Colour) (m sl : Nat) {pl : Placed} (hp : placedOf s n = some pl) :
    lateStep s b (.quota n port c m sl) = (quotaTaken b (applyQuota s n pl port c m sl).1, some [if (applyQuota s n pl port c m sl).2 then 0 else 1,
      (quotaIn (nodeCtx s n) n.n port c).1 + (quotaIn (nodeCtx s n) n.n port c).2 * 256]) := by
  rw [lateStep_quota, ht, hp]
  rfl

end
end

/-! #### What a quota and a returned tag change -/

theorem placedOf_num {s : State} {n : NodeId} {pl : Placed} (hp : placedOf s n = some pl) : pl.route.num = n.n := by
  have hq := List.find?_some (show (nodeCtx s n).nodes.find? (fun p => p.route.num == n.n) = some pl from hp)
  exact beq_iff_eq.1 hq

section
variable {s : State} {n : NodeId} {pl : Placed} {port : Nat} {c : Colour} {m sl : Nat}

theorem applyQuota_refused (hf : ¬ (applyQuota s n pl port c m sl).2 = true) : (applyQuota s n pl port c m sl).1 = s := by
  unfold applyQuota at hf ⊢
  dsimp only at hf ⊢
  split at hf
  · exact absurd rfl hf
  · next h => rw [if_neg h]

theorem applyQuota_fits (hf : (applyQuota s n pl port c m sl).2 = true) : (applyQuota s n pl port c m sl).1 =
    setCtx s n.w n.x { nodeCtx s n with
      quotas := putQuota (nodeCtx s n).quotas pl.route.num port c m sl, changed := putQuota (nodeCtx s n).changed pl.route.num port c m sl } := by
  unfold applyQuota at hf ⊢
  dsimp only at hf ⊢
  split at hf
  · next h => rw [if_pos h]
  · cases hf

/-- A quota that fits is the port's for its colour, and the others are as they were (R299). -/
theorem applyQuota_changes (hp : placedOf s n = some pl) (hf : (applyQuota s n pl port c m sl).2 = true) : ∃ t,
    (applyQuota s n pl port c m sl).1 = t ∧ t = { s with ctxs := t.ctxs } ∧ quotaIn (nodeCtx t n) n.n port c = (m, sl)
    ∧ ∀ n' q' c', ¬ (n' = n.n ∧ q' = port ∧ c' = c) → quotaIn (nodeCtx t n) n' q' c' = quotaIn (nodeCtx s n) n' q' c' := by
  have hctx : ∀ y, nodeCtx (setCtx s n.w n.x y) n = y := ctxOf_setCtx_same s n.w n.x
  refine ⟨_, applyQuota_fits hf, rfl, ?_, fun n' q' c' hne => ?_⟩ <;> rw [hctx, placedOf_num hp]
  · exact quotaIn_put { nodeCtx s n with changed := putQuota (nodeCtx s n).changed n.n port c m sl } (nodeCtx s n).quotas n.n port c m sl
  · exact quotaIn_put_other { nodeCtx s n with changed := putQuota (nodeCtx s n).changed n.n port c m sl } (nodeCtx s n).quotas rfl n.n port c m sl n' q' c' hne

end

/-- A tag that returns is free, and the other tags of its context are as they were (R294). -/
theorem returnTag_frees (s : State) (n : NodeId) {g : Nat} (hg : g < 2 ^ 16) : ∃ t, returnTag s n (some (BitVec.ofNat 16 g)) = t
    ∧ mget none (nodeCtx t n).tags g = none ∧ t = { s with ctxs := t.ctxs, freed := t.freed }
    ∧ ∀ j, j ≠ g → mget none (nodeCtx t n).tags j = mget none (nodeCtx s n).tags j := by
  have htags : (nodeCtx (returnTag s n (some (BitVec.ofNat 16 g))) n).tags = mput none (nodeCtx s n).tags g none := by
    refine (congrArg Ctx.tags (ctxOf_setCtx_same s n.w n.x _)).trans ?_
    rw [BitVec.toNat_ofNat, Nat.mod_eq_of_lt hg]
  refine ⟨_, rfl, ?_, rfl, fun j hj => ?_⟩ <;> rw [htags]
  · exact mget_mput_same none _ _ _
  · exact mget_mput_other none _ hj _

/-- Settles O33: each instruction by its checks, and each change by what its step does as the commit begins. -/
theorem quotaInstructions : Obligations.QuotaInstructions := by
  unfold Obligations.QuotaInstructions
  refine ⟨fun h p s b xs l hf hs => ?denied, fun h p s b xs hf hx => ?invalid,
    fun h p s b xs c w hf hs => ⟨fun hb => ⟨halfOp_bad hf hs hb _, halfOp_bad hf hs hb _⟩, fun hc hw => ⟨halfOp_good hf hs hc hw _, halfOp_good hf hs hc hw _⟩,
      quota_unplaced hf hs, fun pl hp => ⟨quota_bad hf hs hp, quota_good hf hs hp⟩⟩,
    fun h p s b xs t hf => ⟨tagfree_bad hf, tagfree_good hf⟩, ?limit, ?cap, ?quota, ?tagFree⟩
  case denied =>
    simp only [List.forall_mem_cons]
    exact ⟨quota_perm _ hf hs, quota_perm _ hf hs, quota_perm _ hf hs, List.forall_mem_nil _⟩
  case invalid =>
    simp only [List.forall_mem_cons]
    exact ⟨quotaOp_none _ _ hf hx, quotaOp_none _ _ hf hx, quotaOp_none _ _ hf hx, quotaOp_none _ _ hf hx, List.forall_mem_nil _⟩
  case limit =>
    intro c n s b e l ls hb hl ha
    exact commit_changes hb hl (by rw [ha]; exact lateStep_limit _ _ c n)
  case cap =>
    intro c n s b e l ls hb hl ha
    refine ⟨fun ht => commit_waits hb hl (by rw [ha]; nofun) ?_, fun ht => ⟨fun hf => commit_changes hb hl ?_, fun hf => commit_changes hb hl ?_⟩⟩ <;> rw [ha]
    · exact lateStep_cap_waits c n ht
    · exact lateStep_cap_fits ht c n hf
    · exact lateStep_cap_exceeds ht c n hf
  case quota =>
    intro n port c m sl s b e l ls hb hl ha
    refine ⟨fun ht => commit_waits hb hl (by rw [ha]; nofun) ?_, fun pl ht hp => ?_⟩
    · rw [ha]
      exact lateStep_quota_waits n port c m sl ht
    · have hstep := lateStep_quota_placed ht n port c m sl hp
      refine ⟨fun hf => commit_changes hb hl ?_, fun hf => ?_⟩
      · rw [ha, hstep, applyQuota_refused hf, if_neg hf]
        rfl
      · obtain ⟨t, ht, hrest⟩ := applyQuota_changes hp hf
        refine ⟨t, commit_changes hb hl ?_, hrest⟩
        rw [ha, hstep, ht, if_pos hf]
        rfl
  case tagFree =>
    intro g hg s b e l ls hb hl ha
    refine ⟨fun hn => commit_changes hb hl ?_, fun hh => ?_⟩
    · rw [ha, lateStep_tagFree]
      exact if_neg hn
    · obtain ⟨t, ht, hrest⟩ := returnTag_frees (putInst s (begunAs s b e)) b.node hg
      refine ⟨t, commit_changes hb hl ?_, hrest⟩
      rw [ha, lateStep_tagFree]
      refine (if_pos hh).trans ?_
      rw [← ht]
      rfl

end Sys2Proof.Proofs
end

section
namespace Sys2Proof.Proofs
open Sys2Proof Sys2Proof.Machine Sys2Proof.Claims Sys2Proof.Laws

/-! ### SPAWN, RECOL and PURGE (R292, R293, R300 to R302) -/

/-- The instance with a token under a tag of its own on one of its ports. -/
def sentUnder (b : BInst) (port : BitVec 7) (tag : Tag) (v : Val) : BInst :=
  { b with emits := b.emits ++ [{ slot := b.pc, port := port.toNat, tok := { tag := tag, kind := .data, aux := 0, val := v } }] }

theorem emitTagged_chan (b : BInst) (port : BitVec 7) (tag : Tag) (v : Val) : emitTagged (.chan port) tag v b = sentUnder b port tag v := rfl

/-! #### SPAWN (R300) -/

section
variable {h : Hdr} {p : PayQ} {s : State} {b : BInst} {xs : List Val} {g : BitVec 16} {port : BitVec 7}
  (hf : Fires h (k0Const p.k0) s b xs) (hg : b.spawned = some g)
include hf hg

theorem spawn_replay (hr : (nodeCtx s b.node).replay = true) : exec (.spawn h p) s = .next (raise s b { cause := .replayNondet }) := by
  refine (withOps_fires _ _ hf).trans (congrArg _ ?_)
  dsimp only
  rw [hg]
  exact if_pos hr

theorem spawn_sends (h0 : h.t0 = .chan port) (hr : (nodeCtx s b.node).replay = false) : exec (.spawn h p) s = .next (putInst s (advance 1
    (deliver1 b.pc h.t1 0 (word32 g.toNat) (decide (slotOf (word32 g.toNat) 0 = some 0)) (sentUnder b port { b.tag with iter := g } (xs.getD 0 noVal))))) := by
  refine (withOps_fires _ _ hf).trans (congrArg _ ?_)
  dsimp only
  rw [hg]
  refine (if_neg (by rw [hr]; exact Bool.false_ne_true)).trans ?_
  rw [predZero_slot, h0, emitTagged_chan]

end

/-! #### RECOL (R301) -/

theorem extract_colour (g : Slot) : g.extractLsb' 16 8 = BitVec.ofNat 8 (g.toNat / 2 ^ 16) := by
  apply BitVec.eq_of_toNat_eq
  rw [BitVec.extractLsb'_toNat, BitVec.toNat_ofNat, Nat.shiftRight_eq_div_pow]

theorem extract_iter (g : Slot) : g.extractLsb' 0 16 = BitVec.ofNat 16 g.toNat := by
  apply BitVec.eq_of_toNat_eq
  rw [BitVec.extractLsb'_toNat, BitVec.toNat_ofNat, Nat.shiftRight_zero]

/-- The bits above the tag that RECOL takes: none is set in a word within its width. -/
theorem aboveWidth_iff (g : Nat) (col : Bool) : g / (if col then 2 ^ 24 else 2 ^ 16) ≠ 0 ↔ 2 ^ (if col then 24 else 16) ≤ g := by
  cases col
  · exact Nat.div_ne_zero_iff.trans (and_iff_right (by decide))
  · exact Nat.div_ne_zero_iff.trans (and_iff_right (by decide))

theorem recol_allowed {s : State} {b : BInst} {col : Bool} (hs : col = true → supervisorOf (nodeCtx s b.node) = some b.node.n) :
    ¬ (col && !inSupervisor s b) = true := by
  simpa using fun hc => sup_true (hs hc)

section
variable {h : Hdr} {p : PayQ} {s : State} {b : BInst} {x y : Val} {xs : List Val} {g : Slot} {port : BitVec 7}
  (hf : Fires h (k0Const p.k0) s b (x :: y :: xs)) (hy : slotOf y 0 = some g)
include hf hy

/-- RECOL with its word there: the supervisor's right to a colour, the word's width, then the token. -/
theorem recol_fires : exec (.recol h p) s = .next
    (if (p.qctl.getLsbD 0 && !inSupervisor s b) = true then raise s b { cause := .permission }
    else if g.toNat / (if p.qctl.getLsbD 0 then 2 ^ 24 else 2 ^ 16) ≠ 0 then raise s b { cause := .illegalEncoding, detail := 11 }
    else putInst s (advance 1 (deliver1 b.pc h.t1 0 x (predZero x) (emitTagged h.t0
      { b.tag with colour := if p.qctl.getLsbD 0 then g.extractLsb' 16 8 else b.tag.colour, iter := g.extractLsb' 0 16 } x b)))) := by
  refine (withOps_fires _ _ hf).trans (congrArg _ ?_)
  rw [show (x :: y :: xs).getD 1 noVal = y from rfl, hy]
  rfl

theorem recol_denied (hc : p.qctl.getLsbD 0 = true) (hs : supervisorOf (nodeCtx s b.node) ≠ some b.node.n) :
    exec (.recol h p) s = .next (raise s b { cause := .permission }) := by
  rw [recol_fires hf hy, hc, sup_false hs]
  rfl

variable (hs : p.qctl.getLsbD 0 = true → supervisorOf (nodeCtx s b.node) = some b.node.n)
include hs

theorem recol_wide (hg : 2 ^ (if p.qctl.getLsbD 0 then 24 else 16) ≤ g.toNat) :
    exec (.recol h p) s = .next (raise s b { cause := .illegalEncoding, detail := 11 }) := by
  rw [recol_fires hf hy, if_neg (recol_allowed hs), if_pos ((aboveWidth_iff _ _).2 hg)]

theorem recol_sends (h0 : h.t0 = .chan port) (hg : g.toNat < 2 ^ (if p.qctl.getLsbD 0 then 24 else 16)) :
    exec (.recol h p) s = .next (putInst s (advance 1 (deliver1 b.pc h.t1 0 x (decide (slotOf x 0 = some 0)) (sentUnder b port
      { b.tag with colour := if p.qctl.getLsbD 0 then BitVec.ofNat 8 (g.toNat / 2 ^ 16) else b.tag.colour, iter := BitVec.ofNat 16 g.toNat } x)))) := by
  rw [recol_fires hf hy, if_neg (recol_allowed hs), if_neg (fun hw => Nat.not_le_of_lt hg ((aboveWidth_iff _ _).1 hw)),
    predZero_slot, h0, emitTagged_chan, extract_colour, extract_iter]

end

/-! #### PURGE (R302) -/

section
variable {h : Hdr} {p : PayQ} {s : State} {b : BInst} {x : Val} {c : Slot} (hf : Fires h (k0Const p.k0) s b [x]) (hx : slotOf x 0 = some c)
include hf hx

theorem quotaFires_one : QuotaFires h p s b [x] [c] := ⟨hf, by rw [List.map_singleton, hx]; rfl⟩

theorem purge_denied (hs : supervisorOf (nodeCtx s b.node) ≠ some b.node.n) : exec (.purge h p) s = .next (raise s b { cause := .permission }) :=
  quota_perm _ (quotaFires_one hf hx) hs

variable (hs : supervisorOf (nodeCtx s b.node) = some b.node.n)
include hs

theorem purge_bad (hc : 2 ^ 8 ≤ c.toNat) : exec (.purge h p) s = .next (raise s b { cause := .illegalEncoding, detail := 11 }) := by
  refine (quota_sup _ (quotaFires_one hf hx) hs).trans (congrArg _ ?_)
  rw [List.getD_cons_zero, colourArg_none hc]
  rfl

variable (hc : c.toNat < 2 ^ 8)
include hc

theorem purge_own (ho : BitVec.ofNat 8 c.toNat = b.tag.colour) :
    exec (.purge h p) s = .next (putInst s (advance 1 (deliver h 0 (same (firstSlots [2]) false) b))) := by
  refine (quota_sup _ (quotaFires_one hf hx) hs).trans (congrArg _ ?_)
  rw [List.getD_cons_zero, colourArg_some hc]
  refine (if_pos ho).trans ?_
  dsimp only
  rw [predZero_first]
  rfl

theorem purge_defers (ho : BitVec.ofNat 8 c.toNat ≠ b.tag.colour) :
    exec (.purge h p) s = .next (putInst s (defers h b (.purge (BitVec.ofNat 8 c.toNat) false))) := by
  refine (quota_sup _ (quotaFires_one hf hx) hs).trans (congrArg _ ?_)
  rw [List.getD_cons_zero, colourArg_some hc]
  exact if_neg ho

end

/-! #### The purge as the commit begins (R293) -/

theorem lateStep_purge (s : State) (b : BInst) (c : Colour) (asked : Bool) : lateStep s b (.purge c asked) =
    match b.purged with
    | some r => (s, some [0, min r.1 (2 ^ 32 - 1), r.2.1, r.2.2])
    | none => (if asked then s else askPurge s b.node.w b.node.x c (.inst b.cell b.seq), none) := rfl

section
variable {s : State} {b : BInst} {e : Exit} {l : Late} {ls : List Late} {c : Colour} (hb : BeginsCommit s b e) (hl : b.later = l :: ls)
include hb hl

theorem commit_purged {asked : Bool} (ha : l.act = .purge c asked) {n i g : Nat} (hp : b.purged = some (n, i, g)) :
    Changes (exec (.instanceCommit b.cell) s) l (begunAs s b e) ls (putInst s (begunAs s b e)) [0, min n (2 ^ 32 - 1), i, g] := by
  refine commit_changes hb hl ?_
  rw [ha, lateStep_purge, show (begunAs s b e).purged = some (n, i, g) from hp]

theorem commit_purging (ha : l.act = .purge c true) (hp : b.purged = none) : exec (.instanceCommit b.cell) s = .next (putInst s (begunAs s b e)) := by
  refine commit_waits hb hl (by rw [ha]; nofun) ?_
  rw [ha, lateStep_purge, show (begunAs s b e).purged = none from hp]
  rfl

/-- The purge asks for its turn, and its instance waits for the answer. -/
theorem commit_asks (ha : l.act = .purge c false) (hp : b.purged = none) : exec (.instanceCommit b.cell) s = .next
    (putInst (askPurge (putInst s (begunAs s b e)) b.node.w b.node.x c (.inst b.cell b.seq))
      { begunAs s b e with later := { l with act := .purge c true } :: ls }) := by
  rw [commit_late hb (by rw [hl]; exact List.cons_ne_nil _ _)]
  unfold lateAct
  rw [show (begunAs s b e).later = l :: ls from hl]
  dsimp only
  rw [ha, lateStep_purge, show (begunAs s b e).purged = none from hp]
  rfl

end

/-! #### The end of a purge (R293) -/

section
variable {s : State} {w : BitVec 4} {x : Context} {c : Colour}

/-- A colour with no instance in flight loses none by its purge. -/
theorem dropColour_insts (hn : ∀ b, b ∈ s.insts → ¬ (b.node.w = w ∧ b.node.x = x ∧ b.tag.colour = c)) : (dropColour s w x c).1.insts = s.insts := by
  unfold dropColour
  dsimp only
  rw [(keeps_fold _ _).insts]
  refine List.filter_eq_self.2 fun b hb => ?_
  rw [Bool.eq_false_iff.2 fun hc => hn b hb (ofColour_iff.1 hc)]
  rfl

theorem nextPurge_none {t : State} (hq : (ctxOf t w x).purgeq = []) : nextPurge t w x = t := by
  unfold nextPurge
  dsimp only
  rw [hq]
  split
  · next h => cases h
  · rfl

theorem frozen_none {t : State} (hp : (ctxOf t w x).purging = none) : frozen t w x c = false := by
  unfold frozen
  rw [hp]

end

/-- What a purge that has ended delivers: its count to the instance that asked, or its packet's completion. -/
def purgeDone (s : State) (w : BitVec 4) (by_ : PurgeBy) (total : Nat × Nat × Nat) : State :=
  match by_ with
  | .inst cell seq => { s with insts := updFirst (fun b => b.isAt cell seq) (fun b => { b with purged := some total }) s.insts }
  | .packet q idx task => completePkt s w q idx 0 0 task 0

theorem purgeDone_ctxs (s : State) (w : BitVec 4) (by_ : PurgeBy) (total : Nat × Nat × Nat) : (purgeDone s w by_ total).ctxs = s.ctxs := by
  cases by_ with
  | inst cell seq => rfl
  | packet q idx task => exact completePkt_ctxs ..

section
variable {x : CtxId} {s : State} {c : Colour} {by_ : PurgeBy} {toks ins tags : Nat} (hp : (ctxOf s x.w x.x).purging = some (c, by_, toks, ins, tags))
include hp

theorem purgeReset_waits (hb : ∃ b, b ∈ s.insts ∧ b.node.w = x.w ∧ b.node.x = x.x ∧ b.tag.colour = c) : exec (.purgeReset x) s = .next s := by
  obtain ⟨b, hb, hc⟩ := hb
  show execPurgeReset x s = _
  unfold execPurgeReset
  rw [hp]
  exact if_pos (List.any_eq_true.2 ⟨b, hb, ofColour_iff.2 hc⟩)

/-- A purge whose colour has no instance in flight ends, and no other waits for its turn. -/
theorem purgeReset_ends (hq : (ctxOf s x.w x.x).purgeq = []) (hn : ∀ b, b ∈ s.insts → ¬ (b.node.w = x.w ∧ b.node.x = x.x ∧ b.tag.colour = c)) :
    let r := dropColour s x.w x.x c
    let t := purgeDone (setCtx r.1 x.w x.x { ctxOf r.1 x.w x.x with purging := none }) x.w by_ (toks + r.2.1, ins + r.2.2.1, tags + r.2.2.2)
    exec (.purgeReset x) s = .next t ∧ (ctxOf t x.w x.x).purging = none := by
  intro r t
  have hctx : ctxOf t x.w x.x = { ctxOf r.1 x.w x.x with purging := none } := by
    refine (congrArg (fun m => mget {} m (ctxKey x.w x.x)) (purgeDone_ctxs _ _ _ _)).trans ?_
    exact ctxOf_setCtx_same r.1 x.w x.x _
  have hempty : (ctxOf t x.w x.x).purgeq = [] := by
    rw [hctx]
    refine List.eq_nil_iff_forall_not_mem.2 fun e he => ?_
    have := drop_purgeq s x.w x.x c e he
    rw [hq] at this
    cases this
  refine ⟨?_, by rw [hctx]⟩
  rw [← nextPurge_none hempty]
  show execPurgeReset x s = _
  unfold execPurgeReset
  rw [hp]
  refine (if_neg fun ha => ?_).trans ?_
  · obtain ⟨b, hb, hc⟩ := List.any_eq_true.1 ha
    exact hn b hb (ofColour_iff.1 hc)
  · cases by_ <;> rfl

end

/-- The count of a purge reaches the instance that asked for it. -/
theorem findInst_purgeDone {s : State} {cell seq : Nat} {y : BInst} (hy : findInst s cell seq = some y) (w : BitVec 4) (total : Nat × Nat × Nat) :
    findInst (purgeDone s w (.inst cell seq) total) cell seq = some { y with purged := some total } := by
  refine (find_updFirst (fun b => b.isAt cell seq) (fun b => { b with purged := some total }) (fun _ h => h) s.insts).trans ?_
  rw [show s.insts.find? (fun b => b.isAt cell seq) = some y from hy]
  rfl

/-- Settles O34: SPAWN, RECOL and PURGE by their checks, a purge by its turn among those of its context, and its end. -/
theorem spawnRecolPurge : Obligations.SpawnRecolPurge := by
  unfold Obligations.SpawnRecolPurge
  refine ⟨fun h p s b xs g port hf hg h0 => ⟨spawn_replay hf hg, fun hr => ⟨_, slots_first [g.toNat], spawn_sends hf hg h0 hr⟩⟩,
    fun h p s b x y xs g port hf hy h0 => ⟨recol_denied hf hy, fun hs => ⟨recol_wide hf hy hs, recol_sends hf hy hs h0⟩⟩,
    fun h p s b x c hf hx => ⟨purge_denied hf hx, purge_bad hf hx, fun hs hc => ⟨fun ho => ⟨_, slots_first [2], purge_own hf hx hs hc ho⟩, purge_defers hf hx hs hc⟩⟩,
    fun s b e l ls c asked hb hl ha => ⟨fun n i g => commit_purged hb hl ha, ?asked, ?asks⟩,
    fun x s c by_ toks ins tags hp hq => ⟨purgeReset_waits hp, fun hn => ?ends⟩⟩
  case asked =>
    rintro hp rfl
    exact commit_purging hb hl ha hp
  case asks =>
    rintro hp rfl
    rw [commit_asks hb hl ha hp]
    refine ⟨fun hw => ?_, fun hw hq => ?_⟩
    · rw [ask_waits (s := putInst s (begunAs s b e)) c _ hw]
      rfl
    · obtain ⟨t, ht, hbegin⟩ := ask_begins (s := putInst s (begunAs s b e)) c (.inst b.cell b.seq) hw hq
      obtain ⟨hfrozen, hmem, hrest⟩ := begin_spec t b.node.w b.node.x c (.inst b.cell b.seq)
      refine ⟨_, congrArg (fun u => (.next (putInst u _) : Result)) hbegin, hfrozen, ?_, hrest⟩
      rw [hmem, ht]
      rfl
  case ends =>
    obtain ⟨hr, hpurging⟩ := purgeReset_ends hp hq hn
    refine ⟨_, hr, frozen_none hpurging, ?_⟩
    rintro cell seq rfl
    refine ⟨dropColour_mem s x.w x.x c, fun y hy => ⟨_, _, _, findInst_purgeDone ?_ _ _⟩⟩
    unfold findInst
    rw [show (setCtx _ _ _ _).insts = s.insts from dropColour_insts hn]
    exact hy

end Sys2Proof.Proofs
end

section
namespace Sys2Proof.Proofs
open Sys2Proof Sys2Proof.Machine Sys2Proof.Claims Sys2Proof.Laws

/-! ### Taking a fault (R365, R366, R369, R371, R372) -/

/-- The state in which a fault's invocation is discarded and has ended, and its record is not yet delivered. -/
def cleared (s : State) (b : BInst) : State :=
  takeTurn (endFaulted (discardInv s b.cell b.inv) b.inv) .fault b.node (faultPlace b.cell b.pc)

/-- The two ways of a fault: it waits on its instance, or it is taken (R366, R371). -/
theorem raise_waits {s : State} {b : BInst} {r : Report} (hr : r.cause ≠ .stall)
    (hw : ¬ (Alone s b ∧ inTurn s .fault b.node (faultPlace b.cell b.pc) = true)) : raise s b r = putInst s { b with raised := some (b.pc, r) } := by
  unfold raise
  rw [if_neg hr, if_pos]
  unfold Alone at hw
  cases holder : olderOfInv s b with
  | true => rfl
  | false => simpa [holder] using hw

theorem raise_taken {s : State} {b : BInst} {r : Report} (hr : r.cause ≠ .stall) (ha : Alone s b)
    (ht : inTurn s .fault b.node (faultPlace b.cell b.pc) = true) :
    raise s b r = deliverRecord (cleared s b) (originOf s b b.pc 0) (atPoint b r) true := by
  unfold raise
  rw [if_neg hr, if_neg]
  · rfl
  · rw [show olderOfInv s b = false from ha, ht]
    exact Bool.false_ne_true

theorem atPoint_cause (b : BInst) (r : Report) : (atPoint b r).cause = r.cause := by
  unfold atPoint
  split
  · split <;> rfl
  · rfl

theorem cause_code_lt (c : Cause) : c.code < 2 ^ 12 := by
  cases c <;> decide

/-! #### What the discarded invocation leaves -/

section
variable (s : State) (b : BInst)

theorem kp_cleared : Kp s (cleared s b) :=
  (kp_discard s b.cell b.inv).trans ((kp_endFaulted _ b.inv).trans (Kp.of rfl rfl rfl rfl))

theorem cleared_insts : (cleared s b).insts = s.insts.filter (fun y => !(y.inv == b.inv && !y.begun)) := by
  unfold cleared
  rw [takeTurn_insts, endFaulted_insts, discard_insts]

theorem cleared_mem : (cleared s b).mem = s.mem := by simp [cleared]

theorem cleared_now : (cleared s b).now = s.now := by simp [cleared]

theorem cleared_excFlight : (cleared s b).excFlight = s.excFlight := by
  unfold cleared
  rw [takeTurn_excFlight, endFaulted_excFlight, discardInv_excFlight]

theorem cleared_outputs : (cleared s b).outputs = s.outputs := by
  unfold cleared
  rw [takeTurn_outputs, endFaulted_outputs, discardInv_outputs]

theorem discardInv_invs (cell id : Nat) : (discardInv s cell id).invs = s.invs :=
  discard_f (fun s => s.invs) (fun s n t => by cases t <;> rfl) (fun _ _ _ => rfl) (fun _ _ _ => rfl) (fun _ _ _ _ _ _ => rfl) s cell id

end

section
variable {s : State} {b : BInst}

/-- No GO and no DONE leaves an invocation that is not a loop nest's (R365). -/
theorem cleared_sends_nothing (hn : ((findInv s b.inv).map (fun v => v.nest)).getD false = false) :
    (cleared s b).outq = s.outq ∧ (cleared s b).ctls = s.ctls := by
  have hd := endFaulted_q (discardInv s b.cell b.inv) b.inv (by rwa [findInv_congr (discardInv_invs s b.cell b.inv)])
  have houtq : (discardInv s b.cell b.inv).outq = s.outq :=
    discard_f (fun s => s.outq) (fun s n t => by cases t <;> rfl) (fun _ _ _ => rfl) (fun _ _ _ => rfl) (fun _ _ _ _ _ _ => rfl) s b.cell b.inv
  have hctls : (discardInv s b.cell b.inv).ctls = s.ctls :=
    discard_f (fun s => s.ctls) (fun s n t => by cases t <;> rfl) (fun _ _ _ => rfl) (fun _ _ _ => rfl) (fun _ _ _ _ _ _ => rfl) s b.cell b.inv
  exact ⟨hd.1.trans houtq, hd.2.trans hctls⟩

/-- The runs of a discarded matrix instance's key are closed (R178). -/
theorem cleared_closes (hb : b ∈ s.insts) (hg : b.begun = false) (hm : holdsMatrix b.code = true) {q : Run}
    (hq : mget none (cleared s b).planes b.cell = some q) : q.tag ≠ b.tag := by
  unfold cleared at hq
  rw [takeTurn_planes, endFaulted_planes, discard_planes] at hq
  exact closeRuns_at b hm _ (List.mem_filter.2 ⟨hb, by rw [beq_self_eq_true, hg]; rfl⟩) _ _ hq

/-- Emptied of its stores or dropped, an invocation that is found holds nothing. -/
theorem emptied_holds_nothing (l : List Machine.Inv) (id : Nat) (keep : Bool) (v : Machine.Inv)
    (hv : (if keep = true then updFirst (fun x => x.id == id) (fun x => { x with held := [] }) l else l.filter (fun x => x.id != id)).find?
      (fun x => x.id == id) = some v) : v.held = [] := by
  cases keep with
  | true =>
    rw [if_pos rfl, find_updFirst (fun x : Machine.Inv => x.id == id) (fun x => { x with held := [] }) (fun _ h => h)] at hv
    obtain ⟨y, -, rfl⟩ := Option.map_eq_some_iff.1 hv
    rfl
  | false =>
    rw [if_neg Bool.false_ne_true] at hv
    have hne := (List.mem_filter.1 (List.mem_of_find?_eq_some hv)).2
    rw [bne, List.find?_some hv] at hne
    cases hne

/-- An invocation of which no instance has begun its commit ends and holds no store. -/
theorem endFaulted_holds_nothing {t : State} {id : Nat} (hn : t.insts.any (fun y => y.inv == id && y.begun) = false) :
    ∀ v, findInv (endFaulted t id) id = some v → v.held = [] := by
  unfold endFaulted
  split
  · next hv => exact fun v h => by rw [hv] at h; cases h
  · next v hv =>
    rw [hn]
    dsimp only
    split
    · exact startW_inv _ _ _ (emptied_holds_nothing t.invs id _)
    · exact emptied_holds_nothing t.invs id _

theorem cleared_holds_nothing (hn : ∀ y, y ∈ s.insts → y.inv = b.inv → y.begun = false) {v : Inv}
    (hv : findInv (cleared s b) b.inv = some v) : v.held = [] := by
  refine endFaulted_holds_nothing ?_ v hv
  rw [discard_insts, List.any_eq_false]
  intro y hy hc
  obtain ⟨hinv, hbegun⟩ := Bool.and_eq_true_iff.1 hc
  rw [hn y (List.mem_filter.1 hy).1 (beq_iff_eq.1 hinv)] at hbegun
  cases hbegun

end

/-! #### The record -/

/-- Tables that lie where they lay read as they did. -/
theorem queueVec_congr {s t : State} {w : BitVec 4} (hb : (worldOf t w).schedbase = (worldOf s w).schedbase) (hr : ∀ a, reaches t w a = reaches s w a)
    (hm : t.mem = s.mem) (q : Nat) : queueVec t w q = queueVec s w q := by
  unfold queueVec ownWord
  rw [hb, hr, hm]

theorem kp_reaches {s t : State} (hk : Kp s t) (w : BitVec 4) (a : Nat) : reaches t w a = reaches s w a :=
  let ⟨_, _, _, _, hprot, hide, _⟩ := hk.w w
  reaches_congr hk.d.1 hk.d.2 hprot hide a

theorem kp_queueVec {s t : State} (hk : Kp s t) (hm : t.mem = s.mem) (w : BitVec 4) (q : Nat) : queueVec t w q = queueVec s w q :=
  let ⟨_, _, _, hbase, _⟩ := hk.w w
  queueVec_congr hbase (kp_reaches hk w) hm q

theorem kp_supervisorOf {s t : State} (hk : Kp s t) (w : BitVec 4) (x : Context) : supervisorOf (ctxOf t w x) = supervisorOf (ctxOf s w x) := by
  unfold supervisorOf
  rw [(hk.c w x).2.2.2]

/-- The bytes of a world's log after a record: its sixteen words at its place, and no other. -/
theorem record_bytes (m : List Host.Cell) (place : Nat) (l : List Nat) (hl : l.length = 16) :
    (∀ k, k < 16 → readLE (putBytes m (slotCells place l)) (place + 4 * k) 4 = l.getD k 0 % 2 ^ 32)
    ∧ ∀ a, a < place ∨ place + 64 ≤ a → byteAt (putBytes m (slotCells place l)) a = byteAt m a := by
  refine ⟨fun k hk => readLE_slotCells l (fun _ _ => trivial) place k m (hl ▸ hk), fun a ha => byteAt_putBytes_other _ m fun c hc => ?_⟩
  have := slotCells_in l place c hc
  omega

/-- The place of a world's next record, as the log's writer finds it (R372). -/
theorem logPlace_eq (x : World) : base12 x.fltlog + 64 * (x.fltSeq % 2 ^ max 4 (bits x.fltlog.toNat 11 8)) = logPlace x x.fltSeq := rfl

theorem base12_zero (r : Word64) : base12 r = 0 ↔ field r.toNat 12 40 = 0 :=
  Nat.mul_eq_zero.trans (or_iff_left (by decide))

/-- Settles O59: a fault waits or is taken; taken, it leaves what the discarded invocation leaves, and one record. -/
theorem faultTaking : Obligations.FaultTaking := by
  unfold Obligations.FaultTaking
  intro s b r hr r1 t x c nest rcd place turn
  refine ⟨raise_waits hr, fun ha ht => ?_⟩
  have hk := kp_cleared s b
  obtain ⟨hseq, hlog, htrig, -, -, -, -⟩ := hk.w b.node.w
  obtain ⟨hres, htask, hqueue, -⟩ := hk.c b.node.w b.node.x
  have hrcd : recordSlots (originOf s b b.pc 0) (atPoint b r) (cleared s b).now (worldOf (cleared s b) b.node.w).fltSeq = rcd := by
    rw [cleared_now, hseq, recordEq]
    rfl
  obtain ⟨hinsts, houtq, hctls, hplanes, hinvs, hexc, hseq', htrig', hmem, hout⟩ := deliverRecord_spec (cleared s b) (originOf s b b.pc 0) (atPoint b r)
  rw [← raise_taken hr ha ht] at hinsts houtq hctls hplanes hinvs hexc hseq' htrig' hmem hout
  have hctx : (originOf s b b.pc 0).ctx = { w := b.node.w, x := b.node.x } := rfl
  simp only [hctx, hrcd, atPoint_cause] at hexc hseq' htrig' hmem hout
  rw [kp_supervisorOf hk, cleared_excFlight] at hexc
  rw [hlog, hseq, kp_reaches hk, cleared_mem, logPlace_eq] at hmem
  refine ⟨hinsts.trans (cleared_insts s b), fun hn v hv => ?held, fun hn => ?sends, fun hb hg hm q hq => ?closes, ?number, fun hc => ?decision,
    fun hno => ?unreached, fun hat hre => ?recorded, fun hs => ?noSupervisor, fun hs => ?supervisor, ?vector⟩
  case held => exact cleared_holds_nothing hn ((findInv_congr hinvs b.inv).symm.trans hv)
  case sends =>
    obtain ⟨hq, hl⟩ := cleared_sends_nothing hn
    exact ⟨houtq.trans hq, hctls.trans hl⟩
  case closes =>
    rw [hplanes] at hq
    exact cleared_closes hb hg hm hq
  case number => rw [hseq', hseq]
  case decision => rw [htrig' (hres.trans hc), htrig, htask, cleared_now]
  case unreached =>
    rw [hmem]
    split
    · rfl
    · next hz => exact if_neg (by rw [hno.resolve_left (fun h => hz ((base12_zero _).2 h))]; exact Bool.false_ne_true)
  case recorded =>
    rw [hmem, if_neg (fun h => hat ((base12_zero _).1 h)), if_pos hre]
    exact record_bytes s.mem place rcd rfl
  case noSupervisor => rw [hexc, hs]; rfl
  case supervisor =>
    rw [if_neg (by simpa using hs)] at hexc
    refine ⟨_, hexc, rfl, ?_, rfl, fun k => excTok_slot _ _ rcd rfl k⟩
    exact Nat.mod_eq_of_lt (cause_code_lt r.cause)
  case vector =>
    rw [hout, cleared_outputs, hqueue]
    simp only [kp_queueVec hk (cleared_mem s b)]
    rfl

end Sys2Proof.Proofs
end

section
namespace Sys2Proof.Proofs
open Sys2Proof Sys2Proof.Machine Sys2Proof.Claims Sys2Proof.Laws

/-! ### Tokens on their channels and at their ports (R285, R286, R288, R290, R291, R297, R374, R375) -/

/-! #### Arrival (R285, R288) -/

@[simp] theorem dropFlight_flights (s : State) (f : Flight) : (dropFlight s f).flights = delFirst (fun y => y == f) s.flights := rfl
@[simp] theorem dropFlight_ptoks (s : State) (f : Flight) : (dropFlight s f).ptoks = s.ptoks := rfl
@[simp] theorem dropFlight_credRet (s : State) (f : Flight) : (dropFlight s f).credRet = s.credRet := rfl
@[simp] theorem endAwait_flights (s : State) (ch : ChanId) (n : NodeId) (t : Tag) : (endAwait s ch n t).flights = s.flights := rfl
@[simp] theorem endAwait_ptoks (s : State) (ch : ChanId) (n : NodeId) (t : Tag) : (endAwait s ch n t).ptoks = s.ptoks := rfl
@[simp] theorem endAwait_credRet (s : State) (ch : ChanId) (n : NodeId) (t : Tag) : (endAwait s ch n t).credRet = s.credRet := rfl
@[simp] theorem endAwait_now (s : State) (ch : ChanId) (n : NodeId) (t : Tag) : (endAwait s ch n t).now = s.now := rfl

section
variable {s : State} {ch : ChanId} {c : Colour} {f : Flight} {p : PortId} {pl : Placed} (ha : Arrives s ch c f p pl) (hz : chanFrozen s ch c = false)
include ha hz

theorem tokenAccept_done (hk : f.tok.kind = .done) : exec (.tokenAccept ch c) s = .next (dropFlight s f) := by
  obtain ⟨hhead, hport, -, hwhole⟩ := ha
  show execTokenAccept ch c s = _
  unfold execTokenAccept headFlight
  rw [hhead, hport]
  dsimp only
  rw [hwhole, hz, hk, if_neg (by simp), if_pos (by simp [isPayload, hk])]

/-- A payload token that arrives is taken where its port takes it, and held there by a comparator that matches it. -/
theorem tokenAccept_payload (hk : f.tok.kind = .data ∨ f.tok.kind = .scale) : exec (.tokenAccept ch c) s = .next
    (if (!portTakes s p pl c) = true then s
    else match holdingBkpt s ch.w pl p.port f.tok with
      | none => putAtPort (endAwait (dropFlight s f) ch p.node f.tok.tag) p (some ch) f.tok none
      | some k =>
        let s1 := endAwait (dropFlight s f) ch p.node f.tok.tag
        let s2 := { s1 with dev := { s1.dev with bkpts := mupd {} s1.dev.bkpts k (fun b => { b with hit := true }) } }
        logOnly (putAtPort s2 p (some ch) f.tok (some (k, s.now))) (portOrigin pl p.node f.tok.tag) { cause := .brk, detail := 15 }) := by
  obtain ⟨hhead, hport, hplaced, hwhole⟩ := ha
  have hpay := (payload_iff f.tok).2 hk
  have hm : f.tok.kind ≠ .marker := by obtain h | h := hk <;> rw [h] <;> decide
  show execTokenAccept ch c s = _
  unfold execTokenAccept headFlight
  rw [hhead, hport]
  dsimp only
  rw [hwhole, hz, hpay, hplaced, if_neg (by simpa using hm), if_neg (show ¬ (!true) = true by decide)]
  dsimp only
  cases portTakes s p pl c with
  | false => rfl
  | true => cases holdingBkpt s ch.w pl p.port f.tok <;> rfl

theorem tokenAccept_full (hk : f.tok.kind = .data ∨ f.tok.kind = .scale) (ht : portTakes s p pl c = false) : exec (.tokenAccept ch c) s = .next s := by
  rw [tokenAccept_payload ha hz hk, ht]
  rfl

theorem tokenAccept_takes (hk : f.tok.kind = .data ∨ f.tok.kind = .scale) (ht : portTakes s p pl c = true) : ∃ t, exec (.tokenAccept ch c) s = .next t
    ∧ t.flights = delFirst (fun y => y == f) s.flights
    ∧ t.ptoks = s.ptoks ++ [waits p (some ch) f.tok ((holdingBkpt s ch.w pl p.port f.tok).map (fun k => (k, s.now)))]
    ∧ ∃ y, y ∈ t.timers ∧ y.at_ = p ∧ y.colour = f.tok.tag.colour := by
  rw [tokenAccept_payload ha hz hk, ht, if_neg (show ¬ (!true) = true by decide)]
  cases holdingBkpt s ch.w pl p.port f.tok with
  | none => exact ⟨_, rfl, rfl, rfl, putAt_timer _ _ _ _ _⟩
  | some k =>
    refine ⟨_, rfl, ?_⟩
    dsimp only
    obtain ⟨hflights, hptoks, htimers⟩ := logOnly_keep (putAtPort _ p (some ch) f.tok (some (k, s.now))) (portOrigin pl p.node f.tok.tag) { cause := .brk, detail := 15 }
    rw [hflights, hptoks, htimers]
    exact ⟨rfl, rfl, putAt_timer _ _ _ _ _⟩

end

/-! #### Sending (R286) -/

section
variable {s : State} {ch : ChanId} {c : Colour} {o : OutTok} (hz : chanFrozen s ch c = false) (hm : markerSent s ch = false)
  (hn : nextOut s ch c = some o) (hc : heldByCut s o = false)
include hz hm hn hc

/-- What a channel that is neither frozen nor closed by a MARKER does with its next token. -/
theorem tokenSend_next : exec (.tokenSend ch c) s =
    if (!isPayload o.tok) = true then .next (sendOut s ch o)
    else if credit s ch c = 0 ∨ outranked s ch o = true then .next s
    else if o.owner.isSome = true then .next (sendOut s ch o)
    else .next (enter s (entryDie s o.at_.node) ch c (fun st => sendOut st ch o)) := by
  show execTokenSend ch c s = _
  unfold execTokenSend
  rw [hz, hm, if_neg (by simp), hn]
  dsimp only
  rw [hc, if_neg Bool.false_ne_true]
  simp only [Bool.or_eq_true, decide_eq_true_eq]

theorem tokenSend_free (hp : isPayload o.tok = false) : exec (.tokenSend ch c) s = .next (sendOut s ch o) := by
  rw [tokenSend_next hz hm hn hc, hp]
  rfl

variable (hp : isPayload o.tok = true)
include hp

theorem tokenSend_noCredit (h0 : credit s ch c = 0) : exec (.tokenSend ch c) s = .next s := by
  rw [tokenSend_next hz hm hn hc, hp, if_neg (show ¬ (!true) = true by decide), if_pos (.inl h0)]

variable (h0 : credit s ch c ≠ 0) (hr : outranked s ch o = false)
include h0 hr

/-- A token with credit whose turn on its channel has come goes, or asks at the ingress of its die. -/
theorem tokenSend_credit : exec (.tokenSend ch c) s =
    if o.owner.isSome = true then .next (sendOut s ch o) else .next (enter s (entryDie s o.at_.node) ch c (fun st => sendOut st ch o)) := by
  rw [tokenSend_next hz hm hn hc, hp, if_neg (show ¬ (!true) = true by decide), if_neg (by simp [h0, hr])]

theorem tokenSend_goes (hg : o.owner.isSome = true ∨ ingressTurn s (entryDie s o.at_.node) ch c = true) :
    ∃ t, exec (.tokenSend ch c) s = .next t ∧ t.flights = s.flights ++ [departs ch o.tok]
      ∧ t.outq = updFirst (fun y => y == o) (fun y => { y with todo := y.todo.filter (· != ch.n), sent := y.sent ++ [ch.n] }) s.outq := by
  rw [tokenSend_credit hz hm hn hc hp h0 hr]
  cases ho : o.owner.isSome with
  | true => exact ⟨_, rfl, rfl, rfl⟩
  | false =>
    have ht : ingressTurn s (entryDie s o.at_.node) ch c = true := hg.resolve_left (by rw [ho]; exact Bool.false_ne_true)
    unfold enter
    rw [if_neg Bool.false_ne_true, if_pos ht]
    exact ⟨_, rfl, takeUnit_flights _ _, takeUnit_outq _ _⟩

theorem tokenSend_queues (ho : o.owner = none) (ht : ingressTurn s (entryDie s o.at_.node) ch c = false) :
    ∃ l, exec (.tokenSend ch c) s = .next { s with waiters := l } := by
  rw [tokenSend_credit hz hm hn hc hp h0 hr, ho]
  unfold enter joinWait
  rw [ht, if_neg (by simp), if_neg Bool.false_ne_true]
  split
  · exact ⟨s.waiters, rfl⟩
  · exact ⟨_, rfl⟩

end

/-! #### Parity errors, hard faults and partial tokens (R297, R374, R375) -/

/-- The instances of a replayed list are gone after it, and none comes back. -/
theorem replay_insts (ch : Option ChanId) (l : List BInst) : ∀ (s : State) (b : BInst), b ∈ (l.foldl (replayInst ch) s).insts → b ∈ s.insts ∧ b ∉ l := by
  induction l with
  | nil => exact fun s b hb => ⟨hb, List.not_mem_nil⟩
  | cons a l ih =>
    intro s b hb
    obtain ⟨hmem, hnot⟩ := ih (replayInst ch s a) b hb
    have hfilter : (replayInst ch s a).insts = s.insts.filter (fun x => !x.isAt a.cell a.seq) := by
      show (returnTag s a.node a.spawned).insts.filter _ = _
      rw [returnTag_insts]
    rw [hfilter] at hmem
    obtain ⟨hs, ha⟩ := List.mem_filter.1 hmem
    refine ⟨hs, fun h => ?_⟩
    obtain rfl | h := List.mem_cons.1 h
    · rw [isAt_self] at ha
      cases ha
    · exact hnot h

/-- A firing that an instance came from and that awaits a token on a channel. -/
def AwaitsAgain (s : State) (ch : ChanId) (b : BInst) : Prop :=
  ∃ g, g ∈ s.firings ∧ g.cell = b.cell ∧ g.seq = b.seq ∧ g.node = b.node ∧ g.tag = b.tag ∧ g.await = some ch

/-- The firings after an instance goes back, the instance's own among them. -/
theorem replayInst_firings (ch : ChanId) (s : State) (a : BInst) : (replayInst (some ch) s a).firings = (s.firings ++ [firingOf s a a.kind]).map
    (fun f => if f.cell = a.cell ∧ f.seq = a.seq then { f with await := some ch, counting := none } else f) := by
  show ((returnTag s a.node a.spawned).firings ++ _).map _ = _
  rw [show (returnTag s a.node a.spawned).firings = s.firings by cases a.spawned <;> rfl]
  rfl

theorem replayInst_awaits (ch : ChanId) (s : State) (a : BInst) : AwaitsAgain (replayInst (some ch) s a) ch a := by
  refine ⟨{ firingOf s a a.kind with await := some ch, counting := none }, ?_, rfl, rfl, rfl, rfl, rfl⟩
  rw [replayInst_firings]
  exact List.mem_map.2 ⟨firingOf s a a.kind, List.mem_append_right _ (List.mem_singleton.2 rfl), if_pos ⟨rfl, rfl⟩⟩

theorem replayInst_keeps {ch : ChanId} {s : State} {b : BInst} (hb : AwaitsAgain s ch b) (a : BInst) : AwaitsAgain (replayInst (some ch) s a) ch b := by
  obtain ⟨g, hg, hcell, hseq, hnode, htag, hawait⟩ := hb
  refine ⟨if g.cell = a.cell ∧ g.seq = a.seq then { g with await := some ch, counting := none } else g, ?_, ?_⟩
  · rw [replayInst_firings]
    exact List.mem_map.2 ⟨g, List.mem_append_left _ hg, rfl⟩
  · split
    · exact ⟨hcell, hseq, hnode, htag, rfl⟩
    · exact ⟨hcell, hseq, hnode, htag, hawait⟩

theorem replay_awaits (ch : ChanId) (l : List BInst) : ∀ (s : State) (b : BInst), (b ∈ l ∨ AwaitsAgain s ch b) →
    AwaitsAgain (l.foldl (replayInst (some ch)) s) ch b := by
  induction l with
  | nil => exact fun s b hb => hb.resolve_left List.not_mem_nil
  | cons a l ih =>
    intro s b hb
    refine ih _ b ?_
    obtain hb | hb := hb
    · obtain rfl | hb := List.mem_cons.1 hb
      · exact .inr (replayInst_awaits ch s b)
      · exact .inl hb
    · exact .inr (replayInst_keeps hb a)

theorem replayInst_flights (ch : Option ChanId) (s : State) (a : BInst) : (replayInst ch s a).flights = s.flights := by
  show (returnTag s a.node a.spawned).flights = _
  exact returnTag_flights _ _ _

theorem replayInst_ptoks (ch : Option ChanId) (s : State) (a : BInst) : (replayInst ch s a).ptoks = s.ptoks := by
  show (returnTag s a.node a.spawned).ptoks = _
  cases a.spawned <;> rfl

@[simp] theorem listHard_flights (s : State) (cell : Option Nat) : (listHard s cell).flights = s.flights := by
  cases cell with
  | none => rfl
  | some c => exact (cutBad_flights _).trans (listBad_flights s c)

section
variable {s : State} {ch : ChanId} {c : Colour} {f : Flight} {p : PortId} {pl : Placed} (ha : Arrives s ch c f p pl)
include ha

theorem parityError_soft (he : f.errs < 3) : ∃ t, exec (.parityError ch c) s = .next t
    ∧ t.flights = updFirst (fun y => y == f) (fun y => { y with errs := y.errs + 1 }) s.flights ∧ t.ptoks = s.ptoks
    ∧ ∀ b, b ∈ s.insts → b.node = p.node → b.tag = f.tok.tag → b.begun = false → b.durable = false → b ∉ t.insts ∧ AwaitsAgain t ch b := by
  obtain ⟨hhead, hport, hplaced, hwhole⟩ := ha
  let s1 : State := { s with flights := updFirst (fun x => x == f) (fun x => { x with errs := x.errs + 1 }) s.flights }
  let s2 : State := (replayed s1 p.node f.tok.tag).foldl (replayInst (some ch)) s1
  have hr : exec (.parityError ch c) s = .next (logOnly s2 (portOrigin pl p.node f.tok.tag) (fail .parity)) := by
    show execParityError ch c s = _
    unfold execParityError headFlight
    rw [hhead, hport]
    dsimp only
    rw [hplaced]
    dsimp only
    rw [hwhole, if_neg Bool.false_ne_true, if_neg (Nat.not_le_of_lt he)]
  obtain ⟨hflights, hptoks, -⟩ := logOnly_keep s2 (portOrigin pl p.node f.tok.tag) (fail .parity)
  refine ⟨_, hr, hflights.trans (foldl_flights _ (replayInst_flights _) _ s1), hptoks.trans (foldl_ptoks _ (replayInst_ptoks _) _ s1), ?_⟩
  intro b hb hnode htag hbegun hdur
  have hmem : b ∈ replayed s1 p.node f.tok.tag := List.mem_filter.2 ⟨hb, by simp [hnode, htag, hbegun, hdur]⟩
  refine ⟨fun hi => ?_, ?_⟩
  · rw [logOnly_insts] at hi
    exact (replay_insts _ _ s1 b hi).2 hmem
  · have := replay_awaits ch _ s1 b (.inl hmem)
    unfold AwaitsAgain logOnly at *
    rwa [logRecord_firings]

theorem parityError_waits (he : 3 ≤ f.errs) (ht : inTurn s .fault p.node (faultPlace pl.cell 0) = false) : exec (.parityError ch c) s = .next s := by
  obtain ⟨hhead, hport, hplaced, hwhole⟩ := ha
  show execParityError ch c s = _
  unfold execParityError headFlight
  rw [hhead, hport]
  dsimp only
  rw [hplaced]
  dsimp only
  rw [hwhole, if_neg Bool.false_ne_true, if_pos he, ht]
  rfl

theorem parityError_hard (he : 3 ≤ f.errs) (ht : inTurn s .fault p.node (faultPlace pl.cell 0) = true) :
    ∃ t, exec (.parityError ch c) s = .next t ∧ t.flights = delFirst (fun y => y == f) s.flights := by
  obtain ⟨hhead, hport, hplaced, hwhole⟩ := ha
  show ∃ t, execParityError ch c s = _ ∧ _
  unfold execParityError headFlight
  rw [hhead, hport]
  dsimp only
  rw [hplaced]
  dsimp only
  rw [hwhole, if_neg Bool.false_ne_true, if_pos he, ht, if_neg (show ¬ (!true) = true by decide)]
  refine ⟨_, rfl, ?_⟩
  rw [listHard_flights, faultKey_flights]
  split <;> rfl

end

theorem partialTokenAbort_drops {s : State} {ch : ChanId} {c : Colour} {f : Flight}
    (hf : s.flights.find? (fun f => f.chan == ch && f.tok.tag.colour == c && f.partialTok) = some f) :
    ∃ t, exec (.partialTokenAbort ch c) s = .next t ∧ t.flights = delFirst (fun y => y == f) s.flights
      ∧ t.credRet = (if isPayload f.tok then s.credRet ++ [(ch, c)] else s.credRet) ∧ t.ptoks = s.ptoks := by
  show ∃ t, execPartialTokenAbort ch c s = _ ∧ _
  unfold execPartialTokenAbort
  rw [hf]
  dsimp only
  refine ⟨_, rfl, ?_⟩
  cases isPayload f.tok <;> cases (chanEnd s ch).bind (homePort s) <;> exact ⟨rfl, rfl, rfl⟩

section
variable {s : State} {ch : ChanId} {c : Colour} {f : Flight} (hf : (s.flights.filter (fun f => f.chan == ch && f.tok.tag.colour == c)).getLast? = some f)
include hf

theorem hardFault_waits {n : NodeId} {p : Placed} (hs : (sourceOf s ch f.tok).bind (fun n => (placedOf s n).map (fun p => (n, p))) = some (n, p))
    (ht : inTurn s .fault n (faultPlace p.cell 0) = false) : exec (.hardFault ch c) s = .next s := by
  show execHardFault ch c s = _
  unfold execHardFault
  rw [hf]
  dsimp only
  rw [hs]
  dsimp only
  rw [ht]
  rfl

theorem hardFault_cuts (hw : ¬ ∃ n p, (sourceOf s ch f.tok).bind (fun n => (placedOf s n).map (fun p => (n, p))) = some (n, p)
      ∧ inTurn s .fault n (faultPlace p.cell 0) = false) :
    ∃ t, exec (.hardFault ch c) s = .next t ∧ t.flights = updFirst (fun y => y == f) (fun y => { y with partialTok := true }) s.flights := by
  show ∃ t, execHardFault ch c s = _ ∧ _
  unfold execHardFault
  rw [hf]
  dsimp only
  cases hs : (sourceOf s ch f.tok).bind (fun n => (placedOf s n).map (fun p => (n, p))) with
  | none => exact ⟨_, rfl, rfl⟩
  | some np =>
    have ht : inTurn s .fault np.1 (faultPlace np.2.cell 0) = true := by
      by_contra h
      exact hw ⟨np.1, np.2, hs, Bool.eq_false_iff.2 h⟩
    dsimp only
    rw [ht, if_neg (show ¬ (!true) = true by decide)]
    exact ⟨_, rfl, by rw [listHard_flights, faultKey_flights]⟩

end

/-! #### The exception channel (R291) -/

section
variable {s : State} {x : CtxId} {e : CtxId × Token} {n : Nat} (he : s.excFlight.find? (fun e => e.1 == x) = some e)
  (hn : supervisorOf (ctxOf s x.w x.x) = some n)
include he hn

theorem excDelivery_full (hfull : 32 ≤ (s.ptoks.filter (fun t => t.at_ == { node := { w := x.w, x := x.x, n := n }, port := 15 } && t.chan.isNone)).length) :
    ∃ t, exec (.excDelivery x) s = .next t ∧ t.ptoks = s.ptoks ∧ (ctxOf t x.w x.x).excDrops = min ((ctxOf s x.w x.x).excDrops + 1) (2 ^ 32 - 1) := by
  show ∃ t, execExcDelivery x s = _ ∧ _
  unfold execExcDelivery
  dsimp only
  rw [he, hn]
  dsimp only
  rw [if_pos hfull]
  exact ⟨_, rfl, rfl, by rw [limitCtx_put]⟩

theorem excDelivery_room (hroom : ¬ 32 ≤ (s.ptoks.filter (fun t => t.at_ == { node := { w := x.w, x := x.x, n := n }, port := 15 } && t.chan.isNone)).length) :
    ∃ t v, exec (.excDelivery x) s = .next t
      ∧ t.ptoks = s.ptoks ++ [waits { node := { w := x.w, x := x.x, n := n }, port := 15 } none
          { tag := { colour := 0, context := x.x, iter := 0 }, kind := .data, aux := e.2.aux, val := v } none]
      ∧ (∀ k, k < 16 → slotOf v k = if k = 4 ∧ e.2.aux = 11 then some (BitVec.ofNat 32 (ctxOf s x.w x.x).excDrops) else slotOf e.2.val k)
      ∧ (ctxOf t x.w x.x).excDrops = if e.2.aux = 11 then 0 else (ctxOf s x.w x.x).excDrops := by
  show ∃ t v, execExcDelivery x s = _ ∧ _
  unfold execExcDelivery
  dsimp only
  rw [he, hn]
  dsimp only
  rw [if_neg hroom]
  by_cases hs : e.2.aux = 11
  · rw [beq_iff_eq.2 hs]
    refine ⟨_, _, rfl, rfl, fun k hk => ?_, ?_⟩
    · rw [if_pos rfl, slotOf_valOf _ k hk]
      simp only [hs, and_true]
    · rw [if_pos hs]
      exact congrArg Ctx.excDrops (limitCtx_put _ x _)
  · rw [beq_eq_false_iff_ne.2 hs]
    refine ⟨_, _, rfl, rfl, fun k _ => ?_, ?_⟩
    · exact (if_neg (fun h => hs h.2)).symm
    · rw [if_neg hs]
      rfl

end

/-! #### Stall timers (R290) -/

theorem sendExc_sends {s : State} {x : CtxId} (hs : supervisorOf (ctxOf s x.w x.x) ≠ none) (c : Cause) (l : List Nat) (v : BitVec 16) :
    (sendExc s x c l v).excFlight = s.excFlight ++ [(x, excTok x.x c l v)] := by
  unfold sendExc
  rw [if_neg (by simpa using hs)]

theorem sendExc_worlds (s : State) (x : CtxId) (c : Cause) (l : List Nat) (v : BitVec 16) : (sendExc s x c l v).worlds = s.worlds := by
  unfold sendExc
  split <;> rfl

section
variable {s : State} {n : NodeId} {port : BitVec 4} {c : Colour} {y : StallTimer} {p : Placed}
  (hy : s.timers.find? (fun t => t.at_ == ({ node := n, port := port.toNat } : PortId) && t.colour == c) = some y) (hp : placedOf s n = some p)

/-- A timer is due: it has not fired, its colour has a limit, no breakpoint holds a token of its, and its time is over. -/
def StallDue (s : State) (n : NodeId) (c : Colour) (y : StallTimer) : Prop :=
  y.fired = false ∧ limitOf (nodeCtx s n) c ≠ 0 ∧ (∀ q, q ∈ s.ptoks → q.at_ = y.at_ → q.tok.tag.colour = y.colour → q.bkpt = none)
    ∧ y.start + 1024 * limitOf (nodeCtx s n) c ≤ s.now

theorem stallDue_iff : StallDue s n c y ↔ ¬ (y.fired || limitOf (nodeCtx s n) c == 0 || s.ptoks.any (fun x => y.covers x && x.bkpt.isSome)
    || decide (s.now < y.start + 1024 * limitOf (nodeCtx s n) c)) = true := by
  simp only [StallDue, StallTimer.covers, Bool.or_eq_true, not_or, Bool.not_eq_true, List.any_eq_false, Bool.and_eq_true, beq_iff_eq, decide_eq_true_eq,
    Nat.not_lt, Option.isSome_eq_false_iff, Option.isNone_iff_eq_none, not_and, and_assoc, ne_eq, eq_comm (a := y.at_), eq_comm (a := y.colour)]

include hy hp

theorem stallTimer_early (hd : ¬ StallDue s n c y) : exec (.stallTimer n port c) s = .next s := by
  show execStallTimer n port c s = _
  unfold execStallTimer
  dsimp only
  rw [hy, hp]
  exact if_pos (Decidable.of_not_not fun h => hd (stallDue_iff.2 h))

theorem stallTimer_fires (hd : StallDue s n c y) : ∃ t, exec (.stallTimer n port c) s = .next t
    ∧ (worldOf t n.w).fltSeq = ((worldOf s n.w).fltSeq + 1) % 2 ^ 32
    ∧ t.timers = updFirst (fun z => z.at_ == ({ node := n, port := port.toNat } : PortId) && z.colour == c) (fun z => { z with fired := true }) s.timers
    ∧ (supervisorOf (nodeCtx s n) ≠ none → ∃ e, t.excFlight = s.excFlight ++ [(({ w := n.w, x := n.x } : CtxId), e)] ∧ e.kind = .exc ∧ e.aux = 11) := by
  let s1 : State := { s with timers := updFirst (fun z => z.at_ == ({ node := n, port := port.toNat } : PortId) && z.colour == c) (fun z => { z with fired := true }) s.timers }
  let x : CtxId := { w := n.w, x := n.x }
  let l := stallSlots s n p port.toNat c (limitOf (nodeCtx s n) c) (worldOf s n.w).fltSeq
  have hr : exec (.stallTimer n port c) s = .next (logRecord (sendExc s1 x .stall l 0x801F) x l) := by
    show execStallTimer n port c s = _
    unfold execStallTimer
    dsimp only
    rw [hy, hp]
    exact if_neg (stallDue_iff.1 hd)
  refine ⟨_, hr, ?_, ?_, fun hs => ⟨excTok x.x .stall l 0x801F, ?_, rfl, rfl⟩⟩
  · have hw : worldOf (sendExc s1 x .stall l 0x801F) n.w = worldOf s n.w := worldOf_congr (s := s) (sendExc_worlds s1 x .stall l 0x801F) n.w
    exact (logRecord_seq _ x l).trans (by rw [hw])
  · rw [logRecord_timers, sendExc_timers]
  · rw [logRecord_excFlight]
    exact sendExc_sends (s := s1) (x := x) hs .stall l 0x801F

end

/-- Settles O39: each event by the lemma on its case, a parity error by the replay of its key's instances. -/
theorem tokenEvents : Obligations.TokenEvents := by
  unfold Obligations.TokenEvents
  refine ⟨fun s ch c f p pl ha hz => ⟨fun hk => ⟨_, tokenAccept_done ha hz hk, rfl, rfl⟩, fun hk => ⟨tokenAccept_full ha hz hk, tokenAccept_takes ha hz hk⟩⟩,
    fun s ch c o hz hm hn hc => ⟨fun hp => ⟨_, tokenSend_free hz hm hn hc hp, rfl, rfl⟩, tokenSend_noCredit hz hm hn hc,
      fun hp h0 hr => ⟨tokenSend_goes hz hm hn hc hp h0 hr, tokenSend_queues hz hm hn hc hp h0 hr⟩⟩,
    fun _ _ _ => rfl, fun _ _ => rfl, fun s ch c f p pl ha => ⟨parityError_soft ha, fun he => ⟨parityError_waits ha he, parityError_hard ha he⟩⟩,
    fun s ch c f => partialTokenAbort_drops, fun s ch c f hf => ⟨fun ⟨n, p, hs, ht⟩ => hardFault_waits hf hs ht, hardFault_cuts hf⟩,
    fun s x e n he hn => ⟨excDelivery_full he hn, excDelivery_room he hn⟩,
    fun s n port c y p hy hp => ⟨stallTimer_early hy hp, stallTimer_fires hy hp⟩⟩

end Sys2Proof.Proofs
end

section
namespace Sys2Proof.Proofs
open Sys2Proof Sys2Proof.Machine Sys2Proof.Claims Sys2Proof.Laws

/-! ### Engine operations (R266 to R271, R275, R278 to R280, R319) -/

/-! #### A point of a copy (R266) -/

section
variable {s : State} {o : EngOp} {d : CopyDesc} {fixed : Option Nat} {off k : Nat}

theorem copyPoint_outside (hv : inView d.dst d.rank fixed (pointAt d.box k) = false) : copyPoint s o d fixed off k = .ok s := if_pos hv

variable (hv : inView d.dst d.rank fixed (pointAt d.box k) = true)
  (hl : laterWrote d fixed k (viewAddr d.dst d.rank fixed (pointAt d.box k)) o.done = false)
include hv hl

/-- A point that pads is the store of the padding. -/
theorem copyPoint_pads (hs : inView d.src d.rank none (pointAt d.box k) = false) {t : State}
    (ht : engStore s o d.dst.sp (viewAddr d.dst d.rank fixed (pointAt d.box k) + off) (2 ^ d.src.esz) ((d.src.pad + 2 ^ 32 * d.src.pad) % 2 ^ (8 * 2 ^ d.src.esz)) = .ok t) :
    copyPoint s o d fixed off k = .ok t := by
  unfold copyPoint
  dsimp only
  rw [if_neg (by rw [hv]; decide), hs, if_neg Bool.false_ne_true]
  dsimp only
  rw [hl, if_neg Bool.false_ne_true, ht]
  rfl

/-- A point that moves is the store of the element that the source holds there. -/
theorem copyPoint_moves (hs : inView d.src d.rank none (pointAt d.box k) = true) {x : Nat}
    (hx : engAddr s o d.src.sp (viewAddr d.src d.rank none (pointAt d.box k)) (2 ^ d.src.esz) true false = .ok x) {t : State}
    (ht : engStore (engTouch s d.src.sp x) o d.dst.sp (viewAddr d.dst d.rank fixed (pointAt d.box k) + off) (2 ^ d.src.esz) (readLE s.mem x (2 ^ d.src.esz)) = .ok t) :
    copyPoint s o d fixed off k = .ok t := by
  unfold copyPoint
  dsimp only
  rw [if_neg (by rw [hv]; decide), hs, if_pos rfl, hx]
  dsimp only [Except.map]
  rw [hl, if_neg Bool.false_ne_true, ht]
  rfl

end

theorem typeAt_engTouch (s : State) (sp : Bool) (pa a : Nat) : typeAt (engTouch s sp pa) a = typeAt s a := by
  rw [engTouch_eq]
  rfl

/-- The place that a point of a copy writes, once the point is known to write there. -/
theorem copyPoint_written {s : State} {o : EngOp} {d : CopyDesc} {fixed : Option Nat} {off k pa : Nat}
    (hv : inView d.dst d.rank fixed (pointAt d.box k) = true) (hl : laterWrote d fixed k (viewAddr d.dst d.rank fixed (pointAt d.box k)) o.done = false)
    (hpa : engAddr s o d.dst.sp (viewAddr d.dst d.rank fixed (pointAt d.box k) + off) (2 ^ d.src.esz) false true = .ok pa)
    (hty : d.dst.sp = true ∨ ∀ i, i < 2 ^ d.src.esz → typeAt s (pa + i) = 0) :
    (inView d.src d.rank none (pointAt d.box k) = false → ∃ t, copyPoint s o d fixed off k = .ok t ∧ WritesOnly s t
      ∧ Written s t (bytesAt pa (2 ^ d.src.esz)) ((d.src.pad + 2 ^ 32 * d.src.pad) % 2 ^ (8 * 2 ^ d.src.esz)))
    ∧ ∀ x, inView d.src d.rank none (pointAt d.box k) = true →
      engAddr s o d.src.sp (viewAddr d.src d.rank none (pointAt d.box k)) (2 ^ d.src.esz) true false = .ok x →
      ∃ t, copyPoint s o d fixed off k = .ok t ∧ WritesOnly s t ∧ Written s t (bytesAt pa (2 ^ d.src.esz)) (numberAt s (bytesAt x (2 ^ d.src.esz))) := by
  refine ⟨fun hs => ?_, fun x hs hx => ?_⟩
  · obtain ⟨t, ht, hrest⟩ := engStore_ok hpa hty
    exact ⟨t, copyPoint_pads hv hl hs ht, hrest⟩
  · obtain ⟨hw, hmem⟩ := engTouch_only s d.src.sp x
    obtain ⟨t, ht, hwt, hwritten⟩ := engStore_ok (s := engTouch s d.src.sp x) (v := readLE s.mem x (2 ^ d.src.esz)) ((engAddr_touch ..).trans hpa)
      (hty.imp_right fun h i hi => (typeAt_engTouch ..).trans (h i hi))
    refine ⟨t, copyPoint_moves hv hl hs hx ht, wtrans hw hwt, ?_⟩
    rw [readLE_number] at hwritten
    unfold Written at *
    rwa [hmem] at hwritten

/-! #### Chunks and whole boxes (R267, R268) -/

/-- The bit of a chunk is set by one atomic at its word's home (R254). -/
theorem setChunkBit_sets {s : State} {o : EngOp} {d : CopyDesc} {j pa : Nat} (hty : typeAt s pa = 2)
    (hpa : access s (some (opHolder o)) o.node.w o.tag.colour (d.bmap + 8 * (j / 64)) 8 true true = .ok pa) :
    ∃ t, setChunkBit s o d j = .ok t ∧ t.ops = s.ops ∧ Written s t (bytesAt pa 8) (numberAt s (bytesAt pa 8) ||| 2 ^ (j % 64)) := by
  unfold setChunkBit
  dsimp only
  rw [hpa]
  dsimp only
  rw [if_neg (not_not_intro hty), readLE_number]
  exact ⟨_, rfl, rfl, written_cells rfl⟩

theorem copyPoints_ops {s t : State} {o : EngOp} {d : CopyDesc} {fixed : Option Nat} {off : Nat} {l : List Nat} (h : copyPoints o d fixed off s l = .ok t) :
    t.ops = s.ops := by
  rw [copyPoints_cases l h]

section
variable {s : State} {id : Nat} {o : EngOp} {d : CopyDesc} (ho : findOp s id = some o) (hk : o.kind = .copy d)
include ho hk

section
variable {j : Nat}

theorem chunkComplete_closed (hc : ¬ (o.stuck = none ∧ d.nbw ≠ 0 ∧ j ∉ o.chunks ∧ chunkPoints d j ≠ [])) : exec (.chunkComplete id j) s = .next s := by
  show execChunkComplete id j s = _
  unfold execChunkComplete
  rw [ho]
  dsimp only
  rw [hk]
  refine if_pos (Decidable.of_not_not fun h => hc ?_)
  simpa [not_or, ← Option.isNone_iff_eq_none, List.isEmpty_iff, and_assoc] using h

theorem chunkComplete_sets (hc : o.stuck = none ∧ d.nbw ≠ 0 ∧ j ∉ o.chunks ∧ chunkPoints d j ≠ []) {s1 : State} {pa : Nat}
    (hs : copyPoints o d none 0 s (chunkPoints d j) = .ok s1) (hty : typeAt s1 pa = 2)
    (hpa : access s1 (some (opHolder o)) o.node.w o.tag.colour (d.bmap + 8 * (j / 64)) 8 true true = .ok pa) :
    ∃ t, exec (.chunkComplete id j) s = .next t ∧ Written s1 t (bytesAt pa 8) (numberAt s1 (bytesAt pa 8) ||| 2 ^ (j % 64))
      ∧ ∃ o1, t.ops = updFirst (fun x => x.id == id) (fun _ => o1) s.ops ∧ o1.chunks = j :: o.chunks ∧ (∀ k, k ∈ o1.done ↔ k ∈ o.done ∨ k ∈ chunkPoints d j) := by
  let o1 : EngOp := { o with done := o.done ++ (chunkPoints d j).filter (fun k => !o.done.contains k) }
  obtain ⟨u, hu, hops, hwritten⟩ := setChunkBit_sets (o := o1) hty hpa
  have hr : exec (.chunkComplete id j) s = .next (putOp u { o1 with chunks := j :: o.chunks }) := by
    show execChunkComplete id j s = _
    unfold execChunkComplete
    rw [ho]
    dsimp only
    rw [hk]
    obtain ⟨hstuck, hnbw, hj, hpts⟩ := hc
    refine (if_neg ?_).trans ?_
    · simp [hstuck, hnbw, hj, hpts]
    · rw [hs]
      dsimp only
      rw [show setChunkBit s1 o d j = .ok u from hu]
  refine ⟨_, hr, hwritten, { o1 with chunks := j :: o.chunks }, ?_, rfl, fun k => ?_⟩
  · show updFirst (fun x => x.id == o.id) _ u.ops = _
    rw [hops, copyPoints_ops hs, findOp_id ho]
  · by_cases hd : k ∈ o.done <;> simp [o1, hd]

end

/-- What a whole copy needs to end: it stands at no point, it can report, and its chunks are done. -/
def CopyReady (s : State) (o : EngOp) (d : CopyDesc) : Prop := o.stuck = none ∧ canReport s o = true ∧ (d.nbw = 0 ∨ ∀ j, j ∈ copyChunks d → j ∈ o.chunks)

omit ho hk in
theorem copyReady_iff : CopyReady s o d ↔ ¬ (o.stuck.isSome || !canReport s o || (d.nbw != 0 && (copyChunks d).any (fun j => !o.chunks.contains j))) = true := by
  simp [CopyReady, ← Option.isNone_iff_eq_none, or_iff_not_imp_left]

theorem copyComplete_waits (hr : ¬ CopyReady s o d) : exec (.copyComplete id) s = .next s := by
  show execCopyComplete id s = _
  unfold execCopyComplete
  rw [ho]
  dsimp only
  rw [hk]
  exact if_pos (Decidable.of_not_not fun h => hr (copyReady_iff.2 h))

theorem copyComplete_ends (hr : CopyReady s o d) {s1 : State} (hs : copyPoints o d none 0 s (List.range (boxSize d)) = .ok s1) :
    exec (.copyComplete id) s = .next (reportOp (endOp s1 o) o (completionVal 0 none [])) := by
  show execCopyComplete id s = _
  unfold execCopyComplete
  rw [ho]
  dsimp only
  rw [hk]
  refine (if_neg (copyReady_iff.1 hr)).trans ?_
  rw [show opPoints o = List.range (boxSize d) by unfold opPoints; rw [hk], hs]

end

/-! #### Streams and their notices (R269 to R271) -/

section
variable {s : State} {id : Nat} {o : EngOp} {d : CopyDesc} {st : StreamSt} (ho : findOp s id = some o) (hk : o.kind = .stream d st)

/-- What a stream needs to move its next tile: a free slot, room for its report, and no cut of its context. -/
def TileReady (s : State) (o : EngOp) (st : StreamSt) : Prop :=
  o.stuck = none ∧ (st.next < st.ns ∨ st.next - st.ns ∈ st.accepted) ∧ canReport s o = true ∧ (nodeCtx s o.node).cut = none

include hk in
theorem tileReady_iff : TileReady s o st ↔ ¬ (o.stuck.isSome || !tileReady o || !canReport s o || (nodeCtx s o.node).cut.isSome) = true := by
  simp only [TileReady, tileReady, hk, Bool.or_eq_true, not_or, Bool.not_eq_true, Bool.not_eq_true', decide_eq_true_eq, List.contains_iff_mem,
    Option.isSome_eq_false_iff, Option.isNone_iff_eq_none, Bool.not_eq_false, and_assoc]

include ho hk

theorem streamTile_waits (hr : ¬ TileReady s o st) : exec (.streamTile id) s = .next s := by
  show execStreamTile id s = _
  unfold execStreamTile
  rw [ho]
  dsimp only
  rw [hk]
  exact if_pos (Decidable.of_not_not fun h => hr ((tileReady_iff hk).2 h))

theorem streamTile_moves (hr : TileReady s o st) {s1 : State} (hs : copyPoints o d (some (tileDim d)) (st.next % st.ns * st.slotb) s (opPoints o) = .ok s1) :
    exec (.streamTile id) s = .next (reportOp (afterTile s1 o d st false) o (readyVal o d st none)) := by
  show execStreamTile id s = _
  unfold execStreamTile
  rw [ho]
  dsimp only
  rw [hk]
  refine (if_neg ((tileReady_iff hk).1 hr)).trans ?_
  rw [show opTile o = (st.next % st.ns * st.slotb, some (tileDim d)) by unfold opTile; rw [hk], hs]

end

/-- A stream that has moved a tile and stands at its next one. -/
def nextTile (o : EngOp) (d : CopyDesc) (st : StreamSt) : EngOp :=
  { o with done := [], kind := .stream d { st with next := st.next + 1, newest := mput none st.newest (st.next % st.ns) (some st.next) } }

theorem afterTile_ops (s : State) (o : EngOp) (d : CopyDesc) (st : StreamSt) (ended : Bool) : (afterTile s o d st ended).ops =
    if ended = true ∨ st.next + 1 = d.box.getD (tileDim d) 0 then s.ops.filter (fun x => x.id != o.id)
    else updFirst (fun x => x.id == o.id) (fun _ => nextTile o d st) s.ops := by
  unfold afterTile tileCount
  simp only [Bool.or_eq_true, beq_iff_eq]
  split <;> rfl

theorem afterTile_only (s : State) (o : EngOp) (d : CopyDesc) (st : StreamSt) (ended : Bool) :
    afterTile s o d st ended = { s with ops := (afterTile s o d st ended).ops } := by
  unfold afterTile
  split <;> rfl

/-- A stream that goes on or ends after writes of its own reports its tile. -/
theorem afterTile_reported {s s1 : State} {id : Nat} {o : EngOp} (ho : findOp s id = some o) (hs : WritesOnly s s1) (d : CopyDesc) (st : StreamSt) (v : Val) :
    let t := reportOp (afterTile s1 o d st false) o v
    Reported s t o v ∧ t.mem = s1.mem ∧ (st.next + 1 = d.box.getD (tileDim d) 0 → t.ops = s.ops.filter (fun x => x.id != id))
      ∧ (st.next + 1 ≠ d.box.getD (tileDim d) 0 → t.ops = updFirst (fun x => x.id == id) (fun _ => nextTile o d st) s.ops) := by
  obtain ⟨hmem, hops, -⟩ := reportOp_rest (afterTile s1 o d st false) o v
  have hfixed : (afterTile s1 o d st false).outq = s.outq ∧ (afterTile s1 o d st false).evqs = s.evqs ∧ (afterTile s1 o d st false).ctxs = s.ctxs
      ∧ (afterTile s1 o d st false).now = s.now ∧ (afterTile s1 o d st false).mem = s1.mem := by
    rw [afterTile_only, hs]; exact ⟨rfl, rfl, rfl, rfl, rfl⟩
  obtain ⟨houtq, hevqs, hctxs, hnow, hmem1⟩ := hfixed
  rw [afterTile_ops, findOp_id ho, show s1.ops = s.ops by rw [hs]] at hops
  exact ⟨reportOp_spec houtq hevqs hctxs hnow, hmem.trans hmem1, fun hl => hops.trans (if_pos (.inr hl)), fun hl => hops.trans (if_neg (by simpa using hl))⟩

theorem noticeAccept_next {s : State} {cell : Nat} {n : Notice} (hn : s.notices.find? (fun n => n.cell == cell) = some n) : exec (.noticeAccept cell) s =
    .next { s with notices := delFirst (fun x => x.cell == cell) s.notices, ops := updFirst (fun o => accepts o n) (acceptTile n.tile) s.ops } := by
  show execNoticeAccept cell s = _
  unfold execNoticeAccept
  rw [hn]

/-- A notice frees its slot at the stream that sent its tile. -/
theorem accepted_ops {s : State} {n : Notice} {o : EngOp} {d : CopyDesc} {st : StreamSt} (ho : s.ops.find? (fun o => accepts o n) = some o)
    (hk : o.kind = .stream d st) : updFirst (fun o => accepts o n) (acceptTile n.tile) s.ops =
      updFirst (fun o => accepts o n) (fun o => { o with kind := .stream d { st with accepted := n.tile :: st.accepted } }) s.ops := by
  refine updFirst_congr _ _ _ _ fun a ha => ?_
  obtain rfl : o = a := Option.some.inj (ho.symm.trans ha)
  unfold acceptTile
  rw [hk]

/-! #### Collectives (R278 to R280) -/

/-- What a collective whose participants have all come and agree does (R278, R279). -/
def collMoves (s : State) (o : EngOp) (c : CollDesc) : Result :=
  match collSrc s o c (collLens c).1 0 with
  | .error _ => .next s
  | .ok own =>
    let wr := collWrite o c (fun n => collElem c c.rank n (fun r i => if r = c.rank then own.getD i 0
      else (((peersOf s c).find? (fun p => p.rank == r)).map (fun p => p.src.getD i 0)).getD 0)) (collWrites c) 0 (collTouch o c (collLens c).1 0 s)
    match wr.2 with
    | none => .next (endColl wr.1 o c 0 none)
    | some r => if r.cause = .stall then .next s else .next (endColl wr.1 o c 1 (some r))

section
variable {s : State} {id : Nat} {o : EngOp} {c : CollDesc} (ho : findOp s id = some o) (hk : o.kind = .coll c)
include ho hk

/-- The steps of a collective's end, in their order. -/
theorem collComplete_next : exec (.collComplete id) s =
    if (!canReport s o) = true then .next s
    else if (peersOf s c).any (fun p => p.failed) = true then .next (endColl s o c 8 none)
    else if (!allStarted s c) = true then .next s
    else if (peersOf s c).any (fun p => !sameColl c p.desc) = true then .next (endColl s o c 4 none)
    else collMoves s o c := by
  show execCollComplete id s = _
  unfold execCollComplete
  rw [ho]
  dsimp only
  rw [hk]
  rfl

theorem collTimeout_next : exec (.collTimeout id) s =
    if (!canReport s o || c.tmo == 0 || decide (s.now < o.start + c.tmo) || allStarted s c) = true then .next s
    else .next (endColl s o c (if (peersOf s c).any (fun p => p.failed) then 8 else 2) none) := by
  show execCollTimeout id s = _
  unfold execCollTimeout
  rw [ho]
  dsimp only
  rw [hk]

theorem coll_unreported (hr : canReport s o = false) : exec (.collComplete id) s = .next s ∧ exec (.collTimeout id) s = .next s := by
  rw [collComplete_next ho hk, collTimeout_next ho hk, hr]
  exact ⟨rfl, rfl⟩

theorem collTimeout_early (hd : ¬ (c.tmo ≠ 0 ∧ o.start + c.tmo ≤ s.now ∧ allStarted s c = false)) : exec (.collTimeout id) s = .next s := by
  rw [collTimeout_next ho hk]
  refine if_pos (Decidable.of_not_not fun h => hd ?_)
  simp only [Bool.or_eq_true, not_or, Bool.not_eq_true, beq_iff_eq, decide_eq_true_eq, Nat.not_lt] at h
  exact ⟨h.1.1.2, h.1.2, h.2⟩

variable (hr : canReport s o = true)
include hr

theorem collComplete_failed (hf : ∃ p, p ∈ peersOf s c ∧ p.failed = true) : exec (.collComplete id) s = .next (endColl s o c 8 none) := by
  rw [collComplete_next ho hk, hr, if_neg (by decide), if_pos (List.any_eq_true.2 hf)]

theorem collTimeout_ends (hd : c.tmo ≠ 0 ∧ o.start + c.tmo ≤ s.now ∧ allStarted s c = false) :
    exec (.collTimeout id) s = .next (endColl s o c (if (peersOf s c).any (fun p => p.failed) then 8 else 2) none) := by
  rw [collTimeout_next ho hk]
  obtain ⟨htmo, hlate, hstarted⟩ := hd
  exact if_neg (by simp [hr, htmo, hlate, hstarted])

variable (hf : ∀ p, p ∈ peersOf s c → p.failed = false)
include hf

theorem collComplete_waits (hs : allStarted s c = false) : exec (.collComplete id) s = .next s := by
  rw [collComplete_next ho hk, hr, if_neg (by decide), if_neg (by simpa using hf), hs]
  rfl

variable (hs : allStarted s c = true)
include hs

theorem collComplete_disagree (hd : ∃ p, p ∈ peersOf s c ∧ sameColl c p.desc = false) : exec (.collComplete id) s = .next (endColl s o c 4 none) := by
  rw [collComplete_next ho hk, hr, if_neg (by decide), if_neg (by simpa using hf), hs, if_neg (by decide), if_pos (by simpa using hd)]

theorem collComplete_agree (hd : ∀ p, p ∈ peersOf s c → sameColl c p.desc = true) : exec (.collComplete id) s = collMoves s o c := by
  rw [collComplete_next ho hk, hr, if_neg (by decide), if_neg (by simpa using hf), hs, if_neg (by decide), if_neg (by simpa using hd)]

end

theorem collTouch_only (o : EngOp) (c : CollDesc) : ∀ (n i : Nat) (s : State), WritesOnly s (collTouch o c n i s)
  | 0, _, _ => rfl
  | n + 1, i, s => by
    unfold collTouch
    split
    · rfl
    · next pa _ => exact wtrans (engTouch_only s false pa).1 (collTouch_only o c n (i + 1) _)

/-- What the end of a collective reports, over a state that its accesses alone have changed. -/
theorem collMoves_ends {s s1 : State} {o : EngOp} {c : CollDesc} {own : List Nat} (ho : collSrc s o c (collLens c).1 0 = .ok own)
    (hw : collWrite o c (fun n => collElem c c.rank n (fun r i => if r = c.rank then own.getD i 0
      else (((peersOf s c).find? (fun p => p.rank == r)).map (fun p => p.src.getD i 0)).getD 0)) (collWrites c) 0 (collTouch o c (collLens c).1 0 s) = (s1, none)) :
    collMoves s o c = .next (endColl s1 o c 0 none) ∧ WritesOnly s s1 := by
  have hwrites := collWrite_cases o c (fun n => collElem c c.rank n (fun r i => if r = c.rank then own.getD i 0
      else (((peersOf s c).find? (fun p => p.rank == r)).map (fun p => p.src.getD i 0)).getD 0)) (collWrites c) 0 (collTouch o c (collLens c).1 0 s)
  refine ⟨?_, wtrans (collTouch_only o c _ _ s) (by rwa [hw] at hwrites)⟩
  unfold collMoves
  rw [ho]
  dsimp only
  rw [hw]

/-! #### A result's elements (R278) -/

theorem collElem_sum {c : CollDesc} (q n : Nat) (srcs : Nat → Nat → Nat) (hr : c.red = 0) (i : Nat)
    (hi : (c.op ≤ 1 ∧ i = n) ∨ (c.op = 4 ∧ i = q * c.count + n)) :
    collElem c q n srcs = roundNum (chunkSum ((List.range c.p).map (fun r => decodeElem (Fmt.ofWord c.ein) (srcs r i)))) (Fmt.ofWord c.eout) c.mode
      (srNoise (BitVec.ofNat 64 c.cseed) (BitVec.ofNat 64 (c.seq * 2 ^ 32 + n % 2 ^ 32)) 0) := by
  unfold collElem reduceNum
  simp only [hr, if_true]
  obtain ⟨hop, rfl⟩ | ⟨hop, rfl⟩ := hi
  · rw [if_neg (by omega), if_neg (by omega), if_neg (by omega)]
  · rw [if_neg (by omega), if_neg (by omega), if_pos hop]

/-! #### An operation that is stuck (R275) -/

section
variable {s : State} {id : Nat} {o : EngOp} (ho : findOp s id = some o)
include ho

theorem engineFault_none (hs : opStuck s o = none ∨ canReport s o = false) : exec (.engineFault id) s = .next s := by
  show execEngineFault id s = _
  unfold execEngineFault
  rw [ho]
  dsimp only
  cases hk : opStuck s o with
  | none => rfl
  | some e => exact if_pos (by rw [hs.resolve_left (by rw [hk]; nofun)]; rfl)

variable {k : Nat} {r : Report} (hs : opStuck s o = some (k, r)) (hr : canReport s o = true) (hc : r.cause ≠ .stall)
include hs hr hc

/-- A stuck operation that can report ends by its kind. -/
theorem engineFault_ends : exec (.engineFault id) s = match o.kind with
    | .copy _ => .next (reportOp (deliverRecord (endOp s o) (opOrigin s o) r false) o (completionVal 1 (some r) ((List.range 5).map (fun d => some (r.iters.getD d 0)))))
    | .stream d st => .next (reportOp (deliverRecord (afterTile s o d st true) (opOrigin s o) r false) o (readyVal o d st (some r)))
    | .coll c => .next (if (peersOf s c).any (fun p => p.failed) then endColl s o c 8 none else endColl s o c 1 (some r))
    | .walk _ => .next s := by
  show execEngineFault id s = _
  unfold execEngineFault
  rw [ho]
  dsimp only
  rw [hs]
  exact if_neg (by simp [hr, hc])

end

/-- An operation that is gone and whose record is made reports its fault. -/
theorem faulted_reported {s u : State} {id : Nat} {o : EngOp} (ho : findOp s id = some o) (hu : u = { s with ops := u.ops, peers := u.peers })
    (hops : u.ops = s.ops.filter (fun x => x.id != o.id)) (r : Report) (v : Val) : let t := reportOp (deliverRecord u (opOrigin s o) r false) o v
    Reported s t o v ∧ Recorded s t o.node.w ∧ t.ops = s.ops.filter (fun x => x.id != id) := by
  obtain ⟨-, hops', -, hworlds⟩ := reportOp_rest (deliverRecord u (opOrigin s o) r false) o v
  have hseq := deliverRecord_seq u (opOrigin s o) r
  refine ⟨reportOp_spec ?_ ?_ ?_ ?_, ?_, ?_⟩
  · rw [deliverRecord_outq, hu]
  · rw [deliverRecord_evqs, hu]
  · rw [deliverRecord_ctxs, hu]
  · rw [deliverRecord_now, hu]
  · unfold Recorded at *
    rw [worldOf_congr hworlds]
    refine hseq.trans ?_
    rw [hu]
    rfl
  · rw [hops', deliverRecord_ops, hops, findOp_id ho]

/-! #### Event records (R275, R319) -/

section
variable {s : State} {sp : Nat} {e : EvRec} (he : s.evqs.find? (fun e => e.spire == sp) = some e)
include he

theorem eventRecord_unmatched (ha : evAction s e = none) : exec (.eventRecord sp) s = .next { s with evqs := delFirst (fun x => x.spire == sp) s.evqs } := by
  show execEventRecord sp s = _
  unfold execEventRecord
  rw [he]
  dsimp only
  rw [ha]

theorem eventRecord_drops {d : Nat → Nat} (ha : evAction s e = some d) (hd : field (d 0) 1 2 = 0) :
    exec (.eventRecord sp) s = .next { s with evqs := delFirst (fun x => x.spire == sp) s.evqs } := by
  show execEventRecord sp s = _
  unfold execEventRecord
  rw [he]
  dsimp only
  rw [ha]
  dsimp only
  rw [show bits (d 0) 2 1 = 0 from hd]
  rfl

end

/-- What an access of the device asks does not look at the event queues. -/
theorem walkFrom_evqs (s : State) (q : List EvRec) (w : BitVec 4) (va : Nat) : ∀ n t, walkFrom { s with evqs := q } w va n t = walkFrom s w va n t
  | 0, _ => rfl
  | n + 1, t => by
    unfold walkFrom
    simp only [walkFrom_evqs s q w va n]
    rfl

theorem devWord_evqs (s : State) (q : List EvRec) (w : BitVec 4) (c : Colour) (va : Nat) (rd wr : Bool) :
    devWord { s with evqs := q } w c va rd wr = devWord s w c va rd wr := by
  have hl : ∀ root, leafFor { s with evqs := q } none w c va root = leafFor s none w c va root := by
    intro root
    unfold leafFor
    rw [walkFrom_evqs]
    rfl
  have ht : Machine.translate { s with evqs := q } none w c va rd wr = Machine.translate s none w c va rd wr := by
    unfold Machine.translate
    simp only [hl]
    rfl
  unfold devWord access
  rw [ht]
  rfl

/-- Settles O41: copies by their points, streams by their tiles, collectives by the order of their checks, and an event record by its action. -/
theorem engineEvents : Obligations.EngineEvents := by
  unfold Obligations.EngineEvents
  refine ⟨fun s o d fixed off k => ⟨copyPoint_outside, fun pa hv hl hpa hty => copyPoint_written hv hl hpa hty⟩,
    fun s id o d j ho hk => ⟨chunkComplete_closed ho hk, fun s1 pa hc hs hpa hty => chunkComplete_sets ho hk hc hs hty hpa⟩,
    fun s id o d ho hk => ⟨copyComplete_waits ho hk, fun s1 hr hs => ?copy⟩,
    fun s id o d st ho hk => ⟨streamTile_waits ho hk, fun s1 hr hs => ?stream⟩,
    fun s cell n hn => ⟨_, noticeAccept_next hn, rfl, updFirst_none _ _ _, fun o d st ho hk => accepted_ops ho hk⟩,
    fun s id o c ho hk => ?coll, fun c q n srcs => ?elements, fun s id o ho => ⟨engineFault_none ho, fun k r hs hr hc => ?fault⟩,
    fun s sp he => ?noEvent, fun s sp e he => ⟨eventRecord_unmatched he, fun d ha => ⟨eventRecord_drops he ha, fun hd hcap hdev => ?ring, fun hd pa old hw hty => ?signal⟩⟩⟩
  case copy =>
    obtain ⟨hrep, hmem, hops⟩ := endOp_reported ho (copyPoints_cases _ hs) (completionVal 0 none [])
    exact ⟨_, _, copyComplete_ends ho hk hr hs, hrep, shows_completion0 0, hmem, hops⟩
  case stream =>
    obtain ⟨hrep, hmem, hlast, hnext⟩ := afterTile_reported ho (copyPoints_cases _ hs) d st (readyVal o d st none)
    exact ⟨_, _, streamTile_moves ho hk hr hs, hrep, hmem, shows_ready o d st, hlast, hnext⟩
  case coll =>
    have hends : ∀ (u : State) (n : Nat) (i : Instr), WritesOnly s u → exec i s = .next (endColl u o c n none) → ∃ t v, exec i s = .next t ∧ Reported s t o v ∧ t.mem = u.mem
        ∧ t.ops = s.ops.filter (fun x => x.id != id) ∧ t.peers = s.peers.filter (fun p => !(p.desc.group == c.group && p.desc.seq == c.seq))
        ∧ Shows v [some n, none, none, none, some c.rank, some c.p] := by
      intro u n i hu hi
      obtain ⟨hrep, hmem, hops, hpeers⟩ := endColl_spec s u o c n hu id (findOp_id ho)
      exact ⟨_, _, hi, hrep, hmem, hops, hpeers, shows_coll0 n c⟩
    refine ⟨coll_unreported ho hk, fun hr => ⟨fun hf => hends s 8 _ rfl (collComplete_failed ho hk hr hf),
      fun hf => ⟨collComplete_waits ho hk hr hf, fun hst hd => hends s 4 _ rfl (collComplete_disagree ho hk hr hf hst hd), fun hst hd own s1 hown hw => ?_⟩,
      fun hd => ⟨fun hf => hends s 2 _ rfl ?_, fun hf => hends s 8 _ rfl ?_⟩, collTimeout_early ho hk⟩⟩
    · obtain ⟨hmoves, hwrites⟩ := collMoves_ends hown hw
      exact hends s1 0 _ hwrites ((collComplete_agree ho hk hr hf hst hd).trans hmoves)
    · rw [collTimeout_ends ho hk hr hd, if_neg (by simpa using hf)]
    · rw [collTimeout_ends ho hk hr hd, if_pos (List.any_eq_true.2 hf)]
  case elements =>
    refine ⟨fun hop hr => collElem_sum q n srcs hr n (.inl ⟨hop, rfl⟩), fun hop hr => collElem_sum q n srcs hr _ (.inr ⟨hop, rfl⟩), fun hop => ?_, fun hop => ?_⟩
    · exact if_pos hop
    · exact (if_neg (by omega)).trans (if_pos hop)
  case fault =>
    have hends := engineFault_ends ho hs hr hc
    refine ⟨fun d hk => ?_, fun d st hk => ?_, fun c hk => ⟨fun hf => ?_, fun hf => ?_⟩⟩ <;> rw [hk] at hends <;> dsimp only at hends
    · obtain ⟨hrep, hrec, hops⟩ := faulted_reported (u := endOp s o) ho rfl rfl r (completionVal 1 (some r) ((List.range 5).map (fun d => some (r.iters.getD d 0))))
      exact ⟨_, _, hends, hrep, hrec, hops, shows_fault r _ (by simp)⟩
    · obtain ⟨hrep, hrec, hops⟩ := faulted_reported (u := afterTile s o d st true) ho (afterTile_only ..) ((afterTile_ops ..).trans (if_pos (.inl rfl))) r (readyVal o d st (some r))
      exact ⟨_, _, hends, hrep, hrec, hops, shows_readyF o d st r⟩
    · obtain ⟨hrep, hrec, hops⟩ := faulted_reported (u := { endOp s o with peers := s.peers.filter (fun p => !(p.desc.group == c.group && p.desc.seq == c.seq)) }) ho rfl rfl r
        (completionVal 1 (some r) (collSlots c))
      rw [if_neg (by simpa using hf)] at hends
      exact ⟨_, _, hends, hrep, hrec, hops, shows_fault r (collSlots c) (by simp [collSlots])⟩
    · obtain ⟨hrep, -, hops, -⟩ := endColl_spec s s o c 8 rfl id (findOp_id ho)
      rw [if_pos (List.any_eq_true.2 hf)] at hends
      exact ⟨_, _, hends, hrep, (reportOp_rest _ _ _).2.2.2, hops, shows_coll0 8 c⟩
  case noEvent =>
    show execEventRecord sp s = _
    unfold execEventRecord
    rw [he]
  case ring => exact event_ring s _ sp e d _ _ _ rfl rfl rfl he ha hd rfl hcap hdev
  case signal =>
    obtain ⟨t, ht, hevqs, hw⟩ := event_signal s _ sp e d _ pa old he ha hd rfl rfl ((devWord_evqs ..).trans hw) hty
    exact ⟨t, ht, hevqs, hw⟩

end Sys2Proof.Proofs
end

section
/-! SUPPORT.  Decisions, their outcomes, and the launch and end of tasks (R310 to R336, R340). -/

namespace Sys2Proof.Proofs

open Sys2Proof Sys2Proof.Machine Sys2Proof.Claims Sys2Proof.Laws

variable {s : State} {w : BitVec 4}

/-! #### What a step on triggers leaves of the tasks -/

/-- The world with other triggers than it has. -/
def withTriggers (s : State) (w : BitVec 4) (l : List (Trigger × Nat)) : State := setWorld s w { worldOf s w with triggers := l }

/-- The world with no decision in flight. -/
def noDecision (s : State) (w : BitVec 4) : State := setWorld s w { worldOf s w with decision := none }

theorem findTask_withTriggers (l : List (Trigger × Nat)) (id : BitVec 32) : findTask (withTriggers s w l) w id = findTask s w id :=
  find_of_tasks (by unfold withTriggers; rw [worldOf_setWorld]) id

theorem noDecision_tasks : (worldOf (noDecision s w) w).tasks = (worldOf s w).tasks := by
  unfold noDecision; rw [worldOf_setWorld]

theorem noDecision_decision : (worldOf (noDecision s w) w).decision = none := by
  unfold noDecision; rw [worldOf_setWorld]

theorem findTask_noDecision (id : BitVec 32) : findTask (noDecision s w) w id = findTask s w id := find_of_tasks noDecision_tasks id

theorem addDispatch_tasks (k : Nat) : (worldOf (addDispatch s w k) w).tasks = (worldOf s w).tasks := by
  obtain ⟨_, h⟩ := addDispatch_world s w k
  rw [h]

theorem followOn_tasks (k : Nat) : (worldOf (followOn s w k) w).tasks = (worldOf s w).tasks := by
  obtain ⟨_, h⟩ := followOn_world s w k
  rw [h]

theorem followOn_decision (k : Nat) : (worldOf (followOn s w k) w).decision = (worldOf s w).decision := by
  obtain ⟨_, h⟩ := followOn_world s w k
  rw [h]

theorem again_tasks (d : Decision) (u : Option Machine.Task) : (worldOf (again s w d u) w).tasks = (worldOf s w).tasks := by
  obtain ⟨_, h⟩ := again_world s w d u
  rw [h]

theorem again_decision (d : Decision) (u : Option Machine.Task) : (worldOf (again s w d u) w).decision = (worldOf s w).decision := by
  obtain ⟨_, h⟩ := again_world s w d u
  rw [h]

/-- A task whose region names no failure domain ends alone. -/
theorem failCode_gone {x : Machine.Task} (code : Nat) (h : regionEff s w x.region 4 = 0) : TaskGone (failCode s w x code) w x.id := by
  unfold failCode
  rw [if_pos h]
  exact stopTask_gone s w x 1 code

theorem failTask_gone {x : Machine.Task} (c : Cause) (h : regionEff s w x.region 4 = 0) : TaskGone (failTask s w x c) w x.id := failCode_gone _ h

/-! #### Triggers and the start of a decision -/

theorem laterTriggers_eq : laterTriggers s w = (worldOf s w).triggers.filter (fun u => decide (s.now < u.2)) := by
  unfold laterTriggers risen
  refine List.filter_congr fun u _ => ?_
  rw [← decide_not]
  exact decide_eq_decide.2 Nat.not_le

/-- With no live trigger whose time has come, those that stay are of a later time. -/
theorem dropIdle_later {u : Trigger × Nat} (hd : (worldOf s w).decision = none) (hu : u ∈ (worldOf (dropIdle s w) w).triggers) (hl : dueTriggers s w = []) : s.now < u.2 := by
  unfold dropIdle at hu
  dsimp only at hu
  rw [hd, hl] at hu
  by_cases he : (worldOf s w).triggers = []
  · rw [if_pos (by simp [he])] at hu
    rw [he] at hu
    exact absurd hu List.not_mem_nil
  · rw [if_neg (by simpa using he), worldOf_setWorld, laterTriggers_eq] at hu
    exact of_decide_eq_true (List.mem_filter.1 hu).2

section decisions

variable (slot : BitVec 6) (id : BitVec 32)

theorem dispatchDecision_idle (h : (worldOf s w).decision ≠ none ∨ dueTriggers s w = []) : exec (.dispatchDecision w slot) s = .next s := by
  show execDispatchDecision w slot s = _
  unfold execDispatchDecision
  rw [take_none _ h]

theorem preemptDecision_idle (h : (worldOf s w).decision ≠ none ∨ dueTriggers s w = []) : exec (.preemptDecision w id) s = .next s := by
  show execPreemptDecision w id s = _
  unfold execPreemptDecision
  rw [take_none _ h]

theorem faultDecision_idle (h : (worldOf s w).decision ≠ none ∨ dueTriggers s w = []) : exec (.faultDecision w id) s = .next s := by
  show execFaultDecision w id s = _
  unfold execFaultDecision
  rw [take_none _ h]

variable {y : Trigger × Nat} {l : List (Trigger × Nat)} (hd : (worldOf s w).decision = none) (hl : dueTriggers s w = y :: l)
include hd hl

/-- The world as a taken trigger leaves it: without it, and without those before it. -/
theorem takeTrigger_eq (want : Trigger → Bool) : takeTrigger s w want =
    if want y.1 = true then some (withTriggers s w (l ++ (worldOf s w).triggers.filter (fun u => decide (s.now < u.2))), y.1) else none := by
  rw [take_some hd hl, laterTriggers_eq]
  rfl

theorem dispatchDecision_other (h : y.1 ≠ .dispatch slot.toNat) : exec (.dispatchDecision w slot) s = .next s := by
  show execDispatchDecision w slot s = _
  unfold execDispatchDecision
  rw [takeTrigger_eq hd hl, if_neg (by simpa using h)]

/-- A dispatch decision starts among the candidates that are left once the quarantined task is placed, or there is none to decide. -/
theorem dispatchDecision_eq (h : y.1 = .dispatch slot.toNat) {s2 : State}
    (hq : dispatchQuar (failOver (withTriggers s w (l ++ (worldOf s w).triggers.filter (fun u => decide (s.now < u.2)))) w slot.toNat) w slot.toNat = some s2) : exec (.dispatchDecision w slot) s =
    .next (if dispatchCands s2 w slot.toNat false = [] then s2 else startDecision s2 w 0 slot.toNat 0 none ((dispatchCands s2 w slot.toNat false).map (fun t => candOf s2 w t 0))) := by
  show execDispatchDecision w slot s = _
  unfold execDispatchDecision
  rw [takeTrigger_eq hd hl, if_pos (by simp [h])]
  dsimp only
  rw [hq]
  dsimp only
  cases dispatchCands s2 w slot.toNat false with
  | nil => rfl
  | cons _ _ => rfl

theorem preemptDecision_other (h : ∀ b, y.1 ≠ .preempt id b) : exec (.preemptDecision w id) s = .next s := by
  show execPreemptDecision w id s = _
  unfold execPreemptDecision
  rw [takeTrigger_eq hd hl, if_neg (by simp [h])]

theorem faultDecision_other (h : ∀ c, y.1 ≠ .fault id c) : exec (.faultDecision w id) s = .next s := by
  show execFaultDecision w id s = _
  unfold execFaultDecision
  rw [takeTrigger_eq hd hl, if_neg]
  split
  · next c hy =>
    intro he
    exact h c (by rw [hy, beq_iff_eq.1 he])
  · exact Bool.false_ne_true

variable {x : Machine.Task} (hx : findTask s w id = some x)
include hx

theorem preemptDecision_begins (h : ∃ b, y.1 = .preempt id b) : let s1 := withTriggers s w (l ++ (worldOf s w).triggers.filter (fun u => decide (s.now < u.2)))
    Begins (exec (.preemptDecision w id) s) s1 w 1 (regionEff s1 w x.region 5) 0 (some x) (preemptCands s1 w x) := by
  apply begins_start
  show execPreemptDecision w id s = _
  unfold execPreemptDecision
  obtain ⟨b, hb⟩ := h
  rw [takeTrigger_eq hd hl, if_pos (by rw [hb]; cases b <;> simp), hx]
  rfl

theorem faultDecision_begins (c : Cause) (h : y.1 = .fault id c) : let s1 := withTriggers s w (l ++ (worldOf s w).triggers.filter (fun u => decide (s.now < u.2)))
    Begins (exec (.faultDecision w id) s) s1 w 2 (regionEff s1 w x.region 5) c.code (some x) [] := by
  apply begins_start
  show execFaultDecision w id s = _
  unfold execFaultDecision
  rw [takeTrigger_eq hd hl, if_pos (by rw [h]; exact beq_self_eq_true id), hx, h]
  rfl

end decisions

theorem failOver_none {slot : Nat} (h : overDue s w slot = []) : failOver s w slot = s := by
  unfold failOver
  rw [h]
  rfl

/-- A task that can never be placed ends as the dispatch of its slot is decided. -/
theorem failOver_one {slot : Nat} {x : Machine.Task} (h : overDue s w slot = [x]) (hf : findTask s w x.id = some x) (hr : regionEff s w x.region 4 = 0) : TaskGone (failOver s w slot) w x.id := by
  have hx : x ∈ overDue s w slot := by rw [h]; exact List.mem_singleton.2 rfl
  have hq : (x.st == .queued) = true := by
    have hx := (List.mem_filter.1 hx).2
    simp only [Bool.and_eq_true] at hx
    exact hx.1.1.1
  unfold failOver
  rw [h, List.foldl_cons, List.foldl_nil, hf]
  dsimp only
  rw [if_pos hq]
  exact failTask_gone _ hr

theorem quarPick_none {slot : Nat} (h : dispatchCands s w slot true = []) : quarPick s w slot = none := by
  unfold quarPick
  rw [h]
  rfl

theorem dispatchQuar_none {slot : Nat} (h : dispatchCands s w slot true = []) : dispatchQuar s w slot = some s := by
  unfold dispatchQuar
  rw [quarPick_none h]

theorem dispatchQuar_some {slot : Nat} {q : Machine.Task} (h : quarPick s w slot = some q) (hr : q.recq = false) : dispatchQuar s w slot = some (addDispatch (placeTask s w q true) w slot) := by
  unfold dispatchQuar
  rw [h]
  dsimp only
  rw [dispatch_plain hr]
  rfl

/-- A quarantined task that a dispatch decision picks is placed before the decision starts. -/
theorem dispatchQuar_places {slot : Nat} {q : Machine.Task} (h : quarPick s w slot = some q) (hr : q.recq = false) (hf : findTask s w q.id = some q) :
    ∃ u x, dispatchQuar s w slot = some u ∧ findTask u w q.id = some x ∧ x.st = .launching ∧ x.quar = true := by
  obtain ⟨-, hp⟩ := place_spec s w q true hf
  exact ⟨_, _, dispatchQuar_some h hr, (find_of_tasks (addDispatch_tasks slot) _).trans hp, rfl, rfl⟩

/-! #### The outcome of a decision -/

section outcome

variable {d : Decision}

theorem decisionCommit_none (hd : (worldOf s w).decision = none) : exec (.decisionCommit w) s = .next s := by
  show execDecisionCommit w s = _
  unfold execDecisionCommit
  dsimp only
  rw [hd]

variable (hd : (worldOf s w).decision = some d)
include hd

theorem decisionCommit_waits (h : d.outcome = none ∨ s.now < d.start + d.count) : exec (.decisionCommit w) s = .next s := by
  show execDecisionCommit w s = _
  unfold execDecisionCommit
  dsimp only
  rw [hd]
  dsimp only
  cases ho : d.outcome with
  | none => rfl
  | some o => exact if_pos (h.resolve_left (by rw [ho]; exact Option.some_ne_none o))

theorem decisionCommit_commits {o : Choice} {t : State} (ho : d.outcome = some o) (hn : d.start + d.count ≤ s.now) (ht : commitOutcome (noDecision s w) w d o = some t) : exec (.decisionCommit w) s = .next t := by
  show execDecisionCommit w s = _
  unfold execDecisionCommit
  dsimp only
  rw [hd]
  dsimp only
  rw [ho]
  dsimp only
  rw [if_neg (show ¬ s.now < d.due from Nat.not_lt.2 hn), show setWorld s w { worldOf s w with decision := none } = noDecision s w from rfl, ht]

end outcome

/-- The task that a decision is about, as it stands. -/
def subjectOf (s : State) (w : BitVec 4) (d : Decision) : Option Machine.Task := d.subject.bind (fun c => findTask s w c.task)

theorem subjectOf_noDecision (d : Decision) : subjectOf (noDecision s w) w d = subjectOf s w d := by
  unfold subjectOf
  congr 1
  funext c
  exact findTask_noDecision c.task

theorem subjectOf_find {d : Decision} {u : Machine.Task} (h : subjectOf s w d = some u) : findTask s w u.id = some u := by
  obtain ⟨c, -, hc⟩ := Option.bind_eq_some_iff.1 h
  rw [findTask_id hc]
  exact hc

section committed

variable (d : Decision)

theorem commitOutcome_defer (h : d.kind ≠ 1) : commitOutcome s w d .defer = some s := by
  unfold commitOutcome
  dsimp only
  split
  · next hk _ => exact absurd hk h
  · rfl

theorem commitOutcome_deferSlice {x : Machine.Task} (h : d.kind = 1) (hx : subjectOf s w d = some x) : commitOutcome s w d .defer = some (deferSlice s w x) := by
  unfold commitOutcome
  dsimp only
  rw [show d.subject.bind (fun c => findTask s w c.task) = some x from hx, h]
  rfl

theorem commitOutcome_pick {x : Machine.Task} {id : BitVec 32} (hx : findTask s w id = some x) (hfit : stillFits s w x = true) (hr : x.recq = false) :
    commitOutcome s w d (.pick id) = some (followOn (placeTask s w x false) w d.slot) := by
  unfold commitOutcome
  dsimp only
  rw [hx]
  dsimp only
  rw [if_pos hfit, dispatch_plain hr]
  rfl

theorem commitOutcome_pickGone {x : Machine.Task} {id : BitVec 32} (hx : findTask s w id = some x) (hfit : stillFits s w x = false) :
    commitOutcome s w d (.pick id) = some (again s w d (subjectOf s w d)) := by
  unfold commitOutcome
  dsimp only
  rw [hx]
  dsimp only
  rw [hfit]
  rfl

theorem commitOutcome_kill {x : Machine.Task} {id : BitVec 32} (hx : findTask s w id = some x) (hq : x.st = .queued) :
    commitOutcome s w d (.kill id) = some (if d.kind = 0 then followOn (killTask s w x) w d.slot else killTask s w x) := by
  unfold commitOutcome
  dsimp only
  rw [hx]
  dsimp only
  rw [if_pos (beq_iff_eq.2 hq)]

theorem commitOutcome_killRunning {x : Machine.Task} {id : BitVec 32} (hx : findTask s w id = some x) (hq : x.st ≠ .queued) :
    commitOutcome s w d (.kill id) = some (again s w d (subjectOf s w d)) := by
  unfold commitOutcome
  dsimp only
  rw [hx]
  dsimp only
  rw [if_neg (by simpa using hq)]
  rfl

theorem commitOutcome_killSubject {x : Machine.Task} (hx : subjectOf s w d = some x) (hq : x.st ≠ .queued) :
    commitOutcome s w d .killSubject = some (if d.kind = 2 then failCode s w x d.cause else killTask s w x) := by
  unfold commitOutcome
  dsimp only
  rw [show d.subject.bind (fun c => findTask s w c.task) = some x from hx]
  dsimp only
  rw [if_neg (by simpa using hq), apply_ite some]

theorem commitOutcome_preempt {u x : Machine.Task} {id : BitVec 32} (hu : subjectOf s w d = some u) (hx : findTask s w id = some x) (hh : holdsCells u = true)
    (hz : ∃ z, z ∈ preemptCands s w u ∧ z.id = id) (hr : x.recq = false) : commitOutcome s w d (.preempt id) =
      some (match findTask (awaitCut w u s x) w x.id, findTask (awaitCut w u s x) w u.id with
        | some _, some v => putTask (awaitCut w u s x) w (markCut v)
        | _, _ => awaitCut w u s x) := by
  have hany : (preemptCands s w u).any (fun z => z.id == x.id) = true := by
    obtain ⟨z, hmem, hid⟩ := hz
    exact List.any_eq_true.2 ⟨z, hmem, by rw [hid, findTask_id hx]; exact beq_self_eq_true id⟩
  unfold commitOutcome
  dsimp only
  rw [show d.subject.bind (fun c => findTask s w c.task) = some u from hu, hx]
  unfold commitPreempt
  dsimp only
  rw [if_pos (by rw [hh, hany]; rfl), dispatch_plain hr]
  rfl

end committed

/-- The slice of a task whose preemption is deferred starts anew, and its triggers are gone. -/
theorem deferSlice_spec {x : Machine.Task} (hx : findTask s w x.id = some x) : (worldOf (deferSlice s w x) w).decision = (worldOf s w).decision
    ∧ findTask (deferSlice s w x) w x.id = some { x with sliceAt := s.now } ∧ ∀ u, u ∈ (worldOf (deferSlice s w x) w).triggers → ∀ b, u.1 ≠ .preempt x.id b := by
  unfold deferSlice
  refine ⟨?_, ?_, ?_⟩
  · rw [worldOf_setWorld, put_world]
  · rw [find_of_tasks (s := putTask s w { x with sliceAt := s.now }) (by rw [worldOf_setWorld])]
    exact findTask_put s w { x with sliceAt := s.now } x hx
  · rw [worldOf_setWorld]
    intro u hu b
    have h := (List.mem_filter.1 hu).2
    simp only [Bool.and_eq_true, bne_iff_ne] at h
    cases b
    · exact h.2
    · exact h.1

theorem markCut_id (v : Machine.Task) : (markCut v).id = v.id := by unfold markCut; split <;> rfl

theorem markCut_cuts (v : Machine.Task) : (markCut v).cuts = v.cuts + 1 := by unfold markCut; split <;> rfl

theorem markCut_running {v : Machine.Task} (h : v.st = .running) : (markCut v).st = .cutting := by unfold markCut; rw [if_pos h]

theorem markCut_other {v : Machine.Task} (h : v.st ≠ .running) : (markCut v).st = v.st ∧ (markCut v).toCut = true := by unfold markCut; rw [if_neg h]; exact ⟨rfl, rfl⟩

section awaiting

variable (u : Machine.Task) {x : Machine.Task}

theorem awaitCut_decision : (worldOf (awaitCut w u s x) w).decision = (worldOf s w).decision := by
  unfold awaitCut
  dsimp only
  obtain ⟨_, h⟩ := consume_world (putTask s w { x with st := .awaiting u.id, spires := (spiresAfter s w u x).filter (fun sp => !u.spires.contains sp), heldAt := s.now }) w x.queue x.idx
  rw [h, put_world]

theorem findTask_awaitCut (id : BitVec 32) : findTask (awaitCut w u s x) w id =
    findTask (putTask s w { x with st := .awaiting u.id, spires := (spiresAfter s w u x).filter (fun sp => !u.spires.contains sp), heldAt := s.now }) w id := by
  apply find_of_tasks
  unfold awaitCut
  dsimp only
  obtain ⟨_, h⟩ := consume_world (putTask s w { x with st := .awaiting u.id, spires := (spiresAfter s w u x).filter (fun sp => !u.spires.contains sp), heldAt := s.now }) w x.queue x.idx
  rw [h]

theorem findTask_awaitCut_self (hx : findTask s w x.id = some x) : ∃ z, findTask (awaitCut w u s x) w x.id = some z ∧ z.st = .awaiting u.id ∧ z.heldAt = s.now :=
  ⟨_, (findTask_awaitCut u x.id).trans (findTask_put s w _ x hx), rfl, rfl⟩

theorem findTask_awaitCut_other {id : BitVec 32} (h : x.id ≠ id) : findTask (awaitCut w u s x) w id = findTask s w id :=
  (findTask_awaitCut u id).trans (findTask_put_other s w _ id h)

end awaiting

/-- A subject that holds its cells is marked for a cut, and the task for which it is cut awaits it. -/
theorem commitOutcome_preempt_spec (d : Decision) {u x : Machine.Task} {id : BitVec 32} (hu : subjectOf s w d = some u) (hx : findTask s w id = some x) (hne : u.id ≠ id) (hh : holdsCells u = true)
    (hz : ∃ z, z ∈ preemptCands s w u ∧ z.id = id) (hr : x.recq = false) : ∃ t, commitOutcome s w d (.preempt id) = some t ∧ (worldOf t w).decision = (worldOf s w).decision
      ∧ (∃ y, findTask t w u.id = some y ∧ y.cuts = u.cuts + 1 ∧ (u.st = .running → y.st = .cutting) ∧ (u.st ≠ .running → y.st = u.st ∧ y.toCut = true))
      ∧ ∃ z, findTask t w id = some z ∧ z.st = .awaiting u.id ∧ z.heldAt = s.now := by
  obtain rfl := findTask_id hx
  obtain ⟨z, hfind, hst, hheld⟩ := findTask_awaitCut_self u hx
  have hsub : findTask (awaitCut w u s x) w u.id = some u := (findTask_awaitCut_other u (Ne.symm hne)).trans (subjectOf_find hu)
  refine ⟨_, commitOutcome_preempt d hu hx hh hz hr, ?_⟩
  rw [hfind, hsub]
  dsimp only
  refine ⟨by rw [put_world]; exact awaitCut_decision u, ⟨markCut u, ?_, markCut_cuts u, markCut_running, markCut_other⟩, z, ?_, hst, hheld⟩
  · rw [← markCut_id u]
    exact findTask_put _ w (markCut u) u ((markCut_id u).symm ▸ hsub)
  · rw [findTask_put_other _ w _ _ ((markCut_id u).symm ▸ hne)]
    exact hfind

theorem placed_spec (d : Decision) {x : Machine.Task} {id : BitVec 32} (hx : findTask s w id = some x) (hfit : stillFits s w x = true) : let t := followOn (placeTask s w x false) w d.slot
    (worldOf t w).decision = (worldOf s w).decision ∧ ∃ y, findTask t w id = some y ∧ y.st = .launching ∧ y.quar = false ∧ y.spires = chooseSpires s w x false ∧ y.heldAt = s.now ∧ y.img = x.img := by
  intro t
  obtain rfl := findTask_id hx
  have hq : x.st = .queued := by
    unfold stillFits at hfit
    simp only [Bool.and_eq_true, beq_iff_eq] at hfit
    exact hfit.1.1.1.1.1
  obtain ⟨hdec, hp⟩ := place_spec s w x false hx
  exact ⟨(followOn_decision _).trans hdec, _, (find_of_tasks (followOn_tasks _) _).trans hp, rfl, rfl, rfl, if_pos hq, rfl⟩

theorem killTask_gone (x : Machine.Task) : TaskGone (killTask s w x) w x.id := stopTask_gone s w x 5 0

theorem followOn_gone {id : BitVec 32} (k : Nat) (h : TaskGone s w id) : TaskGone (followOn s w k) w id := by
  unfold TaskGone
  rw [followOn_tasks]
  exact h

end Sys2Proof.Proofs
end

section
/-! SUPPORT.  The launch of a task, its tiles and its end (R312, R313, R316, R318, R340). -/

namespace Sys2Proof.Proofs

open Sys2Proof Sys2Proof.Machine Sys2Proof.Claims Sys2Proof.Laws

variable {s : State} {w : BitVec 4} {id : BitVec 32} {x : Machine.Task}

/-! #### Configuration packets and the end of a launch -/

/-- A task with no row of its id does nothing. -/
theorem task_steps_none (h : findTask s w id = none) : exec (.configPacket w id 0) s = .next s ∧ exec (.launchComplete w id) s = .next s ∧ exec (.recqTileSend w id) s = .next s ∧ exec (.taskComplete w id) s = .next s := by
  refine ⟨?config, ?launch, ?tile, ?complete⟩
  case config => show execConfigPacket w id 0 s = _; unfold execConfigPacket; rw [h]
  case launch => show execLaunchComplete w id s = _; unfold execLaunchComplete; rw [h]
  case tile => show execRecqTileSend w id s = _; unfold execRecqTileSend; rw [h]
  case complete => show execTaskComplete w id s = _; unfold execTaskComplete; rw [h]

/-- A launching task has packets left to send in a section. -/
def PacketLeft (x : Machine.Task) (sec : Nat) : Prop := x.st = .launching ∧ x.pos.getD sec 0 < (x.img.sections.getD sec []).length

theorem configPacket_eq (sec : Nat) (h : findTask s w id = some x) : exec (.configPacket w id sec) s =
    if x.st = .launching ∧ x.pos.getD sec 0 < (x.img.sections.getD sec []).length then .next (putTask s w { x with pos := x.pos.set sec (x.pos.getD sec 0 + 1) }) else .next s := by
  show execConfigPacket w id sec s = _
  unfold execConfigPacket
  rw [h]

theorem configPacket_sends (sec : Nat) (h : findTask s w id = some x) (hp : PacketLeft x sec) :
    ∃ t, exec (.configPacket w id sec) s = .next t ∧ t = { s with worlds := t.worlds } ∧ findTask t w id = some { x with pos := x.pos.set sec (x.pos.getD sec 0 + 1) } := by
  obtain rfl := findTask_id h
  unfold PacketLeft at hp
  rw [configPacket_eq sec h, if_pos hp]
  exact ⟨_, rfl, rfl, findTask_put s w { x with pos := x.pos.set sec (x.pos.getD sec 0 + 1) } x h⟩

theorem configPacket_idle (sec : Nat) (h : findTask s w id = some x) (hp : ¬ PacketLeft x sec) : exec (.configPacket w id sec) s = .next s := by
  rw [configPacket_eq sec h]
  exact if_neg hp

/-- Each section of a task's image is with its spires, and its context is free. -/
def LaunchReady (s : State) (w : BitVec 4) (x : Machine.Task) : Prop :=
  x.st = .launching ∧ x.pos = x.img.sections.map (fun l => l.length) ∧ (ctxOf s w x.img.context).resident = false ∧ attached s w = true

theorem launchReady_iff : ¬ (x.st ≠ .launching ∨ x.pos ≠ x.img.sections.map (fun l => l.length) ∨ (ctxOf s w x.img.context).resident = true ∨ attached s w = false) ↔ LaunchReady s w x := by
  unfold LaunchReady
  simp only [not_or, ne_eq, not_not, Bool.not_eq_true, Bool.not_eq_false]

/-- The task as it runs once it is launched, cut at once where a preemption marked it. -/
def launchedTask (x : Machine.Task) : Machine.Task := { x with st := if x.toCut then .cutting else .running }

/-- The placed image with its context launched. -/
def launchedImage (s : State) (w : BitVec 4) (x : Machine.Task) (l : List Item) (nodes : List Placed) : State :=
  setCtx (placeImage s w x l nodes) w x.img.context { ctxOf (placeImage s w x l nodes) w x.img.context with launched := true }

section launch

variable (h : findTask s w id = some x)
include h

theorem launchComplete_idle (hr : ¬ LaunchReady s w x) : exec (.launchComplete w id) s = .next s := by
  show execLaunchComplete w id s = _
  unfold execLaunchComplete
  rw [h]
  exact if_pos (by_contra fun hn => hr (launchReady_iff.1 hn))

variable (hr : LaunchReady s w x)
include hr

theorem launchComplete_error {c : Cause} (hc : checkImage s w x = .error c) : exec (.launchComplete w id) s = .next (failTask s w x c) := by
  show execLaunchComplete w id s = _
  unfold execLaunchComplete
  rw [h]
  dsimp only
  rw [if_neg (launchReady_iff.2 hr), hc]

theorem launchComplete_attr {c : Cause} {a : List Item × List Placed} (hi : checkImage s w x = .ok a) (hs : x.saved = false) (hc : attrFault s w x.img.context = some c) :
    exec (.launchComplete w id) s = .next (failTask s w x c) := by
  show execLaunchComplete w id s = _
  unfold execLaunchComplete
  rw [h]
  dsimp only
  rw [if_neg (launchReady_iff.2 hr), hi]
  dsimp only
  rw [hs, if_neg Bool.false_ne_true, hc]

variable {l : List Item} {nodes : List Placed} (hi : checkImage s w x = .ok (l, nodes))
include hi

theorem launchComplete_checked (ha : x.saved = true ∨ attrFault s w x.img.context = none) : exec (.launchComplete w id) s =
    if (!quotaFits (placeImage s w x l nodes) w nodes) = true then .next (failTask s w x .illegalEncoding)
    else if x.saved = true then .next (placeImage s w x l nodes)
    else .next (cutBad (sendLaunch (putTask (launchedImage s w x l nodes) w (launchedTask x)) w (launchedTask x))) := by
  show execLaunchComplete w id s = _
  unfold execLaunchComplete
  rw [h]
  dsimp only
  rw [if_neg (launchReady_iff.2 hr), hi]
  have hattr : (if x.saved = true then none else attrFault s w x.img.context) = none := by
    split
    · rfl
    · next hs => exact ha.resolve_left hs
  dsimp only
  rw [hattr]
  rfl

theorem launchComplete_unfit (ha : x.saved = true ∨ attrFault s w x.img.context = none) (hq : quotaFits (placeImage s w x l nodes) w nodes = false) :
    exec (.launchComplete w id) s = .next (failTask s w x .illegalEncoding) := by
  rw [launchComplete_checked h hr hi ha, hq]
  rfl

theorem launchComplete_saved (hs : x.saved = true) (hq : quotaFits (placeImage s w x l nodes) w nodes = true) : exec (.launchComplete w id) s = .next (placeImage s w x l nodes) := by
  rw [launchComplete_checked h hr hi (.inl hs), hq, hs]
  rfl

theorem launchComplete_new (hs : x.saved = false) (ha : attrFault s w x.img.context = none) (hq : quotaFits (placeImage s w x l nodes) w nodes = true) :
    exec (.launchComplete w id) s = .next (cutBad (sendLaunch (putTask (launchedImage s w x l nodes) w (launchedTask x)) w (launchedTask x))) := by
  rw [launchComplete_checked h hr hi (.inr ha), hq, hs]
  rfl

end launch

section placed

variable (l : List Item) (nodes : List Placed)

theorem ctxOf_placeRegs (cs : List (Nat × Nat × Nat × Word64)) (ps : List Placed) (s : State) (y : Context) : ctxOf (ps.foldl (placeRegs cs) s) w y = ctxOf s w y := by
  unfold ctxOf
  rw [(placeRegs_keep cs ps s).2.1]

theorem ctxOf_setCtx_carves (b : Bool) (y : Context) (c : Ctx) (cs : List (Nat × Nat)) : ctxOf (if b = true then setCtx s w y c else clearCarves (setCtx s w y c) cs) w y = c := by
  cases b
  · exact ctxOf_setCtx_same s w y c
  · exact ctxOf_setCtx_same s w y c

theorem placeImage_keep : (placeImage s w x l nodes).worlds = s.worlds ∧ (placeImage s w x l nodes).srcq = s.srcq ∧ (placeImage s w x l nodes).dev = s.dev := by
  unfold placeImage
  dsimp only
  obtain ⟨hworlds, -, hsrcq, hdev⟩ := placeRegs_keep (constsOf l) nodes _
  rw [hworlds, hsrcq, hdev]
  cases x.saved <;> exact ⟨rfl, rfl, rfl⟩

/-- The context of a placed image: the task's colour and spires, its nodes and start nodes, and nothing in progress. -/
theorem placeImage_ctx : let c := ctxOf (placeImage s w x l nodes) w x.img.context
    c.resident = true ∧ c.task = x.id ∧ c.colour = x.colour ∧ c.spires = x.spires ∧ c.nodes = nodes ∧ c.starts = startsOf l ∧ c.gen = 0 ∧ c.caps = launchCaps (imageQuotas nodes)
      ∧ c.quotas = imageQuotas nodes ∧ c.queue = some x.queue ∧ c.purging = none ∧ c.halted = false := by
  intro c
  have hc : c = _ := (ctxOf_placeRegs _ _ _ _).trans (ctxOf_setCtx_carves _ _ _ _)
  rw [hc]
  exact ⟨rfl, rfl, rfl, rfl, rfl, rfl, rfl, rfl, rfl, rfl, rfl, rfl⟩

end placed

end Sys2Proof.Proofs
end

section

namespace Sys2Proof.Proofs

open Sys2Proof Sys2Proof.Machine Sys2Proof.Claims Sys2Proof.Laws

variable {s : State} {w : BitVec 4} {id : BitVec 32} {x : Machine.Task}

/-! #### What a launch leaves -/

section launched

variable (l : List Item) (nodes : List Placed)

theorem launchedImage_world : worldOf (launchedImage s w x l nodes) w = worldOf s w := worldOf_congr (placeImage_keep l nodes).1 w

theorem ctxOf_launchedImage : ctxOf (launchedImage s w x l nodes) w x.img.context = { ctxOf (placeImage s w x l nodes) w x.img.context with launched := true } :=
  ctxOf_setCtx_same _ _ _ _

theorem inSequence_put {t : Machine.Task} (y : Context) : inSequence (putTask s w t) w y = inSequence s w y := by
  unfold inSequence
  rw [put_world]
  rfl

theorem inSequence_congr {u : State} (hu : worldOf u w = worldOf s w) (y : Context) : inSequence u w y = inSequence s w y := by
  unfold inSequence
  rw [hu]

/-- The task runs, its context is as its image says, and its start tokens leave. -/
theorem launched_spec (h : findTask s w x.id = some x) (hb : s.dev.badc = []) :
    let t := cutBad (sendLaunch (putTask (launchedImage s w x l nodes) w (launchedTask x)) w (launchedTask x))
    let y := x.img.context
    let c := { ctxOf (placeImage s w x l nodes) w y with launched := true }
    findTask t w x.id = some { x with st := if x.toCut then .cutting else .running, tiles := if inSequence s w y = true ∧ belfryActive (worldOf s w) ≠ y then [] else x.tiles }
    ∧ (∀ e, e ∈ (worldOf t w).goDue → e.1 ≠ y) ∧ ctxOf t w y = c
    ∧ (x.recq = false → (inSequence s w y = false ∨ belfryActive (worldOf s w) = y) → t.srcq = s.srcq ++ c.starts.filterMap (fun n => (startChan c n).map (fun k => (({ w := w, x := y, n := k } : ChanId),
      ({ tag := { colour := c.colour, context := y, iter := 0 }, kind := .data, aux := 0, val := startVal x } : Token))))) := by
  intro t y c
  let s1 : State := launchedImage s w x l nodes
  let s2 : State := putTask s1 w (launchedTask x)
  have hfind : findTask s2 w x.id = some (launchedTask x) := findTask_put s1 w (launchedTask x) x ((find_of_tasks (by rw [launchedImage_world]) _).trans h)
  have hseq : inSequence s2 w y = inSequence s w y := (inSequence_put y).trans (inSequence_congr (launchedImage_world l nodes) y)
  have hbel : belfryActive (worldOf s2 w) = belfryActive (worldOf s w) := by
    show belfryActive (worldOf (putTask s1 w _) w) = _
    rw [put_world, launchedImage_world]
    rfl
  have hctx : ctxOf s2 w y = c := ctxOf_launchedImage l nodes
  have hsrcq : s2.srcq = s.srcq := (placeImage_keep l nodes).2.1
  obtain ⟨hctxs, hdev, hgo, htask, hsend⟩ := sendLaunch_spec s2 w (launchedTask x) hfind
  have hbad : (sendLaunch s2 w (launchedTask x)).dev.badc = [] := by
    rw [hdev, show s2.dev = s.dev from (placeImage_keep l nodes).2.2]
    exact hb
  obtain ⟨hw, hc, hq⟩ := cutBad_same hbad w
  refine ⟨?task, ?go, ?ctx, ?srcq⟩
  case task =>
    rw [← hseq, ← hbel]
    exact (find_of_tasks (congrArg World.tasks hw) _).trans htask
  case go =>
    rw [show worldOf t w = _ from hw]
    exact hgo
  case ctx =>
    rw [← hctx]
    unfold ctxOf
    rw [show t.ctxs = _ from hc, hctxs]
  case srcq =>
    intro hr hs
    rw [show t.srcq = _ from hq, hsend hr (show inSequence s2 w y = false ∨ belfryActive (worldOf s2 w) = y by rw [hseq, hbel]; exact hs)]
    unfold sendStarts
    dsimp only
    rw [hsrcq, show ctxOf s2 w (launchedTask x).img.context = c from hctx]
    rfl

end launched

/-! #### Tiles -/

/-- The channels of a context's start nodes. -/
def startChans (s : State) (w : BitVec 4) (x : Machine.Task) : List ChanId :=
  (ctxOf s w x.img.context).starts.filterMap (fun n => (startChan (ctxOf s w x.img.context) n).map (fun k => { w := w, x := x.img.context, n := k }))

/-- The die that a token of a start channel enters at. -/
def tileDie (s : State) (w : BitVec 4) (x : Machine.Task) (ch : ChanId) : Nat := entryDie s (((chanEnd s ch).map (fun p => p.node)).getD { w := w, x := x.img.context, n := 0 })

/-- A tile's tag is free or the task's own, its channel has credit, and its context takes tokens. -/
def LaunchTileReady (s : State) (w : BitVec 4) (x : Machine.Task) (y : Tile) (ch : ChanId) : Prop :=
  x.st = .running ∧ (ctxOf s w x.img.context).launched = true ∧ (ctxOf s w x.img.context).halted = false ∧ gated s w x.img.context = false ∧ (ctxOf s w x.img.context).cut = none
    ∧ (mget none (ctxOf s w x.img.context).tags y.u = none ∨ mget none (ctxOf s w x.img.context).tags y.u = some (.launch x.id)) ∧ credit s ch x.colour ≠ 0 ∧ chanFrozen s ch x.colour = false

theorem launchTileReady_iff {y : Tile} {ch : ChanId} : ¬ (x.st ≠ .running ∨ (ctxOf s w x.img.context).launched = false ∨ (ctxOf s w x.img.context).halted = true ∨ gated s w x.img.context = true
      ∨ (ctxOf s w x.img.context).cut.isSome = true
      ∨ (mget none (ctxOf s w x.img.context).tags y.u ≠ none ∧ mget none (ctxOf s w x.img.context).tags y.u ≠ some (.launch x.id)) ∨ credit s ch x.colour = 0 ∨ chanFrozen s ch x.colour = true)
    ↔ LaunchTileReady s w x y ch := by
  unfold LaunchTileReady
  simp only [not_or, not_and, ne_eq, not_not, Bool.not_eq_true, Bool.not_eq_false, Option.isSome_eq_false_iff, Option.isNone_iff_eq_none, ← or_iff_not_imp_left]

/-- The task after a tile's token to one start channel has left: the next channel, or the next tile. -/
def tileSent (s : State) (w : BitVec 4) (x : Machine.Task) : Machine.Task :=
  if x.part + 1 < (startChans s w x).length then { x with part := x.part + 1 } else { x with sent := x.sent + 1, part := 0 }

/-- A tile's token leaves on a start channel. -/
def sendTile (s : State) (w : BitVec 4) (x : Machine.Task) (y : Tile) (ch : ChanId) (st : State) : State :=
  let s2 := putTask (setCtx st w x.img.context { ctxOf st w x.img.context with tags := mput none (ctxOf st w x.img.context).tags y.u (some (.launch x.id)) }) w (tileSent s w x)
  { s2 with flights := s2.flights ++ [departs ch (tileTok x y)] }

theorem tileSent_id : (tileSent s w x).id = x.id := by unfold tileSent; split <;> rfl

section tiles

variable {y : Tile} {ch : ChanId} (h : findTask s w id = some x)
include h

theorem recqTileSend_none (hn : x.tiles[x.sent]? = none ∨ (startChans s w x)[x.part]? = none) : exec (.recqTileSend w id) s = .next s := by
  show execRecqTileSend w id s = _
  unfold execRecqTileSend
  rw [h]
  dsimp only
  split
  · next hy hc =>
    rcases hn with hn | hn
    · exact absurd (hy.symm.trans hn) (Option.some_ne_none _)
    · exact absurd (hc.symm.trans hn) (Option.some_ne_none _)
  · rfl

variable (hy : x.tiles[x.sent]? = some y) (hc : (startChans s w x)[x.part]? = some ch)
include hy hc

theorem recqTileSend_idle (hr : ¬ LaunchTileReady s w x y ch) : exec (.recqTileSend w id) s = .next s := by
  show execRecqTileSend w id s = _
  unfold execRecqTileSend startChans at *
  rw [h]
  dsimp only
  rw [hy, hc]
  exact if_pos (by_contra fun hn => hr (launchTileReady_iff.1 hn))

variable (hr : LaunchTileReady s w x y ch)
include hr

theorem recqTileSend_enters : exec (.recqTileSend w id) s = .next (enter s (tileDie s w x ch) ch x.colour (sendTile s w x y ch)) := by
  show execRecqTileSend w id s = _
  unfold execRecqTileSend startChans at *
  rw [h]
  dsimp only
  rw [hy, hc]
  exact if_neg (launchTileReady_iff.2 hr)

theorem recqTileSend_waits (ht : ingressTurn s (tileDie s w x ch) ch x.colour = false) : exec (.recqTileSend w id) s = .next (joinWait s (ingressReq s (tileDie s w x ch) ch x.colour)) := by
  rw [recqTileSend_enters h hy hc hr]
  unfold enter
  rw [ht]
  rfl

theorem recqTileSend_sends (ht : ingressTurn s (tileDie s w x ch) ch x.colour = true) :
    ∃ t, exec (.recqTileSend w id) s = .next t ∧ t.worlds = (sendTile s w x y ch s).worlds ∧ t.ctxs = (sendTile s w x y ch s).ctxs ∧ t.flights = (sendTile s w x y ch s).flights := by
  rw [recqTileSend_enters h hy hc hr]
  unfold enter
  rw [if_pos ht]
  exact ⟨_, rfl, takeUnit_keep [tileDie s w x ch] (leaveWait (sendTile s w x y ch s) (.chan ch x.colour))⟩

end tiles

theorem slotOf_firstSlots (l : List Slot) {k : Nat} (hk : k < 16) : slotOf (firstSlots l) k = l[k]? := by
  unfold firstSlots
  rw [slotOf_ofSlots _ _ hk, List.getElem?_append]
  split
  · next hl =>
    rw [List.length_map] at hl
    rw [List.getElem?_map, List.getElem?_eq_getElem hl]
    rfl
  · next hl =>
    rw [List.length_map] at hl ⊢
    rw [List.getElem?_eq_none (by omega : l.length ≤ k), List.getElem?_replicate]
    split <;> rfl

/-! #### The end of a task -/

/-- All that a task has to do is done: its context is halted and empty, or it is quiet with every tile sent and no sequence to go on with. -/
def TaskDone (s : State) (w : BitVec 4) (id : BitVec 32) (x : Machine.Task) : Prop :=
  (ctxOf s w x.img.context).resident = true ∧ (ctxOf s w x.img.context).launched = true ∧ (ctxOf s w x.img.context).task = id
    ∧ (((ctxOf s w x.img.context).halted = true ∧ ∀ b, b ∈ s.insts → ¬ (b.node.w = w ∧ b.node.x = x.img.context))
      ∨ ((ctxOf s w x.img.context).halted = false ∧ x.st = .running ∧ x.sent = x.tiles.length ∧ ctxQuiet s w x.img.context = true ∧ inSequence s w x.img.context = false))

theorem taskDone_iff : taskDone s w x = true ↔ TaskDone s w x.id x := by
  unfold taskDone TaskDone
  dsimp only
  cases (ctxOf s w x.img.context).halted
  · simp [and_assoc]
  · simp [and_assoc, inCtx]

theorem taskComplete_done (h : findTask s w id = some x) (hd : TaskDone s w id x) : ∃ t, exec (.taskComplete w id) s = .next t ∧ TaskGone t w id := by
  obtain rfl := findTask_id h
  show ∃ t, execTaskComplete w x.id s = .next t ∧ _
  unfold execTaskComplete
  rw [h]
  dsimp only
  rw [if_pos (taskDone_iff.2 hd)]
  exact ⟨_, rfl, finishTask_gone s w x 0 0⟩

theorem taskComplete_idle (h : findTask s w id = some x) (hd : ¬ TaskDone s w id x) : exec (.taskComplete w id) s = .next s := by
  obtain rfl := findTask_id h
  show execTaskComplete w x.id s = _
  unfold execTaskComplete
  rw [h]
  dsimp only
  rw [if_neg (fun hn => hd (taskDone_iff.1 hn))]

/-! #### O45 -/

/-- The clauses on the outcome of a decision that is committed. -/
theorem decisionCommit_spec {d : Decision} (hd : (worldOf s w).decision = some d) {o : Choice} (ho : d.outcome = some o) (hn : d.start + d.count ≤ s.now) :
    let s0 := noDecision s w
    let ends (P : State → Prop) : Prop := ∃ t, exec (.decisionCommit w) s = .next t ∧ P t
    let subject := subjectOf s w d
    (o = .defer → d.kind ≠ 1 → exec (.decisionCommit w) s = .next s0)
    ∧ (∀ x, o = .defer → d.kind = 1 → subject = some x → ends (fun t => (worldOf t w).decision = none ∧ findTask t w x.id = some { x with sliceAt := s.now }
      ∧ ∀ u, u ∈ (worldOf t w).triggers → ∀ b, u.1 ≠ .preempt x.id b))
    ∧ (∀ id x, o = .pick id → findTask s w id = some x →
      (stillFits s0 w x = true → x.recq = false → ends (fun t => (worldOf t w).decision = none ∧ ∃ y, findTask t w id = some y ∧ y.st = .launching ∧ y.quar = false ∧ y.spires = chooseSpires s0 w x false
        ∧ y.heldAt = s.now ∧ y.img = x.img))
      ∧ (stillFits s0 w x = false → ends (fun t => (worldOf t w).decision = none ∧ (worldOf t w).tasks = (worldOf s w).tasks)))
    ∧ (∀ id u x, o = .preempt id → subject = some u → findTask s w id = some x → u.id ≠ id → holdsCells u = true → (∃ z, z ∈ preemptCands s0 w u ∧ z.id = id) → x.recq = false →
      ends (fun t => (worldOf t w).decision = none ∧ (∃ y, findTask t w u.id = some y ∧ y.cuts = u.cuts + 1 ∧ (u.st = .running → y.st = .cutting) ∧ (u.st ≠ .running → y.st = u.st ∧ y.toCut = true))
        ∧ ∃ z, findTask t w id = some z ∧ z.st = .awaiting u.id ∧ z.heldAt = s.now))
    ∧ (∀ id x, o = .kill id → findTask s w id = some x →
      (x.st = .queued → ends (fun t => TaskGone t w id)) ∧ (x.st ≠ .queued → ends (fun t => (worldOf t w).tasks = (worldOf s w).tasks)))
    ∧ (∀ x, o = .killSubject → subject = some x → x.st ≠ .queued → (d.kind ≠ 2 ∨ regionEff s0 w x.region 4 = 0) → ends (fun t => TaskGone t w x.id)) := by
  intro s0 ends subject
  have hcommit : ∀ t, commitOutcome s0 w d o = some t → exec (.decisionCommit w) s = .next t := fun t => decisionCommit_commits hd ho hn
  have hfind : ∀ id, findTask s0 w id = findTask s w id := findTask_noDecision
  have hsubject : subjectOf s0 w d = subject := subjectOf_noDecision d
  refine ⟨?defer, ?slice, ?pick, ?preempt, ?kill, ?killSubject⟩
  case defer =>
    rintro rfl hk
    exact hcommit _ (commitOutcome_defer d hk)
  case slice =>
    rintro x rfl hk hx
    obtain ⟨hdec, hrest⟩ := deferSlice_spec (s := s0) ((hfind _).trans (subjectOf_find hx))
    exact ⟨_, hcommit _ (commitOutcome_deferSlice d hk (hsubject.trans hx)), hdec.trans noDecision_decision, hrest⟩
  case pick =>
    rintro id x rfl hx
    have hx0 : findTask s0 w id = some x := (hfind id).trans hx
    constructor
    · intro hfit hr
      obtain ⟨hdec, hrest⟩ := placed_spec (s := s0) d hx0 hfit
      exact ⟨_, hcommit _ (commitOutcome_pick d hx0 hfit hr), hdec.trans noDecision_decision, hrest⟩
    · intro hfit
      exact ⟨_, hcommit _ (commitOutcome_pickGone d hx0 hfit), (again_decision _ _).trans noDecision_decision, (again_tasks _ _).trans noDecision_tasks⟩
  case preempt =>
    rintro id u x rfl hu hx hne hh hz hr
    obtain ⟨t, ht, hdec, hrest⟩ := commitOutcome_preempt_spec d (hsubject.trans hu) ((hfind id).trans hx) hne hh hz hr
    exact ⟨t, hcommit t ht, hdec.trans noDecision_decision, hrest⟩
  case kill =>
    rintro id x rfl hx
    have hx0 : findTask s0 w id = some x := (hfind id).trans hx
    obtain rfl := findTask_id hx
    constructor
    · intro hq
      refine ⟨_, hcommit _ (commitOutcome_kill d hx0 hq), ?_⟩
      split
      · exact followOn_gone _ (killTask_gone x)
      · exact killTask_gone x
    · intro hq
      exact ⟨_, hcommit _ (commitOutcome_killRunning d hx0 hq), (again_tasks _ _).trans noDecision_tasks⟩
  case killSubject =>
    rintro x rfl hx hq hk
    refine ⟨_, hcommit _ (commitOutcome_killSubject d (hsubject.trans hx) hq), ?_⟩
    split
    · next h2 => exact failCode_gone _ (hk.resolve_left (fun hne => hne h2))
    · exact killTask_gone x

/-- The clauses on a dispatch decision whose trigger is due. -/
theorem dispatchDecision_spec (slot : BitVec 6) {y : Trigger × Nat} {l : List (Trigger × Nat)} (hd : (worldOf s w).decision = none) (hl : dueTriggers s w = y :: l) (hy : y.1 = .dispatch slot.toNat) :
    let s1 := withTriggers s w (l ++ (worldOf s w).triggers.filter (fun u => decide (s.now < u.2)))
    let s2 := failOver s1 w slot.toNat
    (∀ q, quarPick s2 w slot.toNat = some q → q.recq = false → findTask s2 w q.id = some q → ∃ t x, exec (.dispatchDecision w slot) s = .next t ∧ findTask t w q.id = some x ∧ x.st = .launching ∧ x.quar = true)
    ∧ (dispatchCands s2 w slot.toNat true = [] →
      (dispatchCands s2 w slot.toNat false = [] → exec (.dispatchDecision w slot) s = .next s2)
      ∧ (dispatchCands s2 w slot.toNat false ≠ [] → Begins (exec (.dispatchDecision w slot) s) s2 w 0 slot.toNat 0 none (dispatchCands s2 w slot.toNat false))) := by
  intro s1 s2
  constructor
  · intro q hq hr hf
    obtain ⟨u, x, hu, hx, hst, hquar⟩ := dispatchQuar_places hq hr hf
    rw [dispatchDecision_eq slot hd hl hy hu]
    split
    · exact ⟨u, x, rfl, hx, hst, hquar⟩
    · exact ⟨_, x, rfl, (find_of_tasks (start_tasks _ _ _ _ _ _ _) _).trans hx, hst, hquar⟩
  · intro hnone
    have hexec := dispatchDecision_eq slot hd hl hy (dispatchQuar_none hnone)
    exact ⟨fun he => hexec.trans (congrArg _ (if_pos he)), fun hne => begins_start (hexec.trans (congrArg _ (if_neg hne)))⟩

/-- The clauses on the end of a launch. -/
theorem launchComplete_spec (h : findTask s w id = some x) : let y := x.img.context
    (¬ LaunchReady s w x → exec (.launchComplete w id) s = .next s)
    ∧ (∀ c, LaunchReady s w x → regionEff s w x.region 4 = 0 → (checkImage s w x = .error c ∨ (∃ a, checkImage s w x = .ok a) ∧ x.saved = false ∧ attrFault s w y = some c) →
      ∃ t, exec (.launchComplete w id) s = .next t ∧ TaskGone t w id)
    ∧ (∀ l nodes, LaunchReady s w x → checkImage s w x = .ok (l, nodes) → (x.saved = true ∨ attrFault s w y = none) → quotaFits (placeImage s w x l nodes) w nodes = false → regionEff s w x.region 4 = 0 →
      ∃ t, exec (.launchComplete w id) s = .next t ∧ TaskGone t w id) := by
  obtain rfl := findTask_id h
  intro y
  refine ⟨launchComplete_idle h, ?refused, ?unfit⟩
  case refused =>
    rintro c hr hreg (hc | ⟨⟨a, ha⟩, hs, hc⟩)
    · exact ⟨_, launchComplete_error h hr hc, failTask_gone c hreg⟩
    · exact ⟨_, launchComplete_attr h hr ha hs hc, failTask_gone c hreg⟩
  case unfit =>
    intro l nodes hr hi ha hq hreg
    exact ⟨_, launchComplete_unfit h hr hi ha hq, failTask_gone _ hreg⟩

/-- A tile's token leaves on its channel under the task's tag, and the task goes on to its next channel or tile. -/
theorem recqTileSend_spec (h : findTask s w id = some x) {y : Tile} {ch : ChanId} (hy : x.tiles[x.sent]? = some y) (hc : (startChans s w x)[x.part]? = some ch) (hr : LaunchTileReady s w x y ch)
    (ht : ingressTurn s (tileDie s w x ch) ch x.colour = true) : ∃ t v, exec (.recqTileSend w id) s = .next t ∧ (∀ k, k < 16 → slotOf v k = (y.slots.map (BitVec.ofNat 32))[k]?)
      ∧ findTask t w id = some (tileSent s w x)
      ∧ t.flights = s.flights ++ [departs ch { tag := { colour := x.colour, context := x.img.context, iter := BitVec.ofNat 16 y.u }, kind := .data, aux := 0, val := v }]
      ∧ mget none (ctxOf t w x.img.context).tags y.u = some (.launch x.id) := by
  obtain ⟨t, hexec, hworlds, hctxs, hflights⟩ := recqTileSend_sends h hy hc hr ht
  obtain rfl := findTask_id h
  refine ⟨t, firstSlots (y.slots.map (BitVec.ofNat 32)), hexec, fun k hk => slotOf_firstSlots _ hk, ?task, hflights, ?tag⟩
  case task =>
    rw [find_of_tasks (s := putTask s w (tileSent s w x)) (by rw [worldOf_congr hworlds]; rfl)]
    rw [← tileSent_id (s := s) (w := w) (x := x)]
    exact findTask_put s w (tileSent s w x) x (by rw [tileSent_id]; exact h)
  case tag =>
    have hctx : ctxOf t w x.img.context = { ctxOf s w x.img.context with tags := mput none (ctxOf s w x.img.context).tags y.u (some (.launch x.id)) } := by
      unfold ctxOf
      rw [hctxs]
      exact mget_mput_same (d := ({} : Ctx)) _ _ _
    rw [hctx]
    dsimp only
    exact mget_mput_same (d := (none : Option TagHolder)) _ _ _

/-- Settles O45: by the trigger that is due, the outcome that is committed, and the state of the task. -/
theorem taskEvents : Obligations.TaskEvents := by
  unfold Obligations.TaskEvents
  refine ⟨due_spec, fun _ _ _ hd hu hl => dropIdle_later hd hu hl, ?idle, ?dispatch, ?subject, fun _ _ hd => decisionCommit_none hd, ?commit, ?config, ?launch, ?tile, ?done⟩
  case idle =>
    intro s w slot id h
    exact ⟨dispatchDecision_idle slot h, preemptDecision_idle id h, faultDecision_idle id h⟩
  case dispatch =>
    intro s w slot y l hd hl
    exact ⟨failOver_none, fun x ho hf hr => failOver_one ho ((findTask_withTriggers _ _).trans hf) hr, dispatchDecision_other slot hd hl, dispatchDecision_spec slot hd hl⟩
  case subject =>
    intro s w id x y l hd hl hx
    exact ⟨preemptDecision_begins id hd hl hx, preemptDecision_other id hd hl, faultDecision_begins id hd hl hx, faultDecision_other id hd hl⟩
  case commit =>
    intro s w d hd
    exact ⟨decisionCommit_waits hd, fun o ho hn => decisionCommit_spec hd ho hn⟩
  case config =>
    intro s w id x sec h
    exact ⟨configPacket_sends sec h, configPacket_idle sec h⟩
  case launch =>
    intro s w id x h
    obtain ⟨hidle, hrefused, hunfit⟩ := launchComplete_spec h
    refine ⟨hidle, hrefused, hunfit, fun l nodes hr hi hs hq => launchComplete_saved h hr hi hs hq, ?_⟩
    intro l nodes hr hi ha hq hs hb
    have hexec := launchComplete_new h hr hi hs ha hq
    obtain rfl := findTask_id h
    obtain ⟨htask, hgo, hctx, hsrcq⟩ := launched_spec l nodes h hb
    obtain ⟨hres, hown, hcol, hsp, hnodes, hstarts, hgen, hcaps, hquotas, hqueue, hpurge, hhalt⟩ := placeImage_ctx (s := s) (w := w) (x := x) l nodes
    refine ⟨_, hexec, htask, hgo, ?_, ?_⟩
    · dsimp only
      rw [hctx]
      exact ⟨hres, rfl, hown, hcol, hsp, hnodes, hstarts, hgen, hcaps, hquotas, hqueue, hpurge, hhalt⟩
    · intro hr hseq
      refine ⟨startVal x, fun k hk => slotOf_valOf _ k hk, ?_⟩
      rw [hsrcq hr hseq, hctx]
      dsimp only
      rw [hstarts, hcol]
  case tile =>
    intro s w id x h
    refine ⟨recqTileSend_none h, ?_⟩
    intro y ch hy hc
    exact ⟨recqTileSend_idle h hy hc, recqTileSend_waits h hy hc, recqTileSend_spec h hy hc⟩
  case done =>
    intro s w id
    exact ⟨task_steps_none, fun x h => ⟨taskComplete_done h, taskComplete_idle h⟩⟩

end Sys2Proof.Proofs
end

section
/-! SUPPORT.  The cut of a running context, its image and its restore (R388 to R401). -/

namespace Sys2Proof.Proofs

open Sys2Proof Sys2Proof.Machine Sys2Proof.Claims Sys2Proof.Laws

/-! #### The begin of a cut -/

/-- The MARKER of an epoch on a channel of a context. -/
def markerOn (x : CtxId) (e n : Nat) : Flight :=
  departs { w := x.w, x := x.x, n := n } { tag := { colour := 0, context := x.x, iter := 0 }, kind := .marker, aux := BitVec.ofNat 12 e, val := noVal }

theorem sendMarkers_flights (s : State) (x : CtxId) (e : Nat) (l : List Nat) : (sendMarkers s x e l).flights = s.flights ++ l.map (markerOn x e) := rfl

/-- A context runs, and its task is to be cut. -/
def CutDue (s : State) (x : CtxId) : Prop :=
  (ctxOf s x.w x.x).resident = true ∧ (ctxOf s x.w x.x).launched = true ∧ (ctxOf s x.w x.x).cut = none ∧ (ctxOf s x.w x.x).purging = none ∧ (ctxOf s x.w x.x).halted = false
    ∧ ∃ u, findTask s x.w (ctxOf s x.w x.x).task = some u ∧ u.st = .cutting

theorem cutDue_iff {s : State} {x : CtxId} : cutDue s x = true ↔ CutDue s x := by
  unfold cutDue CutDue
  simp only [Bool.and_eq_true, Bool.not_eq_true', Option.isNone_iff_eq_none, Option.any_eq_true, beq_iff_eq, and_assoc]

theorem mem_ctxChans {c : Ctx} {ch : ChanCfg} : ch ∈ ctxChans c ↔ ∃ p, p ∈ c.nodes ∧ ch ∈ p.route.chans := by
  unfold ctxChans
  simp only [List.mem_flatten, List.mem_map]
  constructor
  · rintro ⟨_, ⟨p, hp, rfl⟩, hch⟩
    exact ⟨p, hp, hch⟩
  · rintro ⟨p, hp, hch⟩
    exact ⟨_, ⟨p, hp, rfl⟩, hch⟩

/-- The channels that a cut sends a MARKER on at its begin: those that come from outside. -/
theorem mem_extChans {c : Ctx} {n : Nat} : n ∈ extChans c ↔ ∃ p ch, p ∈ c.nodes ∧ ch ∈ p.route.chans ∧ ch.src = none ∧ ch.dst ≠ none ∧ ch.n = n := by
  unfold extChans
  simp only [List.mem_map, List.mem_filter, Bool.and_eq_true, Option.isNone_iff_eq_none, Option.isSome_iff_ne_none, mem_ctxChans]
  constructor
  · rintro ⟨ch, ⟨⟨p, hp, hch⟩, hsrc, hdst⟩, hn⟩
    exact ⟨p, ch, hp, hch, hsrc, hdst, hn⟩
  · rintro ⟨p, ch, hp, hch, hsrc, hdst, hn⟩
    exact ⟨ch, ⟨⟨p, hp, hch⟩, hsrc, hdst⟩, hn⟩

/-- The cut as it begins: its marked sources, and MARKERs on the external input channels. -/
def newCut (s : State) (c : Ctx) : CutSt :=
  { epoch := c.epoch + 1, at_ := s.now, marks := (c.nodes.filter (fun p => p.route.markerSource)).map (fun p => p.route.num), cutNodes := [], recorded := [], chans := [], sent := extChans c }

theorem newCut_marks {s : State} {c : Ctx} {n : Nat} : n ∈ (newCut s c).marks ↔ ∃ p, p ∈ c.nodes ∧ p.route.markerSource = true ∧ p.route.num = n := by
  unfold newCut
  simp only [List.mem_map, List.mem_filter, and_assoc]

theorem cutBegin_idle {s : State} {x : CtxId} (h : ¬ CutDue s x) : exec (.cutBegin x) s = .next s := by
  show execCutBegin x s = _
  unfold execCutBegin
  dsimp only
  rw [if_pos (by rw [Bool.not_eq_true']; exact Bool.eq_false_iff.2 (fun hc => h (cutDue_iff.1 hc)))]

theorem cutBegin_begins {s : State} {x : CtxId} (h : CutDue s x) : let c := ctxOf s x.w x.x
    exec (.cutBegin x) s = .next (sendMarkers (setCtx s x.w x.x { c with epoch := c.epoch + 1, cut := some (newCut s c) }) x (c.epoch + 1) (extChans c)) := by
  show execCutBegin x s = _
  unfold execCutBegin
  dsimp only
  rw [cutDue_iff.2 h]
  rfl

/-! #### MARKERs at a node -/

/-- The channels into a node at whose head a MARKER waits. -/
def markersHere (s : State) (n : NodeId) : List Nat := (inChans (nodeCtx s n) n.n).filter (fun ch => markerNext s { w := n.w, x := n.x, n := ch })

/-- A cut does something at a node: a MARKER waits there, it is a marked source, or it is cut already. -/
def MarkerActs (s : State) (n : NodeId) (k : CutSt) : Prop := (nodeCtx s n).purging = none ∧ (markersHere s n ≠ [] ∨ n.n ∈ k.marks ∨ n.n ∈ k.cutNodes)

theorem markerActs_iff {s : State} {n : NodeId} {k : CutSt} :
    ((nodeCtx s n).purging.isSome || (markersHere s n == [] && !k.marks.contains n.n && !k.cutNodes.contains n.n)) = true ↔ ¬ MarkerActs s n k := by
  unfold MarkerActs
  simp only [Bool.or_eq_true, Bool.and_eq_true, beq_iff_eq, Bool.not_eq_true', List.contains_eq_mem, decide_eq_false_iff_not, not_and_or, not_or, ne_eq, not_not, Option.isSome_iff_ne_none, and_assoc]

theorem markerArrive_none {s : State} {n : NodeId} (h : (nodeCtx s n).cut = none) : exec (.markerArrive n) s = .next s := by
  show execMarkerArrive n s = _
  unfold execMarkerArrive
  dsimp only
  rw [h]

section marker

variable {s : State} {n : NodeId} {k : CutSt} (h : (nodeCtx s n).cut = some k)
include h

theorem markerArrive_idle (ha : ¬ MarkerActs s n k) : exec (.markerArrive n) s = .next s := by
  show execMarkerArrive n s = _
  unfold execMarkerArrive
  dsimp only
  rw [h]
  exact if_pos (markerActs_iff.2 ha)

/-- The node after its MARKERs are taken, cut if it was not. -/
def cutHere (s : State) (n : NodeId) (k : CutSt) : State := if k.cutNodes.contains n.n then takeMarkers s n (markersHere s n) else cutNode (takeMarkers s n (markersHere s n)) n

theorem markerArrive_acts (ha : MarkerActs s n k) : exec (.markerArrive n) s = .next (recordNode (cutHere s n k) n) := by
  show execMarkerArrive n s = _
  unfold execMarkerArrive
  dsimp only
  rw [h]
  exact if_neg (fun hc => markerActs_iff.1 hc ha)

theorem takeMarkers_cut (l : List Nat) : (nodeCtx (takeMarkers s n l) n).cut = some { k with chans := k.chans ++ l } := by
  have hset : (nodeCtx (takeMarkers s n l) n).cut = (nodeCtx s n).cut.map (fun k => { k with chans := k.chans ++ l }) := congrArg Ctx.cut (nodeCtx_set _ n _)
  rw [hset, h]
  rfl

omit h in
theorem takeMarkers_nodes (l : List Nat) : (nodeCtx (takeMarkers s n l) n).nodes = (nodeCtx s n).nodes := by
  unfold takeMarkers updCut
  rw [nodeCtx_set]
  rfl

/-- The instances that a cut of the node leaves: those of it that need run to their commit, and those of other nodes. -/
theorem cutHere_spec : ∃ j, (nodeCtx (cutHere s n k) n).cut = some j ∧ (nodeCtx (cutHere s n k) n).nodes = (nodeCtx s n).nodes ∧ (cutHere s n k).ops = s.ops
    ∧ j.epoch = k.epoch ∧ j.marks = k.marks ∧ j.chans = k.chans ++ markersHere s n ∧ j.recorded = k.recorded ∧ j.sent = k.sent
    ∧ j.cutNodes = (if n.n ∈ k.cutNodes then k.cutNodes else k.cutNodes ++ [n.n])
    ∧ (n.n ∉ k.cutNodes → ∀ b, b ∈ (cutHere s n k).insts → b.node = n → b.begun = true ∨ b.durable = true)
    ∧ ∀ b, b ∈ s.insts → b ∈ (cutHere s n k).insts ∨ ∃ y, y ∈ s.insts ∧ y.node = n ∧ b.isAt y.cell y.seq = true := by
  have htake := takeMarkers_cut h (markersHere s n)
  unfold cutHere
  by_cases hc : n.n ∈ k.cutNodes
  · rw [if_pos (by simpa using hc)]
    exact ⟨_, htake, takeMarkers_nodes _, rfl, rfl, rfl, rfl, rfl, rfl, (if_pos hc).symm, fun hn => absurd hc hn, fun b hb => .inl hb⟩
  · rw [if_neg (by simpa using hc)]
    obtain ⟨hcut, hnodes, hinsts, -, hops⟩ := cutNode_spec (takeMarkers s n (markersHere s n)) n _ htake
    refine ⟨_, hcut, hnodes.trans (takeMarkers_nodes _), hops, rfl, rfl, rfl, rfl, rfl, (if_neg hc).symm, ?_, ?_⟩
    · intro _ b hb hbn
      obtain ⟨hmem, hkeep⟩ := (hinsts b).1 hb
      by_contra hno
      rw [not_or, Bool.not_eq_true, Bool.not_eq_true] at hno
      have := hkeep b hmem hbn hno.1 hno.2
      rw [isAt_self] at this
      cases this
    · intro b hb
      by_cases hy : ∃ y, y ∈ s.insts ∧ y.node = n ∧ b.isAt y.cell y.seq = true
      · exact .inr hy
      · refine .inl ((hinsts b).2 ⟨hb, fun y hmem hyn _ _ => ?_⟩)
        exact Bool.eq_false_iff.2 (fun ht => hy ⟨y, hmem, hyn, ht⟩)

end marker

theorem ctxChans_congr {c d : Ctx} (h : c.nodes = d.nodes) : ctxChans c = ctxChans d := by unfold ctxChans; rw [h]

theorem outChans_congr {c d : Ctx} (h : c.nodes = d.nodes) (n : Nat) : outChans c n = outChans d n := by unfold outChans; rw [ctxChans_congr h]

theorem lanternOf_congr {s t : State} {n : NodeId} (h : (nodeCtx t n).nodes = (nodeCtx s n).nodes) : lanternOf t n = lanternOf s n := by unfold lanternOf placedOf; rw [h]

/-- The clauses on MARKERs at a node. -/
theorem markerArrive_spec {s : State} {n : NodeId} {k : CutSt} (h : (nodeCtx s n).cut = some k) (ha : MarkerActs s n k) :
    ∃ t j, exec (.markerArrive n) s = .next t ∧ (nodeCtx t n).cut = some j ∧ j.epoch = k.epoch ∧ j.marks = k.marks ∧ j.chans = k.chans ++ markersHere s n
      ∧ j.cutNodes = (if n.n ∈ k.cutNodes then k.cutNodes else k.cutNodes ++ [n.n])
      ∧ (n.n ∉ k.cutNodes → ∀ b, b ∈ t.insts → b.node = n → b.begun = true ∨ b.durable = true) ∧ (∀ b, b ∈ s.insts → b.node ≠ n → b ∈ t.insts ∨ ∃ y, y ∈ s.insts ∧ y.node = n ∧ b.isAt y.cell y.seq = true)
      ∧ ((∃ b, b ∈ t.insts ∧ b.node = n) → j.recorded = k.recorded ∧ j.sent = k.sent)
      ∧ ((∀ b, b ∈ t.insts → b.node ≠ n) → lanternOf s n = none → n.n ∈ j.recorded ∧ ∀ ch, ch ∈ outChans (nodeCtx s n) n.n →
        (∀ o, o ∈ s.ops → o.node = n → o.port = some ((ch.src.map (fun e => e.port.toNat)).getD 0) → o.isStream = true) → ch.n ∈ j.sent ∧ (ch.n ∉ k.sent → markerOn { w := n.w, x := n.x } k.epoch ch.n ∈ t.flights)) := by
  obtain ⟨i, hcut, hnodes, hops, hepoch, hmarks, hchans, hrec, hsent, hcuts, hkept, hothers⟩ := cutHere_spec h
  obtain ⟨j, hjcut, hjepoch, hjmarks, hjchans, hjcuts, hjinsts, hbusy, hdone⟩ := record_spec (cutHere s n k) n i hcut
  refine ⟨recordNode (cutHere s n k) n, j, markerArrive_acts h ha, hjcut, hjepoch.trans hepoch, hjmarks.trans hmarks, hjchans.trans hchans, hjcuts.trans hcuts, ?_, ?_, ?_, ?_⟩
  · rw [hjinsts]; exact hkept
  · rw [hjinsts]; exact fun b hb _ => hothers b hb
  · rw [hjinsts, ← hrec, ← hsent]; exact hbusy
  · rw [hjinsts, ← lanternOf_congr hnodes, ← outChans_congr hnodes, ← hops, ← hsent, ← hepoch]
    exact hdone

/-! #### The image of a complete cut, and its failure -/

/-- Where a step on a world's only task ends it, and tells it in a record if no instance is at its commit. -/
def Ended (s t : State) (w : BitVec 4) (id : BitVec 32) : Prop :=
  (∀ y, y ∈ (worldOf s w).tasks → y.id = id) → TaskGone t w id ∧ ((∀ b, b ∈ s.insts → b.begun = false) → Recorded s t w)

/-- A save fails: the task ends, a record is made, and the context's spires are quarantined. -/
def SaveFails (s : State) (x : CtxId) (u : Machine.Task) (r : Result) : Prop :=
  ∃ t, r = .next t ∧ Ended s t x.w u.id
    ∧ ((∀ y, y ∈ (worldOf s x.w).tasks → y.id = u.id) → (∀ b, b ∈ s.insts → b.begun = false) → ∀ sp, sp ∈ (ctxOf s x.w x.x).spires → sp < 64 → t.dev.qspire.getLsbD sp = true)

/-- The bytes of an image beside its header. -/
def imageBody (s : State) (x : CtxId) : Nat := 16 * (statedUnits s x + openUnits s x)

/-- The image fits the context's slot of the world's arena. -/
def ImageFits (s : State) (x : CtxId) : Prop :=
  16 ≤ (arenaOf s x).2 ∧ (arenaOf s x).2 ≤ 40 ∧ 64 + imageBody s x ≤ 2 ^ (arenaOf s x).2 ∧ inCapability s x.w (arenaOf s x).1 (64 + imageBody s x) = true

theorem imageFits_iff {s : State} {x : CtxId} :
    ¬ ((arenaOf s x).2 < 16 ∨ 40 < (arenaOf s x).2 ∨ 2 ^ (arenaOf s x).2 < 64 + imageBody s x ∨ inCapability s x.w (arenaOf s x).1 (64 + imageBody s x) = false) ↔ ImageFits s x := by
  unfold ImageFits
  simp only [not_or, Nat.not_lt, Bool.not_eq_false]

section save

variable {s : State} {x : CtxId}

theorem cutComplete_idle (h : (ctxOf s x.w x.x).cut = none ∨ findTask s x.w (ctxOf s x.w x.x).task = none) : exec (.cutComplete x) s = .next s := by
  show execCutComplete x s = _
  unfold execCutComplete
  dsimp only
  split
  · next hk hu =>
    rcases h with h | h
    · exact absurd (hk.symm.trans h) (Option.some_ne_none _)
    · exact absurd (hu.symm.trans h) (Option.some_ne_none _)
  · rfl

theorem saveDeadline_none (h : (ctxOf s x.w x.x).cut = none) : exec (.saveDeadlineExpiry x) s = .next s := by
  show execSaveDeadlineExpiry x s = _
  unfold execSaveDeadlineExpiry
  rw [h]

variable {k : CutSt} (hk : (ctxOf s x.w x.x).cut = some k)
include hk

theorem saveDeadline_early (h : s.now < k.at_ + saveLimit s x.w) : exec (.saveDeadlineExpiry x) s = .next s := by
  show execSaveDeadlineExpiry x s = _
  unfold execSaveDeadlineExpiry
  rw [hk]
  dsimp only
  rw [if_neg (Nat.not_le.2 h)]

theorem saveDeadline_late (h : k.at_ + saveLimit s x.w ≤ s.now) : exec (.saveDeadlineExpiry x) s = .next (failSave s x k) := by
  show execSaveDeadlineExpiry x s = _
  unfold execSaveDeadlineExpiry
  rw [hk]
  dsimp only
  rw [if_pos h]

variable {u : Machine.Task} (hu : findTask s x.w (ctxOf s x.w x.x).task = some u)
include hu


omit hk in
theorem saveFails_of {i : Instr} (h : exec i s = .next (failSave s x k)) : SaveFails s x u (exec i s) :=
  ⟨_, h, fun hone => ⟨(failSave_spec s x k u hu hone).1, fun hb => ((failSave_spec s x k u hu hone).2 hb).1⟩, fun hone hb => ((failSave_spec s x k u hu hone).2 hb).2⟩

theorem cutComplete_undone (hd : cutDone s x k = false) : exec (.cutComplete x) s = .next s := by
  show execCutComplete x s = _
  unfold execCutComplete
  dsimp only
  rw [hk, hu]
  dsimp only
  rw [hd]
  rfl

variable (hd : cutDone s x k = true)
include hd

theorem cutComplete_unfit (hf : ¬ ImageFits s x) : exec (.cutComplete x) s = .next (failSave s x k) := by
  show execCutComplete x s = _
  unfold execCutComplete
  dsimp only
  rw [hk, hu]
  dsimp only
  rw [hd]
  exact if_pos (by_contra fun hn => hf (imageFits_iff.1 hn))

theorem cutComplete_writes (hf : ImageFits s x) (h1 : levelCheck s x.w (arenaOf s x).1 0 = none) (h2 : levelCheck s x.w ((arenaOf s x).1 + 63 + imageBody s x) 0 = none) :
    exec (.cutComplete x) s = .next (writeImage s x k u (arenaOf s x).1 (imageBody s x)) := by
  show execCutComplete x s = _
  unfold execCutComplete imageBody at *
  dsimp only
  rw [hk, hu]
  dsimp only
  rw [hd, if_neg (show ¬ (!true) = true by decide)]
  refine (if_neg (imageFits_iff.2 hf)).trans ?_
  rw [h1, h2]

end save

end Sys2Proof.Proofs
end

section
/-! SUPPORT.  The restore of a saved context (R399 to R401). -/

namespace Sys2Proof.Proofs

open Sys2Proof Sys2Proof.Machine Sys2Proof.Claims Sys2Proof.Laws

/-- The context that a task's image names. -/
def taskCtx (w : BitVec 4) (u : Machine.Task) : CtxId := { w := w, x := u.img.context }

/-- A saved task is launched, its context placed but not running, and the answer of the arena is there. -/
def RestoreReady (s : State) (w : BitVec 4) (u : Machine.Task) : Prop :=
  u.st = .launching ∧ u.saved = true ∧ (ctxOf s w u.img.context).resident = true ∧ (ctxOf s w u.img.context).launched = false ∧ (ctxOf s w u.img.context).task = u.id ∧ attached s w = true
    ∧ ∀ r, levelCheck s w (arenaOf s (taskCtx w u)).1 0 = some r → r.cause ≠ .stall

/-- The origin of a record about the restore of a task. -/
def restoreOrigin (w : BitVec 4) (u : Machine.Task) : Origin :=
  { ctx := taskCtx w u, colour := u.colour, iter := 0, cell := 0, node := 0, blk := 0, slot := 0, nest := false, source := 3, gen := 0 }

/-- The state with a saved image placed: its context as it was saved, and what waited for it. -/
def restored (s : State) (x : CtxId) (v : Saved) : State := sendDue (restoreCur (placeSaved s x v) x v) x.w x.x

/-- The task as it runs after its restore. -/
def restoredTask (u : Machine.Task) : Machine.Task := { u with st := if u.toCut then .cutting else .running }

section restore

variable {s : State} {w : BitVec 4} {id : BitVec 32} {u : Machine.Task}

theorem restore_none (h : findTask s w id = none) : exec (.restore w id) s = .next s := by
  show execRestore w id s = _
  unfold execRestore
  rw [h]

theorem restoreReady_iff : RestoreReady s w u ↔
    ¬ (u.st ≠ .launching ∨ u.saved = false ∨ (ctxOf s w u.img.context).resident = false ∨ (ctxOf s w u.img.context).launched = true ∨ (ctxOf s w u.img.context).task ≠ u.id ∨ attached s w = false)
    ∧ ¬ (levelCheck s w (arenaOf s (taskCtx w u)).1 0).any (fun r => r.cause == .stall) = true := by
  unfold RestoreReady
  simp only [not_or, ne_eq, not_not, Bool.not_eq_false, Bool.not_eq_true, Option.any_eq_false, beq_eq_false_iff_ne, and_assoc]

variable (h : findTask s w id = some u)
include h

theorem restore_idle (hr : ¬ RestoreReady s w u) : exec (.restore w id) s = .next s := by
  show execRestore w id s = _
  unfold execRestore
  rw [h]
  dsimp only
  split
  · rfl
  · next hfirst =>
    exact if_pos (by_contra fun hn => hr (restoreReady_iff.2 ⟨hfirst, hn⟩))

variable (hr : RestoreReady s w u)
include hr

theorem restore_invalid (hi : imageOk s (taskCtx w u) = none) : exec (.restore w id) s = .next (failTask (logOnly s (restoreOrigin w u) { cause := .permission, detail := 13 }) w u .permission) := by
  obtain ⟨hfirst, hstall⟩ := restoreReady_iff.1 hr
  show execRestore w id s = _
  unfold execRestore
  rw [h]
  dsimp only
  rw [if_neg hfirst]
  refine (if_neg hstall).trans ?_
  rw [show imageOk s { w := w, x := u.img.context } = none from hi]
  rfl

theorem restore_valid {v : Saved} (hi : imageOk s (taskCtx w u) = some v) (hd : v.drains = []) : exec (.restore w id) s =
    .next (cutBad (putTask (deliverRecord (restored s (taskCtx w u) v) (restoreOrigin w u) { cause := .preempted, trap := v.ctx.epoch % 4096 } false) w (restoredTask u))) := by
  obtain ⟨hfirst, hstall⟩ := restoreReady_iff.1 hr
  show execRestore w id s = _
  unfold execRestore
  rw [h]
  dsimp only
  rw [if_neg hfirst]
  refine (if_neg hstall).trans ?_
  rw [show imageOk s { w := w, x := u.img.context } = some v from hi]
  dsimp only
  unfold finishSwap
  rw [hd]
  rfl

end restore

/-- An image that is not valid fails its task and makes a record. -/
theorem invalid_ends (s : State) (w : BitVec 4) (u : Machine.Task) (r : Report) (c : Cause) : Ended s (failTask (logOnly s (restoreOrigin w u) r) w u c) w u.id := by
  intro hone
  have hworld : worldOf (logOnly s (restoreOrigin w u) r) w = { worldOf s w with fltSeq := ((worldOf s w).fltSeq + 1) % 2 ^ 32 } := logOnly_world s (restoreOrigin w u) r
  have hone' : ∀ y, y ∈ (worldOf (logOnly s (restoreOrigin w u) r) w).tasks → y.id = u.id := by
    rw [hworld]; exact hone
  refine ⟨fail_gone _ w u c hone', fun hb => ?_⟩
  unfold Recorded
  rw [fail_one _ w u c hone', stop_seq _ _ _ _ _ (by unfold logOnly; rw [logRecord_insts]; exact hb), hworld]

/-- The context sequence goes on at the saved context: it is of the sequence, and no other context of it runs. -/
def SequenceBack (s : State) (x : CtxId) (cur : Nat) : Prop :=
  x.x ∈ belfrySeq (worldOf s x.w) ∧ cur ≤ belSeq (worldOf s x.w).belfry
    ∧ (belCtx (worldOf s x.w).belfry cur = x.x ∨ ∀ y, y ∈ belfrySeq (worldOf s x.w) → y ≠ x.x → ¬ ((ctxOf s x.w y).resident = true ∧ (ctxOf s x.w y).launched = true))

/-- The tokens that a GO which waited for a context sends to its start nodes. -/
def dueGo (c : Ctx) (x : CtxId) (e : Context × Token) : List (ChanId × Token) :=
  c.starts.filterMap (fun n => (startChan c n).map (fun k =>
    (({ w := x.w, x := x.x, n := k } : ChanId), ({ tag := { colour := c.colour, context := x.x, iter := 0 }, kind := .data, aux := 0, val := firstSlots [e.2.aux.zeroExtend 32] } : Token))))

/-- Where only contexts other than the restored one count, the placed image changes nothing of `SequenceBack`. -/
theorem sequenceBack_placed {s : State} {x : CtxId} {v : Saved} (hb : v.binds = []) (cur : Nat) : SequenceBack (placeSaved s x v) x cur ↔ SequenceBack s x cur := by
  have hw : worldOf (placeSaved s x v) x.w = worldOf s x.w := worldOf_congr (placeSaved_worlds s x v) x.w
  unfold SequenceBack
  rw [hw]
  refine and_congr_right fun _ => and_congr_right fun _ => or_congr_right (forall_congr' fun y => forall_congr' fun _ => forall_congr' fun hy => ?_)
  rw [place_other s x v hb y hy]

section restored

variable {s : State} {x : CtxId} {v : Saved} (hb : v.binds = [])
include hb

/-- The worlds, contexts and device of the restored state. -/
theorem restored_world : ∃ e, worldOf (restored s x v) x.w = { worldOf s x.w with belfry := e, goDue := (worldOf s x.w).goDue.filter (fun g => g.1 != x.x) }
    ∧ (SequenceBack s x (field (v.header.getD 0 0) 15 2) → e = withCur (worldOf s x.w).belfry (field (v.header.getD 0 0) 15 2))
    ∧ (¬ SequenceBack s x (field (v.header.getD 0 0) 15 2) → e = (worldOf s x.w).belfry) := by
  have hw : worldOf (placeSaved s x v) x.w = worldOf s x.w := worldOf_congr (placeSaved_worlds s x v) x.w
  obtain ⟨e, hcur, hback, hnot, -⟩ := restoreCur_spec (placeSaved s x v) x v
  obtain ⟨-, hdue, -⟩ := sendDue_spec (restoreCur (placeSaved s x v) x v) x.w x.x
  have hplaced := sequenceBack_placed hb (s := s) (x := x) (field (v.header.getD 0 0) 15 2)
  refine ⟨e, ?_, fun h => ?_, fun h => ?_⟩
  · unfold restored
    rw [hdue, hcur, hw]
  · rw [← hw]; exact hback (hplaced.2 h)
  · rw [← hw]; exact hnot (fun hp => h (hplaced.1 hp))

omit hb in
/-- What is sent for a context as it is restored touches the worlds, the source queues and the control tokens alone. -/
theorem restored_frame : restored s x v = { placeSaved s x v with worlds := (restored s x v).worlds, srcq := (restored s x v).srcq, ctls := (restored s x v).ctls } := by
  obtain ⟨-, -, -, -, hcur⟩ := restoreCur_spec (placeSaved s x v) x v
  obtain ⟨-, -, hdue⟩ := sendDue_spec (restoreCur (placeSaved s x v) x v) x.w x.x
  unfold restored
  rw [hdue, hcur]

theorem restored_ctx : ctxOf (restored s x v) x.w x.x = mergeCtx (ctxOf s x.w x.x) v.ctx := by
  obtain ⟨hctx, -⟩ := place_saved s x v hb
  rw [← hctx]
  unfold ctxOf
  rw [restored_frame]

theorem restored_srcq : (restored s x v).srcq = s.srcq ++ v.srcq ++ ((worldOf s x.w).goDue.filter (fun e => e.1 == x.x)).flatMap (dueGo (ctxOf s x.w x.x) x) := by
  obtain ⟨hctx, hsrcq, -⟩ := place_saved s x v hb
  have hw : worldOf (placeSaved s x v) x.w = worldOf s x.w := worldOf_congr (placeSaved_worlds s x v) x.w
  obtain ⟨e, hcur, -, -, hframe⟩ := restoreCur_spec (placeSaved s x v) x v
  obtain ⟨hdue, -, -⟩ := sendDue_spec (restoreCur (placeSaved s x v) x v) x.w x.x
  have hc : ctxOf (restoreCur (placeSaved s x v) x v) x.w x.x = mergeCtx (ctxOf s x.w x.x) v.ctx := by
    rw [← hctx]
    unfold ctxOf
    rw [hframe]
  have hq : (restoreCur (placeSaved s x v) x v).srcq = (placeSaved s x v).srcq := by rw [hframe]
  unfold restored
  rw [hdue, hcur, hw, hc, hq, hsrcq]
  rfl

end restored

/-- What the restored state holds besides its worlds, contexts and source queues. -/
theorem restored_holds {s : State} {x : CtxId} {v : Saved} (hb : v.binds = []) : let r := restored s x v
    r.dev = s.dev ∧ r.nests = s.nests ++ v.nests ∧ r.goWaits = s.goWaits ++ v.goWaits ∧ r.outq = s.outq ++ v.outq.map (fun o => { o with since := s.now })
      ∧ r.ptoks.map (fun p => (p.at_, p.tok)) = s.ptoks.map (fun p => (p.at_, p.tok)) ++ v.ptoks.map (fun p => (p.at_, p.tok))
      ∧ r.groups = s.groups ++ v.groups.map (fun g => { g with cell := movedCell v.ctx.spires (ctxOf s x.w x.x).spires g.cell }) := by
  intro r
  obtain ⟨-, -, hnests, hgoWaits, houtq, hptoks, hgroups, -, hdev⟩ := place_saved s x v hb
  rw [show r = _ from restored_frame]
  exact ⟨hdev, hnests, hgoWaits, houtq, hptoks, hgroups⟩

/-- A restored state with its record told and its task running. -/
def resumed (s : State) (o : Origin) (r : Report) (t : Machine.Task) : State := cutBad (putTask (deliverRecord s o r false) o.ctx.w t)

section resumed

variable {s : State} {o : Origin} {r : Report} {t : Machine.Task}

theorem resumed_keeps : (resumed s o r t).ctxs = s.ctxs ∧ (resumed s o r t).srcq = s.srcq ∧ (resumed s o r t).nests = s.nests ∧ (resumed s o r t).goWaits = s.goWaits ∧ (resumed s o r t).outq = s.outq
    ∧ (resumed s o r t).ptoks = s.ptoks ∧ (resumed s o r t).groups = s.groups := by
  unfold resumed
  simp

theorem resumed_world (hbad : s.dev.badc = []) : worldOf (resumed s o r t) o.ctx.w =
    { worldOf s o.ctx.w with fltSeq := ((worldOf s o.ctx.w).fltSeq + 1) % 2 ^ 32, tasks := updFirst (fun y => y.id == t.id) (fun _ => t) (worldOf s o.ctx.w).tasks } := by
  have hbad2 : (putTask (deliverRecord s o r false) o.ctx.w t).dev.badc = [] := by
    show (deliverRecord s o r false).dev.badc = []
    rw [deliverRecord_dev]
    exact hbad
  unfold resumed
  rw [(cutBad_same hbad2 o.ctx.w).1, put_world, deliver_tasks]

theorem findTask_resumed {u : Machine.Task} (hbad : s.dev.badc = []) (h : findTask s o.ctx.w t.id = some u) : findTask (resumed s o r t) o.ctx.w t.id = some t := by
  rw [find_of_tasks (s := putTask s o.ctx.w t) (by rw [resumed_world hbad, put_world])]
  exact findTask_put s o.ctx.w t u h

end resumed

/-- The clauses on a valid image. -/
theorem restore_spec {s : State} {w : BitVec 4} {id : BitVec 32} {u : Machine.Task} {v : Saved} (h : findTask s w id = some u) (hr : RestoreReady s w u) (hi : imageOk s (taskCtx w u) = some v)
    (hbad : s.dev.badc = []) (hd : v.drains = []) (hb : v.binds = []) :
    let x := taskCtx w u
    let new := ctxOf s w x.x
    let back := SequenceBack s x (field (v.header.getD 0 0) 15 2)
    ∃ t, exec (.restore w id) s = .next t ∧ Recorded s t w ∧ findTask t w id = some { u with st := if u.toCut then .cutting else .running }
      ∧ (back → (worldOf t w).belfry = withCur (worldOf s w).belfry (field (v.header.getD 0 0) 15 2)) ∧ (¬ back → (worldOf t w).belfry = (worldOf s w).belfry) ∧ (∀ e, e ∈ (worldOf t w).goDue → e.1 ≠ x.x)
      ∧ ctxOf t w x.x = mergeCtx new v.ctx
      ∧ t.srcq = s.srcq ++ v.srcq ++ ((worldOf s w).goDue.filter (fun e => e.1 == x.x)).flatMap (dueGo new x) ∧ t.nests = s.nests ++ v.nests ∧ t.goWaits = s.goWaits ++ v.goWaits
      ∧ t.outq = s.outq ++ v.outq.map (fun o => { o with since := s.now })
      ∧ t.ptoks.map (fun p => (p.at_, p.tok)) = s.ptoks.map (fun p => (p.at_, p.tok)) ++ v.ptoks.map (fun p => (p.at_, p.tok))
      ∧ t.groups = s.groups ++ v.groups.map (fun g => { g with cell := movedCell v.ctx.spires new.spires g.cell }) := by
  intro x new back
  obtain rfl := findTask_id h
  obtain ⟨e, hworld, hback, hnot⟩ := restored_world hb (s := s) (x := x)
  obtain ⟨hdev, hnests, hgoWaits, houtq, hptoks, hgroups⟩ := restored_holds hb (s := s) (x := x)
  let r : Report := { cause := .preempted, trap := v.ctx.epoch % 4096 }
  have hbad1 : (restored s x v).dev.badc = [] := by rw [hdev]; exact hbad
  have hw : worldOf (resumed (restored s x v) (restoreOrigin w u) r (restoredTask u)) w = _ := resumed_world hbad1
  have hworld1 : worldOf (restored s x v) (restoreOrigin w u).ctx.w = { worldOf s w with belfry := e, goDue := (worldOf s w).goDue.filter (fun g => g.1 != x.x) } := hworld
  rw [hworld1] at hw
  obtain ⟨kctxs, ksrcq, knests, kgoWaits, koutq, kptoks, kgroups⟩ := resumed_keeps (s := restored s x v) (o := restoreOrigin w u) (r := r) (t := restoredTask u)
  refine ⟨resumed (restored s x v) (restoreOrigin w u) r (restoredTask u), restore_valid h hr hi hd, ?record, ?task, ?back, ?stays, ?due, ?ctx, ksrcq.trans (restored_srcq hb), knests.trans hnests, kgoWaits.trans hgoWaits,
    koutq.trans houtq, ?ptoks, kgroups.trans hgroups⟩
  case record =>
    unfold Recorded
    rw [hw]
  case task =>
    have hfind : findTask (restored s x v) w u.id = some u := (find_of_tasks (s := s) (by rw [show worldOf (restored s x v) w = _ from hworld1]) u.id).trans h
    exact findTask_resumed hbad1 hfind
  case back =>
    intro hb
    rw [hw]
    exact hback hb
  case stays =>
    intro hb
    rw [hw]
    exact hnot hb
  case due =>
    rw [hw]
    intro g hg
    simpa using (List.mem_filter.1 hg).2
  case ctx =>
    have hctx : ctxOf (restored s x v) w x.x = mergeCtx new v.ctx := restored_ctx hb
    rw [← hctx]
    unfold ctxOf
    rw [kctxs]
  case ptoks => rw [kptoks]; exact hptoks

/-! #### O46 -/

/-- Settles O46: by the state of the cut, the room for its image, and the validity of what is restored. -/
theorem cutEvents : Obligations.CutEvents := by
  unfold Obligations.CutEvents
  refine ⟨?start, ?marker, ?save, ?restore⟩
  case start =>
    intro s x
    refine ⟨cutBegin_idle, fun h => ⟨_, newCut s (ctxOf s x.w x.x), cutBegin_begins h, rfl, ctxOf_setCtx_same s x.w x.x _, rfl, rfl, rfl, rfl, rfl, fun n => newCut_marks, fun n => mem_extChans, rfl, fun n => rfl⟩⟩
  case marker =>
    intro s n
    exact ⟨markerArrive_none, fun k h => ⟨markerArrive_idle h, markerArrive_spec h⟩⟩
  case save =>
    intro s x
    refine ⟨cutComplete_idle, saveDeadline_none, fun k hk => saveDeadline_early hk, fun k u hk hu => ⟨?late, cutComplete_undone hk hu, ?unfit, ?writes⟩⟩
    case late => exact fun h => saveFails_of hu (saveDeadline_late hk h)
    case unfit => exact fun hd hf => saveFails_of hu (cutComplete_unfit hk hu hd hf)
    case writes =>
      intro hd hf h1 h2
      obtain ⟨v, hv⟩ := image_spec s x k u (arenaOf s x).1 (imageBody s x) (by rw [findTask_id hu]; exact hu) (purge_of_done hd)
      exact ⟨_, v, cutComplete_writes hk hu hd hf h1 h2, hv⟩
  case restore =>
    intro s w id
    refine ⟨restore_none, fun u h => ?_⟩
    obtain rfl := findTask_id h
    refine ⟨restore_idle h, fun hr hv => ?invalid, fun v hr hv hbad hd hb => ?valid⟩
    case invalid =>
      have hi : imageOk s (taskCtx w u) = none := Option.eq_none_iff_forall_ne_some.2 fun v hok => hv v ((image_valid s (taskCtx w u) v).1 hok)
      exact ⟨_, restore_invalid h hr hi, invalid_ends s w u _ _⟩
    case valid =>
      obtain ⟨t, hexec, hrecord, htask, hback, hstays, hdue, hctx, hrest⟩ := restore_spec h hr ((image_valid s (taskCtx w u) v).2 hv) hbad hd hb
      obtain ⟨-, -, hres, -, hown, -⟩ := hr
      refine ⟨t, hexec, hrecord, htask, hback, hstays, hdue, ?_, hrest⟩
      rw [show ctxOf t w u.img.context = _ from hctx]
      exact ⟨rfl, hres, hown, rfl, rfl, rfl, rfl, rfl, rfl, rfl, rfl, rfl, rfl, rfl⟩

end Sys2Proof.Proofs
end

section
/-! SUPPORT.  Requests to the security processor (R346 to R350, R356 to R362). -/

namespace Sys2Proof.Proofs

open Sys2Proof Sys2Proof.Machine Sys2Proof.Claims Sys2Proof.Laws

/-! #### A request's turn and its answer -/

/-- The instruction that brings a request. -/
noncomputable def requestInstr : Request → Instr
  | .create w prot sys cells granules => .create w prot sys cells granules
  | .grant w cells granules => .grant w cells granules
  | .reclaim w cells granules => .reclaim w cells granules
  | .destroy w => .destroy w
  | .keyInstall b w slot keys => .keyInstall b w slot keys
  | .keyRetire b w slot => .keyRetire b w slot
  | .kekInstall w kek => .kekInstall w kek
  | .keyImport w kek blob nctrs => .keyImport w kek blob nctrs
  | .unlock token => .unlock token
  | .unlockChallenge nonce => .unlockChallenge nonce
  | .tdispVersion w => .getTdispVersion w
  | .tdispCapabilities w => .getTdispCapabilities w
  | .lock w => .lockInterfaceRequest w
  | .report w => .getDeviceInterfaceReport w
  | .tdiState w => .getDeviceInterfaceState w
  | .start w => .startInterfaceRequest w
  | .stop w => .stopInterfaceRequest w
  | .measurements w => .getMeasurements w
  | .session w => .spdmSessionEstablish w
  | .ideKm w => .ideKm w

theorem exec_requestInstr (r : Request) (s : State) : exec (requestInstr r) s = request r s (doRequest r) := by
  cases r <;> rfl

section turn

variable {s : State} (r : Request)

theorem request_waits (h : s.dev.ready.getLsbD 0 = false) : exec (requestInstr r) s = .next { s with dev := { s.dev with mailbox := s.dev.mailbox ++ [(s.now, r)] } } :=
  waits_gen _ r (doRequest r) (exec_requestInstr r) s h

theorem request_later (h : s.dev.ready.getLsbD 0 = true) (ht : requestTurn s r = false) : exec (requestInstr r) s = .next { s with agenda := afterPass (.request r) s.agenda } :=
  turned_gen (exec_requestInstr r) h ht

variable (h : s.dev.ready.getLsbD 0 = true)
include h

/-- A request that R357 gives no order is taken at once. -/
theorem request_late (h7 : 7 < requestRank r) : exec (requestInstr r) s = .next (doRequest r s) := by
  rw [ready_gen (exec_requestInstr r) h (turn_late s r h7), took_late r _ h7]

variable (ht : requestTurn s r = true)
include ht

theorem request_refused {k : Nat} {l : List Nat} (hk : k ≠ 0) (hd : doRequest r s = reply s k l) : exec (requestInstr r) s = .next { s with outputs := s.outputs ++ [.reply k l] } := by
  rw [ready_gen (exec_requestInstr r) h ht, hd, took_refused r s k l hk]
  rfl

/-- What is done by a request, with its answer; its turn is all that is noted besides. -/
theorem request_answered {u : State} {k : Nat} {l : List Nat} (hd : doRequest r s = reply u k l) (ho : u.outputs = s.outputs) :
    ∃ m, exec (requestInstr r) s = .next { u with outputs := s.outputs ++ [.reply k l], turns := m } := by
  refine ⟨(tookTurn r (reply u k l)).turns, ?_⟩
  rw [ready_gen (exec_requestInstr r) h ht, hd, took_spec r (reply u k l), ← ho]
  rfl

end turn

/-! #### Owners (R346 to R348) -/

/-- The cells and granules named are the world's, cleared and FRESH where they change hands, and no others change owner. -/
def Gives (s t : State) (w : BitVec 4) (cells granules : List Nat) : Prop :=
  (∀ c, c ∈ cells → c < 12288 → mget none t.cellOwner c = some w.toNat ∧ (mget none s.cellOwner c ≠ some w.toNat → clr t c)) ∧ (∀ c, c ∉ cells → mget none t.cellOwner c = mget none s.cellOwner c)
    ∧ (∀ g, g ∈ granules → isDevice (g * granuleSize) = true → mget none t.granuleOwner g = some w.toNat ∧ (mget none s.granuleOwner g ≠ some w.toNat → frs t g))
    ∧ ∀ g, g ∉ granules → mget none t.granuleOwner g = mget none s.granuleOwner g

theorem giveAll_gives (s : State) (w : BitVec 4) (cells granules : List Nat) : Gives s (giveAll s w cells granules) w cells granules := by
  obtain ⟨hcells, hother, hgranules, hrest, -, -⟩ := give_spec s w cells granules
  exact ⟨hcells, hother, hgranules, hrest⟩

theorem cellsFree_frame (s : State) (w : BitVec 4) : ∃ m, cellsFree s w = { s with worlds := m } := by
  have hfold : ∀ (l : List Nat) (s : State), ∃ m, l.foldl (fun st k => addDispatch st w k) s = { s with worlds := m } := by
    intro l
    induction l with
    | nil => exact fun s => ⟨s.worlds, rfl⟩
    | cons k l ih =>
      intro s
      obtain ⟨m, hm⟩ := ih (addDispatch s w k)
      exact ⟨m, hm⟩
  exact hfold _ s

/-- A request names a cell or a granule that another world owns. -/
def NamesOthers (s : State) (w : BitVec 4) (cells granules : List Nat) : Prop :=
  (∃ c v, c ∈ cells ∧ mget none s.cellOwner c = some v ∧ v ≠ w.toNat) ∨ ∃ g v, g ∈ granules ∧ mget none s.granuleOwner g = some v ∧ v ≠ w.toNat

/-- The interface of a protected world is locked, so that its cells and granules are fixed. -/
def Fixed (x : World) : Prop := x.prot = true ∧ (x.tdi = .locked ∨ x.tdi = .run)

section owners

variable {s : State} {w : BitVec 4} {k g : List Nat}

theorem create_answers {p y : Bool} (h : s.dev.ready.getLsbD 0 = true) (ht : requestTurn s (.create w p y k g) = true) (hl : ¬ (worldOf s w).live = true) (ho : ¬ (p = true ∧ ∃ u, s.dev.unlocked = some u ∧ u < s.now))
    (hn : ¬ NamesOthers s w k g) : ∃ t, (exec (.create w p y k g) s = .next t ∧ t.outputs = s.outputs ++ [.reply 0 []]) ∧ worldOf t w = { live := true, prot := p, sys := y, saveKey := some s.free } ∧ Gives s t w k g := by
  obtain ⟨-, -, -, hcreate⟩ := create_spec s w p y k g h ht
  let s1 : State := setWorld { s with free := s.free + 1 } w { live := true, prot := p, sys := y, saveKey := some s.free }
  have hworlds : (giveAll s1 w k g).worlds = s1.worlds := rfl
  refine ⟨_, ⟨hcreate hl ho hn, ?_⟩, ?_, ?_⟩
  · rw [took_spec]; rfl
  · rw [took_spec]
    exact (worldOf_congr hworlds w).trans (worldOf_setWorld _ w _)
  · rw [took_spec]
    exact giveAll_gives s1 w k g

theorem doGrant_refused (hb : (worldOf s w).live = false ∨ Fixed (worldOf s w) ∨ NamesOthers s w k g) : doGrant w k g s = reply s 3 [] := by
  unfold doGrant
  refine if_pos ?_
  rw [Bool.or_eq_true, Bool.or_eq_true, Bool.not_eq_true', fixed_iff, names_iff, or_assoc]
  exact hb

theorem doGrant_gives (hb : ¬ ((worldOf s w).live = false ∨ Fixed (worldOf s w) ∨ NamesOthers s w k g)) : doGrant w k g s = reply (cellsFree (giveAll s w k g) w) 0 [] := by
  unfold doGrant
  refine if_neg ?_
  rw [Bool.or_eq_true, Bool.or_eq_true, Bool.not_eq_true', fixed_iff, names_iff, or_assoc]
  exact hb

/-- A resident context of the world has a cell that is named, or holds a granule that is named. -/
def InUse (s : State) (w : BitVec 4) (k g : List Nat) : Prop := (∃ c, c ∈ k ∧ c ∈ residentCells s w) ∨ ∃ d, d ∈ g ∧ ∃ e, e ∈ worldCarves s w ∧ d ∈ carveGranules e.2

theorem reclaimBad_iff : (!(worldOf s w).live || worldFixed (worldOf s w)) = true ↔ (worldOf s w).live = false ∨ Fixed (worldOf s w) := by
  rw [Bool.or_eq_true, Bool.not_eq_true', fixed_iff]
  rfl

theorem doReclaim_refused (hb : (worldOf s w).live = false ∨ Fixed (worldOf s w)) : doReclaim w k g s = reply s 3 [] := by
  unfold doReclaim
  exact if_pos (reclaimBad_iff.2 hb)

theorem doReclaim_busy (hb : ¬ ((worldOf s w).live = false ∨ Fixed (worldOf s w))) (hu : InUse s w k g) : doReclaim w k g s = reply s 1 [] := by
  unfold doReclaim
  exact (if_neg (fun hc => hb (reclaimBad_iff.1 hc))).trans (if_pos ((resident_iff s w k g).2 hu))

/-- The state without what a world gives back. -/
def takeBack (s : State) (w : BitVec 4) (k g : List Nat) : State :=
  let cs := k.filter (fun c => mget none s.cellOwner c == some w.toNat)
  let gs := g.filter (fun d => mget none s.granuleOwner d == some w.toNat)
  let s1 := dropGranules (clearCells s cs) gs
  { s1 with cellOwner := setOwner none s1.cellOwner cs, granuleOwner := setOwner none s1.granuleOwner gs }

theorem doReclaim_takes (hb : ¬ ((worldOf s w).live = false ∨ Fixed (worldOf s w))) (hu : ¬ InUse s w k g) : doReclaim w k g s = reply (takeBack s w k g) 0 [] := by
  unfold doReclaim
  exact (if_neg (fun hc => hb (reclaimBad_iff.1 hc))).trans (if_neg (fun hc => hu ((resident_iff s w k g).1 hc)))

theorem takeBack_cells (c : Nat) : (c ∈ k ∧ mget none s.cellOwner c = some w.toNat → mget none (takeBack s w k g).cellOwner c = none ∧ clr (takeBack s w k g) c)
    ∧ (¬ (c ∈ k ∧ mget none s.cellOwner c = some w.toNat) → mget none (takeBack s w k g).cellOwner c = mget none s.cellOwner c) := by
  have howner : mget none (takeBack s w k g).cellOwner c = if c ∈ k.filter (fun c => mget none s.cellOwner c == some w.toNat) then none else mget none s.cellOwner c := setOwner_get none _ _ c
  have hmem : c ∈ k.filter (fun c => mget none s.cellOwner c == some w.toNat) ↔ c ∈ k ∧ mget none s.cellOwner c = some w.toNat := by
    rw [List.mem_filter, beq_iff_eq]
  rw [howner]
  exact ⟨fun h => ⟨if_pos (hmem.2 h), clear_spec s _ c (hmem.2 h)⟩, fun h => if_neg (fun hc => h (hmem.1 hc))⟩

theorem takeBack_granules (d : Nat) : mget none (takeBack s w k g).granuleOwner d = if d ∈ g ∧ mget none s.granuleOwner d = some w.toNat then none else mget none s.granuleOwner d := by
  refine (setOwner_get none _ _ d).trans (if_congr ?_ rfl rfl)
  rw [List.mem_filter, beq_iff_eq]

end owners

/-! #### Keys (R350, R356, R357) -/

/-- A requester may change a world's key slots: its tenant in its session, or the operator of an unprotected world. -/
def MayKey (s : State) (b : Requester) (w : BitVec 4) : Prop :=
  (worldOf s w).live = true ∧ match b with
    | .operator => (worldOf s w).prot = false
    | .tenant v => v = w ∧ (worldOf s w).spdm = true

section keys

variable {s : State} {b : Requester} {w : BitVec 4} {slot : BitVec 8} {keys : KeySet}

theorem mayKey_of (h : MayKey s b w) : mayKey s b w = true := (mayKey_iff s b w).2 h

theorem mayKey_not (h : ¬ MayKey s b w) : mayKey s b w = false := Bool.eq_false_iff.2 (fun hc => h ((mayKey_iff s b w).1 hc))

theorem doKeyInstall_refused (h : ¬ MayKey s b w) : doKeyInstall b w slot keys s = reply s 3 [] := by
  unfold doKeyInstall
  rw [mayKey_not h]
  rfl

theorem doKeyInstall_installs (h : MayKey s b w) :
    doKeyInstall b w slot keys s = reply (setWorld s w { worldOf s w with keys := mput none (worldOf s w).keys slot.toNat (some keys) }) 0 [] := by
  unfold doKeyInstall
  rw [mayKey_of h]
  rfl

theorem doKeyRetire_refused (h : ¬ MayKey s b w) : doKeyRetire b w slot s = reply s 3 [] := by
  unfold doKeyRetire
  rw [mayKey_not h]
  rfl

theorem doKeyRetire_retires (h : MayKey s b w) : doKeyRetire b w slot s = reply (retireSlot w s slot.toNat) 0 [] := by
  unfold doKeyRetire
  rw [mayKey_of h]
  rfl

variable {kek : BitVec 256} {blob : List (Nat × KeySet)} {n : List (Nat × Nat)}

theorem doKekInstall_refused (h : (worldOf s w).spdm = false) : doKekInstall w kek s = reply s 3 [] := by
  unfold doKekInstall
  dsimp only
  rw [h]
  rfl

theorem doKekInstall_installs (h : (worldOf s w).spdm = true) : doKekInstall w kek s = reply (setWorld s w { worldOf s w with kek := some kek }) 0 [] := by
  unfold doKekInstall
  dsimp only
  rw [h]
  rfl

/-- The tenant imports keys in its session while its interface is locked, under the key-encryption key that the world holds. -/
def MayImport (s : State) (w : BitVec 4) (kek : BitVec 256) : Prop := (worldOf s w).spdm = true ∧ (worldOf s w).tdi = .locked ∧ (worldOf s w).kek = some kek

theorem importBad_iff : (!(worldOf s w).spdm || (worldOf s w).tdi != .locked || (worldOf s w).kek != some kek) = true ↔ ¬ MayImport s w kek := by
  unfold MayImport
  rw [Bool.or_eq_true, Bool.or_eq_true, Bool.not_eq_true', bne_iff_ne, bne_iff_ne, not_and_or, not_and_or, Bool.not_eq_true, or_assoc]

/-- A world with the keys and counters that were imported. -/
def imported (x : World) (blob : List (Nat × KeySet)) (n : List (Nat × Nat)) : World :=
  { x with keys := blob.foldl (fun m e => mput none m (e.1 % 256) (some e.2)) [], nctr := n.foldl (fun m e => mput 0 m (e.1 % 256) e.2) [], saveKey := x.wrapped.bind (fun v => v.save), wrapped := none }

theorem doKeyImport_refused (h : ¬ MayImport s w kek) : doKeyImport w kek blob n s = reply s 3 [] := by
  unfold doKeyImport
  exact if_pos (importBad_iff.2 h)

theorem doKeyImport_imports (h : MayImport s w kek) : doKeyImport w kek blob n s = reply (setWorld s w (imported (worldOf s w) blob n)) 0 [] := by
  unfold doKeyImport
  exact if_neg (fun hc => importBad_iff.1 hc h)

theorem imported_key (x : World) {a e : List (Nat × KeySet)} {j : Nat} {key : KeySet} (hb : blob = a ++ (j, key) :: e) (hj : j < 256) (he : ∀ y, y ∈ e → y.1 % 256 ≠ j) : mget none (imported x blob n).keys j = some key := by
  rw [hb]
  exact foldl_mput_hit (none : Option KeySet) (fun y : Nat × KeySet => y.1 % 256) (fun y => some y.2) j a e (j, key) [] (Nat.mod_eq_of_lt hj) he

theorem imported_noKey (x : World) {j : Nat} (h : ∀ y, y ∈ blob → y.1 % 256 ≠ j) : mget none (imported x blob n).keys j = none :=
  foldl_mput (none : Option KeySet) (fun y : Nat × KeySet => y.1 % 256) (fun y => some y.2) j blob [] h

theorem imported_counter (x : World) {a e : List (Nat × Nat)} {j c : Nat} (hn : n = a ++ (j, c) :: e) (hj : j < 256) (he : ∀ y, y ∈ e → y.1 % 256 ≠ j) : mget 0 (imported x blob n).nctr j = c := by
  rw [hn]
  exact foldl_mput_hit (0 : Nat) (fun y : Nat × Nat => y.1 % 256) (fun y => y.2) j a e (j, c) [] (Nat.mod_eq_of_lt hj) he

end keys

/-! #### Sessions, debug unlock and interfaces (R358, R359, R361, R362, R413) -/

section session

variable {s : State} {w : BitVec 4}

theorem doIdeKm_refused (h : (worldOf s w).spdm = false) : doIdeKm w s = reply s 3 [] := by
  unfold doIdeKm
  dsimp only
  rw [h]
  rfl

theorem doIdeKm_sets (h : (worldOf s w).spdm = true) : doIdeKm w s = reply (setWorld s w { worldOf s w with ide := true }) 0 [] := by
  unfold doIdeKm
  dsimp only
  rw [h]
  rfl

theorem doSession_opens (hl : (worldOf s w).live = true) (hk : s.dev.link.isSome = true) : doSpdmSessionEstablish w s = reply (setWorld s w { worldOf s w with spdm := true }) 0 [] := by
  unfold doSpdmSessionEstablish
  dsimp only
  rw [hl, hk]
  rfl

theorem doSession_refused (h : (worldOf s w).live = false ∨ s.dev.link = none) : doSpdmSessionEstablish w s = reply s 3 [] := by
  unfold doSpdmSessionEstablish
  refine if_neg ?_
  rw [Bool.and_eq_true, not_and_or, Bool.not_eq_true, Option.not_isSome_iff_eq_none]
  exact h

end session

/-- A debug token verifies: its version, device and nonce, and its signature. -/
def TokenVerifies (s : State) (token : DebugToken) : Prop :=
  token.version = 1 ∧ token.rsv = 0 ∧ token.devid = Config.devid ∧ s.dev.nonce = some token.nonce ∧ Config.sigOk token.version token.devid token.nonce token.sig = true

theorem tokenOk_iff {s : State} {token : DebugToken} : tokenOk s token = true ↔ TokenVerifies s token := by
  unfold tokenOk TokenVerifies
  simp only [Bool.and_eq_true, beq_iff_eq, and_assoc]

theorem doUnlock_unlocks {s : State} {token : DebugToken} (h : TokenVerifies s token) : doUnlock token s = reply { s with dev := { s.dev with nonce := none, unlocked := some (s.dev.unlocked.getD s.now) } } 0 [] := by
  unfold doUnlock
  exact if_pos (tokenOk_iff.2 h)

theorem doUnlock_refused {s : State} {token : DebugToken} (h : ¬ TokenVerifies s token) : doUnlock token s = reply { s with dev := { s.dev with nonce := none } } 3 [] := by
  unfold doUnlock
  exact if_neg (fun hc => h (tokenOk_iff.1 hc))

/-- A request to the interface of a protected world; any other world's function refuses it. -/
def InterfaceRequest (i : BitVec 4 → Instr) (P : State → BitVec 4 → World → Prop) : Prop := ∀ s w, s.dev.ready.getLsbD 0 = true →
  (¬ ((worldOf s w).live = true ∧ (worldOf s w).prot = true) → exec (i w) s = .next { s with outputs := s.outputs ++ [.reply 3 []] }) ∧ ((worldOf s w).live = true → (worldOf s w).prot = true → P s w (worldOf s w))

theorem interfaceRequest_of {i : BitVec 4 → Instr} {P : State → BitVec 4 → World → Prop} (r : BitVec 4 → Request) (body : BitVec 4 → State → World → State) (h7 : ∀ w, 7 < requestRank (r w))
    (hd : ∀ w s, exec (i w) s = request (r w) s (fun s => Machine.tdi s w (body w))) (hP : ∀ s w, exec (i w) s = .next (body w s (worldOf s w)) → P s w (worldOf s w)) : InterfaceRequest i P := by
  intro s w h
  obtain ⟨hrefused, htaken⟩ := security_a s w h (body w) (i w) (r w) (h7 w) (hd w)
  exact ⟨hrefused, fun hl hp => hP s w (htaken hl hp)⟩

/-- A request that moves the interface of a protected world from some states to another. -/
def MovesInterface (src : Tdi → Prop) (dst : Tdi) (i : BitVec 4 → Instr) (s : State) (w : BitVec 4) (x : World) : Prop :=
  (src x.tdi → ∃ t, (exec (i w) s = .next t ∧ t.outputs = s.outputs ++ [.reply 0 []]) ∧ (worldOf t w).tdi = dst ∧ t = { s with worlds := t.worlds, outputs := t.outputs })
    ∧ (¬ src x.tdi → exec (i w) s = .next { s with outputs := s.outputs ++ [.reply 3 []] })

section interface

variable (s : State) (w : BitVec 4)

theorem lock_moves (h : exec (.lockInterfaceRequest w) s = .next (if (worldOf s w).tdi = .unlocked ∨ (worldOf s w).tdi = .error then reply (setWorld s w { worldOf s w with tdi := .locked }) 0 [] else refuse s)) :
    MovesInterface (fun x => x = .unlocked ∨ x = .error) .locked .lockInterfaceRequest s w (worldOf s w) := by
  constructor
  · intro hsrc
    exact ⟨_, ⟨h.trans (congrArg _ (if_pos hsrc)), rfl⟩, congrArg World.tdi (worldOf_setWorld s w { worldOf s w with tdi := .locked }), rfl⟩
  · intro hsrc
    exact h.trans (congrArg _ (if_neg hsrc))

theorem start_moves (h : exec (.startInterfaceRequest w) s = .next (if (worldOf s w).tdi = .locked then reply (cellsFree (setWorld s w { worldOf s w with tdi := .run }) w) 0 [] else refuse s)) :
    MovesInterface (fun x => x = .locked) .run .startInterfaceRequest s w (worldOf s w) := by
  constructor
  · intro hsrc
    obtain ⟨m, hm⟩ := cellsFree_frame (setWorld s w { worldOf s w with tdi := .run }) w
    have htdi := cellsFree_tdi (setWorld s w { worldOf s w with tdi := .run }) w
    rw [worldOf_setWorld] at htdi
    refine ⟨_, ⟨h.trans (congrArg _ (if_pos hsrc)), ?_⟩, htdi, ?_⟩
    · rw [hm]; rfl
    · rw [hm]; rfl
  · intro hsrc
    exact h.trans (congrArg _ (if_neg hsrc))

theorem stop_moves (h : exec (.stopInterfaceRequest w) s = .next (reply (setWorld s w { worldOf s w with tdi := .unlocked }) 0 [])) :
    MovesInterface (fun _ => True) .unlocked .stopInterfaceRequest s w (worldOf s w) := by
  exact ⟨fun _ => ⟨_, ⟨h, rfl⟩, congrArg World.tdi (worldOf_setWorld s w { worldOf s w with tdi := .unlocked }), rfl⟩, fun hn => absurd trivial hn⟩

end interface

theorem tdispVersion_answers : InterfaceRequest .getTdispVersion (fun s w _ => exec (.getTdispVersion w) s = .next { s with outputs := s.outputs ++ [.reply 0 [0x10]] }) :=
  interfaceRequest_of .tdispVersion (fun _ s _ => reply s 0 [0x10]) (fun _ => (by decide : 7 < 10)) (fun _ _ => rfl) (fun _ _ he => he)

theorem tdispCapabilities_answers : InterfaceRequest .getTdispCapabilities (fun s w _ => ∃ l, exec (.getTdispCapabilities w) s = .next { s with outputs := s.outputs ++ [.reply 0 l] }) :=
  interfaceRequest_of .tdispCapabilities (fun _ s _ => reply s 0 (Config.report 16)) (fun _ => (by decide : 7 < 10)) (fun _ _ => rfl) (fun _ _ he => ⟨_, he⟩)

theorem tdiState_answers : InterfaceRequest .getDeviceInterfaceState (fun s w x => exec (.getDeviceInterfaceState w) s = .next { s with outputs := s.outputs ++ [.reply 0 [x.tdi.code]] }) :=
  interfaceRequest_of .tdiState (fun _ s x => reply s 0 [x.tdi.code]) (fun _ => (by decide : 7 < 10)) (fun _ _ => rfl) (fun _ _ he => he)

/-- What the report of a world's interface tells. -/
def interfaceReport (s : State) (w : BitVec 4) : List Nat :=
  [w.toNat, (ownedBy s.cellOwner w).length] ++ ownedBy s.cellOwner w ++ [(ownedBy s.granuleOwner w).length] ++ ownedBy s.granuleOwner w ++ [debugState s, measurement s, weightOf s w] ++ Config.report w.toNat

theorem report_answers : InterfaceRequest .getDeviceInterfaceReport (fun s w _ => ∃ cs gs rest, (∀ c, mget none s.cellOwner c = some w.toNat → c ∈ cs) ∧ (∀ g, mget none s.granuleOwner g = some w.toNat → g ∈ gs)
    ∧ exec (.getDeviceInterfaceReport w) s =
      .next { s with outputs := s.outputs ++ [.reply 0 ([w.toNat, cs.length] ++ cs ++ [gs.length] ++ gs ++ [if s.dev.unlocked.isSome then 1 else 0, measurement s, mget 16 s.dev.wqos w.toNat] ++ rest)] }) :=
  interfaceRequest_of .report (fun w s _ => reply s 0 (interfaceReport s w)) (fun _ => (by decide : 7 < 10)) (fun _ _ => rfl)
    (fun s w he => ⟨ownedBy s.cellOwner w, ownedBy s.granuleOwner w, Config.report w.toNat, owned_mem s.cellOwner w, owned_mem s.granuleOwner w, he⟩)

/-! #### Link events (R360) -/

theorem linkLost_plain {x : World} (h : x.prot = false) : linkLost x = { x with spdm := false, ide := false } := by
  unfold linkLost
  rw [h]
  rfl

theorem linkLost_prot {x : World} (h : x.prot = true) : linkLost x =
    { x with spdm := false, ide := false, tdi := .error, wrapPending := true, tasks := x.tasks.map (fun t => if t.st = .running then { t with st := .cutting, cuts := t.cuts + 1 } else t) } := by
  unfold linkLost
  rw [h]
  rfl

theorem linkAll_frame (s : State) : ∃ m, linkAll s = { s with worlds := m } := ⟨_, linkBad s worldIds⟩

theorem linkDown_eq (s : State) : exec .linkDown s =
    .next { linkAll s with dev := { (linkAll s).dev with link := none, lost := true, ready := BitVec.ofNat 64 ((linkAll s).dev.ready.toNat - bits (linkAll s).dev.ready.toNat 1 1 * 2) } } := rfl

theorem linkDown_spec (s : State) : ∃ t, exec .linkDown s = .next t ∧ t = { s with worlds := t.worlds, dev := t.dev } ∧ t.dev.link = none ∧ t.dev.lost = true
    ∧ (∀ k, k < 64 → t.dev.ready.getLsbD k = (s.dev.ready.getLsbD k && decide (k ≠ 1))) ∧ ∀ w, worldOf t w = linkLost (worldOf s w) := by
  obtain ⟨m, hm⟩ := linkAll_frame s
  have hworlds : (linkAll s).worlds = m := by rw [hm]
  have hexec := linkDown_eq s
  rw [hm] at hexec
  refine ⟨_, hexec, rfl, rfl, rfl, fun k _ => ready_bit1 s.dev.ready k, fun w => ?_⟩
  rw [← linkAll_get s w]
  unfold worldOf
  rw [hworlds]

/-- A save of the world is pending, or its keys need no wrapping. -/
def WrapWaits (s : State) (w : BitVec 4) : Prop := (worldOf s w).wrapPending = false ∨ (∃ q, q ∈ (worldOf s w).tasks ∧ q.st = .cutting) ∨ ∃ e, e ∈ contextsOf s w ∧ e.2.cut ≠ none

theorem wrapWaits_iff {s : State} {w : BitVec 4} :
    (!(worldOf s w).wrapPending || (worldOf s w).tasks.any (fun t => t.st == .cutting) || (contextsOf s w).any (fun e => e.2.cut.isSome)) = true ↔ WrapWaits s w := by
  unfold WrapWaits
  simp only [Bool.or_eq_true, Bool.not_eq_true', List.any_eq_true, beq_iff_eq, Option.isSome_iff_ne_none, or_assoc]

/-- A world with its keys wrapped under the tenant's key-encryption key; a set that is wrapped already stays. -/
def wrappedWorld (x : World) : World :=
  { x with keys := [], nctr := [], saveKey := none, wrapped := (if x.wrapped.isSome && x.keys == [] then x.wrapped else x.kek.map (fun k => { kek := k, keys := x.keys, nctr := x.nctr, save := x.saveKey })), wrapPending := false }

theorem keyWrap_idle {s : State} {w : BitVec 4} (h : WrapWaits s w) : exec (.keyWrap w) s = .next s := by
  show execKeyWrap w s = _
  unfold execKeyWrap
  exact if_pos (wrapWaits_iff.2 h)

theorem keyWrap_wraps {s : State} {w : BitVec 4} (h : ¬ WrapWaits s w) : exec (.keyWrap w) s = .next (setWorld s w (wrappedWorld (worldOf s w))) := by
  show execKeyWrap w s = _
  unfold execKeyWrap
  exact if_neg (fun hc => h (wrapWaits_iff.1 hc))

/-! #### O49 -/

/-- The clauses on CREATE. -/
theorem create_clauses {s : State} {w : BitVec 4} {p y : Bool} {k g : List Nat} (h : s.dev.ready.getLsbD 0 = true) (ht : requestTurn s (.create w p y k g) = true) :
    let only (code : Nat) : Prop := exec (.create w p y k g) s = .next { s with outputs := s.outputs ++ [.reply code []] }
    let open_ := p = true ∧ ∃ u, s.dev.unlocked = some u ∧ u < s.now
    ((worldOf s w).live = true → only 1) ∧ (¬ (worldOf s w).live = true → open_ → only 2) ∧ (¬ (worldOf s w).live = true → ¬ open_ → NamesOthers s w k g → only 3)
    ∧ (¬ (worldOf s w).live = true → ¬ open_ → ¬ NamesOthers s w k g → ∃ t, (exec (.create w p y k g) s = .next t ∧ t.outputs = s.outputs ++ [.reply 0 []])
      ∧ worldOf t w = { live := true, prot := p, sys := y, saveKey := some s.free } ∧ Gives s t w k g) := by
  obtain ⟨hlive, hopen, hothers, -⟩ := create_spec s w p y k g h ht
  exact ⟨hlive, hopen, hothers, create_answers h ht⟩

/-- The clauses on GRANT. -/
theorem grant_clauses {s : State} {w : BitVec 4} {k g : List Nat} (h : s.dev.ready.getLsbD 0 = true) (ht : requestTurn s (.grant w k g) = true) :
    let bad := (worldOf s w).live = false ∨ Fixed (worldOf s w) ∨ NamesOthers s w k g
    (bad → exec (.grant w k g) s = .next { s with outputs := s.outputs ++ [.reply 3 []] })
    ∧ (¬ bad → ∃ t, (exec (.grant w k g) s = .next t ∧ t.outputs = s.outputs ++ [.reply 0 []]) ∧ Gives s t w k g) := by
  refine ⟨fun hb => request_refused (.grant w k g) h ht (by decide) (doGrant_refused hb), fun hb => ?_⟩
  obtain ⟨n, hn⟩ := cellsFree_frame (giveAll s w k g) w
  obtain ⟨m, hm⟩ := request_answered (.grant w k g) h ht ((doGrant_gives hb).trans (congrArg (reply · 0 []) hn)) rfl
  exact ⟨_, ⟨hm, rfl⟩, giveAll_gives s w k g⟩

/-- The clauses on RECLAIM. -/
theorem reclaim_clauses {s : State} {w : BitVec 4} {k g : List Nat} (h : s.dev.ready.getLsbD 0 = true) (ht : requestTurn s (.reclaim w k g) = true) :
    let bad := (worldOf s w).live = false ∨ Fixed (worldOf s w)
    let only (code : Nat) : Prop := exec (.reclaim w k g) s = .next { s with outputs := s.outputs ++ [.reply code []] }
    (bad → only 3) ∧ (¬ bad → InUse s w k g → only 1)
    ∧ (¬ bad → ¬ InUse s w k g → ∃ t, (exec (.reclaim w k g) s = .next t ∧ t.outputs = s.outputs ++ [.reply 0 []])
      ∧ (∀ c, (c ∈ k ∧ mget none s.cellOwner c = some w.toNat → mget none t.cellOwner c = none ∧ clr t c) ∧ (¬ (c ∈ k ∧ mget none s.cellOwner c = some w.toNat) → mget none t.cellOwner c = mget none s.cellOwner c))
      ∧ ∀ d, mget none t.granuleOwner d = if d ∈ g ∧ mget none s.granuleOwner d = some w.toNat then none else mget none s.granuleOwner d) := by
  refine ⟨fun hb => request_refused (.reclaim w k g) h ht (by decide) (doReclaim_refused hb), fun hb hu => request_refused (.reclaim w k g) h ht (by decide) (doReclaim_busy hb hu), fun hb hu => ?_⟩
  obtain ⟨m, hm⟩ := request_answered (.reclaim w k g) h ht (doReclaim_takes hb hu) rfl
  exact ⟨_, ⟨hm, rfl⟩, takeBack_cells, takeBack_granules⟩

/-- The clause on DESTROY. -/
theorem destroy_clause {s : State} {w : BitVec 4} (h : s.dev.ready.getLsbD 0 = true) (ht : requestTurn s (.destroy w) = true) :
    ∃ t, (exec (.destroy w) s = .next t ∧ t.outputs = s.outputs ++ [.reply 0 []]) ∧ worldOf t w = {} ∧ (∀ c, mget none t.cellOwner c ≠ some w.toNat ∧ (mget none s.cellOwner c = some w.toNat → clr t c))
      ∧ (∀ d, mget none t.granuleOwner d ≠ some w.toNat) ∧ ∀ y, (ctxOf t w y).resident = false := by
  obtain ⟨hworld, houtputs, hcells, hgranules, hctxs⟩ := destroy_spec s w
  obtain ⟨m, hm⟩ := request_answered (.destroy w) h ht (rfl : doRequest (.destroy w) s = reply (destroyWorld s w) 0 []) houtputs
  exact ⟨_, ⟨hm, rfl⟩, hworld, hcells, hgranules, hctxs⟩

/-- The clauses on a key slot. -/
theorem keySlot_clauses {s : State} {b : Requester} {w : BitVec 4} {slot : BitVec 8} {keys : KeySet} (h : s.dev.ready.getLsbD 0 = true) :
    (requestTurn s (.keyInstall b w slot keys) = true → (¬ MayKey s b w → exec (.keyInstall b w slot keys) s = .next { s with outputs := s.outputs ++ [.reply 3 []] })
      ∧ (MayKey s b w → ∃ t m, (exec (.keyInstall b w slot keys) s = .next t ∧ t.outputs = s.outputs ++ [.reply 0 []]) ∧ worldOf t w = { worldOf s w with keys := m } ∧ mget none m slot.toNat = some keys
        ∧ ∀ j, j ≠ slot.toNat → mget none m j = mget none (worldOf s w).keys j))
    ∧ (requestTurn s (.keyRetire b w slot) = true → (¬ MayKey s b w → exec (.keyRetire b w slot) s = .next { s with outputs := s.outputs ++ [.reply 3 []] })
      ∧ (MayKey s b w → ∃ t, (exec (.keyRetire b w slot) s = .next t ∧ t.outputs = s.outputs ++ [.reply 0 []]) ∧ mget none (worldOf t w).keys slot.toNat = none
        ∧ (∀ j, j ≠ slot.toNat → mget none (worldOf t w).keys j = mget none (worldOf s w).keys j)
        ∧ ∀ line key a v l, mget none (worldOf s w).keys slot.toNat ≠ none → mget none s.lines line = some (.keyed w.toNat slot.toNat key a v l) → mget none t.dome line = none)) := by
  constructor
  · intro ht
    refine ⟨fun hn => request_refused (.keyInstall b w slot keys) h ht (by decide) (doKeyInstall_refused hn), fun hm => ?_⟩
    obtain ⟨m, he⟩ := request_answered (.keyInstall b w slot keys) h ht (doKeyInstall_installs hm) rfl
    exact ⟨_, _, ⟨he, rfl⟩, worldOf_setWorld s w _, mget_mput_same (d := (none : Option KeySet)) _ _ _, fun j hj => mget_mput_other (d := (none : Option KeySet)) _ hj _⟩
  · intro ht
    refine ⟨fun hn => request_refused (.keyRetire b w slot) h ht (by decide) (doKeyRetire_refused hn), fun hm => ?_⟩
    obtain ⟨hnone, hkept, houtputs, -, -, -, hlines⟩ := retire_spec w s slot.toNat
    obtain ⟨m, he⟩ := request_answered (.keyRetire b w slot) h ht (doKeyRetire_retires hm) houtputs
    exact ⟨_, ⟨he, rfl⟩, hnone, hkept, hlines⟩

/-- The clauses on KEY_IMPORT. -/
theorem keyImport_clauses {s : State} {w : BitVec 4} {kek : BitVec 256} {blob : List (Nat × KeySet)} {n : List (Nat × Nat)} (h : s.dev.ready.getLsbD 0 = true) (ht : requestTurn s (.keyImport w kek blob n) = true) :
    (¬ MayImport s w kek → exec (.keyImport w kek blob n) s = .next { s with outputs := s.outputs ++ [.reply 3 []] })
    ∧ (MayImport s w kek → ∃ t, (exec (.keyImport w kek blob n) s = .next t ∧ t.outputs = s.outputs ++ [.reply 0 []]) ∧ worldOf t w = imported (worldOf s w) blob n) := by
  refine ⟨fun hn => request_refused (.keyImport w kek blob n) h ht (by decide) (doKeyImport_refused hn), fun hm => ?_⟩
  obtain ⟨m, he⟩ := request_answered (.keyImport w kek blob n) h ht (doKeyImport_imports hm) rfl
  exact ⟨_, ⟨he, rfl⟩, worldOf_setWorld s w _⟩

/-- Settles O49: by the request, whether it may be taken, and what it names. -/
theorem securityEvents : Obligations.SecurityEvents := by
  unfold Obligations.SecurityEvents
  refine ⟨?waits, ?later, ?create, ?owners, ?keys, ?session, ?unlock, ?version, ?caps, ?lock, ?start, ?stop, ?state, ?report, ?link, ?wrap⟩
  case waits =>
    intro b w p y k g slot keys kek blob n token nonce
    exact ⟨fun s => request_waits (.create w p y k g), fun s => request_waits (.grant w k g), fun s => request_waits (.reclaim w k g), fun s => request_waits (.destroy w),
      fun s => request_waits (.keyInstall b w slot keys), fun s => request_waits (.keyRetire b w slot), fun s => request_waits (.kekInstall w kek), fun s => request_waits (.keyImport w kek blob n),
      fun s => request_waits (.unlock token), fun s => request_waits (.unlockChallenge nonce), fun s => request_waits (.tdispVersion w), fun s => request_waits (.tdispCapabilities w),
      fun s => request_waits (.lock w), fun s => request_waits (.report w), fun s => request_waits (.tdiState w), fun s => request_waits (.start w),
      fun s => request_waits (.stop w), fun s => request_waits (.measurements w), fun s => request_waits (.session w), fun s => request_waits (.ideKm w)⟩
  case later =>
    intro b w p y k g slot keys kek blob n
    exact ⟨fun s => request_later (.create w p y k g), fun s => request_later (.grant w k g), fun s => request_later (.reclaim w k g), fun s => request_later (.destroy w),
      fun s => request_later (.keyInstall b w slot keys), fun s => request_later (.keyRetire b w slot), fun s => request_later (.kekInstall w kek), fun s => request_later (.keyImport w kek blob n)⟩
  case create => exact fun s w p y k g h ht => create_clauses h ht
  case owners => exact fun s w k g h => ⟨grant_clauses h, reclaim_clauses h, destroy_clause h⟩
  case keys => exact fun s b w slot keys h => keySlot_clauses h
  case session =>
    intro s w kek blob n h
    refine ⟨fun ht => ⟨fun hs => request_refused (.kekInstall w kek) h ht (by decide) (doKekInstall_refused hs), fun hs => ?kek⟩, fun hs => ?noIde, fun hs => ?ide, fun ht => ⟨(keyImport_clauses h ht).1, fun hm => ?imports⟩, fun hl hk => ?opens,
      fun hn => ?refused⟩
    case kek =>
      obtain ⟨m, he⟩ := request_answered (.kekInstall w kek) h ht (doKekInstall_installs hs) rfl
      exact ⟨_, ⟨he, rfl⟩, worldOf_setWorld s w _, rfl⟩
    case noIde => exact (request_late (.ideKm w) h (by decide : 7 < 10)).trans (congrArg _ (doIdeKm_refused hs))
    case ide => exact ⟨_, ⟨(request_late (.ideKm w) h (by decide : 7 < 10)).trans (congrArg _ (doIdeKm_sets hs)), rfl⟩, worldOf_setWorld s w _, rfl⟩
    case imports =>
      obtain ⟨t, hanswer, hworld⟩ := (keyImport_clauses h ht).2 hm
      refine ⟨t, hanswer, ?_⟩
      rw [hworld]
      exact ⟨rfl, rfl, fun a b slot key hb hj he => imported_key _ hb hj he, fun slot he => imported_noKey _ he, fun a b y c hn hj he => imported_counter _ hn hj he⟩
    case opens => exact ⟨_, ⟨(request_late (.session w) h (by decide : 7 < 10)).trans (congrArg _ (doSession_opens hl hk)), rfl⟩, worldOf_setWorld s w _⟩
    case refused => exact (request_late (.session w) h (by decide : 7 < 10)).trans (congrArg _ (doSession_refused hn))
  case unlock =>
    intro s token nonce w h
    refine ⟨fun hok => ?verifies, fun hok => ?fails, ?challenge, request_late (.measurements w) h (by decide : 7 < 10)⟩
    case verifies => exact ⟨_, ⟨(request_late (.unlock token) h (by decide : 7 < 8)).trans (congrArg _ (doUnlock_unlocks hok)), rfl⟩, rfl⟩
    case fails => exact ⟨_, ⟨(request_late (.unlock token) h (by decide : 7 < 8)).trans (congrArg _ (doUnlock_refused hok)), rfl⟩, rfl⟩
    case challenge => exact ⟨_, ⟨request_late (.unlockChallenge nonce) h (by decide : 7 < 9), rfl⟩, rfl⟩
  case version => exact tdispVersion_answers
  case caps => exact tdispCapabilities_answers
  case lock =>
    exact interfaceRequest_of .lock (fun w s x => if x.tdi = .unlocked ∨ x.tdi = .error then reply (setWorld s w { x with tdi := .locked }) 0 [] else refuse s) (fun _ => (by decide : 7 < 10)) (fun _ _ => rfl) lock_moves
  case start =>
    exact interfaceRequest_of .start (fun w s x => if x.tdi = .locked then reply (cellsFree (setWorld s w { x with tdi := .run }) w) 0 [] else refuse s) (fun _ => (by decide : 7 < 10)) (fun _ _ => rfl) start_moves
  case stop => exact interfaceRequest_of .stop (fun w s x => reply (setWorld s w { x with tdi := .unlocked }) 0 []) (fun _ => (by decide : 7 < 10)) (fun _ _ => rfl) stop_moves
  case state => exact tdiState_answers
  case report => exact report_answers
  case link =>
    intro s
    obtain ⟨t, hexec, hframe, hlink, hlost, hready, hworld⟩ := linkDown_spec s
    refine ⟨t, hexec, hframe, hlink, hlost, hready, fun w => ?_⟩
    dsimp only
    rw [hworld w]
    exact ⟨linkLost_plain, fun hp => by rw [linkLost_prot hp]; exact ⟨rfl, rfl, rfl, rfl, rfl, rfl⟩⟩
  case wrap =>
    intro s w
    refine ⟨keyWrap_idle, fun hb => ⟨_, keyWrap_wraps hb, ?_⟩⟩
    rw [worldOf_setWorld]
    refine ⟨rfl, rfl, rfl, rfl, fun hk => ?_, fun hk => ?_⟩
    · exact if_pos (by rw [hk.1, hk.2]; rfl)
    · exact if_neg (by rw [Bool.and_eq_true, beq_iff_eq]; exact hk)

end Sys2Proof.Proofs
end

section
namespace Sys2Proof.Proofs
open Sys2Proof Sys2Proof.Machine Sys2Proof.Claims Sys2Proof.Laws

/-! ### The frame of the compute instructions (R41) -/

/-- An instruction whose op lies at or beyond the compute range is no compute instruction. -/
theorem op_ge_of_coded {i : Instr} {op op' n : Nat} {h h' : Hdr} {l : List (Nat × Nat)} (he : encode i = some (128, mainWord h op' l)) (hop : op' < 2 ^ 10)
    (hl : FieldsFit l) (hw : totalWidth (l.map Prod.fst) = 64) (hn : n ≤ op') (hc : Coded i op h') : n ≤ op :=
  hn.trans_eq (coded_op he hop hl hw hc).1.symm

theorem not_coded_event {i : Instr} {op : Nat} {h : Hdr} (he : encode i = none) (hc : Coded i op h) : False :=
  not_coded (fun _ _ h' => nomatch he.symm.trans h') hc

theorem not_coded_narrow {i : Instr} {op k v : Nat} {h : Hdr} (he : encode i = some (k, v)) (hk : k < 128) (hc : Coded i op h) : False :=
  not_coded (fun n w h' => by cases he.symm.trans h'; exact hk) hc

/-- A compute instruction does nothing, takes its fault, or replaces the instance in focus: it is one of the shared forms that do only that. -/
theorem onlyFocus_of_coded {i : Instr} {op : Nat} {h : Hdr} (s : State) (hc : Coded i op h) (hop : op < 0x240) : OnlyFocus s (exec i s) := by
  cases i with
  -- Control and loop nests.
  | exitEnd h p | br h p | brx h p =>
    dsimp only [exec]
    exact onlyFocus_exitOp h p s _
  | emit h p | merge h p | gate h p | iter h p =>
    dsimp only [exec]
    exact onlyFocus_routeOp h p s _
  | steer h p =>
    dsimp only [exec]
    exact onlyFocus_withOps (fun b => ⟨by simp, by simp⟩) (fun b xs => own_put (by simp) (by simp))
  | drop h p =>
    dsimp only [exec]
    exact onlyFocus_withOps (fun b => ⟨sk_c h b, sk_s h b⟩) (fun b xs => own_put rfl rfl)
  | cntld h p =>
    dsimp only [exec]
    exact onlyFocus_counterOp fun b xs => by split <;> exact ⟨rfl, rfl⟩
  | cntrd h p =>
    dsimp only [exec]
    exact onlyFocus_counterOp fun b xs => ⟨dl_c h _ _ b, dl_s h _ _ b⟩
  | cntstep h p =>
    dsimp only [exec]
    exact onlyFocus_counterOp fun b xs => ⟨dl_c h _ _ b, dl_s h _ _ b⟩
  | gotx h p | haltx h p =>
    dsimp only [exec]
    exact onlyFocus_ctlOp h p s _
  | lncpy h p | lnadd h p | lnsub h p | lnmul h p | lnfma h p | lnmax h p | lnmin h p | lndif h p | lnsum h p | lnrmx h p | lnrmn h p | lndot h p =>
    dsimp only [exec]
    exact onlyFocus_nestOp h p s _
  -- Integers and addresses.
  | iadd h p | iadds h p | isub h p | isubs h p | imul h p | imulh h p | idiv h p | irem h p | ineg h p | iabs h p | imin h p | imax h p | imad h p
  | iclamp h p | andBits h p | orBits h p | xorBits h p | notBits h p | andn h p | shl h p | shr h p | shra h p | rotl h p | popc h p | clz h p
  | ctz h p | brev h p | bfx h p | bfi h p | icmpeq h p | icmpne h p | icmplt h p | icmple h p | icmpgt h p | icmpge h p | sel h p | mov h p =>
    dsimp only [exec]
    exact onlyFocus_intOp h p s _
  | aadd h p | amad h p | asub h p =>
    dsimp only [exec]
    exact onlyFocus_addrOp h p s _
  | achk h p | liota h p =>
    dsimp only [exec]
    exact onlyFocus_pureOp h _ _ s _
  -- Floats, lanes and conversions.
  | fadd h p | fsub h p | fmul h p | fma h p | fms h p | fnma h p | fdiv h p | fsqrt h p =>
    dsimp only [exec]
    exact onlyFocus_roundOp h p s _
  | fmin h p | fmax h p | fneg h p | fabs h p | fcpys h p | fcmpeq h p | fcmpne h p | fcmplt h p | fcmple h p | fcmpun h p | fclass h p =>
    dsimp only [exec]
    exact onlyFocus_floatOp h p s _
  | exp2 h p | log2 h p | rcp h p | rsq h p | tanh h p | sin h p =>
    dsimp only [exec]
    exact onlyFocus_transOp h p s _
  | frint h p | lscan h p | cvti h p | cvtf h p =>
    dsimp only [exec]
    exact onlyFocus_fmtOp h _ s _ _
  | lbcast h p | lshuf h p | lrot h p | lsel h p | vmask h p | vget h p =>
    dsimp only [exec]
    exact onlyFocus_slotOp h p s _
  | rsum h p | rmax h p | rmin h p =>
    dsimp only [exec]
    exact onlyFocus_floatReduce h p s _
  | risum h p | rimax h p | rimin h p | rand h p | ror h p =>
    dsimp only [exec]
    exact onlyFocus_intReduce h p s _
  | cvt h p | cvpk2 h p | unpk2 h p | unpk4 h p | qapply h p =>
    dsimp only [exec]
    exact onlyFocus_cvtOp h p s _ _ _
  | cvpk4 h p =>
    dsimp only [exec, execCvpk4]
    exact onlyFocus_cvtOp h p s _ _ _
  | qblk h p =>
    dsimp only [exec]
    refine onlyFocus_withOps (fun b => ⟨sk_c h b, sk_s h b⟩) (fun b xs => ?_)
    split
    · exact own_fmt s b _
    · exact own_put rfl rfl
  -- The matrix engine.
  | mldb h p | mldt h p =>
    dsimp only [exec]
    exact onlyFocus_panelOp h p s _
  | mdrain h p | mkout h p =>
    dsimp only [exec]
    exact onlyFocus_drainOp h p s _ _ _
  | mset h p =>
    dsimp only [exec]
    refine onlyFocus_matrixOp fun b xs => ?_
    split
    · exact own_put (sk_c h b) (sk_s h b)
    · split
      · exact own_commit rfl rfl
      · exact own_raise s b _
  | mrow h p =>
    dsimp only [exec]
    refine onlyFocus_matrixOp fun b xs => ?_
    split
    · exact own_fmt s b _
    · exact own_same s b
    · exact own_commit rfl rfl
  | mrows h p =>
    dsimp only [exec]
    refine onlyFocus_matrixOp fun b xs => ?_
    split
    · exact own_fmt s b _
    · exact own_same s b
    · dsimp only
      split
      · exact own_commit rfl rfl
      · split
        · exact own_raise s b _
        · split
          · exact own_raise s b _
          · split
            · exact own_raise s b _
            · exact own_commit rfl rfl
  | mout h p =>
    dsimp only [exec]
    refine onlyFocus_matrixOp fun b xs => ?_
    split
    · exact own_fmt s b _
    · exact own_same s b
    · dsimp only
      split
      · split
        · exact own_raise s b _
        · split
          · exact own_raise s b _
          · split
            · exact own_raise s b _
            · split
              · exact own_raise s b _
              · exact own_commit (dl_c h _ _ _) (dl_s h _ _ _)
      · exact own_commit (dl_c h _ _ b) (dl_s h _ _ b)
  | mclr h p =>
    dsimp only [exec]
    refine onlyFocus_matrixOp fun b xs => ?_
    split
    · exact own_commit rfl rfl
    · exact own_put rfl rfl
  | mstat h p =>
    dsimp only [exec]
    exact onlyFocus_matrixOp fun b xs => own_put (dl_c h _ _ b) (dl_s h _ _ b)
  | mkin h p =>
    dsimp only [exec]
    refine onlyFocus_matrixOp fun b xs => ?_
    split
    · exact own_same s b
    · split
      · exact own_raise s b _
      · exact own_commit rfl rfl
  -- No compute instructions: their ops lie beyond the range.
  | ld h p | ldt h p | st h p | stt h p | ldg h p | stsc h p | ldacq h p | strel h p | pref h p | resid h p | evict h p | phase h p | fence h p
  | atadd h p | atand h p | ator h p | atxor h p | atmin h p | atmax h p | atxch h p | atcas h p | atfadd h p | binit h p | barr h p | bwait h p
  | waitb h p | waita h p | cpy h p | cpys h p | slotf h p | shdw h p | shdwQry h p | publ h p | evq h p | coll h p | draft h p | quota h p
  | quotaTag h p | spawn h p | tagfree h p | purge h p | stallt h p | recol h p | trap h p | brk h p | rdsr h p | wrsr h p | yield h p | halt h p
  | hrd h p | hwr h p | fmtld h p | fmtrd h p | fmtsync h p | lgbind h p =>
    exact absurd hop (op_ge_of_coded rfl (by decide) p.fit rfl (by decide) hc).not_gt
  -- Logit instructions, bytecodes and events are no main instructions.
  | lgAdd d a b | lgSub d a b | lgMul d a b | lgMax d a b | lgMin d a b | lgCmplt d a b | lgCmple d a b | lgCmpeq d a b | lgFma d a b c | lgSel d a b c
  | lgAddi d a imm | lgMuli d a imm | lgMov d a | lgNeg d a | lgAbs d a | lgRcp d a | lgExp2 d a | lgLog2 d a | lgMovi d imm | lgMask a | lgEnd
  | polAdd d a b | polSub d a b | polMul d a b | polAnd d a b | polOr d a b | polXor d a b | polShl d a b | polShr d a b | polMin d a b
  | polMax d a b | polSltu d a b | polSeq d a b | polCsel d a b | polAddi d a imm | polAndi d a imm | polShli d a imm | polShri d a imm
  | polRdc d a imm | polRdq d a imm | polRdr d a imm | polLdi d imm | polLdis d imm | polRdw d imm | polRdd d imm | polForeach d imm
  | polBrz a imm | polBrnz a imm | polPick a | polPreempt a | polKill a | polJmp imm | polNext | polDefer =>
    exact (not_coded_narrow rfl (by decide) hc).elim
  | _ => exact (not_coded_event rfl hc).elim

/-- Settles O57: each compute instruction is of a form that acts on the instance in focus alone. -/
theorem localInstructionsFrame : Obligations.LocalInstructionsFrame := by
  unfold Obligations.LocalInstructionsFrame
  intro i op h s t hc hop he
  exact onlyFocus_final (onlyFocus_of_coded s hc hop) he

/-! ### Waiting, and guarded off (R39, R44) -/

theorem offGoesOn_memOp (h : Hdr) (s : State) (body : BInst → List Val → State) : OffGoesOn h s (skipInst h) (memOp h s body) :=
  offGoesOn_older (f := fun _ => withOps h (k0Const 0) s (skipInst h) body) fun _ => offGoesOn_withOps h _ s _ body

theorem offGoesOn_matrixOp (h : Hdr) (p : PayX) (s : State) (enabled : BInst → Bool) (body : BInst → List Val → State) :
    OffGoesOn h s (skipInst h) (matrixOp h p s enabled body) :=
  offGoesOn_older (f := fun _ => withOps h (k0Const p.k0) s (skipInst h) (fun b xs => if enabled b then body b xs else s))
    fun _ => offGoesOn_withOps h _ s _ _

/-- A loop nest guarded off goes on past both of its words. -/
theorem offGoesOn_nestOp (h : Hdr) (p : PayN) (s : State) (kind : SrCtx → Rnd → Nat → NestKind) :
    OffGoesOn h s (fun b => advance 2 (deliver h 0 offDeliv b)) (nestOp h p s kind) := by
  unfold nestOp
  exact offGoesOn_older (f := fun _ => withOps h (k0Const 0) s (fun b => advance 2 (deliver h 0 offDeliv b)) _) fun _ => offGoesOn_withOps h _ s _ _

/-- What O58 says of an instruction with an op and a header. -/
def WaitsOrGoesOn (i : Instr) (op : Nat) (h : Hdr) : Prop :=
  (∀ s, Waits h s → exec i s = .next s)
  ∧ ∀ s b, Executes s b → guardOf h b = some false → operands h (fun _ => noVal) b ≠ none → Alone s b →
    let len := if 0x020 ≤ op ∧ op ≤ 0x02B then 2 else 1
    (op ≠ 0x341 → ∃ aux, (op < 0x008 ∨ 0x014 < op → aux = 0) ∧ exec i s = .next (putInst s (advance len (deliver h aux offDeliv b))))
    ∧ (op = 0x341 → exec i s = .next (putInst s (advance 1 (deliver h 0 offDeliv { b with effs := b.effs ++ (match b.spawned with | some g => [.tagFree g] | none => []) }))))

/-- An instruction other than SPAWN, from what it does guarded off. -/
theorem waitsOrGoesOn_of {i : Instr} {op : Nat} {h : Hdr} {ln : Nat} (aux : BitVec 12) (hx : ∀ s, OffGoesOn h s (fun b => advance ln (deliver h aux offDeliv b)) (exec i s))
    (hln : ln = if 0x020 ≤ op ∧ op ≤ 0x02B then 2 else 1) (hne : op ≠ 0x341) (haux : op < 0x008 ∨ 0x014 < op → aux = 0) : WaitsOrGoesOn i op h :=
  ⟨fun s => (hx s).wait, fun s b he hg ho ha => ⟨fun _ => ⟨aux, haux, hln ▸ (hx s).off b he hg ho ha⟩, fun h => absurd h hne⟩⟩

/-- Whether an op is neither SPAWN's nor a loop nest's. -/
def plainOp (op : Nat) : Bool := op != 0x341 && !(decide (0x020 ≤ op) && decide (op ≤ 0x02B))

theorem plainOp_iff {op : Nat} : plainOp op = true ↔ op ≠ 0x341 ∧ ¬ (0x020 ≤ op ∧ op ≤ 0x02B) := by
  unfold plainOp
  simp only [Bool.and_eq_true, bne_iff_ne, Bool.not_eq_true', ← Bool.decide_and, decide_eq_false_iff_not]

/-- A one-word instruction that delivers its AUX when guarded off: its op lies among those of the control instructions that have one. -/
theorem waitsOrGoesOn_aux {i : Instr} {op op' : Nat} {h h' : Hdr} {l : List (Nat × Nat)} {aux : BitVec 12} (hc : Coded i op h) (he : encode i = some (128, mainWord h' op' l))
    (hl : FieldsFit l) (hw : totalWidth (l.map Prod.fst) = 64) (hop : 0x008 ≤ op' ∧ op' ≤ 0x014)
    (hx : ∀ s, OffGoesOn h' s (fun b => advance 1 (deliver h' aux offDeliv b)) (exec i s)) : WaitsOrGoesOn i op h := by
  obtain ⟨rfl, rfl⟩ := coded_op he (by omega) hl hw hc
  exact waitsOrGoesOn_of aux hx (if_neg (by omega)).symm (by omega) (by omega)

/-- A one-word instruction that skips its slot when guarded off. -/
theorem waitsOrGoesOn_skip {i : Instr} {op op' : Nat} {h h' : Hdr} {l : List (Nat × Nat)} (hc : Coded i op h) (he : encode i = some (128, mainWord h' op' l))
    (hop : op' < 2 ^ 10) (hl : FieldsFit l) (hw : totalWidth (l.map Prod.fst) = 64) (hp : plainOp op' = true) (hx : ∀ s, OffGoesOn h' s (skipInst h') (exec i s)) :
    WaitsOrGoesOn i op h := by
  obtain ⟨rfl, rfl⟩ := coded_op he hop hl hw hc
  obtain ⟨hne, hnest⟩ := plainOp_iff.1 hp
  exact waitsOrGoesOn_of 0 hx (if_neg hnest).symm hne fun _ => rfl

/-- A loop nest skips both of its slots when guarded off. -/
theorem waitsOrGoesOn_nest {i : Instr} {op op' : Nat} {h h' : Hdr} {p : PayN} (hc : Coded i op h) (he : encode i = some (256, nestWord h' op' p))
    (hop : 0x020 ≤ op' ∧ op' ≤ 0x02B) (hx : ∀ s, OffGoesOn h' s (fun b => advance 2 (deliver h' 0 offDeliv b)) (exec i s)) : WaitsOrGoesOn i op h := by
  obtain ⟨rfl, rfl⟩ := coded_nest he (by omega) hc
  exact waitsOrGoesOn_of 0 hx (if_pos hop).symm (by omega) fun _ => rfl

/-- SPAWN gives its tag back when guarded off, if it has taken one. -/
theorem spawn_off (h : Hdr) (b : BInst) : skipInst h (match b.spawned with | some g => addEff (.tagFree g) b | none => b)
    = advance 1 (deliver h 0 offDeliv { b with effs := b.effs ++ (match b.spawned with | some g => [.tagFree g] | none => []) }) := by
  rcases b with ⟨⟩
  dsimp only
  split
  · rfl
  · rw [List.append_nil]
    rfl

theorem waitsOrGoesOn_spawn {op : Nat} {h h' : Hdr} {p : PayQ} (hc : Coded (.spawn h' p) op h) : WaitsOrGoesOn (.spawn h' p) op h := by
  obtain ⟨rfl, rfl⟩ := coded_op (i := .spawn h' p) rfl (by decide) p.fit rfl hc
  have hx (s : State) := offGoesOn_withOps h (k0Const p.k0) s (fun b => skipInst h (match b.spawned with | some g => addEff (.tagFree g) b | none => b))
  refine ⟨fun s => (hx s _).wait, fun s b he hg ho ha => ⟨fun hne => absurd rfl hne, fun _ => ?_⟩⟩
  rw [← spawn_off]
  exact (hx s _).off b he hg ho ha

/-- Every main instruction, by the shared form that it is: that form waits, or skips. -/
theorem waitsOrGoesOn {i : Instr} {op : Nat} {h : Hdr} (hc : Coded i op h) : WaitsOrGoesOn i op h := by
  cases i with
  -- Control instructions that deliver their AUX.
  | emit h p | steer h p | merge h p | gate h p | iter h p | cntld h p | cntrd h p | cntstep h p =>
    refine waitsOrGoesOn_aux (aux := p.auxi) hc rfl p.fit rfl (by decide) fun s => ?_
    dsimp only [exec]
    exact offGoesOn_withOps h _ s _ _
  | lncpy h p | lnadd h p | lnsub h p | lnmul h p | lnfma h p | lnmax h p | lnmin h p | lndif h p | lnsum h p | lnrmx h p | lnrmn h p | lndot h p =>
    refine waitsOrGoesOn_nest hc rfl (by decide) fun s => ?_
    dsimp only [exec]
    exact offGoesOn_nestOp h p s _
  | spawn h p => exact waitsOrGoesOn_spawn hc
  -- Instructions that read their operands and then act.
  | exitEnd h p | br h p | brx h p | drop h p | gotx h p | haltx h p
  | iadd h p | iadds h p | isub h p | isubs h p | imul h p | imulh h p | idiv h p | irem h p | ineg h p | iabs h p | imin h p | imax h p | imad h p
  | iclamp h p | andBits h p | orBits h p | xorBits h p | notBits h p | andn h p | shl h p | shr h p | shra h p | rotl h p | popc h p | clz h p
  | ctz h p | brev h p | bfx h p | bfi h p | icmpeq h p | icmpne h p | icmplt h p | icmple h p | icmpgt h p | icmpge h p | sel h p | mov h p
  | aadd h p | amad h p | asub h p | achk h p
  | fadd h p | fsub h p | fmul h p | fma h p | fms h p | fnma h p | fdiv h p | fsqrt h p | fmin h p | fmax h p | fneg h p | fabs h p | fcpys h p
  | fcmpeq h p | fcmpne h p | fcmplt h p | fcmple h p | fcmpun h p | fclass h p | frint h p | exp2 h p | log2 h p | rcp h p | rsq h p | tanh h p | sin h p
  | lbcast h p | lshuf h p | lrot h p | lsel h p | vmask h p | vget h p | liota h p | lscan h p | rsum h p | rmax h p | rmin h p | risum h p
  | rimax h p | rimin h p | rand h p | ror h p
  | cvt h p | cvti h p | cvtf h p | cvpk2 h p | cvpk4 h p | unpk2 h p | unpk4 h p | qblk h p | qapply h p
  | quota h p | quotaTag h p | tagfree h p | purge h p | stallt h p | recol h p
  | trap h p | brk h p | rdsr h p | wrsr h p | yield h p | halt h p | hrd h p | hwr h p | fmtld h p | fmtrd h p | fmtsync h p =>
    refine waitsOrGoesOn_skip hc rfl (by decide) p.fit rfl (by decide) fun s => ?_
    dsimp only [exec]
    exact offGoesOn_withOps h _ s _ _
  -- Instructions that wait for the older instances of their invocation.
  | mset h p | mldb h p | mldt h p | mrow h p | mrows h p | mdrain h p | mout h p | mclr h p | mstat h p | mkin h p | mkout h p =>
    refine waitsOrGoesOn_skip hc rfl (by decide) p.fit rfl (by decide) fun s => ?_
    dsimp only [exec]
    exact offGoesOn_matrixOp h p s _ _
  | ld h p | ldt h p | st h p | stt h p | ldg h p | stsc h p | ldacq h p | strel h p | pref h p | resid h p | evict h p | phase h p | fence h p
  | atadd h p | atand h p | ator h p | atxor h p | atmin h p | atmax h p | atxch h p | atcas h p | atfadd h p | binit h p | barr h p | bwait h p
  | waitb h p | waita h p | cpy h p | cpys h p | slotf h p | shdw h p | shdwQry h p | publ h p | evq h p | coll h p | draft h p | lgbind h p =>
    refine waitsOrGoesOn_skip hc rfl (by decide) p.fit rfl (by decide) fun s => ?_
    dsimp only [exec]
    exact offGoesOn_memOp h s _
  -- Logit instructions, bytecodes and events are no main instructions.
  | lgAdd d a b | lgSub d a b | lgMul d a b | lgMax d a b | lgMin d a b | lgCmplt d a b | lgCmple d a b | lgCmpeq d a b | lgFma d a b c | lgSel d a b c
  | lgAddi d a imm | lgMuli d a imm | lgMov d a | lgNeg d a | lgAbs d a | lgRcp d a | lgExp2 d a | lgLog2 d a | lgMovi d imm | lgMask a | lgEnd
  | polAdd d a b | polSub d a b | polMul d a b | polAnd d a b | polOr d a b | polXor d a b | polShl d a b | polShr d a b | polMin d a b
  | polMax d a b | polSltu d a b | polSeq d a b | polCsel d a b | polAddi d a imm | polAndi d a imm | polShli d a imm | polShri d a imm
  | polRdc d a imm | polRdq d a imm | polRdr d a imm | polLdi d imm | polLdis d imm | polRdw d imm | polRdd d imm | polForeach d imm
  | polBrz a imm | polBrnz a imm | polPick a | polPreempt a | polKill a | polJmp imm | polNext | polDefer =>
    exact (not_coded_narrow rfl (by decide) hc).elim
  | _ => exact (not_coded_event rfl hc).elim

/-- Settles O58: each main instruction is of a form that waits for its operands and, guarded off, goes on. -/
theorem waitingAndGuardedOff : Obligations.WaitingAndGuardedOff := by
  unfold Obligations.WaitingAndGuardedOff
  exact fun _ _ _ hc => waitsOrGoesOn hc

end Sys2Proof.Proofs
end

section
namespace Sys2Proof.Proofs
open Sys2Proof Sys2Proof.Machine Sys2Proof.Claims Sys2Proof.Laws

/-! ### What a step runs (R39, R82, R194, R328) -/

/-- Of a list's members, one alone has an image. -/
theorem findSome_of_unique {α β : Type} {f : α → Option β} {l : List α} {a : α} {b : β} (ha : a ∈ l) (hf : f a = some b) (hn : ∀ x, x ≠ a → f x = none) :
    l.findSome? f = some b := by
  induction l with
  | nil => cases ha
  | cons x l ih =>
    by_cases hx : x = a
    · rw [hx, List.findSome?_cons_of_isSome (by rw [hf]; rfl), hf]
    · rw [List.findSome?_cons_of_isNone (by rw [hn x hx]; rfl)]
      exact ih ((List.mem_cons.1 ha).resolve_left (Ne.symm hx))

/-- A world's scheduler has nothing to decide. -/
def Undecided (s : State) (w : BitVec 4) : Prop := (worldOf s w).decision = none ∧ (worldOf s w).triggers = []

theorem dueTriggers_nil {s : State} {w : BitVec 4} (h : (worldOf s w).triggers = []) : dueTriggers s w = [] := by
  unfold dueTriggers
  rw [h]
  rfl

theorem forced_of_undecided {s : State} {w : BitVec 4} (h : Undecided s w) : forced s w = none := by
  unfold forced startDue
  rw [h.1, dueTriggers_nil h.2]
  exact if_pos rfl

theorem dropIdle_of_undecided {s : State} {w : BitVec 4} (h : Undecided s w) : dropIdle s w = s := by
  unfold dropIdle
  exact if_pos (by rw [h.1, h.2]; rfl)

theorem slack_of_undecided {s : State} (h : ∀ w, Undecided s w) : slack s = none := by
  unfold slack
  rw [List.filterMap_eq_nil_iff.2 fun w _ => by rw [(h w).1]; rfl]
  rfl

/-- Where no scheduler has anything to decide, time passes as it is asked to. -/
theorem tick_of_undecided {s : State} (n : Nat) (h : ∀ w, Undecided s w) : tick s n = passTime s n := by
  have hdrop : worldIds.foldl dropIdle s = s := by
    induction worldIds with
    | nil => rfl
    | cons w l ih => rw [List.foldl_cons, dropIdle_of_undecided (h w), ih]
  unfold tick
  rw [List.findSome?_eq_none_iff.2 fun w _ => forced_of_undecided (h w), hdrop, slack_of_undecided h]
  exact congrArg (passTime s) (min_self n)

/-- A decision that is due and has bytecodes and budget left takes the focus, if it has not got it. -/
theorem forced_of_live {s : State} {w : BitVec 4} {d : Decision} {x : BitVec 32} (hd : (worldOf s w).decision = some d) (hdue : d.due ≤ s.now) (ho : d.outcome = none)
    (hc : d.count < policyBudget) (hx : d.prog[d.pc]? = some x) (hf : s.focus ≠ .policy w) : forced s w = some { s with focus := .policy w } := by
  unfold forced
  rw [hd]
  dsimp only
  rw [if_neg hdue.not_gt, ho]
  dsimp only
  rw [if_neg hc.not_ge, if_pos (by rw [hx]; rfl), if_neg fun he => hf (congrArg State.focus he).symm]

theorem tick_of_live {s : State} {w : BitVec 4} {d : Decision} {x : BitVec 32} (n : Nat) (hu : ∀ v, v ≠ w → Undecided s v) (hd : (worldOf s w).decision = some d)
    (hdue : d.due ≤ s.now) (ho : d.outcome = none) (hc : d.count < policyBudget) (hx : d.prog[d.pc]? = some x) (hf : s.focus ≠ .policy w) :
    tick s n = { s with focus := .policy w } := by
  unfold tick
  rw [findSome_of_unique (worldIds_all w) (forced_of_live hd hdue ho hc hx hf) fun v hv => forced_of_undecided (hu v hv)]

theorem fetched_policy {s : State} {w : BitVec 4} {d : Decision} {x : BitVec 32} (hf : s.focus = .policy w) (hd : (worldOf s w).decision = some d) (hl : d.live = true)
    (hx : d.prog[d.pc]? = some x) : fetched s = some (decodePolicy x.toNat) := by
  unfold fetched
  rw [hf]
  dsimp only
  rw [hd]
  dsimp only
  rw [if_pos hl, hx]
  rfl

theorem fetched_logit {s : State} {r : LogitRun} {x : Word64} (hf : s.focus = .logit) (hr : s.logit = some r) (hx : r.prog[r.pc]? = some x) :
    fetched s = some (decodeLogit x.toNat) := by
  unfold fetched
  rw [hf]
  dsimp only
  rw [hr, Option.bind_some, hx]
  rfl

/-- With nothing on the agenda, a step runs what the focus fetches. -/
theorem step_fetched {s : State} {i : Instr} (ha : s.agenda = []) (hf : fetched s = some (.ok i)) : step s = exec i s :=
  (step_of_agenda_nil ha).trans (run_ok_steps hf)

/-! #### A placed word (assumption 30) -/

theorem ok_of_toOption {ε α : Type} {e : Except ε α} {a : α} (h : e.toOption = some a) : e = .ok a := by
  cases e with
  | error => cases h
  | ok b => exact congrArg Except.ok (Option.some.inj h)

theorem fetched_withPolicy {s : State} {w : Nat} {i : Instr} (h : decodePolicy (w % 2 ^ 32) = .ok i) : fetched (withPolicy s w) = some (.ok i) := by
  refine (fetched_policy (s := withPolicy s w) (x := BitVec.ofNat 32 w) rfl (congrArg World.decision (worldOf_setWorld s 0 _)) rfl rfl).trans ?_
  rw [BitVec.toNat_ofNat, h]

theorem fetched_withLogit {s : State} {w : Nat} {i : Instr} (h : decodeLogit (w % 2 ^ 64) = .ok i) : fetched (withLogit s w) = some (.ok i) := by
  refine (fetched_logit (s := withLogit s w) (x := BitVec.ofNat 64 w) rfl rfl rfl).trans ?_
  rw [BitVec.toNat_ofNat, h]

/-- The instance that holds a placed word executes. -/
theorem executes_withMain {s : State} (code : List Word128) (hfree : findInst s 0 (mget 0 s.seqs 0 + 1) = none) : Executes (withMain s code) (probeInst s code) :=
  ⟨probe_find s code hfree, rfl, rfl⟩

/-- A placed main word, with the word after it or 0, is fetched as the instruction that both decode to; the second counts for a loop nest alone. -/
theorem fetched_withMain {s : State} {w v : Nat} {i : Instr} (code : List Word128) (hfree : findInst s 0 (mget 0 s.seqs 0 + 1) = none) (hw : code[0]? = some (BitVec.ofNat 128 w))
    (hv : (code.getD 1 0).toNat = v) (h : decodeMain (w % 2 ^ 128) v = .ok i) : fetched (withMain s code) = some (.ok i) := by
  refine fetched_inst (executes_withMain code hfree) hw ?_
  rw [BitVec.toNat_ofNat]
  split
  · exact hv ▸ h
  · next hn => exact decode_skip h hn

theorem fetched_withFetchWord {s : State} {n w : Nat} {i : Instr} (hn : n ∈ [32, 64, 128, 256]) (hw : w < 2 ^ n) (hd : decodeTableWord n w = some i)
    (hfree : findInst s 0 (mget 0 s.seqs 0 + 1) = none) : fetched (s.withFetchWord n w) = some (.ok i) := by
  simp only [List.mem_cons, List.not_mem_nil, or_false] at hn
  rcases hn with rfl | rfl | rfl | rfl
  · exact fetched_withPolicy (ok_of_toOption hd)
  · exact fetched_withLogit (ok_of_toOption hd)
  · refine fetched_withMain [BitVec.ofNat 128 w] hfree rfl ?_ (ok_of_toOption hd)
    rw [Nat.div_eq_of_lt hw]
    rfl
  · exact fetched_withMain [BitVec.ofNat 128 w, BitVec.ofNat 128 (w / 2 ^ 128)] hfree rfl (BitVec.toNat_ofNat _ _) (ok_of_toOption hd)

theorem withFetchWord_agenda (s : State) {n w : Nat} (hn : n ∈ [32, 64, 128, 256]) : (s.withFetchWord n w).agenda = [] := by
  simp only [List.mem_cons, List.not_mem_nil, or_false] at hn
  rcases hn with rfl | rfl | rfl | rfl <;> rfl

/-- Settles O53: by what is fetched with nothing on the agenda, and by the move that comes first otherwise. -/
theorem stepRunsDecodedInstruction : Obligations.StepRunsDecodedInstruction := by
  unfold Obligations.StepRunsDecodedInstruction
  refine ⟨?inst, ?policy, ?logit, ?idle, fun s n h => tick_of_undecided n h, ?live, ?moves, ?placed⟩
  case inst => exact fun s b w i ha he hw hd => step_fetched ha (fetched_inst he hw hd)
  case policy => exact fun s w d x i ha hf hd hl hx hi => step_fetched ha ((fetched_policy hf hd hl hx).trans (congrArg some hi))
  case logit => exact fun s r x i ha hf hr hx hi => step_fetched ha ((fetched_logit hf hr hx).trans (congrArg some hi))
  case idle => exact fun s ha hf => (step_of_agenda_nil ha).trans (runFocus_idle hf)
  case live => exact fun s w d x hu hd hdue ho hc hx hf => tick_of_live 1 hu hd hdue ho hc hx hf
  case moves =>
    intro s l
    refine ⟨fun c q i ha hf => (step_of_agenda_cons ha).trans (run_ok_steps hf), fun i ha he => (step_of_agenda_cons ha).trans (if_pos ?_), fun n ha => step_of_agenda_cons ha⟩
    unfold isEvent
    rw [he]
    rfl
  case placed => exact fun s n w i hn hw hd hfree => step_fetched (withFetchWord_agenda s hn) (fetched_withFetchWord hn hw hd hfree)

end Sys2Proof.Proofs
end

section
namespace Sys2Proof.Proofs
open Sys2Proof Sys2Proof.Machine Sys2Proof.Claims Sys2Proof.Laws

/-! ### Cells at work (R31, R35, R41, R46, R47, R50, R88, R105, R106, R127, R130, R216, R225, R243, R256–R258, R317, R321, R371, R373) -/

/-! #### Fetching a block (R88, R317) -/

theorem placedOf_updPlaced {s : State} {n : NodeId} {f : Placed → Placed} (hf : ∀ p, (f p).route = p.route) : placedOf (updPlaced s n f) n = (placedOf s n).map f := by
  unfold placedOf updPlaced
  dsimp only
  rw [nodeCtx_set]
  exact find_updFirst (fun p : Placed => p.route.num == n.n) f (fun p hp => by rw [hf]; exact hp) _

/-- A fetched block that passes the checks of R87 keeps its code; any other has none, and its node remembers that. -/
theorem fetchBlock_spec {s : State} {n : NodeId} {p : Placed} (blk : Nat) (hdr : Word128) (code : List Word128) (hp : placedOf s n = some p) :
    let r := fetchBlock s n p blk hdr code
    let good := blk ∉ p.rejected ∧ fetchOk s n p blk hdr code = true
    (r.1.mem = s.mem ∧ r.1.insts = s.insts ∧ r.1.firings = s.firings) ∧ (good → r.2 = code) ∧ (¬ good → r.2 = [] ∧ ∀ q, placedOf r.1 n = some q → blk ∈ q.rejected) := by
  unfold fetchBlock
  dsimp only
  split
  · next hr =>
    have hmem : blk ∈ p.rejected := List.contains_iff_mem.1 hr
    refine ⟨⟨rfl, rfl, rfl⟩, fun hg => absurd hmem hg.1, fun _ => ⟨rfl, fun q hq => ?_⟩⟩
    cases hp.symm.trans hq
    exact hmem
  · next hr =>
    have hnot : blk ∉ p.rejected := fun h => hr (List.contains_iff_mem.2 h)
    split
    · next ho =>
      refine ⟨⟨rfl, rfl, rfl⟩, fun hg => absurd hg.2 (by simpa using ho), fun _ => ⟨rfl, fun q hq => ?_⟩⟩
      have hput := (placedOf_updPlaced (f := fun q => { q with rejected := q.rejected ++ [blk] }) fun _ => rfl).symm.trans hq
      rw [hp] at hput
      cases hput
      exact List.mem_append_right _ (List.mem_singleton.2 rfl)
    · next ho =>
      have hok : fetchOk s n p blk hdr code = true := by simpa using ho
      exact ⟨⟨rfl, rfl, rfl⟩, fun _ => rfl, fun hb => absurd ⟨hnot, hok⟩ hb⟩

theorem blockFetch_spec {s : State} {cell : Nat} {n : NodeId} {blk : BitVec 6} {p : Placed} {hdr : Word128} {code : List Word128} (hp : placedOf s n = some p) (hc : p.cell = cell)
    (hi : imageBlock p blk.toNat = some (hdr, code)) (hn : findBlock s cell n blk.toNat = none) (hl : (s.blocks.filter (fun y => y.cell == cell)).length < storeSlots cell) :
    let r := fetchBlock s n p blk.toNat hdr code
    exec (.blockFetch cell n blk) s = .next { r.1 with blocks := s.blocks ++ [{ cell := cell, node := n, blk := blk.toNat, hdr := hdr, code := r.2, used := s.now }] } := by
  show execBlockFetch cell n blk s = _
  unfold execBlockFetch
  rw [hp]
  dsimp only
  rw [hi]
  dsimp only
  rw [if_neg (by rw [hc, hn]; simp), if_pos hl]

/-! #### Choosing a firing (R35, R42, R127, R321) -/

/-- Applying input mappings sets operands and predicates alone. -/
theorem applyMaps_frame (s : State) (f : Firing) (l : List InMap) (b : BInst) : ∃ o q, l.foldl (applyMap s f) b = { b with opds := o, preds := q } := by
  induction l generalizing b with
  | nil => exact ⟨_, _, rfl⟩
  | cons m l ih =>
    obtain ⟨o, q, h⟩ := ih (applyMap s f b m)
    refine ⟨o, q, h.trans ?_⟩
    unfold applyMap
    dsimp only
    split <;> rfl

/-- What the instance of a firing is before it executes (R127). -/
theorem instOf_fields (s : State) (f : Firing) (blk : BlockSlot) (inv : Nat) :
    let b := instOf s f blk inv
    b.code = blk.code ∧ b.cell = f.cell ∧ b.seq = f.seq ∧ b.node = f.node ∧ b.tag = f.tag ∧ b.point = f.point ∧ b.gen = reachOf s f.node.w f.node.x f.cell
    ∧ b.hregs0 = s.hregs ∧ b.stage = .open_ ∧ b.effs = [] ∧ b.exit = none := by
  intro b
  obtain ⟨o, q, h⟩ := applyMaps_frame s f (mapsOf blk.hdr) _
  have hb : b = _ := h
  rw [hb]
  exact ⟨rfl, rfl, rfl, rfl, rfl, rfl, rfl, rfl, rfl, rfl, rfl⟩

/-- A firing that no rule passes over starts as the instance of its block. -/
theorem startable_some {s : State} {f : Firing} {b : BInst} (h : startable s f = some b) :
    ∃ blk, findBlock s f.cell f.node f.block = some blk ∧ b = instOf s f blk (f.inv.getD s.nextInv) ∧ f.await = none ∧ nodeFires s f.node f.tag.colour = true
      ∧ (s.insts.filter (fun x => x.cell == f.cell)).length < instPlaces ∧ (b.hreg = true → ∀ x, x ∈ s.insts → x.cell = f.cell → f.seq ≤ x.seq) := by
  unfold startable at h
  split at h
  · cases h
  · next blk hblk =>
    dsimp only at h
    rw [Option.ite_none_left_eq_some] at h
    obtain ⟨hn, hb⟩ := h
    cases hb
    simp only [Bool.or_eq_true, not_or, Bool.not_eq_true', Bool.not_eq_true, Bool.not_eq_false, decide_eq_true_eq, not_le, Option.isSome_eq_false_iff,
      Option.isNone_iff_eq_none, List.any_eq_false, Bool.and_eq_true, beq_iff_eq, not_and] at hn
    obtain ⟨⟨⟨⟨⟨⟨⟨⟨-, hawait⟩, hfires⟩, hplaces⟩, hhreg⟩, -⟩, -⟩, -⟩, -⟩ := hn
    refine ⟨blk, hblk, rfl, hawait, hfires, hplaces, fun hr x hx hc => ?_⟩
    exact not_lt.1 (hhreg hr x hx hc)

theorem startable_spec {s : State} {f : Firing} {b : BInst} (h : startable s f = some b) :
    f.await = none ∧ (s.insts.filter (fun x => x.cell == f.cell)).length < 8 ∧ nodeFires s f.node f.tag.colour = true
    ∧ (∃ blk, findBlock s f.cell f.node f.block = some blk ∧ b.code = blk.code) ∧ b.cell = f.cell ∧ b.seq = f.seq ∧ b.node = f.node ∧ b.tag = f.tag ∧ b.point = f.point
    ∧ b.gen = reachOf s f.node.w f.node.x f.cell ∧ b.hregs0 = s.hregs ∧ b.stage = .open_ ∧ b.effs = [] ∧ b.exit = none
    ∧ (b.hreg = true → ∀ x, x ∈ s.insts → x.cell = f.cell → f.seq ≤ x.seq) := by
  obtain ⟨blk, hblk, rfl, hawait, hfires, hplaces, hhreg⟩ := startable_some h
  obtain ⟨hcode, hcell, hseq, hnode, htag, hpoint, hgen, hregs, hstage, heffs, hexit⟩ := instOf_fields s f blk (f.inv.getD s.nextInv)
  exact ⟨hawait, hplaces, hfires, ⟨blk, hblk, hcode⟩, hcell, hseq, hnode, htag, hpoint, hgen, hregs, hstage, heffs, hexit, hhreg⟩

/-- Starting an instance whose fetch passes its checks, and which takes no tag, adds it and marks its block as used. -/
theorem startInst_eq {s : State} {b : BInst} (hc : b.code ≠ []) (hx : ∀ x, x ∈ slotsOf b.code → ∀ u, entryBad u b x = none) (hs : blockSpawns b.code = false) :
    startInst s b = { touchBlock s b with insts := s.insts.filter (fun x => !x.isAt b.cell b.seq) ++ [b] } := by
  unfold startInst
  dsimp only
  rw [hs, if_neg Bool.false_ne_true]
  dsimp only
  unfold fetchCheck
  rw [if_neg hc, fetchBad_none _ _ hx]
  rfl

theorem holdIndices_frame (s : State) (f : Firing) : ∃ c, holdIndices s f = { s with counters := c } ∧ (f.point = none → c = s.counters) := by
  unfold holdIndices
  split
  · next is q r hp hr => exact ⟨_, rfl, fun hn => by rw [hn] at hp; cases hp⟩
  · exact ⟨_, rfl, fun _ => rfl⟩

theorem beginInv_counters (s : State) (f : Firing) : (beginInv s f).counters = s.counters := by
  unfold beginInv
  split <;> rfl

/-- What an instance captures of the counters has no part in the checks of its formats. -/
theorem entryBad_counters (s : State) (b : BInst) (c : FMap Word64) (x : BSlot) : entryBad s { b with counters0 := c } x = entryBad s b x := rfl

theorem fireInst_colour (s : State) (f : Firing) (b : BInst) : mget 0 (fireInst s f b).lastColour f.cell = f.tag.colour := by
  unfold fireInst
  dsimp only
  rw [startInst_colour]
  obtain ⟨c, hh, -⟩ := holdIndices_frame (beginInv { s with firings := s.firings.filter (fun x => !(x.cell == f.cell && x.seq == f.seq)), lastColour := mput 0 s.lastColour f.cell f.tag.colour } f) f
  rw [hh]
  dsimp only
  rw [beginInv_colour]
  exact mget_mput_same (d := (0 : Colour)) _ _ _

theorem fireInst_plain {s : State} {f : Firing} {b : BInst} (hc : b.code ≠ []) (hx : ∀ x, x ∈ slotsOf b.code → ∀ u, entryBad u b x = none) (hs : blockSpawns b.code = false) :
    let t := fireInst s f b
    t.firings = s.firings.filter (fun x => !(x.cell == f.cell && x.seq == f.seq))
    ∧ t.insts = s.insts.filter (fun x => !x.isAt b.cell b.seq) ++ [{ b with counters0 := t.counters }] ∧ (f.point = none → t.counters = s.counters) := by
  intro t
  let s0 : State := { s with firings := s.firings.filter (fun x => !(x.cell == f.cell && x.seq == f.seq)), lastColour := mput 0 s.lastColour f.cell f.tag.colour }
  obtain ⟨c, hh, hnone⟩ := holdIndices_frame (beginInv s0 f) f
  obtain ⟨hfirings, hinsts⟩ := beginInv_keep s0 f
  have ht : t = startInst { beginInv s0 f with counters := c } { b with counters0 := c } := by
    show startInst (holdIndices (beginInv s0 f) f) { b with counters0 := (holdIndices (beginInv s0 f) f).counters } = _
    rw [hh]
  rw [startInst_eq (b := { b with counters0 := c }) hc (fun x hm u => (entryBad_counters u b c x).trans (hx x hm u)) hs] at ht
  rw [ht]
  refine ⟨hfirings, ?_, fun hp => (hnone hp).trans (beginInv_counters s0 f)⟩
  show List.filter _ (beginInv s0 f).insts ++ _ = _
  rw [hinsts]
  rfl

/-- With no chained instance waiting, a cell chooses among the firings that it may start. -/
theorem firingChoice_eq {s : State} {cell : Nat} (hw : ∀ b, b ∈ s.insts → b.cell = cell → b.stage ≠ .waiting) :
    exec (.firingChoice cell) s = match bestOf (fun a b => chosenBefore s cell a.1 b.1) ((s.firings.filter (fun f => f.cell == cell)).filterMap (fun f => (startable s f).map (fun b => (f, b)))) with
      | none => .next s
      | some (f, b) => .next (fireInst s f b) := by
  have hnone : s.insts.filter (fun b => b.cell == cell && b.stage == .waiting) = [] := by
    rw [List.filter_eq_nil_iff]
    intro b hb hc
    rw [Bool.and_eq_true, beq_iff_eq, beq_iff_eq] at hc
    exact hw b hb hc.1 hc.2
  show execFiringChoice cell s = _
  unfold execFiringChoice
  rw [hnone]
  rfl

theorem firingChoice_none {s : State} {cell : Nat} (hw : ∀ b, b ∈ s.insts → b.cell = cell → b.stage ≠ .waiting)
    (hn : ∀ f, f ∈ s.firings → f.cell = cell → startable s f = none) : exec (.firingChoice cell) s = .next s := by
  rw [firingChoice_eq hw, filterMap_none]
  · rfl
  · intro f hf
    obtain ⟨hm, hc⟩ := List.mem_filter.1 hf
    rw [hn f hm (beq_iff_eq.1 hc)]
    rfl

/-- The one firing that comes before all others that the cell may start is the one that fires (R321). -/
theorem firingChoice_fires {s : State} {cell : Nat} {f : Firing} {b : BInst} (hw : ∀ b, b ∈ s.insts → b.cell = cell → b.stage ≠ .waiting) (hf : f ∈ s.firings) (hc : f.cell = cell)
    (hs : startable s f = some b)
    (hbest : ∀ g, g ∈ s.firings → g.cell = cell → startable s g ≠ none → g ≠ f → chosenBefore s cell f g = true ∧ chosenBefore s cell g f = false) :
    exec (.firingChoice cell) s = .next (fireInst s f b) := by
  rw [firingChoice_eq hw, best_unique _ _ (f, b)]
  · rw [List.mem_filterMap]
    exact ⟨f, List.mem_filter.2 ⟨hf, beq_iff_eq.2 hc⟩, by rw [hs]; rfl⟩
  · rintro ⟨g, d⟩ hm hne
    obtain ⟨g', hg, hgd⟩ := List.mem_filterMap.1 hm
    obtain ⟨d', hd, heq⟩ := Option.map_eq_some_iff.1 hgd
    cases heq
    obtain ⟨hgm, hgc⟩ := List.mem_filter.1 hg
    refine hbest g hgm (beq_iff_eq.1 hgc) (by rw [hd]; exact Option.some_ne_none _) fun he => hne ?_
    rw [he] at hd ⊢
    cases hs.symm.trans hd
    rfl

/-! #### Responses and translation entries (R216, R243) -/

theorem memoryResponse_delivers {s : State} {cell seq : Nat} {b : BInst} {p : Pend} {l : List Pend} (hb : findInst s cell seq = some b) (hp : b.pend = p :: l) :
    exec (.memoryResponse cell seq) s = .next (putInst s (deliverAt p.slot p.h p.aux { v0 := p.v0, p0 := p.b, v1 := p.v1, p1 := p.b } { b with pend := l })) := by
  show execMemoryResponse cell seq s = _
  unfold execMemoryResponse
  rw [hb]
  dsimp only
  rw [hp]

section
variable {s : State} {cell wn holder root k : Nat} {c : Colour} {va : Word64} (ho : mget none s.cellOwner cell = some wn) (hva : va.toNat < 2 ^ 57)
  (hh : missHolder s cell (BitVec.ofNat 4 wn) c va.toNat = some holder) (he : colourEntry s (BitVec.ofNat 4 wn) c = some (root, k))
include ho hva hh he

theorem translationWalk_bad {d : Cause} {r : Nat} (hw : walkCached s (cellSpire cell) (BitVec.ofNat 4 wn) c va.toNat root = .bad d r) :
    exec (.translationWalk cell c va) s = .next s := by
  show execTranslationWalk cell c va s = _
  unfold execTranslationWalk
  rw [ho]
  dsimp only
  rw [if_neg hva.not_ge, hh]
  dsimp only
  rw [he]
  dsimp only
  rw [hw]

/-- A walk that finds a leaf fills an entry, if some access may use the leaf and the world owns its place. -/
theorem translationWalk_leaf {lv size pb : Nat} {rd wr : Bool} (hw : walkCached s (cellSpire cell) (BitVec.ofNat 4 wn) c va.toNat root = .leaf lv size pb rd wr) :
    let pa := canonPa s (pb + va.toNat % pageBytes size)
    let fills := (rd = true ∨ wr = true) ∧ region pa ≠ none ∧ ownsPa s (BitVec.ofNat 4 wn) pa = true
    (¬ fills → exec (.translationWalk cell c va) s = .next s)
    ∧ (fills → ∃ l ws, exec (.translationWalk cell c va) s = .next { s with walks := ws, tlb :=
        l ++ [{ cell := holder, w := BitVec.ofNat 4 wn, colour := c, vbase := va.toNat / pageBytes size * pageBytes size, size := size, pbase := pb, rd := rd, wr := wr }] }
      ∧ ((s.tlb.filter (fun t => t.cell == holder)).length < tlbSize cell → l = s.tlb)) := by
  intro pa fills
  have hiff : (!(rd || wr) || region pa == none || !ownsPa s (BitVec.ofNat 4 wn) pa) = true ↔ ¬ fills := by
    simp only [fills, Bool.or_eq_true, Bool.not_eq_true', Bool.or_eq_false_iff, beq_iff_eq, not_and_or, not_or, Bool.not_eq_true, ne_eq, not_not, or_assoc]
  show (_ → execTranslationWalk cell c va s = _) ∧ (_ → ∃ l ws, execTranslationWalk cell c va s = _ ∧ _)
  unfold execTranslationWalk
  rw [ho]
  dsimp only
  rw [if_neg hva.not_ge, hh]
  dsimp only
  rw [he]
  dsimp only
  rw [hw]
  dsimp only
  exact ⟨fun hn => if_pos (hiff.2 hn), fun hf => ⟨_, _, if_neg fun hc => hiff.1 hc hf, fun hl => if_pos hl⟩⟩

end

/-! #### Commit (R41, R46, R90, R130, R260, R371) -/

theorem waitRoom_waiters (s : State) (b : BInst) : ∃ l, waitRoom s b = { s with waiters := l } := by
  have hjoin (st : State) (x : Waiter) : ∃ l, joinWait st x = { st with waiters := l } := by
    unfold joinWait
    split <;> exact ⟨_, rfl⟩
  have hfold (l : List Arbiter) (st : State) : ∃ k, l.foldl (fun st a => joinWait st (roomReq st b a)) st = { st with waiters := k } := by
    induction l generalizing st with
    | nil => exact ⟨_, rfl⟩
    | cons a l ih =>
      obtain ⟨k, hk⟩ := hjoin st (roomReq st b a)
      obtain ⟨m, hm⟩ := ih (joinWait st (roomReq st b a))
      exact ⟨m, hm.trans (by rw [hk])⟩
  unfold waitRoom
  split
  · exact ⟨_, rfl⟩
  · exact hfold _ s

theorem awaitsLate_of_nil {b : BInst} (h : b.later = []) : awaitsLate b = false := by
  unfold awaitsLate
  rw [h]
  rfl

section
variable {s : State} {cell : Nat} {b : BInst} (ho : oldestInst s cell = some b)
include ho

theorem commit_raised {k : Nat} {r : Report} (hr : b.raised = some (k, r)) :
    exec (.instanceCommit cell) s = .next (if inTurn s .fault b.node (faultPlace b.cell k) then takeFault s b k r else s) := by
  show execInstanceCommit cell s = _
  unfold execInstanceCommit
  rw [ho]
  dsimp only
  rw [hr]

/-- A commit waits for a start, an answer, or an instruction. -/
theorem instanceCommit_waits (hr : b.raised = none) (hw : b.stage = .waiting ∨ b.pend ≠ [] ∨ (b.pc < b.code.length ∧ b.later = [])) : exec (.instanceCommit cell) s = .next s := by
  show execInstanceCommit cell s = _
  unfold execInstanceCommit
  rw [ho]
  dsimp only
  rw [hr]
  dsimp only
  by_cases h : b.stage = .waiting ∨ b.pend ≠ []
  · exact if_pos h
  · obtain ⟨hpc, hl⟩ := (or_assoc.2 hw).resolve_left h
    rw [if_neg h, if_pos hpc, awaitsLate_of_nil hl]
    rfl

/-- An instance that has executed to its end without an exit faults (R90). -/
theorem commit_noExit (hr : b.raised = none) (hs : b.stage ≠ .waiting) (hd : b.code.length ≤ b.pc) (hp : b.pend = []) (he : b.exit = none) :
    exec (.instanceCommit cell) s = .next (if inTurn s .fault b.node (faultPlace b.cell 0) then takeFault s b 0 { cause := .illegalEncoding, detail := 1 } else s) := by
  show execInstanceCommit cell s = _
  unfold execInstanceCommit
  rw [ho]
  dsimp only
  rw [hr]
  dsimp only
  rw [if_neg (not_or.2 ⟨hs, not_not.2 hp⟩), if_neg hd.not_gt, he]

/-- A commit that begins with no change left: it waits for its releases, begins them, waits for room and turns, or ends. -/
theorem commit_begins {e : Exit} (hb : BeginsCommit s b e) (hl : b.later = []) :
    exec (.instanceCommit cell) s = if b.stage = .releasing then .next s else if needsRelease s b e then .next (putInst s { b with stage := .releasing })
      else if !commitRoom s b || !roomTurn s b || !commitTurn s b then .next (waitRoom s b)
      else .next (finishInst (markCommit (leaveWait s (.inst b.cell b.seq)) b) b e) := by
  obtain ⟨-, hr, hs, hp, hd, he⟩ := hb
  show execInstanceCommit cell s = _
  unfold execInstanceCommit
  rw [ho]
  dsimp only
  rw [hr]
  dsimp only
  rw [if_neg (not_or.2 ⟨hs, not_not.2 hp⟩), if_neg hd.not_gt, he]
  dsimp only
  rw [if_neg (not_not.2 hl)]

end

theorem markCommit_nil (s : State) {b : BInst} (h : b.effs = []) : markCommit s b = s := by
  unfold markCommit
  rw [h]
  rfl

/-! #### The effects of a commit and its releases (R41, R130, R206, R225) -/

theorem applyEff_hreg (b : BInst) (s : State) (n : Nat) (v : Word64) : mget 0 (applyEff b s (.hreg n v)).hregs (b.cell * 32 + n) = v :=
  mget_mput_same (d := (0 : Word64)) _ _ _

theorem applyEff_plane (b : BInst) (s : State) (op : PlaneOp) : mget none (applyEff b s (.plane op)).planes b.cell = planeAfter b.tag op (mget none s.planes b.cell) :=
  mget_mput_same (d := (none : Option Run)) _ _ _

theorem applyEff_haltTask (b : BInst) (s : State) : (nodeCtx (applyEff b s .haltTask) b.node).halted = true :=
  congrArg Ctx.halted (nodeCtx_set s b.node _)

theorem applyEff_store {b : BInst} {s : State} (st : HStore) {v : Inv} (h : findInv s b.inv = some v) :
    findInv (applyEff b s (.store st)) b.inv = some { v with held := v.held ++ [st] } :=
  findInv_upd s b.inv (fun v => { v with held := v.held ++ [st] }) (fun _ => rfl) v h

/-- The releases of an instance that ends its invocation write its held stores and then its own (R224, R225). -/
theorem releasePerformed_lands {s : State} {cell seq : Nat} {b : BInst} {v : Inv} {sts : List HStore} (hb : findInst s cell seq = some b) (hs : b.stage = .releasing)
    (he : b.exit = some .fin) (hends : endsHere s b .fin = true) (hv : findInv s b.inv = some v) (heffs : b.effs = sts.map .store) (hl : Lands s (v.held ++ sts)) :
    exec (.releasePerformed cell seq) s = .next (putInst ((v.held ++ sts).foldl stored (putInv s { v with held := [] })) { b with stage := .released, effs := [] }) := by
  have hall : (b.effs.any Eff.isEngine || (b.exit.map (endsHere s b)).getD false) = true := by
    rw [he, Option.map_some, Option.getD_some, hends, Bool.or_true]
  have hwrites : homeWrites (originOf s b 0 2) (releaseInv s (originOf s b 0 2) b.inv) sts = (v.held ++ sts).foldl stored (putInv s { v with held := [] }) := by
    unfold releaseInv
    rw [hv]
    dsimp only
    rw [← homeWrites_append]
    exact homeWrites_lands _ _ _ ((lands_invs _ _ _).2 hl)
  show execReleasePerformed cell seq s = _
  unfold execReleasePerformed
  rw [hb]
  dsimp only
  rw [if_neg (not_not.2 hs), hall, heffs, performRels_stores]
  dsimp only
  rw [List.nil_append, if_pos rfl, if_pos rfl, hwrites]
  rfl

theorem releasePerformed_spec {s : State} {cell seq : Nat} {b : BInst} {v : Inv} {sts : List HStore} (hb : findInst s cell seq = some b) (hs : b.stage = .releasing)
    (he : b.exit = some .fin) (hends : endsHere s b .fin = true) (hv : findInv s b.inv = some v) (heffs : b.effs = sts.map .store) (hl : Lands s (v.held ++ sts)) :
    ∃ t, exec (.releasePerformed cell seq) s = .next t
      ∧ t.mem = (v.held ++ sts).foldl (fun m st => putBytes m st.bytes) s.mem ∧ t.insts = (putInst s { b with stage := .released, effs := [] }).insts := by
  obtain ⟨hmem, hinsts, -, -⟩ := stored_fold (v.held ++ sts) (putInv s { v with held := [] })
  refine ⟨_, releasePerformed_lands hb hs he hends hv heffs hl, hmem, ?_⟩
  show updFirst _ _ (List.foldl stored (putInv s _) _).insts = _
  rw [hinsts]
  rfl

/-! #### Control tokens and outer points (R47, R105, R106) -/

theorem mem_of_delFirst {α : Type} {p : α → Bool} {l : List α} {a : α} (h : a ∈ delFirst p l) : a ∈ l := by
  induction l with
  | nil => exact h
  | cons b l ih =>
    unfold delFirst at h
    split at h
    · exact List.mem_cons_of_mem _ h
    · exact (List.mem_cons.1 h).elim (fun he => he ▸ List.mem_cons_self) fun hm => List.mem_cons_of_mem _ (ih hm)

/-- A GO with no HALT of its tag waits at its node, which then starts its oldest GO if no run is left. -/
theorem takeGo_eq {s : State} {c : CtlTok} (h : ∀ y, y ∈ s.ctls → ¬ (y.here = true ∧ y.go = false ∧ y.node = c.node ∧ y.tag = c.tag)) :
    ∃ l, takeGo s c = startWaiting { s with ctls := l, goWaits := s.goWaits ++ [{ node := c.node, tag := c.tag, halted := false, acq := c.src.isSome }] } c.node := by
  have hany : (delFirst (fun t => t == c) s.ctls).any (fun t => t.here && !t.go && t.node == c.node && t.tag == c.tag) = false := by
    rw [List.any_eq_false]
    intro y hy hc
    simp only [Bool.and_eq_true, Bool.not_eq_true', beq_iff_eq] at hc
    obtain ⟨⟨⟨hhere, hgo⟩, hnode⟩, htag⟩ := hc
    exact h y (mem_of_delFirst hy) ⟨hhere, hgo, hnode, htag⟩
  unfold takeGo
  dsimp only
  rw [hany]
  exact ⟨_, rfl⟩

/-- A node without a run starts its one waiting GO. -/
theorem startWaiting_one {s : State} {n : NodeId} {p : Placed} {g : GoWait} (hn : s.nests = []) (hg : s.goWaits = [g]) (hgn : g.node = n) (hp : placedOf s n = some p) (hcut : nodeCut s n = false)
    (hh : (nodeCtx s n).halted = false) : startWaiting s n = beginNest { s with goWaits := [] } p ((nodeNest p).getD []) g := by
  unfold startWaiting
  rw [hp]
  dsimp only
  rw [hcut, hh, Bool.or_self, if_neg Bool.false_ne_true, hg]
  show startGos n p 1 s = _
  unfold startGos
  rw [hn, hg]
  simp only [List.any_nil, Bool.false_eq_true, if_false, List.find?_cons, hgn, beq_self_eq_true, delFirst, if_true]
  rfl

theorem takeGo_starts {s : State} {c : CtlTok} {p : Placed} (hn : s.nests = []) (hg : s.goWaits = []) (hp : placedOf s c.node = some p) (hcut : nodeCut s c.node = false)
    (hh : (nodeCtx s c.node).halted = false) (h : ∀ y, y ∈ s.ctls → ¬ (y.here = true ∧ y.go = false ∧ y.node = c.node ∧ y.tag = c.tag)) :
    ∃ r v, (takeGo s c).nests = [r] ∧ (takeGo s c).goWaits = [] ∧ r.node = c.node ∧ r.tag = c.tag ∧ r.inv = s.nextInv ∧ r.next = 0 ∧ r.halted = false
      ∧ (takeGo s c).invs = s.invs ++ [v] ∧ v.id = s.nextInv ∧ v.tag = c.tag ∧ v.nest = true ∧ v.held = [] := by
  obtain ⟨l, hl⟩ := takeGo_eq h
  let g : GoWait := { node := c.node, tag := c.tag, halted := false, acq := c.src.isSome }
  have hgo : takeGo s c = beginNest { s with ctls := l, goWaits := [] } p ((nodeNest p).getD []) g :=
    hl.trans (startWaiting_one (g := g) hn (by rw [hg]; rfl) rfl hp hcut hh)
  obtain ⟨r, v, hnests, hwaits, hnode, htag, hinv, hnext, hhalted, hinvs, hid, hvtag, hnest, hheld, -⟩ :=
    beginNest_spec { s with ctls := l, goWaits := [] } p ((nodeNest p).getD []) g rfl
  rw [hgo]
  refine ⟨r, v, hnests.trans ?_, hwaits, hnode, htag, hinv, hnext, hhalted, hinvs, hid, hvtag, hnest, hheld⟩
  show s.nests ++ [r] = [r]
  rw [hn]
  rfl

theorem takeGo_waits {s : State} {c : CtlTok} {r : NestRun} (hr : r ∈ s.nests) (hn : r.node = c.node)
    (h : ∀ y, y ∈ s.ctls → ¬ (y.here = true ∧ y.go = false ∧ y.node = c.node ∧ y.tag = c.tag)) :
    (takeGo s c).nests = s.nests ∧ (takeGo s c).goWaits = s.goWaits ++ [{ node := c.node, tag := c.tag, halted := false, acq := c.src.isSome }] := by
  obtain ⟨l, hl⟩ := takeGo_eq h
  rw [hl.trans (startWaiting_busy _ _ ⟨r, hr, hn⟩)]
  exact ⟨rfl, rfl⟩

theorem takeHalt_held {s : State} {c : CtlTok} (hc : c ∈ s.ctls) (hn : ∀ r, r ∈ s.nests → ¬ (r.node = c.node ∧ r.tag = c.tag)) :
    takeHalt s c = { s with
      ctls := delFirst (fun y => y == c) s.ctls, goWaits := updFirst (fun g => g.node == c.node && g.tag == c.tag) (fun g => { g with halted := true }) s.goWaits } := by
  have hfind : s.nests.find? (fun r => r.node == c.node && r.tag == c.tag) = none := by
    rw [List.find?_eq_none]
    intro r hr hm
    rw [Bool.and_eq_true, beq_iff_eq, beq_iff_eq] at hm
    exact hn r hr hm
  unfold takeHalt
  rw [List.contains_iff_mem.2 hc]
  dsimp only
  rw [hfind]
  rfl

theorem takeHalt_runs {s : State} {c : CtlTok} {r : NestRun} (hc : c ∈ s.ctls) (hr : s.nests.find? (fun r => r.node == c.node && r.tag == c.tag) = some r)
    (hb : ∃ b, b ∈ s.insts ∧ b.inv = r.inv) :
    (takeHalt s c).nests = s.nests.map (fun x => if x.inv = r.inv then { x with halted := true } else x) ∧ (takeHalt s c).insts = s.insts := by
  obtain ⟨b, hb, hinv⟩ := hb
  have he : takeHalt s c = haltRun { s with ctls := delFirst (fun t => t == c) s.ctls } r := by
    unfold takeHalt
    rw [List.contains_iff_mem.2 hc]
    dsimp only
    rw [hr]
    rfl
  rw [he]
  exact haltRun_busy { s with ctls := delFirst (fun t => t == c) s.ctls } r b hb hinv

theorem arriveControl_frozen {s : State} {n : NodeId} {tag : Tag} (go : Bool) (h : frozen s n.w n.x tag.colour = true) : arriveControl s go n tag = s := if_pos h

theorem arriveControl_moves {s : State} {n : NodeId} {tag : Tag} (go : Bool) (h : frozen s n.w n.x tag.colour = false) :
    arriveControl s go n tag = { s with ctls := updFirst (fun c => !c.here && c.go == go && c.node == n && c.tag == tag) (fun c => { c with here := true }) s.ctls } :=
  if_neg (by rw [h]; exact Bool.false_ne_true)

/-- When the next outer point of a nest's run is to fire (R106). -/
def PointReady (s : State) (r : NestRun) : Prop :=
  r.halted = false ∧ r.due = false ∧ r.next < r.points ∧ nodeCut s r.node = false ∧ frozen s r.node.w r.node.x r.tag.colour = false ∧ (nodeCtx s r.node).halted = false
    ∧ (∀ b, b ∈ s.insts → b.inv ≠ r.inv) ∧ (∀ f, f ∈ s.firings → f.inv ≠ some r.inv)

theorem pointReady_iff (s : State) (r : NestRun) :
    (r.halted || r.due || decide (r.points ≤ r.next) || nodeCut s r.node || frozen s r.node.w r.node.x r.tag.colour || (nodeCtx s r.node).halted
      || s.insts.any (fun b => b.inv == r.inv) || s.firings.any (fun f => f.inv == some r.inv)) = false ↔ PointReady s r := by
  unfold PointReady
  simp only [Bool.or_eq_false_iff, decide_eq_false_iff_not, not_le, List.any_eq_false, beq_iff_eq, ne_eq, and_assoc]

theorem outerPoint_spec {s : State} {cell : Nat} {r : NestRun} (hr : s.nests.find? (fun r => (placedOf s r.node).any (fun p => p.cell == cell)) = some r) :
    (¬ PointReady s r → exec (.loopNestOuterPoint cell) s = .next s)
    ∧ (PointReady s r → exec (.loopNestOuterPoint cell) s = .next { s with nests := s.nests.map (fun x => if x.inv = r.inv then { x with due := true } else x) }) := by
  show (_ → execLoopNestOuterPoint cell s = _) ∧ (_ → execLoopNestOuterPoint cell s = _)
  unfold execLoopNestOuterPoint
  rw [hr]
  dsimp only
  exact ⟨fun hn => if_pos (by rw [← Bool.not_eq_false, pointReady_iff]; exact hn), fun hp => if_neg (by rw [(pointReady_iff s r).2 hp]; exact Bool.false_ne_true)⟩

/-- When a nest's due outer point fires: its operand set is complete (R35, R106). -/
def PointFires (s : State) (n : NodeId) (p : Placed) (r : NestRun) : Prop :=
  r.due = true ∧ r.halted = false ∧ nodeCut s n = false ∧ frozen s n.w n.x r.tag.colour = false ∧ (nodeCtx s n).halted = false ∧ setComplete s n (entryPorts p) r.tag = true

theorem pointFires_iff (s : State) (n : NodeId) (p : Placed) (r : NestRun) :
    (!r.due || r.halted || nodeCut s n || frozen s n.w n.x r.tag.colour || (nodeCtx s n).halted || !setComplete s n (entryPorts p) r.tag) = false ↔ PointFires s n p r := by
  unfold PointFires
  simp only [Bool.or_eq_false_iff, Bool.not_eq_false', and_assoc]

theorem completePoint_idle {s : State} {n : NodeId} {p : Placed} {r : NestRun} (h : ¬ PointFires s n p r) : completePoint s n p r = s := by
  unfold completePoint
  exact if_pos (by rw [← Bool.not_eq_false, pointFires_iff]; exact h)

theorem completePoint_fires {s : State} {n : NodeId} {p : Placed} {r : NestRun} (h : PointFires s n p r) :
    ∃ f, (completePoint s n p r).firings = s.firings ++ [f] ∧ f.node = n ∧ f.tag = r.tag ∧ f.inv = some r.inv ∧ f.point = some (outerPoint r.exts r.next, r.next)
      ∧ f.seq = mget 0 s.seqs p.cell + 1 ∧ f.age = s.now ∧ (completePoint s n p r).nests = s.nests.map (fun x => if x.inv = r.inv then { x with next := x.next + 1, due := false } else x) := by
  unfold completePoint
  rw [(pointFires_iff s n p r).2 h, if_neg Bool.false_ne_true]
  exact ⟨_, rfl, rfl, rfl, rfl, rfl, rfl, rfl, rfl⟩

/-! #### Format changes on their way (R130) -/

theorem reachCell_reach (s : State) (x : CtxId) (cell g : Nat) : reachOf (reachCell s x cell g) x.w x.x cell = max (reachOf s x.w x.x cell) g :=
  mget_mput_same (d := (0 : Nat)) _ _ _

theorem travelOne_eq {s : State} {x : CtxId} {cell : Nat} {e : CtxId × Nat × Nat × Nat} (h : s.fmtTravel.find? (fun t => t.1 == x && t.2.1 == cell) = some e) :
    travelOne s x cell = reachCell { s with fmtTravel := delFirst (fun u => u.1 == x && u.2.1 == cell) s.fmtTravel } x cell e.2.2.1 := by
  unfold travelOne
  rw [h]

theorem formatChangeReach_spec {s : State} {x : CtxId} {cell : Nat} {e : CtxId × Nat × Nat × Nat} (h : s.fmtTravel.find? (fun t => t.1 == x && t.2.1 == cell) = some e) :
    (s.now ≤ e.2.2.2 → exec (.formatChangeReach x cell) s = .next s)
    ∧ (e.2.2.2 < s.now → ∃ t, exec (.formatChangeReach x cell) s = .next t ∧ reachOf t x.w x.x cell = max (reachOf s x.w x.x cell) e.2.2.1
      ∧ t.fmtTravel = delFirst (fun u => u.1 == x && u.2.1 == cell) s.fmtTravel ∧ t.mem = s.mem) := by
  show (_ → execFormatChangeReach x cell s = _) ∧ (_ → ∃ t, execFormatChangeReach x cell s = _ ∧ _)
  unfold execFormatChangeReach
  rw [h]
  dsimp only
  refine ⟨fun hn => by rw [if_neg hn.not_gt], fun hn => ⟨_, congrArg Host.Outcome.next ((if_pos hn).trans (travelOne_eq h)), reachCell_reach _ x cell _, rfl, rfl⟩⟩

/-! #### Waits and their monitors (R255–R258) -/

theorem monitor_sees_first {m : Monitor} (now : Nat) (k : Wake) (h : m.event = none) : m.sees now k = { m with event := some (k, now) } := by
  unfold Monitor.sees
  rw [h]

theorem monitor_sees_later {m : Monitor} {now t : Nat} {j : Wake} (k : Wake) (h : m.event = some (j, t)) (ht : t ≠ now) : m.sees now k = m := by
  unfold Monitor.sees
  rw [h]
  exact if_neg fun hc => ht hc.1

theorem monitor_sees_write {m : Monitor} {now : Nat} (h : m.event = some (.timeout, now) ∨ m.event = some (.lost, now)) : m.sees now .write = { m with event := some (.write, now) } := by
  unfold Monitor.sees
  rcases h with h | h <;> rw [h] <;> exact if_pos ⟨rfl, by decide⟩

section
variable {s : State} {cell seq : Nat} {m : Monitor} (hm : s.monitors.find? (fun m => m.cell == cell && m.seq == seq) = some m)
include hm

theorem monitorEvent_some {k : Wake} {t : Nat} (he : m.event = some (k, t)) : exec (.monitorEvent cell seq) s = .next (if t < s.now then wakeFiring s cell seq k else s) := by
  show execMonitorEvent cell seq s = _
  unfold execMonitorEvent
  dsimp only
  rw [hm]
  dsimp only
  rw [he]

theorem monitorEvent_none (he : m.event = none) :
    exec (.monitorEvent cell seq) s = .next { s with monitors := updFirst (fun m => m.cell == cell && m.seq == seq) (fun m => m.sees s.now .spurious) s.monitors } := by
  show execMonitorEvent cell seq s = _
  unfold execMonitorEvent
  dsimp only
  rw [hm]
  dsimp only
  rw [he]

theorem waitTimeout_due {d : Nat} (hd : m.deadline = some d) (hn : d ≤ s.now) :
    exec (.waitTimeout cell seq) s = .next { s with monitors := updFirst (fun m => m.cell == cell && m.seq == seq) (fun m => m.sees s.now .timeout) s.monitors } := by
  show execWaitTimeout cell seq s = _
  unfold execWaitTimeout
  dsimp only
  rw [hm]
  dsimp only
  rw [hd]
  dsimp only
  rw [if_pos hn]

theorem waitTimeout_early (hd : ∀ d, m.deadline = some d → s.now < d) : exec (.waitTimeout cell seq) s = .next s := by
  show execWaitTimeout cell seq s = _
  unfold execWaitTimeout
  dsimp only
  rw [hm]
  dsimp only
  split
  · rfl
  · next d h => rw [if_neg (hd d h).not_ge]

end

/-! #### The watchdog (R310, R373) -/

/-- When an instance's watchdog expires. -/
def InstExpires (s : State) (b : BInst) : Prop :=
  b.begun = false ∧ b.raised = none ∧ watchLimit (nodeCtx s b.node) ≠ 0 ∧ (nodeCtx s b.node).cut = none ∧ b.born + watchLimit (nodeCtx s b.node) ≤ s.now
    ∧ inTurn s .fault b.node (faultPlace b.cell b.pc) = true

theorem instExpires_iff (s : State) (b : BInst) :
    (b.begun || b.raised.isSome || watchLimit (nodeCtx s b.node) == 0 || (nodeCtx s b.node).cut.isSome || decide (s.now < b.born + watchLimit (nodeCtx s b.node))
      || !inTurn s .fault b.node (faultPlace b.cell b.pc)) = false ↔ InstExpires s b := by
  unfold InstExpires
  simp only [Bool.or_eq_false_iff, Bool.not_eq_false', decide_eq_false_iff_not, not_lt, beq_eq_false_iff_ne, Option.isSome_eq_false_iff, Option.isNone_iff_eq_none, and_assoc]

theorem watchdog_inst {s : State} {cell seq : Nat} {b : BInst} (hb : findInst s cell seq = some b) :
    (InstExpires s b → exec (.watchdogExpiry cell seq) s = .next (takeFault s b b.pc { cause := .watchdog })) ∧ (¬ InstExpires s b → exec (.watchdogExpiry cell seq) s = .next s) := by
  show (_ → execWatchdogExpiry cell seq s = _) ∧ (_ → execWatchdogExpiry cell seq s = _)
  unfold execWatchdogExpiry
  rw [hb]
  dsimp only
  exact ⟨fun hd => if_neg (by rw [(instExpires_iff s b).2 hd]; exact Bool.false_ne_true), fun hn => if_pos (by rw [← Bool.not_eq_false, instExpires_iff]; exact hn)⟩

/-- When the watchdog of a firing that no instance has started expires. -/
def FiringExpires (s : State) (f : Firing) : Prop :=
  f.counting ≠ none ∧ watchLimit (nodeCtx s f.node) ≠ 0 ∧ (nodeCtx s f.node).cut = none ∧ watchLimit (nodeCtx s f.node) ≤ f.count s.now
    ∧ inTurn s .fault f.node (faultPlace f.cell 0) = true

theorem firingExpires_iff (s : State) (f : Firing) :
    (f.counting.isNone || watchLimit (nodeCtx s f.node) == 0 || (nodeCtx s f.node).cut.isSome || decide (f.count s.now < watchLimit (nodeCtx s f.node))
      || !inTurn s .fault f.node (faultPlace f.cell 0)) = false ↔ FiringExpires s f := by
  unfold FiringExpires
  simp only [Bool.or_eq_false_iff, Bool.not_eq_false', decide_eq_false_iff_not, not_lt, beq_eq_false_iff_ne, Option.isSome_eq_false_iff, Option.isNone_eq_false_iff, Option.isSome_iff_ne_none,
    Option.isNone_iff_eq_none, and_assoc]

theorem watchdog_firing {s : State} {cell seq : Nat} {f : Firing} (hn : findInst s cell seq = none) (hf : s.firings.find? (fun f => f.cell == cell && f.seq == seq) = some f) :
    (¬ FiringExpires s f → exec (.watchdogExpiry cell seq) s = .next s) ∧ (FiringExpires s f → exec (.watchdogExpiry cell seq) s = .next (expireFiring s f)) := by
  show (_ → execWatchdogExpiry cell seq s = _) ∧ (_ → execWatchdogExpiry cell seq s = _)
  unfold execWatchdogExpiry
  rw [hn]
  dsimp only
  rw [hf]
  dsimp only
  exact ⟨fun hn => if_pos (by rw [← Bool.not_eq_false, firingExpires_iff]; exact hn), fun hd => if_neg (by rw [(firingExpires_iff s f).2 hd]; exact Bool.false_ne_true)⟩

/-! ##### The firings that a discarded invocation leaves -/

theorem sendExc_firings (s : State) (x : CtxId) (c : Cause) (l : List Nat) (v : BitVec 16) : (sendExc s x c l v).firings = s.firings := by
  unfold sendExc
  split <;> rfl

theorem deliverRecord_firings (s : State) (o : Origin) (r : Report) (d : Bool) : (deliverRecord s o r d).firings = s.firings := by
  unfold deliverRecord
  dsimp only
  split
  · exact (logRecord_firings _ _ _).trans (sendExc_firings _ _ _ _ _)
  · exact (logRecord_firings _ _ _).trans (sendExc_firings _ _ _ _ _)

theorem emitDones_firings (v : Inv) (l : List Nat) (s : State) : (emitDones v s l).firings = s.firings := by
  induction l generalizing s with
  | nil => rfl
  | cons q l ih =>
    refine (ih _).trans ?_
    unfold emitTok
    dsimp only
    split <;> rfl

theorem countDrain_firings (s : State) (n : NodeId) (t : Tag) : (countDrain s n t).firings = s.firings := by
  unfold countDrain
  dsimp only
  split
  · rfl
  · split
    · rfl
    · split <;> rfl

theorem endInv_firings (s : State) (id : Nat) : (endInv s id).firings = s.firings := by
  unfold endInv
  split
  · rfl
  · dsimp only
    split
    · rfl
    · exact (countDrain_firings _ _ _).trans (emitDones_firings _ _ _)

theorem beginNest_firings (s : State) (p : Placed) (e : List Nat) (g : GoWait) : (beginNest s p e g).firings = s.firings := by
  have hacq : (if g.acq then acquireNode s g.node else s).firings = s.firings := by
    unfold acquireNode
    split
    · split <;> rfl
    · rfl
  unfold beginNest
  dsimp only
  split
  · exact (endInv_firings _ _).trans hacq
  · exact hacq

theorem startGos_firings (n : NodeId) (p : Placed) (k : Nat) (s : State) : (startGos n p k s).firings = s.firings := by
  induction k generalizing s with
  | zero => rfl
  | succ k ih =>
    unfold startGos
    split
    · rfl
    · split
      · rfl
      · exact (ih _).trans (beginNest_firings _ _ _ _)

theorem startWaiting_firings (s : State) (n : NodeId) : (startWaiting s n).firings = s.firings := by
  unfold startWaiting
  split
  · split
    · rfl
    · exact startGos_firings _ _ _ _
  · rfl

theorem endFaulted_firings (s : State) (id : Nat) : (endFaulted s id).firings = s.firings := by
  unfold endFaulted
  split
  · rfl
  · dsimp only
    split
    · exact startWaiting_firings _ _
    · rfl

theorem discardInv_firings (s : State) (cell id : Nat) : (discardInv s cell id).firings = s.firings.filter (fun f => f.inv != some id) := by
  unfold discardInv
  dsimp only
  rw [returnTags_f State.firings fun s n t => returnTag_firings s n t]
  exact congrArg _ (foldl_eq State.firings _ s fun _ _ => rfl)

/-- A firing that expires is gone, with its invocation if it has begun one, and leaves one record in its world's log. -/
theorem expireFiring_spec {s : State} {f : Firing} {p : Placed} (hp : placedOf s f.node = some p) :
    let t := expireFiring s f
    (worldOf t f.node.w).fltSeq = ((worldOf s f.node.w).fltSeq + 1) % 2 ^ 32 ∧ f ∉ t.firings
      ∧ (f.inv = none → t.firings = s.firings.filter (fun x => !(x.cell == f.cell && x.seq == f.seq))) := by
  have hturn : Kp s (takeTurn s .fault f.node (faultPlace f.cell 0)) := Kp.of rfl rfl rfl rfl
  have record (u : State) (o : Origin) (r : Report) (ho : o.ctx.w = f.node.w) (hk : Kp s u) : (worldOf (deliverRecord u o r true) f.node.w).fltSeq = ((worldOf s f.node.w).fltSeq + 1) % 2 ^ 32 := by
    obtain ⟨-, -, -, -, -, -, hseq, -⟩ := deliverRecord_spec u o r
    rw [← ho, hseq, (hk.w o.ctx.w).1]
  unfold expireFiring
  rw [hp]
  dsimp only
  cases hinv : f.inv with
  | some id =>
    refine ⟨record _ _ _ rfl (hturn.trans ((kp_discard _ _ id).trans (kp_endFaulted _ id))), ?_, fun h => nomatch h⟩
    rw [deliverRecord_firings, endFaulted_firings, discardInv_firings]
    intro hm
    have hne := (List.mem_filter.1 hm).2
    rw [hinv, bne_self_eq_false] at hne
    cases hne
  | none =>
    refine ⟨record _ _ _ rfl (hturn.trans (Kp.of rfl rfl rfl rfl)), ?_, fun _ => deliverRecord_firings _ _ _ _⟩
    rw [deliverRecord_firings]
    intro hm
    have hne := (List.mem_filter.1 hm).2
    rw [beq_self_eq_true, beq_self_eq_true] at hne
    cases hne

/-! #### O40 -/

/-- The clauses on a commit. -/
theorem commit_clauses {s : State} {cell : Nat} {b : BInst} (ho : oldestInst s cell = some b) :
    let faults (slot : Nat) (r : Report) : Prop := (inTurn s .fault b.node (faultPlace b.cell slot) = true → exec (.instanceCommit cell) s = .next (takeFault s b slot r))
      ∧ (inTurn s .fault b.node (faultPlace b.cell slot) = false → exec (.instanceCommit cell) s = .next s)
    (∀ k r, b.raised = some (k, r) → faults k r)
    ∧ (b.raised = none → (b.stage = .waiting ∨ b.pend ≠ [] ∨ (b.pc < b.code.length ∧ b.later = [])) → exec (.instanceCommit cell) s = .next s)
    ∧ (b.raised = none → b.stage ≠ .waiting → b.code.length ≤ b.pc → b.pend = [] → b.exit = none → faults 0 { cause := .illegalEncoding, detail := 1 })
    ∧ ∀ e, BeginsCommit s b e → b.later = [] →
      (b.stage = .releasing → exec (.instanceCommit cell) s = .next s)
      ∧ (b.stage ≠ .releasing → needsRelease s b e = true → exec (.instanceCommit cell) s = .next (putInst s { b with stage := .releasing }))
      ∧ (b.stage ≠ .releasing → needsRelease s b e = false →
        let goes := commitRoom s b = true ∧ roomTurn s b = true ∧ commitTurn s b = true
        (¬ goes → ∃ l, exec (.instanceCommit cell) s = .next { s with waiters := l })
        ∧ (goes → e = .fin → b.effs = [] → (nodeCtx s b.node).halted = false → ∃ t, exec (.instanceCommit cell) s = .next t
          ∧ t.insts = s.insts.filter (fun x => !x.isAt b.cell b.seq) ∧ t.mem = s.mem ∧ t.ptoks = s.ptoks.filter (fun x => !x.usedBy { s with insts := t.insts } b.cell b.seq))) := by
  refine ⟨fun k r hr => ?raised, fun hr hw => instanceCommit_waits ho hr hw, fun hr hs hd hp he => ?noExit, fun e hb hl => ?begins⟩
  case raised =>
    rw [commit_raised ho hr]
    exact ⟨fun ht => by rw [ht]; rfl, fun ht => by rw [ht]; rfl⟩
  case noExit =>
    rw [commit_noExit ho hr hs hd hp he]
    exact ⟨fun ht => by rw [ht]; rfl, fun ht => by rw [ht]; rfl⟩
  case begins =>
    rw [commit_begins ho hb hl]
    refine ⟨fun hs => if_pos hs, fun hs hn => (if_neg hs).trans (if_pos hn), fun hs hn => ?_⟩
    rw [if_neg hs, hn, if_neg Bool.false_ne_true]
    intro goes
    have hiff : (!commitRoom s b || !roomTurn s b || !commitTurn s b) = false ↔ goes := by
      simp only [goes, Bool.or_eq_false_iff, Bool.not_eq_false', and_assoc]
    refine ⟨fun hg => ?_, fun hg he heffs hh => ⟨_, if_neg (by rw [hiff.2 hg]; exact Bool.false_ne_true), ?_⟩⟩
    · obtain ⟨l, hw⟩ := waitRoom_waiters s b
      exact ⟨l, (if_pos (by rw [← Bool.not_eq_false, hiff]; exact hg)).trans (congrArg _ hw)⟩
    · subst he
      rw [markCommit_nil _ heffs]
      obtain ⟨hinsts, hmem, hptoks⟩ := finish_plain (leaveWait s (.inst b.cell b.seq)) b heffs hh
      refine ⟨hinsts, hmem, hptoks.trans ?_⟩
      rw [hinsts]
      rfl

/-- Settles O40: each event by the lemma on its own act. -/
theorem cellEvents : Obligations.CellEvents := by
  unfold Obligations.CellEvents
  refine ⟨?fetch, fun s f b h => startable_spec h, ?choice, fun s cell seq b p l hb hp => memoryResponse_delivers hb hp, ?walk, fun s cell b ho => commit_clauses ho, ?effects,
    fun s cell seq b v sts hb hs he hends hv heffs hl => releasePerformed_spec hb hs he hends hv heffs hl, ?control, fun s c p hn hg hp hcut hh h => takeGo_starts hn hg hp hcut hh h,
    fun s c r hr hn h => takeGo_waits hr hn h, fun s c hc => ⟨takeHalt_held hc, fun r hr hb => takeHalt_runs hc hr hb⟩, fun s cell r hr => outerPoint_spec hr,
    fun s n p r => ⟨completePoint_idle, completePoint_fires⟩, fun s x cell e h => formatChangeReach_spec h, ?monitor,
    fun m now k => ⟨monitor_sees_first now k, fun j t => monitor_sees_later k, monitor_sees_write⟩,
    fun s cell seq b hb => watchdog_inst hb, ?firing⟩
  case fetch =>
    intro s cell n blk p hdr code hp hc hi hn hl
    obtain ⟨⟨hmem, hinsts, hfirings⟩, hgood, hbad⟩ := fetchBlock_spec blk.toNat hdr code hp
    exact ⟨_, _, blockFetch_spec hp hc hi hn hl, rfl, hmem, hinsts, hfirings, rfl, rfl, rfl, rfl, rfl, hgood, hbad⟩
  case choice =>
    intro s cell hw
    refine ⟨firingChoice_none hw, fun f b hf hc hs hbest => ⟨_, firingChoice_fires hw hf hc hs hbest, hc ▸ fireInst_colour s f b, fun hcode hx hspawn => fireInst_plain hcode hx hspawn⟩⟩
  case walk =>
    intro s cell c va wn holder root k ho hva hh he
    exact ⟨fun d r hw => translationWalk_bad ho hva hh he hw, fun lv size pb rd wr hw => translationWalk_leaf ho hva hh he hw⟩
  case effects =>
    intro b s
    refine ⟨applyEff_hreg b s, fun r v => rfl, applyEff_plane b s, applyEff_haltTask b s, fun st v h => applyEff_store st h, fun i v => ?_⟩
    obtain ⟨hgen, hown, hreach⟩ := applyFmt_gen s b i v
    exact ⟨hgen, hreach, hown⟩
  case control =>
    intro s n tag
    exact ⟨fun h => ⟨congrArg _ (arriveControl_frozen true h), congrArg _ (arriveControl_frozen false h)⟩,
      fun h => ⟨congrArg _ (arriveControl_moves true h), congrArg _ (arriveControl_moves false h)⟩⟩
  case monitor =>
    intro s cell seq m hm
    refine ⟨fun k t he => ?_, monitorEvent_none hm, fun d => waitTimeout_due hm, waitTimeout_early hm⟩
    rw [monitorEvent_some hm he]
    exact ⟨fun ht => by rw [if_neg ht.not_gt], fun ht => by rw [if_pos ht]; rfl⟩
  case firing =>
    intro s cell seq f p hn hf hp
    obtain ⟨hwaits, hexpires⟩ := watchdog_firing hn hf
    exact ⟨hwaits, fun hd => ⟨_, hexpires hd, expireFiring_spec hp⟩⟩

end Sys2Proof.Proofs
end
